-- ==== Sys2Proof/Word.lean ====
section
/-!
DEFINITION. The word types of the model and its sparse tables.

The spec's registers are bit vectors (R7, R397, R421, R425); bytes are little-endian wherever a
record is laid out ("Conventions", Hex, bits and bytes). A table with one entry for each hide,
region, port or object is kept sparse: a list of key and value pairs, keys strictly rising, a missing key
standing for the table's own default value.
-/

namespace Sys2Proof

/-- A byte of a record, a ring line or an operand. -/
abbrev Byte := BitVec 8
/-- A 32-bit register or the bits of an fp32 number. -/
abbrev U32 := BitVec 32
/-- A 64-bit register or mask. -/
abbrev U64 := BitVec 64

/-- A sparse table: keys strictly rising; a key that is not listed has the table's default. -/
abbrev AMap (α : Type) := List (Nat × α)

/-- The value at key `k`, or the default `d`. -/
def AMap.get {α : Type} (d : α) : AMap α → Nat → α
  | [], _ => d
  | (k', v) :: t, k => if k' = k then v else AMap.get d t k

/-- The value at key `k`, when the key is listed. -/
def AMap.find {α : Type} : AMap α → Nat → Option α
  | [], _ => none
  | (k', v) :: t, k => if k' = k then some v else AMap.find t k

/-- Write `v` at key `k`, keeping the keys rising. -/
def AMap.set {α : Type} : AMap α → Nat → α → AMap α
  | [], k, v => [(k, v)]
  | (k', v') :: t, k, v =>
    if k' = k then (k, v) :: t
    else if k < k' then (k, v) :: (k', v') :: t
    else (k', v') :: AMap.set t k v

/-- Remove key `k`. -/
def AMap.erase {α : Type} : AMap α → Nat → AMap α
  | [], _ => []
  | (k', v') :: t, k => if k' = k then AMap.erase t k else (k', v') :: AMap.erase t k

/-- Add to a count register: counts saturate at all ones and never wrap (R11). -/
def satAdd {w : Nat} (a : BitVec w) (n : Nat) : BitVec w :=
  if a.toNat + n < 2 ^ w then BitVec.ofNat w (a.toNat + n) else BitVec.allOnes w

/-- Count one event (R11). -/
def satInc {w : Nat} (a : BitVec w) : BitVec w := satAdd a 1

/-- The number in bits `lo + len - 1` to `lo` of `n`. -/
def bits (n lo len : Nat) : Nat := n / 2 ^ lo % 2 ^ len

/-- Bit `i` of `n`. -/
def bit (n i : Nat) : Bool := n / 2 ^ i % 2 == 1

/-- The little-endian value of a list of bytes. -/
def leValue : List Byte → Nat
  | [] => 0
  | b :: t => b.toNat + 256 * leValue t

/-- The `n` little-endian bytes of a value. -/
def leBytes : Nat → Nat → List Byte
  | 0, _ => []
  | n + 1, v => BitVec.ofNat 8 (v % 256) :: leBytes n (v / 256)

/-- The `n` big-endian bytes of a value. -/
def beBytes (n v : Nat) : List Byte := (leBytes n v).reverse

/-- The little-endian field of `size` bytes at offset `off` of a record. -/
def fieldAt (r : List Byte) (off size : Nat) : Nat := leValue ((r.drop off).take size)

/-- Is every byte from `off`, `size` of them, zero (R12: reserved bytes). -/
def zeroAt (r : List Byte) (off size : Nat) : Bool := ((r.drop off).take size).all (· == 0)

/-- `ceil (a / b)`. -/
def ceilDiv (a b : Nat) : Nat := (a + b - 1) / b

/-- Round `a` up to a multiple of `b`. -/
def roundUp (a b : Nat) : Nat := ceilDiv a b * b

/-- The numbers below `n` whose bit is set in the mask `m`, rising. -/
def maskList (n m : Nat) : List Nat := (List.range n).filter (bit m)

/-- The mask with the listed bits set. -/
def listMask (l : List Nat) : Nat := l.foldl (fun m i => if bit m i then m else m + 2 ^ i) 0

end Sys2Proof
end

