-- ==== Sys2Proof/Plan.lean ====
section
/-!
DEFINITION. Decoded plan images: the ream, its LAYOUT, a HIDE section, model descriptors, slots and windows
(R48 to R55, R76, R78, R332).

The encoding of the member tables is Botia's and is not part of the Shoec contract (R51), so an image reaches the
model decoded: the fields of R48, R50 and R51 as numbers, the member tables as the slots and variants they hold.
-/

namespace Sys2Proof

/-- The slot classes of R53, in its order. -/
inductive SlotClass where
  | decode | append | prefill | backward | state | score | move | metaOrder | acre
  deriving DecidableEq, Repr

/-- The place of a class in the class order of R53. -/
def SlotClass.index : SlotClass → Nat
  | .decode => 0 | .append => 1 | .prefill => 2 | .backward => 3 | .state => 4
  | .score => 5 | .move => 6 | .metaOrder => 7 | .acre => 8

/-- A slot descriptor: class, start chain, length, regions covered and capacity per admission (R53), with the
limits of a DECODE slot: its buckets (R165) and its per-cluster budget (R166). -/
structure Slot where
  cls : SlotClass
  start : Nat
  len : Nat
  regions : Nat
  cap : Nat
  /-- BUCKET mode: (edge, units), edges rising (R165). -/
  buckets : List (Nat × Nat)
  /-- LENGTHS mode: bank-port bytes and engine cycles of each cluster (R166). -/
  bytesBudget : Nat
  cyclesBudget : Nat
  deriving DecidableEq, Repr

/-- A model descriptor (R76). -/
structure Desc where
  modelId : Nat
  layers : Nat
  kvHeads : Nat
  qPerKv : Nat
  headDim : Nat
  attn : Nat
  kvFormat : Nat
  posenc : Nat
  posParam : U32
  rodBytes : Nat
  stateBytes : Nat
  /-- Bit ℓ: layer ℓ is recurrent. -/
  layerKind : Nat
  deriving DecidableEq, Repr

/-- The 64 bytes of a model descriptor (R76). -/
def Desc.image (d : Desc) : List Byte :=
  leBytes 2 d.modelId ++ leBytes 2 d.layers ++ leBytes 1 d.kvHeads ++ leBytes 1 d.qPerKv ++
  leBytes 2 d.headDim ++ leBytes 1 d.attn ++ leBytes 1 d.kvFormat ++ leBytes 1 d.posenc ++ leBytes 1 0 ++
  leBytes 4 d.posParam.toNat ++ leBytes 4 d.rodBytes ++ leBytes 4 d.stateBytes ++ leBytes 32 d.layerKind ++
  leBytes 8 0

/-- Is the layer recurrent (R76). -/
def Desc.recurrent (d : Desc) (l : Nat) : Bool := bit d.layerKind l

/-- The attention layers, rising; their count is A (R76). -/
def Desc.attnLayers (d : Desc) : List Nat := (List.range d.layers).filter (fun l => !d.recurrent l)

/-- The recurrent layers, rising. -/
def Desc.stateLayers (d : Desc) : List Nat := (List.range d.layers).filter d.recurrent

/-- The pairs of a rod: Q (R77). -/
def Desc.pairs (d : Desc) : Nat := 8 * (if d.attn = 1 then 1 else d.kvHeads)

/-- Span rows of a rod: K heads then V heads, or one row for a latent rod (R77). -/
def Desc.spanRows (d : Desc) : Nat := if d.attn = 1 then 1 else 2 * d.kvHeads
/-- KV heads of the stored rod: 1 for a latent one. -/
def Desc.rodHeads (d : Desc) : Nat := if d.attn = 1 then 1 else d.kvHeads

/-- The span rows of pair `p`: K and V of its head, or the one latent span (R77). -/
def Desc.pairRows (d : Desc) (p : Nat) : List Nat :=
  if d.attn = 1 then [0] else [p % d.kvHeads, d.kvHeads + p % d.kvHeads]

/-- The query heads H (R140). -/
def Desc.heads (d : Desc) : Nat := d.kvHeads * d.qPerKv

/-- A page pool of LAYOUT (R78). -/
structure Pool where
  pool : Nat
  coded : Bool
  cellBytes : Nat
  q : Nat
  stripe : List Nat
  frames : Nat
  deriving DecidableEq, Repr

/-- The lanes of a pool: S / Q (R79). -/
def Pool.lanes (p : Pool) : Nat := p.stripe.length / p.q

/-- The lane of a frame (R79). -/
def Pool.lane (q : Pool) (f : Nat) : Nat := if q.lanes = 0 then 0 else f % q.lanes
/-- The cluster of pair `p` of frame `f` (R79). -/
def Pool.cluster (q : Pool) (f p : Nat) : Nat := q.stripe.getD (q.lane f * q.q + p) 0
/-- The cell address of frame `f` (R79), in cells. -/
def Pool.cell (q : Pool) (f : Nat) : Nat := if q.lanes = 0 then 0 else f / q.lanes

/-- A hide entry of LAYOUT (R50), with the hide's pools and its weight stripe from the member tables (R176). -/
structure HideEntry where
  hide : Nat
  ld : Nat
  confidential : Bool
  compat : Bool
  lengthWord : Bool
  lengths : Bool
  domains : Nat
  pfxLog2 : Nat
  cbSlots : Nat
  ringMib : Nat
  opndMib : Nat
  jobKeys : Nat
  seqEntries : Nat
  regions : Nat
  acres : List Nat
  dirLines : Nat
  extents : Nat
  fetchKib : Nat
  weightUnits : Nat
  ovfCells : Nat
  /-- For league port m: first LBA and sector count (R50). -/
  flash : List (Nat × Nat)
  pools : List Pool
  weightStripe : List Nat
  /-- Regions that hold the sequence table, and the prefix index and records (R446). -/
  seqRegions : Nat
  pfxRegions : Nat
  deriving DecidableEq, Repr

/-- A window entry: an egress window of a link (R51, R332). -/
structure Window where
  link : Nat
  owner : Nat
  chains : Nat
  start : Nat
  length : Nat
  deriving DecidableEq, Repr

/-- A hide's part of one variant: its slots, its register images PL_CLASS and PL_WAIT and its worst-case energy
(R51, R54, R72, R428). -/
structure HideVariant where
  kind : Nat
  index : Nat
  slots : List Slot
  plClass : List U32
  plWait : List U32
  energy : Nat
  deriving DecidableEq, Repr

/-- A HIDE section (R51), with its DIGEST of the section directory (R48). -/
structure Section where
  hide : Nat
  gen : Nat
  digest : Nat
  energy : Nat
  /-- Register images in the layouts of R339 and R426. -/
  plMiss : U32
  plToken : U32
  plClass : List U32
  plWait : List U32
  tgOrdPol : U64
  tgBytePol : U64
  tgCxlGate : U32
  tgLgGate : List U32
  descs : List Desc
  windows : List Window
  slots : List Slot
  variants : List HideVariant
  deriving DecidableEq, Repr

/-- The device part of a variant: section type, index and worst-case device energy (R49, R54). -/
structure DevVariant where
  kind : Nat
  index : Nat
  energy : Nat
  deriving DecidableEq, Repr

/-- The header of a ream (R48). -/
structure ReamHeader where
  magic : Nat
  format : Nat
  hdrSize : Nat
  member : Nat
  level : Nat
  planVersion : Nat
  totalSize : Nat
  sectionCount : Nat
  leanLength : Nat
  liveMask : Nat
  energyDevice : Nat
  envelope : Nat
  maintExp : Nat
  hideCount : Nat
  flags : Nat
  bodyDigest : Nat
  deriving DecidableEq, Repr

/-- A section directory entry (R48); its DIGEST is judged by `Ream.digestOk`. -/
structure DirEntry where
  typ : Nat
  owner : Nat
  index : Nat
  offset : Nat
  size : Nat
  deriving DecidableEq, Repr

/-- A received plan image, decoded. The three verdicts stand for checks over bytes whose encodings the spec leaves to
Botia and to Dexfoti's standard algorithms (R58 steps 2, 3, 7 and 8). -/
structure Ream where
  header : ReamHeader
  dir : List DirEntry
  layoutDigest : Nat
  hides : List HideEntry
  sections : List Section
  variants : List DevVariant
  /-- Device windows of the CONTROL and gate tables (R332). -/
  windows : List Window
  sigOk : Bool
  digestOk : Bool
  /-- Pools and acres fit their shares, or the section uses only the cycles it may use (R58 step 7, R61). -/
  fits : Bool
  /-- The lap-use summary is free of conflict and no refresh window lies in chain 0 (R58 step 8). -/
  lapOk : Bool
  deriving DecidableEq, Repr

end Sys2Proof
end

