-- ==== Sys2Proof/Operand.lean ====
section
/-!
DEFINITION. The operand types of the commands: who is named, what an outside party supplies, and what the device's
own checks find while a command's work runs.
-/

namespace Sys2Proof

/-- A hide, 0 to 15 (R367). -/
abbrev Hide := Fin 16
/-- A logical device, 0 to 15 (R281). -/
abbrev Ld := Fin 16
/-- A region, 0 to 63 (R14). -/
abbrev Rgn := Fin 64
/-- A league port, 0 to 7 (R307). -/
abbrev Port := Fin 8
/-- A chain of a furlong, 0 to 9 (R42). -/
abbrev Chain := Fin 10
/-- A cluster of the device, 0 to 4,095 (R14). -/
abbrev Cluster := Fin 4096

/-! ### What the checks of R340 find while an order runs -/

/-- The replay unit that a failed transit, residue or parity check names (R346): a leaf of an entry, block and KV head,
a combine node of an entry, the output of an entry, or a unit of an order that is one consumer as a whole. -/
inductive UnitRef where
  | leaf (entry block head : Nat)
  | node (entry : Nat)
  | output (entry : Nat)
  | whole
  deriving DecidableEq, Repr

/-- A suspect replay unit: its cause in the coding of R352 and where it was found. -/
structure Suspect where
  unit : UnitRef
  cause : Nat
  region : Nat
  cluster : Nat
  /-- Physical unit of the cluster; 0xFF when the check names a cluster-shared resource or a link (R353). -/
  phys : Nat
  deriving DecidableEq, Repr

/-- Poisoned metadata, as the rows of R345 name it. -/
inductive MetaRef where
  | seqRecord (handle : Nat)
  | pageList (handle layer : Nat)
  | bucket (b : Nat)
  | pfxRecord (index : Nat)
  | summary (frame : Nat)
  | score (handle layer block : Nat)
  | bookHome (key : Nat)
  | extentEntry (e : Nat)
  deriving DecidableEq, Repr

/-- An ECC result on a line of a frame (R342): which frame and pair, and whether it could be corrected. -/
structure DramErr where
  frame : Nat
  pair : Nat
  uncorr : Bool
  deriving DecidableEq, Repr

/-- What the checks find during one order's work (R340 to R346); an empty record is work without an error. -/
structure Env where
  dram : List DramErr
  /-- Stored block checks that fail, as (frame, pair) (R340 row 1). -/
  badCheck : List (Nat × Nat)
  metas : List MetaRef
  /-- Weight sets and state objects whose stored data reads poisoned. -/
  setPoison : List Nat
  statePoison : List (Nat × Nat)
  /-- Consumers (batch entries; 0 for an order as a whole) that read an uncorrectable tile-buffer word of a working
  copy (R343). -/
  tile : List Nat
  suspects : List Suspect
  deriving DecidableEq, Repr

/-- Work in which every check passes. -/
def Env.clean : Env := ⟨[], [], [], [], [], [], []⟩

/-- What a replay returns (R349, R350). -/
inductive ReplayOut where
  | equal | differs | suspect
  deriving DecidableEq, Repr

/-! ### CXL -/

/-- The read kinds of R303: read shared (S), ownership (A), uncached (I). -/
inductive ReadKind where
  | shared | ownership | uncached
  deriving DecidableEq, Repr

/-- The result of a DMA read completion (R291): data, or an error that poisons it. -/
inductive DmaResult where
  | good (data : List Byte)
  | poisoned
  deriving DecidableEq, Repr

/-- The parts of a ring set (R250). -/
inductive RingKind where
  | order | completion | event
  deriving DecidableEq, Repr

/-! ### League links -/

/-- The operations of R315. -/
inductive LgOp where
  | read | write | trim | identify | eraseKey
  deriving DecidableEq, Repr

/-- A sector as it stands on a module or on the link: the metadata of R323 and the plaintext that its ciphertext
seals. `keyBits` is the key it was sealed under; `intact` is false when ciphertext or tag was altered. -/
structure Sector where
  serial : Nat
  chunk : Nat
  extent : Nat
  hide : Nat
  keyKind : Nat
  key : Nat
  keyBits : BitVec 256
  plain : List Byte
  intact : Bool
  deriving DecidableEq, Repr

/-- The header checks of an arriving frame that R318 lists before its content is used: CRC good, header well formed. -/
structure FrameCheck where
  crcOk : Bool
  wellFormed : Bool
  seq : Nat
  deriving DecidableEq, Repr

/-- The parameters an IDENTIFY answer reports (R310). -/
structure ModuleId where
  serial : Nat
  sectorBytes : Nat
  metaBytes : Nat
  partitions : Nat
  commands : Nat
  transfer : Nat
  capacity : Nat
  deriving DecidableEq, Repr

/-- The payload of an RDATA frame: a sector, a failed sector (FAIL set), or IDENTIFY data. -/
inductive RData where
  | sector (s : Sector)
  | failed
  | ident (m : ModuleId)
  deriving DecidableEq, Repr

/-- The BODY of a CTRL frame (R313). -/
structure Ctrl where
  ack : Nat
  nak : Option Nat
  crCmd : Nat
  crWdata : Nat
  crRsp : Nat
  crRdata : Nat
  deriving DecidableEq, Repr

/-! ### Loads -/

/-- A pattern of a screen package (R358). -/
structure Pattern where
  id : Nat
  level : Nat
  action : Nat
  target : Nat
  format : Nat
  offset : Nat
  size : Nat
  cycles : Nat
  expect : U32
  deriving DecidableEq, Repr

/-- A screen-pattern package, decoded (R358), with the verdicts of Dexfoti's algorithms over its bytes. -/
structure Package where
  magic : Nat
  format : Nat
  hdrSize : Nat
  member : Nat
  version : Nat
  totalSize : Nat
  /-- Stress points as (VDROP, FUP). -/
  points : List (Nat × Nat)
  patterns : List Pattern
  bodyDigest : Nat
  sigOk : Bool
  digestOk : Bool
  deriving DecidableEq, Repr

/-- A firmware image (R417): its security version and digest, and the verdict on its signature. -/
structure Firmware where
  svn : Nat
  digest : Nat
  sigOk : Bool
  deriving DecidableEq, Repr

/-- The bytes of a finished load, decoded by its KIND (R415). -/
inductive LoadImage where
  | ream (r : Ream)
  | package (p : Package)
  | firmware (f : Firmware)
  deriving DecidableEq, Repr

/-- A certificate or its digest in an anchor request (R392, R416). -/
structure AnchorReq where
  kind : Nat
  role : Nat
  /-- SM3 of the certificate, as a number. -/
  digest : Nat
  deriving DecidableEq, Repr

/-- The roles of a management anchor (R392). -/
inductive Role where
  | admin | operator | observer
  deriving DecidableEq, Repr

/-- A debug unlock token (R384): over which serial and challenge, and the verdict on its signature. -/
structure Token where
  serial : Nat
  challenge : Nat
  sigOk : Bool
  deriving DecidableEq, Repr

/-- The address family that a session runs over (R436): IPv4, a global IPv6 address, or the IPv6 link-local one. -/
inductive NetFamily where
  | ip4 | ip6 | linkLocal
  deriving DecidableEq, Repr

/-- The head of a management request (R413, R414): session number and requester's TAG. -/
structure Req where
  session : Nat
  tag : Nat
  deriving DecidableEq, Repr

/-- The result of a region reset's tests (R410, R416): 0 or a code of R395 or 0x80, with the pattern ID. -/
structure RegionTest where
  code : Nat
  pattern : Nat
  deriving DecidableEq, Repr

/-- The JTAG instructions of R383 and R444. -/
inductive TapOp where
  | idcode | bypass | samplePreload | extest | acTest | internalChain
  deriving DecidableEq, Repr

end Sys2Proof
end

