-- ==== Sys2Proof/Syntax.lean ====
section
/-!
DEFINITION. The commands: one constructor for each row of spec/opcode_table.json, in the table's order.

A row that stands for an order of a hide names the hide, the chain at whose boundary it is admitted, and what the
checks of R340 find while its work runs; the order itself is the one at the head of its class in the hide's admission
queue (R65). A row that an outside party causes carries what that party supplies.
-/

namespace Sys2Proof

/-- The commands of the device (spec/opcode_table.json). -/
inductive Instr where
  -- power, clocks and furlongs
  | standbyStart
  | resetRelease (straps0 straps1 straps2 : BitVec 6) (testCode : BitVec 8) (xtsFail : BitVec 64) (torn : Bool)
  | powerUpStepOverrun (step : Nat)
  | powerLoss (byVin : Bool)
  | protectiveShutdown
  | resetN
  | vinSample (vin iin : BitVec 16)
  | monitorFail
  | sensorSample (readings : List (Nat × Int))
  | sensorTimeout (sensor : Nat)
  | leanReturnCount
  | clockMonitorWindow (bad : BitVec 11)
  | regionClockWindow (ppm : List (Nat × Int))
  | pllLossOfLock (r : Rgn)
  | entropyHealthFail
  | furlongCounterComplete (r : Rgn)
  | boundaryMark (r src : Rgn) (low : BitVec 8)
  | furlongStart (r : Rgn)
  | boundaryLimit (r : Rgn)
  | switchNotice
  | drainLimit
  -- screening and records
  | heldOutRotation (c : Cluster)
  | screenPatternRun (c : Cluster) (phys pattern : Nat) (result : U32)
  | screenSummary
  | bankGroupFaultRecord
  -- gates
  | gateFurlongStart
  | policerRefill
  | egressFrameStart (link : Fin 9) (chain : Chain) (cycle : Nat)
  -- the CXL port
  | cxlMemWrite (ld : Ld) (off : Nat) (data : List Byte) (poison writeBack : Bool) (cycle : Nat)
  | cxlMemRead (ld : Ld) (off : Nat) (kind : ReadKind)
  | cxlMemInv (ld : Ld) (off : Nat)
  | uioRead (ld : Ld) (off : Nat)
  | uioWrite (ld : Ld) (off : Nat) (data : List Byte) (poison : Bool) (cycle : Nat)
  -- the queue engine
  | packetTake (h : Hide)
  | packetTimeout (h : Hide) (ring : Fin 8)
  | heldPostTimeout (h : Hide)
  | queuePointerMismatch (h : Hide) (kind : RingKind) (ring : Fin 8)
  -- orders
  | admitSeq (h : Hide) (c : Chain) (e : Env)
  | admitSeqExtend (h : Hide) (c : Chain) (e : Env)
  | retireSeq (h : Hide) (c : Chain) (e : Env)
  | forkPrefix (h : Hide) (c : Chain) (e : Env)
  | lookupPrefix (h : Hide) (c : Chain) (e : Env)
  | lookupPrefixContinue (h : Hide) (c : Chain) (e : Env)
  | hashLaneDone (h : Hide)
  | publishPrefixCreate (h : Hide) (c : Chain) (e : Env)
  | publishPrefixPromote (h : Hide) (c : Chain) (e : Env)
  | publishPrefixWithdraw (h : Hide) (c : Chain) (e : Env)
  | stepDecode (h : Hide) (c : Chain) (e : Env)
  | fetchArrival (h : Hide) (fetch : Nat)
  | fetchDeadline (h : Hide) (fetch : Nat)
  | deferReentry (h : Hide) (c : Chain) (e : Env)
  | stepPrefill (h : Hide) (c : Chain) (e : Env)
  | stepBackward (h : Hide) (c : Chain) (e : Env)
  | projectAppend (h : Hide) (c : Chain) (e : Env)
  | recode (h : Hide) (c : Chain) (e : Env)
  | stateStep (h : Hide) (c : Chain) (e : Env)
  | scoreTopk (h : Hide) (c : Chain) (e : Env)
  | place (h : Hide) (c : Chain) (e : Env)
  | swapOut (h : Hide) (c : Chain) (e : Env)
  | swapIn (h : Hide) (c : Chain) (e : Env)
  | evictScore (h : Hide) (c : Chain) (e : Env)
  | deliverPages (h : Hide) (c : Chain) (e : Env)
  | deliverDeadline (h : Hide)
  | loadCodebook (h : Hide) (c : Chain) (e : Env)
  | retireCodebook (h : Hide) (c : Chain) (e : Env)
  | codebookSlotReload (h : Hide) (key : Nat) (c : Cluster) (ok : Bool)
  | loadWeights (h : Hide) (c : Chain) (e : Env)
  | loadWeightsRetire (h : Hide) (c : Chain) (e : Env)
  | txnBegin (h : Hide)
  | txnCommit (h : Hide)
  | txnAbort (h : Hide)
  | txnDecision (h : Hide) (txn : Nat)
  | txnTimeout (h : Hide) (ring : Fin 8)
  | dropRest (h : Hide)
  -- replay and DRAM
  | replayStart (r : Rgn)
  | replayResult (replay : Nat) (out : ReplayOut)
  | dramCorrectiveWriteback (c : Cluster)
  -- DMA reads
  | dmaReadCompletion (h : Hide) (tag : Nat) (result : DmaResult)
  | dmaReadTimeout (h : Hide) (tag : Nat)
  -- acres and leases
  | lease (h : Hide) (v : U64)
  | release (h : Hide) (v : U64)
  | sealAcre (h : Hide) (v : U64)
  | grant (h : Hide) (v : U64)
  | attach (h : Hide) (v : U64)
  | revoke (h : Hide) (v : U64)
  | leaseRecallComplete (h : Hide)
  | acRenew (h : Hide) (mask : U64)
  | leaseExpiry (h : Hide) (slot : Fin 64)
  | leaseDrainComplete (h : Hide) (slot : Fin 64)
  | acreScrubComplete (h : Hide) (slot : Fin 64)
  | acreRequestServe (h : Hide)
  | biSnoopResponse (h : Hide) (off : Nat) (data : Option (List Byte))
  | biSnoopTimeout (h : Hide) (off : Nat)
  | poisonMarkWrite (acre : Fin 384) (line : Nat)
  -- attach, rings, buffers, keys, registers
  | hdmDecoderCommit (ld : Ld) (size ways base : Nat) (lock : Bool)
  | ringEnable (h : Hide) (kind : RingKind) (ring : Fin 8) (ctl : U32)
  | ringDisable (h : Hide) (kind : RingKind) (ring : Fin 8) (ctl : U32)
  | bufferEnable (h : Hide) (b : Fin 64) (ctl : U32)
  | bufferDisable (h : Hide) (b : Fin 64) (ctl : U32)
  | jobkeyCreate (h : Hide) (v : U32)
  | jobkeyDestroy (h : Hide) (v : U32)
  | registerWrite (h : Hide) (off size : Nat) (v : U64) (poison : Bool)
  | rcRegisterRead (h : Hide) (off size : Nat)
  -- hide reset
  | hideResetGo (h : Hide) (drain : Bool)
  | hideResetProceed (h : Hide)
  | hideResetEndingDone (h : Hide)
  | hideResetHeldTimeout (h : Hide)
  | hideResetKeysDone (h : Hide)
  | hideResetReleaseDone (h : Hide)
  | hideResetScrubDone (h : Hide)
  | flr (ld : Ld)
  | cxlLinkDown
  | cxlPerstN
  | cxlLinkWidthChange (width rate : Nat)
  | ideIntegrityFail (stream : Option Ld)
  | tspLock (h : Hide)
  | tspStart (h : Hide)
  | tspStop (h : Hide)
  | spdmGetMeasurements (mailbox : Option Ld) (nonce : BitVec 256)
  | doeBegin (ld : Ld) (mode size : Nat)
  | doeData (ld : Ld) (load off len : Nat)
  | doeEnd (ld : Ld) (load : Nat) (image : Ream)
  | doeStatus (ld : Ld) (load : Nat)
  | doeCancel (ld : Ld) (load : Nat)
  -- the management port
  | sessionHandshake (anchor : Option Nat) (family : NetFamily)
  | sessionIdleTimeout (session : Nat)
  | handshakeRefusalExpiry
  | statusProbe (nonce : BitVec 64)
  | regRead (q : Req) (off count : Nat)
  | regWrite (q : Req) (off : Nat) (v : U64) (width : Nat)
  | loadBegin (q : Req) (kind mode size : Nat)
  | loadData (q : Req) (load off len : Nat)
  | loadEnd (q : Req) (load : Nat) (image : LoadImage)
  | loadReceiveTimeout
  | loadStatus (q : Req) (load : Nat)
  | loadCancel (q : Req) (load : Nat)
  | telemetry (q : Req)
  | subscribe (q : Req) (period notices : Nat)
  | telemetryPeriod (session : Nat)
  | bbRead (q : Req) (seq limit : Nat)
  | hideReset (q : Req) (hide mode : Nat)
  | deviceReset (q : Req) (confirm : Nat)
  | regionReset (q : Req) (region : Nat) (result : RegionTest)
  | setTime (q : Req) (rtc : U64)
  | anchorEnroll (q : Option Req) (a : AnchorReq)
  | anchorRemove (q : Req) (a : AnchorReq)
  | floorRaise (q : Req) (floor : U32)
  | lifecycle (q : Req) (target sealing : Nat)
  | debugChallenge (q : Req)
  | debugToken (q : Req) (t : Token)
  | selftestRun (q : Req) (code : BitVec 8)
  -- league links
  | trainingStepComplete (p : Port) (lanes : BitVec 4)
  | trainingStepTimeout (p : Port)
  | trainingRetry (p : Port)
  | leagueRsp (p : Port) (chk : FrameCheck) (tag status failed : Nat)
  | leagueRdata (p : Port) (chk : FrameCheck) (tag sector : Nat) (payload : RData)
  | leagueCtrl (p : Port) (ok : Bool) (c : Ctrl)
  | leagueCtrlSend (p : Port)
  | leagueReplayTimeout (p : Port)
  | leagueIdleTimeout (p : Port)
  | leagueCommandTimeout (p : Port) (tag : Nat)
  | laneFault (p : Port) (lane : Fin 4)
  | symbolErrorWindow (p : Port) (lane : Fin 4) (errors : Nat)
  -- further pins and links
  | holdupOk
  | cxlLinkUp (width rate : Nat)
  | ideStreamEstablished (stream : Option Ld)
  | configurationWrite (ld : Ld) (off : Nat) (v : U32)
  | phyIntN (answered : Bool)
  | sessionClose (session : Nat)
  | tapInstruction (op : TapOp)
  deriving DecidableEq, Repr

end Sys2Proof
end

