-- ==== Sys2Proof/Decode.lean ====
section
/-!
DEFINITION. The decoder over the rows of spec/opcode_table.json that give bits. No row gives any: the commands are events
and requests, each with its own carrier, so a word spells no command.
-/

namespace Sys2Proof

/-- The command a word spells by the table's bits: none, since every row's field list is empty. -/
def decodeTableWord (_nbits _w : Nat) : Option Instr := none

end Sys2Proof
end

