-- ==== Sys2Proof/Config.lean ====
section
/-!
DEFINITION. What one VX96 fixes at manufacture and what the spec leaves open.

Each constant is opaque: nothing in Lean can see its value, so a statement about it holds for every value.
-/

namespace Sys2Proof.Config

/-- Free values: the n-th 256-bit draw of Dexfoti's DRBG (R373, R374, R381, R384). Assumption 1. -/
opaque drbg : Nat → BitVec 256

/-- Free value: byte `a` of acre memory that nothing has written under the owner's key: zero plaintext of another key, read
under the owner hide's root (R292, R374, R400), whose value this is with the session root before it. Assumption 2. -/
opaque acreByte : BitVec 256 → BitVec 256 → Nat → BitVec 8

/-- The device serial number, from fuses (R373, R445). -/
opaque deviceSerial : BitVec 64
/-- The stepping, from fuses (R411, R445). -/
opaque stepping : BitVec 8
/-- The management MAC address, from fuses (R413). -/
opaque macAddress : BitVec 48
/-- The fused device secret from which the device keys are derived (R373). -/
opaque deviceSecret : BitVec 256
/-- SM3 of the device's SM2 public key (R101, R310). -/
opaque deviceKeyDigest : BitVec 256

/-- SM3 of the Dexfoti ROM (R387). -/
opaque romDigest : BitVec 256
/-- Free value: the SM2 signature of the identity key over a transcript, under a draw of the DRBG (R386). Assumption 33. -/
opaque signature : List (BitVec 8) → BitVec 256 → BitVec 512

/-- Free value: the n-th value that the spec leaves open after an operation completes. Assumption 3. -/
opaque freeWord : Nat → BitVec 64

/-- Free value: which overflow cell of the cluster's reserve is the n-th of pair `p` of a coded rod (R234). Assumption 32. -/
opaque overflowCell : Nat → Nat → BitVec 32

/-- Free value: the n-th reading of HD_SCRUB_LEFT during SCRUB (R397). Assumption 8. -/
opaque scrubLeft : Nat → BitVec 17

end Sys2Proof.Config
end

