-- ==== Sys2Proof/Machine/DevParts.lean ====
section
/-!
DEFINITION. What the device holds outside its hides: power and clocks, regions and clusters, the plan controller,
acres, gates, the CXL port, the league ports, Dexfoti, the management controller, the black box, screening and the
test port. Each part is plain data with a reset value.
-/

namespace Sys2Proof.Machine
open Sys2Proof

/-! ### Power, sensors and alerts (R399 to R406, R421, R443) -/

/-- How far the device has come up (R400), and the states of R419. -/
inductive PowerState where
  /-- No supply; the standby domain runs; hold-up charged and reset released to the rails and tests; running; held in
  reset by a step overrun; switched off after a power-loss sequence; the compute dies off after a trip. -/
  | off | standby | ready | running | overrun | lost | tripped
  deriving DecidableEq, Repr

/-- The power domain. -/
structure Power where
  st : PowerState
  /-- The last step of R400 that ended, and the step that overran (0 for none). -/
  step : Nat
  overrun : Nat
  holdup : Bool
  /-- The cause of the next device reset, latched always-on (R411): 1 power-up, 2 RESET_N, 3 PWRGD_IN, 4 DEVICE_RESET,
  5 protective shut-down, 6 power loss by VIN, 7 a trip of the I/O die. -/
  cause : Nat
  vin : BitVec 16
  iin : BitVec 16
  /-- The last samples of VIN, newest first, at most four (R405). -/
  vins : List Nat
  monFailed : Bool
  /-- The samples of the last 2^10 furlongs, oldest first, as (furlong, power in units of 10 mV × 10 mA), and their mean
  in W (R401, R421). -/
  pows : List (Nat × Nat)
  watts : Nat
  /-- Mean of the last 2^16 furlongs in W, sampled by HD_PWR (R397), with its own window. -/
  longSum : Nat
  longCount : Nat
  longStart : Nat
  longWatts : Nat
  tLean : U32
  leanCount : U32
  alert : U32
  /-- A thermal trip has occurred, until step 3 of the next device reset (R443). -/
  trip : Bool
  /-- Always-on ticks since reset (R298, R409). -/
  ticks : Nat
  deriving DecidableEq, Repr

def Power.reset : Power :=
  { st := .off, step := 0, overrun := 0, holdup := false, cause := 1, vin := 0, iin := 0, vins := [],
    monFailed := false, pows := [], watts := 0, longSum := 0, longCount := 0,
    longStart := 0, longWatts := 0, tLean := 95, leanCount := 0, alert := 0, trip := false, ticks := 0 }

/-- One temperature sensor (R402): its last valid reading, invalid readings in a row, failure. -/
structure Sensor where
  value : Int
  bad : Nat
  failed : Bool
  /-- At or above its trip level at the last sample (R404). -/
  trip : Bool
  deriving DecidableEq, Repr

def Sensor.reset : Sensor := ⟨0, 0, false, false⟩

/-! ### Clocks and regions (R28 to R34, R42, R43, R353, R408) -/

/-- A region: its furlong counter, its marks, its health. -/
structure Region where
  /-- The counter has completed its furlong; the furlong index; marks counted toward that furlong, by neighbour
  (R30, R43). -/
  done : Bool
  index : BitVec 48
  marks : List Nat
  /-- Mark from a neighbour that is already a furlong ahead. -/
  early : List Nat
  late : U32
  /-- Furlongs in which this region's own marks were late at a neighbour, newest first (R31). -/
  lateAt : List Nat
  failed : Bool
  lockLost : Bool
  ppm : BitVec 16
  /-- Strikes of the region clock window (R32). -/
  strikes : Nat
  /-- Region switched out by a DEGRADE_REGION variant, or running a DEGRADE_CLUSTER variant of a cluster (R72). -/
  excluded : Bool
  degraded : Option Nat
  /-- In its maintenance furlong (R71); the next stress point (R355). -/
  maint : Bool
  point : Nat
  /-- DRAM temperature flag (R403). -/
  hot : Bool
  xtsFail : Bool
  /-- Transit-check failures of the region's links in the window of R353, by furlong. -/
  linkFails : List Nat
  /-- Furlongs run while a ream is active, for the rotation of its clusters (R356). -/
  held : Nat
  deriving DecidableEq, Repr

def Region.reset : Region :=
  { done := false, index := 0, marks := [], early := [], late := 0, lateAt := [], failed := false, lockLost := false,
    ppm := 0, strikes := 0, excluded := false, degraded := none, maint := false, point := 0, hot := false,
    xtsFail := false, linkFails := [], held := 0 }

/-- A cluster (R17, R354, R356): its spare-unit map where it differs from slot i to unit i, failed units, the held-out
unit, its test so far, its events, and the tile-buffer lines whose VALID bit is set (R377). -/
structure ClusterSt where
  map : AMap Nat
  failed : List Nat
  heldOut : Option Nat
  passing : Bool
  heldSince : Nat
  /-- Furlongs of MASKED or FAILED outcomes by physical unit, and of events on shared resources (R353). -/
  unitEvents : List (Nat × Nat)
  sharedEvents : List Nat
  sharedFailed : Bool
  /-- Logical slots whose unit failed and waits for the boundary (R354). -/
  remap : List Nat
  excluded : Bool
  /-- Hides, and 0xFF for the device, whose lines of the tile buffer hold valid data. -/
  valid : List Nat
  /-- Corrected lines that wait for write-back, as (frame key, pair) (R342), and error counts since the last
  record (R353). -/
  writeback : List (Nat × Nat × Nat)
  corrected : Nat
  uncorrected : Nat
  deriving DecidableEq, Repr

def ClusterSt.reset : ClusterSt :=
  { map := [], failed := [], heldOut := none, passing := true, heldSince := 0, unitEvents := [], sharedEvents := [],
    sharedFailed := false, remap := [], excluded := false, valid := [], writeback := [], corrected := 0,
    uncorrected := 0 }

/-- The clock monitors (R408): references absent or off in the last window, and lost, in the bit order of CK_STAT. -/
structure Clocks where
  bad : BitVec 11
  lost : BitVec 11
  /-- The always-on clock has been lost since device reset (R409). -/
  aonLost : Bool
  /-- A window has ended, so that CK_STAT reports (R421). -/
  seen : Bool
  deriving DecidableEq, Repr

def Clocks.reset : Clocks := ⟨0, 0, false, false⟩

/-! ### The plan controller (R34, R59, R69 to R73) -/

/-- What a switch notice switches (R73). -/
inductive Switch where
  | lean (on : Bool)
  | region (r : Nat)
  | cluster (c : Nat)
  | remap (c : Nat)
  | sect (h : Nat)
  | ream
  | maintain (r : Nat)
  deriving DecidableEq, Repr

/-- A staged whole ream (R59): its load, and how far its activation has come (0 staged, 1 draining). -/
structure StagedReam where
  ream : Ream
  load : Nat
  stage : Nat
  deriving DecidableEq, Repr

/-- The plan controller. -/
structure Plan where
  ream : Option Ream
  staged : Option StagedReam
  /-- Furlong index of the last boundary of the plan controller (R425). -/
  furlong : Nat
  /-- The model's own: furlongs run under earlier activations since device reset, for the windows that an activation
  does not restart (R353, R405). -/
  base : Nat
  lean : Bool
  /-- Furlong at which lean was entered, and since when the return conditions have held (R405). -/
  leanFrom : Nat
  coolFrom : Option Nat
  /-- Triggers that no notice has named, and switches that notices have named, by furlong (R69). -/
  triggers : List Switch
  notices : List (Nat × Switch)
  /-- The furlong, counted since device reset, whose notice slot has passed. -/
  noticeAt : Option Nat
  /-- Activations since device reset (R389, R419). -/
  activations : U32
  /-- Variants in force, as (section type, index) (R72). -/
  variants : List (Nat × Nat)
  maintRun : U32
  maintSkip : U32
  /-- A region failed for which the plan has no variant (R31): admission has stopped. -/
  stopped : Bool
  deriving DecidableEq, Repr

def Plan.reset : Plan :=
  { ream := none, staged := none, furlong := 0, base := 0, lean := false, leanFrom := 0, coolFrom := none, triggers := [],
    notices := [], noticeAt := none, activations := 0, variants := [], maintRun := 0, maintSkip := 0, stopped := false }

/-! ### Acres (R292 to R305) -/

/-- A place of an acre: its owner while it is leased, whether it can be leased, the bytes written since its content was
last known, and its poisoned lines. -/
structure Acre where
  owner : Option Nat
  free : Bool
  /-- Out of its allotment until device reset (R294). -/
  gone : Bool
  /-- The hide root under which a scrub has last written the whole acre with zero plaintext (R301); none since device
  reset. -/
  zeroUnder : Option (BitVec 256)
  bytes : List (Nat × Byte)
  poison : List Nat
  /-- Lines whose poison mark waits for the owner's ACRE window (R304). -/
  marks : List Nat
  deriving DecidableEq, Repr

def Acre.reset : Acre := ⟨none, true, false, none, [], [], []⟩

/-! ### What waits at a transmitter (R333) -/

/-- Why a command was issued: its owner's job, a trim of freed sectors, the ERASE_KEY or TRIM of R329, IDENTIFY. -/
inductive CmdFor where
  | job (hide job first : Nat)
  | trim (hide lba count : Nat)
  | erase (part : Nat)
  | allot (hide lba count : Nat)
  | ident
  deriving DecidableEq, Repr

/-- The content of a frame. A league command and its data carry why they were issued; the tag is given when the frame starts. -/
inductive EgBody where
  /-- CXL.io: a posted write (address, bytes, EP), a read request (address, length, DMA tag). -/
  | ioWrite (addr : Nat) (data : List Byte) (ep : Bool)
  | ioRead (addr len tag : Nat)
  | ioData (data : List Byte) (ep : Bool)
  /-- CXL.mem: data response, response without data, back-invalidate snoop. -/
  | drs (off : Nat) (data : List Byte) (poison shared : Bool) (devLoad : Nat)
  | ndr (off devLoad : Nat)
  | snoop (off : Nat) (inv : Bool)
  /-- League: a command and a write sector. -/
  | cmd (tag : Nat) (op : LgOp) (part lba count : Nat) (why : CmdFor)
  | wdata (tag index : Nat) (s : Sector) (why : CmdFor)
  | ctrl (c : Ctrl)
  | train (step : Nat)
  | unsupported
  deriving DecidableEq, Repr

/-- A frame that waits, with its charge in bytes (R333). -/
structure EgFrame where
  charge : Nat
  body : EgBody
  deriving DecidableEq, Repr

/-- The two queues of one owner on one link: MEM and IO, or CMD and WDATA (R333). -/
structure EgQueue where
  first : List EgFrame
  second : List EgFrame
  deriving DecidableEq, Repr

def EgQueue.empty : EgQueue := ⟨[], []⟩

/-- The gates (R331 to R336). -/
structure Gates where
  /-- Furlong index of the last boundary of the plan controller (R331, R425). -/
  furlong : Nat
  /-- Queues by link × 32 + owner (owner 16 for the device). -/
  queues : AMap EgQueue
  /-- Virtual time by link × 16 + group; finish tag and the start tag of the head frame by link × 16 + hide, in units of
  2^−16 B (R335). -/
  vtime : AMap (BitVec 64)
  finish : AMap (BitVec 64)
  start : AMap (BitVec 64)
  /-- Queues (key × 2, plus 1 for the second queue) whose head has already been counted as waiting (R339). -/
  waited : List Nat
  /-- Until when each link's transmitter is busy: the chain, counted from furlong 0, and the time within it in units of
  `linkUnit`. -/
  busy : AMap (Nat × Nat)
  /-- Frames that have left, newest last: (link, owner, frame); the record of what the device has sent. -/
  sent : List (Nat × Nat × EgFrame)
  deriving DecidableEq, Repr

def Gates.reset : Gates := ⟨0, [], [], [], [], [], [], []⟩

/-! ### The CXL port (R279 to R286) -/

/-- An IDE stream: not set up, secure, or insecure since a failed check (R279). -/
inductive Ide where
  | off | secure | insecure
  deriving DecidableEq, Repr

/-- One logical device: its HDM decoder and its streams. -/
structure LdSt where
  decoder : Option (Nat × Nat × Nat)
  decLocked : Bool
  decError : Bool
  ideIo : Ide
  config : AMap U32
  deriving DecidableEq, Repr

def LdSt.reset : LdSt := ⟨none, false, false, .off, []⟩

/-- The port. -/
structure Cxl where
  width : Nat
  rate : Nat
  changes : U32
  ideMem : Ide
  lds : AMap LdSt
  deriving DecidableEq, Repr

def Cxl.reset : Cxl := ⟨0, 0, 0, .off, []⟩

/-! ### League ports (R307 to R330) -/

/-- Port states (R330). -/
inductive PortState where
  | down | training | active | refused | disabled
  deriving DecidableEq, Repr

def PortState.code : PortState → Nat
  | .down => 0 | .training => 1 | .active => 2 | .refused => 3 | .disabled => 4

/-- An outstanding command (R316, R317). -/
structure Cmd where
  tag : Nat
  op : LgOp
  part : Nat
  lba : Nat
  count : Nat
  why : CmdFor
  got : List Nat
  rsp : Option Nat
  failedSectors : Bool
  checkFailed : Bool
  deriving DecidableEq, Repr

/-- A league port. -/
structure PortSt where
  st : PortState
  width : Nat
  maxWidth : Nat
  lanes : BitVec 4
  step : Nat
  attempts : Nat
  waiting : Bool
  ctl : U32
  cmdTo : U32
  err : U32
  capacity : U64
  crcErr : U32
  replay : U32
  retrain : U32
  discard : U32
  timeout : U32
  sectFail : U32
  late : U32
  withheld : U32
  /-- The accepted module and the serial of the previous acceptance (R319, R328). -/
  module : Option ModuleId
  serial : Option Nat
  offered : Option ModuleId
  cmds : List Cmd
  /-- Retired tags of timed-out commands (R317). -/
  retired : List Nat
  /-- Next SEQ to send and expected, replay buffer as (SEQ, frame), replays in a row from one SEQ (R312). -/
  txSeq : Nat
  rxSeq : Nat
  unacked : List (Nat × EgFrame)
  replays : Nat
  nakSent : Bool
  /-- Cumulative counts: frames sent and credits granted by the module; credits granted to it (R314). -/
  sentCmd : Nat
  sentWdata : Nat
  crCmd : Nat
  crWdata : Nat
  crRsp : Nat
  crRdata : Nat
  /-- Erase and trim commands to issue before any other (R328, R329). -/
  first : List CmdFor
  deriving DecidableEq, Repr

def PortSt.reset : PortSt :=
  { st := .down, width := 0, maxWidth := 0, lanes := 0, step := 0, attempts := 0, waiting := false, ctl := 1,
    cmdTo := 200000, err := 0, capacity := 0, crcErr := 0, replay := 0, retrain := 0, discard := 0, timeout := 0,
    sectFail := 0, late := 0, withheld := 0, module := none, serial := none, offered := none, cmds := [],
    retired := [], txSeq := 0, rxSeq := 0, unacked := [], replays := 0, nakSent := false, sentCmd := 0,
    sentWdata := 0, crCmd := 0, crWdata := 0, crRsp := 256, crRdata := 256, first := [] }

/-! ### Dexfoti (R372 to R396) -/

/-- The lifecycle (R383). -/
inductive Life where
  | blank | production | rma
  deriving DecidableEq, Repr

def Life.code : Life → Nat
  | .blank => 0 | .production => 1 | .rma => 2

/-- The debug states (R383), in the coding of R389. -/
inductive Debug where
  | sealed | locked | unlocked | open_
  deriving DecidableEq, Repr

def Debug.code : Debug → Nat
  | .sealed => 0 | .locked => 1 | .unlocked => 2 | .open_ => 3

/-- An enrolled anchor (R392). -/
structure Anchor where
  kind : Nat
  role : Nat
  digest : Nat
  deriving DecidableEq, Repr

/-- Dexfoti. The anchor store, the lifecycle, the fuse that seals debug, the plan floor and the firmware banks are kept
across device resets (R410). -/
structure Dex where
  life : Life
  sealedFuse : Bool
  unlocked : Bool
  unlockNext : Bool
  anchors : List Anchor
  planFloor : U32
  /-- Firmware in force and in the inactive bank: (security version, digest) for Dexfoti and management (R417). -/
  dexFw : Nat × Nat
  mgmtFw : Nat × Nat
  dexNext : Option (Nat × Nat)
  mgmtNext : Option (Nat × Nat)
  /-- Draws taken from the DRBG (R384, R387). -/
  draws : Nat
  sessionRoot : BitVec 256
  testCode : Nat
  testDone : Bool
  error : Bool
  challenge : Option Nat
  identityGone : Bool
  deriving DecidableEq, Repr

def Dex.reset : Dex :=
  { life := .production, sealedFuse := false, unlocked := false, unlockNext := false, anchors := [], planFloor := 0,
    dexFw := (0, 0), mgmtFw := (0, 0), dexNext := none, mgmtNext := none, draws := 0, sessionRoot := 0,
    testCode := 0, testDone := false, error := false, challenge := none, identityGone := false }

/-! ### Management (R412 to R420, R434 to R436) -/

/-- A session (R413). -/
structure Session where
  id : Nat
  role : Role
  malformed : Nat
  period : Nat
  notices : Bool
  family : NetFamily
  deriving DecidableEq, Repr

/-- A reply or unsolicited message: to which session, TYPE, TAG, RESULT and body. -/
structure Reply where
  session : Nat
  typ : Nat
  tag : Nat
  result : Nat
  body : List Byte
  deriving DecidableEq, Repr

/-- Who holds a load open: a session or the DOE mailbox of a hide (R417). -/
inductive LoadFrom where
  | session (id : Nat)
  | doe (hide : Nat)
  deriving DecidableEq, Repr

/-- A load (R415, R417): state 0 staged, 1 active, 2 discarded, 3 refused, 4 open. -/
structure Load where
  number : Nat
  by_ : LoadFrom
  kind : Nat
  mode : Nat
  size : Nat
  received : Nat
  st : Nat
  result : Nat
  furlong : Nat
  deriving DecidableEq, Repr

/-- The management controller. -/
structure Mgmt where
  sessions : List Session
  nextSession : Nat
  /-- Failed handshakes within the last 60 s, by tick; and the refusal period (R393). -/
  fails : List Nat
  refusing : Bool
  loads : List Load
  nextLoad : Nat
  rtc : U64
  rtcSet : Bool
  net : U32
  /-- Static address registers as held and as in force (R435, R436), in the order IP4, IP4_CFG, GW4, IP6_H, IP6_L,
  IP6_CFG, GW6_H, GW6_L. -/
  netHeld : AMap U64
  netUsed : AMap U64
  termMax : AMap U32
  /-- The ticks of the probes answered within the last second (R419). -/
  probes : List Nat
  /-- What the controller has sent, newest last. -/
  sent : List Reply
  /-- Probe replies, DOE and SPDM responses, newest last. -/
  raw : List (List Byte)
  phyUp : Bool
  portDown : Bool
  releaseTick : Nat
  straps : BitVec 6
  deriving DecidableEq, Repr

def Mgmt.reset : Mgmt :=
  { sessions := [], nextSession := 1, fails := [], refusing := false, loads := [], nextLoad := 1, rtc := 0,
    rtcSet := false, net := 3, netHeld := [], netUsed := [], termMax := [], probes := [], sent := [],
    raw := [], phyUp := true, portDown := false, releaseTick := 0, straps := 63 }

/-! ### The black box (R361 to R366) -/

/-- The origin of a record (R362). -/
structure Origin where
  kind : Nat
  id : Nat
  deriving DecidableEq, Repr

/-- A record: its type, origin, SEQ, time, furlong, region, activation and body (R362). The body holds the record's
fields as numbers, in the order in which the type table names them. -/
structure Rec where
  typ : Nat
  origin : Origin
  seq : Nat
  rtc : Nat
  furlong : Nat
  region : Nat
  activation : Nat
  body : List Nat
  deriving DecidableEq, Repr

/-- The black box, kept across device resets. `segs` gives the records and the bytes of each segment that is in use,
oldest first (R361). -/
structure Box where
  recs : List Rec
  segs : List (Nat × Nat)
  first : Nat
  next : Nat
  ack : Nat
  warn : U32
  wrapped : Bool
  torn : Bool
  deriving DecidableEq, Repr

def Box.reset : Box := ⟨[], [], 1, 1, 1, 75, false, false⟩

/-! ### Screening, ECC counts and replay (R346 to R360, R365) -/

/-- A replay unit under replay (R349, R350). -/
structure Replay where
  id : Nat
  hide : Nat
  order : Nat
  unit : UnitRef
  /-- Batch entries that depend on it; `[0]` for an order as a whole. -/
  consumers : List Nat
  cause : Nat
  region : Nat
  cluster : Nat
  phys : Nat
  /-- Replays made, and the partner of the one in progress. -/
  tries : Nat
  partner : Nat
  started : Bool
  deriving DecidableEq, Repr

/-- Screening and the counts of the SC_ block. -/
structure Screen where
  package : Option Package
  /-- Accepted into the inactive half, in force from the next furlong boundary (R359). -/
  nextPackage : Option Package
  rotExp : U32
  stressFail : U32
  idleFail : U32
  replays : U32
  confirmed : U32
  failed : U32
  eccCorr : U32
  eccUncorr : U32
  stranded : U32
  /-- Runs and failures per level since the last summary (R357). -/
  runs : Nat × Nat
  fails : Nat × Nat
  units : List Replay
  nextReplay : Nat
  deriving DecidableEq, Repr

def Screen.reset : Screen :=
  { package := none, nextPackage := none, rotExp := 16, stressFail := 0, idleFail := 0, replays := 0, confirmed := 0,
    failed := 0, eccCorr := 0, eccUncorr := 0, stranded := 0, runs := (0, 0), fails := (0, 0), units := [],
    nextReplay := 0 }

/-! ### Test port (R383, R444, R445) -/

/-- The TAP: the instruction that acts, and the last IDCODE it shifted out. -/
structure Tap where
  inst : TapOp
  shifted : Option (BitVec 32)
  deriving DecidableEq, Repr

def Tap.reset : Tap := ⟨.idcode, none⟩

end Sys2Proof.Machine
end

