-- ==== Sys2Proof/Machine/Crypto.lean ====
section
/-!
DEFINITION. The keyed and unkeyed digests that decide what the device stores and finds: CRC-32C (R230), SM3,
HMAC-SM3 and the key derivation of R373.
-/

namespace Sys2Proof.Machine.Crypto

/-- One byte of the reflected CRC-32C (polynomial 0x1EDC_6F41, R230). -/
def crcByte (c : U32) (b : Byte) : U32 :=
  (List.range 8).foldl (fun c _ => if c.toNat % 2 = 1 then (c >>> 1) ^^^ 0x82F63B78 else c >>> 1)
    (c ^^^ b.setWidth 32)

/-- CRC-32C over a byte string (R230). -/
def crc32c (bs : List Byte) : U32 := ~~~(bs.foldl crcByte (BitVec.allOnes 32))

def rotl (x : U32) (n : Nat) : U32 := x.rotateLeft (n % 32)

def p0 (x : U32) : U32 := x ^^^ rotl x 9 ^^^ rotl x 17
def p1 (x : U32) : U32 := x ^^^ rotl x 15 ^^^ rotl x 23

def sm3Iv : List U32 :=
  [0x7380166f, 0x4914b2b9, 0x172442d7, 0xda8a0600, 0xa96f30bc, 0x163138aa, 0xe38dee4d, 0xb0fb0e4e]

/-- The SM3 message padding: one bit, zeros, then the bit length in 64 bits, big-endian. -/
def sm3Pad (m : List Byte) : List Byte :=
  let n := m.length
  m ++ [0x80] ++ List.replicate ((119 - n % 64) % 64) 0 ++ beBytes 8 (n * 8)

/-- The big-endian 32-bit words of a byte string. -/
def words : Nat → List Byte → List U32
  | 0, _ => []
  | n + 1, bs => BitVec.ofNat 32 (leValue (bs.take 4).reverse) :: words n (bs.drop 4)

/-- The 68 expanded words of one SM3 block, newest first. -/
def sm3Expand (ws : List U32) : List U32 :=
  (List.range 52).foldl (fun acc _ =>
    let w := fun i => acc.getD (i - 1) 0
    (p1 (w 16 ^^^ w 9 ^^^ rotl (w 3) 15) ^^^ rotl (w 13) 7 ^^^ w 6) :: acc) ws.reverse

structure Sm3Regs where
  a : U32
  b : U32
  c : U32
  d : U32
  e : U32
  f : U32
  g : U32
  h : U32

/-- One SM3 round. -/
def sm3Round (w : List U32) (r : Sm3Regs) (j : Nat) : Sm3Regs :=
  let t : U32 := if j < 16 then 0x79cc4519 else 0x7a879d8a
  let ss1 := rotl (rotl r.a 12 + r.e + rotl t j) 7
  let ss2 := ss1 ^^^ rotl r.a 12
  let ff := if j < 16 then r.a ^^^ r.b ^^^ r.c else (r.a &&& r.b) ||| (r.a &&& r.c) ||| (r.b &&& r.c)
  let gg := if j < 16 then r.e ^^^ r.f ^^^ r.g else (r.e &&& r.f) ||| (~~~r.e &&& r.g)
  let tt1 := ff + r.d + ss2 + (w.getD j 0 ^^^ w.getD (j + 4) 0)
  let tt2 := gg + r.h + ss1 + w.getD j 0
  ⟨tt1, r.a, rotl r.b 9, r.c, p0 tt2, r.e, rotl r.f 19, r.g⟩

/-- The SM3 compression of one 64-byte block. -/
def sm3Block (v : List U32) (blk : List Byte) : List U32 :=
  let w := (sm3Expand (words 16 blk)).reverse
  let g := fun i => v.getD i 0
  let r := (List.range 64).foldl (sm3Round w) ⟨g 0, g 1, g 2, g 3, g 4, g 5, g 6, g 7⟩
  [r.a ^^^ g 0, r.b ^^^ g 1, r.c ^^^ g 2, r.d ^^^ g 3, r.e ^^^ g 4, r.f ^^^ g 5, r.g ^^^ g 6, r.h ^^^ g 7]

def sm3Blocks : Nat → List U32 → List Byte → List U32
  | 0, v, _ => v
  | n + 1, v, bs => sm3Blocks n (sm3Block v (bs.take 64)) (bs.drop 64)

/-- SM3 of a byte string: 32 bytes. -/
def sm3 (m : List Byte) : List Byte :=
  let p := sm3Pad m
  (sm3Blocks (p.length / 64) sm3Iv p).flatMap (fun w => beBytes 4 w.toNat)

/-- HMAC-SM3 (R111, R373). -/
def hmac (key m : List Byte) : List Byte :=
  let k0 := if 64 < key.length then sm3 key else key
  let k := k0 ++ List.replicate (64 - k0.length) 0
  sm3 (k.map (· ^^^ 0x5c) ++ sm3 (k.map (· ^^^ 0x36) ++ m))

/-- KDF(K, LABEL, CTX, L): the first `l` bits of the counter-mode blocks (R373). -/
def kdf (k label ctx : List Byte) (l : Nat) : List Byte :=
  (((List.range (ceilDiv l 256)).map (fun i =>
    hmac k (leBytes 4 (i + 1) ++ label ++ [0] ++ ctx ++ leBytes 4 l))).flatten).take (l / 8)

/-- The ASCII bytes of a label. -/
def ascii (s : String) : List Byte := s.toList.map (fun c => BitVec.ofNat 8 c.toNat)

/-! ### AES-256-GCM (R101) -/

/-- Double in GF(2^8) modulo x^8 + x^4 + x^3 + x + 1. -/
def xtime (a : Byte) : Byte := (a <<< 1) ^^^ (if a.getLsbD 7 then 0x1b else 0)

/-- Multiply in GF(2^8). -/
def gmul (a b : Byte) : Byte :=
  ((List.range 8).foldl (fun (p : Byte × Byte) i => (if b.getLsbD i then p.1 ^^^ p.2 else p.1, xtime p.2)) (0, a)).1

/-- The S-box of AES: the inverse in GF(2^8), as the power 254, then the affine map. -/
def sbox (a : Byte) : Byte :=
  let sq (x : Byte) : Byte := gmul x x
  let a2 := sq a
  let a3 := gmul a2 a
  let a12 := sq (sq a3)
  let a15 := gmul a12 a3
  let a240 := sq (sq (sq (sq a15)))
  let i := gmul a240 (gmul a12 a2)
  i ^^^ i.rotateLeft 1 ^^^ i.rotateLeft 2 ^^^ i.rotateLeft 3 ^^^ i.rotateLeft 4 ^^^ 0x63

def xorBytes (a b : List Byte) : List Byte := List.zipWith (· ^^^ ·) a b

/-- The 60 words of the AES-256 key schedule, newest first. -/
def aesWords (key : List Byte) : List (List Byte) :=
  let first := (List.range 8).map (fun i => (key.drop (4 * i)).take 4)
  ((List.range 52).foldl (fun (acc : List (List Byte) × Byte) j =>
    let i := j + 8
    let prev := acc.1.getD 0 []
    let t := if i % 8 = 0 then xorBytes ((prev.drop 1 ++ prev.take 1).map sbox) [acc.2, 0, 0, 0]
      else if i % 8 = 4 then prev.map sbox else prev
    (xorBytes (acc.1.getD 7 []) t :: acc.1, if i % 8 = 0 then xtime acc.2 else acc.2)) (first.reverse, 1)).1

/-- One column of MixColumns. -/
def mixColumn (c : List Byte) : List Byte :=
  let g (i : Nat) : Byte := c.getD (i % 4) 0
  (List.range 4).map (fun i => xtime (g i) ^^^ (xtime (g (i + 1)) ^^^ g (i + 1)) ^^^ g (i + 2) ^^^ g (i + 3))

/-- SubBytes and ShiftRows on a state held column by column. -/
def subShift (s : List Byte) : List Byte :=
  (List.range 16).map (fun i => sbox (s.getD (i % 4 + 4 * ((i / 4 + i % 4) % 4)) 0))

/-- The round keys of AES-256, 16 bytes each. -/
def aesKeys (key : List Byte) : List (List Byte) :=
  let w := (aesWords key).reverse
  (List.range 15).map (fun r => ((w.drop (4 * r)).take 4).flatten)

/-- Encrypt one 16-byte block under expanded round keys. -/
def aesBlock (ks : List (List Byte)) (b : List Byte) : List Byte :=
  let k (i : Nat) : List Byte := ks.getD i []
  let s := (List.range 13).foldl (fun s r =>
    let t := subShift s
    xorBytes ((List.range 4).flatMap (fun c => mixColumn ((t.drop (4 * c)).take 4))) (k (r + 1))) (xorBytes b (k 0))
  xorBytes (subShift s) (k 14)

/-- Multiply in GF(2^128) in the bit order of GCM: bit 0 is the most significant. -/
def gcmMul (x y : Nat) : Nat :=
  ((List.range 128).foldl (fun (p : Nat × Nat) i =>
    (if bit x (127 - i) then p.1 ^^^ p.2 else p.1,
     if p.2 % 2 = 1 then (p.2 / 2) ^^^ (0xe1 * 2 ^ 120) else p.2 / 2)) (0, y)).1

/-- A byte string as a big-endian number. -/
def beNat (bs : List Byte) : Nat := leValue bs.reverse

/-- GHASH over bytes padded with zeros to blocks of 16. -/
def ghash (h : Nat) : Nat → Nat → List Byte → Nat
  | 0, acc, _ => acc
  | n + 1, acc, bs =>
    if bs.isEmpty then acc
    else ghash h n (gcmMul (acc ^^^ beNat ((bs.take 16 ++ List.replicate 16 0).take 16)) h) (bs.drop 16)

/-- Counter-mode encryption from counter `c`. -/
def gctr (ks : List (List Byte)) (iv : List Byte) : Nat → Nat → List Byte → List Byte
  | 0, _, _ => []
  | n + 1, c, bs =>
    if bs.isEmpty then []
    else xorBytes (bs.take 16) (aesBlock ks (iv ++ beBytes 4 c)) ++ gctr ks iv n (c + 1) (bs.drop 16)

/-- The GCM tag of a ciphertext. -/
def gcmTag (ks : List (List Byte)) (iv aad ct : List Byte) : List Byte :=
  let h := beNat (aesBlock ks (List.replicate 16 0))
  let a := ghash h (aad.length / 16 + 1) 0 aad
  let c := ghash h (ct.length / 16 + 1) a ct
  let s := gcmMul (c ^^^ (aad.length * 8 * 2 ^ 64 + ct.length * 8)) h
  xorBytes (beBytes 16 s) (aesBlock ks (iv ++ beBytes 4 1))

/-- AES-256-GCM encryption with a 96-bit IV: ciphertext and tag. -/
def seal256 (key iv aad pt : List Byte) : List Byte × List Byte :=
  let ks := aesKeys key
  let ct := gctr ks iv (pt.length / 16 + 1) 2 pt
  (ct, gcmTag ks iv aad ct)

/-- AES-256-GCM decryption; none when the tag does not agree. -/
def open256 (key iv aad ct tag : List Byte) : Option (List Byte) :=
  let ks := aesKeys key
  if gcmTag ks iv aad ct = tag then some (gctr ks iv (ct.length / 16 + 1) 2 ct) else none

end Sys2Proof.Machine.Crypto
end

