-- ==== Sys2Proof/Machine/Fp.lean ====
section
/-!
DEFINITION. Binary floating point, bit by bit: the formats of R197, rounding (R200, R202), the binary32
operations, the dot engine (R205, R206), the Shoec exp (R208), and the angle and slope tables (R149, R180).

A number is held exactly as a sign, a natural mantissa and an integer power of two; every operation forms its
exact value and rounds once.
-/

namespace Sys2Proof.Machine.Fp

/-- How a format uses its top exponent: as IEEE formats do, only for one NaN code (E4M3), or for numbers. -/
inductive Special where
  | ieee | e4m3 | plain
  deriving DecidableEq, Repr

/-- A binary format of R197: exponent bits, mantissa bits, bias, special codes. -/
structure Fmt where
  eb : Nat
  mb : Nat
  bias : Int
  special : Special
  deriving DecidableEq, Repr

def fp32 : Fmt := ⟨8, 23, 127, .ieee⟩
def bf16 : Fmt := ⟨8, 7, 127, .ieee⟩
def fp16 : Fmt := ⟨5, 10, 15, .ieee⟩
def fp64 : Fmt := ⟨11, 52, 1023, .ieee⟩
def e4m3 : Fmt := ⟨4, 3, 7, .e4m3⟩
def e5m2 : Fmt := ⟨5, 2, 15, .ieee⟩
def e2m3 : Fmt := ⟨2, 3, 1, .plain⟩
def e3m2 : Fmt := ⟨3, 2, 3, .plain⟩
def e2m1 : Fmt := ⟨2, 1, 1, .plain⟩

/-- A value: NaN, an infinity, or `(-1)^neg * m * 2^e` exactly. -/
inductive Val where
  | nan
  | inf (neg : Bool)
  | fin (neg : Bool) (m : Nat) (e : Int)
  deriving DecidableEq, Repr

def Val.isNan : Val → Bool
  | .nan => true
  | _ => false

def Val.isInf : Val → Bool
  | .inf _ => true
  | _ => false

def Val.isZero : Val → Bool
  | .fin _ 0 _ => true
  | _ => false

/-- `v * 2^k`, exactly. -/
def Val.scale (v : Val) (k : Int) : Val :=
  match v with
  | .fin s m e => .fin s m (e + k)
  | v => v

/-- `floor (log2 |v|)` of a nonzero finite value (0 otherwise). -/
def Val.log2 : Val → Int
  | .fin _ m e => (Nat.log2 m : Int) + e
  | _ => 0

/-- The exact product of two values, with the NaN and infinity rules of R205 step 1. -/
def Val.mul (a b : Val) : Val :=
  match a, b with
  | .nan, _ => .nan
  | _, .nan => .nan
  | .inf s, .inf t => .inf (s != t)
  | .inf s, .fin t m _ => if m = 0 then .nan else .inf (s != t)
  | .fin s m _, .inf t => if m = 0 then .nan else .inf (s != t)
  | .fin s m e, .fin t n f => .fin (s != t) (m * n) (e + f)

/-- The value of a code of a format (R197). -/
def decode (f : Fmt) (code : Nat) : Val :=
  let m := code % 2 ^ f.mb
  let e := code / 2 ^ f.mb % 2 ^ f.eb
  let s := code / 2 ^ (f.mb + f.eb) % 2 == 1
  let top := 2 ^ f.eb - 1
  if f.special = .ieee ∧ e = top then (if m = 0 then .inf s else .nan)
  else if f.special = .e4m3 ∧ e = top ∧ m = 2 ^ f.mb - 1 then .nan
  else if e = 0 then .fin s m (1 - f.bias - f.mb)
  else .fin s (2 ^ f.mb + m) ((e : Int) - f.bias - f.mb)

/-- The code of the largest finite magnitude of a format. -/
def maxCode (f : Fmt) : Nat :=
  match f.special with
  | .ieee => (2 ^ f.eb - 1) * 2 ^ f.mb - 1
  | .e4m3 => 2 ^ (f.eb + f.mb) - 2
  | .plain => 2 ^ (f.eb + f.mb) - 1

def signCode (f : Fmt) (s : Bool) : Nat := if s then 2 ^ (f.eb + f.mb) else 0

/-- The canonical NaN of an IEEE format, its sign clear (R197). -/
def nanCode (f : Fmt) : Nat := (2 ^ f.eb - 1) * 2 ^ f.mb + 2 ^ (f.mb - 1)

/-- The code of an infinity of an IEEE format. -/
def infCode (f : Fmt) (s : Bool) : Nat := signCode f s + (2 ^ f.eb - 1) * 2 ^ f.mb

/-- Rounding modes: nearest even (R200), the two directed roundings of the summaries (R202), and
stochastic rounding with the 16-bit draw `r` (R204). -/
inductive Mode where
  | rne | up | down
  | stoch (r : Nat)
  deriving DecidableEq, Repr

/-- Round the magnitude `m * 2^e` (a little more when `sticky`) to the grid of a format: the magnitude code
before any overflow. -/
def roundMag (f : Fmt) (mode : Mode) (s : Bool) (m : Nat) (e : Int) (sticky : Bool) : Nat :=
  if m = 0 then 0 else
    let ulp : Int := max ((Nat.log2 m : Int) + e - f.mb) (1 - f.bias - f.mb)
    let be : Nat := (ulp + f.mb + f.bias - 1).toNat
    if ulp ≤ e then be * 2 ^ f.mb + m * 2 ^ (e - ulp).toNat
    else
      let k := (ulp - e).toNat
      let n := m / 2 ^ k
      let rem := m % 2 ^ k
      let inexact := sticky || rem != 0
      let upp : Bool :=
        match mode with
        | .rne => decide (rem * 2 > 2 ^ k) || (rem * 2 == 2 ^ k && (sticky || n % 2 == 1))
        | .up => inexact && !s
        | .down => inexact && s
        | .stoch r => decide (r < rem * 2 ^ 16 / 2 ^ k)
      be * 2 ^ f.mb + n + (if upp then 1 else 0)

/-- The code of a rounded value in an IEEE format: overflow gives an infinity, except where a directed
rounding points to the largest finite value (R202). -/
def encodeIeee (f : Fmt) (mode : Mode) (v : Val) (sticky : Bool := false) : Nat :=
  match v with
  | .nan => nanCode f
  | .inf s => infCode f s
  | .fin s m e =>
    let c := roundMag f mode s m e sticky
    if c ≤ maxCode f then signCode f s + c
    else match mode, s with
      | .up, true => signCode f s + maxCode f
      | .down, false => signCode f s + maxCode f
      | _, _ => infCode f s

/-- The value an fp32 bit pattern stands for. -/
def val32 (x : U32) : Val := decode fp32 x.toNat

/-- Round a value to fp32, to nearest even (R200). -/
def to32 (v : Val) (sticky : Bool := false) : U32 := BitVec.ofNat 32 (encodeIeee fp32 .rne v sticky)

def nan32 : U32 := BitVec.ofNat 32 (nanCode fp32)
def posInf : U32 := BitVec.ofNat 32 (infCode fp32 false)
def negInf : U32 := BitVec.ofNat 32 (infCode fp32 true)
def zero32 : U32 := 0
def one32 : U32 := 0x3F800000

def isNan32 (x : U32) : Bool := (val32 x).isNan
def isInf32 (x : U32) : Bool := (val32 x).isInf
def neg32 (x : U32) : U32 := x ^^^ 0x80000000

/-- The exact sum of two finite values; an exact zero is +0 unless both are -0 (R200). -/
def addFin (s : Bool) (m : Nat) (e : Int) (t : Bool) (n : Nat) (f : Int) : Val :=
  let g := min e f
  let a : Int := (if s then -1 else 1) * ((m * 2 ^ (e - g).toNat : Nat) : Int)
  let b : Int := (if t then -1 else 1) * ((n * 2 ^ (f - g).toNat : Nat) : Int)
  let c := a + b
  if c = 0 then .fin (s && t && m == 0 && n == 0) 0 g
  else .fin (decide (c < 0)) c.natAbs g

/-- Binary32 addition (R200). -/
def add32 (x y : U32) : U32 :=
  match val32 x, val32 y with
  | .nan, _ => nan32
  | _, .nan => nan32
  | .inf s, .inf t => if s = t then x else nan32
  | .inf _, _ => x
  | _, .inf _ => y
  | .fin s m e, .fin t n f => to32 (addFin s m e t n f)

/-- Binary32 subtraction (R200). -/
def sub32 (x y : U32) : U32 := if isNan32 y then nan32 else add32 x (neg32 y)

/-- Binary32 multiplication (R200). -/
def mul32 (x y : U32) : U32 := to32 ((val32 x).mul (val32 y))

/-- Binary32 division (R200). -/
def div32 (x y : U32) : U32 :=
  match val32 x, val32 y with
  | .nan, _ => nan32
  | _, .nan => nan32
  | .inf _, .inf _ => nan32
  | .inf s, .fin t _ _ => to32 (.inf (s != t))
  | .fin s _ _, .inf t => to32 (.fin (s != t) 0 0)
  | .fin s m e, .fin t n f =>
    if n = 0 then (if m = 0 then nan32 else to32 (.inf (s != t)))
    else to32 (.fin (s != t) (m * 2 ^ 64 / n) (e - f - 64)) (m * 2 ^ 64 % n != 0)

/-- A key that orders non-NaN fp32 values as R201 does: -inf < negative < -0 < +0 < positive < +inf. -/
def orderKey (x : U32) : Int :=
  if x.toNat < 2 ^ 31 then (x.toNat : Int) else -((x.toNat : Int) - 2 ^ 31) - 1

/-- `a < b` in the order of R201. -/
def lt32 (a b : U32) : Bool := decide (orderKey a < orderKey b)

/-- The maximum of two non-NaN fp32 values (R201). -/
def max32 (a b : U32) : U32 := if lt32 a b then b else a

/-- The minimum in the order of R201. -/
def min32 (a b : U32) : U32 := if lt32 b a then b else a

/-- The difference `s - m` that forms an exp argument: +0 when equal, infinities included (R201). -/
def diff32 (s m : U32) : U32 := if s = m && !isNan32 s then zero32 else sub32 s m

/-- The fp32 value of a natural number, rounded to nearest even. -/
def ofNat32 (n : Nat) : U32 := to32 (.fin false n 0)

/-- Conversion of fp32 to bf16 or fp16 (R202). -/
def narrow (f : Fmt) (x : U32) : Nat := encodeIeee f .rne (val32 x)

/-- Widening of a code of any format to fp32: exact for every format of R197 but binary64. -/
def widen (f : Fmt) (code : Nat) : U32 := to32 (decode f code)

/-- The fp32 value `bf16(x)`. -/
def roundBf16 (x : U32) : U32 := widen bf16 (narrow bf16 x)

/-! ### The dot engine -/

/-- The group sum of up to 32 exact products (R205). -/
def groupSum (ps : List Val) : U32 :=
  let pos := ps.any (fun p => p == .inf false)
  let neg := ps.any (fun p => p == .inf true)
  if ps.any Val.isNan || (pos && neg) then nan32
  else if pos then posInf
  else if neg then negInf
  else
    let nz := ps.filter (fun p => !p.isZero)
    match nz with
    | [] => zero32
    | p :: rest =>
      let top := rest.foldl (fun a q => max a q.log2) p.log2
      let g := top - 60
      let q : Int := nz.foldl (fun a v =>
        match v with
        | .fin s m e =>
          let n : Nat := if g ≤ e then m * 2 ^ (e - g).toNat else m / 2 ^ (g - e).toNat
          a + (if s then -1 else 1) * (n : Int)
        | _ => a) 0
      if q = 0 then zero32 else to32 (.fin (decide (q < 0)) q.natAbs g)

/-- Cut a list into groups of 32; `fuel` bounds the number of groups. -/
def groups32 {α : Type} : Nat → List α → List (List α)
  | 0, _ => []
  | _, [] => []
  | n + 1, l => l.take 32 :: groups32 n (l.drop 32)

/-- A dot product from its exact products in index order (R206). -/
def dotProducts (ps : List Val) : U32 :=
  (groups32 ps.length ps).foldl (fun acc g => add32 acc (groupSum g)) zero32

/-- The dot product of two vectors of exact values (R205, R206). -/
def dot (a b : List Val) : U32 := dotProducts (List.zipWith Val.mul a b)

/-! ### Correctly rounded functions, in fixed point with `prec` fraction bits -/

/-- Fraction bits of the fixed-point evaluations: far below half the distance between any result and a
rounding boundary (DEDUCED, assumption 21). -/
def prec : Nat := 384

/-- `2^prec * atanh(1 / n)`, from the odd-power series. -/
def atanhInv (n : Nat) : Nat :=
  let rec go : Nat → Nat → Nat → Nat → Nat
    | 0, _, _, acc => acc
    | fuel + 1, k, pw, acc => go fuel (k + 2) (pw / (n * n)) (acc + pw / k)
  go 260 1 (2 ^ prec / n) 0

/-- `2^prec * ln 2`. -/
def ln2Fix : Nat := 2 * atanhInv 3

/-- `2^prec * exp(r / 2^prec)` for `0 ≤ r < ln 2`, by the exponential series. -/
def expSeries (r : Nat) : Nat :=
  let rec go : Nat → Nat → Nat → Nat → Nat
    | 0, _, _, acc => acc
    | fuel + 1, k, term, acc => go fuel (k + 1) (term * r / 2 ^ prec / (k + 1)) (acc + term)
  go 110 0 (2 ^ prec) 0

/-- `e^(x / 2^prec)` as a mantissa and exponent, for a fixed-point `x`. -/
def expFix (x : Int) : Val :=
  let k := x / (ln2Fix : Int)
  let r := (x - k * ln2Fix).toNat
  .fin false (expSeries r) (k - prec)

/-- The Shoec exp: the binary32 value nearest to `e^x` (R208). -/
def exp32 (x : U32) : U32 :=
  match val32 x with
  | .nan => nan32
  | .inf false => posInf
  | .inf true => zero32
  | .fin s m e =>
    if m = 0 then one32
    else if (Nat.log2 m : Int) + e ≥ 8 then (if s then zero32 else posInf)
    else
      let mag : Int := ((m : Int) * 2 ^ (e + prec).toNat)
      to32 (expFix (if s then -mag else mag)) true

/-- `2^prec * ln v` of a positive finite value. -/
def lnFix (m : Nat) (e : Int) : Int :=
  let l := Nat.log2 m
  let u := m * 2 ^ prec / 2 ^ l
  let one := 2 ^ prec
  let z := (u - one) * one / (u + one)
  let z2 := z * z / one
  let rec go : Nat → Nat → Nat → Nat → Nat
    | 0, _, _, acc => acc
    | fuel + 1, k, pw, acc => go fuel (k + 2) (pw * z2 / 2 ^ prec) (acc + pw / k)
  (2 * go 130 1 z 0 : Nat) + ((l : Int) + e) * (ln2Fix : Int)

/-- The binary64 code nearest to `base^(-a / b)` for a positive finite fp32 base (R149, R180). -/
def powNeg (base : U32) (a b : Nat) : Nat :=
  match val32 base with
  | .fin _ m e =>
    if a = 0 then 1023 * 2 ^ 52
    else encodeIeee fp64 .rne (expFix (-(lnFix m e * (a : Int) / (b : Int)))) true
  | _ => nanCode fp64

/-- Linear-bias slope of query head `q` of `h` heads: binary64 first, then binary32 (R149). -/
def slope (base : U32) (q h : Nat) : U32 := to32 (decode fp64 (powNeg base (q + 1) h))

/-- `2^prec * atan(1 / n)`, from the alternating series. -/
def atanInv (n : Nat) : Int :=
  let rec go : Nat → Nat → Nat → Bool → Int → Int
    | 0, _, _, _, acc => acc
    | fuel + 1, k, pw, s, acc =>
      go fuel (k + 2) (pw / (n * n)) (!s) (if s then acc - (pw / k : Nat) else acc + (pw / k : Nat))
  go 180 1 (2 ^ prec / n) false 0

/-- `2^prec * 2 * pi`, by Machin's formula. -/
def twoPiFix : Int := 2 * (16 * atanInv 5 - 4 * atanInv 239)

/-- The sine or cosine series at a fixed-point angle, from its first term. -/
def trigSeries (x : Int) (k0 : Nat) (t0 : Int) : Int :=
  let rec go : Nat → Nat → Int → Int → Int
    | 0, _, _, acc => acc
    | fuel + 1, k, term, acc =>
      go fuel (k + 2) (-(term * x / 2 ^ prec * x / 2 ^ prec / (((k + 1) * (k + 2) : Nat) : Int))) (acc + term)
  go 90 k0 t0 0

/-- A fixed-point number as a value. -/
def ofFix (x : Int) : Val := .fin (decide (x < 0)) x.natAbs (-prec)

/-- The angle `p * θ_i` modulo a full turn, in fixed point, and whether it is exactly zero. -/
def angleFix (base : U32) (headDim p i : Nat) : Int :=
  match decode fp64 (powNeg base (2 * i) headDim) with
  | .fin _ m e =>
    let y : Int := if -(prec : Int) ≤ e then ((p * m * 2 ^ (e + prec).toNat : Nat) : Int)
                   else ((p * m / 2 ^ (-(e + prec)).toNat : Nat) : Int)
    y % twoPiFix
  | _ => 0

/-- `cos_table(p, i)` (R180). -/
def cosTable (base : U32) (headDim p i : Nat) : U32 :=
  if p = 0 then one32 else to32 (ofFix (trigSeries (angleFix base headDim p i) 0 (2 ^ prec))) true

/-- `sin_table(p, i)` (R180). -/
def sinTable (base : U32) (headDim p i : Nat) : U32 :=
  if p = 0 then zero32
  else
    let x := angleFix base headDim p i
    to32 (ofFix (trigSeries x 1 x)) true

end Sys2Proof.Machine.Fp
end

