-- ==== Sys2Proof/Machine/Codec.lean ====
section
/-!
DEFINITION. Stored formats (R196 to R199), the quantiser (R203, R204), span tiles and their checks (R81, R199),
and the VQ codec (R218 to R232).
-/

namespace Sys2Proof.Machine

/-- One stored vector: element codes in order and, for MX formats, one E8M0 scale per 32 elements (R199). -/
structure StoredVec where
  codes : List Nat
  scales : List Nat
  deriving DecidableEq, Repr

/-- A VQ block (R222): header fields, payload bytes, stored check. -/
structure VqBlock where
  cbId : Nat
  cbGen : Nat
  scale : Nat
  esc : Bool
  runs : Bool
  payload : List Byte
  check : U32
  deriving DecidableEq, Repr

/-- What coding and expansion need of a codebook generation (R219, R220, R232, R241). -/
structure Book where
  id : Nat
  gen : Nat
  vqFormat : Nat
  entryFormat : Nat
  entries : Nat
  /-- Entries 1 to ENTRIES - 1, each the element codes of one vector. -/
  rows : List (List Nat)
  litTol : U32
  emax : Int
  deriving DecidableEq, Repr

namespace Codec
open Fp Crypto

/-- The element format of a storage code (R196); code 0x08 is the two's-complement MXINT8. -/
def elemFmt : Nat → Fmt
  | 1 => bf16
  | 2 => fp16
  | 3 => e4m3
  | 4 => e5m2
  | 5 => e2m3
  | 6 => e3m2
  | _ => e2m1

/-- Element width in bits (R196). -/
def elemBits : Nat → Nat
  | 1 => 16
  | 2 => 16
  | 5 => 6
  | 6 => 6
  | 7 => 4
  | _ => 8

/-- Codes 0x03 to 0x08 carry E8M0 scales. -/
def isMx (fmt : Nat) : Bool := decide (3 ≤ fmt) && decide (fmt ≤ 8)

/-- The exponent of a format's largest finite value (R203). -/
def emaxOf : Nat → Int
  | 3 => 8
  | 4 => 15
  | 5 => 2
  | 6 => 4
  | 7 => 2
  | _ => 0

/-- Bytes of one vector of `n` elements (R199, R173). -/
def vecBytes (fmt n : Nat) : Nat := n * elemBits fmt / 8 + (if isMx fmt then n / 32 else 0)

/-- The unscaled value of an element code (R197). -/
def elemVal (fmt code : Nat) : Val :=
  if fmt = 8 then
    (if code < 128 then .fin false code (-6) else .fin true (256 - code) (-6))
  else decode (elemFmt fmt) code

/-- The element values of a stored vector, with its scales (R198). -/
def vecVals (fmt : Nat) (v : StoredVec) : List Val :=
  v.codes.mapIdx (fun i c =>
    if isMx fmt then
      let x := v.scales.getD (i / 32) 0
      if x = 255 then .nan else (elemVal fmt c).scale ((x : Int) - 127)
    else elemVal fmt c)

/-- Round the magnitude `m * 2^e` to an integer, for MXINT8 (R203, R204). -/
def roundInt (mode : Mode) (m : Nat) (e : Int) : Nat :=
  if 0 ≤ e then m * 2 ^ e.toNat
  else
    let k := (-e).toNat
    let n := m / 2 ^ k
    let rem := m % 2 ^ k
    match mode with
    | .stoch r => if r < rem * 2 ^ 16 / 2 ^ k then n + 1 else n
    | _ => if rem * 2 > 2 ^ k ∨ (rem * 2 = 2 ^ k ∧ n % 2 = 1) then n + 1 else n

/-- Step 3 and 4 of R203: one scaled value to an element code; a larger result saturates, a zero
magnitude has its sign clear. -/
def quantElem (fmt : Nat) (mode : Mode) (u : Val) : Nat :=
  match u with
  | .fin s m e =>
    if fmt = 8 then
      let n := min (roundInt mode m (e + 6)) 127
      if n = 0 then 0 else if s then 256 - n else n
    else
      let f := elemFmt fmt
      let c := min (roundMag f mode s m e false) (maxCode f)
      if c = 0 then 0 else signCode f s + c
  | _ => 0

/-- The largest magnitude of a block of fp32 values, as a bit pattern (magnitudes order as their bits do). -/
def amax (vs : List U32) : U32 :=
  vs.foldl (fun a v => if a.toNat < v.toNat % 2 ^ 31 then BitVec.ofNat 32 (v.toNat % 2 ^ 31) else a) 0

/-- The E8M0 scale of a block (R203 steps 1 and 2), for a largest exponent `emax`. -/
def blockScale (emax : Int) (vs : List U32) : Nat :=
  let a := amax vs
  if a = 0 then 0 else (min 254 (max 0 ((val32 a).log2 - emax + 127))).toNat

/-- The stochastic draw of one element (R204). -/
def draw (seed layer position kv head element : Nat) : Nat :=
  let m := 2 ^ 64
  let w := layer + 2 ^ 8 * position + 2 ^ 30 * kv + 2 ^ 31 * head + 2 ^ 37 * element
  let z := (seed + w * 0xD1B54A32D192ED03) % m
  let z := ((z ^^^ (z >>> 31)) * 0x7FB5D329728EA185) % m
  let z := ((z ^^^ (z >>> 27)) * 0x81DADEF4BC2DD44D) % m
  let z := z ^^^ (z >>> 33)
  z / 2 ^ 48

/-- One element to bf16 or fp16: R202, or R204 below the largest finite value. -/
def quantWide (f : Fmt) (mode : Mode) (x : U32) : Nat :=
  match mode, val32 x with
  | .stoch _, .fin s m e =>
    if roundMag f .down false m e false ≥ maxCode f then narrow f x
    else signCode f s + roundMag f mode s m e false
  | _, _ => narrow f x

/-- Quantise one vector of fp32 values to a storage format (R203, R204, R202); `mode i` rounds element `i`. -/
def quantVec (fmt : Nat) (mode : Nat → Mode) (vs : List U32) : StoredVec :=
  if isMx fmt then
    let sc := (groups32 vs.length vs).map (blockScale (emaxOf fmt))
    { codes := vs.mapIdx (fun i v =>
        quantElem fmt (mode i) ((val32 v).scale (127 - (sc.getD (i / 32) 0 : Int)))),
      scales := sc }
  else { codes := vs.mapIdx (fun i v => quantWide (elemFmt fmt) (mode i) v), scales := [] }

/-- Pack codes of `w` bits as the little-endian bit string of R199. -/
def packBits (w : Nat) (codes : List Nat) : List Byte :=
  leBytes (ceilDiv (codes.length * w) 8) (codes.foldr (fun c a => c % 2 ^ w + 2 ^ w * a) 0)

/-- Unpack `n` codes of `w` bits (R199). -/
def unpackBits (w n : Nat) (bs : List Byte) : List Nat :=
  let v := leValue bs
  (List.range n).map (fun i => v / 2 ^ (w * i) % 2 ^ w)

/-- The bytes of one stored vector: element area, then scales (R199). -/
def vecImage (fmt : Nat) (v : StoredVec) : List Byte :=
  packBits (elemBits fmt) v.codes ++ v.scales.map (BitVec.ofNat 8)

/-- Read one vector of `n` elements from its image (R199). -/
def readVec (fmt n : Nat) (bs : List Byte) : StoredVec :=
  let eb := n * elemBits fmt / 8
  { codes := unpackBits (elemBits fmt) n bs,
    scales := if isMx fmt then ((bs.drop eb).take (n / 32)).map (·.toNat) else [] }

def zeroVec (fmt n : Nat) : StoredVec :=
  { codes := List.replicate n 0, scales := if isMx fmt then List.replicate (n / 32) 0 else [] }

/-- The stored tile of a span: 32 positions' elements, then their scales; unwritten positions are zero
(R199, R181). -/
def spanTile (fmt headDim : Nat) (vs : List StoredVec) : List Byte :=
  let full := vs ++ List.replicate (32 - vs.length) (zeroVec fmt headDim)
  full.flatMap (fun v => packBits (elemBits fmt) v.codes) ++
    full.flatMap (fun v => v.scales.map (BitVec.ofNat 8))

/-- The block check of a span: CRC-32C over its uncoded tile (R181, R341). -/
def spanCheck (fmt headDim : Nat) (vs : List StoredVec) : U32 := crc32c (spanTile fmt headDim vs)

/-! ### The VQ codec -/

/-- Vector dimension D of a VQ format (R218). -/
def vqDim (f : Nat) : Nat := if f = 0x12 then 4 else 8
/-- Code width c (R218). -/
def vqCode (f : Nat) : Nat := if f = 0x11 then 12 else 8
/-- Source elements per block (R218). -/
def vqElems (f : Nat) : Nat := 64 * vqDim f
/-- Escape size, which is the format limit of a payload, in bytes (R225). -/
def vqLimit (f entryFmt : Nat) : Nat := vqElems f * elemBits entryFmt / 8
/-- The literal marker: the all-ones code (R220). -/
def vqLiteral (f : Nat) : Nat := 2 ^ vqCode f - 1

/-- One described vector: an entry, zeros, or a literal (R223). -/
inductive Token where
  | entry (k : Nat)
  | literal (codes : List Nat)
  deriving DecidableEq, Repr

/-- The bits of a token list, as value and width pairs, with RUNS clear (R223). -/
def plainBits (b : Book) (ts : List Token) : List (Nat × Nat) :=
  let c := vqCode b.vqFormat
  ts.flatMap (fun t =>
    match t with
    | .entry k => [(k, c)]
    | .literal cs => (vqLiteral b.vqFormat, c) :: cs.map (fun x => (x, elemBits b.entryFormat)))

/-- The bits of a token list with RUNS set: each stretch of zero vectors becomes runs of at most 64; `z`
zero vectors are held back. -/
def runBits (b : Book) : Nat → List Token → List (Nat × Nat)
  | z, [] => if z = 0 then [] else [(0, vqCode b.vqFormat), (z - 1, 6)]
  | z, .entry 0 :: t => runBits b (z + 1) t
  | z, x :: t =>
    (if z = 0 then [] else [(0, vqCode b.vqFormat), (z - 1, 6)]) ++ plainBits b [x] ++ runBits b 0 t

/-- Lay bits out as payload bytes, padded with zeros to a multiple of 4 (R222, R223). -/
def payloadBytes (fs : List (Nat × Nat)) : List Byte :=
  let w := fs.foldl (fun a f => a + f.2) 0
  leBytes (roundUp (ceilDiv w 8) 4) (fs.foldr (fun f a => f.1 % 2 ^ f.2 + 2 ^ f.2 * a) 0)

/-- The check of a block, over its expanded image and SCALE (R230). -/
def blockCheck (entryFmt scale : Nat) (vecs : List (List Nat)) : U32 :=
  crc32c (packBits (elemBits entryFmt) vecs.flatten ++ [BitVec.ofNat 8 scale])

/-- The element codes of entry `k` (R220): code 0 is the zero vector. -/
def bookRow (b : Book) (k : Nat) : List Nat :=
  if k = 0 then List.replicate (vqDim b.vqFormat) 0 else b.rows.getD (k - 1) []

/-- Parse the tokens of a payload into 64 vectors (R223, R226). The state is the bits left and their count. -/
def parseTokens (b : Book) (runs : Bool) : Nat → Nat → Nat → Nat → Option (List (List Nat))
  | _, 0, v, _ => if v = 0 then some [] else none
  | 0, _, _, _ => none
  | fuel + 1, left, v, w =>
    let c := vqCode b.vqFormat
    if w < c then none
    else
      let k := v % 2 ^ c
      let v := v / 2 ^ c
      let w := w - c
      if k = 0 ∧ runs then
        if w < 6 then none
        else
          let n := v % 64 + 1
          if left < n then none
          else (parseTokens b runs fuel (left - n) (v / 64) (w - 6)).map
            (fun t => List.replicate n (bookRow b 0) ++ t)
      else if k = vqLiteral b.vqFormat then
        let d := vqDim b.vqFormat
        let eb := elemBits b.entryFormat
        if w < d * eb then none
        else (parseTokens b runs fuel (left - 1) (v / 2 ^ (d * eb)) (w - d * eb)).map
          (fun t => (List.range d).map (fun i => v / 2 ^ (eb * i) % 2 ^ eb) :: t)
      else if b.entries ≤ k then none
      else (parseTokens b runs fuel (left - 1) v w).map (fun t => bookRow b k :: t)

/-- Expand a block to its 64 vectors of entry-format codes; `none` when malformed (R226, R227). -/
def expandBlock (b : Book) (k : VqBlock) : Option (List (List Nat)) :=
  let n := k.payload.length
  let lim := vqLimit b.vqFormat b.entryFormat
  if n < 4 ∨ n % 4 ≠ 0 ∨ lim < n ∨ (k.esc ∧ k.runs) then none
  else if k.esc then
    if n = lim then
      some (groupsOf (vqDim b.vqFormat) 64 (unpackBits (elemBits b.entryFormat) (vqElems b.vqFormat) k.payload))
    else none
  else parseTokens b k.runs 64 64 (leValue k.payload) (n * 8)
where
  groupsOf (d : Nat) : Nat → List Nat → List (List Nat)
    | 0, _ => []
    | m + 1, l => l.take d :: groupsOf d m (l.drop d)

/-- The outcome of reading one block (R226, R231, R244). -/
inductive BlockRead where
  | ok (vals : List Val)
  | bad
  deriving DecidableEq, Repr

/-- Read a block: expanded, checked, and scaled (R227, R231). -/
def readBlock (b : Book) (k : VqBlock) : BlockRead :=
  match expandBlock b k with
  | none => .bad
  | some vs =>
    if blockCheck b.entryFormat k.scale vs = k.check then
      .ok (vs.flatten.map (fun c => if k.scale = 255 then .nan
                           else (elemVal b.entryFormat c).scale ((k.scale : Int) - 127)))
    else .bad

/-- Squared distance of a scaled vector from an entry, each operation rounded (R232). -/
def distance (b : Book) (us : List Val) (k : Nat) : U32 :=
  (List.zipWith (fun u c => (u, elemVal b.entryFormat c)) us (bookRow b k)).foldl (fun acc p =>
    let d := match p.1, p.2 with
      | .fin s m e, .fin t n f => to32 (addFin s m e (!t) n f)
      | _, _ => nan32
    add32 acc (mul32 d d)) zero32

/-- The nearest entry and its distance; the lowest index among equals (R232). -/
def nearest (b : Book) (us : List Val) : Nat × U32 :=
  (List.range (b.entries - 1)).foldl (fun best i =>
    let d := distance b us (i + 1)
    if lt32 d best.2 then (i + 1, d) else best) (0, distance b us 0)

/-- Round a scaled vector to the entry format (R203 step 3). -/
def toEntry (b : Book) (us : List Val) : List Nat := us.map (quantElem b.entryFormat .rne)

/-- Choose the token of one vector (R232). -/
def chooseToken (b : Book) (us : List Val) : Token :=
  let best := nearest b us
  let norm := us.foldl (fun a u => add32 a (to32 (u.mul u))) zero32
  if !isInf32 b.litTol && lt32 (mul32 b.litTol norm) best.2 then .literal (toEntry b us)
  else .entry best.1

/-- Cut a list into consecutive vectors of `d`. -/
def vectors (d : Nat) : Nat → List Val → List (List Val)
  | 0, _ => []
  | n + 1, l => l.take d :: vectors d n (l.drop d)

/-- Code 64 source vectors, given as fp32 values, into one block (R232). -/
def codeBlock (b : Book) (vs : List U32) : VqBlock :=
  let x := blockScale b.emax vs
  let us := vectors (vqDim b.vqFormat) 64 (vs.map (fun v => (val32 v).scale (127 - (x : Int))))
  let ts := us.map (chooseToken b)
  let plain := payloadBytes (plainBits b ts)
  let runs := payloadBytes (runBits b 0 ts)
  let useRuns := decide (runs.length < plain.length)
  let pay := if useRuns then runs else plain
  let mk := fun esc runs pay (img : List (List Nat)) =>
    { cbId := b.id, cbGen := b.gen, scale := x, esc := esc, runs := runs, payload := pay,
      check := blockCheck b.entryFormat x img : VqBlock }
  if vqLimit b.vqFormat b.entryFormat < pay.length then
    let img := us.map (toEntry b)
    mk true false (packBits (elemBits b.entryFormat) img.flatten) img
  else
    mk false useRuns pay (ts.map (fun t => match t with
      | .entry k => bookRow b k
      | .literal cs => cs))

/-- Code a tile of fp32 values, block after block (R221). -/
def codeTile (b : Book) : Nat → List U32 → List VqBlock
  | 0, _ => []
  | n + 1, vs => codeBlock b (vs.take (vqElems b.vqFormat)) :: codeTile b n (vs.drop (vqElems b.vqFormat))

/-- Bytes of a block in its stream (R222). -/
def blockBytes (k : VqBlock) : Nat := 12 + k.payload.length

/-- The stored bytes of a block (R222). -/
def blockImage (k : VqBlock) : List Byte :=
  leBytes 8 (k.cbId + 2 ^ 12 * k.cbGen + 2 ^ 16 * k.scale + (if k.esc then 2 ^ 24 else 0) +
    (if k.runs then 2 ^ 25 else 0) + 2 ^ 32 * k.payload.length) ++ k.payload ++ leBytes 4 k.check.toNat

/-- Read one block and the rest of a stream; `none` when the header is malformed or the bytes end (R222, R226). -/
def parseBlock (bs : List Byte) : Option (VqBlock × List Byte) :=
  let h := leValue (bs.take 8)
  let n := bits h 32 16
  if bs.length < 12 + n ∨ bits h 26 6 ≠ 0 ∨ bits h 48 16 ≠ 0 ∨ n < 4 ∨ n % 4 ≠ 0 then none
  else some ({ cbId := bits h 0 12, cbGen := bits h 12 4, scale := bits h 16 8, esc := bit h 24, runs := bit h 25,
               payload := (bs.drop 8).take n, check := BitVec.ofNat 32 (fieldAt bs (8 + n) 4) },
             bs.drop (12 + n))

/-- CB_EMAX of a loaded image (R240). -/
def bookEmax (entryFmt : Nat) (rows : List (List Nat)) : Int :=
  (rows.flatten.filterMap (fun c =>
    let v := elemVal entryFmt c
    if v.isZero || v.isNan then none else some v.log2)).foldl max (-1000)

end Codec
end Sys2Proof.Machine
end

