-- ==== Sys2Proof/Machine/Attn.lean ====
section
/-!
DEFINITION. The computations of the engines, over exact values: attention rows (R149 to R153, R162, R209, R211),
rod summaries and their bounds (R159, R160, R181), projection rotation (R180), the backward sums (R189), the
state recurrence (R191), and ranked selection (R194, R210).
-/

namespace Sys2Proof.Machine.Attn
open Fp Codec

/-- How positions enter a score (R149). -/
structure ScoreCtx where
  scale : U32
  /-- POSENC 2: the row's slope. -/
  slope : Option U32
  deriving DecidableEq, Repr

/-- A visible key: its vector, its value vector, and its distance `p_t - k` (R150). -/
structure Key where
  k : List Val
  v : List Val
  dist : Nat
  deriving DecidableEq, Repr

/-- Row statistics of a part of a row, with the marks of R209 and R211. -/
structure Leaf where
  m : U32
  l : U32
  o : List U32
  nan : Bool
  infScore : Bool
  subst : Bool
  deriving DecidableEq, Repr

/-- The empty leaf `(-inf, 0, 0)` (R151). -/
def emptyLeaf (d : Nat) : Leaf := ⟨negInf, zero32, List.replicate d zero32, false, false, false⟩

/-- Subtract the linear bias, when there is one (R150, R162). -/
def applyBias (c : ScoreCtx) (s : U32) (dist : Nat) : U32 :=
  match c.slope with
  | none => s
  | some sl => sub32 s (mul32 sl (ofNat32 dist))

/-- The score of a query at a visible key (R150). -/
def score (c : ScoreCtx) (x : List Val) (k : Key) : U32 := applyBias c (mul32 (dot x k.k) c.scale) k.dist

/-- Element `d` of a vector of values. -/
def at' (v : List Val) (d : Nat) : Val := v.getD d (.fin false 0 0)

/-- The leaf of a row over one block of 32 positions; a hidden position is `none` (R151). -/
def leaf (c : ScoreCtx) (x : List Val) (dv : Nat) (keys : List (Option Key)) : Leaf :=
  let ss := keys.map (fun k => k.map (fun k => (score c x k, k)))
  let nanS := ss.any (fun s => match s with | some (s, _) => isNan32 s | none => false)
  let infS := ss.any (fun s => match s with | some (s, _) => isInf32 s | none => false)
  let m := ss.foldl (fun m s => match s with | some (s, _) => max32 m s | none => m) negInf
  if nanS then { emptyLeaf dv with nan := true }
  else if m = negInf then { emptyLeaf dv with infScore := infS }
  else
    let ps := ss.map (fun s => s.map (fun s => (roundBf16 (exp32 (diff32 s.1 m)), s.2)))
    let l := ps.foldl (fun l p => add32 l (match p with | some (p, _) => p | none => zero32)) zero32
    let o := (List.range dv).map (fun d => dotProducts (ps.map (fun p =>
      match p with
      | some (p, k) => (val32 p).mul (at' k.v d)
      | none => .fin false 0 0)))
    ⟨m, l, o, o.any isNan32 || isNan32 l, infS, false⟩

/-- Combine two leaves, the left one covering the lower positions (R152). -/
def combine (a b : Leaf) : Leaf :=
  let nan := a.nan || b.nan
  let infS := a.infScore || b.infScore
  let sub := a.subst || b.subst
  if a.m = negInf then { b with nan := nan, infScore := infS, subst := sub }
  else if b.m = negInf then { a with nan := nan, infScore := infS, subst := sub }
  else
    let m := max32 a.m b.m
    let ea := exp32 (diff32 a.m m)
    let eb := exp32 (diff32 b.m m)
    let l := add32 (mul32 a.l ea) (mul32 b.l eb)
    let o := List.zipWith (fun x y => add32 (mul32 x ea) (mul32 y eb)) a.o b.o
    ⟨m, l, o, nan || isNan32 l || o.any isNan32, infS, sub⟩

/-- One level of the binary tree: neighbours are combined; an odd last node passes up unchanged, as a
combine with an empty leaf does (R152, R186). -/
def level {α : Type} (f : α → α → α) : List α → List α
  | a :: b :: t => f a b :: level f t
  | l => l

/-- The root of the tree over a list of nodes; `fuel` bounds the number of levels (R152). -/
def root {α : Type} (f : α → α → α) (e : α) : Nat → List α → α
  | _, [] => e
  | _, [a] => a
  | 0, a :: _ => a
  | n + 1, l => root f e n (level f l)

/-- The result of a row: output codes, statistics and the row-flag byte (R141, R153, R209, R211). -/
structure RowOut where
  row : List Nat
  m : U32
  l : U32
  empty : Bool
  nanIn : Bool
  infScore : Bool
  subst : Bool
  deriving DecidableEq, Repr

/-- OUT_FORMAT: 0 bf16, 1 fp16, 2 fp32 (R135). -/
def outFmt : Nat → Fmt
  | 0 => bf16
  | 1 => fp16
  | _ => fp32

def outBytes : Nat → Nat
  | 2 => 4
  | _ => 2

/-- The final vector of a row from its root: `o` with PARTIAL, `o / l` otherwise (R153). -/
def finalRow (partialOut : Bool) (r : Leaf) : List U32 :=
  if partialOut then r.o else r.o.map (fun x => div32 x r.l)

/-- Form the row result from its root and its final fp32 vector (R153, R209, R211). -/
def rowOut (fmt dOut : Nat) (r : Leaf) (vec : List U32) : RowOut :=
  let f := outFmt fmt
  if r.nan || (r.m != negInf && vec.any isNan32) then
    ⟨List.replicate dOut (nanCode f), nan32, nan32, false, true, false, r.subst⟩
  else if r.m = negInf then
    ⟨List.replicate dOut 0, negInf, zero32, true, false, r.infScore, r.subst⟩
  else ⟨vec.map (narrow f), r.m, r.l, false, false, r.infScore, r.subst⟩

/-- The row-flag byte (R141). -/
def rowFlag (r : RowOut) : Byte :=
  BitVec.ofNat 8 ((if r.empty then 1 else 0) + (if r.nanIn then 2 else 0) + (if r.infScore then 4 else 0) +
    (if r.subst then 8 else 0))

/-- A zero row, as a failed entry writes it (R143). -/
def zeroRow (dOut : Nat) : RowOut := ⟨List.replicate dOut 0, zero32, zero32, false, false, false, false⟩

/-- Rotate a vector at absolute position `p`: element pairs, fp32, no fusing (R180). -/
def rotate (base : U32) (p : Nat) (inverse : Bool) (y : List U32) : List U32 :=
  let hd := y.length
  (List.range hd).map (fun e =>
    let i := e / 2
    let c := cosTable base hd p i
    let s := let s := sinTable base hd p i; if inverse then neg32 s else s
    let a := y.getD (2 * i) 0
    let b := y.getD (2 * i + 1) 0
    if e % 2 = 0 then sub32 (mul32 a c) (mul32 b s) else add32 (mul32 a s) (mul32 b c))

/-- The query as latched: rotated at its position and rounded to the query format (R149). -/
def latchQuery (base : Option U32) (qfmt p : Nat) (x : List Nat) : List Val :=
  let f := outFmt qfmt
  match base with
  | none => x.map (decode f)
  | some b => (rotate b p false (x.map (widen f))).map (fun y => decode f (narrow f y))

/-- A rod summary of one KV head (R159). -/
structure Summary where
  count : Nat
  kmax : List Nat
  kmin : List Nat
  kmean : List Nat
  vmean : List Nat
  deriving DecidableEq, Repr

/-- Column `d` of a list of vectors, as fp32. -/
def column (vs : List (List Val)) (d : Nat) : List U32 := vs.map (fun v => to32 (at' v d))

/-- The mean of one element: fp32 sum in position order, divided by the count, to bf16 (R181). -/
def meanElem (xs : List U32) : Nat := narrow bf16 (div32 (xs.foldl add32 zero32) (ofNat32 xs.length))

/-- The summary of a rod's stored K and V vectors of one head (R159, R181). -/
def summarise (headDim : Nat) (ks vs : List (List Val)) : Summary :=
  let ds := List.range headDim
  { count := ks.length,
    kmax := ds.map (fun d => encodeIeee bf16 .up (val32 ((column ks d).foldl max32 negInf))),
    kmin := ds.map (fun d => encodeIeee bf16 .down (val32 ((column ks d).foldl min32 posInf))),
    kmean := ds.map (fun d => meanElem (column ks d)),
    vmean := ds.map (fun d => meanElem (column vs d)) }

/-- One row's bound on a rod, before SCALE (R160): `max` of two products at every element. -/
def boundSum (x : List Val) (sm : Summary) : U32 :=
  (List.range x.length).foldl (fun u d =>
    let a := to32 ((at' x d).mul (decode bf16 (sm.kmax.getD d 0)))
    let b := to32 ((at' x d).mul (decode bf16 (sm.kmin.getD d 0)))
    add32 u (if isNan32 a || isNan32 b then nan32 else max32 a b)) zero32

/-- The larger bound; a NaN ranks above every number (R210). -/
def maxBound (a b : U32) : U32 := if isNan32 a || isNan32 b then nan32 else max32 a b

/-- The leaf that stands for a missed rod (R162). -/
def substLeaf (c : ScoreCtx) (x : List Val) (dv n dist : Nat) (sm : Summary) : Leaf :=
  if n = 0 then emptyLeaf dv
  else
    let s := applyBias c (mul32 (dot x (sm.kmean.map (decode bf16))) c.scale) dist
    let o := (List.range dv).map (fun d => mul32 (ofNat32 n) (widen bf16 (sm.vmean.getD d 0)))
    ⟨s, ofNat32 n, o, isNan32 s || o.any isNan32, isInf32 s, true⟩

/-- Insert into a list kept in decreasing score, ties to the lower index (R160, R194). -/
def insertRank (x : U32 × Nat) : List (U32 × Nat) → List (U32 × Nat)
  | [] => [x]
  | y :: t =>
    if (isNan32 x.1 && !isNan32 y.1) || (!isNan32 y.1 && lt32 y.1 x.1) then x :: y :: t
    else y :: insertRank x t

/-- Rank scored indices, given in increasing index order. -/
def rank (xs : List (U32 × Nat)) : List (U32 × Nat) := xs.foldl (fun acc x => insertRank x acc) []

/-- One step of the gated outer-product recurrence of one head: the new state, row-major over (i, j) (R191). -/
def stateStep (bf : Bool) (nk nv : Nat) (a k v : List U32) (s : List U32) : List U32 :=
  (List.range (nk * nv)).map (fun ij =>
    let i := ij / nv
    let j := ij % nv
    let x := add32 (mul32 (a.getD i 0) (s.getD ij 0)) (mul32 (k.getD i 0) (v.getD j 0))
    if bf then roundBf16 x else x)

/-- The read-out `y[j]` of a state (R191). -/
def stateRead (nk nv : Nat) (q s : List U32) : List U32 :=
  (List.range nv).map (fun j =>
    dotProducts ((List.range nk).map (fun i => (val32 (q.getD i 0)).mul (val32 (s.getD (i * nv + j) 0)))))

/-- One key's contribution in the backward pass: `P` and `ds` (R189). -/
def backKey (c : ScoreCtx) (x g : List Val) (m l delta : U32) (k : Key) : U32 × U32 :=
  let s := score c x k
  let p := roundBf16 (div32 (exp32 (diff32 s m)) l)
  let dp := dot g k.v
  (p, roundBf16 (mul32 p (sub32 dp delta)))

/-- `δ`: the fp32 sum of `g[d] * o[d]` in increasing order (R189). -/
def backDelta (g o : List U32) : U32 :=
  (List.zipWith (fun a b => (a, b)) g o).foldl (fun acc p => add32 acc (mul32 p.1 p.2)) zero32

end Sys2Proof.Machine.Attn
end

