-- ==== Sys2Proof/Machine/Tables.lean ====
section
/-!
DEFINITION. The objects a hide holds and the records that change them: sequences and page lists (R84, R91),
rods in frames (R77, R81), prefixes and their index (R113, R117), weight sets (R173), codebooks (R241),
state objects (R190), flash extents (R321), and the table effects that one lap chain publishes (R92).
-/

namespace Sys2Proof.Machine
open Sys2Proof

/-! ### Rods -/

/-- The stored content of a rod: spans in the order K heads, then V heads (one span list for a latent rod). A plain
rod lists the vectors written so far in each span row; a coded rod lists, for each span row and block, the VQ
blocks of that tile (R77, R81, R226). -/
inductive RodData where
  | plain (rows : List (List StoredVec))
  | coded (rows : List (List (List VqBlock)))
  deriving DecidableEq, Repr

/-- The rod of a frame or of a fetched extent: its content, its summaries by KV head (R159), the pairs whose data
is poisoned and the pairs whose stored check no longer agrees (R164, R181), by pair index (R77). -/
structure Rod where
  data : RodData
  sums : List Attn.Summary
  poison : List Nat
  bad : List Nat
  /-- The codebook generation a coded rod is under: (ID, generation). -/
  book : Option (Nat × Nat)
  deriving DecidableEq, Repr

/-- A frame that is not free: in use, or waiting for reuse since the publication of a generation (R89, R94). -/
structure Frame where
  waiting : Option Nat
  rod : Rod
  deriving DecidableEq, Repr

/-- One entry of a page list (R91). -/
structure Page where
  loc : Nat
  tier : Nat
  shared : Bool
  coded : Bool
  cow : Bool
  fill : Nat
  deriving DecidableEq, Repr

/-! ### Sequences -/

/-- The states of a sequence (R84). -/
inductive SeqState where
  | active | swapping | swapped | parked | restoring | retiring
  deriving DecidableEq, Repr

/-- The eviction rule (R102). -/
structure Evict where
  mass : Bool
  sink : Nat
  window : Nat
  budget : Nat
  decay : U32
  deriving DecidableEq, Repr

/-- One attention layer of a sequence: its page list, its reserved rods (R179), its evicted blocks, its scores
(R91, R103). A COW entry has one frame set aside beside the reserved count (R128). -/
structure Layer where
  pages : List Page
  reserved : Nat
  evicted : List Nat
  scores : AMap U32
  deriving DecidableEq, Repr

def Layer.empty : Layer := ⟨[], 0, [], []⟩

/-- A state object of a recurrent layer (R107, R190): its content once a STATE_STEP has fixed its format. -/
structure StateObj where
  /-- `none` until the first STATE_STEP fixes the format; then: is it bf16. -/
  bf : Option Bool
  vals : List U32
  frames : List Nat
  /-- Its stored lines read poisoned (R342). -/
  poison : Bool
  deriving DecidableEq, Repr

/-- The state object of a new sequence: zero, its format not yet fixed (R190). -/
def StateObj.zero : StateObj := ⟨none, [], [], false⟩

/-- A sequence record (R84) with its page lists, eviction state, declared global list (R148) and state objects. -/
structure Seq where
  modelId : Nat
  st : SeqState
  pool : Nat
  base : Nat
  jobKey : Nat
  codeRods : Bool
  hidden : Bool
  pfx : Nat
  pfxLen : Nat
  seed : Nat
  evict : Evict
  gen : Nat
  swapSerial : Nat
  swapAddr : Nat
  swapSize : Nat
  layers : AMap Layer
  globals : List Nat
  states : AMap StateObj
  deriving DecidableEq, Repr

/-- The append point of a layer as published: 256 × (entries − 1) plus the last FILL (R178). -/
def Layer.point (l : Layer) : Nat :=
  match l.pages.getLast? with
  | none => 0
  | some p => 256 * (l.pages.length - 1) + p.fill

def Seq.layer (s : Seq) (l : Nat) : Layer := s.layers.get Layer.empty l

/-- LENGTH: the least append point over the attention layers (R178). -/
def Seq.length (s : Seq) : Nat :=
  match s.layers with
  | [] => 0
  | (_, l) :: t => t.foldl (fun m x => min m x.2.point) l.point

/-- RESV_RODS: the least reserved count (R179). -/
def Seq.resvRods (s : Seq) : Nat :=
  match s.layers with
  | [] => 0
  | (_, l) :: t => t.foldl (fun m x => min m x.2.reserved) l.reserved

/-- The covered length: 256 × (T + RESV_RODS), the same in every layer (R88, R179). -/
def Seq.covered (s : Seq) : Nat :=
  match s.layers with
  | [] => 0
  | (_, l) :: _ => 256 * (l.pages.length + l.reserved)

/-! ### Prefixes -/

/-- The states of a prefix (R113); FREE is absence. -/
inductive PfxState where
  | building | ready | retiring
  deriving DecidableEq, Repr

/-- A prefix record with its tokens, its hashes and its own page lists (R113). -/
structure Pfx where
  st : PfxState
  scope : Nat
  modelId : Nat
  jobKey : Nat
  base : Nat
  length : Nat
  parent : Nat
  parentRods : Nat
  refs : Nat
  hold : Bool
  indexed : Bool
  descTag : Nat
  gen : Nat
  tokens : List Nat
  hashes : List (List Byte)
  layers : AMap (List Page)
  evicted : AMap (List Nat)
  deriving DecidableEq, Repr

/-- An entry of the prefix index whose VALID bit is set (R117). -/
structure IdxEntry where
  tag : Nat
  pfx : Nat
  rod : Nat
  scope : Nat
  deriving DecidableEq, Repr

/-! ### Weight sets and codebooks -/

/-- The states of a created object (R107); FREE is absence. -/
inductive ObjState where
  | loading | ready | retiring
  deriving DecidableEq, Repr

/-- A weight set (R107, R173): its image as loaded, its home and its poison. -/
structure WSet where
  st : ObjState
  /-- The generation that retired it. -/
  gen : Nat
  modelId : Nat
  layer : Nat
  role : Nat
  format : Nat
  vectors : Nat
  dim : Nat
  biased : Bool
  expandForm : Bool
  book : Option (Nat × Nat)
  image : List Byte
  norms : List U32
  units : Nat
  /-- Home on flash: its extents; `none` for bonded DRAM. -/
  flash : Option (List Nat)
  poison : Bool
  deriving DecidableEq, Repr

/-- A codebook generation (R241), its slot, its references and the clusters whose slot failed parity (R238, R247). -/
structure BookRec where
  st : ObjState
  book : Book
  slot : Nat
  queued : Nat
  imageCrc : U32
  units : Nat
  flash : Option (List Nat)
  badClusters : List Nat
  deriving DecidableEq, Repr

/-! ### Flash extents -/

/-- An extent table entry whose VALID bit is set (R321). -/
structure Extent where
  module : Nat
  lost : Bool
  keyKind : Nat
  key : Nat
  coded : Bool
  sectors : Nat
  lba : Nat
  serial : Nat
  next : Option Nat
  book : Option (Nat × Nat)
  /-- The summaries of a rod on flash, which stay in bonded DRAM (R159). -/
  sums : List Attn.Summary
  /-- Waiting for reuse since a generation (R94), when no published entry names it any more. -/
  waiting : Option Nat
  deriving DecidableEq, Repr

/-- The directory entry of a PARKED sequence (R320). -/
structure ParkEntry where
  extent : Nat
  swapSerial : Nat
  deriving DecidableEq, Repr

/-! ### Published tables and table effects -/

/-- The tables of one hide at one table generation (R92). -/
structure Tab where
  gen : Nat
  seqs : AMap Seq
  pfxs : AMap Pfx
  index : AMap IdxEntry
  sets : AMap WSet
  /-- The current KV_PROJ and LATENT_UP set of (MODEL_ID, LAYER, role), by `curKey` (R173). -/
  current : AMap Nat
  books : AMap BookRec
  exts : AMap Extent
  parked : AMap ParkEntry
  deriving DecidableEq, Repr

def Tab.empty : Tab := ⟨0, [], [], [], [], [], [], [], []⟩

/-- The key of a current set: MODEL_ID, LAYER and role. -/
def curKey (model layer role : Nat) : Nat := (model * 256 + layer) * 4 + role

/-- A change that one publication makes to a hide's tables (R46, R92). -/
inductive Fx where
  /-- A new sequence (R88). -/
  | enter (handle : Nat) (s : Seq)
  /-- EXTEND: more reserved rods in each layer. -/
  | extend (handle rods : Nat)
  /-- A retirement (R86). -/
  | retire (handle : Nat)
  /-- An append: the layer's point before and after, and the frames it opened, in rod order; the frame that took
  the copy of a COW rod (R129, R181). -/
  | append (handle layer start count : Nat) (opened : List Nat) (copied : Option Nat)
  /-- A fork of a prefix (R128): the entries of each layer. -/
  | fork (handle pfx positions : Nat)
  /-- MASS updates of a layer: the masses of the blocks that the step read (R103). -/
  | mass (handle layer : Nat) (masses : List (Nat × U32))
  /-- Blocks evicted from a layer after a score update (R104). -/
  | evict (handle layer : Nat) (blocks : List Nat)
  /-- The declared global list (R148). -/
  | globals (handle : Nat) (list : List Nat)
  /-- A new BUDGET (R106). -/
  | budget (handle value : Nat)
  /-- A rod's new home: pool frame or extent, plain or coded (R96, R182). -/
  | rehome (handle layer rod : Nat) (old new : Page)
  /-- A state object's new content (R192). -/
  | stateWrite (handle layer : Nat) (bf : Bool) (vals : List U32)
  /-- A sequence moves out: to host memory at an address, or to flash at an extent (R99). -/
  | swapOut (handle serial addr size : Nat) (extent : Option Nat)
  /-- A sequence returns with the record its image gives (R100). -/
  | swapIn (handle : Nat) (s : Seq)
  /-- A sequence goes to a state without other change (R85). -/
  | seqState (handle : Nat) (st : SeqState)
  /-- A prefix becomes READY, taking the leading rods of its source sequence (R121 step 6). -/
  | publish (handle pfx : Nat) (rec : Pfx)
  /-- A prefix moves into a domain with its new hashes and re-encrypted extents (old, new) (R122). -/
  | promote (pfx scope : Nat) (hashes : List (List Byte)) (moved : List (Nat × Nat))
  /-- A prefix is withdrawn (R123). -/
  | withdraw (pfx : Nat)
  /-- A weight set becomes READY and, by its role, current (R176). -/
  | setReady (id : Nat)
  /-- A weight set goes RETIRING (R176). -/
  | setRetire (id : Nat)
  /-- A codebook generation becomes READY (R240). -/
  | bookReady (key : Nat)
  /-- A weight set or a codebook moves home (R96, R247). -/
  | setHome (id : Nat) (flash : Option (List Nat))
  | bookHome (key : Nat) (flash : Option (List Nat))
  deriving DecidableEq, Repr

end Sys2Proof.Machine
end

