-- ==== Sys2Proof/Machine/HideParts.lean ====
section
/-!
DEFINITION. What one hide holds (R367): its queue engine, its objects, its attachment (leases, buffers, directory),
its keys, its reset and its counters. Each part is plain data with a reset value.
-/

namespace Sys2Proof.Machine
open Sys2Proof

/-! ### The queue engine (R250 to R278) -/

/-- A noticed ring line: its bytes, whether it arrived poisoned, and its notice time (R254). -/
structure Notice where
  data : List Byte
  poison : Bool
  cycle : Nat
  deriving DecidableEq, Repr

/-- An order ring with its registers (R251, R252). -/
structure OrderRing where
  base : U64
  ctl : U32
  ready : Bool
  taken : U32
  pktTo : U32
  err : U32
  notices : AMap Notice
  /-- The transaction whose closing marker has not been taken (R274). -/
  txn : Option Nat
  /-- After a transaction timeout: orders up to the next closing marker complete with TIMEOUT (R278). -/
  skipping : Bool
  deriving DecidableEq, Repr

/-- R252: PKT_TO resets to 1,000 µs. -/
def OrderRing.reset : OrderRing := ⟨0, 0, false, 0, 1000, 0, [], none, false⟩

/-- A completion or event ring with its registers (R251, R252, R266). `pkts` lists the kept packets, oldest first, as
(first index, entries). -/
structure OutRing where
  base : U64
  ctl : U32
  ready : Bool
  prod : U32
  oldest : U32
  cons : U32
  lostHdr : U32
  lost : U32
  err : U32
  pkts : List (Nat × Nat)
  deriving DecidableEq, Repr

def OutRing.reset : OutRing := ⟨0, 0, false, 0, 0, 0, 0, 0, 0, []⟩

/-- A run of operand-area bytes captured when an order is taken (R139, R256). -/
structure Seg where
  off : Nat
  bytes : List Byte
  deriving DecidableEq, Repr

/-- An order as captured when it is taken (R255): its record, its place, its captured operands. -/
structure Order where
  seq : Nat
  ring : Nat
  index : Nat
  line : List Byte
  /-- A status found before the record is looked at: poison, framing, packet timeout (R254, R255, R258). -/
  early : Option (Nat × Nat)
  segs : List Seg
  opPoison : Bool
  /-- The d_h of the latent up-projection current when the order was taken (R140). -/
  dh : Nat
  txn : Option Nat
  takenF : Nat
  /-- The DMA read that brings the order's token IDs (R112). -/
  tokens : Option Nat
  /-- Registered buffers that the order's ranges lie in (R290). -/
  bufs : List Nat
  /-- The hash lane has finished with the order (R112). -/
  hashed : Bool
  deriving DecidableEq, Repr

/-- The field of `size` bytes at `off` of the order record (R257). -/
def Order.f (o : Order) (off size : Nat) : Nat := fieldAt o.line off size
def Order.opcode (o : Order) : Nat := o.f 0 1
def Order.cookie (o : Order) : Nat := o.f 4 4
/-- The order's ORDER_NO; a poisoned line's is its expected index (R254). -/
def Order.number (o : Order) : Nat := if o.line = List.replicate 64 0 then o.index else o.f 8 4

/-- A decode or prefill entry that has been withdrawn at a missed deadline and waits for its re-entry (R163). -/
structure Deferred where
  entry : Nat
  count : Nat
  /-- The furlong of its last miss. -/
  since : Nat
  /-- It waits for its re-entry. -/
  waiting : Bool
  deriving DecidableEq, Repr

/-- A delivery in progress (R131 to R133): the last furlong of its deadline and the records still to write, as
(record number, layer, rod). -/
structure Delivery where
  last : Nat
  left : List (Nat × Nat × Nat)
  delivered : Nat
  poisoned : Bool
  deriving DecidableEq, Repr

/-- The CT_ counters (R429). -/
structure Ct where
  taken : U32
  admitted : U32
  failed : U32
  decodeEntries : U32
  appendPos : U32
  prefillPos : U32
  subst : U32
  defers : U32
  dramLines : U64
  flashSectors : U64
  pfxHits : U32
  pfxFull : U32
  recodeSkip : U32
  evicted : U32
  codedLines : U64
  uncodedLines : U64
  furlong : U64
  deriving DecidableEq, Repr

def Ct.zero : Ct := ⟨0, 0, 0, 0, 0, 0, 0, 0, 0, 0, 0, 0, 0, 0, 0, 0, 0⟩

/-- An output write that waits for clean replays of the units it depends on (R142, R347): its batch entry, host address,
bytes, whether it carries poison (R291), and whether it is an entry header. -/
structure HeldOut where
  entry : Nat
  addr : Nat
  data : List Byte
  ep : Bool
  hdr : Bool
  deriving DecidableEq, Repr

/-- One rod that a long order copies (R96, R99, R121, R122, R131): where it is, its read transfer, where it goes, its
write transfer. -/
structure Copy where
  layer : Nat
  rod : Nat
  src : Page
  read : Option Nat
  dst : Option Page
  write : Option Nat
  deriving DecidableEq, Repr

/-- An order that has been admitted and has not completed. -/
structure Flight where
  order : Order
  /-- The table generation in force at its admission, and the furlong and chain of that admission (R93). -/
  gen : Nat
  admitF : Nat
  admitC : Nat
  /-- The chain, counted from furlong 0, in which its planned work ends. -/
  endChain : Nat
  /-- Its work has ended: status, DETAIL and RESULT are final, pending replays apart. -/
  ended : Bool
  status : Nat
  detail : Nat
  result : List Byte
  /-- Table effects, published in the lap chain after its work ends (R92). -/
  fx : List Fx
  /-- What it waits for: data-in jobs, DMA reads, fetches. -/
  jobs : List Nat
  dmas : List Nat
  fetches : List Nat
  /-- The tables it sees, kept while its work spans several steps (R93, R125, R163). -/
  view : Tab
  /-- How far a long order has come, and what it copies. -/
  phase : Nat
  copies : List Copy
  /-- The entries still to re-enter (R163). -/
  deferred : List Deferred
  delivery : Option Delivery
  /-- Frames and extents it took and gives back when it fails. -/
  tookFrames : List Nat
  tookExts : List Nat
  /-- Output entries written (R143): OK, degraded, failed, sum of SUBST, lowest failed entry with its status. -/
  tally : Nat × Nat × Nat × Nat
  firstFail : Option (Nat × Nat)
  /-- Output writes held back (R347). -/
  outs : List HeldOut
  /-- Replay units without a clean result (R347), and whether any has been replayed. -/
  suspects : List Nat
  replayed : Bool
  /-- Its target regions (R65). -/
  regions : Nat
  /-- Codebook blocks it counts in QUEUED, as (key, blocks) (R242). -/
  queued : List (Nat × Nat)
  /-- What its completion adds to the CT_ counters (R429). -/
  ct : Ct
  deriving DecidableEq, Repr

/-- A completion that waits for its lap chain or for its transaction (R262, R276). -/
structure Completion where
  order : Order
  status : Nat
  flags : Nat
  detail : Nat
  result : List Byte
  ct : Ct
  deriving DecidableEq, Repr

/-- The outcome of a transaction (R277): status of the closing marker and the member that decided. -/
structure Decision where
  commits : Bool
  status : Nat
  member : Nat
  furlong : Nat
  deriving DecidableEq, Repr

/-- A transaction (R274 to R278). -/
structure Txn where
  id : Nat
  ring : Nat
  start : Order
  openF : Nat
  /-- Members in taking order, by taking number. -/
  members : List Nat
  /-- Members that ended when they were taken, with their completions; members whose admitted work has ended, with
  their held effects. -/
  done : List Completion
  held : List Flight
  objects : List Nat
  /-- The closing marker, whether it is a commit, and its own failure status (0 when it passed its checks). -/
  closer : Option (Order × Bool × Nat × Nat)
  decision : Option Decision
  timedOut : Bool
  /-- The chain of the last end of a member or of its closing, for the order of posting (R262). -/
  lastChain : Nat
  deriving DecidableEq, Repr

/-- The queue engine of one hide. -/
structure QPart where
  orders : AMap OrderRing
  comps : AMap OutRing
  events : OutRing
  /-- Events held for an event ring that is not READY (R252). -/
  held : List (List (List Byte))
  /-- Taken orders that have not passed checks 1 to 6, in taking order: a marker at the front waits for its command. -/
  dispatch : List Order
  /-- The admission queue, in taking order (R65). -/
  queue : List Order
  flights : List Flight
  txns : List Txn
  nextSeq : Nat
  nextTxn : Nat
  /-- Capacity used in the current furlong, by slot number (R65). -/
  used : AMap Nat
  usedF : Nat
  /-- Intake stopped at a switch or a reset (R59, R63, R369), and admission stopped. -/
  noIntake : Bool
  noAdmit : Bool
  /-- Policer buckets: orders in units of 1/256 (R339), bytes; and the levels sampled at the last gate chain
  boundary. -/
  ordTokens : Nat
  byteTokens : Nat
  ordLevel : U32
  byteLevel : U32
  /-- Furlong from which the hide's admitted orders have 4,096 furlongs to drain (R59, R62, R369). -/
  drainFrom : Option Nat
  deriving DecidableEq, Repr

def QPart.reset : QPart :=
  ⟨[], [], OutRing.reset, [], [], [], [], [], 0, 0, [], 0, false, false, 0, 0, 0, 0, none⟩

/-! ### Objects (R74 to R134, R173 to R249, R320 to R326) -/

/-- A flash transfer of one extent (R316, R321 to R325): its sectors in or out, and its outcome once it ends. -/
structure Job where
  write : Bool
  extent : Nat
  module : Nat
  lba : Nat
  sectors : Nat
  serial : Nat
  keyKind : Nat
  key : Nat
  keyBits : BitVec 256
  /-- Sector contents by chunk: to write, or read so far. -/
  data : AMap (List Byte)
  /-- Commands of the transfer not yet complete. -/
  left : Nat
  status : Option Nat
  /-- The worst status met so far among its commands, 0 for none. -/
  worst : Nat
  deriving DecidableEq, Repr

/-- A fetch of a flash rod for an order (R129, R161). -/
structure Fetch where
  order : Nat
  layer : Nat
  rod : Nat
  extent : Nat
  /-- Its transfer, once it has buffer space (R161). -/
  job : Option Nat
  bytes : Nat
  /-- Its last data has arrived; its deadline has passed, and passed without it; nobody waits for it any more. -/
  arrived : Bool
  past : Bool
  missed : Bool
  dropped : Bool
  deriving DecidableEq, Repr

/-- A DMA read (R291): the requested range and what has come back. -/
structure Dma where
  order : Nat
  addr : Nat
  len : Nat
  data : List Byte
  /-- `none` while waiting; otherwise OK, POISON or TIMEOUT. -/
  status : Option Nat
  deriving DecidableEq, Repr

/-- A rod that waits for recoding (R182). -/
structure RecodeWork where
  handle : Nat
  layer : Nat
  rod : Nat
  book : Nat
  deriving DecidableEq, Repr

/-- A lookup in progress over several META admissions (R125). -/
structure LookupWork where
  seq : Nat
  hashes : List (List Byte)
  probed : Nat
  /-- The last match: prefix and rod; and whether the probing has ended. -/
  found : Option (Nat × Nat)
  probing : Bool
  compared : Nat
  /-- The chain, counted from furlong 0, of its last META admission. -/
  last : Nat
  deriving DecidableEq, Repr

/-- The pool counts and other figures that change only at publications (R428). -/
structure PlFigures where
  free : AMap Nat
  resv : AMap Nat
  used : AMap Nat
  wait : AMap Nat
  ovf : AMap Nat
  seqUsed : Nat
  weightFree : Nat
  cbInUse : Nat
  flFree : AMap Nat
  deriving DecidableEq, Repr

def PlFigures.zero : PlFigures := ⟨[], [], [], [], [], 0, 0, 0, []⟩

/-- The objects of one hide. -/
structure OPart where
  tab : Tab
  /-- Effects of ended orders outside transactions, in the order in which the publication applies them (R276). -/
  pending : List Fx
  frames : AMap Frame
  /-- Reserved frames by pool (R89). -/
  reserved : AMap Nat
  figures : PlFigures
  jobs : AMap Job
  fetches : AMap Fetch
  dmas : AMap Dma
  nextJob : Nat
  nextFetch : Nat
  nextDma : Nat
  nextPfx : Nat
  nextSet : Nat
  /-- The newest generation of each codebook ID that has been loaded (R240). -/
  bookGens : AMap Nat
  recodes : List RecodeWork
  lookups : List LookupWork
  /-- Taking numbers of the orders on the hash lane, in ring order (R112). -/
  lane : List Nat
  /-- Poisoned metadata (R345), and frames stranded by it. -/
  metas : List MetaRef
  stranded : List Nat
  strandedExts : List Nat
  /-- Sectors by port: withheld after a failed TRIM, or of freed extents whose TRIM is out (R324), as (port, lba, count). -/
  withheld : List (Nat × Nat × Nat)
  trimming : List (Nat × Nat × Nat)
  /-- Ranges of the allotments that wait for the TRIM of R329; PL_FLm_FREE counts them (R427). -/
  untrimmed : List (Nat × Nat × Nat)
  deriving DecidableEq, Repr

def OPart.reset : OPart :=
  ⟨Tab.empty, [], [], [], PlFigures.zero, [], [], [], 0, 0, 0, 0, 0, [], [], [], [], [], [], [], [], [], []⟩

/-! ### Attachment (R279 to R306) -/

/-- The states of a lease slot (R299). -/
inductive LeaseState where
  | empty | active | sealed | closing | scrubbing
  deriving DecidableEq, Repr

/-- The code of R306. -/
def LeaseState.code : LeaseState → Nat
  | .empty => 0 | .active => 1 | .sealed => 2 | .closing => 3 | .scrubbing => 4

/-- A lease slot with the fields of AC_Ln_STAT, REMAIN and FAULT (R306). -/
structure LeaseSlot where
  st : LeaseState
  sharer : Bool
  compat : Bool
  acre : Nat
  peer : Nat
  status : Nat
  term : Nat
  grants : Nat
  remain : Nat
  faultValid : Bool
  faultOff : Nat
  faultKind : Nat
  faultCount : U32
  refusedReads : Nat
  refusedWrites : Nat
  deriving DecidableEq, Repr

def LeaseSlot.reset : LeaseSlot := ⟨.empty, false, false, 0, 0, 0, 0, 0, 0, false, 0, 0, 0, 0, 0⟩

/-- A registered host buffer (R290). `clearedAt` is the taking number at the last clear of EN. -/
structure HostBuf where
  addr : U64
  len : U64
  en : Bool
  rd : Bool
  wr : Bool
  clearedAt : Nat
  deriving DecidableEq, Repr

def HostBuf.reset : HostBuf := ⟨0, 0, false, false, false, 0⟩

/-- A line that the hide's host holds: its HDM offset and whether it holds it exclusive (R288, R303). -/
structure DirLine where
  off : Nat
  excl : Bool
  deriving DecidableEq, Repr

/-- Why a snoop was sent (R288, R266, R296, R303, R304). -/
inductive SnoopFor where
  | quota | ringWrite | command | request | ended
  deriving DecidableEq, Repr

/-- A back-invalidate snoop that the hide's host has not answered (R289, R304). -/
structure Snoop where
  off : Nat
  inv : Bool
  why : SnoopFor
  deriving DecidableEq, Repr

/-- What an accepted acre request asks for (R293, R303). -/
inductive AcreOp where
  | read (kind : ReadKind)
  | write (data : List Byte) (poison writeBack : Bool)
  | inv
  deriving DecidableEq, Repr

/-- A request in an owner's acre queue (R293). -/
structure AcreReq where
  hide : Nat
  slot : Nat
  acre : Nat
  line : Nat
  op : AcreOp
  /-- Unordered I/O from a peer (R287): answered by a CXL.io completion. -/
  uio : Bool
  deriving DecidableEq, Repr

/-- A lease command that waits for its recalls (R297). -/
structure LeaseCmd where
  sealing : Bool
  slot : Nat
  deriving DecidableEq, Repr

/-- The attachment of one hide. -/
structure APart where
  dir : List DirLine
  snoops : List Snoop
  acreQ : List AcreReq
  slots : AMap LeaseSlot
  cmd : Option LeaseCmd
  result : Nat
  expired : U64
  biTo : U32
  err : U32
  lost : U32
  roWr : U32
  dirEvict : U32
  overflows : U32
  bufs : AMap HostBuf
  /-- Held lower halves of split writes and latched upper halves of split reads, by window offset (R284). -/
  lowHalves : AMap Nat
  highLatch : AMap Nat
  /-- Poisoned lines of the hide's ring and operand areas, by HDM offset (R305), and notice times of operand lines
  (R256). -/
  poisonLines : List Nat
  opNotice : AMap Nat
  deriving DecidableEq, Repr

/-- R306: BI_TO resets to 100 µs. -/
def APart.reset : APart := ⟨[], [], [], [], none, 0, 0, 100, 0, 0, 0, 0, 0, [], [], [], [], []⟩

/-! ### Keys, confidential mode and reset (R368 to R385) -/

/-- A job key index (R375): held, its generation, and its serial counter. -/
structure JobKey where
  held : Bool
  gen : Nat
  serial : Nat
  deriving DecidableEq, Repr

def JobKey.reset : JobKey := ⟨false, 0, 0⟩

/-- The TSP interface state (R380); `off` for a hide that is not confidential. -/
inductive Tsp where
  | off | unlocked | locked | run | error
  deriving DecidableEq, Repr

/-- The code of R390. -/
def Tsp.code : Tsp → Nat
  | .off => 0 | .unlocked => 1 | .locked => 2 | .run => 3 | .error => 4

/-- The phases of a hide reset (R369). RELOAD begins and ends at one boundary, so no state stands in it; `reload`
waits for that boundary. -/
inductive ResetPhase where
  | idle | start | ending | held | keys | release | scrub | reload
  deriving DecidableEq, Repr

/-- The code of HD_RESET_STAT.PHASE (R397); before the boundary that starts ENDING it still reads IDLE. -/
def ResetPhase.code : ResetPhase → Nat
  | .idle => 0 | .start => 0 | .ending => 1 | .held => 2 | .keys => 3 | .release => 4 | .scrub => 5 | .reload => 6

/-- Keys, confidential mode, reset and trace of one hide. -/
structure KPart where
  root : BitVec 256
  jobKeys : AMap JobKey
  domSerial : AMap Nat
  hflSerial : Nat
  jobResult : Nat
  tsp : Tsp
  pristine : Bool
  phase : ResetPhase
  drain : Bool
  cause : Nat
  /-- ORIGIN_KIND and ORIGIN_ID of the reset's record (R371). -/
  origin : Nat × Nat
  ended : Nat
  profCtl : U32
  profLost : U32
  profPos : Nat
  deriving DecidableEq, Repr

def KPart.reset : KPart := ⟨0, [], [], 0, 0, .off, true, .idle, false, 0, (0, 0), 0, 0, 0, 0⟩

/-! ### Counters (R339, R364, R429) -/

/-- The counters of one hide: as the host reads them, the events counted since the last boundary, and the telemetry
counts since the last TELEMETRY (R418). -/
structure CPart where
  ct : Ct
  ctNext : Ct
  replayed : U32
  confirmed : U32
  poison : U32
  checkFail : U32
  accessErr : U32
  policed : U32
  policedBytes : U32
  cxlWait : U32
  lgWait : AMap U32
  telAdmitted : U32
  telFailed : U32
  telIn : U64
  telOut : U64
  telAcre : U64
  deriving DecidableEq, Repr

def CPart.zero : CPart := ⟨Ct.zero, Ct.zero, 0, 0, 0, 0, 0, 0, 0, 0, [], 0, 0, 0, 0, 0⟩

/-! ### One hide -/

/-- The state of a replacement section load for a hide (R62, R426). -/
structure StagedSection where
  sec : Section
  abort : Bool
  load : Nat
  /-- 0 staged, 1 admission stopped, 2 installed at the next boundary. -/
  stage : Nat
  deriving DecidableEq, Repr

/-- PL_LOAD_STAT of a hide (R426). -/
structure LoadStat where
  result : Nat
  st : Nat
  abort : Bool
  viaDoe : Bool
  deriving DecidableEq, Repr

/-- One hide: its part of the plan in force and the parts above. -/
structure HideSt where
  lay : Option HideEntry
  sec : Option Section
  /-- Slots and the images of PL_CLASS and PL_WAIT in force, variants applied (R72, R428). -/
  slots : List Slot
  plClass : List U32
  plWait : List U32
  staged : Option StagedSection
  loadStat : LoadStat
  q : QPart
  o : OPart
  a : APart
  k : KPart
  c : CPart
  deriving DecidableEq, Repr

def HideSt.reset : HideSt :=
  ⟨none, none, [], [], [], none, ⟨0, 0, false, false⟩, QPart.reset, OPart.reset, APart.reset, KPart.reset, CPart.zero⟩

end Sys2Proof.Machine
end

