-- ==== Sys2Proof/Machine/State.lean ====
section
/-!
DEFINITION. The state of the device, the reasons a step can stop, and the state after reset.
-/

namespace Sys2Proof.Machine
open Sys2Proof

/-- The state of the VX96: plain data (R10, R84 to R92, R250 to R278, R285, R292, R306, R330, R339, R364 to R366, R397,
R398, R421, R425 to R434), and the commands that wait, first in, first out. -/
structure State where
  power : Power
  sensors : AMap Sensor
  /-- RESET_N is recognised as asserted (R412, R444). -/
  resetPin : Bool
  clocks : Clocks
  regions : AMap Region
  clusters : AMap ClusterSt
  plan : Plan
  hides : AMap HideSt
  /-- Interface memory (R287): byte `off` of hide `h`'s first GiB at `h * 2^30 + off`. -/
  imem : List Host.Cell
  acres : AMap Acre
  gates : Gates
  cxl : Cxl
  ports : AMap PortSt
  dex : Dex
  mgmt : Mgmt
  box : Box
  screen : Screen
  tap : Tap
  /-- The model's own: free values drawn so far (`Config.freeWord`). -/
  free : Nat
  /-- The model's own: the commands that wait. -/
  pending : List Instr
  deriving DecidableEq, Repr

/-- Reasons for a fault. The spec gives every command an effect or says that it has none, so no meaning raises one. -/
inductive Fault where
  /-- Raised by nothing: the spec describes no access that stops the device. Safe: it forbids nothing. -/
  | none
  deriving DecidableEq, Repr

/-- Reasons for a refusal. -/
inductive Refusal where
  /-- Raised by an arm of `exec` for a command that has no meaning yet. Safe: it proves nothing about the command. -/
  | notModelled (mnemonic : String)
  deriving DecidableEq, Repr

/-- Hide `h`. -/
def State.hide (s : State) (h : Nat) : HideSt := s.hides.get HideSt.reset h
/-- Region `r`. -/
def State.region (s : State) (r : Nat) : Region := s.regions.get Region.reset r
/-- A cluster with no entry of its own: unit 76 is held out from the first activation on (R356). -/
def ClusterSt.plain (activated : Bool) : ClusterSt :=
  { ClusterSt.reset with heldOut := if activated then some 76 else none }
/-- Cluster `c`. -/
def State.cluster (s : State) (c : Nat) : ClusterSt := s.clusters.get (ClusterSt.plain (s.plan.activations != 0)) c
/-- Acre `a`. -/
def State.acre (s : State) (a : Nat) : Acre := s.acres.get Acre.reset a
/-- League port `p`. -/
def State.port (s : State) (p : Nat) : PortSt := s.ports.get PortSt.reset p
/-- Logical device `l`. -/
def State.ld (s : State) (l : Nat) : LdSt := s.cxl.lds.get LdSt.reset l

/-- The machine after reset: no supply yet, every volatile thing at its reset value, the stores of R410 as
manufactured (assumptions 4 and 5). -/
def State.reset : State :=
  { power := Power.reset, sensors := [], resetPin := false, clocks := Clocks.reset, regions := [], clusters := [],
    plan := Plan.reset, hides := [], imem := [], acres := [], gates := Gates.reset, cxl := Cxl.reset, ports := [],
    dex := Dex.reset, mgmt := Mgmt.reset, box := Box.reset, screen := Screen.reset, tap := Tap.reset, free := 0,
    pending := [] }

end Sys2Proof.Machine
end

