-- ==== Sys2Proof/Machine/Ops.lean ====
section
/-!
DEFINITION. The named operations on the state: its parts, interface memory, the black box, the egress queues, rings and
what is posted to them.
-/

namespace Sys2Proof.Machine
open Sys2Proof

/-! ### Parts of the state -/

def State.setHide (s : State) (h : Nat) (x : HideSt) : State := { s with hides := s.hides.set h x }
/-- Change hide `h`. -/
def State.upHide (s : State) (h : Nat) (f : HideSt → HideSt) : State := s.setHide h (f (s.hide h))
/-- Change the queue engine, the objects, the attachment, the keys or the counters of hide `h`. -/
def State.upQ (s : State) (h : Nat) (f : QPart → QPart) : State := s.upHide h (fun x => { x with q := f x.q })
def State.upO (s : State) (h : Nat) (f : OPart → OPart) : State := s.upHide h (fun x => { x with o := f x.o })
def State.upA (s : State) (h : Nat) (f : APart → APart) : State := s.upHide h (fun x => { x with a := f x.a })
def State.upK (s : State) (h : Nat) (f : KPart → KPart) : State := s.upHide h (fun x => { x with k := f x.k })
def State.upC (s : State) (h : Nat) (f : CPart → CPart) : State := s.upHide h (fun x => { x with c := f x.c })
def State.upRegion (s : State) (r : Nat) (f : Region → Region) : State :=
  { s with regions := s.regions.set r (f (s.region r)) }
def State.upCluster (s : State) (c : Nat) (f : ClusterSt → ClusterSt) : State :=
  { s with clusters := s.clusters.set c (f (s.cluster c)) }
def State.upAcre (s : State) (a : Nat) (f : Acre → Acre) : State := { s with acres := s.acres.set a (f (s.acre a)) }
def State.upPort (s : State) (p : Nat) (f : PortSt → PortSt) : State := { s with ports := s.ports.set p (f (s.port p)) }
def State.upLd (s : State) (l : Nat) (f : LdSt → LdSt) : State :=
  { s with cxl := { s.cxl with lds := s.cxl.lds.set l (f (s.ld l)) } }

/-- Do `f` for every listed number in turn. -/
def forAll (s : State) (l : List Nat) (f : State → Nat → State) : State := l.foldl f s

/-- Update the value at a key. -/
def amapUp {α : Type} (d : α) (m : AMap α) (k : Nat) (f : α → α) : AMap α := m.set k (f (m.get d k))

/-- The hides of LAYOUT, rising (R50). -/
def State.present (s : State) : List Nat := (List.range 16).filter (fun h => (s.hide h).lay.isSome)

/-- The hide that LAYOUT binds to a logical device (R281). -/
def State.hideOfLd (s : State) (l : Nat) : Option Nat :=
  (List.range 16).find? (fun h => match (s.hide h).lay with | some e => e.ld == l | none => false)

/-- The logical device of a hide. -/
def State.ldOf (s : State) (h : Nat) : Nat := match (s.hide h).lay with | some e => e.ld | none => h

/-- Is the hide confidential (R379). -/
def HideSt.confidential (x : HideSt) : Bool := match x.lay with | some e => e.confidential | none => false

/-- Is the hide's reset past its first boundary (R369). -/
def HideSt.resetting (x : HideSt) : Bool := x.k.phase != .idle && x.k.phase != .start

/-- The device runs: no supply loss, no security error, self-tests done (R395, R400, R404). -/
def State.up (s : State) : Bool :=
  (s.power.st == .running || s.power.st == .tripped) && !s.dex.error

/-- A ream is active, as R404 and R423 count it. -/
def State.reamActive (s : State) : Bool := s.plan.ream.isSome && s.power.st == .running && !s.dex.error

/-- The furlong length in force: the ream's lean length or 4,500 (R42). -/
def State.furlongLength (s : State) : Nat :=
  match s.plan.ream with
  | some r => if s.plan.lean then r.header.leanLength else 4500
  | none => 4500

/-! ### Free values -/

/-- Take the next free value (`Config.freeWord`), of `w` bits. -/
def State.freeValue (s : State) : State × Nat :=
  ({ s with free := s.free + 1 }, (Config.freeWord s.free).toNat)

/-- Take a 256-bit draw from Dexfoti's DRBG (R372). -/
def State.draw (s : State) : State × BitVec 256 :=
  ({ s with dex := { s.dex with draws := s.dex.draws + 1 } }, Config.drbg s.dex.draws)

/-! ### Interface memory (R285, R287) -/

/-- The bytes of one hide's share: the first GiB of its HDM range. -/
def imemBase (h off : Nat) : Nat := h * 2 ^ 30 + off

/-- Read one byte; an unlisted byte is zero (R287). -/
def Memory.get (m : List Host.Cell) (a : Nat) : Byte := AMap.get 0 m a

/-- Write one byte, keeping the canonical form: rising addresses, no zero listed. -/
def Memory.set (m : List Host.Cell) (a : Nat) (b : Byte) : List Host.Cell :=
  if b = 0 then AMap.erase m a else AMap.set m a b

/-- Read `n` bytes. -/
def Memory.read (m : List Host.Cell) (a : Nat) : Nat → List Byte
  | 0 => []
  | n + 1 => Memory.get m a :: Memory.read m (a + 1) n

/-- Write bytes at rising addresses. -/
def Memory.write (m : List Host.Cell) (a : Nat) : List Byte → List Host.Cell
  | [] => m
  | b :: t => Memory.write (Memory.set m a b) (a + 1) t

/-- Zero the bytes of `[lo, hi)`. -/
def Memory.zero (m : List Host.Cell) (lo hi : Nat) : List Host.Cell :=
  m.filter (fun c => decide (c.1 < lo) || decide (hi ≤ c.1))

/-- Rising addresses, starting at or above `lo`, and no zero byte listed. -/
def Memory.wfFrom (lo : Nat) : List Host.Cell → Bool
  | [] => true
  | (a, b) :: t => decide (lo ≤ a) && b != 0 && Memory.wfFrom (a + 1) t

/-- The canonical form of interface memory. -/
def Memory.wf (m : List Host.Cell) : Bool := Memory.wfFrom 0 m

/-- Read interface memory of a hide. -/
def State.readMem (s : State) (h off n : Nat) : List Byte := Memory.read s.imem (imemBase h off) n
/-- Write interface memory of a hide. -/
def State.writeMem (s : State) (h off : Nat) (bs : List Byte) : State :=
  { s with imem := Memory.write s.imem (imemBase h off) bs }

/-- The start of the operand area within the HDM range (R285). -/
def opndBase : Nat := 0x4000000

/-! ### The black box (R361 to R366) -/

def agent (a : Nat) : Origin := ⟨3, a⟩
def bySession (n : Nat) : Origin := ⟨1, n⟩
/-- A hide's origin: hide, logical device, and the DOE bit (R362). -/
def byHide (s : State) (h : Nat) (doe : Bool) : Origin := ⟨2, h + 16 * s.ldOf h + (if doe then 256 else 0)⟩

/-- Record types (R362). -/
def recConfig : Nat := 1
def recFault : Nat := 2
def recReplay : Nat := 3
def recSpare : Nat := 4
def recVariant : Nat := 5
def recScreen : Nat := 6
def recSummary : Nat := 7
def recPower : Nat := 8
def recReset : Nat := 9
def recLink : Nat := 10
def recTorn : Nat := 11

/-- Bytes of a record, with four bytes for each field of its body (assumption 7). -/
def Rec.size (r : Rec) : Nat := 36 + 4 * r.body.length

/-- The bytes of a record as the messages carry it (R362). -/
def Rec.image (r : Rec) : List Byte :=
  let b := leBytes 2 r.size ++ leBytes 1 r.typ ++ leBytes 1 r.origin.kind ++ leBytes 4 r.origin.id ++ leBytes 8 r.seq ++
    leBytes 8 r.rtc ++ leBytes 6 r.furlong ++ leBytes 1 r.region ++ leBytes 1 r.activation ++
    r.body.flatMap (leBytes 4)
  b ++ leBytes 4 (Crypto.crc32c b).toNat

/-- Bytes of the records from SEQ `n` on. -/
def Box.bytesFrom (b : Box) (n : Nat) : Nat := (b.recs.filter (fun r => decide (n ≤ r.seq))).foldl (fun n r => n + r.size) 0

/-- Bytes of a segment after its header (R361). -/
def segmentBytes : Nat := 128 * 2 ^ 10 - 32

/-- Append a record: to the last segment, else to a new one, for which the oldest of 256 is erased (R361). -/
def Box.append (b : Box) (r : Rec) : Box :=
  let n := b.segs.length
  match b.segs.getLast? with
  | some (k, z) =>
    if z + r.size ≤ segmentBytes then
      { b with recs := b.recs ++ [r], segs := b.segs.dropLast ++ [(k + 1, z + r.size)], next := b.next + 1 }
    else if n < 256 then { b with recs := b.recs ++ [r], segs := b.segs ++ [(1, r.size)], next := b.next + 1 }
    else
      let kept := b.recs.drop (match b.segs with | (k, _) :: _ => k | [] => 0) ++ [r]
      { b with
        recs := kept
        segs := b.segs.drop 1 ++ [(1, r.size)]
        next := b.next + 1
        first := match kept with | x :: _ => x.seq | [] => b.first
        wrapped := true }
  | none => { b with recs := [r], segs := [(1, r.size)], next := b.next + 1, first := r.seq }

/-- Write a record (R362); sessions with notices on receive the kinds that R415 names. -/
def State.record (s : State) (typ : Nat) (o : Origin) (region : Nat) (body : List Nat) : State :=
  let r : Rec :=
    { typ := typ, origin := o, seq := s.box.next, rtc := if s.mgmt.rtcSet then s.mgmt.rtc.toNat else 0,
      furlong := s.plan.furlong, region := region, activation := s.plan.activations.toNat % 256, body := body }
  let told := if typ == recFault || typ == recVariant || typ == recPower || typ == recReset || typ == recLink then
      (s.mgmt.sessions.filter (·.notices)).map (fun (x : Session) => (⟨x.id, 0x8001, 0, 0, r.image⟩ : Reply))
    else []
  { s with box := s.box.append r, mgmt := { s.mgmt with sent := s.mgmt.sent ++ told } }

/-! ### Egress queues (R333) -/

/-- The key of a queue: link and owner; owner 16 is the device. -/
def egKey (link owner : Nat) : Nat := link * 32 + owner

/-- The gate image of a hide on a link: group and weight (R339). -/
def HideSt.gate (x : HideSt) (link : Nat) : Nat :=
  match x.sec with
  | some k => if link = 8 then k.tgCxlGate.toNat else (k.tgLgGate.getD link 0).toNat
  | none => 0
def gateGroup (g : Nat) : Nat := bits g 12 4
def gateWeight (g : Nat) : Nat := bits g 16 8

/-- The later of two tags, compared by their signed difference (R335). -/
def laterTag (a b : BitVec 64) : BitVec 64 := if (a - b).toInt < 0 then b else a

/-- A frame has become the head of a hide's queues on a link: its start tag (R335, R336). -/
def State.tagHead (s : State) (link h : Nat) : State :=
  let g := (s.hide h).gate link
  if 16 ≤ h ∨ gateWeight g = 0 then s
  else
    let v := s.gates.vtime.get 0 (link * 16 + gateGroup g)
    let f := s.gates.finish.get 0 (link * 16 + h)
    { s with gates := { s.gates with start := s.gates.start.set (link * 16 + h) (laterTag v f) } }

/-- Put a frame into the first (MEM, CMD) or second (IO, WDATA) queue of an owner. -/
def State.enqueue (s : State) (link owner : Nat) (firstQ : Bool) (f : EgFrame) : State :=
  let k := egKey link owner
  let q := s.gates.queues.get EgQueue.empty k
  let q' := if firstQ then { q with first := q.first ++ [f] } else { q with second := q.second ++ [f] }
  let heads := q.first.isEmpty && (q.second.isEmpty || (firstQ && link == 8))
  let s := { s with gates := { s.gates with queues := s.gates.queues.set k q' } }
  if heads then s.tagHead link owner else s

/-- The owner on the CXL link of a logical device's traffic: its hide, or the device (R333). -/
def State.cxlOwner (s : State) (l : Nat) : Nat := (s.hideOfLd l).getD 16

/-- Cut bytes into pieces of at most 512 (R291, R333). -/
def pieces512 : Nat → List Byte → List (List Byte)
  | 0, _ => []
  | _, [] => []
  | n + 1, bs => bs.take 512 :: pieces512 n (bs.drop 512)

/-- DMA write of bytes to a host address, in posted writes of at most 512 bytes (R291, R333). -/
def State.dmaWrite (s : State) (h addr : Nat) (bs : List Byte) (ep : Bool) : State :=
  let s := s.upC h (fun c => { c with telOut := satAdd c.telOut bs.length })
  ((pieces512 (bs.length / 512 + 1) bs).foldl (fun (p : State × Nat) b =>
    (p.1.enqueue 8 h false ⟨b.length + 16, .ioWrite p.2 b ep⟩, p.2 + b.length)) (s, addr)).1

/-! ### Rings (R250 to R252, R262 to R267) -/

/-- CTL.EN (R252). -/
def ctlEn (c : U32) : Bool := c.getLsbD 0
/-- The entries of a ring: 2^(SIZE + 6) (R250). -/
def ctlEntries (c : U32) : Nat := 2 ^ (bits c.toNat 1 4 + 6)

/-- The difference of two indices, as a signed 32-bit value (R251). -/
def idxDiff (a b : U32) : Int := (a - b).toInt

/-- CONS as the device takes it: disregarded outside OLDEST to PROD (R266), and never below OLDEST. -/
def OutRing.read (r : OutRing) : U32 :=
  if 0 ≤ idxDiff r.cons r.oldest ∧ 0 ≤ idxDiff r.prod r.cons then r.cons else r.oldest

/-- Unread entries. -/
def OutRing.unread (r : OutRing) : Nat := (r.prod - r.read).toNat

/-- PKTS: complete packets among the unread entries, a partly read one included (R269). -/
def OutRing.packets (r : OutRing) : Nat :=
  (r.pkts.filter (fun p => decide (0 < idxDiff (BitVec.ofNat 32 (p.1 + p.2)) r.read))).length

/-- Advance OLDEST past the oldest packet, counting its unread entries as lost (R266). -/
def OutRing.dropOldest (r : OutRing) (counted : Bool) : OutRing :=
  match r.pkts with
  | [] => r
  | (i, n) :: t =>
    let e := BitVec.ofNat 32 (i + n)
    let lost := if counted then Int.toNat (min (n : Int) (idxDiff e r.read)) else 0
    { r with oldest := e, pkts := t, lost := satAdd r.lost lost, lostHdr := satAdd r.lostHdr lost }

/-- Drop packets until `k` entries fit (R266 step 1). -/
def OutRing.makeRoom (r : OutRing) (n k : Nat) : Nat → OutRing
  | 0 => r
  | fuel + 1 => if n - 1 - r.unread < k ∧ r.pkts ≠ [] then (r.dropOldest true).makeRoom n k fuel else r

/-- The offset of the entry of an index in the hide's HDM range (R250). -/
def entryOff (base : U64) (entries size : Nat) (i : U32) : Nat := base.toNat + 256 + (i.toNat % entries) * size

/-- Replace bytes of a record. -/
def patch (r : List Byte) (off : Nat) (bs : List Byte) : List Byte := r.take off ++ bs ++ r.drop (off + bs.length)

/-- Write the device's header line of an output ring (R251). -/
def headerBytes (r : OutRing) : List Byte :=
  leBytes 4 r.prod.toNat ++ leBytes 4 r.lostHdr.toNat ++ leBytes 4 r.oldest.toNat

/-- Drop host copies of the lines of a range before the device writes it (R266 step 2). -/
def State.backInvalidate (s : State) (h off n : Nat) : State :=
  let hit := (s.hide h).a.dir.filter (fun d => decide (off / 64 * 64 ≤ d.off) && decide (d.off < off + n))
  let s := hit.foldl (fun s d => s.enqueue 8 h true ⟨16, .snoop d.off true⟩) s
  s.upA h (fun a => { a with
    dir := a.dir.filter (fun d => !(hit.contains d)),
    snoops := a.snoops ++ hit.map (fun d => (⟨d.off, true, .ringWrite⟩ : Snoop)) })

/-- Write one entry at PROD with its ENTRY_NO (R266 step 3). -/
def State.putEntry (s : State) (h noOff : Nat) (r : OutRing) (e : List Byte) : State × OutRing :=
  let n := ctlEntries r.ctl
  let off := entryOff r.base n 32 r.prod
  let s := s.backInvalidate h off 32
  (s.writeMem h off (patch e noOff (leBytes 4 r.prod.toNat)), { r with prod := r.prod + 1 })

/-- Post one packet of entries that fits the ring (R266). The tags are set here: END_MARK or LENGTH_WORD framing
(R269). -/
def State.postPacket (s : State) (h noOff : Nat) (lw : Bool) (r : OutRing) (es : List (List Byte)) : State × OutRing :=
  let n := ctlEntries r.ctl
  let body := if lw then
      es.map (fun e => patch e 1 [1])
    else es.zipIdx.map (fun p => patch p.1 1 [if p.2 + 1 = es.length then 3 else 1])
  let slot := patch (patch (List.replicate 32 0) 1 [5]) 16 (leBytes 2 es.length)
  let all := if lw then slot :: body else body
  let r := r.makeRoom n all.length (r.pkts.length + 1)
  let start := r.prod
  let (s, r) := all.foldl (fun (p : State × OutRing) e => p.1.putEntry h noOff p.2 e) (s, r)
  let off := entryOff r.base n 32 r.prod
  let s := s.backInvalidate h off 32
  let s := s.writeMem h (off + 1) [0]
  let r := { r with pkts := r.pkts ++ [(start.toNat, all.length)] }
  let s := s.backInvalidate h r.base.toNat 12
  (s.writeMem h r.base.toNat (headerBytes r), r)

/-- Cut entries into packets that the ring can hold (R266). -/
def cutPackets (k : Nat) : Nat → List (List Byte) → List (List (List Byte))
  | 0, _ => []
  | fuel + 1, es => if es.length ≤ k then [es] else es.take k :: cutPackets k fuel (es.drop k)

/-- Post entries as one packet, or as several when the ring cannot hold them together. -/
def State.postEntries (s : State) (h noOff : Nat) (lw : Bool) (r : OutRing) (es : List (List Byte)) : State × OutRing :=
  let k := ctlEntries r.ctl - 1 - (if lw then 1 else 0)
  (cutPackets k (es.length + 1) es).foldl (fun (p : State × OutRing) es => p.1.postPacket h noOff lw p.2 es) (s, r)

/-- LENGTH_WORD framing of a hide's rings (R269). -/
def HideSt.lengthWord (x : HideSt) : Bool := match x.lay with | some e => e.lengthWord | none => false

/-- Post completion entries to completion ring `n`: discarded and counted while EN is clear (R252). -/
def State.postComp (s : State) (h n : Nat) (es : List (List Byte)) : State :=
  let x := s.hide h
  let r := x.q.comps.get OutRing.reset n
  if r.ready then
    let (s, r) := s.postEntries h 12 x.lengthWord r es
    s.upQ h (fun q => { q with comps := q.comps.set n r })
  else s.upQ h (fun q => { q with comps := q.comps.set n { r with lost := satAdd r.lost es.length } })

/-- The bytes of an event entry (R267). -/
def eventEntry (kind furlong : Nat) (payload : List Byte) : List Byte :=
  leBytes 1 kind ++ leBytes 7 0 ++ leBytes 8 furlong ++ (payload ++ List.replicate 16 0).take 16

/-- Post one event packet to a hide, or hold it until its ring is READY (R252, R267). -/
def State.postEvent (s : State) (h : Nat) (es : List (List Byte)) : State :=
  let x := s.hide h
  if x.q.events.ready then
    let (s, r) := s.postEntries h 4 x.lengthWord x.q.events es
    s.upQ h (fun q => { q with events := r })
  else s.upQ h (fun q => { q with held := q.held ++ [es] })

def evPlanDegraded : Nat := 1
def evQueueFault : Nat := 2
def evDevice : Nat := 3
def evHealth : Nat := 4
def evLean : Nat := 5

/-- The unattributed DEVICE_EVENT to every listed hide (R267). -/
def State.deviceEventTo (s : State) (l : List Nat) : State :=
  forAll s l (fun s h => s.postEvent h [eventEntry evDevice s.plan.furlong []])

/-- DEVICE_EVENT to every hide of LAYOUT. -/
def State.deviceEvent (s : State) : State := s.deviceEventTo s.present

/-- The bytes of a completion entry (R262). -/
def Completion.entry (c : Completion) : List Byte :=
  leBytes 1 c.status ++ leBytes 1 0 ++ leBytes 1 (c.order.opcode) ++ leBytes 1 c.flags ++ leBytes 4 c.order.cookie ++
  leBytes 4 c.order.number ++ leBytes 4 0 ++ leBytes 4 c.detail ++ (c.result ++ List.replicate 12 0).take 12

/-! ### Completion statuses (R263) -/
def stOk : Nat := 0x00
def stOkReplayed : Nat := 0x01
def stOkDegraded : Nat := 0x02
def stFieldRange : Nat := 0x10
def stBadObject : Nat := 0x11
def stNoPage : Nat := 0x12
def stConflict : Nat := 0x13
def stPoliced : Nat := 0x14
def stTimeout : Nat := 0x15
def stPoison : Nat := 0x16
def stCheckFail : Nat := 0x17
def stCodebookRetired : Nat := 0x18
def stLeaseLost : Nat := 0x19
def stNotAdmitted : Nat := 0x1A
def stHideReset : Nat := 0x1B
def stPlanMismatch : Nat := 0x1C
def stDeviceFault : Nat := 0x1F

/-- Add counts, saturating. -/
def Ct.add (a b : Ct) : Ct :=
  { a with
    taken := satAdd a.taken b.taken.toNat
    admitted := satAdd a.admitted b.admitted.toNat
    failed := satAdd a.failed b.failed.toNat
    decodeEntries := satAdd a.decodeEntries b.decodeEntries.toNat
    appendPos := satAdd a.appendPos b.appendPos.toNat
    prefillPos := satAdd a.prefillPos b.prefillPos.toNat
    subst := satAdd a.subst b.subst.toNat
    defers := satAdd a.defers b.defers.toNat
    dramLines := satAdd a.dramLines b.dramLines.toNat
    flashSectors := satAdd a.flashSectors b.flashSectors.toNat
    pfxHits := satAdd a.pfxHits b.pfxHits.toNat
    pfxFull := satAdd a.pfxFull b.pfxFull.toNat
    recodeSkip := satAdd a.recodeSkip b.recodeSkip.toNat
    evicted := satAdd a.evicted b.evicted.toNat }

/-- Count in the CT_ counters that the next boundary publishes; a confidential hide counts nothing (R429, R430). -/
def State.countCt (s : State) (h : Nat) (k : Ct) : State :=
  if (s.hide h).confidential then s else s.upC h (fun c => { c with ctNext := c.ctNext.add k })

/-- What the posting of a completion counts: the order, its failure, and what its work adds (R429). -/
def Completion.counts (c : Completion) : Ct :=
  let k := { c.ct with taken := satInc c.ct.taken }
  if 0x10 ≤ c.status then { k with failed := satInc k.failed } else k

/-- Consumers that failed with POISON or CHECK_FAIL, the entries of a STEP_DECODE apart, which count themselves
(R364). -/
def CPart.consumer (k : CPart) (status : Nat) : CPart :=
  if status = stPoison then { k with poison := satInc k.poison }
  else if status = stCheckFail then { k with checkFail := satInc k.checkFail } else k
def Completion.consumer (c : Completion) (k : CPart) : CPart :=
  if c.order.opcode = 0x08 ∧ c.ct.decodeEntries ≠ 0 then k else k.consumer c.status

/-- Post completion records now as one packet (R262), and count them: those with HIDE_RESET for HD_RESET_STAT.ENDED (R397). -/
def State.complete (s : State) (h : Nat) (cs : List Completion) : State :=
  match cs with
  | [] => s
  | c :: _ =>
    let s := s.postComp h c.order.ring (cs.map Completion.entry)
    let fails := (cs.filter (fun c => decide (0x10 ≤ c.status))).length
    let s := cs.foldl (fun s c => s.countCt h c.counts) s
    let ended := (cs.filter (fun c => c.status == stHideReset)).length
    let s := s.upK h (fun k => { k with ended := min 0xFFFF (k.ended + ended) })
    s.upC h (fun k => cs.foldl (fun k c => c.consumer k) { k with telFailed := satAdd k.telFailed fails })

/-- DETAIL of a FIELD_RANGE failure: the field's offset and the entry concerned (R259). -/
def detailAt (off : Nat) (entry : Nat := 0xFFFF) : Nat := off + 65536 * entry

end Sys2Proof.Machine
end

