-- ==== Sys2Proof/Machine/Objects.lean ====
section
/-!
DEFINITION. Operations on a hide's objects: pools and frames (R78 to R80, R89), flash extents (R320 to R324), keys
(R373, R374), the prefix index (R117 to R119), what each table effect does, and one publication (R46, R92, R94).
-/

namespace Sys2Proof.Machine
open Sys2Proof

/-! ### Pools and frames -/

/-- The frame handle of frame `f` of a pool (R79). -/
def frameKey (pool f : Nat) : Nat := pool * 2 ^ 28 + f
def framePool (k : Nat) : Nat := k / 2 ^ 28
def frameIndex (k : Nat) : Nat := k % 2 ^ 28

/-- The pool record of a pool number (R78). -/
def HideSt.pool (x : HideSt) (p : Nat) : Option Pool :=
  match x.lay with
  | none => none
  | some e => e.pools.find? (fun q => q.pool == p)

/-- Frames of a pool that are in use or waiting (R89). -/
def OPart.listed (o : OPart) (p : Nat) : List (Nat × Frame) := o.frames.filter (fun f => framePool f.1 == p)
def OPart.inUse (o : OPart) (p : Nat) : Nat := ((o.listed p).filter (fun f => f.2.waiting.isNone)).length
def OPart.waitingCount (o : OPart) (p : Nat) : Nat := ((o.listed p).filter (fun f => f.2.waiting.isSome)).length

/-- Free frames of a pool: those in none of the other three counts (R89). -/
def HideSt.freeFrames (x : HideSt) (p : Nat) : Nat :=
  match x.pool p with
  | none => 0
  | some q => q.frames - (x.o.listed p).length - AMap.get 0 x.o.reserved p

/-- The frame that R80 chooses for rod `j` of a sequence with handle `h`. -/
def chooseFrame (o : OPart) (q : Pool) (h j : Nat) : Option Nat :=
  let n := q.lanes
  if n = 0 then none
  else (List.range n).findSome? (fun i =>
    let lane := (h + j + i) % n
    ((List.range (ceilDiv (q.frames - lane) n)).map (fun t => lane + t * n)).find? (fun f =>
      decide (f < q.frames) && (AMap.find o.frames (frameKey q.pool f)).isNone))

/-- The empty rod. -/
def Rod.empty : Rod := ⟨.plain [], [], [], [], none⟩

/-- Take one frame for rod `j` of handle `h`, in use at once. -/
def takeFrame (o : OPart) (q : Pool) (h j : Nat) (r : Rod) : Option (Nat × OPart) :=
  match chooseFrame o q h j with
  | none => none
  | some f => some (frameKey q.pool f, { o with frames := o.frames.set (frameKey q.pool f) ⟨none, r⟩ })

/-- Take frames for a list of rod numbers; none when one cannot be had. -/
def takeFrames (o : OPart) (q : Pool) (h : Nat) : List Nat → Option (List Nat × OPart)
  | [] => some ([], o)
  | j :: t =>
    match takeFrame o q h j Rod.empty with
    | none => none
    | some (k, o) => match takeFrames o q h t with
      | none => none
      | some (ks, o) => some (k :: ks, o)

/-- Take a frame from the free count (R89). -/
def HideSt.takeFree (x : HideSt) (o : OPart) (q : Pool) (h j : Nat) (r : Rod) : Option (Nat × OPart) :=
  if ({ x with o := o } : HideSt).freeFrames q.pool = 0 then none else takeFrame o q h j r

/-- Take frames from the free count for a list of rod numbers. -/
def HideSt.takeFrees (x : HideSt) (o : OPart) (q : Pool) (h : Nat) (js : List Nat) : Option (List Nat × OPart) :=
  if ({ x with o := o } : HideSt).freeFrames q.pool < js.length then none else takeFrames o q h js

/-- Give frames back to the free count at once (R89, R97). -/
def dropFrames (o : OPart) (ks : List Nat) : OPart := { o with frames := ks.foldl AMap.erase o.frames }

/-- Add to or take from a pool's reserved count. -/
def reserve (o : OPart) (p n : Nat) : OPart := { o with reserved := o.reserved.set p (AMap.get 0 o.reserved p + n) }
def unreserve (o : OPart) (p n : Nat) : OPart := { o with reserved := o.reserved.set p (AMap.get 0 o.reserved p - n) }

/-- The regions of a list of clusters, as a mask. -/
def regionsOf (cs : List Nat) : Nat := listMask (cs.map (· / 64))
/-- The regions that hold frame `k`. -/
def HideSt.frameRegions (x : HideSt) (k : Nat) : Nat :=
  match x.pool (framePool k) with
  | none => 0
  | some q => regionsOf ((q.stripe.drop (q.lane (frameIndex k) * q.q)).take q.q)
/-- The regions of a pool's stripe. -/
def HideSt.poolRegions (x : HideSt) (p : Nat) : Nat := match x.pool p with | none => 0 | some q => regionsOf q.stripe

/-- The rod of a frame. -/
def OPart.rod (o : OPart) (k : Nat) : Rod := match AMap.find o.frames k with | some f => f.rod | none => Rod.empty
def OPart.setRod (o : OPart) (k : Nat) (r : Rod) : OPart :=
  { o with frames := o.frames.set k ⟨(match AMap.find o.frames k with | some f => f.waiting | none => none), r⟩ }

/-! ### Keys (R373, R374) -/

/-- A 256-bit key derived from a parent (R373). -/
def deriveKey (parent : BitVec 256) (label : String) (ctx : List Byte) : BitVec 256 :=
  BitVec.ofNat 256 (leValue (Crypto.kdf (leBytes 32 parent.toNat) (Crypto.ascii label) ctx 256))

/-- The generation of a job key index. -/
def KPart.jobKey (k : KPart) (i : Nat) : JobKey := k.jobKeys.get JobKey.reset i

/-- The job key of index `i` of hide `h`. -/
def KPart.jobBits (k : KPart) (h i : Nat) : BitVec 256 :=
  deriveKey k.root "VX-JOB" (leBytes 1 h ++ leBytes 2 i ++ leBytes 4 (k.jobKey i).gen)

/-- The key that seals an extent: job key, domain flash key or hide flash key (R321). -/
def KPart.sealBits (k : KPart) (h kind key : Nat) : BitVec 256 :=
  match kind with
  | 0 => k.jobBits h key
  | 1 => deriveKey k.root "VX-DFL" (leBytes 1 h ++ leBytes 1 key)
  | _ => deriveKey k.root "VX-HFL" (leBytes 1 h)

/-- The hash key of a scope: the domain's, or the one derived from the job key (R109). -/
def KPart.hashKey (k : KPart) (h scope jobKey : Nat) : BitVec 256 :=
  if scope = 15 then deriveKey (k.jobBits h jobKey) "VX-PHK" (leBytes 1 h ++ leBytes 2 jobKey)
  else deriveKey k.root "VX-DHK" (leBytes 1 h ++ leBytes 1 scope)

/-- The next serial of an extent's key (R323). -/
def KPart.nextSerial (k : KPart) (kind key : Nat) : Nat × KPart :=
  match kind with
  | 0 => let j := k.jobKey key
    (j.serial + 1, { k with jobKeys := k.jobKeys.set key { j with serial := j.serial + 1 } })
  | 1 => let n := AMap.get 0 k.domSerial key
    (n + 1, { k with domSerial := k.domSerial.set key (n + 1) })
  | _ => (k.hflSerial + 1, { k with hflSerial := k.hflSerial + 1 })

/-! ### Page hashes (R111) -/

/-- DESC_TAG of a descriptor. -/
def descTag (d : Desc) : Nat := leValue ((Crypto.sm3 d.image).take 4)

/-- The hash of one full rod. -/
def rodHash (key : BitVec 256) (prev : List Byte) (model start tag : Nat) (tokens : List Nat) : List Byte :=
  Crypto.hmac (leBytes 32 key.toNat)
    (prev ++ leBytes 2 model ++ leBytes 2 0 ++ leBytes 4 start ++ leBytes 4 tag ++ leBytes 4 0 ++
      tokens.flatMap (leBytes 4))

/-- The chain of hashes of the full rods of a token list. -/
def rodHashes (key : BitVec 256) (model base tag : Nat) : Nat → Nat → List Byte → List Nat → List (List Byte)
  | 0, _, _, _ => []
  | n + 1, j, prev, ts =>
    if ts.length < 256 then []
    else
      let h := rodHash key prev model (base + 256 * j) tag (ts.take 256)
      h :: rodHashes key model base tag n (j + 1) h (ts.drop 256)

def zeroHash : List Byte := List.replicate 32 0

/-! ### Flash allotments and extents (R320 to R324) -/

/-- The free run of `n` sectors at the lowest address in `[first, first + count)` clear of the occupied ranges. -/
def freeRun (first count n : Nat) (occ : List (Nat × Nat)) : Option Nat :=
  let starts := first :: occ.map (fun r => r.1 + r.2)
  let ok := starts.filter (fun a => decide (first ≤ a) && decide (a + n ≤ first + count) &&
    occ.all (fun r => decide (a + n ≤ r.1) || decide (r.1 + r.2 ≤ a)))
  match ok with
  | [] => none
  | a :: t => some (t.foldl min a)

/-- Ranges of a hide on a module in an extent or withheld, its sectors whose TRIM is out among them (R324). -/
def OPart.occupied (o : OPart) (m : Nat) : List (Nat × Nat) :=
  (o.tab.exts.filter (fun e => e.2.module == m)).map (fun e => (e.2.lba, e.2.sectors)) ++
  ((o.withheld ++ o.trimming).filter (fun r => r.1 == m)).map (fun r => (r.2.1, r.2.2))

/-- Ranges that take no extent: those, and what still waits for the TRIM of R329. -/
def OPart.blocked (o : OPart) (m : Nat) : List (Nat × Nat) :=
  o.occupied m ++ (o.untrimmed.filter (fun r => r.1 == m)).map (fun r => (r.2.1, r.2.2))

/-- A port that takes extents: active or training; DOWN, REFUSED and DISABLED count as full (R322). -/
def PortSt.usable (p : PortSt) : Bool := p.st == .active || p.st == .training

/-- Allocate an extent of `n` sectors for object number `r` of an order, over the modules of a mask (R322). -/
def State.allocExtent (s : State) (h mask r n : Nat) : Option (Nat × Nat) :=
  let x := s.hide h
  let ms := maskList 8 mask
  let c := ms.length
  match x.lay with
  | none => none
  | some e =>
    (List.range c).findSome? (fun i =>
      let m := ms.getD ((r + i) % c) 0
      let (first, count) := e.flash.getD m (0, 0)
      if !(s.port m).usable || n = 0 || decide (n > 65536) then none
      else (freeRun first count n (x.o.blocked m)).map (fun a => (m, a)))

/-- The lowest free entry of the extent table. -/
def HideSt.freeExtent (x : HideSt) : Option Nat :=
  match x.lay with
  | none => none
  | some e => (List.range (min e.extents (x.o.tab.exts.length + 1))).find? (fun i => (AMap.find x.o.tab.exts i).isNone)

/-! ### The prefix index (R117 to R119) -/

/-- The home bucket of a hash. -/
def homeBucket (log2 : Nat) (hash : List Byte) : Nat := leValue (hash.take 4) % 2 ^ log2

/-- The keys of the 32 entries that a probe reads, in probe order. -/
def probeKeys (log2 : Nat) (hash : List Byte) : List Nat :=
  (List.range 8).flatMap (fun i => (List.range 4).map (fun e => ((homeBucket log2 hash + i) % 2 ^ log2) * 4 + e))

def hashTag (hash : List Byte) : Nat := fieldAt hash 8 8

/-- Does an entry match a hash in a scope (R118). -/
def idxMatches (t : Tab) (scope : Nat) (hash : List Byte) (e : IdxEntry) : Bool :=
  e.scope == scope && e.tag == hashTag hash &&
    (match AMap.find t.pfxs e.pfx with
     | some p => p.st == .ready && p.hashes.getD (e.rod - p.parentRods) [] == hash && decide (p.parentRods ≤ e.rod)
     | none => false)

/-- Probe for a hash: the first matching entry. Buckets with poisoned lines read as invalid (R345). -/
def probe (t : Tab) (bad : List Nat) (log2 scope : Nat) (hash : List Byte) : Option IdxEntry :=
  if log2 = 0 then none
  else (probeKeys log2 hash).findSome? (fun k =>
    if bad.contains (k / 4) then none
    else match AMap.find t.index k with
      | some e => if idxMatches t scope hash e then some e else none
      | none => none)

/-- Insert one full rod: the table, and (INDEXED, DUPLICATE, UNINDEXED) (R119). -/
def insertRod (bad : List Nat) (log2 pfx scope rod : Nat) (hash : List Byte) (a : Tab × Nat × Nat × Nat) :
    Tab × Nat × Nat × Nat :=
  let (t, i, d, u) := a
  if log2 = 0 then (t, i, d, u + 1)
  else if (probe t bad log2 scope hash).isSome then (t, i, d + 1, u)
  else match (probeKeys log2 hash).find? (fun k => (AMap.find t.index k).isNone && !bad.contains (k / 4)) with
    | some k => ({ t with index := t.index.set k ⟨hashTag hash, pfx, rod, scope⟩ }, i + 1, d, u)
    | none => (t, i, d, u + 1)

/-- Clear a prefix's entries. -/
def clearIndex (t : Tab) (pfx : Nat) : Tab := { t with index := t.index.filter (fun e => e.2.pfx != pfx) }

/-- Insert the own full rods of a prefix. -/
def insertPfx (bad : List Nat) (log2 pfx : Nat) (t : Tab) : Tab × Nat × Nat × Nat :=
  match AMap.find t.pfxs pfx with
  | none => (t, 0, 0, 0)
  | some p => p.hashes.zipIdx.foldl (fun a h => insertRod bad log2 pfx p.scope (p.parentRods + h.2) h.1 a) (t, 0, 0, 0)

/-- The INDEX field of an object ID (R75). -/
def objIndex (id : Nat) : Nat := id % 2 ^ 32
def objHide (id : Nat) : Nat := bits id 40 4
def objKind (id : Nat) : Nat := bits id 44 4
/-- Make an object ID. -/
def objId (kind hide index : Nat) : Nat := kind * 2 ^ 44 + hide * 2 ^ 40 + index

/-- The page list of a prefix for a layer, its ancestors' rods first (R113); `fuel` bounds the chain of parents. -/
def pfxPages (t : Tab) (layer : Nat) : Nat → Nat → List Page
  | 0, _ => []
  | fuel + 1, i =>
    match AMap.find t.pfxs i with
    | none => []
    | some p => (pfxPages t layer fuel (objIndex p.parent)).take p.parentRods ++ AMap.get [] p.layers layer

/-- The tokens of a prefix from its base, ancestors first. -/
def pfxTokens (t : Tab) : Nat → Nat → List Nat
  | 0, _ => []
  | fuel + 1, i =>
    match AMap.find t.pfxs i with
    | none => []
    | some p => (pfxTokens t fuel (objIndex p.parent)).take (256 * p.parentRods) ++ p.tokens

/-- A bound on the length of a chain of parents: one more than the number of prefixes. -/
def Tab.chain (t : Tab) : Nat := t.pfxs.length + 1

/-! ### What each effect does to the tables -/

/-- Set the FILL of the last page. -/
def setLastFill (ps : List Page) (n : Nat) : List Page :=
  match ps.getLast? with
  | none => ps
  | some p => ps.dropLast ++ [{ p with fill := n }]

/-- A page in bonded DRAM. -/
def dramPage (k fill : Nat) : Page := ⟨k, 0, false, false, false, fill⟩

/-- The layer after an append of `count` positions at `start`, its copied and opened frames given (R178, R181). -/
def Layer.appended (l : Layer) (start count : Nat) (opened : List Nat) (copied : Option Nat) : Layer :=
  let p' := start + count
  let ps := match copied, l.pages.getLast? with
    | some k, some p => l.pages.dropLast ++ [{ dramPage k p.fill with fill := p.fill }]
    | _, _ => l.pages
  let ps := setLastFill ps (min 256 (p' - 256 * (ps.length - 1)))
  let ps := if l.pages.isEmpty then l.pages else ps
  let fresh := opened.zipIdx.map (fun o => dramPage o.1 (min 256 (p' - 256 * (ps.length + o.2))))
  { l with pages := ps ++ fresh, reserved := l.reserved - opened.length }

/-- Replace one page of a page list. -/
def setPage (ps : List Page) (j : Nat) (p : Page) : List Page := if j < ps.length then ps.set j p else ps

/-- Change a sequence, when it is listed. -/
def upSeq (t : Tab) (h : Nat) (f : Seq → Seq) : Tab :=
  match AMap.find t.seqs h with
  | none => t
  | some q => { t with seqs := t.seqs.set h { f q with gen := t.gen } }

/-- Change a layer of a sequence. -/
def Seq.upLayer (q : Seq) (l : Nat) (f : Layer → Layer) : Seq := { q with layers := q.layers.set l (f (q.layer l)) }

/-- Change a prefix, when it is listed. -/
def upPfx (t : Tab) (i : Nat) (f : Pfx → Pfx) : Tab :=
  match AMap.find t.pfxs i with
  | none => t
  | some p => { t with pfxs := t.pfxs.set i { f p with gen := t.gen } }

/-- The blocks of a layer (R102). -/
def Layer.blocks (l : Layer) : Nat := ceilDiv l.point 32

/-- The scores after a step: `S_b * δ + a` for every resident block (R103). -/
def massLayer (l : Layer) (decay : U32) (masses : List (Nat × U32)) : Layer :=
  { l with scores := (List.range l.blocks).foldl (fun sc b =>
      if l.evicted.contains b then sc
      else
        let a := AMap.get Fp.zero32 masses b
        let v := Fp.add32 (Fp.mul32 (AMap.get Fp.zero32 l.scores b) decay) a
        AMap.set sc b v) l.scores }

/-- Is block `b` safe from eviction: among the first SINK or last WINDOW, or holding a declared global position
(R104). -/
def guarded (e : Evict) (globals : List Nat) (blocks b : Nat) : Bool :=
  decide (b < e.sink) || decide (blocks ≤ b + e.window) || globals.any (fun g => g / 32 == b)

/-- The blocks to evict from a layer: lowest score first, lowest number among equals, while more than BUDGET stay
(R104). -/
def toEvict (e : Evict) (globals : List Nat) (l : Layer) : Nat → List Nat → List Nat
  | 0, out => out
  | fuel + 1, out =>
    let res := (List.range l.blocks).filter (fun b => !l.evicted.contains b && !out.contains b)
    if res.length ≤ e.budget then out
    else
      let cand := res.filter (fun b => !guarded e globals l.blocks b)
      match cand with
      | [] => out
      | c :: t =>
        let best := t.foldl (fun m b =>
          if Fp.lt32 (AMap.get Fp.zero32 l.scores b) (AMap.get Fp.zero32 l.scores m) then b else m) c
        toEvict e globals l fuel (out ++ [best])

/-- The layer after blocks are evicted: a private rod with no block left loses its frame (R105). -/
def evictLayer (l : Layer) (blocks : List Nat) : Layer :=
  let ev := l.evicted ++ blocks.filter (fun b => !l.evicted.contains b)
  let gone (j : Nat) (p : Page) : Bool :=
    !p.shared && p.tier != 3 && decide (p.fill = 256) && (List.range 8).all (fun i => ev.contains (8 * j + i))
  { l with
    evicted := ev
    pages := l.pages.zipIdx.map (fun p => if gone p.2 p.1 then { p.1 with tier := 3, loc := 0 } else p.1) }

/-- The pages of a fork of `n` positions of a prefix (R128). -/
def forkPages (ps : List Page) (n : Nat) : List Page :=
  let r := ceilDiv n 256
  (ps.take r).zipIdx.map (fun p =>
    let last := p.2 + 1 = r
    { p.1 with
      shared := true
      fill := if last then n - 256 * (r - 1) else 256
      cow := last && n % 256 != 0 })

/-- A sequence's pages when it leaves: private rods are then only in the image (R91, R99). -/
def leavePages (ps : List Page) : List Page :=
  ps.map (fun p => if p.shared || p.tier == 3 then p else { p with tier := 2, loc := 0 })

/-- A CREATE's publication before its rods are indexed (R121 step 6). -/
def prePublish (t : Tab) (h i : Nat) (p : Pfx) : Tab :=
  let f := p.length / 256
  let old := match AMap.find t.seqs h with | some q => q.pfx | none => 0
  let t := { t with pfxs := t.pfxs.set i { p with st := .ready, hold := true, indexed := true, refs := 1, gen := t.gen } }
  let t := upSeq t h (fun q => { q with
    pfx := objId 4 0 i
    pfxLen := f * 256
    layers := q.layers.map (fun l => (l.1, { l.2 with
      pages := (forkPages (pfxPages t l.1 t.chain i) (f * 256)) ++ l.2.pages.drop f })) })
  if old ≠ 0 ∧ p.parent = 0 then upPfx t (objIndex old) (fun p => { p with refs := p.refs - 1 }) else t

/-- A PROMOTE's publication before its rods are indexed (R122). -/
def prePromote (t : Tab) (i scope : Nat) (hs : List (List Byte)) (moved : List (Nat × Nat)) : Tab :=
  let sw (p : Page) : Page := if p.tier = 1 then { p with loc := AMap.get p.loc moved p.loc } else p
  let t := clearIndex t i
  let t := upPfx t i (fun p => { p with
    scope := scope
    jobKey := 0
    hashes := hs
    layers := p.layers.map (fun l => (l.1, l.2.map sw)) })
  { t with seqs := t.seqs.map (fun q => (q.1, { q.2 with
    layers := q.2.layers.map (fun l => (l.1, { l.2 with pages := l.2.pages.map (fun p => if p.shared then sw p else p) })) })) }

/-- The tables after one effect. `bad` lists poisoned index buckets, `log2` is PREFIX_LOG2. -/
def applyFx (bad : List Nat) (log2 : Nat) (t : Tab) : Fx → Tab
  | .enter h q => { t with seqs := t.seqs.set h { q with gen := t.gen } }
  | .extend h n => upSeq t h (fun q => { q with layers := q.layers.map (fun l => (l.1, { l.2 with reserved := l.2.reserved + n })) })
  | .retire h =>
    match AMap.find t.seqs h with
    | none => t
    | some q =>
      if q.st == .retiring then t
      else
        let t := if q.pfx = 0 then t else upPfx t (objIndex q.pfx) (fun p => { p with refs := p.refs - 1 })
        let t := { t with parked := t.parked.erase h }
        upSeq t h (fun q => { q with st := .retiring })
  | .append h l start count opened copied => upSeq t h (fun q => q.upLayer l (fun y => y.appended start count opened copied))
  | .fork h i n =>
    let q := upSeq t h (fun q => { q with
      pfx := objId 4 0 i
      pfxLen := n
      layers := q.layers.map (fun l => (l.1, { l.2 with
        pages := forkPages (pfxPages t l.1 t.chain i) n,
        reserved := if n % 256 = 0 then l.2.reserved else l.2.reserved - 1 })) })
    upPfx q i (fun p => { p with refs := p.refs + 1 })
  | .mass h l ms => upSeq t h (fun q => q.upLayer l (fun y => massLayer y q.evict.decay ms))
  | .evict h l bs => upSeq t h (fun q => q.upLayer l (fun y => evictLayer y bs))
  | .globals h gs => upSeq t h (fun q => { q with globals := gs })
  | .budget h v => upSeq t h (fun q => { q with evict := { q.evict with budget := v } })
  | .rehome h l j old new => upSeq t h (fun q => q.upLayer l (fun y =>
      match y.pages[j]? with
      | some p => if p.loc = old.loc ∧ p.tier = old.tier ∧ p.coded = old.coded then
          { y with pages := setPage y.pages j { new with fill := p.fill } } else y
      | none => y))
  | .stateWrite h l bf vs => upSeq t h (fun q =>
      let o : StateObj := q.states.get StateObj.zero l
      { q with states := q.states.set l { o with bf := some bf, vals := vs, poison := false } })
  | .swapOut h serial addr size ext =>
    let t := upSeq t h (fun q => { q with
      st := if ext.isSome then .parked else .swapped
      swapSerial := serial
      swapAddr := addr
      swapSize := size
      states := q.states.map (fun o => (o.1, { o.2 with vals := [], frames := [], poison := false }))
      layers := q.layers.map (fun l => (l.1, { l.2 with pages := leavePages l.2.pages, reserved := 0 })) })
    match ext with
    | some e => { t with parked := t.parked.set h ⟨e, serial⟩ }
    | none => t
  | .swapIn h q => { t with seqs := t.seqs.set h { q with gen := t.gen }, parked := t.parked.erase h }
  | .seqState h st => upSeq t h (fun q => { q with st := st })
  | .publish h i p => (insertPfx bad log2 i (prePublish t h i p)).1
  | .promote i scope hs moved => (insertPfx bad log2 i (prePromote t i scope hs moved)).1
  | .withdraw i => upPfx (clearIndex t i) i (fun p => { p with hold := false, indexed := false })
  | .setReady i =>
    match AMap.find t.sets i with
    | none => t
    | some w =>
      let t := { t with sets := t.sets.set i { w with st := .ready } }
      if w.role = 2 then t
      else
        let k := curKey w.modelId w.layer w.role
        let t := match AMap.find t.current k with
          | some j => (match AMap.find t.sets j with
            | some v => { t with sets := t.sets.set j { v with st := .retiring, gen := t.gen } }
            | none => t)
          | none => t
        { t with current := t.current.set k i }
  | .setRetire i =>
    match AMap.find t.sets i with
    | none => t
    | some w => { t with
        sets := t.sets.set i { w with st := .retiring, gen := t.gen }
        current := t.current.filter (fun c => c.2 != i) }
  | .bookReady k =>
    match AMap.find t.books k with
    | none => t
    | some b => { t with books := t.books.set k { b with st := .ready } }
  | .setHome i fl =>
    match AMap.find t.sets i with
    | none => t
    | some w => { t with sets := t.sets.set i { w with flash := fl } }
  | .bookHome k fl =>
    match AMap.find t.books k with
    | none => t
    | some b => { t with books := t.books.set k { b with flash := fl } }

/-! ### References to frames and extents -/

/-- Does a page name frame `k`, or extent `e`. -/
def Page.names (p : Page) (tier k : Nat) : Bool := p.tier == tier && p.loc == k

/-- Every page that some sequence or prefix of the tables holds. -/
def Tab.pages (t : Tab) : List Page :=
  t.seqs.flatMap (fun q => if q.2.st == .retiring then [] else q.2.layers.flatMap (fun l => l.2.pages)) ++
  t.pfxs.flatMap (fun p => if p.2.st == .retiring then [] else p.2.layers.flatMap (fun l => l.2))

/-- Frames named by the tables: rods and state objects. -/
def Tab.frameNames (t : Tab) : List Nat :=
  (t.pages.filter (fun p => p.tier == 0)).map (·.loc) ++
  t.seqs.flatMap (fun q => if q.2.st == .retiring then [] else q.2.states.flatMap (fun o => o.2.frames))

/-- Extents named by the tables: rods, swap images (the chain from a directory entry), sets and codebooks. -/
def Tab.extChain (t : Tab) : Nat → Nat → List Nat
  | 0, _ => []
  | fuel + 1, e =>
    match AMap.find t.exts e with
    | none => []
    | some x => e :: (match x.next with | some n => t.extChain fuel n | none => [])

def Tab.extNames (t : Tab) : List Nat :=
  (t.pages.filter (fun p => p.tier == 1)).map (·.loc) ++
  t.parked.flatMap (fun d => t.extChain (t.exts.length) d.2.extent) ++
  t.sets.flatMap (fun w => if w.2.st == .retiring then [] else w.2.flash.getD []) ++
  t.books.flatMap (fun b => b.2.flash.getD [])

/-- STORED of a codebook generation: frames, extents and weight sets coded under it (R242). -/
def OPart.stored (o : OPart) (id gen : Nat) : Nat :=
  (o.frames.filter (fun f => f.2.rod.book == some (id, gen))).length +
  (o.tab.exts.filter (fun e => e.2.coded && e.2.book == some (id, gen))).length +
  (o.tab.sets.filter (fun w => w.2.book == some (id, gen))).length

/-- The key of a codebook generation. -/
def bookKey (id gen : Nat) : Nat := id * 16 + gen

/-! ### Views -/

/-- The poisoned buckets of a hide. -/
def OPart.badBuckets (o : OPart) : List Nat := o.metas.filterMap (fun m => match m with | .bucket b => some b | _ => none)
def HideSt.pfxLog2 (x : HideSt) : Nat := match x.lay with | some e => e.pfxLog2 | none => 0

/-- Fold effects over tables. -/
def HideSt.applyAll (x : HideSt) (t : Tab) (fx : List Fx) : Tab := fx.foldl (applyFx x.o.badBuckets x.pfxLog2) t

/-- Flights in taking order. -/
def insertSeq (f : Flight) : List Flight → List Flight
  | [] => [f]
  | g :: t => if f.order.seq < g.order.seq then f :: g :: t else g :: insertSeq f t
def sortBySeq (l : List Flight) : List Flight := l.foldl (fun acc f => insertSeq f acc) []

/-- The held effects of a transaction's members taken before an order (R275). -/
def QPart.heldFx (q : QPart) (txn : Option Nat) (before : Nat) : List Fx :=
  match txn with
  | none => []
  | some t =>
    match q.txns.find? (fun y => y.id == t) with
    | none => []
    | some y => (sortBySeq (y.held.filter (fun m => decide (m.order.seq < before)))).flatMap (·.fx)

/-- What an order sees (R93, R275): the published tables and its own transaction's held effects. -/
def HideSt.view (x : HideSt) (o : Order) : Tab := x.applyAll x.o.tab (x.q.heldFx o.txn o.seq)

/-- Everything that is published, pending, ended or held: what allocations look at. -/
def HideSt.allView (x : HideSt) : Tab :=
  x.applyAll x.o.tab (x.o.pending ++ x.q.flights.flatMap (·.fx) ++ x.q.txns.flatMap (fun t => t.held.flatMap (·.fx)))

/-- Is an effect an append to a layer of a sequence. -/
def Fx.isAppend (h l : Nat) : Fx → Bool
  | .append h' l' _ _ _ _ => h' == h && l' == l
  | _ => false

/-- What an order sees on one layer of a sequence, with the pending positions of appends taken before it (R144). -/
def HideSt.layerView (x : HideSt) (o : Order) (h l : Nat) : Tab :=
  let own := x.q.heldFx o.txn o.seq
  let others := x.o.pending.filter (Fx.isAppend h l) ++
    x.q.flights.flatMap (fun f => if decide (f.order.seq < o.seq) && f.order.txn != o.txn then f.fx.filter (Fx.isAppend h l) else []) ++
    x.q.txns.flatMap (fun t => if some t.id == o.txn then []
      else (t.held.filter (fun m => decide (m.order.seq < o.seq))).flatMap (fun m => m.fx.filter (Fx.isAppend h l)))
  let mine := x.q.flights.flatMap (fun f =>
    if decide (f.order.seq < o.seq) && f.order.txn == o.txn then f.fx.filter (Fx.isAppend h l) else [])
  x.applyAll x.o.tab (others ++ own ++ mine)

end Sys2Proof.Machine
end

