-- ==== Sys2Proof/Machine/Publish.lean ====
section
/-!
DEFINITION. The lap chain of one hide: the publication of a table generation, the return of frames and extents, the
posting of completions, and the counters that follow furlong boundaries (R46, R92 to R94, R104, R262, R276, R428, R429).
-/

namespace Sys2Proof.Machine
open Sys2Proof

/-- Sort by a key, keeping the order of equal keys. -/
def insertBy {α : Type} (key : α → Nat) (x : α) : List α → List α
  | [] => [x]
  | y :: t => if key x < key y then x :: y :: t else y :: insertBy key x t
def sortBy {α : Type} (key : α → Nat) (l : List α) : List α := l.foldl (fun acc x => insertBy key x acc) []

/-- Counts of PUBLISH_PREFIX at its publication, with the pending table (R119). -/
def fxCounts (bad : List Nat) (log2 : Nat) (t : Tab) : Fx → Option (Nat × Nat × Nat × Nat)
  | .publish h i p => some (i, (insertPfx bad log2 i (prePublish t h i p)).2)
  | .promote i scope hs moved => some (i, (insertPfx bad log2 i (prePromote t i scope hs moved)).2)
  | _ => none

/-- Reserved and set-aside frames of a sequence, over its layers. -/
def Seq.aside (q : Seq) : Nat :=
  q.layers.foldl (fun n l => n + l.2.reserved + (match l.2.pages.getLast? with | some p => if p.cow then 1 else 0 | none => 0)) 0

/-- Frames that leave a pool's reserved count because their sequence leaves ACTIVE (R90): (pool, count). -/
def leaving (t t' : Tab) : List (Nat × Nat) :=
  t.seqs.filterMap (fun q =>
    if q.2.st == .retiring then none
    else match AMap.find t'.seqs q.1 with
      | some q' => if q'.st == .retiring || q'.st == .swapped || q'.st == .parked then
          (if q.2.st == .swapped || q.2.st == .parked then none else some (q.2.pool, q.2.aside)) else none
      | none => none)

/-- Prefixes that nothing holds go RETIRING and let go of their parents, in one publication (R114). -/
def retirePfxs : Nat → Tab → Tab
  | 0, t => t
  | fuel + 1, t =>
    match t.pfxs.find? (fun p => p.2.st == .ready && !p.2.hold && p.2.refs == 0) with
    | none => t
    | some (i, p) =>
      let t := upPfx (clearIndex t i) i (fun p => { p with st := .retiring })
      let t := if p.parent = 0 then t else upPfx t (objIndex p.parent) (fun q => { q with refs := q.refs - 1 })
      retirePfxs fuel t

/-- Does any admitted order of the hide still use a generation older than `g` (R94). -/
def QPart.olderThan (q : QPart) (g : Nat) : Bool :=
  (q.flights ++ q.txns.flatMap (·.held)).any (fun f => decide (f.gen < g))

/-- The extents of the tables whose wait has ended, with their sectors to trim. -/
def OPart.endedExts (o : OPart) (q : QPart) : List (Nat × Extent) :=
  o.tab.exts.filter (fun e => match e.2.waiting with | some g => !q.olderThan g | none => false)

/-- Return what has waited long enough to the free counts (R94, R107, R114, R243). -/
def returns (o : OPart) (q : QPart) : OPart :=
  let frames := o.frames.filter (fun f => match f.2.waiting with | some g => q.olderThan g | none => true)
  let gone := o.endedExts q
  let exts := o.tab.exts.filter (fun e => !(gone.any (fun g => g.1 == e.1)))
  let seqs := o.tab.seqs.filter (fun s => !(s.2.st == .retiring) || q.olderThan s.2.gen)
  let sets := o.tab.sets.filter (fun w => !(w.2.st == .retiring) || q.olderThan w.2.gen)
  let held (p : Pfx) : Bool := p.layers.any (fun l => l.2.any (fun g =>
    (g.tier == 0 && (AMap.find frames g.loc).isSome) || (g.tier == 1 && (AMap.find exts g.loc).isSome)))
  let pfxs := o.tab.pfxs.filter (fun p => !(p.2.st == .retiring) || held p.2 || q.olderThan p.2.gen)
  let metas := o.metas.filter (fun m => match m with
    | .seqRecord hd => (AMap.find seqs hd).isSome
    | .pageList hd _ => (AMap.find seqs hd).isSome
    | .score hd _ _ => (AMap.find seqs hd).isSome
    | .pfxRecord i => (AMap.find pfxs i).isSome
    | .extentEntry i => (AMap.find exts i).isSome
    | _ => true)
  let o := { o with frames := frames, metas := metas, tab := { o.tab with seqs := seqs, exts := exts, sets := sets, pfxs := pfxs } }
  let idle (b : BookRec) : Bool := b.st == .retiring && b.queued == 0 && o.stored b.book.id b.book.gen == 0
  { o with tab := { o.tab with books := o.tab.books.filter (fun b => !(idle b.2)) } }

/-- Bytes of the block stream of pair `p` of a rod, with its cell header (R234); 0 for an uncoded rod. -/
def Rod.stream (r : Rod) (p : Nat) : Nat :=
  match r.data with
  | .plain _ => 0
  | .coded rows =>
    let heads := if rows.length = 1 then 1 else rows.length / 2
    let of := if rows.length = 1 then [0] else [p % heads, heads + p % heads]
    of.foldl (fun n row => ((rows.getD row []).getD (p / heads) []).foldl (fun n b => n + Codec.blockBytes b) n) 16

/-- Overflow cells of a stream of some bytes in cells of `cell` bytes (R234). -/
def overflow (cell bytes : Nat) : Nat := ceilDiv (bytes - cell) 504

/-- Overflow cells in use in a cluster by a coded pool's frames. -/
def HideSt.overflowUsed (x : HideSt) (q : Pool) (c : Nat) : Nat :=
  (x.o.listed q.pool).foldl (fun n f =>
    (List.range q.q).foldl (fun n p =>
      if q.cluster (frameIndex f.1) p = c then n + overflow q.cellBytes (f.2.rod.stream p) else n) n) 0

/-- The frames and reservations of an order's effects, given back to the counts they came from (R97, R183, R277). -/
def OPart.undo (all : Tab) (o : OPart) (f : Flight) : OPart :=
  f.fx.foldl (fun o e => match e with
    | .enter _ q => unreserve o q.pool q.aside
    | .extend hd n => (match AMap.find all.seqs hd with | some q => unreserve o q.pool (n * q.layers.length) | none => o)
    | .append _ _ _ _ opened copied => (opened ++ copied.toList).foldl (fun o k => reserve o (framePool k) 1) o
    | _ => o) (dropFrames o f.tookFrames)

/-- The hide's objects without what members of undecided transactions hold, which no published count shows (R275, R428). -/
def HideSt.outward (x : HideSt) : HideSt :=
  let held := (x.q.txns.filter (fun t => t.decision.isNone)).flatMap (·.held)
  let o := held.foldl (fun o f => o.undo x.allView f) x.o
  let gone := held.flatMap (·.tookExts)
  { x with o := { o with tab := { o.tab with exts := o.tab.exts.filter (fun e => !(gone.contains e.1)) } } }

/-- The figures of R428. -/
def HideSt.figuresNow (x' : HideSt) : PlFigures :=
  let x := x'.outward
  match x.lay with
  | none => PlFigures.zero
  | some e =>
    let per (f : Nat → Nat) : AMap Nat := e.pools.map (fun p => (p.pool, f p.pool))
    { free := per x.freeFrames
      resv := per (fun p => AMap.get 0 x.o.reserved p)
      used := per x.o.inUse
      wait := per x.o.waitingCount
      ovf := e.pools.map (fun p => (p.pool, if p.coded then e.ovfCells - (p.stripe.map (x.overflowUsed p)).foldl max 0 else 0))
      seqUsed := x.o.tab.seqs.length
      weightFree := e.weightUnits - (x.o.tab.sets.foldl (fun n w => if w.2.flash.isSome then n else n + w.2.units) 0)
      cbInUse := listMask (x.o.tab.books.map (fun b => b.2.slot))
      flFree := (List.range 8).map (fun m =>
        (m, (e.flash.getD m (0, 0)).2 - (x.o.occupied m).foldl (fun n r => n + r.2) 0)) }

/-- The layers whose scores an effect changes. -/
def Fx.scored : Fx → Option (Nat × Nat)
  | .mass h l _ => some (h, l)
  | _ => none

/-- Evictions that follow the score updates of a publication (R104). -/
def evictions (t : Tab) (fx : List Fx) : List Fx :=
  (fx.filterMap Fx.scored).eraseDups.filterMap (fun hl =>
    match AMap.find t.seqs hl.1 with
    | none => none
    | some q =>
      let l := q.layer hl.2
      let bs := toEvict q.evict q.globals l l.blocks []
      if bs.isEmpty then none else some (.evict hl.1 hl.2 bs))

/-- Blocks that an effect evicts. -/
def Fx.evicts : Fx → Nat
  | .evict _ _ bs => bs.length
  | _ => 0

/-- The pages of layers. -/
def pagesOf (ls : AMap (List Page)) : List Page := ls.flatMap (·.2)

/-- The frames and the extents that an effect brings into the tables. -/
def Fx.brings : Fx → List Nat × List Nat
  | .append _ _ _ _ opened copied => (opened ++ copied.toList, [])
  | .rehome _ _ _ _ p => if p.tier = 0 then ([p.loc], []) else ([], [p.loc])
  | .swapIn _ q =>
    (((pagesOf (q.layers.map (fun l => (l.1, l.2.pages)))).filter (fun p => p.tier == 0 && !p.shared)).map (·.loc) ++
      q.states.flatMap (·.2.frames), [])
  | .swapOut _ _ _ _ e => ([], e.toList)
  | .setHome _ e => ([], e.getD [])
  | .bookHome _ e => ([], e.getD [])
  | .promote _ _ _ moved => ([], moved.map (·.2))
  | _ => ([], [])

/-- Mark what the tables no longer name as waiting since generation `n` (R94), what an effect brought to an object that
has gone included. -/
def markWaiting (o : OPart) (t t' : Tab) (fx : List Fx) (n : Nat) : OPart :=
  let goneF := (t.frameNames ++ fx.flatMap (·.brings.1)).filter (fun k => !(t'.frameNames.contains k) && !(o.stranded.contains k))
  let goneE := (t.extNames ++ fx.flatMap (fun f => f.brings.2.flatMap (t'.extChain t'.exts.length))).filter (fun k => !(t'.extNames.contains k) && !(o.strandedExts.contains k))
  let frames := o.frames.map (fun f => if goneF.contains f.1 && f.2.waiting.isNone then (f.1, { f.2 with waiting := some n }) else f)
  let exts := t'.exts.map (fun e => if goneE.contains e.1 && e.2.waiting.isNone then (e.1, { e.2 with waiting := some n }) else e)
  { o with frames := frames, tab := { t' with exts := exts } }

/-- The private pages that the poisoned page lists of a retired sequence name (R345). -/
def OPart.strand (o : OPart) (fx : List Fx) : List Page :=
  fx.flatMap (fun f => match f with
    | .retire hd => (match AMap.find o.tab.seqs hd with
      | some q => q.layers.flatMap (fun l =>
          if o.metas.contains (.pageList hd l.1) then l.2.pages.filter (fun p => !p.shared) else [])
      | none => [])
    | _ => [])

/-- A rod that moved while an append still wrote its old home takes what was written (R93, R96). -/
def OPart.follow (o : OPart) : Fx → OPart
  | .rehome _ _ _ old new =>
    if old.tier = 0 ∧ new.tier = 0 then
      match (o.rod old.loc).data, (o.rod new.loc).data with
      | .plain a, .plain b => if (b.headD []).length < (a.headD []).length then o.setRod new.loc (o.rod old.loc) else o
      | _, _ => o
    else o
  | _ => o

/-- One publication of a hide's tables: effects in order, then what they release, what no longer holds, what they
evict. Counts of published prefixes are returned by prefix. -/
def publishTabs (x : HideSt) (n : Nat) (fx : List Fx) : OPart × List (Nat × Nat × Nat × Nat) :=
  let bad := x.o.badBuckets
  let log2 := x.pfxLog2
  let t0 := { x.o.tab with gen := n }
  let (t1, counts) := fx.foldl (fun (a : Tab × List (Nat × Nat × Nat × Nat)) f =>
    (applyFx bad log2 a.1 f, match fxCounts bad log2 a.1 f with | some c => a.2 ++ [c] | none => a.2)) (t0, [])
  let t1 := retirePfxs t1.chain t1
  let lost := x.o.strand fx
  let o := { x.o with
    stranded := x.o.stranded ++ (lost.filter (fun p => p.tier == 0)).map (·.loc)
    strandedExts := x.o.strandedExts ++ (lost.filter (fun p => p.tier == 1)).map (·.loc) }
  let o := markWaiting o t0 t1 fx n
  let o := fx.foldl OPart.follow o
  let o := (leaving t0 t1).foldl (fun o p => unreserve o p.1 p.2) o
  -- a poisoned index bucket is cleared clean at the next publication (R345)
  let o := { o with
    tab := { o.tab with index := o.tab.index.filter (fun e => !(bad.contains (e.1 / 4))) }
    metas := o.metas.filter (fun m => match m with | .bucket _ => false | _ => true)
    pending := evictions t1 fx }
  (o, counts)

/-- Lines of coded frames and extents of a hide, and the lines the same rods would take uncoded (R429). -/
def OPart.codedLines (o : OPart) : Nat :=
  o.frames.foldl (fun n f => match f.2.rod.data with
    | .coded rows => n + rows.foldl (fun n r => n + r.foldl (fun n bs => n + bs.foldl (fun n b => n + ceilDiv (Codec.blockBytes b) 64) 0) 0) 0
    | .plain _ => n) 0 +
  o.tab.exts.foldl (fun n e => if e.2.coded then n + e.2.sectors * 64 else n) 0

/-- Uncoded lines of the coded rods of a hide: ROD_BYTES of each (R76, R429). -/
def HideSt.uncodedLines (x : HideSt) : Nat :=
  let bytes := match x.sec with | some s => (s.descs.map (·.rodBytes)).foldl max 0 | none => 0
  ((x.o.frames.filter (fun f => match f.2.rod.data with | .coded _ => true | .plain _ => false)).length +
    (x.o.tab.exts.filter (fun e => e.2.coded)).length) * ceilDiv bytes 64

/-- Publish the counters of a hide at the boundary of furlong `n`; a confidential hide's read zero. -/
def HideSt.ctBoundary (x : HideSt) (n : Nat) : HideSt :=
  if x.confidential then x
  else
    let ct := { (x.c.ct.add x.c.ctNext) with furlong := BitVec.ofNat 64 n }
    let ct := { ct with codedLines := BitVec.ofNat 64 x.o.codedLines, uncodedLines := BitVec.ofNat 64 x.uncodedLines }
    { x with c := { x.c with ct := ct, ctNext := Ct.zero } }

/-- What a completed order adds to the CT_ counters (R429). -/
def ctOf (f : Flight) : Ct :=
  let k := f.ct
  let k := if f.order.opcode = 0x08 then
      { k with decodeEntries := satAdd k.decodeEntries (f.tally.1 + f.tally.2.1 + f.tally.2.2.1), subst := satAdd k.subst f.tally.2.2.2 } else k
  let k := if f.order.opcode = 0x0B ∧ f.status < 0x10 then
      { k with appendPos := satAdd k.appendPos (fieldAt f.result 0 4) } else k
  let k := if f.order.opcode = 0x09 ∧ f.status < 0x10 then
      { k with prefillPos := satAdd k.prefillPos (f.order.f 28 2), subst := satAdd k.subst (fieldAt f.result 0 2) } else k
  if f.order.opcode = 0x04 ∧ 256 ≤ fieldAt f.result 6 4 then { k with pfxHits := satInc k.pfxHits } else k

/-- RESULT of PUBLISH_PREFIX with the counts of its publication (R264). -/
def withCounts (counts : List (Nat × Nat × Nat × Nat)) (o : Order) (status : Nat) (result : List Byte) : List Byte :=
  if o.opcode = 0x05 ∧ status < 0x10 then
    match counts.find? (fun c => c.1 == objIndex (fieldAt result 0 6)) with
    | some (_, i, d, u) => (result.take 6) ++ leBytes 2 (min i 0xFFFF) ++ leBytes 2 (min d 0xFFFF) ++ leBytes 2 (min u 0xFFFF)
    | none => result
  else result

/-- The status of a flight once its replays are clean (R143, R350). -/
def Flight.finalStatus (f : Flight) : Nat :=
  if f.replayed && f.status == stOk then stOkReplayed else f.status

/-- FLAGS of a completion (R262). -/
def flagsOf (replayed member aborted : Bool) : Nat :=
  (if replayed then 1 else 0) + (if member then 2 else 0) + (if aborted then 4 else 0)

/-- The completion of a flight. -/
def Flight.completion (f : Flight) (member aborted : Bool) (counts : List (Nat × Nat × Nat × Nat)) : Completion :=
  ⟨f.order, f.finalStatus, flagsOf f.replayed member aborted, f.detail, withCounts counts f.order f.status f.result, ctOf f⟩

/-- Can a flight complete in the lap chain of furlong `n`. -/
def Flight.overBy (f : Flight) (n : Nat) : Bool :=
  f.ended && f.suspects.isEmpty && decide (f.endChain / 10 < n)

/-- The order trace record of a completed order (R385). -/
def traceRecord (f : Flight) (deferred : Bool) : List Byte :=
  leBytes 4 f.order.index ++ leBytes 4 f.admitF ++ leBytes 4 (f.endChain / 10) ++ leBytes 1 f.admitC ++
  leBytes 1 (f.endChain % 10) ++ leBytes 1 f.order.ring ++ leBytes 1 ((if f.replayed then 1 else 0) + (if deferred then 2 else 0))

/-- Write the trace record of a completed order, or count it as lost (R385). -/
def State.trace (s : State) (h : Nat) (f : Flight) : State :=
  let x := s.hide h
  if x.confidential || !x.k.profCtl.getLsbD 0 then s
  else
    let b := x.a.bufs.get HostBuf.reset (bits x.k.profCtl.toNat 1 6)
    if b.en && b.wr then
      let n := b.len.toNat / 16
      let s := s.dmaWrite h (b.addr.toNat + 16 * (x.k.profPos % n)) (traceRecord f (f.ct.defers != 0)) false
      s.upK h (fun k => { k with profPos := (k.profPos + 1) % n })
    else s.upK h (fun k => { k with profLost := satInc k.profLost })

/-- Take QUEUED references off the codebooks of flights that complete (R242). -/
def dropQueued (t : Tab) (fs : List Flight) : Tab :=
  { t with books := (fs.flatMap (·.queued)).foldl (fun bs (kn : Nat × Nat) =>
      match AMap.find bs kn.1 with
      | some b => bs.set kn.1 { b with queued := b.queued - kn.2 }
      | none => bs) t.books }

/-- Completions of a decided transaction, in taking order (R276). -/
def Txn.packet (t : Txn) (counts : List (Nat × Nat × Nat × Nat)) : List Completion :=
  let ab := match t.decision with | some d => !d.commits | none => true
  let first : Completion := ⟨t.start, stOk, 0, 0, [], Ct.zero⟩
  let mem := (sortBy (fun c => c.order.seq) (t.done ++ t.held.map (fun f => f.completion true false []))).map (fun c =>
    { c with
      status := if t.timedOut then stTimeout else c.status
      flags := c.flags + (if ab then 4 else 0)
      result := withCounts counts c.order c.status c.result })
  match t.closer, t.decision with
  | some (o, _, _, detail), some d =>
    first :: mem ++ [⟨o, d.status, 0, detail, leBytes 2 t.members.length ++ leBytes 2 d.member, Ct.zero⟩]
  | _, _ => first :: mem

/-- The rods that a completed append has filled and names a codebook for (R182). -/
def Flight.recodes (f : Flight) : List RecodeWork :=
  let o := f.order
  let start := o.f 24 4
  if o.opcode = 0x0B ∧ f.status < 0x10 ∧ o.f 34 2 ≠ 0 then
    (List.range ((start + o.f 28 4) / 256 - start / 256)).map (fun i => ⟨o.f 16 4, o.f 22 2, start / 256 + i, o.f 34 2⟩)
  else []

/-- TRIM commands for freed extents wait for their port (R324); a LOST extent is freed without one. -/
def trimsOf (es : List (Nat × Extent)) : List (Nat × Nat × Nat) :=
  es.filterMap (fun e => if e.2.lost then none else some (e.2.module, e.2.lba, e.2.sectors))

/-- Sectors withheld from an allotment (R324). -/
def State.withhold (s : State) (h p lba n : Nat) : State :=
  let s := s.upO h (fun o => { o with withheld := o.withheld ++ [(p, lba, n)] })
  s.upPort p (fun q => { q with withheld := satAdd q.withheld n })

/-- PL_FLm_FREE follows the completion of a TRIM (R428). -/
def State.countFlash (s : State) (h p : Nat) : State :=
  s.upHide h (fun x => { x with o := { x.o with
    figures := { x.o.figures with flFree := AMap.set x.o.figures.flFree p (AMap.get 0 x.figuresNow.flFree p) } } })

/-- A TRIM ends: its sectors return, or are withheld. -/
def State.trimEnds (s : State) (h p lba n st : Nat) : State :=
  let s := s.upO h (fun o => { o with trimming := o.trimming.filter (· != (p, lba, n)), untrimmed := o.untrimmed.filter (· != (p, lba, n)) })
  let s := if st = 0 then s else s.withhold h p lba n
  s.countFlash h p

/-- A TRIM for a port that is out of service fails as by a timeout (R324, R325). -/
def State.trimRefused (s : State) (h p lba n : Nat) : State :=
  (s.upPort p (fun q => { q with err := q.err ||| 8 })).trimEnds h p lba n stTimeout

/-- The TRIM of a freed extent waits for its port, or fails with it (R324, R325). -/
def State.askTrim (s : State) (h p lba n : Nat) : State :=
  if (s.port p).st == .active || (s.port p).st == .training then
    s.enqueue p h true ⟨64, .cmd 0 .trim h lba n (.trim h lba n)⟩
  else s.trimRefused h p lba n

/-- The lap chain of hide `h` at the boundary that starts furlong `n`: publication, returns, completions. -/
def State.lapChain (s : State) (h n : Nat) : State :=
  let x := (s.hide h).ctBoundary n
  let ending := x.q.flights.filter (fun f => f.order.txn.isNone && f.overBy n)
  let decided := x.q.txns.filter (fun t => match t.decision with | some d => decide (d.furlong < n) | none => false)
  let commits := sortBy (fun t => match t.closer with | some (o, _) => o.seq | none => 0)
    (decided.filter (fun t => match t.decision with | some d => d.commits | none => false))
  let fx := x.o.pending ++ ending.flatMap (·.fx) ++ commits.flatMap (fun t => (sortBySeq t.held).flatMap (·.fx))
  let trims := trimsOf (x.o.endedExts x.q)
  let before := (x.o.frames.length, x.o.tab)
  let o0 := x.o.stranded.length
  let o := returns x.o x.q
  let returned := decide (o.frames.length ≠ before.1) || decide (o.tab ≠ before.2)
  let x : HideSt := { x with o := { o with trimming := o.trimming ++ trims } }
  let gen := if fx.isEmpty && !returned then x.o.tab.gen else n
  let (o, counts) := publishTabs x gen fx
  let x : HideSt := { x with o := { o with tab := dropQueued o.tab (ending ++ decided.flatMap (·.held)) } }
  let ev := fx.foldl (fun k f => k + f.evicts) 0
  let full : Nat := if x.pfxLog2 = 0 then 0 else counts.foldl (fun k c => k + c.2.2.2) 0
  let x := { x with
    o := { x.o with
      figures := if gen = n then x.figuresNow else x.o.figures
      recodes := x.o.recodes ++ (ending ++ commits.flatMap (·.held)).flatMap Flight.recodes }
    q := { x.q with
      flights := x.q.flights.filter (fun f => !(f.order.txn.isNone && f.overBy n))
      txns := x.q.txns.filter (fun t => !(decided.any (fun d => d.id == t.id))) } }
  let s := s.setHide h x
  let s := { s with screen := { s.screen with stranded := satAdd s.screen.stranded (x.o.stranded.length - o0) } }
  let s := trims.foldl (fun s t => s.askTrim h t.1 t.2.1 t.2.2) s
  let s := s.countCt h { Ct.zero with evicted := BitVec.ofNat 32 (min ev (2 ^ 32 - 1)), pfxFull := BitVec.ofNat 32 (min full (2 ^ 32 - 1)) }
  let items := sortBy (·.1)
    (ending.map (fun f => (f.endChain, [f.completion false false counts])) ++ decided.map (fun t => (t.lastChain, t.packet counts)))
  let s := items.foldl (fun s i => s.complete h i.2) s
  (ending ++ decided.flatMap (·.held)).foldl (fun s f => s.trace h f) s

end Sys2Proof.Machine
end

