-- ==== Sys2Proof/Machine/Flash.lean ====
section
/-!
DEFINITION. Rods as images and back (R77, R81, R226, R324), and transfers to and from flash modules (R161, R316,
R321 to R326).
-/

namespace Sys2Proof.Machine
open Sys2Proof

/-! ### Rods as bytes -/

/-- The vectors of span (row, block) that are written. -/
def spanVecs (row : List StoredVec) (block : Nat) : List StoredVec := (row.drop (32 * block)).take 32

/-- The image of a plain rod: cells in pair order, each padded to `cell` bytes (0: not padded) (R77, R81). -/
def plainCells (d : Desc) (rows : List (List StoredVec)) : List Byte :=
  (List.range d.pairs).flatMap (fun p => (d.pairRows p).flatMap (fun r =>
    Codec.spanTile d.kvFormat d.headDim (spanVecs (rows.getD r []) (p / d.rodHeads))))

/-- The block checks of a plain rod, 8 bytes for each pair (R81). -/
def plainChecks (d : Desc) (rows : List (List StoredVec)) : List Byte :=
  (List.range d.pairs).flatMap (fun p =>
    let cs := (d.pairRows p).flatMap (fun r =>
      leBytes 4 (Codec.spanCheck d.kvFormat d.headDim (spanVecs (rows.getD r []) (p / d.rodHeads))).toNat)
    (cs ++ List.replicate 8 0).take 8)

/-- The overflow cells that continue a stream: NEXT, USED and 504 bytes each (R234). `p` is the pair, `i` the first
cell's place in the chain. -/
def overflowCells (p : Nat) : Nat → Nat → List Byte → List Byte
  | 0, _, _ => []
  | n + 1, i, bs =>
    if bs.isEmpty then []
    else
      let next : Nat := if bs.length ≤ 504 then 0xFFFFFFFF else (Config.overflowCell p (i + 1)).toNat
      leBytes 4 next ++ leBytes 2 (min 504 bs.length) ++ leBytes 2 0 ++
        (bs.take 504 ++ List.replicate (504 - (bs.take 504).length) 0) ++ overflowCells p n (i + 1) (bs.drop 504)

/-- A pair of a coded rod: its cell header, its stream, and its overflow cells when the stream exceeds a cell of `cell`
bytes (0: no limit) (R101, R234). -/
def codedPair (cell p idGen : Nat) (stream : List Byte) : List Byte :=
  let inCell := if cell = 0 then stream.length else cell - 16
  let rest := stream.drop inCell
  let n := ceilDiv rest.length 504
  let first : Nat := if n = 0 then 0xFFFFFFFF else (Config.overflowCell p 0).toNat
  leBytes 4 stream.length ++ leBytes 4 first ++ leBytes 2 n ++ leBytes 2 idGen ++ leBytes 4 0 ++
    stream.take inCell ++ overflowCells p n 0 rest

/-- The pairs of a coded rod in pair order (R101, R324). -/
def codedCells (d : Desc) (cell : Nat) (r : Rod) (rows : List (List (List VqBlock))) : List Byte :=
  let idGen := match r.book with | some (i, g) => i + 4096 * g | none => 0
  (List.range d.pairs).flatMap (fun p => codedPair cell p idGen ((d.pairRows p).flatMap (fun row =>
    ((rows.getD row []).getD (p / d.rodHeads) []).flatMap Codec.blockImage)))

/-- The plaintext of a rod record (R101, R324); `cell` is the size of a coded pair's cell. -/
def rodImage (d : Desc) (cell : Nat) (r : Rod) : List Byte :=
  match r.data with
  | .plain rows => plainCells d rows ++ plainChecks d rows
  | .coded rows => codedCells d cell r rows

/-- Bytes of one uncoded span tile. -/
def tileBytes (d : Desc) : Nat := 32 * Codec.vecBytes d.kvFormat d.headDim

/-- Read one span tile: element codes of all vectors, then their scales (`Codec.spanTile`). -/
def readTile (d : Desc) (bs : List Byte) : List StoredVec :=
  let n := d.headDim
  let per := n * Codec.elemBits d.kvFormat / 8
  let sc := if Codec.isMx d.kvFormat then n / 32 else 0
  (List.range 32).map (fun i =>
    Codec.readVec d.kvFormat n ((bs.drop (i * per)).take per ++ (bs.drop (32 * per + i * sc)).take sc))

/-- Read the first `fill` positions of a plain rod from its image, with the pairs whose checks fail. -/
def readPlain (d : Desc) (fill : Nat) (bs : List Byte) : Rod :=
  let span := tileBytes d
  let per := (if d.attn = 1 then 1 else 2)
  let tile (row block : Nat) : List StoredVec :=
    let h := row % d.rodHeads
    let side := row / d.rodHeads
    let p := block * d.rodHeads + h
    readTile d ((bs.drop ((p * per + side) * span)).take span)
  let rows := (List.range d.spanRows).map (fun r => ((List.range 8).flatMap (fun b => tile r b)).take fill)
  let checks := bs.drop (d.pairs * per * span)
  let want := plainChecks d rows
  let bad := (List.range d.pairs).filter (fun p => (checks.drop (8 * p)).take 8 != (want.drop (8 * p)).take 8)
  let vals (r : Nat) := (rows.getD r []).map (Codec.vecVals d.kvFormat)
  let sums := (List.range d.rodHeads).map (fun h =>
    Attn.summarise d.headDim (vals h) (vals (if d.attn = 1 then h else d.kvHeads + h)))
  ⟨.plain rows, sums, [], bad, none⟩

/-- Read `n` block records from a stream. -/
def readBlocks : Nat → List Byte → Option (List VqBlock × List Byte)
  | 0, bs => some ([], bs)
  | n + 1, bs =>
    match Codec.parseBlock bs with
    | none => none
    | some (b, rest) => match readBlocks n rest with
      | none => none
      | some (t, rest) => some (b :: t, rest)

/-- Read the block records of a whole stream. -/
def readStream : Nat → List Byte → Option (List VqBlock)
  | 0, bs => if bs.isEmpty then some [] else none
  | n + 1, bs =>
    if bs.isEmpty then some []
    else match Codec.parseBlock bs with
      | none => none
      | some (b, rest) => (readStream n rest).map (fun t => b :: t)

/-- Read pairs one after another: the blocks of each, and the bytes that follow. -/
def readPairs (cell : Nat) : Nat → List Byte → Option (List (List VqBlock) × List Byte)
  | 0, bs => some ([], bs)
  | n + 1, bs =>
    let size := fieldAt bs 0 4
    let ovf := fieldAt bs 8 2
    let inCell := if ovf = 0 then size else cell - 16
    let after := bs.drop (16 + inCell)
    let more := (List.range ovf).flatMap (fun i => (after.drop (512 * i + 8)).take (fieldAt after (512 * i + 4) 2))
    let stream := (bs.drop 16).take inCell ++ more
    if stream.length ≠ size then none
    else match readStream stream.length stream with
      | none => none
      | some bl => (readPairs cell n (after.drop (512 * ovf))).map (fun t => (bl :: t.1, t.2))

/-- Read a coded rod from its image, for the first cell size under which it parses to its end. -/
def readCoded (d : Desc) (cells : List Nat) (bs : List Byte) : Option (List (List (List VqBlock))) :=
  let per := (if d.attn = 1 then 1 else 2)
  (cells.findSome? (fun cell => match readPairs cell d.pairs bs with
    | some (ps, rest) => if rest.all (· == 0) then some ps else none
    | none => none)).map (fun pairs =>
    (List.range d.spanRows).map (fun row =>
      let h := row % d.rodHeads
      let side := row / d.rodHeads
      (List.range 8).map (fun b =>
        let bl := pairs.getD (b * d.rodHeads + h) []
        (bl.drop (side * (bl.length / per))).take (bl.length / per))))

/-- The cell sizes that a coded rod of a descriptor may have been stored under, and the one it takes outside a pool:
that of the lowest-numbered coded pool of its geometry (0: none). -/
def HideSt.codedCellSizes (x : HideSt) (d : Desc) : List Nat :=
  match x.lay with
  | none => [0]
  | some e => (sortBy (·.pool) (e.pools.filter (fun p => p.coded && p.q == d.pairs))).map (·.cellBytes) ++ [0]
def HideSt.codedCellSize (x : HideSt) (d : Desc) : Nat := (x.codedCellSizes d).headD 0

/-! ### Transfers -/

/-- Cut bytes into sectors of 4,096, the last padded with zeros (R323, R324). -/
def sectorsOf : Nat → List Byte → List (List Byte)
  | 0, _ => []
  | n + 1, bs => (bs.take 4096 ++ List.replicate (4096 - (bs.take 4096).length) 0) :: sectorsOf n (bs.drop 4096)

/-- Sectors of an image. -/
def sectorCount (bytes : Nat) : Nat := ceilDiv bytes 4096

/-- The transfer limit of a port's module (R310, R316). -/
def PortSt.transfer (p : PortSt) : Nat := match p.module with | some m => max 1 m.transfer | none => 64

/-- The pieces of a transfer: (first chunk, sectors) (R316). -/
def transferPieces (limit : Nat) : Nat → Nat → Nat → List (Nat × Nat)
  | 0, _, _ => []
  | fuel + 1, from_, left =>
    if left = 0 then []
    else (from_, min limit left) :: transferPieces limit fuel (from_ + min limit left) (left - min limit left)

/-- The sealed sector of chunk `k` of a job (R323). -/
def Job.sector (j : Job) (h k : Nat) (plain : List Byte) : Sector :=
  { serial := j.serial, chunk := k, extent := j.extent, hide := h, keyKind := j.keyKind, key := j.key,
    keyBits := j.keyBits, plain := plain, intact := true }

/-- Put a job's commands, and for a write its data, into the hide's league queues (R316, R333). A job on a LOST extent
fails as failed sectors do, one on a port that is not in use times out (R325, R328). -/
def State.startJob (s : State) (h : Nat) (j : Job) (lost : Bool) : State × Nat :=
  let id := (s.hide h).o.nextJob
  let p := s.port j.module
  let ps := transferPieces p.transfer (j.sectors + 1) 0 j.sectors
  let st : Option Nat := if lost then some stPoison else if p.usable then none else some stTimeout
  let j := { j with left := ps.length, status := st }
  let s := s.upO h (fun o => { o with jobs := o.jobs.set id j, nextJob := id + 1 })
  let s := if st.isSome then s else
    ps.foldl (fun s pc =>
      let why : CmdFor := .job h id pc.1
      let s := s.enqueue j.module h true
        ⟨64, .cmd 0 (if j.write then .write else .read) h (j.lba + pc.1) pc.2 why⟩
      if j.write then
        (List.range pc.2).foldl (fun s i =>
          s.enqueue j.module h false ⟨4224, .wdata 0 i (j.sector h (pc.1 + i) (AMap.get [] j.data (pc.1 + i))) why⟩) s
      else s) s
  (s, id)

/-- A read job of an extent. -/
def Extent.readJob (e : Extent) (x : HideSt) (h idx : Nat) : Job :=
  { write := false, extent := idx, module := e.module, lba := e.lba, sectors := e.sectors, serial := e.serial,
    keyKind := e.keyKind, key := e.key, keyBits := x.k.sealBits h e.keyKind e.key, data := [], left := 0,
    status := none, worst := 0 }

/-- Start reading extent `idx`. An extent-table entry with poison reads as failed sectors do (R345). -/
def State.readExtent (s : State) (h idx : Nat) : State × Nat :=
  let x := s.hide h
  match AMap.find x.o.tab.exts idx with
  | none => s.startJob h ⟨false, idx, 0, 0, 0, 0, 0, 0, 0, [], 0, none, 0⟩ true
  | some e => s.startJob h (e.readJob x h idx) (e.lost || x.o.metas.contains (.extentEntry idx))

/-- The bytes a finished read job has brought, in chunk order. -/
def Job.bytes (j : Job) : List Byte := (List.range j.sectors).flatMap (fun k => AMap.get [] j.data k)

/-- Take an extent and start writing an image into it: object number `r` of an order over the modules `mask` (R322,
R323). -/
def State.writeExtent (s : State) (h mask r kind key : Nat) (coded : Bool) (book : Option (Nat × Nat)) (next : Option Nat)
    (sums : List Attn.Summary) (img : List Byte) : Option (State × Nat × Nat) :=
  let n := sectorCount img.length
  match s.allocExtent h mask r n, (s.hide h).freeExtent with
  | some (m, lba), some idx =>
    let x := s.hide h
    let (serial, k) := x.k.nextSerial kind key
    let e : Extent :=
      { module := m, lost := false, keyKind := kind, key := key, coded := coded, sectors := n, lba := lba, serial := serial,
        next := next, book := book, sums := sums, waiting := none }
    let s := s.setHide h { x with
      k := k
      o := { x.o with tab := { x.o.tab with exts := x.o.tab.exts.set idx e } } }
    let j : Job := { (e.readJob (s.hide h) h idx) with
      write := true
      data := (sectorsOf n img).zipIdx.map (fun p => (p.2, p.1)) }
    let (s, id) := s.startJob h j false
    some (s, idx, id)
  | _, _ => none

/-- Free an extent at once, with TRIM of its sectors (R97, R324, R325). -/
def State.freeExtentNow (s : State) (h idx : Nat) : State :=
  match AMap.find (s.hide h).o.tab.exts idx with
  | none => s
  | some e =>
    -- sectors that a failed WRITE has withheld get no TRIM
    let kept := e.lost || (s.hide h).o.withheld.contains (e.module, e.lba, e.sectors)
    let s := s.upO h (fun o => { o with
      tab := { o.tab with exts := o.tab.exts.erase idx }
      trimming := if kept then o.trimming else o.trimming ++ [(e.module, e.lba, e.sectors)] })
    if kept then s else s.askTrim h e.module e.lba e.sectors

/-- The worse of two outcomes in the order of R325; 0 is none. -/
def worse (a b : Nat) : Nat :=
  let rank (n : Nat) := if n = stDeviceFault then 5 else if n = stPoison then 4 else if n = stCheckFail then 3
    else if n = stTimeout then 2 else if n = stNoPage then 1 else 0
  if rank a < rank b then b else a

/-- The outcome of a list of jobs: none while any runs. -/
def OPart.jobsOutcome (o : OPart) (ids : List Nat) : Option Nat :=
  ids.foldl (fun acc i => match acc, (AMap.find o.jobs i) with
    | some w, some j => j.status.map (worse w)
    | some w, none => some w
    | none, _ => none) (some stOk)

/-! ### Fetches (R129, R161) -/

/-- Bytes of the hide's fetch-buffer share in use. -/
def OPart.fetchUsed (o : OPart) : Nat := o.fetches.foldl (fun n f => if f.2.job.isSome then n + f.2.bytes else n) 0

/-- Issue fetches that wait for buffer space, in order, while it suffices (R161). -/
def State.pumpFetches (s : State) (h : Nat) : State :=
  let share := match (s.hide h).lay with | some e => e.fetchKib * 1024 | none => 0
  (s.hide h).o.fetches.foldl (fun s f =>
    let o := (s.hide h).o
    if f.2.job.isSome || f.2.dropped || decide (share < o.fetchUsed + f.2.bytes) then s
    else
      let (s, id) := s.readExtent h f.2.extent
      s.upO h (fun o => { o with fetches := o.fetches.set f.1 { f.2 with job := some id } })) s

/-- Ask for a fetch of a flash rod for an order. -/
def State.fetch (s : State) (h order layer rod ext : Nat) : State × Nat :=
  let o := (s.hide h).o
  let id := o.nextFetch
  let n := match AMap.find o.tab.exts ext with | some e => e.sectors * 4096 | none => 0
  let s := s.upO h (fun o => { o with
    fetches := o.fetches.set id ⟨order, layer, rod, ext, none, n, false, false, false, false⟩
    nextFetch := id + 1 })
  (s.pumpFetches h, id)

/-- The fetch of an extent for an order, when there is one. -/
def OPart.fetchFor (o : OPart) (order ext : Nat) : Option (Nat × Fetch) :=
  o.fetches.find? (fun f => f.2.order == order && f.2.extent == ext)

/-- The sectors that a flight's fetches have brought, added to what it counts (R429). -/
def Flight.withFetched (o : OPart) (f : Flight) : Flight :=
  let n := o.fetches.foldl (fun n k => if k.2.order == f.order.seq && k.2.arrived then n + k.2.bytes / 4096 else n) 0
  { f with ct := { f.ct with flashSectors := satAdd f.ct.flashSectors n } }

/-- Nobody waits for an order's fetches any more: finished ones release their space, running ones are dropped (R326). -/
def State.dropFetches (s : State) (h order : Nat) : State :=
  let s := s.upO h (fun o =>
    let ended (f : Fetch) : Bool := match f.job with
      | none => true
      | some j => match AMap.find o.jobs j with | some j => j.status.isSome | none => true
    { o with fetches := (o.fetches.filter (fun f => !(f.2.order == order && ended f.2))).map (fun f =>
        if f.2.order == order then (f.1, { f.2 with dropped := true }) else f) })
  s.pumpFetches h

end Sys2Proof.Machine
end

