-- ==== Sys2Proof/Machine/Operands.lean ====
section
/-!
DEFINITION. Order records: opcodes and classes (R260), the field checks of step 5 of R259 (R12, R13 and each order's
definition), the operand-area and host-buffer ranges that an order names (R139, R256, R290, R337), and the objects it
names (R261).
-/

namespace Sys2Proof.Machine
open Sys2Proof

/-! ### Opcodes (R260) -/

/-- The slot class of an opcode; none for markers and queue commands, and for values outside R260. -/
def classOf (op : Nat) : Option SlotClass :=
  if op ∈ [0x01, 0x02, 0x03, 0x04, 0x05, 0x19] then some .metaOrder
  else if op = 0x08 then some .decode
  else if op = 0x09 then some .prefill
  else if op = 0x0A then some .backward
  else if op = 0x0B then some .append
  else if op = 0x0C then some .state
  else if op ∈ [0x0D, 0x13] then some .score
  else if op ∈ [0x10, 0x11, 0x12, 0x14, 0x18, 0x1A] then some .move
  else none

/-- The transaction markers and DROP_REST. -/
def isMarker (op : Nat) : Bool := op == 0x20 || op == 0x21 || op == 0x22 || op == 0x28
/-- Is the opcode in the table of R260. -/
def knownOp (op : Nat) : Bool := (classOf op).isSome || isMarker op
/-- May the opcode be a transaction member (R260). -/
def memberOp (op : Nat) : Bool := op ∈ [0x01, 0x02, 0x03, 0x04, 0x05, 0x08, 0x09, 0x0B, 0x0C, 0x13]

/-- Is the order a transaction marker: its opcode is trusted and it did not arrive poisoned (R274). -/
def Order.closes (o : Order) : Bool := (o.opcode == 0x21 || o.opcode == 0x22) && o.early.map (·.1) != some stPoison
def Order.opens (o : Order) : Bool := o.opcode == 0x20 && o.early.map (·.1) != some stPoison

/-! ### Descriptors and sizes -/

/-- The descriptor of a MODEL_ID in the hide's section (R76). -/
def HideSt.desc (x : HideSt) (m : Nat) : Option Desc :=
  match x.sec with
  | none => none
  | some s => s.descs.find? (fun d => d.modelId == m)

/-- The operand area in bytes (R285). -/
def HideSt.opndBytes (x : HideSt) : Nat := match x.lay with | some e => e.opndMib * 2 ^ 20 | none => 0

/-- The first set, current and READY, of a role (R173). -/
def Tab.currentSet (t : Tab) (m l role : Nat) : Option (Nat × WSet) :=
  match AMap.find t.current (curKey m l role) with
  | none => none
  | some i => match AMap.find t.sets i with
    | some w => if w.st == .ready then some (i, w) else none
    | none => none

/-- The query dimension D_q of a LATENT_MODE (R156). -/
def queryDim (d : Desc) (mode dh : Nat) : Nat := if d.attn = 1 ∧ mode ≠ 0 then dh else d.headDim

/-- The stride of a query record (R140, R185). -/
def queryStride (d : Desc) (q dim : Nat) : Nat := roundUp (q * d.heads * dim * 2) 256

/-- LATENT_MODE of STEP_DECODE and STEP_PREFILL flags (R136). -/
def latentMode (flags : Nat) : Nat := bits flags 5 2

/-- The stride of an output entry of `r` rows of `dim` elements (R141). -/
def outStride (r dim fmt : Nat) (stats : Bool) : Nat :=
  roundUp (64 + roundUp r 64 + (if stats then roundUp (8 * r) 64 else 0) + r * dim * Attn.outBytes fmt) 256

/-- Bytes of a row of PROJECT_APPEND's input block (R177). -/
def appendRow (t : Tab) (d : Desc) (layer : Nat) (sourceKv : Bool) : Nat :=
  if sourceKv then 2 * (if d.attn = 1 then d.headDim else 2 * d.kvHeads * d.headDim)
  else match t.currentSet d.modelId layer 0 with | some (_, w) => 2 * w.dim | none => 0

/-- The parts of STEP_BACKWARD's input block, each padded to 256 B (R188). -/
def backInput (d : Desc) (q : Nat) : Nat := 3 * roundUp (q * d.heads * d.headDim * 2) 256 + roundUp (q * d.heads * 8) 256

/-- The size of an output element (R135, R187). -/
def gradBytes (fmt : Nat) : Nat := if fmt = 0 then 2 else 4

/-- The gradient area of STEP_BACKWARD (R188). -/
def backArea (d : Desc) (q k fmt : Nat) : Nat :=
  roundUp (64 + q * d.heads) 4096 + roundUp (q * d.heads * d.headDim * gradBytes fmt) 4096 +
  2 * roundUp (k * d.kvHeads * d.headDim * gradBytes fmt) 4096

/-- A record of STATE_STEP's input (R190). -/
def stateRec (nk nv : Nat) : Nat := roundUp (4 * nk + 2 * (2 * nk + nv)) 64
/-- The output of STATE_STEP (R190). -/
def stateOut (steps heads nv fmt : Nat) : Nat := roundUp (steps * heads * nv * Attn.outBytes fmt) 256

/-- The stride of SCORE_TOPK's output (R194). -/
def scoreStride (k : Nat) : Nat := roundUp (16 + 8 * k) 64

/-- A query record of SCORE_TOPK (R193). -/
def scoreQuery (x : HideSt) (t : Tab) (o : Order) : Option Nat :=
  let id := o.f 24 6
  if o.f 16 1 = 0 then (AMap.find t.sets (objIndex id)).map (fun w => roundUp (2 * w.dim) 64)
  else match AMap.find t.seqs (objIndex id) with
    | none => none
    | some q => (x.desc q.modelId).map (fun d => roundUp (d.qPerKv * d.headDim * 2) 64)

/-- The stride of a delivery record (R132). -/
def deliverStride (d : Desc) : Nat := roundUp (64 + d.rodBytes + 8 * d.pairs) 4096

/-- Image size of a codebook (R239). -/
def bookBytes (vq entryFmt entries : Nat) : Nat := (entries - 1) * Codec.vqDim vq * Codec.elemBits entryFmt / 8

/-- Bytes of one vector of a weight set in an uncoded format, packed (R173, R199). -/
def setBytes (d : Desc) (role fmt vectors dim : Nat) (biased expand : Bool) : Nat :=
  let body :=
    if role = 1 then d.qPerKv * (dim * Codec.vecBytes fmt vectors + (if expand then 2 else 1) * vectors * Codec.vecBytes fmt dim)
    else vectors * Codec.vecBytes fmt dim
  roundUp (body + (if biased then 4 * vectors else 0)) 64

/-- Is a storage format coded (R218). -/
def isVq (fmt : Nat) : Bool := fmt == 0x10 || fmt == 0x11 || fmt == 0x12
/-- Is a storage format one of R196. -/
def isPlainFmt (fmt : Nat) : Bool := decide (1 ≤ fmt) && decide (fmt ≤ 8)

/-! ### Operand-area and host ranges an order names -/

/-- A range of the operand area that the record names: field offset, start, length; and whether the length depends on
the record alone. -/
structure OpRange where
  field : Nat
  off : Nat
  len : Nat
  plain : Bool
  deriving DecidableEq, Repr

/-- The operand-area ranges that an order's own record names (R337). `dh` is the d_h of R140. -/
def Order.opRanges (x : HideSt) (t : Tab) (dh : Option Nat) (o : Order) : List OpRange :=
  let d := x.desc (o.f 16 2)
  let e := x.desc (o.f 20 2)
  let query (field flags q n : Nat) (d : Option Desc) : List OpRange :=
    match d with
    | none => []
    | some d =>
      if latentMode flags ≠ 0 ∧ dh.isNone then []
      else [⟨field, o.f field 4, n * queryStride d q (queryDim d (latentMode flags) (dh.getD 0)), false⟩]
  if o.opcode = 0x08 then
    let n := o.f 20 2
    if n = 0 ∨ 1024 < n then []
    else ⟨32, o.f 32 4, 32 * n, true⟩ ::
      (if o.f 22 1 = 0 ∨ 8 < o.f 22 1 then [] else query 36 (o.f 24 4) (o.f 22 1) n d)
  else if o.opcode = 0x09 then
    (if bit (o.f 32 4) 4 || bit (o.f 32 4) 7 then [⟨44, o.f 44 4, 32, true⟩] else []) ++
    (if o.f 28 2 = 0 ∨ 8192 < o.f 28 2 then [] else query 40 (o.f 32 4) (o.f 28 2) 1 e)
  else if o.opcode = 0x0A then
    (if bit (o.f 32 4) 4 || bit (o.f 32 4) 7 then [⟨44, o.f 44 4, 32, true⟩] else []) ++
    (match e with
     | some d => if o.f 28 2 = 0 ∨ 8192 < o.f 28 2 then [] else [⟨40, o.f 40 4, backInput d (o.f 28 2), false⟩]
     | none => [])
  else if o.opcode = 0x0B then
    match e with
    | some d => if o.f 28 4 = 0 ∨ 8192 < o.f 28 4 then []
      else [⟨36, o.f 36 4, o.f 28 4 * appendRow t d (o.f 22 2) (bit (o.f 32 2) 0), false⟩]
    | none => []
  else if o.opcode = 0x0C then
    if o.f 24 2 = 0 ∨ 4096 < o.f 24 2 ∨ o.f 26 1 = 0 ∨ 64 < o.f 26 1 ∨ o.f 28 2 = 0 ∨ 256 < o.f 28 2 ∨ o.f 30 2 = 0 ∨ 256 < o.f 30 2
    then [] else [⟨32, o.f 32 4, o.f 24 2 * o.f 26 1 * stateRec (o.f 28 2) (o.f 30 2), true⟩]
  else if o.opcode = 0x0D then
    if o.f 22 2 = 0 ∨ 256 < o.f 22 2 then []
    else
      (match scoreQuery x t o with
       | some n => [⟨32, o.f 32 4, o.f 22 2 * n, false⟩]
       | none => []) ++
      (if bit (o.f 19 1) 0 then [⟨36, o.f 36 4, 4 * ceilDiv (o.f 60 4) 32, false⟩] else [])
  else []

/-- The byte charge of an order (R337). -/
def Order.charge (x : HideSt) (t : Tab) (dh : Option Nat) (o : Order) : Nat :=
  64 + (o.opRanges x t dh).foldl (fun n r => n + r.len) 0

/-- A host range that an order names: field offset, address, length, and whether the device writes it. -/
structure HostRange where
  field : Nat
  addr : Nat
  len : Nat
  wr : Bool
  deriving DecidableEq, Repr

/-- The host ranges of an order (R290). A SWAP_IN's or SWAP_OUT's range is checked when it is not zero. -/
def Order.hostRanges (x : HideSt) (o : Order) : List HostRange :=
  if o.opcode = 0x04 then [⟨32, o.f 32 8, 4 * o.f 28 4, false⟩]
  else if o.opcode = 0x05 then if o.f 16 1 = 0 then [⟨40, o.f 40 8, 4 * o.f 32 4, false⟩] else []
  else if o.opcode = 0x08 then [⟨40, o.f 40 8, o.f 48 8, true⟩]
  else if o.opcode = 0x09 then [⟨48, o.f 48 8, o.f 56 8, true⟩]
  else if o.opcode = 0x0A then
    match x.desc (o.f 20 2) with
    | some d => [⟨56, o.f 56 8, backArea d (o.f 28 2) (o.f 52 4) (o.f 30 1), true⟩]
    | none => []
  else if o.opcode = 0x0C then [⟨40, o.f 40 8, o.f 48 8, true⟩]
  else if o.opcode = 0x0D then [⟨40, o.f 40 8, o.f 48 8, true⟩]
  else if o.opcode = 0x11 then if o.f 20 1 = 0 then [⟨32, o.f 32 8, o.f 40 8, true⟩] else []
  else if o.opcode = 0x12 then if o.f 32 8 = 0 ∧ o.f 40 8 = 0 then [] else [⟨32, o.f 32 8, o.f 40 8, false⟩]
  else if o.opcode = 0x13 then [⟨40, o.f 40 8, 8 * o.f 28 4, true⟩]
  else if o.opcode = 0x14 then [⟨40, o.f 40 8, o.f 48 8, true⟩]
  else if o.opcode = 0x18 then [⟨32, o.f 32 8, o.f 40 8, false⟩]
  else if o.opcode = 0x1A then if o.f 48 8 = 0 then [] else [⟨40, o.f 40 8, o.f 48 8, false⟩]
  else []

/-- The lowest enabled buffer that holds a range and permits the direction (R290). -/
def APart.bufFor (a : APart) (r : HostRange) : Option Nat :=
  (List.range 64).find? (fun b =>
    let u := a.bufs.get HostBuf.reset b
    u.en && (if r.wr then u.wr else u.rd) && decide (u.addr.toNat ≤ r.addr) &&
      decide (r.addr + r.len ≤ u.addr.toNat + u.len.toNat))

/-! ### Step 5 of R259 -/

/-- A count: zero and the all-ones value are invalid (R13). -/
def badCount (o : Order) (off size : Nat) : Bool := o.f off size == 0 || o.f off size == 2 ^ (8 * size) - 1
/-- Outside `lo` to `hi`. -/
def outside (o : Order) (off size lo hi : Nat) : Bool := decide (o.f off size < lo) || decide (hi < o.f off size)
def nonzero (o : Order) (off size : Nat) : Bool := !(zeroAt o.line off size)
def misaligned (o : Order) (off size a : Nat) : Bool := o.f off size % a != 0

/-- The check of a run of reserved bytes, with the offset of its first nonzero byte (R12, R259; DEDUCED, log entry 35: each
reserved byte is a field of its own for DETAIL). -/
def spare (o : Order) (off size : Nat) : Bool × Nat :=
  (nonzero o off size, off + (((o.line.drop off).take size).takeWhile (· == 0)).length)

/-- SCALE: zero, or positive, finite and normal (R135). -/
def badScale (v : Nat) : Bool := v != 0 && (decide (v < 2 ^ 23) || decide (0x7F800000 ≤ v))

/-- A scope that an order may name (R108). -/
def badScope (domains v : Nat) : Bool := decide (domains ≤ v) && v != 15

/-- An object ID whose reserved bits [39:32] are not zero (R12, R75). -/
def badId (o : Order) (off : Nat) : Bool := o.f (off + 4) 1 != 0

/-- The fields of EVICT at offset 48 (R102). -/
def evictChecks (o : Order) : List (Bool × Nat) :=
  if o.f 48 1 = 0 then [(nonzero o 49 1, 49), (nonzero o 50 2, 50), (nonzero o 52 4, 52), (nonzero o 56 4, 56), spare o 60 4]
  else
    [(o.f 48 1 != 1, 48), (outside o 50 2 0 2048, 50), (outside o 52 4 1 131072, 52),
     (o.f 56 4 == 0 || decide (0x3F800000 < o.f 56 4), 56), spare o 60 4]

/-- The range, alignment and reserved-bit checks of an order's own fields, as (fails, offset), in offset order. -/
def fieldChecks (x : HideSt) (o : Order) : List (Bool × Nat) :=
  let dom := match x.lay with | some e => e.domains | none => 0
  let conf := x.confidential
  match o.opcode with
  | 0x01 =>
    if bit (o.f 23 1) 0 then
      [(badCount o 16 4, 16), (nonzero o 20 2, 20), (nonzero o 22 1, 22), (o.f 23 1 != 1, 23), (nonzero o 24 4, 24), (outside o 28 4 1 4194304, 28),
       (nonzero o 32 2, 32), spare o 34 6, (nonzero o 40 8, 40), (nonzero o 48 1, 48),
       (nonzero o 49 1, 49), (nonzero o 50 2, 50), (nonzero o 52 4, 52), (nonzero o 56 4, 56), spare o 60 4]
    else
      [(badCount o 16 4, 16), (outside o 22 1 0 15, 22), (outside o 23 1 0 7, 23), (misaligned o 24 4 256, 24), (outside o 28 4 1 4194304, 28),
       spare o 34 6] ++ evictChecks o
  | 0x02 => [(badCount o 16 4, 16), spare o 20 44]
  | 0x03 => [(badCount o 16 4, 16), spare o 20 4, (badId o 24, 24), spare o 30 2, (outside o 32 4 1 4194304, 32), spare o 38 26]
  | 0x04 =>
    [(badScope dom (o.f 16 1), 16), (outside o 17 1 0 1, 17), (o.f 16 1 != 15 && nonzero o 18 2, 18), spare o 22 2,
     (misaligned o 24 4 256 || decide (4194304 ≤ o.f 24 4), 24), (outside o 28 4 1 (4194304 - o.f 24 4), 28),
     (if o.f 17 1 = 1 then badCount o 40 4 else nonzero o 40 4, 40), (o.f 17 1 != 1 && nonzero o 44 4, 44), spare o 48 16]
  | 0x05 =>
    let op := o.f 16 1
    [(outside o 16 1 0 2, 16),
     ((op == 0 && (badScope dom (o.f 17 1) || (conf && o.f 17 1 != 15))) || (op == 1 && decide (dom ≤ o.f 17 1)) ||
       (op == 2 && o.f 17 1 != 0), 17),
     (if op == 0 then badCount o 20 4 else nonzero o 20 4, 20), (if op == 0 then nonzero o 24 6 else badId o 24, 24), spare o 30 2,
     (if op == 0 then outside o 32 4 1 4194304 else nonzero o 32 4, 32), spare o 36 4,
     (op != 0 && nonzero o 40 8, 40), spare o 48 16]
  | 0x08 =>
    let fl := o.f 24 4
    [(outside o 20 2 1 1024, 20), (outside o 22 1 1 8, 22), (outside o 23 1 0 2 || (bit fl 0 && o.f 23 1 != 2), 23),
     (decide (128 ≤ fl) || latentMode fl == 3, 24), (badScale (o.f 28 4), 28), (misaligned o 32 4 64, 32),
     (misaligned o 36 4 256, 36), (misaligned o 40 8 256, 40), (badCount o 48 8, 48),
     (outside o 56 2 0 1024 || (latentMode fl == 2 && nonzero o 56 2), 56), spare o 58 6]
  | 0x09 =>
    let fl := o.f 32 4
    let aux := bit fl 4 || bit fl 7
    [(badCount o 16 4, 16), (outside o 28 2 1 8192, 28), (outside o 30 1 0 2 || (bit fl 0 && o.f 30 1 != 2), 30), spare o 31 1,
     (decide (256 ≤ fl) || latentMode fl == 3, 32), (badScale (o.f 36 4), 36), (misaligned o 40 4 256, 40),
     (if aux then misaligned o 44 4 32 else nonzero o 44 4, 44), (misaligned o 48 8 256, 48), (badCount o 56 8, 56)]
  | 0x0A =>
    let fl := o.f 32 4
    let aux := bit fl 4 || bit fl 7
    [(badCount o 16 4, 16), (outside o 28 2 1 8192, 28), (o.f 30 1 != 0 && o.f 30 1 != 2, 30), spare o 31 1,
     (bit fl 0 || bit fl 1 || latentMode fl != 0 || decide (512 ≤ fl), 32), (badScale (o.f 36 4), 36),
     (misaligned o 40 4 256, 40), (if aux then misaligned o 44 4 32 else nonzero o 44 4, 44),
     (badCount o 52 4 || decide (o.f 24 4 + o.f 28 2 < o.f 48 4 + o.f 52 4), 52), (misaligned o 56 8 4096, 56)]
  | 0x0B =>
    [(badCount o 16 4, 16), (outside o 28 4 1 8192, 28), (decide (8 ≤ o.f 32 2), 32), (misaligned o 36 4 256, 36), spare o 40 24]
  | 0x0C =>
    [(badCount o 16 4, 16), (outside o 24 2 1 4096, 24), (outside o 26 1 1 64, 26), (outside o 27 1 0 3, 27), (outside o 28 2 1 256, 28),
     (outside o 30 2 1 256, 30), (misaligned o 32 4 256, 32), (outside o 36 1 0 2, 36), spare o 37 3,
     (misaligned o 40 8 256, 40),
     (badCount o 48 8 || decide (o.f 48 8 < stateOut (o.f 24 2) (o.f 26 1) (o.f 30 2) (o.f 36 1)), 48), spare o 56 8]
  | 0x0D =>
    [(outside o 16 1 0 1, 16), (outside o 17 1 0 1 || (o.f 17 1 == 1 && o.f 16 1 != 0), 17), (outside o 18 1 0 1, 18),
     (outside o 19 1 0 1, 19), (outside o 20 2 1 1024, 20), (outside o 22 2 1 256, 22), (badId o 24, 24),
     (o.f 16 1 == 0 && nonzero o 30 2, 30), (misaligned o 32 4 256, 32),
     (if bit (o.f 19 1) 0 then misaligned o 36 4 64 else nonzero o 36 4, 36), (misaligned o 40 8 256, 40),
     (badCount o 48 8 || decide (o.f 48 8 < o.f 22 2 * scoreStride (o.f 20 2)), 48), (o.f 60 4 == 0xFFFFFFFF, 60)]
  | 0x10 =>
    let isSeq := objKind (o.f 16 6) == 2
    [(badId o 16, 16), spare o 22 2, (!isSeq && nonzero o 24 2, 24),
     (if isSeq then badCount o 26 2 else nonzero o 26 2, 26), (!isSeq && nonzero o 28 4, 28),
     (if isSeq then badCount o 32 4 else nonzero o 32 4, 32), (outside o 36 1 0 1, 36),
     ((o.f 36 1 == 1) != nonzero o 37 1, 37), (!(bit (o.f 40 1) 0) && nonzero o 38 2, 38),
     (outside o 40 1 0 3 || (conf && bit (o.f 40 1) 0), 40),
     (outside o 41 1 0 15 || (!(bit (o.f 40 1) 1) && nonzero o 41 1), 41), spare o 42 22]
  | 0x11 =>
    let flash := o.f 20 1 == 1
    [(badCount o 16 4, 16), (outside o 20 1 0 1, 20), (flash != nonzero o 21 1, 21), spare o 22 10,
     (if flash then nonzero o 32 8 else misaligned o 32 8 4096, 32), (if flash then nonzero o 40 8 else badCount o 40 8, 40),
     spare o 48 16]
  | 0x12 =>
    [(badCount o 16 4, 16), spare o 20 4, (outside o 24 4 1 4194304, 24), spare o 28 4, (misaligned o 32 8 4096, 32),
     (o.f 40 8 == 2 ^ 64 - 1, 40), spare o 48 16]
  | 0x13 =>
    let sb := bit (o.f 22 1) 0
    [(conf, 0), (badCount o 16 4, 16), (outside o 22 1 0 1, 22), spare o 23 1, (badCount o 28 4, 28),
     (if sb then outside o 32 4 1 131072 else nonzero o 32 4, 32), spare o 36 4, spare o 48 16]
  | 0x14 =>
    [(badId o 16, 16), (badCount o 24 2, 24), spare o 26 2, (badCount o 32 4, 32), (outside o 36 4 1 65536, 36),
     (misaligned o 40 8 4096, 40), (badCount o 48 8, 48), spare o 56 8]
  | 0x18 =>
    let vq := o.f 18 1
    [(outside o 16 2 1 4094, 16), (!(isVq vq), 18), (o.f 19 1 != 3 && o.f 19 1 != 7, 19),
     (outside o 20 2 2 (if vq = 0x11 then 4095 else 255), 20), spare o 22 2, (decide (0x7F800000 < o.f 24 4), 24),
     spare o 28 4, (misaligned o 32 8 4096, 32), (o.f 40 8 != bookBytes vq (o.f 19 1) (o.f 20 2), 40), spare o 48 16]
  | 0x19 => [spare o 18 46]
  | 0x1A =>
    let role := o.f 20 1
    let fmt := o.f 21 1
    if o.f 48 8 = 0 then [spare o 34 6, (nonzero o 40 8, 40), (badId o 56, 56), spare o 62 2]
    else
      [(role == 2 && nonzero o 18 2, 18), (outside o 20 1 0 2, 20), (!(isPlainFmt fmt || isVq fmt), 21),
       (decide (4 ≤ o.f 22 2) || (bit (o.f 22 2) 0 && role != 0) || (bit (o.f 22 2) 1 && role != 1), 22),
       (if role = 2 then outside o 24 4 1 268435456
        else if role = 1 then outside o 24 4 32 256 || misaligned o 24 4 32 else badCount o 24 4, 24),
       (misaligned o 28 4 32 || outside o 28 4 32 (if role = 2 then 4096 else 32768) ||
         (isVq fmt && (misaligned o 28 4 (Codec.vqElems fmt) || (role == 1 && misaligned o 24 4 (Codec.vqElems fmt)))), 28),
       (!(isVq fmt) && nonzero o 32 2, 32), spare o 34 6, (misaligned o 40 8 4096, 40), (badCount o 48 8, 48),
       (nonzero o 56 6, 56), spare o 62 2]
  | 0x20 => [spare o 16 48]
  | 0x21 => [spare o 16 48]
  | 0x22 => [spare o 16 48]
  | 0x28 =>
    [(outside o 16 1 0 1, 16), (if o.f 16 1 = 0 then outside o 17 1 0 7 else nonzero o 17 1, 17), spare o 18 46]
  | _ => []

/-- The operand-area and host ranges that lie outside the area or no buffer holds (R13, R290), as (fails, offset). -/
def rangeChecks (x : HideSt) (o : Order) : List (Bool × Nat) :=
  ((o.opRanges x x.o.tab none).filter (·.plain)).map (fun r => (decide (x.opndBytes < r.off + r.len), r.field)) ++
  (o.hostRanges x).map (fun r => ((x.a.bufFor r).isNone, r.field))

/-- The lowest offset of a failing check. -/
def firstFail (cs : List (Bool × Nat)) : Option Nat :=
  (cs.filter (·.1)).foldl (fun m c => match m with | none => some c.2 | some k => some (min k c.2)) none

/-- Step 5 of R259: the first failing field. -/
def fieldFail (x : HideSt) (o : Order) : Option Nat := firstFail (fieldChecks x o ++ rangeChecks x o)

/-! ### Objects an order names (R261, R277) -/

/-- The object ID of a sequence. -/
def seqId (h handle : Nat) : Nat := objId 2 h handle

/-- The objects that an order names in its record or in a captured batch table, as object IDs. -/
def Order.objects (h : Nat) (o : Order) : List Nat :=
  let handle (off : Nat) : List Nat := [seqId h (o.f off 4)]
  let book (off : Nat) : List Nat := if o.f off 2 = 0 then [] else [objId 5 h (o.f off 2)]
  match o.opcode with
  | 0x01 => handle 16
  | 0x02 => handle 16
  | 0x03 => handle 16 ++ [o.f 24 6]
  | 0x04 => if bit (o.f 17 1) 0 then handle 40 else []
  | 0x05 => if o.f 16 1 = 0 then handle 20 else [o.f 24 6]
  | 0x08 =>
    match o.segs.find? (fun s => s.off == o.f 32 4) with
    | some s => (List.range (o.f 20 2)).map (fun e => seqId h (fieldAt s.bytes (32 * e) 4))
    | none => []
  | 0x09 => handle 16
  | 0x0A => handle 16
  | 0x0B => handle 16 ++ book 34
  | 0x0C => handle 16
  | 0x0D => [o.f 24 6]
  | 0x10 => [o.f 16 6] ++ book 38
  | 0x11 => handle 16
  | 0x12 => handle 16
  | 0x13 => handle 16
  | 0x14 => [o.f 16 6]
  | 0x18 => []
  | 0x19 => [objId 5 h (o.f 16 2)]
  | 0x1A => (if o.f 48 8 = 0 then [o.f 56 6] else []) ++ book 32
  | _ => []

/-- Do two orders name a common object (R261). -/
def shareObject (h : Nat) (a b : Order) : Bool := (a.objects h).any (fun i => (b.objects h).contains i)

/-- The layer that a layer-wise order works on. -/
def Order.layer (o : Order) : Nat :=
  match o.opcode with
  | 0x08 => o.f 18 2
  | 0x13 => o.f 20 2
  | 0x0D => o.f 30 2
  | _ => o.f 22 2

/-- Does the order, an append, work on a sequence and layer. -/
def Order.appendsTo (h handle layer : Nat) (o : Order) : Bool :=
  o.opcode == 0x0B && o.layer == layer && (o.objects h).contains (seqId h handle)

end Sys2Proof.Machine
end

