-- ==== Sys2Proof/Machine/Queue.lean ====
section
/-!
DEFINITION. The queue engine up to the admission queue: notices (R253 to R256), packets (R255, R258, R269), capture
(R139, R140, R147, R256), the checks 1 to 6 of R259 and the policer (R337, R338), and the commands that act on rings
(R252, R271).
-/

namespace Sys2Proof.Machine
open Sys2Proof

/-! ### Notices (R254) -/

/-- The ring's entries lie from BASE + 256. -/
def ringSpan (ctl : U32) (size : Nat) : Nat := 256 + ctlEntries ctl * size

/-- E(p): the index congruent to `p` in TAKEN to TAKEN + entries − 1 (R254). -/
def OrderRing.expected (r : OrderRing) (p : Nat) : U32 :=
  let n := ctlEntries r.ctl
  r.taken + BitVec.ofNat 32 ((p + n - r.taken.toNat % n) % n)

/-- Notice a write-back of position `p` (R254). -/
def OrderRing.notice (r : OrderRing) (p : Nat) (data : List Byte) (poison : Bool) (cycle : Nat) : OrderRing :=
  let e := r.expected p
  let stale := BitVec.ofNat 32 (fieldAt data 8 4) == e - BitVec.ofNat 32 (ctlEntries r.ctl)
  if !poison && (fieldAt data 1 1 == 0 || stale) then r
  else { r with notices := r.notices.set p ⟨data, poison, cycle⟩ }

/-- CONS as the host writes it: one outside OLDEST to PROD is disregarded until another is written (R266). -/
def OutRing.hostIndex (r : OutRing) (data : List Byte) : OutRing :=
  let c := BitVec.ofNat 32 (fieldAt data 0 4)
  { r with cons := if 0 ≤ idxDiff c r.oldest ∧ 0 ≤ idxDiff r.prod c then c else r.oldest }

/-- The effect on the rings of a whole-line write at HDM offset `off` of the hide's ring area (R251, R253). -/
def QPart.lineWrite (q : QPart) (off : Nat) (data : List Byte) (poison : Bool) (cycle : Nat) : QPart :=
  let orders := q.orders.map (fun r =>
    let b := r.2.base.toNat
    if r.2.ready && decide (b + 256 ≤ off) && decide (off < b + ringSpan r.2.ctl 64) then
      (r.1, r.2.notice ((off - b - 256) / 64) data poison cycle)
    else r)
  let out (r : OutRing) : OutRing := if r.ready && off == r.base.toNat + 64 && !poison then r.hostIndex data else r
  { q with orders := orders, comps := q.comps.map (fun r => (r.1, out r.2)), events := out q.events }

/-! ### Packets (R255, R258, R269) -/

/-- The notice at index TAKEN + i. -/
def OrderRing.at (r : OrderRing) (i : Nat) : Option Notice :=
  AMap.find r.notices ((r.taken.toNat + i) % ctlEntries r.ctl)

/-- Does a noticed line end its packet in END_MARK framing: an end mark, a malformed tag or poison (R258). -/
def Notice.ends (n : Notice) : Bool := n.poison || fieldAt n.data 1 1 != 1

/-- Is a noticed line a well-formed slot of LENGTH_WORD framing with its own ORDER_NO; its count (R269). -/
def Notice.slot (n : Notice) (e : U32) : Option Nat :=
  let c := fieldAt n.data 16 2
  if !n.poison && fieldAt n.data 1 1 == 5 && fieldAt n.data 8 4 == e.toNat && decide (1 ≤ c) && decide (c ≤ 255) &&
      fieldAt n.data 0 1 == 0 && zeroAt n.data 2 6 && zeroAt n.data 12 4 && zeroAt n.data 18 46 then some c else none

/-- The first entry that ends the END_MARK packet at TAKEN, within `n` entries from index `i`; none while one of them
is not noticed. -/
def OrderRing.endMark (r : OrderRing) : Nat → Nat → Option Nat
  | 0, _ => none
  | n + 1, i =>
    match r.at i with
    | none => none
    | some t => if t.ends || i == 255 then some (i + 1) else r.endMark n (i + 1)

/-- Entries of the complete packet at TAKEN (R255). -/
def OrderRing.packet (r : OrderRing) (lw : Bool) : Option Nat :=
  if lw then
    match r.at 0 with
    | none => none
    | some t =>
      match t.slot r.taken with
      | none => some 1
      | some c => if (List.range c).all (fun i => (r.at (i + 1)).isSome) then some (c + 1) else none
  else r.endMark (min 256 (ctlEntries r.ctl)) 0

/-- The reach of the packet at TAKEN, in entries (R255). -/
def OrderRing.reach (r : OrderRing) (lw : Bool) : Nat :=
  let most := min 256 (ctlEntries r.ctl)
  if lw then match r.at 0 with
    | some t => (match t.slot r.taken with | some c => min most (c + 1) | none => 1)
    | none => most
  else match (List.range most).find? (fun i => match r.at i with | some t => t.ends | none => false) with
    | some i => i + 1
    | none => most

/-! ### Capture (R139, R140, R147, R256) -/

/-- Positions of appends taken earlier on a sequence and layer that are not yet published (R147). -/
def HideSt.unpublished (x : HideSt) (h handle layer : Nat) : Nat :=
  let sum (l : List Order) : Nat := l.foldl (fun n o => if o.appendsTo h handle layer then n + o.f 28 4 else n) 0
  let fx (l : List Fx) : Nat := l.foldl (fun n f => match f with
    | .append h' l' _ c _ _ => if h' = handle ∧ l' = layer then n + c else n
    | _ => n) 0
  sum x.q.dispatch + sum x.q.queue + sum (x.q.flights.map (·.order)) + fx x.o.pending +
    x.q.txns.foldl (fun n t => n + fx (t.held.flatMap (·.fx))) 0

/-- V_max of a batch entry at taking (R147). -/
def HideSt.vMax (x : HideSt) (h handle layer len : Nat) : Nat :=
  let lengths := match x.lay with | some e => e.lengths | none => false
  if lengths then len
  else (match AMap.find x.o.tab.seqs handle with | some q => (q.layer layer).point | none => 0) + x.unpublished h handle layer

/-- Words of the mask bitmap that are captured (R147, R185). -/
def maskWords (v q : Nat) : Nat := ceilDiv v 32 * q

/-- The ranges that a captured batch-table entry or options record names (R138): mask and global list. -/
def nestedRanges (vmax q : Nat) (e : List Byte) : List (Nat × Nat) :=
  (if bit (fieldAt e 13 1) 0 then [(fieldAt e 16 4, 4 * maskWords vmax q)] else []) ++
  (if fieldAt e 12 1 = 0 then [] else [(fieldAt e 20 4, 4 * fieldAt e 12 1)])

/-- Read one operand range into a captured segment; a range outside the area captures nothing. -/
def State.seg (s : State) (h : Nat) (r : Nat × Nat) : List Seg :=
  if (s.hide h).opndBytes < r.1 + r.2 ∨ r.2 = 0 then [] else [⟨r.1, s.readMem h (opndBase + r.1) r.2⟩]

/-- d_h of the latent up-projection current and READY when the order is taken (R140). -/
def Order.dhAt (x : HideSt) (o : Order) : Option Nat :=
  let (m, l, fl) := if o.opcode = 0x08 then (o.f 16 2, o.f 18 2, o.f 24 4) else (o.f 20 2, o.f 22 2, o.f 32 4)
  if (o.opcode = 0x08 ∨ o.opcode = 0x09) ∧ latentMode fl ≠ 0 then (x.o.tab.currentSet m l 1).map (fun w => w.2.vectors) else some 0

/-- Entries of the batch table, or the options record of a prefill or backward order. -/
def Order.tableRange (o : Order) : Option (Nat × Nat) :=
  if o.opcode = 0x08 then some (o.f 32 4, 32 * o.f 20 2)
  else if (o.opcode = 0x09 ∨ o.opcode = 0x0A) ∧ (bit (o.f 32 4) 4 || bit (o.f 32 4) 7) then some (o.f 44 4, 32)
  else none

/-- Capture an order's operands when it is taken. -/
def State.capture (s : State) (h : Nat) (o : Order) : Order :=
  let x := s.hide h
  if o.early.isSome then o
  else
    let dh := o.dhAt x
    let direct := (o.opRanges x x.o.tab dh).flatMap (fun r => s.seg h (r.off, r.len))
    let direct := if o.opcode = 0x0D ∧ bit (o.f 19 1) 0 ∧ o.f 60 4 = 0 then
        -- ROW_COUNT 0: the filter runs to the end of the table (R193)
        let rows := match AMap.find x.o.tab.sets (objIndex (o.f 24 6)) with
          | some w => w.vectors - o.f 56 4
          | none => 0
        direct ++ s.seg h (o.f 36 4, 4 * ceilDiv rows 32)
      else direct
    let nested := match o.tableRange with
      | none => []
      | some r => (s.seg h r).flatMap (fun t => (List.range (r.2 / 32)).flatMap (fun i =>
          let e := (t.bytes.drop (32 * i)).take 32
          let (v, q) := if o.opcode = 0x08 then (x.vMax h (fieldAt e 0 4) (o.f 18 2) (fieldAt e 4 4), o.f 22 1)
            else (o.f 24 4 + o.f 28 2, o.f 28 2)
          (nestedRanges v q e).flatMap (s.seg h)))
    let segs := direct ++ nested
    let lines := segs.flatMap (fun g => (List.range (g.bytes.length / 64 + 2)).map (fun i => (opndBase + g.off) / 64 * 64 + 64 * i))
    let poison := segs.any (fun g => x.a.poisonLines.any (fun l =>
      decide (l < opndBase + g.off + g.bytes.length) && decide (opndBase + g.off < l + 64) && lines.contains l))
    { o with
      segs := segs
      opPoison := poison
      dh := dh.getD 0
      bufs := (o.hostRanges x).filterMap x.a.bufFor }

/-- The captured bytes of an operand range; zero where nothing was captured. -/
def Order.operand (o : Order) (off len : Nat) : List Byte :=
  match o.segs.find? (fun g => decide (g.off ≤ off) && decide (off + len ≤ g.off + g.bytes.length)) with
  | some g => (g.bytes.drop (off - g.off)).take len
  | none => List.replicate len 0

/-! ### Ends at taking -/

/-- Change the open transaction of an id. -/
def QPart.upTxn (q : QPart) (id : Nat) (f : Txn → Txn) : QPart :=
  { q with txns := q.txns.map (fun t => if t.id == id then f t else t) }

/-- The chain of the device's present furlong and chain, for the order of posting. -/
def State.now (s : State) (c : Nat) : Nat := s.plan.furlong * 10 + c

/-- An order ends when it is taken: posted at once, or kept for its transaction (R262, R274). -/
def State.endTaken (s : State) (h : Nat) (o : Order) (status detail : Nat) (result : List Byte) : State :=
  let c : Completion := ⟨o, status, if o.txn.isSome then 2 else 0, detail, result, Ct.zero⟩
  match o.txn with
  | some t => s.upQ h (fun q => q.upTxn t (fun y => { y with done := y.done ++ [c], lastChain := max y.lastChain (s.plan.furlong * 10) }))
  | none => s.complete h [c]

/-! ### Checks 1 to 6 and the policer (R259, R337, R338) -/

/-- Is the hide admitted at all: a ream is active, LAYOUT contains the hide, and a confidential hide is in RUN. -/
def State.admits (s : State) (h : Nat) : Bool :=
  let x := s.hide h
  s.reamActive && x.lay.isSome && (!x.confidential || x.k.tsp == .run)

/-- The header check, step 2: opcode, FLAGS and bytes 14 and 15 (R12, R257, R260). -/
def headerFail (o : Order) : Option Nat :=
  firstFail [(!(knownOp o.opcode), 0), (decide (2 ≤ o.f 2 2), 2), spare o 14 2]

/-- Charge the buckets, or refuse (R338). A rate of zero disables its bucket (R337). -/
def QPart.police (q : QPart) (ordPol bytePol : U64) (charge : Nat) : Option QPart :=
  let ordOn := bits ordPol.toNat 0 24 ≠ 0
  let byteOn := bits bytePol.toNat 0 32 ≠ 0
  if (ordOn ∧ q.ordTokens < 256) ∨ (byteOn ∧ q.byteTokens < charge) then none
  else some { q with
    ordTokens := if ordOn then q.ordTokens - 256 else q.ordTokens
    byteTokens := if byteOn then q.byteTokens - charge else q.byteTokens }

/-- Is SECTION_GEN stale (R68). -/
def genFails (x : HideSt) (o : Order) : Bool :=
  o.f 12 2 != 0 && (match x.sec with | some s => s.gen != o.f 12 2 | none => true)

/-- Steps 1 to 6 of R259: the state after the policer, and the failure. -/
def State.checks (s : State) (h : Nat) (o : Order) : State × Option (Nat × Nat) :=
  match o.early with
  | some e => (s, some e)
  | none =>
    match headerFail o with
    | some k => (s, some (stFieldRange, detailAt k))
    | none =>
      if !(s.admits h) then (s, some (stNotAdmitted, 0))
      else
        let x := s.hide h
        let charge := o.charge x x.o.tab (o.dhAt x)
        let (ordPol, bytePol) := match x.sec with | some k => (k.tgOrdPol, k.tgBytePol) | none => (0, 0)
        let free := o.opcode == 0x20 || o.opcode == 0x21 || o.opcode == 0x22
        match (if free then some x.q else x.q.police ordPol bytePol charge) with
        | none =>
          (s.upC h (fun c => { c with policed := satInc c.policed, policedBytes := satAdd c.policedBytes charge }), some (stPoliced, 0))
        | some q =>
          let s := s.upQ h (fun _ => q)
          match fieldFail x o with
          | some k => (s, some (stFieldRange, detailAt k))
          | none =>
            if genFails x o then (s, some (stPlanMismatch, 0))
            else if o.opPoison then (s, some (stPoison, 0))
            else (s, none)

/-! ### Into the admission queue -/

/-- The flash extents that an order may read, as (layer, rod, extent): those of its layer's page lists for steps
(R161), the COW rod of an append (R129). -/
def Order.flashRods (x : HideSt) (h : Nat) (o : Order) : List (Nat × Nat × Nat) :=
  let l := o.layer
  let handles : List Nat := (o.objects h).map objIndex
  let pages (hd : Nat) : List Page := match AMap.find x.o.tab.seqs hd with | some q => (q.layer l).pages | none => []
  if o.opcode = 0x08 ∨ o.opcode = 0x09 ∨ o.opcode = 0x0A then
    (handles.flatMap (fun hd => (pages hd).zipIdx.filterMap (fun p =>
      if p.1.tier = 1 then some (l, p.2, p.1.loc) else none))).eraseDups
  else if o.opcode = 0x0B then
    match (handles.head?).bind (fun hd => (pages hd).getLast?) with
    | some p => if p.cow ∧ p.tier = 1 then [(l, 0, p.loc)] else []
    | none => []
  else []

/-- Start a DMA read of a host range for an order (R112, R291). -/
def State.dmaRead (s : State) (h order addr len : Nat) : State × Nat :=
  let id := (s.hide h).o.nextDma
  let s := s.upO h (fun o => { o with dmas := o.dmas.set id ⟨order, addr, len, [], none⟩, nextDma := id + 1 })
  (s.enqueue 8 h false ⟨16, .ioRead addr len id⟩, id)

/-- An order that passed steps 1 to 6 joins the admission queue; fetches and token reads are issued (R112, R129, R161). -/
def State.queueOrder (s : State) (h : Nat) (o : Order) : State :=
  let create := o.opcode == 0x05 && o.f 16 1 == 0
  let (s, o) := if o.opcode = 0x04 then
      let (s, id) := s.dmaRead h o.seq (o.f 32 8) (4 * o.f 28 4)
      (s, { o with tokens := some id })
    else if create then
      let (s, id) := s.dmaRead h o.seq (o.f 40 8) (4 * o.f 32 4)
      (s, { o with tokens := some id })
    else (s, o)
  let hashes := o.opcode == 0x04 || (o.opcode == 0x05 && o.f 16 1 != 2)
  let s := s.upHide h (fun x => { x with
    q := { x.q with queue := x.q.queue ++ [o] }
    o := if hashes then { x.o with lane := x.o.lane ++ [o.seq] } else x.o })
  (o.flashRods (s.hide h) h).foldl (fun s r => (s.fetch h o.seq r.1 r.2.1 r.2.2).1) s

/-- The open transaction of a ring. -/
def QPart.openTxn (q : QPart) (ring : Nat) : Option Txn :=
  match (q.orders.get OrderRing.reset ring).txn with
  | none => none
  | some id => q.txns.find? (fun t => t.id == id)

/-- One taken order that is no marker: membership (R274), checks, queue. -/
def State.dispatchOne (s : State) (h : Nat) (o : Order) : State :=
  let q := (s.hide h).q
  match q.openTxn o.ring with
  | some t =>
    let o := { o with txn := some t.id }
    let idx := t.members.length
    let s := s.upQ h (fun q => q.upTxn t.id (fun y => { y with members := y.members ++ [o.seq] }))
    if o.early.isNone && (!(memberOp o.opcode) || decide (64 ≤ idx)) then s.endTaken h o stFieldRange (detailAt 0) []
    else
      let (s, r) := s.checks h o
      match r with
      | some (st, d) => s.endTaken h o st d []
      | none =>
        let s := s.upQ h (fun q => q.upTxn t.id (fun y => { y with objects := (y.objects ++ o.objects h).eraseDups }))
        s.queueOrder h o
  | none =>
    let (s, r) := s.checks h o
    match r with
    | some (st, d) => s.endTaken h o st d []
    | none => s.queueOrder h o

/-- Does a ring skip orders after a transaction timeout (R278). -/
def QPart.skips (q : QPart) (ring : Nat) : Bool := (q.orders.get OrderRing.reset ring).skipping

def QPart.upRing (q : QPart) (n : Nat) (f : OrderRing → OrderRing) : QPart := { q with orders := amapUp OrderRing.reset q.orders n f }

/-- Is the order at the front one that its own command takes: a marker or DROP_REST whose opcode is trusted (R274). -/
def Order.marker (o : Order) : Bool := isMarker o.opcode && o.early.map (·.1) != some stPoison

/-- Dispatch taken orders until a marker or DROP_REST is in front, or none is left; `fuel` bounds the number. -/
def State.dispatch (s : State) (h : Nat) : Nat → State
  | 0 => s
  | fuel + 1 =>
    let q := (s.hide h).q
    match q.dispatch with
    | [] => s
    | o :: rest =>
      if q.skips o.ring && o.early.map (·.1) != some stPoison then
        let s := s.upQ h (fun q => { q with dispatch := rest })
        let s := if o.closes then s.upQ h (fun q => q.upRing o.ring (fun r => { r with skipping := false })) else s
        (s.endTaken h o stTimeout 0 []).dispatch h fuel
      else if o.marker then s
      else
        let s := s.upQ h (fun q => { q with dispatch := rest })
        (s.dispatchOne h o).dispatch h fuel

/-- Dispatch all that can be. -/
def State.dispatchAll (s : State) (h : Nat) : State := s.dispatch h ((s.hide h).q.dispatch.length)

/-! ### Taking (R255) -/

/-- Is a tag one of R257's for an order entry. -/
def tagOk (lw : Bool) (tag : Nat) : Bool := tag == 1 || (!lw && tag == 3)

/-- The order of a noticed entry at TAKEN + i (R254, R255, R258). -/
def OrderRing.order (r : OrderRing) (ring seq furlong i : Nat) (lw timeout : Bool) (n : Notice) : Order :=
  let e := r.taken + BitVec.ofNat 32 i
  let line := if n.poison then List.replicate 64 0 else n.data
  let early : Option (Nat × Nat) :=
    if timeout then some (stTimeout, 0)
    else if n.poison then some (stPoison, 0)
    else if !(tagOk lw (fieldAt n.data 1 1)) then some (stFieldRange, detailAt 1)
    else if fieldAt n.data 8 4 ≠ e.toNat then some (stFieldRange, detailAt 8)
    else none
  { seq := seq, ring := ring, index := e.toNat, line := line, early := early, segs := [], opPoison := false, dh := 0,
    txn := none, takenF := furlong, tokens := none, bufs := [], hashed := false }

/-- Take `n` entries from TAKEN of a ring: their orders, captured, join the dispatch list; TAKEN moves and is written to
the header. A slot yields no order. Positions that are not noticed are passed over (R255). -/
def State.takeEntries (s : State) (h ring n : Nat) (timeout : Bool) : State :=
  let x := s.hide h
  let lw := x.lengthWord
  let r := x.q.orders.get OrderRing.reset ring
  let s := (List.range n).foldl (fun s i =>
    match r.at i with
    | none => s
    | some t =>
      if lw && i == 0 && (t.slot r.taken).isSome then s
      else
        let o := r.order ring (s.hide h).q.nextSeq s.plan.furlong i lw timeout t
        let bad := match o.early with | some (_, d) => d == detailAt 8 | none => false
        let o := s.capture h o
        let s := s.upC h (fun c => { c with telIn := satAdd c.telIn (o.segs.foldl (fun n g => n + g.bytes.length) 0) })
        s.upQ h (fun q => { (if bad then q.upRing ring (fun r => { r with err := r.err ||| 4 }) else q) with
          dispatch := q.dispatch ++ [o], nextSeq := q.nextSeq + 1 })) s
  let taken := r.taken + BitVec.ofNat 32 n
  let s := s.upQ h (fun q => q.upRing ring (fun y => { y with
    taken := taken
    notices := y.notices.filter (fun p => !((List.range n).any (fun i => (r.taken.toNat + i) % ctlEntries r.ctl == p.1)))
    err := if timeout then y.err ||| 8 else y.err }))
  s.writeMem h r.base.toNat (leBytes 4 taken.toNat)

/-- The notice time of the last entry of a complete packet. -/
def OrderRing.packetTime (r : OrderRing) (lw : Bool) : Option (Nat × Nat) :=
  match r.packet lw with
  | none => none
  | some n => some (n, (List.range n).foldl (fun m i => match r.at i with | some t => max m t.cycle | none => m) 0)

/-- The ring whose packet is taken next: the earliest last notice, ties to the lower ring (R255). -/
def HideSt.nextPacket (x : HideSt) : Option (Nat × Nat) :=
  ((List.range 8).filterMap (fun n =>
    let r := x.q.orders.get OrderRing.reset n
    if r.ready then (r.packetTime x.lengthWord).map (fun p => (n, p.1, p.2)) else none)).foldl
    (fun (best : Option (Nat × Nat × Nat)) c => match best with
      | none => some c
      | some b => if c.2.2 < b.2.2 then some c else some b) none |>.map (fun b => (b.1, b.2.1))

/-- PACKET_TAKE: take the next complete packet of the hide (R255). -/
def takePacket (h : Nat) (s : State) : State :=
  let x := s.hide h
  if x.q.noIntake then s
  else match x.nextPacket with
    | none => s
    | some (ring, n) => (s.takeEntries h ring n false).dispatchAll h

def execPacketTake (h : Hide) (s : State) : Host.Outcome State Fault Refusal := .next (takePacket h s)

/-- PACKET_TIMEOUT: the packet at TAKEN of a ring is not complete in time; its noticed entries are taken (R255). A
packet that has become complete is not timed out (R272). -/
def packetTimeout (h ring : Nat) (s : State) : State :=
  let x := s.hide h
  let r := x.q.orders.get OrderRing.reset ring
  let reach := r.reach x.lengthWord
  let seen := (List.range reach).filter (fun i => (r.at i).isSome)
  match seen.getLast? with
  | none => s
  | some last =>
    if !r.ready || x.q.noIntake || (r.packet x.lengthWord).isSome then s
    else (s.takeEntries h ring (last + 1) true).dispatchAll h

def execPacketTimeout (h : Hide) (ring : Fin 8) (s : State) : Host.Outcome State Fault Refusal :=
  .next (packetTimeout h ring s)

/-- HELD_POST_TIMEOUT: events held for 1 ms for an event ring that is not READY are discarded and counted (R252). -/
def heldPostTimeout (h : Nat) (s : State) : State :=
  s.upQ h (fun q => match q.held with
    | [] => q
    | es :: t => { q with held := t, events := { q.events with lost := satAdd q.events.lost es.length } })

def execHeldPostTimeout (h : Hide) (s : State) : Host.Outcome State Fault Refusal := .next (heldPostTimeout h s)

/-! ### Enabling and disabling rings (R250, R252) -/

/-- The address ranges of a hide's enabled rings, but one: (kind, number, low, high). -/
def QPart.ranges (q : QPart) : List (RingKind × Nat × Nat × Nat) :=
  (q.orders.filter (fun r => ctlEn r.2.ctl)).map (fun r => (.order, r.1, r.2.base.toNat, r.2.base.toNat + ringSpan r.2.ctl 64)) ++
  (q.comps.filter (fun r => ctlEn r.2.ctl)).map (fun r => (.completion, r.1, r.2.base.toNat, r.2.base.toNat + ringSpan r.2.ctl 32)) ++
  (if ctlEn q.events.ctl then [(.event, 0, q.events.base.toNat, q.events.base.toNat + ringSpan q.events.ctl 32)] else [])

/-- Does a configuration pass the checks of R252: the size, the ring area and overlap (R250). -/
def HideSt.ringOk (x : HideSt) (kind : RingKind) (n : Nat) (base : U64) (ctl : U32) : Bool :=
  let size := if kind = .order then 64 else 32
  let most := if kind = .event then 6 else 10
  let area := match x.lay with | some e => e.ringMib * 2 ^ 20 | none => 0
  let lo := base.toNat
  let hi := base.toNat + ringSpan ctl size
  decide (bits ctl.toNat 1 4 ≤ most) && lo % 4096 == 0 && decide (hi ≤ area) &&
    x.q.ranges.all (fun r => (r.1 == kind && r.2.1 == n) || decide (hi ≤ r.2.2.1) || decide (r.2.2.2 ≤ lo))

/-- The writable bits of a ring's CTL. -/
def ctlMask (ctl : U32) : U32 := ctl &&& 0x1F

/-- Zero the header and every entry (R252 step 2). -/
def State.zeroRing (s : State) (h : Nat) (base : U64) (span : Nat) : State :=
  { s with imem := Memory.zero s.imem (imemBase h base.toNat) (imemBase h (base.toNat + span)) }

/-- A ring refuses a configuration write: ERR.CFG_ERR (R252). -/
def State.ringErr (s : State) (h : Nat) (kind : RingKind) (n : Nat) : State :=
  match kind with
  | .order => s.upQ h (fun q => q.upRing n (fun r => { r with err := r.err ||| 1 }))
  | .completion => s.upQ h (fun q => { q with comps := amapUp OutRing.reset q.comps n (fun r => { r with err := r.err ||| 1 }) })
  | .event => s.upQ h (fun q => { q with events := { q.events with err := q.events.err ||| 1 } })

/-- RING_ENABLE: CTL with EN set is written to a ring whose EN is clear (R252). Under a hide reset it is refused (R369);
without a ream, or for a hide that LAYOUT does not contain, the check of the ring area fails (R281). -/
def ringEnable (h : Nat) (kind : RingKind) (n : Nat) (ctl : U32) (s : State) : State :=
  let x := s.hide h
  let ctl := ctlMask ctl
  if !(ctlEn ctl) then s
  else if x.resetting then s.ringErr h kind n
  else
    match kind with
    | .order =>
      let r := x.q.orders.get OrderRing.reset n
      if ctlEn r.ctl then
        if ctl = r.ctl then s else s.ringErr h kind n
      else if s.reamActive && x.ringOk kind n r.base ctl then
        let s := s.upQ h (fun q => q.upRing n (fun r => { r with ctl := ctl, ready := true, taken := 0, notices := [] }))
        s.zeroRing h r.base (ringSpan ctl 64)
      else s.upQ h (fun q => q.upRing n (fun r => { r with ctl := ctl &&& 0x1E, err := r.err ||| 1 }))
    | .completion =>
      let r := x.q.comps.get OutRing.reset n
      if ctlEn r.ctl then
        if ctl = r.ctl then s else s.ringErr h kind n
      else if s.reamActive && x.ringOk kind n r.base ctl then
        let s := s.upQ h (fun q => { q with comps := amapUp OutRing.reset q.comps n (fun r => { r with
          ctl := ctl, ready := true, prod := 0, oldest := 0, cons := 0, lostHdr := 0, pkts := [] }) })
        s.zeroRing h r.base (ringSpan ctl 32)
      else s.upQ h (fun q => { q with comps := amapUp OutRing.reset q.comps n (fun r => { r with ctl := ctl &&& 0x1E, err := r.err ||| 1 }) })
    | .event =>
      let r := x.q.events
      if ctlEn r.ctl then
        if ctl = r.ctl then s else s.ringErr h kind n
      else if s.reamActive && x.ringOk kind n r.base ctl then
        let held := x.q.held
        let s := s.upQ h (fun q => { q with
          events := { q.events with ctl := ctl, ready := true, prod := 0, oldest := 0, cons := 0, lostHdr := 0, pkts := [] }
          held := [] })
        let s := s.zeroRing h r.base (ringSpan ctl 32)
        held.foldl (fun s es => s.postEvent h es) s
      else s.upQ h (fun q => { q with events := { q.events with ctl := ctl &&& 0x1E, err := q.events.err ||| 1 } })

def execRingEnable (h : Hide) (kind : RingKind) (n : Fin 8) (ctl : U32) (s : State) : Host.Outcome State Fault Refusal :=
  .next (ringEnable h kind n ctl s)

/-- RING_DISABLE: CTL with EN clear is written to a ring. Intake stops at once; orders taken run on. A SIZE that differs
from the one in force is ignored and sets CFG_ERR (R252). -/
def ringDisable (h : Nat) (kind : RingKind) (n : Nat) (ctl : U32) (s : State) : State :=
  let ctl := ctlMask ctl &&& 0x1E
  -- (CTL after, ERR after) of a ring that holds `old`
  let after (old err : U32) : U32 × U32 :=
    if ctlEn old then (old &&& 0x1E, if ctl = old &&& 0x1E then err else err ||| 1) else (ctl, err)
  let out (r : OutRing) : OutRing := let (c, e) := after r.ctl r.err; { r with ctl := c, err := e, ready := false }
  if (s.hide h).resetting then s
  else match kind with
  | .order => s.upQ h (fun q => q.upRing n (fun r => let (c, e) := after r.ctl r.err; { r with ctl := c, err := e, ready := false, notices := [] }))
  | .completion => s.upQ h (fun q => { q with comps := amapUp OutRing.reset q.comps n out })
  | .event => s.upQ h (fun q => { q with events := out q.events })

def execRingDisable (h : Hide) (kind : RingKind) (n : Fin 8) (ctl : U32) (s : State) : Host.Outcome State Fault Refusal :=
  .next (ringDisable h kind n ctl s)

/-! ### Pointer mismatch (R271) -/

/-- A completion or event ring after a pointer reset. -/
def OutRing.faulted (r : OutRing) : OutRing × Nat :=
  let gone := r.unread
  ({ r with prod := r.read, oldest := r.read, pkts := [], lost := satAdd r.lost gone, lostHdr := satAdd r.lostHdr gone,
            err := r.err ||| 2 }, gone)

/-- Clear every entry's tag of an output ring. -/
def State.clearTags (s : State) (h : Nat) (r : OutRing) : State :=
  (List.range (ctlEntries r.ctl)).foldl (fun s i => s.writeMem h (r.base.toNat + 256 + 32 * i + 1) [0]) s

/-- The QUEUE_FAULT event (R267). -/
def queueFault (kind ring index gone furlong : Nat) : List Byte :=
  eventEntry evQueueFault furlong (leBytes 1 kind ++ leBytes 1 ring ++ leBytes 2 0 ++ leBytes 4 index ++ leBytes 4 gone)

/-- QUEUE_POINTER_MISMATCH: the queue alone is reset; the reset is logged and posted (R271). -/
def queuePointerMismatch (h : Nat) (kind : RingKind) (n : Nat) (s : State) : State :=
  let x := s.hide h
  let log (s : State) (k i : Nat) : State := s.record recFault (agent 5) 0xFF [9, h, k, n, i]
  match kind with
  | .order =>
    let r := x.q.orders.get OrderRing.reset n
    let s := s.upQ h (fun q => q.upRing n (fun r => { r with ctl := r.ctl &&& 0x1E, ready := false, notices := [], err := r.err ||| 2 }))
    (log s 0 r.taken.toNat).postEvent h [queueFault 0 n r.taken.toNat r.notices.length s.plan.furlong]
  | .completion =>
    let r := x.q.comps.get OutRing.reset n
    let (r', gone) := r.faulted
    let s := s.upQ h (fun q => { q with comps := q.comps.set n r' })
    (log (s.clearTags h r) 1 r.prod.toNat).postEvent h [queueFault 1 n r.prod.toNat gone s.plan.furlong]
  | .event =>
    let r := x.q.events
    let (r', gone) := r.faulted
    let s := s.upQ h (fun q => { q with events := r' })
    (log (s.clearTags h r) 2 r.prod.toNat).postEvent h [queueFault 2 0 r.prod.toNat gone s.plan.furlong]

def execQueuePointerMismatch (h : Hide) (kind : RingKind) (n : Fin 8) (s : State) : Host.Outcome State Fault Refusal :=
  .next (queuePointerMismatch h kind n s)

end Sys2Proof.Machine
end

