-- ==== Sys2Proof/Machine/Admit.lean ====
section
/-!
DEFINITION. Admission of a queued order at a chain boundary: the waits (R99, R121, R144, R163, R178, R184, R192, R261),
slots and capacities (R53, R65, R68, R446), and the record of an admitted order until it completes (R93, R262, R275).
-/

namespace Sys2Proof.Machine
open Sys2Proof

/-! ### Picking the order -/

/-- The first queued order of a class. -/
def QPart.front (q : QPart) (cls : SlotClass) : Option Order := q.queue.find? (fun o => classOf o.opcode == some cls)

/-- Orders that have been taken and have not completed, those still in the dispatch list apart. -/
def QPart.live (q : QPart) : List Order := q.queue ++ q.flights.map (·.order) ++ q.txns.flatMap (fun t => t.held.map (·.order))

/-- Are a flight's writes complete before the boundary `now`: its planned work is over and every unit is clean (R347). -/
def Flight.wrote (f : Flight) (now : Nat) : Bool := f.ended && f.suspects.isEmpty && decide (f.endChain < now)

/-! ### Waits -/

/-- The sequence that a sequence order names at offset 16 or, for PUBLISH_PREFIX, at offset 20. -/
def Order.handle (o : Order) : Nat := if o.opcode = 0x05 then o.f 20 4 else o.f 16 4

/-- R261: every earlier queued order that names a common object has been admitted, and with FENCE every earlier order of
the ring has completed. -/
def ordered (h : Nat) (q : QPart) (o : Order) : Bool :=
  q.queue.all (fun p => decide (o.seq ≤ p.seq) || !(shareObject h p o)) &&
  (!(bit (o.f 2 2) 0) || (q.queue ++ q.flights.map (·.order)).all (fun p => decide (o.seq ≤ p.seq) || p.ring != o.ring))

/-- No earlier live order of the given opcodes names a common object. -/
def clearOf (h : Nat) (q : QPart) (o : Order) (ops : List Nat) : Bool :=
  q.live.all (fun p => decide (o.seq ≤ p.seq) || !(ops.contains p.opcode) || !(shareObject h p o))

/-- Every earlier append on a sequence and layer that a step or append names has completed its writes (R144, R178, R184). -/
def appendsWritten (h now : Nat) (q : QPart) (o : Order) : Bool :=
  (o.objects h).all (fun id =>
    q.flights.all (fun f => decide (o.seq ≤ f.order.seq) || !(f.order.appendsTo h (objIndex id) o.layer) || f.wrote now) &&
    q.queue.all (fun p => decide (o.seq ≤ p.seq) || !(p.appendsTo h (objIndex id) o.layer)))

/-- No other uncommitted transaction holds an append on the sequence and layer (R178). -/
def noHeldAppend (h : Nat) (q : QPart) (o : Order) : Bool :=
  let hit (p : Order) : Bool := p.txn != o.txn && p.txn.isSome && p.appendsTo h o.handle o.layer && decide (p.seq < o.seq)
  q.flights.all (fun f => !(hit f.order)) && q.queue.all (fun p => !(hit p)) &&
  q.txns.all (fun t => (match t.decision with | some d => d.commits | none => false) || t.held.all (fun f => !(hit f.order)))

/-- Is the last fetch of a COW rod for an append in (R129). -/
def OPart.fetchesIn (o : OPart) (seq : Nat) : Bool := o.fetches.all (fun f => f.2.order != seq || f.2.arrived)

/-- The waits that an order's definition adds. -/
def waitsOver (h now : Nat) (x : HideSt) (o : Order) : Bool :=
  let q := x.q
  let swap := q.flights.all (fun f => decide (o.seq ≤ f.order.seq) || f.order.opcode != 0x11 || !(shareObject h f.order o))
  let own : Bool :=
    match o.opcode with
    | 0x04 => o.hashed
    | 0x05 => (o.f 16 1 == 2 || o.hashed) && (o.f 16 1 != 0 || clearOf h q o [0x10, 0x11])
    | 0x08 => appendsWritten h now q o
    | 0x09 => appendsWritten h now q o
    | 0x0A => appendsWritten h now q o
    | 0x0B => appendsWritten h now q o && noHeldAppend h q o && x.o.fetchesIn o.seq
    | 0x0C => q.flights.all (fun f => f.order.opcode != 0x0C || f.order.handle != o.handle || f.order.layer != o.layer) &&
        q.txns.all (fun t => some t.id == o.txn || t.held.all (fun f =>
          f.order.opcode != 0x0C || f.order.handle != o.handle || f.order.layer != o.layer))
    | 0x10 => clearOf h q o [0x05] && x.o.recodes.isEmpty
    | 0x11 => q.live.all (fun p => decide (o.seq ≤ p.seq) || !(shareObject h p o)) && x.o.recodes.isEmpty
    | 0x12 => x.o.recodes.isEmpty
    | 0x14 => x.o.recodes.isEmpty
    | 0x18 => x.o.recodes.isEmpty
    | 0x1A => x.o.recodes.isEmpty
    | _ => true
  swap && own

/-- A deferred entry of an earlier furlong goes ahead of the orders of its class (R163). -/
def noReentry (x : HideSt) (furlong : Nat) (cls : SlotClass) : Bool :=
  x.q.flights.all (fun f => classOf f.order.opcode != some cls || f.ended || f.phase != 1 ||
    f.deferred.all (fun d => !d.waiting || decide (furlong ≤ d.since)))

/-! ### Target regions (R65, R446) -/

/-- Union of two masks. -/
def orMask (a b : Nat) : Nat := a ||| b
def orAll (l : List Nat) : Nat := l.foldl orMask 0

/-- The regions that hold the rods of a page list. -/
def HideSt.pageRegions (x : HideSt) (ps : List Page) : Nat :=
  orAll (ps.map (fun p => if p.tier = 0 then x.frameRegions p.loc else 0))

def HideSt.weightRegions (x : HideSt) : Nat := match x.lay with | some e => regionsOf e.weightStripe | none => 0
def HideSt.seqTable (x : HideSt) : Nat := match x.lay with | some e => e.seqRegions | none => 0
def HideSt.pfxTable (x : HideSt) : Nat := match x.lay with | some e => e.pfxRegions | none => 0
def HideSt.share (x : HideSt) : Nat := match x.lay with | some e => e.regions | none => 0

/-- The target regions of an order: those of the objects it addresses, or of the structures it reads (R446). -/
def HideSt.targets (x : HideSt) (h : Nat) (o : Order) : Nat :=
  let t := x.o.tab
  let seqs := (o.objects h).filterMap (fun id => if objKind id = 2 then AMap.find t.seqs (objIndex id) else none)
  let layerPages := orAll (seqs.map (fun q => x.pageRegions (q.layer o.layer).pages))
  let pools := orAll (seqs.map (fun q => x.poolRegions q.pool))
  let allPages := orAll (seqs.flatMap (fun q => q.layers.map (fun l => x.pageRegions l.2.pages)))
  match o.opcode with
  | 0x01 => orMask x.seqTable (if bit (o.f 23 1) 0 then pools else x.poolRegions (o.f 22 1))
  | 0x02 => x.seqTable
  | 0x03 => orMask x.seqTable x.pfxTable
  | 0x04 => orMask x.pfxTable (if bit (o.f 17 1) 0 then x.seqTable else 0)
  | 0x05 => orMask x.pfxTable (if o.f 16 1 = 0 then x.seqTable else 0)
  | 0x08 => layerPages
  | 0x09 => layerPages
  | 0x0A => layerPages
  | 0x0B => orMask (orMask layerPages pools) (if bit (o.f 32 2) 0 then 0 else x.weightRegions)
  | 0x0C => orAll (seqs.flatMap (fun q => q.states.flatMap (fun s => if s.1 = o.layer then s.2.frames.map x.frameRegions else [])))
  | 0x0D => if o.f 16 1 = 0 then x.weightRegions else x.seqTable
  | 0x10 => orMask allPages pools
  | 0x11 => orMask allPages pools
  | 0x12 => pools
  | 0x13 => x.seqTable
  | 0x14 => allPages
  | 0x18 => x.share
  | 0x19 => x.seqTable
  | 0x1A => x.weightRegions
  | _ => 0

/-! ### Demand (R53, R129, R174, R184, R187, R190, R193, R239) -/

/-- 4 KiB units of some bytes. -/
def units4k (n : Nat) : Nat := ceilDiv n 4096

/-- The demand of an order in the unit of its class. -/
def HideSt.demand (x : HideSt) (o : Order) : Nat :=
  let t := x.o.tab
  let seqOf (id : Nat) : Option (Seq × Desc) := match AMap.find t.seqs (objIndex id) with
    | some q => (x.desc q.modelId).map (fun d => (q, d))
    | none => none
  let rods (id : Nat) : Nat := match seqOf id with
    | some (q, d) => units4k d.rodBytes * q.layers.foldl (fun n l => n + l.2.pages.length) 0
    | none => 1
  match o.opcode with
  | 0x08 => o.f 20 2
  | 0x09 => o.f 28 2
  | 0x0A => o.f 28 2
  | 0x0B =>
    let cow := match AMap.find t.seqs (o.f 16 4) with
      | some q => (match (q.layer o.layer).pages.getLast? with | some p => if p.cow then p.fill else 0 | none => 0)
      | none => 0
    o.f 28 4 + cow
  | 0x0C => o.f 24 2 * o.f 26 1
  | 0x0D => o.f 22 2
  | 0x10 => if objKind (o.f 16 6) = 2 then
      (match seqOf (o.f 16 6) with | some (_, d) => o.f 26 2 * o.f 32 4 * units4k d.rodBytes | none => 1) else 1
  | 0x11 => rods (o.f 16 4)
  | 0x12 => rods (o.f 16 4)
  | 0x14 => units4k (o.f 48 8)
  | 0x18 => units4k (o.f 40 8) + (maskList 64 x.share).length * 64
  | 0x1A => units4k (o.f 48 8)
  | _ => 1

/-! ### Slots -/

/-- Capacity used in the present furlong; a new furlong starts with none used. -/
def HideSt.usedNow (x : HideSt) (furlong : Nat) : AMap Nat := if x.q.usedF = furlong then x.q.used else []

/-- The key of a slot's units. -/
def slotKey (i : Nat) : Nat := i * 65536

/-- What an order takes of a slot: keys and amounts, or none when it does not fit. -/
abbrev Fit := AMap Nat → Nat → Slot → Option (List (Nat × Nat))

/-- A demand in units of the class. -/
def plainFit (demand : Nat) : Fit := fun used i sl =>
  if AMap.get 0 used (slotKey i) + demand ≤ sl.cap then some [(slotKey i, demand)] else none

/-- The slots of a class that start at a chain and cover the target regions, the first that covers each. -/
def HideSt.cover (x : HideSt) (cls : SlotClass) (c target : Nat) : Option (List (Nat × Slot)) :=
  let cands := (x.slots.zipIdx.map (fun p => (p.2, p.1))).filter (fun p => p.2.cls == cls && p.2.start == c)
  let regs := maskList 64 target
  if regs.isEmpty then (match cands with | [] => none | p :: _ => some [p])
  else
    let per := regs.map (fun r => cands.find? (fun p => bit p.2.regions r))
    if per.any Option.isNone then none else some (per.filterMap id).eraseDups

/-- What an admission takes of the slots. -/
structure Grant where
  uses : List (Nat × Nat)
  len : Nat
  target : Nat

/-- R65: the grant of an order at a chain boundary. -/
def HideSt.grant (x : HideSt) (furlong c : Nat) (cls : SlotClass) (target : Nat) (fit : Fit) : Option Grant :=
  match x.cover cls c target with
  | none => none
  | some sl =>
    let used := x.usedNow furlong
    let per := sl.map (fun p => fit used p.1 p.2)
    if per.any Option.isNone then none
    else some ⟨(per.filterMap id).flatten, sl.foldl (fun m p => max m p.2.len) 1, target⟩

/-- Step 7 of R259: no slot of the class, a target outside the share, or a demand that no slot of the class can hold
(R68). -/
def HideSt.mismatch (x : HideSt) (cls : SlotClass) (target : Nat) (fit : Fit) : Bool :=
  let cands := (x.slots.zipIdx.map (fun p => (p.2, p.1))).filter (fun p => p.2.cls == cls)
  cands.isEmpty || (maskList 64 target).any (fun r => !(bit x.share r)) || cands.all (fun p => (fit [] p.1 p.2).isNone)

/-- Take the grant's amounts. -/
def QPart.use (q : QPart) (furlong : Nat) (uses : List (Nat × Nat)) : QPart :=
  let used := if q.usedF = furlong then q.used else []
  { q with usedF := furlong, used := uses.foldl (fun m u => m.set u.1 (AMap.get 0 m u.1 + u.2)) used }

/-! ### Flights -/

/-- The record of an order admitted at chain `c` of the present furlong. -/
def State.newFlight (s : State) (h c : Nat) (o : Order) (len target : Nat) : Flight :=
  { order := o, gen := (s.hide h).o.tab.gen, admitF := s.plan.furlong, admitC := c, endChain := s.now c + len - 1,
    ended := false, status := stOk, detail := 0, result := [], fx := [], jobs := [], dmas := [], fetches := [],
    view := Tab.empty, phase := 0, copies := [], deferred := [], delivery := none, tookFrames := [], tookExts := [], tally := (0, 0, 0, 0), firstFail := none,
    outs := [], suspects := [], replayed := false, regions := target, queued := [], ct := { Ct.zero with admitted := 1 } }

/-- A flight that ends with a status, before any effect. -/
def Flight.fail (f : Flight) (status : Nat) (detail : Nat := 0) : Flight :=
  { f with ended := true, status := status, detail := detail }
/-- A flight whose work is done. -/
def Flight.finish (f : Flight) (result : List Byte) (fx : List Fx) : Flight :=
  { f with ended := true, result := result, fx := fx }

/-- Has the flight nothing left to do. -/
def Flight.settled (f : Flight) : Bool := f.ended && f.suspects.isEmpty

/-- Keep a flight: a member that has settled goes to its transaction (R275, R276), any other waits for its lap chain. -/
def State.keep (s : State) (h : Nat) (f : Flight) : State :=
  match f.order.txn with
  | some t =>
    if f.settled then
      s.upQ h (fun q => q.upTxn t (fun y => { y with held := y.held ++ [f], lastChain := max y.lastChain (max f.endChain (s.plan.furlong * 10)) }))
    else s.upQ h (fun q => { q with flights := q.flights ++ [f] })
  | none => s.upQ h (fun q => { q with flights := q.flights ++ [f] })

/-- Take a flight out, by taking number. -/
def State.dropFlight (s : State) (h seq : Nat) : State :=
  s.upQ h (fun q => { q with flights := q.flights.filter (fun f => f.order.seq != seq) })

/-- Replace a flight, keeping its place; a settled member moves to its transaction. -/
def State.putFlight (s : State) (h : Nat) (f : Flight) : State :=
  if f.settled && f.order.txn.isSome then (s.dropFlight h f.order.seq).keep h f
  else s.upQ h (fun q => { q with flights := q.flights.map (fun g => if g.order.seq == f.order.seq then f else g) })

/-- What a failed or aborted order gives back: frames to the free or reserved count, extents, reservations (R97, R183,
R277). -/
def State.giveBack (s : State) (h : Nat) (f : Flight) : State :=
  let all := (s.hide h).allView
  let s := s.upO h (fun o => o.undo all f)
  f.tookExts.foldl (fun s e => s.freeExtentNow h e) s

/-! ### One admission -/

/-- Does the hide admit at all (R31, R59, R62, R65, R369). -/
def State.admitting (s : State) (h : Nat) : Bool :=
  let x := s.hide h
  s.reamActive && x.lay.isSome && !x.q.noAdmit && !x.resetting && !s.plan.stopped

/-- Is a target region in its maintenance furlong (R71). -/
def State.inMaintenance (s : State) (target : Nat) : Bool := (maskList 64 target).any (fun r => (s.region r).maint)

/-- META admissions in which a long lookup still has to take its order of capacity (R125). -/
def HideSt.lookupReserve (x : HideSt) (now : Nat) (cls : SlotClass) : Nat :=
  if cls = .metaOrder then (x.o.lookups.filter (fun l => decide (l.last ≠ now))).length else 0

/-- Keep room in every slot for an amount. -/
def Fit.leaving (fit : Fit) (n : Nat) : Fit := fun used i sl => fit used i { sl with cap := sl.cap - n }

/-- Admit the first queued order of a class at chain `c`, when it is the order that the row stands for (R65); `eff` is
its work from step 8 of R259 on. -/
def State.admitFirst (s : State) (h c : Nat) (cls : SlotClass) (is : Order → Bool) (fit : HideSt → Order → Fit)
    (eff : State → Order → Flight → State) : State :=
  let x := s.hide h
  match x.q.front cls with
  | none => s
  | some o =>
    if !(is o) || !(s.admitting h) || !(ordered h x.q o) || !(waitsOver h (s.now c) x o) || !(noReentry x s.plan.furlong cls) then s
    else
      let target := x.targets h o
      let left (s : State) : State := s.upQ h (fun q => { q with queue := q.queue.filter (fun p => p.seq != o.seq) })
      if x.mismatch cls target (fit x o) then
        let f := s.newFlight h c o 1 target
        let s := (left s).dropFetches h o.seq
        s.keep h { f.fail stPlanMismatch with ct := Ct.zero }
      else if s.inMaintenance target then s
      else
        match x.grant s.plan.furlong c cls target ((fit x o).leaving (x.lookupReserve (s.now c) cls)) with
        | none => s
        | some g =>
          let f := s.newFlight h c o g.len g.target
          let s := (left s).upHide h (fun x => { x with
            q := x.q.use s.plan.furlong g.uses
            c := { x.c with telAdmitted := satInc x.c.telAdmitted } })
          eff s o f

/-- The fit of an order by its plain demand. -/
def demandFit (x : HideSt) (o : Order) : Fit := plainFit (x.demand o)

/-! ### Checks that orders share -/

/-- An object ID of the wrong hide or kind (R75). -/
def wrongId (h id kind : Nat) : Bool := objHide id != h || objKind id != kind

/-- A sequence that must be ACTIVE, in the order's view and with everything admitted before: the failure, or the record
(R85). -/
def HideSt.activeSeq (_x : HideSt) (t : Tab) (handle : Nat) : Nat ⊕ Seq :=
  match AMap.find t.seqs handle with
  | none => .inl stBadObject
  | some q => if q.st == .active then .inr q else .inl stNoPage

/-- Published tables with every ended change outside other transactions: what an order that changes a sequence's state
meets (R85). -/
def HideSt.nowView (x : HideSt) (o : Order) : Tab :=
  x.applyAll x.o.tab (x.o.pending ++
    x.q.flights.flatMap (fun f => if f.order.txn.isNone || f.order.txn == o.txn then f.fx else []) ++ x.q.heldFx o.txn o.seq)

/-- Is the sequence ACTIVE with every admitted change counted, but for those of other transactions (R85, R275). -/
def HideSt.stillActive (x : HideSt) (o : Order) (handle : Nat) : Bool :=
  match AMap.find (x.nowView o).seqs handle with | some q => q.st == .active | none => false

/-- Does the handle belong to no sequence in any state, held effects of other transactions left aside (R84, R85, R275). -/
def HideSt.handleFree (x : HideSt) (o : Order) (handle : Nat) : Bool := (AMap.find (x.nowView o).seqs handle).isNone

/-- A SWAP_IN of the sequence is under way or waits for its publication: the sequence is RESTORING (R85). -/
def HideSt.restoring (x : HideSt) (handle : Nat) : Bool :=
  x.q.flights.any (fun f => f.order.opcode == 0x12 && f.order.handle == handle && (!f.ended || decide (f.status < 0x10)))

/-- Poisoned metadata of a sequence: its record, or a page list (R345). -/
def HideSt.seqPoison (x : HideSt) (handle layer : Nat) : Bool :=
  x.o.metas.contains (.seqRecord handle) || x.o.metas.contains (.pageList handle layer)

end Sys2Proof.Machine
end

