-- ==== Sys2Proof/Machine/Faults.lean ====
section
/-!
DEFINITION. Hardware that fails (R31, R353, R354): the counts per resource, and the triggers that reach the plan
controller (R69). A FAULT record's body holds the row of R340's table, the resource, a count and an address (R362).
-/

namespace Sys2Proof.Machine
open Sys2Proof

/-- Furlongs since device reset. -/
def State.abs (s : State) : Nat := s.plan.base + s.plan.furlong

/-- Events of the last 2^24 furlongs (R353). -/
def recent {α : Type} (now : Nat) (at_ : α → Nat) (l : List α) : List α := l.filter (fun e => decide (now < at_ e + 2 ^ 24))

/-- A trigger reaches the plan controller (R69). -/
def State.trigger (s : State) (w : Switch) : State :=
  if s.plan.triggers.contains w then s else { s with plan := { s.plan with triggers := s.plan.triggers ++ [w] } }

/-- The physical unit of a logical slot (R17, R356): slot i is unit i until it is mapped elsewhere. -/
def ClusterSt.unit (k : ClusterSt) (slot : Nat) : Nat := (AMap.find k.map slot).getD slot
/-- The logical slots of a cluster that a physical unit serves. -/
def ClusterSt.slotsOf (k : ClusterSt) (phys : Nat) : List Nat := (List.range 76).filter (fun i => k.unit i == phys)
/-- Spare count: healthy units less 76 (R354). -/
def ClusterSt.spares (k : ClusterSt) : Nat := 80 - k.failed.length - 76

/-- A physical unit is failed (R353): its slot is remapped at the next furlong boundary (R354). -/
def State.failUnit (s : State) (c phys : Nat) : State :=
  let k := s.cluster c
  if k.failed.contains phys then s
  else
    let slots := k.slotsOf phys
    let s := s.upCluster c (fun k => { k with
      failed := k.failed ++ [phys]
      heldOut := if k.heldOut = some phys then none else k.heldOut
      remap := k.remap ++ slots })
    let s := s.record recFault (agent 3) (c / 64) [3, c, phys, 1, 0]
    if slots.isEmpty then s else s.trigger (.remap c)

/-- A region is treated as failed (R31, R32, R353). -/
def State.failRegion (s : State) (r check : Nat) : State :=
  if (s.region r).failed then s
  else
    let s := s.upRegion r (fun x => { x with failed := true })
    (s.record recFault (agent 1) r [check, r, 1, 0]).trigger (.region r)

/-- The shared resources of a cluster have failed: the cluster is switched out (R353, R72). -/
def State.failShared (s : State) (c : Nat) : State :=
  if (s.cluster c).sharedFailed then s
  else
    let s := s.upCluster c (fun k => { k with sharedFailed := true })
    (s.record recFault (agent 3) (c / 64) [3, c, 3, 0]).trigger (.cluster c)

/-- A suspect or uncorrectable event on a cluster-shared resource: the third in the window fails it (R353). -/
def State.sharedEvent (s : State) (c : Nat) : State :=
  let ev := recent s.abs id ((s.cluster c).sharedEvents ++ [s.abs])
  let s := s.upCluster c (fun k => { k with sharedEvents := ev })
  if 3 ≤ ev.length then s.failShared c else s

/-- A transit-check failure on a link that a region sends on: the third in the window fails the region (R353). -/
def State.linkEvent (s : State) (r : Nat) : State :=
  let ev := recent s.abs id ((s.region r).linkFails ++ [s.abs])
  let s := s.upRegion r (fun x => { x with linkFails := ev })
  if 3 ≤ ev.length then s.failRegion r 2 else s

/-- The outcome of a replay of a unit's work (R353): a CONFIRMED one, or the second MASKED or FAILED one in the window,
fails the unit. -/
def State.unitOutcome (s : State) (c phys : Nat) (confirmed : Bool) : State :=
  let ev := recent s.abs (·.2) ((s.cluster c).unitEvents ++ (if confirmed then [] else [(phys, s.abs)]))
  let s := s.upCluster c (fun k => { k with unitEvents := ev })
  if confirmed || decide (2 ≤ (ev.filter (fun e => e.1 == phys)).length) then s.failUnit c phys else s

/-- The codes of the suspect causes (R352). -/
def causeTransit : Nat := 2

/-- What the detection of a suspect unit counts (R353): an event on its link, or on a cluster-shared resource. -/
def State.countSuspect (s : State) (x : Suspect) : State :=
  if x.cause = causeTransit then s.linkEvent x.region
  else if x.phys = 0xFF ∧ x.cluster < 4096 then s.sharedEvent x.cluster else s

end Sys2Proof.Machine
end

