-- ==== Sys2Proof/Machine/Rods.lean ====
section
/-!
DEFINITION. What orders read of rods and how rods are converted: expansion and checks (R226, R231, R244), the copy of a
prefix (R121, R129), conversion to KV_FORMAT (R237) and coding (R232), read charges (R81, R158, R235), and what the
checks of R340 to R345 do to stored data.
-/

namespace Sys2Proof.Machine
open Sys2Proof

/-! ### Reading a rod -/

/-- What a rod gives its readers: values by span row and position; the pairs that read poisoned or fail their check;
whether its codebook generation is not resident; its summaries. -/
structure RodView where
  rows : List (List (List Fp.Val))
  poison : List Nat
  bad : List Nat
  gone : Bool
  sums : List Attn.Summary
  deriving DecidableEq, Repr

/-- The empty view: a rod that holds nothing. -/
def RodView.none : RodView := ⟨[], [], [], false, []⟩

/-- A resident codebook: READY or RETIRING (R244). -/
def Tab.resident (t : Tab) (ig : Nat × Nat) : Option Book :=
  match AMap.find t.books (bookKey ig.1 ig.2) with
  | some b => if b.st == .ready || b.st == .retiring then some b.book else Option.none
  | Option.none => Option.none

/-- The 32 vectors of a coded span tile; none when a block is malformed or fails its check (R226, R231). -/
def tileVals (b : Book) (hd : Nat) (bs : List VqBlock) : Option (List (List Fp.Val)) :=
  let rs := bs.map (Codec.readBlock b)
  if rs.any (fun r => r == .bad) then Option.none
  else some (Codec.vectors hd 32 (rs.flatMap (fun r => match r with | .ok vs => vs | .bad => [])))

/-- The vector of zeros that stands for a position of a bad tile. -/
def zeroVals (hd : Nat) : List Fp.Val := List.replicate hd (.fin false 0 0)

/-- View the content of a rod under a codebook. -/
def codedView (b : Book) (d : Desc) (rows : List (List (List VqBlock))) : List (List (List Fp.Val)) × List Nat :=
  let tiles := rows.map (fun row => row.map (tileVals b d.headDim))
  let bad := (List.range d.pairs).filter (fun p =>
    (d.pairRows p).any (fun r => ((tiles.getD r []).getD (p / d.rodHeads) Option.none).isNone))
  (tiles.map (fun row => row.flatMap (fun t => t.getD (List.replicate 32 (zeroVals d.headDim)))), bad)

/-- What a rod gives its readers. -/
def Tab.viewRod (t : Tab) (d : Desc) (r : Rod) : RodView :=
  match r.data with
  | .plain rows => ⟨rows.map (fun row => row.map (Codec.vecVals d.kvFormat)), r.poison, r.bad, false, r.sums⟩
  | .coded rows =>
    match r.book.bind t.resident with
    | Option.none => ⟨[], r.poison, r.bad, true, r.sums⟩
    | some b =>
      let (vals, bad) := codedView b d rows
      ⟨vals, r.poison, r.bad ++ bad, false, r.sums⟩

/-- The status that reading some pairs of a rod gives its consumer: 0, or POISON, CHECK_FAIL or CODEBOOK_RETIRED (R164,
R231, R244). -/
def RodView.status (v : RodView) (pairs : List Nat) : Nat :=
  if pairs.any v.poison.contains then stPoison
  else if v.gone && !pairs.isEmpty then stCodebookRetired
  else if pairs.any v.bad.contains then stCheckFail
  else 0

/-- The pairs that hold the first `n` positions. -/
def pairsOf (d : Desc) (n : Nat) : List Nat := List.range (ceilDiv n 32 * d.rodHeads)

/-- The rod that a finished read of an extent brings. -/
def Extent.rod (e : Extent) (d : Desc) (cells : List Nat) (j : Job) : Rod :=
  let all := List.range d.pairs
  if j.status = some stOk then
    if e.coded then
      match readCoded d cells j.bytes with
      | some rows => ⟨.coded rows, e.sums, [], [], e.book⟩
      | Option.none => ⟨.plain [], e.sums, [], all, Option.none⟩
    else { readPlain d 256 j.bytes with sums := e.sums }
  else if j.status = some stCheckFail then ⟨.plain [], e.sums, [], all, Option.none⟩
  else ⟨.plain [], e.sums, all, [], Option.none⟩

/-- The rod that a job has read. -/
def HideSt.jobRod (x : HideSt) (d : Desc) (job : Nat) : Rod :=
  match AMap.find x.o.jobs job with
  | some j => (match AMap.find x.o.tab.exts j.extent with | some e => e.rod d (x.codedCellSizes d) j | Option.none => Rod.empty)
  | Option.none => Rod.empty

/-- The rod that an order reads at a page: its frame, or what its fetch has brought (R161). -/
def HideSt.pageRod (x : HideSt) (d : Desc) (order : Nat) (p : Page) : Rod :=
  if p.tier = 0 then x.o.rod p.loc
  else if p.tier = 1 then
    match (x.o.fetchFor order p.loc).bind (fun f => f.2.job) with
    | some j => x.jobRod d j
    | Option.none => Rod.empty
  else Rod.empty

/-! ### Conversion -/

/-- The summaries of a rod from its values (R159, R181). -/
def headSums (d : Desc) (rows : List (List (List Fp.Val))) : List Attn.Summary :=
  (List.range d.rodHeads).map (fun h =>
    Attn.summarise d.headDim (rows.getD h []) (rows.getD (if d.attn = 1 then h else d.kvHeads + h) []))

/-- Stored vectors of values, rounded to nearest even (R237). -/
def quantRows (d : Desc) (rows : List (List (List Fp.Val))) : List (List StoredVec) :=
  rows.map (fun row => row.map (fun v => Codec.quantVec d.kvFormat (fun _ => .rne) (v.map Fp.to32)))

/-- A rod held uncoded in KV_FORMAT (R121 step 3, R237). -/
def Tab.uncode (t : Tab) (d : Desc) (r : Rod) : Rod :=
  match r.data with
  | .plain _ => r
  | .coded _ =>
    let v := t.viewRod d r
    let rows := quantRows d v.rows
    ⟨.plain rows, headSums d (rows.map (fun row => row.map (Codec.vecVals d.kvFormat))), v.poison, v.bad, Option.none⟩

/-- The first `n` positions of an uncoded rod, as a rod (R121, R129). -/
def Rod.first (d : Desc) (n : Nat) (r : Rod) : Rod :=
  match r.data with
  | .plain rows =>
    let rows := rows.map (fun row => row.take n)
    { r with data := .plain rows, sums := headSums d (rows.map (fun row => row.map (Codec.vecVals d.kvFormat))) }
  | .coded _ => r

/-- A finite value. -/
def finiteVal : Fp.Val → Bool
  | .fin _ _ _ => true
  | _ => false

/-- Code a rod from its values (R232); none when a value is NaN or infinite. -/
def codeRod (b : Book) (d : Desc) (v : RodView) : Option Rod :=
  if v.rows.any (fun row => row.any (fun x => x.any (fun e => !(finiteVal e)))) then Option.none
  else
    let n := 32 * d.headDim / Codec.vqElems b.vqFormat
    let tile (row : List (List Fp.Val)) (k : Nat) : List VqBlock :=
      let vs := (row.drop (32 * k)).take 32
      Codec.codeTile b n ((vs ++ List.replicate (32 - vs.length) (zeroVals d.headDim)).flatten.map Fp.to32)
    let rows := v.rows.map (fun row => (List.range 8).map (tile row))
    some ⟨.coded rows, headSums d (codedView b d rows).1, [], [], some (b.id, b.gen)⟩

/-! ### What reading costs (R81, R158, R235) -/

/-- Lines that a coded pair occupies, overflow cells included (R235). -/
def codedLinesOf (cell bytes : Nat) : Nat :=
  if bytes ≤ cell then ceilDiv bytes 64
  else
    let rest := bytes - cell
    cell / 64 + 8 * (rest / 504) + (if rest % 504 = 0 then 0 else ceilDiv (8 + rest % 504) 64)

/-- What reading one pair of a frame costs: its cluster, the bytes of its spans, their lines, and its check line. -/
structure PairCost where
  cluster : Nat
  bytes : Nat
  lines : Nat
  check : Option Nat
  deriving DecidableEq, Repr

/-- The cost of reading pair `p` of frame `k`. -/
def HideSt.pairCost (x : HideSt) (d : Desc) (k p : Nat) : PairCost :=
  match x.pool (framePool k) with
  | Option.none => ⟨0, 0, 0, Option.none⟩
  | some q =>
    let c := q.cluster (frameIndex k) p
    if q.coded then
      let n := codedLinesOf q.cellBytes ((x.o.rod k).stream p)
      ⟨c, 64 * n, n, Option.none⟩
    else
      let bytes := (d.pairRows p).length * tileBytes d
      ⟨c, bytes, ceilDiv bytes 64, some ((framePool k * 4096 + c) * 2 ^ 28 + q.cell (frameIndex k) / 8)⟩

/-- Lines read for a list of distinct pairs, each check line once. -/
def linesOf (cs : List PairCost) : Nat :=
  cs.foldl (fun n c => n + c.lines) 0 + (cs.filterMap (·.check)).eraseDups.length

/-- Lines read for the first `fill` positions of a frame's rod. -/
def HideSt.rodLines (x : HideSt) (d : Desc) (k fill : Nat) : Nat := linesOf ((pairsOf d fill).map (x.pairCost d k))

/-- Count lines of bonded DRAM in an order's CT_ counts (R429). -/
def Flight.readLines (f : Flight) (n : Nat) : Flight := { f with ct := { f.ct with dramLines := satAdd f.ct.dramLines n } }

/-- Have the clusters of a frame room for a coded rod's overflow cells (R81). -/
def HideSt.overflowFits (x : HideSt) (q : Pool) (k : Nat) (r : Rod) : Bool :=
  let most := match x.lay with | some e => e.ovfCells | Option.none => 0
  (List.range q.q).all (fun p =>
    let need := overflow q.cellBytes (r.stream p)
    need == 0 || decide (x.overflowUsed q (q.cluster (frameIndex k) p) + need ≤ most))

/-- The coded size of a rod in 64-byte lines, as PLACE reports it (R264). -/
def Rod.codedSize (d : Desc) (cell : Nat) (r : Rod) : Nat :=
  match r.data with
  | .plain _ => 0
  | .coded _ => (List.range d.pairs).foldl (fun n p => n + codedLinesOf cell (r.stream p)) 0

/-! ### Errors in stored data (R342, R345) -/

/-- Change the rod of a frame that is listed. -/
def OPart.upRod (o : OPart) (k : Nat) (f : Rod → Rod) : OPart :=
  match AMap.find o.frames k with
  | some fr => { o with frames := o.frames.set k { fr with rod := f fr.rod } }
  | Option.none => o

/-- An ECC result on a line of a pair (R342): corrected and counted once until its write-back, or poisoned in place and
counted when it is found. -/
def State.eccResult (s : State) (h : Nat) (e : DramErr) : State :=
  let x := s.hide h
  match x.pool (framePool e.frame), AMap.find x.o.frames e.frame with
  | some q, some fr =>
    let c := q.cluster (frameIndex e.frame) e.pair
    if q.q ≤ e.pair || fr.rod.poison.contains e.pair then s
    else if e.uncorr then
      let s := s.upO h (fun o => o.upRod e.frame (fun r => { r with poison := r.poison ++ [e.pair] }))
      let s := s.upCluster c (fun k => { k with uncorrected := k.uncorrected + 1 })
      { s with screen := { s.screen with eccUncorr := satInc s.screen.eccUncorr } }
    else if (s.cluster c).writeback.contains (h, e.frame, e.pair) then s
    else
      let s := s.upCluster c (fun k => { k with corrected := k.corrected + 1, writeback := k.writeback ++ [(h, e.frame, e.pair)] })
      { s with screen := { s.screen with eccCorr := satInc s.screen.eccCorr } }
  | _, _ => s

/-- Is the poisoned metadata an eviction score. -/
def isScore : MetaRef → Bool
  | .score _ _ _ => true
  | _ => false

/-- A poisoned eviction score reads as 0.0 from then on (R345). -/
def zeroScore (qs : AMap Seq) : MetaRef → AMap Seq
  | .score hd l b =>
    match AMap.find qs hd with
    | some q => qs.set hd (q.upLayer l (fun y => { y with scores := y.scores.set b Fp.zero32 }))
    | Option.none => qs
  | _ => qs

/-- What the checks of stored data find during an order's work becomes the state of that data. -/
def State.stored (s : State) (h : Nat) (e : Env) : State :=
  let s := e.dram.foldl (fun s x => s.eccResult h x) s
  s.upO h (fun o =>
    let o := e.badCheck.foldl (fun o b => o.upRod b.1 (fun r => { r with bad := if r.bad.contains b.2 then r.bad else r.bad ++ [b.2] })) o
    let t : Tab := { o.tab with
      sets := o.tab.sets.map (fun w => if e.setPoison.contains w.1 then (w.1, { w.2 with poison := true }) else w)
      seqs := o.tab.seqs.map (fun q => (q.1, { q.2 with states := q.2.states.map (fun st =>
        if e.statePoison.contains (q.1, st.1) then (st.1, { st.2 with poison := true }) else st) })) }
    { o with
      metas := (o.metas ++ e.metas.filter (fun m => !(isScore m))).eraseDups
      tab := { t with seqs := e.metas.foldl zeroScore t.seqs } })

/-! ### Suspect units (R346, R347) -/

/-- Hold a flight for the replay of its suspect units; `consumers` gives the entries that depend on a unit. -/
def State.hold (s : State) (h : Nat) (f : Flight) (consumers : UnitRef → List Nat) (l : List Suspect) : State × Flight :=
  l.foldl (fun (p : State × Flight) x =>
    let s := p.1
    let id := s.screen.nextReplay
    let r : Replay :=
      { id := id, hide := h, order := f.order.seq, unit := x.unit, consumers := consumers x.unit, cause := x.cause,
        region := x.region, cluster := x.cluster, phys := x.phys, tries := 0, partner := 0xFF, started := false }
    let s := { s with screen := { s.screen with units := s.screen.units ++ [r], nextReplay := id + 1 } }
    (s.countSuspect x, { p.2 with suspects := p.2.suspects ++ [id] })) (s, f)

/-- The consumers of a unit of an order that is one consumer as a whole. -/
def wholeOrder (_ : UnitRef) : List Nat := [0]

end Sys2Proof.Machine
end

