-- ==== Sys2Proof/Machine/Meta.lean ====
section
/-!
DEFINITION. The META orders: ADMIT_SEQ, RETIRE_SEQ (R84 to R90, R345), FORK_PREFIX, LOOKUP_PREFIX (R124 to R128),
PUBLISH_PREFIX (R119 to R123), RETIRE_CODEBOOK (R243), and the hash lane (R112).
-/

namespace Sys2Proof.Machine
open Sys2Proof

/-! ### Ends of admitted orders -/

/-- Keep an admitted order's record, new or already listed. -/
def State.settle (s : State) (h : Nat) (f : Flight) : State :=
  if (s.hide h).q.flights.any (fun g => g.order.seq == f.order.seq) then s.putFlight h f else s.keep h f

/-- An admitted order fails: what it took returns, and it takes effect on nothing (R97). -/
def State.undo (s : State) (h : Nat) (f : Flight) (status detail : Nat) : State :=
  let s := s.giveBack h f
  s.settle h { (f.fail status detail) with fx := [], tookFrames := [], tookExts := [], outs := [] }

/-- An admitted order's work ends: it is held for its suspect units, if it has any (R347). -/
def State.close (s : State) (h : Nat) (f : Flight) (e : Env) : State :=
  let (s, f) := s.hold h f wholeOrder e.suspects
  s.settle h f

/-- The first order in flight, of those a row stands for, whose transfers have all ended. -/
def HideSt.stepping (x : HideSt) (is : Order → Bool) : Option Flight :=
  x.q.flights.find? (fun f => is f.order && !f.ended && (x.o.jobsOutcome f.jobs).isSome && f.delivery.isNone &&
    f.dmas.all (fun d => match AMap.find x.o.dmas d with | some m => m.status.isSome | none => true))

/-- Work that continues at chain `c` ends no earlier than that chain. -/
def State.at (s : State) (c : Nat) (f : Flight) : Flight := { f with endChain := max f.endChain (s.now c) }

/-! ### ADMIT_SEQ and RETIRE_SEQ -/

/-- EVICT of an ADMIT_SEQ record (R102). -/
def evictOf (o : Order) : Evict := ⟨o.f 48 1 == 1, o.f 49 1, o.f 50 2, o.f 52 4, BitVec.ofNat 32 (o.f 56 4)⟩

/-- Does an uncoded pool match a descriptor's rod (R87). -/
def poolMatches (d : Desc) (q : Pool) : Bool := !q.coded && q.q == d.pairs && decide (d.rodBytes ≤ q.cellBytes * q.q)

/-- Frames of one state object in a pool (R88, R107). -/
def stateFrames (d : Desc) (q : Pool) : Nat := if q.q * q.cellBytes = 0 then 0 else ceilDiv d.stateBytes (q.q * q.cellBytes)

/-- Sequences of the device in any state (R84). -/
def State.sequences (s : State) : Nat := s.present.foldl (fun n h => n + (s.hide h).allView.seqs.length) 0

/-- Sequence-table entries in use: a PARKED sequence's record lies on flash (R84). -/
def HideSt.seqEntries (x : HideSt) : Nat := (x.allView.seqs.filter (fun q => q.2.st != .parked)).length

/-- ADMIT_SEQ without EXTEND, from step 8 of R259 on (R84, R87, R88). -/
def admitSeqWork (h : Nat) (e : Env) (s : State) (o : Order) (f : Flight) : State :=
  let s := s.stored h e
  let x := s.hide h
  let handle := o.f 16 4
  match x.lay, x.desc (o.f 20 2), x.pool (o.f 22 1) with
  | some lay, some d, some q =>
    let rods := ceilDiv (o.f 28 4) 256
    let attn := d.attnLayers.length
    let per := stateFrames d q
    let need := rods * attn + per * d.stateLayers.length
    if !(poolMatches d q) then s.keep h (f.fail stFieldRange (detailAt 22))
    else if !(x.k.jobKey (o.f 32 2)).held then s.keep h (f.fail stBadObject)
    else if !(x.handleFree o handle) || decide (lay.seqEntries ≤ x.seqEntries) || decide (16777216 ≤ s.sequences) ||
        decide (4194304 < o.f 24 4 + 256 * rods) || decide (x.freeFrames q.pool < need) then s.keep h (f.fail stNoPage)
    else
      match takeFrames x.o q handle (List.range (per * d.stateLayers.length)) with
      | none => s.keep h (f.fail stNoPage)
      | some (ks, o') =>
        let states : AMap StateObj := d.stateLayers.zipIdx.map (fun p => (p.1, { StateObj.zero with frames := (ks.drop (p.2 * per)).take per }))
        let seq : Seq :=
          { modelId := d.modelId, st := .active, pool := q.pool, base := o.f 24 4, jobKey := o.f 32 2,
            codeRods := bit (o.f 23 1) 1 && !x.confidential, hidden := bit (o.f 23 1) 2, pfx := 0, pfxLen := 0,
            seed := o.f 40 8, evict := evictOf o, gen := 0, swapSerial := 0, swapAddr := 0, swapSize := 0,
            layers := d.attnLayers.map (fun l => (l, { Layer.empty with reserved := rods })), globals := [],
            states := states }
        let s := s.upO h (fun _ => reserve o' q.pool (rods * attn))
        s.close h { (f.finish (leBytes 4 need) [.enter handle seq]) with tookFrames := ks } e
  | _, none, _ => s.keep h (f.fail stBadObject)
  | _, _, _ => s.keep h (f.fail stFieldRange (detailAt 22))

/-- ADMIT_SEQ with EXTEND (R87, R88). -/
def extendWork (h : Nat) (e : Env) (s : State) (o : Order) (f : Flight) : State :=
  let s := s.stored h e
  let x := s.hide h
  let handle := o.f 16 4
  match x.activeSeq (x.nowView o) handle with
  | .inl st => s.keep h (f.fail st)
  | .inr q =>
    let rods := ceilDiv (o.f 28 4) 256
    let need := rods * q.layers.length
    let covered := match AMap.find (x.nowView o).seqs handle with | some q => q.covered | none => 0
    if x.o.metas.contains (.seqRecord handle) then s.keep h (f.fail stPoison)
    else if decide (4194304 < q.base + covered + 256 * rods) || decide (x.freeFrames q.pool < need) then
      s.keep h (f.fail stNoPage)
    else
      let s := s.upO h (fun o => reserve o q.pool need)
      s.close h (f.finish (leBytes 4 need) [.extend handle rods]) e

/-- RETIRE_SEQ (R85, R86): it succeeds on poisoned metadata (R345). -/
def retireWork (h : Nat) (e : Env) (s : State) (o : Order) (f : Flight) : State :=
  let s := s.stored h e
  let x := s.hide h
  let handle := o.f 16 4
  match AMap.find (x.nowView o).seqs handle with
  | none => s.keep h (f.fail stBadObject)
  | some q =>
    if (q.st == .active || q.st == .swapped || q.st == .parked) && !(x.restoring handle) then
      s.close h (f.finish [] [.retire handle]) e
    else s.keep h (f.fail stNoPage)

/-! ### FORK_PREFIX and LOOKUP_PREFIX -/

/-- A READY prefix of a hide by object ID: the failure or its index and record (R75, R114, R345). -/
def HideSt.readyPfx (x : HideSt) (t : Tab) (h id : Nat) : Nat ⊕ (Nat × Pfx) :=
  if wrongId h id 4 then .inl stBadObject
  else match AMap.find t.pfxs (objIndex id) with
    | none => .inl stBadObject
    | some p =>
      if p.st != .ready then .inl stBadObject
      else if x.o.metas.contains (.pfxRecord (objIndex id)) then .inl stPoison
      else .inr (objIndex id, p)

/-- The conditions of R128 on a fork of `n` positions, in the order of its table: status and DETAIL of the first that
fails. `at_` is the offset of the field that names the sequence. -/
def HideSt.forkFail (x : HideSt) (t : Tab) (handle : Nat) (p : Pfx) (n at_ : Nat) : Option (Nat × Nat) :=
  match x.activeSeq t handle with
  | .inl st => some (st, 0)
  | .inr q =>
    let resv := if n % 256 = 0 then q.resvRods else q.resvRods - 1
    if x.o.metas.contains (.seqRecord handle) then some (stPoison, 0)
    else if q.length ≠ 0 ∨ q.pfx ≠ 0 then some (stFieldRange, detailAt at_)
    else if q.modelId ≠ p.modelId ∨ (x.desc q.modelId).map descTag ≠ some p.descTag then some (stBadObject, 0)
    else if p.scope = 15 ∧ q.jobKey ≠ p.jobKey then some (stBadObject, 0)
    else if q.base ≠ p.base then some (stFieldRange, detailAt at_)
    else if q.hidden ∧ p.scope ≠ 15 then some (stFieldRange, detailAt at_)
    else if n % 256 ≠ 0 ∧ q.resvRods = 0 then some (stNoPage, 0)
    else if 4194304 < q.base + 256 * (ceilDiv n 256 + resv) then some (stNoPage, 0)
    else none

/-- FORK_PREFIX (R127, R128). -/
def forkWork (h : Nat) (e : Env) (s : State) (o : Order) (f : Flight) : State :=
  let s := s.stored h e
  let x := s.hide h
  let n := o.f 32 4
  match x.readyPfx (x.view o) h (o.f 24 6) with
  | .inl st => s.keep h (f.fail st)
  | .inr (i, p) =>
    if o.f 36 2 ≠ p.jobKey then s.keep h (f.fail stBadObject)
    else if p.length < n then s.keep h (f.fail stFieldRange (detailAt 32))
    else match x.forkFail (x.nowView o) (o.f 16 4) p n 16 with
      | some (st, d) => s.keep h (f.fail st d)
      | none => s.close h (f.finish (leBytes 4 (ceilDiv n 256) ++ leBytes 1 (if n % 256 = 0 then 0 else 1)) [.fork (o.f 16 4) i n]) e

/-- The 32-bit token IDs of a buffer (R111). -/
def tokensOf : Nat → List Byte → List Nat
  | 0, _ => []
  | n + 1, bs => if bs.length < 4 then [] else leValue (bs.take 4) :: tokensOf n (bs.drop 4)

/-- The tokens of an order, read when it was taken (R112). -/
def HideSt.tokens (x : HideSt) (o : Order) (count : Nat) : List Nat :=
  match o.tokens.bind (AMap.find x.o.dmas) with
  | some d => tokensOf count d.data
  | none => []

/-- Up to `fuel` probes of a lookup (R125 step 2). -/
def probeSome (t : Tab) (bad : List Nat) (log2 scope : Nat) : Nat → LookupWork → LookupWork
  | 0, w => w
  | fuel + 1, w =>
    if !w.probing then w
    else match w.hashes[w.probed]? with
      | none => { w with probing := false }
      | some hash =>
        match probe t bad log2 scope hash with
        | none => { w with probing := false }
        | some en => probeSome t bad log2 scope fuel { w with probed := w.probed + 1, found := some (en.pfx, w.probed) }

/-- The number of leading positions at which two token lists agree. -/
def agree : List Nat → List Nat → Nat
  | a :: s, b :: t => if a = b then agree s t + 1 else 0
  | _, _ => 0

/-- One META admission of a lookup: 64 probes and 16,384 comparisons (R125); the work, and whether it has stopped. -/
def lookupStep (x : HideSt) (t : Tab) (scope : Nat) (tokens : List Nat) (w : LookupWork) : LookupWork × Bool :=
  let w := probeSome t x.o.badBuckets x.pfxLog2 scope 64 w
  let w := if w.probed = w.hashes.length then { w with probing := false } else w
  if w.probing then (w, false)
  else match w.found with
    | none => (w, true)
    | some (i, j) =>
      let at_ := 256 * (j + 1) + w.compared
      let n := agree ((tokens.drop at_).take 16384) ((pfxTokens t t.chain i).drop at_)
      ({ w with compared := w.compared + n }, decide (n < 16384))

/-- MATCHED (R125 step 4). -/
def LookupWork.matched (w : LookupWork) : Nat :=
  match w.found with
  | none => 0
  | some (_, j) => 256 * (j + 1) + w.compared

/-- The end of a lookup: its result, and the fork it makes (R126). -/
def lookupEnd (h : Nat) (s : State) (f : Flight) (w : LookupWork) (e : Env) : State :=
  let x := s.hide h
  let o := f.order
  let n := w.matched
  let pfx : Nat := match w.found with | none => 0 | some (i, _) => objId 4 h i
  let res (forked : Bool) : List Byte := leBytes 6 pfx ++ leBytes 4 n ++ leBytes 1 (if forked then 1 else 0)
  match w.found with
  | none => s.close h (f.finish (res false) []) e
  | some (i, _) =>
    if x.o.metas.contains (.pfxRecord i) then s.settle h (f.fail stPoison)
    else if !(bit (o.f 17 1) 0) || decide (n < o.f 44 4) then s.close h (f.finish (res false) []) e
    else match AMap.find f.view.pfxs i with
      | none => s.close h (f.finish (res false) []) e
      | some p =>
        match x.forkFail (x.nowView o) (o.f 40 4) p n 40 with
        | some (st, d) => s.settle h { (f.fail st d) with result := res false }
        | none => s.close h (f.finish (res true) [.fork (o.f 40 4) i n]) e

/-- LOOKUP_PREFIX at its first admission (R124, R125). -/
def lookupWork (h now : Nat) (e : Env) (s : State) (o : Order) (f : Flight) : State :=
  let s := s.stored h e
  let x := s.hide h
  match x.desc (o.f 20 2) with
  | none => s.keep h (f.fail stBadObject)
  | some d =>
    if o.f 16 1 = 15 ∧ !(x.k.jobKey (o.f 18 2)).held then s.keep h (f.fail stBadObject)
    else
      let tokens := x.tokens o (o.f 28 4)
      let hashes := rodHashes (x.k.hashKey h (o.f 16 1) (o.f 18 2)) d.modelId (o.f 24 4) (descTag d) (o.f 28 4 / 256) 0 zeroHash tokens
      let t := x.view o
      let w : LookupWork := ⟨o.seq, hashes, 0, none, true, 0, now⟩
      let (w, ends) := lookupStep x t (o.f 16 1) tokens w
      let f := { f with view := t }
      if ends then lookupEnd h s f w e
      else (s.upO h (fun y => { y with lookups := y.lookups ++ [w] })).keep h f

/-- LOOKUP_PREFIX_CONTINUE: the first lookup in progress goes on in a META admission that starts at chain `c`, taking
one order of its capacity (R125). -/
def lookupContinue (h c : Nat) (e : Env) (s : State) : State :=
  let x := s.hide h
  let now := s.now c
  match x.o.lookups.find? (fun w => w.last != now) with
  | none => s
  | some w =>
    match x.q.flights.find? (fun f => f.order.seq == w.seq && !f.ended) with
    | none => s
    | some f =>
      if !(s.reamActive) then s
      else match x.grant s.plan.furlong c .metaOrder f.regions (plainFit 1) with
        | none => s
        | some g =>
          let s := (s.upQ h (fun q => q.use s.plan.furlong g.uses)).stored h e
          let x := s.hide h
          let (w', ends) := lookupStep x f.view (f.order.f 16 1) (x.tokens f.order (f.order.f 28 4)) { w with last := now }
          let rest := x.o.lookups.filter (fun y => y.seq != w.seq)
          if ends then
            lookupEnd h (s.upO h (fun y => { y with lookups := rest })) (s.at c f) w' e
          else s.upO h (fun y => { y with lookups := y.lookups.map (fun y => if y.seq == w.seq then w' else y) })

/-! ### The hash lane (R112) -/

/-- Orders whose token read has failed end as soon as that is found, and the lane moves on (R112). -/
def State.failTokens (s : State) (h : Nat) : State :=
  let x := s.hide h
  let bad := x.q.queue.filterMap (fun o => match o.tokens.bind (AMap.find x.o.dmas) with
    | some d => (match d.status with | some st => if st = stOk then none else some (o, st) | none => none)
    | none => none)
  bad.foldl (fun s p =>
    let s := s.upHide h (fun x => { x with
      q := { x.q with queue := x.q.queue.filter (fun y => y.seq != p.1.seq) }
      o := { x.o with lane := x.o.lane.filter (fun y => y != p.1.seq) } })
    s.endTaken h p.1 p.2 0 []) s

/-- HASH_LANE_DONE: the lane has hashed the order at its front, whose tokens are in. -/
def hashLaneDone (h : Nat) (s : State) : State :=
  let x := s.hide h
  match x.o.lane with
  | [] => s
  | n :: rest =>
    let ready : Bool := match x.q.queue.find? (fun o => o.seq == n) with
      | some o => (match o.tokens.bind (AMap.find x.o.dmas) with | some d => d.status == some stOk | none => true)
      | none => true
    if !ready then s
    else s.setHide h { x with
      o := { x.o with lane := rest }
      q := { x.q with queue := x.q.queue.map (fun o => if o.seq == n then { o with hashed := true } else o) } }

/-! ### PUBLISH_PREFIX -/

/-- The first failing condition of a CREATE (R120, R121 step 1). -/
def createFail (x : HideSt) (o : Order) (t : Tab) (handle : Nat) (q : Seq) : Option (Nat × Nat) :=
  let n := o.f 32 4
  let domain := o.f 17 1 ≠ 15
  if x.seqPoison handle 0 || q.layers.any (fun l => x.seqPoison handle l.1) then some (stPoison, 0)
  else if !(x.stillActive o handle) then some (stNoPage, 0)
  else if o.f 18 2 ≠ q.jobKey then some (stBadObject, 0)
  else if n ≤ q.pfxLen ∨ q.length < n then some (stFieldRange, detailAt 32)
  else if q.layers.any (fun l => l.2.evicted.any (fun b => decide (b < ceilDiv n 32))) then some (stFieldRange, detailAt 32)
  else if domain ∧ (q.hidden || (match AMap.find t.pfxs (objIndex q.pfx) with | some p => q.pfx != 0 && p.scope == 15 | none => false))
    then some (stFieldRange, detailAt 17)
  else none

/-- The copies of a CREATE: the partial rod of every layer, and, for a domain, the passed rods on flash (R121 steps 3
and 4). -/
def createCopies (q : Seq) (n : Nat) (domain : Bool) : List (Nat × Nat × Page × Bool) :=
  let p0 := q.pfxLen / 256
  let full := n / 256
  q.layers.flatMap (fun l =>
    (l.2.pages.zipIdx.filterMap (fun p =>
      if domain ∧ p0 ≤ p.2 ∧ p.2 < full ∧ p.1.tier = 1 then some (l.1, p.2, p.1, true)
      else if p.2 = full ∧ n % 256 ≠ 0 then some (l.1, p.2, p.1, false)
      else none)))

/-- Begin the copies that need a read from flash. -/
def State.beginCopies (s : State) (h : Nat) (f : Flight) (cs : List (Nat × Nat × Page × Bool)) : State × Flight :=
  cs.foldl (fun (p : State × Flight) c =>
    let (l, j, pg, _) := c
    if pg.tier = 1 then
      let (s, id) := p.1.readExtent h pg.loc
      (s, { p.2 with copies := p.2.copies ++ [⟨l, j, pg, some id, none, none⟩], jobs := p.2.jobs ++ [id] })
    else (p.1, { p.2 with copies := p.2.copies ++ [⟨l, j, pg, none, none, none⟩] })) (s, f)

/-- The rod that a copy has read. -/
def HideSt.copyRod (x : HideSt) (d : Desc) (c : Copy) : Rod :=
  match c.read with
  | some j => x.jobRod d j
  | none => if c.src.tier = 0 then x.o.rod c.src.loc else Rod.empty

/-- Forget finished jobs. -/
def OPart.dropJobs (o : OPart) (ids : List Nat) : OPart := { o with jobs := ids.foldl AMap.erase o.jobs }

/-- The extent and write job of a rod record, re-encrypted under another key on the module that holds the old one. -/
def State.rekeyCopy (s : State) (h : Nat) (f : Flight) (kind key : Nat) (c : Copy) : Option (State × Flight) :=
  let x := s.hide h
  match AMap.find x.o.tab.exts c.src.loc, c.read.bind (AMap.find x.o.jobs) with
  | some e, some j =>
    match s.writeExtent h (2 ^ e.module) 0 kind key e.coded e.book none e.sums j.bytes with
    | none => none
    | some (s, idx, id) =>
      some (s, { f with
        tookExts := f.tookExts ++ [idx]
        jobs := f.jobs ++ [id]
        copies := f.copies.map (fun y => if y = c then { y with dst := some { y.src with loc := idx }, write := some id } else y) })
  | _, _ => none

/-- Re-encrypt every copy that lies on flash and is passed whole. -/
def State.rekeyAll (s : State) (h : Nat) (f : Flight) (kind key : Nat) : List Copy → Option (State × Flight)
  | [] => some (s, f)
  | c :: t =>
    match s.rekeyCopy h f kind key c with
    | none => none
    | some (s, f) => s.rekeyAll h f kind key t

/-- The moved extents of a flight's copies. -/
def Flight.moved (f : Flight) : List (Nat × Nat) := f.copies.filterMap (fun c => match c.dst with
  | some p => if p.tier = 1 then some (c.src.loc, p.loc) else none
  | none => none)

/-- Copy the first positions of rod F of every layer into new frames (R121 step 3); the failure status, if any. -/
def copyPartials (x : HideSt) (d : Desc) (q : Seq) (handle n : Nat) : OPart → List Copy → Option (List Copy × OPart) × Nat
  | o, [] => (some ([], o), 0)
  | o, c :: t =>
    if c.rod ≠ n / 256 then
      match copyPartials x d q handle n o t with
      | (some (cs, o), st) => (some (c :: cs, o), st)
      | r => r
    else
      let r := (x.o.tab.uncode d (x.copyRod d c)).first d (n % 256)
      let st := (x.o.tab.viewRod d (x.copyRod d c)).status (pairsOf d (n % 256))
      match x.pool q.pool with
      | none => (none, stNoPage)
      | some p =>
        if st ≠ 0 then (none, st)
        else match x.takeFree o p handle c.rod { r with poison := [], bad := [] } with
          | none => (none, stNoPage)
          | some (k, o) =>
            match copyPartials x d q handle n o t with
            | (some (cs, o), st) => (some ({ c with dst := some (dramPage k (n % 256)) } :: cs, o), st)
            | r => r

/-- The record of the new prefix (R113, R121). -/
def createRecord (x : HideSt) (h : Nat) (o : Order) (d : Desc) (q : Seq) (f : Flight) : Pfx :=
  let n := o.f 32 4
  let p0 := q.pfxLen / 256
  let full := n / 256
  let tokens := x.tokens o n
  let hashes := rodHashes (x.k.hashKey h (o.f 17 1) q.jobKey) q.modelId q.base (descTag d) full 0 zeroHash tokens
  let page (l : Nat) (p : Page × Nat) : Page := match f.copies.find? (fun c => c.layer == l && c.rod == p.2) with
    | some c => { (c.dst.getD p.1) with shared := false, cow := false, fill := if p.2 = full then n % 256 else 256 }
    | none => { p.1 with shared := false, cow := false }
  { st := .ready, scope := o.f 17 1, modelId := q.modelId, jobKey := if o.f 17 1 = 15 then q.jobKey else 0, base := q.base,
    length := n, parent := q.pfx, parentRods := p0, refs := 1, hold := true, indexed := true, descTag := descTag d, gen := 0,
    tokens := tokens.drop (256 * p0), hashes := hashes.drop p0,
    layers := q.layers.map (fun l => (l.1, ((l.2.pages.zipIdx.take (ceilDiv n 256)).drop p0).map (page l.1))), evicted := [] }

/-- The end of a CREATE: the prefix takes its index and is published. -/
def createEnd (h : Nat) (s : State) (o : Order) (d : Desc) (q : Seq) (f : Flight) (e : Env) : State :=
  let x := s.hide h
  let i := x.o.nextPfx + 1
  let rec_ := createRecord x h o d q f
  let s := s.upO h (fun y => { (y.dropJobs f.jobs) with nextPfx := i })
  s.close h { (f.finish (leBytes 6 (objId 4 h i)) [.publish (o.f 20 4) i rec_]) with
    jobs := []
    tookFrames := f.copies.filterMap (fun c => match c.dst with | some p => if p.tier = 0 then some p.loc else none | none => none) } e

/-- Continue a CREATE: its reads are in, or its writes are. -/
def createStep (h c : Nat) (e : Env) (s : State) (f : Flight) : State :=
  let s := s.stored h e
  let x := s.hide h
  let f := s.at c f
  let o := f.order
  match AMap.find f.view.seqs (o.f 20 4), x.o.jobsOutcome f.jobs with
  | some q, some st =>
    match x.desc q.modelId with
    | none => s.undo h f stBadObject 0
    | some d =>
      if st ≠ stOk then (s.upO h (fun y => y.dropJobs f.jobs)).undo h { f with jobs := [] } st 0
      else if f.phase = 0 then
        match copyPartials x d q (o.f 20 4) (o.f 32 4) x.o f.copies with
        | (none, st) => (s.upO h (fun y => y.dropJobs f.jobs)).undo h { f with jobs := [] } st 0
        | (some (cs, o'), _) =>
          let old := f.jobs
          let f := { f with
            copies := cs, jobs := [], phase := 1,
            tookFrames := cs.filterMap (fun c => match c.dst with | some p => if p.tier = 0 then some p.loc else none | none => none) }
          let s := s.upO h (fun _ => o')
          match s.rekeyAll h f 1 (o.f 17 1) (cs.filter (fun c => c.dst.isNone)) with
          | none => (s.upO h (fun y => y.dropJobs old)).undo h f stNoPage 0
          | some (s, f) =>
            let s := s.upO h (fun y => y.dropJobs old)
            if f.jobs.isEmpty then createEnd h s o d q f e else s.settle h f
      else createEnd h s o d q f e
  | _, _ => s.undo h f stBadObject 0

/-- PUBLISH_PREFIX with CREATE at its admission (R120, R121). -/
def createWork (h c : Nat) (e : Env) (s : State) (o : Order) (f : Flight) : State :=
  let s := s.stored h e
  let x := s.hide h
  let t := x.view o
  match x.activeSeq t (o.f 20 4) with
  | .inl st => s.keep h (f.fail st)
  | .inr q =>
    match createFail x o t (o.f 20 4) q with
    | some (st, d) => s.keep h (f.fail st d)
    | none =>
      let cs := createCopies q (o.f 32 4) (o.f 17 1 ≠ 15)
      let (s, f) := s.beginCopies h { f with view := t } cs
      if f.jobs.isEmpty then createStep h c { e with dram := [], badCheck := [] } s f else s.keep h f

/-- The extents of a prefix's own rods (R122). -/
def Pfx.flashRods (p : Pfx) : List (Nat × Nat × Page × Bool) :=
  p.layers.flatMap (fun l => l.2.zipIdx.filterMap (fun g => if g.1.tier = 1 then some (l.1, p.parentRods + g.2, g.1, true) else none))

/-- The end of a PROMOTE. -/
def promoteEnd (h : Nat) (s : State) (f : Flight) (i : Nat) (p : Pfx) (e : Env) : State :=
  let x := s.hide h
  let o := f.order
  let scope := o.f 17 1
  let tokens := pfxTokens f.view f.view.chain i
  let hashes := rodHashes (x.k.hashKey h scope 0) p.modelId p.base p.descTag (p.length / 256) 0 zeroHash tokens
  let s := s.upO h (fun y => y.dropJobs f.jobs)
  s.close h { (f.finish (leBytes 6 (o.f 24 6)) [.promote i scope (hashes.drop p.parentRods) f.moved]) with jobs := [] } e

/-- Continue a PROMOTE. -/
def promoteStep (h c : Nat) (e : Env) (s : State) (f : Flight) : State :=
  let s := s.stored h e
  let x := s.hide h
  let f := s.at c f
  let i := objIndex (f.order.f 24 6)
  match AMap.find f.view.pfxs i, x.o.jobsOutcome f.jobs with
  | some p, some st =>
    if st ≠ stOk then (s.upO h (fun y => y.dropJobs f.jobs)).undo h { f with jobs := [] } st 0
    else if f.phase = 0 then
      let old := f.jobs
      match s.rekeyAll h { f with jobs := [], phase := 1 } 1 (f.order.f 17 1) f.copies with
      | none => (s.upO h (fun y => y.dropJobs old)).undo h { f with jobs := [] } stNoPage 0
      | some (s, f) =>
        let s := s.upO h (fun y => y.dropJobs old)
        if f.jobs.isEmpty then promoteEnd h s f i p e else s.settle h f
    else promoteEnd h s f i p e
  | _, _ => s.undo h f stBadObject 0

/-- PUBLISH_PREFIX with PROMOTE at its admission (R122). -/
def promoteWork (h c : Nat) (e : Env) (s : State) (o : Order) (f : Flight) : State :=
  let s := s.stored h e
  let x := s.hide h
  let t := x.view o
  match x.readyPfx t h (o.f 24 6) with
  | .inl st => s.keep h (f.fail st)
  | .inr (_, p) =>
    let parentPrivate : Bool := match AMap.find t.pfxs (objIndex p.parent) with | some y => p.parent != 0 && y.scope == 15 | none => false
    if o.f 18 2 ≠ p.jobKey then s.keep h (f.fail stBadObject)
    else if parentPrivate || p.scope != 15 then s.keep h (f.fail stFieldRange (detailAt 24))
    else
      let (s, f) := s.beginCopies h { f with view := t } p.flashRods
      if f.jobs.isEmpty then promoteStep h c { e with dram := [], badCheck := [] } s f else s.keep h f

/-- PUBLISH_PREFIX with WITHDRAW (R123); a poisoned record does not stop it (R345). -/
def withdrawWork (h : Nat) (e : Env) (s : State) (o : Order) (f : Flight) : State :=
  let s := s.stored h e
  let x := s.hide h
  let i := objIndex (o.f 24 6)
  if wrongId h (o.f 24 6) 4 then s.keep h (f.fail stBadObject)
  else match AMap.find (x.view o).pfxs i with
    | none => s.keep h (f.fail stBadObject)
    | some p =>
      if p.st != .ready || o.f 18 2 != p.jobKey then s.keep h (f.fail stBadObject)
      else s.close h (f.finish (leBytes 6 (o.f 24 6)) [.withdraw i]) e

/-! ### RETIRE_CODEBOOK -/

/-- The key of a generation from an ID_GEN or CODEBOOK field. -/
def keyOf (idGen : Nat) : Nat := bookKey (bits idGen 0 12) (bits idGen 12 4)

/-- RETIRE_CODEBOOK: a READY generation is RETIRING from its admission on (R243). -/
def retireBookWork (h : Nat) (e : Env) (s : State) (o : Order) (f : Flight) : State :=
  let s := s.stored h e
  let k := keyOf (o.f 16 2)
  match AMap.find (s.hide h).o.tab.books k with
  | none => s.keep h (f.fail stBadObject)
  | some b =>
    if b.st != .ready then s.keep h (f.fail stBadObject)
    else
      let s := s.upO h (fun y => { y with tab := { y.tab with books := y.tab.books.set k { b with st := .retiring } } })
      s.close h (f.finish [] []) e

/-! ### The rows -/

/-- The order is of an opcode, and passes a further test. -/
def isOp (op : Nat) (p : Order → Bool := fun _ => true) (o : Order) : Bool := o.opcode == op && p o

def execAdmitSeq (h : Hide) (c : Chain) (e : Env) (s : State) : Host.Outcome State Fault Refusal :=
  .next (s.admitFirst h c .metaOrder (isOp 0x01 (fun o => !(bit (o.f 23 1) 0))) demandFit (admitSeqWork h e))
def execAdmitSeqExtend (h : Hide) (c : Chain) (e : Env) (s : State) : Host.Outcome State Fault Refusal :=
  .next (s.admitFirst h c .metaOrder (isOp 0x01 (fun o => bit (o.f 23 1) 0)) demandFit (extendWork h e))
def execRetireSeq (h : Hide) (c : Chain) (e : Env) (s : State) : Host.Outcome State Fault Refusal :=
  .next (s.admitFirst h c .metaOrder (isOp 0x02) demandFit (retireWork h e))
def execForkPrefix (h : Hide) (c : Chain) (e : Env) (s : State) : Host.Outcome State Fault Refusal :=
  .next (s.admitFirst h c .metaOrder (isOp 0x03) demandFit (forkWork h e))
def execLookupPrefix (h : Hide) (c : Chain) (e : Env) (s : State) : Host.Outcome State Fault Refusal :=
  .next (s.admitFirst h c .metaOrder (isOp 0x04) demandFit (lookupWork h (s.now c) e))
def execLookupPrefixContinue (h : Hide) (c : Chain) (e : Env) (s : State) : Host.Outcome State Fault Refusal :=
  .next (lookupContinue h c e s)
def execHashLaneDone (h : Hide) (s : State) : Host.Outcome State Fault Refusal := .next (hashLaneDone h s)

/-- Continue an order in flight of a row when its transfers have ended, otherwise admit the next one. -/
def State.run (s : State) (h c : Nat) (cls : SlotClass) (is : Order → Bool) (step : State → Flight → State)
    (work : State → Order → Flight → State) : State :=
  match (s.hide h).stepping is with
  | some f => step s f
  | none => s.admitFirst h c cls is demandFit work

def execPublishPrefixCreate (h : Hide) (c : Chain) (e : Env) (s : State) : Host.Outcome State Fault Refusal :=
  .next (s.run h c .metaOrder (isOp 0x05 (fun o => o.f 16 1 == 0)) (createStep h c e) (createWork h c e))
def execPublishPrefixPromote (h : Hide) (c : Chain) (e : Env) (s : State) : Host.Outcome State Fault Refusal :=
  .next (s.run h c .metaOrder (isOp 0x05 (fun o => o.f 16 1 == 1)) (promoteStep h c e) (promoteWork h c e))
def execPublishPrefixWithdraw (h : Hide) (c : Chain) (e : Env) (s : State) : Host.Outcome State Fault Refusal :=
  .next (s.admitFirst h c .metaOrder (isOp 0x05 (fun o => o.f 16 1 == 2)) demandFit (withdrawWork h e))
def execRetireCodebook (h : Hide) (c : Chain) (e : Env) (s : State) : Host.Outcome State Fault Refusal :=
  .next (s.admitFirst h c .metaOrder (isOp 0x19) demandFit (retireBookWork h e))

end Sys2Proof.Machine
end

