-- ==== Sys2Proof/Machine/Attend.lean ====
section
/-!
DEFINITION. Attention over a sequence's rods (R137 to R167, R184 to R186): the checks of an order and of its entries,
which positions a row sees, which rods it reads, its rows, its masses, and the bytes of an output entry.
-/

namespace Sys2Proof.Machine
open Sys2Proof

/-! ### Weight sets as values (R173) -/

/-- The lengths of the vectors of a set, in order, for a descriptor with `qper` query heads to a KV head. -/
def WSet.lens (w : WSet) (qper : Nat) : List Nat :=
  if w.role = 1 then
    (List.range qper).flatMap (fun _ =>
      List.replicate w.dim w.vectors ++ List.replicate (if w.expandForm then 2 * w.vectors else w.vectors) w.dim)
  else List.replicate w.vectors w.dim

/-- Read vectors of given lengths, packed in an uncoded format (R199). -/
def readVectors (fmt : Nat) : List Nat → List Byte → List (List Fp.Val)
  | [], _ => []
  | n :: t, bs =>
    Codec.vecVals fmt (Codec.readVec fmt n (bs.take (Codec.vecBytes fmt n))) :: readVectors fmt t (bs.drop (Codec.vecBytes fmt n))

/-- Cut values into vectors of given lengths. -/
def cutVals : List Nat → List Fp.Val → List (List Fp.Val)
  | [], _ => []
  | n :: t, vs => vs.take n :: cutVals t (vs.drop n)

/-- What a consumer of a weight set reads: a failure status or 0, the vectors, and the biases. -/
structure SetView where
  status : Nat
  vecs : List (List Fp.Val)
  bias : List U32
  deriving DecidableEq, Repr

/-- The values of a weight set (R173, R226, R244). -/
def Tab.viewSet (t : Tab) (qper : Nat) (w : WSet) : SetView :=
  let lens := w.lens qper
  let biasAt (bs : List Byte) : List U32 :=
    if w.biased then (List.range w.vectors).map (fun i => BitVec.ofNat 32 (fieldAt bs (4 * i) 4)) else []
  if w.poison then ⟨stPoison, [], []⟩
  else if isVq w.format then
    match w.book.bind t.resident with
    | none => ⟨stCodebookRetired, [], []⟩
    | some b =>
      match readBlocks (lens.foldl (· + ·) 0 / Codec.vqElems w.format) w.image with
      | none => ⟨stCheckFail, [], []⟩
      | some (bs, rest) =>
        let rs := bs.map (Codec.readBlock b)
        if rs.any (· == .bad) then ⟨stCheckFail, [], []⟩
        else ⟨0, cutVals lens (rs.flatMap (fun r => match r with | .ok vs => vs | .bad => [])), biasAt rest⟩
  else
    ⟨0, readVectors w.format lens w.image,
      biasAt (w.image.drop (lens.foldl (fun n l => n + Codec.vecBytes w.format l) 0))⟩

/-- One query head's part of a latent up-projection: the rows of W_K, the columns of W_V, the columns of W_K (R173). -/
structure UpHead where
  a : List (List Fp.Val)
  b : List (List Fp.Val)
  c : List (List Fp.Val)
  deriving DecidableEq, Repr

/-- The parts of a latent up-projection by query head. -/
def upHeads (dc dh : Nat) (expand : Bool) : Nat → List (List Fp.Val) → List UpHead
  | 0, _ => []
  | n + 1, vs =>
    let rest := vs.drop (dc + dh)
    ⟨vs.take dc, (vs.drop dc).take dh, if expand then rest.take dh else []⟩ ::
      upHeads dc dh expand n (if expand then rest.drop dh else rest)

/-- The bf16 values of the dot products of a vector with each of a list (R156). -/
def matVec (m : List (List Fp.Val)) (x : List Fp.Val) : List Fp.Val :=
  m.map (fun r => Fp.val32 (Fp.roundBf16 (Fp.dot r x)))

/-! ### SCALE (R135) -/

/-- The integer square root, from bit `b` down. -/
def isqrtFrom : Nat → Nat → Nat → Nat
  | 0, n, r => if (r + 1) * (r + 1) ≤ n then r + 1 else r
  | b + 1, n, r => isqrtFrom b n (if (r + 2 ^ (b + 1)) * (r + 2 ^ (b + 1)) ≤ n then r + 2 ^ (b + 1) else r)

/-- 1/√n rounded to fp32, for `n` from 1 to 2^16. -/
def rsqrt32 (n : Nat) : U32 :=
  let r := isqrtFrom 65 (2 ^ 128 / n) 0
  Fp.to32 (.fin false r (-64)) (r * r * n != 2 ^ 128)

/-! ### Orders and entries -/

/-- What an attention order asks for, from its record and its descriptor (R135, R136, R184, R187). -/
structure StepJob where
  pre : Bool
  d : Desc
  layer : Nat
  flags : Nat
  fmt : Nat
  scale : U32
  mode : Nat
  dh : Nat
  topk : Nat
  q : Nat
  addr : Nat
  up : List UpHead
  upStatus : Nat
  deriving DecidableEq, Repr

def StepJob.partialOut (j : StepJob) : Bool := bit j.flags 0
def StepJob.stats (j : StepJob) : Bool := bit j.flags 0 || bit j.flags 1
def StepJob.sparse (j : StepJob) : Bool := bit j.flags 4
/-- The format of query elements (R136). -/
def StepJob.qfmt (j : StepJob) : Nat := if bit j.flags 3 then 1 else 0
/-- Rows of an entry: R of R141. -/
def StepJob.rows (j : StepJob) : Nat := j.q * j.d.heads
/-- D_q and D_o of R156. -/
def StepJob.dim (j : StepJob) : Nat := queryDim j.d j.mode j.dh
/-- The dimension of the values that a leaf sums: D_o before the up-projection of ABSORB. -/
def StepJob.dv (j : StepJob) : Nat := if j.mode = 2 then j.dh else j.d.headDim
/-- Output bytes of one entry (R141). -/
def StepJob.stride (j : StepJob) : Nat := outStride j.rows j.dim j.fmt j.stats
/-- The score context of query head `qh` (R149, R150). -/
def StepJob.ctx (j : StepJob) (qh : Nat) : Attn.ScoreCtx :=
  ⟨j.scale, if j.d.posenc = 2 then some (Fp.slope j.d.posParam qh j.d.heads) else none⟩
/-- The KV head of a query head (R155). -/
def StepJob.kv (j : StepJob) (qh : Nat) : Nat := if j.d.attn = 1 then 0 else qh / j.d.qPerKv

/-- Offsets of the fields that the three attention orders share: FLAGS, LAYER, query block, OUT_LEN. -/
structure StepOff where
  flags : Nat
  layer : Nat
  query : Nat
  len : Nat

def stepOff (op : Nat) : StepOff := if op = 0x08 then ⟨24, 18, 36, 48⟩ else ⟨32, 22, 40, 56⟩

/-- The order-level checks of R137 under a table generation: the failure, or the job. -/
def HideSt.stepJob (x : HideSt) (t : Tab) (o : Order) : (Nat × Nat) ⊕ StepJob :=
  let op := o.opcode
  let so := stepOff op
  let dec := op == 0x08
  let fl := o.f so.flags 4
  let layer := o.f so.layer 2
  let model := if dec then o.f 16 2 else o.f 20 2
  let q := if dec then o.f 22 1 else o.f 28 2
  let n := if dec then o.f 20 2 else 1
  let mode := if op = 0x0A then 0 else latentMode fl
  match x.desc model with
  | none => .inl (stBadObject, 0)
  | some d =>
    if d.layers ≤ layer || d.recurrent layer then .inl (stFieldRange, detailAt so.layer)
    else if (bit fl 2 || (op == 0x0A && bit fl 8)) && d.posenc != 1 then .inl (stFieldRange, detailAt so.flags)
    else if mode ≠ 0 ∧ d.attn ≠ 1 then .inl (stFieldRange, detailAt so.flags)
    else
      let job (up : List UpHead) (st : Nat) : (Nat × Nat) ⊕ StepJob :=
        let j : StepJob :=
          { pre := !dec, d := d, layer := layer, flags := fl, fmt := if dec then o.f 23 1 else o.f 30 1,
            scale :=
              let v := o.f (if dec then 28 else 36) 4
              if v = 0 then rsqrt32 (if mode = 2 then o.dh else d.headDim) else BitVec.ofNat 32 v
            mode := mode, dh := o.dh, topk := if dec then o.f 56 2 else 0, q := q,
            addr := if dec then o.f 40 8 else if op = 0x09 then o.f 48 8 else o.f 56 8, up := up, upStatus := st }
        let block := if op = 0x0A then backInput d q else n * queryStride d q j.dim
        if x.opndBytes < o.f so.query 4 + block then .inl (stFieldRange, detailAt so.query)
        else if op ≠ 0x0A ∧ o.f so.len 8 < n * j.stride then .inl (stFieldRange, detailAt so.len)
        else .inr j
      if mode = 0 then job [] 0
      else
        match t.currentSet model layer 1 with
        | none => .inl (stBadObject, 0)
        | some (_, w) =>
          if (mode = 2 ∧ !w.expandForm) ∨ w.vectors ≠ o.dh then .inl (stBadObject, 0)
          else if w.flash.isSome then .inl (stNoPage, 0)
          else
            let v := t.viewSet d.qPerKv w
            job (upHeads d.headDim w.vectors w.expandForm d.qPerKv v.vecs) v.status

/-- A batch entry as the checks leave it (R138, R145, R148). -/
structure Entry where
  idx : Nat
  handle : Nat
  base : Nat
  v : Nat
  /-- Offset from BASE of the first query position. -/
  start : Nat
  q : Nat
  sparse : Bool
  window : Nat
  globals : List Nat
  mask : Option (List Byte)
  pages : List Page
  evicted : List Nat
  mass : Bool
  /-- Its query rows, as element codes. -/
  raw : List (List Nat)
  deriving DecidableEq, Repr

/-- The table entries of an order, 32 bytes each; one of zeros with the order's handle where it has no record. -/
def Order.table (o : Order) : List (List Byte) :=
  match o.tableRange with
  | some (off, n) => (List.range (n / 32)).map (fun i => ((o.operand off n).drop (32 * i)).take 32)
  | none => [leBytes 4 (o.f 16 4) ++ List.replicate 28 0]

/-- Cut captured bytes into rows of 2-byte codes. -/
def codeRows (dim : Nat) : Nat → List Byte → List (List Nat)
  | 0, _ => []
  | n + 1, bs => (List.range dim).map (fun i => fieldAt bs (2 * i) 2) :: codeRows dim n (bs.drop (2 * dim))

/-- The mask-bitmap words that are captured must lie in the operand area (R147). -/
def maskFails (x : HideSt) (vmax q : Nat) (r : List Byte) : Bool :=
  if bit (fieldAt r 13 1) 0 then fieldAt r 16 4 % 64 != 0 || decide (x.opndBytes < fieldAt r 16 4 + 4 * maskWords vmax q)
  else fieldAt r 16 4 != 0

/-- Field checks of one entry (R138, R12, R13). -/
def entryBad (x : HideSt) (h : Nat) (j : StepJob) (r : List Byte) : Bool :=
  let hd := fieldAt r 0 4
  let len := fieldAt r 4 4
  let win := fieldAt r 8 4
  let g := fieldAt r 12 1
  let lengths := match x.lay with | some e => e.lengths | none => false
  let lenBad := if j.pre then len != 0 else if lengths then len == 0 else len != 0
  hd == 0 || hd == 0xFFFFFFFF || lenBad || !(zeroAt r 14 2) || !(zeroAt r 24 8) || decide (2 ≤ fieldAt r 13 1) ||
  (if j.sparse then win == 0 || decide (65536 < win) || decide (64 < g) else win != 0 || g != 0) ||
  (if g = 0 then fieldAt r 20 4 != 0
   else fieldAt r 20 4 % 4 != 0 || decide (x.opndBytes < fieldAt r 20 4 + 4 * g)) ||
  (if j.pre then false else maskFails x (x.vMax h hd j.layer len) j.q r)

/-- Do the offsets of a global list strictly increase and lie below V (R148). -/
def globalsOk (v : Nat) : List Nat → Bool
  | [] => true
  | [a] => decide (a < v)
  | a :: b :: t => decide (a < b) && globalsOk v (b :: t)

/-- The layer of a sequence with its pending positions, for an order (R144). -/
def HideSt.layerOf (x : HideSt) (o : Order) (h l : Nat) : Option (Seq × Layer) :=
  (AMap.find (x.layerView o h l).seqs h).map (fun q => (q, q.layer l))

/-- Check one entry under the order's view (R137, R145, R148, R345): the failure, or the entry. `eff` is the layer of
the sequence in the order's own view of it. -/
def HideSt.entry (x : HideSt) (h : Nat) (t : Tab) (o : Order) (j : StepJob) (i : Nat) (r : List Byte) : (Nat × Nat) ⊕ Entry :=
  let bad := (stFieldRange, detailAt 0xFF (if j.pre then 0xFFFF else i))
  let hd := fieldAt r 0 4
  let start := o.f 24 4
  if entryBad x h j r then .inl bad
  else if j.pre && (hd != o.f 16 4 || bit (fieldAt r 13 1) 0 != bit j.flags 7 || maskFails x (start + j.q) j.q r) then .inl bad
  else match AMap.find t.seqs hd with
    | none => .inl (stBadObject, 0)
    | some s =>
      if x.seqPoison hd j.layer then .inl (stPoison, 0)
      else if s.st != .active then .inl (stNoPage, 0)
      else if s.modelId ≠ j.d.modelId then .inl (stBadObject, 0)
      else
        let l := s.layer j.layer
        let eff := l.point
        let lengths := match x.lay with | some e => e.lengths | none => false
        let v := if j.pre then start + j.q else if lengths then fieldAt r 4 4 else eff
        let gs := (List.range (fieldAt r 12 1)).map (fun k => fieldAt (o.operand (fieldAt r 20 4 + 4 * k) 4) 0 4)
        if j.pre ∧ eff < v then .inl (stFieldRange, detailAt 24)
        else if v < j.q ∨ eff < v then .inl bad
        else if !(globalsOk v gs) then .inl bad
        else
          let per := queryStride j.d j.q j.dim
          let off := (if j.pre then o.f 40 4 else o.f 36 4) + (if j.pre then 0 else i * per)
          .inr
            { idx := i, handle := hd, base := s.base, v := v, start := v - j.q, q := j.q, sparse := j.sparse,
              window := fieldAt r 8 4, globals := gs,
              mask := if bit (fieldAt r 13 1) 0 then some (o.operand (fieldAt r 16 4) (4 * maskWords v j.q)) else none,
              pages := l.pages, evicted := l.evicted, mass := s.evict.mass && !x.confidential && !j.pre,
              raw := codeRows j.dim j.rows (o.operand off (2 * j.rows * j.dim)) }

/-- The entries in order: the first failure, or all of them. -/
def HideSt.entriesFrom (x : HideSt) (h : Nat) (t : Tab) (o : Order) (j : StepJob) : Nat → List (List Byte) → (Nat × Nat) ⊕ List Entry
  | _, [] => .inr []
  | i, r :: rs =>
    match x.entry h t o j i r with
    | .inl e => .inl e
    | .inr en => match x.entriesFrom h t o j (i + 1) rs with
      | .inl e => .inl e
      | .inr es => .inr (en :: es)

/-- The later of the first two entries with one handle (R137). -/
def dupHandle : List Nat → Nat → List (List Byte) → Option Nat
  | _, _, [] => none
  | seen, i, r :: rs => if seen.contains (fieldAt r 0 4) then some i else dupHandle (fieldAt r 0 4 :: seen) (i + 1) rs

/-- Step 8 of R259 for an attention order: the failure, or the job and its entries. -/
def HideSt.stepChecks (x : HideSt) (h : Nat) (t : Tab) (o : Order) : (Nat × Nat) ⊕ (StepJob × List Entry) :=
  match x.stepJob t o with
  | .inl e => .inl e
  | .inr j =>
    match dupHandle [] 0 o.table with
    | some i => .inl (stFieldRange, detailAt 0xFF i)
    | none => match x.entriesFrom h t o j 0 o.table with
      | .inl e => .inl e
      | .inr es => .inr (j, es)

/-- The order's view with the pending positions of its layer in every sequence it names (R93, R144). -/
def HideSt.stepView (x : HideSt) (o : Order) : Tab :=
  let t := x.view o
  let hs := (o.table.map (fun r => fieldAt r 0 4)).eraseDups
  { t with seqs := t.seqs.map (fun s =>
      if hs.contains s.1 then
        match x.layerOf o s.1 o.layer with
        | some (_, l) => (s.1, { s.2 with layers := s.2.layers.map (fun y => if y.1 = o.layer then (y.1, l) else y) })
        | none => s
      else s) }

/-! ### What a row sees (R146) -/

/-- Rules 1 to 4 of R146 for query position `t` and key offset `k`. -/
def Entry.sees (e : Entry) (t k : Nat) : Bool :=
  let p := e.start + t
  decide (k ≤ p) && decide (k < e.v) && !(e.evicted.contains (k / 32)) &&
  (!e.sparse || decide (p - k < e.window) || e.globals.contains k) &&
  (match e.mask with
   | none => true
   | some m => bit (m.getD (4 * (k / 32 * e.q + t) + k % 32 / 8) 0).toNat (k % 8))

/-- Is a position of block `b` visible at query position `t`. -/
def Entry.seesBlock (e : Entry) (t b : Nat) : Bool := (List.range 32).any (fun i => e.sees t (32 * b + i))

/-- The blocks with a visible position, rising. -/
def Entry.blocks (e : Entry) : List Nat :=
  (List.range (ceilDiv e.v 32)).filter (fun b => (List.range e.q).any (fun t => e.seesBlock t b))

/-- The candidate rods, rising (R160 step 1). -/
def Entry.rods (e : Entry) : List Nat :=
  let bs := e.blocks
  (List.range (ceilDiv e.v 256)).filter (fun r => bs.any (fun b => b / 8 == r))

def Entry.page (e : Entry) (r : Nat) : Page := e.pages.getD r ⟨0, 3, false, false, false, 0⟩

/-! ### Queries (R149, R156) -/

/-- The latched query rows of an entry, the absorbed ones in ABSORB mode. -/
def Entry.latched (e : Entry) (j : StepJob) : List (List Fp.Val) :=
  let base := if j.d.posenc = 1 ∧ !(bit j.flags 2) then some j.d.posParam else none
  e.raw.mapIdx (fun i x =>
    let y := Attn.latchQuery base j.qfmt (e.base + e.start + i / j.d.heads) x
    if j.mode = 1 then matVec (j.up.getD (i % j.d.heads) ⟨[], [], []⟩).a y else y)

/-! ### Summaries and selection (R159, R160, R345) -/

/-- The key under which a page's summary is named when it is poisoned. -/
def Page.sumKey (p : Page) : Nat := if p.tier = 1 then 2 ^ 40 + p.loc else p.loc

/-- The summary of a page for a KV head; none when its VALID bit reads as clear. -/
def HideSt.summary (x : HideSt) (p : Page) (head : Nat) : Option Attn.Summary :=
  if x.o.metas.contains (.summary p.sumKey) then none
  else if p.tier = 0 then (x.o.rod p.loc).sums[head]?
  else if p.tier = 1 then (AMap.find x.o.tab.exts p.loc).bind (fun e => e.sums[head]?)
  else none

/-- The bound of a rod for a KV head: U of R160. -/
def Entry.bound (e : Entry) (j : StepJob) (xs : List (List Fp.Val)) (head r : Nat) (sm : Attn.Summary) : U32 :=
  let last := 256 * r + (e.page r).fill - 1
  ((List.range e.q).flatMap (fun t => (List.range j.d.qPerKv).map (fun k => (t, head * j.d.qPerKv + k)))).foldl (fun u tq =>
    let s := Fp.mul32 (Attn.boundSum (xs.getD (tq.1 * j.d.heads + tq.2) []) sm) j.scale
    Attn.maxBound u (Attn.applyBias (j.ctx tq.2) s (e.start + tq.1 - last))) Fp.negInf

/-- Is a rod forced (R160 step 2). -/
def Entry.forced (e : Entry) (r : Nat) : Bool :=
  (List.range e.q).any (fun t => (e.start + t) / 256 == r) ||
  (e.sparse && (e.globals.any (fun g => g / 256 == r) ||
    (List.range 256).any (fun i => decide (256 * r + i ≤ e.start) && decide (e.start - (256 * r + i) < e.window))))

/-- The rods that a KV head reads (R146 rule 5, R160). -/
def HideSt.selected (x : HideSt) (j : StepJob) (e : Entry) (xs : List (List Fp.Val)) (head : Nat) : List Nat :=
  let cands := e.rods
  if j.topk = 0 then cands
  else
    let sums := cands.map (fun r => (r, x.summary (e.page r) head))
    let ranked := Attn.rank (sums.filterMap (fun s =>
      if e.forced s.1 then none else s.2.map (fun sm => (e.bound j xs head s.1 sm, s.1))))
    let best := (ranked.take j.topk).map (·.2)
    (sums.filter (fun s => e.forced s.1 || s.2.isNone || best.contains s.1)).map (·.1)

/-- One rod that an entry reads: for which KV heads, and which of its blocks. -/
structure Need where
  rod : Nat
  page : Page
  heads : List Nat
  blocks : List Nat
  deriving DecidableEq, Repr

/-- Everything an entry reads. -/
def HideSt.needs (x : HideSt) (j : StepJob) (e : Entry) : List Need :=
  let xs := if j.topk = 0 then [] else e.latched j
  let sel := (List.range j.d.rodHeads).map (fun h => x.selected j e xs h)
  let bs := e.blocks
  e.rods.filterMap (fun r =>
    let hs := (List.range j.d.rodHeads).filter (fun h => (sel.getD h []).contains r)
    if hs.isEmpty then none else some ⟨r, e.page r, hs, (bs.filter (fun b => b / 8 == r)).map (· % 8)⟩)

/-- The pairs that a need reads (R77). -/
def Need.pairs (n : Need) (d : Desc) : List Nat := n.blocks.flatMap (fun b => n.heads.map (fun h => b * d.rodHeads + h))

/-- The distinct pairs of frames that entries read, as (frame, pair) (R158). -/
def spansOf (d : Desc) (ns : List Need) : List (Nat × Nat) :=
  ((ns.filter (fun n => n.page.tier == 0)).flatMap (fun n => (n.pairs d).map (fun p => (n.page.loc, p)))).eraseDups

/-- The extents that needs read. -/
def extsOf (ns : List Need) : List Nat := ((ns.filter (fun n => n.page.tier == 1)).map (fun n => n.page.loc)).eraseDups

/-- The codebook blocks that needs read, as (key, blocks) (R242). -/
def HideSt.blocksOf (x : HideSt) (d : Desc) (ns : List Need) : List (Nat × Nat) :=
  let per (ig : Option (Nat × Nat)) (n : Nat) : List (Nat × Nat) :=
    match ig.bind x.o.tab.resident with
    | some b => [(bookKey b.id b.gen, n * (d.pairRows 0).length * (32 * d.headDim / Codec.vqElems b.vqFormat))]
    | none => []
  (spansOf d ns).flatMap (fun s => per (x.o.rod s.1).book 1) ++
  (extsOf ns).flatMap (fun i => match AMap.find x.o.tab.exts i with
    | some e => if e.coded then per e.book
        ((ns.filter (fun n => n.page.tier == 1 && n.page.loc == i)).flatMap (fun n => n.pairs d)).eraseDups.length else []
    | none => [])

/-! ### Rows -/

/-- The key and value vectors of a position for query head `qh` (R156). -/
def StepJob.keyVecs (j : StepJob) (v : RodView) (qh off : Nat) : List Fp.Val × List Fp.Val :=
  let h := j.kv qh
  let k := (v.rows.getD h []).getD off (zeroVals j.d.headDim)
  if j.d.attn = 1 then
    if j.mode = 2 then
      let u := j.up.getD qh ⟨[], [], []⟩
      (matVec u.c k, matVec u.b k)
    else (k, k)
  else (k, (v.rows.getD (j.d.kvHeads + h) []).getD off (zeroVals j.d.headDim))

/-- The leaf that stands for a missed rod (R162), its summary expanded in EXPAND mode. -/
def StepJob.missLeaf (j : StepJob) (x : List Fp.Val) (qh n dist : Nat) (sm : Attn.Summary) : Attn.Leaf :=
  if j.mode = 2 then
    let u := j.up.getD qh ⟨[], [], []⟩
    let ks := sm.kmean.map (Fp.decode Fp.bf16)
    let vs := sm.vmean.map (Fp.decode Fp.bf16)
    let cd (m : List (List Fp.Val)) (y : List Fp.Val) := m.map (fun r => Fp.narrow Fp.bf16 (Fp.dot r y))
    Attn.substLeaf (j.ctx qh) x j.dv n dist { sm with kmean := cd u.c ks, vmean := cd u.b vs }
  else Attn.substLeaf (j.ctx qh) x j.dv n dist sm

/-- What an entry's rows are computed from: its views by rod, and its missed rods. -/
structure EntryData where
  needs : List Need
  views : AMap RodView
  missed : List Nat

/-- The leaves of one row over blocks 0 to B − 1 (R151, R162). -/
def HideSt.rowLeaves (x : HideSt) (j : StepJob) (e : Entry) (dat : EntryData) (t qh : Nat) (q : List Fp.Val) : List Attn.Leaf :=
  (List.range (ceilDiv e.v 32)).map (fun b =>
    let r := b / 8
    match dat.needs.find? (fun n => n.rod == r) with
    | none => Attn.emptyLeaf j.dv
    | some n =>
      if !(n.heads.contains (j.kv qh)) then Attn.emptyLeaf j.dv
      else if dat.missed.contains r then
        if b % 8 ≠ 0 then Attn.emptyLeaf j.dv
        else
          let cnt := ((List.range 256).filter (fun i => e.sees t (256 * r + i))).length
          match x.summary n.page (j.kv qh) with
          | some sm => j.missLeaf q qh cnt (e.start + t - (256 * r + 127)) sm
          | none => Attn.emptyLeaf j.dv
      else if !(n.blocks.contains (b % 8)) then Attn.emptyLeaf j.dv
      else
        let v := dat.views.get RodView.none r
        Attn.leaf (j.ctx qh) q j.dv ((List.range 32).map (fun i =>
          let k := 32 * b + i
          if e.sees t k then
            let kv := j.keyVecs v qh (k % 256)
            some ⟨kv.1, kv.2, e.start + t - k⟩
          else none)))

/-- The tree of R152. -/
def rowRoot (dv : Nat) (ls : List Attn.Leaf) : Attn.Leaf := Attn.root Attn.combine (Attn.emptyLeaf dv) ls.length ls

/-- One row: its leaves, root and result (R153, R156). -/
def HideSt.row (x : HideSt) (j : StepJob) (e : Entry) (dat : EntryData) (t qh : Nat) (q : List Fp.Val) :
    List Attn.Leaf × Attn.Leaf × Attn.RowOut :=
  let ls := x.rowLeaves j e dat t qh q
  let r := rowRoot j.dv ls
  let v := Attn.finalRow j.partialOut r
  let v := if j.mode = 1 then
      let y := v.map (fun a => Fp.val32 (Fp.roundBf16 a))
      (j.up.getD qh ⟨[], [], []⟩).b.map (fun c => Fp.dot c y)
    else v
  (ls, r, Attn.rowOut j.fmt j.dim r v)

/-- The masses of the blocks that an entry read (R103); `rs` lists its rows in the order of R103. -/
def massesOf (blocks : List Nat) (rs : List (List Attn.Leaf × Attn.Leaf)) : List (Nat × U32) :=
  blocks.map (fun b => (b, rs.foldl (fun a r =>
    match r.1[b]? with
    | none => a
    | some l =>
      if r.2.nan || l.subst || l.m = Fp.negInf || !(Fp.lt32 Fp.zero32 r.2.l) then a
      else Fp.add32 a (Fp.div32 (Fp.mul32 (Fp.exp32 (Fp.diff32 l.m r.2.m)) l.l) r.2.l)) Fp.zero32))

/-! ### Output entries (R141, R142) -/

/-- Pad bytes with zeros to a multiple. -/
def padTo (a : Nat) (bs : List Byte) : List Byte := bs ++ List.replicate (roundUp bs.length a - bs.length) 0

/-- Row flags, statistics and rows of an entry. -/
def entryBody (fmt : Nat) (stats : Bool) (rs : List Attn.RowOut) : List Byte :=
  padTo 64 (rs.map Attn.rowFlag) ++
  (if stats then padTo 64 (rs.flatMap (fun r => leBytes 4 r.m.toNat ++ leBytes 4 r.l.toNat)) else []) ++
  rs.flatMap (fun r => r.row.flatMap (leBytes (Attn.outBytes fmt)))

/-- The header of an entry (R142). -/
def entryHeader (status handle subst defers flags : Nat) : List Byte :=
  leBytes 4 (status + 256) ++ leBytes 4 handle ++ leBytes 2 (min subst 0xFFFF) ++ leBytes 1 defers ++ leBytes 1 flags ++
    List.replicate 52 0

/-- The two writes of an entry: body, then header. -/
def entryPieces (idx addr : Nat) (body header : List Byte) (ep : Bool) : List HeldOut :=
  [⟨idx, addr + 64, body, ep, false⟩, ⟨idx, addr, header, false, true⟩]

/-- An entry that has been computed: its writes, its status and its masses. -/
structure EntryRes where
  pieces : List HeldOut
  status : Nat
  masses : List (Nat × U32)

/-- The status that several failures give an entry. -/
def worseEntry (l : List Nat) : Nat :=
  if l.contains stPoison then stPoison
  else if l.contains stCodebookRetired then stCodebookRetired
  else if l.contains stCheckFail then stCheckFail else 0

/-- The failed result of an entry (R143, R164, R344). -/
def failedEntry (j : StepJob) (e : Entry) (status subst defers : Nat) : EntryRes :=
  let rows := List.replicate j.rows (Attn.zeroRow j.dim)
  let addr := j.addr + (if j.pre then 0 else e.idx * j.stride)
  ⟨entryPieces e.idx addr (entryBody j.fmt j.stats rows) (entryHeader status e.handle subst defers 0)
    (status == stPoison || status == stCodebookRetired), status, []⟩

/-- Compute an entry: `order` names its fetches, `missed` its missed rods, `tile` an uncorrectable tile-buffer word. -/
def HideSt.computeEntry (x : HideSt) (j : StepJob) (e : Entry) (order : Nat) (missed : List Nat) (tile : Bool) (defers : Nat) : EntryRes :=
  let ns := x.needs j e
  let read := ns.filter (fun n => !(missed.contains n.rod))
  let views : AMap RodView := read.map (fun n => (n.rod, x.o.tab.viewRod j.d (x.pageRod j.d order n.page)))
  let gone := ns.filter (fun n => missed.contains n.rod)
  let subst := gone.foldl (fun k n => k + n.heads.length) 0
  let noSum := gone.any (fun n => n.heads.any (fun h => (x.summary n.page h).isNone))
  let st := worseEntry (read.map (fun n => (views.get RodView.none n.rod).status (n.pairs j.d)) ++ [j.upStatus] ++
    (if noSum then [stPoison] else []) ++ (if tile then [stCheckFail] else []))
  if st ≠ 0 then failedEntry j e st 0 defers
  else
    let dat : EntryData := ⟨ns, views, missed⟩
    let qs := e.latched j
    let rows := (List.range e.q).flatMap (fun t => (List.range j.d.heads).map (fun qh =>
      x.row j e dat t qh (qs.getD (t * j.d.heads + qh) [])))
    let outs := rows.map (·.2.2)
    let status := if gone.isEmpty then stOk else stOkDegraded
    let flags := (if outs.any (·.empty) then 1 else 0) + (if outs.any (·.nanIn) then 2 else 0)
    let addr := j.addr + (if j.pre then 0 else e.idx * j.stride)
    ⟨entryPieces e.idx addr (entryBody j.fmt j.stats outs) (entryHeader status e.handle subst defers flags) false, status,
      if e.mass then massesOf (read.flatMap (fun n => n.blocks.map (fun b => 8 * n.rod + b))) (rows.map (fun r => (r.1, r.2.1))) else []⟩

end Sys2Proof.Machine
end

