-- ==== Sys2Proof/Machine/Backward.lean ====
section
/-!
DEFINITION. The gradients of one layer's attention (R187 to R189, R209): the work of STEP_BACKWARD.
-/

namespace Sys2Proof.Machine
open Sys2Proof

/-- One row's inputs (R188): query, output gradient, forward output, saved statistics. -/
structure BackRow where
  t : Nat
  qh : Nat
  x : List Fp.Val
  g : List Fp.Val
  o : List U32
  m : U32
  l : U32
  deriving DecidableEq, Repr

/-- The rows of the input block (R188). -/
def Entry.backRows (e : Entry) (j : StepJob) (o : Order) : List BackRow :=
  let dim := j.d.headDim
  let part := roundUp (j.rows * dim * 2) 256
  let bs := o.operand (o.f 40 4) (backInput j.d j.q)
  let gs := codeRows dim j.rows (bs.drop part)
  let os := codeRows dim j.rows (bs.drop (2 * part))
  let st := bs.drop (3 * part)
  let f := Attn.outFmt j.qfmt
  (e.latched j).mapIdx (fun i x =>
    { t := i / j.d.heads, qh := i % j.d.heads, x := x, g := (gs.getD i []).map (Fp.decode f),
      o := (os.getD i []).map (Fp.widen f), m := BitVec.ofNat 32 (fieldAt st (8 * i) 4),
      l := BitVec.ofNat 32 (fieldAt st (8 * i + 4) 4) })

/-- A row's contribution at one key: its offset, `P`, `ds` and the key vector (R189). -/
structure Contribution where
  k : Nat
  p : U32
  ds : U32
  key : List Fp.Val

/-- A row after its contributions: empty, NaN, with an infinite score, its dQ (R189, R209, R211). -/
structure BackOut where
  row : BackRow
  empty : Bool
  nan : Bool
  infScore : Bool
  dq : List U32
  cs : List Contribution

/-- The balanced tree of plain fp32 sums over block sums (R189). -/
def treeSum (l : List U32) : U32 :=
  let n := if l.length ≤ 1 then 1 else 2 ^ (Nat.log2 (l.length - 1) + 1)
  Attn.root Fp.add32 Fp.zero32 n (l ++ List.replicate (n - l.length) Fp.zero32)

/-- One row of the backward pass. -/
def backRow (j : StepJob) (e : Entry) (dat : EntryData) (r : BackRow) : BackOut :=
  let dim := j.d.headDim
  if r.m = Fp.negInf ∨ (Fp.val32 r.l).isZero then
    ⟨r, true, false, false, List.replicate dim Fp.zero32, []⟩
  else
    let delta := Attn.backDelta (r.g.map Fp.to32) r.o
    let ks := (List.range e.v).filter (fun k => e.sees r.t k)
    let cs := ks.map (fun k =>
      let kv := j.keyVecs (dat.views.get RodView.none (k / 256)) r.qh (k % 256)
      let key : Attn.Key := ⟨kv.1, kv.2, e.start + r.t - k⟩
      let pd := Attn.backKey (j.ctx r.qh) r.x r.g r.m r.l delta key
      (Contribution.mk k pd.1 pd.2 kv.1, Attn.score (j.ctx r.qh) r.x key))
    let dq := (List.range dim).map (fun d =>
      let sums := (List.range (ceilDiv e.v 32)).map (fun b =>
        Fp.dotProducts ((List.range 32).map (fun i =>
          match cs.find? (fun c => c.1.k == 32 * b + i) with
          | some c => (Fp.val32 c.1.ds).mul (Attn.at' c.1.key d)
          | none => .fin false 0 0)))
      Fp.mul32 (treeSum sums) j.scale)
    let nan := Fp.isNan32 r.m || Fp.isNan32 r.l || Fp.isNan32 delta || dq.any Fp.isNan32 ||
      cs.any (fun c => Fp.isNan32 c.1.p || Fp.isNan32 c.1.ds || Fp.isNan32 c.2)
    if nan then
      ⟨r, false, true, false, List.replicate dim Fp.nan32, cs.map (fun c => { c.1 with p := Fp.nan32, ds := Fp.nan32 })⟩
    else ⟨r, false, false, cs.any (fun c => Fp.isInf32 c.2), dq, cs.map (·.1)⟩

/-- The sum of some rows' contributions at a key, in row order: (dK, dV) before SCALE (R189). -/
def keyGrad (dim : Nat) (rows : List BackOut) (k : Nat) : List U32 × List U32 :=
  rows.foldl (fun acc r =>
    match r.cs.find? (fun c => c.k == k) with
    | none => acc
    | some c =>
      (List.zipWith (fun a x => Fp.add32 a (Fp.mul32 c.ds (Fp.to32 x))) acc.1 r.row.x,
       List.zipWith (fun a g => Fp.add32 a (Fp.mul32 c.p (Fp.to32 g))) acc.2 r.row.g))
    (List.replicate dim Fp.zero32, List.replicate dim Fp.zero32)

/-- A gradient row in GRAD_FORMAT (R187). -/
def gradRow (fmt : Nat) (v : List U32) : List Byte := v.flatMap (fun x => leBytes (gradBytes fmt) (Fp.narrow (Attn.outFmt fmt) x))

/-- The writes of the gradient area (R188): its parts, then its header. -/
def backPieces (j : StepJob) (flags : List Byte) (dq dk dv header : List Byte) (ep : Bool) : List HeldOut :=
  let hp := padTo 4096 (List.replicate 64 0 ++ flags)
  let a := j.addr
  let q := padTo 4096 dq
  let k := padTo 4096 dk
  [⟨0, a + 64, hp.drop 64, ep, false⟩, ⟨0, a + hp.length, q, ep, false⟩, ⟨0, a + hp.length + q.length, k, ep, false⟩,
   ⟨0, a + hp.length + q.length + k.length, padTo 4096 dv, ep, false⟩, ⟨0, a, header, false, true⟩]

/-- A failed STEP_BACKWARD: zero rows and a clean header (R344). -/
def failedBack (j : StepJob) (e : Entry) (kcount status : Nat) : EntryRes :=
  let z := List.replicate (j.rows * j.d.headDim * gradBytes j.fmt) (0 : Byte)
  let kz := List.replicate (kcount * j.d.kvHeads * j.d.headDim * gradBytes j.fmt) (0 : Byte)
  ⟨backPieces j (List.replicate j.rows 0) z kz kz (entryHeader status e.handle 0 0 0)
    (status == stPoison || status == stCodebookRetired), status, []⟩

/-- Compute the gradients of an order. A missed rod has no stand-in here, so the order times out (assumption 31). -/
def HideSt.computeBack (x : HideSt) (j : StepJob) (o : Order) (e : Entry) (missed : List Nat) (tile : Bool) : EntryRes :=
  let ns := x.needs j e
  let kfirst := o.f 48 4
  let kcount := o.f 52 4
  let views : AMap RodView := ns.map (fun n => (n.rod, x.o.tab.viewRod j.d (x.pageRod j.d o.seq n.page)))
  let st := worseEntry (ns.map (fun n => (views.get RodView.none n.rod).status (n.pairs j.d)) ++
    (if tile then [stCheckFail] else []))
  if ns.any (fun n => missed.contains n.rod) then failedBack j e kcount stTimeout
  else if st ≠ 0 then failedBack j e kcount st
  else
    let outs := (e.backRows j o).map (backRow j e ⟨ns, views, []⟩)
    let unrot (p : Nat) (v : List U32) : List U32 := if bit j.flags 8 then Attn.rotate j.d.posParam p true v else v
    let dq := outs.flatMap (fun r => gradRow j.fmt (unrot (e.base + e.start + r.row.t) r.dq))
    let grads := (List.range kcount).flatMap (fun i => (List.range j.d.kvHeads).map (fun h =>
      let g := keyGrad j.d.headDim (outs.filter (fun r => j.kv r.row.qh == h)) (kfirst + i)
      (unrot (e.base + kfirst + i) (g.1.map (fun a => Fp.mul32 a j.scale)), g.2)))
    let flags := outs.map (fun r => BitVec.ofNat 8 ((if r.empty then 1 else 0) + (if r.nan then 2 else 0) + (if r.infScore then 4 else 0)))
    let hf := (if outs.any (·.empty) then 1 else 0) + (if outs.any (·.nan) then 2 else 0)
    ⟨backPieces j flags dq (grads.flatMap (fun g => gradRow j.fmt g.1)) (grads.flatMap (fun g => gradRow j.fmt g.2))
      (entryHeader stOk e.handle 0 0 hf) false, stOk, []⟩

end Sys2Proof.Machine
end

