-- ==== Sys2Proof/Machine/StepOrders.lean ====
section
/-!
DEFINITION. The orders that attend (R135 to R172, R184 to R189): STEP_DECODE, STEP_PREFILL, STEP_BACKWARD, their fetches
and their re-entries.
-/

namespace Sys2Proof.Machine
open Sys2Proof

/-! ### Capacity (R53, R165, R166) -/

/-- Give entries to buckets, largest first: the units taken per bucket, or none when an entry finds no unit (R165). -/
def assignBuckets (sl : Slot) (used : Nat → Nat) : List Nat → AMap Nat → Option (AMap Nat)
  | [], acc => some acc
  | v :: vs, acc =>
    match sl.buckets.zipIdx.find? (fun b => decide (v ≤ b.1.1) && decide (used b.2 + AMap.get 0 acc b.2 < b.1.2)) with
    | none => none
    | some b => assignBuckets sl used vs (acc.set b.2 (AMap.get 0 acc b.2 + 1))

/-- Products per cycle of a unit by storage format (R15), and elements per cycle from the tile buffer (R229). -/
def macRate (fmt : Nat) : Nat := if fmt = 1 ∨ fmt = 2 then 4 else if fmt = 7 then 16 else 8
def bufferElems (fmt : Nat) : Nat := 256 * 8 / Codec.elemBits fmt

/-- Engine cycles of `rows` rows scored against a pair of spans (R166, R229); `coded` gives the entry format. -/
def StepJob.pairCycles (j : StepJob) (coded : Option Nat) (rows : Nat) : Nat :=
  let elems := (if j.d.attn = 1 then 2 else (j.d.pairRows 0).length) * 32 * j.d.headDim
  let fmt := coded.getD j.d.kvFormat
  let feed := if coded.isSome then 76 else bufferElems fmt
  let rate := min (76 * macRate fmt) (feed * min rows 16)
  let up := if j.mode = 2 then ceilDiv (2 * 32 * j.d.headDim * j.dh * j.d.heads) (76 * macRate fmt) else 0
  if rate = 0 then 0 else ceilDiv (elems * rows) rate + up

/-- Rows of the batch that are scored against a pair of a frame. -/
def pairRows (j : StepJob) (nes : List (Entry × List Need)) (k p : Nat) : Nat :=
  nes.foldl (fun n en =>
    en.2.foldl (fun n d =>
      if d.page.tier = 0 ∧ d.page.loc = k ∧ d.heads.contains (p % j.d.rodHeads) ∧ d.blocks.contains (p / j.d.rodHeads) then
        n + ((List.range en.1.q).filter (fun t => en.1.seesBlock t (8 * d.rod + p / j.d.rodHeads))).length * j.d.qPerKv
      else n) n) 0

/-- The demand of an order on one cluster: bank-port bytes and engine cycles (R166). -/
def HideSt.clusterDemand (x : HideSt) (j : StepJob) (nes : List (Entry × List Need)) : List (Nat × Nat × Nat) :=
  let spans := spansOf j.d (nes.flatMap (·.2))
  let costs := spans.map (fun s => (x.pairCost j.d s.1 s.2,
    j.pairCycles (((x.o.rod s.1).book.bind x.o.tab.resident).map (·.entryFormat)) (pairRows j nes s.1 s.2)))
  let cs := (costs.map (·.1.cluster)).eraseDups
  cs.map (fun c =>
    let mine := costs.filter (fun k => k.1.cluster == c)
    (c, mine.foldl (fun n k => n + k.1.bytes) 0 + 64 * ((mine.filterMap (·.1.check)).eraseDups).length,
      mine.foldl (fun n k => n + k.2) 0))

/-- What entries take of a slot (R53, R165, R166). -/
def HideSt.stepFit (x : HideSt) (j : StepJob) (nes : List (Entry × List Need)) : Fit := fun used i sl =>
  let units := nes.length
  if sl.cap < AMap.get 0 used (slotKey i) + units then none
  else
    let base := [(slotKey i, units)]
    let lengths := match x.lay with | some e => e.lengths | none => false
    if lengths then
      let ds := x.clusterDemand j nes
      let kb (c : Nat) := slotKey i + 16 + 2 * c
      if ds.all (fun d => decide (AMap.get 0 used (kb d.1) + d.2.1 ≤ sl.bytesBudget) &&
          decide (AMap.get 0 used (kb d.1 + 1) + d.2.2 ≤ sl.cyclesBudget)) then
        some (base ++ ds.flatMap (fun d => [(kb d.1, d.2.1), (kb d.1 + 1, d.2.2)]))
      else none
    else
      let vs := sortBy (fun v => 2 ^ 32 - v) (nes.map (fun e => e.1.v))
      match assignBuckets sl (fun b => AMap.get 0 used (slotKey i + 1 + b)) vs [] with
      | none => none
      | some m => some (base ++ m.map (fun b => (slotKey i + 1 + b.1, b.2)))

/-- The fit of a STEP_DECODE; one that will fail its checks asks for its entries alone. -/
def decodeFit (h : Nat) (x : HideSt) (o : Order) : Fit :=
  match x.stepChecks h (x.stepView o) o with
  | .inl _ => plainFit (x.demand o)
  | .inr (j, es) => x.stepFit j (es.map (fun e => (e, x.needs j e)))

/-! ### Writing output (R142, R143, R347) -/

/-- An unresolved replay unit holds an entry of an order back. -/
def State.heldBack (s : State) (h seq i : Nat) : Bool :=
  s.screen.units.any (fun u => u.hide == h && u.order == seq && u.consumers.contains i)

/-- Count an entry that has been written (R143, R264). -/
def Flight.note (f : Flight) (i : Nat) (hdr : List Byte) : Flight :=
  let st := fieldAt hdr 0 1
  let sub := fieldAt hdr 8 2
  if f.order.opcode = 0x08 then
    let (ok, deg, bad, tot) := f.tally
    let t := if 0x10 ≤ st then (ok, deg, bad + 1, tot + sub) else if st = stOkDegraded then (ok, deg + 1, bad, tot + sub)
      else (ok + 1, deg, bad, tot + sub)
    let ff := if st < 0x10 then f.firstFail else
      match f.firstFail with
      | some (k, w) => if i < k then some (i, st) else some (k, w)
      | none => some (i, st)
    { f with
      tally := t
      firstFail := ff
      status := match ff with | some (_, w) => w | none => if t.2.1 ≠ 0 then stOkDegraded else stOk
      result := leBytes 2 t.1 ++ leBytes 2 t.2.1 ++ leBytes 2 t.2.2.1 ++ leBytes 4 t.2.2.2 }
  else if f.order.opcode = 0x09 then
    { f with
      status := if st = stOkReplayed then stOk else st
      result := leBytes 2 sub ++ leBytes 1 (fieldAt hdr 10 1) }
  else { f with status := if st = stOkReplayed then stOk else st }

/-- Make writes of an order, in order; a header is counted. -/
def State.putPieces (s : State) (h : Nat) (f : Flight) (ps : List HeldOut) : State × Flight :=
  ps.foldl (fun (a : State × Flight) p =>
    let s := a.1.dmaWrite h p.addr p.data p.ep
    if p.hdr then
      let s := if f.order.opcode = 0x08 then s.upC h (fun c => c.consumer (fieldAt p.data 0 1)) else s
      (s, a.2.note p.entry p.data)
    else (s, a.2)) (s, f)

/-- Write an entry, or hold it while a unit that it depends on waits for its replay (R347). -/
def State.emit (s : State) (h : Nat) (f : Flight) (i : Nat) (ps : List HeldOut) : State × Flight :=
  if s.heldBack h f.order.seq i then (s, { f with outs := f.outs ++ ps }) else s.putPieces h f ps

/-- A held write after a clean replay: its header carries REPLAYED (R142, R350). -/
def HeldOut.replayed (p : HeldOut) : HeldOut :=
  if p.hdr then
    let st := fieldAt p.data 0 1
    { p with data := leBytes 4 ((if st = stOk then stOkReplayed else st) + 256 + 512) ++ p.data.drop 4 }
  else p

/-- A held write whose consumer fails: zeros, and a header with its status (R143). -/
def HeldOut.failed (status : Nat) (p : HeldOut) : HeldOut :=
  if p.hdr then
    { p with data := if p.data.length = 64 then entryHeader status (fieldAt p.data 4 4) 0 (fieldAt p.data 10 1) 0
        else leBytes 4 (status + 256) ++ List.replicate (p.data.length - 4) 0 }
  else { p with data := List.replicate p.data.length 0 }

/-! ### The state of a step in flight -/

/-- The entries that are at work: those not yet written and not withdrawn. -/
def Flight.active (f : Flight) (es : List Entry) : List Entry :=
  es.filter (fun e =>
    let d := f.deferred.find? (fun d => d.entry == e.idx)
    if f.phase = 0 then d.isNone else match d with | some d => !d.waiting | none => false)

/-- Re-entries that an entry has used (R163). -/
def Flight.defers (f : Flight) (i : Nat) : Nat := match f.deferred.find? (fun d => d.entry == i) with | some d => d.count | none => 0

/-- Has every fetch that a flight needs arrived, or passed its deadline. -/
def OPart.fetchesDecided (o : OPart) (f : Flight) : Bool :=
  f.fetches.all (fun i => match AMap.find o.fetches i with | some k => k.arrived || k.past | none => true)

/-- The rods of an entry's needs whose fetch missed its deadline (R161). -/
def OPart.missedRods (o : OPart) (order : Nat) (ns : List Need) : List Nat :=
  (ns.filter (fun n => n.page.tier == 1 &&
    (match o.fetchFor order n.page.loc with | some (_, k) => k.missed || !k.arrived | none => true))).map (·.rod)

/-- PL_MISS of the section: is the policy DEFER, and DEFER_LIMIT (R163, R426). -/
def HideSt.deferPolicy (x : HideSt) : Bool := match x.sec with | some s => bit s.plMiss.toNat 4 | none => false
def HideSt.deferLimit (x : HideSt) : Nat := match x.sec with | some s => bits s.plMiss.toNat 0 4 | none => 0

/-- The entries that depend on a suspect unit (R350). -/
def consumersOf (nes : List (Entry × List Need)) : UnitRef → List Nat
  | .leaf i b hd =>
    match nes.find? (fun n => n.1.idx == i) with
    | none => []
    | some (e, _) =>
      let p := e.page (b / 8)
      (nes.filter (fun n => n.1.idx == i || n.2.any (fun m => m.page.tier == p.tier && m.page.loc == p.loc &&
        m.heads.contains hd && m.blocks.contains (b % 8)))).map (·.1.idx)
  | .node i => [i]
  | .output i => [i]
  | .whole => nes.map (·.1.idx)

/-- A step has written its last entry. -/
def State.stepDone (s : State) (h : Nat) (f : Flight) (j : StepJob) (es : List Entry) : State :=
  let f := f.withFetched (s.hide h).o
  let s := s.dropFetches h f.order.seq
  s.settle h { f with
    ended := true
    fetches := []
    deferred := []
    fx := f.fx ++ (if j.sparse && f.order.opcode != 0x0A then es.map (fun e => Fx.globals e.handle e.globals) else []) }

/-- After some entries are dealt with: the step is done, or waits for its deferred entries (R163). -/
def State.stepNext (s : State) (h : Nat) (f : Flight) (j : StepJob) (es : List Entry) : State :=
  if f.deferred.isEmpty then s.stepDone h f j es
  else s.settle h { f with phase := if f.deferred.all (·.waiting) then 1 else 2 }

/-- Compute every entry at work and write it. -/
def stepRun (h c : Nat) (e : Env) (s : State) (f : Flight) : State :=
  let s := s.stored h e
  let x := s.hide h
  match x.stepChecks h f.view f.order with
  | .inl (st, d) => (s.dropFetches h f.order.seq).settle h { (f.withFetched x.o).fail st d with fetches := [], deferred := [] }
  | .inr (j, es) =>
    let act := f.active es
    let nes := act.map (fun e => (e, x.needs j e))
    let f := (s.at c f).readLines (linesOf ((spansOf j.d (nes.flatMap (·.2))).map (fun sp => x.pairCost j.d sp.1 sp.2)))
    let (s, f) := s.hold h f (consumersOf nes) e.suspects
    let (s, f) := nes.foldl (fun (a : State × Flight) en =>
      let missed := x.o.missedRods f.order.seq en.2
      let tile := e.tile.contains en.1.idx
      let r := if f.order.opcode = 0x0A then x.computeBack j f.order en.1 missed tile
        else x.computeEntry j en.1 f.order.seq missed tile (f.defers en.1.idx)
      let (s, g) := a.1.emit h a.2 en.1.idx r.pieces
      if !en.1.mass || decide (0x10 ≤ r.status) then (s, g)
      else (s, { g with fx := g.fx ++ [.mass en.1.handle j.layer r.masses] })) (s, f)
    let done := act.map (·.idx)
    s.stepNext h { f with deferred := f.deferred.filter (fun d => !(done.contains d.entry)) } j es

/-- Fetch what a step needs and has no fetch for; drop what it does not read (R161). -/
def State.stepFetches (s : State) (h : Nat) (f : Flight) (ns : List Need) : State × Flight :=
  let keep := extsOf ns
  let s := s.upO h (fun o => { o with fetches := o.fetches.map (fun k =>
    if k.2.order == f.order.seq && !(keep.contains k.2.extent) then (k.1, { k.2 with dropped := true }) else k) })
  let lr (e : Nat) : Nat := match ns.find? (fun n => n.page.tier == 1 && n.page.loc == e) with | some n => n.rod | none => 0
  keep.foldl (fun (a : State × Flight) e =>
    match (a.1.hide h).o.fetches.find? (fun k => k.2.order == f.order.seq && k.2.extent == e && !k.2.dropped) with
    | some (i, _) => (a.1, { a.2 with fetches := a.2.fetches ++ [i] })
    | none =>
      let (s, i) := a.1.fetch h f.order.seq f.order.layer (lr e) e
      (s, { a.2 with fetches := a.2.fetches ++ [i] })) (s, f)

/-- Add an order's blocks to QUEUED of their generations (R242). -/
def State.queueBlocks (s : State) (h : Nat) (f : Flight) (ks : List (Nat × Nat)) : State × Flight :=
  let add (bs : AMap BookRec) (k : Nat × Nat) : AMap BookRec :=
    match AMap.find bs k.1 with
    | some b => bs.set k.1 { b with queued := b.queued + k.2 }
    | none => bs
  (s.upO h (fun o => { o with tab := { o.tab with books := ks.foldl add o.tab.books } }), { f with queued := f.queued ++ ks })

/-- A step at its admission: its checks, its fetches, and its work when nothing is awaited. -/
def stepWork (h c : Nat) (e : Env) (s : State) (o : Order) (f : Flight) : State :=
  let s := s.stored h e
  let x := s.hide h
  let t := x.stepView o
  match x.stepChecks h t o with
  | .inl (st, d) => (s.dropFetches h o.seq).keep h ((f.withFetched x.o).fail st d)
  | .inr (j, es) =>
    let ns := es.flatMap (x.needs j)
    let (s, f) := s.stepFetches h { f with view := t } ns
    let (s, f) := s.queueBlocks h f (x.blocksOf j.d ns)
    let s := s.keep h f
    if (s.hide h).o.fetchesDecided f then stepRun h c { e with dram := [], badCheck := [], metas := [], setPoison := [], statePoison := [] } s f else s

/-- The first step in flight of an opcode whose fetches are decided. -/
def HideSt.stepWaiting (x : HideSt) (op : Nat) : Option Flight :=
  x.q.flights.find? (fun f => f.order.opcode == op && !f.ended && f.phase != 1 && x.o.fetchesDecided f)

/-- A row of a step order: continue one in flight, otherwise admit the next. -/
def State.stepRow (s : State) (h c op : Nat) (cls : SlotClass) (fit : HideSt → Order → Fit) (e : Env) : State :=
  match (s.hide h).stepWaiting op with
  | some f => stepRun h c e s f
  | none => s.admitFirst h c cls (fun o => o.opcode == op) fit (stepWork h c e)

def execStepDecode (h : Hide) (c : Chain) (e : Env) (s : State) : Host.Outcome State Fault Refusal :=
  .next (s.stepRow h c 0x08 .decode (decodeFit h) e)
def execStepPrefill (h : Hide) (c : Chain) (e : Env) (s : State) : Host.Outcome State Fault Refusal :=
  .next (s.stepRow h c 0x09 .prefill demandFit e)
def execStepBackward (h : Hide) (c : Chain) (e : Env) (s : State) : Host.Outcome State Fault Refusal :=
  .next (s.stepRow h c 0x0A .backward demandFit e)

/-! ### Fetches (R129, R161 to R163, R325, R326) -/

/-- Take a fetch and its transfer out, and issue what waits for its space. -/
def State.endFetch (s : State) (h id : Nat) (k : Fetch) : State :=
  (s.upO h (fun o => { o with fetches := o.fetches.erase id, jobs := match k.job with | some j => o.jobs.erase j | none => o.jobs })).pumpFetches h

/-- Set the flags of a fetch. -/
def State.markFetch (s : State) (h id : Nat) (k : Fetch) : State := s.upO h (fun o => { o with fetches := o.fetches.set id k })

/-- Withdraw the entries of a step that read a missed extent (R163). -/
def State.withdraw (s : State) (h : Nat) (f : Flight) (ext : Nat) : State :=
  let x := s.hide h
  match x.stepChecks h f.view f.order with
  | .inl _ => s
  | .inr (j, es) =>
    let hit := (f.active es).filter (fun e => (x.needs j e).any (fun n => n.page.tier == 1 && n.page.loc == ext))
    let (s, f) := hit.foldl (fun (a : State × Flight) e =>
      let k := a.2.defers e.idx
      let rest := a.2.deferred.filter (fun d => d.entry != e.idx)
      if x.deferLimit ≤ k then
        let (s, g) := a.1.putPieces h a.2 (failedEntry j e stTimeout 0 k).pieces
        (s, { g with deferred := rest })
      else (a.1, { a.2 with deferred := rest ++ [⟨e.idx, k, s.plan.furlong, true⟩] })) (s, f)
    if (f.active es).isEmpty then s.stepNext h f j es else s.settle h f

/-- A fetch has missed its deadline: every entry that reads the rod substitutes its summary, or is withdrawn (R161 to
R163). -/
def State.missFetch (s : State) (h id : Nat) (k : Fetch) : State :=
  let s := s.markFetch h id { k with past := true, missed := true }
  let x := s.hide h
  match x.q.flights.find? (fun f => f.order.seq == k.order && !f.ended) with
  | none => s
  | some f => if x.deferPolicy && (f.order.opcode == 0x08 || f.order.opcode == 0x09) then s.withdraw h f k.extent else s

/-- An append whose COW rod cannot be read ends at once, before any effect (R129). -/
def State.endAppend (s : State) (h seq status : Nat) : State :=
  match (s.hide h).q.queue.find? (fun o => o.seq == seq) with
  | none => s
  | some o =>
    let s := s.upQ h (fun q => { q with queue := q.queue.filter (fun p => p.seq != seq) })
    (s.dropFetches h seq).endTaken h o status 0 []

/-- Does an entry that waits for its re-entry still wait for this fetch. -/
def HideSt.stillAwaited (x : HideSt) (id : Nat) : Bool :=
  x.q.flights.any (fun f => !f.ended && f.fetches.contains id && f.deferred.any (·.waiting))

/-- FETCH_ARRIVAL: the last data of a fetch is in, or its transfer has failed (R129, R161, R325, R326). -/
def fetchArrival (h id : Nat) (s : State) : State :=
  let x := s.hide h
  match AMap.find x.o.fetches id with
  | none => s
  | some k =>
    match k.job.bind (AMap.find x.o.jobs) with
    | none => s
    | some j =>
      match j.status with
      | none => s
      | some st =>
        let late := k.missed && !(x.stillAwaited id && st != stTimeout)
        if k.arrived then s
        else if k.dropped || late then
          let s := s.endFetch h id k
          let s := if st = stTimeout then s else s.countCt h { Ct.zero with flashSectors := BitVec.ofNat 64 (k.bytes / 4096) }
          if k.missed && st != stTimeout then s.upPort j.module (fun p => { p with late := satInc p.late }) else s
        else if (x.q.queue.any (fun o => o.seq == k.order && o.opcode == 0x0B)) && st != stOk then s.endAppend h k.order st
        else if st = stTimeout then
          -- a fetch of an order not yet admitted is issued again at its admission (R161)
          if x.q.flights.any (fun f => f.order.seq == k.order) then s.missFetch h id k else s.endFetch h id k
        else s.markFetch h id { k with arrived := true, missed := false }

def execFetchArrival (h : Hide) (id : Nat) (s : State) : Host.Outcome State Fault Refusal := .next (fetchArrival h id s)

/-- FETCH_DEADLINE: the deadline of a rod that an admitted step reads (R161). Arrival in the same cycle wins; the fetch
of an append has no deadline (R129). -/
def fetchDeadline (h id : Nat) (s : State) : State :=
  let x := s.hide h
  match AMap.find x.o.fetches id with
  | none => s
  | some k =>
    if k.past || k.dropped || !(x.q.flights.any (fun f => f.order.seq == k.order && f.order.opcode != 0x14 && f.fetches.contains id)) then s
    else
      let inNow := k.arrived || (match k.job.bind (AMap.find x.o.jobs) with
        | some j => j.status.isSome && j.status != some stTimeout
        | none => false)
      if inNow then s.markFetch h id { k with arrived := true, past := true } else s.missFetch h id k

def execFetchDeadline (h : Hide) (id : Nat) (s : State) : Host.Outcome State Fault Refusal := .next (fetchDeadline h id s)

/-! ### Re-entry (R163) -/

/-- The first step with an entry to re-enter in this furlong. -/
def HideSt.toReenter (x : HideSt) (furlong : Nat) : Option Flight :=
  x.q.flights.find? (fun f => !f.ended && f.phase == 1 && f.deferred.any (fun d => d.waiting && decide (d.since < furlong)))

/-- New deadlines for the fetches of a step; one that failed is issued again. -/
def State.renewFetches (s : State) (h : Nat) (f : Flight) : State × Flight :=
  f.fetches.foldl (fun (a : State × Flight) i =>
    match AMap.find (a.1.hide h).o.fetches i with
    | none => a
    | some k =>
      let dead := !k.arrived && (match k.job.bind (AMap.find (a.1.hide h).o.jobs) with | some j => j.status.isSome | none => false)
      if k.arrived then (a.1.markFetch h i { k with past := true, missed := false }, a.2)
      else if dead then
        let s := a.1.endFetch h i k
        let (s, n) := s.fetch h k.order k.layer k.rod k.extent
        (s, { a.2 with fetches := a.2.fetches.map (fun y => if y = i then n else y) })
      else (a.1.markFetch h i { k with past := false, missed := false }, a.2)) (s, f)

/-- DEFER_REENTRY: deferred entries re-enter at the class's first admission boundary of a later furlong. -/
def deferReentry (h c : Nat) (e : Env) (s : State) : State :=
  let x := s.hide h
  match x.toReenter s.plan.furlong with
  | none => s
  | some f =>
    if !s.reamActive || s.plan.stopped then s
    else
      match x.stepChecks h f.view f.order with
      | .inl (st, d) => (s.dropFetches h f.order.seq).settle h { (f.withFetched x.o).fail st d with fetches := [], deferred := [] }
      | .inr (j, es) =>
        let back := es.filter (fun n => f.deferred.any (fun d => d.entry == n.idx && d.waiting))
        let cls : SlotClass := if f.order.opcode = 0x08 then .decode else .prefill
        let fit : Fit := if f.order.opcode = 0x08 then x.stepFit j (back.map (fun n => (n, x.needs j n))) else plainFit (x.demand f.order)
        match x.grant s.plan.furlong c cls f.regions fit with
        | none => s
        | some g =>
          let s := s.upQ h (fun q => q.use s.plan.furlong g.uses)
          let f := { f with
            phase := 2
            endChain := s.now c + g.len - 1
            deferred := f.deferred.map (fun d => if d.waiting then { d with waiting := false, count := d.count + 1 } else d)
            ct := { f.ct with defers := satAdd f.ct.defers back.length } }
          let (s, f) := s.renewFetches h f
          let s := s.putFlight h f
          if (s.hide h).o.fetchesDecided f then stepRun h c e s f else s

def execDeferReentry (h : Hide) (c : Chain) (e : Env) (s : State) : Host.Outcome State Fault Refusal := .next (deferReentry h c e s)

end Sys2Proof.Machine
end

