-- ==== Sys2Proof/Machine/Append.lean ====
section
/-!
DEFINITION. PROJECT_APPEND (R177 to R183, R129) and RECODE (R182).
-/

namespace Sys2Proof.Machine
open Sys2Proof

/-! ### Giving an append back (R183) -/

/-- The frame that an append continues, cut back to the positions before it. -/
def HideSt.unappend (x : HideSt) (o : OPart) : Fx → OPart
  | .append hd l start _ _ none =>
    match AMap.find x.allView.seqs hd with
    | none => o
    | some q =>
      match x.desc q.modelId, (q.layer l).pages[start / 256]? with
      | some d, some p => if start % 256 ≠ 0 ∧ p.tier = 0 then o.upRod p.loc (fun r => r.first d (start % 256)) else o
      | _, _ => o
  | _ => o

/-- A failed or aborted order gives back what it took, and what it wrote in place is discarded (R97, R183, R277). -/
def State.revoke (s : State) (h : Nat) (f : Flight) : State :=
  let x := s.hide h
  (s.upO h (fun o => f.fx.foldl x.unappend o)).giveBack h f

/-! ### The computation of R180 -/

/-- One position before quantisation: its elements in the vector order of KV_PROJ, rotated. -/
def projected (d : Desc) (p : Nat) (y : List U32) : List (List U32) :=
  let n := d.headDim
  let rows := (List.range d.spanRows).map (fun r => (y.drop (r * n)).take n)
  if d.posenc = 1 then rows.mapIdx (fun r v => if r < d.kvHeads then Attn.rotate d.posParam p false v else v) else rows

/-- The fp32 elements of an input row: the input itself, or the projection with its bias. -/
def projectRow (src : Bool) (fmt : Fp.Fmt) (w : SetView) (x : List Nat) : List U32 :=
  if src then x.map (Fp.widen fmt)
  else
    let v := x.map (Fp.decode fmt)
    w.vecs.mapIdx (fun i k =>
      let y := Fp.dot v k
      match w.bias[i]? with | some b => Fp.add32 y b | none => y)

/-- Round one element vector of a position to KV_FORMAT (R180, R203, R204). -/
def quantise (d : Desc) (stoch : Bool) (seed layer p row : Nat) (v : List U32) : StoredVec :=
  let kv := if row < d.kvHeads ∨ d.attn = 1 then 0 else 1
  let head := if d.attn = 1 then 0 else row % d.kvHeads
  Codec.quantVec d.kvFormat (fun i => if stoch then .stoch (Codec.draw seed layer p kv head i) else .rne) v

/-- Add stored vectors to a plain rod from position `from_` on, and compute its summaries anew (R181). -/
def Rod.extend (d : Desc) (from_ : Nat) (vecs : List (List StoredVec)) (r : Rod) : Rod :=
  let old := match r.data with | .plain rows => rows | .coded _ => []
  let rows := (List.range d.spanRows).map (fun i => (old.getD i []).take from_ ++ vecs.map (fun v => v.getD i ⟨[], []⟩))
  { r with data := .plain rows, sums := headSums d (rows.map (fun row => row.map (Codec.vecVals d.kvFormat))), book := none }

/-! ### PROJECT_APPEND -/

/-- The object-dependent checks of an append (R177, R178): the failure, or its descriptor, sequence and projection. -/
def HideSt.appendChecks (x : HideSt) (t : Tab) (o : Order) : (Nat × Nat) ⊕ (Desc × Seq × SetView × Nat) :=
  let hd := o.f 16 4
  let layer := o.f 22 2
  let src := bit (o.f 32 2) 0
  match AMap.find t.seqs hd with
  | none => .inl (stBadObject, 0)
  | some q =>
    if x.seqPoison hd layer then .inl (stPoison, 0)
    else if q.st != .active then .inl (stNoPage, 0)
    else match x.desc (o.f 20 2) with
      | none => .inl (stBadObject, 0)
      | some d =>
        if q.modelId ≠ d.modelId then .inl (stBadObject, 0)
        else if d.layers ≤ layer || d.recurrent layer then .inl (stFieldRange, detailAt 22)
        else if o.f 34 2 ≠ 0 ∧ !q.codeRods then .inl (stFieldRange, detailAt 34)
        else
          let rest (v : SetView) (dim : Nat) : (Nat × Nat) ⊕ (Desc × Seq × SetView × Nat) :=
            let row := if src then 2 * (d.spanRows * d.headDim) else 2 * dim
            let l := q.layer layer
            let n := o.f 28 4
            if x.opndBytes < o.f 36 4 + n * row then .inl (stFieldRange, detailAt 36)
            else if !(o.segs.any (fun g => decide (g.off ≤ o.f 36 4) && decide (o.f 36 4 + n * row ≤ g.off + g.bytes.length))) then .inl (stBadObject, 0)
            else if o.f 24 4 ≠ l.point then .inl (stFieldRange, detailAt 24)
            else if 256 * (l.pages.length + l.reserved) < o.f 24 4 + n then .inl (stNoPage, 0)
            else .inr (d, q, v, row / 2)
          if src then rest ⟨0, [], []⟩ 0
          else match t.currentSet d.modelId layer 0 with
            | none => .inl (stBadObject, 0)
            | some (_, w) => if w.flash.isSome then .inl (stNoPage, 0) else rest (t.viewSet 1 w) w.dim

/-- The rod that an append continues, as it reads it back: its plain content and the status of what it reads (R129,
R181). -/
def HideSt.continued (x : HideSt) (d : Desc) (o : Order) (p : Page) : Rod × Nat :=
  let r := x.pageRod d o.seq p
  let v := x.o.tab.viewRod d r
  if p.cow then
    (((x.o.tab.uncode d r).first d p.fill), v.status (pairsOf d p.fill))
  else if p.fill % 32 = 0 then (r, 0)
  else (r, v.status ((List.range d.rodHeads).map (fun h => p.fill / 32 * d.rodHeads + h)))

/-- Lines of bonded DRAM that the read-back or the copy of an append takes. -/
def HideSt.continuedLines (x : HideSt) (d : Desc) (p : Page) : Nat :=
  if p.tier ≠ 0 then 0
  else if p.cow then x.rodLines d p.loc p.fill
  else if p.fill % 32 = 0 then 0
  else linesOf ((List.range d.rodHeads).map (fun h => x.pairCost d p.loc (p.fill / 32 * d.rodHeads + h)))

/-- PROJECT_APPEND, from step 8 of R259 on. -/
def appendWork (h : Nat) (e : Env) (s : State) (o : Order) (f : Flight) : State :=
  let s := s.stored h e
  let x := s.hide h
  let hd := o.f 16 4
  let layer := o.f 22 2
  let t := x.layerView o hd layer
  let f := f.withFetched x.o
  let drop (s : State) : State := s.dropFetches h o.seq
  match x.appendChecks t o with
  | .inl (st, dt) => (drop s).keep h (f.fail st dt)
  | .inr (d, q, w, dim) =>
    let l := q.layer layer
    let start := o.f 24 4
    let n := o.f 28 4
    let last := l.pages.getLast?
    let open_ : Bool := match last with | some p => decide (p.fill < 256) | none => false
    let (old, st) : Rod × Nat := match last with | some p => if open_ then x.continued d o p else (Rod.empty, 0) | none => (Rod.empty, 0)
    let st := worseEntry ([st, w.status] ++ (if e.tile.isEmpty then [] else [stCheckFail]))
    let f := f.readLines ((match last with | some p => if open_ then x.continuedLines d p else 0 | none => 0) +
      (if bit (o.f 32 2) 0 then 0 else match t.currentSet d.modelId layer 0 with | some (_, y) => ceilDiv y.image.length 64 | none => 0))
    if st ≠ 0 then (drop s).keep h (f.fail st)
    else
      let fmt := if bit (o.f 32 2) 2 then Fp.fp16 else Fp.bf16
      let input := codeRows dim n (o.operand (o.f 36 4) (2 * n * dim))
      let ys := input.mapIdx (fun i r => projected d (q.base + start + i) (projectRow (bit (o.f 32 2) 0) fmt w r))
      if ys.any (fun y => y.any (fun v => v.any (fun a => Fp.isNan32 a || Fp.isInf32 a))) then
        (drop s).keep h { (f.fail stFieldRange (detailAt 0xFF)) with result := List.replicate 6 0 ++ [1] }
      else
        let vecs := ys.mapIdx (fun i y => y.mapIdx (fun r v =>
          quantise d (bit (o.f 32 2) 1) q.seed layer (q.base + start + i) r v))
        let cow : Bool := match last with | some p => p.cow | none => false
        let first := if open_ then 256 - start % 256 else 0
        let opens := ceilDiv (start + n) 256 - l.pages.length
        match x.pool q.pool with
        | none => (drop s).keep h (f.fail stNoPage)
        | some pool =>
          -- the copy of a COW rod, then the frames that the order opens
          let taken : Option (Option Nat × List Nat × OPart) :=
            if cow then
              match takeFrame x.o pool hd (l.pages.length - 1) Rod.empty with
              | none => none
              | some (k, y) => (takeFrames y pool hd ((List.range opens).map (fun i => l.pages.length + i))).map (fun r => (some k, r.1, r.2))
            else (takeFrames x.o pool hd ((List.range opens).map (fun i => l.pages.length + i))).map (fun r => (none, r.1, r.2))
          match taken with
          | none => (drop s).keep h (f.fail stNoPage)
          | some (copied, opened, y) =>
            let y := unreserve y q.pool (opened.length + (if copied.isSome then 1 else 0))
            let y : OPart := match copied, last with
              | some k, _ => y.setRod k { (old.extend d (start % 256) (vecs.take first)) with poison := [], bad := [] }
              | none, some p => if open_ then y.upRod p.loc (fun r => (x.o.tab.uncode d r).extend d (start % 256) (vecs.take first)) else y
              | none, none => y
            let y := opened.zipIdx.foldl (fun (y : OPart) k =>
              y.setRod k.1 (Rod.empty.extend d 0 ((vecs.drop (first + 256 * k.2)).take 256))) y
            let s := (drop (s.upO h (fun _ => y)))
            s.close h { (f.finish (leBytes 4 n ++ leBytes 2 opened.length ++ [0])
              [.append hd layer start n opened copied]) with tookFrames := opened ++ copied.toList } e

def execProjectAppend (h : Hide) (c : Chain) (e : Env) (s : State) : Host.Outcome State Fault Refusal :=
  .next (s.admitFirst h c .append (isOp 0x0B) demandFit (appendWork h e))

/-! ### RECODE (R182) -/

/-- The lowest-numbered coded pool with a given number of pairs. -/
def HideSt.codedPool (x : HideSt) (q : Nat) : Option Pool :=
  match x.lay with
  | none => none
  | some e => (sortBy (·.pool) (e.pools.filter (fun p => p.coded && p.q == q))).head?

/-- A rod coded into a frame of the coded pool: the frame and the objects after, or none where the rod stays uncoded. -/
def HideSt.recoded (x : HideSt) (d : Desc) (w : RecodeWork) (p : Page) : Option (Nat × OPart) :=
  match AMap.find x.o.tab.books (keyOf w.book), x.codedPool d.pairs with
  | some b, some pool =>
    if x.confidential || b.st != .ready || b.flash.isSome || x.freeFrames pool.pool == 0 then none
    else match codeRod b.book d (x.o.tab.viewRod d (x.o.rod p.loc)) with
      | none => none
      | some r =>
        match takeFrame x.o pool w.handle w.rod r with
        | none => none
        | some (k, o) => if x.overflowFits pool k r then some (k, o) else none
  | _, _ => none

/-- The page that a recoding still has to recode: a private, uncoded, full rod in bonded DRAM of an ACTIVE sequence. -/
def HideSt.toRecode (x : HideSt) (w : RecodeWork) : Option (Seq × Page) :=
  match AMap.find x.o.tab.seqs w.handle with
  | none => none
  | some q =>
    match (q.layer w.layer).pages[w.rod]? with
    | some p => if q.st == .active && !p.shared && p.tier == 0 && !p.coded && p.fill == 256 then some (q, p) else none
    | none => none

/-- RECODE: the oldest rod that waits for recoding, in the hide's MOVE capacity. -/
def recodeNow (h c : Nat) (e : Env) (s : State) : State :=
  let s := s.stored h e
  let x := s.hide h
  match x.o.recodes with
  | [] => s
  | w :: rest =>
    let next (s : State) : State := s.upO h (fun o => { o with recodes := rest })
    match x.toRecode w with
    | none => next s
    | some (q, p) =>
      match x.desc q.modelId with
      | none => next s
      | some d =>
        if !(s.admitting h) then s
        else match x.grant s.plan.furlong c .move (x.frameRegions p.loc) (plainFit (units4k d.rodBytes)) with
          | none => s
          | some g =>
            let s := next (s.upQ h (fun q => q.use s.plan.furlong g.uses))
            let s := s.countCt h { Ct.zero with dramLines := BitVec.ofNat 64 (x.rodLines d p.loc 256) }
            let st := (x.o.tab.viewRod d (x.o.rod p.loc)).status (pairsOf d 256)
            if st ≠ 0 then s
            else match x.recoded d w p with
              | none => s.countCt h { Ct.zero with recodeSkip := 1 }
              | some (k, o) =>
                s.upO h (fun _ => { o with
                  recodes := rest
                  pending := o.pending ++ [.rehome w.handle w.layer w.rod p ⟨k, 0, false, true, false, 256⟩] })

def execRecode (h : Hide) (c : Chain) (e : Env) (s : State) : Host.Outcome State Fault Refusal := .next (recodeNow h c e s)

end Sys2Proof.Machine
end

