-- ==== Sys2Proof/Machine/StateScore.lean ====
section
/-!
DEFINITION. STATE_STEP (R190 to R192), SCORE_TOPK (R193 to R195) and EVICT_SCORE (R106).
-/

namespace Sys2Proof.Machine
open Sys2Proof

/-- Keep a new flight and make its writes, or hold them for its suspect units (R347); `fail` is its status when it has
failed at run time. -/
def State.closeOut (s : State) (h : Nat) (f : Flight) (e : Env) (ps : List HeldOut) : State :=
  let (s, f) := s.hold h f wholeOrder e.suspects
  if f.suspects.isEmpty then
    (ps.foldl (fun s p => s.dmaWrite h p.addr p.data p.ep) s).settle h f
  else s.settle h { f with outs := ps }

/-! ### STATE_STEP -/

/-- One record of the input block: a, k, q, v (R190). -/
def stateInput (nk nv : Nat) (r : List Byte) : List U32 × List U32 × List U32 × List U32 :=
  let bf (off n : Nat) : List U32 := (List.range n).map (fun i => Fp.widen Fp.bf16 (fieldAt r (off + 2 * i) 2))
  ((List.range nk).map (fun i => BitVec.ofNat 32 (fieldAt r (4 * i) 4)), bf (4 * nk) nk, bf (6 * nk) nk, bf (8 * nk) nv)

/-- Run the recurrence over the records of an order (R191): the heads' states and the outputs, in record order. -/
def stateRun (bf : Bool) (nk nv fmt : Nat) : List (Nat × List Byte) → List (List U32) → List (List U32) × List Byte
  | [], ss => (ss, [])
  | (g, r) :: rs, ss =>
    let (a, k, q, v) := stateInput nk nv r
    let st := Attn.stateStep bf nk nv a k v (ss.getD g [])
    let y := (Attn.stateRead nk nv q st).flatMap (fun v => leBytes (Attn.outBytes fmt) (Fp.narrow (Attn.outFmt fmt) v))
    let (ss', out) := stateRun bf nk nv fmt rs (ss.set g st)
    (ss', y ++ out)

/-- STATE_STEP, from step 8 of R259 on. -/
def stateWork (h : Nat) (e : Env) (s : State) (o : Order) (f : Flight) : State :=
  let s := s.stored h e
  let x := s.hide h
  let hd := o.f 16 4
  let layer := o.f 22 2
  let heads := o.f 26 1
  let nk := o.f 28 2
  let nv := o.f 30 2
  let bf := bit (o.f 27 1) 1
  let n := nk * nv
  let t := x.view o
  match x.activeSeq t hd with
  | .inl st => s.keep h (f.fail st)
  | .inr q =>
    match x.desc (o.f 20 2) with
    | none => s.keep h (f.fail stBadObject)
    | some d =>
      let ob := q.states.get StateObj.zero layer
      let len := o.f 24 2 * heads * stateRec nk nv
      if x.o.metas.contains (.seqRecord hd) then s.keep h (f.fail stPoison)
      else if q.modelId ≠ d.modelId then s.keep h (f.fail stBadObject)
      else if d.layers ≤ layer || !(d.recurrent layer) then s.keep h (f.fail stFieldRange (detailAt 22))
      else if heads * n * (if bf then 2 else 4) ≠ d.stateBytes then s.keep h (f.fail stFieldRange (detailAt 26))
      else if ob.bf.isSome && ob.bf != some bf then s.keep h (f.fail stFieldRange (detailAt 27))
      else
        let outLen := o.f 24 2 * heads * nv * Attn.outBytes (o.f 36 1)
        let reset := bit (o.f 27 1) 0
        let st := worseEntry ((if ob.poison && !reset then [stPoison] else []) ++ (if e.tile.isEmpty then [] else [stCheckFail]))
        let f := f.readLines (if reset || ob.vals.isEmpty then 0 else ceilDiv d.stateBytes 64)
        if st ≠ 0 then
          (s.dmaWrite h (o.f 40 8) (List.replicate outLen 0) (st == stPoison)).keep h (f.fail st)
        else
          let zero : List U32 := List.replicate n Fp.zero32
          let ss := (List.range heads).map (fun g => if reset || ob.vals.isEmpty then zero else (ob.vals.drop (g * n)).take n)
          let bs := o.operand (o.f 32 4) len
          let per := stateRec nk nv
          let recs := (List.range (o.f 24 2 * heads)).map (fun i => (i % heads, (bs.drop (i * per)).take per))
          let (ss', out) := stateRun bf nk nv (o.f 36 1) recs ss
          let vals := ss'.flatten
          s.closeOut h (f.finish [if vals.any Fp.isNan32 then 1 else 0] [.stateWrite hd layer bf vals]) e
            [⟨0, o.f 40 8, out, false, false⟩]

def execStateStep (h : Hide) (c : Chain) (e : Env) (s : State) : Host.Outcome State Fault Refusal :=
  .next (s.admitFirst h c .state (isOp 0x0C) demandFit (stateWork h e))

/-! ### SCORE_TOPK -/

/-- A scored query: rows scored, NaN count, the best (score, index) in order. -/
structure ScoreOut where
  rows : Nat
  nans : Nat
  best : List (U32 × Nat)

/-- Rank scored rows: NaN rows are excluded and counted (R194). -/
def scoreOut (k : Nat) (xs : List (U32 × Nat)) : ScoreOut :=
  ⟨xs.length, (xs.filter (fun x => Fp.isNan32 x.1)).length, (Attn.rank (xs.filter (fun x => !(Fp.isNan32 x.1)))).take k⟩

/-- The entries of an output record, after its 16-byte header (R194). -/
def ScoreOut.entries (k : Nat) (r : ScoreOut) : List Byte :=
  r.best.flatMap (fun b => leBytes 4 b.1.toNat ++ leBytes 4 b.2) ++
  (List.range (k - r.best.length)).flatMap (fun _ => leBytes 4 Fp.negInf.toNat ++ leBytes 4 0xFFFFFFFF)

/-- The writes of an output record: entries, then header. -/
def ScoreOut.pieces (k addr : Nat) (r : ScoreOut) : List HeldOut :=
  [⟨0, addr + 16, r.entries k, false, false⟩,
   ⟨0, addr, leBytes 4 256 ++ leBytes 4 (min r.rows 0xFFFFFFFF) ++ leBytes 4 (min r.nans 0xFFFFFFFF) ++ leBytes 4 0, false, true⟩]

/-- The writes of a failed output record (R344). -/
def failedScore (k addr status : Nat) : List HeldOut :=
  [⟨0, addr + 16, List.replicate (8 * k) 0, status == stPoison || status == stCodebookRetired, false⟩,
   ⟨0, addr, leBytes 4 (status + 256) ++ List.replicate 12 0, false, true⟩]

/-- The eligible rows of a range, by the filter (R193). -/
def Order.eligible (o : Order) (first n : Nat) : List Nat :=
  let bm := o.operand (o.f 36 4) (4 * ceilDiv n 32)
  (List.range n).filterMap (fun i =>
    if !(bit (o.f 19 1) 0) || bit (bm.getD (i / 8) 0).toNat (i % 8) then some (first + i) else none)

/-- The score of a table row for a query (R194). -/
def tableScore (l2 : Bool) (w : WSet) (v : SetView) (x : List Fp.Val) (r : Nat) : U32 :=
  let a := Fp.dot x (v.vecs.getD r [])
  if l2 then Fp.sub32 (Fp.mul32 (Fp.ofNat32 2) a) (w.norms.getD r Fp.zero32) else a

/-- Do the rows and operand ranges of an order lie within their bounds: the first field that does not (R193). -/
def HideSt.scoreRange (x : HideSt) (o : Order) (rows query : Nat) : Option Nat :=
  let n := if o.f 60 4 = 0 then rows - o.f 56 4 else o.f 60 4
  if x.opndBytes < o.f 32 4 + o.f 22 2 * query then some 32
  else if bit (o.f 19 1) 0 ∧ x.opndBytes < o.f 36 4 + 4 * ceilDiv n 32 then some 36
  else if rows ≤ o.f 56 4 then some 56
  else if rows < o.f 56 4 + n then some 60
  else none

/-- The rows of a range: ROW_COUNT, or all to the end. -/
def Order.rowCount (o : Order) (rows : Nat) : Nat := if o.f 60 4 = 0 then rows - o.f 56 4 else o.f 60 4

/-- SCORE_TOPK over a key table. -/
def scoreTable (h : Nat) (e : Env) (s : State) (o : Order) (f : Flight) : State :=
  let x := s.hide h
  let id := o.f 24 6
  let t := x.view o
  if wrongId h id 6 then s.keep h (f.fail stBadObject)
  else match AMap.find t.sets (objIndex id) with
    | none => s.keep h (f.fail stBadObject)
    | some w =>
      let query := roundUp (2 * w.dim) 64
      if w.st != .ready || w.role != 2 then s.keep h (f.fail stBadObject)
      else if w.flash.isSome then s.keep h (f.fail stNoPage)
      else match x.scoreRange o w.vectors query with
        | some k => s.keep h (f.fail stFieldRange (detailAt k))
        | none =>
          let k := o.f 20 2
          let n := o.rowCount w.vectors
          let v := x.o.tab.viewSet 1 w
          let st := worseEntry ([v.status] ++ (if e.tile.isEmpty then [] else [stCheckFail]))
          let f := f.readLines (if isVq w.format then ceilDiv w.image.length 64 else ceilDiv (n * Codec.vecBytes w.format w.dim) 64)
          let qs := List.range (o.f 22 2)
          let addr (i : Nat) := o.f 40 8 + i * scoreStride k
          if st ≠ 0 then
            ((qs.flatMap (fun i => failedScore k (addr i) st)).foldl (fun s p => s.dmaWrite h p.addr p.data p.ep) s).keep h (f.fail st)
          else
            let rows := o.eligible (o.f 56 4) n
            let bs := o.operand (o.f 32 4) (o.f 22 2 * query)
            let fmt := Attn.outFmt (o.f 18 1)
            let outs := qs.map (fun i =>
              let q := (List.range w.dim).map (fun d => Fp.decode fmt (fieldAt bs (i * query + 2 * d) 2))
              scoreOut k (rows.map (fun r => (tableScore (o.f 17 1 == 1) w v q r, r))))
            let nans := outs.foldl (fun n r => n + r.nans) 0
            s.closeOut h (f.finish (leBytes 4 (min nans 0xFFFFFFFF)) []) e (outs.zipIdx.flatMap (fun r => r.1.pieces k (addr r.2)))

/-- The bound of a rod for the rows of a KV head (R160, R194). -/
def summaryScore (d : Desc) (pos : Nat) (xs : List (List Fp.Val)) (head r fill : Nat) (sm : Attn.Summary) : U32 :=
  let scale := rsqrt32 d.headDim
  let last := 256 * r + fill - 1
  xs.zipIdx.foldl (fun u q =>
    let c : Attn.ScoreCtx := ⟨scale, if d.posenc = 2 then some (Fp.slope d.posParam (head * d.qPerKv + q.2) d.heads) else none⟩
    Attn.maxBound u (Attn.applyBias c (Fp.mul32 (Attn.boundSum q.1 sm) scale) (pos - last))) Fp.negInf

/-- SCORE_TOPK over the rod summaries of a layer. -/
def scoreSummaries (h : Nat) (e : Env) (s : State) (o : Order) (f : Flight) : State :=
  let x := s.hide h
  let id := o.f 24 6
  let hd := objIndex id
  let layer := o.f 30 2
  if wrongId h id 2 then s.keep h (f.fail stBadObject)
  else match x.activeSeq (x.layerView o hd layer) hd with
    | .inl st => s.keep h (f.fail st)
    | .inr q =>
      match x.desc q.modelId with
      | none => s.keep h (f.fail stBadObject)
      | some d =>
        let l := q.layer layer
        let query := roundUp (d.qPerKv * d.headDim * 2) 64
        if x.seqPoison hd layer then s.keep h (f.fail stPoison)
        else if o.f 22 2 ≠ d.kvHeads then s.keep h (f.fail stFieldRange (detailAt 22))
        else if d.layers ≤ layer || d.recurrent layer then s.keep h (f.fail stFieldRange (detailAt 30))
        else match x.scoreRange o l.pages.length query with
          | some k => s.keep h (f.fail stFieldRange (detailAt k))
          | none =>
            let k := o.f 20 2
            let addr (i : Nat) := o.f 40 8 + i * scoreStride k
            if !e.tile.isEmpty then
              (((List.range d.kvHeads).flatMap (fun i => failedScore k (addr i) stCheckFail)).foldl
                (fun s p => s.dmaWrite h p.addr p.data p.ep) s).keep h (f.fail stCheckFail)
            else
              let rows := (o.eligible (o.f 56 4) (o.rowCount l.pages.length))
              let bs := o.operand (o.f 32 4) (d.kvHeads * query)
              let fmt := Attn.outFmt (o.f 18 1)
              let outs := (List.range d.kvHeads).map (fun head =>
                let xs := (List.range d.qPerKv).map (fun g => (List.range d.headDim).map (fun i =>
                  Fp.decode fmt (fieldAt bs (head * query + 2 * (g * d.headDim + i)) 2)))
                scoreOut k (rows.filterMap (fun r =>
                  match l.pages[r]? with
                  | some p => (x.summary p (if d.attn = 1 then 0 else head)).map (fun sm =>
                      (summaryScore d (l.point - 1) xs head r p.fill sm, r))
                  | none => none)))
              let nans := outs.foldl (fun n r => n + r.nans) 0
              s.closeOut h (f.finish (leBytes 4 (min nans 0xFFFFFFFF)) []) e (outs.zipIdx.flatMap (fun r => r.1.pieces k (addr r.2)))

/-- SCORE_TOPK, from step 8 of R259 on. -/
def scoreWork (h : Nat) (e : Env) (s : State) (o : Order) (f : Flight) : State :=
  let s := s.stored h e
  if o.f 16 1 = 0 then scoreTable h e s o f else scoreSummaries h e s o f

def execScoreTopk (h : Hide) (c : Chain) (e : Env) (s : State) : Host.Outcome State Fault Refusal :=
  .next (s.admitFirst h c .score (isOp 0x0D) demandFit (scoreWork h e))

/-! ### EVICT_SCORE -/

/-- EVICT_SCORE, from step 8 of R259 on: it reads scores and may set a new BUDGET. -/
def evictScoreWork (h : Nat) (e : Env) (s : State) (o : Order) (f : Flight) : State :=
  let s := s.stored h e
  let x := s.hide h
  let hd := o.f 16 4
  let layer := o.f 20 2
  match x.activeSeq (x.view o) hd with
  | .inl st => s.keep h (f.fail st)
  | .inr q =>
    match x.desc q.modelId with
    | none => s.keep h (f.fail stBadObject)
    | some d =>
      let l := q.layer layer
      let first := o.f 24 4
      let n := o.f 28 4
      if x.seqPoison hd layer then s.keep h (f.fail stPoison)
      else if d.layers ≤ layer || d.recurrent layer then s.keep h (f.fail stFieldRange (detailAt 20))
      else if l.blocks ≤ first then s.keep h (f.fail stFieldRange (detailAt 24))
      else if l.blocks < first + n then s.keep h (f.fail stFieldRange (detailAt 28))
      else
        let out := (List.range n).flatMap (fun i =>
          let b := first + i
          leBytes 4 (AMap.get Fp.zero32 l.scores b).toNat ++
          leBytes 4 ((if l.evicted.contains b then 1 else 0) + (if guarded q.evict q.globals l.blocks b then 2 else 0)))
        s.closeOut h (f.finish (leBytes 4 n) (if bit (o.f 22 1) 0 then [.budget hd (o.f 32 4)] else [])) e
          [⟨0, o.f 40 8, out, false, false⟩]

def execEvictScore (h : Hide) (c : Chain) (e : Env) (s : State) : Host.Outcome State Fault Refusal :=
  .next (s.admitFirst h c .score (isOp 0x13) demandFit (evictScoreWork h e))

end Sys2Proof.Machine
end

