-- ==== Sys2Proof/Machine/Move.lean ====
section
/-!
DEFINITION. The orders that move data: PLACE (R95 to R97, R247), SWAP_OUT and SWAP_IN with the swap image (R98 to R101,
R245), DELIVER_PAGES (R131 to R133), LOAD_CODEBOOK and slot reloads (R238 to R241, R247), LOAD_WEIGHTS (R173 to R176,
R248).
-/

namespace Sys2Proof.Machine
open Sys2Proof

/-! ### Shared by the moves -/

/-- Cut bytes into pieces of 16,384 sectors (R322). -/
def imagePieces : Nat → List Byte → List (List Byte)
  | 0, _ => []
  | n + 1, bs => if bs.isEmpty then [] else bs.take (16384 * 4096) :: imagePieces n (bs.drop (16384 * 4096))

/-- Write pieces to flash, objects `r`, `r + 1`, … of an order: the flight with the extents and jobs it took, and the
extents in order; none when one has no room (R322). -/
def State.writePieces (s : State) (h mask kind key : Nat) (coded : Bool) (book : Option (Nat × Nat)) :
    Nat → List (List Byte) → Flight → List Nat → Option (State × Flight × List Nat) × State × Flight
  | _, [], f, es => (some (s, f, es), s, f)
  | r, b :: t, f, es =>
    match s.writeExtent h mask r kind key coded book none [] b with
    | none => (none, s, f)
    | some (s, e, j) =>
      s.writePieces h mask kind key coded book (r + 1) t
        { f with tookExts := f.tookExts ++ [e], jobs := f.jobs ++ [j] } (es ++ [e])

/-- Start reading extents for an order. -/
def State.readExtents (s : State) (h : Nat) (f : Flight) (es : List Nat) : State × Flight :=
  es.foldl (fun (a : State × Flight) e =>
    let (s, j) := a.1.readExtent h e
    let n := match AMap.find (s.hide h).o.tab.exts e with | some x => x.sectors | none => 0
    (s, { a.2 with jobs := a.2.jobs ++ [j], ct := { a.2.ct with flashSectors := satAdd a.2.ct.flashSectors n } })) (s, f)

/-- Count the sectors that an order's copies read from flash (R429). -/
def State.countReads (s : State) (h : Nat) (f : Flight) : Flight :=
  let o := (s.hide h).o
  let n := f.jobs.foldl (fun n j => match AMap.find o.jobs j with | some j => if j.write then n else n + j.sectors | none => n) 0
  { f with ct := { f.ct with flashSectors := satAdd f.ct.flashSectors n } }

/-- Forget an order's transfers. -/
def State.forget (s : State) (h : Nat) (f : Flight) : State × Flight :=
  (s.upO h (fun y => { (y.dropJobs f.jobs) with dmas := f.dmas.foldl AMap.erase y.dmas }), { f with jobs := [], dmas := [] })

/-- A move fails: it returns what it took and switches nothing (R97, R325). -/
def State.abandon (s : State) (h : Nat) (f : Flight) (status detail : Nat) (result : List Byte := []) : State :=
  let (s, f) := s.forget h f
  let s := s.giveBack h f
  s.settle h { (f.fail status detail) with fx := [], tookFrames := [], tookExts := [], outs := [], result := result }

/-- A READY codebook generation that an order names for coding: the failure, or its record (R83, R243, R247, R345). -/
def HideSt.codingBook (x : HideSt) (idGen : Nat) : Nat ⊕ BookRec :=
  match AMap.find x.o.tab.books (keyOf idGen) with
  | none => .inl stBadObject
  | some b =>
    if b.st != .ready then .inl stBadObject
    else if b.flash.isSome then .inl stNoPage
    else if x.o.metas.contains (.bookHome (keyOf idGen)) then .inl stPoison
    else .inr b

/-- The blocks of a coded rod, for QUEUED (R242). -/
def Rod.blockCount (r : Rod) : Nat :=
  match r.data with
  | .plain _ => 0
  | .coded rows => rows.foldl (fun n row => row.foldl (fun n b => n + b.length) n) 0

/-! ### PLACE of rods (R95 to R97) -/

/-- What a PLACE of rods asks for. -/
structure PlaceJob where
  handle : Nat
  q : Seq
  d : Desc
  toFlash : Bool
  /-- The generation to code under. -/
  code : Option Book
  /-- The target pool of a PLACE to bonded DRAM. -/
  pool : Option Pool
  copies : List (Nat × Nat × Page)
  skipped : Nat

/-- Is a rod already at the target in the form asked for (R96). -/
def HideSt.placed (x : HideSt) (toFlash : Bool) (code : Option Book) (pool : Option Pool) (p : Page) : Bool :=
  let book := code.map (fun b => (b.id, b.gen))
  if toFlash then
    p.tier == 1 && (match AMap.find x.o.tab.exts p.loc with | some e => e.coded == code.isSome && e.book == book | none => false)
  else
    p.tier == 0 && (match pool with | some q => framePool p.loc == q.pool | none => false) && (x.o.rod p.loc).book == book

/-- The checks of a PLACE of a sequence's rods: the failure, or its job. -/
def HideSt.placeChecks (x : HideSt) (t : Tab) (o : Order) : (Nat × Nat) ⊕ PlaceJob :=
  let hd := objIndex (o.f 16 6)
  match x.activeSeq t hd with
  | .inl st => .inl (st, 0)
  | .inr q =>
    match x.desc q.modelId with
    | none => .inl (stBadObject, 0)
    | some d =>
      let toFlash := o.f 36 1 == 1
      let isCode := bit (o.f 40 1) 0
      let layers := (List.range (o.f 26 2)).map (· + o.f 24 2)
      let last := o.f 28 4 + o.f 32 4
      let pages (l : Nat) : List Page := if d.recurrent l then [] else (q.layer l).pages
      let longest := (layers.map (fun l => (pages l).length)).foldl max 0
      let opens (l : Nat) : Bool := match (pages l).getLast? with
        | some p => decide (p.fill < 256) && decide (o.f 28 4 < (pages l).length) && decide ((pages l).length ≤ last)
        | none => false
      if layers.any (x.seqPoison hd) then .inl (stPoison, 0)
      else if !(x.stillActive o hd) then .inl (stNoPage, 0)
      else if d.layers ≤ o.f 24 2 then .inl (stFieldRange, detailAt 24)
      else if d.layers < o.f 24 2 + o.f 26 2 then .inl (stFieldRange, detailAt 26)
      else if longest < last then .inl (stFieldRange, detailAt 32)
      else if toFlash && layers.any opens then .inl (stFieldRange, detailAt 28)
      else
        let book : Nat ⊕ Option Book := if isCode then (match x.codingBook (o.f 38 2) with
          | .inl st => .inl st
          | .inr b => .inr (some b.book)) else .inr none
        match book with
        | .inl st => .inl (st, 0)
        | .inr code =>
          let sel := bit (o.f 40 1) 1
          let pool : Option Pool := if toFlash then none
            else if sel then x.pool (o.f 41 1)
            else if isCode then x.codedPool d.pairs else x.pool q.pool
          let fits : Bool := match pool with
            | none => false
            | some p => if isCode then p.coded && p.q == d.pairs else poolMatches d p
          if !toFlash && sel && !fits then .inl (stFieldRange, detailAt 41)
          else if !toFlash && !fits then .inl (stNoPage, 0)
          else
            let all := layers.flatMap (fun l => (List.range (o.f 32 4)).map (fun i => (l, o.f 28 4 + i)))
            let moves := all.filterMap (fun lj => match (pages lj.1)[lj.2]? with
              | some p => if p.shared || p.tier == 3 || x.placed toFlash code pool p then none else some (lj.1, lj.2, p)
              | none => none)
            .inr ⟨hd, q, d, toFlash, code, pool, moves, all.length - moves.length⟩

/-- The rod that a copy has read, as the target holds it; or the status that it ends the order with. -/
def HideSt.placeRod (x : HideSt) (j : PlaceJob) (c : Copy) : Nat ⊕ Rod :=
  let r := x.copyRod j.d c
  let v := x.o.tab.viewRod j.d r
  let job : Nat := match c.read.bind (AMap.find x.o.jobs) with | some k => k.status.getD stOk | none => stOk
  if job ≠ stOk then .inl job
  else if v.status (pairsOf j.d c.src.fill) ≠ 0 then .inl (v.status (pairsOf j.d c.src.fill))
  else
    let r := { r with poison := [], bad := [] }
    match j.code with
    | none => .inr ((x.o.tab.uncode j.d r).first j.d c.src.fill)
    | some b =>
      if r.book = some (b.id, b.gen) then .inr r
      else match codeRod b j.d v with
        | some r => .inr r
        | none => .inl stFieldRange

/-- The worst status of the copies, 0 when every rod can be placed (R325). -/
def placeStatus (rs : List (Nat ⊕ Rod)) : Nat :=
  let bad := rs.filterMap (fun r => match r with | .inl st => some st | .inr _ => none)
  match bad with
  | [] => 0
  | b :: t => t.foldl worse b

/-- Put rods into their frames; none when overflow cells run short (R81). -/
def HideSt.fillFrames (x : HideSt) : List (Copy × Rod) → OPart → Option OPart
  | [], o => some o
  | (c, r) :: t, o =>
    match c.dst with
    | none => x.fillFrames t o
    | some p =>
      let x' : HideSt := { x with o := o }
      match x.pool (framePool p.loc) with
      | none => none
      | some q => if q.coded && !(x'.overflowFits q p.loc r) then none else x.fillFrames t (o.setRod p.loc r)

/-- Write rods to flash in layer order and then rod order (R96, R322). -/
def State.placeFlash (s : State) (h mask key : Nat) (d : Desc) : Nat → List (Copy × Rod) → Flight → Option (State × Flight) × State × Flight
  | _, [], f => (some (s, f), s, f)
  | r, (c, rod) :: t, f =>
    let coded := rod.book.isSome
    match s.writeExtent h mask r 0 key coded rod.book none rod.sums (rodImage d ((s.hide h).codedCellSize d) rod) with
    | none => (none, s, f)
    | some (s, e, j) =>
      s.placeFlash h mask key d (r + 1) t { f with
        tookExts := f.tookExts ++ [e]
        jobs := f.jobs ++ [j]
        copies := f.copies.map (fun y => if y.layer = c.layer ∧ y.rod = c.rod then
          { y with dst := some ⟨e, 1, false, coded, false, y.src.fill⟩, write := some j } else y) }

/-- The end of a PLACE of rods (R96, R264). -/
def placeEnd (h : Nat) (s : State) (j : PlaceJob) (lines : Nat) (f : Flight) (e : Env) : State :=
  let (s, f) := s.forget h f
  s.close h (f.finish (leBytes 4 f.copies.length ++ leBytes 4 j.skipped ++ leBytes 4 (min lines 0xFFFFFFFF))
    (f.copies.filterMap (fun c => c.dst.map (fun p => .rehome j.handle c.layer c.rod c.src p)))) e

/-- Lines of the coded rods of a PLACE (R264). -/
def codedLinesAll (x : HideSt) (j : PlaceJob) (rs : List Rod) : Nat :=
  let cell := match j.pool with | some p => p.cellBytes | none => x.codedCellSize j.d
  rs.foldl (fun n r => n + r.codedSize j.d cell) 0

/-- The reads of a PLACE of rods are in: its rods are converted and written; or its writes are in. -/
def placeStep (h c : Nat) (e : Env) (s : State) (f : Flight) : State :=
  let s := s.stored h e
  let x := s.hide h
  let f := s.at c f
  match x.placeChecks f.view f.order with
  | .inl (st, d) => s.abandon h f st d
  | .inr j =>
    if f.phase = 1 then
      match x.o.jobsOutcome f.jobs with
      | none => s
      | some st =>
        if st = stOk then placeEnd h s j (fieldAt f.result 0 4) f e else s.abandon h f st 0
    else
      let rs := f.copies.map (fun c => (c, x.placeRod j c))
      let st := placeStatus (rs.map (·.2))
      if st ≠ 0 then s.abandon h f st (if st = stFieldRange then detailAt 40 else 0)
      else
        let rods : List (Copy × Rod) := rs.filterMap (fun r => match r.2 with | .inr k => some (r.1, k) | .inl _ => none)
        let lines := codedLinesAll x j (rods.map (·.2))
        if j.toFlash then
          let (s, f) := s.forget h f
          match s.placeFlash h (f.order.f 37 1) j.q.jobKey j.d 0 rods f with
          | (none, s, f) => s.abandon h f stNoPage 0
          | (some (s, f), _, _) =>
            if f.jobs.isEmpty then placeEnd h s j lines f e
            else s.settle h { f with phase := 1, result := leBytes 4 lines }
        else match x.fillFrames rods x.o with
          | none => s.abandon h f stNoPage 0
          | some o => placeEnd h (s.upO h (fun _ => o)) j lines f e

/-- A PLACE of rods at its admission. -/
def placeRods (h c : Nat) (e : Env) (s : State) (o : Order) (f : Flight) : State :=
  let x := s.hide h
  let t := x.view o
  match x.placeChecks t o with
  | .inl (st, d) => s.keep h (f.fail st d)
  | .inr j =>
    -- target frames are taken first, in layer order and then rod order
    let taken : Option (List Nat × OPart) := match j.pool with
      | some p => x.takeFrees x.o p j.handle (j.copies.map (fun c => c.2.1))
      | none => some ([], x.o)
    match taken with
    | none => s.keep h (f.fail stNoPage)
    | some (ks, o') =>
      let s := s.upO h (fun _ => o')
      let dst (i : Nat) : Option Page := (ks[i]?).map (fun k => ⟨k, 0, false, j.code.isSome, false, 0⟩)
      let copies : List Copy := j.copies.mapIdx (fun i c => ⟨c.1, c.2.1, c.2.2, none, (dst i).map (fun p => { p with fill := c.2.2.fill }), none⟩)
      let lines := copies.foldl (fun n c => if c.src.tier = 0 then n + x.rodLines j.d c.src.loc c.src.fill else n) 0
      let f := { (f.readLines lines) with view := t, tookFrames := ks }
      let (s, f) := copies.foldl (fun (a : State × Flight) c =>
        if c.src.tier = 1 then
          let (s, id) := a.1.readExtent h c.src.loc
          (s, { a.2 with copies := a.2.copies ++ [{ c with read := some id }], jobs := a.2.jobs ++ [id] })
        else (a.1, { a.2 with copies := a.2.copies ++ [c] })) (s, f)
      let f := s.countReads h f
      -- the generation to code under, and those of the rods it reads, are held until the order completes (R242)
      let target : List (Nat × Nat) := match j.code with | some b => [(bookKey b.id b.gen, copies.length)] | none => []
      let reads := copies.filterMap (fun c => match (x.o.rod c.src.loc).book with
        | some ig => if c.src.tier = 0 then some (bookKey ig.1 ig.2, (x.o.rod c.src.loc).blockCount) else none
        | none => none)
      let (s, f) := s.queueBlocks h f (target ++ reads)
      if f.jobs.isEmpty then placeStep h c { e with dram := [], badCheck := [], metas := [] } s f else s.keep h f

/-! ### PLACE of weight sets and codebooks (R95, R247) -/

/-- The entry image of a codebook (R239). -/
def Book.image (b : Book) : List Byte := Codec.packBits (Codec.elemBits b.entryFormat) b.rows.flatten

/-- The home record of a codebook generation (R241). -/
def BookRec.record (b : BookRec) (stored : Nat) : List Byte :=
  let st : Nat := match b.st with | .loading => 1 | .ready => 2 | .retiring => 3
  leBytes 2 (b.book.id + 4096 * b.book.gen) ++ leBytes 1 b.book.vqFormat ++ leBytes 1 b.book.entryFormat ++
  leBytes 2 b.book.entries ++ leBytes 1 st ++ leBytes 1 b.slot ++ leBytes 4 b.book.litTol.toNat ++
  leBytes 1 ((b.book.emax + 256) % 256).toNat ++ leBytes 3 0 ++ leBytes 4 stored ++ leBytes 4 b.queued ++
  leBytes 4 b.imageCrc.toNat ++ leBytes 28 0

/-- A weight set or codebook that a PLACE moves: its image, its extents, the generation it is coded under, the 4 KiB
units it takes in bonded DRAM, and the effect of its new home. -/
structure PlaceObj where
  img : List Byte
  flash : Option (List Nat)
  book : Option (Nat × Nat)
  units : Nat
  poison : Bool
  home : Option (List Nat) → Fx

/-- The weight set or codebook that a PLACE names, READY (R107, R345). -/
def HideSt.placeObj (x : HideSt) (h id : Nat) : Nat ⊕ PlaceObj :=
  let t := x.o.tab
  if objHide id ≠ h then .inl stBadObject
  else if objKind id = 6 then
    match AMap.find t.sets (objIndex id) with
    | none => .inl stBadObject
    | some w => if w.st != .ready then .inl stBadObject
      else .inr ⟨w.image, w.flash, if isVq w.format then w.book else none, w.units, w.poison, .setHome (objIndex id)⟩
  else if objKind id = 5 then
    let k := keyOf (objIndex id)
    match AMap.find t.books k with
    | none => .inl stBadObject
    | some b => if b.st != .ready then .inl stBadObject
      else .inr ⟨b.record (x.o.stored b.book.id b.book.gen) ++ b.book.image, b.flash, none, 0, x.o.metas.contains (.bookHome k), .bookHome k⟩
  else .inl stBadObject

/-- Units of the weight allotment in use (R176). -/
def OPart.weightUnits (o : OPart) : Nat := o.tab.sets.foldl (fun n w => if w.2.flash.isSome then n else n + w.2.units) 0
def HideSt.weightFree (x : HideSt) : Nat := match x.lay with | some e => e.weightUnits - x.o.weightUnits | none => 0

/-- A slot that failed its parity check is whole again once its generation's home is bonded DRAM (R247). -/
def OPart.mendSlots (o : OPart) : Fx → OPart
  | .bookHome k none =>
    match AMap.find o.tab.books k with
    | some b => { o with tab := { o.tab with books := o.tab.books.set k { b with badClusters := [] } } }
    | none => o
  | _ => o

/-- The end of a PLACE of a weight set or codebook. -/
def placeObjEnd (h : Nat) (s : State) (f : Flight) (fx : List Fx) (e : Env) : State :=
  let (s, f) := s.forget h f
  let s := s.upO h (fun o => fx.foldl OPart.mendSlots o)
  s.close h (f.finish (List.replicate 12 0) fx) e

/-- The transfers of a PLACE of a weight set or codebook have ended. -/
def placeObjStep (h c : Nat) (e : Env) (s : State) (f : Flight) : State :=
  let s := s.stored h e
  let x := s.hide h
  let f := s.at c f
  match x.o.jobsOutcome f.jobs, x.placeObj h (f.order.f 16 6) with
  | some st, .inr p =>
    if st ≠ stOk then s.abandon h f st 0
    else placeObjEnd h s f [p.home (if f.order.f 36 1 = 1 then some f.tookExts else none)] e
  | some _, .inl st => s.abandon h f st 0
  | none, _ => s

/-- A PLACE of a weight set or codebook at its admission. -/
def placeObjWork (h : Nat) (e : Env) (s : State) (o : Order) (f : Flight) : State :=
  let x := s.hide h
  match x.placeObj h (o.f 16 6) with
  | .inl st => s.keep h (f.fail st)
  | .inr p =>
    if p.poison then s.keep h (f.fail stPoison)
    else if o.f 36 1 = 1 then
      if p.flash.isSome then s.close h (f.finish (List.replicate 12 0) []) e
      else
        let pieces := imagePieces (p.img.length / (16384 * 4096) + 1) p.img
        match s.writePieces h (o.f 37 1) 2 0 p.book.isSome p.book 0 pieces f [] with
        | (none, s, f) => s.abandon h f stNoPage 0
        | (some (s, f, _), _, _) => s.keep h f
    else
      match p.flash with
      | none => s.close h (f.finish (List.replicate 12 0) []) e
      | some es =>
        if x.weightFree < p.units then s.keep h (f.fail stNoPage)
        else let (s, f) := s.readExtents h f es; s.keep h f

/-- PLACE at its admission. -/
def placeWork (h c : Nat) (e : Env) (s : State) (o : Order) (f : Flight) : State :=
  let s := s.stored h e
  if objKind (o.f 16 6) = 2 then
    if objHide (o.f 16 6) ≠ h then s.keep h (f.fail stBadObject) else placeRods h c e s o f
  else placeObjWork h e s o f
/-- A PLACE in flight whose transfers have ended. -/
def placeGo (h c : Nat) (e : Env) (s : State) (f : Flight) : State :=
  if objKind (f.order.f 16 6) = 2 then placeStep h c e s f else placeObjStep h c e s f

def execPlace (h : Hide) (c : Chain) (e : Env) (s : State) : Host.Outcome State Fault Refusal :=
  .next (s.run h c .move (isOp 0x10) (placeGo h c e) (placeWork h c e))

/-! ### The swap image (R101) -/

/-- DEVICE_BIND: the first 16 bytes of the digest of the device's public key. -/
def deviceBind : List Byte := (leBytes 32 Config.deviceKeyDigest.toNat).take 16

/-- Bytes 0 to 63 of the image header. -/
def imageHead (serial size entries meta_ : Nat) : List Byte :=
  leBytes 4 0x57535856 ++ leBytes 2 1 ++ leBytes 2 384 ++ leBytes 8 serial ++ deviceBind ++ leBytes 8 size ++
  leBytes 4 entries ++ leBytes 4 meta_ ++ leBytes 16 0

/-- A sequence with its prefix named by the hide's own object ID (R75). -/
def Seq.named (q : Seq) (h : Nat) : Seq := if q.pfx = 0 then q else { q with pfx := objId 4 h (objIndex q.pfx) }

/-- The 256-byte sequence record (R84). -/
def Seq.record (q : Seq) (handle : Nat) : List Byte :=
  let st : Nat := match q.st with | .active => 1 | .swapping => 2 | .swapped => 3 | .parked => 4 | .restoring => 5 | .retiring => 6
  leBytes 4 handle ++ leBytes 2 q.modelId ++ leBytes 1 st ++ leBytes 1 q.pool ++ leBytes 4 q.base ++ leBytes 4 q.length ++
  leBytes 4 q.resvRods ++ leBytes 2 q.jobKey ++ leBytes 2 ((if q.codeRods then 1 else 0) + (if q.hidden then 2 else 0)) ++
  leBytes 8 q.pfx ++ leBytes 4 q.pfxLen ++ leBytes 4 0 ++ leBytes 8 q.seed ++
  leBytes 1 (if q.evict.mass then 1 else 0) ++ leBytes 1 q.evict.sink ++ leBytes 2 q.evict.window ++ leBytes 4 q.evict.budget ++
  leBytes 4 q.evict.decay.toNat ++ leBytes 4 0 ++ leBytes 8 q.gen ++ leBytes 8 q.swapSerial ++ leBytes 8 q.swapAddr ++
  leBytes 8 q.swapSize ++ leBytes 160 0

/-- The KIND of a directory entry (R101). -/
def Page.dirKind (p : Page) : Nat := if p.tier = 3 then 0 else if p.shared then 2 else 1

/-- A state object's bytes: zero before its first STATE_STEP (R190). -/
def StateObj.bytes (d : Desc) (o : StateObj) : List Byte :=
  let bs := o.vals.flatMap (fun v => if o.bf = some true then leBytes 2 (Fp.narrow Fp.bf16 v) else leBytes 4 v.toNat)
  bs ++ List.replicate (d.stateBytes - bs.length) 0

/-- The values of a state object read back from its bytes. -/
def StateObj.restore (o : StateObj) (bs : List Byte) (frames : List Nat) : StateObj :=
  let vals : List U32 := match o.bf with
    | none => []
    | some true => (List.range (bs.length / 2)).map (fun i => Fp.widen Fp.bf16 (fieldAt bs (2 * i) 2))
    | some false => (List.range (bs.length / 4)).map (fun i => BitVec.ofNat 32 (fieldAt bs (4 * i) 4))
  { o with vals := vals, frames := frames, poison := false }

/-- The eviction bitmap and the scores of a layer. -/
def Layer.metaBytes (l : Layer) : List Byte :=
  leBytes (ceilDiv l.blocks 8) (listMask l.evicted) ++
  (List.range l.blocks).flatMap (fun b => leBytes 4 (AMap.get Fp.zero32 l.scores b).toNat)

/-- The metadata record: empty when the rule is NONE and no layer is recurrent. -/
def Seq.metaBytes (q : Seq) (d : Desc) : List Byte :=
  if !q.evict.mass && q.states.isEmpty then []
  else q.layers.flatMap (fun l => l.2.metaBytes) ++ q.states.flatMap (fun o => o.2.bytes d)

/-- Seal a record: number `n` of the image of a serial (R101). -/
def sealRecord (key : BitVec 256) (serial n : Nat) (aad pt : List Byte) : List Byte :=
  let r := Crypto.seal256 (leBytes 32 key.toNat) (leBytes 4 n ++ leBytes 8 serial) aad pt
  r.1 ++ r.2

/-- Open a record that ends with its tag. -/
def openRecord (key : BitVec 256) (serial n : Nat) (aad bs : List Byte) : Option (List Byte) :=
  if bs.length < 16 then none
  else Crypto.open256 (leBytes 32 key.toNat) (leBytes 4 n ++ leBytes 8 serial) aad (bs.take (bs.length - 16)) (bs.drop (bs.length - 16))

/-- The pages of a sequence in layer order and then rod order. -/
def Seq.dirPages (q : Seq) : List (Nat × Nat × Page) := q.layers.flatMap (fun l => l.2.pages.mapIdx (fun j p => (l.1, j, p)))

/-- A directory entry. -/
def dirEntry (p : Nat × Nat × Page) (coded : Bool) (size : Nat) : List Byte :=
  leBytes 1 p.2.2.dirKind ++ leBytes 1 (if coded then 1 else 0) ++ leBytes 2 p.1 ++ leBytes 4 p.2.1 ++
  leBytes 4 (if p.2.2.dirKind = 1 then size else 0) ++ leBytes 4 0

/-- The swap image of a sequence; `rods` gives the plaintext of each RECORD rod in directory order. -/
def swapImage (key : BitVec 256) (d : Desc) (q : Seq) (handle serial : Nat) (rods : List (List Byte × Bool)) : List Byte :=
  let pages := q.dirPages
  let recs := pages.filter (fun p => p.2.2.dirKind == 1)
  let sizeOf (p : Nat × Nat × Page) : List Byte × Bool := rods.getD (recs.idxOf p) ([], false)
  let dir := pages.flatMap (fun p => dirEntry p (if p.2.2.dirKind = 1 then (sizeOf p).2 else p.2.2.coded) ((sizeOf p).1.length + 16))
  let md := q.metaBytes d
  let size := 384 + (dir.length + 16) + (if md.isEmpty then 0 else md.length + 16) + rods.foldl (fun n r => n + r.1.length + 16) 0
  let head := imageHead serial size pages.length md.length
  head ++ sealRecord key serial 0 head (q.record handle ++ List.replicate 48 0) ++
  sealRecord key serial 1 head dir ++ (if md.isEmpty then [] else sealRecord key serial 2 head md) ++
  rods.zipIdx.flatMap (fun r => sealRecord key serial (3 + r.2) head r.1.1)

/-! ### SWAP_OUT (R98, R99) -/

/-- The first failing check of a SWAP_OUT. -/
def HideSt.swapOutFail (x : HideSt) (t : Tab) (o : Order) (handle : Nat) : Nat ⊕ (Seq × Desc) :=
  match x.activeSeq t handle with
  | .inl st => .inl st
  | .inr q =>
    match x.desc q.modelId with
    | none => .inl stBadObject
    | some d =>
      if x.o.metas.contains (.seqRecord handle) || q.layers.any (fun l => x.seqPoison handle l.1) ||
          x.o.metas.any (fun m => match m with | .score hd _ _ => hd == handle | _ => false) then .inl stPoison
      else if !(x.stillActive o handle) then .inl stNoPage
      else .inr (q, d)

/-- What a SWAP_OUT has read of each RECORD rod: its plaintext and whether it is coded, or its failure. -/
def HideSt.outRods (x : HideSt) (d : Desc) (cs : List Copy) : List (Nat ⊕ (List Byte × Bool)) :=
  cs.map (fun c =>
    let r := x.copyRod d c
    let job : Nat := match c.read.bind (AMap.find x.o.jobs) with | some k => k.status.getD stOk | none => stOk
    let st := (x.o.tab.viewRod d r).status (pairsOf d c.src.fill)
    let cell := if c.src.tier = 0 then (match x.pool (framePool c.src.loc) with | some q => if q.coded then q.cellBytes else 0 | none => 0)
      else x.codedCellSize d
    if job ≠ stOk then .inl job
    else if st ≠ 0 then .inl st
    else .inr (rodImage d cell (match r.data with | .plain _ => r.first d c.src.fill | .coded _ => r), r.book.isSome))

/-- The end of a SWAP_OUT whose image is written. -/
def swapOutEnd (h : Nat) (s : State) (f : Flight) (serial size : Nat) (ext : Option Nat) (e : Env) : State :=
  let (s, f) := s.forget h f
  s.close h (f.finish (leBytes 8 size) [.swapOut (f.order.f 16 4) serial (f.order.f 32 8) size ext]) e

/-- Chain extents by NEXT (R321). -/
def OPart.chainExts (o : OPart) (es : List Nat) : OPart :=
  (es.zip (es.drop 1)).foldl (fun o p => match AMap.find o.tab.exts p.1 with
    | some e => { o with tab := { o.tab with exts := o.tab.exts.set p.1 { e with next := some p.2 } } }
    | none => o) o

/-- SWAP_OUT once its flash rods are in: the image is formed and written; or its writes are in. -/
def swapOutStep (h c : Nat) (e : Env) (s : State) (f : Flight) : State :=
  let s := s.stored h e
  let x := s.hide h
  let f := s.at c f
  let o := f.order
  let handle := o.f 16 4
  match AMap.find f.view.seqs handle with
  | none => s.abandon h f stBadObject 0
  | some q =>
    match x.desc q.modelId with
    | none => s.abandon h f stBadObject 0
    | some d =>
      if f.phase = 1 then
        match x.o.jobsOutcome f.jobs with
        | none => s
        | some st =>
          if st ≠ stOk then s.abandon h f st 0
          else swapOutEnd h s f (fieldAt f.result 8 8) (fieldAt f.result 0 8) f.tookExts.head? e
      else
        let rs := x.outRods d f.copies
        let bad := rs.filterMap (fun r => match r with | .inl st => some st | .inr _ => none)
        let bad := if q.states.any (fun o => o.2.poison) then bad ++ [stPoison] else bad
        match bad with
        | b :: t => s.abandon h f (t.foldl worse b) 0
        | [] =>
          let rods := rs.filterMap (fun r => match r with | .inr k => some k | .inl _ => none)
          let (serial, k) := x.k.nextSerial 0 q.jobKey
          let key := x.k.jobBits h q.jobKey
          let img := swapImage key d { (q.named h) with st := .swapping } handle serial rods
          if o.f 20 1 = 0 then
            if o.f 40 8 < img.length then s.abandon h f stFieldRange (detailAt 40) (leBytes 8 img.length)
            else
              let s := s.upK h (fun _ => k)
              swapOutEnd h (s.dmaWrite h (o.f 32 8) img false) f serial img.length none e
          else
            let s := s.upK h (fun _ => k)
            let (s, f) := s.forget h f
            let pieces := imagePieces (img.length / (16384 * 4096) + 1) img
            match s.writePieces h (o.f 21 1) 0 q.jobKey false none 0 pieces f [] with
            | (none, s, f) => s.abandon h f stNoPage 0
            | (some (s, f, es), _, _) =>
              (s.upO h (fun y => y.chainExts es)).settle h { f with phase := 1, result := leBytes 8 img.length ++ leBytes 8 serial }

/-- SWAP_OUT at its admission: the sequence is SWAPPING from then on (R85). -/
def swapOutWork (h c : Nat) (e : Env) (s : State) (o : Order) (f : Flight) : State :=
  let s := s.stored h e
  let x := s.hide h
  let t := x.view o
  match x.swapOutFail t o (o.f 16 4) with
  | .inl st => s.keep h (f.fail st)
  | .inr (q, d) =>
    let recs := q.dirPages.filter (fun p => p.2.2.dirKind == 1)
    let lines := recs.foldl (fun n p => if p.2.2.tier = 0 then n + x.rodLines d p.2.2.loc p.2.2.fill else n) 0
    let f := { (f.readLines lines) with view := t, fx := [.seqState (o.f 16 4) .swapping] }
    let (s, f) := s.beginCopies h f (recs.map (fun p => (p.1, p.2.1, p.2.2, true)))
    let f := s.countReads h f
    if f.jobs.isEmpty then swapOutStep h c { e with dram := [], badCheck := [], metas := [] } s f else s.keep h f

def execSwapOut (h : Hide) (c : Chain) (e : Env) (s : State) : Host.Outcome State Fault Refusal :=
  .next (s.run h c .move (isOp 0x11) (swapOutStep h c e) (swapOutWork h c e))

/-! ### SWAP_IN (R98, R100, R245) -/

/-- Read the records of an image in order: each of a given size. -/
def openRecords (key : BitVec 256) (serial : Nat) (aad : List Byte) : Nat → List Nat → List Byte → Option (List (List Byte))
  | _, [], _ => some []
  | n, k :: ks, bs =>
    match openRecord key serial n aad (bs.take k) with
    | none => none
    | some r => (openRecords key serial aad (n + 1) ks (bs.drop k)).map (fun t => r :: t)

/-- The sizes of the records after the header, and of the RECORD rods, as the directory gives them. -/
def dirSizes (dir : List Byte) (n : Nat) : List Nat :=
  (List.range n).filterMap (fun i => if fieldAt dir (16 * i) 1 = 1 then some (fieldAt dir (16 * i + 8) 4) else none)

/-- Verify an image: the failure, or its metadata record and the plaintext of its rods (R100). -/
def verifyImage (key : BitVec 256) (handle serial : Nat) (bs : List Byte) : Nat ⊕ (List Byte × List (List Byte)) :=
  let head := bs.take 64
  if (head.drop 16).take 16 ≠ deviceBind ∨ fieldAt head 8 8 ≠ serial then .inl stBadObject
  else match openRecord key serial 0 head ((bs.drop 64).take 320) with
    | none => .inl stCheckFail
    | some r =>
      let n := fieldAt head 40 4
      let m := fieldAt head 44 4
      if fieldAt r 0 4 ≠ handle then .inl stBadObject
      else match openRecord key serial 1 head ((bs.drop 384).take (16 * n + 16)) with
        | none => .inl stCheckFail
        | some dir =>
          let rest := bs.drop (384 + 16 * n + 16)
          let md : Option (List Byte) := if m = 0 then some [] else openRecord key serial 2 head (rest.take (m + 16))
          let rods := openRecords key serial head 3 (dirSizes dir n) (rest.drop (if m = 0 then 0 else m + 16))
          match md, rods with
          | some md, some rods => .inr (md, rods)
          | _, _ => .inl stCheckFail

/-- A restored rod: the failure, or the rod (R100, R245). -/
def HideSt.restoreRod (x : HideSt) (d : Desc) (p : Page) (bs : List Byte) : Nat ⊕ Rod :=
  if p.coded then
    let ig := fieldAt bs 10 2
    match AMap.find x.o.tab.books (keyOf ig), readCoded d (x.codedCellSizes d) bs with
    | some b, some rows =>
      if b.st != .ready then .inl stCodebookRetired
      else
        let v := codedView b.book d rows
        if v.2.isEmpty then .inr ⟨.coded rows, headSums d v.1, [], [], some (b.book.id, b.book.gen)⟩ else .inl stCheckFail
    | none, _ => .inl stCodebookRetired
    | some _, none => .inl stCheckFail
  else
    let r := readPlain d p.fill bs
    if r.bad.isEmpty then .inr r else .inl stCheckFail

/-- The scores of each layer and the state objects as the metadata record gives them. -/
def Seq.readMeta (q : Seq) (d : Desc) (md : List Byte) (frames : Nat → List Nat) : AMap StateObj :=
  let skip := q.layers.foldl (fun n l => n + l.2.metaBytes.length) 0
  q.states.mapIdx (fun i o => (o.1, o.2.restore ((md.drop (skip + i * d.stateBytes)).take d.stateBytes) (frames i)))

/-- A SWAP_IN fails: what it took and reserved returns, and the sequence keeps its state (R100). -/
def State.swapInFail (s : State) (h : Nat) (f : Flight) (status : Nat) : State :=
  let s := match AMap.find f.view.seqs (f.order.f 16 4) with
    | some q => s.upO h (fun o => unreserve o q.pool (q.layers.length * ceilDiv (f.order.f 24 4) 256))
    | none => s
  s.abandon h f status 0

/-- The image bytes that a SWAP_IN has read. -/
def HideSt.imageRead (x : HideSt) (f : Flight) (size : Nat) : Nat ⊕ List Byte :=
  if f.jobs.isEmpty then
    match f.dmas.head?.bind (AMap.find x.o.dmas) with
    | some m => if m.status = some stOk then .inr m.data else .inl (m.status.getD stTimeout)
    | none => .inl stTimeout
  else match x.o.jobsOutcome f.jobs with
    | some st => if st = stOk then
        .inr ((f.jobs.flatMap (fun j => match AMap.find x.o.jobs j with | some k => k.bytes | none => [])).take size) else .inl st
    | none => .inl stTimeout

/-- SWAP_IN once its image is in: it is verified, its rods placed, and the sequence published (R85, R100). -/
def swapInStep (h c : Nat) (e : Env) (s : State) (f : Flight) : State :=
  let s := s.stored h e
  let x := s.hide h
  let f := s.at c f
  let o := f.order
  let handle := o.f 16 4
  match AMap.find f.view.seqs handle with
  | none => s.swapInFail h f stBadObject
  | some q =>
    match x.desc q.modelId, x.imageRead f q.swapSize with
    | none, _ => s.swapInFail h f stBadObject
    | some _, .inl st => s.swapInFail h f st
    | some d, .inr bs =>
      match verifyImage (x.k.jobBits h q.jobKey) handle q.swapSerial bs with
      | .inl st => s.swapInFail h f st
      | .inr (md, recs) =>
        let pages := q.dirPages.filter (fun p => p.2.2.dirKind == 1)
        let rods := (pages.zip recs).map (fun p => x.restoreRod d p.1.2.2 p.2)
        let bad := rods.filterMap (fun r => match r with | .inl st => some st | .inr _ => none)
        if pages.length ≠ recs.length then s.swapInFail h f stCheckFail
        else match bad with
          | b :: t => s.swapInFail h f (if (b :: t).contains stCodebookRetired then stCodebookRetired else b)
          | [] =>
            let placed := (pages.zip f.tookFrames).zip (rods.filterMap (fun r => match r with | .inr k => some k | .inl _ => none))
            match x.fillFrames (placed.map (fun p => (⟨p.1.1.1, p.1.1.2.1, p.1.1.2.2, none, some { p.1.1.2.2 with loc := p.1.2, tier := 0 }, none⟩, p.2))) x.o with
            | none => s.swapInFail h f stNoPage
            | some y =>
              let per := (f.tookFrames.length - pages.length) / max 1 q.states.length
              let home (l j : Nat) (p : Page) : Page := match placed.find? (fun z => z.1.1.1 == l && z.1.1.2.1 == j) with
                | some z => { p with loc := z.1.2, tier := 0 }
                | none => p
              let n := ceilDiv (o.f 24 4) 256
              let q' : Seq := { q with
                st := .active
                swapAddr := 0
                swapSize := 0
                layers := q.layers.map (fun l => (l.1, { l.2 with
                  pages := l.2.pages.mapIdx (fun j p => home l.1 j p)
                  reserved := n - (match l.2.pages.getLast? with | some p => if p.cow then 1 else 0 | none => 0) }))
                states := q.readMeta d md (fun i => ((f.tookFrames.drop pages.length).drop (i * per)).take per) }
              let (s, f) := (s.upO h (fun _ => y)).forget h f
              s.close h (f.finish (leBytes 8 q.swapSize) [.swapIn handle q']) e

/-- Take the frames of a restore, each rod from its own pool: coded rods from the coded pool, then the state objects. -/
def HideSt.restoreFrames (x : HideSt) (d : Desc) (q : Seq) (handle : Nat) : List (Nat × Nat × Page) → OPart → Option (List Nat × OPart)
  | [], o =>
    match x.pool q.pool with
    | none => none
    | some p => x.takeFrees o p handle (List.range (stateFrames d p * q.states.length))
  | r :: t, o =>
    match (if r.2.2.coded then x.codedPool d.pairs else x.pool q.pool) with
    | none => none
    | some p =>
      match x.takeFree o p handle r.2.1 Rod.empty with
      | none => none
      | some (k, o) => (x.restoreFrames d q handle t o).map (fun z => (k :: z.1, z.2))

/-- SWAP_IN at its admission: frames are reserved first, then the image is read (R100). -/
def swapInWork (h : Nat) (e : Env) (s : State) (o : Order) (f : Flight) : State :=
  let s := s.stored h e
  let x := s.hide h
  let handle := o.f 16 4
  let t := x.nowView o
  match AMap.find t.seqs handle with
  | none => s.keep h (f.fail stBadObject)
  | some q =>
    let none_ : Bool := o.f 32 8 == 0 && o.f 40 8 == 0
    if !(q.st == .swapped || q.st == .parked) || x.restoring handle then s.keep h (f.fail stNoPage)
    else if x.o.metas.contains (.seqRecord handle) then s.keep h (f.fail stPoison)
    else if q.st == .parked && !none_ then s.keep h (f.fail stFieldRange (detailAt (if o.f 32 8 ≠ 0 then 32 else 40)))
    else if q.st == .swapped && o.f 40 8 ≠ q.swapSize then s.keep h (f.fail stFieldRange (detailAt 40))
    else match x.desc q.modelId with
      | none => s.keep h (f.fail stBadObject)
      | some d =>
        let n := ceilDiv (o.f 24 4) 256
        let rods := match q.layers with | [] => 0 | (_, l) :: _ => l.pages.length
        let recs := q.dirPages.filter (fun p => p.2.2.dirKind == 1)
        if 4194304 < q.base + 256 * (rods + n) then s.keep h (f.fail stNoPage)
        else match x.restoreFrames d q handle recs x.o with
          | none => s.keep h (f.fail stNoPage)
          | some (ks, y) =>
            let free := ({ x with o := y } : HideSt).freeFrames q.pool
            if free < n * q.layers.length then s.keep h (f.fail stNoPage)
            else
              let s := s.upO h (fun _ => reserve y q.pool (n * q.layers.length))
              let f := { f with view := t, tookFrames := ks }
              if q.st == .parked then
                let es := match AMap.find t.parked handle with | some p => t.extChain t.exts.length p.extent | none => []
                let (s, f) := s.readExtents h f es
                s.keep h f
              else
                let (s, id) := s.dmaRead h o.seq (o.f 32 8) (o.f 40 8)
                s.keep h { f with dmas := [id] }

def execSwapIn (h : Hide) (c : Chain) (e : Env) (s : State) : Host.Outcome State Fault Refusal :=
  .next (s.run h c .move (isOp 0x12) (swapInStep h c e) (swapInWork h e))

end Sys2Proof.Machine
end

