-- ==== Sys2Proof/Machine/Deliver.lean ====
section
/-!
DEFINITION. DELIVER_PAGES (R131 to R133) and its deadline.
-/

namespace Sys2Proof.Machine
open Sys2Proof

/-- What a delivery reads: its descriptor, the pages and evicted blocks of a layer, and its poison. -/
structure DeliverJob where
  d : Desc
  pages : Nat → List Page
  evicted : Nat → List Nat
  rods : Nat
  poison : Bool

/-- The object of a DELIVER_PAGES: the failure, or what it reads (R131). -/
def HideSt.deliverJob (x : HideSt) (t : Tab) (h id : Nat) : Nat ⊕ DeliverJob :=
  if objHide id ≠ h then .inl stBadObject
  else if objKind id = 2 then
    match x.activeSeq t (objIndex id) with
    | .inl st => .inl st
    | .inr q =>
      match x.desc q.modelId with
      | none => .inl stBadObject
      | some d => .inr ⟨d, fun l => (q.layer l).pages, fun l => (q.layer l).evicted, ceilDiv q.length 256,
          x.o.metas.contains (.seqRecord (objIndex id)) || q.layers.any (fun l => x.seqPoison (objIndex id) l.1)⟩
  else if objKind id = 4 then
    match x.readyPfx t h id with
    | .inl st => .inl st
    | .inr (i, p) =>
      match x.desc p.modelId with
      | none => .inl stBadObject
      | some d => .inr ⟨d, fun l => pfxPages t l t.chain i, fun l => AMap.get [] p.evicted l, ceilDiv p.length 256, false⟩
  else .inl stBadObject

/-- The records of a delivery: (record, layer, rod), over its attention layers in order (R132). -/
def deliverRecords (d : Desc) (o : Order) : List (Nat × Nat × Nat) :=
  let layers := ((List.range (o.f 24 2)).map (· + o.f 22 2)).filter (fun l => !(d.recurrent l))
  (layers.flatMap (fun l => (List.range (o.f 32 4)).map (fun i => (l, o.f 28 4 + i)))).zipIdx.map (fun r => (r.2, r.1.1, r.1.2))

/-- FLAGS of a delivery header (R132). -/
def flagDelivered : Nat := 1
def flagPoison : Nat := 2

/-- The 64-byte header of a delivery record (R132). -/
def deliverHeader (j : DeliverJob) (layer rod flags : Nat) : List Byte :=
  let p := (j.pages layer)[rod]?
  let shared : Nat := match p with | some p => if p.shared then 4 else 0 | none => 0
  let gone : Nat := match p with | some p => if p.tier = 3 then 8 else 0 | none => 0
  let ev := listMask ((List.range 8).filter (fun b => (j.evicted layer).contains (8 * rod + b)))
  leBytes 2 layer ++ leBytes 2 (flags + shared + gone) ++ leBytes 4 rod ++
  leBytes 2 (match p with | some p => p.fill | none => 0) ++ leBytes 2 0 ++ leBytes 4 ev ++ leBytes 48 0

/-- The outcome of one rod of a delivery. -/
inductive RodOut where
  | delivered (cells : List Byte)
  | poisoned
  | failed
  | evicted

/-- What a rod gives a delivery: its cells and checks in KV_FORMAT, poison, or a failed check (R132, R133, R237). -/
def HideSt.deliverRod (x : HideSt) (d : Desc) (seq : Nat) (p : Page) : RodOut :=
  if p.tier = 3 then .evicted
  else
    let r := x.pageRod d seq p
    let st := (x.o.tab.viewRod d r).status (pairsOf d p.fill)
    if st = stPoison then .poisoned
    else if st ≠ 0 then .failed
    else .delivered (rodImage d 0 ((x.o.tab.uncode d r).first d p.fill))

/-- Is a rod ready to be written: in bonded DRAM, or fetched (R133). -/
def HideSt.deliverReady (x : HideSt) (seq : Nat) (p : Page) : Bool :=
  p.tier != 1 || (match x.o.fetchFor seq p.loc with
    | some (_, k) => (match k.job.bind (AMap.find x.o.jobs) with
      | some j => j.status.isSome && j.status != some stTimeout
      | none => false)
    | none => false)

/-- Write the record of one rod: cells, then its header (R133); the space of its fetch is released. -/
def State.deliverOne (s : State) (h : Nat) (j : DeliverJob) (f : Flight) (r : Nat × Nat × Nat) : State × Flight :=
  let x := s.hide h
  let addr := f.order.f 40 8 + r.1 * deliverStride j.d
  let dl := f.delivery.getD ⟨0, [], 0, false⟩
  let left := dl.left.filter (fun y => y != r)
  match (j.pages r.2.1)[r.2.2]? with
  | none => (s, { f with delivery := some { dl with left := left } })
  | some p =>
    let zeros : List Byte := List.replicate (j.d.rodBytes + 8 * j.d.pairs) 0
    let put (s : State) (cells : List Byte) (ep : Bool) (flags : Nat) : State :=
      (s.dmaWrite h (addr + 64) cells ep).dmaWrite h addr (deliverHeader j r.2.1 r.2.2 flags) false
    let done (s : State) : State := match x.o.fetchFor f.order.seq p.loc with
      | some (i, k) => if p.tier = 1 then s.endFetch h i k else s
      | none => s
    match x.deliverRod j.d f.order.seq p with
    | .delivered cells => (done (put s cells false flagDelivered), { f with delivery := some { dl with left := left, delivered := dl.delivered + 1 } })
    | .poisoned => (done (put s zeros true flagPoison), { f with delivery := some { dl with left := left, poisoned := true } })
    | .evicted => (s.dmaWrite h addr (deliverHeader j r.2.1 r.2.2 0) false, { f with delivery := some { dl with left := left } })
    | .failed => (done (s.dmaWrite h addr (deliverHeader j r.2.1 r.2.2 0) false), { f with delivery := some { dl with left := left }, phase := 1 })

/-- The end of a delivery (R133): a rod that failed its check counts as not delivered. -/
def State.deliverEnd (s : State) (h : Nat) (f : Flight) (e : Env) : State :=
  let dl := f.delivery.getD ⟨0, [], 0, false⟩
  let st := if dl.poisoned then stPoison else if f.phase = 1 then stTimeout else stOk
  let s := s.dropFetches h f.order.seq
  s.close h { (f.finish (leBytes 4 dl.delivered) []) with status := st, delivery := none, fetches := [] } e

/-- Write every rod that is ready; the order completes when none is left. -/
def deliverStep (h c : Nat) (e : Env) (s : State) (f : Flight) : State :=
  let s := s.stored h e
  let x := s.hide h
  let f := s.at c f
  match x.deliverJob f.view h (f.order.f 16 6) with
  | .inl st => (s.dropFetches h f.order.seq).settle h { (f.fail st) with delivery := none }
  | .inr j =>
    let dl := f.delivery.getD ⟨0, [], 0, false⟩
    let ready := dl.left.filter (fun r => match (j.pages r.2.1)[r.2.2]? with
      | some p => x.deliverReady f.order.seq p
      | none => true)
    let (s, f) := ready.foldl (fun (a : State × Flight) r => a.1.deliverOne h j a.2 r) (s, f)
    let left := match f.delivery with | some d => d.left | none => []
    if left.isEmpty then s.deliverEnd h f e else s.settle h f

/-- DELIVER_PAGES at its admission: rods on flash are fetched, the others are delivered. -/
def deliverWork (h c : Nat) (e : Env) (s : State) (o : Order) (f : Flight) : State :=
  let s := s.stored h e
  let x := s.hide h
  let t := x.view o
  match x.deliverJob t h (o.f 16 6) with
  | .inl st => s.keep h (f.fail st)
  | .inr j =>
    if j.poison then s.keep h (f.fail stPoison)
    else if j.d.layers ≤ o.f 22 2 then s.keep h (f.fail stFieldRange (detailAt 22))
    else if j.d.layers < o.f 22 2 + o.f 24 2 then s.keep h (f.fail stFieldRange (detailAt 24))
    else if j.rods ≤ o.f 28 4 then s.keep h (f.fail stFieldRange (detailAt 28))
    else if j.rods < o.f 28 4 + o.f 32 4 then s.keep h (f.fail stFieldRange (detailAt 32))
    else if o.f 48 8 < o.f 24 2 * o.f 32 4 * deliverStride j.d then s.keep h (f.fail stFieldRange (detailAt 48))
    else
      let recs := deliverRecords j.d o
      let pages := recs.filterMap (fun r => ((j.pages r.2.1)[r.2.2]?).map (fun p => (r, p)))
      let lines := pages.foldl (fun n r => if r.2.tier = 0 then n + x.rodLines j.d r.2.loc r.2.fill else n) 0
      let sectors := pages.foldl (fun n r => if r.2.tier = 1 then
        n + (match AMap.find x.o.tab.exts r.2.loc with | some e => e.sectors | none => 0) else n) 0
      let f := f.readLines lines
      let f := { f with
        view := t
        delivery := some ⟨s.plan.furlong + o.f 36 4 - 1, recs, 0, false⟩
        ct := { f.ct with flashSectors := satAdd f.ct.flashSectors sectors } }
      let (s, f) := pages.foldl (fun (a : State × Flight) r =>
        if r.2.tier = 1 then
          let (s, i) := a.1.fetch h o.seq r.1.2.1 r.1.2.2 r.2.loc
          (s, { a.2 with fetches := a.2.fetches ++ [i] })
        else a) (s, f)
      let reads := pages.filterMap (fun r => match (x.o.rod r.2.loc).book with
        | some ig => if r.2.tier = 0 then some (bookKey ig.1 ig.2, (x.o.rod r.2.loc).blockCount) else none
        | none => none)
      let (s, f) := s.queueBlocks h f reads
      deliverStep h c { e with dram := [], badCheck := [], metas := [] } (s.keep h f) f

/-- A delivery in flight with a rod that has become ready. -/
def HideSt.delivering (x : HideSt) (h : Nat) : Option Flight :=
  x.q.flights.find? (fun f => !f.ended && (match f.delivery with
    | none => false
    | some dl => match x.deliverJob f.view h (f.order.f 16 6) with
      | .inl _ => true
      | .inr j => dl.left.any (fun r => match (j.pages r.2.1)[r.2.2]? with
        | some p => x.deliverReady f.order.seq p
        | none => true)))

def execDeliverPages (h : Hide) (c : Chain) (e : Env) (s : State) : Host.Outcome State Fault Refusal :=
  .next (match (s.hide h).delivering h with
    | some f => deliverStep h c e s f
    | none => s.admitFirst h c .move (isOp 0x14) demandFit (deliverWork h c e))

/-- DELIVER_DEADLINE: the last cycle of furlong a + DEADLINE − 1. What has arrived by then is written; every other rod
gets a header with DELIVERED and POISON clear (R133). -/
def deliverDeadline (h : Nat) (s : State) : State :=
  let x := s.hide h
  match x.q.flights.find? (fun f => !f.ended && (match f.delivery with | some dl => decide (dl.last ≤ s.plan.furlong) | none => false)) with
  | none => s
  | some f =>
    match x.deliverJob f.view h (f.order.f 16 6) with
    | .inl st => (s.dropFetches h f.order.seq).settle h { (f.fail st) with delivery := none }
    | .inr j =>
      let f := s.at 9 f
      let dl := f.delivery.getD ⟨0, [], 0, false⟩
      let isReady (r : Nat × Nat × Nat) : Bool := match (j.pages r.2.1)[r.2.2]? with
        | some p => x.deliverReady f.order.seq p
        | none => true
      let late := dl.left.filter (fun r => !(isReady r))
      let (s, f) := (dl.left.filter isReady).foldl (fun (a : State × Flight) r => a.1.deliverOne h j a.2 r) (s, f)
      let s := late.foldl (fun s r =>
        s.dmaWrite h (f.order.f 40 8 + r.1 * deliverStride j.d) (deliverHeader j r.2.1 r.2.2 0) false) s
      let f := { f with phase := if late.isEmpty then f.phase else 1 }
      s.deliverEnd h f Env.clean

def execDeliverDeadline (h : Hide) (s : State) : Host.Outcome State Fault Refusal := .next (deliverDeadline h s)

end Sys2Proof.Machine
end

