-- ==== Sys2Proof/Machine/Load.lean ====
section
/-!
DEFINITION. LOAD_CODEBOOK and slot reloads (R238 to R241, R247), LOAD_WEIGHTS (R173 to R176, R248).
-/

namespace Sys2Proof.Machine
open Sys2Proof

/-! ### LOAD_CODEBOOK -/

/-- The generations of a codebook ID that are not FREE. -/
def Tab.generations (t : Tab) (id : Nat) : List BookRec := (t.books.map (·.2)).filter (fun b => b.book.id == id)

/-- The lowest free slot of the hide's set (R238). -/
def HideSt.freeSlot (x : HideSt) : Option Nat :=
  match x.lay with
  | none => none
  | some e => (maskList 4 e.cbSlots).find? (fun i => !(x.o.tab.books.any (fun b => b.2.slot == i)))

/-- The generation of the next load of an ID (R240). -/
def OPart.nextGen (o : OPart) (id : Nat) : Nat :=
  let n := AMap.get 0 o.bookGens id
  if n = 14 then 1 else n + 1

/-- Take a codebook record out. -/
def OPart.dropBook (o : OPart) (k : Nat) : OPart := { o with tab := { o.tab with books := o.tab.books.erase k } }

/-- The entries of a codebook image (R239). -/
def bookRows (vq fmt entries : Nat) (bs : List Byte) : List (List Nat) :=
  let d := Codec.vqDim vq
  let codes := Codec.unpackBits (Codec.elemBits fmt) ((entries - 1) * d) bs
  (List.range (entries - 1)).map (fun i => (codes.drop (i * d)).take d)

/-- Does an image hold a NaN element, or zeros alone (R239). -/
def badBook (fmt : Nat) (rows : List (List Nat)) : Bool :=
  let vs := rows.flatten.map (Codec.elemVal fmt)
  vs.any (·.isNan) || vs.all (·.isZero)

/-- The key of the generation that a load in flight fills. -/
def Flight.bookKey (f : Flight) : Nat := keyOf (fieldAt f.result 0 4)

/-- LOAD_CODEBOOK once its image is in. -/
def loadBookStep (h c : Nat) (e : Env) (s : State) (f : Flight) : State :=
  let s := s.stored h e
  let x := s.hide h
  let f := s.at c f
  let o := f.order
  let k := f.bookKey
  let fail (st d : Nat) : State := (s.upO h (fun y => y.dropBook k)).abandon h f st d
  match f.dmas.head?.bind (AMap.find x.o.dmas), AMap.find x.o.tab.books k with
  | some m, some b =>
    if m.status ≠ some stOk then fail (m.status.getD stTimeout) 0
    else
      let rows := bookRows (o.f 18 1) (o.f 19 1) (o.f 20 2) m.data
      if badBook (o.f 19 1) rows then fail stFieldRange (detailAt 32)
      else
        let book : Book := { b.book with rows := rows, emax := Codec.bookEmax (o.f 19 1) rows }
        let s := s.upO h (fun y => { y with tab := { y.tab with books := y.tab.books.set k { b with book := book, imageCrc := Crypto.crc32c m.data } } })
        let res := f.result
        let (s, f) := s.forget h f
        s.close h (f.finish res [.bookReady k]) e
  | _, _ => fail stTimeout 0

/-- LOAD_CODEBOOK at its admission: the generation is LOADING, and its image is read (R239, R240). -/
def loadBookWork (h : Nat) (e : Env) (s : State) (o : Order) (f : Flight) : State :=
  let s := s.stored h e
  let x := s.hide h
  let id := o.f 16 2
  match x.freeSlot with
  | none => s.keep h (f.fail stNoPage)
  | some slot =>
    if 2 ≤ (x.o.tab.generations id).length then s.keep h (f.fail stNoPage)
    else
      let gen := x.o.nextGen id
      let book : Book :=
        { id := id, gen := gen, vqFormat := o.f 18 1, entryFormat := o.f 19 1, entries := o.f 20 2, rows := [],
          litTol := BitVec.ofNat 32 (o.f 24 4), emax := 0 }
      let rec_ : BookRec := { st := .loading, book := book, slot := slot, queued := 0, imageCrc := 0, units := 0, flash := none, badClusters := [] }
      let s := s.upO h (fun y => { y with
        tab := { y.tab with books := y.tab.books.set (bookKey id gen) rec_ }
        bookGens := y.bookGens.set id gen })
      let (s, i) := s.dmaRead h o.seq (o.f 32 8) (o.f 40 8)
      s.keep h { f with dmas := [i], result := leBytes 6 (objId 5 h (id + 4096 * gen)) }

def execLoadCodebook (h : Hide) (c : Chain) (e : Env) (s : State) : Host.Outcome State Fault Refusal :=
  .next (s.run h c .move (isOp 0x18) (loadBookStep h c e) (loadBookWork h e))

/-! ### Slot reloads -/

/-- Can the home copy of a generation be read: not poisoned, and not on a lost extent or an absent module (R247, R345). -/
def State.homeReadable (s : State) (h k : Nat) (b : BookRec) : Bool :=
  let o := (s.hide h).o
  !(o.metas.contains (.bookHome k)) && (b.flash.getD []).all (fun i => match AMap.find o.tab.exts i with
    | some e => !e.lost && (s.port e.module).usable
    | none => false)

/-- CODEBOOK_SLOT_RELOAD: the reload of a cluster's slot ends; `ok` says that the copy that was read passed its
IMAGE_CRC. One that fails leaves the slot failed (R238, R247). -/
def codebookSlotReload (h k c : Nat) (ok : Bool) (s : State) : State :=
  match AMap.find (s.hide h).o.tab.books k with
  | none => s
  | some b =>
    let good := ok && s.homeReadable h k b
    let bad := if good then b.badClusters.filter (· != c) else (if b.badClusters.contains c then b.badClusters else b.badClusters ++ [c])
    s.upO h (fun o => { o with tab := { o.tab with books := o.tab.books.set k { b with badClusters := bad } } })

def execCodebookSlotReload (h : Hide) (key : Nat) (c : Cluster) (ok : Bool) (s : State) : Host.Outcome State Fault Refusal :=
  .next (codebookSlotReload h key c ok s)

/-! ### LOAD_WEIGHTS -/

/-- The vectors a KV_PROJ or LATENT_UP set must have, by its descriptor (R173): the offset of the field that is wrong. -/
def setShapeFail (d : Desc) (o : Order) : Option Nat :=
  match o.f 20 1 with
  | 0 =>
    if d.layers ≤ o.f 18 2 then some 18
    else if o.f 24 4 ≠ d.spanRows * d.headDim then some 24 else none
  | 1 =>
    if d.layers ≤ o.f 18 2 then some 18
    else if d.attn ≠ 1 then some 20
    else if o.f 28 4 ≠ d.headDim then some 28 else none
  | _ => none

/-- The squared norm of a stored row (R176). -/
def rowNorm (v : List Fp.Val) : U32 := v.foldl (fun a e => Fp.add32 a (Fp.to32 (e.mul e))) Fp.zero32

/-- The set that an order describes, LOADING and without its image. -/
def loadedSet (o : Order) (units : Nat) : WSet :=
  { st := .loading, gen := 0, modelId := o.f 16 2, layer := o.f 18 2, role := o.f 20 1, format := o.f 21 1,
    vectors := o.f 24 4, dim := o.f 28 4, biased := bit (o.f 22 2) 0, expandForm := bit (o.f 22 2) 1,
    book := if isVq (o.f 21 1) then some (bits (o.f 32 2) 0 12, bits (o.f 32 2) 12 4) else none,
    image := [], norms := [], units := units, flash := none, poison := false }

/-- Check a coded image as it is copied: FIELD_RANGE when its stream is not the set's, CHECK_FAIL when a block's check
fails, 0 when it is good (R175, R248). -/
def codedSetStatus (b : Book) (qper : Nat) (w : WSet) (bs : List Byte) : Nat :=
  match readBlocks ((w.lens qper).foldl (· + ·) 0 / Codec.vqElems w.format) bs with
  | none => stFieldRange
  | some (blocks, rest) =>
    let tail := if w.biased then 4 * w.vectors else 0
    let pad := rest.drop tail
    if blocks.any (fun k => k.cbId != b.id || k.cbGen != b.gen || (Codec.expandBlock b k).isNone) then stFieldRange
    else if rest.length < tail ∨ 64 ≤ pad.length ∨ pad.any (· != 0) ∨ bs.length % 64 ≠ 0 then stFieldRange
    else if blocks.any (fun k => Codec.readBlock b k == .bad) then stCheckFail
    else 0

/-- The index of the set that a load in flight fills. -/
def Flight.setIndex (f : Flight) : Nat := fieldAt f.result 0 4

/-- Take a weight set out. -/
def OPart.dropSet (o : OPart) (i : Nat) : OPart := { o with tab := { o.tab with sets := o.tab.sets.erase i } }

/-- LOAD_WEIGHTS once its image is in. -/
def loadSetStep (h c : Nat) (e : Env) (s : State) (f : Flight) : State :=
  let s := s.stored h e
  let x := s.hide h
  let f := s.at c f
  let o := f.order
  let i := f.setIndex
  let fail (st d : Nat) : State := (s.upO h (fun y => y.dropSet i)).abandon h f st d
  match f.dmas.head?.bind (AMap.find x.o.dmas), AMap.find x.o.tab.sets i, x.desc (o.f 16 2) with
  | some m, some w, some d =>
    if m.status ≠ some stOk then fail (m.status.getD stTimeout) 0
    else
      let st : Nat := match w.book with
        | none => 0
        | some ig => match x.o.tab.resident ig with
          | some b => codedSetStatus b d.qPerKv w m.data
          | none => stCodebookRetired
      if st ≠ 0 then fail st (if st = stFieldRange then detailAt 48 else 0)
      else
        let w : WSet := { w with image := m.data }
        let w : WSet := { w with norms := if w.role = 2 then (x.o.tab.viewSet d.qPerKv w).vecs.map rowNorm else [] }
        let s := s.upO h (fun y => { y with tab := { y.tab with sets := y.tab.sets.set i w } })
        let lines := if w.book.isSome then ceilDiv m.data.length 64 else 0
        let (s, f) := s.forget h f
        s.close h (f.finish (leBytes 6 (objId 6 h i) ++ leBytes 2 0 ++ leBytes 4 lines) [.setReady i]) e
  | _, _, _ => fail stTimeout 0

/-- LOAD_WEIGHTS at its admission: its checks, its units, and the read of its image (R174 to R176). -/
def loadSetWork (h : Nat) (e : Env) (s : State) (o : Order) (f : Flight) : State :=
  let s := s.stored h e
  let x := s.hide h
  match x.desc (o.f 16 2) with
  | none => s.keep h (f.fail stBadObject)
  | some d =>
    match setShapeFail d o with
    | some k => s.keep h (f.fail stFieldRange (detailAt k))
    | none =>
      let fmt := o.f 21 1
      let size := setBytes d (o.f 20 1) fmt (o.f 24 4) (o.f 28 4) (bit (o.f 22 2) 0) (bit (o.f 22 2) 1)
      let units := units4k (o.f 48 8)
      if !(isVq fmt) && o.f 48 8 ≠ size then s.keep h (f.fail stFieldRange (detailAt 48))
      else
        let book : Nat ⊕ Option BookRec := if isVq fmt then (match x.codingBook (o.f 32 2) with
          | .inl st => .inl st
          | .inr b => .inr (some b)) else .inr none
        match book with
        | .inl st => s.keep h (f.fail st)
        | .inr b =>
          let wrong : Bool := match b with | some b => b.book.vqFormat != fmt | none => false
          if wrong then s.keep h (f.fail stFieldRange (detailAt 21))
          else if x.weightFree < units then s.keep h (f.fail stNoPage)
          else
            let i := x.o.nextSet + 1
            let s := s.upO h (fun y => { y with
              nextSet := i
              tab := { y.tab with sets := y.tab.sets.set i (loadedSet o units) } })
            let (s, id) := s.dmaRead h o.seq (o.f 40 8) (o.f 48 8)
            s.keep h { f with dmas := [id], result := leBytes 4 i }

def execLoadWeights (h : Hide) (c : Chain) (e : Env) (s : State) : Host.Outcome State Fault Refusal :=
  .next (s.run h c .move (isOp 0x1A (fun o => o.f 48 8 != 0)) (loadSetStep h c e) (loadSetWork h e))

/-- LOAD_WEIGHTS with BYTES 0: the set enters RETIRING at the next publication (R176). -/
def retireSetWork (h : Nat) (e : Env) (s : State) (o : Order) (f : Flight) : State :=
  let s := s.stored h e
  let x := s.hide h
  let id := o.f 56 6
  if wrongId h id 6 then s.keep h (f.fail stBadObject)
  else match AMap.find x.o.tab.sets (objIndex id) with
    | none => s.keep h (f.fail stBadObject)
    | some w =>
      if w.st != .ready then s.keep h (f.fail stBadObject)
      else s.close h (f.finish (leBytes 6 id) [.setRetire (objIndex id)]) e

def execLoadWeightsRetire (h : Hide) (c : Chain) (e : Env) (s : State) : Host.Outcome State Fault Refusal :=
  .next (s.admitFirst h c .move (isOp 0x1A (fun o => o.f 48 8 == 0)) demandFit (retireSetWork h e))

end Sys2Proof.Machine
end

