-- ==== Sys2Proof/Machine/Txn.lean ====
section
/-!
DEFINITION. Transactions (R274 to R278) and DROP_REST (R270, R273): the queue commands that take effect when they are
taken.
-/

namespace Sys2Proof.Machine
open Sys2Proof

/-- The queue command at the front of a hide's taken orders, of an opcode, with the state after it is taken out. -/
def State.frontMarker (s : State) (h op : Nat) : Option (Order × State) :=
  match (s.hide h).q.dispatch with
  | [] => none
  | o :: rest => if o.marker && o.opcode == op then some (o, s.upQ h (fun q => { q with dispatch := rest })) else none

/-- Take the front command of an opcode, then dispatch what follows it. -/
def State.takeMarker (s : State) (h op : Nat) (eff : State → Order → State) : State :=
  match s.frontMarker h op with
  | none => s
  | some (o, s) => (eff s o).dispatchAll h

/-! ### Markers (R274) -/

/-- TXN_BEGIN: opens a transaction, unless it fails a check or one is open. -/
def beginWork (h : Nat) (s : State) (o : Order) : State :=
  match (s.hide h).q.openTxn o.ring with
  | some _ => s.dispatchOne h o
  | none =>
    let (s, r) := s.checks h o
    match r with
    | some (st, d) => s.endTaken h o st d []
    | none =>
      let id := (s.hide h).q.nextTxn
      let t : Txn :=
        { id := id, ring := o.ring, start := o, openF := s.plan.furlong, members := [], done := [], held := [],
          objects := [], closer := none, decision := none, timedOut := false, lastChain := s.now 0 }
      s.upQ h (fun q => { (q.upRing o.ring (fun r => { r with txn := some id })) with
        txns := q.txns ++ [t]
        nextTxn := id + 1 })

/-- A closing marker: it closes the open transaction, with its own failure if it fails a check (R274, R277). -/
def closeWork (h : Nat) (commit : Bool) (s : State) (o : Order) : State :=
  let t := (s.hide h).q.openTxn o.ring
  let (s, r) := s.checks h o
  match t, r with
  | none, some (st, d) => s.endTaken h o st d []
  | none, none => s.endTaken h o stFieldRange (detailAt 0) []
  | some t, r =>
    let (st, d) := r.getD (0, 0)
    s.upQ h (fun q => (q.upRing o.ring (fun r => { r with txn := none })).upTxn t.id (fun y => { y with
      closer := some (o, commit, st, d)
      lastChain := max y.lastChain (s.now 0) }))

def execTxnBegin (h : Hide) (s : State) : Host.Outcome State Fault Refusal := .next (s.takeMarker h 0x20 (beginWork h))
def execTxnCommit (h : Hide) (s : State) : Host.Outcome State Fault Refusal := .next (s.takeMarker h 0x21 (closeWork h true))
def execTxnAbort (h : Hide) (s : State) : Host.Outcome State Fault Refusal := .next (s.takeMarker h 0x22 (closeWork h false))

/-! ### The decision (R276, R277) -/

/-- Every member of a transaction has ended its work. -/
def Txn.allEnded (t : Txn) : Bool :=
  t.members.all (fun m => t.done.any (fun c => c.order.seq == m) || t.held.any (fun f => f.order.seq == m))

/-- Members with their statuses, in taking order. -/
def Txn.statuses (t : Txn) : List (Nat × Nat) :=
  t.members.zipIdx.map (fun m =>
    (m.2, match t.done.find? (fun c => c.order.seq == m.1), t.held.find? (fun f => f.order.seq == m.1) with
      | some c, _ => c.status
      | none, some f => f.finalStatus
      | none, none => stOk))

/-- The first member that did not succeed: its status and index. -/
def Txn.failure (t : Txn) : Option (Nat × Nat) :=
  (t.statuses.find? (fun m => decide (0x10 ≤ m.2))).map (fun m => (m.2, m.1))

/-- The object set of a transaction: what its members name, and prefixes that its lookups found to fork (R277). -/
def Txn.objectSet (t : Txn) (h : Nat) : List Nat :=
  t.objects ++ t.held.flatMap (fun f => f.fx.filterMap (fun e => match e with | .fork _ i _ => some (objId 4 h i) | _ => none))

/-- Is a held effect valid against the tables that precede it (R277). -/
def fxValid (t : Tab) : Fx → Bool
  | .enter hd _ => (AMap.find t.seqs hd).isNone
  | .extend hd _ => active hd
  | .retire hd => (match AMap.find t.seqs hd with | some q => q.st == .active || q.st == .swapped || q.st == .parked | none => false)
  | .append hd l start _ opened copied => active hd && (match AMap.find t.seqs hd with
      | some q => (q.layer l).point == start && decide (opened.length ≤ (q.layer l).reserved) &&
          (copied.isSome == (match (q.layer l).pages.getLast? with | some p => p.cow | none => false))
      | none => false)
  | .fork hd i _ => active hd && ready i && (match AMap.find t.seqs hd with | some q => q.length == 0 && q.pfx == 0 | none => false)
  | .mass hd _ _ => active hd
  | .globals hd _ => active hd
  | .budget hd _ => active hd
  | .stateWrite hd _ _ _ => active hd
  | .publish hd _ p => active hd && (p.parent == 0 || ready (objIndex p.parent))
  | .promote i _ _ _ => ready i
  | .withdraw i => ready i
  | _ => true
where
  active (hd : Nat) : Bool := match AMap.find t.seqs hd with | some q => q.st == .active | none => false
  ready (i : Nat) : Bool := match AMap.find t.pfxs i with | some p => p.st == .ready | none => false

/-- The first member, as a taking number, with an effect that is invalid when the held effects apply in order. -/
def HideSt.firstInvalid (x : HideSt) : Tab → List (Nat × Fx) → Option Nat
  | _, [] => none
  | t, (m, e) :: rest => if fxValid t e then x.firstInvalid (x.applyAll t [e]) rest else some m

/-- The tables that precede a transaction in its publication: the furlong's other changes, then the transactions that
commit before it. -/
def HideSt.preceding (x : HideSt) (furlong : Nat) : Tab :=
  let ended := x.q.flights.filter (fun f => f.order.txn.isNone && f.settled)
  let commits := x.q.txns.filter (fun t => match t.decision with | some d => d.commits && d.furlong == furlong | none => false)
  x.applyAll x.o.tab (x.o.pending ++ ended.flatMap (·.fx) ++ commits.flatMap (fun t => (sortBySeq t.held).flatMap (·.fx)))

/-- The outcome of a closed transaction whose members have ended (R277). -/
def HideSt.verdict (x : HideSt) (h furlong : Nat) (t : Txn) : Decision :=
  if t.timedOut then ⟨false, stTimeout, 0xFFFF, furlong⟩
  else match t.closer with
    | none => ⟨false, stTimeout, 0xFFFF, furlong⟩
    | some (_, commit, st, _) =>
      if st ≠ 0 then ⟨false, st, 0xFFFF, furlong⟩
      else if !commit then ⟨false, stOk, 0xFFFF, furlong⟩
      else match t.failure with
        | some (st, i) => ⟨false, st, i, furlong⟩
        | none =>
          let earlier := x.q.txns.filter (fun y => match y.decision with | some d => d.commits && d.furlong == furlong | none => false)
          let mine := t.objectSet h
          if earlier.any (fun y => (y.objectSet h).any mine.contains) then ⟨false, stConflict, 0xFFFF, furlong⟩
          else
            let fx := (sortBySeq t.held).flatMap (fun f => f.fx.map (fun e => (f.order.seq, e)))
            match x.firstInvalid (x.preceding furlong) fx with
            | some m => ⟨false, stConflict, t.members.idxOf m, furlong⟩
            | none => ⟨true, stOk, 0xFFFF, furlong⟩

/-- An aborted transaction takes no table effect: what its members took returns (R277). -/
def State.abortTxn (s : State) (h : Nat) (t : Txn) : State :=
  let s := t.held.foldl (fun s f => s.revoke h f) s
  s.upQ h (fun q => q.upTxn t.id (fun y => { y with
    held := y.held.map (fun f => { f with fx := [], tookFrames := [], tookExts := [] }) }))

/-- TXN_DECISION: the transaction is closed, or timed out, and its last member has ended (R276, R277). -/
def txnDecision (h id : Nat) (s : State) : State :=
  let x := s.hide h
  match x.q.txns.find? (fun t => t.id == id) with
  | none => s
  | some t =>
    if t.decision.isSome || !(t.closer.isSome || t.timedOut) || !t.allEnded || decide (s.plan.furlong < t.lastChain / 10) then s
    else
      let d := x.verdict h s.plan.furlong t
      let s := s.upQ h (fun q => q.upTxn id (fun y => { y with decision := some d }))
      if d.commits then s else s.abortTxn h t

def execTxnDecision (h : Hide) (txn : Nat) (s : State) : Host.Outcome State Fault Refusal := .next (txnDecision h txn s)

/-- TXN_TIMEOUT: the open transaction of a ring has run 65,536 furlongs without its closing marker. It aborts; members
that have not been admitted end, and orders up to the next closing marker end with TIMEOUT (R278). -/
def txnTimeout (h ring : Nat) (s : State) : State :=
  let x := s.hide h
  match x.q.openTxn ring with
  | none => s
  | some t =>
    let left := x.q.queue.filter (fun o => o.txn == some t.id)
    let s := s.upQ h (fun q => { ((q.upRing ring (fun r => { r with txn := none, skipping := true })).upTxn t.id (fun y =>
        { y with timedOut := true })) with queue := q.queue.filter (fun o => o.txn != some t.id) })
    let s := s.upO h (fun o => { o with lane := o.lane.filter (fun n => !(left.any (fun p => p.seq == n))) })
    (left.foldl (fun s o => (s.dropFetches h o.seq).endTaken h o stTimeout 0 []) s).dispatchAll h

def execTxnTimeout (h : Hide) (ring : Fin 8) (s : State) : Host.Outcome State Fault Refusal := .next (txnTimeout h ring s)

/-! ### DROP_REST (R273) -/

/-- Drop the rest of the packet that the consumer has begun: the ring, the entries discarded, the first index kept. -/
def OutRing.dropRest (r : OutRing) : OutRing × Nat × U32 :=
  let at_ := r.read
  if r.unread = 0 then (r, 0, r.prod)
  else
    let past (p : Nat × Nat) : Bool := decide (idxDiff (BitVec.ofNat 32 (p.1 + p.2)) at_ ≤ 0)
    match r.pkts.dropWhile past with
    | [] => (r, 0, at_)
    | (i, n) :: t =>
      let e := BitVec.ofNat 32 (i + n)
      ({ r with oldest := e, pkts := t }, (e - at_).toNat, e)

/-- DROP_REST outside a transaction. -/
def dropWork (h : Nat) (s : State) (o : Order) : State :=
  match (s.hide h).q.openTxn o.ring with
  | some _ => s.dispatchOne h o
  | none =>
    let (s, r) := s.checks h o
    match r with
    | some (st, d) => s.endTaken h o st d []
    | none =>
      let q := (s.hide h).q
      let n := o.f 17 1
      let ring := if o.f 16 1 = 0 then q.comps.get OutRing.reset n else q.events
      if !ring.ready then s.endTaken h o stFieldRange (detailAt (if o.f 16 1 = 0 then 17 else 16)) []
      else
        let (r', k, i) := ring.dropRest
        let s := s.upQ h (fun q => if o.f 16 1 = 0 then { q with comps := q.comps.set n r' } else { q with events := r' })
        let s := s.backInvalidate h r'.base.toNat 12
        let s := s.writeMem h r'.base.toNat (headerBytes r')
        s.endTaken h o stOk 0 (leBytes 4 k ++ leBytes 4 i.toNat)

def execDropRest (h : Hide) (s : State) : Host.Outcome State Fault Refusal := .next (s.takeMarker h 0x28 (dropWork h))

end Sys2Proof.Machine
end

