-- ==== Sys2Proof/Machine/Replays.lean ====
section
/-!
DEFINITION. Replay of suspect units (R346 to R352), corrective write-backs (R342), and screening (R353 to R357).
-/

namespace Sys2Proof.Machine
open Sys2Proof

/-! ### Replay -/

/-- Does the plan in force name a region as live. -/
def State.planned (s : State) (r : Nat) : Bool := match s.plan.ream with | some p => bit p.header.liveMask r | none => false

/-- A region that can serve as a replay partner (R349). -/
def State.live (s : State) (r : Nat) : Bool := s.planned r && !(s.region r).failed && !(s.region r).excluded

/-- The partner of a unit's next replay (R349, R350): the first partner, then the other one. -/
def State.partner (s : State) (u : Replay) : Option Nat :=
  let a := u.region ^^^ 1
  let b := u.region ^^^ 4
  if u.tries = 0 then (if s.live a then some a else if s.live b then some b else none)
  else if u.partner = a then (if s.live b then some b else none)
  else none

/-- Change a replay unit. -/
def State.upUnit (s : State) (id : Nat) (f : Replay → Replay) : State :=
  { s with screen := { s.screen with units := s.screen.units.map (fun u => if u.id == id then f u else u) } }
def State.dropUnit (s : State) (id : Nat) : State :=
  { s with screen := { s.screen with units := s.screen.units.filter (fun u => u.id != id) } }

/-- The outcomes of R352. -/
def outMasked : Nat := 0
def outConfirmed : Nat := 1
def outFailed : Nat := 2

/-- HEALTH and the REPLAY record of an outcome (R352, R362). -/
def State.health (s : State) (u : Replay) (out : Nat) (o : Option Order) : State :=
  let cl := if u.cluster < 4096 then u.cluster else 0xFFFF
  let s := s.record recReplay (agent 16) u.region [u.cause, out, u.tries, u.region, u.partner, cl, u.hide]
  match o with
  | none => s
  | some o =>
    s.postEvent u.hide [eventEntry evHealth s.plan.furlong (leBytes 1 u.cause ++ leBytes 1 out ++ leBytes 1 o.ring ++
      leBytes 1 u.tries ++ leBytes 4 o.number ++ leBytes 1 u.region ++ leBytes 1 u.partner ++ leBytes 2 cl ++ leBytes 4 o.cookie)]

/-- Does an order's output come entry by entry. -/
def Order.entrywise (o : Order) : Bool := o.opcode == 0x08 || o.opcode == 0x09 || o.opcode == 0x0A

/-- Make the held writes of some entries, changed by `f`; an order that is one consumer writes them without a count. -/
def State.release (s : State) (h : Nat) (f : Flight) (entries : List Nat) (g : HeldOut → HeldOut) : State × Flight :=
  let ps := (f.outs.filter (fun p => entries.contains p.entry)).map g
  let f := { f with outs := f.outs.filter (fun p => !(entries.contains p.entry)) }
  if f.order.entrywise then s.putPieces h f ps
  else (ps.foldl (fun s p => s.dmaWrite h p.addr p.data p.ep) s, f)

/-- A unit's outcome reaches its order: held entries are released, or fail (R347, R350). -/
def State.resolve (s : State) (u : Replay) (failed : Bool) : State :=
  match (s.hide u.hide).q.flights.find? (fun f => f.order.seq == u.order) with
  | none => s
  | some f =>
    let f := { f with suspects := f.suspects.filter (· != u.id), replayed := f.replayed || !failed }
    if failed then
      if f.order.entrywise then
        let gone := (f.outs.filter (fun p => p.hdr && u.consumers.contains p.entry)).map (fun p => fieldAt p.data 4 4)
        let (s, f) := s.release u.hide f u.consumers (HeldOut.failed stCheckFail)
        s.settle u.hide { f with fx := f.fx.filter (fun e => match e with | .mass hd _ _ => !(gone.contains hd) | _ => true) }
      else
        let (s, f) := s.release u.hide f u.consumers (HeldOut.failed stCheckFail)
        let s := s.revoke u.hide f
        s.settle u.hide { (f.fail stCheckFail) with fx := [], tookFrames := [], tookExts := [], result := [] }
    else
      let free := u.consumers.filter (fun i => !(s.heldBack u.hide u.order i))
      let (s, f) := s.release u.hide f free HeldOut.replayed
      s.settle u.hide f

/-- A unit's outcome: HEALTH, its record, the counts, what it says of the hardware (R350 to R353). -/
def State.outcome (s : State) (u : Replay) (out : Nat) : State :=
  let o := ((s.hide u.hide).q.flights.find? (fun f => f.order.seq == u.order)).map (·.order)
  let s := s.dropUnit u.id
  let sc := s.screen
  let s := { s with screen := { sc with
    confirmed := if out = outConfirmed then satInc sc.confirmed else sc.confirmed
    failed := if out = outFailed then satInc sc.failed else sc.failed } }
  let s := s.upC u.hide (fun c => { c with
    replayed := if out = outFailed then c.replayed else satInc c.replayed
    confirmed := if out = outConfirmed then satInc c.confirmed else c.confirmed })
  let s := s.health u out o
  let s := if u.phys < 80 ∧ u.cluster < 4096 then s.unitOutcome u.cluster u.phys (out == outConfirmed) else s
  s.resolve u (out == outFailed)

/-- REPLAY_START: the first suspect unit of a region starts its replay, when none of the region runs; a unit with no
live partner fails its consumers (R349, R350). -/
def replayStart (r : Nat) (s : State) : State :=
  let mine := s.screen.units.filter (fun u => u.region == r)
  if mine.any (·.started) then s
  else match mine with
    | [] => s
    | u :: _ =>
      match s.partner u with
      | none => s.outcome { u with partner := if u.tries = 0 then 0xFF else u.partner } outFailed
      | some p => s.upUnit u.id (fun u => { u with started := true, partner := p, tries := u.tries + 1 })

def execReplayStart (r : Rgn) (s : State) : Host.Outcome State Fault Refusal := .next (replayStart r s)

/-- REPLAY_RESULT: the result of a started replay, or of one on the other pipeline of the I/O die's output stage (R350,
R352). A suspect first replay is replayed once more. -/
def replayResult (id : Nat) (out : ReplayOut) (s : State) : State :=
  match s.screen.units.find? (fun u => u.id == id) with
  | none => s
  | some u =>
    let io := decide (64 ≤ u.region)
    if !u.started && !io then s
    else
      let u := if io then { u with tries := u.tries + 1, partner := 0xFF } else u
      let s := { s with screen := { s.screen with replays := satInc s.screen.replays } }
      match out with
      | .equal => s.outcome u outMasked
      | .differs => s.outcome u outConfirmed
      | .suspect =>
        if 2 ≤ u.tries || (!io && (s.partner u).isNone) then s.outcome u outFailed
        else s.upUnit id (fun _ => { u with started := false })

def execReplayResult (replay : Nat) (out : ReplayOut) (s : State) : Host.Outcome State Fault Refusal :=
  .next (replayResult replay out s)

/-! ### Corrective write-back (R342) -/

/-- DRAM_CORRECTIVE_WRITEBACK: refresh window A writes back up to four corrected lines of a cluster. -/
def dramWriteback (c : Nat) (s : State) : State := s.upCluster c (fun k => { k with writeback := k.writeback.drop 4 })

def execDramCorrectiveWriteback (c : Cluster) (s : State) : Host.Outcome State Fault Refusal := .next (dramWriteback c s)

/-! ### Screening (R353 to R357) -/

/-- The next healthy physical unit after `u`, in increasing index modulo 80 (R356). -/
def ClusterSt.nextHealthy (k : ClusterSt) (u : Nat) : Option Nat :=
  ((List.range 79).map (fun i => (u + 1 + i) % 80)).find? (fun p => !(k.failed.contains p))

/-- The lowest healthy unit that no slot uses. -/
def ClusterSt.idleUnit (k : ClusterSt) : Option Nat :=
  (List.range 80).find? (fun p => !(k.failed.contains p) && (k.slotsOf p).isEmpty && k.heldOut != some p)

/-- HELD_OUT_ROTATION: at the end of the holding period the held-out unit returns to the spare set and the next healthy
unit is held out; a unit that has failed a run stays held out (R356). Where the held-out unit has failed or been mapped, the
lowest healthy idle unit follows it. -/
def heldOutRotation (c : Nat) (s : State) : State :=
  let k := s.cluster c
  if !s.reamActive || k.spares = 0 then s
  else
    let since := (s.region (c / 64)).held
    match k.heldOut with
    | none => s.upCluster c (fun k => { k with heldOut := k.idleUnit, passing := true, heldSince := since })
    | some u =>
      if since < k.heldSince + 2 ^ bits s.screen.rotExp.toNat 0 5 then s
      else if !k.passing then s.upCluster c (fun k => { k with passing := true, heldSince := since })
      else match k.nextHealthy u with
        | none => s
        | some v =>
          s.upCluster c (fun k => { k with
            map := (k.slotsOf v).foldl (fun m i => m.set i u) k.map
            heldOut := some v
            passing := true
            heldSince := since })

def execHeldOutRotation (c : Cluster) (s : State) : Host.Outcome State Fault Refusal := .next (heldOutRotation c s)

/-- SCREEN_PATTERN_RUN: a run of a pattern of the held package ends with the check of its result. A stress pattern runs
in its region's maintenance furlong; an idle pattern runs on the held-out unit (R355 to R357). -/
def screenPatternRun (c phys pattern : Nat) (result : U32) (s : State) : State :=
  match s.screen.package.bind (fun p => p.patterns.find? (fun y => y.id == pattern)) with
  | none => s
  | some p =>
    let k := s.cluster c
    let r := s.region (c / 64)
    let runs := if p.level = 1 then r.maint && !(k.failed.contains phys) else k.heldOut == some phys && s.reamActive
    if !runs then s
    else
      let fail := result != p.expect
      let bump (b : Bool) (x : Nat × Nat) : Nat × Nat := if b then (if p.level = 1 then (x.1 + 1, x.2) else (x.1, x.2 + 1)) else x
      let s := { s with screen := { s.screen with runs := bump true s.screen.runs, fails := bump fail s.screen.fails } }
      if !fail then s
      else
        let s := { s with screen := (if p.level = 1 then { s.screen with stressFail := satInc s.screen.stressFail }
          else { s.screen with idleFail := satInc s.screen.idleFail }) }
        let s := s.upCluster c (fun k => if p.level = 2 then { k with passing := false } else k)
        let s := s.record recScreen (agent 3) (c / 64) [p.id, p.level, r.point, p.target, c, phys, p.action]
        if p.action ≠ 1 then s
        else if p.target = 0 then s.failUnit c phys
        else s.failShared c

def execScreenPatternRun (c : Cluster) (phys pattern : Nat) (result : U32) (s : State) : Host.Outcome State Fault Refusal :=
  .next (screenPatternRun c phys pattern result s)

/-- SCREEN_SUMMARY: the runs and failures of each level since the last summary (R357). -/
def screenSummary (s : State) : State :=
  let k := s.screen
  let s := s.record recSummary (agent 3) 0xFF [k.runs.1, k.fails.1, k.runs.2, k.fails.2]
  { s with screen := { s.screen with runs := (0, 0), fails := (0, 0) } }

def execScreenSummary (s : State) : Host.Outcome State Fault Refusal := .next (screenSummary s)

/-- BANK_GROUP_FAULT_RECORD: a FAULT record for each cluster's bank group with a nonzero count (R353, R362). -/
def bankGroupFaultRecord (s : State) : State :=
  s.clusters.foldl (fun s e =>
    let k := e.2
    if k.corrected + k.uncorrected = 0 then s
    else
      let s := s.record recFault (agent 3) (e.1 / 64) [6, e.1, k.corrected + k.uncorrected, 0]
      s.upCluster e.1 (fun k => { k with corrected := 0, uncorrected := 0 })) s

def execBankGroupFaultRecord (s : State) : Host.Outcome State Fault Refusal := .next (bankGroupFaultRecord s)

end Sys2Proof.Machine
end

