-- ==== Sys2Proof/Machine/Acres.lean ====
section
/-!
DEFINITION. Acres and leases (R292 to R304): acre memory, lease slots and their commands, terms, holds and recalls.
-/

namespace Sys2Proof.Machine
open Sys2Proof

/-! ### CONFIG records (R362, R420) -/

/-- Change kinds of a CONFIG record (assumption 7). -/
def cfgReam : Nat := 1
def cfgSection : Nat := 2
def cfgPackage : Nat := 3
def cfgRegister : Nat := 4
def cfgLease : Nat := 5
def cfgFirmware : Nat := 6
def cfgReset : Nat := 7
def cfgTime : Nat := 8
def cfgAnchor : Nat := 9
def cfgLife : Nat := 10
def cfgToken : Nat := 11
def cfgRefusal : Nat := 12
def cfgCancel : Nat := 13
def cfgFloor : Nat := 14
def cfgDiscard : Nat := 15

/-- Write a CONFIG record: change kind, result, value and the affected hide or 0xFF. -/
def State.config (s : State) (o : Origin) (kind result : Nat) (value : List Nat) (hide : Nat) : State :=
  s.record recConfig o 0xFF ([kind, result] ++ value ++ [hide])

/-! ### Acre memory (R292, R301) -/

/-- The root that an acre's owner reads and writes it under. -/
def State.acreRoot (s : State) (a : Nat) : BitVec 256 := match (s.acre a).owner with | some h => (s.hide h).k.root | none => 0

/-- Does an acre read zero where nothing is written: it was scrubbed under its owner's root. -/
def State.acreZero (s : State) (a : Nat) : Bool := (s.acre a).zeroUnder == some (s.acreRoot a)

/-- Byte `off` of acre `a`: as written, zero where a scrub under the owner's root has been, or a free value. -/
def State.acreByte (s : State) (a off : Nat) : Byte :=
  match AMap.find (s.acre a).bytes off with
  | some b => b
  | none => if s.acreZero a then 0 else Config.acreByte s.dex.sessionRoot (s.acreRoot a) (a * 2 ^ 28 + off)

/-- The 64 bytes of a line of an acre. -/
def State.acreLine (s : State) (a line : Nat) : List Byte := (List.range 64).map (fun i => s.acreByte a (line * 64 + i))

/-- Write a line of an acre. -/
def State.writeAcre (s : State) (a line : Nat) (bs : List Byte) : State :=
  s.upAcre a (fun x => { x with
    bytes := (bs.zipIdx.foldl (fun m b =>
      if s.acreZero a && b.1 == 0 then AMap.erase m (line * 64 + b.2) else AMap.set m (line * 64 + b.2) b.1) x.bytes) })

/-- A line that reads poisoned: its stored mark, or one that waits to be written (R304). -/
def Acre.poisoned (x : Acre) (line : Nat) : Bool := x.poison.contains line || x.marks.contains line

/-! ### Slots -/

def HideSt.lease (x : HideSt) (n : Nat) : LeaseSlot := x.a.slots.get LeaseSlot.reset n
def State.upSlot (s : State) (h n : Nat) (f : LeaseSlot → LeaseSlot) : State :=
  s.upA h (fun a => { a with slots := amapUp LeaseSlot.reset a.slots n f })

/-- A slot that holds its acre. -/
def LeaseSlot.live (sl : LeaseSlot) : Bool := sl.st == .active || sl.st == .sealed

/-- The slot of a hide on an acre. -/
def HideSt.slotOn (x : HideSt) (a : Nat) : Option (Nat × LeaseSlot) :=
  x.a.slots.find? (fun p => p.2.st != .empty && p.2.acre == a)

/-- The owner's slot on an acre. -/
def State.ownerSlot (s : State) (a : Nat) : Option (Nat × Nat × LeaseSlot) :=
  match (s.acre a).owner with
  | none => none
  | some h => ((s.hide h).slotOn a).map (fun p => (h, p.1, p.2))

/-- Hides with a sharer slot on an acre, with the slot. -/
def State.sharers (s : State) (a : Nat) : List (Nat × Nat) :=
  (List.range 16).filterMap (fun g => match (s.hide g).slotOn a with
    | some (n, sl) => if sl.sharer then some (g, n) else none
    | none => none)

/-- The HDM offset of window `n` (R285). -/
def winBase (n : Nat) : Nat := 2 ^ 30 + n * 2 ^ 28
def inWindow (n off : Nat) : Bool := decide (winBase n ≤ off) && decide (off < winBase n + 2 ^ 28)

/-- The record of a state change of a slot (R297). -/
def State.leaseRecord (s : State) (h n : Nat) (o : Origin) : State :=
  let sl := (s.hide h).lease n
  let id := objId 8 ((s.acre sl.acre).owner.getD (if sl.sharer then sl.peer else h)) sl.acre
  s.config o cfgLease 0 [n, sl.st.code, id % 2 ^ 32, id / 2 ^ 32, sl.refusedReads, sl.refusedWrites] h

/-- Send a back-invalidate snoop to the host of a hide. -/
def State.sendSnoop (s : State) (h off : Nat) (inv : Bool) (why : SnoopFor) : State :=
  (s.upA h (fun a => { a with snoops := a.snoops ++ [⟨off, inv, why⟩] })).enqueue 8 h true ⟨16, .snoop off inv⟩

/-- Recall the lines that a hide holds in a window, those held exclusive only if `exclOnly` (R302, R304). -/
def State.recall (s : State) (h n : Nat) (exclOnly : Bool) : State :=
  ((s.hide h).a.dir.filter (fun d => inWindow n d.off && (d.excl || !exclOnly))).foldl
    (fun s d => s.sendSnoop h d.off (!d.excl) .command) s

/-- End a hide's hold on the acre of a slot without waiting for its host (R304): exclusive lines poisoned, every line
dropped from tracking, BISnpInv for each. -/
def State.endHold (s : State) (h n : Nat) : State :=
  let x := s.hide h
  let a := (x.lease n).acre
  let held := x.a.dir.filter (fun d => inWindow n d.off)
  let asked := x.a.snoops.filter (fun p => inWindow n p.off && p.why != .ended)
  let lost := ((held.filter (·.excl)).map (·.off) ++ (asked.filter (fun p => !p.inv)).map (·.off)).eraseDups
  let all := (held.map (·.off) ++ asked.map (·.off)).eraseDups
  let s := s.upAcre a (fun y => { y with
    marks := y.marks ++ (lost.map (fun o => (o - winBase n) / 64)).filter (fun l => !(y.poisoned l)) })
  let s := s.upA h (fun y => { y with
    dir := y.dir.filter (fun d => !(inWindow n d.off))
    snoops := y.snoops.filter (fun p => !(inWindow n p.off) || p.why == .ended) })
  all.foldl (fun s o => s.sendSnoop h o true .ended) s

/-- One slot enters CLOSING (R299): its lines are recalled, or its hold ends at once. -/
def State.closeSlot (s : State) (h n status : Nat) (o : Origin) (wait : Bool) : State :=
  if !((s.hide h).lease n).live then s
  else
    let s := s.upSlot h n (fun sl => { sl with st := .closing, status := status, remain := 0, refusedReads := 0, refusedWrites := 0 })
    let s := s.leaseRecord h n o
    if wait then s.recall h n false else s.endHold h n

/-- A slot enters CLOSING; for an owner, every sharer slot on the acre with it (R296, R299). -/
def State.closeHold (s : State) (h n status : Nat) (o : Origin) (wait : Bool) : State :=
  let sl := (s.hide h).lease n
  let others := if sl.live && !sl.sharer then s.sharers sl.acre else []
  let s := s.closeSlot h n status o wait
  others.foldl (fun s p => s.closeSlot p.1 p.2 stLeaseLost o wait) s

/-! ### Lease commands (R295 to R297) -/

def cmdOp (v : U64) : Nat := bits v.toNat 0 4
def cmdSlot (v : U64) : Nat := bits v.toNat 4 6
def cmdAcre (v : U64) : Nat := bits v.toNat 16 9
def cmdHide (v : U64) : Nat := bits v.toNat 28 4
def cmdTerm (v : U64) : Nat := bits v.toNat 32 16
def cmdMode (v : U64) : Nat := bits v.toNat 48 1

/-- Ticks of a term in ms (R298). -/
def termTicks (ms : Nat) : Nat := ceilDiv (ms * 4096) 125

/-- The longest term a hide may ask for (R421). -/
def State.termMax (s : State) (h : Nat) : Nat := (AMap.get 60000 s.mgmt.termMax h).toNat

/-- Is a term in range (R295, R421). -/
def State.termOk (s : State) (h ms : Nat) : Bool := decide (10 ≤ ms) && decide (ms ≤ s.termMax h)

/-- The first failing requirement of a command, 0 when it passes (R295, R296). -/
def State.leaseFails (s : State) (h : Nat) (v : U64) : Nat :=
  let x := s.hide h
  let sl := x.lease (cmdSlot v)
  let a := cmdAcre v
  let g := cmdHide v
  let first (l : List (Bool × Nat)) : Nat := match l.find? (·.1) with | some p => p.2 | none => stOk
  let unused (hide acre term mode : Bool) : Bool :=
    (hide && g != 0) || (acre && a != 0) || (term && cmdTerm v != 0) || (mode && cmdMode v != 0)
  let mine := match x.lay with | some e => e.acres.contains a && !(s.acre a).gone | none => false
  let compat := match x.lay with | some e => e.compat | none => false
  let anyConf := x.confidential || (s.hide g).confidential
  let ownerLive := sl.live && !sl.sharer
  match cmdOp v with
  | 1 => first [(unused true false false false, stFieldRange), (sl.st != .empty, stConflict), (!mine, stBadObject),
      (!(s.acre a).free, stNoPage), (!(s.termOk h (cmdTerm v)) || (cmdMode v == 1 && !compat), stFieldRange)]
  | 2 => first [(unused true true true true, stFieldRange), (!sl.live, stConflict)]
  | 3 => first [(unused true true true true, stFieldRange), (sl.st != .active || sl.sharer || sl.compat, stConflict)]
  | 4 => first [(unused false true true true, stFieldRange),
      (sl.sharer || !(sl.st == .sealed || (sl.st == .active && sl.compat)), stConflict), (g == h || anyConf, stFieldRange)]
  | 5 =>
    let granted := match s.ownerSlot a with
      | some (o, _, osl) => o == g && (osl.st == .sealed || (osl.st == .active && osl.compat)) && bit osl.grants h
      | none => false
    first [(unused false false false true, stFieldRange), (sl.st != .empty, stConflict), (!granted, stBadObject),
      ((x.slotOn a).isSome, stConflict), (anyConf || !(s.termOk h (cmdTerm v)), stFieldRange)]
  | 6 => first [(unused false true true true, stFieldRange), (!ownerLive, stConflict), (!(bit sl.grants g), stBadObject)]
  | _ => stFieldRange

/-- Post a command's result. -/
def State.leaseResult (s : State) (h status : Nat) : State := s.upA h (fun a => { a with result := status })

/-- The effect of a command whose requirements hold (R296). -/
def State.leaseEffect (s : State) (h : Nat) (v : U64) : State :=
  let n := cmdSlot v
  let o := byHide s h false
  let take (s : State) (sharer compat : Bool) (a peer : Nat) : State :=
    let s := s.upSlot h n (fun _ => { LeaseSlot.reset with
      st := .active, sharer := sharer, compat := compat, acre := a, peer := peer, term := cmdTerm v,
      remain := termTicks (cmdTerm v) })
    (s.upK h (fun k => { k with pristine := false })).leaseRecord h n o
  match cmdOp v with
  | 1 =>
    let s := s.upAcre (cmdAcre v) (fun a => { a with owner := some h, free := false })
    (take s false (cmdMode v == 1) (cmdAcre v) 0).leaseResult h stOk
  | 2 => (s.closeHold h n stLeaseLost o true).upA h (fun a => { a with cmd := some ⟨false, n⟩ })
  | 3 => (s.recall h n true).upA h (fun a => { a with cmd := some ⟨true, n⟩ })
  | 4 => (s.upSlot h n (fun sl => { sl with grants := listMask (maskList 16 sl.grants ++ [cmdHide v]) })).leaseResult h stOk
  | 5 =>
    let compat := match s.ownerSlot (cmdAcre v) with | some (_, _, sl) => sl.compat | none => false
    (take s true compat (cmdAcre v) (cmdHide v)).leaseResult h stOk
  | 6 =>
    let a := ((s.hide h).lease n).acre
    let s := s.upSlot h n (fun sl => { sl with grants := listMask ((maskList 16 sl.grants).filter (· != cmdHide v)) })
    let s := ((s.sharers a).filter (fun p => p.1 == cmdHide v)).foldl (fun s p => s.closeSlot p.1 p.2 stLeaseLost o true) s
    s.leaseResult h stOk
  | _ => s

/-- A write of AC_CMD (R295 to R297, R409). -/
def State.leaseCommand (s : State) (h : Nat) (v : U64) : State :=
  let x := s.hide h
  if x.a.cmd.isSome then s.upA h (fun a => { a with err := a.err ||| 1 })
  else if !(s.reamActive && x.lay.isSome) || x.resetting then s.leaseResult h stNotAdmitted
  else if s.clocks.aonLost && (cmdOp v == 1 || cmdOp v == 5) then s.leaseResult h stDeviceFault
  else match s.leaseFails h v with
    | 0 => s.leaseEffect h v
    | st => s.leaseResult h st

/-- The rows of AC_CMD: a write whose OP is the row's. -/
def leaseRow (op h : Nat) (v : U64) (s : State) : State := if cmdOp v = op then s.leaseCommand h v else s

def execLease (h : Hide) (v : U64) (s : State) : Host.Outcome State Fault Refusal := .next (leaseRow 1 h v s)
def execRelease (h : Hide) (v : U64) (s : State) : Host.Outcome State Fault Refusal := .next (leaseRow 2 h v s)
def execSealAcre (h : Hide) (v : U64) (s : State) : Host.Outcome State Fault Refusal := .next (leaseRow 3 h v s)
def execGrant (h : Hide) (v : U64) (s : State) : Host.Outcome State Fault Refusal := .next (leaseRow 4 h v s)
def execAttach (h : Hide) (v : U64) (s : State) : Host.Outcome State Fault Refusal := .next (leaseRow 5 h v s)
def execRevoke (h : Hide) (v : U64) (s : State) : Host.Outcome State Fault Refusal := .next (leaseRow 6 h v s)

/-- Recalls on an acre that a command has started and that are not answered. -/
def State.recalling (s : State) (a : Nat) : Bool :=
  (List.range 16).any (fun g => match (s.hide g).slotOn a with
    | some (n, _) => (s.hide g).a.snoops.any (fun p => p.why == .command && inWindow n p.off)
    | none => false)

/-- LEASE_RECALL_COMPLETE: every recall of a SEAL or RELEASE is answered or timed out (R297). A SEAL whose slot has closed
meanwhile fails with CONFLICT. -/
def leaseRecallComplete (h : Nat) (s : State) : State :=
  match (s.hide h).a.cmd with
  | none => s
  | some c =>
    let sl := (s.hide h).lease c.slot
    if s.recalling sl.acre then s
    else
      let s := s.upA h (fun a => { a with cmd := none })
      if !c.sealing then s.leaseResult h stOk
      else if sl.st = .active then
        ((s.upSlot h c.slot (fun sl => { sl with st := .sealed })).leaseRecord h c.slot (byHide s h false)).leaseResult h stOk
      else s.leaseResult h stConflict

def execLeaseRecallComplete (h : Hide) (s : State) : Host.Outcome State Fault Refusal := .next (leaseRecallComplete h s)

/-! ### Terms (R298) -/

/-- AC_RENEW: every ACTIVE or SEALED slot whose bit is set is renewed, for no longer than MG_TERM_MAX (R298, R421). -/
def acRenew (h : Nat) (mask : U64) (s : State) : State :=
  if (s.hide h).resetting then s
  else s.upA h (fun a => { a with slots := a.slots.map (fun p =>
    if bit mask.toNat p.1 && p.2.live then (p.1, { p.2 with remain := termTicks (min p.2.term (s.termMax h)) }) else p) })

def execAcRenew (h : Hide) (mask : U64) (s : State) : Host.Outcome State Fault Refusal := .next (acRenew h mask s)

/-- LEASE_EXPIRY: a slot whose count has reached zero sets its bit of AC_EXPIRED and enters CLOSING (R298). -/
def leaseExpiry (h n : Nat) (s : State) : State :=
  let sl := (s.hide h).lease n
  if !sl.live || sl.remain ≠ 0 then s
  else
    let s := s.upA h (fun a => { a with expired := a.expired ||| BitVec.ofNat 64 (2 ^ n) })
    s.closeHold h n stLeaseLost (agent 4) false

def execLeaseExpiry (h : Hide) (n : Fin 64) (s : State) : Host.Outcome State Fault Refusal := .next (leaseExpiry h n s)

/-! ### Draining and scrubbing (R299, R301) -/

/-- Accepted requests to an acre that have not been served, of one hide or of any. -/
def State.accepted (s : State) (a : Nat) (by_ : Option Nat) : Bool :=
  (List.range 16).any (fun o => (s.hide o).a.acreQ.any (fun q => q.acre == a && (match by_ with | some g => q.hide == g | none => true)))

/-- LEASE_DRAIN_COMPLETE: a CLOSING slot has nothing left to wait for (R299, R300). -/
def leaseDrain (h n : Nat) (s : State) : State :=
  let sl := (s.hide h).lease n
  let o := byHide s h false
  if sl.st ≠ .closing then s
  else if sl.sharer then
    if s.accepted sl.acre (some h) then s else (s.upSlot h n (fun sl => { sl with st := .empty })).leaseRecord h n o
  else
    let dead := (s.region (sl.acre / 6)).excluded || s.power.st == .tripped
    if s.accepted sl.acre none || !(s.sharers sl.acre).isEmpty then s
    else if dead then
      let s := (s.upSlot h n (fun sl => { sl with st := .empty, status := stDeviceFault })).leaseRecord h n o
      s.upAcre sl.acre (fun a => { a with owner := none, free := false, gone := true })
    else if s.recalling sl.acre then s
    else (s.upSlot h n (fun sl => { sl with st := .scrubbing })).leaseRecord h n o

def execLeaseDrainComplete (h : Hide) (n : Fin 64) (s : State) : Host.Outcome State Fault Refusal := .next (leaseDrain h n s)

/-- ACRE_SCRUB_COMPLETE: the acre reads zero under its owner's key, without poison, and is FREE (R299, R301). -/
def acreScrub (h n : Nat) (s : State) : State :=
  let sl := (s.hide h).lease n
  if sl.st ≠ .scrubbing then s
  else
    let root := (s.hide h).k.root
    let s := (s.upSlot h n (fun sl => { sl with st := .empty })).leaseRecord h n (byHide s h false)
    s.upAcre sl.acre (fun a => { a with owner := none, free := true, zeroUnder := some root, bytes := [], poison := [], marks := [] })

def execAcreScrubComplete (h : Hide) (n : Fin 64) (s : State) : Host.Outcome State Fault Refusal := .next (acreScrub h n s)

/-- POISON_MARK_WRITE: a waiting poison mark is written into its line (R304). -/
def poisonMarkWrite (a line : Nat) (s : State) : State :=
  if (s.acre a).marks.contains line then
    s.upAcre a (fun x => { x with marks := x.marks.filter (· != line), poison := x.poison ++ [line] })
  else s

def execPoisonMarkWrite (a : Fin 384) (line : Nat) (s : State) : Host.Outcome State Fault Refusal := .next (poisonMarkWrite a line s)

end Sys2Proof.Machine
end

