-- ==== Sys2Proof/Machine/Mem.lean ====
section
/-!
DEFINITION. Accesses to a hide's HDM range (R281, R285 to R289, R293, R300, R302 to R305), the acre request queues, the
directory and its snoops, and the completions of DMA reads (R291).
-/

namespace Sys2Proof.Machine
open Sys2Proof

/-! ### Where an address lies (R285, R287) -/

/-- The parts of an HDM range: ring area, operand area, the refused rest of the first GiB, and the lease windows. -/
inductive Area where
  | ring | opnd | gap
  | win (n line : Nat)
  deriving DecidableEq, Repr

/-- The area of an HDM offset. -/
def HideSt.area (x : HideSt) (off : Nat) : Area :=
  match x.lay with
  | none => .gap
  | some e =>
    if off < e.ringMib * 2 ^ 20 then .ring
    else if opndBase ≤ off ∧ off < opndBase + e.opndMib * 2 ^ 20 then .opnd
    else if off < 2 ^ 30 then .gap
    else .win ((off - 2 ^ 30) / 2 ^ 28) ((off - 2 ^ 30) % 2 ^ 28 / 64)

/-- Is a line an entry of an enabled order ring (R253, R288). -/
def HideSt.orderLine (x : HideSt) (off : Nat) : Bool :=
  x.q.ranges.any (fun r => r.1 == .order && decide (r.2.2.1 + 256 ≤ off) && decide (off < r.2.2.2))

/-! ### Answers -/

/-- DevLoad by the fill of an owner's queue (R293). -/
def devLoad (n : Nat) : Nat := if n < 256 then 0 else if n < 768 then 1 else if n < 960 then 2 else 3

/-- A read response: data, or poison; `shared` when the line is granted Shared (R302). -/
def State.answerRead (s : State) (owner off : Nat) (data : List Byte) (poison shared uio : Bool) (load : Nat) : State :=
  if uio then s.enqueue 8 owner false ⟨data.length + 16, .ioData data poison⟩
  else s.enqueue 8 owner true ⟨80, .drs off data poison shared (devLoad load)⟩

/-- A completion without data. -/
def State.answerWrite (s : State) (owner off : Nat) (uio : Bool) (load : Nat) : State :=
  if uio then s.enqueue 8 owner false ⟨16, .ioData [] false⟩ else s.enqueue 8 owner true ⟨16, .ndr off (devLoad load)⟩

def zeroLine : List Byte := List.replicate 64 0

/-- Poisoned data. -/
def State.answerPoison (s : State) (owner off : Nat) (uio : Bool) (load : Nat) : State :=
  s.answerRead owner off zeroLine true false uio load

/-- The state of a logical device's memory as a request meets it: not answered at all, answered as an unbound one
(R281, R395, R404), as that of a hide under reset (R369), or as a hide's. -/
inductive Serves where
  | silent | unbound | resetting
  | hide (h : Nat)
  deriving DecidableEq, Repr

/-- Does the I/O die run its links (R400, R401). -/
def State.ioUp (s : State) : Bool := s.power.st == .running || s.power.st == .tripped

def State.serves (s : State) (ld : Nat) (uio : Bool) : Serves :=
  if !s.ioUp || s.cxl.width = 0 || (!uio && s.cxl.ideMem == .insecure) || (s.ld ld).decoder.isNone then .silent
  else if !s.reamActive then .unbound
  else match s.hideOfLd ld with
    | none => .unbound
    | some h => if (s.hide h).resetting then .resetting else .hide h

/-! ### The directory (R288) -/

/-- Track a line, recalling the oldest counted one when the quota is full. -/
def State.track (s : State) (h off : Nat) (excl : Bool) : State :=
  let x := s.hide h
  if x.a.dir.any (fun d => d.off == off) then
    s.upA h (fun a => { a with dir := a.dir.map (fun d => if d.off == off then ⟨off, excl⟩ else d) })
  else
    let counted := x.a.dir.filter (fun d => !(x.orderLine d.off))
    let quota := match x.lay with | some e => e.dirLines | none => 0
    let s := if x.orderLine off || decide (counted.length < quota) then s
      else match counted with
        | [] => s
        | d :: _ =>
          let s := s.upA h (fun a => { a with dir := a.dir.filter (fun e => e.off != d.off), dirEvict := satInc a.dirEvict })
          s.sendSnoop h d.off (!d.excl) .quota
    s.upA h (fun a => { a with dir := a.dir ++ [⟨off, excl⟩] })

/-- The host gives a line up. -/
def State.untrack (s : State) (h off : Nat) : State := s.upA h (fun a => { a with dir := a.dir.filter (fun d => d.off != off) })

/-! ### Interface memory (R254, R256, R287) -/

/-- Store a whole line of the ring or operand area. -/
def State.storeLine (s : State) (h off : Nat) (data : List Byte) (poison : Bool) (cycle : Nat) : State :=
  let s := s.writeMem h off data
  let s := s.upA h (fun a => { a with
    poisonLines := (a.poisonLines.filter (· != off)) ++ (if poison then [off] else [])
    opNotice := if opndBase ≤ off then a.opNotice.set off cycle else a.opNotice })
  if off < opndBase then s.upQ h (fun q => q.lineWrite off data poison cycle) else s

/-- A refused access to the first GiB or an EMPTY window, counted in AC_LOST (R287, R300). -/
def State.lost (s : State) (h : Nat) : State := s.upA h (fun a => { a with lost := satInc a.lost })

/-! ### Requests to acre windows (R293, R300, R302) -/

/-- The kinds of AC_Ln_FAULT (R306). -/
def faultRead : Nat := 1
def faultWrite : Nat := 2
def faultSealed : Nat := 3
def faultPoison : Nat := 4

/-- Count a refused access in AC_Ln_FAULT (R300). -/
def State.refuse (s : State) (h n kind off : Nat) : State :=
  s.upSlot h n (fun sl => { sl with
    faultValid := true
    faultOff := if sl.faultValid then sl.faultOff else off
    faultKind := if sl.faultValid then sl.faultKind else kind
    faultCount := satInc sl.faultCount
    refusedReads := if kind = faultRead then sl.refusedReads + 1 else sl.refusedReads
    refusedWrites := if kind = faultWrite then sl.refusedWrites + 1 else sl.refusedWrites })

/-- Does a request write. -/
def AcreOp.writes : AcreOp → Bool
  | .write _ _ _ => true
  | _ => false

/-- A refused acre request is answered: poison for a read, a completion for anything else. -/
def State.answerRefused (s : State) (h off : Nat) (op : AcreOp) (uio : Bool) (load : Nat) : State :=
  match op with
  | .read _ => s.answerPoison h off uio load
  | _ => s.answerWrite h off uio load

/-- A request to window `n` arrives (R293, R300, R302). -/
def State.acreRequest (s : State) (h n line : Nat) (op : AcreOp) (uio : Bool) : State :=
  let sl := (s.hide h).lease n
  let off := winBase n + 64 * line
  let owner := if sl.sharer then sl.peer else h
  let load := (s.hide owner).a.acreQ.length
  match sl.st with
  | .empty => (s.lost h).answerRefused h off op uio load
  | .closing => (s.refuse h n (if op.writes then faultWrite else faultRead) (64 * line)).answerRefused h off op uio load
  | .scrubbing => (s.refuse h n (if op.writes then faultWrite else faultRead) (64 * line)).answerRefused h off op uio load
  | _ =>
    if op.writes && !sl.compat && (sl.sharer || sl.st == .sealed) then
      let s := s.upA h (fun a => { a with roWr := satInc a.roWr })
      (s.refuse h n faultSealed (64 * line)).answerRefused h off op uio load
    else if 1024 ≤ load then
      (s.upA h (fun a => { a with overflows := satInc a.overflows })).answerRefused h off op uio load
    else s.upA owner (fun a => { a with acreQ := a.acreQ ++ [⟨h, n, sl.acre, line, op, uio⟩] })

/-! ### The requests -/

/-- A read of a line, from the host or from a peer (R281, R285, R287, R305). -/
def memRead (ld off : Nat) (kind : ReadKind) (uio : Bool) (s : State) : State :=
  match s.serves ld uio with
  | .silent => s
  | .unbound => s.answerPoison (s.cxlOwner ld) off uio 0
  | .resetting => s.answerPoison (s.cxlOwner ld) off uio 0
  | .hide h =>
    let x := s.hide h
    let load := x.a.acreQ.length
    match x.area off with
    | .gap => (s.lost h).answerPoison h off uio load
    | .win n line => s.acreRequest h n line (.read kind) uio
    | _ =>
      let s := s.answerRead h off (s.readMem h off 64) (x.a.poisonLines.contains off) (kind == .shared) uio load
      if kind = .uncached then s else s.track h off (kind == .ownership)

/-- CXL_MEM_READ (R288, R305). -/
def execCxlMemRead (ld : Ld) (off : Nat) (kind : ReadKind) (s : State) : Host.Outcome State Fault Refusal :=
  .next (memRead ld off kind false s)

/-- CXL_MEM_INV: a request for ownership without data (R303). -/
def memInv (ld off : Nat) (s : State) : State :=
  match s.serves ld false with
  | .silent => s
  | .unbound => s.answerWrite (s.cxlOwner ld) off false 0
  | .resetting => s.answerWrite (s.cxlOwner ld) off false 0
  | .hide h =>
    let x := s.hide h
    match x.area off with
    | .gap => (s.lost h).answerWrite h off false x.a.acreQ.length
    | .win n line => s.acreRequest h n line .inv false
    | _ => (s.answerWrite h off false x.a.acreQ.length).track h off true

def execCxlMemInv (ld : Ld) (off : Nat) (s : State) : Host.Outcome State Fault Refusal := .next (memInv ld off s)

/-- CXL_MEM_WRITE: a whole-line write, a write-back or not cached (R254, R256, R287, R305). -/
def memWrite (ld off : Nat) (data : List Byte) (poison wb : Bool) (cycle : Nat) (s : State) : State :=
  match s.serves ld false with
  | .silent => s
  | .unbound => s.answerWrite (s.cxlOwner ld) off false 0
  | .resetting => s.answerWrite (s.cxlOwner ld) off false 0
  | .hide h =>
    let x := s.hide h
    let load := x.a.acreQ.length
    match x.area off with
    | .gap => (s.lost h).answerWrite h off false load
    | .win n line => s.acreRequest h n line (.write data poison wb) false
    | _ =>
      let s := (s.storeLine h off data poison cycle).answerWrite h off false load
      if wb then s.untrack h off else s

def execCxlMemWrite (ld : Ld) (off : Nat) (data : List Byte) (poison wb : Bool) (cycle : Nat) (s : State) :
    Host.Outcome State Fault Refusal := .next (memWrite ld off data poison wb cycle s)

/-- UIO_READ: a peer's read, by the rules of CXL.mem reads (R287). -/
def execUioRead (ld : Ld) (off : Nat) (s : State) : Host.Outcome State Fault Refusal := .next (memRead ld off .uncached true s)

/-- UIO_WRITE: a peer's write, to the operand area or an acre window (R287). -/
def uioWrite (ld off : Nat) (data : List Byte) (poison : Bool) (cycle : Nat) (s : State) : State :=
  match s.serves ld true with
  | .silent => s
  | .unbound => s.answerWrite (s.cxlOwner ld) off true 0
  | .resetting => s.answerWrite (s.cxlOwner ld) off true 0
  | .hide h =>
    let x := s.hide h
    match x.area off with
    | .ring => s.enqueue 8 h false ⟨16, .unsupported⟩
    | .gap => (s.lost h).answerWrite h off true 0
    | .win n line => s.acreRequest h n line (.write data poison false) true
    | .opnd => (s.storeLine h off data poison cycle).answerWrite h off true 0

def execUioWrite (ld : Ld) (off : Nat) (data : List Byte) (poison : Bool) (cycle : Nat) (s : State) :
    Host.Outcome State Fault Refusal := .next (uioWrite ld off data poison cycle s)

/-! ### Serving the acre queue (R293, R302, R303) -/

/-- The hides that hold a line of an acre, with the line's offset in their range and whether they hold it exclusive. -/
def State.holders (s : State) (a line : Nat) : List (Nat × Nat × Bool) :=
  (List.range 16).filterMap (fun g => match (s.hide g).slotOn a with
    | some (n, _) => ((s.hide g).a.dir.find? (fun d => d.off == winBase n + 64 * line)).map (fun d => (g, d.off, d.excl))
    | none => none)

/-- Is a snoop on a line of an acre unanswered. -/
def State.snooping (s : State) (a line : Nat) : Bool :=
  (List.range 16).any (fun g => match (s.hide g).slotOn a with
    | some (n, _) => (s.hide g).a.snoops.any (fun p => p.off == winBase n + 64 * line && p.why != .ended)
    | none => false)

/-- The snoops that a request needs before it can be served, as (hide, offset, BISnpInv) (R303). -/
def AcreReq.snoops (q : AcreReq) (hs : List (Nat × Nat × Bool)) : List (Nat × Nat × Bool) :=
  match q.op with
  | .read .shared => (hs.filter (fun p => p.1 != q.hide && p.2.2)).map (fun p => (p.1, p.2.1, false))
  | .read .uncached => (hs.filter (fun p => p.2.2)).map (fun p => (p.1, p.2.1, false))
  | .read .ownership => (hs.filter (fun p => p.1 != q.hide)).map (fun p => (p.1, p.2.1, true))
  | .inv => (hs.filter (fun p => p.1 != q.hide)).map (fun p => (p.1, p.2.1, true))
  | .write _ _ wb => if wb then [] else hs.map (fun p => (p.1, p.2.1, true))

/-- Is an acre of native mode read-only: sealed, or being sealed (R302). -/
def State.readOnly (s : State) (a : Nat) : Bool :=
  match s.ownerSlot a with
  | none => true
  | some (h, n, sl) => !sl.compat && (sl.st != .active || (s.hide h).a.cmd == some ⟨true, n⟩)

/-- Perform a request whose snoops are answered; where the region is switched out or tripped, reads return poison (R294,
R404). -/
def State.perform (s : State) (q : AcreReq) (load : Nat) : State :=
  let off := winBase q.slot + 64 * q.line
  let sl := (s.hide q.hide).lease q.slot
  let keep := sl.live && sl.acre == q.acre
  let dead := (s.region (q.acre / 6)).excluded || s.power.st == .tripped
  let bad := dead || (s.acre q.acre).poisoned q.line
  let ro := s.readOnly q.acre
  let mine := (s.holders q.acre q.line).any (fun p => p.1 == q.hide && p.2.2)
  let s := s.upC q.hide (fun c => { c with telAcre := satInc c.telAcre })
  match q.op with
  | .read kind =>
    let s := if bad then s.answerPoison q.hide off q.uio load
      else s.answerRead q.hide off (s.acreLine q.acre q.line) false (kind == .shared || ro) q.uio load
    if kind = .uncached || !keep || bad then s else s.track q.hide off ((kind == .ownership || mine) && !ro)
  | .inv =>
    let s := s.answerWrite q.hide off q.uio load
    if keep && !bad then s.track q.hide off !ro else s
  | .write data poison wb =>
    let compat := sl.compat
    let s := if wb then s.untrack q.hide off else s
    let s :=
      if dead then s
      else if bad then s.refuse q.hide q.slot faultPoison (64 * q.line)
      else if wb && compat && !mine then s.upA q.hide (fun a => { a with roWr := satInc a.roWr })
      else
        let s := s.writeAcre q.acre q.line data
        if poison then s.upAcre q.acre (fun a => { a with poison := a.poison ++ [q.line] }) else s
    s.answerWrite q.hide off q.uio load

/-- ACRE_REQUEST_SERVE: the request at the head of the owner's queue is served, or sends the snoops it needs and waits
for them. A request to a region in its maintenance furlong waits (R71). -/
def acreServe (h : Nat) (s : State) : State :=
  match (s.hide h).a.acreQ with
  | [] => s
  | q :: rest =>
    if (s.region (q.acre / 6)).maint || s.snooping q.acre q.line then s
    else
      let need := match s.ownerSlot q.acre with
        | some (_, _, sl) => if sl.compat then q.snoops (s.holders q.acre q.line) else []
        | none => []
      if need.isEmpty then (s.upA h (fun a => { a with acreQ := rest })).perform q rest.length
      else need.foldl (fun s p => s.sendSnoop p.1 p.2.1 p.2.2 .request) s

def execAcreRequestServe (h : Hide) (s : State) : Host.Outcome State Fault Refusal := .next (acreServe h s)

/-! ### Answers to snoops (R289, R304) -/

/-- Take a snoop out. -/
def State.dropSnoop (s : State) (h : Nat) (p : Snoop) : State :=
  s.upA h (fun a => { a with snoops := a.snoops.erase p })

/-- The directory after an answer: BISnpInv leaves no copy, BISnpData a shared one while the hold goes on. -/
def State.answered (s : State) (h : Nat) (p : Snoop) : State :=
  match (s.hide h).area p.off with
  | .win n _ =>
    if p.why = .quota then s
    else if p.inv || !((s.hide h).lease n).live then s.untrack h p.off
    else s.upA h (fun a => { a with dir := a.dir.map (fun d => if d.off == p.off then ⟨p.off, false⟩ else d) })
  | _ => s

/-- BI_SNOOP_RESPONSE: the host answers a snoop, with the line's data when it held it modified. -/
def snoopResponse (h off : Nat) (data : Option (List Byte)) (s : State) : State :=
  let x := s.hide h
  match x.a.snoops.find? (fun p => p.off == off) with
  | none => s
  | some p =>
    if s.cxl.width = 0 || s.cxl.ideMem == .insecure then s
    else
      let s := s.dropSnoop h p
      match x.area off with
      | .win n line =>
        if p.why = .ended then s.upA h (fun a => { a with roWr := satInc a.roWr })
        else
          let a := (x.lease n).acre
          let s := match data with
            | some d => if (s.acre a).poisoned line then s else s.writeAcre a line d
            | none => s
          s.answered h p
      | .gap => s
      | _ => match data with
        | some d => if x.resetting then s else s.storeLine h off d false (AMap.get 0 x.a.opNotice off)
        | none => s

def execBiSnoopResponse (h : Hide) (off : Nat) (data : Option (List Byte)) (s : State) : Host.Outcome State Fault Refusal :=
  .next (snoopResponse h off data s)

/-- BI_SNOOP_TIMEOUT: for interface memory the device goes on as if answered; for an acre line the hold ends and the slot
closes (R289, R304). -/
def snoopTimeout (h off : Nat) (s : State) : State :=
  let x := s.hide h
  match x.a.snoops.find? (fun p => p.off == off) with
  | none => s
  | some p =>
    let late (s : State) : State := s.upA h (fun a => { a with err := a.err ||| 2 })
    match x.area off with
    | .win n _ =>
      if p.why = .ended then s.dropSnoop h p
      else ((late s).closeHold h n stLeaseLost (byHide s h false) false).endHold h n
    | _ => (late s).dropSnoop h p

def execBiSnoopTimeout (h : Hide) (off : Nat) (s : State) : Host.Outcome State Fault Refusal := .next (snoopTimeout h off s)

/-! ### DMA reads (R112, R291, R305) -/

/-- Does an order live that waits for a DMA read. -/
def QPart.reads (q : QPart) (tag : Nat) : Bool :=
  q.queue.any (fun o => o.tokens == some tag) || q.flights.any (fun f => f.dmas.contains tag || f.order.tokens == some tag)

/-- The outcome of a DMA read; a read for which no order lives is forgotten. -/
def State.dmaEnds (s : State) (h tag : Nat) (d : Dma) : State :=
  let s := s.upO h (fun o => { o with dmas := if (s.hide h).q.reads tag then o.dmas.set tag d else o.dmas.erase tag })
  if d.status.isSome then s.failTokens h else s

/-- DMA_READ_COMPLETION: data arrives, in one piece or several, or an error poisons it. -/
def dmaCompletion (h tag : Nat) (r : DmaResult) (s : State) : State :=
  match AMap.find (s.hide h).o.dmas tag with
  | none => s
  | some d =>
    if d.status.isSome || s.cxl.width = 0 || (s.ld (s.ldOf h)).ideIo == .insecure then s
    else match r with
      | .poisoned => s.dmaEnds h tag { d with status := some stPoison }
      | .good bs =>
        let data := (d.data ++ bs).take d.len
        s.dmaEnds h tag { d with data := data, status := if d.len ≤ data.length then some stOk else none }

def execDmaReadCompletion (h : Hide) (tag : Nat) (r : DmaResult) (s : State) : Host.Outcome State Fault Refusal :=
  .next (dmaCompletion h tag r s)

/-- DMA_READ_TIMEOUT: the read's order fails with TIMEOUT. -/
def dmaTimeout (h tag : Nat) (s : State) : State :=
  match AMap.find (s.hide h).o.dmas tag with
  | none => s
  | some d => if d.status.isSome then s else s.dmaEnds h tag { d with status := some stTimeout }

def execDmaReadTimeout (h : Hide) (tag : Nat) (s : State) : Host.Outcome State Fault Refusal := .next (dmaTimeout h tag s)

end Sys2Proof.Machine
end

