-- ==== Sys2Proof/Machine/Resets.lean ====
section
/-!
DEFINITION. Ending orders early (R31, R59, R62, R278, R369, R404), the erasing of flash allotments (R329), hide resets
(R368 to R371) and the TSP interface state (R380, R382).
-/

namespace Sys2Proof.Machine
open Sys2Proof

/-! ### Ending orders -/

/-- A held output of an order that ends early: its status in a clean header, everything else poisoned (R62, R291). -/
def HeldOut.cut (status : Nat) (p : HeldOut) : HeldOut := { (p.failed status) with ep := !p.hdr }

/-- An order in flight ends at once with a status: its replays are abandoned, its outputs poisoned, what it took returns
(R62, R351). -/
def State.cutFlight (s : State) (h status : Nat) (f : Flight) : State :=
  let s := { s with screen := { s.screen with
    units := s.screen.units.filter (fun u => !(u.hide == h && u.order == f.order.seq)) } }
  let (s, f) := s.release h f (f.outs.map (·.entry)) (HeldOut.cut status)
  let s := s.revoke h f
  let f := f.withFetched (s.hide h).o
  let s := s.dropFetches h f.order.seq
  let (s, f) := s.forget h f
  let f := { (f.fail status) with fx := [], tookFrames := [], tookExts := [], suspects := [], outs := [], result := [] }
  let s := s.upO h (fun o => { o with
    tab := dropQueued o.tab [f]
    lookups := o.lookups.filter (fun w => w.seq != f.order.seq) })
  let s := s.dropFlight h f.order.seq
  if f.order.txn.isSome then s.keep h f else (s.complete h [f.completion false false []]).trace h f

/-- Members of undecided transactions whose work has not ended in furlong `n` (R276). -/
def HideSt.heldRunning (x : HideSt) (n : Nat) : List Flight :=
  ((x.q.txns.filter (fun t => t.decision.isNone)).flatMap (·.held)).filter (fun f => decide (n ≤ f.endChain / 10))

/-- A member leaves the list of its transaction's ended members. -/
def State.unhold (s : State) (h : Nat) (f : Flight) : State :=
  s.upQ h (fun q => { q with txns := q.txns.map (fun t => { t with held := t.held.filter (fun g => g.order.seq != f.order.seq) }) })

/-- Every admitted order of a hide whose work has not ended ends with a status. -/
def State.endFlights (s : State) (h status : Nat) : State :=
  let s := (s.hide h).q.flights.foldl (fun s f => s.cutFlight h status f) s
  ((s.hide h).heldRunning s.plan.furlong).foldl (fun s f => (s.unhold h f).cutFlight h status f) s

/-- Every order that has been taken and not admitted ends with a status. -/
def State.endQueued (s : State) (h status : Nat) : State :=
  let q := (s.hide h).q
  let all := q.dispatch ++ q.queue
  let s := s.upHide h (fun x => { x with
    q := { x.q with dispatch := [], queue := [] }
    o := { x.o with
      lane := []
      dmas := (all.filterMap (·.tokens)).foldl AMap.erase x.o.dmas } })
  all.foldl (fun s o => (s.dropFetches h o.seq).endTaken h o status 0 []) s

/-- Every transaction of a hide aborts with a status and posts its packet: TXN_BEGIN with OK, members that had ended with
their own status, a closing marker with the status of the abort or its own failure (R276 to R278). -/
def State.endTxns (s : State) (h status : Nat) : State :=
  let ts := (s.hide h).q.txns
  let s := ts.foldl (fun s t => s.abortTxn h t) s
  let ts := (s.hide h).q.txns
  let s := s.upQ h (fun q => { q with txns := [], orders := q.orders.map (fun r => (r.1, { r.2 with txn := none })) })
  ts.foldl (fun s t =>
    let own := match t.closer with | some c => c.2.2.1 | none => 0
    s.complete h ({ t with decision := some ⟨false, if own = 0 then status else own, 0xFFFF, s.plan.furlong⟩ }.packet [])) s

/-- Everything taken from a hide's rings ends with a status. -/
def State.endAll (s : State) (h status : Nat) : State := ((s.endFlights h status).endQueued h status).endTxns h status

/-- Is an order of the hide in flight or held for replay (R369). -/
def State.busy (s : State) (h : Nat) : Bool := !(s.hide h).q.flights.isEmpty || !((s.hide h).heldRunning s.plan.furlong).isEmpty || s.screen.units.any (fun u => u.hide == h)

/-! ### ERASE_KEY and TRIM of allotments (R328, R329) -/

/-- TRIM commands over a range, of at most 2^24 sectors each (R315). -/
def allotPieces (h : Nat) : Nat → Nat → Nat → List CmdFor
  | 0, _, _ => []
  | fuel + 1, lba, n => if n = 0 then [] else .allot h lba (min n (2 ^ 24)) :: allotPieces h fuel (lba + 2 ^ 24) (n - 2 ^ 24)
def allotCmds (h lba n : Nat) : List CmdFor := allotPieces h (n / 2 ^ 24 + 1) lba n

/-- Does a frame carry a command of a purpose. -/
def EgFrame.isFor (f : EgFrame) (w : CmdFor) : Bool := match f.body with | .cmd _ _ _ _ _ y => y == w | _ => false

/-- Is a command an ordinary one of a hide: a transfer or the trim of a freed extent. -/
def CmdFor.ofHide : CmdFor → Option Nat
  | .job h _ _ => some h
  | .trim h _ _ => some h
  | _ => none

/-- Issue the first of a port's ERASE_KEY and TRIM commands, once the hide's outstanding commands have ended (R329). -/
def State.nextFirst (s : State) (p : Nat) : State :=
  let q := s.port p
  match q.first with
  | [] => s
  | w :: _ =>
    let issued := q.cmds.any (fun c => c.why == w) || (s.gates.queues.get EgQueue.empty (egKey p 16)).first.any (·.isFor w)
    if q.st != .active || issued then s
    else match w with
      | .erase part =>
        if q.cmds.any (fun c => c.why.ofHide == some part) then s
        else s.enqueue p 16 true ⟨64, .cmd 0 .eraseKey part 0 0 w⟩
      | .allot h lba n => s.enqueue p 16 true ⟨64, .cmd 0 .trim h lba n w⟩
      | _ => s

/-- Sectors of a hide's allotment on a port (R320). -/
def HideSt.allotment (x : HideSt) (p : Nat) : Nat × Nat := match x.lay with | some e => e.flash.getD p (0, 0) | none => (0, 0)

/-- A range of an allotment waits for its TRIM. -/
def State.trimRange (s : State) (h p lba n : Nat) : State :=
  if n = 0 then s
  else
    let cs := allotCmds h lba n
    let s := s.upO h (fun o => { o with untrimmed := o.untrimmed ++ cs.filterMap (fun c => match c with
      | .allot _ a k => some (p, a, k)
      | _ => none) })
    s.upPort p (fun q => { q with first := q.first ++ cs })

/-- ERASE_KEY of a hide's partition and TRIM of its allotment on every port (R329). -/
def State.purge (s : State) (h : Nat) : State :=
  forAll s (List.range 8) (fun s p =>
    let (lba, n) := (s.hide h).allotment p
    let s := s.upPort p (fun q => { q with first := q.first ++ [.erase h] })
    (s.trimRange h p lba n).nextFirst p)

/-! ### Staged sections that are discarded (R370) -/

/-- Change a load. -/
def State.upLoad (s : State) (n : Nat) (f : Load → Load) : State :=
  { s with mgmt := { s.mgmt with loads := s.mgmt.loads.map (fun l => if l.number == n then f l else l) } }

/-- The origin of a load (R362). -/
def Load.origin (s : State) (l : Load) : Origin :=
  match l.by_ with
  | .session n => bySession n
  | .doe h => byHide s h true

/-- A replacement section staged for a hide is discarded. -/
def State.discardStaged (s : State) (h : Nat) : State :=
  match (s.hide h).staged with
  | none => s
  | some st =>
    let s := s.upHide h (fun x => { x with staged := none, loadStat := { x.loadStat with result := 0x0A, st := 4 } })
    (s.upLoad st.load (fun l => { l with st := 2, result := 0x0A })).config (agent 1) cfgDiscard 0x0A [st.load] h

/-! ### Buckets and sections in force -/

/-- Both token buckets full (R337). -/
def QPart.fill (q : QPart) (sec : Option Section) : QPart :=
  match sec with
  | none => { q with ordTokens := 0, byteTokens := 0, ordLevel := 0, byteLevel := 0 }
  | some k =>
    let ord := bits k.tgOrdPol.toNat 32 16
    let byte := bits k.tgBytePol.toNat 32 32
    { q with
      ordTokens := ord * 256
      byteTokens := byte
      ordLevel := BitVec.ofNat 32 ord
      byteLevel := BitVec.ofNat 32 byte }

/-- The region of a variant (R49). -/
def variantRegion (v : Nat × Nat) : Nat := if v.1 = 0x21 then v.2 / 64 else v.2

/-- The slots with one region's entries replaced by a variant's (R49). -/
def replaceSlots (r : Nat) (old new : List Slot) : List Slot :=
  (old.filterMap (fun sl =>
    let m := listMask ((maskList 64 sl.regions).filter (· != r))
    if m = 0 ∧ sl.regions ≠ 0 then none else some { sl with regions := m })) ++ new

/-- PL_CLASS of two variants together: the lesser CAP and the longer GAP; no slot where either leaves none. -/
def classOf2 (a b : U32) : U32 :=
  if a = 0 ∨ b = 0 then 0
  else BitVec.ofNat 32 (min (bits a.toNat 0 24) (bits b.toNat 0 24) + 2 ^ 24 * max (bits a.toNat 24 8) (bits b.toNat 24 8))
/-- PL_WAIT of two variants together: the longer of each figure. -/
def waitOf2 (a b : U32) : U32 :=
  BitVec.ofNat 32 (max (bits a.toNat 0 16) (bits b.toNat 0 16) + 2 ^ 16 * max (bits a.toNat 16 16) (bits b.toNat 16 16))

/-- The section in force with the variants of the plan (R72, R428). One variant gives the figures it states; several give
the worst of each. -/
def HideSt.applyVariants (x : HideSt) (vs : List (Nat × Nat)) : HideSt :=
  match x.sec with
  | none => { x with slots := [], plClass := [], plWait := [] }
  | some k =>
    let ys := vs.filterMap (fun v => k.variants.find? (fun y => y.kind == v.1 && y.index == v.2))
    let slots := ys.foldl (fun sl y => replaceSlots (variantRegion (y.kind, y.index)) sl y.slots) k.slots
    match ys with
    | [] => { x with slots := slots, plClass := k.plClass, plWait := k.plWait }
    | y :: t => { x with
      slots := slots
      plClass := t.foldl (fun a z => List.zipWith classOf2 a z.plClass) y.plClass
      plWait := t.foldl (fun a z => List.zipWith waitOf2 a z.plWait) y.plWait }

/-- Invalidate the tile-buffer lines of a user (R377). -/
def State.invalidate (s : State) (user : Nat) : State :=
  { s with clusters := s.clusters.map (fun (c : Nat × ClusterSt) => (c.1, { c.2 with valid := c.2.valid.filter (· != user) })) }

/-! ### Hide reset (R368 to R371) -/

/-- Phase ENDING: intake stops, and orders end at once or, in drain mode, those that are admitted run on. -/
def State.beginEnding (s : State) (h : Nat) : State :=
  let s := s.upHide h (fun x => { x with
    k := { x.k with phase := .ending }
    q := { x.q with noIntake := true, drainFrom := if x.k.drain then some s.plan.furlong else none } })
  if (s.hide h).k.drain then s.endQueued h stHideReset
  else s.endAll h stHideReset

/-- Phase KEYS: the hide root and every key under it are destroyed, and a new root is drawn (R372, R374); the flash
allotments are erased (R329). -/
def State.beginKeys (s : State) (h : Nat) : State :=
  let (s, root) := s.draw
  let s := s.upHide h (fun x => { x with
    k := { x.k with phase := .keys, root := root, jobKeys := x.k.jobKeys.map (fun j => (j.1, { j.2 with held := false })) }
    o := { x.o with jobs := [], fetches := [], dmas := [] } })
  s.purge h

/-- Is a confidential hide past its lock (R380). -/
def Tsp.guarded (t : Tsp) : Bool := t == .locked || t == .run

/-- A cause of a hide reset arrives (R368, R370, R380): it starts one, or joins the one in progress. -/
def State.startReset (s : State) (h cause : Nat) (drain : Bool) (o : Origin) : State :=
  let x := s.hide h
  let drain := drain && !x.k.tsp.guarded
  let s := if x.k.tsp.guarded then s.upK h (fun k => { k with tsp := .error }) else s
  match x.k.phase with
  | .idle =>
    let s := s.upK h (fun k => { k with phase := .start, drain := drain, cause := cause, origin := (o.kind, o.id), ended := 0 })
    if s.reamActive then s else s.beginEnding h
  | .start => if drain then s else s.upK h (fun k => { k with drain := false })
  | .ending =>
    if drain || !x.k.drain then s
    else (s.upK h (fun k => { k with drain := false })).endAll h stHideReset
  | .held => if drain then s else s.beginKeys h
  | _ => s

/-- An event of R382: a locked confidential hide goes to ERROR, which resets it. -/
def State.tspError (s : State) (h : Nat) (o : Origin) : State :=
  if (s.hide h).k.tsp.guarded then s.startReset h 5 false o else s

/-- Phase RELOAD (R369 to R371): the section in force is reinstalled, registers take their reset values, the other hides
receive DEVICE_EVENT. Lease slots that have not reached EMPTY go on. -/
def State.reload (s : State) (h : Nat) : State :=
  let s := (s.discardStaged h).invalidate h
  let x := s.hide h
  let reset : HideSt := { x with
    q := { QPart.reset.fill x.sec with nextSeq := x.q.nextSeq, nextTxn := x.q.nextTxn }
    a := { APart.reset with
      dir := x.a.dir, snoops := x.a.snoops, acreQ := x.a.acreQ
      slots := x.a.slots.filter (fun p => p.2.st != .empty) }
    k := { x.k with
      phase := .idle, drain := false, pristine := true, jobResult := 0, profCtl := 0, profLost := 0, profPos := 0
      tsp := if x.confidential then .unlocked else .off }
    c := { CPart.zero with
      telAdmitted := x.c.telAdmitted, telFailed := x.c.telFailed, telIn := x.c.telIn, telOut := x.c.telOut, telAcre := x.c.telAcre } }
  let reset := reset.applyVariants s.plan.variants
  let reset := { reset with
    o := { reset.o with figures := reset.figuresNow }
    loadStat := if x.loadStat.st = 4 then x.loadStat else ⟨0, 0, false, false⟩ }
  let s := s.setHide h reset
  let s := s.record recReset ⟨x.k.origin.1, x.k.origin.2⟩ 0xFF [2, x.k.cause, h]
  s.deviceEventTo (s.present.filter (· != h))

/-- HIDE_RESET_GO: HD_RESET is written with GO set (R368, R397). -/
def hideResetGo (h : Nat) (drain : Bool) (s : State) : State := s.startReset h 1 drain (byHide s h false)

def execHideResetGo (h : Hide) (drain : Bool) (s : State) : Host.Outcome State Fault Refusal := .next (hideResetGo h drain s)

/-- HELD ends. -/
def State.endHeld (s : State) (h : Nat) : State := if (s.hide h).k.phase = .held then s.beginKeys h else s

/-- HIDE_RESET_PROCEED: HD_RESET is written with PROCEED set (R368). -/
def execHideResetProceed (h : Hide) (s : State) : Host.Outcome State Fault Refusal := .next (s.endHeld h)

/-- HIDE_RESET_HELD_TIMEOUT: HELD has lasted 100 ms (R368). -/
def hideResetHeldTimeout (h : Nat) (s : State) : State := s.endHeld h

def execHideResetHeldTimeout (h : Hide) (s : State) : Host.Outcome State Fault Refusal := .next (hideResetHeldTimeout h s)

/-- HIDE_RESET_ENDING_DONE: no order of the hide is in flight or held for replay; open transactions have aborted (R369). -/
def hideResetEndingDone (h : Nat) (s : State) : State :=
  if (s.hide h).k.phase ≠ .ending || s.busy h then s
  else
    let s := s.endAll h stHideReset
    if (s.hide h).k.drain then s.upK h (fun k => { k with phase := .held }) else s.beginKeys h

def execHideResetEndingDone (h : Hide) (s : State) : Host.Outcome State Fault Refusal := .next (hideResetEndingDone h s)

/-- HIDE_RESET_KEYS_DONE: RELEASE begins, and every lease slot of the hide enters CLOSING (R299, R304, R369). -/
def hideResetKeysDone (h : Nat) (s : State) : State :=
  if (s.hide h).k.phase ≠ .keys then s
  else
    let s := s.upHide h (fun x => { x with k := { x.k with phase := .release }, a := { x.a with cmd := none } })
    forAll s (((s.hide h).a.slots.filter (fun p => p.2.live)).map (·.1)) (fun s n => s.closeHold h n stLeaseLost (byHide s h false) false)

def execHideResetKeysDone (h : Hide) (s : State) : Host.Outcome State Fault Refusal := .next (hideResetKeysDone h s)

/-- The objects of a hide after all are freed (R134, R246, R369). -/
def OPart.freed (o : OPart) : OPart :=
  { OPart.reset with
    tab := { Tab.empty with gen := o.tab.gen }
    figures := o.figures, nextJob := o.nextJob, nextFetch := o.nextFetch, nextDma := o.nextDma
    withheld := o.withheld, trimming := o.trimming, untrimmed := o.untrimmed }

/-- HIDE_RESET_RELEASE_DONE: objects are freed and buffers disabled, and SCRUB begins (R369, R378). -/
def hideResetReleaseDone (h : Nat) (s : State) : State :=
  if (s.hide h).k.phase ≠ .release then s
  else
    let s := { s with clusters := s.clusters.map (fun (c : Nat × ClusterSt) => (c.1, { c.2 with writeback := c.2.writeback.filter (fun w => w.1 != h) })) }
    s.upHide h (fun x => { x with
      k := { x.k with phase := .scrub }
      o := x.o.freed
      a := { x.a with bufs := x.a.bufs.map (fun (b : Nat × HostBuf) => (b.1, { b.2 with en := false })) } })

def execHideResetReleaseDone (h : Hide) (s : State) : Host.Outcome State Fault Refusal := .next (hideResetReleaseDone h s)

/-- Zero a hide's interface memory (R287, R378). -/
def State.zeroImem (s : State) (h : Nat) : State :=
  let s := { s with imem := Memory.zero s.imem (imemBase h 0) (imemBase (h + 1) 0) }
  s.upA h (fun a => { a with poisonLines := [], opNotice := [] })

/-- HIDE_RESET_SCRUB_DONE: bonded DRAM and interface memory are scrubbed; RELOAD follows at the next boundary, or at once
while no ream is active (R369, R378). -/
def hideResetScrubDone (h : Nat) (s : State) : State :=
  if (s.hide h).k.phase ≠ .scrub then s
  else
    let s := (s.zeroImem h).upK h (fun k => { k with phase := .reload })
    if s.reamActive then s else s.reload h

def execHideResetScrubDone (h : Hide) (s : State) : Host.Outcome State Fault Refusal := .next (hideResetScrubDone h s)

/-! ### The port's resets and streams (R279, R280, R282, R382, R441) -/

/-- An FLR of a logical device: its configuration space is restored, and its hide is reset (R282). -/
def State.flrOf (s : State) (ld cause : Nat) (o : State → Nat → Origin) : State :=
  let s := s.upLd ld (fun l => { l with config := [] })
  match s.hideOfLd ld with
  | none => s
  | some h => s.startReset h cause false (o s h)

/-- FLR of one logical device. -/
def execFlr (ld : Ld) (s : State) : Host.Outcome State Fault Refusal :=
  .next (if s.ioUp then s.flrOf ld 2 (fun s h => byHide s h false) else s)

/-- The port goes down: it sends nothing, its streams end, and every bound logical device is reset (R282, R305). -/
def State.linkDown (s : State) : State :=
  if s.cxl.width = 0 then s
  else
    let s := { s with
      cxl := { s.cxl with width := 0, rate := 0, ideMem := .off, lds := s.cxl.lds.map (fun (l : Nat × LdSt) => (l.1, { l.2 with ideIo := .off })) }
      gates := { s.gates with queues := s.gates.queues.filter (fun q => q.1 / 32 != 8) } }
    let s := s.record recLink (agent 17) 0xFF [8, 0, 0]
    forAll s (List.range 16) (fun s ld => s.flrOf ld 3 (fun _ _ => agent 17))

/-- CXL_LINK_DOWN: a hot reset or link-down (R282). -/
def execCxlLinkDown (s : State) : Host.Outcome State Fault Refusal := .next s.linkDown

/-- CXL_PERST_N: a recognised assertion acts as link-down (R441). -/
def cxlPerst (s : State) : State := s.linkDown
def execCxlPerstN (s : State) : Host.Outcome State Fault Refusal := .next (cxlPerst s)

/-- CXL_LINK_WIDTH_CHANGE: the link re-forms at another width or rate (R280). -/
def linkWidthChange (width rate : Nat) (s : State) : State :=
  if s.cxl.width = 0 || (s.cxl.width == width && s.cxl.rate == rate) then s
  else
    let s := { s with cxl := { s.cxl with width := width, rate := rate, changes := if s.cxl.changes.toNat < 0xFFFF then s.cxl.changes + 1 else s.cxl.changes } }
    (s.record recLink (agent 17) 0xFF [8, width, rate]).deviceEvent

def execCxlLinkWidthChange (width rate : Nat) (s : State) : Host.Outcome State Fault Refusal := .next (linkWidthChange width rate s)

/-- CXL_LINK_UP: the link finishes training from the down state (R280, R400 step 3). -/
def linkUp (width rate : Nat) (s : State) : State :=
  if !s.ioUp || s.cxl.width ≠ 0 then s
  else ({ s with cxl := { s.cxl with width := width, rate := rate } }).record recLink (agent 17) 0xFF [8, width, rate]

def execCxlLinkUp (width rate : Nat) (s : State) : Host.Outcome State Fault Refusal := .next (linkUp width rate s)

/-- IDE_INTEGRITY_FAIL: a flit of an established stream fails its check: the stream is insecure, its traffic is
discarded, every hide receives DEVICE_EVENT, and a locked hide that depends on it goes to ERROR (R279, R382). -/
def ideFail (stream : Option Ld) (s : State) : State :=
  match stream with
  | none =>
    if s.cxl.ideMem != .secure then s
    else
      let s := ({ s with cxl := { s.cxl with ideMem := .insecure } }).deviceEvent
      forAll s (List.range 16) (fun s h => s.tspError h (agent 17))
  | some ld =>
    if (s.ld ld).ideIo != .secure then s
    else
      let s := (s.upLd ld (fun l => { l with ideIo := .insecure })).deviceEvent
      match s.hideOfLd ld with
      | some h => s.tspError h (agent 17)
      | none => s

def execIdeIntegrityFail (stream : Option Ld) (s : State) : Host.Outcome State Fault Refusal := .next (ideFail stream s)

/-- IDE_STREAM_ESTABLISHED: a stream reaches the secure state (R279). -/
def ideUp (stream : Option Ld) (s : State) : State :=
  if s.cxl.width = 0 then s
  else match stream with
    | none => { s with cxl := { s.cxl with ideMem := .secure } }
    | some ld => s.upLd ld (fun l => { l with ideIo := .secure })

def execIdeStreamEstablished (stream : Option Ld) (s : State) : Host.Outcome State Fault Refusal := .next (ideUp stream s)

/-- CONFIGURATION_WRITE: a write to a logical device's configuration space; one to locked configuration moves the hide
to ERROR instead (R380, R382). -/
def configWrite (ld off : Nat) (v : U32) (s : State) : State :=
  if !s.up || s.cxl.width = 0 || (s.ld ld).ideIo == .insecure then s
  else
    let locked := match s.hideOfLd ld with | some h => (s.hide h).k.tsp.guarded | none => false
    match s.hideOfLd ld, locked with
    | some h, true => s.tspError h (byHide s h false)
    | _, _ => s.upLd ld (fun l => { l with config := l.config.set off v })

def execConfigurationWrite (ld : Ld) (off : Nat) (v : U32) (s : State) : Host.Outcome State Fault Refusal :=
  .next (configWrite ld off v s)

/-- HDM_DECODER_COMMIT: size, interleave and base are checked, and lock-on-commit holds (R286). A commit to a locked
decoder has no effect, and to a locked hide's is a write to locked configuration (R380). -/
def decoderCommit (ld size ways base : Nat) (lock : Bool) (s : State) : State :=
  let locked := match s.hideOfLd ld with | some h => (s.hide h).k.tsp.guarded | none => false
  if !s.ioUp || s.cxl.width = 0 || (s.ld ld).ideIo == .insecure then s
  else match s.hideOfLd ld, locked with
    | some h, true => s.tspError h (byHide s h false)
    | _, _ =>
      if (s.ld ld).decLocked then s
      else if size = 17 * 2 ^ 30 ∧ ways = 1 ∧ base % 2 ^ 28 = 0 then
        s.upLd ld (fun l => { l with decoder := some (size, ways, base), decLocked := lock, decError := false })
      else s.upLd ld (fun l => { l with decoder := none, decError := true })

def execHdmDecoderCommit (ld : Ld) (size ways base : Nat) (lock : Bool) (s : State) : Host.Outcome State Fault Refusal :=
  .next (decoderCommit ld size ways base lock s)

/-! ### TSP requests (R380) -/

/-- A TSP response, as the model writes it: request code and success (assumption 9). -/
def tspReply (code : Nat) (ok : Bool) : List Byte := [BitVec.ofNat 8 code, if ok then 1 else 0]

def State.raw (s : State) (bs : List Byte) : State := { s with mgmt := { s.mgmt with raw := s.mgmt.raw ++ [bs] } }

/-- Has the hide held nothing since its last reset (R380). -/
def HideSt.isPristine (x : HideSt) : Bool :=
  x.k.pristine && x.o.tab.seqs.isEmpty && x.o.tab.pfxs.isEmpty && x.o.tab.sets.isEmpty && x.o.tab.books.isEmpty &&
  x.o.tab.exts.isEmpty && x.k.jobKeys.all (fun j => !j.2.held) && x.a.slots.all (fun p => p.2.st == .empty)

/-- The conditions of a lock request (R380). -/
def State.canLock (s : State) (h : Nat) : Bool :=
  let l := s.ld (s.ldOf h)
  l.ideIo == .secure && s.cxl.ideMem == .secure && l.decoder.isSome && l.decLocked && s.dex.life == .production &&
  !s.dex.unlocked && s.dex.testDone && !s.dex.error && (s.hide h).isPristine

/-- TSP_LOCK. -/
def tspLock (h : Nat) (s : State) : State :=
  if (s.hide h).k.tsp == .unlocked && s.canLock h then (s.upK h (fun k => { k with tsp := .locked })).raw (tspReply 1 true)
  else s.raw (tspReply 1 false)

def execTspLock (h : Hide) (s : State) : Host.Outcome State Fault Refusal := .next (tspLock h s)

/-- TSP_START. -/
def tspStart (h : Nat) (s : State) : State :=
  if (s.hide h).k.tsp == .locked then (s.upK h (fun k => { k with tsp := .run })).raw (tspReply 2 true)
  else s.raw (tspReply 2 false)

def execTspStart (h : Hide) (s : State) : Host.Outcome State Fault Refusal := .next (tspStart h s)

/-- TSP_STOP: the hide goes to ERROR, and an immediate reset starts (R380, R371). -/
def tspStop (h : Nat) (s : State) : State :=
  if (s.hide h).k.tsp.guarded then (s.tspError h (byHide s h true)).raw (tspReply 3 true) else s.raw (tspReply 3 false)

def execTspStop (h : Hide) (s : State) : Host.Outcome State Fault Refusal := .next (tspStop h s)

/-! ### Job keys (R375) -/

/-- Does an object of the hide name a job key. -/
def HideSt.jobKeyUsed (x : HideSt) (i : Nat) : Bool :=
  let t := x.allView
  t.seqs.any (fun q => q.2.jobKey == i) || t.pfxs.any (fun p => p.2.jobKey == i) ||
  x.o.tab.exts.any (fun e => e.2.keyKind == 0 && e.2.key == i)

/-- The result of a job-key command, with the keys after it. -/
def HideSt.jobKeyCmd (x : HideSt) (v : U32) : Nat × KPart :=
  let op := bits v.toNat 0 2
  let i := bits v.toNat 16 16
  let most := match x.lay with | some e => e.jobKeys | none => 0
  let j := x.k.jobKey i
  if x.confidential && x.k.tsp != .run then (stNotAdmitted, x.k)
  else if op ≠ 1 ∧ op ≠ 2 then (stFieldRange, x.k)
  else if i = 0 ∨ most < i then (stFieldRange, x.k)
  else if op = 1 then
    if j.held then (stConflict, x.k)
    else (stOk, { x.k with jobKeys := x.k.jobKeys.set i { j with held := true, gen := (j.gen + 1) % 2 ^ 32 }, pristine := false })
  else if !j.held || x.jobKeyUsed i then (stConflict, x.k)
  else (stOk, { x.k with jobKeys := x.k.jobKeys.set i { j with held := false } })

/-- A write of HD_JOBKEY_CMD: its result is in HD_JOBKEY_STAT (R375, R397). A hide that no LAYOUT contains has no job
keys: NOT_ADMITTED, as for its orders. -/
def State.jobKeyCommand (s : State) (h : Nat) (v : U32) : State :=
  let x := s.hide h
  if x.resetting then s
  else if !(s.reamActive && x.lay.isSome) then s.upK h (fun k => { k with jobResult := stNotAdmitted })
  else let (st, k) := x.jobKeyCmd v; s.upK h (fun _ => { k with jobResult := st })

def jobKeyRow (op h : Nat) (v : U32) (s : State) : State := if bits v.toNat 0 2 = op then s.jobKeyCommand h v else s

def execJobkeyCreate (h : Hide) (v : U32) (s : State) : Host.Outcome State Fault Refusal := .next (jobKeyRow 1 h v s)
def execJobkeyDestroy (h : Hide) (v : U32) (s : State) : Host.Outcome State Fault Refusal := .next (jobKeyRow 2 h v s)

/-! ### Registered buffers (R290) -/

def HideSt.buf (x : HideSt) (b : Nat) : HostBuf := x.a.bufs.get HostBuf.reset b
def State.upBuf (s : State) (h b : Nat) (f : HostBuf → HostBuf) : State :=
  s.upA h (fun a => { a with bufs := amapUp HostBuf.reset a.bufs b f })

/-- AC_ERR.BUF_CFG. -/
def State.bufErr (s : State) (h : Nat) : State := s.upA h (fun a => { a with err := a.err ||| 4 })

/-- Do ADDR and LEN keep the rules of R290. -/
def HostBuf.ok (b : HostBuf) : Bool :=
  b.addr.toNat % 4096 == 0 && b.len.toNat % 4096 == 0 && decide (4096 ≤ b.len.toNat) && decide (b.len.toNat ≤ 2 ^ 46) &&
  decide (b.addr.toNat + b.len.toNat ≤ 2 ^ 64)

/-- A write of AC_BUFb_CTL. -/
def State.bufCtl (s : State) (h b : Nat) (ctl : U32) : State :=
  let x := s.hide h
  let y := x.buf b
  let en := ctl.getLsbD 0
  let rd := ctl.getLsbD 1
  let wr := ctl.getLsbD 2
  let other := rd != y.rd || wr != y.wr
  if x.resetting then s
  else if y.en then
    let s := if other then s.bufErr h else s
    if en then s else s.upBuf h b (fun y => { y with en := false, clearedAt := x.q.nextSeq })
  else if en && !y.ok then (s.upBuf h b (fun y => { y with rd := rd, wr := wr })).bufErr h
  else s.upBuf h b (fun y => { y with en := en, rd := rd, wr := wr })

/-- BUFFER_ENABLE: CTL is written with EN set. -/
def bufferEnable (h b : Nat) (ctl : U32) (s : State) : State := if ctl.getLsbD 0 then s.bufCtl h b ctl else s
def execBufferEnable (h : Hide) (b : Fin 64) (ctl : U32) (s : State) : Host.Outcome State Fault Refusal := .next (bufferEnable h b ctl s)

/-- BUFFER_DISABLE: CTL is written with EN clear. -/
def bufferDisable (h b : Nat) (ctl : U32) (s : State) : State := if ctl.getLsbD 0 then s else s.bufCtl h b ctl
def execBufferDisable (h : Hide) (b : Fin 64) (ctl : U32) (s : State) : Host.Outcome State Fault Refusal := .next (bufferDisable h b ctl s)

/-- AC_BUFb_STAT.BUSY: orders taken before EN was cleared still use the buffer. -/
def State.bufBusy (s : State) (h b : Nat) : Bool :=
  let x := s.hide h
  let y := x.buf b
  !y.en && ((x.q.dispatch ++ x.q.queue ++ x.q.flights.map (·.order)).any (fun o => o.bufs.contains b && decide (o.seq < y.clearedAt)))

end Sys2Proof.Machine
end

