-- ==== Sys2Proof/Machine/HideRegs.lean ====
section
/-!
DEFINITION. The hide window (R283, R284, R422 to R430): its registers by name, where each lies, what each reads, and what
a write to each does.
-/

namespace Sys2Proof.Machine
open Sys2Proof

/-- The registers of the hide window, by the tables that define them. -/
inductive HReg where
  -- R425
  | id | hide | state | flen | furlong | link | param (i : Nat)
  -- R397
  | reset | resetStat | scrubLeft | confStat | jobkeyCmd | jobkeyStat | jobkeyMax | pwr | profCtl | profStat
  -- R252
  | orBase (n : Nat) | orCtl (n : Nat) | orStat (n : Nat) | orTaken (n : Nat) | orPktTo (n : Nat) | orErr (n : Nat)
  | crBase (n : Nat) | crCtl (n : Nat) | crStat (n : Nat) | crProd (n : Nat) | crPkts (n : Nat) | crErr (n : Nat)
  | crLost (n : Nat)
  | erBase | erCtl | erStat | erProd | erPkts | erErr | erLost
  -- R426
  | plStat | plGen | plTableGen | plMiss | plFetch | plLoadStat | plDigest (j : Nat) | plClass (c : Nat)
  | plWait (c : Nat) | plToken | poolGeo (p : Nat) | poolFrames (p : Nat) | poolFree (p : Nat) | poolResv (p : Nat)
  | poolUsed (p : Nat) | poolWait (p : Nat) | poolOvf (p : Nat) | plSeq | plSeqUsed | plPrefix | plExtents | plWeight
  | plCb | plAreas | plDescCount | plDirLines | plRegions | flSize (m : Nat) | flFree (m : Nat) | plDesc (k w : Nat)
  -- R306
  | acInfo | acCmd | acCmdStat | acRenew | acExpired | acBiTo | acErr | acLost | acRoWr | acDirEvict | acOver
  | leaseStat (n : Nat) | leaseRemain (n : Nat) | leaseFault (n : Nat)
  | bufAddr (b : Nat) | bufLen (b : Nat) | bufCtl (b : Nat) | bufStat (b : Nat)
  -- R339
  | ordPol | bytePol | ordLevel | byteLevel | policed | policedBytes | cxlGate | cxlWait | lgGate (m : Nat)
  | lgWait (m : Nat)
  -- R364
  | replayed | confirmed | poison | checkFail | accessErr
  -- R429
  | ctTaken | ctAdmitted | ctFailed | ctDecode | ctAppend | ctPrefill | ctSubst | ctDefers | ctDram | ctFlash | ctHits
  | ctFull | ctSkip | ctEvicted | ctCoded | ctUncoded | ctFurlong
  deriving DecidableEq, Repr

/-- The access codes of R7. -/
inductive Access where
  | ro | rw | wo | w1c | rc
  deriving DecidableEq, Repr

/-- Is a register 64 bits wide. -/
def HReg.wide : HReg → Bool
  | .furlong | .orBase _ | .crBase _ | .erBase | .plTableGen | .plDigest _ | .poolGeo _ | .plWeight | .plRegions
  | .flSize _ | .flFree _ | .acCmd | .acRenew | .acExpired | .leaseStat _ | .leaseFault _ | .bufAddr _ | .bufLen _
  | .ordPol | .bytePol | .ctDram | .ctFlash | .ctCoded | .ctUncoded | .ctFurlong => true
  | _ => false

/-- The access code of a register. -/
def HReg.access : HReg → Access
  | .reset | .jobkeyCmd | .acCmd | .acRenew => .wo
  | .profCtl | .orBase _ | .orCtl _ | .orPktTo _ | .crBase _ | .crCtl _ | .erBase | .erCtl | .acBiTo | .bufAddr _ | .bufLen _
  | .bufCtl _ => .rw
  | .orErr _ | .crErr _ | .erErr | .acExpired | .acErr => .w1c
  | .profStat | .crLost _ | .erLost | .acLost | .acRoWr | .acDirEvict | .acOver | .policed | .policedBytes | .cxlWait
  | .lgWait _ | .replayed | .confirmed | .poison | .checkFail | .accessErr | .ctTaken | .ctAdmitted | .ctFailed | .ctDecode
  | .ctAppend | .ctPrefill | .ctSubst | .ctDefers | .ctDram | .ctFlash | .ctHits | .ctFull | .ctSkip | .ctEvicted => .rc
  | _ => .ro

/-! ### Where the registers lie -/

/-- The register of a pick by offset. -/
def pick (l : List (Nat × HReg)) (off : Nat) : Option HReg := (l.find? (fun p => p.1 == off)).map (·.2)

/-- The HD_ block (R397, R425). -/
def hdReg (off : Nat) : Option HReg :=
  if 0x40 ≤ off ∧ off < 0x6C then some (.param ((off - 0x40) / 4))
  else pick [(0x00, .id), (0x04, .hide), (0x08, .state), (0x0C, .flen), (0x10, .furlong), (0x18, .link),
    (0x100, .reset), (0x104, .resetStat), (0x108, .scrubLeft), (0x110, .confStat), (0x118, .jobkeyCmd),
    (0x11C, .jobkeyStat), (0x120, .jobkeyMax), (0x128, .pwr), (0x130, .profCtl), (0x134, .profStat)] off

/-- The QU_ block (R252). -/
def quReg (off : Nat) : Option HReg :=
  let n := off % 0x200 / 0x40
  let i := off % 0x40
  if off < 0x200 then
    pick [(0x00, .orBase n), (0x08, .orCtl n), (0x0C, .orStat n), (0x10, .orTaken n), (0x14, .orPktTo n), (0x18, .orErr n)] i
  else if off < 0x400 then
    pick [(0x00, .crBase n), (0x08, .crCtl n), (0x0C, .crStat n), (0x10, .crProd n), (0x14, .crPkts n), (0x18, .crErr n),
      (0x1C, .crLost n)] i
  else
    pick [(0x400, .erBase), (0x408, .erCtl), (0x40C, .erStat), (0x410, .erProd), (0x414, .erPkts), (0x418, .erErr),
      (0x41C, .erLost)] off

/-- The PL_ block (R426). -/
def plReg (off : Nat) : Option HReg :=
  if 0x20 ≤ off ∧ off < 0x40 then (if off % 8 = 0 then some (.plDigest ((off - 0x20) / 8)) else none)
  else if 0x40 ≤ off ∧ off < 0x64 then some (.plClass ((off - 0x40) / 4))
  else if 0x80 ≤ off ∧ off < 0xA4 then some (.plWait ((off - 0x80) / 4))
  else if 0x100 ≤ off ∧ off < 0x300 then
    let p := (off - 0x100) / 0x20
    pick [(0x00, .poolGeo p), (0x08, .poolFrames p), (0x0C, .poolFree p), (0x10, .poolResv p), (0x14, .poolUsed p),
      (0x18, .poolWait p), (0x1C, .poolOvf p)] (off % 0x20)
  else if 0x340 ≤ off ∧ off < 0x3C0 then
    let m := (off - 0x340) / 0x10
    pick [(0x0, .flSize m), (0x8, .flFree m)] (off % 0x10)
  else if 0x400 ≤ off ∧ off < 0x1400 then
    (if off % 4 = 0 then some (.plDesc ((off - 0x400) / 0x40) (off % 0x40 / 4)) else none)
  else pick [(0x00, .plStat), (0x04, .plGen), (0x08, .plTableGen), (0x10, .plMiss), (0x14, .plFetch), (0x18, .plLoadStat),
    (0xA4, .plToken), (0x300, .plSeq), (0x304, .plSeqUsed), (0x308, .plPrefix), (0x30C, .plExtents), (0x310, .plWeight),
    (0x318, .plCb), (0x31C, .plAreas), (0x320, .plDescCount), (0x324, .plDirLines), (0x328, .plRegions)] off

/-- The AC_ block (R306). -/
def acReg (off : Nat) : Option HReg :=
  if 0x100 ≤ off ∧ off < 0x900 then
    let n := (off - 0x100) / 0x20
    pick [(0x00, .leaseStat n), (0x08, .leaseRemain n), (0x10, .leaseFault n)] (off % 0x20)
  else if 0x900 ≤ off ∧ off < 0x1100 then
    let b := (off - 0x900) / 0x20
    pick [(0x00, .bufAddr b), (0x08, .bufLen b), (0x10, .bufCtl b), (0x14, .bufStat b)] (off % 0x20)
  else pick [(0x00, .acInfo), (0x08, .acCmd), (0x10, .acCmdStat), (0x18, .acRenew), (0x20, .acExpired), (0x28, .acBiTo),
    (0x2C, .acErr), (0x30, .acLost), (0x34, .acRoWr), (0x38, .acDirEvict), (0x3C, .acOver)] off

/-- The TG_ block (R339). -/
def tgReg (off : Nat) : Option HReg :=
  if 0x40 ≤ off ∧ off < 0x80 then
    let m := (off - 0x40) / 8
    pick [(0x0, .lgGate m), (0x4, .lgWait m)] (off % 8)
  else pick [(0x00, .ordPol), (0x08, .bytePol), (0x10, .ordLevel), (0x14, .byteLevel), (0x18, .policed),
    (0x1C, .policedBytes), (0x20, .cxlGate), (0x24, .cxlWait)] off

/-- The HE_ block (R364). -/
def heReg (off : Nat) : Option HReg :=
  pick [(0x00, .replayed), (0x04, .confirmed), (0x08, .poison), (0x0C, .checkFail), (0x10, .accessErr)] off

/-- The CT_ block (R429). -/
def ctReg (off : Nat) : Option HReg :=
  pick [(0x00, .ctTaken), (0x04, .ctAdmitted), (0x08, .ctFailed), (0x0C, .ctDecode), (0x10, .ctAppend), (0x14, .ctPrefill),
    (0x18, .ctSubst), (0x1C, .ctDefers), (0x20, .ctDram), (0x28, .ctFlash), (0x30, .ctHits), (0x34, .ctFull),
    (0x38, .ctSkip), (0x3C, .ctEvicted), (0x40, .ctCoded), (0x48, .ctUncoded), (0x50, .ctFurlong)] off

/-- The register whose own offset is `off` (R283, R422). -/
def hideReg (off : Nat) : Option HReg :=
  let i := off % 0x10000
  match off / 0x10000 with
  | 0 => hdReg i | 1 => quReg i | 2 => plReg i | 3 => acReg i | 4 => tgReg i | 5 => heReg i | 6 => ctReg i | _ => none

/-- The register that a word belongs to, with its own offset, and whether the word is its upper half. -/
def hideWordReg (off : Nat) : Option (HReg × Nat × Bool) :=
  match hideReg off with
  | some r => some (r, off, false)
  | none => if 4 ≤ off then match hideReg (off - 4) with
      | some r => if r.wide then some (r, off - 4, true) else none
      | none => none
    else none

/-! ### What the registers read -/

/-- The device state of R419. -/
def State.code (s : State) : Nat :=
  if s.dex.error then 4
  else match s.power.st with
    | .tripped => 3
    | .running => if s.plan.ream.isSome then 2 else 1
    | _ => 0

/-- The LAYOUT entry and the section of a hide, as its registers see them (R423). -/
def State.layOf (s : State) (h : Nat) : Option HideEntry := if s.reamActive then (s.hide h).lay else none
def State.secOf (s : State) (h : Nat) : Option Section := if (s.layOf h).isSome then (s.hide h).sec else none

/-- A value from the LAYOUT entry, the section or a pool; zero without one. -/
def State.fromLay (s : State) (h : Nat) (f : HideEntry → Nat) : Nat := match s.layOf h with | some e => f e | none => 0
def State.fromSec (s : State) (h : Nat) (f : Section → Nat) : Nat := match s.secOf h with | some k => f k | none => 0
def State.fromPool (s : State) (h p : Nat) (f : Pool → Nat) : Nat :=
  s.fromLay h (fun e => match e.pools.find? (fun q => q.pool == p) with | some q => f q | none => 0)

/-- Place a flag at a bit. -/
def flag (b : Bool) (i : Nat) : Nat := if b then 2 ^ i else 0

/-- The parameter registers HD_P_x (R3, R425). -/
def paramReg (i : Nat) : Nat :=
  [0x00081040, 0x504C1000, 0x0004C000, 0x119408CA, 0x00400000, 0x00010000, 0x00104040, 0x01000100, 0x00400400,
    0x01000000, 0x01800060].getD i 0

/-- The regions that a variant covers. -/
def HideEntry_covers (e : HideEntry) (v : Nat × Nat) : Bool := bit e.regions (variantRegion v)

/-- Regions live in the variant in force (R390, R434). -/
def State.liveMask (s : State) : Nat :=
  match s.plan.ream with
  | some r => if s.reamActive then listMask ((maskList 64 r.header.liveMask).filter (fun g => !(s.region g).excluded)) else 0
  | none => 0

/-- HD_SCRUB_LEFT: the spec gives no figure for a moment within SCRUB (assumption 8). -/
def State.scrubLeft (s : State) (h : Nat) : Nat :=
  if (s.hide h).k.phase = .scrub ∧ s.reamActive then (Config.scrubLeft s.free).toNat else 0

/-- The descriptors of a section by MODEL_ID (R427). -/
def sectionDescs (k : Section) : List Desc := sortBy (·.modelId) k.descs

/-- CONF_STAT (R397). -/
def State.confStat (s : State) (h : Nat) : Nat :=
  let x := s.hide h
  let l := s.ld (s.ldOf h)
  let conf := s.fromLay h (fun e => flag e.confidential 0)
  conf + 2 * (if conf = 0 then 0 else x.k.tsp.code) + flag (l.ideIo == .secure) 4 + flag (s.cxl.ideMem == .secure) 5 +
    flag x.isPristine 6

/-- AC_Ln_STAT. -/
def LeaseSlot.stat (sl : LeaseSlot) : Nat :=
  sl.st.code + flag sl.sharer 3 + flag sl.compat 4 + sl.acre * 2 ^ 5 + (if sl.sharer then sl.peer * 2 ^ 16 else 0) +
    sl.status * 2 ^ 24 + sl.term * 2 ^ 32 + (if sl.sharer then 0 else sl.grants * 2 ^ 48)

/-- AC_Ln_FAULT. -/
def LeaseSlot.faultReg (sl : LeaseSlot) : Nat :=
  sl.faultOff + sl.faultKind * 2 ^ 28 + flag sl.faultValid 31 + sl.faultCount.toNat * 2 ^ 32

/-- A CT_ counter: zero in a confidential hide (R430). -/
def State.ctOf (s : State) (h : Nat) (f : Ct → Nat) : Nat := if (s.hide h).confidential then 0 else f (s.hide h).c.ct

/-- What a register holds. -/
def State.hideRead (s : State) (h : Nat) (r : HReg) : Nat :=
  let x := s.hide h
  let q := x.q
  let orr (n : Nat) := q.orders.get OrderRing.reset n
  let cr (n : Nat) := q.comps.get OutRing.reset n
  let lay := s.fromLay h
  let sec := s.fromSec h
  let fig (f : PlFigures → Nat) : Nat := lay (fun _ => f x.o.figures)
  match r with
  | .id => 0x0960 + 3 * 2 ^ 16 + Config.stepping.toNat * 2 ^ 24
  | .hide => lay (fun e => h + 16 * e.ld + 256)
  | .state => s.code + flag (s.reamActive && s.plan.lean) 3 + 256 * (s.plan.activations.toNat % 256)
  | .flen => if s.reamActive then s.furlongLength + 2 ^ 16 * (match s.plan.ream with | some k => k.header.leanLength | none => 0) else 0
  | .furlong => s.gates.furlong
  | .link => s.cxl.width + 32 * s.cxl.rate + 2 ^ 16 * s.cxl.changes.toNat
  | .param i => paramReg i
  | .reset | .jobkeyCmd | .acCmd | .acRenew => 0
  | .resetStat => x.k.phase.code + flag x.resetting 3 + 16 * x.k.cause + 2 ^ 16 * x.k.ended
  | .scrubLeft => s.scrubLeft h
  | .confStat => s.confStat h
  | .jobkeyStat => 256 * x.k.jobResult + 2 ^ 16 * (x.k.jobKeys.filter (·.2.held)).length
  | .jobkeyMax => lay (·.jobKeys)
  | .pwr => if x.confidential then 0 else s.power.longWatts / 25
  | .profCtl => x.k.profCtl.toNat
  | .profStat => x.k.profLost.toNat
  | .orBase n => (orr n).base.toNat
  | .orCtl n => (orr n).ctl.toNat
  | .orStat n => flag (orr n).ready 0
  | .orTaken n => (orr n).taken.toNat
  | .orPktTo n => (orr n).pktTo.toNat
  | .orErr n => (orr n).err.toNat
  | .crBase n => (cr n).base.toNat
  | .crCtl n => (cr n).ctl.toNat
  | .crStat n => flag (cr n).ready 0
  | .crProd n => (cr n).prod.toNat
  | .crPkts n => (cr n).packets
  | .crErr n => (cr n).err.toNat
  | .crLost n => (cr n).lost.toNat
  | .erBase => q.events.base.toNat
  | .erCtl => q.events.ctl.toNat
  | .erStat => flag q.events.ready 0
  | .erProd => q.events.prod.toNat
  | .erPkts => q.events.packets
  | .erErr => q.events.err.toNat
  | .erLost => q.events.lost.toNat
  | .plStat => flag s.reamActive 0 + lay (fun e => 2 + flag x.staged.isSome 2 + flag (s.plan.variants.any (HideEntry_covers e)) 3) +
      flag (s.reamActive && s.plan.lean) 4 + lay (fun e => flag e.lengths 5 + flag e.lengthWord 6)
  | .plGen => sec (·.gen) + (match x.staged with | some t => 2 ^ 16 * t.sec.gen | none => 0)
  | .plTableGen => x.o.tab.gen
  | .plMiss => sec (·.plMiss.toNat)
  | .plFetch => lay (·.fetchKib)
  | .plLoadStat => x.loadStat.result + 256 * x.loadStat.st + flag x.loadStat.abort 11 + flag x.loadStat.viaDoe 12
  | .plDigest j => sec (fun k => bits k.digest (64 * j) 64)
  | .plClass c => sec (fun _ => (x.plClass.getD c 0).toNat)
  | .plWait c => sec (fun _ => (x.plWait.getD c 0).toNat)
  | .plToken => sec (·.plToken.toNat)
  | .poolGeo p => s.fromPool h p (fun y => y.cellBytes + y.q * 2 ^ 20 + flag y.coded 30 + 2 ^ 31 + y.stripe.length * 2 ^ 32)
  | .poolFrames p => s.fromPool h p (·.frames)
  | .poolFree p => fig (fun f => AMap.get 0 f.free p)
  | .poolResv p => fig (fun f => AMap.get 0 f.resv p)
  | .poolUsed p => fig (fun f => AMap.get 0 f.used p)
  | .poolWait p => fig (fun f => AMap.get 0 f.wait p)
  | .poolOvf p => fig (fun f => AMap.get 0 f.ovf p)
  | .plSeq => lay (·.seqEntries)
  | .plSeqUsed => fig (·.seqUsed)
  | .plPrefix => lay (fun e => e.pfxLog2 + 256 * e.domains)
  | .plExtents => lay (·.extents)
  | .plWeight => lay (fun e => e.weightUnits + 2 ^ 32 * x.o.figures.weightFree)
  | .plCb => lay (fun e => e.cbSlots + 16 * x.o.figures.cbInUse)
  | .plAreas => lay (fun e => e.ringMib + 256 * e.opndMib)
  | .plDescCount => sec (·.descs.length)
  | .plDirLines => lay (·.dirLines)
  | .plRegions => lay (·.regions)
  | .flSize m => lay (fun e => (e.flash.getD m (0, 0)).2)
  | .flFree m => fig (fun f => AMap.get 0 f.flFree m)
  | .plDesc k w => sec (fun y => match (sectionDescs y)[k]? with | some d => fieldAt d.image (4 * w) 4 | none => 0)
  | .acInfo => lay (fun e => e.acres.length + flag e.compat 9 + flag e.confidential 10)
  | .acCmdStat => flag x.a.cmd.isSome 0 + 256 * x.a.result
  | .acExpired => x.a.expired.toNat
  | .acBiTo => x.a.biTo.toNat
  | .acErr => x.a.err.toNat
  | .acLost => x.a.lost.toNat
  | .acRoWr => x.a.roWr.toNat
  | .acDirEvict => x.a.dirEvict.toNat
  | .acOver => x.a.overflows.toNat
  | .leaseStat n => (x.lease n).stat
  | .leaseRemain n => if (x.lease n).live then (x.lease n).remain * 125 / 4096 else 0
  | .leaseFault n => (x.lease n).faultReg
  | .bufAddr b => (x.buf b).addr.toNat
  | .bufLen b => (x.buf b).len.toNat
  | .bufCtl b => flag (x.buf b).en 0 + flag (x.buf b).rd 1 + flag (x.buf b).wr 2
  | .bufStat b => flag (s.bufBusy h b) 0
  | .ordPol => sec (·.tgOrdPol.toNat)
  | .bytePol => sec (·.tgBytePol.toNat)
  | .ordLevel => sec (fun _ => q.ordLevel.toNat)
  | .byteLevel => sec (fun _ => q.byteLevel.toNat)
  | .policed => x.c.policed.toNat
  | .policedBytes => x.c.policedBytes.toNat
  | .cxlGate => sec (·.tgCxlGate.toNat)
  | .cxlWait => x.c.cxlWait.toNat
  | .lgGate m => sec (fun k => (k.tgLgGate.getD m 0).toNat)
  | .lgWait m => (AMap.get 0 x.c.lgWait m).toNat
  | .replayed => x.c.replayed.toNat
  | .confirmed => x.c.confirmed.toNat
  | .poison => x.c.poison.toNat
  | .checkFail => x.c.checkFail.toNat
  | .accessErr => x.c.accessErr.toNat
  | .ctTaken => s.ctOf h (·.taken.toNat)
  | .ctAdmitted => s.ctOf h (·.admitted.toNat)
  | .ctFailed => s.ctOf h (·.failed.toNat)
  | .ctDecode => s.ctOf h (·.decodeEntries.toNat)
  | .ctAppend => s.ctOf h (·.appendPos.toNat)
  | .ctPrefill => s.ctOf h (·.prefillPos.toNat)
  | .ctSubst => s.ctOf h (·.subst.toNat)
  | .ctDefers => s.ctOf h (·.defers.toNat)
  | .ctDram => s.ctOf h (·.dramLines.toNat)
  | .ctFlash => s.ctOf h (·.flashSectors.toNat)
  | .ctHits => s.ctOf h (·.pfxHits.toNat)
  | .ctFull => s.ctOf h (·.pfxFull.toNat)
  | .ctSkip => s.ctOf h (·.recodeSkip.toNat)
  | .ctEvicted => s.ctOf h (·.evicted.toNat)
  | .ctCoded => s.ctOf h (·.codedLines.toNat)
  | .ctUncoded => s.ctOf h (·.uncodedLines.toNat)
  | .ctFurlong => s.ctOf h (·.furlong.toNat)

/-! ### What a read clears -/

/-- Change the published CT_ counters. -/
def State.upCt (s : State) (h : Nat) (f : Ct → Ct) : State :=
  if (s.hide h).confidential then s else s.upC h (fun c => { c with ct := f c.ct })

/-- The reading of an RC register clears it (R7, R424). -/
def State.hideClear (s : State) (h : Nat) (r : HReg) : State :=
  match r with
  | .profStat => s.upK h (fun k => { k with profLost := 0 })
  | .crLost n => s.upQ h (fun q => { q with comps := amapUp OutRing.reset q.comps n (fun r => { r with lost := 0 }) })
  | .erLost => s.upQ h (fun q => { q with events := { q.events with lost := 0 } })
  | .acLost => s.upA h (fun a => { a with lost := 0 })
  | .acRoWr => s.upA h (fun a => { a with roWr := 0 })
  | .acDirEvict => s.upA h (fun a => { a with dirEvict := 0 })
  | .acOver => s.upA h (fun a => { a with overflows := 0 })
  | .policed => s.upC h (fun c => { c with policed := 0 })
  | .policedBytes => s.upC h (fun c => { c with policedBytes := 0 })
  | .cxlWait => s.upC h (fun c => { c with cxlWait := 0 })
  | .lgWait m => s.upC h (fun c => { c with lgWait := AMap.set c.lgWait m 0 })
  | .replayed => s.upC h (fun c => { c with replayed := 0 })
  | .confirmed => s.upC h (fun c => { c with confirmed := 0 })
  | .poison => s.upC h (fun c => { c with poison := 0 })
  | .checkFail => s.upC h (fun c => { c with checkFail := 0 })
  | .accessErr => s.upC h (fun c => { c with accessErr := 0 })
  | .ctTaken => s.upCt h (fun c => { c with taken := 0 })
  | .ctAdmitted => s.upCt h (fun c => { c with admitted := 0 })
  | .ctFailed => s.upCt h (fun c => { c with failed := 0 })
  | .ctDecode => s.upCt h (fun c => { c with decodeEntries := 0 })
  | .ctAppend => s.upCt h (fun c => { c with appendPos := 0 })
  | .ctPrefill => s.upCt h (fun c => { c with prefillPos := 0 })
  | .ctSubst => s.upCt h (fun c => { c with subst := 0 })
  | .ctDefers => s.upCt h (fun c => { c with defers := 0 })
  | .ctDram => s.upCt h (fun c => { c with dramLines := 0 })
  | .ctFlash => s.upCt h (fun c => { c with flashSectors := 0 })
  | .ctHits => s.upCt h (fun c => { c with pfxHits := 0 })
  | .ctFull => s.upCt h (fun c => { c with pfxFull := 0 })
  | .ctSkip => s.upCt h (fun c => { c with recodeSkip := 0 })
  | .ctEvicted => s.upCt h (fun c => { c with evicted := 0 })
  | _ => s

/-! ### Reads of the window (R284, R423, R424) -/

/-- Read a whole register through the window: an RC register is cleared, but not under a hide reset. -/
def State.takeReg (s : State) (h : Nat) (r : HReg) : State × Nat :=
  let v := s.hideRead h r
  let s := if r = .scrubLeft then { s with free := s.free + 1 } else s
  (if r.access = .rc && !(s.hide h).resetting then s.hideClear h r else s, v)

/-- Read one aligned word. -/
def State.takeWord (s : State) (h off : Nat) : State × Nat :=
  match hideWordReg off with
  | none => (s, 0)
  | some (r, base, false) =>
    let (s, v) := s.takeReg h r
    if r.wide then (s.upA h (fun a => { a with highLatch := AMap.set a.highLatch base (v / 2 ^ 32) }), v % 2 ^ 32) else (s, v)
  | some (r, base, true) =>
    match AMap.find (s.hide h).a.highLatch base with
    | some v => (s.upA h (fun a => { a with highLatch := a.highLatch.erase base }), v)
    | none => (s, s.hideRead h r / 2 ^ 32)

/-- Is an access aligned and of a size that the window accepts. -/
def windowOk (off size : Nat) : Bool := (size == 4 || size == 8) && off % size == 0 && decide (off + size ≤ 2 ^ 20)

/-- A read of the window: the value, or none where it is refused and counted. -/
def State.windowRead (s : State) (h off size : Nat) : State × Option Nat :=
  if !(windowOk off size) then (s.upC h (fun c => { c with accessErr := satInc c.accessErr }), none)
  else if size = 4 then let (s, v) := s.takeWord h off; (s, some v)
  else match hideReg off with
    | some r =>
      let (s, v) := s.takeReg h r
      if r.wide then (s, some v)
      else let (s, w) := s.takeWord h (off + 4); (s, some (v + 2 ^ 32 * w))
    | none => let (s, w) := s.takeWord h (off + 4); (s, some (2 ^ 32 * w))

/-- Does the function answer requests on its registers: the port is up, its boot has ended, and its IDE stream is not
insecure (R279, R400). -/
def State.functionUp (s : State) (ld : Nat) : Bool :=
  s.ioUp && decide (s.cxl.width ≠ 0) && (s.ld ld).ideIo != .insecure

/-- RC_REGISTER_READ: an aligned read of the hide window; the answer goes out as a completion (R284, R424). -/
def registerRead (h off size : Nat) (s : State) : State :=
  if !(s.functionUp (s.ldOf h)) then s
  else match s.windowRead h off size with
    | (s, some v) => s.enqueue 8 h false ⟨16 + size, .ioData (leBytes size v) false⟩
    | (s, none) => s.enqueue 8 h false ⟨16, .unsupported⟩

def execRcRegisterRead (h : Hide) (off size : Nat) (s : State) : Host.Outcome State Fault Refusal :=
  .next (registerRead h off size s)

/-- A word of the hide view: never clears and never latches (R433). -/
def State.viewWord (s : State) (h off : Nat) : Nat :=
  match hideWordReg off with
  | none => 0
  | some (r, _, upper) =>
    if (s.hide h).confidential && !(r == .id || r == .hide || r == .resetStat || r == .confStat) then 0
    else
      let v := s.hideRead h r
      if upper then v / 2 ^ 32 else v % 2 ^ 32

/-! ### Writes of the window (R252, R284, R290, R306, R397) -/

/-- BASE of a ring: refused while EN is set (R252). -/
def State.ringBase (s : State) (h : Nat) (kind : RingKind) (n : Nat) (v : Nat) : State :=
  let q := (s.hide h).q
  let ctl := match kind with
    | .order => (q.orders.get OrderRing.reset n).ctl
    | .completion => (q.comps.get OutRing.reset n).ctl
    | .event => q.events.ctl
  let b := BitVec.ofNat 64 (v / 4096 * 4096)
  if ctlEn ctl then s.ringErr h kind n
  else match kind with
    | .order => s.upQ h (fun q => q.upRing n (fun r => { r with base := b }))
    | .completion => s.upQ h (fun q => { q with comps := amapUp OutRing.reset q.comps n (fun r => { r with base := b }) })
    | .event => s.upQ h (fun q => { q with events := { q.events with base := b } })

/-- CTL of a ring: RING_ENABLE or RING_DISABLE. -/
def State.ringCtl (s : State) (h : Nat) (kind : RingKind) (n : Nat) (v : Nat) : State :=
  let c := BitVec.ofNat 32 v
  if ctlEn (ctlMask c) then ringEnable h kind n c s else ringDisable h kind n c s

/-- HD_RESET: GO starts or joins a reset, PROCEED ends HELD (R368, R397). -/
def State.hdReset (s : State) (h : Nat) (v : Nat) : State :=
  let s := if bit v 0 then hideResetGo h (bit v 1) s else s
  if bit v 2 then s.endHeld h else s

/-- ADDR or LEN of a registered buffer: refused while EN is set (R290). -/
def State.bufField (s : State) (h b : Nat) (f : HostBuf → HostBuf) : State :=
  if ((s.hide h).buf b).en then s.bufErr h else s.upBuf h b f

/-- A write of a value to a register: read-only ones, and those that a read clears, ignore it (R7). -/
def State.hideWrite (s : State) (h : Nat) (r : HReg) (v : Nat) : State :=
  let w := BitVec.ofNat 32 v
  match r with
  | .reset => s.hdReset h v
  | .jobkeyCmd => s.jobKeyCommand h w
  | .profCtl => if (s.hide h).confidential then s else s.upK h (fun k => { k with profCtl := w &&& 0x7F })
  | .orBase n => s.ringBase h .order n v
  | .orCtl n => s.ringCtl h .order n v
  | .orPktTo n => if 1 ≤ v ∧ v ≤ 1000000 then s.upQ h (fun q => q.upRing n (fun r => { r with pktTo := w })) else s.ringErr h .order n
  | .orErr n => s.upQ h (fun q => q.upRing n (fun r => { r with err := r.err &&& ~~~w }))
  | .crBase n => s.ringBase h .completion n v
  | .crCtl n => s.ringCtl h .completion n v
  | .crErr n => s.upQ h (fun q => { q with comps := amapUp OutRing.reset q.comps n (fun r => { r with err := r.err &&& ~~~w }) })
  | .erBase => s.ringBase h .event 0 v
  | .erCtl => s.ringCtl h .event 0 v
  | .erErr => s.upQ h (fun q => { q with events := { q.events with err := q.events.err &&& ~~~w } })
  | .acCmd => s.leaseCommand h (BitVec.ofNat 64 v)
  | .acRenew => acRenew h (BitVec.ofNat 64 v) s
  | .acExpired => s.upA h (fun a => { a with expired := a.expired &&& ~~~(BitVec.ofNat 64 v) })
  | .acBiTo => if 10 ≤ v ∧ v ≤ 10000 then s.upA h (fun a => { a with biTo := w }) else s.upA h (fun a => { a with err := a.err ||| 1 })
  | .acErr => s.upA h (fun a => { a with err := a.err &&& ~~~w })
  | .bufAddr b => s.bufField h b (fun y => { y with addr := BitVec.ofNat 64 (v / 4096 * 4096) })
  | .bufLen b => s.bufField h b (fun y => { y with len := BitVec.ofNat 64 (v / 4096 * 4096) })
  | .bufCtl b => s.bufCtl h b w
  | _ => s

/-- The registers that a write reaches while their hide is under reset (R369, R423). -/
def HReg.underReset : HReg → Bool
  | .reset | .acCmd | .orCtl _ | .crCtl _ | .erCtl => true
  | _ => false

/-- Write one aligned word (R284). -/
def State.writeWord (s : State) (h off : Nat) (v : Nat) : State :=
  match hideWordReg off with
  | none => s
  | some (r, base, upper) =>
    if (s.hide h).resetting && !r.underReset then s
    else if !r.wide then s.hideWrite h r v
    else if !upper then s.upA h (fun a => { a with lowHalves := AMap.set a.lowHalves base v })
    else
      let low := match AMap.find (s.hide h).a.lowHalves base with
        | some l => l
        | none => if r.access = .rw then s.hideRead h r % 2 ^ 32 else 0
      (s.upA h (fun a => { a with lowHalves := a.lowHalves.erase base })).hideWrite h r (low + 2 ^ 32 * v)

/-- A write of the window: one of another size or alignment is discarded and counted, as a read is. -/
def State.windowWrite (s : State) (h off size v : Nat) : State :=
  if !(windowOk off size) then s.upC h (fun c => { c with accessErr := satInc c.accessErr })
  else if size = 4 then s.writeWord h off (v % 2 ^ 32)
  else (s.writeWord h off (v % 2 ^ 32)).writeWord h (off + 4) (v / 2 ^ 32)

/-- REGISTER_WRITE: a write to the hide window; a poisoned one is discarded (R284). -/
def registerWrite (h off size : Nat) (v : U64) (poison : Bool) (s : State) : State :=
  if !(s.functionUp (s.ldOf h)) || poison then s else s.windowWrite h off size v.toNat

def execRegisterWrite (h : Hide) (off size : Nat) (v : U64) (poison : Bool) (s : State) : Host.Outcome State Fault Refusal :=
  .next (registerWrite h off size v poison s)

end Sys2Proof.Machine
end

