-- ==== Sys2Proof/Machine/League.lean ====
section
/-!
DEFINITION. The league ports (R307 to R319, R325, R328 to R330): training, the frames that arrive, retries, command
outcomes, and the loss and replacement of modules.

The body of a LINK record of a league port holds the port, the lanes in use, the state of R330 and an event: 0 a state
change, 1 a failed attempt, 2 a module accepted, 3 a module changed, 4 a module refused.
-/

namespace Sys2Proof.Machine
open Sys2Proof

/-! ### Lanes and states -/

/-- The lanes in use: the widest width permitted that the healthy lanes allow (R308, R309); `most` is MAX_WIDTH. -/
def laneMask (most l : Nat) : Nat :=
  if most = 0 ∧ l = 15 then 15
  else if most ≤ 1 ∧ l % 4 = 3 then 3
  else if most ≤ 1 ∧ l / 4 = 3 then 12
  else match (maskList 4 l).head? with | some i => 2 ^ i | none => 0
def laneCount (m : Nat) : Nat := (maskList 4 m).length

/-- MG_LGn_CTL.MAX_WIDTH. -/
def PortSt.most (p : PortSt) : Nat := bits p.ctl.toNat 2 2

def State.leagueRecord (s : State) (p ev : Nat) : State :=
  s.record recLink (agent (7 + p)) 0xFF [p, (s.port p).width, (s.port p).st.code, ev]

/-- Does the port exchange frames: ACTIVE, or at the exchange step of training (R309). -/
def PortSt.linked (p : PortSt) : Bool := p.st == .active || (p.st == .training && p.step == 4 && !p.waiting)

/-- The frames of a port that wait for the device's windows. -/
def State.upQueue (s : State) (p owner : Nat) (f : EgQueue → EgQueue) : State :=
  { s with gates := { s.gates with queues := amapUp EgQueue.empty s.gates.queues (egKey p owner) f } }

/-- A training attempt begins at a step; what an earlier IDENTIFY left goes. -/
def State.train (s : State) (p step : Nat) : State :=
  let s := s.upQueue p 16 (fun q => { q with first := q.first.filter (fun f => !(f.isFor .ident)) })
  s.upPort p (fun q => { q with
    st := .training
    step := step
    waiting := false
    maxWidth := q.most
    lanes := if step = 1 then 0 else q.lanes
    offered := none
    cmds := q.cmds.filter (fun c => c.why != .ident) })

/-- A retrain after a lane fault or a protocol fault, from step 2 (R319). -/
def State.retrain (s : State) (p : Nat) : State :=
  if (s.port p).st != .active && (s.port p).st != .training then s
  else ((s.train p 2).upPort p (fun q => { q with retrain := satInc q.retrain, replays := 0, nakSent := false })).leagueRecord p 0

/-! ### How commands end (R325, R328, R329) -/

/-- The frames of a job that no command has carried yet leave their queues; how many commands they were. -/
def State.unissue (s : State) (h j : Nat) : State × Nat :=
  match AMap.find (s.hide h).o.jobs j with
  | none => (s, 0)
  | some b =>
    let mine (w : CmdFor) : Bool := match w with | .job h' j' _ => h' == h && j' == j | _ => false
    let q := s.gates.queues.get EgQueue.empty (egKey b.module h)
    let gone := q.first.filterMap (fun (f : EgFrame) => match f.body with | .cmd _ _ _ _ _ w => if mine w then some w else none | _ => none)
    let keep (f : EgFrame) : Bool := match f.body with
      | .cmd _ _ _ _ _ w => !(mine w)
      | .wdata _ _ _ w => !(gone.contains w)
      | _ => true
    let head (q : EgQueue) : Option EgFrame := (q.first ++ q.second).head?
    let q' : EgQueue := { first := q.first.filter keep, second := q.second.filter keep }
    let s := s.upQueue b.module h (fun _ => q')
    (if head q' = head q then s else s.tagHead b.module h, gone.length)

/-- Parts of a job end with an outcome, 0 for none. -/
def Job.ends (b : Job) (parts st : Nat) : Job :=
  let w := if st = 0 then b.worst else worse b.worst st
  let left := b.left - parts
  { b with worst := w, left := left, status := if left = 0 then some w else none }

/-- An order whose transfer has failed issues no further command (R325); a fetch goes on. -/
def State.stopJobs (s : State) (h j : Nat) : State :=
  match (s.hide h).q.flights.find? (fun f => f.jobs.contains j) with
  | none => s
  | some f => f.jobs.foldl (fun s i =>
    let (s, n) := s.unissue h i
    s.upO h (fun o => match AMap.find o.jobs i with
      | some b => if n = 0 then o else { o with jobs := o.jobs.set i (b.ends n 0) }
      | none => o)) s

/-- A command ends with an outcome: 0, or the status of R325. -/
def State.endCmd (s : State) (p : Nat) (c : Cmd) (st : Nat) : State :=
  let s := s.upPort p (fun q => { q with cmds := q.cmds.filter (fun d => d.tag != c.tag) })
  let s := if st ≠ 0 ∧ c.op ≠ .read ∧ c.op ≠ .identify then s.upPort p (fun q => { q with err := q.err ||| 8 }) else s
  let s := match c.why with
    | .job h j _ =>
      match AMap.find (s.hide h).o.jobs j with
      | none => s
      | some b =>
        let s := s.upO h (fun o => { o with jobs := o.jobs.set j (b.ends 1 st) })
        let s := if st = stDeviceFault ∧ b.worst ≠ stDeviceFault then s.withhold h p b.lba b.sectors else s
        if st = 0 then s else s.stopJobs h j
    | .trim h lba n => s.trimEnds h p lba n st
    | .allot h lba n => (s.trimEnds h p lba n st).upPort p (fun q => { q with first := q.first.erase c.why })
    | .erase part =>
      let s := s.upPort p (fun q => { q with first := q.first.erase c.why })
      if st = 0 then s else s.record recFault (agent (7 + p)) 0xFF [10, p, part, 1, 0]
    | .ident => if st = 0 then s else s.upPort p (fun q => { q with offered := none })
  s.nextFirst p

/-- The outcome of a command that is complete (R317, R325). -/
def Cmd.outcome (c : Cmd) (status : Nat) : Nat :=
  match c.op with
  | .read =>
    if c.failedSectors || status ≠ 0 then stPoison else if c.checkFailed then stCheckFail else 0
  | _ => if status = 0 then 0 else stDeviceFault

/-- Is a command complete: its RSP is in and, for a READ and an IDENTIFY, every RDATA. -/
def Cmd.complete (c : Cmd) : Bool :=
  c.rsp.isSome && (match c.op with | .read => decide (c.got.length = c.count) | .identify => decide (c.got.length = 1) | _ => true)

/-- A change of an outstanding command, and its end when that completes it. -/
def State.upCmd (s : State) (p : Nat) (c : Cmd) : State :=
  let s := s.upPort p (fun q => { q with cmds := q.cmds.map (fun d => if d.tag == c.tag then c else d) })
  if c.complete then s.endCmd p c (c.outcome (c.rsp.getD 0)) else s

/-- The TRIMs of a hide's freed extents that wait for the port fail (R324, R325). -/
def State.failTrims (s : State) (h p : Nat) : State :=
  let trim (f : EgFrame) : Option (Nat × Nat) := match f.body with | .cmd _ _ _ _ _ (.trim _ lba n) => some (lba, n) | _ => none
  let gone := ((s.gates.queues.get EgQueue.empty (egKey p h)).first.filterMap trim)
  let s := s.upQueue p h (fun q => { q with first := q.first.filter (fun f => (trim f).isNone) })
  gone.foldl (fun s t => s.trimRefused h p t.1 t.2) s

/-- Every outstanding command fails as at a timeout, and so does what waits for the port (R325, R328). -/
def State.failPort (s : State) (p : Nat) : State :=
  let s := (s.port p).cmds.foldl (fun s c => s.endCmd p c stTimeout) s
  forAll s (List.range 16) (fun s h =>
    (s.hide h).o.jobs.foldl (fun s j =>
      if j.2.module = p ∧ j.2.status.isNone then
        let (s, _) := s.unissue h j.1
        s.upO h (fun o => { o with jobs := o.jobs.set j.1 { j.2 with left := 0, worst := worse j.2.worst stTimeout, status := some (worse j.2.worst stTimeout) } })
      else s) (s.failTrims h p))

/-- The port leaves service in a state: its link starts afresh when it trains again. -/
def State.portOut (s : State) (p : Nat) (st : PortState) : State :=
  let s := s.upPort p (fun q => { q with
    st := st, width := 0, lanes := 0, step := 0, attempts := 0, waiting := false, retired := [], txSeq := 0, rxSeq := 0, unacked := []
    replays := 0, nakSent := false, sentCmd := 0, sentWdata := 0, crCmd := 0, crWdata := 0, crRsp := 256, crRdata := 256
    module := none, capacity := 0 })
  (s.failPort p).leagueRecord p 0

/-- DOWN (R309, R328, R407). -/
def State.portDown (s : State) (p : Nat) : State :=
  if (s.port p).st == .down || (s.port p).st == .disabled then s else s.portOut p .down

/-! ### Training and module acceptance (R309, R310, R319, R328) -/

/-- Does every hide's allotment on the port end within the capacity. -/
def State.covers (s : State) (p cap : Nat) : Bool :=
  s.present.all (fun h => let (lba, n) := (s.hide h).allotment p; n == 0 || decide (lba + n ≤ cap))

/-- The conditions of R310. -/
def State.acceptable (s : State) (p : Nat) (m : ModuleId) : Bool :=
  m.sectorBytes == 4096 && m.metaBytes == 64 && decide (16 ≤ m.partitions) && decide (256 ≤ m.commands) &&
  decide (64 ≤ m.transfer) && s.covers p m.capacity

/-- Every extent on the port, of every hide, becomes LOST (R328). -/
def State.loseExtents (s : State) (p : Nat) : State :=
  forAll s (List.range 16) (fun s h => s.upO h (fun o => { o with
    tab := { o.tab with exts := o.tab.exts.map (fun (e : Nat × Extent) => if e.2.module = p then (e.1, { e.2 with lost := true }) else e) } }))

/-- ERASE_KEY of every partition, and TRIM of every allotment, on a module that is new while plans run (R328, R329). -/
def State.newModule (s : State) (p : Nat) : State :=
  let s := s.upPort p (fun q => { q with first := (List.range 16).map .erase })
  if s.plan.activations = 0 then s
  else forAll s s.present (fun s h =>
    let (lba, n) := (s.hide h).allotment p
    (s.upO h (fun o => { o with
      trimming := o.trimming.filter (fun t => t.1 != p), untrimmed := o.untrimmed.filter (fun t => t.1 != p) })).trimRange h p lba n)

/-- The exchange has ended with a module's data: it is accepted, or refused. -/
def State.meetModule (s : State) (p : Nat) (m : ModuleId) : State :=
  let q := s.port p
  if !(s.acceptable p m) then
    let s := s.upPort p (fun q => { q with err := q.err ||| 2 })
    (s.portOut p .refused).leagueRecord p 4
  else
    let changed := q.serial.isSome && q.serial != some m.serial
    let w := laneCount (laneMask q.maxWidth q.lanes.toNat)
    let s := s.upPort p (fun q => { q with
      st := .active, step := 5, attempts := 0, waiting := false, width := w, module := some m, serial := some m.serial
      capacity := BitVec.ofNat 64 (min m.capacity 31250000000)
      err := if changed then q.err ||| 4 else q.err })
    let s := if q.width ≠ 0 ∧ q.width ≠ w then s.deviceEvent else s
    let s := s.leagueRecord p 2
    let s := if changed then (((s.loseExtents p).deviceEvent).leagueRecord p 3).newModule p else s
    s.nextFirst p

/-- TRAINING_STEP_COMPLETE: the step of R309 meets its condition; `lanes` are the lanes that show signal (step 1), that
adapt (step 2) and that align (step 3). -/
def trainingComplete (p : Nat) (lanes : BitVec 4) (s : State) : State :=
  let q := s.port p
  if q.st != .training || q.waiting then s
  else match q.step with
    | 1 => if lanes = 0 then s else s.upPort p (fun q => { q with step := 2, lanes := lanes })
    | 2 => if lanes = 0 then s else s.upPort p (fun q => { q with step := 3, lanes := lanes })
    | 3 =>
      let m := laneMask q.maxWidth lanes.toNat
      if m = 0 then s
      else (s.upPort p (fun q => { q with step := 4, lanes := BitVec.ofNat 4 m })).enqueue p 16 true ⟨64, .cmd 0 .identify 0 0 0 .ident⟩
    | _ => match q.offered with
      | some m => if q.cmds.any (fun c => c.why == .ident) then s else s.meetModule p m
      | none => s

def execTrainingStepComplete (p : Port) (lanes : BitVec 4) (s : State) : Host.Outcome State Fault Refusal :=
  .next (trainingComplete p lanes s)

/-- TRAINING_STEP_TIMEOUT: the attempt fails; the fifth in a row leaves the port DOWN. -/
def trainingTimeout (p : Nat) (s : State) : State :=
  let q := s.port p
  if q.st != .training || q.waiting then s
  else
    let s := (s.train p q.step).upPort p (fun q => { q with attempts := q.attempts + 1, waiting := true })
    let s := s.leagueRecord p 1
    if q.attempts + 1 < 5 then s else (s.upPort p (fun q => { q with err := q.err ||| 1 })).portDown p

def execTrainingStepTimeout (p : Port) (s : State) : Host.Outcome State Fault Refusal := .next (trainingTimeout p s)

/-- TRAINING_RETRY: 100 ms after a failed attempt training starts again at step 1. -/
def trainingRetry (p : Nat) (s : State) : State :=
  if (s.port p).st == .training && (s.port p).waiting then s.train p 1 else s

def execTrainingRetry (p : Port) (s : State) : Host.Outcome State Fault Refusal := .next (trainingRetry p s)

/-! ### Frames that arrive (R312, R314, R317, R318) -/

/-- The CTRL content that the device reports. -/
def PortSt.report (q : PortSt) : Ctrl :=
  { ack := (q.rxSeq + 4095) % 4096, nak := if q.nakSent then some q.rxSeq else none, crCmd := 0, crWdata := 0,
    crRsp := q.crRsp % 65536, crRdata := q.crRdata % 65536 }

/-- A CTRL frame leaves. It goes in a device window as the link has room (R333), ahead of what waits. -/
def State.sendCtrl (s : State) (p : Nat) : State :=
  { s with gates := { s.gates with sent := s.gates.sent ++ [(p, 16, ⟨64, .ctrl (s.port p).report⟩)] } }

/-- A frame is discarded at the link layer: one NAK names the expected SEQ. -/
def State.nak (s : State) (p : Nat) : State :=
  if (s.port p).nakSent then s else (s.upPort p (fun q => { q with nakSent := true })).sendCtrl p

/-- The link-layer check of a sequenced frame: the state after it, and whether the frame goes on. -/
def State.linkCheck (s : State) (p : Nat) (k : FrameCheck) : State × Bool :=
  if !k.crcOk then ((s.upPort p (fun q => { q with crcErr := satInc q.crcErr })).nak p, false)
  else if !k.wellFormed then ((s.upPort p (fun q => { q with discard := satInc q.discard })).nak p, false)
  else if k.seq ≠ (s.port p).rxSeq then (s.nak p, false)
  else (s.upPort p (fun q => { q with rxSeq := (q.rxSeq + 1) % 4096, nakSent := false }), true)

/-- A frame that names no command it can answer. -/
def State.discard (s : State) (p : Nat) : State := s.upPort p (fun q => { q with discard := satInc q.discard })

/-- LEAGUE_RSP. Its buffer drains at once, so a credit is granted for it. -/
def leagueRsp (p : Nat) (k : FrameCheck) (tag status : Nat) (s : State) : State :=
  if !(s.port p).linked then s
  else
    let (s, ok) := s.linkCheck p k
    if !ok then s
    else
      let s := s.upPort p (fun q => { q with crRsp := q.crRsp + 1 })
      match (s.port p).cmds.find? (fun c => c.tag == tag && c.rsp.isNone) with
      | none => s.discard p
      | some c => s.upCmd p { c with rsp := some status }

def execLeagueRsp (p : Port) (k : FrameCheck) (tag status _failed : Nat) (s : State) : Host.Outcome State Fault Refusal :=
  .next (leagueRsp p k tag status s)

/-- Does a sector carry what its job expects, and does its tag verify (R323). -/
def Job.checks (b : Job) (h chunk : Nat) (y : Sector) : Bool :=
  y.serial == b.serial && y.chunk == chunk && y.extent == b.extent && y.hide == h && y.keyKind == b.keyKind &&
  y.key == b.key && y.keyBits == b.keyBits && y.intact

/-- The sector of a READ is stored, or its failure noted; a failed sector is one returned with FAIL set (R323, R325). -/
def State.takeSector (s : State) (p : Nat) (c : Cmd) (i : Nat) (d : RData) : State :=
  let c := { c with got := i :: c.got }
  match c.why, d with
  | .job h j first, .sector y =>
    match AMap.find (s.hide h).o.jobs j with
    | none => s.upCmd p c
    | some b =>
      if b.checks h (first + i) y then
        (s.upO h (fun o => { o with jobs := o.jobs.set j { b with data := b.data.set (first + i) y.plain } })).upCmd p c
      else s.upCmd p { c with checkFailed := true }
  | _, .sector _ => s.upCmd p c
  | _, _ => (s.upPort p (fun q => { q with sectFail := satInc q.sectFail })).upCmd p { c with failedSectors := true }

/-- LEAGUE_RDATA: a sector for a READ, or the data of an IDENTIFY. -/
def leagueRdata (p : Nat) (k : FrameCheck) (tag i : Nat) (d : RData) (s : State) : State :=
  if !(s.port p).linked then s
  else
    let (s, ok) := s.linkCheck p k
    if !ok then s
    else
      let s := s.upPort p (fun q => { q with crRdata := q.crRdata + 1 })
      match (s.port p).cmds.find? (fun c => c.tag == tag) with
      | none => s.discard p
      | some c =>
        if c.got.contains i then s.discard p
        else match c.op, d with
          | .read, .ident _ => s.discard p
          | .read, d => if i < c.count then s.takeSector p c i d else s.discard p
          | .identify, .ident m =>
            if i = 0 then (s.upPort p (fun q => { q with offered := some m })).upCmd p { c with got := [0] } else s.discard p
          | _, _ => s.discard p

def execLeagueRdata (p : Port) (k : FrameCheck) (tag sector : Nat) (payload : RData) (s : State) : Host.Outcome State Fault Refusal :=
  .next (leagueRdata p k tag sector payload s)

/-- Send again every unacknowledged frame from the oldest one on (R312). -/
def State.replay (s : State) (p : Nat) : State :=
  let q := s.port p
  if q.unacked.isEmpty then s
  else
    let s := s.upPort p (fun q => { q with replay := satInc q.replay, replays := q.replays + 1 })
    let s := { s with gates := { s.gates with sent := s.gates.sent ++ q.unacked.map (fun f => (p, 16, f.2)) } }
    if 16 ≤ q.replays + 1 then s.retrain p else s

/-- Acknowledge every frame up to a SEQ. -/
def PortSt.ack (q : PortSt) (a : Nat) : PortSt :=
  if q.unacked.any (fun f => f.1 == a) then
    { q with unacked := (q.unacked.dropWhile (fun f => f.1 != a)).drop 1, replays := 0 }
  else q

/-- A cumulative total modulo 2^16 as the unbounded count that it continues; none when it has decreased (R314, R318). -/
def credit (now sent : Nat) : Option Nat :=
  let d := (sent + 65536 - now % 65536) % 65536
  if d < 32768 then some (now + d) else none

/-- LEAGUE_CTRL: acknowledgements, a NAK, and the module's credit totals. One whose CRC or header fails is discarded. -/
def leagueCtrl (p : Nat) (ok : Bool) (c : Ctrl) (s : State) : State :=
  if !(s.port p).linked then s
  else if !ok then s.upPort p (fun q => { q with crcErr := satInc q.crcErr })
  else
    let s := s.upPort p (fun q => q.ack c.ack)
    let q := s.port p
    match credit q.crCmd c.crCmd, credit q.crWdata c.crWdata with
    | some a, some b =>
      let s := s.upPort p (fun q => { q with crCmd := a, crWdata := b })
      match c.nak with
      | some n => (s.upPort p (fun q => q.ack ((n + 4095) % 4096))).replay p
      | none => s
    | _, _ => s.retrain p

def execLeagueCtrl (p : Port) (ok : Bool) (c : Ctrl) (s : State) : Host.Outcome State Fault Refusal := .next (leagueCtrl p ok c s)

/-- LEAGUE_CTRL_SEND: at least once every 1 µs (R313). -/
def leagueCtrlSend (p : Nat) (s : State) : State := if (s.port p).linked then s.sendCtrl p else s
def execLeagueCtrlSend (p : Port) (s : State) : Host.Outcome State Fault Refusal := .next (leagueCtrlSend p s)

/-- LEAGUE_REPLAY_TIMEOUT: the oldest unacknowledged frame has waited 4 µs (R312). -/
def leagueReplayTimeout (p : Nat) (s : State) : State := if (s.port p).linked then s.replay p else s
def execLeagueReplayTimeout (p : Port) (s : State) : Host.Outcome State Fault Refusal := .next (leagueReplayTimeout p s)

/-- LEAGUE_IDLE_TIMEOUT: no good frame for 10 µs (R318). -/
def leagueIdle (p : Nat) (s : State) : State := if (s.port p).linked then s.retrain p else s
def execLeagueIdleTimeout (p : Port) (s : State) : Host.Outcome State Fault Refusal := .next (leagueIdle p s)

/-- LEAGUE_COMMAND_TIMEOUT: the command fails, and its tag is retired (R317). -/
def leagueTimeout (p tag : Nat) (s : State) : State :=
  match (s.port p).cmds.find? (fun c => c.tag == tag) with
  | none => s
  | some c =>
    let s := s.upPort p (fun q => { q with timeout := satInc q.timeout, retired := q.retired ++ [tag] })
    s.endCmd p c stTimeout

def execLeagueCommandTimeout (p : Port) (tag : Nat) (s : State) : Host.Outcome State Fault Refusal := .next (leagueTimeout p tag s)

/-- A lane in use fails: the port retrains without it (R318, R319). -/
def laneFault (p lane : Nat) (s : State) : State :=
  let q := s.port p
  if (q.st == .active || q.st == .training) && q.lanes.getLsbD lane then
    (s.upPort p (fun q => { q with lanes := q.lanes &&& ~~~(BitVec.ofNat 4 (2 ^ lane)) })).retrain p
  else s

def execLaneFault (p : Port) (lane : Fin 4) (s : State) : Host.Outcome State Fault Refusal := .next (laneFault p lane s)

/-- SYMBOL_ERROR_WINDOW: `errors` symbol errors of a lane in 2^20 codewords of 544 symbols striped over the lanes in use; a
ratio above 2 × 10^−4 is a lane fault (R318). -/
def symbolWindow (p lane errors : Nat) (s : State) : State :=
  let w := (s.port p).width
  if 2 ^ 20 * 544 < errors * w * 5000 then laneFault p lane s else s

def execSymbolErrorWindow (p : Port) (lane : Fin 4) (errors : Nat) (s : State) : Host.Outcome State Fault Refusal :=
  .next (symbolWindow p lane errors s)

/-! ### What starts on the link (R316, R317) -/

/-- The tag of the next command: the lowest that is neither outstanding nor retired, below the module's limit and 1,024
(R310, R317). -/
def PortSt.freeTag (q : PortSt) : Option Nat :=
  let n := match q.module with | some m => min m.commands 1024 | none => 1
  (List.range n).find? (fun t => !(q.cmds.any (fun c => c.tag == t)) && !(q.retired.contains t))

/-- Do two commands reach overlapping sectors (R316). -/
def CmdFor.isTransfer : CmdFor → Bool
  | .job _ _ _ | .trim _ _ _ | .allot _ _ _ => true
  | _ => false
def Cmd.overlaps (c : Cmd) (lba n : Nat) : Bool := c.why.isTransfer && decide (c.lba < lba + n) && decide (lba < c.lba + c.count)

/-- May a frame start now: the port's state, credits, a tag, no command on overlapping sectors, and no erasing of its
hide's partition (R309, R314, R316, R329). -/
def State.mayStart (s : State) (p : Nat) (f : EgFrame) : Bool :=
  let q := s.port p
  match f.body with
  | .cmd _ _ _ lba n w =>
    let idle := match w.ofHide with | some h => !(q.first.contains (.erase h)) | none => true
    (if w == .ident then q.linked else q.st == .active) && decide (q.sentCmd < q.crCmd) && q.freeTag.isSome &&
      decide (q.unacked.length < 512) && !(w.isTransfer && q.cmds.any (fun c => c.overlaps lba n)) && idle
  | .wdata _ _ _ w => q.st == .active && decide (q.sentWdata < q.crWdata) && decide (q.unacked.length < 512) && q.cmds.any (fun c => c.why == w)
  | _ => q.linked

/-- A frame starts: it takes its SEQ, a command its tag and its place among the outstanding ones. -/
def State.issue (s : State) (p : Nat) (f : EgFrame) : State × EgFrame :=
  let q := s.port p
  let sent (g : EgFrame) (k : PortSt → PortSt) : State × EgFrame :=
    (s.upPort p (fun q => k { q with txSeq := (q.txSeq + 1) % 4096, unacked := q.unacked ++ [(q.txSeq, g)] }), g)
  match f.body with
  | .cmd _ op part lba n w =>
    let t := q.freeTag.getD 0
    let c : Cmd := ⟨t, op, part, lba, n, w, [], none, false, false⟩
    sent { f with body := .cmd t op part lba n w } (fun q => { q with sentCmd := q.sentCmd + 1, cmds := q.cmds ++ [c] })
  | .wdata _ i y w =>
    let t := match q.cmds.find? (fun c => c.why == w) with | some c => c.tag | none => 0
    sent { f with body := .wdata t i y w } (fun q => { q with sentWdata := q.sentWdata + 1 })
  | _ => (s, f)

/-! ### The registers of a port (R330) -/

/-- A write of MG_LGn_CTL. -/
def State.portCtl (s : State) (p : Nat) (v : U32) : State :=
  let q := s.port p
  let w := if bits v.toNat 2 2 = 3 then bits q.ctl.toNat 2 2 else bits v.toNat 2 2
  let s := s.upPort p (fun q => { q with ctl := BitVec.ofNat 32 (v.toNat % 2 + 4 * w) })
  if !(v.getLsbD 0) then (if q.st == .disabled then s else s.portOut p .disabled)
  else if v.getLsbD 1 || q.st == .disabled then
    ((s.train p 1).upPort p (fun q => { q with attempts := 0 })).leagueRecord p 0
  else s

end Sys2Proof.Machine
end

