-- ==== Sys2Proof/Machine/Gates.lean ====
section
/-!
DEFINITION. The gates (R331 to R338): gate furlongs, the refill of the policers, and the start of frames in windows.
-/

namespace Sys2Proof.Machine
open Sys2Proof

/-- GATE_FURLONG_START: the boundary marks of the bridge-attachment regions have arrived (R331). -/
def gateStart (s : State) : State := { s with gates := { s.gates with furlong := s.plan.furlong } }
def execGateFurlongStart (s : State) : Host.Outcome State Fault Refusal := .next (gateStart s)

/-- One bucket pair gains its rates, up to its depths, and is sampled (R337, R339). -/
def QPart.refill (q : QPart) (k : Section) : QPart :=
  let o := min (q.ordTokens + bits k.tgOrdPol.toNat 0 24) (bits k.tgOrdPol.toNat 32 16 * 256)
  let b := min (q.byteTokens + bits k.tgBytePol.toNat 0 32) (bits k.tgBytePol.toNat 32 32)
  { q with
    ordTokens := o
    byteTokens := b
    ordLevel := BitVec.ofNat 32 (o / 256)
    byteLevel := BitVec.ofNat 32 b }

/-- POLICER_REFILL: a gate chain boundary. -/
def policerRefill (s : State) : State :=
  if !s.reamActive then s
  else forAll s s.present (fun s h => match (s.hide h).sec with
    | some k => s.upQ h (fun q => q.refill k)
    | none => s)

def execPolicerRefill (s : State) : Host.Outcome State Fault Refusal := .next (policerRefill s)

/-! ### Windows and time (R332 to R334) -/

/-- Times on a link are counted in this part of an IO-core cycle: at full width a byte of charge takes `10 / 1888` cycles
of the CXL port and `100 / 8466` of a league port. -/
def linkUnit (link : Nat) : Nat := if link = 8 then 1888 else 8466

/-- The transmission time of a charge; none while the link is down (R280, R308, R333). -/
def State.sendTime (s : State) (link charge : Nat) : Option Nat :=
  if link = 8 then
    if s.cxl.width = 0 ∨ s.cxl.rate = 0 then none else some (ceilDiv (charge * 10 * 16 * 4) (s.cxl.width * 2 ^ (s.cxl.rate - 1)))
  else
    let w := laneCount (s.port link).lanes.toNat
    if w = 0 ∨ !(s.port link).linked then none else some (charge * 100 * 4 / w)

/-- The windows of a link: those of the CONTROL section and those of every hide. Without a ream the transmitter is the
device's in every cycle. -/
def State.windows (s : State) (link : Nat) : List Window :=
  match s.reamActive, s.plan.ream with
  | true, some r =>
    (r.windows ++ s.present.flatMap (fun h => match (s.hide h).sec with | some k => k.windows | none => [])).filter (fun w => w.link == link)
  | _, _ => [⟨link, 0xFE, 1023, 0, 250⟩]

/-- Is a window open at a cycle of a chain. -/
def windowOpen (w : Window) (chain cycle : Nat) : Bool :=
  bit w.chains chain && decide (w.start ≤ cycle) && decide (cycle < w.start + w.length)

/-- The head of an owner's queues on a link, and whether it stands in the first: MEM before IO; a command's write data
before the next command (R333). -/
def State.headFrame (s : State) (link owner : Nat) : Option (Bool × EgFrame) :=
  let q := s.gates.queues.get EgQueue.empty (egKey link owner)
  let second := q.second.head?.map (fun f => (false, f))
  let first := q.first.head?.map (fun f => (true, f))
  let issued := link != 8 && (match q.second.head? with
    | some f => (match f.body with | .wdata _ _ _ w => (s.port link).cmds.any (fun c => c.why == w) | _ => false)
    | none => false)
  if issued then second else first.or second

/-- May a frame start on a link, its time apart. -/
def State.ready (s : State) (link : Nat) (f : EgFrame) : Bool := link == 8 || s.mayStart link f

/-- Does a frame of an owner end by the last cycle of a window. A frame that exceeds every window of its hide may start
at the start of the longest one (R334). -/
def State.fits (s : State) (w : Window) (owner cycle at_ : Nat) (f : EgFrame) : Bool :=
  match s.sendTime w.link f.charge with
  | none => false
  | some t =>
    let u := linkUnit w.link
    let mine := (s.windows w.link).filter (fun y => y.owner == owner)
    let longest := mine.foldl (fun n y => max n y.length) 0
    decide (at_ + t ≤ (w.start + w.length) * u) ||
      (w.owner == owner && decide (longest * u < t) && w.length == longest && cycle == w.start)

/-- The frame is taken from its queue and leaves; the frame behind it becomes the head. -/
def State.send (s : State) (link owner at_ chain : Nat) (firstQ : Bool) (f : EgFrame) : State :=
  let t := (s.sendTime link f.charge).getD 0
  let s := s.upQueue link owner (fun q => if firstQ then { q with first := q.first.drop 1 } else { q with second := q.second.drop 1 })
  let (s, f) := if link = 8 then (s, f) else s.issue link f
  let k := egKey link owner * 2 + (if firstQ then 0 else 1)
  let s := { s with gates := { s.gates with
    sent := s.gates.sent ++ [(link, owner, f)]
    waited := s.gates.waited.filter (· != k)
    busy := s.gates.busy.set link (s.gates.furlong * 10 + chain, at_ + t) } }
  if (s.headFrame link owner).isSome then s.tagHead link owner else s

/-- A head that does not fit waits for a later window, counted once (R339). -/
def State.noteWait (s : State) (link h : Nat) (firstQ : Bool) : State :=
  let k := egKey link h * 2 + (if firstQ then 0 else 1)
  if 16 ≤ h ∨ s.gates.waited.contains k then s
  else
    let s := { s with gates := { s.gates with waited := s.gates.waited ++ [k] } }
    s.upC h (fun c => if link = 8 then { c with cxlWait := satInc c.cxlWait }
      else { c with lgWait := c.lgWait.set link (satInc (AMap.get 0 c.lgWait link)) })

/-- The owner of a window sends its head, if it may and fits. -/
def State.sendOwn (s : State) (w : Window) (owner chain cycle at_ : Nat) : State :=
  match s.headFrame w.link owner with
  | none => s
  | some (q, f) =>
    if !(s.fits w owner cycle at_ f) then s.noteWait w.link owner q
    else if s.ready w.link f then s.send w.link owner at_ chain q f
    else s

/-- The tags of a member's head: start and finish (R335). -/
def State.headTags (s : State) (link h charge : Nat) : BitVec 64 × BitVec 64 :=
  let st := s.gates.start.get 0 (link * 16 + h)
  (st, st + BitVec.ofNat 64 (charge * 65536 / gateWeight ((s.hide h).gate link)))

/-- The member of least finish tag, the lowest hide among equals. -/
def leastTag : List (Nat × BitVec 64) → Option Nat
  | [] => none
  | (h, f) :: t =>
    match leastTag t, t with
    | some g, _ => (match t.find? (fun p => p.1 == g) with
      | some (_, f') => if (f' - f).toInt < 0 then some g else some h
      | none => some h)
    | none, _ => some h

/-- A shared window: weighted fair queueing over the members whose heads fit (R335). -/
def State.sendShared (s : State) (w : Window) (chain cycle at_ : Nat) : State :=
  let g := w.owner - 0x10
  let members := s.present.filter (fun h => gateWeight ((s.hide h).gate w.link) != 0 && gateGroup ((s.hide h).gate w.link) == g)
  let heads := members.filterMap (fun h => (s.headFrame w.link h).map (fun p => (h, p)))
  let s := heads.foldl (fun s p => if s.fits w p.1 cycle at_ p.2.2 then s else s.noteWait w.link p.1 p.2.1) s
  let able := heads.filter (fun p => s.fits w p.1 cycle at_ p.2.2 && s.ready w.link p.2.2)
  match leastTag (able.map (fun p => (p.1, (s.headTags w.link p.1 p.2.2.charge).2))) with
  | none => s
  | some h =>
    match s.headFrame w.link h with
    | none => s
    | some (q, f) =>
      let (st, fin) := s.headTags w.link h f.charge
      let s := { s with gates := { s.gates with
        vtime := s.gates.vtime.set (w.link * 16 + g) (laterTag (s.gates.vtime.get 0 (w.link * 16 + g)) st)
        finish := s.gates.finish.set (w.link * 16 + h) fin } }
      s.send w.link h at_ chain q f

/-- EGRESS_FRAME_START: in a cycle of a gate chain the transmitter of a link, if it is free by the end of that cycle,
starts the frame that the open window gives (R334 to R336). -/
def egressStart (link chain cycle : Nat) (s : State) : State :=
  match (s.windows link).find? (fun w => windowOpen w chain cycle) with
  | none => s
  | some w =>
    let u := linkUnit link
    let (bc, bt) := s.gates.busy.get (0, 0) link
    let from_ := if bc = s.gates.furlong * 10 + chain then max (cycle * u) bt else cycle * u
    if (cycle + 1) * u ≤ from_ then s
    else if w.owner < 16 then s.sendOwn w w.owner chain cycle from_
    else if w.owner = 0xFE then
      if s.reamActive then s.sendOwn w 16 chain cycle from_
      else match (16 :: List.range 16).find? (fun o => match s.headFrame link o with | some (_, f) => s.ready link f | none => false) with
        | some o => s.sendOwn w o chain cycle from_
        | none => s
    else s.sendShared w chain cycle from_

def execEgressFrameStart (link : Fin 9) (chain : Chain) (cycle : Nat) (s : State) : Host.Outcome State Fault Refusal :=
  .next (egressStart link chain cycle s)

end Sys2Proof.Machine
end

