-- ==== Sys2Proof/Machine/Flags.lean ====
section
/-!
DEFINITION. The conditions that the device reports: temperatures, the lean conditions, PW_STAT, the alert outputs, the
device-mode bytes and the open windows of the screening registers (R402, R405, R408, R421, R365, R366, R389, R398, R443).
-/

namespace Sys2Proof.Machine
open Sys2Proof

/-! ### Temperatures (R402): sensors 3r and 3r + 1 are the junction sensors of region r, or of the I/O die for r = 64, and
3r + 2 the DRAM sensor of region r -/

def State.sensor (s : State) (k : Nat) : Sensor := s.sensors.get Sensor.reset k

/-- Has a sensor failed; every one counts as failed once the always-on clock is lost (R409). -/
def State.sensorFailed (s : State) (k : Nat) : Bool := (s.sensor k).failed || s.clocks.aonLost

/-- The junction temperature of a place: the higher valid reading, or PW_T_LEAN when both sensors have failed. -/
def State.junction (s : State) (r : Nat) : Int :=
  match s.sensorFailed (3 * r), s.sensorFailed (3 * r + 1) with
  | true, true => (s.power.tLean.toNat : Int)
  | true, false => (s.sensor (3 * r + 1)).value
  | false, true => (s.sensor (3 * r)).value
  | false, false => max (s.sensor (3 * r)).value (s.sensor (3 * r + 1)).value

/-- The DRAM temperature of a region, 92 °C when its sensor has failed. -/
def State.dramTemp (s : State) (r : Nat) : Int := if s.sensorFailed (3 * r + 2) then 92 else (s.sensor (3 * r + 2)).value

/-- PW_TEMP of a place (R421). -/
def State.tempReg (s : State) (r : Nat) : Nat :=
  let byte (t : Int) : Nat := (BitVec.ofInt 8 t).toNat
  let dram := decide (r < 64)
  byte (s.junction r) + (if dram then 256 * byte (s.dramTemp r) else 0) +
    flag (s.sensorFailed (3 * r) || s.sensorFailed (3 * r + 1) || (dram && s.sensorFailed (3 * r + 2))) 16

/-! ### Lean conditions (R405) -/

/-- The sum of the last four VIN samples, once there are four. -/
def Power.vinSum (p : Power) : Option Nat := if p.vins.length = 4 then some (p.vins.foldl (· + ·) 0) else none

/-- The voltage trigger: a mean below 51.5 V, or a failed monitor (R412). -/
def Power.vinLow (p : Power) : Bool := p.monFailed || (match p.vinSum with | some n => decide (n < 4 * 5150) | none => false)

/-- The junction trigger. -/
def State.hotJunction (s : State) : Bool := (List.range 65).any (fun r => decide ((s.power.tLean.toNat : Int) ≤ s.junction r))

/-- A trigger of a lean transition holds. -/
def State.leanTrigger (s : State) : Bool :=
  s.hotJunction || (List.range 64).any (fun r => decide (92 ≤ s.dramTemp r)) || s.power.vinLow

/-- The conditions of a return hold. -/
def State.leanReturn (s : State) : Bool :=
  (List.range 65).all (fun r => decide (s.junction r ≤ (s.power.tLean.toNat : Int) - 5)) &&
  (List.range 64).all (fun r => decide (s.dramTemp r ≤ 88)) && !s.power.monFailed &&
  (match s.power.vinSum with | some n => decide (4 * 5250 ≤ n) | none => false)

/-! ### PW_STAT and the alerts (R421, R443) -/

/-- PW_STAT. -/
def State.pwStat (s : State) : Nat :=
  flag s.plan.lean 0 + flag s.power.vinLow 1 + flag s.hotJunction 2 + flag ((List.range 64).any (fun r => (s.region r).hot)) 3 +
  flag (s.power.st == .tripped) 4 + flag ((List.range 194).any s.sensorFailed) 5 + flag s.power.holdup 6 +
  2 ^ 16 * s.furlongLength

/-- PWR_ALERT_N is asserted. -/
def State.pwrAlert (s : State) : Bool := s.power.alert != 0 || s.power.st == .overrun

/-- THERM_ALERT_N is asserted. -/
def State.thermAlert (s : State) : Bool := s.hotJunction || s.power.trip

/-- The unacknowledged share of the record in percent (R366). -/
def Box.fill (b : Box) : Nat := b.bytesFrom b.ack * 100 / 2 ^ 25

/-- BB_STAT.WARN (R363). -/
def Box.warns (b : Box) : Bool := decide (b.warn.toNat * 2 ^ 25 < b.bytesFrom b.ack * 100)

/-- BB_STAT. -/
def Box.stat (b : Box) : Nat := flag b.wrapped 0 + flag b.warns 1 + flag b.torn 2 + 2 ^ 16 * b.fill

/-- ATTN_N is asserted. -/
def State.attn (s : State) : Bool := s.box.warns || s.dex.error

/-! ### Lifecycle, debug and self-test (R383, R384, R389, R398) -/

/-- The debug state. -/
def Dex.debug (d : Dex) : Debug :=
  match d.life with
  | .production => if d.sealedFuse then .sealed else if d.unlocked then .unlocked else .locked
  | _ => .open_

/-- The JTAG code of R389: boundary scan in LOCKED, where it acts while device reset is asserted. -/
def Dex.jtag (d : Dex) : Nat := match d.debug with | .sealed => 0 | .locked => 1 | _ => 2

/-- SE_MODE. -/
def Dex.mode (d : Dex) : Nat := d.life.code + 256 * Debug.code d.debug + 65536 * d.jtag

/-- SE_SELFTEST. -/
def Dex.selftest (d : Dex) : Nat := d.testCode + flag d.testDone 8 + flag d.error 9

/-- Anchors of a kind. -/
def Dex.anchorsOf (d : Dex) (kind : Nat) : Nat := (d.anchors.filter (fun a => a.kind == kind)).length

/-- SE_ANCHORS. -/
def Dex.anchorReg (d : Dex) : Nat := d.anchorsOf 0 + 16 * d.anchorsOf 1 + 128 * d.anchorsOf 2 + 1024 * d.anchorsOf 3

/-- SE_CONF. -/
def State.confReg (s : State) : Nat :=
  listMask (s.present.filter (fun h => (s.hide h).confidential)) +
  2 ^ 16 * listMask ((List.range 16).filter (fun h => (s.hide h).k.tsp == .run))

/-! ### Screening registers (R365) -/

/-- The least spare count and the lowest cluster that has it; clusters without an entry have four. -/
def State.spareMin (s : State) : Nat :=
  let least := s.clusters.foldl (fun n c => min n c.2.spares) 4
  let which := if least = 4 then 0 else match s.clusters.find? (fun c => c.2.spares == least) with | some c => c.1 | none => 0
  which + 2 ^ 16 * least

/-- Is a cluster outside the variant in force: switched out, in a region that is, or without a ream. -/
def State.clusterOut (s : State) (c : Nat) : Bool :=
  (s.cluster c).excluded || (s.region (c / 64)).excluded || !s.reamActive

/-- SC_CL_STAT of a cluster. -/
def State.clusterReg (s : State) (c : Nat) : Nat :=
  let k := s.cluster c
  (k.heldOut.getD 0x7F) + flag (s.clusterOut c) 7 + 2 ^ 16 * k.spares + 2 ^ 24 * k.failed.length

end Sys2Proof.Machine
end

