-- ==== Sys2Proof/Machine/Power.lean ====
section
/-!
DEFINITION. Power-up, power loss, device reset, the supply and temperature samples, lean requests and the clock monitors
(R31, R32, R395, R396, R399 to R411, R441, R444).

The body of a POWER record holds a kind and a value: 1 lean entered and 2 lean left (furlong length), 3 VIN high and
5 monitor failed (VIN), 4 over the envelope (W), 6 thermal trip (sensor), 7 power loss (cause of R411). The body of a
RESET record of the device holds level 1, the cause, the step of R400 reached, the step that overran, and the straps
whose samples disagreed. A FAULT record of a clock or a late mark has check 13, which is no row of R340 (assumption 7).
-/

namespace Sys2Proof.Machine
open Sys2Proof

/-! ### Device reset (R410, R411) -/

/-- A device reset: everything volatile takes its reset value; the stores, the fuses, the plan floor, BB_ACK and the session
counter stay, and firmware of the inactive bank and an accepted debug token take effect (R384, R417). -/
def State.deviceReset (s : State) (cause : Nat) : State :=
  { State.reset with
    power := { Power.reset with
      st := if s.power.holdup then .ready else .standby
      step := s.power.step, overrun := s.power.overrun, holdup := s.power.holdup, cause := cause, trip := s.power.trip
      ticks := s.power.ticks }
    resetPin := s.resetPin
    gates := { Gates.reset with sent := s.gates.sent }
    dex := { Dex.reset with
      life := s.dex.life, sealedFuse := s.dex.sealedFuse, unlocked := s.dex.unlockNext, anchors := s.dex.anchors
      planFloor := s.dex.planFloor, dexFw := s.dex.dexNext.getD s.dex.dexFw, mgmtFw := s.dex.mgmtNext.getD s.dex.mgmtFw
      draws := s.dex.draws, identityGone := s.dex.identityGone }
    mgmt := { Mgmt.reset with
      nextSession := s.mgmt.nextSession, sent := s.mgmt.sent, raw := s.mgmt.raw, straps := s.mgmt.straps
      phyUp := s.mgmt.phyUp }
    box := { s.box with warn := Box.reset.warn }
    screen := { Screen.reset with package := s.screen.package, nextPackage := s.screen.nextPackage }
    tap := s.tap
    free := s.free
    pending := s.pending }

/-! ### Power-up (R400) -/

/-- STANDBY_START: the standby regulator starts the always-on domain, and the hold-up bank charges. -/
def standbyStart (s : State) : State :=
  if s.power.st == .off || s.power.st == .lost then
    { s with power := { s.power with st := .standby, step := 0, holdup := false, cause := 1 } }
  else s

def execStandbyStart (s : State) : Host.Outcome State Fault Refusal := .next (standbyStart s)

/-- HOLDUP_OK: the hold-up bank is charged, and step 1 ends. -/
def holdupOk (s : State) : State :=
  match s.power.st with
  | .off => s
  | .standby => { s with power := { s.power with st := .ready, step := 1, holdup := true } }
  | .lost => { s with power := { s.power with st := .ready, step := 1, holdup := true } }
  | _ => { s with power := { s.power with holdup := true } }

def execHoldupOk (s : State) : Host.Outcome State Fault Refusal := .next (holdupOk s)

/-- The straps from three samples: one whose samples disagree takes its open value, 1 (R412, R442). -/
def strapValue (a b c : BitVec 6) : BitVec 6 := (a ||| (b ^^^ c) ||| (a ^^^ b))
/-- The straps whose samples disagree. -/
def strapDiffers (a b c : BitVec 6) : BitVec 6 := (a ^^^ b) ||| (b ^^^ c)

/-- A record found torn at power-up (R363): its SEQ is not used again. -/
def State.tornRecord (s : State) (torn : Bool) : State :=
  let s := { s with box := { s.box with torn := torn } }
  if torn then
    ({ s with box := { s.box with next := s.box.next + 1 } }).record recTorn (agent 15) 0xFF [s.box.next, s.box.next]
  else s

/-- The session root and the hide roots of a power cycle (R372). -/
def State.drawRoots (s : State) : State :=
  let (s, r) := s.draw
  let s := { s with dex := { s.dex with sessionRoot := r } }
  forAll s (List.range 16) (fun s h => let (s, r) := s.draw; s.upK h (fun k => { k with root := r }))

/-- The records of a boot: one found torn, after a loss of power, and the RESET record (R363, R411, R412). -/
def State.bootRecords (s : State) (straps : BitVec 6) (torn : Bool) : State :=
  let s := if s.power.cause = 2 ∨ s.power.cause = 4 then s else s.tornRecord torn
  s.record recReset (agent 15) 0xFF [1, s.power.cause, s.power.step, s.power.overrun, straps.toNat]

/-- Test 0x06 apart, a test of R395 has failed. -/
def testFails (code : BitVec 8) : Bool := code != 0 && code != 6

/-- The device runs: the straps are taken, and the self-tests leave their result (R395, R400). -/
def State.bootRun (s : State) (straps : BitVec 6) (code : BitVec 8) (xtsFail : BitVec 64) : State :=
  { s with
    power := { s.power with st := .running, step := 6, overrun := 0, trip := false }
    resetPin := false
    tap := match s.tap.inst with
      | .samplePreload => Tap.reset
      | .extest => Tap.reset
      | .acTest => Tap.reset
      | _ => s.tap
    dex := { s.dex with
      testCode := if testFails code then code.toNat else if xtsFail ≠ 0 then 6 else 0
      testDone := true
      error := testFails code }
    mgmt := { s.mgmt with straps := straps, releaseTick := s.power.ticks } }

/-- The regions that test 0x06 fails (R395). -/
def State.failTested (s : State) (xtsFail : BitVec 64) : State :=
  forAll s (maskList 64 xtsFail.toNat) (fun s r => s.upRegion r (fun x => { x with failed := true, xtsFail := true }))

/-- Every league port begins its training. -/
def State.trainAll (s : State) : State := forAll s (List.range 8) (fun s p => s.train p 1)

/-- RESET_RELEASE: the straps are sampled, and steps 3 to 6 run: rails, zero-fill, self-tests (`testCode` is the first test of
R395 that fails, test 0x06 apart, whose regions are `xtsFail`), and management. -/
def resetRelease (s0 s1 s2 : BitVec 6) (testCode : BitVec 8) (xtsFail : BitVec 64) (torn : Bool) (s : State) : State :=
  if s.power.st != .ready || !s.power.holdup then s
  else
    ((((s.bootRecords (strapDiffers s0 s1 s2) torn).bootRun (strapValue s0 s1 s2) testCode xtsFail).drawRoots).failTested
      xtsFail).trainAll

def execResetRelease (s0 s1 s2 : BitVec 6) (testCode : BitVec 8) (xtsFail : BitVec 64) (torn : Bool) (s : State) :
    Host.Outcome State Fault Refusal := .next (resetRelease s0 s1 s2 testCode xtsFail torn s)

/-- POWER_UP_STEP_OVERRUN: a step exceeds its limit, and the device is held in reset. Step 2 has no limit. -/
def stepOverrun (step : Nat) (s : State) : State :=
  if (s.power.st == .standby && step == 1) || (s.power.st == .ready && decide (3 ≤ step)) then
    { s with power := { s.power with st := .overrun, step := step - 1, overrun := step } }
  else s

def execPowerUpStepOverrun (step : Nat) (s : State) : Host.Outcome State Fault Refusal := .next (stepOverrun step s)

/-! ### Power loss (R401) and RESET_N -/

/-- The power-loss sequence, with the cause of the device reset that follows it. -/
def State.loseSupply (s : State) (cause : Nat) : State :=
  match s.power.st with
  | .off => s
  | .lost => s
  | st =>
    let s := if st == .standby || st == .ready then s else s.record recPower (agent 15) 0xFF [7, cause]
    let s := s.deviceReset cause
    { s with power := { s.power with st := .lost, holdup := false } }

/-- POWER_LOSS: PWRGD_IN deasserts, or VIN stays below 48.0 V for 2 µs. -/
def powerLoss (byVin : Bool) (s : State) : State := s.loseSupply (if byVin then 6 else 3)
def execPowerLoss (byVin : Bool) (s : State) : Host.Outcome State Fault Refusal := .next (powerLoss byVin s)

/-- PROTECTIVE_SHUTDOWN: VIN stays above 63.0 V for 10 µs (R399). -/
def protectiveShutdown (s : State) : State := s.loseSupply 5
def execProtectiveShutdown (s : State) : Host.Outcome State Fault Refusal := .next (protectiveShutdown s)

/-- RESET_N: an assertion is recognised (R410, R412). A device that is in reset already stays there. -/
def resetN (s : State) : State :=
  match s.power.st with
  | .off => s
  | .running => { (s.deviceReset 2) with resetPin := true }
  | .tripped => { (s.deviceReset 2) with resetPin := true }
  | .overrun => { (s.deviceReset 2) with resetPin := true }
  | _ => { s with resetPin := true }

def execResetN (s : State) : Host.Outcome State Fault Refusal := .next (resetN s)

/-! ### Lean requests (R405, R406) -/

/-- What a sample means for the lean state: a request to the plan controller, and how long the return conditions have
held. Without an active ream there is no lean furlong. -/
def State.judge (s : State) : State :=
  if !s.reamActive then s
  else
    let hot := s.leanTrigger
    let p := s.plan
    let told (w : Switch) : Bool := p.notices.any (fun n => n.2 == w)
    let on := (!p.lean || told (.lean false)) && !(told (.lean true))
    let s := { s with plan := { p with
      coolFrom := if s.leanReturn then some (p.coolFrom.getD s.abs) else none
      triggers := if hot then p.triggers.filter (· != .lean false) else p.triggers } }
    if hot && on then s.trigger (.lean true) else s

/-- LEAN_RETURN_COUNT: the return conditions have held for 2^16 furlongs, after at least 2^16 lean furlongs. -/
def leanReturnCount (s : State) : State :=
  let p := s.plan
  let due := match p.coolFrom with | some c => decide (c + 2 ^ 16 ≤ s.abs) | none => false
  if s.reamActive && p.lean && due && decide (p.leanFrom + 2 ^ 16 ≤ s.abs) && !(p.notices.any (fun n => n.2 == .lean false)) then
    s.trigger (.lean false)
  else s

def execLeanReturnCount (s : State) : Host.Outcome State Fault Refusal := .next (leanReturnCount s)

/-! ### VIN and IIN (R399, R401, R412) -/

/-- Set an alert bit, with a POWER record when it was clear. -/
def State.setAlert (s : State) (i kind value : Nat) : State :=
  if s.power.alert.getLsbD i then s
  else
    let s := { s with power := { s.power with alert := s.power.alert ||| BitVec.ofNat 32 (2 ^ i) } }
    s.record recPower (agent 15) 0xFF [kind, value]

/-- Mean power in W of sums of 10 mV × 10 mA. -/
def meanWatts (sum count : Nat) : Nat := if count = 0 then 0 else sum / (count * 10000)

/-- Add a sample to the power means. -/
def Power.measure (p : Power) (now : Nat) (vin iin : Nat) : Power :=
  let pows := (p.pows.filter (fun x => decide (now < x.1 + 2 ^ 10)) ++ [(now, vin * iin)])
  let pows := pows.drop (pows.length - 256)
  let p := { p with
    pows := pows
    watts := meanWatts (pows.foldl (fun n x => n + x.2) 0) pows.length
    longSum := p.longSum + vin * iin
    longCount := p.longCount + 1 }
  if p.longStart + 2 ^ 16 ≤ now then
    { p with longWatts := meanWatts p.longSum p.longCount, longSum := 0, longCount := 0, longStart := now }
  else p

/-- The microseconds of `n` always-on ticks (R409). -/
def tickMicros (n : Nat) : Nat := n * 15625 / 512

/-- One always-on tick: lease terms and the real-time clock (R298, R409). -/
def State.tick (s : State) : State :=
  let n := s.power.ticks
  let s := { s with
    power := { s.power with ticks := n + 1 }
    mgmt := if s.mgmt.rtcSet then { s.mgmt with rtc := s.mgmt.rtc + BitVec.ofNat 64 (tickMicros (n + 1) - tickMicros n) } else s.mgmt }
  { s with hides := s.hides.map (fun (x : Nat × HideSt) => (x.1, { x.2 with
    a := { x.2.a with slots := x.2.a.slots.map (fun (p : Nat × LeaseSlot) =>
      (p.1, if p.2.live then { p.2 with remain := p.2.remain - 1 } else p.2)) } })) }

/-- VIN_SAMPLE: one sample of VIN (10 mV) and of the input current (10 mA) at a tick of the always-on clock. A sample outside
0 to 70 V or 0 to 80 A is a failed monitor's. -/
def vinSample (vin iin : BitVec 16) (s : State) : State :=
  if s.power.st == .off then s
  else
    let s := s.tick
    let s := { s with power := { s.power with vin := vin, iin := iin } }
    if 7000 < vin.toNat ∨ 8000 < iin.toNat then
      (({ s with power := { s.power with monFailed := true } }).setAlert 2 5 vin.toNat).judge
    else
      let s := { s with power := { s.power with monFailed := false, vins := (vin.toNat :: s.power.vins).take 4 } }
      let s := if 6100 < vin.toNat then s.setAlert 0 3 vin.toNat else s
      let s := if s.up then { s with power := s.power.measure s.abs vin.toNat iin.toNat } else s
      let s := if 2400 < s.power.watts then s.setAlert 1 4 s.power.watts else s
      s.judge

def execVinSample (vin iin : BitVec 16) (s : State) : Host.Outcome State Fault Refusal := .next (vinSample vin iin s)

/-- MONITOR_FAIL: three ticks pass without a sample (R412). -/
def monitorFail (s : State) : State :=
  if s.power.st == .off then s
  else (({ s with power := { s.power with monFailed := true } }).setAlert 2 5 s.power.vin.toNat).judge

def execMonitorFail (s : State) : Host.Outcome State Fault Refusal := .next (monitorFail s)

/-! ### Thermal trip (R404) -/

/-- Every ACTIVE or SEALED lease slot closes with DEVICE_FAULT. -/
def State.closeAllLeases (s : State) (l : List Nat) (o : Origin) : State :=
  forAll s l (fun s h =>
    forAll s (((s.hide h).a.slots.filter (fun p => p.2.live)).map (·.1)) (fun s n => s.closeSlot h n stDeviceFault o false))

/-- A trip of a compute die: orders end, leases close, and the compute-die rails go off. No furlong boundary follows, so a hide
reset that waits for one goes on at once (R369). -/
def State.thermalTrip (s : State) (sensor : Nat) : State :=
  let s := s.record recPower (agent 15) 0xFF [6, sensor]
  let l := s.present
  let s := forAll s l (fun s h => s.endAll h stDeviceFault)
  let s := s.deviceEvent
  let s := s.closeAllLeases (List.range 16) (agent 15)
  let s := { s with power := { s.power with st := .tripped, trip := true } }
  forAll s (List.range 16) (fun s h => match (s.hide h).k.phase with
    | .start => s.beginEnding h
    | .reload => s.reload h
    | _ => s)

/-- A trip, wherever its sensor lies. -/
def State.tripAt (s : State) (sensor : Nat) : State :=
  if 192 ≤ sensor then
    let s := s.record recPower (agent 15) 0xFF [6, sensor]
    let s := s.loseSupply 7
    { s with power := { s.power with trip := true } }
  else s.thermalTrip sensor

/-! ### Temperature sensors (R402, R403) -/

/-- The level at which a sensor trips. -/
def tripLevel (k : Nat) : Int := if k < 192 ∧ k % 3 = 2 then 100 else 110

/-- One reading of a sensor. A valid reading ends a failure. -/
def Sensor.read (x : Sensor) (k : Nat) (t : Int) : Sensor :=
  if -40 ≤ t ∧ t ≤ 150 then { value := t, bad := 0, failed := false, trip := decide (tripLevel k ≤ t) }
  else { x with bad := x.bad + 1, failed := x.failed || decide (3 ≤ x.bad + 1) }

/-- The DRAM temperature flag after a reading (R403). -/
def hotFlag (was : Bool) (t : Int) : Bool := if 85 < t then true else if t ≤ 83 then false else was

/-- Does a reading trip: at the level in two samples in a row. -/
def Sensor.trips (x : Sensor) (k : Nat) (t : Int) : Bool := x.trip && decide (tripLevel k ≤ t) && decide (t ≤ 150)

/-- SENSOR_SAMPLE: the always-on domain has read the sensors. -/
def sensorSample (readings : List (Nat × Int)) (s : State) : State :=
  if s.power.st == .off then s
  else
    let tripping := readings.filter (fun r => (s.sensor r.1).trips r.1 r.2)
    let s := { s with sensors := readings.foldl (fun m r => amapUp Sensor.reset m r.1 (fun x => x.read r.1 r.2)) s.sensors }
    let s := forAll s (List.range 64) (fun s r =>
      let hot := hotFlag (s.region r).hot (s.dramTemp r)
      if hot == (s.region r).hot then s else s.upRegion r (fun x => { x with hot := hot }))
    let s := s.judge
    match tripping.find? (fun r => decide (192 ≤ r.1)), tripping, s.power.st with
    | some r, _, .running => s.tripAt r.1
    | some r, _, .tripped => s.tripAt r.1
    | none, r :: _, .running => s.tripAt r.1
    | _, _, _ => s

def execSensorSample (readings : List (Nat × Int)) (s : State) : Host.Outcome State Fault Refusal := .next (sensorSample readings s)

/-- SENSOR_TIMEOUT: no reading for 10 ms. -/
def sensorTimeout (k : Nat) (s : State) : State :=
  if s.power.st == .off then s
  else
    let s := { s with sensors := amapUp Sensor.reset s.sensors k (fun x => { x with failed := true, trip := false }) }
    let s := if k < 192 ∧ k % 3 = 2 then s.upRegion (k / 3) (fun x => { x with hot := hotFlag x.hot 92 }) else s
    s.judge

def execSensorTimeout (k : Nat) (s : State) : Host.Outcome State Fault Refusal := .next (sensorTimeout k s)

/-! ### Clock monitors (R32, R407 to R409) -/

/-- The always-on clock is lost: leases close, and the temperature inputs count as failed (R409). -/
def State.loseAon (s : State) : State :=
  ({ s with clocks := { s.clocks with aonLost := true } }).closeAllLeases (List.range 16) (agent 6)

/-- What the loss of one reference does (R407), by its bit in CK_STAT. -/
def State.loseClock (s : State) (i : Nat) : State :=
  let s := s.record recFault (agent 6) 0xFF [13, i, 1, 0]
  if i = 0 then s.linkDown
  else if i < 5 then
    forAll s ((List.range 16).map (16 * (i - 1) + ·)) (fun s r => (s.upRegion r (fun x => { x with lockLost := true })).failRegion r 13)
  else if i < 9 then (s.portDown (2 * (i - 5))).portDown (2 * (i - 5) + 1)
  else if i = 9 then { s with mgmt := { s.mgmt with portDown := true } }
  else s.loseAon

/-- CLOCK_MONITOR_WINDOW: a window of 2^20 IO-core cycles ends; `bad` holds the references absent or off, in the order of
CK_STAT. Two windows in a row lose a reference. -/
def clockWindow (bad : BitVec 11) (s : State) : State :=
  if !s.ioUp then s
  else
    let lost := bad &&& (s.clocks.bad ||| s.clocks.lost)
    let new := lost &&& ~~~s.clocks.lost
    let s := { s with
      clocks := { s.clocks with bad := bad, lost := lost, seen := true }
      mgmt := if lost.getLsbD 9 then s.mgmt else { s.mgmt with portDown := false } }
    forAll s (maskList 11 new.toNat) State.loseClock

def execClockMonitorWindow (bad : BitVec 11) (s : State) : Host.Outcome State Fault Refusal := .next (clockWindow bad s)

/-- A deviation as CK_PPM holds it: 0.1 ppm units, limited to 16 bits. -/
def ppmReg (d : Int) : BitVec 16 := BitVec.ofInt 16 (max (-32768) (min 32767 d))

/-- REGION_CLOCK_WINDOW: the deviations of the regions' counts from the median, in 0.1 ppm (R32). -/
def regionWindow (ppm : List (Nat × Int)) (s : State) : State :=
  if s.power.st != .running then s
  else ppm.foldl (fun s p =>
    let out := decide (p.2 < -2500) || decide (2500 < p.2)
    let s := s.upRegion p.1 (fun x => { x with ppm := ppmReg p.2, strikes := if out then x.strikes + 1 else 0 })
    if 2 ≤ (s.region p.1).strikes then s.failRegion p.1 13 else s) s

def execRegionClockWindow (ppm : List (Nat × Int)) (s : State) : Host.Outcome State Fault Refusal := .next (regionWindow ppm s)

/-- PLL_LOSS_OF_LOCK: a region's PLL reports loss of lock. -/
def pllLoss (r : Nat) (s : State) : State :=
  if s.power.st != .running then s
  else (s.upRegion r (fun x => { x with lockLost := true })).failRegion r 13

def execPllLossOfLock (r : Rgn) (s : State) : Host.Outcome State Fault Refusal := .next (pllLoss r s)

/-! ### The security-error state (R395, R396) -/

/-- The code of the tests of random bits (R395). -/
def testEntropy : Nat := 4

/-- The device enters the security-error state, in which no session goes on and no load stays open. -/
def State.securityError (s : State) (code : Nat) : State :=
  { s with
    dex := { s.dex with error := true, testCode := code }
    mgmt := { s.mgmt with
      sessions := []
      loads := s.mgmt.loads.map (fun l => if l.st = 4 then { l with st := 2 } else l) } }

/-- ENTROPY_HEALTH_FAIL: a continuous test of the entropy source fails. -/
def entropyFail (s : State) : State := if s.up then s.securityError testEntropy else s

def execEntropyHealthFail (s : State) : Host.Outcome State Fault Refusal := .next (entropyFail s)

end Sys2Proof.Machine
end

