-- ==== Sys2Proof/Machine/Furlong.lean ====
section
/-!
DEFINITION. Furlongs of the regions and their marks (R30, R31, R43), the boundary work of the device (R46, R59, R62, R63,
R69 to R73, R354, R369), and the activation of a ream.

The device's boundary is the moment at which the first region starts the next furlong: what the spec places at the
first cycle of each region's lap chain happens then, once, for every region.
-/

namespace Sys2Proof.Machine
open Sys2Proof

/-! ### Regions and their neighbours (R24, R25, R30) -/

/-- The regions that a region has a mesh link or a bridge to another compute die with (R24, R25). -/
def neighbours (r : Nat) : List Nat :=
  let d := r / 16
  let row := r % 16 / 4
  let col := r % 4
  (if 0 < row then [r - 4] else []) ++ (if row < 3 then [r + 4] else []) ++
  (if 0 < col then [r - 1] else []) ++ (if col < 3 then [r + 1] else []) ++
  (if d % 2 = 0 ∧ col = 3 then [r + 13] else []) ++ (if d % 2 = 1 ∧ col = 0 then [r - 13] else [])

/-- Is a region live: named by the plan, not switched out, not in its maintenance furlong; every region while no ream is
active (R34). -/
def State.liveNow (s : State) (r : Nat) : Bool :=
  !(s.plan.ream.isSome) || (s.planned r && !(s.region r).excluded && !(s.region r).maint)

/-- The live neighbours of a region. -/
def State.waitsFor (s : State) (r : Nat) : List Nat := (neighbours r).filter s.liveNow

/-- The furlong that the device is in: of the plan, or of the boot schedule. -/
def State.furlongNow (s : State) : Nat := if s.plan.ream.isSome then s.plan.furlong else s.plan.base

/-- Do furlongs run. -/
def State.runs (s : State) : Bool := s.power.st == .running

/-- FURLONG_COUNTER_COMPLETE: a region's counter completes its furlong, and its marks go out. -/
def counterComplete (r : Nat) (s : State) : State :=
  if s.runs && s.liveNow r then s.upRegion r (fun x => { x with done := true }) else s

def execFurlongCounterComplete (r : Rgn) (s : State) : Host.Outcome State Fault Refusal := .next (counterComplete r s)

/-- Has a region sent its mark for a furlong. -/
def Region.sentMark (x : Region) (m : Nat) : Bool := decide (m < x.index.toNat) || (x.index.toNat == m && x.done)

/-- BOUNDARY_MARK: a mark arrives at region `r` from a neighbour and is counted toward the furlong that it names (R43); a mark
of an earlier furlong counts toward none. -/
def boundaryMark (r src : Nat) (low : BitVec 8) (s : State) : State :=
  let x := s.region r
  let n := x.index.toNat
  let y := s.region src
  if !s.runs || !(s.liveNow r) || !((s.waitsFor r).contains src) then s
  else if low.toNat = n % 256 ∧ y.sentMark n then
    if x.marks.contains src then s else s.upRegion r (fun x => { x with marks := x.marks ++ [src] })
  else if low.toNat = (n + 1) % 256 ∧ y.sentMark (n + 1) then
    if x.early.contains src then s else s.upRegion r (fun x => { x with early := x.early ++ [src] })
  else s

def execBoundaryMark (r src : Rgn) (low : BitVec 8) (s : State) : Host.Outcome State Fault Refusal :=
  .next (boundaryMark r src low s)

/-! ### Variants (R72, R294, R354) -/

/-- The section types of the degraded variants (R49). -/
def typCluster : Nat := 0x21
def typRegion : Nat := 0x22

/-- Does the ream list a variant. -/
def State.hasVariant (s : State) (kind index : Nat) : Bool :=
  match s.plan.ream with
  | some r => r.variants.any (fun v => v.kind == kind && v.index == index)
  | none => false

/-- The hides with a share of a region. -/
def State.sharing (s : State) (r : Nat) : List Nat :=
  s.present.filter (fun h => match (s.hide h).lay with | some e => bit e.regions r | none => false)

/-- The packet of PLAN_DEGRADED (R267): the capacities stand one after another. -/
def degradedEvent (furlong kind index : Nat) (x : HideSt) : List (List Byte) :=
  let caps := (List.range 9).flatMap (fun c => leBytes 4 (bits (x.plClass.getD c 0).toNat 0 24))
  [eventEntry evPlanDegraded furlong (leBytes 2 kind ++ leBytes 2 index), eventEntry evPlanDegraded furlong (caps.take 16),
    eventEntry evPlanDegraded furlong ((caps.drop 16).take 16), eventEntry evPlanDegraded furlong (caps.drop 32)]

/-- A variant is in force: the hides' slots and figures follow it, and the hides that share the region are told. -/
def State.putVariant (s : State) (kind index : Nat) : State :=
  let r := variantRegion (kind, index)
  let vs := s.plan.variants.filter (fun v => variantRegion v != r) ++ [(kind, index)]
  let s := { s with plan := { s.plan with variants := vs } }
  let s := forAll s s.present (fun s h => s.upHide h (fun x => x.applyVariants vs))
  let told := s.sharing r
  let s := forAll s told (fun s h => s.postEvent h (degradedEvent s.plan.furlong kind index (s.hide h)))
  s.record recVariant (agent 1) r [kind, index, listMask told]

/-- The acres of a region that is switched out (R294). -/
def State.loseAcres (s : State) (r : Nat) : State :=
  let s := forAll s ((List.range 6).map (6 * r + ·)) (fun s a => s.upAcre a (fun x => { x with gone := true, free := false }))
  forAll s (List.range 16) (fun s h =>
    forAll s (((s.hide h).a.slots.filter (fun p => p.2.live && p.2.acre / 6 == r)).map (·.1))
      (fun s n => s.closeSlot h n stDeviceFault (agent 1) false))

/-- A region is switched out by its variant, or, for want of one, R31 applies. -/
def State.switchRegion (s : State) (r : Nat) : State :=
  if (s.region r).excluded || !(s.planned r) then s
  else if s.hasVariant typRegion r then
    let s := s.upRegion r (fun x => { x with excluded := true, maint := false, done := false, marks := [], early := [] })
    (s.putVariant typRegion r).loseAcres r
  else
    let s := { s with plan := { s.plan with stopped := true } }
    (forAll s (s.sharing r) (fun s h => s.endFlights h stDeviceFault)).deviceEvent

/-- A cluster is switched out (R72). -/
def State.switchCluster (s : State) (c : Nat) : State :=
  let r := c / 64
  if (s.region r).excluded || (s.cluster c).excluded || !(s.planned r) then s
  else if (s.region r).degraded.isNone && s.hasVariant typCluster c then
    let s := s.upRegion r (fun x => { x with degraded := some c })
    (s.upCluster c (fun k => { k with excluded := true })).putVariant typCluster c
  else s.switchRegion r

/-- One logical slot takes another unit (R354): the new unit, and whether the held-out unit's test ends. -/
def ClusterSt.remapSlot (k : ClusterSt) : Option (Nat × Bool) :=
  match k.idleUnit with
  | some u => some (u, false)
  | none => match k.heldOut with
    | some u => if k.passing then some (u, true) else none
    | none => none

/-- The failed units of a cluster leave the map (R354); where no spare is left, the cluster is switched out. -/
def State.remapCluster (s : State) (c : Nat) : State :=
  let slots := (s.cluster c).remap
  let s := s.upCluster c (fun k => { k with remap := [] })
  let s := forAll s slots (fun s i =>
    let k := s.cluster c
    match k.remapSlot with
    | some (u, held) =>
      let s := s.upCluster c (fun k => { k with map := k.map.set i u, heldOut := if held then none else k.heldOut })
      s.record recSpare (agent 1) (c / 64) [c, i, k.unit i, u, (s.cluster c).spares]
    | none => s.switchCluster c)
  s.upCluster c (fun k => if k.spares = 0 then { k with heldOut := none } else k)

/-! ### Lean and maintenance (R70, R71, R355) -/

/-- The LEAN event of every hide (R70). -/
def State.leanEvent (s : State) : State :=
  let len := s.furlongLength
  forAll s s.present (fun s h => s.postEvent h [eventEntry evLean s.plan.furlong (leBytes 2 len)])

/-- A lean transition or a return takes effect. -/
def State.switchLean (s : State) (on : Bool) : State :=
  if s.plan.lean = on then s
  else
    let s := { s with
      plan := { s.plan with lean := on, leanFrom := if on then s.abs else s.plan.leanFrom, coolFrom := none }
      power := { s.power with leanCount := if on then satInc s.power.leanCount else s.power.leanCount } }
    let s := s.record recPower (agent 15) 0xFF [if on then 1 else 2, s.furlongLength]
    s.leanEvent

/-- The tile-buffer lines of a region's clusters lose their data (R355). -/
def State.clearRegion (s : State) (r : Nat) : State :=
  { s with clusters := s.clusters.map (fun (c : Nat × ClusterSt) => if c.1 / 64 = r then (c.1, { c.2 with valid := [] }) else c) }

/-- The maintenance furlongs that end at a boundary; the region goes on to its next stress point. -/
def State.endMaintenance (s : State) : State :=
  let points := match s.screen.package with | some p => p.points.length | none => 0
  forAll s ((List.range 64).filter (fun r => (s.region r).maint)) (fun s r =>
    (s.clearRegion r).upRegion r (fun x => { x with maint := false, point := if points = 0 then 0 else (x.point + 1) % points }))

/-- The region whose maintenance furlong index `i` is; with MAINT_EXP 0, region 0 at every index (R71). -/
def maintainAt (p i : Nat) : Option Nat :=
  if p = 0 then some 0
  else if i % 2 ^ (p - 6) = 0 then some (i % 2 ^ p / 2 ^ (p - 6)) else none

/-- A maintenance furlong that is due is run, or skipped and counted. -/
def State.maintain (s : State) (r : Nat) : State :=
  let p := match s.plan.ream with | some m => m.header.maintExp | none => 0
  let x := s.region r
  if !(s.planned r) then s
  else if p = 0 ∨ x.excluded ∨ x.degraded.isSome then { s with plan := { s.plan with maintSkip := satInc s.plan.maintSkip } }
  else
    let s := s.upRegion r (fun x => { x with maint := true, done := false, marks := [], early := [] })
    { s with plan := { s.plan with maintRun := satInc s.plan.maintRun } }

/-! ### Sections and reams take effect (R59, R62, R63) -/

/-- Queued orders are checked again against the generation in force (R63). -/
def State.recheck (s : State) (h : Nat) : State :=
  let x := s.hide h
  let stale := (x.q.dispatch ++ x.q.queue).filter (fun o => o.early.isNone && genFails x o)
  let gone (l : List Order) : List Order := l.filter (fun o => !(stale.any (fun p => p.seq == o.seq)))
  let s := s.upHide h (fun x => { x with
    q := { x.q with dispatch := gone x.q.dispatch, queue := gone x.q.queue }
    o := { x.o with
      lane := x.o.lane.filter (fun n => !(stale.any (fun p => p.seq == n)))
      dmas := (stale.filterMap (·.tokens)).foldl AMap.erase x.o.dmas } })
  stale.foldl (fun s o => (s.dropFetches h o.seq).endTaken h o stPlanMismatch 0 []) s

/-- The eight words of a digest, for a record's body. -/
def digestWords (d : Nat) : List Nat := (List.range 8).map (fun i => bits d (32 * i) 32)

/-- A hide takes a section: its registers follow, its buckets are full, its intake and admission go on. -/
def HideSt.install (x : HideSt) (k : Section) (vs : List (Nat × Nat)) : HideSt :=
  let x : HideSt := { x with
    sec := some k
    staged := none
    q := { (x.q.fill (some k)) with noIntake := false, noAdmit := false, drainFrom := none, used := [] } }
  x.applyVariants vs

/-- A replacement section takes effect (R62). -/
def State.installSection (s : State) (h : Nat) : State :=
  match (s.hide h).staged with
  | none => s
  | some st =>
    let o := match s.mgmt.loads.find? (fun l => l.number == st.load) with | some l => l.origin s | none => agent 1
    let s := s.tspError h o
    let s := s.upHide h (fun x => { (x.install st.sec s.plan.variants) with loadStat := { x.loadStat with result := 0, st := 2 } })
    let s := s.invalidate h
    let s := s.upHide h (fun x => { x with o := { x.o with figures := x.figuresNow } })
    let s := s.upLoad st.load (fun l => { l with st := 1, furlong := s.plan.furlong })
    let s := s.config o cfgSection 0 (digestWords st.sec.digest) h
    s.deviceEvent.recheck h

/-- One boundary of a staged section. `busy` says whether the hide had an order in flight when the furlong ended. -/
def State.sectionStep (s : State) (due : Bool) (busy : Bool) (h : Nat) : State :=
  let x := s.hide h
  match x.staged with
  | none => s
  | some st =>
    if x.k.phase ≠ .idle ∧ x.k.phase ≠ .start then s
    else if st.stage = 0 then
      if !due then s
      else
        let s := s.upHide h (fun x => { x with
          q := { x.q with noIntake := true, noAdmit := true, drainFrom := some s.plan.furlong }
          staged := some { st with stage := if st.abort then 2 else 1 } })
        if st.abort then s.endFlights h stPlanMismatch
        else if busy then s
        else s.installSection h
    else if st.stage = 1 then (if busy then s else s.installSection h)
    else s.installSection h

/-- What a table holds of generations before an activation counts as older than every later one. -/
def OPart.rebase (o : OPart) : OPart :=
  { o with
    frames := o.frames.map (fun (f : Nat × Frame) => (f.1, { f.2 with waiting := f.2.waiting.map (fun _ => 0) }))
    lookups := []
    tab := { o.tab with
      gen := 0
      seqs := o.tab.seqs.map (fun (q : Nat × Seq) => (q.1, { q.2 with gen := 0 }))
      pfxs := o.tab.pfxs.map (fun (p : Nat × Pfx) => (p.1, { p.2 with gen := 0 }))
      sets := o.tab.sets.map (fun (w : Nat × WSet) => (w.1, { w.2 with gen := 0 }))
      exts := o.tab.exts.map (fun (e : Nat × Extent) => (e.1, { e.2 with waiting := e.2.waiting.map (fun _ => 0) })) } }

/-- The parts of a range that lie outside another, as (first, count). -/
def rangeLess (a n b m : Nat) : List (Nat × Nat) :=
  let lo := (a, min (a + n) (max a b) - a)
  let c := max a (b + m)
  [lo, (c, a + n - c)].filter (fun p => p.2 != 0)

/-- The flash commands of an activation for one hide (R329): on the first, TRIM of the whole allotment; later, of what
enters it. -/
def State.trimEntering (s : State) (h : Nat) (first : Bool) (old : Option HideEntry) : State :=
  forAll s (List.range 8) (fun s p =>
    let (lba, n) := (s.hide h).allotment p
    let (b, m) := match old with | some e => if first then (0, 0) else e.flash.getD p (0, 0) | none => (0, 0)
    let ps := if m = 0 then [(lba, n)] else rangeLess lba n b m
    ps.foldl (fun s r => s.trimRange h p r.1 r.2) s)

/-- What of a hide's entry only an idle hide may change (R60). -/
def entryFixed (e : HideEntry) : Nat × Nat × List Pool × List Nat × Bool := (e.ld, e.regions, e.pools, e.acres, e.confidential)

/-- One hide at an activation: it keeps its objects unless what only an idle hide may change has changed. -/
def State.activateHide (s : State) (m : Ream) (first : Bool) (h : Nat) : State :=
  let old := (s.hide h).lay
  match m.hides.find? (fun e => e.hide == h), m.sections.find? (fun k => k.hide == h) with
  | some e, some k =>
    let kept := old.map entryFixed == some (entryFixed e)
    let s := s.upHide h (fun x =>
      let x : HideSt := { x with
        lay := some e
        o := if kept then x.o.rebase else { x.o.freed with tab := Tab.empty }
        k := { x.k with tsp := if !e.confidential then .off else if x.k.tsp == .off then .unlocked else x.k.tsp } }
      let x := x.install k []
      { x with o := { x.o with figures := x.figuresNow } })
    (s.trimEntering h first old).recheck h
  | _, _ =>
    if old.isSome then
      (s.endQueued h stNotAdmitted).upHide h (fun x => { x with
        lay := none, sec := none, slots := [], plClass := [], plWait := []
        o := { x.o.freed with tab := Tab.empty }
        q := { x.q with noIntake := false, noAdmit := false, drainFrom := none } })
    else s

/-- Clusters at an activation: switched-out ones return, tile buffers lose their data, and at the first one a unit is held
out (R59, R72, R356). -/
def ClusterSt.activate (first : Bool) (k : ClusterSt) : ClusterSt :=
  let k := { k with excluded := false, valid := [] }
  if !first then k
  else { k with
    heldOut := if k.spares = 0 then none else if k.failed.contains 76 then k.nextHealthy 76 else some 76
    passing := true
    heldSince := 0 }

/-- What still waits for the plan controller under a new ream: hardware that has failed and that the ream uses. -/
def State.failedUnder (s : State) (m : Ream) : List Switch :=
  ((List.range 64).filter (fun r => bit m.header.liveMask r && (s.region r).failed)).map .region ++
  (s.clusters.filter (fun c => bit m.header.liveMask (c.1 / 64) && (c.2.sharedFailed || c.2.spares = 0 && c.2.failed.length > 4))).map (fun c => .cluster c.1) ++
  (s.clusters.filter (fun c => !c.2.remap.isEmpty)).map (fun c => .remap c.1)

/-- A staged ream takes effect in every region at once (R43, R59, R329, R356). -/
def State.activate (s : State) : State :=
  match s.plan.staged with
  | none => s
  | some st =>
    let m := st.ream
    let first := s.plan.activations == 0
    let o := match s.mgmt.loads.find? (fun l => l.number == st.load) with | some l => l.origin s | none => agent 1
    let s := forAll s (List.range 16) (fun s h => s.tspError h o)
    let base := if s.plan.ream.isSome then s.plan.base + s.plan.furlong else s.plan.base
    let s := { s with
      plan := { s.plan with
        ream := some m, staged := none, furlong := 0, base := base, notices := [], variants := [], stopped := false
        activations := satInc s.plan.activations
        triggers := s.plan.triggers.filter (fun w => match w with | .lean _ => true | _ => false) ++ s.failedUnder m
        maintSkip := if bit m.header.liveMask 0 then satInc s.plan.maintSkip else s.plan.maintSkip }
      gates := { s.gates with furlong := 0, vtime := [], finish := [], start := [], waited := [], busy := [] }
      clusters := s.clusters.map (fun (c : Nat × ClusterSt) => (c.1, c.2.activate first))
      regions := s.regions.map (fun (r : Nat × Region) => (r.1, { r.2 with
        index := 0, done := false, marks := [], early := [], maint := false, excluded := false, degraded := none })) }
    let s := if first then forAll s (List.range 8) (fun s p => s.upPort p (fun q => { q with
        first := q.first.filter (fun c => match c with | .erase _ => false | _ => true) ++ (List.range 16).map .erase }))
      else s
    let s := forAll s (List.range 16) (fun s h => s.activateHide m first h)
    let s := forAll s (List.range 8) State.nextFirst
    let s := s.upLoad st.load (fun l => { l with st := 1, furlong := 0 })
    let s := s.config o cfgReam 0 (digestWords m.header.bodyDigest) 0xFF
    let s := if first then s else s.deviceEvent
    if s.plan.lean then s.leanEvent else s

/-- Is nothing in flight on the device, hide resets counted (R59, R370). -/
def State.quiet (s : State) : Bool :=
  (List.range 16).all (fun h => !(s.busy h) && (s.hide h).k.phase == .idle)

/-- One boundary of a staged ream. -/
def State.reamStep (s : State) (due quiet : Bool) : State :=
  match s.plan.staged with
  | none => s
  | some st =>
    if st.stage = 0 then
      if !due then s
      else if s.plan.ream.isNone then s.activate
      else
        let s := { s with plan := { s.plan with staged := some { st with stage := 1 } } }
        let s := forAll s s.present (fun s h => s.upQ h (fun q => { q with
          noIntake := true, noAdmit := true, drainFrom := some s.plan.furlong }))
        if quiet then s.activate else s
    else if quiet then s.activate
    else forAll s s.present (fun s h => s.upQ h (fun q => { q with noIntake := true, noAdmit := true }))

/-! ### The boundary -/

/-- Apply a switch that a notice named for this boundary (R73). -/
def State.switch (s : State) : Switch → State
  | .lean on => s.switchLean on
  | .region r => s.switchRegion r
  | .cluster c => s.switchCluster c
  | .remap c => s.remapCluster c
  | .maintain r => s.maintain r
  | .sect _ => s
  | .ream => s

/-- The order in which switches of one boundary are applied. -/
def Switch.rank : Switch → Nat
  | .lean _ => 0 | .remap _ => 1 | .cluster _ => 2 | .region _ => 3 | .maintain _ => 4 | .sect _ => 5 | .ream => 6

/-- Transfers, fetches and DMA reads for which no order lives any more are forgotten. -/
def HideSt.sweep (x : HideSt) : HideSt :=
  let q := x.q
  let live (n : Nat) : Bool :=
    (q.dispatch ++ q.queue).any (fun o => o.seq == n) || q.flights.any (fun f => f.order.seq == n)
  let dmas := x.o.dmas.filter (fun d => d.2.status.isNone || q.reads d.1 || q.dispatch.any (fun o => o.tokens == some d.1))
  let ended (j : Option Nat) : Bool := match j with
    | none => true
    | some j => match AMap.find x.o.jobs j with | some b => b.status.isSome | none => true
  let fetches := x.o.fetches.filter (fun f => live f.2.order || !(ended f.2.job))
  let jobs := x.o.jobs.filter (fun j =>
    j.2.status.isNone || q.flights.any (fun f => f.jobs.contains j.1) || fetches.any (fun f => f.2.job == some j.1))
  { x with o := { x.o with dmas := dmas, fetches := fetches, jobs := jobs } }

/-- Regions that are not live do not run the furlong that ends; they go on at the index of the one that begins. -/
def State.passRegions (s : State) (n : Nat) : State :=
  { s with regions := s.regions.map (fun (r : Nat × Region) =>
    if s.liveNow r.1 then r else (r.1, { r.2 with index := BitVec.ofNat 48 n, done := false, marks := [], early := [] })) }

/-- Every region of the plan that is not switched out has run a furlong under a ream (R356). -/
def State.countRun (s : State) : State :=
  if s.plan.ream.isNone then s
  else forAll s ((List.range 64).filter (fun r => s.planned r && !(s.region r).excluded)) (fun s r =>
    s.upRegion r (fun x => { x with held := x.held + 1 }))

/-- The device enters furlong `n`; a package that waits takes effect (R359). -/
def State.enterFurlong (s : State) (n : Nat) : State :=
  { s with
    plan := if s.plan.ream.isSome then { s.plan with furlong := n } else { s.plan with base := n }
    screen := match s.screen.nextPackage with
      | some p => { s.screen with package := some p, nextPackage := none }
      | none => s.screen
    mgmt := { s.mgmt with loads := s.mgmt.loads.map (fun (l : Load) => if l.kind = 2 ∧ l.st = 0 then { l with st := 1, furlong := s.plan.furlong + 1 } else l) } }

/-- The lap chains of the hides (R46). -/
def State.lapChains (s : State) (n : Nat) : State :=
  if s.plan.ream.isSome then forAll s s.present (fun s h => (s.lapChain h n).upHide h HideSt.sweep) else s

/-- The hide resets that wait for the boundary go on (R369). -/
def State.resetsGoOn (s : State) : State :=
  forAll s (List.range 16) (fun s h => match (s.hide h).k.phase with
    | .start => s.beginEnding h
    | .reload => s.reload h
    | _ => s)

/-- The switches that notices named for furlong `n`, in the order in which they are applied (R73). -/
def State.dueAt (s : State) (n : Nat) : List Switch :=
  sortBy Switch.rank ((s.plan.notices.filter (fun w => decide (w.1 ≤ n))).map (·.2))

/-- They are applied. -/
def State.applyDue (s : State) (n : Nat) : State :=
  (s.dueAt n).foldl State.switch { s with plan := { s.plan with notices := s.plan.notices.filter (fun w => decide (n < w.1)) } }

/-- The work of the device's furlong boundary: the lap chains of the hides (R46), hide resets (R369), packages (R359), and what
switch notices and staged loads bring (R59, R62, R69 to R73). -/
def State.boundary (s : State) : State :=
  let n := s.furlongNow + 1
  let quiet := s.quiet
  let busy := (List.range 16).filter s.busy
  let s := ((((s.passRegions n).countRun.endMaintenance).enterFurlong n).lapChains n).resetsGoOn
  let due := s.dueAt n
  let s := s.applyDue n
  let s := forAll s s.present (fun s h => s.sectionStep (due.contains (.sect h)) (busy.contains h) h)
  s.reamStep (due.contains .ream) quiet

/-- A region starts its next furlong; the first to do so brings the device's boundary (R30, R43). -/
def State.startFurlong (s : State) (r : Nat) : State :=
  let next := s.furlongNow + 1
  let s := s.upRegion r (fun x => { x with index := x.index + 1, done := false, marks := x.early, early := [] })
  if (s.region r).index = BitVec.ofNat 48 next then s.boundary else s

/-- The neighbours whose marks a region still lacks. -/
def State.missing (s : State) (r : Nat) : List Nat := (s.waitsFor r).filter (fun q => !((s.region r).marks.contains q))

/-- FURLONG_START: the counter has completed, and every live neighbour's mark has arrived. -/
def furlongStart (r : Nat) (s : State) : State :=
  if s.runs && s.liveNow r && (s.region r).done && (s.missing r).isEmpty then s.startFurlong r else s

def execFurlongStart (r : Rgn) (s : State) : Host.Outcome State Fault Refusal := .next (furlongStart r s)

/-- A region's marks were late at a neighbour in this furlong: in 4 of 1,024 furlongs in a row it has failed (R31). -/
def State.lateMark (s : State) (q : Nat) : State :=
  let now := s.abs
  let l := (s.region q).lateAt
  let l := (if l.contains now then l else now :: l).filter (fun f => decide (now < f + 1024))
  let s := s.upRegion q (fun x => { x with lateAt := l })
  if 4 ≤ l.length then s.failRegion q 13 else s

/-- BOUNDARY_LIMIT: the region starts its furlong without every mark, and counts those that are late (R30, R31). -/
def boundaryLimit (r : Nat) (s : State) : State :=
  if !s.runs || !(s.liveNow r) || !(s.region r).done then s
  else
    let late := s.missing r
    let s := s.upRegion r (fun x => { x with late := satAdd x.late late.length })
    (late.foldl State.lateMark s).startFurlong r

def execBoundaryLimit (r : Rgn) (s : State) : Host.Outcome State Fault Refusal := .next (boundaryLimit r s)

/-- SWITCH_NOTICE: the notice slot of the furlong sends what waits, and names the next furlong (R69, R71). -/
def switchNotice (s : State) : State :=
  if !s.runs || s.plan.noticeAt == some s.abs then s
  else
    let n := s.furlongNow + 1
    let m := match s.plan.ream with
      | some r => (match maintainAt r.header.maintExp n with | some g => [Switch.maintain g] | none => [])
      | none => []
    { s with plan := { s.plan with
      notices := s.plan.notices ++ (s.plan.triggers ++ m).map (fun w => (n, w))
      triggers := []
      noticeAt := some s.abs } }

def execSwitchNotice (s : State) : Host.Outcome State Fault Refusal := .next (switchNotice s)

/-- DRAIN_LIMIT: 4,096 furlongs after admission stopped, what is still in flight ends (R59, R62, R369). -/
def drainLimit (s : State) : State :=
  forAll s (List.range 16) (fun s h =>
    let x := s.hide h
    match x.q.drainFrom with
    | none => s
    | some f =>
      if s.plan.furlong < f + 4096 then s
      else if x.k.phase = .ending then s.endFlights h stHideReset
      else s.endFlights h stPlanMismatch)

def execDrainLimit (s : State) : Host.Outcome State Fault Refusal := .next (drainLimit s)

end Sys2Proof.Machine
end

