-- ==== Sys2Proof/Machine/Loads.lean ====
section
/-!
DEFINITION. The validation and staging of reams, sections, packages and firmware (R48 to R61, R76, R157, R196, R285, R292,
R320, R332, R358, R359, R379, R396, R417), and the DOE load object (R57).
-/

namespace Sys2Proof.Machine
open Sys2Proof

/-! ### Result codes (R58, R414) -/

def ldOk : Nat := 0x00
def ldFormat : Nat := 0x01
def ldSignature : Nat := 0x02
def ldDigest : Nat := 0x03
def ldWrongMember : Nat := 0x04
def ldRollback : Nat := 0x05
def ldFieldRange : Nat := 0x06
def ldLayout : Nat := 0x07
def ldLapConflict : Nat := 0x08
def ldPowerOver : Nat := 0x09
def ldLayoutBusy : Nat := 0x0A
def ldBusy : Nat := 0x0B
def mgMalformed : Nat := 0x20
def mgNotPermitted : Nat := 0x21
def mgNotReady : Nat := 0x22
def mgRange : Nat := 0x23

/-- The code of the first check that fails, in order (R58). -/
def firstCode : List (Bool × Nat) → Nat
  | [] => ldOk
  | (ok, c) :: t => if ok then firstCode t else c

/-- No two of a list are equal. -/
def distinct (l : List Nat) : Bool := l.eraseDups.length == l.length

/-- Every pair of a list keeps a rule. -/
def pairsOk {α : Type} (f : α → α → Bool) : List α → Bool
  | [] => true
  | x :: t => t.all (f x) && pairsOk f t

/-! ### Ranges (R48 to R55, R76, R332, R339, R426), step 6 -/

/-- A value in a range. -/
def within (lo hi n : Nat) : Bool := decide (lo ≤ n) && decide (n ≤ hi)

/-- The header's ranges. -/
def headerRanged (h : ReamHeader) (hides sections : Nat) : Bool :=
  within 1 4352 h.sectionCount && h.sectionCount == sections && within 4510 8780 h.leanLength && h.leanLength % 10 == 0 &&
  decide (h.liveMask < 2 ^ 64) && within 1 (2 ^ 32 - 2) h.energyDevice && within 1 4800000 h.envelope &&
  (h.maintExp == 0 || within 16 30 h.maintExp) && within 1 16 h.hideCount && h.hideCount == hides && decide (h.flags < 2)

/-- The section counts of R49, for a whole ream. -/
def countsOk (m : Ream) : Bool :=
  let of (t : Nat) : List DirEntry := m.dir.filter (fun d => d.typ == t)
  let device (t : Nat) : Bool := match of t with | [d] => d.owner == 0xFF && d.index == 0 | _ => false
  let variant (t n : Nat) : Bool :=
    (of t).all (fun d => d.owner == 0xFF && decide (d.index < n)) && distinct ((of t).map (·.index)) &&
    (of t).all (fun d => m.variants.any (fun v => v.kind == t && v.index == d.index))
  [1, 2, 3, 4, 5, 0xF0].all device && variant 0x20 64 && variant 0x21 4096 && variant 0x22 64 &&
  m.variants.all (fun v => m.dir.any (fun d => d.typ == v.kind && d.index == v.index)) &&
  (of 0x10).map (·.owner) == m.hides.map (·.hide) && m.sections.map (·.hide) == m.hides.map (·.hide) &&
  m.dir.all (fun d => [1, 2, 3, 4, 5, 0x10, 0x20, 0x21, 0x22, 0xF0].contains d.typ) &&
  (match m.dir.getLast? with | some d => d.typ == 0xF0 | none => false)

/-- Sections lie after the directory, inside TOTAL_SIZE, at multiples of 64, without overlap. -/
def placesOk (m : Ream) : Bool :=
  m.dir.all (fun d => d.offset % 64 == 0 && decide (256 + 48 * m.dir.length ≤ d.offset) && decide (0 < d.size) &&
    decide (d.offset + d.size ≤ m.header.totalSize)) &&
  pairsOk (fun (a b : DirEntry) => decide (a.offset + a.size ≤ b.offset) || decide (b.offset + b.size ≤ a.offset)) m.dir

/-- A model descriptor (R76, R157, R196). -/
def descRanged (d : Desc) : Bool :=
  within 1 0xFFFE d.modelId && within 1 256 d.layers && within 1 64 d.kvHeads && within 1 16 d.qPerKv &&
  within 32 256 d.headDim && d.headDim % 32 == 0 && decide (d.attn < 2) && (d.attn == 0 || d.kvHeads == 1) &&
  within 1 8 d.kvFormat && decide (d.posenc < 3) && (d.posenc != 0 || d.posParam == 0) && !(d.attn == 1 && d.posenc == 1) &&
  within 1 2097152 d.rodBytes && decide (d.layerKind < 2 ^ d.layers) &&
  (if d.layerKind = 0 then d.stateBytes == 0 else within 1 (2 ^ 32 - 2) d.stateBytes)

/-- The longest slot of a class, in chains (R53). -/
def classMost : SlotClass → Nat
  | .decode => 10 | .append => 10 | .prefill => 10000 | .backward => 10000 | .state => 10 | .score => 100
  | .move => 10000 | .metaOrder => 1 | .acre => 10

/-- Rising without a repeat. -/
def rising : List Nat → Bool
  | [] => true
  | [_] => true
  | a :: b :: t => decide (a < b) && rising (b :: t)

/-- A slot descriptor (R53, R165). -/
def slotRanged (s : Slot) : Bool :=
  decide (s.start < 10) && within 1 (classMost s.cls) s.len && decide (0 < s.regions) && decide (s.regions < 2 ^ 64) && decide (0 < s.cap) &&
  decide (s.buckets.length ≤ 8) && rising (s.buckets.map (·.1)) &&
  s.buckets.all (fun b => within 1 4194304 b.1 && b.1 % 256 == 0 && decide (0 < b.2)) && (s.cls == .decode || s.buckets.isEmpty)

/-- A window entry (R332). -/
def windowRanged (w : Window) : Bool :=
  decide (w.link ≤ 8) && within 1 1023 w.chains && decide (w.start < 250) && decide (w.start + w.length ≤ 250) &&
  decide ((if w.link = 8 then 12 else 50) ≤ w.length) && (decide (w.owner ≤ 0x1E) || w.owner == 0xFE)

/-- A gate image (R339). -/
def gateRanged (g : U32) : Bool :=
  decide (bits g.toNat 0 12 ≤ 2500) && decide (bits g.toNat 24 8 = 0) && (decide (bits g.toNat 12 4 ≤ 14) || bits g.toNat 16 8 == 0)

/-- A HIDE section (R51, R61, R339, R426, R427). -/
def sectionRanged (k : Section) : Bool :=
  let o := k.tgOrdPol.toNat
  let b := k.tgBytePol.toNat
  let m := k.plMiss.toNat
  within 1 0xFFFE k.gen && within 1 (2 ^ 32 - 2) k.energy && decide (k.descs.length ≤ 64) && k.descs.all descRanged &&
  rising (k.descs.map (·.modelId)) && decide (k.windows.length ≤ 255) && k.windows.all (fun w => windowRanged w && w.owner == k.hide) &&
  within 1 15 (bits m 0 4) && bits m 5 11 == 0 && decide (bits m 16 14 ≤ 10000) && bits m 30 2 == 0 &&
  k.plClass.length == 9 && k.plClass.all (fun c => c == 0 || within 1 10 (bits c.toNat 24 8)) && k.plWait.length == 9 &&
  bits o 24 8 == 0 && within 1 65535 (bits o 32 16) && bits o 48 16 == 0 && within 64 0xFFFFFFFE (bits b 32 32) &&
  gateRanged k.tgCxlGate && k.tgLgGate.length == 8 && k.tgLgGate.all gateRanged && k.slots.all slotRanged &&
  k.variants.all (fun v => v.slots.all slotRanged && v.plClass.length == 9 && v.plWait.length == 9)

/-- A pool record (R78). -/
def poolRanged (p : Pool) : Bool :=
  decide (p.pool < 16) && within 64 (2 ^ 32 - 64) p.cellBytes && p.cellBytes % 64 == 0 && within 8 512 p.q && p.q % 8 == 0 &&
  decide (0 < p.stripe.length) && decide (p.stripe.length ≤ 4096) && p.stripe.length % p.q == 0 &&
  p.stripe.all (fun c => decide (c < 4096)) && within 1 (2 ^ 28) p.frames

/-- A hide entry of LAYOUT (R50). A zero of EXTENTS, FETCH_KIB, WEIGHT_UNITS, OVF_CELLS or of an allotment's count means
none. -/
def entryRanged (e : HideEntry) : Bool :=
  decide (e.hide < 16) && decide (e.ld < 16) && within 1 8 e.domains && (e.pfxLog2 == 0 || within 10 20 e.pfxLog2) &&
  decide (e.cbSlots < 16) && decide (e.pools.length ≤ 16) && distinct (e.pools.map (·.pool)) && within 1 64 e.ringMib &&
  within 1 240 e.opndMib && within 1 4096 e.jobKeys && within 1 16777216 e.seqEntries && decide (e.regions < 2 ^ 64) &&
  e.acres.all (fun a => decide (a < 384)) && within 1024 1048576 e.dirLines && decide (e.extents < 2 ^ 32 - 1) &&
  decide (e.fetchKib < 2 ^ 32 - 1) && decide (e.weightUnits < 2 ^ 32 - 1) && decide (e.ovfCells < 2 ^ 32 - 1) &&
  e.flash.length == 8 && e.flash.all (fun f => decide (f.1 + f.2 ≤ 2 ^ 40)) && e.pools.all poolRanged

/-- Step 6 for a whole ream. Every HIDE section holds its part of every variant (R54). -/
def reamRanged (m : Ream) : Bool :=
  headerRanged m.header m.hides.length m.dir.length && countsOk m && placesOk m && rising (m.hides.map (·.hide)) &&
  m.hides.all entryRanged && m.sections.all sectionRanged && m.windows.all (fun w => windowRanged w && decide (0x10 ≤ w.owner)) &&
  m.sections.all (fun k => m.variants.all (fun v => k.variants.any (fun y => y.kind == v.kind && y.index == v.index)))

/-! ### LAYOUT (R58 step 7, R78, R238, R285, R288, R292, R320, R332, R375, R379) -/

/-- Do two windows of one link overlap in a chain. -/
def windowMeets (a b : Window) : Bool :=
  a.link == b.link && (List.range 10).any (fun c => bit a.chains c && bit b.chains c) &&
  decide (a.start < b.start + b.length) && decide (b.start < a.start + a.length)

/-- The weight of a hide's group on a link; zero for no member. -/
def groupWeight (k : Section) (link : Nat) : Nat :=
  gateWeight (if link = 8 then k.tgCxlGate.toNat else (k.tgLgGate.getD link 0).toNat)

/-- The windows of R332. -/
def windowsOk (m : Ream) : Bool :=
  let all := m.windows ++ m.sections.flatMap (·.windows)
  pairsOk (fun a b => !(windowMeets a b)) all &&
  (List.range 8).all (fun p => (List.range 10).all (fun c => all.any (fun w => w.link == p && w.owner == 0xFE && bit w.chains c))) &&
  m.hides.all (fun e => match m.sections.find? (fun k => k.hide == e.hide) with
    | none => false
    | some k =>
      (List.range 8).all (fun p => (e.flash.getD p (0, 0)).2 == 0 || k.windows.any (fun w => w.link == p) || groupWeight k p != 0) &&
      (!e.confidential || (List.range 9).all (fun l => groupWeight k l == 0)))

/-- Clusters or regions of a list lie in a mask of regions. -/
def clustersIn (l : List Nat) (mask : Nat) : Bool := l.all (fun c => bit mask (c / 64))
def maskIn (a b : Nat) : Bool := (maskList 64 a).all (bit b)

/-- One hide entry within its share. -/
def entryPlaced (e : HideEntry) (live : Nat) (k : Section) : Bool :=
  maskIn e.regions live && maskIn e.seqRegions e.regions && maskIn e.pfxRegions e.regions &&
  e.pools.all (fun p => clustersIn p.stripe e.regions && distinct p.stripe) && clustersIn e.weightStripe e.regions &&
  e.acres.all (fun a => bit e.regions (a / 6)) && k.slots.all (fun s => maskIn s.regions e.regions) && !(e.confidential && e.compat)

/-- Two hide entries beside each other. -/
def entryApart (a b : HideEntry) : Bool :=
  a.ld != b.ld && a.acres.all (fun x => !(b.acres.contains x)) &&
  (a.regions &&& b.regions == 0 || a.cbSlots &&& b.cbSlots == 0) &&
  (List.range 8).all (fun p =>
    let (x, n) := a.flash.getD p (0, 0)
    let (y, m) := b.flash.getD p (0, 0)
    n == 0 || m == 0 || (!a.confidential && !b.confidential && (decide (x + n ≤ y) || decide (y + m ≤ x))))

/-- The sums over all hides. -/
def sumsOk (l : List HideEntry) : Bool :=
  let sum (f : HideEntry → Nat) : Nat := l.foldl (fun n e => n + f e) 0
  decide (sum (fun e => e.ringMib + e.opndMib) ≤ 256) && decide (sum (·.jobKeys) ≤ 16384) && decide (sum (·.dirLines) ≤ 4194304) &&
  decide (sum (·.fetchKib) ≤ 65536) && decide (sum (·.seqEntries) ≤ 16777216)

/-- Step 7 for a whole ream; a region whose XTS engine has failed is in no ream (R395). -/
def State.layoutOk (s : State) (m : Ream) : Bool :=
  m.fits && windowsOk m && sumsOk m.hides && pairsOk entryApart m.hides &&
  m.hides.all (fun e => match m.sections.find? (fun k => k.hide == e.hide) with
    | some k => entryPlaced e m.header.liveMask k
    | none => false) &&
  (maskList 64 m.header.liveMask).all (fun r => !(s.region r).xtsFail)

/-! ### Energy (R54) -/

/-- The energy of a hide with a variant in force. -/
def energyIn (k : Section) (v : DevVariant) : Nat :=
  match k.variants.find? (fun y => y.kind == v.kind && y.index == v.index) with | some y => y.energy | none => k.energy

/-- The base total. -/
def energyBase (device : Nat) (ks : List Section) : Nat := device + ks.foldl (fun n k => n + k.energy) 0

/-- Every total stays within the envelope. -/
def energyOk (h : ReamHeader) (vs : List DevVariant) (ks : List Section) : Bool :=
  decide (energyBase h.energyDevice ks ≤ h.envelope) &&
  vs.all (fun v => decide (v.energy + ks.foldl (fun n k => n + energyIn k v) 0 ≤ h.envelope))

/-! ### Validation (R58 to R61, R359, R417) -/

/-- Has a hide neither an admitted sequence nor a leased acre nor a staged section (R60). -/
def State.idle (s : State) (h : Nat) : Bool :=
  let x := s.hide h
  x.allView.seqs.isEmpty && x.a.slots.all (fun p => p.2.st == .empty) && x.staged.isNone

/-- Step 10. -/
def State.changesIdle (s : State) (m : Ream) : Bool :=
  s.present.all (fun h => match (s.hide h).lay, m.hides.find? (fun e => e.hide == h) with
    | some a, some b => entryFixed a == entryFixed b || s.idle h
    | _, _ => s.idle h)

/-- Is a ream, a section or a package staged (step 11). -/
def State.hasStaged (s : State) : Bool :=
  s.plan.staged.isSome || (List.range 16).any (fun h => (s.hide h).staged.isSome) || s.screen.nextPackage.isSome

/-- Steps 1 to 5. A BLANK device accepts no ream (R383); a signature needs an enrolled plan authority. -/
def State.earlyChecks (s : State) (m : Ream) (received : Nat) : List (Bool × Nat) :=
  [(m.header.magic == 0x4D455256 && m.header.format == 1 && m.header.hdrSize == 256 && decide (m.header.totalSize ≤ 2 ^ 26) &&
      m.header.totalSize == received, ldFormat),
    (m.sigOk && s.dex.anchorsOf 1 != 0 && s.dex.life != .blank, ldSignature), (m.digestOk, ldDigest),
    (m.header.member == 0x0960 && m.header.level == 3, ldWrongMember),
    (decide (s.dex.planFloor.toNat ≤ m.header.planVersion), ldRollback)]

/-- A whole ream (R58). -/
def State.validateReam (s : State) (m : Ream) (received : Nat) : Nat :=
  firstCode (s.earlyChecks m received ++
    [(reamRanged m, ldFieldRange), (s.layoutOk m, ldLayout), (m.lapOk, ldLapConflict),
      (energyOk m.header m.variants m.sections, ldPowerOver), (s.changesIdle m, ldLayoutBusy), (!s.hasStaged, ldBusy)])

/-- Do the windows of a replacement lie within cycles that the old section held, with the same group weights (R332). -/
def windowsKept (old new : Section) : Bool :=
  new.windows.all (fun w => (maskList 10 w.chains).all (fun c => (List.range w.length).all (fun i =>
    old.windows.any (fun v => v.link == w.link && bit v.chains c && decide (v.start ≤ w.start + i) && decide (w.start + i < v.start + v.length))))) &&
  (List.range 9).all (fun l => groupWeight old l == groupWeight new l)

/-- The section that a replacement carries, for a hide. -/
def onlySection (m : Ream) : Option Section := match m.sections with | [k] => some k | _ => none

/-- The directory of a replacement (R61). -/
def replacementDir (m : Ream) : Bool :=
  match m.dir with
  | [a, b, c] => a.typ == 1 && a.owner == 0xFF && b.typ == 0x10 && c.typ == 0xF0 && c.owner == 0xFF &&
      (match onlySection m with | some k => b.owner == k.hide | none => false)
  | _ => false

/-- A replacement section (R58, R61). -/
def State.validateSection (s : State) (m : Ream) (received : Nat) : Nat :=
  match s.plan.ream, onlySection m with
  | some run, some k =>
    let x := s.hide k.hide
    let others := s.present.filterMap (fun h => if h = k.hide then none else (s.hide h).sec)
    let whole := { m.header with hideCount := 1, sectionCount := 3 }
    firstCode (s.earlyChecks m received ++
      [(headerRanged whole 1 m.dir.length && replacementDir m && decide (k.hide < 16) && sectionRanged k &&
          (match x.sec with | some o => o.gen != k.gen | none => true), ldFieldRange),
        ((match x.lay, x.sec with
          | some e, some o => m.layoutDigest == run.layoutDigest && m.fits && k.slots.all (fun sl => maskIn sl.regions e.regions) &&
              windowsKept o k && run.variants.all (fun v => k.variants.any (fun y => y.kind == v.kind && y.index == v.index))
          | _, _ => false), ldLayout),
        (m.lapOk, ldLapConflict), (energyOk run.header run.variants (k :: others), ldPowerOver), (!s.hasStaged, ldBusy)])
  | _, _ => firstCode (s.earlyChecks m received ++ [(false, ldFieldRange)])

/-- A screen-pattern package (R358, R359). -/
def State.validatePackage (s : State) (p : Package) (received : Nat) : Nat :=
  let held := match s.screen.package with | some q => q.version | none => 0
  let pattern (y : Pattern) : Bool :=
    within 1 2 y.level && decide (y.action < 2) && decide (y.target < 4) && y.offset % 64 == 0 &&
    within 64 (if y.level = 2 then 1024 else 262144) y.size && within 1 (if y.level = 2 then 450 else 3150) y.cycles &&
    decide (y.offset + y.size ≤ p.totalSize) && decide (128 + 4 * p.points.length + 32 * p.patterns.length ≤ y.offset)
  firstCode
    [(p.magic == 0x50535856 && p.format == 1 && p.hdrSize == 128 && decide (p.totalSize ≤ 8388608) && p.totalSize == received, ldFormat),
      (p.sigOk && s.dex.anchorsOf 2 != 0, ldSignature), (p.digestOk, ldDigest), (p.member == 0x0960, ldWrongMember),
      (decide (held < p.version), ldRollback),
      (within 1 1024 p.patterns.length && within 1 16 p.points.length && p.points.all (fun q => decide (q.1 ≤ 8) && decide (q.2 ≤ 8)) &&
        p.patterns.all pattern && distinct (p.patterns.map (·.id)) && p.patterns.any (fun y => y.level == 1) &&
        p.patterns.any (fun y => y.level == 2), ldFieldRange),
      (!s.hasStaged, ldBusy)]

/-! ### Staging -/

/-- The end of a load: its state, its result, and the CONFIG record that every load leaves (R58, R417, R420). -/
def State.endLoad (s : State) (l : Load) (kind st code : Nat) (digest hide : Nat) : State :=
  (s.upLoad l.number (fun l => { l with st := st, result := code })).config (l.origin s) kind code (digestWords digest) hide

/-- State of a finished load by its code: staged, or refused. -/
def loadSt (code : Nat) : Nat := if code = ldOk then 0 else 3

/-- A finished ream (R58). -/
def State.stageReam (s : State) (l : Load) (m : Ream) : State × Nat :=
  let code := s.validateReam m l.received
  let s := s.endLoad l cfgReam (loadSt code) code m.header.bodyDigest 0xFF
  if code = ldOk then (({ s with plan := { s.plan with staged := some ⟨m, l.number, 0⟩ } }).trigger .ream, code) else (s, code)

/-- A finished section; a DOE load carries only its own hide's (R57, R61). -/
def State.stageSection (s : State) (l : Load) (m : Ream) : State × Nat :=
  let own : Option Nat := match l.by_ with | .doe h => some h | .session _ => none
  let wrong := match own, onlySection m with | some h, some k => h != k.hide | _, _ => false
  let code := if wrong then ldLayout else s.validateSection m l.received
  match onlySection m with
  | none => (s.endLoad l cfgSection (loadSt code) code 0 0xFF, code)
  | some k =>
    let s := s.endLoad l cfgSection (loadSt code) code k.digest k.hide
    let s := s.upHide k.hide (fun x => { x with loadStat := ⟨code, if code = ldOk then 1 else 3, l.mode == 1, own.isSome⟩ })
    if code = ldOk then
      ((s.upHide k.hide (fun x => { x with staged := some ⟨k, l.mode == 1, l.number, 0⟩ })).trigger (.sect k.hide), code)
    else (s, code)

/-- A finished package (R359). -/
def State.stagePackage (s : State) (l : Load) (p : Package) : State × Nat :=
  let code := s.validatePackage p l.received
  let s := s.endLoad l cfgPackage (loadSt code) code p.bodyDigest 0xFF
  (if code = ldOk then { s with screen := { s.screen with nextPackage := some p } } else s, code)

/-- A finished firmware image: into the inactive bank (R417). -/
def State.stageFirmware (s : State) (l : Load) (f : Firmware) : State × Nat :=
  let now := if l.kind = 3 then s.dex.dexFw.1 else s.dex.mgmtFw.1
  let code := firstCode [(f.sigOk, ldSignature), (decide (now ≤ f.svn), ldRollback)]
  let s := s.endLoad l cfgFirmware (loadSt code) code f.digest 0xFF
  if code ≠ ldOk then (s, code)
  else ({ s with dex := if l.kind = 3 then { s.dex with dexNext := some (f.svn, f.digest) } else { s.dex with mgmtNext := some (f.svn, f.digest) } }, code)

/-- The end of an open load: an image that is not complete, or not of the load's kind, is a FORMAT failure. -/
def State.finishLoad (s : State) (l : Load) (image : LoadImage) : State × Nat :=
  let kind := if l.kind = 0 then cfgReam else if l.kind = 1 then cfgSection else if l.kind = 2 then cfgPackage else cfgFirmware
  let bad := (s.endLoad l kind 3 ldFormat 0 0xFF, ldFormat)
  if l.received ≠ l.size then bad
  else match l.kind, image with
    | 0, .ream m => s.stageReam l m
    | 1, .ream m => s.stageSection l m
    | 2, .package p => s.stagePackage l p
    | 3, .firmware f => s.stageFirmware l f
    | 4, .firmware f => s.stageFirmware l f
    | _, _ => bad

/-! ### Open loads (R417) -/

/-- The open load. -/
def Mgmt.openLoad (m : Mgmt) : Option Load := m.loads.find? (fun l => l.st == 4)

/-- Open a load: its number. -/
def State.openLoad (s : State) (by_ : LoadFrom) (kind mode size : Nat) : State × Nat :=
  let n := s.mgmt.nextLoad
  ({ s with mgmt := { s.mgmt with
      loads := s.mgmt.loads ++ [⟨n, by_, kind, mode, size, 0, 4, 0, 0⟩]
      nextLoad := (n + 1) % 65536 } }, n)

/-- Discard the open load, and log it with an origin. -/
def State.discardLoad (s : State) (l : Load) (code : Nat) (o : Origin) : State :=
  (s.upLoad l.number (fun l => { l with st := 2, result := code })).config o cfgCancel code [l.number] 0xFF

/-- Bytes of the open load arrive: contiguous ones are taken; a gap or an overlap discards it. -/
def State.loadBytes (s : State) (l : Load) (off len : Nat) (o : Origin) : State × Nat :=
  if len % 4 ≠ 0 then (s, mgMalformed)
  else if off ≠ l.received then (s.discardLoad l mgMalformed o, mgMalformed)
  else if l.size < off + len then (s, mgRange)
  else (s.upLoad l.number (fun l => { l with received := off + len }), 0)

/-- LOAD_RECEIVE_TIMEOUT: the open load was not received within 2 s of its first byte (R58, R417). -/
def loadTimeout (s : State) : State :=
  match s.mgmt.openLoad with
  | none => s
  | some l =>
    if l.received = 0 then s
    else
      let kind := if l.kind = 0 then cfgReam else if l.kind = 1 then cfgSection else if l.kind = 2 then cfgPackage else cfgFirmware
      s.endLoad l kind 3 ldFormat 0 0xFF

def execLoadReceiveTimeout (s : State) : Host.Outcome State Fault Refusal := .next (loadTimeout s)

/-! ### The DOE object (R57) -/

/-- The 16 bytes of a response's load header. -/
def doeHeader (op load result st : Nat) : List Byte :=
  leBytes 1 (op + 128) ++ leBytes 1 0 ++ leBytes 2 load ++ leBytes 8 0 ++ leBytes 1 result ++ leBytes 1 st ++ leBytes 2 0

/-- Does the mailbox of a logical device answer. -/
def State.doeUp (s : State) (ld : Nat) : Bool := s.ioUp && !s.dex.error && s.cxl.width != 0 && (s.ld ld).ideIo != .insecure

/-- A DOE request: for a mailbox that answers, the effect and the response. -/
def State.doe (s : State) (ld op : Nat) (f : State → Option Nat → State × Nat × Nat × Nat) : State :=
  if !(s.doeUp ld) then s
  else
    let h := if s.reamActive then s.hideOfLd ld else none
    let (s, load, result, st) := f s h
    s.raw (doeHeader op load result st)

/-- The open load, when its number is given and the mailbox's own hide opened it. -/
def State.ownOpen (s : State) (h : Option Nat) (load : Nat) : Option Load :=
  match s.mgmt.openLoad, h with
  | some l, some h => if l.number = load ∧ l.by_ = .doe h then some l else none
  | _, _ => none

/-- DOE_BEGIN. -/
def doeBegin (ld mode size : Nat) (s : State) : State :=
  s.doe ld 1 (fun s h => match h with
    | none => (s, 0, mgNotReady, 0)
    | some h =>
      if (s.hide h).confidential then (s, 0, mgNotPermitted, 0)
      else if s.mgmt.openLoad.isSome then (s, 0, ldBusy, 0)
      else if 2 ≤ mode ∨ size = 0 ∨ 2 ^ 32 - 1 ≤ size then (s, 0, mgRange, 0)
      else let (s, n) := s.openLoad (.doe h) 1 mode size; (s, n, 0, 0))

def execDoeBegin (ld : Ld) (mode size : Nat) (s : State) : Host.Outcome State Fault Refusal := .next (doeBegin ld mode size s)

/-- DOE_DATA. -/
def doeData (ld load off len : Nat) (s : State) : State :=
  s.doe ld 2 (fun s h => match s.ownOpen h load, h with
    | some l, some h =>
      if 262120 < len then (s, load, mgMalformed, 0)
      else let (s, r) := s.loadBytes l off len (byHide s h true); (s, load, r, 0)
    | _, _ => (s, load, if h.isNone then mgNotReady else mgRange, 0))

def execDoeData (ld : Ld) (load off len : Nat) (s : State) : Host.Outcome State Fault Refusal := .next (doeData ld load off len s)

/-- DOE_END. -/
def doeEnd (ld load : Nat) (image : Ream) (s : State) : State :=
  s.doe ld 3 (fun s h => match s.ownOpen h load with
    | some l => let (s, r) := s.finishLoad l (.ream image); (s, load, r, 0)
    | none => (s, load, if h.isNone then mgNotReady else mgRange, 0))

def execDoeEnd (ld : Ld) (load : Nat) (image : Ream) (s : State) : Host.Outcome State Fault Refusal := .next (doeEnd ld load image s)

/-- DOE_STATUS: of a load that the mailbox opened. -/
def doeStatus (ld load : Nat) (s : State) : State :=
  s.doe ld 4 (fun s h => match s.mgmt.loads.find? (fun l => l.number == load), h with
    | some l, some h => if l.by_ = .doe h then (s, load, if l.st = 4 then 0 else l.result, l.st) else (s, load, mgRange, 0)
    | _, _ => (s, load, if h.isNone then mgNotReady else mgRange, 0))

def execDoeStatus (ld : Ld) (load : Nat) (s : State) : Host.Outcome State Fault Refusal := .next (doeStatus ld load s)

/-- DOE_CANCEL: only the open load of the mailbox itself. -/
def doeCancel (ld load : Nat) (s : State) : State :=
  s.doe ld 5 (fun s h => match s.ownOpen h load, h with
    | some l, some h => (s.discardLoad l 0 (byHide s h true), load, 0, 0)
    | _, _ => (s, load, if h.isNone then mgNotReady else mgRange, 0))

def execDoeCancel (ld : Ld) (load : Nat) (s : State) : Host.Outcome State Fault Refusal := .next (doeCancel ld load s)

end Sys2Proof.Machine
end

