-- ==== Sys2Proof/Machine/GlobalRegs.lean ====
section
/-!
DEFINITION. The device-global registers: where they lie, what they read, what a read clears and what a write does
(R330, R365, R366, R398, R421, R431 to R436).
-/

namespace Sys2Proof.Machine
open Sys2Proof

/-- The registers of the device-global space. `net` counts the static-address registers in the order of R435. -/
inductive GReg where
  | floor | rtc | sessions | netCtl | mgState | live | load | hides | termMax (h : Nat) | mac | net (i : Nat)
  | lgCtl (p : Nat) | lgStat (p : Nat) | lgCmdTo (p : Nat) | lgErr (p : Nat) | lgCapacity (p : Nat) | lgCrc (p : Nat)
  | lgReplay (p : Nat) | lgRetrain (p : Nat) | lgDiscard (p : Nat) | lgTimeout (p : Nat) | lgSect (p : Nat) | lgLate (p : Nat)
  | lgWithheld (p : Nat)
  | bbStat | bbFirst | bbNext | bbAck | bbWarn
  | scVersion | scRotExp | scMaintRun | scMaintSkip | scStress | scIdle | scReplays | scConfirmed | scFailed | scCorr
  | scUncorr | scStranded | scSpareMin | scCluster (c : Nat)
  | pwVin | pwIin | pwPower | pwPlan | pwStat | pwTLean | pwLeanCount | pwAlert | pwTemp (r : Nat)
  | ckStat | ckLate (r : Nat) | ckPpm (r : Nat)
  | seMode | seSelftest | seAnchors | seConf
  deriving DecidableEq, Repr

/-- Is a register 64 bits wide. -/
def GReg.wide : GReg → Bool
  | .rtc | .live | .mac | .lgCapacity _ | .bbFirst | .bbNext | .bbAck => true
  | .net i => i == 3 || i == 4 || i == 6 || i == 7
  | _ => false

/-- The access code of a register. -/
def GReg.access : GReg → Access
  | .netCtl | .termMax _ | .net _ | .lgCtl _ | .lgCmdTo _ | .bbAck | .bbWarn | .scRotExp | .pwTLean => .rw
  | .lgErr _ | .pwAlert => .w1c
  | .lgCrc _ | .lgReplay _ | .lgRetrain _ | .lgDiscard _ | .lgTimeout _ | .lgSect _ | .lgLate _ | .scMaintRun | .scMaintSkip
  | .scStress | .scIdle | .scReplays | .scConfirmed | .scFailed | .scCorr | .scUncorr | .scStranded | .pwLeanCount
  | .ckLate _ => .rc
  | _ => .ro

/-! ### Where the registers lie (R431) -/

/-- The register of a pick by offset. -/
def pickG (l : List (Nat × GReg)) (off : Nat) : Option GReg := (l.find? (fun p => p.1 == off)).map (·.2)

/-- An array of registers of 4 bytes each. -/
def arrayG (base n off : Nat) (f : Nat → GReg) : Option GReg :=
  if base ≤ off ∧ off < base + 4 * n ∧ off % 4 = 0 then some (f ((off - base) / 4)) else none

/-- The MG_ block (R421, R434, R435). -/
def mgReg (off : Nat) : Option GReg :=
  (arrayG 0x100 16 off .termMax).orElse fun _ =>
    pickG [(0x00, .floor), (0x08, .rtc), (0x10, .sessions), (0x20, .netCtl), (0x30, .mgState), (0x38, .live), (0x40, .load),
      (0x44, .hides), (0x1000, .mac), (0x1008, .net 0), (0x100C, .net 1), (0x1010, .net 2), (0x1018, .net 3), (0x1020, .net 4),
      (0x1028, .net 5), (0x1030, .net 6), (0x1038, .net 7)] off

/-- The MG_LG block (R330). -/
def lgReg (off : Nat) : Option GReg :=
  let p := off / 0x40
  if 8 ≤ p then none
  else pickG [(0x00, .lgCtl p), (0x04, .lgStat p), (0x08, .lgCmdTo p), (0x0C, .lgErr p), (0x10, .lgCapacity p), (0x18, .lgCrc p),
    (0x1C, .lgReplay p), (0x20, .lgRetrain p), (0x24, .lgDiscard p), (0x28, .lgTimeout p), (0x2C, .lgSect p), (0x30, .lgLate p),
    (0x34, .lgWithheld p)] (off % 0x40)

/-- The BB_ block (R366). -/
def bbReg (off : Nat) : Option GReg :=
  pickG [(0x00, .bbStat), (0x08, .bbFirst), (0x10, .bbNext), (0x18, .bbAck), (0x20, .bbWarn)] off

/-- The SC_ block (R365). -/
def scReg (off : Nat) : Option GReg :=
  (arrayG 0x10000 4096 off .scCluster).orElse fun _ =>
    pickG [(0x00, .scVersion), (0x04, .scRotExp), (0x08, .scMaintRun), (0x0C, .scMaintSkip), (0x10, .scStress), (0x14, .scIdle),
      (0x18, .scReplays), (0x1C, .scConfirmed), (0x20, .scFailed), (0x24, .scCorr), (0x28, .scUncorr), (0x2C, .scStranded),
      (0x30, .scSpareMin)] off

/-- The PW_ block (R421); place 64 is the I/O die. -/
def pwReg (off : Nat) : Option GReg :=
  (arrayG 0x100 65 off .pwTemp).orElse fun _ =>
    pickG [(0x00, .pwVin), (0x04, .pwIin), (0x08, .pwPower), (0x0C, .pwPlan), (0x10, .pwStat), (0x14, .pwTLean),
      (0x18, .pwLeanCount), (0x1C, .pwAlert)] off

/-- The CK_ block (R421). -/
def ckReg (off : Nat) : Option GReg :=
  (arrayG 0x100 64 off .ckLate).orElse fun _ => (arrayG 0x200 64 off .ckPpm).orElse fun _ => pickG [(0x00, .ckStat)] off

/-- The SE_ block (R398). -/
def seReg (off : Nat) : Option GReg :=
  pickG [(0x00, .seMode), (0x04, .seSelftest), (0x08, .seAnchors), (0x10, .seConf)] off

/-- The register whose own offset is `off`. -/
def globalReg (off : Nat) : Option GReg :=
  let i := off % 0x10000
  match off / 0x10000 with
  | 0 => mgReg i | 1 => lgReg i | 2 => bbReg i | 4 => scReg i | 5 => scReg (0x10000 + i) | 6 => pwReg i | 7 => ckReg i
  | 8 => seReg i | _ => none

/-- The start of the row of R431 that holds an offset, and its end; none above the hide views. -/
def globalRow (off : Nat) : Option (Nat × Nat) :=
  if off < 0x90000 then
    let b := off / 0x10000
    if b = 4 ∨ b = 5 then some (0x40000, 0x60000) else some (b * 0x10000, (b + 1) * 0x10000)
  else if off < 0x100000 then some (0x90000, 0x100000)
  else if 0x1000000 ≤ off ∧ off < 0x2000000 then some (off / 0x100000 * 0x100000, (off / 0x100000 + 1) * 0x100000)
  else none

/-- The register that a word belongs to, and whether the word is its upper half. -/
def globalWordReg (off : Nat) : Option (GReg × Bool) :=
  match globalReg off with
  | some r => some (r, false)
  | none => if 4 ≤ off then match globalReg (off - 4) with
      | some r => if r.wide then some (r, true) else none
      | none => none
    else none

/-! ### What the registers read -/

/-- Planned power in W: E / 2.0 µs (R54, R421), with E in nJ. -/
def State.planWatts (s : State) : Nat :=
  if !s.reamActive then 0
  else match s.plan.ream with
    | some m => energyBase m.header.energyDevice (s.present.filterMap (fun h => (s.hide h).sec)) / 2000
    | none => 0

/-- The load that MG_LOAD shows: the open one, or else the last (R434). -/
def Mgmt.shownLoad (m : Mgmt) : Option Load := m.openLoad.orElse fun _ => m.loads.getLast?

/-- What a register holds. -/
def State.globalRead (s : State) : GReg → Nat
  | .floor => s.dex.planFloor.toNat
  | .rtc => if s.mgmt.rtcSet then s.mgmt.rtc.toNat else 0
  | .sessions => s.mgmt.sessions.length
  | .netCtl => s.mgmt.net.toNat
  | .mgState => s.code + flag s.mgmt.openLoad.isSome 3 + 256 * (s.plan.activations.toNat % 256)
  | .live => s.liveMask
  | .load => match s.mgmt.shownLoad with
    | some l => l.number + 2 ^ 16 * l.kind + 2 ^ 19 * l.st + (if l.st = 4 then 0 else 2 ^ 24 * l.result)
    | none => 0
  | .hides => (if s.reamActive then listMask s.present else 0) +
      2 ^ 16 * listMask ((List.range 16).filter (fun h => (s.hide h).resetting))
  | .termMax h => s.termMax h
  | .mac => Config.macAddress.toNat
  | .net i => (AMap.get 0 s.mgmt.netHeld i).toNat
  | .lgCtl p => (s.port p).ctl.toNat
  | .lgStat p => (s.port p).st.code + 8 * (s.port p).width + 2 ^ 16 * (s.port p).cmds.length
  | .lgCmdTo p => (s.port p).cmdTo.toNat
  | .lgErr p => (s.port p).err.toNat
  | .lgCapacity p => (s.port p).capacity.toNat
  | .lgCrc p => (s.port p).crcErr.toNat
  | .lgReplay p => (s.port p).replay.toNat
  | .lgRetrain p => (s.port p).retrain.toNat
  | .lgDiscard p => (s.port p).discard.toNat
  | .lgTimeout p => (s.port p).timeout.toNat
  | .lgSect p => (s.port p).sectFail.toNat
  | .lgLate p => (s.port p).late.toNat
  | .lgWithheld p => (s.port p).withheld.toNat
  | .bbStat => s.box.stat
  | .bbFirst => s.box.first
  | .bbNext => s.box.next
  | .bbAck => s.box.ack
  | .bbWarn => s.box.warn.toNat
  | .scVersion => match s.screen.package with | some p => p.version | none => 0
  | .scRotExp => s.screen.rotExp.toNat
  | .scMaintRun => s.plan.maintRun.toNat
  | .scMaintSkip => s.plan.maintSkip.toNat
  | .scStress => s.screen.stressFail.toNat
  | .scIdle => s.screen.idleFail.toNat
  | .scReplays => s.screen.replays.toNat
  | .scConfirmed => s.screen.confirmed.toNat
  | .scFailed => s.screen.failed.toNat
  | .scCorr => s.screen.eccCorr.toNat
  | .scUncorr => s.screen.eccUncorr.toNat
  | .scStranded => s.screen.stranded.toNat
  | .scSpareMin => s.spareMin
  | .scCluster c => s.clusterReg c
  | .pwVin => s.power.vin.toNat
  | .pwIin => s.power.iin.toNat
  | .pwPower => s.power.watts
  | .pwPlan => s.planWatts
  | .pwStat => s.pwStat
  | .pwTLean => s.power.tLean.toNat
  | .pwLeanCount => s.power.leanCount.toNat
  | .pwAlert => s.power.alert.toNat
  | .pwTemp r => s.tempReg r
  | .ckStat => if s.clocks.seen then (~~~s.clocks.bad).toNat else 0
  | .ckLate r => (s.region r).late.toNat
  | .ckPpm r => (s.region r).ppm.toNat + flag (s.region r).lockLost 16 + flag (s.region r).failed 17
  | .seMode => s.dex.mode
  | .seSelftest => s.dex.selftest
  | .seAnchors => s.dex.anchorReg
  | .seConf => s.confReg

/-- The reading of an RC register clears it (R7). -/
def State.globalClear (s : State) : GReg → State
  | .lgCrc p => s.upPort p (fun q => { q with crcErr := 0 })
  | .lgReplay p => s.upPort p (fun q => { q with replay := 0 })
  | .lgRetrain p => s.upPort p (fun q => { q with retrain := 0 })
  | .lgDiscard p => s.upPort p (fun q => { q with discard := 0 })
  | .lgTimeout p => s.upPort p (fun q => { q with timeout := 0 })
  | .lgSect p => s.upPort p (fun q => { q with sectFail := 0 })
  | .lgLate p => s.upPort p (fun q => { q with late := 0 })
  | .scMaintRun => { s with plan := { s.plan with maintRun := 0 } }
  | .scMaintSkip => { s with plan := { s.plan with maintSkip := 0 } }
  | .scStress => { s with screen := { s.screen with stressFail := 0 } }
  | .scIdle => { s with screen := { s.screen with idleFail := 0 } }
  | .scReplays => { s with screen := { s.screen with replays := 0 } }
  | .scConfirmed => { s with screen := { s.screen with confirmed := 0 } }
  | .scFailed => { s with screen := { s.screen with failed := 0 } }
  | .scCorr => { s with screen := { s.screen with eccCorr := 0 } }
  | .scUncorr => { s with screen := { s.screen with eccUncorr := 0 } }
  | .scStranded => { s with screen := { s.screen with stranded := 0 } }
  | .pwLeanCount => { s with power := { s.power with leanCount := 0 } }
  | .ckLate r => s.upRegion r (fun x => { x with late := 0 })
  | _ => s

/-- One word of the global space: the hide views lie above 0x0100_0000 (R433). -/
def State.globalWord (s : State) (off : Nat) : Nat :=
  if 0x1000000 ≤ off then s.viewWord ((off - 0x1000000) / 0x100000) (off % 0x100000)
  else match globalWordReg off with
    | some (r, false) => s.globalRead r % 2 ^ 32
    | some (r, true) => s.globalRead r / 2 ^ 32
    | none => 0

/-- What a read of some words clears, and the readings of HD_SCRUB_LEFT it takes. -/
def State.globalTake (s : State) (offs : List Nat) : State :=
  offs.foldl (fun s off =>
    if 0x1000000 ≤ off then (if off % 0x100000 = 0x108 then { s with free := s.free + 1 } else s)
    else match globalWordReg off with
      | some (r, _) => if r.access = .rc then s.globalClear r else s
      | none => s) s

/-- The words that a REG_READ names, when its range is right (R416, R432). -/
def readWords (off count : Nat) : Option (List Nat) :=
  match globalRow off with
  | some (_, hi) =>
    if off % 4 = 0 ∧ 1 ≤ count ∧ count ≤ 256 ∧ off + 4 * count ≤ hi then some ((List.range count).map (fun i => off + 4 * i)) else none
  | none => none

/-! ### What a write does -/

/-- A static-address register takes a value; prefix lengths outside their range are ignored (R435). -/
def Mgmt.hold (m : Mgmt) (i v : Nat) : Mgmt :=
  let n := if i = 1 then v % 64 else if i = 5 then v % 256 else v
  if (i = 1 ∧ 32 < n) ∨ (i = 5 ∧ 128 < n) then m
  else { m with netHeld := AMap.set m.netHeld i (BitVec.ofNat 64 n) }

/-- The address that a family uses under MG_NET: none stands for one that DHCP gives (R436). -/
def familyAddress (net : U32) (used : AMap U64) : NetFamily → Option (List U64)
  | .ip4 => if net.getLsbD 0 then none else some ((List.range 3).map (AMap.get 0 used))
  | .ip6 => if net.getLsbD 1 then none else some ((List.range 5).map (fun i => AMap.get 0 used (i + 3)))
  | .linkLocal => none

/-- Close a session; a load that it holds open is discarded (R417). -/
def State.closeSession (s : State) (id : Nat) : State :=
  if !(s.mgmt.sessions.any (fun x => x.id == id)) then s
  else
    let s := { s with mgmt := { s.mgmt with sessions := s.mgmt.sessions.filter (fun x => x.id != id) } }
    match s.mgmt.openLoad with
    | some l => if l.by_ = .session id then s.discardLoad l 0 (bySession id) else s
    | none => s

/-- The sessions whose address a write of MG_NET changes. -/
def State.movedSessions (s : State) (net : U32) : List Nat :=
  let m := s.mgmt
  (m.sessions.filter (fun x => familyAddress m.net m.netUsed x.family != familyAddress net m.netHeld x.family)).map (·.id)

/-- A write of MG_NET puts the held static addresses in force (R436). -/
def State.writeNet (s : State) (v : Nat) : State :=
  { s with mgmt := { s.mgmt with net := BitVec.ofNat 32 (v % 4), netUsed := s.mgmt.netHeld } }

/-- A write of a value; what a field's definition ignores leaves the register unchanged. -/
def State.globalWrite (s : State) (r : GReg) (v : Nat) : State :=
  let w := BitVec.ofNat 32 v
  match r with
  | .netCtl => s.writeNet v
  | .termMax h => if within 10 60000 (v % 65536) then
      { s with mgmt := { s.mgmt with termMax := AMap.set s.mgmt.termMax h (BitVec.ofNat 32 (v % 65536)) } } else s
  | .net i => { s with mgmt := s.mgmt.hold i v }
  | .lgCtl p => s.portCtl p w
  | .lgCmdTo p => if within 1000 10000000 v then s.upPort p (fun q => { q with cmdTo := w })
      else s.upPort p (fun q => { q with err := q.err ||| 16 })
  | .lgErr p => s.upPort p (fun q => { q with err := q.err &&& ~~~w })
  | .bbAck => if v ≤ s.box.next then { s with box := { s.box with ack := v } } else s
  | .bbWarn => if within 10 95 (v % 128) then { s with box := { s.box with warn := BitVec.ofNat 32 (v % 128) } } else s
  | .scRotExp => if within 12 24 (v % 32) then { s with screen := { s.screen with rotExp := BitVec.ofNat 32 (v % 32) } } else s
  | .pwTLean => if within 80 100 (v % 256) then { s with power := { s.power with tLean := BitVec.ofNat 32 (v % 256) } } else s
  | .pwAlert => { s with power := { s.power with alert := s.power.alert &&& ~~~w } }
  | _ => s

/-- The register that a REG_WRITE may write, or the result that refuses it (R415, R432). -/
def writeTarget (off width : Nat) : Nat × Option GReg :=
  if (width ≠ 4 ∧ width ≠ 8) ∨ off % width ≠ 0 then (mgRange, none)
  else if 0x1000000 ≤ off ∧ off < 0x2000000 then (mgNotPermitted, none)
  else match globalReg off with
    | none => (mgRange, none)
    | some r =>
      if width ≠ (if r.wide then 8 else 4) then (mgRange, none)
      else if r.access = .rw ∨ r.access = .w1c then (0, some r)
      else (mgNotPermitted, none)

end Sys2Proof.Machine
end

