-- ==== Sys2Proof/Machine/Manage.lean ====
section
/-!
DEFINITION. Management sessions and their messages, the status probe, the attestation report, anchors, the lifecycle, the PHY and
the test port (R376, R383 to R396, R410, R413 to R420, R436, R441, R444, R445).
-/

namespace Sys2Proof.Machine
open Sys2Proof

/-! ### Message types (R415) -/

def msgRegRead : Nat := 0x0101
def msgRegWrite : Nat := 0x0102
def msgLoadBegin : Nat := 0x0201
def msgLoadData : Nat := 0x0202
def msgLoadEnd : Nat := 0x0203
def msgLoadStatus : Nat := 0x0204
def msgLoadCancel : Nat := 0x0205
def msgTelemetry : Nat := 0x0301
def msgSubscribe : Nat := 0x0302
def msgBbRead : Nat := 0x0401
def msgHideReset : Nat := 0x0501
def msgDeviceReset : Nat := 0x0502
def msgRegionReset : Nat := 0x0503
def msgSetTime : Nat := 0x0601
def msgAnchor : Nat := 0x0701
def msgFloor : Nat := 0x0702
def msgLifecycle : Nat := 0x0703
def msgDebug : Nat := 0x0704
def msgSelftest : Nat := 0x0705
def msgTelemetryOut : Nat := 0x8002

/-! ### Requests and replies (R413, R414) -/

/-- Can the management port carry a session: the device is up, its reference is there, and the PHY answers. -/
def State.portOpen (s : State) : Bool := s.up && !s.mgmt.portDown && s.mgmt.phyUp

/-- A session. -/
def State.session (s : State) (id : Nat) : Option Session := s.mgmt.sessions.find? (fun x => x.id == id)

/-- Send a message. -/
def State.message (s : State) (r : Reply) : State := { s with mgmt := { s.mgmt with sent := s.mgmt.sent ++ [r] } }

/-- A session after a MALFORMED reply. -/
def Session.count (id : Nat) (x : Session) : Session := if x.id = id then { x with malformed := x.malformed + 1 } else x

/-- Send the reply to a request; sixteen MALFORMED replies close its session. -/
def State.reply (s : State) (q : Req) (typ result : Nat) (body : List Byte) : State :=
  let s := s.message ⟨q.session, typ, q.tag, result, body⟩
  if result ≠ mgMalformed then s
  else
    let s := { s with mgmt := { s.mgmt with sessions := s.mgmt.sessions.map (Session.count q.session) } }
    match s.session q.session with
    | some x => if 16 ≤ x.malformed then s.closeSession q.session else s
    | none => s

/-- The rank of a role: ADMIN may send every request, OPERATOR every one that OBSERVER may send (R415). -/
def roleRank : Role → Nat
  | .observer => 0 | .operator => 1 | .admin => 2

/-- A request of a session: refused where its role does not allow it. A request that names no open session does not exist. -/
def State.request (s : State) (q : Req) (typ : Nat) (need : Role) (f : State → State) : State :=
  if !s.portOpen then s
  else match s.session q.session with
    | none => s
    | some x => if roleRank x.role < roleRank need then s.reply q typ mgNotPermitted [] else f s

/-! ### Sessions (R392, R393, R413) -/

/-- Has the port an address of a family (R436). -/
def State.hasAddress (s : State) (f : NetFamily) : Bool :=
  match f, familyAddress s.mgmt.net s.mgmt.netUsed f with
  | .ip4, some (a :: _) => a != 0
  | .ip6, some (a :: b :: _) => a != 0 || b != 0
  | _, _ => true

/-- A failed handshake; the eighth within 60 s starts a refusal period. -/
def State.failHandshake (s : State) : State :=
  let now := s.power.ticks
  let l := now :: s.mgmt.fails.filter (fun t => decide (now < t + 60 * 32768))
  if 8 ≤ l.length then
    ({ s with mgmt := { s.mgmt with fails := [], refusing := true } }).config (agent 2) cfgRefusal 0 [] 0xFF
  else { s with mgmt := { s.mgmt with fails := l } }

/-- SESSION_HANDSHAKE: `anchor` is the place in the anchor store that the client's chain reaches, if it reaches one. -/
def sessionHandshake (anchor : Option Nat) (family : NetFamily) (s : State) : State :=
  if !s.portOpen || s.mgmt.refusing || !(s.hasAddress family) || decide (4 ≤ s.mgmt.sessions.length) then s
  else match anchor.bind (fun i => s.dex.anchors[i]?) with
    | none => s.failHandshake
    | some a =>
      if a.kind ≠ 0 then s.failHandshake
      else
        let role : Role := if a.role = 0 then .admin else if a.role = 1 then .operator else .observer
        { s with mgmt := { s.mgmt with
          sessions := s.mgmt.sessions ++ [⟨s.mgmt.nextSession, role, 0, 0, false, family⟩]
          nextSession := (s.mgmt.nextSession + 1) % 2 ^ 32 } }

def execSessionHandshake (anchor : Option Nat) (family : NetFamily) (s : State) : Host.Outcome State Fault Refusal :=
  .next (sessionHandshake anchor family s)

/-- SESSION_IDLE_TIMEOUT: the session has been idle for 300 s. -/
def sessionIdle (id : Nat) (s : State) : State := s.closeSession id
def execSessionIdleTimeout (session : Nat) (s : State) : Host.Outcome State Fault Refusal := .next (sessionIdle session s)

/-- SESSION_CLOSE: the session's peer closes it. -/
def sessionClose (id : Nat) (s : State) : State := s.closeSession id
def execSessionClose (session : Nat) (s : State) : Host.Outcome State Fault Refusal := .next (sessionClose session s)

/-- HANDSHAKE_REFUSAL_EXPIRY: the refusal period ends. -/
def refusalExpiry (s : State) : State := { s with mgmt := { s.mgmt with refusing := false } }
def execHandshakeRefusalExpiry (s : State) : Host.Outcome State Fault Refusal := .next (refusalExpiry s)

/-! ### The status probe (R419) -/

/-- The reply to a probe. -/
def State.probeReply (s : State) (nonce : BitVec 64) : List Byte :=
  let since := if s.ioUp then (s.power.ticks - s.mgmt.releaseTick) / 32768 else 0
  let b := leBytes 16 Config.deviceSerial.toNat ++ leBytes 2 0x0960 ++ leBytes 1 s.dex.life.code ++ leBytes 1 s.dex.testCode ++
    leBytes 1 s.code ++ leBytes 1 (flag s.plan.lean 0) ++ leBytes 1 (flag s.box.warns 0) ++ leBytes 4 since ++ leBytes 8 nonce.toNat
  b ++ List.replicate (64 - b.length) 0

/-- STATUS_PROBE: answered in every state in which the device is powered, at most 16 times in any second. -/
def statusProbe (nonce : BitVec 64) (s : State) : State :=
  match s.power.st with
  | .off => s
  | .standby => s
  | .lost => s
  | _ =>
    let now := s.power.ticks
    let l := s.mgmt.probes.filter (fun t => decide (now < t + 32768))
    if 16 ≤ l.length then { s with mgmt := { s.mgmt with probes := l } }
    else ({ s with mgmt := { s.mgmt with probes := now :: l } }).raw (s.probeReply nonce)

def execStatusProbe (nonce : BitVec 64) (s : State) : Host.Outcome State Fault Refusal := .next (statusProbe nonce s)

/-! ### Attestation (R386 to R390) -/

/-- The identity record (R388). -/
def identityRecord : List Byte :=
  leBytes 16 Config.deviceSerial.toNat ++ leBytes 2 0x0960 ++ leBytes 2 Config.stepping.toNat ++ List.replicate 12 0 ++
    leBytes 32 Config.deviceKeyDigest.toNat

/-- The anchor store as bytes: kind, role and digest of each anchor, in enrolment order (assumption 34). -/
def Dex.anchorBytes (d : Dex) : List Byte := d.anchors.flatMap (fun a => leBytes 1 a.kind ++ leBytes 1 a.role ++ leBytes 32 a.digest)

/-- The device-mode record (R389). -/
def State.modeRecord (s : State) : List Byte :=
  let d := s.dex
  leBytes 1 d.life.code ++ leBytes 1 (Debug.code d.debug) ++ leBytes 1 d.jtag ++ leBytes 1 d.testCode ++ leBytes 4 d.planFloor.toNat ++
    leBytes 2 d.dexFw.1 ++ leBytes 2 d.mgmtFw.1 ++ leBytes 4 s.plan.activations.toNat ++ List.replicate 16 0 ++
    Crypto.sm3 d.anchorBytes

/-- An entry of the layout record (R390). -/
def State.layoutEntry (s : State) (h : Nat) : List Byte :=
  match s.layOf h, s.secOf h with
  | some e, some k =>
    let l := s.ld e.ld
    let modules := listMask ((List.range 8).filter (fun m => (e.flash.getD m (0, 0)).2 != 0))
    leBytes 1 h ++ leBytes 1 e.ld ++
      leBytes 1 (1 + flag e.confidential 1 + flag e.compat 2 + flag (l.ideIo == .secure) 3 + flag (s.cxl.ideMem == .secure) 4) ++
      leBytes 1 (s.hide h).k.tsp.code ++ leBytes 2 k.gen ++ leBytes 1 modules ++ leBytes 1 e.domains ++ leBytes 8 e.regions ++
      leBytes 48 (listMask e.acres) ++ leBytes 32 k.digest
  | _, _ => leBytes 96 h

/-- The layout record (R390). -/
def State.layoutRecord (s : State) : List Byte :=
  leBytes 1 1 ++ leBytes 1 (if s.reamActive then s.present.length else 0) ++ List.replicate 6 0 ++ leBytes 8 s.liveMask ++
    (List.range 16).flatMap s.layoutEntry

/-- The measurement blocks of R387, as (index, value type, value). -/
def State.measurements (s : State) : List (Nat × Nat × List Byte) :=
  let ream := if s.reamActive then (match s.plan.ream with | some m => m.header.bodyDigest | none => 0) else 0
  let package := match s.screen.package with
    | some p => leBytes 4 p.version ++ leBytes 4 0 ++ leBytes 32 p.bodyDigest
    | none => leBytes 40 0
  [(1, 0x00, leBytes 32 Config.romDigest.toNat), (2, 0x01, leBytes 32 s.dex.dexFw.2), (3, 0x01, leBytes 32 s.dex.mgmtFw.2),
    (4, 0x03, leBytes 32 ream), (5, 0x83, package), (6, 0x85, s.modeRecord), (7, 0x84, s.layoutRecord), (8, 0x82, identityRecord)]

/-- A measurement block in the encoding of SPDM: index, DMTF specification, sizes, value (assumption 9). -/
def measurementBlock (m : Nat × Nat × List Byte) : List Byte :=
  leBytes 1 m.1 ++ leBytes 1 1 ++ leBytes 2 (m.2.2.length + 3) ++ leBytes 1 m.2.1 ++ leBytes 2 m.2.2.length ++ m.2.2

/-- The report before its signature: the blocks, the requester's nonce and the device's (R386). -/
def State.report (s : State) (nonce own : BitVec 256) : List Byte :=
  let blocks := s.measurements.flatMap measurementBlock
  [0x13, 0x60, 0, 0] ++ leBytes 1 8 ++ leBytes 3 blocks.length ++ blocks ++ leBytes 32 nonce.toNat ++ leBytes 32 own.toNat

/-- The SPDM error response (assumption 9). -/
def spdmError : List Byte := [0x13, 0x7F, 0x05, 0]

/-- Is the responder reached: over a DOE mailbox, or over the I3C sideband. -/
def State.spdmUp (s : State) (mailbox : Option Nat) : Bool :=
  s.ioUp && (match mailbox with | some ld => decide (s.cxl.width ≠ 0) && (s.ld ld).ideIo != .insecure | none => true)

/-- SPDM_GET_MEASUREMENTS: the signed report. Without an identity key, or in the security-error state, an error response. -/
def getMeasurements (mailbox : Option Nat) (nonce : BitVec 256) (s : State) : State :=
  if !(s.spdmUp mailbox) then s
  else if s.dex.error || s.dex.identityGone || s.dex.life == .blank then s.raw spdmError
  else
    let (s, own) := s.draw
    let (s, k) := s.draw
    let r := s.report nonce own
    s.raw (r ++ leBytes 64 (Config.signature r k).toNat)

def execSpdmGetMeasurements (mailbox : Option Ld) (nonce : BitVec 256) (s : State) : Host.Outcome State Fault Refusal :=
  .next (getMeasurements (mailbox.map (·.val)) nonce s)

/-! ### Registers (R432) -/

/-- REG_READ. -/
def regRead (q : Req) (off count : Nat) (s : State) : State :=
  s.request q msgRegRead .observer (fun s => match readWords off count with
    | none => s.reply q msgRegRead mgRange []
    | some l => (s.globalTake l).reply q msgRegRead 0 (l.flatMap (fun o => leBytes 4 (s.globalWord o))))

def execRegRead (q : Req) (off count : Nat) (s : State) : Host.Outcome State Fault Refusal := .next (regRead q off count s)

/-- REG_WRITE: an accepted one is logged; a write of MG_NET then closes the sessions whose address it changes. -/
def regWrite (q : Req) (off : Nat) (v : U64) (width : Nat) (s : State) : State :=
  s.request q msgRegWrite .operator (fun s => match writeTarget off width with
    | (code, none) => s.reply q msgRegWrite code []
    | (_, some r) =>
      let n := if width = 4 then v.toNat % 2 ^ 32 else v.toNat
      let moved := if r = .netCtl then s.movedSessions (BitVec.ofNat 32 (n % 4)) else []
      let s := s.globalWrite r n
      let s := s.config (bySession q.session) cfgRegister 0 [off, n % 2 ^ 32, n / 2 ^ 32] 0xFF
      moved.foldl State.closeSession (s.reply q msgRegWrite 0 []))

def execRegWrite (q : Req) (off : Nat) (v : U64) (width : Nat) (s : State) : Host.Outcome State Fault Refusal :=
  .next (regWrite q off v width s)

/-! ### Loads (R417) -/

/-- Does a load of a kind need a running device, or an active ream. -/
def State.loadReady (s : State) (kind : Nat) : Bool :=
  if kind = 0 then s.power.st == .running else if kind = 1 then s.reamActive else true

/-- LOAD_BEGIN. -/
def loadBegin (q : Req) (kind mode size : Nat) (s : State) : State :=
  s.request q msgLoadBegin .operator (fun s =>
    if 4 < kind ∨ 1 < mode ∨ (mode = 1 ∧ kind ≠ 1) ∨ size = 0 ∨ 2 ^ 32 - 1 ≤ size then s.reply q msgLoadBegin mgRange []
    else if !(s.loadReady kind) then s.reply q msgLoadBegin mgNotReady []
    else if s.mgmt.openLoad.isSome then s.reply q msgLoadBegin ldBusy []
    else
      let (s, n) := s.openLoad (.session q.session) kind mode size
      s.reply q msgLoadBegin 0 (leBytes 4 n))

def execLoadBegin (q : Req) (kind mode size : Nat) (s : State) : Host.Outcome State Fault Refusal := .next (loadBegin q kind mode size s)

/-- The open load of a session, by its number. -/
def State.sessionLoad (s : State) (load : Nat) : Option Load :=
  match s.mgmt.openLoad with
  | some l => (match l.by_ with | .session _ => if l.number = load then some l else none | .doe _ => none)
  | none => none

/-- LOAD_DATA. -/
def loadData (q : Req) (load off len : Nat) (s : State) : State :=
  s.request q msgLoadData .operator (fun s => match s.sessionLoad load with
    | none => s.reply q msgLoadData mgRange []
    | some l =>
      if 1048000 < len then s.reply q msgLoadData mgMalformed []
      else
        let (s, r) := s.loadBytes l off len (bySession q.session)
        s.reply q msgLoadData r [])

def execLoadData (q : Req) (load off len : Nat) (s : State) : Host.Outcome State Fault Refusal := .next (loadData q load off len s)

/-- LOAD_END: the reply carries the validation code. -/
def loadEnd (q : Req) (load : Nat) (image : LoadImage) (s : State) : State :=
  s.request q msgLoadEnd .operator (fun s => match s.sessionLoad load with
    | none => s.reply q msgLoadEnd mgRange []
    | some l =>
      let (s, r) := s.finishLoad l image
      s.reply q msgLoadEnd r (leBytes 4 r))

def execLoadEnd (q : Req) (load : Nat) (image : LoadImage) (s : State) : Host.Outcome State Fault Refusal := .next (loadEnd q load image s)

/-- The body of a LOAD_STATUS reply. -/
def Load.status (l : Load) : List Byte :=
  leBytes 1 l.st ++ leBytes 1 (if l.st = 4 then 0 else l.result) ++ leBytes 2 0 ++ leBytes 8 (if l.st = 1 then l.furlong else 0)

/-- LOAD_STATUS. -/
def loadStatus (q : Req) (load : Nat) (s : State) : State :=
  s.request q msgLoadStatus .observer (fun s => match s.mgmt.loads.find? (fun l => l.number == load) with
    | some l => s.reply q msgLoadStatus 0 l.status
    | none => s.reply q msgLoadStatus mgRange [])

def execLoadStatus (q : Req) (load : Nat) (s : State) : Host.Outcome State Fault Refusal := .next (loadStatus q load s)

/-- LOAD_CANCEL: discards the open load, whoever opened it. -/
def loadCancel (q : Req) (load : Nat) (s : State) : State :=
  s.request q msgLoadCancel .operator (fun s => match s.mgmt.openLoad with
    | some l =>
      if l.number = load then (s.discardLoad l 0 (bySession q.session)).reply q msgLoadCancel 0 []
      else s.reply q msgLoadCancel mgRange []
    | none => s.reply q msgLoadCancel mgRange [])

def execLoadCancel (q : Req) (load : Nat) (s : State) : Host.Outcome State Fault Refusal := .next (loadCancel q load s)

/-! ### Telemetry and records (R363, R418) -/

/-- A hide's entry of TELEMETRY. -/
def State.telemetryHide (s : State) (h : Nat) : List Byte :=
  let x := s.hide h
  if x.confidential && x.k.tsp == .run then List.replicate 32 0
  else leBytes 4 x.c.telAdmitted.toNat ++ leBytes 4 x.c.telFailed.toNat ++ leBytes 8 x.c.telIn.toNat ++ leBytes 8 x.c.telOut.toNat ++
    leBytes 8 x.c.telAcre.toNat

/-- A temperature as one byte. -/
def celsius (t : Int) : Byte := BitVec.ofInt 8 t

/-- The body of TELEMETRY: 1,024 bytes. -/
def State.telemetryBody (s : State) : List Byte :=
  leBytes 8 (s.globalRead .rtc) ++ leBytes 6 s.plan.furlong ++ leBytes 2 (if s.reamActive then s.furlongLength else 0) ++
  leBytes 4 s.power.vin.toNat ++ leBytes 4 s.power.iin.toNat ++ leBytes 4 s.power.watts ++ leBytes 4 s.planWatts ++
  leBytes 4 s.pwStat ++ leBytes 4 0 ++ (List.range 64).map (fun r => celsius (s.junction r)) ++
  (List.range 64).map (fun r => celsius (s.dramTemp r)) ++ [celsius (s.sensor 192).value, celsius (s.sensor 193).value] ++
  List.replicate 6 0 ++ (List.range 16).flatMap s.telemetryHide ++ List.replicate 336 0

/-- The counts since the previous TELEMETRY start again. -/
def CPart.telZero (c : CPart) : CPart := { c with telAdmitted := 0, telFailed := 0, telIn := 0, telOut := 0, telAcre := 0 }
def State.telemetryTaken (s : State) : State :=
  { s with hides := s.hides.map (fun (x : Nat × HideSt) => (x.1, { x.2 with c := x.2.c.telZero })) }

/-- TELEMETRY. -/
def telemetry (q : Req) (s : State) : State :=
  s.request q msgTelemetry .observer (fun s => s.telemetryTaken.reply q msgTelemetry 0 s.telemetryBody)
def execTelemetry (q : Req) (s : State) : Host.Outcome State Fault Refusal := .next (telemetry q s)

/-- SUBSCRIBE. -/
def subscribe (q : Req) (period notices : Nat) (s : State) : State :=
  s.request q msgSubscribe .observer (fun s =>
    if 65536 < period ∨ 1 < notices then s.reply q msgSubscribe mgRange []
    else
      let s := { s with mgmt := { s.mgmt with sessions := s.mgmt.sessions.map (fun (x : Session) =>
        if x.id = q.session then { x with period := period, notices := notices == 1 } else x) } }
      s.reply q msgSubscribe 0 [])

def execSubscribe (q : Req) (period notices : Nat) (s : State) : Host.Outcome State Fault Refusal := .next (subscribe q period notices s)

/-- TELEMETRY_PERIOD: the subscribed period of a session has passed. -/
def telemetryPeriod (id : Nat) (s : State) : State :=
  if !s.portOpen then s
  else match s.session id with
    | some x => if x.period = 0 then s else s.telemetryTaken.message ⟨id, msgTelemetryOut, 0, 0, s.telemetryBody⟩
    | none => s

def execTelemetryPeriod (session : Nat) (s : State) : Host.Outcome State Fault Refusal := .next (telemetryPeriod session s)

/-- Whole records from the front of a list, up to a number of bytes. -/
def wholeRecords : Nat → List Rec → List Rec
  | _, [] => []
  | room, r :: t => if r.size ≤ room then r :: wholeRecords (room - r.size) t else []

/-- BB_READ. -/
def bbRead (q : Req) (seq limit : Nat) (s : State) : State :=
  s.request q msgBbRead .observer (fun s =>
    if within 36 1048000 limit then
      s.reply q msgBbRead 0 ((wholeRecords limit (s.box.recs.filter (fun r => decide (seq ≤ r.seq)))).flatMap Rec.image)
    else s.reply q msgBbRead mgRange [])

def execBbRead (q : Req) (seq limit : Nat) (s : State) : Host.Outcome State Fault Refusal := .next (bbRead q seq limit s)

/-! ### Resets and the clock (R368, R410, R415, R420) -/

/-- HIDE_RESET: by the operator, immediate or in drain mode. -/
def hideReset (q : Req) (hide mode : Nat) (s : State) : State :=
  s.request q msgHideReset .operator (fun s =>
    if 16 ≤ hide ∨ 1 < mode then s.reply q msgHideReset mgRange []
    else if (s.hide hide).lay.isNone then s.reply q msgHideReset 0 (leBytes 4 stNotAdmitted)
    else
      let s := s.config (bySession q.session) cfgReset 0 [2] hide
      (s.startReset hide 4 (mode == 1) (bySession q.session)).reply q msgHideReset 0 (leBytes 4 stOk))

def execHideReset (q : Req) (hide mode : Nat) (s : State) : Host.Outcome State Fault Refusal := .next (hideReset q hide mode s)

/-- DEVICE_RESET: the reply is sent before the reset takes effect. -/
def deviceReset (q : Req) (confirm : Nat) (s : State) : State :=
  s.request q msgDeviceReset .operator (fun s =>
    if confirm ≠ 0x52535456 then s.reply q msgDeviceReset mgRange []
    else ((s.config (bySession q.session) cfgReset 0 [1] 0xFF).reply q msgDeviceReset 0 []).deviceReset 4)

def execDeviceReset (q : Req) (confirm : Nat) (s : State) : Host.Outcome State Fault Refusal := .next (deviceReset q confirm s)

/-- A region after its reset: what its logic held starts again, and a passing test ends its failure. -/
def Region.retest (x : Region) (code : Nat) : Region :=
  if code = 0 then { x with failed := false, xtsFail := false, strikes := 0, lateAt := [], linkFails := [], late := x.late }
  else { x with failed := true, xtsFail := x.xtsFail || code == 6, strikes := 0, lateAt := [], linkFails := [] }

/-- REGION_RESET: for a region that is not live in the variant in force. -/
def regionReset (q : Req) (region : Nat) (result : RegionTest) (s : State) : State :=
  s.request q msgRegionReset .operator (fun s =>
    if !s.reamActive then s.reply q msgRegionReset mgNotReady []
    else if 64 ≤ region ∨ bit s.liveMask region then s.reply q msgRegionReset mgRange []
    else
      let s := s.upRegion region (fun x => x.retest result.code)
      let s := s.config (bySession q.session) cfgReset 0 [3, region] 0xFF
      let s := s.record recReset (bySession q.session) region [3, 4, region]
      s.reply q msgRegionReset 0 (leBytes 1 (if result.code = 0 then 0 else 1) ++ leBytes 1 result.code ++
        leBytes 2 (if result.code = 0x80 then result.pattern else 0)))

def execRegionReset (q : Req) (region : Nat) (result : RegionTest) (s : State) : Host.Outcome State Fault Refusal :=
  .next (regionReset q region result s)

/-- The two words of a 64-bit value, for a record's body. -/
def twoWords (n : Nat) : List Nat := [n % 2 ^ 32, n / 2 ^ 32]

/-- SET_TIME. -/
def setTime (q : Req) (rtc : U64) (s : State) : State :=
  s.request q msgSetTime .operator (fun s =>
    let old := s.globalRead .rtc
    let s := { s with mgmt := { s.mgmt with rtc := rtc, rtcSet := true } }
    (s.config (bySession q.session) cfgTime 0 (twoWords old ++ twoWords rtc.toNat) 0xFF).reply q msgSetTime 0 (leBytes 8 old))

def execSetTime (q : Req) (rtc : U64) (s : State) : Host.Outcome State Fault Refusal := .next (setTime q rtc s)

/-! ### Anchors, floor, lifecycle (R383, R392, R393) -/

/-- The places of the anchor store for a kind. -/
def anchorPlaces (kind : Nat) : Nat := if kind = 0 then 8 else if kind = 1 then 4 else if kind = 2 then 4 else if kind = 3 then 2 else 0

/-- An anchor request within its ranges. -/
def anchorRanged (a : AnchorReq) : Bool := decide (a.kind ≤ 3) && (if a.kind = 0 then decide (a.role ≤ 2) else a.role == 0)

/-- The anchor that a request describes. -/
def anchorOf (a : AnchorReq) : Anchor := ⟨a.kind, a.role, a.digest⟩

/-- Can the anchor be enrolled: in range, room for its kind, and not enrolled already. -/
def Dex.takes (d : Dex) (a : AnchorReq) : Bool :=
  anchorRanged a && decide (d.anchorsOf a.kind < anchorPlaces a.kind) &&
  !(d.anchors.any (fun x => x.kind == a.kind && x.digest == a.digest))

/-- Enrol an anchor, and log it. -/
def State.enroll (s : State) (a : AnchorReq) (o : Origin) : State :=
  ({ s with dex := { s.dex with anchors := s.dex.anchors ++ [anchorOf a] } }).config o cfgAnchor 0 [1, a.kind, a.role] 0xFF

/-- ANCHOR_ENROLL: by an ADMIN session, or without a session while the claim strap holds and no management anchor is enrolled. -/
def anchorEnroll (q : Option Req) (a : AnchorReq) (s : State) : State :=
  match q with
  | some q => s.request q msgAnchor .admin (fun s =>
      if s.dex.takes a then (s.enroll a (bySession q.session)).reply q msgAnchor 0 [] else s.reply q msgAnchor mgRange [])
  | none =>
    if s.portOpen && !(s.mgmt.straps.getLsbD 0) && s.dex.anchorsOf 0 == 0 && a.kind == 0 && s.dex.takes a then s.enroll a (agent 2)
    else s

def execAnchorEnroll (q : Option Req) (a : AnchorReq) (s : State) : Host.Outcome State Fault Refusal := .next (anchorEnroll q a s)

/-- Is an anchor the last ADMIN anchor. -/
def Dex.lastAdmin (d : Dex) (a : AnchorReq) : Bool :=
  a.kind == 0 && a.role == 0 && decide ((d.anchors.filter (fun x => x.kind == 0 && x.role == 0)).length ≤ 1)

/-- ANCHOR_REMOVE. -/
def anchorRemove (q : Req) (a : AnchorReq) (s : State) : State :=
  s.request q msgAnchor .admin (fun s =>
    if !(s.dex.anchors.contains (anchorOf a)) then s.reply q msgAnchor mgRange []
    else if s.dex.lastAdmin a then s.reply q msgAnchor mgNotPermitted []
    else
      let s := { s with dex := { s.dex with anchors := s.dex.anchors.erase (anchorOf a) } }
      (s.config (bySession q.session) cfgAnchor 0 [2, a.kind, a.role] 0xFF).reply q msgAnchor 0 [])

def execAnchorRemove (q : Req) (a : AnchorReq) (s : State) : Host.Outcome State Fault Refusal := .next (anchorRemove q a s)

/-- FLOOR_RAISE: to a value above the old. -/
def floorRaise (q : Req) (floor : U32) (s : State) : State :=
  s.request q msgFloor .admin (fun s =>
    let old := s.dex.planFloor.toNat
    if floor.toNat ≤ old then s.reply q msgFloor mgRange []
    else
      let s := { s with dex := { s.dex with planFloor := floor } }
      (s.config (bySession q.session) cfgFloor 0 [old, floor.toNat] 0xFF).reply q msgFloor 0 (leBytes 4 old))

def execFloorRaise (q : Req) (floor : U32) (s : State) : Host.Outcome State Fault Refusal := .next (floorRaise q floor s)

/-- Dexfoti after a lifecycle transition; none where there is no such transition. -/
def Dex.moveLife (d : Dex) (target sealing : Nat) : Option Dex :=
  match d.life, target, sealing with
  | .blank, 1, 0 => some { d with life := .production }
  | .blank, 1, 1 => some { d with life := .production, sealedFuse := true }
  | .production, 2, 0 => some { d with life := .rma, identityGone := true, anchors := d.anchors.filter (fun a => a.kind != 0) }
  | _, _, _ => none

/-- LIFECYCLE. -/
def lifecycle (q : Req) (target sealing : Nat) (s : State) : State :=
  s.request q msgLifecycle .admin (fun s => match s.dex.moveLife target sealing with
    | none => s.reply q msgLifecycle mgRange []
    | some d => (({ s with dex := d }).config (bySession q.session) cfgLife 0 [target, sealing] 0xFF).reply q msgLifecycle 0 [])

def execLifecycle (q : Req) (target sealing : Nat) (s : State) : Host.Outcome State Fault Refusal := .next (lifecycle q target sealing s)

/-! ### Debug unlock (R384) and self-tests (R396) -/

/-- DEBUG_CHALLENGE. -/
def debugChallenge (q : Req) (s : State) : State :=
  s.request q msgDebug .admin (fun s =>
    let (s, c) := s.draw
    ({ s with dex := { s.dex with challenge := some c.toNat } }).reply q msgDebug 0 (leBytes 32 c.toNat))

def execDebugChallenge (q : Req) (s : State) : Host.Outcome State Fault Refusal := .next (debugChallenge q s)

/-- Is a token accepted. -/
def Dex.accepts (d : Dex) (t : Token) : Bool :=
  d.life == .production && !d.sealedFuse && t.sigOk && d.anchorsOf 3 != 0 && t.serial == Config.deviceSerial.toNat &&
  d.challenge == some t.challenge

/-- DEBUG_TOKEN: an accepted token takes effect at the next device reset. -/
def debugToken (q : Req) (t : Token) (s : State) : State :=
  s.request q msgDebug .admin (fun s =>
    if s.dex.accepts t then
      (({ s with dex := { s.dex with unlockNext := true } }).config (bySession q.session) cfgToken 0 [] 0xFF).reply q msgDebug 0 []
    else (s.config (bySession q.session) cfgToken mgNotPermitted [] 0xFF).reply q msgDebug mgNotPermitted [])

def execDebugToken (q : Req) (t : Token) (s : State) : Host.Outcome State Fault Refusal := .next (debugToken q t s)

/-- SELFTEST_RUN: `code` is the first test of R395 that fails. A failure other than of test 0x06 enters the security-error state
after the reply. -/
def selftestRun (q : Req) (code : BitVec 8) (s : State) : State :=
  s.request q msgSelftest .operator (fun s =>
    let s := s.reply q msgSelftest 0 (leBytes 4 code.toNat)
    if code = 0 ∨ code = 6 then { s with dex := { s.dex with testCode := code.toNat } } else s.securityError code.toNat)

def execSelftestRun (q : Req) (code : BitVec 8) (s : State) : Host.Outcome State Fault Refusal := .next (selftestRun q code s)

/-! ### The PHY and the test port (R441, R444, R445) -/

/-- PHY_INT_N: the controller reads the PHY's status; a PHY that does not answer takes the port down until it does. -/
def phyInt (answered : Bool) (s : State) : State :=
  if s.ioUp then { s with mgmt := { s.mgmt with phyUp := answered } } else s

def execPhyIntN (answered : Bool) (s : State) : Host.Outcome State Fault Refusal := .next (phyInt answered s)

/-- May an instruction act: IDCODE and BYPASS always, boundary scan and the internal chains by the debug state and RESET_N. -/
def tapAllowed (d : Debug) (inReset : Bool) : TapOp → Bool
  | .idcode => true
  | .bypass => true
  | .internalChain => d == .unlocked || d == .open_
  | _ => match d with | .open_ => true | .locked => inReset | .unlocked => inReset | .sealed => false

/-- The IDCODE (R445). -/
def idcode : BitVec 32 := BitVec.ofNat 32 (0x0096056F + 2 ^ 28 * (Config.stepping.toNat % 16))

/-- TAP_INSTRUCTION: an instruction that is not permitted acts as BYPASS. -/
def tapInstruction (op : TapOp) (s : State) : State :=
  if s.power.st == .off then s
  else
    let inst : TapOp := if tapAllowed s.dex.debug s.resetPin op then op else .bypass
    { s with tap := { s.tap with inst := inst, shifted := if inst = .idcode then some idcode else s.tap.shifted } }

def execTapInstruction (op : TapOp) (s : State) : Host.Outcome State Fault Refusal := .next (tapInstruction op s)

end Sys2Proof.Machine
end

