-- ==== Sys2Proof/Machine/Dispatch.lean ====
section
/-!
DEFINITION. One arm per command: a direct call of its meaning.
-/

namespace Sys2Proof.Machine
open Sys2Proof

def exec (i : Instr) (s : State) : Host.Outcome State Fault Refusal :=
  match i with
  | .standbyStart => Sys2Proof.Machine.execStandbyStart s
  | .resetRelease straps0 straps1 straps2 testCode xtsFail torn => Sys2Proof.Machine.execResetRelease straps0 straps1 straps2 testCode xtsFail torn s
  | .powerUpStepOverrun step => Sys2Proof.Machine.execPowerUpStepOverrun step s
  | .powerLoss byVin => Sys2Proof.Machine.execPowerLoss byVin s
  | .protectiveShutdown => Sys2Proof.Machine.execProtectiveShutdown s
  | .resetN => Sys2Proof.Machine.execResetN s
  | .vinSample vin iin => Sys2Proof.Machine.execVinSample vin iin s
  | .monitorFail => Sys2Proof.Machine.execMonitorFail s
  | .sensorSample readings => Sys2Proof.Machine.execSensorSample readings s
  | .sensorTimeout sensor => Sys2Proof.Machine.execSensorTimeout sensor s
  | .leanReturnCount => Sys2Proof.Machine.execLeanReturnCount s
  | .clockMonitorWindow bad => Sys2Proof.Machine.execClockMonitorWindow bad s
  | .regionClockWindow ppm => Sys2Proof.Machine.execRegionClockWindow ppm s
  | .pllLossOfLock r => Sys2Proof.Machine.execPllLossOfLock r s
  | .entropyHealthFail => Sys2Proof.Machine.execEntropyHealthFail s
  | .furlongCounterComplete r => Sys2Proof.Machine.execFurlongCounterComplete r s
  | .boundaryMark r src low => Sys2Proof.Machine.execBoundaryMark r src low s
  | .furlongStart r => Sys2Proof.Machine.execFurlongStart r s
  | .boundaryLimit r => Sys2Proof.Machine.execBoundaryLimit r s
  | .switchNotice => Sys2Proof.Machine.execSwitchNotice s
  | .drainLimit => Sys2Proof.Machine.execDrainLimit s
  | .heldOutRotation c => Sys2Proof.Machine.execHeldOutRotation c s
  | .screenPatternRun c phys pattern result => Sys2Proof.Machine.execScreenPatternRun c phys pattern result s
  | .screenSummary => Sys2Proof.Machine.execScreenSummary s
  | .bankGroupFaultRecord => Sys2Proof.Machine.execBankGroupFaultRecord s
  | .gateFurlongStart => Sys2Proof.Machine.execGateFurlongStart s
  | .policerRefill => Sys2Proof.Machine.execPolicerRefill s
  | .egressFrameStart link chain cycle => Sys2Proof.Machine.execEgressFrameStart link chain cycle s
  | .cxlMemWrite ld off data poison writeBack cycle => Sys2Proof.Machine.execCxlMemWrite ld off data poison writeBack cycle s
  | .cxlMemRead ld off kind => Sys2Proof.Machine.execCxlMemRead ld off kind s
  | .cxlMemInv ld off => Sys2Proof.Machine.execCxlMemInv ld off s
  | .uioRead ld off => Sys2Proof.Machine.execUioRead ld off s
  | .uioWrite ld off data poison cycle => Sys2Proof.Machine.execUioWrite ld off data poison cycle s
  | .packetTake h => Sys2Proof.Machine.execPacketTake h s
  | .packetTimeout h ring => Sys2Proof.Machine.execPacketTimeout h ring s
  | .heldPostTimeout h => Sys2Proof.Machine.execHeldPostTimeout h s
  | .queuePointerMismatch h kind ring => Sys2Proof.Machine.execQueuePointerMismatch h kind ring s
  | .admitSeq h c e => Sys2Proof.Machine.execAdmitSeq h c e s
  | .admitSeqExtend h c e => Sys2Proof.Machine.execAdmitSeqExtend h c e s
  | .retireSeq h c e => Sys2Proof.Machine.execRetireSeq h c e s
  | .forkPrefix h c e => Sys2Proof.Machine.execForkPrefix h c e s
  | .lookupPrefix h c e => Sys2Proof.Machine.execLookupPrefix h c e s
  | .lookupPrefixContinue h c e => Sys2Proof.Machine.execLookupPrefixContinue h c e s
  | .hashLaneDone h => Sys2Proof.Machine.execHashLaneDone h s
  | .publishPrefixCreate h c e => Sys2Proof.Machine.execPublishPrefixCreate h c e s
  | .publishPrefixPromote h c e => Sys2Proof.Machine.execPublishPrefixPromote h c e s
  | .publishPrefixWithdraw h c e => Sys2Proof.Machine.execPublishPrefixWithdraw h c e s
  | .stepDecode h c e => Sys2Proof.Machine.execStepDecode h c e s
  | .fetchArrival h fetch => Sys2Proof.Machine.execFetchArrival h fetch s
  | .fetchDeadline h fetch => Sys2Proof.Machine.execFetchDeadline h fetch s
  | .deferReentry h c e => Sys2Proof.Machine.execDeferReentry h c e s
  | .stepPrefill h c e => Sys2Proof.Machine.execStepPrefill h c e s
  | .stepBackward h c e => Sys2Proof.Machine.execStepBackward h c e s
  | .projectAppend h c e => Sys2Proof.Machine.execProjectAppend h c e s
  | .recode h c e => Sys2Proof.Machine.execRecode h c e s
  | .stateStep h c e => Sys2Proof.Machine.execStateStep h c e s
  | .scoreTopk h c e => Sys2Proof.Machine.execScoreTopk h c e s
  | .place h c e => Sys2Proof.Machine.execPlace h c e s
  | .swapOut h c e => Sys2Proof.Machine.execSwapOut h c e s
  | .swapIn h c e => Sys2Proof.Machine.execSwapIn h c e s
  | .evictScore h c e => Sys2Proof.Machine.execEvictScore h c e s
  | .deliverPages h c e => Sys2Proof.Machine.execDeliverPages h c e s
  | .deliverDeadline h => Sys2Proof.Machine.execDeliverDeadline h s
  | .loadCodebook h c e => Sys2Proof.Machine.execLoadCodebook h c e s
  | .retireCodebook h c e => Sys2Proof.Machine.execRetireCodebook h c e s
  | .codebookSlotReload h key c ok => Sys2Proof.Machine.execCodebookSlotReload h key c ok s
  | .loadWeights h c e => Sys2Proof.Machine.execLoadWeights h c e s
  | .loadWeightsRetire h c e => Sys2Proof.Machine.execLoadWeightsRetire h c e s
  | .txnBegin h => Sys2Proof.Machine.execTxnBegin h s
  | .txnCommit h => Sys2Proof.Machine.execTxnCommit h s
  | .txnAbort h => Sys2Proof.Machine.execTxnAbort h s
  | .txnDecision h txn => Sys2Proof.Machine.execTxnDecision h txn s
  | .txnTimeout h ring => Sys2Proof.Machine.execTxnTimeout h ring s
  | .dropRest h => Sys2Proof.Machine.execDropRest h s
  | .replayStart r => Sys2Proof.Machine.execReplayStart r s
  | .replayResult replay out => Sys2Proof.Machine.execReplayResult replay out s
  | .dramCorrectiveWriteback c => Sys2Proof.Machine.execDramCorrectiveWriteback c s
  | .dmaReadCompletion h tag result => Sys2Proof.Machine.execDmaReadCompletion h tag result s
  | .dmaReadTimeout h tag => Sys2Proof.Machine.execDmaReadTimeout h tag s
  | .lease h v => Sys2Proof.Machine.execLease h v s
  | .release h v => Sys2Proof.Machine.execRelease h v s
  | .sealAcre h v => Sys2Proof.Machine.execSealAcre h v s
  | .grant h v => Sys2Proof.Machine.execGrant h v s
  | .attach h v => Sys2Proof.Machine.execAttach h v s
  | .revoke h v => Sys2Proof.Machine.execRevoke h v s
  | .leaseRecallComplete h => Sys2Proof.Machine.execLeaseRecallComplete h s
  | .acRenew h mask => Sys2Proof.Machine.execAcRenew h mask s
  | .leaseExpiry h slot => Sys2Proof.Machine.execLeaseExpiry h slot s
  | .leaseDrainComplete h slot => Sys2Proof.Machine.execLeaseDrainComplete h slot s
  | .acreScrubComplete h slot => Sys2Proof.Machine.execAcreScrubComplete h slot s
  | .acreRequestServe h => Sys2Proof.Machine.execAcreRequestServe h s
  | .biSnoopResponse h off data => Sys2Proof.Machine.execBiSnoopResponse h off data s
  | .biSnoopTimeout h off => Sys2Proof.Machine.execBiSnoopTimeout h off s
  | .poisonMarkWrite acre line => Sys2Proof.Machine.execPoisonMarkWrite acre line s
  | .hdmDecoderCommit ld size ways base lock => Sys2Proof.Machine.execHdmDecoderCommit ld size ways base lock s
  | .ringEnable h kind ring ctl => Sys2Proof.Machine.execRingEnable h kind ring ctl s
  | .ringDisable h kind ring ctl => Sys2Proof.Machine.execRingDisable h kind ring ctl s
  | .bufferEnable h b ctl => Sys2Proof.Machine.execBufferEnable h b ctl s
  | .bufferDisable h b ctl => Sys2Proof.Machine.execBufferDisable h b ctl s
  | .jobkeyCreate h v => Sys2Proof.Machine.execJobkeyCreate h v s
  | .jobkeyDestroy h v => Sys2Proof.Machine.execJobkeyDestroy h v s
  | .registerWrite h off size v poison => Sys2Proof.Machine.execRegisterWrite h off size v poison s
  | .rcRegisterRead h off size => Sys2Proof.Machine.execRcRegisterRead h off size s
  | .hideResetGo h drain => Sys2Proof.Machine.execHideResetGo h drain s
  | .hideResetProceed h => Sys2Proof.Machine.execHideResetProceed h s
  | .hideResetEndingDone h => Sys2Proof.Machine.execHideResetEndingDone h s
  | .hideResetHeldTimeout h => Sys2Proof.Machine.execHideResetHeldTimeout h s
  | .hideResetKeysDone h => Sys2Proof.Machine.execHideResetKeysDone h s
  | .hideResetReleaseDone h => Sys2Proof.Machine.execHideResetReleaseDone h s
  | .hideResetScrubDone h => Sys2Proof.Machine.execHideResetScrubDone h s
  | .flr ld => Sys2Proof.Machine.execFlr ld s
  | .cxlLinkDown => Sys2Proof.Machine.execCxlLinkDown s
  | .cxlPerstN => Sys2Proof.Machine.execCxlPerstN s
  | .cxlLinkWidthChange width rate => Sys2Proof.Machine.execCxlLinkWidthChange width rate s
  | .ideIntegrityFail stream => Sys2Proof.Machine.execIdeIntegrityFail stream s
  | .tspLock h => Sys2Proof.Machine.execTspLock h s
  | .tspStart h => Sys2Proof.Machine.execTspStart h s
  | .tspStop h => Sys2Proof.Machine.execTspStop h s
  | .spdmGetMeasurements mailbox nonce => Sys2Proof.Machine.execSpdmGetMeasurements mailbox nonce s
  | .doeBegin ld mode size => Sys2Proof.Machine.execDoeBegin ld mode size s
  | .doeData ld load off len => Sys2Proof.Machine.execDoeData ld load off len s
  | .doeEnd ld load image => Sys2Proof.Machine.execDoeEnd ld load image s
  | .doeStatus ld load => Sys2Proof.Machine.execDoeStatus ld load s
  | .doeCancel ld load => Sys2Proof.Machine.execDoeCancel ld load s
  | .sessionHandshake anchor family => Sys2Proof.Machine.execSessionHandshake anchor family s
  | .sessionIdleTimeout session => Sys2Proof.Machine.execSessionIdleTimeout session s
  | .handshakeRefusalExpiry => Sys2Proof.Machine.execHandshakeRefusalExpiry s
  | .statusProbe nonce => Sys2Proof.Machine.execStatusProbe nonce s
  | .regRead q off count => Sys2Proof.Machine.execRegRead q off count s
  | .regWrite q off v width => Sys2Proof.Machine.execRegWrite q off v width s
  | .loadBegin q kind mode size => Sys2Proof.Machine.execLoadBegin q kind mode size s
  | .loadData q load off len => Sys2Proof.Machine.execLoadData q load off len s
  | .loadEnd q load image => Sys2Proof.Machine.execLoadEnd q load image s
  | .loadReceiveTimeout => Sys2Proof.Machine.execLoadReceiveTimeout s
  | .loadStatus q load => Sys2Proof.Machine.execLoadStatus q load s
  | .loadCancel q load => Sys2Proof.Machine.execLoadCancel q load s
  | .telemetry q => Sys2Proof.Machine.execTelemetry q s
  | .subscribe q period notices => Sys2Proof.Machine.execSubscribe q period notices s
  | .telemetryPeriod session => Sys2Proof.Machine.execTelemetryPeriod session s
  | .bbRead q seq limit => Sys2Proof.Machine.execBbRead q seq limit s
  | .hideReset q hide mode => Sys2Proof.Machine.execHideReset q hide mode s
  | .deviceReset q confirm => Sys2Proof.Machine.execDeviceReset q confirm s
  | .regionReset q region result => Sys2Proof.Machine.execRegionReset q region result s
  | .setTime q rtc => Sys2Proof.Machine.execSetTime q rtc s
  | .anchorEnroll q a => Sys2Proof.Machine.execAnchorEnroll q a s
  | .anchorRemove q a => Sys2Proof.Machine.execAnchorRemove q a s
  | .floorRaise q floor => Sys2Proof.Machine.execFloorRaise q floor s
  | .lifecycle q target sealing => Sys2Proof.Machine.execLifecycle q target sealing s
  | .debugChallenge q => Sys2Proof.Machine.execDebugChallenge q s
  | .debugToken q t => Sys2Proof.Machine.execDebugToken q t s
  | .selftestRun q code => Sys2Proof.Machine.execSelftestRun q code s
  | .trainingStepComplete p lanes => Sys2Proof.Machine.execTrainingStepComplete p lanes s
  | .trainingStepTimeout p => Sys2Proof.Machine.execTrainingStepTimeout p s
  | .trainingRetry p => Sys2Proof.Machine.execTrainingRetry p s
  | .leagueRsp p chk tag status failed => Sys2Proof.Machine.execLeagueRsp p chk tag status failed s
  | .leagueRdata p chk tag sector payload => Sys2Proof.Machine.execLeagueRdata p chk tag sector payload s
  | .leagueCtrl p ok c => Sys2Proof.Machine.execLeagueCtrl p ok c s
  | .leagueCtrlSend p => Sys2Proof.Machine.execLeagueCtrlSend p s
  | .leagueReplayTimeout p => Sys2Proof.Machine.execLeagueReplayTimeout p s
  | .leagueIdleTimeout p => Sys2Proof.Machine.execLeagueIdleTimeout p s
  | .leagueCommandTimeout p tag => Sys2Proof.Machine.execLeagueCommandTimeout p tag s
  | .laneFault p lane => Sys2Proof.Machine.execLaneFault p lane s
  | .symbolErrorWindow p lane errors => Sys2Proof.Machine.execSymbolErrorWindow p lane errors s
  | .holdupOk => Sys2Proof.Machine.execHoldupOk s
  | .cxlLinkUp width rate => Sys2Proof.Machine.execCxlLinkUp width rate s
  | .ideStreamEstablished stream => Sys2Proof.Machine.execIdeStreamEstablished stream s
  | .configurationWrite ld off v => Sys2Proof.Machine.execConfigurationWrite ld off v s
  | .phyIntN answered => Sys2Proof.Machine.execPhyIntN answered s
  | .sessionClose session => Sys2Proof.Machine.execSessionClose session s
  | .tapInstruction op => Sys2Proof.Machine.execTapInstruction op s

end Sys2Proof.Machine
end

