-- ==== Sys2Proof/WellFormed.lean ====
section
/-!
DEFINITION. Which commands are well formed: the ranges that the operand types do not already enforce.
-/

namespace Sys2Proof

/-- A line of an HDM range: 64 bytes at a multiple of 64 below 17 GiB (R253, R285). -/
def lineOk (off : Nat) : Bool := off % 64 == 0 && decide (off < 17 * 2 ^ 30)

/-- A cycle of a chain's open part (R332). -/
def gateCycleOk (cycle : Nat) : Bool := decide (cycle < 250)

/-- A width and rate that the port can run at (R279, R280). -/
def linkOk (width rate : Nat) : Bool := (width == 16 || width == 8 || width == 4) && (rate == 1 || rate == 2 || rate == 3)

/-- An access size that a register access can have (R284). -/
def accessOk (size : Nat) : Bool := size == 1 || size == 2 || size == 4 || size == 8

/-- The head of a request: a 32-bit session number and TAG (R413, R414). -/
def reqOk (q : Req) : Bool := decide (q.session < 2 ^ 32) && decide (q.tag < 2 ^ 32)

/-- An anchor request's fields fit their bytes (R416). -/
def anchorOk (a : AnchorReq) : Bool := decide (a.kind < 2 ^ 8) && decide (a.role < 2 ^ 8) && decide (a.digest < 2 ^ 256)

/-- The well-formedness of a command: what its carrier can carry. -/
def Instr.wf : Instr → Bool
  | .standbyStart => true
  | .resetRelease _ _ _ _ _ _ => true
  | .powerUpStepOverrun step => decide (1 ≤ step) && decide (step ≤ 6)
  | .powerLoss _ => true
  | .protectiveShutdown => true
  | .resetN => true
  | .vinSample _ _ => true
  | .monitorFail => true
  | .sensorSample rs => rs.all (fun r => decide (r.1 < 194))
  | .sensorTimeout k => decide (k < 194)
  | .leanReturnCount => true
  | .clockMonitorWindow _ => true
  | .regionClockWindow ps => ps.all (fun p => decide (p.1 < 64))
  | .pllLossOfLock _ => true
  | .entropyHealthFail => true
  | .furlongCounterComplete _ => true
  | .boundaryMark _ _ _ => true
  | .furlongStart _ => true
  | .boundaryLimit _ => true
  | .switchNotice => true
  | .drainLimit => true
  | .heldOutRotation _ => true
  | .screenPatternRun _ phys pattern _ => decide (phys < 80) && decide (pattern < 65536)
  | .screenSummary => true
  | .bankGroupFaultRecord => true
  | .gateFurlongStart => true
  | .policerRefill => true
  | .egressFrameStart _ _ cycle => gateCycleOk cycle
  | .cxlMemWrite _ off data _ _ _ => lineOk off && data.length == 64
  | .cxlMemRead _ off _ => lineOk off
  | .cxlMemInv _ off => lineOk off
  | .uioRead _ off => lineOk off
  | .uioWrite _ off data _ _ => lineOk off && data.length == 64
  | .packetTake _ => true
  | .packetTimeout _ _ => true
  | .heldPostTimeout _ => true
  | .queuePointerMismatch _ _ _ => true
  | .admitSeq _ _ _ => true
  | .admitSeqExtend _ _ _ => true
  | .retireSeq _ _ _ => true
  | .forkPrefix _ _ _ => true
  | .lookupPrefix _ _ _ => true
  | .lookupPrefixContinue _ _ _ => true
  | .hashLaneDone _ => true
  | .publishPrefixCreate _ _ _ => true
  | .publishPrefixPromote _ _ _ => true
  | .publishPrefixWithdraw _ _ _ => true
  | .stepDecode _ _ _ => true
  | .fetchArrival _ _ => true
  | .fetchDeadline _ _ => true
  | .deferReentry _ _ _ => true
  | .stepPrefill _ _ _ => true
  | .stepBackward _ _ _ => true
  | .projectAppend _ _ _ => true
  | .recode _ _ _ => true
  | .stateStep _ _ _ => true
  | .scoreTopk _ _ _ => true
  | .place _ _ _ => true
  | .swapOut _ _ _ => true
  | .swapIn _ _ _ => true
  | .evictScore _ _ _ => true
  | .deliverPages _ _ _ => true
  | .deliverDeadline _ => true
  | .loadCodebook _ _ _ => true
  | .retireCodebook _ _ _ => true
  | .codebookSlotReload _ _ _ _ => true
  | .loadWeights _ _ _ => true
  | .loadWeightsRetire _ _ _ => true
  | .txnBegin _ => true
  | .txnCommit _ => true
  | .txnAbort _ => true
  | .txnDecision _ _ => true
  | .txnTimeout _ _ => true
  | .dropRest _ => true
  | .replayStart _ => true
  | .replayResult _ _ => true
  | .dramCorrectiveWriteback _ => true
  | .dmaReadCompletion _ _ _ => true
  | .dmaReadTimeout _ _ => true
  | .lease _ _ => true
  | .release _ _ => true
  | .sealAcre _ _ => true
  | .grant _ _ => true
  | .attach _ _ => true
  | .revoke _ _ => true
  | .leaseRecallComplete _ => true
  | .acRenew _ _ => true
  | .leaseExpiry _ _ => true
  | .leaseDrainComplete _ _ => true
  | .acreScrubComplete _ _ => true
  | .acreRequestServe _ => true
  | .biSnoopResponse _ off data => lineOk off && (data.elim true (fun d => d.length == 64))
  | .biSnoopTimeout _ off => lineOk off
  | .poisonMarkWrite _ line => decide (line < 2 ^ 22)
  | .hdmDecoderCommit _ _ _ _ _ => true
  | .ringEnable _ _ _ _ => true
  | .ringDisable _ _ _ _ => true
  | .bufferEnable _ _ _ => true
  | .bufferDisable _ _ _ => true
  | .jobkeyCreate _ _ => true
  | .jobkeyDestroy _ _ => true
  | .registerWrite _ off size _ _ => decide (off < 2 ^ 20) && accessOk size
  | .rcRegisterRead _ off size => decide (off < 2 ^ 20) && accessOk size
  | .hideResetGo _ _ => true
  | .hideResetProceed _ => true
  | .hideResetEndingDone _ => true
  | .hideResetHeldTimeout _ => true
  | .hideResetKeysDone _ => true
  | .hideResetReleaseDone _ => true
  | .hideResetScrubDone _ => true
  | .flr _ => true
  | .cxlLinkDown => true
  | .cxlPerstN => true
  | .cxlLinkWidthChange w r => linkOk w r
  | .ideIntegrityFail _ => true
  | .tspLock _ => true
  | .tspStart _ => true
  | .tspStop _ => true
  | .spdmGetMeasurements _ _ => true
  | .doeBegin _ mode size => decide (mode < 2 ^ 8) && decide (size < 2 ^ 32)
  | .doeData _ load off _ => decide (load < 2 ^ 16) && decide (off < 2 ^ 32)
  | .doeEnd _ load _ => decide (load < 2 ^ 16)
  | .doeStatus _ load => decide (load < 2 ^ 16)
  | .doeCancel _ load => decide (load < 2 ^ 16)
  | .sessionHandshake _ _ => true
  | .sessionIdleTimeout _ => true
  | .handshakeRefusalExpiry => true
  | .statusProbe _ => true
  | .regRead q off count => reqOk q && decide (off < 2 ^ 64) && decide (count < 2 ^ 16)
  | .regWrite q off _ width => reqOk q && decide (off < 2 ^ 64) && decide (width < 2 ^ 8)
  | .loadBegin q kind mode size => reqOk q && decide (kind < 2 ^ 8) && decide (mode < 2 ^ 8) && decide (size < 2 ^ 32)
  | .loadData q load off _ => reqOk q && decide (load < 2 ^ 16) && decide (off < 2 ^ 32)
  | .loadEnd q load _ => reqOk q && decide (load < 2 ^ 16)
  | .loadReceiveTimeout => true
  | .loadStatus q load => reqOk q && decide (load < 2 ^ 16)
  | .loadCancel q load => reqOk q && decide (load < 2 ^ 16)
  | .telemetry q => reqOk q
  | .subscribe q period notices => reqOk q && decide (period < 2 ^ 32) && decide (notices < 2 ^ 8)
  | .telemetryPeriod _ => true
  | .bbRead q seq limit => reqOk q && decide (seq < 2 ^ 64) && decide (limit < 2 ^ 32)
  | .hideReset q hide mode => reqOk q && decide (hide < 2 ^ 8) && decide (mode < 2 ^ 8)
  | .deviceReset q confirm => reqOk q && decide (confirm < 2 ^ 32)
  | .regionReset q region result => reqOk q && decide (region < 2 ^ 8) && decide (result.code < 2 ^ 8) && decide (result.pattern < 2 ^ 16)
  | .setTime q _ => reqOk q
  | .anchorEnroll q a => q.elim true reqOk && anchorOk a
  | .anchorRemove q a => reqOk q && anchorOk a
  | .floorRaise q _ => reqOk q
  | .lifecycle q target sealing => reqOk q && decide (target < 2 ^ 8) && decide (sealing < 2 ^ 8)
  | .debugChallenge q => reqOk q
  | .debugToken q _ => reqOk q
  | .selftestRun q _ => reqOk q
  | .trainingStepComplete _ _ => true
  | .trainingStepTimeout _ => true
  | .trainingRetry _ => true
  | .leagueRsp _ chk tag _ _ => decide (chk.seq < 4096) && decide (tag < 65536)
  | .leagueRdata _ chk tag _ _ => decide (chk.seq < 4096) && decide (tag < 65536)
  | .leagueCtrl _ _ c => decide (c.ack < 4096) && decide (c.crCmd < 65536) && decide (c.crWdata < 65536)
  | .leagueCtrlSend _ => true
  | .leagueReplayTimeout _ => true
  | .leagueIdleTimeout _ => true
  | .leagueCommandTimeout _ _ => true
  | .laneFault _ _ => true
  | .symbolErrorWindow _ _ _ => true
  | .holdupOk => true
  | .cxlLinkUp w r => linkOk w r
  | .ideStreamEstablished _ => true
  | .configurationWrite _ off _ => off % 4 == 0 && decide (off < 4096)
  | .phyIntN _ => true
  | .sessionClose _ => true
  | .tapInstruction _ => true

end Sys2Proof
end

