-- ==== Sys2Proof/Safety.lean ====
section
/-!
DEFINITION. What every state of a run keeps, in the terms the statements use.
-/

namespace Sys2Proof.Machine
open Sys2Proof

/-- The black box is in order (R361, R366): sequence numbers rise, each below the next to be given; at most 256 segments are
in use; BB_WARN is in its range; BB_ACK names no number above NEXT_SEQ. -/
structure Box.InOrder (b : Box) : Prop where
  rising : b.recs.Pairwise (fun x y => x.seq < y.seq)
  below : ∀ r ∈ b.recs, r.seq < b.next
  segments : b.segs.length ≤ 256
  warnLow : 10 ≤ b.warn.toNat
  warnHigh : b.warn.toNat ≤ 95
  acked : b.ack ≤ b.next

/-- Dexfoti keeps the lifecycle's promise (R383): a device in RMA has no identity key. -/
def Dex.Promise (d : Dex) : Prop := d.life = .rma → d.identityGone = true

/-- The invariant: interface memory in its canonical form, the black box in order, the lifecycle's promise kept. -/
structure State.Inv (s : State) : Prop where
  memory : Memory.wf s.imem = true
  box : s.box.InOrder
  dex : s.dex.Promise

/-- The machine is sound: its invariant holds, and every waiting command is well-formed. -/
def State.Sound (s : State) : Prop := s.Inv ∧ ∀ c ∈ s.pending, c.wf = true

/-- The parts of the state. -/
inductive Part where
  | power | sensors | resetPin | clocks | regions | clusters | plan | hides | imem | acres | gates | cxl | ports | dex | mgmt | box
  | screen | tap | free
  deriving DecidableEq, Repr

/-- A part is the same in both states. -/
def Same : Part → State → State → Prop
  | .power, s, t => t.power = s.power
  | .sensors, s, t => t.sensors = s.sensors
  | .resetPin, s, t => t.resetPin = s.resetPin
  | .clocks, s, t => t.clocks = s.clocks
  | .regions, s, t => t.regions = s.regions
  | .clusters, s, t => t.clusters = s.clusters
  | .plan, s, t => t.plan = s.plan
  | .hides, s, t => t.hides = s.hides
  | .imem, s, t => t.imem = s.imem
  | .acres, s, t => t.acres = s.acres
  | .gates, s, t => t.gates = s.gates
  | .cxl, s, t => t.cxl = s.cxl
  | .ports, s, t => t.ports = s.ports
  | .dex, s, t => t.dex = s.dex
  | .mgmt, s, t => t.mgmt = s.mgmt
  | .box, s, t => t.box = s.box
  | .screen, s, t => t.screen = s.screen
  | .tap, s, t => t.tap = s.tap
  | .free, s, t => t.free = s.free

/-- Between two states a record with this content was written to the black box. -/
def Logged (s t : State) (typ : Nat) (o : Origin) (region : Nat) (body : List Nat) : Prop :=
  ∃ r ∈ t.box.recs, s.box.next ≤ r.seq ∧ r.typ = typ ∧ r.origin = o ∧ r.region = region ∧ r.body = body

/-- The two states differ in the named parts at most. -/
def Only (T : List Part) (s t : State) : Prop := ∀ p, p ∉ T → Same p s t

/-- Everything volatile is at its reset value (R410): no ream, no object, no lease, no key, no session, no extent or spare map. -/
def Wiped (t : State) : Prop :=
  t.plan = Plan.reset ∧ t.hides = [] ∧ t.imem = [] ∧ t.regions = [] ∧ t.clusters = [] ∧ t.acres = [] ∧ t.ports = [] ∧
  t.cxl = Cxl.reset ∧ t.clocks = Clocks.reset ∧ t.sensors = [] ∧ t.dex.sessionRoot = 0 ∧ t.mgmt.sessions = [] ∧ t.mgmt.loads = [] ∧
  t.mgmt.rtcSet = false

/-- What a device reset keeps (R410): the pattern store, the anchor store, the fuses and the lifecycle, the plan floor, BB_ACK,
the session counter, and the firmware store, whose new image takes effect (R417). -/
def StoresKept (s t : State) : Prop :=
  t.screen.package = s.screen.package ∧ t.dex.anchors = s.dex.anchors ∧ t.dex.life = s.dex.life ∧
  t.dex.sealedFuse = s.dex.sealedFuse ∧ t.dex.planFloor = s.dex.planFloor ∧ t.box.ack = s.box.ack ∧
  t.mgmt.nextSession = s.mgmt.nextSession ∧ t.dex.dexFw = s.dex.dexNext.getD s.dex.dexFw ∧
  t.dex.mgmtFw = s.dex.mgmtNext.getD s.dex.mgmtFw

/-- What the queue engine and the orders of a hide leave alone: its LAYOUT entry and section, its root, its TSP state, the course of its
reset, and its job-key and trace registers. -/
structure HideSt.Core where
  lay : Option HideEntry
  sec : Option Section
  root : BitVec 256
  tsp : Tsp
  phase : ResetPhase
  drain : Bool
  cause : Nat
  origin : Nat × Nat
  jobResult : Nat
  profCtl : U32
  deriving DecidableEq, Repr

def HideSt.core (x : HideSt) : HideSt.Core :=
  ⟨x.lay, x.sec, x.k.root, x.k.tsp, x.k.phase, x.k.drain, x.k.cause, x.k.origin, x.k.jobResult, x.k.profCtl⟩

/-- Every hide's core is the same in both states. -/
def Steady (s t : State) : Prop := ∀ j, (t.hide j).core = (s.hide j).core

/-- The two states agree on every hide but `h`. -/
def Apart (h : Nat) (s t : State) : Prop := ∀ j, j ≠ h → t.hide j = s.hide j

/-- What a row of an order admits: its class, the orders it stands for, the fit of an order in a slot, whether an order of the row that is
in flight goes on instead, and the work of an order from step 8 of R259 on. -/
structure OrderRow where
  h : Nat
  c : Nat
  cls : SlotClass
  is : Order → Bool
  fit : HideSt → Order → Fit
  going : State → Bool
  work : State → Order → Flight → State

/-- The rows of the orders (R53, R260). -/
def orderRow : Instr → Option OrderRow
  | .admitSeq h c e =>
    some ⟨h, c, .metaOrder, isOp 0x01 (fun o => !(bit (o.f 23 1) 0)), demandFit, fun _ => false, admitSeqWork h e⟩
  | .admitSeqExtend h c e =>
    some ⟨h, c, .metaOrder, isOp 0x01 (fun o => bit (o.f 23 1) 0), demandFit, fun _ => false, extendWork h e⟩
  | .retireSeq h c e => some ⟨h, c, .metaOrder, isOp 0x02, demandFit, fun _ => false, retireWork h e⟩
  | .forkPrefix h c e => some ⟨h, c, .metaOrder, isOp 0x03, demandFit, fun _ => false, forkWork h e⟩
  | .lookupPrefix h c e =>
    some ⟨h, c, .metaOrder, isOp 0x04, demandFit, fun _ => false, fun s => lookupWork h (s.now c) e s⟩
  | .publishPrefixCreate h c e =>
    let is := isOp 0x05 (fun o => o.f 16 1 == 0)
    some ⟨h, c, .metaOrder, is, demandFit, fun s => ((s.hide h).stepping is).isSome, createWork h c e⟩
  | .publishPrefixPromote h c e =>
    let is := isOp 0x05 (fun o => o.f 16 1 == 1)
    some ⟨h, c, .metaOrder, is, demandFit, fun s => ((s.hide h).stepping is).isSome, promoteWork h c e⟩
  | .publishPrefixWithdraw h c e =>
    some ⟨h, c, .metaOrder, isOp 0x05 (fun o => o.f 16 1 == 2), demandFit, fun _ => false, withdrawWork h e⟩
  | .retireCodebook h c e => some ⟨h, c, .metaOrder, isOp 0x19, demandFit, fun _ => false, retireBookWork h e⟩
  | .stepDecode h c e =>
    some ⟨h, c, .decode, fun o => o.opcode == 0x08, decodeFit h, fun s => ((s.hide h).stepWaiting 0x08).isSome, stepWork h c e⟩
  | .stepPrefill h c e =>
    some ⟨h, c, .prefill, fun o => o.opcode == 0x09, demandFit, fun s => ((s.hide h).stepWaiting 0x09).isSome, stepWork h c e⟩
  | .stepBackward h c e =>
    some ⟨h, c, .backward, fun o => o.opcode == 0x0A, demandFit, fun s => ((s.hide h).stepWaiting 0x0A).isSome, stepWork h c e⟩
  | .projectAppend h c e => some ⟨h, c, .append, isOp 0x0B, demandFit, fun _ => false, appendWork h e⟩
  | .stateStep h c e => some ⟨h, c, .state, isOp 0x0C, demandFit, fun _ => false, stateWork h e⟩
  | .scoreTopk h c e => some ⟨h, c, .score, isOp 0x0D, demandFit, fun _ => false, scoreWork h e⟩
  | .evictScore h c e => some ⟨h, c, .score, isOp 0x13, demandFit, fun _ => false, evictScoreWork h e⟩
  | .place h c e => some ⟨h, c, .move, isOp 0x10, demandFit, fun s => ((s.hide h).stepping (isOp 0x10)).isSome, placeWork h c e⟩
  | .swapOut h c e =>
    some ⟨h, c, .move, isOp 0x11, demandFit, fun s => ((s.hide h).stepping (isOp 0x11)).isSome, swapOutWork h c e⟩
  | .swapIn h c e => some ⟨h, c, .move, isOp 0x12, demandFit, fun s => ((s.hide h).stepping (isOp 0x12)).isSome, swapInWork h e⟩
  | .deliverPages h c e =>
    some ⟨h, c, .move, isOp 0x14, demandFit, fun s => ((s.hide h).delivering h).isSome, deliverWork h c e⟩
  | .loadCodebook h c e =>
    some ⟨h, c, .move, isOp 0x18, demandFit, fun s => ((s.hide h).stepping (isOp 0x18)).isSome, loadBookWork h e⟩
  | .loadWeights h c e =>
    let is := isOp 0x1A (fun o => o.f 48 8 != 0)
    some ⟨h, c, .move, is, demandFit, fun s => ((s.hide h).stepping is).isSome, loadSetWork h e⟩
  | .loadWeightsRetire h c e => some ⟨h, c, .move, isOp 0x1A (fun o => o.f 48 8 == 0), demandFit, fun _ => false, retireSetWork h e⟩
  | _ => none

/-- An order may be admitted at a row's chain with a grant: it is the first of its class, everything that R65, R68, R71, R163 and R261
make it wait for is over, and its slots hold its demand. -/
structure Admits (r : OrderRow) (s : State) (o : Order) (g : Grant) : Prop where
  front : (s.hide r.h).q.front r.cls = some o
  stands : r.is o = true
  admitting : s.admitting r.h = true
  ordered : ordered r.h (s.hide r.h).q o = true
  waits : waitsOver r.h (s.now r.c) (s.hide r.h) o = true
  first : noReentry (s.hide r.h) s.plan.furlong r.cls = true
  fits : (s.hide r.h).mismatch r.cls ((s.hide r.h).targets r.h o) (r.fit (s.hide r.h) o) = false
  awake : s.inMaintenance ((s.hide r.h).targets r.h o) = false
  granted : (s.hide r.h).grant s.plan.furlong r.c r.cls ((s.hide r.h).targets r.h o)
    ((r.fit (s.hide r.h) o).leaving ((s.hide r.h).lookupReserve (s.now r.c) r.cls)) = some g

/-- An admitted order has left the queue and taken its capacity. -/
def State.taken (s : State) (h : Nat) (o : Order) (g : Grant) : State :=
  (s.upQ h (fun q => { q with queue := q.queue.filter (fun p => p.seq != o.seq) })).upHide h (fun x => { x with
    q := x.q.use s.plan.furlong g.uses
    c := { x.c with telAdmitted := satInc x.c.telAdmitted } })

/-- The transaction that an order is a member of is open. -/
def Placed (s : State) (h : Nat) (o : Order) : Prop := ∀ id, o.txn = some id → ∃ y ∈ (s.hide h).q.txns, y.id = id

/-- The record of an order whose work has ended, with its status, result and held effects. -/
def Ended (t : State) (h : Nat) (o : Order) (status : Nat) (result : List Byte) (fx : List Fx) : Prop :=
  ∃ f ∈ (t.hide h).q.flights ++ (t.hide h).q.txns.flatMap (·.held),
    f.order = o ∧ f.ended = true ∧ f.status = status ∧ f.result = result ∧ f.fx = fx

/-- The record of an order in flight that waits for its DMA reads or transfers. -/
def Waiting (t : State) (h : Nat) (o : Order) : Prop := ∃ f ∈ (t.hide h).q.flights, f.order = o ∧ f.ended = false

/-- The hide on which alone a command acts; none for the commands that act on the device, on several hides, or through leases that
other hides share. -/
def ownHide : Instr → Option Nat
  | .standbyStart => none
  | .resetRelease _ _ _ _ _ _ => none
  | .powerUpStepOverrun _ => none
  | .powerLoss _ => none
  | .protectiveShutdown => none
  | .resetN => none
  | .vinSample _ _ => none
  | .monitorFail => none
  | .sensorSample _ => none
  | .sensorTimeout _ => none
  | .leanReturnCount => none
  | .clockMonitorWindow _ => none
  | .regionClockWindow _ => none
  | .pllLossOfLock _ => none
  | .entropyHealthFail => none
  | .furlongCounterComplete _ => none
  | .boundaryMark _ _ _ => none
  | .furlongStart _ => none
  | .boundaryLimit _ => none
  | .switchNotice => none
  | .drainLimit => none
  | .heldOutRotation _ => none
  | .screenPatternRun _ _ _ _ => none
  | .screenSummary => none
  | .bankGroupFaultRecord => none
  | .gateFurlongStart => none
  | .policerRefill => none
  | .egressFrameStart _ _ _ => none
  | .cxlMemWrite _ _ _ _ _ _ => none
  | .cxlMemRead _ _ _ => none
  | .cxlMemInv _ _ => none
  | .uioRead _ _ => none
  | .uioWrite _ _ _ _ _ => none
  | .packetTake h => some h
  | .packetTimeout h _ => some h
  | .heldPostTimeout h => some h
  | .queuePointerMismatch h _ _ => some h
  | .admitSeq h _ _ => some h
  | .admitSeqExtend h _ _ => some h
  | .retireSeq h _ _ => some h
  | .forkPrefix h _ _ => some h
  | .lookupPrefix h _ _ => some h
  | .lookupPrefixContinue h _ _ => some h
  | .hashLaneDone h => some h
  | .publishPrefixCreate h _ _ => some h
  | .publishPrefixPromote h _ _ => some h
  | .publishPrefixWithdraw h _ _ => some h
  | .stepDecode h _ _ => some h
  | .fetchArrival h _ => some h
  | .fetchDeadline h _ => some h
  | .deferReentry h _ _ => some h
  | .stepPrefill h _ _ => some h
  | .stepBackward h _ _ => some h
  | .projectAppend h _ _ => some h
  | .recode h _ _ => some h
  | .stateStep h _ _ => some h
  | .scoreTopk h _ _ => some h
  | .place h _ _ => some h
  | .swapOut h _ _ => some h
  | .swapIn h _ _ => some h
  | .evictScore h _ _ => some h
  | .deliverPages h _ _ => some h
  | .deliverDeadline h => some h
  | .loadCodebook h _ _ => some h
  | .retireCodebook h _ _ => some h
  | .codebookSlotReload h _ _ _ => some h
  | .loadWeights h _ _ => some h
  | .loadWeightsRetire h _ _ => some h
  | .txnBegin h => some h
  | .txnCommit h => some h
  | .txnAbort h => some h
  | .txnDecision h _ => some h
  | .txnTimeout h _ => some h
  | .dropRest h => some h
  | .replayStart _ => none
  | .replayResult _ _ => none
  | .dramCorrectiveWriteback _ => none
  | .dmaReadCompletion h _ _ => some h
  | .dmaReadTimeout h _ => some h
  | .lease _ _ => none
  | .release _ _ => none
  | .sealAcre _ _ => none
  | .grant _ _ => none
  | .attach _ _ => none
  | .revoke _ _ => none
  | .leaseRecallComplete h => some h
  | .acRenew h _ => some h
  | .leaseExpiry _ _ => none
  | .leaseDrainComplete h _ => some h
  | .acreScrubComplete h _ => some h
  | .acreRequestServe _ => none
  | .biSnoopResponse h _ _ => some h
  | .biSnoopTimeout _ _ => none
  | .poisonMarkWrite _ _ => none
  | .hdmDecoderCommit _ _ _ _ _ => none
  | .ringEnable h _ _ _ => some h
  | .ringDisable h _ _ _ => some h
  | .bufferEnable h _ _ => some h
  | .bufferDisable h _ _ => some h
  | .jobkeyCreate h _ => some h
  | .jobkeyDestroy h _ => some h
  | .registerWrite _ _ _ _ _ => none
  | .rcRegisterRead h _ _ => some h
  | .hideResetGo h _ => some h
  | .hideResetProceed h => some h
  | .hideResetEndingDone h => some h
  | .hideResetHeldTimeout h => some h
  | .hideResetKeysDone _ => none
  | .hideResetReleaseDone h => some h
  | .hideResetScrubDone _ => none
  | .flr _ => none
  | .cxlLinkDown => none
  | .cxlPerstN => none
  | .cxlLinkWidthChange _ _ => none
  | .ideIntegrityFail _ => none
  | .tspLock h => some h
  | .tspStart h => some h
  | .tspStop h => some h
  | .spdmGetMeasurements _ _ => none
  | .doeBegin _ _ _ => none
  | .doeData _ _ _ _ => none
  | .doeEnd _ _ _ => none
  | .doeStatus _ _ => none
  | .doeCancel _ _ => none
  | .sessionHandshake _ _ => none
  | .sessionIdleTimeout _ => none
  | .handshakeRefusalExpiry => none
  | .statusProbe _ => none
  | .regRead _ _ _ => none
  | .regWrite _ _ _ _ => none
  | .loadBegin _ _ _ _ => none
  | .loadData _ _ _ _ => none
  | .loadEnd _ _ _ => none
  | .loadReceiveTimeout => none
  | .loadStatus _ _ => none
  | .loadCancel _ _ => none
  | .telemetry _ => none
  | .subscribe _ _ _ => none
  | .telemetryPeriod _ => none
  | .bbRead _ _ _ => none
  | .hideReset _ _ _ => none
  | .deviceReset _ _ => none
  | .regionReset _ _ _ => none
  | .setTime _ _ => none
  | .anchorEnroll _ _ => none
  | .anchorRemove _ _ => none
  | .floorRaise _ _ => none
  | .lifecycle _ _ _ => none
  | .debugChallenge _ => none
  | .debugToken _ _ => none
  | .selftestRun _ _ => none
  | .trainingStepComplete _ _ => none
  | .trainingStepTimeout _ => none
  | .trainingRetry _ => none
  | .leagueRsp _ _ _ _ _ => none
  | .leagueRdata _ _ _ _ _ => none
  | .leagueCtrl _ _ _ => none
  | .leagueCtrlSend _ => none
  | .leagueReplayTimeout _ => none
  | .leagueIdleTimeout _ => none
  | .leagueCommandTimeout _ _ => none
  | .laneFault _ _ => none
  | .symbolErrorWindow _ _ _ => none
  | .holdupOk => none
  | .cxlLinkUp _ _ => none
  | .ideStreamEstablished _ => none
  | .configurationWrite _ _ _ => none
  | .phyIntN _ => none
  | .sessionClose _ => none
  | .tapInstruction _ => none

/-- May a command change the core of a hide: commands that load plans or sections, reset hides or the device, lock, start or stop a TSP,
create or destroy job keys, write registers, or take the plan across a furlong boundary. -/
def steers : Instr → Bool
  | .standbyStart => false
  | .resetRelease _ _ _ _ _ _ => true
  | .powerUpStepOverrun _ => false
  | .powerLoss _ => true
  | .protectiveShutdown => true
  | .resetN => true
  | .vinSample _ _ => false
  | .monitorFail => false
  | .sensorSample _ => true
  | .sensorTimeout _ => false
  | .leanReturnCount => false
  | .clockMonitorWindow _ => true
  | .regionClockWindow _ => false
  | .pllLossOfLock _ => false
  | .entropyHealthFail => false
  | .furlongCounterComplete _ => false
  | .boundaryMark _ _ _ => false
  | .furlongStart _ => true
  | .boundaryLimit _ => true
  | .switchNotice => false
  | .drainLimit => false
  | .heldOutRotation _ => false
  | .screenPatternRun _ _ _ _ => false
  | .screenSummary => false
  | .bankGroupFaultRecord => false
  | .gateFurlongStart => false
  | .policerRefill => false
  | .egressFrameStart _ _ _ => false
  | .cxlMemWrite _ _ _ _ _ _ => false
  | .cxlMemRead _ _ _ => false
  | .cxlMemInv _ _ => false
  | .uioRead _ _ => false
  | .uioWrite _ _ _ _ _ => false
  | .packetTake _ => false
  | .packetTimeout _ _ => false
  | .heldPostTimeout _ => false
  | .queuePointerMismatch _ _ _ => false
  | .admitSeq _ _ _ => false
  | .admitSeqExtend _ _ _ => false
  | .retireSeq _ _ _ => false
  | .forkPrefix _ _ _ => false
  | .lookupPrefix _ _ _ => false
  | .lookupPrefixContinue _ _ _ => false
  | .hashLaneDone _ => false
  | .publishPrefixCreate _ _ _ => false
  | .publishPrefixPromote _ _ _ => false
  | .publishPrefixWithdraw _ _ _ => false
  | .stepDecode _ _ _ => false
  | .fetchArrival _ _ => false
  | .fetchDeadline _ _ => false
  | .deferReentry _ _ _ => false
  | .stepPrefill _ _ _ => false
  | .stepBackward _ _ _ => false
  | .projectAppend _ _ _ => false
  | .recode _ _ _ => false
  | .stateStep _ _ _ => false
  | .scoreTopk _ _ _ => false
  | .place _ _ _ => false
  | .swapOut _ _ _ => false
  | .swapIn _ _ _ => false
  | .evictScore _ _ _ => false
  | .deliverPages _ _ _ => false
  | .deliverDeadline _ => false
  | .loadCodebook _ _ _ => false
  | .retireCodebook _ _ _ => false
  | .codebookSlotReload _ _ _ _ => false
  | .loadWeights _ _ _ => false
  | .loadWeightsRetire _ _ _ => false
  | .txnBegin _ => false
  | .txnCommit _ => false
  | .txnAbort _ => false
  | .txnDecision _ _ => false
  | .txnTimeout _ _ => false
  | .dropRest _ => false
  | .replayStart _ => false
  | .replayResult _ _ => false
  | .dramCorrectiveWriteback _ => false
  | .dmaReadCompletion _ _ _ => false
  | .dmaReadTimeout _ _ => false
  | .lease _ _ => false
  | .release _ _ => false
  | .sealAcre _ _ => false
  | .grant _ _ => false
  | .attach _ _ => false
  | .revoke _ _ => false
  | .leaseRecallComplete _ => false
  | .acRenew _ _ => false
  | .leaseExpiry _ _ => false
  | .leaseDrainComplete _ _ => false
  | .acreScrubComplete _ _ => false
  | .acreRequestServe _ => false
  | .biSnoopResponse _ _ _ => false
  | .biSnoopTimeout _ _ => false
  | .poisonMarkWrite _ _ => false
  | .hdmDecoderCommit _ _ _ _ _ => true
  | .ringEnable _ _ _ _ => false
  | .ringDisable _ _ _ _ => false
  | .bufferEnable _ _ _ => false
  | .bufferDisable _ _ _ => false
  | .jobkeyCreate _ _ => true
  | .jobkeyDestroy _ _ => true
  | .registerWrite _ _ _ _ _ => true
  | .rcRegisterRead _ _ _ => false
  | .hideResetGo _ _ => true
  | .hideResetProceed _ => true
  | .hideResetEndingDone _ => true
  | .hideResetHeldTimeout _ => true
  | .hideResetKeysDone _ => true
  | .hideResetReleaseDone _ => true
  | .hideResetScrubDone _ => true
  | .flr _ => true
  | .cxlLinkDown => true
  | .cxlPerstN => true
  | .cxlLinkWidthChange _ _ => false
  | .ideIntegrityFail _ => true
  | .tspLock _ => true
  | .tspStart _ => true
  | .tspStop _ => true
  | .spdmGetMeasurements _ _ => false
  | .doeBegin _ _ _ => false
  | .doeData _ _ _ _ => false
  | .doeEnd _ _ _ => true
  | .doeStatus _ _ => false
  | .doeCancel _ _ => false
  | .sessionHandshake _ _ => false
  | .sessionIdleTimeout _ => false
  | .handshakeRefusalExpiry => false
  | .statusProbe _ => false
  | .regRead _ _ _ => false
  | .regWrite _ _ _ _ => true
  | .loadBegin _ _ _ _ => false
  | .loadData _ _ _ _ => false
  | .loadEnd _ _ _ => true
  | .loadReceiveTimeout => false
  | .loadStatus _ _ => false
  | .loadCancel _ _ => false
  | .telemetry _ => false
  | .subscribe _ _ _ => false
  | .telemetryPeriod _ => false
  | .bbRead _ _ _ => false
  | .hideReset _ _ _ => true
  | .deviceReset _ _ => true
  | .regionReset _ _ _ => false
  | .setTime _ _ => false
  | .anchorEnroll _ _ => false
  | .anchorRemove _ _ => false
  | .floorRaise _ _ => false
  | .lifecycle _ _ _ => false
  | .debugChallenge _ => false
  | .debugToken _ _ => false
  | .selftestRun _ _ => false
  | .trainingStepComplete _ _ => false
  | .trainingStepTimeout _ => false
  | .trainingRetry _ => false
  | .leagueRsp _ _ _ _ _ => false
  | .leagueRdata _ _ _ _ _ => false
  | .leagueCtrl _ _ _ => false
  | .leagueCtrlSend _ => false
  | .leagueReplayTimeout _ => false
  | .leagueIdleTimeout _ => false
  | .leagueCommandTimeout _ _ => false
  | .laneFault _ _ => false
  | .symbolErrorWindow _ _ _ => false
  | .holdupOk => false
  | .cxlLinkUp _ _ => false
  | .ideStreamEstablished _ => false
  | .configurationWrite _ _ _ => true
  | .phyIntN _ => false
  | .sessionClose _ => false
  | .tapInstruction _ => false

/-- Every part. -/
def Part.all : List Part :=
  [.power, .sensors, .resetPin, .clocks, .regions, .clusters, .plan, .hides, .imem, .acres, .gates, .cxl,
    .ports, .dex, .mgmt, .box, .screen, .tap, .free]

/-- The parts of the state that a command may change; no command changes the queue. -/
def touches : Instr → List Part
  | .standbyStart => [.power]
  | .resetRelease _ _ _ _ _ _ => [.power, .resetPin, .regions, .hides, .gates, .ports, .dex, .mgmt, .box, .tap]
  | .powerUpStepOverrun _ => [.power]
  | .powerLoss _ => Part.all
  | .protectiveShutdown => Part.all
  | .resetN => Part.all
  | .vinSample _ _ => [.power, .plan, .hides, .mgmt, .box]
  | .monitorFail => [.power, .plan, .mgmt, .box]
  | .sensorSample _ => Part.all
  | .sensorTimeout _ => [.sensors, .regions, .plan]
  | .leanReturnCount => [.plan]
  | .clockMonitorWindow _ => [.clocks, .regions, .plan, .hides, .imem, .acres, .gates, .cxl, .ports, .dex, .mgmt, .box, .screen]
  | .regionClockWindow _ => [.regions, .plan, .mgmt, .box]
  | .pllLossOfLock _ => [.regions, .plan, .mgmt, .box]
  | .entropyHealthFail => [.dex, .mgmt]
  | .furlongCounterComplete _ => [.regions]
  | .boundaryMark _ _ _ => [.regions]
  | .furlongStart _ => [.power, .regions, .clusters, .plan, .hides, .imem, .acres, .gates, .ports, .dex, .mgmt, .box, .screen]
  | .boundaryLimit _ => [.power, .regions, .clusters, .plan, .hides, .imem, .acres, .gates, .ports, .dex, .mgmt, .box, .screen]
  | .switchNotice => [.plan]
  | .drainLimit => [.hides, .imem, .gates, .ports, .screen]
  | .heldOutRotation _ => [.clusters]
  | .screenPatternRun _ _ _ _ => [.clusters, .plan, .mgmt, .box, .screen]
  | .screenSummary => [.mgmt, .box, .screen]
  | .bankGroupFaultRecord => [.clusters, .mgmt, .box]
  | .gateFurlongStart => [.gates]
  | .policerRefill => [.hides]
  | .egressFrameStart _ _ _ => [.hides, .gates, .ports]
  | .cxlMemWrite _ _ _ _ _ _ => [.hides, .imem, .gates]
  | .cxlMemRead _ _ _ => [.hides, .gates]
  | .cxlMemInv _ _ => [.hides, .gates]
  | .uioRead _ _ => [.hides, .gates]
  | .uioWrite _ _ _ _ _ => [.hides, .imem, .gates]
  | .packetTake _ => [.hides, .imem, .gates]
  | .packetTimeout _ _ => [.hides, .imem, .gates]
  | .heldPostTimeout _ => [.hides]
  | .queuePointerMismatch _ _ _ => [.hides, .imem, .gates, .mgmt, .box]
  | .admitSeq _ _ _ => [.regions, .clusters, .plan, .hides, .gates, .mgmt, .box, .screen]
  | .admitSeqExtend _ _ _ => [.regions, .clusters, .plan, .hides, .gates, .mgmt, .box, .screen]
  | .retireSeq _ _ _ => [.regions, .clusters, .plan, .hides, .gates, .mgmt, .box, .screen]
  | .forkPrefix _ _ _ => [.regions, .clusters, .plan, .hides, .gates, .mgmt, .box, .screen]
  | .lookupPrefix _ _ _ => [.regions, .clusters, .plan, .hides, .gates, .mgmt, .box, .screen]
  | .lookupPrefixContinue _ _ _ => [.regions, .clusters, .plan, .hides, .mgmt, .box, .screen]
  | .hashLaneDone _ => [.hides]
  | .publishPrefixCreate _ _ _ => [.regions, .clusters, .plan, .hides, .gates, .ports, .mgmt, .box, .screen]
  | .publishPrefixPromote _ _ _ => [.regions, .clusters, .plan, .hides, .gates, .ports, .mgmt, .box, .screen]
  | .publishPrefixWithdraw _ _ _ => [.regions, .clusters, .plan, .hides, .gates, .mgmt, .box, .screen]
  | .stepDecode _ _ _ => [.regions, .clusters, .plan, .hides, .gates, .mgmt, .box, .screen]
  | .fetchArrival _ _ => [.hides, .imem, .gates, .ports]
  | .fetchDeadline _ _ => [.hides, .gates]
  | .deferReentry _ _ _ => [.regions, .clusters, .plan, .hides, .gates, .mgmt, .box, .screen]
  | .stepPrefill _ _ _ => [.regions, .clusters, .plan, .hides, .gates, .mgmt, .box, .screen]
  | .stepBackward _ _ _ => [.regions, .clusters, .plan, .hides, .gates, .mgmt, .box, .screen]
  | .projectAppend _ _ _ => [.regions, .clusters, .plan, .hides, .gates, .mgmt, .box, .screen]
  | .recode _ _ _ => [.clusters, .hides, .screen]
  | .stateStep _ _ _ => [.regions, .clusters, .plan, .hides, .gates, .mgmt, .box, .screen]
  | .scoreTopk _ _ _ => [.regions, .clusters, .plan, .hides, .gates, .mgmt, .box, .screen]
  | .place _ _ _ => [.regions, .clusters, .plan, .hides, .gates, .ports, .mgmt, .box, .screen]
  | .swapOut _ _ _ => [.regions, .clusters, .plan, .hides, .gates, .ports, .mgmt, .box, .screen]
  | .swapIn _ _ _ => [.regions, .clusters, .plan, .hides, .gates, .ports, .mgmt, .box, .screen]
  | .evictScore _ _ _ => [.regions, .clusters, .plan, .hides, .gates, .mgmt, .box, .screen]
  | .deliverPages _ _ _ => [.regions, .clusters, .plan, .hides, .gates, .mgmt, .box, .screen]
  | .deliverDeadline _ => [.regions, .clusters, .plan, .hides, .gates, .mgmt, .box, .screen]
  | .loadCodebook _ _ _ => [.regions, .clusters, .plan, .hides, .gates, .ports, .mgmt, .box, .screen]
  | .retireCodebook _ _ _ => [.regions, .clusters, .plan, .hides, .gates, .mgmt, .box, .screen]
  | .codebookSlotReload _ _ _ _ => [.hides]
  | .loadWeights _ _ _ => [.regions, .clusters, .plan, .hides, .gates, .ports, .mgmt, .box, .screen]
  | .loadWeightsRetire _ _ _ => [.regions, .clusters, .plan, .hides, .gates, .mgmt, .box, .screen]
  | .txnBegin _ => [.hides, .imem, .gates]
  | .txnCommit _ => [.hides, .imem, .gates]
  | .txnAbort _ => [.hides, .imem, .gates]
  | .txnDecision _ _ => [.hides, .gates, .ports]
  | .txnTimeout _ _ => [.hides, .imem, .gates]
  | .dropRest _ => [.hides, .imem, .gates]
  | .replayStart _ => [.clusters, .plan, .hides, .imem, .gates, .ports, .mgmt, .box, .screen]
  | .replayResult _ _ => [.clusters, .plan, .hides, .imem, .gates, .ports, .mgmt, .box, .screen]
  | .dramCorrectiveWriteback _ => [.clusters]
  | .dmaReadCompletion _ _ _ => [.hides, .imem, .gates]
  | .dmaReadTimeout _ _ => [.hides, .imem, .gates]
  | .lease _ _ => [.hides, .acres, .gates, .mgmt, .box]
  | .release _ _ => [.hides, .acres, .gates, .mgmt, .box]
  | .sealAcre _ _ => [.hides, .acres, .gates, .mgmt, .box]
  | .grant _ _ => [.hides, .acres, .gates, .mgmt, .box]
  | .attach _ _ => [.hides, .acres, .gates, .mgmt, .box]
  | .revoke _ _ => [.hides, .acres, .gates, .mgmt, .box]
  | .leaseRecallComplete _ => [.hides, .mgmt, .box]
  | .acRenew _ _ => [.hides]
  | .leaseExpiry _ _ => [.hides, .acres, .gates, .mgmt, .box]
  | .leaseDrainComplete _ _ => [.hides, .acres, .mgmt, .box]
  | .acreScrubComplete _ _ => [.hides, .acres, .mgmt, .box]
  | .acreRequestServe _ => [.hides, .acres, .gates]
  | .biSnoopResponse _ _ _ => [.hides, .imem, .acres]
  | .biSnoopTimeout _ _ => [.hides, .acres, .gates, .mgmt, .box]
  | .poisonMarkWrite _ _ => [.acres]
  | .hdmDecoderCommit _ _ _ _ _ => [.hides, .imem, .gates, .cxl, .ports, .dex, .screen]
  | .ringEnable _ _ _ _ => [.hides, .imem, .gates]
  | .ringDisable _ _ _ _ => [.hides]
  | .bufferEnable _ _ _ => [.hides]
  | .bufferDisable _ _ _ => [.hides]
  | .jobkeyCreate _ _ => [.hides]
  | .jobkeyDestroy _ _ => [.hides]
  | .registerWrite _ _ _ _ _ => [.hides, .imem, .acres, .gates, .ports, .dex, .mgmt, .box, .screen]
  | .rcRegisterRead _ _ _ => [.hides, .gates, .free]
  | .hideResetGo _ _ => [.hides, .imem, .gates, .ports, .dex, .screen]
  | .hideResetProceed _ => [.hides, .gates, .ports, .dex]
  | .hideResetEndingDone _ => [.hides, .imem, .gates, .ports, .dex, .screen]
  | .hideResetHeldTimeout _ => [.hides, .gates, .ports, .dex]
  | .hideResetKeysDone _ => [.hides, .acres, .gates, .mgmt, .box]
  | .hideResetReleaseDone _ => [.clusters, .hides]
  | .hideResetScrubDone _ => [.clusters, .hides, .imem, .gates, .mgmt, .box]
  | .flr _ => [.hides, .imem, .gates, .cxl, .ports, .dex, .screen]
  | .cxlLinkDown => [.hides, .imem, .gates, .cxl, .ports, .dex, .mgmt, .box, .screen]
  | .cxlPerstN => [.hides, .imem, .gates, .cxl, .ports, .dex, .mgmt, .box, .screen]
  | .cxlLinkWidthChange _ _ => [.hides, .imem, .gates, .cxl, .mgmt, .box]
  | .ideIntegrityFail _ => [.hides, .imem, .gates, .cxl, .ports, .dex, .screen]
  | .tspLock _ => [.hides, .mgmt]
  | .tspStart _ => [.hides, .mgmt]
  | .tspStop _ => [.hides, .imem, .gates, .ports, .dex, .mgmt, .screen]
  | .spdmGetMeasurements _ _ => [.dex, .mgmt]
  | .doeBegin _ _ _ => [.mgmt]
  | .doeData _ _ _ _ => [.mgmt, .box]
  | .doeEnd _ _ _ => [.plan, .hides, .dex, .mgmt, .box, .screen]
  | .doeStatus _ _ => [.mgmt]
  | .doeCancel _ _ => [.mgmt, .box]
  | .sessionHandshake _ _ => [.mgmt, .box]
  | .sessionIdleTimeout _ => [.mgmt, .box]
  | .handshakeRefusalExpiry => [.mgmt]
  | .statusProbe _ => [.mgmt]
  | .regRead _ _ _ => [.power, .regions, .plan, .ports, .mgmt, .box, .screen, .free]
  | .regWrite _ _ _ _ => [.power, .hides, .gates, .ports, .mgmt, .box, .screen]
  | .loadBegin _ _ _ _ => [.mgmt, .box]
  | .loadData _ _ _ _ => [.mgmt, .box]
  | .loadEnd _ _ _ => [.plan, .hides, .dex, .mgmt, .box, .screen]
  | .loadReceiveTimeout => [.mgmt, .box]
  | .loadStatus _ _ => [.mgmt, .box]
  | .loadCancel _ _ => [.mgmt, .box]
  | .telemetry _ => [.hides, .mgmt, .box]
  | .subscribe _ _ _ => [.mgmt, .box]
  | .telemetryPeriod _ => [.hides, .mgmt]
  | .bbRead _ _ _ => [.mgmt, .box]
  | .hideReset _ _ _ => [.hides, .imem, .gates, .ports, .dex, .mgmt, .box, .screen]
  | .deviceReset _ _ => Part.all
  | .regionReset _ _ _ => [.regions, .mgmt, .box]
  | .setTime _ _ => [.mgmt, .box]
  | .anchorEnroll _ _ => [.dex, .mgmt, .box]
  | .anchorRemove _ _ => [.dex, .mgmt, .box]
  | .floorRaise _ _ => [.dex, .mgmt, .box]
  | .lifecycle _ _ _ => [.dex, .mgmt, .box]
  | .debugChallenge _ => [.dex, .mgmt, .box]
  | .debugToken _ _ => [.dex, .mgmt, .box]
  | .selftestRun _ _ => [.dex, .mgmt, .box]
  | .trainingStepComplete _ _ => [.hides, .imem, .gates, .ports, .mgmt, .box]
  | .trainingStepTimeout _ => [.hides, .gates, .ports, .mgmt, .box]
  | .trainingRetry _ => [.gates, .ports]
  | .leagueRsp _ _ _ _ _ => [.hides, .gates, .ports, .mgmt, .box]
  | .leagueRdata _ _ _ _ _ => [.hides, .gates, .ports, .mgmt, .box]
  | .leagueCtrl _ _ _ => [.gates, .ports, .mgmt, .box]
  | .leagueCtrlSend _ => [.gates]
  | .leagueReplayTimeout _ => [.gates, .ports, .mgmt, .box]
  | .leagueIdleTimeout _ => [.gates, .ports, .mgmt, .box]
  | .leagueCommandTimeout _ _ => [.hides, .gates, .ports, .mgmt, .box]
  | .laneFault _ _ => [.gates, .ports, .mgmt, .box]
  | .symbolErrorWindow _ _ _ => [.gates, .ports, .mgmt, .box]
  | .holdupOk => [.power]
  | .cxlLinkUp _ _ => [.cxl, .mgmt, .box]
  | .ideStreamEstablished _ => [.cxl]
  | .configurationWrite _ _ _ => [.hides, .imem, .gates, .cxl, .ports, .dex, .screen]
  | .phyIntN _ => [.mgmt]
  | .sessionClose _ => [.mgmt, .box]
  | .tapInstruction _ => [.tap]

/-! ### Requests of the management port -/

/-- A request that a session may send: the port is open, the session is, and its role allows the request (R415). -/
def Heard (s : State) (q : Req) (need : Role) : Prop :=
  s.portOpen = true ∧ ∃ x, s.session q.session = some x ∧ roleRank need ≤ roleRank x.role

/-- The requests of a session: the request, its message type, and the least role that may send it (R415). -/
def requestRow : Instr → Option (Req × Nat × Role)
  | .regRead q _ _ => some (q, msgRegRead, .observer)
  | .regWrite q _ _ _ => some (q, msgRegWrite, .operator)
  | .loadBegin q _ _ _ => some (q, msgLoadBegin, .operator)
  | .loadData q _ _ _ => some (q, msgLoadData, .operator)
  | .loadEnd q _ _ => some (q, msgLoadEnd, .operator)
  | .loadStatus q _ => some (q, msgLoadStatus, .observer)
  | .loadCancel q _ => some (q, msgLoadCancel, .operator)
  | .telemetry q => some (q, msgTelemetry, .observer)
  | .subscribe q _ _ => some (q, msgSubscribe, .observer)
  | .bbRead q _ _ => some (q, msgBbRead, .observer)
  | .hideReset q _ _ => some (q, msgHideReset, .operator)
  | .deviceReset q _ => some (q, msgDeviceReset, .operator)
  | .regionReset q _ _ => some (q, msgRegionReset, .operator)
  | .setTime q _ => some (q, msgSetTime, .operator)
  | .anchorEnroll (some q) _ => some (q, msgAnchor, .admin)
  | .anchorRemove q _ => some (q, msgAnchor, .admin)
  | .floorRaise q _ => some (q, msgFloor, .admin)
  | .lifecycle q _ _ => some (q, msgLifecycle, .admin)
  | .debugChallenge q => some (q, msgDebug, .admin)
  | .debugToken q _ => some (q, msgDebug, .admin)
  | .selftestRun q _ => some (q, msgSelftest, .operator)
  | _ => none

/-- The last message sent is the reply to a request. -/
def Replied (t : State) (q : Req) (typ result : Nat) (body : List Byte) : Prop :=
  t.mgmt.sent.getLast? = some ⟨q.session, typ, q.tag, result, body⟩

end Sys2Proof.Machine
end

