-- ==== Sys2Proof/Certificates/Slice0/Obligations.lean ====
section
/-!
DEFINITION. The statements for the provers. Each docstring names the rules of the spec that its statement formalises; where a
statement rests on a choice of the model, its docstring names the log entry.
-/

section
open Sys2Proof Sys2Proof.Machine

/-- A step takes the command at the front of the queue and is that command's effect on the state with the queue's rest; with no command waiting the
block idles, which is the model's choice (log entry 6). -/
def Obligations.StepRunsTheFrontCommand : Prop :=
  (∀ (s : State) (c : Instr) (rest : List Instr), s.pending = c :: rest → step s = exec c { s with pending := rest }) ∧
  ∀ s : State, s.pending = [] → step s = .next s

/-- The machine after reset is sound, holds what device reset leaves where the spec gives a value, and its queue is empty. -/
def Obligations.ResetIsSoundAndAsSpecified : Prop :=
  State.reset.Sound ∧ State.reset.pending = [] ∧ Wiped State.reset ∧ (∀ h, (State.reset.hide h).a.biTo = 100) ∧
  (∀ h n, ((State.reset.hide h).q.orders.get OrderRing.reset n).pktTo = 1000) ∧ State.reset.box.warn = 75 ∧
  State.reset.screen.rotExp = 16 ∧ State.reset.power.tLean = 95 ∧ (∀ h, (State.reset.hide h).k.phase = .idle) ∧
  ∀ p, (State.reset.port p).st = .down

/-- Every step keeps the machine sound: interface memory in its canonical form, the black box in order with BB_WARN and BB_ACK in their
ranges, no identity key in RMA, and only well-formed commands waiting. -/
def Obligations.EveryStepKeepsTheMachineSound : Prop :=
  ∀ s t : State, s.Sound → step s = .next t → t.Sound

/-- Every command answers a next state, leaves the queue as it was, and changes no part of the state but those listed for it: power,
sensors, clocks, regions, clusters, plan, hides, interface memory (every byte), acres, gates, CXL port, league ports, Dexfoti,
management, black box, screening, test port. -/
def Obligations.EveryCommandTouchesOnlyItsParts : Prop :=
  ∀ (c : Instr) (s : State), ∃ t, exec c s = .next t ∧ t.pending = s.pending ∧ Only (touches c) s t

/-- A command that acts on one hide leaves every other hide's rings, objects, leases, keys, reset and counters as they were. -/
def Obligations.CommandsOfOneHideLeaveTheOthersAlone : Prop :=
  ∀ (c : Instr) (h : Nat) (s t : State), ownHide c = some h → exec c s = .next t → ∀ j, j ≠ h → t.hide j = s.hide j

/-- The black box is append-only: over any step the next record number does not fall, a record with an old number is an old record, and
in a black box in order every record that the step adds is numbered from the old next number on (R361, R362). -/
def Obligations.RecordsAreNeverAlteredAndNumbersRise : Prop :=
  ∀ s t : State, step s = .next t → s.box.next ≤ t.box.next ∧ (∀ r ∈ t.box.recs, r.seq < s.box.next → r ∈ s.box.recs) ∧
    (s.Inv → t.box.recs.Pairwise (fun x y => x.seq < y.seq) ∧ ∀ r ∈ t.box.recs, r.seq < t.box.next)

/-- No step lowers the plan floor (R384), takes the lifecycle back or clears the fuse that seals debug (R383), or uses a draw of the
DRBG again. -/
def Obligations.FloorsAndFusesOnlyRise : Prop :=
  ∀ s t : State, step s = .next t → s.dex.planFloor.toNat ≤ t.dex.planFloor.toNat ∧ s.dex.life.code ≤ t.dex.life.code ∧
    (s.dex.sealedFuse = true → t.dex.sealedFuse = true) ∧ s.dex.draws ≤ t.dex.draws

/-- Steps 1 to 6 of R400 end, overrun, or begin as the sequencer says: the standby domain starts, the charged hold-up bank ends
step 1, and a step beyond its limit holds the device in reset with PWR_ALERT_N asserted (R443). -/
def Obligations.PowerUpStepsFollowTheSequencer : Prop :=
  (∀ s : State, s.power.st = .off ∨ s.power.st = .lost →
    exec .standbyStart s = .next { s with power := { s.power with st := .standby, step := 0, holdup := false, cause := 1 } }) ∧
  (∀ s : State, s.power.st = .standby →
    exec .holdupOk s = .next { s with power := { s.power with st := .ready, step := 1, holdup := true } }) ∧
  (∀ (s : State) (k : Nat), (s.power.st = .standby ∧ k = 1) ∨ (s.power.st = .ready ∧ 3 ≤ k) →
    ∃ t, exec (.powerUpStepOverrun k) s = .next t ∧
      t = { s with power := { s.power with st := .overrun, step := k - 1, overrun := k } } ∧ t.pwrAlert = true)

/-- RESET_RELEASE after step 1 runs steps 3 to 6 (R400): the device runs, each strap takes its value where the three samples agree
and its open value, 1, where they do not (R412), the self-tests leave their result (R395), a new session root and sixteen new hide
roots are drawn (R372), and the RESET record holds the cause latched for this boot, the step reached, the step that overran, and
the straps that disagreed (R411, R412). -/
def Obligations.ResetReleaseBringsTheDeviceUp : Prop :=
  ∀ (s : State) (a b c : BitVec 6) (code : BitVec 8) (x : BitVec 64) (torn : Bool),
    s.power.st = .ready → s.power.holdup = true →
    ∃ t, exec (.resetRelease a b c code x torn) s = .next t ∧
      t.power.st = .running ∧ t.power.step = 6 ∧ t.power.overrun = 0 ∧ t.power.trip = false ∧ t.resetPin = false ∧
      (∀ i < 6, t.mgmt.straps.getLsbD i =
        if a.getLsbD i = b.getLsbD i ∧ b.getLsbD i = c.getLsbD i then a.getLsbD i else true) ∧
      t.dex.testDone = true ∧ (t.dex.error = true ↔ code ≠ 0 ∧ code ≠ 6) ∧
      t.dex.draws = s.dex.draws + 17 ∧ t.dex.sessionRoot = Config.drbg s.dex.draws ∧
      (∀ h < 16, (t.hide h).k.root = Config.drbg (s.dex.draws + 1 + h)) ∧
      (∀ r < 64, x.getLsbD r = true → (t.region r).failed = true ∧ (t.region r).xtsFail = true) ∧
      (∃ w, Logged s t recReset (agent 15) 0xFF [1, s.power.cause, s.power.step, s.power.overrun, w])

/-- A power loss, a protective shut-down and RESET_N reset the device (R401, R410): what is volatile is at its reset value, the
stores are kept, the cause is latched (R411), a power loss of a running device writes its POWER record, and it leaves the supply
lost; RESET_N leaves the device in reset with its rails up. -/
def Obligations.PowerLossAndResetWipeWhatIsVolatile : Prop :=
  ∀ s : State, s.power.st = .running →
    (∀ v : Bool, ∃ t, exec (.powerLoss v) s = .next t ∧ Wiped t ∧ StoresKept s t ∧ t.power.st = .lost ∧
      t.power.holdup = false ∧ t.power.cause = (if v then 6 else 3) ∧
      Logged s t recPower (agent 15) 0xFF [7, if v then 6 else 3]) ∧
    (∃ t, exec .protectiveShutdown s = .next t ∧ Wiped t ∧ StoresKept s t ∧ t.power.st = .lost ∧
      t.power.holdup = false ∧ t.power.cause = 5 ∧ Logged s t recPower (agent 15) 0xFF [7, 5]) ∧
    (∃ t, exec .resetN s = .next t ∧ Wiped t ∧ StoresKept s t ∧ t.box.recs = s.box.recs ∧ t.power.cause = 2 ∧
      t.resetPin = true ∧ t.power.st = (if s.power.holdup then .ready else .standby))

/-- A sample of VIN and the input current within its valid range (R412) is taken at a tick of the always-on clock: the four samples of
the mean follow, the alert of R399 is set above 61.0 V, the real-time clock and every live lease term count the tick (R298, R409).
Three ticks without a sample fail the monitor: the alert is set and recorded, and under a ream at full rate a lean transition is
requested (R405, R412). -/
def Obligations.VinSamplesAndTicksCount : Prop :=
  (∀ (s : State) (v i : BitVec 16), s.power.st ≠ .off → v.toNat ≤ 7000 → i.toNat ≤ 8000 →
    ∃ t, exec (.vinSample v i) s = .next t ∧
      t.power.vin = v ∧ t.power.iin = i ∧ t.power.monFailed = false ∧ t.power.vins = (v.toNat :: s.power.vins).take 4 ∧
      t.power.ticks = s.power.ticks + 1 ∧ t.power.st = s.power.st ∧
      (6100 < v.toNat → t.power.alert.getLsbD 0 = true) ∧
      (t.mgmt.rtc = if s.mgmt.rtcSet then
        s.mgmt.rtc + BitVec.ofNat 64 (tickMicros (s.power.ticks + 1) - tickMicros s.power.ticks) else s.mgmt.rtc) ∧
      ∀ h n, ((t.hide h).a.slots.get LeaseSlot.reset n) =
        (if ((s.hide h).a.slots.get LeaseSlot.reset n).live
          then { ((s.hide h).a.slots.get LeaseSlot.reset n) with remain := ((s.hide h).a.slots.get LeaseSlot.reset n).remain - 1 }
          else ((s.hide h).a.slots.get LeaseSlot.reset n))) ∧
  (∀ s : State, s.power.st ≠ .off → ∃ t, exec .monitorFail s = .next t ∧
    t.power.monFailed = true ∧ t.power.alert.getLsbD 2 = true ∧
    (s.power.alert.getLsbD 2 = false → Logged s t recPower (agent 15) 0xFF [5, s.power.vin.toNat]) ∧
    (s.reamActive = true → s.plan.lean = false → s.plan.notices = [] → Switch.lean true ∈ t.plan.triggers))

/-- A temperature reading is taken as R402 and R403 say: a valid reading is the sensor's value and ends its run of invalid ones, the
third invalid reading in a row fails the sensor, no other sensor changes, and each region's DRAM flag is set above 85 °C and cleared at
83 °C or below. No reading for 10 ms fails the sensor, and a failed DRAM sensor counts as 92 °C. -/
def Obligations.TemperatureReadingsAreTaken : Prop :=
  (∀ (s : State) (k : Nat) (v : Int), s.power.st ≠ .off → (s.sensor k).trips k v = false →
    ∃ t, exec (.sensorSample [(k, v)]) s = .next t ∧
      (-40 ≤ v → v ≤ 150 → (t.sensor k).value = v ∧ (t.sensor k).bad = 0 ∧ (t.sensor k).failed = false) ∧
      (v < -40 ∨ 150 < v → (t.sensor k).value = (s.sensor k).value ∧
        (t.sensor k).failed = ((s.sensor k).failed || decide (2 ≤ (s.sensor k).bad))) ∧
      (∀ j, j ≠ k → t.sensor j = s.sensor j) ∧
      (∀ r < 64, (85 < t.dramTemp r → (t.region r).hot = true) ∧ (t.dramTemp r ≤ 83 → (t.region r).hot = false) ∧
        (83 < t.dramTemp r → t.dramTemp r ≤ 85 → (t.region r).hot = (s.region r).hot))) ∧
  (∀ (s : State) (k : Nat), s.power.st ≠ .off → ∃ t, exec (.sensorTimeout k) s = .next t ∧
    (t.sensor k).failed = true ∧ (∀ j, j ≠ k → t.sensor j = s.sensor j) ∧
    (∀ r < 64, k = 3 * r + 2 → t.dramTemp r = 92 ∧ (t.region r).hot = true))

/-- The return to full rate is requested once its conditions have held for 2^16 furlongs after at least 2^16 lean furlongs (R405), and
the notice slot of a furlong names the next one for every trigger that waits (R69). -/
def Obligations.LeanReturnIsRequestedAndAnnounced : Prop :=
  (∀ (s : State) (c : Nat), s.reamActive = true → s.plan.lean = true → s.plan.coolFrom = some c → c + 2 ^ 16 ≤ s.abs →
    s.plan.leanFrom + 2 ^ 16 ≤ s.abs → s.plan.notices = [] →
    ∃ t, exec .leanReturnCount s = .next t ∧ Switch.lean false ∈ t.plan.triggers ∧
      (∀ w ∈ s.plan.triggers, w ∈ t.plan.triggers) ∧ t.plan.notices = s.plan.notices ∧ t.plan.lean = s.plan.lean) ∧
  (∀ s : State, s.power.st = .running → s.plan.noticeAt ≠ some s.abs →
    ∃ t, exec .switchNotice s = .next t ∧ t.plan.triggers = [] ∧ t.plan.noticeAt = some s.abs ∧
      (∀ w ∈ s.plan.triggers, (s.furlongNow + 1, w) ∈ t.plan.notices) ∧ (∀ w ∈ s.plan.notices, w ∈ t.plan.notices) ∧
      t.plan.lean = s.plan.lean ∧ t.plan.variants = s.plan.variants)

/-- The clock monitors (R32, R408): a reference absent or off in two windows in a row is lost; the loss of a
die's region reference fails the sixteen regions of the die, that of the management reference takes the management port down and is recorded. A
region outside ±250 ppm of the median in two windows in a row, or whose PLL loses lock, is treated as failed and triggers its
variant. -/
def Obligations.ClockMonitorsFailWhatTheyShould : Prop :=
  (∀ (s : State) (bad : BitVec 11), s.ioUp = true → bad &&& (s.clocks.bad ||| s.clocks.lost) &&& ~~~s.clocks.lost = 0 →
    ∃ t, exec (.clockMonitorWindow bad) s = .next t ∧ t.clocks.bad = bad ∧ t.clocks.seen = true ∧
      t.clocks.lost = bad &&& (s.clocks.bad ||| s.clocks.lost) ∧ t.regions = s.regions ∧ t.cxl = s.cxl ∧ t.ports = s.ports) ∧
  (∀ (s : State) (bad : BitVec 11) (i : Nat), s.ioUp = true → i < 11 →
    bad &&& (s.clocks.bad ||| s.clocks.lost) &&& ~~~s.clocks.lost = BitVec.ofNat 11 (2 ^ i) →
    ∃ t, exec (.clockMonitorWindow bad) s = .next t ∧ t.clocks.lost = bad &&& (s.clocks.bad ||| s.clocks.lost) ∧
      (∀ d < 4, i = d + 1 → ∀ r < 16, (t.region (16 * d + r)).failed = true ∧ (t.region (16 * d + r)).lockLost = true) ∧
      (i = 9 → t.mgmt.portDown = true ∧ Logged s t recFault (agent 6) 0xFF [13, 9, 1, 0]) ∧ (i = 10 → t.clocks.aonLost = true)) ∧
  (∀ (s : State) (r : Nat) (d : Int), s.power.st = .running →
    ∃ t, exec (.regionClockWindow [(r, d)]) s = .next t ∧ (t.region r).ppm = ppmReg d ∧
      (-2500 ≤ d → d ≤ 2500 → (t.region r).strikes = 0 ∧ (t.region r).failed = (s.region r).failed) ∧
      (d < -2500 ∨ 2500 < d → 1 ≤ (s.region r).strikes → (t.region r).failed = true)) ∧
  (∀ (s : State) (r : Rgn), s.power.st = .running → (s.region r).failed = false →
    ∃ t, exec (.pllLossOfLock r) s = .next t ∧ (t.region r).lockLost = true ∧ (t.region r).failed = true ∧
      Logged s t recFault (agent 1) r [13, r, 1, 0] ∧ Switch.region r ∈ t.plan.triggers)

/-- A region's furlong ends as R30 and R43 say. Its counter completes; the mark of a live neighbour that has sent it for the region's
furlong is counted; with every mark in, the region enters the next furlong with the early marks already counted; at the limit it
enters without the missing ones and counts them (R31). The first region to enter brings the device's boundary, at which the plan's
furlong index advances. -/
def Obligations.RegionsEnterFurlongsOnTheirMarks : Prop :=
  (∀ (s : State) (r : Rgn), s.power.st = .running → s.liveNow r = true →
    ∃ t, exec (.furlongCounterComplete r) s = .next t ∧ t.region r = { s.region r with done := true } ∧
      (∀ j, j ≠ r.val → t.region j = s.region j)) ∧
  (∀ (s : State) (r src : Rgn) (low : BitVec 8), s.power.st = .running → s.liveNow r = true → src.val ∈ s.waitsFor r →
    low.toNat = (s.region r).index.toNat % 256 → (s.region src).sentMark (s.region r).index.toNat = true →
    ∃ t, exec (.boundaryMark r src low) s = .next t ∧ src.val ∈ (t.region r).marks ∧
      (∀ q ∈ (t.region r).marks, q = src.val ∨ q ∈ (s.region r).marks) ∧ (t.region r).early = (s.region r).early ∧
      (∀ j, j ≠ r.val → t.region j = s.region j)) ∧
  (∀ (s : State) (r : Rgn), s.power.st = .running → s.liveNow r = true → (s.region r).done = true → s.missing r = [] →
    ∃ t, exec (.furlongStart r) s = .next t ∧
      ((s.region r).index + 1 ≠ BitVec.ofNat 48 (s.furlongNow + 1) →
        t.region r = { s.region r with
          index := (s.region r).index + 1, done := false, marks := (s.region r).early, early := [] } ∧
        (∀ j, j ≠ r.val → t.region j = s.region j) ∧ t.plan = s.plan) ∧
      ((s.region r).index + 1 = BitVec.ofNat 48 (s.furlongNow + 1) → s.plan.staged = none →
        (∀ w ∈ s.plan.notices, s.furlongNow + 1 < w.1) →
        t.plan = { s.plan with
          furlong := if s.plan.ream.isSome then s.plan.furlong + 1 else s.plan.furlong
          base := if s.plan.ream.isSome then s.plan.base else s.plan.base + 1 })) ∧
  (∀ (s : State) (r : Rgn), s.power.st = .running → s.liveNow r = true → (s.region r).done = true →
    (s.region r).index + 1 ≠ BitVec.ofNat 48 (s.furlongNow + 1) →
    ∃ t, exec (.boundaryLimit r) s = .next t ∧
      t.region r = { s.region r with
        late := satAdd (s.region r).late (s.missing r).length
        index := (s.region r).index + 1, done := false, marks := (s.region r).early, early := [] })

/-- The gates enter the furlong of the plan controller when the bridge regions' marks have arrived (R331), and at a gate chain boundary
each hide's two buckets gain their rates up to their depths, and TG_BUCKET samples them (R337, R339). -/
def Obligations.GatesAndPolicersKeepTime : Prop :=
  (∀ s : State, exec .gateFurlongStart s = .next { s with gates := { s.gates with furlong := s.plan.furlong } }) ∧
  (∀ s : State, s.reamActive = true →
    ∃ t, exec .policerRefill s = .next t ∧
      ∀ h < 16, (∀ k, (s.hide h).lay.isSome = true → (s.hide h).sec = some k →
          (t.hide h).q.ordTokens = min ((s.hide h).q.ordTokens + bits k.tgOrdPol.toNat 0 24) (bits k.tgOrdPol.toNat 32 16 * 256) ∧
          (t.hide h).q.byteTokens = min ((s.hide h).q.byteTokens + bits k.tgBytePol.toNat 0 32) (bits k.tgBytePol.toNat 32 32) ∧
          (t.hide h).q.ordLevel = BitVec.ofNat 32 ((t.hide h).q.ordTokens / 256) ∧
          (t.hide h).q.byteLevel = BitVec.ofNat 32 (t.hide h).q.byteTokens) ∧
        { t.hide h with q := (s.hide h).q } = s.hide h ∧
        ((s.hide h).lay = none ∨ (s.hide h).sec = none → t.hide h = s.hide h))

/-- Screening runs on the held-out unit and counts (R356, R357). The rotation returns the held-out unit at the end of its holding
period and holds out the next healthy one, whose slot takes the returning unit. A run of an idle pattern that passes is only counted;
one that fails is counted and keeps the unit held out, with ACTION RECORD it writes its SCREEN record, and with ACTION FAIL on a unit it
fails the unit. The summary records the counts and starts them anew. -/
def Obligations.ScreeningRotatesCountsAndFails : Prop :=
  (∀ (s : State) (c : Cluster) (u v : Nat), s.reamActive = true → (s.cluster c).spares ≠ 0 → (s.cluster c).heldOut = some u →
    (s.cluster c).passing = true →
    (s.cluster c).heldSince + 2 ^ bits s.screen.rotExp.toNat 0 5 ≤ (s.region (c.val / 64)).held →
    (s.cluster c).nextHealthy u = some v →
    ∃ t, exec (.heldOutRotation c) s = .next t ∧ (t.cluster c).heldOut = some v ∧ (t.cluster c).passing = true ∧
      (t.cluster c).heldSince = (s.region (c.val / 64)).held ∧ (t.cluster c).failed = (s.cluster c).failed ∧
      (∀ i < 76, (t.cluster c).unit i = if (s.cluster c).unit i = v then u else (s.cluster c).unit i) ∧
      (∀ d, d ≠ c.val → t.cluster d = s.cluster d)) ∧
  (∀ (s : State) (c : Cluster) (phys id : Nat) (p : Pattern) (k : Package) (res : U32), s.reamActive = true →
    s.screen.package = some k → k.patterns.find? (fun y => y.id == id) = some p → p.level = 2 →
    (s.cluster c).heldOut = some phys →
    ∃ t, exec (.screenPatternRun c phys id res) s = .next t ∧
      t.screen.runs = (s.screen.runs.1, s.screen.runs.2 + 1) ∧
      (res = p.expect → t = { s with screen := { s.screen with runs := (s.screen.runs.1, s.screen.runs.2 + 1) } }) ∧
      (res ≠ p.expect → t.screen.fails = (s.screen.fails.1, s.screen.fails.2 + 1) ∧
        t.screen.idleFail = satInc s.screen.idleFail ∧ (t.cluster c).passing = false ∧
        (p.action ≠ 1 → (t.cluster c).failed = (s.cluster c).failed ∧
          Logged s t recScreen (agent 3) (c.val / 64)
            [p.id, 2, (s.region (c.val / 64)).point, p.target, c.val, phys, p.action]) ∧
        (p.action = 1 → p.target = 0 → phys ∈ (t.cluster c).failed))) ∧
  (∀ s : State, ∃ t, exec .screenSummary s = .next t ∧ t.screen.runs = (0, 0) ∧ t.screen.fails = (0, 0) ∧
    t.screen.stressFail = s.screen.stressFail ∧ t.screen.idleFail = s.screen.idleFail ∧
    Logged s t recSummary (agent 3) 0xFF
      [s.screen.runs.1, s.screen.fails.1, s.screen.runs.2, s.screen.fails.2])

/-- The counts of each cluster's bank group that is nonzero go into a FAULT record and start anew (R353), and refresh window A writes
back at most four corrected lines of a cluster (R342). -/
def Obligations.BankGroupCountsAndWriteBacks : Prop :=
  (∀ s : State, ∃ t, exec .bankGroupFaultRecord s = .next t ∧
    t.box.next = s.box.next + (s.clusters.filter (fun e => decide (e.2.corrected + e.2.uncorrected ≠ 0))).length ∧
    ∀ c, t.cluster c = { s.cluster c with corrected := 0, uncorrected := 0 }) ∧
  (∀ (s : State) (c : Cluster), ∃ t, exec (.dramCorrectiveWriteback c) s = .next t ∧
    t.cluster c = { s.cluster c with writeback := (s.cluster c).writeback.drop 4 } ∧
    ∀ d, d ≠ c.val → t.cluster d = s.cluster d)

/-- Replays of a region run one at a time, in detection order, in a live partner (R349); a clean result ends the unit as MASKED or
CONFIRMED and counts, and a CONFIRMED outcome of a physical unit fails it (R350, R353); a suspect first replay goes to the other
partner. -/
def Obligations.ReplaysRunAndEnd : Prop :=
  (∀ (s : State) (r : Rgn) (u : Replay) (rest : List Replay) (p : Nat),
    s.screen.units.filter (fun y => y.region == r.val) = u :: rest → (∀ y ∈ u :: rest, y.started = false) →
    s.partner u = some p →
    exec (.replayStart r) s =
      .next (s.upUnit u.id (fun y => { y with started := true, partner := p, tries := y.tries + 1 }))) ∧
  (∀ (s : State) (id : Nat) (u : Replay) (out : ReplayOut), s.screen.units.find? (fun y => y.id == id) = some u →
    u.started = true → u.region < 64 →
    ∃ t, exec (.replayResult id out) s = .next t ∧ t.screen.replays = satInc s.screen.replays ∧
      (out = .equal → t.screen.units = s.screen.units.filter (fun y => y.id != id) ∧
        t.screen.confirmed = s.screen.confirmed ∧ t.screen.failed = s.screen.failed) ∧
      (out = .differs → t.screen.units = s.screen.units.filter (fun y => y.id != id) ∧
        t.screen.confirmed = satInc s.screen.confirmed ∧ t.screen.failed = s.screen.failed ∧
        (u.phys < 80 → u.cluster < 4096 → u.phys ∈ (t.cluster u.cluster).failed)) ∧
      (out = .suspect → u.tries = 1 → s.partner u ≠ none →
        t = { s with screen := { s.screen with
          replays := satInc s.screen.replays
          units := s.screen.units.map (fun y => if y.id == id then { u with started := false } else y) } }))

/-- A host's whole-line write to a hide's ring or operand area stores its 64 bytes at the line and nowhere else, poisons or clears the
line's mark (R305), is answered, and when it is a write-back gives the line up (R288); a peer's write stores to the operand area and is
refused in the ring area (R287). Outside the areas nothing is stored, and AC_LOST counts the access. -/
def Obligations.WritesStoreTheLineAndNothingElse : Prop :=
  (∀ (s : State) (ld : Ld) (off h : Nat) (data : List Byte) (poison wb : Bool) (cycle : Nat),
    s.serves ld false = .hide h → data.length = 64 →
    ∃ t, exec (.cxlMemWrite ld off data poison wb cycle) s = .next t ∧
      ((s.hide h).area off = .ring ∨ (s.hide h).area off = .opnd → Apart h s t ∧
        t.readMem h off 64 = data ∧
        (∀ a, a < imemBase h off ∨ imemBase h off + 64 ≤ a → Memory.get t.imem a = Memory.get s.imem a) ∧
        (off ∈ (t.hide h).a.poisonLines ↔ poison = true) ∧
        (wb = true → ∀ d ∈ (t.hide h).a.dir, d.off ≠ off) ∧
        ∃ f ∈ (t.gates.queues.get EgQueue.empty (egKey 8 h)).first, f.body = .ndr off (devLoad (s.hide h).a.acreQ.length)) ∧
      ((s.hide h).area off = .gap → Apart h s t ∧ t.imem = s.imem ∧ (t.hide h).a.lost = satInc (s.hide h).a.lost)) ∧
  (∀ (s : State) (ld : Ld) (off h : Nat) (data : List Byte) (poison : Bool) (cycle : Nat),
    s.serves ld true = .hide h → data.length = 64 →
    ∃ t, exec (.uioWrite ld off data poison cycle) s = .next t ∧
      ((s.hide h).area off = .opnd → Apart h s t ∧
        t.readMem h off 64 = data ∧
        (∀ a, a < imemBase h off ∨ imemBase h off + 64 ≤ a → Memory.get t.imem a = Memory.get s.imem a) ∧
        (off ∈ (t.hide h).a.poisonLines ↔ poison = true)) ∧
      ((s.hide h).area off = .ring → t.imem = s.imem ∧ t.hides = s.hides ∧
        ∃ f ∈ (t.gates.queues.get EgQueue.empty (egKey 8 h)).second, f.body = .unsupported))

/-- A read of a line of the ring or operand area, from the host or from a peer, is answered with the line's bytes and its poison, leaves
memory as it was, and for a host that caches the line enters it in the directory, exclusive for a read for ownership and for a request
without data (R288, R303, R305). -/
def Obligations.ReadsAnswerTheLine : Prop :=
  (∀ (s : State) (ld : Ld) (off h : Nat) (kind : ReadKind), s.serves ld false = .hide h →
    (s.hide h).area off = .ring ∨ (s.hide h).area off = .opnd →
    ∃ t, exec (.cxlMemRead ld off kind) s = .next t ∧ t.imem = s.imem ∧ Apart h s t ∧
      (∃ f ∈ (t.gates.queues.get EgQueue.empty (egKey 8 h)).first,
        f.body = .drs off (s.readMem h off 64) ((s.hide h).a.poisonLines.contains off) (kind == .shared)
          (devLoad (s.hide h).a.acreQ.length)) ∧
      (kind = .uncached → t.hide h = s.hide h) ∧
      (kind ≠ .uncached → (⟨off, kind == .ownership⟩ : DirLine) ∈ (t.hide h).a.dir)) ∧
  (∀ (s : State) (ld : Ld) (off h : Nat), s.serves ld false = .hide h →
    (s.hide h).area off = .ring ∨ (s.hide h).area off = .opnd →
    ∃ t, exec (.cxlMemInv ld off) s = .next t ∧ t.imem = s.imem ∧ Apart h s t ∧
      (⟨off, true⟩ : DirLine) ∈ (t.hide h).a.dir ∧
      ∃ f ∈ (t.gates.queues.get EgQueue.empty (egKey 8 h)).first, f.body = .ndr off (devLoad (s.hide h).a.acreQ.length)) ∧
  (∀ (s : State) (ld : Ld) (off h : Nat), s.serves ld true = .hide h →
    (s.hide h).area off = .ring ∨ (s.hide h).area off = .opnd →
    ∃ t, exec (.uioRead ld off) s = .next t ∧ t.imem = s.imem ∧ t.hides = s.hides ∧
      ∃ f ∈ (t.gates.queues.get EgQueue.empty (egKey 8 h)).second,
        f.body = .ioData (s.readMem h off 64) ((s.hide h).a.poisonLines.contains off))

/-- An HDM decoder commit is accepted for the one size, interleave and base granule that R286 allows, holds lock-on-commit, and has no
effect on a decoder that is locked; any other commit is refused with the error bit. -/
def Obligations.DecoderCommitsAreChecked : Prop :=
  ∀ (s : State) (ld : Ld) (size ways base : Nat) (lock : Bool), s.ioUp = true → s.cxl.width ≠ 0 →
    (s.ld ld).ideIo ≠ .insecure → (∀ h, s.hideOfLd ld = some h → (s.hide h).k.tsp.guarded = false) →
    ∃ t, exec (.hdmDecoderCommit ld size ways base lock) s = .next t ∧ t.hides = s.hides ∧
      (∀ l, l ≠ ld.val → t.ld l = s.ld l) ∧
      ((s.ld ld).decLocked = true → t = s) ∧
      ((s.ld ld).decLocked = false → size = 17 * 2 ^ 30 → ways = 1 → base % 2 ^ 28 = 0 →
        t.ld ld = { s.ld ld with decoder := some (size, ways, base), decLocked := lock, decError := false }) ∧
      ((s.ld ld).decLocked = false → ¬(size = 17 * 2 ^ 30 ∧ ways = 1 ∧ base % 2 ^ 28 = 0) →
        t.ld ld = { s.ld ld with decoder := none, decError := true })

/-- A cause of a hide reset (R368 to R370, R380): from IDLE it starts a reset, which waits for the boundary while a ream is active and
begins ENDING at once otherwise; a locked or running confidential hide goes to ERROR and never drains. A cause that joins a reset
keeps its first CAUSE, ends the drain unless it asks for one, and takes HELD on to KEYS; later phases go on as they are. -/
def Obligations.HideResetGoStartsOrJoinsAReset : Prop :=
  ∀ (s : State) (h : Hide) (drain : Bool), ∃ t, exec (.hideResetGo h drain) s = .next t ∧ Apart h s t ∧
    ((t.hide h).k.tsp = if (s.hide h).k.tsp.guarded then .error else (s.hide h).k.tsp) ∧
    ((s.hide h).k.phase = .idle →
      (t.hide h).k.phase = (if s.reamActive then .start else .ending) ∧ (t.hide h).k.cause = 1 ∧
      (t.hide h).k.drain = (drain && !(s.hide h).k.tsp.guarded) ∧ (t.hide h).k.origin.1 = 2 ∧
      (s.reamActive = true → (t.hide h).q = (s.hide h).q)) ∧
    ((s.hide h).k.phase ≠ .idle → (t.hide h).k.cause = (s.hide h).k.cause) ∧
    ((s.hide h).k.phase = .start ∨ (s.hide h).k.phase = .ending → (t.hide h).k.phase = (s.hide h).k.phase ∧
      (t.hide h).k.drain = ((s.hide h).k.drain && drain && !(s.hide h).k.tsp.guarded)) ∧
    ((s.hide h).k.phase = .held →
      (t.hide h).k.phase = if drain && !(s.hide h).k.tsp.guarded then .held else .keys) ∧
    ((s.hide h).k.phase = .keys ∨ (s.hide h).k.phase = .release ∨ (s.hide h).k.phase = .scrub ∨ (s.hide h).k.phase = .reload →
      (t.hide h).k.phase = (s.hide h).k.phase)

/-- HELD ends with PROCEED or after 100 ms, and KEYS destroys the hide's keys (R368, R369, R372, R374): the hide has a root never drawn
before and holds no job key; ERASE_KEY and the TRIM of its allotment wait at every port (R329). Outside HELD nothing happens. -/
def Obligations.KeysAreDestroyedWhenHeldEnds : Prop :=
  ∀ (s : State) (h : Hide) (c : Instr), c = .hideResetProceed h ∨ c = .hideResetHeldTimeout h →
    ∃ t, exec c s = .next t ∧ Apart h s t ∧
      ((s.hide h).k.phase ≠ .held → t = s) ∧
      ((s.hide h).k.phase = .held →
        (t.hide h).k.phase = .keys ∧ (t.hide h).k.root = Config.drbg s.dex.draws ∧ t.dex.draws = s.dex.draws + 1 ∧
        (∀ i, ((t.hide h).k.jobKey i).held = false) ∧ (t.hide h).lay = (s.hide h).lay ∧
        ∀ p < 8, CmdFor.erase h ∈ (t.port p).first)

/-- The later phases of a hide reset (R369, R378). ENDING ends, once no order is in flight, in HELD for a drain and in KEYS otherwise.
RELEASE begins when the keys are gone, and closes leases. SCRUB finds every object freed and every buffer disabled. Scrubbing zeroes the
hide's interface memory and no other byte; RELOAD then waits for the boundary, or follows at once without a ream: the hide is idle,
UNLOCKED if confidential, and the RESET record names the first cause (R371). -/
def Obligations.HideResetPhasesFollowEachOther : Prop :=
  (∀ (s : State) (h : Hide), (s.hide h).k.phase = .ending → s.busy h = false →
    ∃ t, exec (.hideResetEndingDone h) s = .next t ∧ Apart h s t ∧
      (t.hide h).k.phase = (if (s.hide h).k.drain then .held else .keys) ∧
      ((s.hide h).k.drain = false → (t.hide h).k.root = Config.drbg s.dex.draws)) ∧
  (∀ (s : State) (h : Hide), (s.hide h).k.phase = .keys →
    ∃ t, exec (.hideResetKeysDone h) s = .next t ∧ (t.hide h).k.phase = .release ∧
      ∀ j : Nat, j ≠ h → (t.hide j).core = (s.hide j).core) ∧
  (∀ (s : State) (h : Hide), (s.hide h).k.phase = .release →
    ∃ t, exec (.hideResetReleaseDone h) s = .next t ∧ Apart h s t ∧ (t.hide h).k.phase = .scrub ∧
      (t.hide h).o.tab.seqs = [] ∧ (t.hide h).o.tab.pfxs = [] ∧ (t.hide h).o.tab.sets = [] ∧ (t.hide h).o.tab.books = [] ∧
      (t.hide h).o.tab.exts = [] ∧ (t.hide h).o.frames = OPart.reset.frames ∧
      ∀ b ∈ (t.hide h).a.bufs, b.2.en = false) ∧
  (∀ (s : State) (h : Hide), (s.hide h).k.phase = .scrub →
    ∃ t, exec (.hideResetScrubDone h) s = .next t ∧
      (s.reamActive = true → (t.hide h).k.phase = .reload ∧ Apart h s t ∧
        (∀ a, imemBase h 0 ≤ a → a < imemBase (h + 1) 0 → Memory.get t.imem a = 0) ∧
        ∀ a, a < imemBase h 0 ∨ imemBase (h + 1) 0 ≤ a → Memory.get t.imem a = Memory.get s.imem a) ∧
      (s.reamActive = false → (t.hide h).k.phase = .idle ∧
        (t.hide h).k.tsp = (if (s.hide h).confidential then .unlocked else .off) ∧
        Logged s t recReset ⟨(s.hide h).k.origin.1, (s.hide h).k.origin.2⟩ 0xFF [2, (s.hide h).k.cause, h]))

/-- The TSP requests of R380: a lock request succeeds for an unlocked confidential hide exactly when its streams are secure, its decoder is
committed and locked, the lifecycle is PRODUCTION, debug is not unlocked, the self-tests passed and the hide is pristine; a start request
succeeds from LOCKED; a request that fails changes nothing but the response. A stop request from LOCKED or RUN ends in ERROR with an
immediate reset of cause 5. No other hide changes.
A write to a logical device's configuration space stores the word, unless the hide bound to it is locked: then nothing is written, and
the hide goes to ERROR and starts a reset of cause 5 (R380, R382). -/
def Obligations.TspRequestsAndConfigurationWritesFollowTheLock : Prop :=
  ((∀ (s : State) (h : Hide), ∃ t, exec (.tspLock h) s = .next t ∧ Only [.hides, .mgmt] s t ∧ Apart h s t ∧
     let ok := (s.hide h).k.tsp = .unlocked ∧ (s.ld (s.ldOf h)).ideIo = .secure ∧ s.cxl.ideMem = .secure ∧
       (s.ld (s.ldOf h)).decoder ≠ none ∧ (s.ld (s.ldOf h)).decLocked = true ∧ s.dex.life = .production ∧ s.dex.unlocked = false ∧
       s.dex.testDone = true ∧ s.dex.error = false ∧ (s.hide h).isPristine = true
     (ok → t.hide h = { s.hide h with k := { (s.hide h).k with tsp := .locked } } ∧ t.mgmt.raw = s.mgmt.raw ++ [tspReply 1 true]) ∧
     (¬ ok → t.hide h = s.hide h ∧ t.mgmt.raw = s.mgmt.raw ++ [tspReply 1 false])) ∧
   (∀ (s : State) (h : Hide), ∃ t, exec (.tspStart h) s = .next t ∧ Only [.hides, .mgmt] s t ∧ Apart h s t ∧
     ((s.hide h).k.tsp = .locked →
       t.hide h = { s.hide h with k := { (s.hide h).k with tsp := .run } } ∧ t.mgmt.raw = s.mgmt.raw ++ [tspReply 2 true]) ∧
     ((s.hide h).k.tsp ≠ .locked → t.hide h = s.hide h ∧ t.mgmt.raw = s.mgmt.raw ++ [tspReply 2 false])) ∧
   (∀ (s : State) (h : Hide), ∃ t, exec (.tspStop h) s = .next t ∧ Apart h s t ∧
     ((s.hide h).k.tsp = .locked ∨ (s.hide h).k.tsp = .run → (t.hide h).k.tsp = .error ∧
       ((s.hide h).k.phase = .idle → (t.hide h).k.cause = 5 ∧ (t.hide h).k.drain = false ∧
         (t.hide h).k.phase = if s.reamActive then .start else .ending)) ∧
     ((s.hide h).k.tsp ≠ .locked → (s.hide h).k.tsp ≠ .run → t.hide h = s.hide h))) ∧
  (∀ (s : State) (ld : Ld) (off : Nat) (v : U32), s.up = true → s.cxl.width ≠ 0 → (s.ld ld).ideIo ≠ .insecure →
     ∃ t, exec (.configurationWrite ld off v) s = .next t ∧
       ((∀ h, s.hideOfLd ld = some h → (s.hide h).k.tsp.guarded = false) →
         Only [.cxl] s t ∧ (t.ld ld).config.get 0 off = v ∧ (∀ o, o ≠ off → (t.ld ld).config.get 0 o = (s.ld ld).config.get 0 o)) ∧
       ∀ h, s.hideOfLd ld = some h → (s.hide h).k.tsp.guarded = true → t.cxl = s.cxl ∧ Apart h s t ∧ (t.hide h).k.tsp = .error ∧
         ((s.hide h).k.phase = .idle → (t.hide h).k.cause = 5))

/-- A hot reset, a link-down and PERST# take the port down (R282, R441): width, rate and every IDE stream end, the configuration space
of every logical device is restored, the LINK record is written, and the hide of every bound logical device that is idle starts a reset
of cause 3. An FLR does so for one logical device, with cause 2. -/
def Obligations.PortResetsResetTheBoundHides : Prop :=
  (∀ (s : State) (c : Instr), c = .cxlLinkDown ∨ c = .cxlPerstN → s.cxl.width ≠ 0 →
    ∃ t, exec c s = .next t ∧ t.cxl.width = 0 ∧ t.cxl.rate = 0 ∧ t.cxl.ideMem = .off ∧
      (∀ ld < 16, (t.ld ld).config = []) ∧
      Logged s t recLink (agent 17) 0xFF [8, 0, 0] ∧
      ∀ ld < 16, ∀ h, s.hideOfLd ld = some h →
        ((s.hide h).k.phase = .idle → (t.hide h).k.cause = 3 ∧ (t.hide h).k.phase = (if s.reamActive then .start else .ending)) ∧
        (t.hide h).k.tsp = (if (s.hide h).k.tsp.guarded then .error else (s.hide h).k.tsp)) ∧
  (∀ (s : State) (ld : Ld), s.ioUp = true → ∃ t, exec (.flr ld) s = .next t ∧ (t.ld ld).config = [] ∧
    (∀ l : Nat, l ≠ ld → t.ld l = s.ld l) ∧ (s.hideOfLd ld = none → t.hides = s.hides) ∧
    ∀ h, s.hideOfLd ld = some h → Apart h s t ∧
      ((s.hide h).k.phase = .idle → (t.hide h).k.cause = 2 ∧ (t.hide h).k.drain = false ∧
        (t.hide h).k.phase = if s.reamActive then .start else .ending))

/-- The link trains and re-forms, and its streams are established and fail, as R279 and R280 say: the width and rate in force and the LINK
record follow the link; a stream is secure once established, and insecure after an integrity failure, which takes a locked hide that
depends on it to ERROR (R382); no plan changes with the width. -/
def Obligations.TheLinkAndItsStreamsFollowTheirEvents : Prop :=
  (∀ (s : State) (w r : Nat), s.ioUp = true → s.cxl.width = 0 →
    ∃ t, exec (.cxlLinkUp w r) s = .next t ∧ t.cxl = { s.cxl with width := w, rate := r } ∧ t.hides = s.hides ∧
      Logged s t recLink (agent 17) 0xFF [8, w, r]) ∧
  (∀ (s : State) (w r : Nat), s.cxl.width ≠ 0 → s.cxl.width ≠ w ∨ s.cxl.rate ≠ r →
    ∃ t, exec (.cxlLinkWidthChange w r) s = .next t ∧ t.cxl.width = w ∧ t.cxl.rate = r ∧
      (s.cxl.changes.toNat < 0xFFFF → t.cxl.changes = s.cxl.changes + 1) ∧ t.plan = s.plan ∧ t.cxl.lds = s.cxl.lds ∧
      Logged s t recLink (agent 17) 0xFF [8, w, r]) ∧
  (∀ (s : State), s.cxl.width ≠ 0 →
    (∃ t, exec (.ideStreamEstablished none) s = .next t ∧ t = { s with cxl := { s.cxl with ideMem := .secure } }) ∧
    ∀ ld : Ld, ∃ t, exec (.ideStreamEstablished (some ld)) s = .next t ∧ Only [.cxl] s t ∧ (t.ld ld).ideIo = .secure ∧
      ∀ l : Nat, l ≠ ld → t.ld l = s.ld l) ∧
  (∀ (s : State), s.cxl.ideMem = .secure → ∃ t, exec (.ideIntegrityFail none) s = .next t ∧ t.cxl = { s.cxl with ideMem := .insecure } ∧
    ∀ h < 16, (t.hide h).k.tsp = if (s.hide h).k.tsp.guarded then .error else (s.hide h).k.tsp) ∧
  (∀ (s : State) (ld : Ld), (s.ld ld).ideIo = .secure → ∃ t, exec (.ideIntegrityFail (some ld)) s = .next t ∧
    (t.ld ld).ideIo = .insecure ∧ (∀ l : Nat, l ≠ ld → t.ld l = s.ld l) ∧
    ∀ h, s.hideOfLd ld = some h → (t.hide h).k.tsp = if (s.hide h).k.tsp.guarded then .error else (s.hide h).k.tsp)

/-- The next complete packet is taken whole (R255): TAKEN of its ring moves past its entries, the header line shows it, their notices
are gone, the orders are numbered in order and join the dispatch list after those that wait, and are then dispatched. No other ring of
the hide and no other hide changes by the taking. -/
def Obligations.PacketsAreTakenWhole : Prop :=
  ∀ (s : State) (h : Hide) (ring n : Nat), (s.hide h).q.noIntake = false → (s.hide h).nextPacket = some (ring, n) →
    ∃ u, exec (.packetTake h) s = .next (u.dispatchAll h) ∧ Apart h s u ∧
      (u.hide h).q.orders.get OrderRing.reset ring =
        (let r := (s.hide h).q.orders.get OrderRing.reset ring
         { r with
           taken := r.taken + BitVec.ofNat 32 n
           notices := r.notices.filter (fun p => !((List.range n).any (fun i => (r.taken.toNat + i) % ctlEntries r.ctl == p.1)))
           err := ((u.hide h).q.orders.get OrderRing.reset ring).err }) ∧
      (∀ m, m ≠ ring → (u.hide h).q.orders.get OrderRing.reset m = (s.hide h).q.orders.get OrderRing.reset m) ∧
      u.readMem h ((s.hide h).q.orders.get OrderRing.reset ring).base.toNat 4 =
        leBytes 4 (((s.hide h).q.orders.get OrderRing.reset ring).taken + BitVec.ofNat 32 n).toNat ∧
      ∃ l : List Order, (u.hide h).q.dispatch = (s.hide h).q.dispatch ++ l ∧ l.length ≤ n ∧
        (u.hide h).q.nextSeq = (s.hide h).q.nextSeq + l.length ∧
        ∀ i (hi : i < l.length), l[i].seq = (s.hide h).q.nextSeq + i ∧ l[i].ring = ring ∧ l[i].txn = none

/-- Waits of the queues end. A packet that is not complete in time is taken up to its last noticed entry (R255, R272): each of its orders ends with
TIMEOUT when dispatched, and ERR.PKT_TIMEOUT is set; a packet that has become complete is left alone. Events that waited 1 ms for an event ring are
discarded and counted in ER_LOST (R252); nothing else of the hide changes. -/
def Obligations.PacketsAndEventsThatWaitTimeOut : Prop :=
  (∀ (s : State) (h : Hide) (ring : Fin 8) (last : Nat),
    let x := s.hide h
    let r := x.q.orders.get OrderRing.reset ring
    (((List.range (r.reach x.lengthWord)).filter (fun i => (r.at i).isSome)).getLast? = some last) →
    (r.packet x.lengthWord ≠ none → exec (.packetTimeout h ring) s = .next s) ∧
    (r.ready = true → x.q.noIntake = false → r.packet x.lengthWord = none →
      ∃ u, exec (.packetTimeout h ring) s = .next (u.dispatchAll h) ∧ Apart h s u ∧
        ((u.hide h).q.orders.get OrderRing.reset ring).taken = r.taken + BitVec.ofNat 32 (last + 1) ∧
        ((u.hide h).q.orders.get OrderRing.reset ring).err.getLsbD 3 = true ∧
        ∃ l : List Order, (u.hide h).q.dispatch = x.q.dispatch ++ l ∧ l.length ≤ last + 1 ∧
          (u.hide h).q.nextSeq = x.q.nextSeq + l.length ∧ ∀ o ∈ l, o.early = some (stTimeout, 0) ∧ o.ring = ring)) ∧
  (∀ (s : State) (h : Hide) (es : List (List Byte)) (rest : List (List (List Byte))), (s.hide h).q.held = es :: rest →
    ∃ t, exec (.heldPostTimeout h) s = .next t ∧ Only [.hides] s t ∧ Apart h s t ∧
      t.hide h = { s.hide h with q := { (s.hide h).q with
        held := rest
        events := { (s.hide h).q.events with lost := satAdd (s.hide h).q.events.lost es.length } } })

/-- A pointer mismatch resets the one queue, logs a FAULT record (R271), and leaves every order ring but a faulted one as it was: an
order ring is disabled with ERR.PTR_ERR; a completion ring drops its unread entries, counts them, and goes on. -/
def Obligations.PointerMismatchResetsOneQueue : Prop :=
  (∀ (s : State) (h : Hide) (n : Fin 8), ∃ t, exec (.queuePointerMismatch h .order n) s = .next t ∧ Apart h s t ∧
    Logged s t recFault (agent 5) 0xFF [9, h, 0, n, ((s.hide h).q.orders.get OrderRing.reset n).taken.toNat] ∧
    ((t.hide h).q.orders.get OrderRing.reset n = { ((s.hide h).q.orders.get OrderRing.reset n) with
      ctl := ((s.hide h).q.orders.get OrderRing.reset n).ctl &&& 0x1E, ready := false, notices := []
      err := ((s.hide h).q.orders.get OrderRing.reset n).err ||| 2 }) ∧
    (∀ m, m ≠ n.val → (t.hide h).q.orders.get OrderRing.reset m = (s.hide h).q.orders.get OrderRing.reset m) ∧
    (t.hide h).q.comps = (s.hide h).q.comps ∧ (t.hide h).o = (s.hide h).o) ∧
  (∀ (s : State) (h : Hide) (n : Fin 8), ∃ t, exec (.queuePointerMismatch h .completion n) s = .next t ∧ Apart h s t ∧
    Logged s t recFault (agent 5) 0xFF [9, h, 1, n, ((s.hide h).q.comps.get OutRing.reset n).prod.toNat] ∧
    (let r := (s.hide h).q.comps.get OutRing.reset n
     let r' := (t.hide h).q.comps.get OutRing.reset n
     r'.prod = r.read ∧ r'.oldest = r.read ∧ r'.pkts = [] ∧ r'.ctl = r.ctl ∧ r'.ready = r.ready ∧ r'.lost = satAdd r.lost r.unread ∧
      r'.err = r.err ||| 2) ∧
    (t.hide h).q.orders = (s.hide h).q.orders ∧ (t.hide h).o = (s.hide h).o) ∧
  (∀ (s : State) (h : Hide) (n : Fin 8), ∃ t, exec (.queuePointerMismatch h .event n) s = .next t ∧ Apart h s t ∧
    Logged s t recFault (agent 5) 0xFF [9, h, 2, n, (s.hide h).q.events.prod.toNat] ∧
    (t.hide h).q.orders = (s.hide h).q.orders ∧ (t.hide h).q.comps = (s.hide h).q.comps ∧ (t.hide h).o = (s.hide h).o)

/-- Rings are enabled and disabled as R252 says. A write of EN to a ring whose EN is clear, with a size, base and span that R250 allows,
zeroes the ring's bytes and no others, and makes it ready from index 0; a configuration that fails leaves EN clear and sets CFG_ERR with
memory as it was. A write to an enabled ring changes nothing, or sets CFG_ERR where it differs; under a hide reset it sets CFG_ERR. A
write without EN stops intake at once.
Registered buffers obey R290: EN is taken when ADDR and LEN keep the rules, and refused with ERR.BUF_CFG otherwise; clearing EN
disables the buffer for orders taken from then on. -/
def Obligations.RingsAndBuffersAreEnabledAndDisabled : Prop :=
  ((∀ (s : State) (h : Hide) (n : Fin 8) (ctl : U32), ctlEn (ctlMask ctl) = true → (s.hide h).resetting = false →
     let r := (s.hide h).q.orders.get OrderRing.reset n
     ∃ t, exec (.ringEnable h .order n ctl) s = .next t ∧ Only [.hides, .imem, .gates] s t ∧ Apart h s t ∧
       let r' := (t.hide h).q.orders.get OrderRing.reset n
       (ctlEn r.ctl = false → s.reamActive = true → (s.hide h).ringOk .order n r.base (ctlMask ctl) = true →
         r' = { r with ctl := ctlMask ctl, ready := true, taken := 0, notices := [] } ∧
         ∀ a, Memory.get t.imem a = if imemBase h r.base.toNat ≤ a ∧ a < imemBase h (r.base.toNat + ringSpan (ctlMask ctl) 64)
           then 0 else Memory.get s.imem a) ∧
       (ctlEn r.ctl = false → s.reamActive = false ∨ (s.hide h).ringOk .order n r.base (ctlMask ctl) = false →
         r' = { r with ctl := ctlMask ctl &&& 0x1E, err := r.err ||| 1 } ∧ t.imem = s.imem) ∧
       (ctlEn r.ctl = true → t.imem = s.imem ∧ r' = if ctlMask ctl = r.ctl then r else { r with err := r.err ||| 1 })) ∧
   (∀ (s : State) (h : Hide) (n : Fin 8) (ctl : U32), ctlEn (ctlMask ctl) = true → (s.hide h).resetting = false →
     let r := (s.hide h).q.comps.get OutRing.reset n
     ctlEn r.ctl = false → s.reamActive = true → (s.hide h).ringOk .completion n r.base (ctlMask ctl) = true →
     ∃ t, exec (.ringEnable h .completion n ctl) s = .next t ∧ Only [.hides, .imem, .gates] s t ∧ Apart h s t ∧
       (t.hide h).q.comps.get OutRing.reset n =
         { r with ctl := ctlMask ctl, ready := true, prod := 0, oldest := 0, cons := 0, lostHdr := 0, pkts := [] } ∧
       ∀ a, Memory.get t.imem a = if imemBase h r.base.toNat ≤ a ∧ a < imemBase h (r.base.toNat + ringSpan (ctlMask ctl) 32)
         then 0 else Memory.get s.imem a) ∧
   (∀ (s : State) (h : Hide) (n : Fin 8) (ctl : U32), (s.hide h).resetting = false →
     ∃ t, exec (.ringDisable h .order n ctl) s = .next t ∧ Only [.hides] s t ∧ Apart h s t ∧
       let r := (s.hide h).q.orders.get OrderRing.reset n
       let r' := (t.hide h).q.orders.get OrderRing.reset n
       ctlEn r'.ctl = false ∧ r'.ready = false ∧ r'.notices = [] ∧ r'.taken = r.taken ∧ r'.base = r.base ∧
       (ctlEn r.ctl = true → bits r'.ctl.toNat 1 4 = bits r.ctl.toNat 1 4))) ∧
  ((∀ (s : State) (h : Hide) (b : Fin 64) (ctl : U32), ctl.getLsbD 0 = true → (s.hide h).resetting = false → ((s.hide h).buf b).en = false →
     ∃ t, exec (.bufferEnable h b ctl) s = .next t ∧ Only [.hides] s t ∧ Apart h s t ∧
       (t.hide h).buf b = { ((s.hide h).buf b) with en := ((s.hide h).buf b).ok, rd := ctl.getLsbD 1, wr := ctl.getLsbD 2 } ∧
       (t.hide h).a.err = (if ((s.hide h).buf b).ok then (s.hide h).a.err else (s.hide h).a.err ||| 4) ∧
       ∀ c : Nat, c ≠ b → (t.hide h).buf c = (s.hide h).buf c) ∧
   (∀ (s : State) (h : Hide) (b : Fin 64) (ctl : U32), ctl.getLsbD 0 = false → (s.hide h).resetting = false → ((s.hide h).buf b).en = true →
     ∃ t, exec (.bufferDisable h b ctl) s = .next t ∧ Only [.hides] s t ∧ Apart h s t ∧
       (t.hide h).buf b = { ((s.hide h).buf b) with en := false, clearedAt := (s.hide h).q.nextSeq } ∧
       ∀ c : Nat, c ≠ b → (t.hide h).buf c = (s.hide h).buf c))

/-- Job keys are created and destroyed as R375 says, with the result in HD_JOBKEY_STAT: CREATE of an index that LAYOUT allots and that
holds no key gives it a new generation; DESTROY of a key that no object uses takes it; both answer CONFLICT otherwise, and an index out of
range FIELD_RANGE. -/
def Obligations.JobKeysAreCreatedAndDestroyed : Prop :=
  ∀ (s : State) (h : Hide) (v : U32) (e : HideEntry),
    let i := bits v.toNat 16 16
    let x := s.hide h
    x.resetting = false → s.reamActive = true → x.lay = some e → (x.confidential = true → x.k.tsp = .run) →
    (bits v.toNat 0 2 = 1 → ∃ t, exec (.jobkeyCreate h v) s = .next t ∧ Only [.hides] s t ∧ Apart h s t ∧
      (i = 0 ∨ e.jobKeys < i → (t.hide h).k = { x.k with jobResult := stFieldRange }) ∧
      (1 ≤ i → i ≤ e.jobKeys → (x.k.jobKey i).held = true → (t.hide h).k = { x.k with jobResult := stConflict }) ∧
      (1 ≤ i → i ≤ e.jobKeys → (x.k.jobKey i).held = false →
        (t.hide h).k.jobResult = stOk ∧ ((t.hide h).k.jobKey i).held = true ∧
        ((t.hide h).k.jobKey i).gen = ((x.k.jobKey i).gen + 1) % 2 ^ 32 ∧ ∀ j, j ≠ i → (t.hide h).k.jobKey j = x.k.jobKey j)) ∧
    (bits v.toNat 0 2 = 2 → ∃ t, exec (.jobkeyDestroy h v) s = .next t ∧ Only [.hides] s t ∧ Apart h s t ∧
      (1 ≤ i → i ≤ e.jobKeys → (x.k.jobKey i).held = true → x.jobKeyUsed i = false →
        (t.hide h).k.jobResult = stOk ∧ ((t.hide h).k.jobKey i).held = false ∧ ∀ j, j ≠ i → (t.hide h).k.jobKey j = x.k.jobKey j) ∧
      (1 ≤ i → i ≤ e.jobKeys → (x.k.jobKey i).held = false ∨ x.jobKeyUsed i = true →
        (t.hide h).k = { x.k with jobResult := stConflict }))

/-- The hide window follows R284, R397 and R424: a misaligned access, or one of another size, is refused and counted; a poisoned write is
discarded; a write reaches a narrow register with its value, and changes nothing of a register that is read-only or that a read clears; a read of a
register that reads clear answers its value, and leaves it zero. -/
def Obligations.TheHideWindowFollowsItsAccessRules : Prop :=
  (∀ (s : State) (h : Hide) (off size : Nat) (v : U64), s.functionUp (s.ldOf h) = true →
    exec (.registerWrite h off size v true) s = .next s ∧
    (windowOk off size = false →
      exec (.registerWrite h off size v false) s = .next (s.upC h (fun c => { c with accessErr := satInc c.accessErr })) ∧
      ∃ t, exec (.rcRegisterRead h off size) s = .next t ∧ Apart h s t ∧ (t.hide h).c.accessErr = satInc (s.hide h).c.accessErr ∧
        ⟨16, .unsupported⟩ ∈ (t.gates.queues.get EgQueue.empty (egKey 8 h)).second)) ∧
  (∀ (s : State) (h : Hide) (off : Nat) (v : U64) (r : HReg) (base : Nat), s.functionUp (s.ldOf h) = true → windowOk off 4 = true →
    hideWordReg off = some (r, base, false) → r.wide = false → (s.hide h).resetting = false →
    exec (.registerWrite h off 4 v false) s = .next (s.hideWrite h r (v.toNat % 2 ^ 32)) ∧
    (r.access = .ro ∨ r.access = .rc → exec (.registerWrite h off 4 v false) s = .next s)) ∧
  (∀ (s : State) (h : Hide) (off : Nat) (r : HReg) (base : Nat), s.functionUp (s.ldOf h) = true → windowOk off 4 = true →
    hideWordReg off = some (r, base, false) → r.wide = false → r.access = .rc → (s.hide h).resetting = false →
    ∃ t, exec (.rcRegisterRead h off 4) s = .next t ∧ Apart h s t ∧ t.hideRead h r = 0 ∧
      ⟨20, .ioData (leBytes 4 (s.hideRead h r)) false⟩ ∈ (t.gates.queues.get EgQueue.empty (egKey 8 h)).second)

/-- DMA reads end as R112 and R291 say: data arrives in pieces until the length asked for is there, poisoned data ends the read with
POISON, a read that is not answered in time ends with TIMEOUT, and a completion while the port is down is not taken. The order in flight
that waits finds the outcome with its read; an order that still waits for admission ends with it at once. -/
def Obligations.DmaReadsCollectTheirData : Prop :=
  (∀ (s : State) (h : Hide) (tag : Nat) (d : Dma), (s.hide h).o.dmas.find tag = some d → d.status = none →
    (s.hide h).q.queue = [] → (s.hide h).q.reads tag = true →
    (s.cxl.width ≠ 0 → (s.ld (s.ldOf h)).ideIo ≠ .insecure →
      (∀ bs : List Byte, ∃ t, exec (.dmaReadCompletion h tag (.good bs)) s = .next t ∧ Only [.hides] s t ∧ Apart h s t ∧
        (t.hide h).q = (s.hide h).q ∧
        (t.hide h).o.dmas.find tag = some { d with
          data := (d.data ++ bs).take d.len, status := if d.len ≤ d.data.length + bs.length then some stOk else none }) ∧
      ∃ t, exec (.dmaReadCompletion h tag .poisoned) s = .next t ∧ Only [.hides] s t ∧ Apart h s t ∧
        (t.hide h).q = (s.hide h).q ∧ (t.hide h).o.dmas.find tag = some { d with status := some stPoison }) ∧
    (∃ t, exec (.dmaReadTimeout h tag) s = .next t ∧ Only [.hides] s t ∧ Apart h s t ∧
      (t.hide h).q = (s.hide h).q ∧ (t.hide h).o.dmas.find tag = some { d with status := some stTimeout })) ∧
  (∀ (s : State) (h : Hide) (tag : Nat) (r : DmaResult), s.cxl.width = 0 → exec (.dmaReadCompletion h tag r) s = .next s) ∧
  (∀ (s : State) (h : Hide) (tag : Nat) (d : Dma) (o : Order), (s.hide h).o.dmas.find tag = some d → d.status = none →
    (s.hide h).q.queue = [o] → o.tokens = some tag →
    ∃ u, exec (.dmaReadTimeout h tag) s = .next (u.endTaken h o stTimeout 0 []) ∧ Only [.hides] s u ∧ Apart h s u ∧
      (u.hide h).q = { (s.hide h).q with queue := [] } ∧ (u.hide h).k = (s.hide h).k)

/-- An order that R65 and R261 let be admitted at its row's chain is admitted: it leaves the queue, takes the capacity that its slots
grant, is counted, and its work runs from step 8 of R259 on with its flight record; orders behind it stay queued, and no other hide
changes. Every row of an order that none of its own in flight keeps does so. -/
def Obligations.AdmittedOrdersRunTheirWork : Prop :=
  ∀ (i : Instr) (r : OrderRow) (s : State) (o : Order) (g : Grant),
    orderRow i = some r → r.going s = false → Admits r s o g →
    exec i s = .next (r.work (s.taken r.h o g) o (s.newFlight r.h r.c o g.len g.target)) ∧ Apart r.h s (s.taken r.h o g) ∧
    (∀ p, p ∈ ((s.taken r.h o g).hide r.h).q.queue ↔ p ∈ (s.hide r.h).q.queue ∧ p.seq ≠ o.seq) ∧
    ((s.taken r.h o g).hide r.h).q.flights = (s.hide r.h).q.flights ∧
    ((s.taken r.h o g).hide r.h).c.telAdmitted = satInc (s.hide r.h).c.telAdmitted

/-- An order waits, and nothing changes, while an earlier order that names a common object is queued (R261), while its own waits run,
while a target region is in its maintenance furlong (R71), while its slots have no capacity left (R65), or while the hide admits
nothing (R31, R59, R62, R369). -/
def Obligations.OrdersThatMustWaitChangeNothing : Prop :=
  ∀ (i : Instr) (r : OrderRow) (s : State) (o : Order),
    orderRow i = some r → r.going s = false → (s.hide r.h).q.front r.cls = some o →
    let x := s.hide r.h
    let target := x.targets r.h o
    s.admitting r.h = false ∨ ordered r.h x.q o = false ∨ waitsOver r.h (s.now r.c) x o = false ∨
      (x.mismatch r.cls target (r.fit x o) = false ∧ (s.inMaintenance target = true ∨
        x.grant s.plan.furlong r.c r.cls target ((r.fit x o).leaving (x.lookupReserve (s.now r.c) r.cls)) = none)) →
    exec i s = .next s

/-- Step 7 of R259: an order for which the hide has no slot of its class, whose target lies outside the hide's share, or whose demand no
slot can hold (R68) ends with PLAN_MISMATCH, takes no capacity and has no effect. -/
def Obligations.OrdersThatNoSlotHoldsEndWithPlanMismatch : Prop :=
  ∀ (i : Instr) (r : OrderRow) (s : State) (o : Order),
    orderRow i = some r → r.going s = false → (s.hide r.h).q.front r.cls = some o → r.is o = true → s.admitting r.h = true →
    ordered r.h (s.hide r.h).q o = true → waitsOver r.h (s.now r.c) (s.hide r.h) o = true →
    noReentry (s.hide r.h) s.plan.furlong r.cls = true → Placed s r.h o →
    (s.hide r.h).mismatch r.cls ((s.hide r.h).targets r.h o) (r.fit (s.hide r.h) o) = true →
    ∃ t, exec i s = .next t ∧ Apart r.h s t ∧ Ended t r.h o stPlanMismatch [] [] ∧
      (t.hide r.h).q.used = (s.hide r.h).q.used ∧ (∀ p ∈ (t.hide r.h).q.queue, p.seq ≠ o.seq)

/-- A management request does something only for an open session whose role allows it (R415): with the port closed, or from no session, it
changes nothing; from a session of too low a role it is answered NOT_PERMITTED, and has no effect (R414). -/
def Obligations.RequestsNeedASessionAndItsRole : Prop :=
  ∀ (i : Instr) (q : Req) (typ : Nat) (need : Role) (s : State), requestRow i = some (q, typ, need) →
    (s.portOpen = false ∨ s.session q.session = none → exec i s = .next s) ∧
    (∀ x, s.portOpen = true → s.session q.session = some x → roleRank x.role < roleRank need →
      exec i s = .next { s with mgmt := { s.mgmt with sent := s.mgmt.sent ++ [⟨q.session, typ, q.tag, mgNotPermitted, []⟩] } })

/-- Sessions open and close as R392, R393 and R413 say: a handshake whose chain reaches a management anchor opens a session with that
anchor's role and the next number, while fewer than four are open; the eighth failed handshake within 60 s starts a refusal period, which
is logged; during it, and with four sessions open, a handshake changes nothing. A session that its peer closes, or that is idle for
300 s, is gone, and a load that it holds open is discarded (R417). -/
def Obligations.SessionsOpenAndClose : Prop :=
  (∀ (s : State) (fam : NetFamily), s.portOpen = true → s.mgmt.refusing = false → s.hasAddress fam = true →
    (4 ≤ s.mgmt.sessions.length → ∀ i, exec (.sessionHandshake i fam) s = .next s) ∧
    (s.mgmt.sessions.length < 4 →
      (∀ (i : Nat) (a : Anchor), s.dex.anchors[i]? = some a → a.kind = 0 → a.role ≤ 2 →
        ∃ t x, exec (.sessionHandshake (some i) fam) s = .next t ∧ Only [.mgmt] s t ∧ t.mgmt.sessions = s.mgmt.sessions ++ [x] ∧
          x.id = s.mgmt.nextSession ∧ roleRank x.role = 2 - a.role ∧ x.family = fam ∧
          t.mgmt.nextSession = (s.mgmt.nextSession + 1) % 2 ^ 32 ∧ t.mgmt.refusing = false) ∧
      (∃ t, exec (.sessionHandshake none fam) s = .next t ∧ Only [.mgmt, .box] s t ∧ t.mgmt.sessions = s.mgmt.sessions ∧
        let recent := (s.mgmt.fails.filter (fun u => decide (s.power.ticks < u + 60 * 32768))).length
        (recent < 7 → t.mgmt.refusing = false ∧ t.box = s.box) ∧
        (7 ≤ recent → t.mgmt.refusing = true ∧ Logged s t recConfig (agent 2) 0xFF [cfgRefusal, 0, 0xFF])))) ∧
  (∀ (s : State) (i : Option Nat) (fam : NetFamily), s.mgmt.refusing = true → exec (.sessionHandshake i fam) s = .next s) ∧
  (∀ s : State, exec .handshakeRefusalExpiry s = .next { s with mgmt := { s.mgmt with refusing := false } }) ∧
  (∀ (s : State) (id : Nat) (x : Session), s.session id = some x →
    ∃ t, exec (.sessionClose id) s = .next t ∧ exec (.sessionIdleTimeout id) s = .next t ∧ Only [.mgmt, .box] s t ∧
      t.session id = none ∧ (∀ j, j ≠ id → t.session j = s.session j) ∧
      (∀ l, s.mgmt.openLoad = some l → l.by_ = .session id →
        Logged s t recConfig (bySession id) 0xFF [cfgCancel, 0, l.number, 0xFF] ∧
        t.mgmt.loads = s.mgmt.loads.map (fun k => if k.number == l.number then { k with st := 2, result := 0 } else k)) ∧
      ((∀ l, s.mgmt.openLoad = some l → l.by_ ≠ .session id) → t.mgmt.loads = s.mgmt.loads ∧ t.box = s.box))

/-- The requests that read are answered from the state, and log nothing (R415 to R420, R432): REG_READ with its words, clearing the RC
registers among them and no other; TELEMETRY with its body, whose counts start again; LOAD_STATUS with the load's state; BB_READ with whole
records from a SEQ on, up to the limit, with the record as it was; and SUBSCRIBE sets the period and the notices of its own session only. -/
def Obligations.ReadingRequestsAreAnswered : Prop :=
  ∀ (s : State) (q : Req), Heard s q .observer →
    (∀ (off count : Nat) (l : List Nat), readWords off count = some l →
      ∃ t, exec (.regRead q off count) s = .next t ∧ t.box = s.box ∧ t.mgmt.sessions = s.mgmt.sessions ∧
        Replied t q msgRegRead 0 (l.flatMap (fun o => leBytes 4 (s.globalWord o))) ∧
        ∀ r : GReg, r.access = .rc →
          t.globalRead r = if l.any (fun o => (globalWordReg o).any (fun p => p.1 == r)) then 0 else s.globalRead r) ∧
    (∃ t, exec (.telemetry q) s = .next t ∧ Only [.hides, .mgmt] s t ∧ Replied t q msgTelemetry 0 s.telemetryBody ∧
      ∀ h : Nat, (t.hide h).c = (s.hide h).c.telZero ∧ (t.hide h).q = (s.hide h).q ∧ (t.hide h).o = (s.hide h).o) ∧
    (∀ (n : Nat) (l : Load), s.mgmt.loads.find? (fun l => l.number == n) = some l →
      ∃ t, exec (.loadStatus q n) s = .next t ∧ Only [.mgmt] s t ∧ t.mgmt.loads = s.mgmt.loads ∧ Replied t q msgLoadStatus 0
        (leBytes 1 l.st ++ leBytes 1 (if l.st = 4 then 0 else l.result) ++ leBytes 2 0 ++ leBytes 8 (if l.st = 1 then l.furlong else 0))) ∧
    (∀ (seq limit : Nat), 36 ≤ limit → limit ≤ 1048000 → ∃ t l, exec (.bbRead q seq limit) s = .next t ∧ Only [.mgmt] s t ∧
      Replied t q msgBbRead 0 (l.flatMap Rec.image) ∧ l <+: s.box.recs.filter (fun r => decide (seq ≤ r.seq)) ∧
      (l.map Rec.size).sum ≤ limit ∧
      ∀ r rest, s.box.recs.filter (fun r => decide (seq ≤ r.seq)) = l ++ r :: rest → limit < (l.map Rec.size).sum + r.size) ∧
    (∀ (period notices : Nat), period ≤ 65536 → notices ≤ 1 → ∃ t, exec (.subscribe q period notices) s = .next t ∧ Only [.mgmt] s t ∧
      Replied t q msgSubscribe 0 [] ∧ (∃ x, t.session q.session = some x ∧ x.period = period ∧ x.notices = (notices == 1)) ∧
      ∀ j, j ≠ q.session → t.session j = s.session j)

/-- What the device sends of itself: a subscribed session gets TELEMETRY each period (R415), a status probe is answered while the device is
powered, at most 16 times in a second (R419), a request for the measurements is answered with the blocks of R387, both nonces and a
signature (R386) or, without an identity key or in the security-error state, with an error, and the PHY's answer brings the port up or
takes it down (R441). -/
def Obligations.ProbesReportsAndPeriodsAreAnswered : Prop :=
  (∀ (s : State) (id : Nat) (x : Session), s.portOpen = true → s.session id = some x → x.period ≠ 0 →
    ∃ t, exec (.telemetryPeriod id) s = .next t ∧ Only [.hides, .mgmt] s t ∧
      t.mgmt.sent = s.mgmt.sent ++ [⟨id, msgTelemetryOut, 0, 0, s.telemetryBody⟩] ∧
      ∀ h : Nat, (t.hide h).c = (s.hide h).c.telZero ∧ (t.hide h).q = (s.hide h).q) ∧
  (∀ (s : State) (nonce : BitVec 64), s.power.st ≠ .off → s.power.st ≠ .standby → s.power.st ≠ .lost →
    let recent := s.mgmt.probes.filter (fun u => decide (s.power.ticks < u + 32768))
    ∃ t, exec (.statusProbe nonce) s = .next t ∧ Only [.mgmt] s t ∧ t.mgmt.sessions = s.mgmt.sessions ∧
      (16 ≤ recent.length → t.mgmt.raw = s.mgmt.raw) ∧
      (recent.length < 16 → t.mgmt.probes = s.power.ticks :: recent ∧ ∃ b : List Byte, t.mgmt.raw = s.mgmt.raw ++ [b] ∧ b.length = 64 ∧
        b.take 18 = leBytes 16 Config.deviceSerial.toNat ++ leBytes 2 0x0960 ∧ (b.drop 27).take 8 = leBytes 8 nonce.toNat)) ∧
  (∀ (s : State) (m : Option Ld) (nonce : BitVec 256), s.spdmUp (m.map (·.val)) = true →
    ∃ t, exec (.spdmGetMeasurements m nonce) s = .next t ∧ Only [.mgmt, .dex] s t ∧
      (s.dex.error = true ∨ s.dex.identityGone = true ∨ s.dex.life = .blank → t = s.raw spdmError) ∧
      (s.dex.error = false → s.dex.identityGone = false → s.dex.life ≠ .blank →
        t.dex = { s.dex with draws := s.dex.draws + 2 } ∧
        t.mgmt.raw = s.mgmt.raw ++ [s.report nonce (Config.drbg s.dex.draws) ++
          leBytes 64 (Config.signature (s.report nonce (Config.drbg s.dex.draws)) (Config.drbg (s.dex.draws + 1))).toNat])) ∧
  (∀ (s : State) (a : Bool), s.ioUp = true → exec (.phyIntN a) s = .next { s with mgmt := { s.mgmt with phyUp := a } })

/-- Loads are opened, received and discarded as R417 says: one is open at a time; its bytes are taken in order without gap or overlap, and a
gap or an overlap discards it; LOAD_CANCEL discards the open load, whoever opened it, and is logged; a load whose bytes do not all arrive in
2 s ends with FORMAT, and is logged. -/
def Obligations.LoadsAreOpenedReceivedAndDiscarded : Prop :=
  (∀ (s : State) (q : Req), Heard s q .operator →
    (∀ kind mode size : Nat, kind ≤ 4 → mode ≤ 1 → (mode = 1 → kind = 1) → 0 < size → size < 2 ^ 32 - 1 → s.loadReady kind = true →
      ∃ t, exec (.loadBegin q kind mode size) s = .next t ∧ Only [.mgmt] s t ∧
        (s.mgmt.openLoad = none → Replied t q msgLoadBegin 0 (leBytes 4 s.mgmt.nextLoad) ∧
          t.mgmt.openLoad = some ⟨s.mgmt.nextLoad, .session q.session, kind, mode, size, 0, 4, 0, 0⟩) ∧
        (s.mgmt.openLoad ≠ none → Replied t q msgLoadBegin ldBusy [] ∧ t.mgmt.loads = s.mgmt.loads)) ∧
    (∀ (l : Load) (off len : Nat), s.sessionLoad l.number = some l → len ≤ 1048000 → len % 4 = 0 →
      ∃ t, exec (.loadData q l.number off len) s = .next t ∧ Only [.mgmt, .box] s t ∧
        (off = l.received → off + len ≤ l.size → Replied t q msgLoadData 0 [] ∧ t.box = s.box ∧
          t.mgmt.openLoad = some { l with received := off + len }) ∧
        (off ≠ l.received → Replied t q msgLoadData mgMalformed [] ∧ ∀ k ∈ t.mgmt.loads, k.number = l.number → k.st = 2)) ∧
    (∀ l, s.mgmt.openLoad = some l → ∃ t, exec (.loadCancel q l.number) s = .next t ∧ Only [.mgmt, .box] s t ∧
      Replied t q msgLoadCancel 0 [] ∧ Logged s t recConfig (bySession q.session) 0xFF [cfgCancel, 0, l.number, 0xFF] ∧
      ∀ k ∈ t.mgmt.loads, k.number = l.number → k.st = 2) ∧
    (∀ n, (∀ l, s.mgmt.openLoad = some l → l.number ≠ n) → ∃ t, exec (.loadCancel q n) s = .next t ∧ Only [.mgmt] s t ∧
      Replied t q msgLoadCancel mgRange [] ∧ t.mgmt.loads = s.mgmt.loads)) ∧
  (∀ (s : State) (l : Load), s.mgmt.openLoad = some l → l.received ≠ 0 →
    ∃ t, exec .loadReceiveTimeout s = .next t ∧ Only [.mgmt, .box] s t ∧ (∀ k ∈ t.mgmt.loads, k.number = l.number → k.st = 3 ∧ k.result = ldFormat) ∧
      ∃ r ∈ t.box.recs, s.box.next ≤ r.seq ∧ r.typ = recConfig ∧ r.origin = l.origin s ∧ r.body.getD 1 0 = ldFormat) ∧
  (∀ (s : State) (ld : Ld) (h : Nat), s.doeUp ld = true → s.reamActive = true → s.hideOfLd ld = some h →
    (∀ mode size : Nat, mode < 2 → 0 < size → size < 2 ^ 32 - 1 → (s.hide h).confidential = false →
      ∃ t, exec (.doeBegin ld mode size) s = .next t ∧ Only [.mgmt] s t ∧
        (s.mgmt.openLoad = none → t.mgmt.raw = s.mgmt.raw ++ [doeHeader 1 s.mgmt.nextLoad 0 0] ∧
          t.mgmt.openLoad = some ⟨s.mgmt.nextLoad, .doe h, 1, mode, size, 0, 4, 0, 0⟩) ∧
        (s.mgmt.openLoad ≠ none → t.mgmt.raw = s.mgmt.raw ++ [doeHeader 1 0 ldBusy 0] ∧ t.mgmt.loads = s.mgmt.loads)) ∧
    (∀ (l : Load) (off len : Nat), s.mgmt.openLoad = some l → l.by_ = .doe h → len ≤ 262120 → len % 4 = 0 →
      ∃ t, exec (.doeData ld l.number off len) s = .next t ∧ Only [.mgmt, .box] s t ∧
        (off = l.received → off + len ≤ l.size → t.mgmt.raw = s.mgmt.raw ++ [doeHeader 2 l.number 0 0] ∧ t.box = s.box ∧
          t.mgmt.openLoad = some { l with received := off + len }) ∧
        (off ≠ l.received → t.mgmt.raw = s.mgmt.raw ++ [doeHeader 2 l.number mgMalformed 0] ∧ ∀ k ∈ t.mgmt.loads, k.number = l.number → k.st = 2)) ∧
    (∀ (l : Load) (n : Nat), s.mgmt.loads.find? (fun l => l.number == n) = some l → l.by_ = .doe h →
      exec (.doeStatus ld n) s = .next { s with mgmt := { s.mgmt with
        raw := s.mgmt.raw ++ [doeHeader 4 n (if l.st = 4 then 0 else l.result) l.st] } }) ∧
    (∀ l, s.mgmt.openLoad = some l →
      (l.by_ = .doe h → ∃ t, exec (.doeCancel ld l.number) s = .next t ∧ Only [.mgmt, .box] s t ∧
        t.mgmt.raw = s.mgmt.raw ++ [doeHeader 5 l.number 0 0] ∧ ∀ k ∈ t.mgmt.loads, k.number = l.number → k.st = 2) ∧
      (l.by_ ≠ .doe h → ∃ t, exec (.doeCancel ld l.number) s = .next t ∧ Only [.mgmt] s t ∧
        t.mgmt.raw = s.mgmt.raw ++ [doeHeader 5 l.number mgRange 0] ∧ t.mgmt.loads = s.mgmt.loads)))

/-- LOAD_END answers with the validation code, and stages what validates (R58, R61, R359, R417): a ream only where it is signed, its digest
holds, its plan version is not below the floor and nothing else is staged; a section for its own hide alone, and from a DOE mailbox only
for the hide of the mailbox; a package; firmware only where it is signed and its security version is not below the one in force. What does
not validate stages nothing, and a load whose bytes are not all there ends with FORMAT. -/
def Obligations.LoadsEndAsTheyValidate : Prop :=
  (∀ (s : State) (q : Req) (l : Load), Heard s q .operator → s.sessionLoad l.number = some l →
    (∀ image, l.received ≠ l.size → ∃ t, exec (.loadEnd q l.number image) s = .next t ∧ Only [.mgmt, .box] s t ∧
      Replied t q msgLoadEnd ldFormat (leBytes 4 ldFormat) ∧ ∀ k ∈ t.mgmt.loads, k.number = l.number → k.st = 3) ∧
    (∀ m : Ream, l.received = l.size → l.kind = 0 → let c := s.validateReam m l.received
      ∃ t, exec (.loadEnd q l.number (.ream m)) s = .next t ∧ Only [.plan, .mgmt, .box] s t ∧ Replied t q msgLoadEnd c (leBytes 4 c) ∧
        Logged s t recConfig (l.origin s) 0xFF ([cfgReam, c] ++ digestWords m.header.bodyDigest ++ [0xFF]) ∧
        (c = ldOk → t.plan.staged = some ⟨m, l.number, 0⟩ ∧ .ream ∈ t.plan.triggers ∧ m.sigOk = true ∧ m.digestOk = true ∧
          s.dex.planFloor.toNat ≤ m.header.planVersion ∧ s.plan.staged = none) ∧
        (c ≠ ldOk → t.plan = s.plan)) ∧
    (∀ (m : Ream) (k : Section), l.received = l.size → l.kind = 1 → onlySection m = some k → let c := s.validateSection m l.received
      ∃ t, exec (.loadEnd q l.number (.ream m)) s = .next t ∧ Only [.plan, .hides, .mgmt, .box] s t ∧ Apart k.hide s t ∧
        Replied t q msgLoadEnd c (leBytes 4 c) ∧
        (t.hide k.hide).staged = if c = ldOk then some ⟨k, l.mode == 1, l.number, 0⟩ else (s.hide k.hide).staged) ∧
    (∀ p : Package, l.received = l.size → l.kind = 2 → let c := s.validatePackage p l.received
      ∃ t, exec (.loadEnd q l.number (.package p)) s = .next t ∧ Only [.screen, .mgmt, .box] s t ∧ Replied t q msgLoadEnd c (leBytes 4 c) ∧
        t.screen = if c = ldOk then { s.screen with nextPackage := some p } else s.screen) ∧
    (∀ f : Firmware, l.received = l.size → l.kind = 3 ∨ l.kind = 4 → let now := if l.kind = 3 then s.dex.dexFw.1 else s.dex.mgmtFw.1
      ∃ t c, exec (.loadEnd q l.number (.firmware f)) s = .next t ∧ Only [.dex, .mgmt, .box] s t ∧ Replied t q msgLoadEnd c (leBytes 4 c) ∧
        (f.sigOk = true → now ≤ f.svn → c = ldOk ∧
          t.dex = if l.kind = 3 then { s.dex with dexNext := some (f.svn, f.digest) } else { s.dex with mgmtNext := some (f.svn, f.digest) }) ∧
        (f.sigOk = true → f.svn < now → c = ldRollback ∧ t.dex = s.dex) ∧ (f.sigOk = false → c = ldSignature ∧ t.dex = s.dex))) ∧
  (∀ (s : State) (ld : Ld) (h : Nat) (l : Load) (m : Ream) (k : Section), s.doeUp ld = true → s.reamActive = true →
    s.hideOfLd ld = some h → s.mgmt.openLoad = some l → l.by_ = .doe h → l.received = l.size → l.kind = 1 → onlySection m = some k →
    let c := if k.hide = h then s.validateSection m l.received else ldLayout
    ∃ t, exec (.doeEnd ld l.number m) s = .next t ∧ Only [.plan, .hides, .mgmt, .box] s t ∧ Apart k.hide s t ∧
      t.mgmt.raw.getLast? = some (doeHeader 3 l.number c 0) ∧
      (t.hide k.hide).staged = if c = ldOk then some ⟨k, l.mode == 1, l.number, 0⟩ else (s.hide k.hide).staged)

/-- What an OPERATOR changes takes effect, is answered, and is logged under its session (R415, R416, R420, R432, R436): register writes
follow the register's own rule, and a write of MG_NET puts the held addresses in force and closes the sessions that it moves; SET_TIME answers the
old time; HIDE_RESET starts a reset with cause 4; REGION_RESET ends a passing region's failure; DEVICE_RESET, with its confirmation word,
is answered before it wipes what is volatile; SELFTEST_RUN answers the code, and a failure other than of test 0x06 enters the
security-error state (R395). What is refused changes nothing. -/
def Obligations.OperatorsWriteResetAndTest : Prop :=
  ∀ (s : State) (q : Req), Heard s q .operator →
    (∀ (off width : Nat) (v : U64), let n := if width = 4 then v.toNat % 2 ^ 32 else v.toNat
      (∀ c, writeTarget off width = (c, none) →
        ∃ t, exec (.regWrite q off v width) s = .next t ∧ Only [.mgmt, .box] s t ∧ Replied t q msgRegWrite c []) ∧
      ∀ c r, writeTarget off width = (c, some r) →
        ∃ t, exec (.regWrite q off v width) s = .next t ∧
          (r ≠ .netCtl → Logged s t recConfig (bySession q.session) 0xFF [cfgRegister, 0, off, n % 2 ^ 32, n / 2 ^ 32, 0xFF]) ∧
          Replied t q msgRegWrite 0 [] ∧
          (r = .netCtl → Only [.mgmt, .box] s t ∧ t.mgmt.net = BitVec.ofNat 32 (n % 4) ∧ t.mgmt.netUsed = s.mgmt.netHeld ∧
            ∀ j ∈ s.movedSessions (BitVec.ofNat 32 (n % 4)), t.session j = none) ∧
          (r = .bbAck → t.box.ack = if n ≤ s.box.next then n else s.box.ack) ∧
          (r = .pwAlert → t.power = { s.power with alert := s.power.alert &&& ~~~(BitVec.ofNat 32 n) }) ∧
          (r = .pwTLean → t.power = if 80 ≤ n % 256 ∧ n % 256 ≤ 100 then { s.power with tLean := BitVec.ofNat 32 (n % 256) } else s.power) ∧
          ∀ p, (r = .lgErr p → (t.port p).err = (s.port p).err &&& ~~~(BitVec.ofNat 32 n)) ∧
            (r = .lgCmdTo p → (t.port p).cmdTo = if 1000 ≤ n ∧ n ≤ 10000000 then BitVec.ofNat 32 n else (s.port p).cmdTo)) ∧
    (∀ rtc : U64, ∃ t, exec (.setTime q rtc) s = .next t ∧ Only [.mgmt, .box] s t ∧ t.globalRead .rtc = rtc.toNat ∧
      Replied t q msgSetTime 0 (leBytes 8 (s.globalRead .rtc)) ∧
      Logged s t recConfig (bySession q.session) 0xFF ([cfgTime, 0] ++ twoWords (s.globalRead .rtc) ++ twoWords rtc.toNat ++ [0xFF])) ∧
    (∀ h mode : Nat, h < 16 → mode ≤ 1 → (s.hide h).lay ≠ none → ∃ t, exec (.hideReset q h mode) s = .next t ∧ Apart h s t ∧
      Replied t q msgHideReset 0 (leBytes 4 stOk) ∧ Logged s t recConfig (bySession q.session) 0xFF [cfgReset, 0, 2, h] ∧
      ((t.hide h).k.tsp = if (s.hide h).k.tsp.guarded then .error else (s.hide h).k.tsp) ∧
      ((s.hide h).k.phase = .idle → (t.hide h).k.phase = (if s.reamActive then .start else .ending) ∧ (t.hide h).k.cause = 4 ∧
        (t.hide h).k.drain = (mode == 1 && !(s.hide h).k.tsp.guarded))) ∧
    (∀ (r : Nat) (x : RegionTest), r < 64 → s.reamActive = true → bit s.liveMask r = false →
      ∃ t, exec (.regionReset q r x) s = .next t ∧ Only [.regions, .mgmt, .box] s t ∧ (∀ j, j ≠ r → t.region j = s.region j) ∧
        (t.region r).failed = (x.code != 0) ∧ (t.region r).strikes = 0 ∧ Logged s t recReset (bySession q.session) r [3, 4, r] ∧
        Replied t q msgRegionReset 0 (leBytes 1 (if x.code = 0 then 0 else 1) ++ leBytes 1 x.code ++
          leBytes 2 (if x.code = 0x80 then x.pattern else 0))) ∧
    (∃ t, exec (.deviceReset q 0x52535456) s = .next t ∧ Wiped t ∧ StoresKept s t ∧ t.power.cause = 4 ∧ Replied t q msgDeviceReset 0 []) ∧
    (∀ c, c ≠ 0x52535456 → ∃ t, exec (.deviceReset q c) s = .next t ∧ Only [.mgmt] s t ∧ Replied t q msgDeviceReset mgRange []) ∧
    (∀ code : BitVec 8, ∃ t, exec (.selftestRun q code) s = .next t ∧ Only [.dex, .mgmt] s t ∧ t.dex.testCode = code.toNat ∧
      Replied t q msgSelftest 0 (leBytes 4 code.toNat) ∧
      (code = 0 ∨ code = 6 → t.dex.error = s.dex.error ∧ t.mgmt.sessions = s.mgmt.sessions) ∧
      (code ≠ 0 → code ≠ 6 → t.dex.error = true ∧ t.mgmt.sessions = []))

/-- What an ADMIN changes (R383, R384, R392, R393, R415, R417, R420): anchors are enrolled while there is room for their kind, and the last ADMIN
anchor stays; without a session one management anchor may be enrolled while the claim strap holds and there is none; the plan floor only rises;
the lifecycle moves from BLANK to PRODUCTION to RMA, which clears the management anchors; a debug challenge is a fresh random number, and an
accepted token takes effect at the next device reset. Each is answered; accepted changes, and tokens that are rejected, are logged. -/
def Obligations.AdministratorsChangeAnchorsFloorLifeAndDebug : Prop :=
  (∀ (s : State) (q : Req), Heard s q .admin →
    (∀ a : AnchorReq, s.dex.takes a = true → ∃ t, exec (.anchorEnroll (some q) a) s = .next t ∧ Only [.dex, .mgmt, .box] s t ∧
      t.dex = { s.dex with anchors := s.dex.anchors ++ [⟨a.kind, a.role, a.digest⟩] } ∧ Replied t q msgAnchor 0 [] ∧
      Logged s t recConfig (bySession q.session) 0xFF [cfgAnchor, 0, 1, a.kind, a.role, 0xFF]) ∧
    (∀ a : AnchorReq, (⟨a.kind, a.role, a.digest⟩ : Anchor) ∈ s.dex.anchors → ∃ t, exec (.anchorRemove q a) s = .next t ∧ Only [.dex, .mgmt, .box] s t ∧
      (s.dex.lastAdmin a = true → t.dex = s.dex ∧ Replied t q msgAnchor mgNotPermitted []) ∧
      (s.dex.lastAdmin a = false → t.dex = { s.dex with anchors := s.dex.anchors.erase ⟨a.kind, a.role, a.digest⟩ } ∧
        Replied t q msgAnchor 0 [] ∧ Logged s t recConfig (bySession q.session) 0xFF [cfgAnchor, 0, 2, a.kind, a.role, 0xFF])) ∧
    (∀ f : U32, ∃ t, exec (.floorRaise q f) s = .next t ∧ Only [.dex, .mgmt, .box] s t ∧
      (s.dex.planFloor < f → t.dex = { s.dex with planFloor := f } ∧ Replied t q msgFloor 0 (leBytes 4 s.dex.planFloor.toNat) ∧
        Logged s t recConfig (bySession q.session) 0xFF [cfgFloor, 0, s.dex.planFloor.toNat, f.toNat, 0xFF]) ∧
      (f ≤ s.dex.planFloor → t.dex = s.dex ∧ t.box = s.box ∧ Replied t q msgFloor mgRange [])) ∧
    (∀ target sealing : Nat, ∃ t, exec (.lifecycle q target sealing) s = .next t ∧ Only [.dex, .mgmt, .box] s t ∧
      (s.dex.life = .blank → target = 1 → sealing ≤ 1 → t.dex.life = .production ∧
        t.dex.sealedFuse = (s.dex.sealedFuse || sealing == 1) ∧ t.dex.anchors = s.dex.anchors ∧ Replied t q msgLifecycle 0 []) ∧
      (s.dex.life = .production → target = 2 → sealing = 0 → t.dex.life = .rma ∧ t.dex.identityGone = true ∧
        (∀ a, a ∈ t.dex.anchors ↔ a ∈ s.dex.anchors ∧ a.kind ≠ 0) ∧ Replied t q msgLifecycle 0 []) ∧
      (s.dex.moveLife target sealing = none → t.dex = s.dex ∧ Replied t q msgLifecycle mgRange [])) ∧
    (∃ t, exec (.debugChallenge q) s = .next t ∧ Only [.dex, .mgmt] s t ∧
      t.dex = { s.dex with draws := s.dex.draws + 1, challenge := some (Config.drbg s.dex.draws).toNat } ∧
      Replied t q msgDebug 0 (leBytes 32 (Config.drbg s.dex.draws).toNat)) ∧
    (∀ k : Token, ∃ t, exec (.debugToken q k) s = .next t ∧ Only [.dex, .mgmt, .box] s t ∧
      (s.dex.accepts k = true → t.dex = { s.dex with unlockNext := true } ∧ Replied t q msgDebug 0 [] ∧
        Logged s t recConfig (bySession q.session) 0xFF [cfgToken, 0, 0xFF]) ∧
      (s.dex.accepts k = false → t.dex = s.dex ∧ Replied t q msgDebug mgNotPermitted [] ∧
        Logged s t recConfig (bySession q.session) 0xFF [cfgToken, mgNotPermitted, 0xFF]))) ∧
  (∀ (s : State) (a : AnchorReq), ∃ t, exec (.anchorEnroll none a) s = .next t ∧
    (s.portOpen = true → s.mgmt.straps.getLsbD 0 = false → s.dex.anchorsOf 0 = 0 → a.kind = 0 → a.role ≤ 2 →
      Only [.dex, .mgmt, .box] s t ∧ t.dex = { s.dex with anchors := s.dex.anchors ++ [⟨0, a.role, a.digest⟩] }) ∧
    (s.mgmt.straps.getLsbD 0 = true ∨ s.dex.anchorsOf 0 ≠ 0 ∨ a.kind ≠ 0 → t = s))

/-- Queue commands take effect when they are taken (R273, R274), and what follows is then dispatched. TXN_BEGIN opens a transaction of its
ring, empty and with the next number; TXN_COMMIT and TXN_ABORT close the open one, with their own failure where they fail a check, and complete
with FIELD_RANGE where none is open; DROP_REST moves OLDEST of the ring it names, writes the ring's header and completes with what it dropped.
A transaction that has run 65,536 furlongs closes with its ring skipping to the next closing marker, and its members that wait end with TIMEOUT
(R278). -/
def Obligations.QueueCommandsTakeEffectWhenTaken : Prop :=
  (∀ (s : State) (h : Hide) (o : Order) (rest : List Order), (s.hide h).q.dispatch = o :: rest → o.marker = true →
    let c := (s.upQ h (fun q => { q with dispatch := rest })).checks h o
    (o.opcode = 0x20 → (s.hide h).q.openTxn o.ring = none → c.2 = none →
      ∃ t, exec (.txnBegin h) s = .next (t.dispatchAll h) ∧ Apart h s t ∧ Only [.hides] s t ∧
        (t.hide h).q.nextTxn = (s.hide h).q.nextTxn + 1 ∧ ((t.hide h).q.orders.get OrderRing.reset o.ring).txn = some (s.hide h).q.nextTxn ∧
        ∃ y, (t.hide h).q.txns = (s.hide h).q.txns ++ [y] ∧ y.id = (s.hide h).q.nextTxn ∧ y.ring = o.ring ∧ y.start = o ∧ y.members = [] ∧
          y.closer = none ∧ y.decision = none ∧ y.openF = s.plan.furlong) ∧
    (∀ (y : Txn) (commit : Bool) (i : Instr), i = (if commit then Instr.txnCommit h else .txnAbort h) → o.opcode = (if commit then 0x21 else 0x22) →
      (s.hide h).q.openTxn o.ring = some y →
      ∃ t, exec i s = .next (t.dispatchAll h) ∧ Apart h s t ∧ Only [.hides] s t ∧
        ((t.hide h).q.orders.get OrderRing.reset o.ring).txn = none ∧
        ∃ z ∈ (t.hide h).q.txns, z.id = y.id ∧ z.members = y.members ∧ z.held = y.held ∧ z.decision = y.decision ∧
          z.closer = some (o, commit, (c.2.getD (0, 0)).1, (c.2.getD (0, 0)).2)) ∧
    (∀ (commit : Bool) (i : Instr), i = (if commit then Instr.txnCommit h else .txnAbort h) → o.opcode = (if commit then 0x21 else 0x22) →
      (s.hide h).q.openTxn o.ring = none → c.2 = none →
      ∃ t, exec i s = .next ((t.endTaken h o stFieldRange (detailAt 0) []).dispatchAll h) ∧ Apart h s t ∧ (t.hide h).q.txns = (s.hide h).q.txns) ∧
    (o.opcode = 0x28 → (s.hide h).q.openTxn o.ring = none → c.2 = none → o.f 16 1 = 0 →
      ((s.hide h).q.comps.get OutRing.reset (o.f 17 1)).ready = true →
      let d := ((s.hide h).q.comps.get OutRing.reset (o.f 17 1)).dropRest
      ∃ t, exec (.dropRest h) s = .next ((t.endTaken h o stOk 0 (leBytes 4 d.2.1 ++ leBytes 4 d.2.2.toNat)).dispatchAll h) ∧ Apart h s t ∧
        (t.hide h).q.comps.get OutRing.reset (o.f 17 1) = d.1 ∧ (t.hide h).q.orders = (s.hide h).q.orders ∧
        (∀ n, n ≠ o.f 17 1 → (t.hide h).q.comps.get OutRing.reset n = (s.hide h).q.comps.get OutRing.reset n) ∧
        t.readMem h d.1.base.toNat 12 = headerBytes d.1)) ∧
  (∀ (s : State) (h : Hide) (ring : Fin 8) (y : Txn), (s.hide h).q.openTxn ring = some y →
    ∃ u t, exec (.txnTimeout h ring) s = .next (t.dispatchAll h) ∧ Apart h s t ∧
      t = ((s.hide h).q.queue.filter (fun o => o.txn == some y.id)).foldl (fun s o => (s.dropFetches h o.seq).endTaken h o stTimeout 0 []) u ∧
      ((u.hide h).q.orders.get OrderRing.reset ring).txn = none ∧ ((u.hide h).q.orders.get OrderRing.reset ring).skipping = true ∧
      (∃ z ∈ (u.hide h).q.txns, z.id = y.id ∧ z.timedOut = true ∧ z.members = y.members) ∧
      ∀ p, p ∈ (u.hide h).q.queue ↔ p ∈ (s.hide h).q.queue ∧ p.txn ≠ some y.id)

/-- A closed or timed-out transaction whose members have ended is decided once (R276, R277): it commits only when it was closed by a
TXN_COMMIT that passed its checks in time and no member failed, and is then kept for the publication as it is; otherwise it aborts, with
the status of the first condition that holds, and its members take no table effect. -/
def Obligations.TransactionsAreDecidedByTheirMembers : Prop :=
  ∀ (s : State) (h : Hide) (id : Nat) (t : Txn), (s.hide h).q.txns.find? (fun t => t.id == id) = some t → t.decision = none →
    t.closer.isSome = true ∨ t.timedOut = true → t.allEnded = true → t.lastChain / 10 ≤ s.plan.furlong →
    ∃ u d, exec (.txnDecision h id) s = .next u ∧ Apart h s u ∧
      (∃ y ∈ (u.hide h).q.txns, y.id = id ∧ y.decision = some d ∧ y.members = t.members ∧
        (d.commits = true → y = { t with decision := some d } ∧ Only [.hides] s u ∧ (u.hide h).o = (s.hide h).o) ∧
        (d.commits = false → ∀ f ∈ y.held, f.fx = [] ∧ f.tookFrames = [] ∧ f.tookExts = [])) ∧
      d.furlong = s.plan.furlong ∧
      (d.commits = true → t.timedOut = false ∧ (∃ o k, t.closer = some (o, true, 0, k)) ∧ t.failure = none) ∧
      (t.timedOut = true → d = ⟨false, stTimeout, 0xFFFF, s.plan.furlong⟩) ∧
      (∀ o c st k, t.timedOut = false → t.closer = some (o, c, st, k) →
        (st ≠ 0 → d = ⟨false, st, 0xFFFF, s.plan.furlong⟩) ∧
        (st = 0 → c = false → d = ⟨false, stOk, 0xFFFF, s.plan.furlong⟩) ∧
        (∀ w i, st = 0 → c = true → t.failure = some (w, i) → d = ⟨false, w, i, s.plan.furlong⟩))

/-- The IDCODE can be read in every debug state, and holds the stepping, the member code, the manufacturer's code and a one (R445). -/
def Obligations.TheIdcodeIsReadableInEveryDebugState : Prop :=
  ∀ s : State, s.power.st ≠ .off → ∃ t w, exec (.tapInstruction .idcode) s = .next t ∧ Only [.tap] s t ∧ t.tap.inst = .idcode ∧
    t.tap.shifted = some w ∧ bits w.toNat 28 4 = Config.stepping.toNat % 16 ∧ bits w.toNat 12 16 = 0x0960 ∧ bits w.toNat 1 11 = 0x2B7 ∧
    w.getLsbD 0 = true

/-- Four events of the device. An instruction of the test port acts where the debug state permits it, and as BYPASS elsewhere (R383, R444).
A failure of the entropy source's tests enters the security-error state and closes every session (R395, R396). At the drain limit the
orders in flight of each hide that has drained for 4,096 furlongs end, and no other hide changes (R59, R62). In a hide's own egress window
only that hide's head frame may start, and only if it fits; what does not fit stays, and a window whose owner has nothing idles (R334). -/
def Obligations.TestPortEntropyDrainAndEgressEvents : Prop :=
  (∀ (s : State) (op : TapOp), s.power.st ≠ .off → ∃ t, exec (.tapInstruction op) s = .next t ∧ Only [.tap] s t ∧
    t.tap.inst = if tapAllowed s.dex.debug s.resetPin op then op else .bypass) ∧
  (∀ s : State, s.up = true → ∃ t, exec .entropyHealthFail s = .next t ∧ Only [.dex, .mgmt] s t ∧ t.dex.error = true ∧
    t.mgmt.sessions = [] ∧ t.mgmt.openLoad = none) ∧
  (∀ s : State, ∃ t, exec .drainLimit s = .next t ∧ Steady s t ∧
    ∀ h < 16, (∀ f, (s.hide h).q.drainFrom = some f → s.plan.furlong < f + 4096) → t.hide h = s.hide h) ∧
  (∀ (s t : State) (h f : Nat), h < 16 → (s.hide h).q.drainFrom = some f → f + 4096 ≤ s.plan.furlong → exec .drainLimit s = .next t →
    (t.hide h).q.flights = []) ∧
  (∀ (s : State) (link : Fin 9) (chain : Chain) (cycle : Nat) (w : Window),
    (s.windows link).find? (fun w => windowOpen w chain cycle) = some w → w.owner < 16 →
    (s.gates.busy.get (0, 0) link).1 ≠ s.gates.furlong * 10 + chain →
    (s.headFrame link w.owner = none → exec (.egressFrameStart link chain cycle) s = .next s) ∧
    ∀ (first : Bool) (f : EgFrame), s.headFrame link w.owner = some (first, f) →
      ∃ t, exec (.egressFrameStart link chain cycle) s = .next t ∧
        (∀ o, o ≠ egKey link w.owner → t.gates.queues.get EgQueue.empty o = s.gates.queues.get EgQueue.empty o) ∧
        (s.fits w w.owner cycle (cycle * linkUnit link) f = false → t.gates.sent = s.gates.sent ∧ t.gates.queues = s.gates.queues) ∧
        (s.fits w w.owner cycle (cycle * linkUnit link) f = true → s.ready link f = true →
          (∃ g, t.gates.sent = s.gates.sent ++ [(link.val, w.owner, g)] ∧ g.charge = f.charge ∧ (link = 8 → g = f)) ∧
          t.gates.queues.get EgQueue.empty (egKey link w.owner) =
            (let q := s.gates.queues.get EgQueue.empty (egKey link w.owner)
             if first then { q with first := q.first.drop 1 } else { q with second := q.second.drop 1 })))

/-- Lease commands (R295 to R297). A command whose requirement fails has no effect, and its status is in RESULT; while a command waits for its recalls
another is ignored and sets CFG_ERR. LEASE takes an empty slot and a free acre and starts the timer; ATTACH starts a sharer; GRANT and REVOKE set and
clear a bit of GRANTS, and REVOKE closes the sharer's slot (GRANT never sets the owner's own bit); RELEASE closes the slot, for an owner with every sharer slot; SEAL recalls the lines
held exclusive. Slots that a command does not name stay as they are. -/
def Obligations.LeaseCommandsTakeEffect : Prop :=
  (∀ (s : State) (h : Hide) (v : U64) (i : Instr), (i, cmdOp v) ∈ [(Instr.lease h v, 1), (.release h v, 2), (.sealAcre h v, 3), (.grant h v, 4),
      (.attach h v, 5), (.revoke h v, 6)] →
    ((s.hide h).a.cmd ≠ none → ∃ t, exec i s = .next t ∧ Only [.hides] s t ∧ Apart h s t ∧ t.hide h = { s.hide h with a := { (s.hide h).a with err := (s.hide h).a.err ||| 1 } }) ∧
    ((s.hide h).a.cmd = none → s.reamActive = false ∨ (s.hide h).lay = none ∨ (s.hide h).resetting = true →
      ∃ t, exec i s = .next t ∧ Only [.hides] s t ∧ Apart h s t ∧ t.hide h = { s.hide h with a := { (s.hide h).a with result := stNotAdmitted } }) ∧
    ((s.hide h).a.cmd = none → s.reamActive = true → (s.hide h).lay ≠ none → (s.hide h).resetting = false → s.clocks.aonLost = false →
      s.leaseFails h v ≠ 0 →
      ∃ t, exec i s = .next t ∧ Only [.hides] s t ∧ Apart h s t ∧ t.hide h = { s.hide h with a := { (s.hide h).a with result := s.leaseFails h v } })) ∧
  (∀ (s : State) (h : Hide) (v : U64), (s.hide h).a.cmd = none → s.reamActive = true → (s.hide h).lay ≠ none → (s.hide h).resetting = false →
    s.clocks.aonLost = false → s.leaseFails h v = 0 → let n := cmdSlot v; let x := s.hide h
    (cmdOp v = 1 → x.lease n = { x.lease n with st := .empty } ∧ (s.acre (cmdAcre v)).free = true ∧ 10 ≤ cmdTerm v ∧ cmdTerm v ≤ s.termMax h ∧
      ∃ t, exec (.lease h v) s = .next t ∧ Only [.hides, .acres, .mgmt, .box] s t ∧ Apart h s t ∧
        (t.hide h).lease n = { LeaseSlot.reset with st := .active, compat := cmdMode v == 1, acre := cmdAcre v, term := cmdTerm v, remain := termTicks (cmdTerm v) } ∧
        (∀ m, m ≠ n → (t.hide h).lease m = x.lease m) ∧ (t.hide h).a.result = stOk ∧
        t.acre (cmdAcre v) = { s.acre (cmdAcre v) with owner := some h.val, free := false } ∧ ∀ b, b ≠ cmdAcre v → t.acre b = s.acre b) ∧
    (cmdOp v = 2 → (x.lease n).live = true ∧ ∃ t, exec (.release h v) s = .next t ∧ (t.hide h).a.cmd = some ⟨false, n⟩ ∧
      ((t.hide h).lease n).st = .closing ∧ ((t.hide h).lease n).status = stLeaseLost ∧
      ((x.lease n).sharer = true → Apart h s t) ∧
      ((x.lease n).sharer = false → ∀ p ∈ s.sharers (x.lease n).acre, ((t.hide p.1).lease p.2).live = false)) ∧
    (cmdOp v = 3 → (x.lease n).st = .active ∧ (x.lease n).compat = false ∧ ∃ t, exec (.sealAcre h v) s = .next t ∧ Apart h s t ∧
      (t.hide h).a.cmd = some ⟨true, n⟩ ∧ (t.hide h).a.slots = x.a.slots ∧
      ∀ d ∈ x.a.dir, inWindow n d.off = true → d.excl = true → ⟨d.off, false, .command⟩ ∈ (t.hide h).a.snoops) ∧
    (cmdOp v = 4 → cmdHide v ≠ h.val ∧ ∃ t, exec (.grant h v) s = .next t ∧ Only [.hides] s t ∧ Apart h s t ∧ (t.hide h).a.result = stOk ∧
      (∀ g < 16, bit ((t.hide h).lease n).grants g = (bit (x.lease n).grants g || g == cmdHide v)) ∧
      (∀ m, m ≠ n → (t.hide h).lease m = x.lease m)) ∧
    (cmdOp v = 5 → (x.lease n).st = .empty ∧ (s.hide (cmdHide v)).confidential = false ∧ ∃ t, exec (.attach h v) s = .next t ∧
      Only [.hides, .mgmt, .box] s t ∧ Apart h s t ∧ (t.hide h).a.result = stOk ∧
      ((t.hide h).lease n).st = .active ∧ ((t.hide h).lease n).sharer = true ∧ ((t.hide h).lease n).acre = cmdAcre v ∧
      ((t.hide h).lease n).peer = cmdHide v ∧ ((t.hide h).lease n).remain = termTicks (cmdTerm v) ∧ ∀ m, m ≠ n → (t.hide h).lease m = x.lease m) ∧
    (cmdOp v = 6 → bit (x.lease n).grants (cmdHide v) = true ∧ ∃ t, exec (.revoke h v) s = .next t ∧ (t.hide h).a.result = stOk ∧
      (cmdHide v ≠ h.val → (∀ g < 16, bit ((t.hide h).lease n).grants g = (bit (x.lease n).grants g && g != cmdHide v)) ∧
        ∀ p ∈ s.sharers (x.lease n).acre, p.1 = cmdHide v → ((t.hide p.1).lease p.2).live = false) ∧
      ∀ j : Nat, j ≠ h → j ≠ cmdHide v → t.hide j = s.hide j))

/-- The life of a lease (R296 to R301, R304). A completed recall ends the waiting command: a RELEASE with OK, a SEAL with OK and a sealed slot, or with
CONFLICT where the slot closed meanwhile (the model's choice, log entry 56). AC_RENEW starts the terms of the live slots of its mask again, for no
longer than MG_TERM_MAX. A count at zero sets the slot's bit of AC_EXPIRED and closes it, an owner's sharer slots with it. A drained sharer slot is
empty; a drained owner's slot is scrubbed, or, where its region is excluded or the die tripped, is empty with DEVICE_FAULT and the acre gone. A scrub
frees the acre, which holds no data, poison or waiting mark, zero under its last owner's key. A waiting poison mark is written into its line. -/
def Obligations.LeasesRunOutDrainAndScrub : Prop :=
  (∀ (s : State) (h : Hide) (c : LeaseCmd), (s.hide h).a.cmd = some c → s.recalling ((s.hide h).lease c.slot).acre = false →
    ∃ t, exec (.leaseRecallComplete h) s = .next t ∧ Only [.hides, .mgmt, .box] s t ∧ Apart h s t ∧ (t.hide h).a.cmd = none ∧
      (t.hide h).a.result = (if c.sealing = false ∨ ((s.hide h).lease c.slot).st = .active then stOk else stConflict) ∧
      ∀ m, (t.hide h).lease m = if m = c.slot ∧ c.sealing = true ∧ ((s.hide h).lease m).st = .active then { (s.hide h).lease m with st := .sealed }
        else (s.hide h).lease m) ∧
  (∀ (s : State) (h : Hide) (mask : U64), (s.hide h).resetting = false →
    ∃ t, exec (.acRenew h mask) s = .next t ∧ Only [.hides] s t ∧ Apart h s t ∧ ∀ n, (t.hide h).lease n =
      if bit mask.toNat n = true ∧ ((s.hide h).lease n).live = true then
        { (s.hide h).lease n with remain := termTicks (min ((s.hide h).lease n).term (s.termMax h)) } else (s.hide h).lease n) ∧
  (∀ (s : State) (h : Hide) (n : Fin 64), let sl := (s.hide h).lease n
    (sl.live = false ∨ sl.remain ≠ 0 → exec (.leaseExpiry h n) s = .next s) ∧
    (sl.live = true → sl.remain = 0 → ∃ t, exec (.leaseExpiry h n) s = .next t ∧
      (t.hide h).a.expired = (s.hide h).a.expired ||| BitVec.ofNat 64 (2 ^ n.val) ∧
      ((t.hide h).lease n).st = .closing ∧ ((t.hide h).lease n).status = stLeaseLost ∧ (sl.sharer = true → Apart h s t) ∧
      (sl.sharer = false → ∀ p ∈ s.sharers sl.acre, ((t.hide p.1).lease p.2).live = false))) ∧
  (∀ (s : State) (h : Hide) (n : Fin 64), let sl := (s.hide h).lease n
    let dead := (s.region (sl.acre / 6)).excluded || s.power.st == .tripped
    (sl.st = .closing → sl.sharer = true → s.accepted sl.acre (some h) = false →
      ∃ t, exec (.leaseDrainComplete h n) s = .next t ∧ Only [.hides, .mgmt, .box] s t ∧ Apart h s t ∧ (t.hide h).lease n = { sl with st := .empty }) ∧
    (sl.st = .closing → sl.sharer = false → s.accepted sl.acre none = false → s.sharers sl.acre = [] → dead = true →
      ∃ t, exec (.leaseDrainComplete h n) s = .next t ∧ Apart h s t ∧ (t.hide h).lease n = { sl with st := .empty, status := stDeviceFault } ∧
        t.acre sl.acre = { s.acre sl.acre with owner := none, free := false, gone := true }) ∧
    (sl.st = .closing → sl.sharer = false → s.accepted sl.acre none = false → s.sharers sl.acre = [] → dead = false → s.recalling sl.acre = false →
      ∃ t, exec (.leaseDrainComplete h n) s = .next t ∧ Only [.hides, .mgmt, .box] s t ∧ Apart h s t ∧ (t.hide h).lease n = { sl with st := .scrubbing }) ∧
    (sl.st = .scrubbing → ∃ t, exec (.acreScrubComplete h n) s = .next t ∧ Only [.hides, .acres, .mgmt, .box] s t ∧ Apart h s t ∧
      (t.hide h).lease n = { sl with st := .empty } ∧ (∀ m, m ≠ n.val → (t.hide h).lease m = (s.hide h).lease m) ∧
      t.acre sl.acre = { s.acre sl.acre with owner := none, free := true, zeroUnder := some (s.hide h).k.root, bytes := [], poison := [], marks := [] } ∧
      ∀ b, b ≠ sl.acre → t.acre b = s.acre b)) ∧
  (∀ (s : State) (a : Fin 384) (line : Nat), (s.acre a).marks.contains line = true →
    ∃ t, exec (.poisonMarkWrite a line) s = .next t ∧ Only [.acres] s t ∧ (t.acre a).poisoned line = true ∧ (t.acre a).bytes = (s.acre a).bytes ∧
      (t.acre a).marks = (s.acre a).marks.filter (· != line) ∧ ∀ b, b ≠ a.val → t.acre b = s.acre b)

/-- Requests to lease windows (R293, R302 to R304). A host's read of a live window joins its owner's queue. The request at the head of a queue waits
while its region is in its maintenance furlong or a snoop on its line is unanswered; it sends the snoops it needs and stays at the head; needing none,
it leaves the queue and is served: a read answers the line's bytes, and a write to a native lease stores them in the line and nowhere else, in an acre
neither excluded nor poisoned there. -/
def Obligations.AcreRequestsAreServedInTurn : Prop :=
  (∀ (s : State) (ld : Ld) (off h n line : Nat) (kind : ReadKind), s.serves ld false = .hide h → (s.hide h).area off = .win n line →
    let sl := (s.hide h).lease n
    let o := if sl.sharer then sl.peer else h
    sl.live = true → (s.hide o).a.acreQ.length < 1024 →
    ∃ t, exec (.cxlMemRead ld off kind) s = .next t ∧ Only [.hides] s t ∧ Apart o s t ∧
      (t.hide o).a.acreQ = (s.hide o).a.acreQ ++ [⟨h, n, sl.acre, line, .read kind, false⟩]) ∧
  (∀ (s : State) (h : Hide) (q : AcreReq) (rest : List AcreReq), (s.hide h).a.acreQ = q :: rest →
    let dead := (s.region (q.acre / 6)).excluded || s.power.st == .tripped
    let need := match s.ownerSlot q.acre with
      | some (_, _, sl) => if sl.compat then q.snoops (s.holders q.acre q.line) else []
      | none => []
    ((s.region (q.acre / 6)).maint = true ∨ s.snooping q.acre q.line = true → exec (.acreRequestServe h) s = .next s) ∧
    ((s.region (q.acre / 6)).maint = false → s.snooping q.acre q.line = false → need ≠ [] →
      ∃ t, exec (.acreRequestServe h) s = .next t ∧ t.acres = s.acres ∧ (∀ j, (t.hide j).a.acreQ = (s.hide j).a.acreQ) ∧
        ∀ p ∈ need, ⟨p.2.1, p.2.2, .request⟩ ∈ (t.hide p.1).a.snoops) ∧
    ((s.region (q.acre / 6)).maint = false → s.snooping q.acre q.line = false → need = [] →
      ∃ t, exec (.acreRequestServe h) s = .next t ∧ (t.hide h).a.acreQ = rest ∧ (∀ b, b ≠ q.acre → t.acre b = s.acre b) ∧
        (∀ kind, q.op = .read kind → t.acres = s.acres ∧
          (dead = false → (s.acre q.acre).poisoned q.line = false → q.uio = false →
            ∃ f ∈ (t.gates.queues.get EgQueue.empty (egKey 8 q.hide)).first, ∃ shared,
              f.body = .drs (winBase q.slot + 64 * q.line) (s.acreLine q.acre q.line) false shared (devLoad rest.length))) ∧
        (∀ data wb, q.op = .write data false wb → data.length = 64 → ((s.hide q.hide).lease q.slot).compat = false → dead = false →
          (s.acre q.acre).poisoned q.line = false →
          t.acreLine q.acre q.line = data ∧ ∀ l, l ≠ q.line → t.acreLine q.acre l = s.acreLine q.acre l)))

/-- Answers to snoops (R289, R304). An answer takes the snoop out; its data is stored in the acre line, unless that is poisoned, or in the line of
interface memory of a hide that no reset holds, and after BISnpInv the directory no longer lists an acre line. Where the host does not answer in time, bit 1 of CFG_ERR is set; for interface
memory the snoop is taken as answered; for an acre line the slot closes and every line of its window leaves the directory. -/
def Obligations.SnoopsAreAnsweredOrEndTheHold : Prop :=
  (∀ (s : State) (h : Hide) (off : Nat) (data : Option (List Byte)) (p : Snoop), (s.hide h).a.snoops.find? (fun p => p.off == off) = some p →
    s.cxl.width ≠ 0 → s.cxl.ideMem ≠ .insecure →
    ∃ t, exec (.biSnoopResponse h off data) s = .next t ∧ Only [.hides, .imem, .acres] s t ∧ Apart h s t ∧
      (t.hide h).a.snoops = (s.hide h).a.snoops.erase p ∧
      (∀ n line, (s.hide h).area off = .win n line → t.imem = s.imem ∧
        (p.why = .ended → t.acres = s.acres ∧ (t.hide h).a.roWr = satInc (s.hide h).a.roWr) ∧
        (p.why ≠ .ended → let a := ((s.hide h).lease n).acre
          (∀ d, data = some d → d.length = 64 → (s.acre a).poisoned line = false → t.acreLine a line = d) ∧
          (data = none ∨ (s.acre a).poisoned line = true → t.acres = s.acres) ∧
          (p.inv = true → p.why ≠ .quota → ∀ e ∈ (t.hide h).a.dir, e.off ≠ off))) ∧
      (∀ d, data = some d → d.length = 64 → (s.hide h).area off = .ring ∨ (s.hide h).area off = .opnd → (s.hide h).resetting = false →
        t.acres = s.acres ∧ t.readMem h off 64 = d)) ∧
  (∀ (s : State) (h : Hide) (off : Nat) (p : Snoop), (s.hide h).a.snoops.find? (fun p => p.off == off) = some p →
    ∃ t, exec (.biSnoopTimeout h off) s = .next t ∧ t.imem = s.imem ∧
      ((∀ n line, (s.hide h).area off ≠ .win n line) → t.hide h = { s.hide h with a := { (s.hide h).a with
        err := (s.hide h).a.err ||| 2, snoops := (s.hide h).a.snoops.erase p } } ∧ t.acres = s.acres) ∧
      (∀ n line, (s.hide h).area off = .win n line → p.why = .ended → t.hide h = { s.hide h with a := { (s.hide h).a with
        snoops := (s.hide h).a.snoops.erase p } } ∧ t.acres = s.acres) ∧
      (∀ n line, (s.hide h).area off = .win n line → p.why ≠ .ended → (t.hide h).a.err = (s.hide h).a.err ||| 2 ∧
        ((t.hide h).lease n).live = false ∧ ∀ e ∈ (t.hide h).a.dir, inWindow n e.off = false))

/-- Training and module acceptance (R309, R310, R319, R328). Each step of an attempt hands on the lanes it found; step 3 fixes the widest permitted
width and sends IDENTIFY; at the exchange step a module that meets R310 makes the port ACTIVE at that width, and loses the extents kept on a port whose
module has changed, and one that does not is REFUSED. A failed attempt waits for its retry, which begins at step 1; the fifth leaves the port DOWN. A fault
of a lane in use, a symbol error ratio above 2 × 10^−4 and 10 µs without a good frame retrain the port from step 2, the faulty lane left out. -/
def Obligations.LeaguePortsTrainAndAcceptModules : Prop :=
  (∀ (s : State) (p : Port) (lanes : BitVec 4), let q := s.port p
    q.st = .training → q.waiting = false → q.step = 1 ∨ q.step = 2 → lanes ≠ 0 →
    ∃ t, exec (.trainingStepComplete p lanes) s = .next t ∧ Only [.ports] s t ∧ t.port p = { q with step := q.step + 1, lanes := lanes } ∧
      ∀ g : Nat, g ≠ p → t.port g = s.port g) ∧
  (∀ (s : State) (p : Port) (lanes : BitVec 4), let q := s.port p
    let m := laneMask q.maxWidth lanes.toNat
    q.st = .training → q.waiting = false → q.step = 3 → m ≠ 0 →
    ∃ t, exec (.trainingStepComplete p lanes) s = .next t ∧ Only [.gates, .ports] s t ∧
      t.port p = { q with step := 4, lanes := BitVec.ofNat 4 m } ∧
      ⟨64, .cmd 0 .identify 0 0 0 .ident⟩ ∈ (t.gates.queues.get EgQueue.empty (egKey p 16)).first) ∧
  (∀ (s : State) (p : Port) (lanes : BitVec 4) (m : ModuleId), let q := s.port p
    q.st = .training → q.waiting = false → q.step = 4 → q.offered = some m → (∀ c ∈ q.cmds, c.why ≠ .ident) →
    ∃ t, exec (.trainingStepComplete p lanes) s = .next t ∧
      (s.acceptable p m = true → (t.port p).st = .active ∧ (t.port p).module = some m ∧ (t.port p).serial = some m.serial ∧
        (t.port p).width = laneCount (laneMask q.maxWidth q.lanes.toNat) ∧
        (q.serial ≠ none → q.serial ≠ some m.serial → ∀ h < 16, ∀ e ∈ (t.hide h).o.tab.exts, e.2.module = p → e.2.lost = true)) ∧
      (s.acceptable p m = false → (t.port p).st = .refused ∧ (t.port p).module = none ∧ (t.port p).width = 0)) ∧
  (∀ (s : State) (p : Port), let q := s.port p
    q.st = .training → q.waiting = false →
    ∃ t, exec (.trainingStepTimeout p) s = .next t ∧
      (q.attempts + 1 < 5 → (t.port p).st = .training ∧ (t.port p).waiting = true ∧ (t.port p).attempts = q.attempts + 1) ∧
      (5 ≤ q.attempts + 1 → (t.port p).st = .down)) ∧
  (∀ (s : State) (p : Port), (s.port p).st = .training → (s.port p).waiting = true →
    ∃ t, exec (.trainingRetry p) s = .next t ∧ Only [.gates, .ports] s t ∧ (t.port p).st = .training ∧ (t.port p).waiting = false ∧
      (t.port p).step = 1 ∧ (t.port p).lanes = 0 ∧ (t.port p).attempts = (s.port p).attempts) ∧
  (∀ (s : State) (p : Port) (c : Instr) (lane : Fin 4) (errors : Nat), let q := s.port p
    (c = .laneFault p lane ∨ c = .symbolErrorWindow p lane errors ∧ 2 ^ 20 * 544 < errors * q.width * 5000) ∧
        (q.st = .active ∨ q.st = .training) ∧ q.lanes.getLsbD lane = true ∨ c = .leagueIdleTimeout p ∧ q.linked = true →
    ∃ t, exec c s = .next t ∧ Only [.gates, .ports, .mgmt, .box] s t ∧ (t.port p).st = .training ∧ (t.port p).step = 2 ∧ (t.port p).waiting = false ∧
      (t.port p).retrain = satInc q.retrain ∧ (∀ g : Nat, g ≠ p → t.port g = s.port g) ∧
      (c ≠ .leagueIdleTimeout p → (t.port p).lanes = q.lanes &&& ~~~(BitVec.ofNat 4 (2 ^ lane.val)))) ∧
  (∀ (s : State) (p : Port) (lane : Fin 4) (errors : Nat), errors * (s.port p).width * 5000 ≤ 2 ^ 20 * 544 →
    exec (.symbolErrorWindow p lane errors) s = .next s)

/-- Frames of the league links (R312 to R314, R317, R318, R325). A frame that fails its check is counted, and is answered by one NAK that names the SEQ
expected; a good one advances it. A RSP or RDATA that names no command it can answer is discarded and counted; the RSP that completes a command ends
it; the sector of a READ is kept with the command's job when it carries what the job expects, and fails the check otherwise. A CTRL frame carries the credit totals and
acknowledgements on, and one whose totals decrease retrains the port. The report of a port that exchanges frames is sent; an overdue frame sends every
unacknowledged frame again, and the 16th time in a row retrains the port; an overdue command fails and its tag is retired. -/
def Obligations.LeagueFramesAreCheckedAndCounted : Prop :=
  (∀ (s : State) (p : Port) (k : FrameCheck) (tag a b : Nat) (d : RData) (c : Instr), let q := s.port p
    c = .leagueRsp p k tag a b ∨ c = .leagueRdata p k tag a d → q.linked = true → k.crcOk = false ∨ k.wellFormed = false ∨ k.seq ≠ q.rxSeq →
    ∃ t, exec c s = .next t ∧ Only [.gates, .ports] s t ∧
      t.port p = { q with
        crcErr := if k.crcOk then q.crcErr else satInc q.crcErr
        discard := if k.crcOk && !k.wellFormed then satInc q.discard else q.discard
        nakSent := true } ∧
      t.gates.sent = if q.nakSent then s.gates.sent else s.gates.sent ++ [(p.val, 16, ⟨64, .ctrl { q.report with nak := some q.rxSeq }⟩)]) ∧
  (∀ (s : State) (p : Port) (k : FrameCheck) (tag status failed : Nat), let q := s.port p
    q.linked = true → k.crcOk = true → k.wellFormed = true → k.seq = q.rxSeq →
    ∃ t, exec (.leagueRsp p k tag status failed) s = .next t ∧ (t.port p).rxSeq = (q.rxSeq + 1) % 4096 ∧ (t.port p).crRsp = q.crRsp + 1 ∧
      (q.cmds.find? (fun c => c.tag == tag && c.rsp.isNone) = none → (t.port p).discard = satInc q.discard ∧ (t.port p).cmds = q.cmds) ∧
      ∀ c, q.cmds.find? (fun c => c.tag == tag && c.rsp.isNone) = some c →
        (({ c with rsp := some status } : Cmd).complete = true → ∀ e ∈ (t.port p).cmds, e.tag ≠ tag) ∧
        (({ c with rsp := some status } : Cmd).complete = false → (t.port p).cmds = q.cmds.map (fun d => if d.tag == tag then { c with rsp := some status } else d))) ∧
  (∀ (s : State) (p : Port) (k : FrameCheck) (tag i : Nat) (d : RData), let q := s.port p
    q.linked = true → k.crcOk = true → k.wellFormed = true → k.seq = q.rxSeq →
    ∃ t, exec (.leagueRdata p k tag i d) s = .next t ∧ (t.port p).rxSeq = (q.rxSeq + 1) % 4096 ∧ (t.port p).crRdata = q.crRdata + 1 ∧
      (q.cmds.find? (fun c => c.tag == tag) = none → (t.port p).discard = satInc q.discard ∧ (t.port p).cmds = q.cmds) ∧
      ∀ c h j first y, q.cmds.find? (fun c => c.tag == tag) = some c → c.op = .read → c.got.contains i = false → i < c.count →
        c.rsp = none → c.why = .job h j first → d = .sector y → ∀ b, AMap.find (s.hide h).o.jobs j = some b →
        (b.checks h (first + i) y = true → (t.hide h).o.jobs = (s.hide h).o.jobs.set j { b with data := b.data.set (first + i) y.plain } ∧
          (t.port p).cmds = q.cmds.map (fun e => if e.tag == tag then { c with got := i :: c.got } else e)) ∧
        (b.checks h (first + i) y = false → t.hides = s.hides ∧
          (t.port p).cmds = q.cmds.map (fun e => if e.tag == tag then { c with got := i :: c.got, checkFailed := true } else e))) ∧
  (∀ (s : State) (p : Port) (c : Ctrl), let q := s.port p
    q.linked = true →
    (∃ t, exec (.leagueCtrl p false c) s = .next t ∧ Only [.ports] s t ∧ t.port p = { q with crcErr := satInc q.crcErr }) ∧
    (∀ a b, credit q.crCmd c.crCmd = some a → credit q.crWdata c.crWdata = some b → c.nak = none →
      ∃ t, exec (.leagueCtrl p true c) s = .next t ∧ Only [.ports] s t ∧ t.port p = { q.ack c.ack with crCmd := a, crWdata := b }) ∧
    (credit q.crCmd c.crCmd = none ∨ credit q.crWdata c.crWdata = none →
      ∃ t, exec (.leagueCtrl p true c) s = .next t ∧ (t.port p).st = .training ∧ (t.port p).step = 2 ∧ (t.port p).retrain = satInc q.retrain)) ∧
  (∀ (s : State) (p : Port), let q := s.port p
    q.linked = true →
    (∃ t, exec (.leagueCtrlSend p) s = .next t ∧ Only [.gates] s t ∧ t.gates = { s.gates with sent := s.gates.sent ++ [(p.val, 16, ⟨64, .ctrl q.report⟩)] }) ∧
    (q.unacked = [] → exec (.leagueReplayTimeout p) s = .next s) ∧
    (q.unacked ≠ [] → ∃ t, exec (.leagueReplayTimeout p) s = .next t ∧
      t.gates.sent = s.gates.sent ++ q.unacked.map (fun f => (p.val, 16, f.2)) ∧ (t.port p).replay = satInc q.replay ∧
      (q.replays + 1 < 16 → (t.port p).replays = q.replays + 1 ∧ (t.port p).st = q.st) ∧
      (16 ≤ q.replays + 1 → (t.port p).replays = 0 ∧ (t.port p).st = .training ∧ (t.port p).step = 2))) ∧
  (∀ (s : State) (p : Port) (tag : Nat) (c : Cmd), let q := s.port p
    q.cmds.find? (fun c => c.tag == tag) = some c →
    ∃ t, exec (.leagueCommandTimeout p tag) s = .next t ∧ (t.port p).timeout = satInc q.timeout ∧ (t.port p).retired = q.retired ++ [tag] ∧
      (t.port p).cmds = q.cmds.filter (fun d => d.tag != tag))

/-- Work of orders that goes on at later events. The hash lane ends its oldest order when its tokens are in (R118); a slot reload leaves the cluster's slot
good or failed (R238, R247); a fetch whose data is in meets its deadline, one whose data is not has missed it, and one that ends after arrives (R161);
the oldest rod that waits for recoding is recoded in MOVE capacity, or is recoded no more (R107); a LOOKUP_PREFIX goes on or ends in its hide's META
capacity (R118, R120); an entry that waits for its re-entry enters its step again, counted (R163); and a DELIVER_PAGES ends at its deadline (R133). -/
def Obligations.WaitingWorkGoesOn : Prop :=
  (∀ (s : State) (h : Hide) (n : Nat) (rest : List Nat), (s.hide h).o.lane = n :: rest →
    (∀ o, (s.hide h).q.queue.find? (fun o => o.seq == n) = some o → ∀ i, o.tokens = some i → ∀ d, AMap.find (s.hide h).o.dmas i = some d → d.status = some stOk) →
    ∃ t, exec (.hashLaneDone h) s = .next t ∧ Only [.hides] s t ∧ Apart h s t ∧ (t.hide h).o.lane = rest ∧
      (t.hide h).q.queue = (s.hide h).q.queue.map (fun o => if o.seq == n then { o with hashed := true } else o)) ∧
  (∀ (s : State) (h : Hide) (key : Nat) (c : Cluster) (ok : Bool) (b : BookRec), AMap.find (s.hide h).o.tab.books key = some b →
    ∃ t, exec (.codebookSlotReload h key c ok) s = .next t ∧ Only [.hides] s t ∧ Apart h s t ∧
      ∃ bad, (t.hide h).o.tab.books = (s.hide h).o.tab.books.set key { b with badClusters := bad } ∧
        (∀ d, d ≠ c.val → (d ∈ bad ↔ d ∈ b.badClusters)) ∧ (c.val ∈ bad ↔ ¬(ok = true ∧ s.homeReadable h key b = true))) ∧
  (∀ (s : State) (h : Hide) (id : Nat) (k : Fetch), AMap.find (s.hide h).o.fetches id = some k → k.past = false → k.dropped = false →
    ((s.hide h).q.flights.any (fun f => f.order.seq == k.order && f.order.opcode != 0x14 && f.fetches.contains id)) = true →
    let inNow := k.arrived || (match k.job.bind (AMap.find (s.hide h).o.jobs) with
        | some j => j.status.isSome && j.status != some stTimeout
        | none => false)
    inNow = true ∨ (s.hide h).deferPolicy = false → ∃ t, exec (.fetchDeadline h id) s = .next t ∧ Only [.hides] s t ∧ Apart h s t ∧
      (t.hide h).o.fetches = (s.hide h).o.fetches.set id (if inNow then { k with arrived := true, past := true } else { k with past := true, missed := true })) ∧
  (∀ (s : State) (h : Hide) (id : Nat) (k : Fetch) (j : Job), AMap.find (s.hide h).o.fetches id = some k → k.job.bind (AMap.find (s.hide h).o.jobs) = some j →
    j.status = some stOk → k.arrived = false → k.dropped = false → k.missed = false ∨ (s.hide h).stillAwaited id = true →
    ∃ t, exec (.fetchArrival h id) s = .next t ∧ Only [.hides] s t ∧ Apart h s t ∧
      (t.hide h).o.fetches = (s.hide h).o.fetches.set id { k with arrived := true, missed := false }) ∧
  (∀ (s : State) (h : Hide) (c : Chain) (e : Env) (w : RecodeWork) (rest : List RecodeWork), let x := (s.stored h e).hide h
    x.o.recodes = w :: rest →
    (x.toRecode w = none → ∃ t, exec (.recode h c e) s = .next t ∧ Apart h s t ∧ (t.hide h).o.recodes = rest ∧ (t.hide h).o.pending = x.o.pending) ∧
    (∀ q p d g, x.toRecode w = some (q, p) → x.desc q.modelId = some d → (s.stored h e).admitting h = true →
      x.grant (s.stored h e).plan.furlong c .move (x.frameRegions p.loc) (plainFit (units4k d.rodBytes)) = some g →
      ∃ t, exec (.recode h c e) s = .next t ∧ Apart h s t ∧ (t.hide h).o.recodes = rest ∧
        (∀ k o, (x.o.tab.viewRod d (x.o.rod p.loc)).status (pairsOf d 256) = 0 → x.recoded d w p = some (k, o) →
          (t.hide h).o.pending = o.pending ++ [.rehome w.handle w.layer w.rod p ⟨k, 0, false, true, false, 256⟩]))) ∧
  (∀ (s : State) (h : Hide) (c : Chain) (e : Env) (w : LookupWork) (f : Flight) (g : Grant), (s.hide h).o.lookups.find? (fun w => w.last != s.now c) = some w →
    (s.hide h).q.flights.find? (fun f => f.order.seq == w.seq && !f.ended) = some f → s.reamActive = true →
    (s.hide h).grant s.plan.furlong c .metaOrder f.regions (plainFit 1) = some g → Placed s h f.order → e.suspects = [] →
    let u := (s.upQ h (fun q => q.use s.plan.furlong g.uses)).stored h e
    let r := lookupStep (u.hide h) f.view (f.order.f 16 1) ((u.hide h).tokens f.order (f.order.f 28 4)) { w with last := s.now c }
    ∃ t, exec (.lookupPrefixContinue h c e) s = .next t ∧ Apart h s t ∧
      (r.2 = false → (t.hide h).q = (u.hide h).q ∧ (t.hide h).o.lookups = (u.hide h).o.lookups.map (fun y => if y.seq == w.seq then r.1 else y)) ∧
      (r.2 = true → r.1.found = none → Ended t h f.order f.status (leBytes 6 0 ++ leBytes 4 r.1.matched ++ leBytes 1 0) [])) ∧
  (∀ (s : State) (h : Hide) (c : Chain) (e : Env) (f : Flight), (s.hide h).toReenter s.plan.furlong = some f → s.reamActive = true → s.plan.stopped = false →
    ∀ j es g, (s.hide h).stepChecks h f.view f.order = .inr (j, es) →
    let back := es.filter (fun n => f.deferred.any (fun d => d.entry == n.idx && d.waiting))
    (s.hide h).grant s.plan.furlong c (if f.order.opcode = 0x08 then .decode else .prefill) f.regions
      (if f.order.opcode = 0x08 then (s.hide h).stepFit j (back.map (fun n => (n, (s.hide h).needs j n))) else plainFit ((s.hide h).demand f.order)) = some g →
    let f' := { f with
      phase := 2
      endChain := s.now c + g.len - 1
      deferred := f.deferred.map (fun d => if d.waiting then { d with waiting := false, count := d.count + 1 } else d)
      ct := { f.ct with defers := satAdd f.ct.defers back.length } }
    let r := (s.upQ h (fun q => q.use s.plan.furlong g.uses)).renewFetches h f'
    (((r.1.putFlight h r.2).hide h).o.fetchesDecided r.2 = true → exec (.deferReentry h c e) s = .next (stepRun h c e (r.1.putFlight h r.2) r.2)) ∧
    (((r.1.putFlight h r.2).hide h).o.fetchesDecided r.2 = false → ∃ t, exec (.deferReentry h c e) s = .next t ∧ Apart h s t ∧
      ∃ y ∈ (t.hide h).q.flights, y.order = f.order ∧ y.phase = 2 ∧ y.endChain = f'.endChain ∧ y.deferred = f'.deferred)) ∧
  (∀ (s : State) (h : Hide) (f : Flight), (s.hide h).q.flights.find? (fun f => !f.ended && (match f.delivery with | some dl => decide (dl.last ≤ s.plan.furlong) | none => false)) = some f →
    Placed s h f.order → ∃ t, exec (.deliverDeadline h) s = .next t ∧ Apart h s t ∧
      (∀ st, (s.hide h).deliverJob f.view h (f.order.f 16 6) = .inl st → Ended t h f.order st f.result f.fx) ∧
      (∀ j, (s.hide h).deliverJob f.view h (f.order.f 16 6) = .inr j → ∃ status result, Ended t h f.order status result []))

/-- Commands of no plan, reset, lock, job key or register leave every hide's LAYOUT entry, section, root, interface state, reset and job-key and trace
registers as they were: orders, memory accesses, leases, links, screening and management reads cannot change what a hide is or what keys it has. -/
def Obligations.OnlySteeringCommandsChangeAHidesCore : Prop :=
  ∀ (c : Instr) (s : State), steers c = false → ∃ t, exec c s = .next t ∧ ∀ h, (t.hide h).core = (s.hide h).core

/-- The cause of every device reset is latched, and the RESET record of the next boot holds it, with the step of R400 reached (R411):
power-up, a loss of power by either input, a protective shut-down, RESET_N, the DEVICE_RESET request and a trip on the I/O die
latch their own causes, and RESET_RELEASE writes the record of the boot. -/
def Obligations.EveryDeviceResetLatchesItsCauseForTheResetRecord : Prop :=
  (∀ s : State, s.power.st = .off ∨ s.power.st = .lost → ∃ t, exec .standbyStart s = .next t ∧ t.power.cause = 1) ∧
  (∀ s : State, s.power.st ≠ .off → s.power.st ≠ .lost →
    (∃ t, exec (.powerLoss false) s = .next t ∧ t.power.cause = 3) ∧
    (∃ t, exec (.powerLoss true) s = .next t ∧ t.power.cause = 6) ∧
    ∃ t, exec .protectiveShutdown s = .next t ∧ t.power.cause = 5) ∧
  (∀ s : State, s.power.st = .running ∨ s.power.st = .tripped ∨ s.power.st = .overrun →
    ∃ t, exec .resetN s = .next t ∧ t.power.cause = 2) ∧
  (∀ (s : State) (q : Req), Heard s q .operator → ∃ t, exec (.deviceReset q 0x52535456) s = .next t ∧ t.power.cause = 4) ∧
  (∀ (s : State) (k : Nat) (v : Int), s.power.st = .running ∨ s.power.st = .tripped → 192 ≤ k → (s.sensor k).trips k v = true →
    ∃ t, exec (.sensorSample [(k, v)]) s = .next t ∧ t.power.cause = 7) ∧
  ∀ (s : State) (a b c : BitVec 6) (code : BitVec 8) (x : BitVec 64) (torn : Bool), s.power.st = .ready → s.power.holdup = true →
    ∃ t, exec (.resetRelease a b c code x torn) s = .next t ∧
      ∃ r ∈ t.box.recs, s.box.next ≤ r.seq ∧ r.typ = recReset ∧ r.body.getD 1 0 = s.power.cause ∧ r.body.getD 2 0 = s.power.step

/-- The identity record of R388 stands in every report that the device signs: 64 bytes, the serial, the member code 0x0960, the stepping,
twelve zeros, and the digest of the identity public key, whose first 16 bytes are the DEVICE_BIND of a swap image. -/
def Obligations.EveryReportCarriesTheIdentityRecord : Prop :=
  ∀ (s : State) (m : Option Ld) (nonce : BitVec 256), s.spdmUp (m.map (·.val)) = true → s.dex.error = false →
    s.dex.identityGone = false → s.dex.life ≠ .blank →
    ∃ t a b record, exec (.spdmGetMeasurements m nonce) s = .next t ∧ t.mgmt.raw = s.mgmt.raw ++ [a ++ record ++ b] ∧
      record.length = 64 ∧ record.take 16 = leBytes 16 Config.deviceSerial.toNat ∧ (record.drop 16).take 2 = leBytes 2 0x0960 ∧
      (record.drop 18).take 2 = leBytes 2 Config.stepping.toNat ∧ (record.drop 20).take 12 = List.replicate 12 0 ∧
      record.drop 32 = leBytes 32 Config.deviceKeyDigest.toNat ∧ deviceBind = (record.drop 32).take 16

end
end

