-- ==== Sys2Proof/Laws/Memory.lean ====
section
/-!
SUPPORT. Sparse tables and interface memory: a read after a write, and the canonical form that every memory operation keeps.
-/

namespace Sys2Proof
open Sys2Proof

/-- Reading a table after a write at a key. -/
theorem AMap.get_set {α : Type} (d : α) (m : AMap α) (k : Nat) (v : α) (j : Nat) :
    AMap.get d (AMap.set m k v) j = if j = k then v else AMap.get d m j := by
  induction m with
  | nil => by_cases h : k = j
           · simp [AMap.set, AMap.get, h]
           · have h' : j ≠ k := fun e => h e.symm
             simp [AMap.set, AMap.get, h, h']
  | cons p t ih =>
    obtain ⟨a, b⟩ := p
    by_cases h1 : a = k
    · subst h1; by_cases h : a = j
      · simp [AMap.set, AMap.get, h]
      · have h' : j ≠ a := fun e => h e.symm
        simp [AMap.set, AMap.get, h, h']
    · by_cases h2 : k < a
      · by_cases h : k = j
        · subst h; simp [AMap.set, AMap.get, h1, h2]
        · have h' : j ≠ k := fun e => h e.symm
          simp [AMap.set, AMap.get, h1, h2, h, h']
      · by_cases h : a = j
        · subst h; simp [AMap.set, AMap.get, h1, h2]
        · simp [AMap.set, AMap.get, h1, h2, h, ih]

/-- Looking a key up after a write at a key. -/
theorem AMap.find_set {α : Type} (m : AMap α) (k : Nat) (v : α) (j : Nat) :
    AMap.find (AMap.set m k v) j = if j = k then some v else AMap.find m j := by
  induction m with
  | nil => by_cases h : k = j
           · simp [AMap.set, AMap.find, h]
           · have h' : j ≠ k := fun e => h e.symm
             simp [AMap.set, AMap.find, h, h']
  | cons p t ih =>
    obtain ⟨a, b⟩ := p
    by_cases h1 : a = k
    · subst h1; by_cases h : a = j
      · simp [AMap.set, AMap.find, h]
      · have h' : j ≠ a := fun e => h e.symm
        simp [AMap.set, AMap.find, h, h']
    · by_cases h2 : k < a
      · by_cases h : k = j
        · subst h; simp [AMap.set, AMap.find, h1, h2]
        · have h' : j ≠ k := fun e => h e.symm
          simp [AMap.set, AMap.find, h1, h2, h, h']
      · by_cases h : a = j
        · subst h; simp [AMap.set, AMap.find, h1, h2]
        · simp [AMap.set, AMap.find, h1, h2, h, ih]

@[simp] theorem AMap.get_set_same {α : Type} (d : α) (m : AMap α) (k : Nat) (v : α) : AMap.get d (AMap.set m k v) k = v := by
  simp [AMap.get_set]

theorem AMap.get_set_other {α : Type} (d : α) (m : AMap α) {k j : Nat} (v : α) (h : j ≠ k) :
    AMap.get d (AMap.set m k v) j = AMap.get d m j := by simp [AMap.get_set, h]

/-- Reading a table after a key was removed. -/
theorem AMap.get_erase {α : Type} (d : α) (m : AMap α) (k j : Nat) :
    AMap.get d (AMap.erase m k) j = if j = k then d else AMap.get d m j := by
  induction m with
  | nil => simp [AMap.erase, AMap.get]
  | cons p t ih =>
    obtain ⟨a, b⟩ := p
    by_cases h1 : a = k
    · subst h1; by_cases h : j = a
      · subst h; simpa [AMap.erase] using ih
      · have : a ≠ j := fun e => h e.symm
        simp [AMap.erase, AMap.get, ih, h, this]
    · by_cases h : a = j
      · subst h; simp [AMap.erase, AMap.get, h1]
      · simp [AMap.erase, AMap.get, h1, h, ih]

end Sys2Proof

namespace Sys2Proof.Machine
open Sys2Proof

/-- One byte after a byte was written. -/
theorem Memory.get_set (m : List Host.Cell) (a : Nat) (b : Byte) (j : Nat) :
    Memory.get (Memory.set m a b) j = if j = a then b else Memory.get m j := by
  unfold Memory.set Memory.get
  split
  · next h => subst h; rw [AMap.get_erase]
  · rw [AMap.get_set]

/-- A byte outside the bytes written reads as before. -/
theorem Memory.get_write_outside (bs : List Byte) : ∀ (m : List Host.Cell) (a j : Nat), (j < a ∨ a + bs.length ≤ j) →
    Memory.get (Memory.write m a bs) j = Memory.get m j := by
  induction bs with
  | nil => intro m a j _; rfl
  | cons b t ih =>
    intro m a j h
    have h' : j < a ∨ a + (t.length + 1) ≤ j := by simpa using h
    rw [Memory.write, ih _ _ _ (by omega), Memory.get_set, if_neg (by omega)]

/-- A byte among the bytes written reads as the byte written there. -/
theorem Memory.get_write_inside (bs : List Byte) : ∀ (m : List Host.Cell) (a i : Nat) (h : i < bs.length),
    Memory.get (Memory.write m a bs) (a + i) = bs[i] := by
  induction bs with
  | nil => intro m a i h; simp at h
  | cons b t ih =>
    intro m a i h
    rw [Memory.write]
    cases i with
    | zero =>
      rw [Memory.get_write_outside _ _ _ _ (by omega), Memory.get_set]; simp
    | succ n =>
      have := ih (Memory.set m a b) (a + 1) n (by simpa using h)
      rw [show a + (n + 1) = a + 1 + n by omega, this]; simp

/-- A read of the bytes just written gives them back. -/
theorem Memory.read_write (bs : List Byte) (m : List Host.Cell) (a : Nat) : Memory.read (Memory.write m a bs) a bs.length = bs := by
  have key : ∀ (n : Nat) (m' : List Host.Cell) (a' : Nat), Memory.read m' a' n = (List.range n).map (fun i => Memory.get m' (a' + i)) := by
    intro n; induction n with
    | zero => intro m' a'; rfl
    | succ k ih =>
      intro m' a'
      rw [Memory.read, ih, List.range_succ_eq_map]
      simp [Function.comp_def, Nat.add_comm, Nat.add_left_comm]
  rw [key]
  apply List.ext_getElem
  · simp
  · intro i h1 h2
    simp at h1 ⊢
    exact Memory.get_write_inside bs m a i h1

theorem Memory.wfFrom_mono {lo lo' : Nat} : ∀ {m : List Host.Cell}, lo' ≤ lo → Memory.wfFrom lo m = true → Memory.wfFrom lo' m = true
  | [], _, _ => rfl
  | (a, b) :: t, h, hw => by
    simp only [Memory.wfFrom, Bool.and_eq_true, decide_eq_true_eq] at hw ⊢
    exact ⟨⟨by omega, hw.1.2⟩, hw.2⟩

theorem Memory.wfFrom_set {b : Byte} (hb : b ≠ 0) : ∀ {m : List Host.Cell} {lo a : Nat}, lo ≤ a → Memory.wfFrom lo m = true →
    Memory.wfFrom lo (AMap.set m a b) = true
  | [], lo, a, h, _ => by simpa [AMap.set, Memory.wfFrom, h] using hb
  | (a', b') :: t, lo, a, h, hw => by
    simp only [Memory.wfFrom, Bool.and_eq_true, decide_eq_true_eq] at hw
    obtain ⟨⟨h1, h2⟩, h3⟩ := hw
    unfold AMap.set
    split
    · next e => subst e; simpa [Memory.wfFrom, h1, h3] using hb
    · split
      · next hne hlt =>
        simp only [Memory.wfFrom, Bool.and_eq_true, decide_eq_true_eq]
        exact ⟨⟨h, by simpa using hb⟩, ⟨by omega, h2⟩, h3⟩
      · next hne hlt =>
        simp only [Memory.wfFrom, Bool.and_eq_true, decide_eq_true_eq]
        exact ⟨⟨h1, h2⟩, Memory.wfFrom_set hb (by omega) h3⟩

theorem Memory.wfFrom_erase : ∀ {m : List Host.Cell} {lo : Nat} (a : Nat), Memory.wfFrom lo m = true →
    Memory.wfFrom lo (AMap.erase m a) = true
  | [], _, _, _ => rfl
  | (a', b') :: t, lo, a, hw => by
    simp only [Memory.wfFrom, Bool.and_eq_true, decide_eq_true_eq] at hw
    obtain ⟨⟨h1, h2⟩, h3⟩ := hw
    unfold AMap.erase
    split
    · exact Memory.wfFrom_mono (by omega) (Memory.wfFrom_erase a h3)
    · simp only [Memory.wfFrom, Bool.and_eq_true, decide_eq_true_eq]
      exact ⟨⟨h1, h2⟩, Memory.wfFrom_erase a h3⟩

/-- Writing a byte keeps the canonical form. -/
theorem Memory.wf_set {m : List Host.Cell} (a : Nat) (b : Byte) (h : Memory.wf m = true) : Memory.wf (Memory.set m a b) = true := by
  unfold Memory.set
  split
  · exact Memory.wfFrom_erase a h
  · next hb => exact Memory.wfFrom_set hb (Nat.zero_le _) h

/-- Writing bytes keeps the canonical form. -/
theorem Memory.wf_write (bs : List Byte) : ∀ {m : List Host.Cell} (a : Nat), Memory.wf m = true →
    Memory.wf (Memory.write m a bs) = true := by
  induction bs with
  | nil => intro m a h; exact h
  | cons b t ih => intro m a h; exact ih _ (Memory.wf_set a b h)

theorem Memory.wfFrom_filter (p : Host.Cell → Bool) : ∀ {m : List Host.Cell} {lo : Nat}, Memory.wfFrom lo m = true →
    Memory.wfFrom lo (m.filter p) = true
  | [], _, _ => rfl
  | (a, b) :: t, lo, hw => by
    simp only [Memory.wfFrom, Bool.and_eq_true, decide_eq_true_eq] at hw
    obtain ⟨⟨h1, h2⟩, h3⟩ := hw
    rw [List.filter_cons]
    split
    · simp only [Memory.wfFrom, Bool.and_eq_true, decide_eq_true_eq]
      exact ⟨⟨h1, h2⟩, Memory.wfFrom_filter p h3⟩
    · exact Memory.wfFrom_mono (by omega) (Memory.wfFrom_filter p h3)

/-- Zeroing a range keeps the canonical form. -/
theorem Memory.wf_zero {m : List Host.Cell} (lo hi : Nat) (h : Memory.wf m = true) : Memory.wf (Memory.zero m lo hi) = true :=
  Memory.wfFrom_filter _ h

/-- The canonical form of an empty memory. -/
@[simp] theorem Memory.wf_nil : Memory.wf [] = true := rfl

/-- After zeroing, a byte of the range reads zero and every other byte as before. -/
theorem Memory.get_zero (m : List Host.Cell) (lo hi j : Nat) :
    Memory.get (Memory.zero m lo hi) j = if lo ≤ j ∧ j < hi then 0 else Memory.get m j := by
  unfold Memory.zero Memory.get
  induction m with
  | nil => simp [AMap.get]
  | cons p t ih =>
    obtain ⟨a, b⟩ := p
    rw [List.filter_cons]
    by_cases hp : (decide (a < lo) || decide (hi ≤ a)) = true
    · rw [if_pos hp]
      by_cases hj : a = j
      · subst hj
        have : ¬ (lo ≤ a ∧ a < hi) := by simp at hp; omega
        simp [AMap.get, this]
      · simp only [AMap.get, hj, if_false]; exact ih
    · rw [if_neg hp, ih]
      by_cases hj : a = j
      · subst hj
        have : lo ≤ a ∧ a < hi := by simp at hp; omega
        simp [this]
      · simp [AMap.get, hj]

end Sys2Proof.Machine
end

