-- ==== Sys2Proof/Laws/Kept.lean ====
section
/-!
SUPPORT. What every operation on the state keeps: the invariant, the queue, the records already written, and what only grows. The
relation composes, so each operation has one lemma, and a command's is the composition of those of the operations it calls.
-/

namespace Sys2Proof.Machine
open Sys2Proof

theorem Same.trans {p : Part} {s t u : State} (a : Same p s t) (b : Same p t u) : Same p s u := by
  cases p <;> exact Eq.trans b a

/-- The state `t`, reached from `s`, keeps the invariant and the queue, alters no record, lowers nothing that only
grows (the plan floor, the lifecycle, the sealing fuse, the next record number, the draws taken), and differs from `s` in the
parts `T` at most. -/
structure Kept (T : List Part) (s t : State) : Prop where
  inv : s.Inv → t.Inv
  pending : t.pending = s.pending
  floor : s.dex.planFloor.toNat ≤ t.dex.planFloor.toNat
  life : s.dex.life.code ≤ t.dex.life.code
  sealed : s.dex.sealedFuse = true → t.dex.sealedFuse = true
  seq : s.box.next ≤ t.box.next
  records : ∀ r ∈ t.box.recs, r.seq < s.box.next → r ∈ s.box.recs
  draws : s.dex.draws ≤ t.dex.draws
  same : ∀ p, p ∉ T → Same p s t

theorem Kept.refl (T : List Part) (s : State) : Kept T s s :=
  ⟨id, rfl, Nat.le_refl _, Nat.le_refl _, id, Nat.le_refl _, fun _ h _ => h, Nat.le_refl _, fun p _ => by cases p <;> rfl⟩

theorem Kept.trans {T : List Part} {s t u : State} (a : Kept T s t) (b : Kept T t u) : Kept T s u :=
  ⟨fun h => b.inv (a.inv h), b.pending.trans a.pending, Nat.le_trans a.floor b.floor, Nat.le_trans a.life b.life,
    fun h => b.sealed (a.sealed h), Nat.le_trans a.seq b.seq, fun r h k => a.records r (b.records r h (Nat.lt_of_lt_of_le k a.seq)) k,
    Nat.le_trans a.draws b.draws, fun p hp => (a.same p hp).trans (b.same p hp)⟩

/-- More parts may differ. -/
theorem Kept.mono {T T' : List Part} {s t : State} (h : Kept T s t) (hT : T ⊆ T') : Kept T' s t :=
  ⟨h.inv, h.pending, h.floor, h.life, h.sealed, h.seq, h.records, h.draws, fun p hp => h.same p (fun k => hp (hT k))⟩

/-- A further operation. -/
theorem Kept.andThen {T T' : List Part} {s t u : State} (b : Kept T' t u) (hT : T' ⊆ T) (a : Kept T s t) : Kept T s u :=
  a.trans (b.mono hT)

theorem Kept.after {T : List Part} {s t u : State} (b : Kept T t u) (a : Kept T s t) : Kept T s u := a.trans b

/-- A change of parts other than interface memory, Dexfoti, the black box and the queue. -/
theorem Kept.upd {T : List Part} {s t : State} (h : Kept T s t) {power : Power} {sensors : AMap Sensor} {resetPin : Bool}
    {clocks : Clocks} {regions : AMap Region} {clusters : AMap ClusterSt} {plan : Plan} {hides : AMap HideSt} {acres : AMap Acre}
    {gates : Gates} {cxl : Cxl} {ports : AMap PortSt} {mgmt : Mgmt} {screen : Screen} {tap : Tap} {free : Nat}
    (h1 : Part.power ∈ T ∨ power = t.power) (h2 : Part.sensors ∈ T ∨ sensors = t.sensors)
    (h3 : Part.resetPin ∈ T ∨ resetPin = t.resetPin) (h4 : Part.clocks ∈ T ∨ clocks = t.clocks)
    (h5 : Part.regions ∈ T ∨ regions = t.regions) (h6 : Part.clusters ∈ T ∨ clusters = t.clusters)
    (h7 : Part.plan ∈ T ∨ plan = t.plan) (h8 : Part.hides ∈ T ∨ hides = t.hides) (h9 : Part.acres ∈ T ∨ acres = t.acres)
    (h10 : Part.gates ∈ T ∨ gates = t.gates) (h11 : Part.cxl ∈ T ∨ cxl = t.cxl) (h12 : Part.ports ∈ T ∨ ports = t.ports)
    (h13 : Part.mgmt ∈ T ∨ mgmt = t.mgmt) (h14 : Part.screen ∈ T ∨ screen = t.screen) (h15 : Part.tap ∈ T ∨ tap = t.tap)
    (h16 : Part.free ∈ T ∨ free = t.free) :
    Kept T s ⟨power, sensors, resetPin, clocks, regions, clusters, plan, hides, t.imem, acres, gates, cxl, ports, t.dex, mgmt, t.box,
      screen, tap, free, t.pending⟩ := by
  refine ⟨fun k => ⟨(h.inv k).memory, (h.inv k).box, (h.inv k).dex⟩, h.pending, h.floor, h.life, h.sealed, h.seq, h.records, h.draws,
    fun p hp => (h.same p hp).trans ?_⟩
  cases p <;> first | rfl | simp_all [Same]

/-- A change of Dexfoti, which lowers nothing and keeps its promise, with other parts. -/
theorem Kept.updDex {T : List Part} {s t : State} (h : Kept T s t) {power : Power} {sensors : AMap Sensor} {resetPin : Bool}
    {clocks : Clocks} {regions : AMap Region} {clusters : AMap ClusterSt} {plan : Plan} {hides : AMap HideSt} {acres : AMap Acre}
    {gates : Gates} {cxl : Cxl} {ports : AMap PortSt} {mgmt : Mgmt} {screen : Screen} {tap : Tap} {free : Nat} {dex : Dex}
    (h1 : Part.power ∈ T ∨ power = t.power) (h2 : Part.sensors ∈ T ∨ sensors = t.sensors)
    (h3 : Part.resetPin ∈ T ∨ resetPin = t.resetPin) (h4 : Part.clocks ∈ T ∨ clocks = t.clocks)
    (h5 : Part.regions ∈ T ∨ regions = t.regions) (h6 : Part.clusters ∈ T ∨ clusters = t.clusters)
    (h7 : Part.plan ∈ T ∨ plan = t.plan) (h8 : Part.hides ∈ T ∨ hides = t.hides) (h9 : Part.acres ∈ T ∨ acres = t.acres)
    (h10 : Part.gates ∈ T ∨ gates = t.gates) (h11 : Part.cxl ∈ T ∨ cxl = t.cxl) (h12 : Part.ports ∈ T ∨ ports = t.ports)
    (h13 : Part.mgmt ∈ T ∨ mgmt = t.mgmt) (h14 : Part.screen ∈ T ∨ screen = t.screen) (h15 : Part.tap ∈ T ∨ tap = t.tap)
    (h16 : Part.free ∈ T ∨ free = t.free) (hT : Part.dex ∈ T ∨ dex = t.dex) (hp : t.dex.Promise → dex.Promise)
    (hf : t.dex.planFloor.toNat ≤ dex.planFloor.toNat) (hl : t.dex.life.code ≤ dex.life.code)
    (hs : t.dex.sealedFuse = true → dex.sealedFuse = true) (hd : t.dex.draws ≤ dex.draws) :
    Kept T s ⟨power, sensors, resetPin, clocks, regions, clusters, plan, hides, t.imem, acres, gates, cxl, ports, dex, mgmt, t.box,
      screen, tap, free, t.pending⟩ := by
  refine ⟨fun k => ⟨(h.inv k).memory, (h.inv k).box, hp (h.inv k).dex⟩, h.pending, Nat.le_trans h.floor hf, Nat.le_trans h.life hl,
    fun k => hs (h.sealed k), h.seq, h.records, Nat.le_trans h.draws hd,
    fun p hp => (h.same p hp).trans ?_⟩
  cases p <;> first | rfl | simp_all [Same]

/-- A change of interface memory that keeps its canonical form. -/
theorem Kept.mem {T : List Part} {s t : State} (h : Kept T s t) (hT : Part.imem ∈ T) {m : List Host.Cell}
    (hm : Memory.wf t.imem = true → Memory.wf m = true) : Kept T s { t with imem := m } :=
  ⟨fun k => ⟨hm (h.inv k).memory, (h.inv k).box, (h.inv k).dex⟩, h.pending, h.floor, h.life, h.sealed, h.seq, h.records, h.draws,
    fun p hp => (h.same p hp).trans (by cases p <;> first | rfl | exact absurd hT hp)⟩

/-- A change of Dexfoti that lowers nothing and keeps its promise. -/
theorem Kept.dexUp {T : List Part} {s t : State} (h : Kept T s t) (hT : Part.dex ∈ T) {d : Dex} (hp : t.dex.Promise → d.Promise)
    (hf : t.dex.planFloor.toNat ≤ d.planFloor.toNat) (hl : t.dex.life.code ≤ d.life.code)
    (hs : t.dex.sealedFuse = true → d.sealedFuse = true) (hd : t.dex.draws ≤ d.draws) : Kept T s { t with dex := d } :=
  ⟨fun k => ⟨(h.inv k).memory, (h.inv k).box, hp (h.inv k).dex⟩, h.pending, Nat.le_trans h.floor hf, Nat.le_trans h.life hl,
    fun k => hs (h.sealed k), h.seq, h.records, Nat.le_trans h.draws hd,
    fun p hp => (h.same p hp).trans (by cases p <;> first | rfl | exact absurd hT hp)⟩

/-- A change of the black box that keeps it in order and alters no record. -/
theorem Kept.boxUp {T : List Part} {s t : State} (h : Kept T s t) (hT : Part.box ∈ T) {b : Box} (ho : t.box.InOrder → b.InOrder)
    (hn : t.box.next ≤ b.next) (hr : ∀ r ∈ b.recs, r.seq < t.box.next → r ∈ t.box.recs) : Kept T s { t with box := b } :=
  ⟨fun k => ⟨(h.inv k).memory, ho (h.inv k).box, (h.inv k).dex⟩, h.pending, h.floor, h.life, h.sealed, Nat.le_trans h.seq hn,
    fun r k l => h.records r (hr r k (Nat.lt_of_lt_of_le l h.seq)) l, h.draws,
    fun p hp => (h.same p hp).trans (by cases p <;> first | rfl | exact absurd hT hp)⟩

theorem Kept.ite {T : List Part} {s a b : State} {c : Prop} [Decidable c] (ha : Kept T s a) (hb : Kept T s b) :
    Kept T s (if c then a else b) := by
  split
  · exact ha
  · exact hb

/-- The state of a pair that an operation answers. -/
theorem Kept.via {α : Type} {T : List Part} {s t : State} {x : State × α} {r : α} (e : x = (t, r)) (h : Kept T s x.1) : Kept T s t := by
  rw [e] at h; exact h

theorem Kept.foldl {α : Type} {T : List Part} (f : State → α → State) (hf : ∀ s a, Kept T s (f s a)) (l : List α) :
    ∀ s, Kept T s (l.foldl f s) := by
  induction l with
  | nil => intro s; exact Kept.refl T s
  | cons a t ih => intro s; exact (hf s a).trans (ih _)

theorem Kept.foldlPair {α β : Type} {T : List Part} (f : State × β → α → State × β) (hf : ∀ p a, Kept T p.1 (f p a).1) (l : List α) :
    ∀ p, Kept T p.1 (l.foldl f p).1 := by
  induction l with
  | nil => intro p; exact Kept.refl T _
  | cons a t ih => intro p; exact (hf p a).trans (ih _)

/-- Appending a record of the next number keeps the black box in order and alters none. -/
theorem Box.append_inOrder (b : Box) (r : Rec) (hr : r.seq = b.next) (h : b.InOrder) : (b.append r).InOrder := by
  have key : ∀ l : List Rec, l.Pairwise (fun x y => x.seq < y.seq) → (∀ x ∈ l, x.seq < b.next) →
      (l ++ [r]).Pairwise (fun x y => x.seq < y.seq) ∧ ∀ x ∈ l ++ [r], x.seq < b.next + 1 := by
    intro l hp hb
    refine ⟨List.pairwise_append.2 ⟨hp, by simp, ?_⟩, ?_⟩
    · intro x hx y hy
      simp only [List.mem_singleton] at hy
      subst hy; rw [hr]; exact hb x hx
    · intro x hx
      simp only [List.mem_append, List.mem_singleton] at hx
      rcases hx with hx | rfl
      · exact Nat.lt_succ_of_lt (hb x hx)
      · omega
  obtain ⟨h1, h2, h3, h4, h5, h6⟩ := h
  unfold Box.append
  dsimp only
  split
  · next k z hg =>
    split
    · have := key _ h1 h2
      refine ⟨this.1, this.2, ?_, h4, h5, Nat.le_succ_of_le h6⟩
      simp only [List.length_append, List.length_dropLast, List.length_singleton]; omega
    · split
      · have := key _ h1 h2
        refine ⟨this.1, this.2, ?_, h4, h5, Nat.le_succ_of_le h6⟩
        simp only [List.length_append, List.length_singleton]; omega
      · have := key _ (List.Pairwise.sublist (List.drop_sublist (match b.segs with | (k, _) :: _ => k | [] => 0) _) h1)
          (fun x hx => h2 x (List.mem_of_mem_drop hx))
        refine ⟨this.1, this.2, ?_, h4, h5, Nat.le_succ_of_le h6⟩
        simp only [List.length_append, List.length_drop, List.length_singleton]; omega
  · refine ⟨by simp, ?_, by simp, h4, h5, Nat.le_succ_of_le h6⟩
    intro x hx
    simp only [List.mem_singleton] at hx
    subst hx; simp [hr]

theorem Box.append_next (b : Box) (r : Rec) : (b.append r).next = b.next + 1 := by
  unfold Box.append; dsimp only; split
  · split
    · rfl
    · split <;> rfl
  · rfl

/-- A record after an append is one of those before or the new one. -/
theorem Box.mem_append (b : Box) (r x : Rec) (h : x ∈ (b.append r).recs) : x ∈ b.recs ∨ x = r := by
  unfold Box.append at h; dsimp only at h; split at h
  · split at h
    · simpa using h
    · split at h
      · simpa using h
      · simp only [List.mem_append, List.mem_singleton] at h
        exact h.imp_left List.mem_of_mem_drop
  · exact Or.inr (by simpa using h)

/-- A record is written, and nothing but the black box and the messages sent changes. -/
theorem State.record_kept (s : State) (typ : Nat) (o : Origin) (region : Nat) (body : List Nat) :
    Kept [.mgmt, .box] s (s.record typ o region body) := by
  unfold State.record
  dsimp only
  refine Kept.upd (t := { s with box := s.box.append _ })
    ((Kept.refl _ s).boxUp (by decide) (Box.append_inOrder _ _ rfl) ?_ ?_) ?_ ?_ ?_ ?_ ?_ ?_ ?_ ?_ ?_ ?_ ?_ ?_ ?_ ?_ ?_ ?_
  · rw [Box.append_next]; omega
  · intro r hr hlt
    rcases Box.mem_append _ _ _ hr with h | h
    · exact h
    · subst h; simp at hlt
  all_goals first | exact Or.inr rfl | exact Or.inl (by decide)

theorem State.writeMem_kept (s : State) (h off : Nat) (bs : List Byte) : Kept [.imem] s (s.writeMem h off bs) :=
  (Kept.refl _ s).mem (by decide) (fun k => Memory.wf_write bs _ k)

theorem State.draw_kept (s : State) : Kept [.dex] s s.draw.1 :=
  (Kept.refl _ s).dexUp (by decide) id (Nat.le_refl _) (Nat.le_refl _) id (Nat.le_succ _)

end Sys2Proof.Machine
end

