-- ==== Sys2Proof/Laws/State.lean ====
section
/-!
SUPPORT. What each named update of the state does to each part of it: the part it changes reads as it was written, every other
part is the same. No later proof unfolds a record update.
-/

namespace Sys2Proof.Machine
open Sys2Proof

/-! ### setHide -/

@[simp] theorem State.setHide_power (s : State) (h : Nat) (x : HideSt) : (s.setHide h x).power = s.power := rfl
@[simp] theorem State.setHide_sensors (s : State) (h : Nat) (x : HideSt) : (s.setHide h x).sensors = s.sensors := rfl
@[simp] theorem State.setHide_resetPin (s : State) (h : Nat) (x : HideSt) : (s.setHide h x).resetPin = s.resetPin := rfl
@[simp] theorem State.setHide_clocks (s : State) (h : Nat) (x : HideSt) : (s.setHide h x).clocks = s.clocks := rfl
@[simp] theorem State.setHide_regions (s : State) (h : Nat) (x : HideSt) : (s.setHide h x).regions = s.regions := rfl
@[simp] theorem State.setHide_clusters (s : State) (h : Nat) (x : HideSt) : (s.setHide h x).clusters = s.clusters := rfl
@[simp] theorem State.setHide_plan (s : State) (h : Nat) (x : HideSt) : (s.setHide h x).plan = s.plan := rfl
@[simp] theorem State.setHide_imem (s : State) (h : Nat) (x : HideSt) : (s.setHide h x).imem = s.imem := rfl
@[simp] theorem State.setHide_acres (s : State) (h : Nat) (x : HideSt) : (s.setHide h x).acres = s.acres := rfl
@[simp] theorem State.setHide_gates (s : State) (h : Nat) (x : HideSt) : (s.setHide h x).gates = s.gates := rfl
@[simp] theorem State.setHide_cxl (s : State) (h : Nat) (x : HideSt) : (s.setHide h x).cxl = s.cxl := rfl
@[simp] theorem State.setHide_ports (s : State) (h : Nat) (x : HideSt) : (s.setHide h x).ports = s.ports := rfl
@[simp] theorem State.setHide_dex (s : State) (h : Nat) (x : HideSt) : (s.setHide h x).dex = s.dex := rfl
@[simp] theorem State.setHide_mgmt (s : State) (h : Nat) (x : HideSt) : (s.setHide h x).mgmt = s.mgmt := rfl
@[simp] theorem State.setHide_box (s : State) (h : Nat) (x : HideSt) : (s.setHide h x).box = s.box := rfl
@[simp] theorem State.setHide_screen (s : State) (h : Nat) (x : HideSt) : (s.setHide h x).screen = s.screen := rfl
@[simp] theorem State.setHide_tap (s : State) (h : Nat) (x : HideSt) : (s.setHide h x).tap = s.tap := rfl
@[simp] theorem State.setHide_free (s : State) (h : Nat) (x : HideSt) : (s.setHide h x).free = s.free := rfl
@[simp] theorem State.setHide_pending (s : State) (h : Nat) (x : HideSt) : (s.setHide h x).pending = s.pending := rfl
@[simp] theorem State.setHide_region (s : State) (h : Nat) (x : HideSt) (k : Nat) : (s.setHide h x).region k = s.region k := rfl
@[simp] theorem State.setHide_cluster (s : State) (h : Nat) (x : HideSt) (k : Nat) : (s.setHide h x).cluster k = s.cluster k := rfl
@[simp] theorem State.setHide_acre (s : State) (h : Nat) (x : HideSt) (k : Nat) : (s.setHide h x).acre k = s.acre k := rfl
@[simp] theorem State.setHide_port (s : State) (h : Nat) (x : HideSt) (k : Nat) : (s.setHide h x).port k = s.port k := rfl
@[simp] theorem State.setHide_ld (s : State) (h : Nat) (x : HideSt) (k : Nat) : (s.setHide h x).ld k = s.ld k := rfl

/-! ### upHide -/

@[simp] theorem State.upHide_power (s : State) (h : Nat) (f : HideSt → HideSt) : (s.upHide h f).power = s.power := rfl
@[simp] theorem State.upHide_sensors (s : State) (h : Nat) (f : HideSt → HideSt) : (s.upHide h f).sensors = s.sensors := rfl
@[simp] theorem State.upHide_resetPin (s : State) (h : Nat) (f : HideSt → HideSt) : (s.upHide h f).resetPin = s.resetPin := rfl
@[simp] theorem State.upHide_clocks (s : State) (h : Nat) (f : HideSt → HideSt) : (s.upHide h f).clocks = s.clocks := rfl
@[simp] theorem State.upHide_regions (s : State) (h : Nat) (f : HideSt → HideSt) : (s.upHide h f).regions = s.regions := rfl
@[simp] theorem State.upHide_clusters (s : State) (h : Nat) (f : HideSt → HideSt) : (s.upHide h f).clusters = s.clusters := rfl
@[simp] theorem State.upHide_plan (s : State) (h : Nat) (f : HideSt → HideSt) : (s.upHide h f).plan = s.plan := rfl
@[simp] theorem State.upHide_imem (s : State) (h : Nat) (f : HideSt → HideSt) : (s.upHide h f).imem = s.imem := rfl
@[simp] theorem State.upHide_acres (s : State) (h : Nat) (f : HideSt → HideSt) : (s.upHide h f).acres = s.acres := rfl
@[simp] theorem State.upHide_gates (s : State) (h : Nat) (f : HideSt → HideSt) : (s.upHide h f).gates = s.gates := rfl
@[simp] theorem State.upHide_cxl (s : State) (h : Nat) (f : HideSt → HideSt) : (s.upHide h f).cxl = s.cxl := rfl
@[simp] theorem State.upHide_ports (s : State) (h : Nat) (f : HideSt → HideSt) : (s.upHide h f).ports = s.ports := rfl
@[simp] theorem State.upHide_dex (s : State) (h : Nat) (f : HideSt → HideSt) : (s.upHide h f).dex = s.dex := rfl
@[simp] theorem State.upHide_mgmt (s : State) (h : Nat) (f : HideSt → HideSt) : (s.upHide h f).mgmt = s.mgmt := rfl
@[simp] theorem State.upHide_box (s : State) (h : Nat) (f : HideSt → HideSt) : (s.upHide h f).box = s.box := rfl
@[simp] theorem State.upHide_screen (s : State) (h : Nat) (f : HideSt → HideSt) : (s.upHide h f).screen = s.screen := rfl
@[simp] theorem State.upHide_tap (s : State) (h : Nat) (f : HideSt → HideSt) : (s.upHide h f).tap = s.tap := rfl
@[simp] theorem State.upHide_free (s : State) (h : Nat) (f : HideSt → HideSt) : (s.upHide h f).free = s.free := rfl
@[simp] theorem State.upHide_pending (s : State) (h : Nat) (f : HideSt → HideSt) : (s.upHide h f).pending = s.pending := rfl
@[simp] theorem State.upHide_region (s : State) (h : Nat) (f : HideSt → HideSt) (k : Nat) : (s.upHide h f).region k = s.region k := rfl
@[simp] theorem State.upHide_cluster (s : State) (h : Nat) (f : HideSt → HideSt) (k : Nat) : (s.upHide h f).cluster k = s.cluster k := rfl
@[simp] theorem State.upHide_acre (s : State) (h : Nat) (f : HideSt → HideSt) (k : Nat) : (s.upHide h f).acre k = s.acre k := rfl
@[simp] theorem State.upHide_port (s : State) (h : Nat) (f : HideSt → HideSt) (k : Nat) : (s.upHide h f).port k = s.port k := rfl
@[simp] theorem State.upHide_ld (s : State) (h : Nat) (f : HideSt → HideSt) (k : Nat) : (s.upHide h f).ld k = s.ld k := rfl

/-! ### upQ -/

@[simp] theorem State.upQ_power (s : State) (h : Nat) (f : QPart → QPart) : (s.upQ h f).power = s.power := rfl
@[simp] theorem State.upQ_sensors (s : State) (h : Nat) (f : QPart → QPart) : (s.upQ h f).sensors = s.sensors := rfl
@[simp] theorem State.upQ_resetPin (s : State) (h : Nat) (f : QPart → QPart) : (s.upQ h f).resetPin = s.resetPin := rfl
@[simp] theorem State.upQ_clocks (s : State) (h : Nat) (f : QPart → QPart) : (s.upQ h f).clocks = s.clocks := rfl
@[simp] theorem State.upQ_regions (s : State) (h : Nat) (f : QPart → QPart) : (s.upQ h f).regions = s.regions := rfl
@[simp] theorem State.upQ_clusters (s : State) (h : Nat) (f : QPart → QPart) : (s.upQ h f).clusters = s.clusters := rfl
@[simp] theorem State.upQ_plan (s : State) (h : Nat) (f : QPart → QPart) : (s.upQ h f).plan = s.plan := rfl
@[simp] theorem State.upQ_imem (s : State) (h : Nat) (f : QPart → QPart) : (s.upQ h f).imem = s.imem := rfl
@[simp] theorem State.upQ_acres (s : State) (h : Nat) (f : QPart → QPart) : (s.upQ h f).acres = s.acres := rfl
@[simp] theorem State.upQ_gates (s : State) (h : Nat) (f : QPart → QPart) : (s.upQ h f).gates = s.gates := rfl
@[simp] theorem State.upQ_cxl (s : State) (h : Nat) (f : QPart → QPart) : (s.upQ h f).cxl = s.cxl := rfl
@[simp] theorem State.upQ_ports (s : State) (h : Nat) (f : QPart → QPart) : (s.upQ h f).ports = s.ports := rfl
@[simp] theorem State.upQ_dex (s : State) (h : Nat) (f : QPart → QPart) : (s.upQ h f).dex = s.dex := rfl
@[simp] theorem State.upQ_mgmt (s : State) (h : Nat) (f : QPart → QPart) : (s.upQ h f).mgmt = s.mgmt := rfl
@[simp] theorem State.upQ_box (s : State) (h : Nat) (f : QPart → QPart) : (s.upQ h f).box = s.box := rfl
@[simp] theorem State.upQ_screen (s : State) (h : Nat) (f : QPart → QPart) : (s.upQ h f).screen = s.screen := rfl
@[simp] theorem State.upQ_tap (s : State) (h : Nat) (f : QPart → QPart) : (s.upQ h f).tap = s.tap := rfl
@[simp] theorem State.upQ_free (s : State) (h : Nat) (f : QPart → QPart) : (s.upQ h f).free = s.free := rfl
@[simp] theorem State.upQ_pending (s : State) (h : Nat) (f : QPart → QPart) : (s.upQ h f).pending = s.pending := rfl
@[simp] theorem State.upQ_region (s : State) (h : Nat) (f : QPart → QPart) (k : Nat) : (s.upQ h f).region k = s.region k := rfl
@[simp] theorem State.upQ_cluster (s : State) (h : Nat) (f : QPart → QPart) (k : Nat) : (s.upQ h f).cluster k = s.cluster k := rfl
@[simp] theorem State.upQ_acre (s : State) (h : Nat) (f : QPart → QPart) (k : Nat) : (s.upQ h f).acre k = s.acre k := rfl
@[simp] theorem State.upQ_port (s : State) (h : Nat) (f : QPart → QPart) (k : Nat) : (s.upQ h f).port k = s.port k := rfl
@[simp] theorem State.upQ_ld (s : State) (h : Nat) (f : QPart → QPart) (k : Nat) : (s.upQ h f).ld k = s.ld k := rfl

/-! ### upO -/

@[simp] theorem State.upO_power (s : State) (h : Nat) (f : OPart → OPart) : (s.upO h f).power = s.power := rfl
@[simp] theorem State.upO_sensors (s : State) (h : Nat) (f : OPart → OPart) : (s.upO h f).sensors = s.sensors := rfl
@[simp] theorem State.upO_resetPin (s : State) (h : Nat) (f : OPart → OPart) : (s.upO h f).resetPin = s.resetPin := rfl
@[simp] theorem State.upO_clocks (s : State) (h : Nat) (f : OPart → OPart) : (s.upO h f).clocks = s.clocks := rfl
@[simp] theorem State.upO_regions (s : State) (h : Nat) (f : OPart → OPart) : (s.upO h f).regions = s.regions := rfl
@[simp] theorem State.upO_clusters (s : State) (h : Nat) (f : OPart → OPart) : (s.upO h f).clusters = s.clusters := rfl
@[simp] theorem State.upO_plan (s : State) (h : Nat) (f : OPart → OPart) : (s.upO h f).plan = s.plan := rfl
@[simp] theorem State.upO_imem (s : State) (h : Nat) (f : OPart → OPart) : (s.upO h f).imem = s.imem := rfl
@[simp] theorem State.upO_acres (s : State) (h : Nat) (f : OPart → OPart) : (s.upO h f).acres = s.acres := rfl
@[simp] theorem State.upO_gates (s : State) (h : Nat) (f : OPart → OPart) : (s.upO h f).gates = s.gates := rfl
@[simp] theorem State.upO_cxl (s : State) (h : Nat) (f : OPart → OPart) : (s.upO h f).cxl = s.cxl := rfl
@[simp] theorem State.upO_ports (s : State) (h : Nat) (f : OPart → OPart) : (s.upO h f).ports = s.ports := rfl
@[simp] theorem State.upO_dex (s : State) (h : Nat) (f : OPart → OPart) : (s.upO h f).dex = s.dex := rfl
@[simp] theorem State.upO_mgmt (s : State) (h : Nat) (f : OPart → OPart) : (s.upO h f).mgmt = s.mgmt := rfl
@[simp] theorem State.upO_box (s : State) (h : Nat) (f : OPart → OPart) : (s.upO h f).box = s.box := rfl
@[simp] theorem State.upO_screen (s : State) (h : Nat) (f : OPart → OPart) : (s.upO h f).screen = s.screen := rfl
@[simp] theorem State.upO_tap (s : State) (h : Nat) (f : OPart → OPart) : (s.upO h f).tap = s.tap := rfl
@[simp] theorem State.upO_free (s : State) (h : Nat) (f : OPart → OPart) : (s.upO h f).free = s.free := rfl
@[simp] theorem State.upO_pending (s : State) (h : Nat) (f : OPart → OPart) : (s.upO h f).pending = s.pending := rfl
@[simp] theorem State.upO_region (s : State) (h : Nat) (f : OPart → OPart) (k : Nat) : (s.upO h f).region k = s.region k := rfl
@[simp] theorem State.upO_cluster (s : State) (h : Nat) (f : OPart → OPart) (k : Nat) : (s.upO h f).cluster k = s.cluster k := rfl
@[simp] theorem State.upO_acre (s : State) (h : Nat) (f : OPart → OPart) (k : Nat) : (s.upO h f).acre k = s.acre k := rfl
@[simp] theorem State.upO_port (s : State) (h : Nat) (f : OPart → OPart) (k : Nat) : (s.upO h f).port k = s.port k := rfl
@[simp] theorem State.upO_ld (s : State) (h : Nat) (f : OPart → OPart) (k : Nat) : (s.upO h f).ld k = s.ld k := rfl

/-! ### upA -/

@[simp] theorem State.upA_power (s : State) (h : Nat) (f : APart → APart) : (s.upA h f).power = s.power := rfl
@[simp] theorem State.upA_sensors (s : State) (h : Nat) (f : APart → APart) : (s.upA h f).sensors = s.sensors := rfl
@[simp] theorem State.upA_resetPin (s : State) (h : Nat) (f : APart → APart) : (s.upA h f).resetPin = s.resetPin := rfl
@[simp] theorem State.upA_clocks (s : State) (h : Nat) (f : APart → APart) : (s.upA h f).clocks = s.clocks := rfl
@[simp] theorem State.upA_regions (s : State) (h : Nat) (f : APart → APart) : (s.upA h f).regions = s.regions := rfl
@[simp] theorem State.upA_clusters (s : State) (h : Nat) (f : APart → APart) : (s.upA h f).clusters = s.clusters := rfl
@[simp] theorem State.upA_plan (s : State) (h : Nat) (f : APart → APart) : (s.upA h f).plan = s.plan := rfl
@[simp] theorem State.upA_imem (s : State) (h : Nat) (f : APart → APart) : (s.upA h f).imem = s.imem := rfl
@[simp] theorem State.upA_acres (s : State) (h : Nat) (f : APart → APart) : (s.upA h f).acres = s.acres := rfl
@[simp] theorem State.upA_gates (s : State) (h : Nat) (f : APart → APart) : (s.upA h f).gates = s.gates := rfl
@[simp] theorem State.upA_cxl (s : State) (h : Nat) (f : APart → APart) : (s.upA h f).cxl = s.cxl := rfl
@[simp] theorem State.upA_ports (s : State) (h : Nat) (f : APart → APart) : (s.upA h f).ports = s.ports := rfl
@[simp] theorem State.upA_dex (s : State) (h : Nat) (f : APart → APart) : (s.upA h f).dex = s.dex := rfl
@[simp] theorem State.upA_mgmt (s : State) (h : Nat) (f : APart → APart) : (s.upA h f).mgmt = s.mgmt := rfl
@[simp] theorem State.upA_box (s : State) (h : Nat) (f : APart → APart) : (s.upA h f).box = s.box := rfl
@[simp] theorem State.upA_screen (s : State) (h : Nat) (f : APart → APart) : (s.upA h f).screen = s.screen := rfl
@[simp] theorem State.upA_tap (s : State) (h : Nat) (f : APart → APart) : (s.upA h f).tap = s.tap := rfl
@[simp] theorem State.upA_free (s : State) (h : Nat) (f : APart → APart) : (s.upA h f).free = s.free := rfl
@[simp] theorem State.upA_pending (s : State) (h : Nat) (f : APart → APart) : (s.upA h f).pending = s.pending := rfl
@[simp] theorem State.upA_region (s : State) (h : Nat) (f : APart → APart) (k : Nat) : (s.upA h f).region k = s.region k := rfl
@[simp] theorem State.upA_cluster (s : State) (h : Nat) (f : APart → APart) (k : Nat) : (s.upA h f).cluster k = s.cluster k := rfl
@[simp] theorem State.upA_acre (s : State) (h : Nat) (f : APart → APart) (k : Nat) : (s.upA h f).acre k = s.acre k := rfl
@[simp] theorem State.upA_port (s : State) (h : Nat) (f : APart → APart) (k : Nat) : (s.upA h f).port k = s.port k := rfl
@[simp] theorem State.upA_ld (s : State) (h : Nat) (f : APart → APart) (k : Nat) : (s.upA h f).ld k = s.ld k := rfl

/-! ### upK -/

@[simp] theorem State.upK_power (s : State) (h : Nat) (f : KPart → KPart) : (s.upK h f).power = s.power := rfl
@[simp] theorem State.upK_sensors (s : State) (h : Nat) (f : KPart → KPart) : (s.upK h f).sensors = s.sensors := rfl
@[simp] theorem State.upK_resetPin (s : State) (h : Nat) (f : KPart → KPart) : (s.upK h f).resetPin = s.resetPin := rfl
@[simp] theorem State.upK_clocks (s : State) (h : Nat) (f : KPart → KPart) : (s.upK h f).clocks = s.clocks := rfl
@[simp] theorem State.upK_regions (s : State) (h : Nat) (f : KPart → KPart) : (s.upK h f).regions = s.regions := rfl
@[simp] theorem State.upK_clusters (s : State) (h : Nat) (f : KPart → KPart) : (s.upK h f).clusters = s.clusters := rfl
@[simp] theorem State.upK_plan (s : State) (h : Nat) (f : KPart → KPart) : (s.upK h f).plan = s.plan := rfl
@[simp] theorem State.upK_imem (s : State) (h : Nat) (f : KPart → KPart) : (s.upK h f).imem = s.imem := rfl
@[simp] theorem State.upK_acres (s : State) (h : Nat) (f : KPart → KPart) : (s.upK h f).acres = s.acres := rfl
@[simp] theorem State.upK_gates (s : State) (h : Nat) (f : KPart → KPart) : (s.upK h f).gates = s.gates := rfl
@[simp] theorem State.upK_cxl (s : State) (h : Nat) (f : KPart → KPart) : (s.upK h f).cxl = s.cxl := rfl
@[simp] theorem State.upK_ports (s : State) (h : Nat) (f : KPart → KPart) : (s.upK h f).ports = s.ports := rfl
@[simp] theorem State.upK_dex (s : State) (h : Nat) (f : KPart → KPart) : (s.upK h f).dex = s.dex := rfl
@[simp] theorem State.upK_mgmt (s : State) (h : Nat) (f : KPart → KPart) : (s.upK h f).mgmt = s.mgmt := rfl
@[simp] theorem State.upK_box (s : State) (h : Nat) (f : KPart → KPart) : (s.upK h f).box = s.box := rfl
@[simp] theorem State.upK_screen (s : State) (h : Nat) (f : KPart → KPart) : (s.upK h f).screen = s.screen := rfl
@[simp] theorem State.upK_tap (s : State) (h : Nat) (f : KPart → KPart) : (s.upK h f).tap = s.tap := rfl
@[simp] theorem State.upK_free (s : State) (h : Nat) (f : KPart → KPart) : (s.upK h f).free = s.free := rfl
@[simp] theorem State.upK_pending (s : State) (h : Nat) (f : KPart → KPart) : (s.upK h f).pending = s.pending := rfl
@[simp] theorem State.upK_region (s : State) (h : Nat) (f : KPart → KPart) (k : Nat) : (s.upK h f).region k = s.region k := rfl
@[simp] theorem State.upK_cluster (s : State) (h : Nat) (f : KPart → KPart) (k : Nat) : (s.upK h f).cluster k = s.cluster k := rfl
@[simp] theorem State.upK_acre (s : State) (h : Nat) (f : KPart → KPart) (k : Nat) : (s.upK h f).acre k = s.acre k := rfl
@[simp] theorem State.upK_port (s : State) (h : Nat) (f : KPart → KPart) (k : Nat) : (s.upK h f).port k = s.port k := rfl
@[simp] theorem State.upK_ld (s : State) (h : Nat) (f : KPart → KPart) (k : Nat) : (s.upK h f).ld k = s.ld k := rfl

/-! ### upC -/

@[simp] theorem State.upC_power (s : State) (h : Nat) (f : CPart → CPart) : (s.upC h f).power = s.power := rfl
@[simp] theorem State.upC_sensors (s : State) (h : Nat) (f : CPart → CPart) : (s.upC h f).sensors = s.sensors := rfl
@[simp] theorem State.upC_resetPin (s : State) (h : Nat) (f : CPart → CPart) : (s.upC h f).resetPin = s.resetPin := rfl
@[simp] theorem State.upC_clocks (s : State) (h : Nat) (f : CPart → CPart) : (s.upC h f).clocks = s.clocks := rfl
@[simp] theorem State.upC_regions (s : State) (h : Nat) (f : CPart → CPart) : (s.upC h f).regions = s.regions := rfl
@[simp] theorem State.upC_clusters (s : State) (h : Nat) (f : CPart → CPart) : (s.upC h f).clusters = s.clusters := rfl
@[simp] theorem State.upC_plan (s : State) (h : Nat) (f : CPart → CPart) : (s.upC h f).plan = s.plan := rfl
@[simp] theorem State.upC_imem (s : State) (h : Nat) (f : CPart → CPart) : (s.upC h f).imem = s.imem := rfl
@[simp] theorem State.upC_acres (s : State) (h : Nat) (f : CPart → CPart) : (s.upC h f).acres = s.acres := rfl
@[simp] theorem State.upC_gates (s : State) (h : Nat) (f : CPart → CPart) : (s.upC h f).gates = s.gates := rfl
@[simp] theorem State.upC_cxl (s : State) (h : Nat) (f : CPart → CPart) : (s.upC h f).cxl = s.cxl := rfl
@[simp] theorem State.upC_ports (s : State) (h : Nat) (f : CPart → CPart) : (s.upC h f).ports = s.ports := rfl
@[simp] theorem State.upC_dex (s : State) (h : Nat) (f : CPart → CPart) : (s.upC h f).dex = s.dex := rfl
@[simp] theorem State.upC_mgmt (s : State) (h : Nat) (f : CPart → CPart) : (s.upC h f).mgmt = s.mgmt := rfl
@[simp] theorem State.upC_box (s : State) (h : Nat) (f : CPart → CPart) : (s.upC h f).box = s.box := rfl
@[simp] theorem State.upC_screen (s : State) (h : Nat) (f : CPart → CPart) : (s.upC h f).screen = s.screen := rfl
@[simp] theorem State.upC_tap (s : State) (h : Nat) (f : CPart → CPart) : (s.upC h f).tap = s.tap := rfl
@[simp] theorem State.upC_free (s : State) (h : Nat) (f : CPart → CPart) : (s.upC h f).free = s.free := rfl
@[simp] theorem State.upC_pending (s : State) (h : Nat) (f : CPart → CPart) : (s.upC h f).pending = s.pending := rfl
@[simp] theorem State.upC_region (s : State) (h : Nat) (f : CPart → CPart) (k : Nat) : (s.upC h f).region k = s.region k := rfl
@[simp] theorem State.upC_cluster (s : State) (h : Nat) (f : CPart → CPart) (k : Nat) : (s.upC h f).cluster k = s.cluster k := rfl
@[simp] theorem State.upC_acre (s : State) (h : Nat) (f : CPart → CPart) (k : Nat) : (s.upC h f).acre k = s.acre k := rfl
@[simp] theorem State.upC_port (s : State) (h : Nat) (f : CPart → CPart) (k : Nat) : (s.upC h f).port k = s.port k := rfl
@[simp] theorem State.upC_ld (s : State) (h : Nat) (f : CPart → CPart) (k : Nat) : (s.upC h f).ld k = s.ld k := rfl

/-! ### upRegion -/

@[simp] theorem State.upRegion_power (s : State) (r : Nat) (f : Region → Region) : (s.upRegion r f).power = s.power := rfl
@[simp] theorem State.upRegion_sensors (s : State) (r : Nat) (f : Region → Region) : (s.upRegion r f).sensors = s.sensors := rfl
@[simp] theorem State.upRegion_resetPin (s : State) (r : Nat) (f : Region → Region) : (s.upRegion r f).resetPin = s.resetPin := rfl
@[simp] theorem State.upRegion_clocks (s : State) (r : Nat) (f : Region → Region) : (s.upRegion r f).clocks = s.clocks := rfl
@[simp] theorem State.upRegion_clusters (s : State) (r : Nat) (f : Region → Region) : (s.upRegion r f).clusters = s.clusters := rfl
@[simp] theorem State.upRegion_plan (s : State) (r : Nat) (f : Region → Region) : (s.upRegion r f).plan = s.plan := rfl
@[simp] theorem State.upRegion_hides (s : State) (r : Nat) (f : Region → Region) : (s.upRegion r f).hides = s.hides := rfl
@[simp] theorem State.upRegion_imem (s : State) (r : Nat) (f : Region → Region) : (s.upRegion r f).imem = s.imem := rfl
@[simp] theorem State.upRegion_acres (s : State) (r : Nat) (f : Region → Region) : (s.upRegion r f).acres = s.acres := rfl
@[simp] theorem State.upRegion_gates (s : State) (r : Nat) (f : Region → Region) : (s.upRegion r f).gates = s.gates := rfl
@[simp] theorem State.upRegion_cxl (s : State) (r : Nat) (f : Region → Region) : (s.upRegion r f).cxl = s.cxl := rfl
@[simp] theorem State.upRegion_ports (s : State) (r : Nat) (f : Region → Region) : (s.upRegion r f).ports = s.ports := rfl
@[simp] theorem State.upRegion_dex (s : State) (r : Nat) (f : Region → Region) : (s.upRegion r f).dex = s.dex := rfl
@[simp] theorem State.upRegion_mgmt (s : State) (r : Nat) (f : Region → Region) : (s.upRegion r f).mgmt = s.mgmt := rfl
@[simp] theorem State.upRegion_box (s : State) (r : Nat) (f : Region → Region) : (s.upRegion r f).box = s.box := rfl
@[simp] theorem State.upRegion_screen (s : State) (r : Nat) (f : Region → Region) : (s.upRegion r f).screen = s.screen := rfl
@[simp] theorem State.upRegion_tap (s : State) (r : Nat) (f : Region → Region) : (s.upRegion r f).tap = s.tap := rfl
@[simp] theorem State.upRegion_free (s : State) (r : Nat) (f : Region → Region) : (s.upRegion r f).free = s.free := rfl
@[simp] theorem State.upRegion_pending (s : State) (r : Nat) (f : Region → Region) : (s.upRegion r f).pending = s.pending := rfl
@[simp] theorem State.upRegion_hide (s : State) (r : Nat) (f : Region → Region) (k : Nat) : (s.upRegion r f).hide k = s.hide k := rfl
@[simp] theorem State.upRegion_cluster (s : State) (r : Nat) (f : Region → Region) (k : Nat) : (s.upRegion r f).cluster k = s.cluster k := rfl
@[simp] theorem State.upRegion_acre (s : State) (r : Nat) (f : Region → Region) (k : Nat) : (s.upRegion r f).acre k = s.acre k := rfl
@[simp] theorem State.upRegion_port (s : State) (r : Nat) (f : Region → Region) (k : Nat) : (s.upRegion r f).port k = s.port k := rfl
@[simp] theorem State.upRegion_ld (s : State) (r : Nat) (f : Region → Region) (k : Nat) : (s.upRegion r f).ld k = s.ld k := rfl

/-! ### upCluster -/

@[simp] theorem State.upCluster_power (s : State) (c : Nat) (f : ClusterSt → ClusterSt) : (s.upCluster c f).power = s.power := rfl
@[simp] theorem State.upCluster_sensors (s : State) (c : Nat) (f : ClusterSt → ClusterSt) : (s.upCluster c f).sensors = s.sensors := rfl
@[simp] theorem State.upCluster_resetPin (s : State) (c : Nat) (f : ClusterSt → ClusterSt) : (s.upCluster c f).resetPin = s.resetPin := rfl
@[simp] theorem State.upCluster_clocks (s : State) (c : Nat) (f : ClusterSt → ClusterSt) : (s.upCluster c f).clocks = s.clocks := rfl
@[simp] theorem State.upCluster_regions (s : State) (c : Nat) (f : ClusterSt → ClusterSt) : (s.upCluster c f).regions = s.regions := rfl
@[simp] theorem State.upCluster_plan (s : State) (c : Nat) (f : ClusterSt → ClusterSt) : (s.upCluster c f).plan = s.plan := rfl
@[simp] theorem State.upCluster_hides (s : State) (c : Nat) (f : ClusterSt → ClusterSt) : (s.upCluster c f).hides = s.hides := rfl
@[simp] theorem State.upCluster_imem (s : State) (c : Nat) (f : ClusterSt → ClusterSt) : (s.upCluster c f).imem = s.imem := rfl
@[simp] theorem State.upCluster_acres (s : State) (c : Nat) (f : ClusterSt → ClusterSt) : (s.upCluster c f).acres = s.acres := rfl
@[simp] theorem State.upCluster_gates (s : State) (c : Nat) (f : ClusterSt → ClusterSt) : (s.upCluster c f).gates = s.gates := rfl
@[simp] theorem State.upCluster_cxl (s : State) (c : Nat) (f : ClusterSt → ClusterSt) : (s.upCluster c f).cxl = s.cxl := rfl
@[simp] theorem State.upCluster_ports (s : State) (c : Nat) (f : ClusterSt → ClusterSt) : (s.upCluster c f).ports = s.ports := rfl
@[simp] theorem State.upCluster_dex (s : State) (c : Nat) (f : ClusterSt → ClusterSt) : (s.upCluster c f).dex = s.dex := rfl
@[simp] theorem State.upCluster_mgmt (s : State) (c : Nat) (f : ClusterSt → ClusterSt) : (s.upCluster c f).mgmt = s.mgmt := rfl
@[simp] theorem State.upCluster_box (s : State) (c : Nat) (f : ClusterSt → ClusterSt) : (s.upCluster c f).box = s.box := rfl
@[simp] theorem State.upCluster_screen (s : State) (c : Nat) (f : ClusterSt → ClusterSt) : (s.upCluster c f).screen = s.screen := rfl
@[simp] theorem State.upCluster_tap (s : State) (c : Nat) (f : ClusterSt → ClusterSt) : (s.upCluster c f).tap = s.tap := rfl
@[simp] theorem State.upCluster_free (s : State) (c : Nat) (f : ClusterSt → ClusterSt) : (s.upCluster c f).free = s.free := rfl
@[simp] theorem State.upCluster_pending (s : State) (c : Nat) (f : ClusterSt → ClusterSt) : (s.upCluster c f).pending = s.pending := rfl
@[simp] theorem State.upCluster_hide (s : State) (c : Nat) (f : ClusterSt → ClusterSt) (k : Nat) : (s.upCluster c f).hide k = s.hide k := rfl
@[simp] theorem State.upCluster_region (s : State) (c : Nat) (f : ClusterSt → ClusterSt) (k : Nat) : (s.upCluster c f).region k = s.region k := rfl
@[simp] theorem State.upCluster_acre (s : State) (c : Nat) (f : ClusterSt → ClusterSt) (k : Nat) : (s.upCluster c f).acre k = s.acre k := rfl
@[simp] theorem State.upCluster_port (s : State) (c : Nat) (f : ClusterSt → ClusterSt) (k : Nat) : (s.upCluster c f).port k = s.port k := rfl
@[simp] theorem State.upCluster_ld (s : State) (c : Nat) (f : ClusterSt → ClusterSt) (k : Nat) : (s.upCluster c f).ld k = s.ld k := rfl

/-! ### upAcre -/

@[simp] theorem State.upAcre_power (s : State) (a : Nat) (f : Acre → Acre) : (s.upAcre a f).power = s.power := rfl
@[simp] theorem State.upAcre_sensors (s : State) (a : Nat) (f : Acre → Acre) : (s.upAcre a f).sensors = s.sensors := rfl
@[simp] theorem State.upAcre_resetPin (s : State) (a : Nat) (f : Acre → Acre) : (s.upAcre a f).resetPin = s.resetPin := rfl
@[simp] theorem State.upAcre_clocks (s : State) (a : Nat) (f : Acre → Acre) : (s.upAcre a f).clocks = s.clocks := rfl
@[simp] theorem State.upAcre_regions (s : State) (a : Nat) (f : Acre → Acre) : (s.upAcre a f).regions = s.regions := rfl
@[simp] theorem State.upAcre_clusters (s : State) (a : Nat) (f : Acre → Acre) : (s.upAcre a f).clusters = s.clusters := rfl
@[simp] theorem State.upAcre_plan (s : State) (a : Nat) (f : Acre → Acre) : (s.upAcre a f).plan = s.plan := rfl
@[simp] theorem State.upAcre_hides (s : State) (a : Nat) (f : Acre → Acre) : (s.upAcre a f).hides = s.hides := rfl
@[simp] theorem State.upAcre_imem (s : State) (a : Nat) (f : Acre → Acre) : (s.upAcre a f).imem = s.imem := rfl
@[simp] theorem State.upAcre_gates (s : State) (a : Nat) (f : Acre → Acre) : (s.upAcre a f).gates = s.gates := rfl
@[simp] theorem State.upAcre_cxl (s : State) (a : Nat) (f : Acre → Acre) : (s.upAcre a f).cxl = s.cxl := rfl
@[simp] theorem State.upAcre_ports (s : State) (a : Nat) (f : Acre → Acre) : (s.upAcre a f).ports = s.ports := rfl
@[simp] theorem State.upAcre_dex (s : State) (a : Nat) (f : Acre → Acre) : (s.upAcre a f).dex = s.dex := rfl
@[simp] theorem State.upAcre_mgmt (s : State) (a : Nat) (f : Acre → Acre) : (s.upAcre a f).mgmt = s.mgmt := rfl
@[simp] theorem State.upAcre_box (s : State) (a : Nat) (f : Acre → Acre) : (s.upAcre a f).box = s.box := rfl
@[simp] theorem State.upAcre_screen (s : State) (a : Nat) (f : Acre → Acre) : (s.upAcre a f).screen = s.screen := rfl
@[simp] theorem State.upAcre_tap (s : State) (a : Nat) (f : Acre → Acre) : (s.upAcre a f).tap = s.tap := rfl
@[simp] theorem State.upAcre_free (s : State) (a : Nat) (f : Acre → Acre) : (s.upAcre a f).free = s.free := rfl
@[simp] theorem State.upAcre_pending (s : State) (a : Nat) (f : Acre → Acre) : (s.upAcre a f).pending = s.pending := rfl
@[simp] theorem State.upAcre_hide (s : State) (a : Nat) (f : Acre → Acre) (k : Nat) : (s.upAcre a f).hide k = s.hide k := rfl
@[simp] theorem State.upAcre_region (s : State) (a : Nat) (f : Acre → Acre) (k : Nat) : (s.upAcre a f).region k = s.region k := rfl
@[simp] theorem State.upAcre_cluster (s : State) (a : Nat) (f : Acre → Acre) (k : Nat) : (s.upAcre a f).cluster k = s.cluster k := rfl
@[simp] theorem State.upAcre_port (s : State) (a : Nat) (f : Acre → Acre) (k : Nat) : (s.upAcre a f).port k = s.port k := rfl
@[simp] theorem State.upAcre_ld (s : State) (a : Nat) (f : Acre → Acre) (k : Nat) : (s.upAcre a f).ld k = s.ld k := rfl

/-! ### upPort -/

@[simp] theorem State.upPort_power (s : State) (p : Nat) (f : PortSt → PortSt) : (s.upPort p f).power = s.power := rfl
@[simp] theorem State.upPort_sensors (s : State) (p : Nat) (f : PortSt → PortSt) : (s.upPort p f).sensors = s.sensors := rfl
@[simp] theorem State.upPort_resetPin (s : State) (p : Nat) (f : PortSt → PortSt) : (s.upPort p f).resetPin = s.resetPin := rfl
@[simp] theorem State.upPort_clocks (s : State) (p : Nat) (f : PortSt → PortSt) : (s.upPort p f).clocks = s.clocks := rfl
@[simp] theorem State.upPort_regions (s : State) (p : Nat) (f : PortSt → PortSt) : (s.upPort p f).regions = s.regions := rfl
@[simp] theorem State.upPort_clusters (s : State) (p : Nat) (f : PortSt → PortSt) : (s.upPort p f).clusters = s.clusters := rfl
@[simp] theorem State.upPort_plan (s : State) (p : Nat) (f : PortSt → PortSt) : (s.upPort p f).plan = s.plan := rfl
@[simp] theorem State.upPort_hides (s : State) (p : Nat) (f : PortSt → PortSt) : (s.upPort p f).hides = s.hides := rfl
@[simp] theorem State.upPort_imem (s : State) (p : Nat) (f : PortSt → PortSt) : (s.upPort p f).imem = s.imem := rfl
@[simp] theorem State.upPort_acres (s : State) (p : Nat) (f : PortSt → PortSt) : (s.upPort p f).acres = s.acres := rfl
@[simp] theorem State.upPort_gates (s : State) (p : Nat) (f : PortSt → PortSt) : (s.upPort p f).gates = s.gates := rfl
@[simp] theorem State.upPort_cxl (s : State) (p : Nat) (f : PortSt → PortSt) : (s.upPort p f).cxl = s.cxl := rfl
@[simp] theorem State.upPort_dex (s : State) (p : Nat) (f : PortSt → PortSt) : (s.upPort p f).dex = s.dex := rfl
@[simp] theorem State.upPort_mgmt (s : State) (p : Nat) (f : PortSt → PortSt) : (s.upPort p f).mgmt = s.mgmt := rfl
@[simp] theorem State.upPort_box (s : State) (p : Nat) (f : PortSt → PortSt) : (s.upPort p f).box = s.box := rfl
@[simp] theorem State.upPort_screen (s : State) (p : Nat) (f : PortSt → PortSt) : (s.upPort p f).screen = s.screen := rfl
@[simp] theorem State.upPort_tap (s : State) (p : Nat) (f : PortSt → PortSt) : (s.upPort p f).tap = s.tap := rfl
@[simp] theorem State.upPort_free (s : State) (p : Nat) (f : PortSt → PortSt) : (s.upPort p f).free = s.free := rfl
@[simp] theorem State.upPort_pending (s : State) (p : Nat) (f : PortSt → PortSt) : (s.upPort p f).pending = s.pending := rfl
@[simp] theorem State.upPort_hide (s : State) (p : Nat) (f : PortSt → PortSt) (k : Nat) : (s.upPort p f).hide k = s.hide k := rfl
@[simp] theorem State.upPort_region (s : State) (p : Nat) (f : PortSt → PortSt) (k : Nat) : (s.upPort p f).region k = s.region k := rfl
@[simp] theorem State.upPort_cluster (s : State) (p : Nat) (f : PortSt → PortSt) (k : Nat) : (s.upPort p f).cluster k = s.cluster k := rfl
@[simp] theorem State.upPort_acre (s : State) (p : Nat) (f : PortSt → PortSt) (k : Nat) : (s.upPort p f).acre k = s.acre k := rfl
@[simp] theorem State.upPort_ld (s : State) (p : Nat) (f : PortSt → PortSt) (k : Nat) : (s.upPort p f).ld k = s.ld k := rfl

/-! ### upLd -/

@[simp] theorem State.upLd_power (s : State) (l : Nat) (f : LdSt → LdSt) : (s.upLd l f).power = s.power := rfl
@[simp] theorem State.upLd_sensors (s : State) (l : Nat) (f : LdSt → LdSt) : (s.upLd l f).sensors = s.sensors := rfl
@[simp] theorem State.upLd_resetPin (s : State) (l : Nat) (f : LdSt → LdSt) : (s.upLd l f).resetPin = s.resetPin := rfl
@[simp] theorem State.upLd_clocks (s : State) (l : Nat) (f : LdSt → LdSt) : (s.upLd l f).clocks = s.clocks := rfl
@[simp] theorem State.upLd_regions (s : State) (l : Nat) (f : LdSt → LdSt) : (s.upLd l f).regions = s.regions := rfl
@[simp] theorem State.upLd_clusters (s : State) (l : Nat) (f : LdSt → LdSt) : (s.upLd l f).clusters = s.clusters := rfl
@[simp] theorem State.upLd_plan (s : State) (l : Nat) (f : LdSt → LdSt) : (s.upLd l f).plan = s.plan := rfl
@[simp] theorem State.upLd_hides (s : State) (l : Nat) (f : LdSt → LdSt) : (s.upLd l f).hides = s.hides := rfl
@[simp] theorem State.upLd_imem (s : State) (l : Nat) (f : LdSt → LdSt) : (s.upLd l f).imem = s.imem := rfl
@[simp] theorem State.upLd_acres (s : State) (l : Nat) (f : LdSt → LdSt) : (s.upLd l f).acres = s.acres := rfl
@[simp] theorem State.upLd_gates (s : State) (l : Nat) (f : LdSt → LdSt) : (s.upLd l f).gates = s.gates := rfl
@[simp] theorem State.upLd_ports (s : State) (l : Nat) (f : LdSt → LdSt) : (s.upLd l f).ports = s.ports := rfl
@[simp] theorem State.upLd_dex (s : State) (l : Nat) (f : LdSt → LdSt) : (s.upLd l f).dex = s.dex := rfl
@[simp] theorem State.upLd_mgmt (s : State) (l : Nat) (f : LdSt → LdSt) : (s.upLd l f).mgmt = s.mgmt := rfl
@[simp] theorem State.upLd_box (s : State) (l : Nat) (f : LdSt → LdSt) : (s.upLd l f).box = s.box := rfl
@[simp] theorem State.upLd_screen (s : State) (l : Nat) (f : LdSt → LdSt) : (s.upLd l f).screen = s.screen := rfl
@[simp] theorem State.upLd_tap (s : State) (l : Nat) (f : LdSt → LdSt) : (s.upLd l f).tap = s.tap := rfl
@[simp] theorem State.upLd_free (s : State) (l : Nat) (f : LdSt → LdSt) : (s.upLd l f).free = s.free := rfl
@[simp] theorem State.upLd_pending (s : State) (l : Nat) (f : LdSt → LdSt) : (s.upLd l f).pending = s.pending := rfl
@[simp] theorem State.upLd_hide (s : State) (l : Nat) (f : LdSt → LdSt) (k : Nat) : (s.upLd l f).hide k = s.hide k := rfl
@[simp] theorem State.upLd_region (s : State) (l : Nat) (f : LdSt → LdSt) (k : Nat) : (s.upLd l f).region k = s.region k := rfl
@[simp] theorem State.upLd_cluster (s : State) (l : Nat) (f : LdSt → LdSt) (k : Nat) : (s.upLd l f).cluster k = s.cluster k := rfl
@[simp] theorem State.upLd_acre (s : State) (l : Nat) (f : LdSt → LdSt) (k : Nat) : (s.upLd l f).acre k = s.acre k := rfl
@[simp] theorem State.upLd_port (s : State) (l : Nat) (f : LdSt → LdSt) (k : Nat) : (s.upLd l f).port k = s.port k := rfl

/-! ### writeMem -/

@[simp] theorem State.writeMem_power (s : State) (h off : Nat) (bs : List Byte) : (s.writeMem h off bs).power = s.power := rfl
@[simp] theorem State.writeMem_sensors (s : State) (h off : Nat) (bs : List Byte) : (s.writeMem h off bs).sensors = s.sensors := rfl
@[simp] theorem State.writeMem_resetPin (s : State) (h off : Nat) (bs : List Byte) : (s.writeMem h off bs).resetPin = s.resetPin := rfl
@[simp] theorem State.writeMem_clocks (s : State) (h off : Nat) (bs : List Byte) : (s.writeMem h off bs).clocks = s.clocks := rfl
@[simp] theorem State.writeMem_regions (s : State) (h off : Nat) (bs : List Byte) : (s.writeMem h off bs).regions = s.regions := rfl
@[simp] theorem State.writeMem_clusters (s : State) (h off : Nat) (bs : List Byte) : (s.writeMem h off bs).clusters = s.clusters := rfl
@[simp] theorem State.writeMem_plan (s : State) (h off : Nat) (bs : List Byte) : (s.writeMem h off bs).plan = s.plan := rfl
@[simp] theorem State.writeMem_hides (s : State) (h off : Nat) (bs : List Byte) : (s.writeMem h off bs).hides = s.hides := rfl
@[simp] theorem State.writeMem_acres (s : State) (h off : Nat) (bs : List Byte) : (s.writeMem h off bs).acres = s.acres := rfl
@[simp] theorem State.writeMem_gates (s : State) (h off : Nat) (bs : List Byte) : (s.writeMem h off bs).gates = s.gates := rfl
@[simp] theorem State.writeMem_cxl (s : State) (h off : Nat) (bs : List Byte) : (s.writeMem h off bs).cxl = s.cxl := rfl
@[simp] theorem State.writeMem_ports (s : State) (h off : Nat) (bs : List Byte) : (s.writeMem h off bs).ports = s.ports := rfl
@[simp] theorem State.writeMem_dex (s : State) (h off : Nat) (bs : List Byte) : (s.writeMem h off bs).dex = s.dex := rfl
@[simp] theorem State.writeMem_mgmt (s : State) (h off : Nat) (bs : List Byte) : (s.writeMem h off bs).mgmt = s.mgmt := rfl
@[simp] theorem State.writeMem_box (s : State) (h off : Nat) (bs : List Byte) : (s.writeMem h off bs).box = s.box := rfl
@[simp] theorem State.writeMem_screen (s : State) (h off : Nat) (bs : List Byte) : (s.writeMem h off bs).screen = s.screen := rfl
@[simp] theorem State.writeMem_tap (s : State) (h off : Nat) (bs : List Byte) : (s.writeMem h off bs).tap = s.tap := rfl
@[simp] theorem State.writeMem_free (s : State) (h off : Nat) (bs : List Byte) : (s.writeMem h off bs).free = s.free := rfl
@[simp] theorem State.writeMem_pending (s : State) (h off : Nat) (bs : List Byte) : (s.writeMem h off bs).pending = s.pending := rfl
@[simp] theorem State.writeMem_hide (s : State) (h off : Nat) (bs : List Byte) (k : Nat) : (s.writeMem h off bs).hide k = s.hide k := rfl
@[simp] theorem State.writeMem_region (s : State) (h off : Nat) (bs : List Byte) (k : Nat) : (s.writeMem h off bs).region k = s.region k := rfl
@[simp] theorem State.writeMem_cluster (s : State) (h off : Nat) (bs : List Byte) (k : Nat) : (s.writeMem h off bs).cluster k = s.cluster k := rfl
@[simp] theorem State.writeMem_acre (s : State) (h off : Nat) (bs : List Byte) (k : Nat) : (s.writeMem h off bs).acre k = s.acre k := rfl
@[simp] theorem State.writeMem_port (s : State) (h off : Nat) (bs : List Byte) (k : Nat) : (s.writeMem h off bs).port k = s.port k := rfl
@[simp] theorem State.writeMem_ld (s : State) (h off : Nat) (bs : List Byte) (k : Nat) : (s.writeMem h off bs).ld k = s.ld k := rfl

/-! ### record -/

@[simp] theorem State.record_power (s : State) (typ : Nat) (o : Origin) (region : Nat) (body : List Nat) : (s.record typ o region body).power = s.power := rfl
@[simp] theorem State.record_sensors (s : State) (typ : Nat) (o : Origin) (region : Nat) (body : List Nat) : (s.record typ o region body).sensors = s.sensors := rfl
@[simp] theorem State.record_resetPin (s : State) (typ : Nat) (o : Origin) (region : Nat) (body : List Nat) : (s.record typ o region body).resetPin = s.resetPin := rfl
@[simp] theorem State.record_clocks (s : State) (typ : Nat) (o : Origin) (region : Nat) (body : List Nat) : (s.record typ o region body).clocks = s.clocks := rfl
@[simp] theorem State.record_regions (s : State) (typ : Nat) (o : Origin) (region : Nat) (body : List Nat) : (s.record typ o region body).regions = s.regions := rfl
@[simp] theorem State.record_clusters (s : State) (typ : Nat) (o : Origin) (region : Nat) (body : List Nat) : (s.record typ o region body).clusters = s.clusters := rfl
@[simp] theorem State.record_plan (s : State) (typ : Nat) (o : Origin) (region : Nat) (body : List Nat) : (s.record typ o region body).plan = s.plan := rfl
@[simp] theorem State.record_hides (s : State) (typ : Nat) (o : Origin) (region : Nat) (body : List Nat) : (s.record typ o region body).hides = s.hides := rfl
@[simp] theorem State.record_imem (s : State) (typ : Nat) (o : Origin) (region : Nat) (body : List Nat) : (s.record typ o region body).imem = s.imem := rfl
@[simp] theorem State.record_acres (s : State) (typ : Nat) (o : Origin) (region : Nat) (body : List Nat) : (s.record typ o region body).acres = s.acres := rfl
@[simp] theorem State.record_gates (s : State) (typ : Nat) (o : Origin) (region : Nat) (body : List Nat) : (s.record typ o region body).gates = s.gates := rfl
@[simp] theorem State.record_cxl (s : State) (typ : Nat) (o : Origin) (region : Nat) (body : List Nat) : (s.record typ o region body).cxl = s.cxl := rfl
@[simp] theorem State.record_ports (s : State) (typ : Nat) (o : Origin) (region : Nat) (body : List Nat) : (s.record typ o region body).ports = s.ports := rfl
@[simp] theorem State.record_dex (s : State) (typ : Nat) (o : Origin) (region : Nat) (body : List Nat) : (s.record typ o region body).dex = s.dex := rfl
@[simp] theorem State.record_screen (s : State) (typ : Nat) (o : Origin) (region : Nat) (body : List Nat) : (s.record typ o region body).screen = s.screen := rfl
@[simp] theorem State.record_tap (s : State) (typ : Nat) (o : Origin) (region : Nat) (body : List Nat) : (s.record typ o region body).tap = s.tap := rfl
@[simp] theorem State.record_free (s : State) (typ : Nat) (o : Origin) (region : Nat) (body : List Nat) : (s.record typ o region body).free = s.free := rfl
@[simp] theorem State.record_pending (s : State) (typ : Nat) (o : Origin) (region : Nat) (body : List Nat) : (s.record typ o region body).pending = s.pending := rfl
@[simp] theorem State.record_hide (s : State) (typ : Nat) (o : Origin) (region : Nat) (body : List Nat) (k : Nat) : (s.record typ o region body).hide k = s.hide k := rfl
@[simp] theorem State.record_region (s : State) (typ : Nat) (o : Origin) (region : Nat) (body : List Nat) (k : Nat) : (s.record typ o region body).region k = s.region k := rfl
@[simp] theorem State.record_cluster (s : State) (typ : Nat) (o : Origin) (region : Nat) (body : List Nat) (k : Nat) : (s.record typ o region body).cluster k = s.cluster k := rfl
@[simp] theorem State.record_acre (s : State) (typ : Nat) (o : Origin) (region : Nat) (body : List Nat) (k : Nat) : (s.record typ o region body).acre k = s.acre k := rfl
@[simp] theorem State.record_port (s : State) (typ : Nat) (o : Origin) (region : Nat) (body : List Nat) (k : Nat) : (s.record typ o region body).port k = s.port k := rfl
@[simp] theorem State.record_ld (s : State) (typ : Nat) (o : Origin) (region : Nat) (body : List Nat) (k : Nat) : (s.record typ o region body).ld k = s.ld k := rfl

/-! ### draw, freeValue, enqueue -/

@[simp] theorem State.draw_power (s : State) : s.draw.1.power = s.power := rfl
@[simp] theorem State.draw_sensors (s : State) : s.draw.1.sensors = s.sensors := rfl
@[simp] theorem State.draw_resetPin (s : State) : s.draw.1.resetPin = s.resetPin := rfl
@[simp] theorem State.draw_clocks (s : State) : s.draw.1.clocks = s.clocks := rfl
@[simp] theorem State.draw_regions (s : State) : s.draw.1.regions = s.regions := rfl
@[simp] theorem State.draw_clusters (s : State) : s.draw.1.clusters = s.clusters := rfl
@[simp] theorem State.draw_plan (s : State) : s.draw.1.plan = s.plan := rfl
@[simp] theorem State.draw_hides (s : State) : s.draw.1.hides = s.hides := rfl
@[simp] theorem State.draw_imem (s : State) : s.draw.1.imem = s.imem := rfl
@[simp] theorem State.draw_acres (s : State) : s.draw.1.acres = s.acres := rfl
@[simp] theorem State.draw_gates (s : State) : s.draw.1.gates = s.gates := rfl
@[simp] theorem State.draw_cxl (s : State) : s.draw.1.cxl = s.cxl := rfl
@[simp] theorem State.draw_ports (s : State) : s.draw.1.ports = s.ports := rfl
@[simp] theorem State.draw_mgmt (s : State) : s.draw.1.mgmt = s.mgmt := rfl
@[simp] theorem State.draw_box (s : State) : s.draw.1.box = s.box := rfl
@[simp] theorem State.draw_screen (s : State) : s.draw.1.screen = s.screen := rfl
@[simp] theorem State.draw_tap (s : State) : s.draw.1.tap = s.tap := rfl
@[simp] theorem State.draw_free (s : State) : s.draw.1.free = s.free := rfl
@[simp] theorem State.draw_pending (s : State) : s.draw.1.pending = s.pending := rfl
@[simp] theorem State.freeValue_power (s : State) : s.freeValue.1.power = s.power := rfl
@[simp] theorem State.freeValue_sensors (s : State) : s.freeValue.1.sensors = s.sensors := rfl
@[simp] theorem State.freeValue_resetPin (s : State) : s.freeValue.1.resetPin = s.resetPin := rfl
@[simp] theorem State.freeValue_clocks (s : State) : s.freeValue.1.clocks = s.clocks := rfl
@[simp] theorem State.freeValue_regions (s : State) : s.freeValue.1.regions = s.regions := rfl
@[simp] theorem State.freeValue_clusters (s : State) : s.freeValue.1.clusters = s.clusters := rfl
@[simp] theorem State.freeValue_plan (s : State) : s.freeValue.1.plan = s.plan := rfl
@[simp] theorem State.freeValue_hides (s : State) : s.freeValue.1.hides = s.hides := rfl
@[simp] theorem State.freeValue_imem (s : State) : s.freeValue.1.imem = s.imem := rfl
@[simp] theorem State.freeValue_acres (s : State) : s.freeValue.1.acres = s.acres := rfl
@[simp] theorem State.freeValue_gates (s : State) : s.freeValue.1.gates = s.gates := rfl
@[simp] theorem State.freeValue_cxl (s : State) : s.freeValue.1.cxl = s.cxl := rfl
@[simp] theorem State.freeValue_ports (s : State) : s.freeValue.1.ports = s.ports := rfl
@[simp] theorem State.freeValue_dex (s : State) : s.freeValue.1.dex = s.dex := rfl
@[simp] theorem State.freeValue_mgmt (s : State) : s.freeValue.1.mgmt = s.mgmt := rfl
@[simp] theorem State.freeValue_box (s : State) : s.freeValue.1.box = s.box := rfl
@[simp] theorem State.freeValue_screen (s : State) : s.freeValue.1.screen = s.screen := rfl
@[simp] theorem State.freeValue_tap (s : State) : s.freeValue.1.tap = s.tap := rfl
@[simp] theorem State.freeValue_pending (s : State) : s.freeValue.1.pending = s.pending := rfl
@[simp] theorem State.draw_hide (s : State) (k : Nat) : s.draw.1.hide k = s.hide k := rfl
@[simp] theorem State.freeValue_hide (s : State) (k : Nat) : s.freeValue.1.hide k = s.hide k := rfl
@[simp] theorem State.draw_region (s : State) (k : Nat) : s.draw.1.region k = s.region k := rfl
@[simp] theorem State.freeValue_region (s : State) (k : Nat) : s.freeValue.1.region k = s.region k := rfl
@[simp] theorem State.draw_cluster (s : State) (k : Nat) : s.draw.1.cluster k = s.cluster k := rfl
@[simp] theorem State.freeValue_cluster (s : State) (k : Nat) : s.freeValue.1.cluster k = s.cluster k := rfl
@[simp] theorem State.draw_acre (s : State) (k : Nat) : s.draw.1.acre k = s.acre k := rfl
@[simp] theorem State.freeValue_acre (s : State) (k : Nat) : s.freeValue.1.acre k = s.acre k := rfl
@[simp] theorem State.draw_port (s : State) (k : Nat) : s.draw.1.port k = s.port k := rfl
@[simp] theorem State.freeValue_port (s : State) (k : Nat) : s.freeValue.1.port k = s.port k := rfl
@[simp] theorem State.draw_ld (s : State) (k : Nat) : s.draw.1.ld k = s.ld k := rfl
@[simp] theorem State.freeValue_ld (s : State) (k : Nat) : s.freeValue.1.ld k = s.ld k := rfl
@[simp] theorem State.draw_dex (s : State) : s.draw.1.dex = { s.dex with draws := s.dex.draws + 1 } := rfl
@[simp] theorem State.draw_value (s : State) : s.draw.2 = Config.drbg s.dex.draws := rfl
@[simp] theorem State.tagHead_power (s : State) (link h : Nat) : (s.tagHead link h).power = s.power := by unfold State.tagHead; dsimp only; split <;> rfl
@[simp] theorem State.tagHead_sensors (s : State) (link h : Nat) : (s.tagHead link h).sensors = s.sensors := by unfold State.tagHead; dsimp only; split <;> rfl
@[simp] theorem State.tagHead_resetPin (s : State) (link h : Nat) : (s.tagHead link h).resetPin = s.resetPin := by unfold State.tagHead; dsimp only; split <;> rfl
@[simp] theorem State.tagHead_clocks (s : State) (link h : Nat) : (s.tagHead link h).clocks = s.clocks := by unfold State.tagHead; dsimp only; split <;> rfl
@[simp] theorem State.tagHead_regions (s : State) (link h : Nat) : (s.tagHead link h).regions = s.regions := by unfold State.tagHead; dsimp only; split <;> rfl
@[simp] theorem State.tagHead_clusters (s : State) (link h : Nat) : (s.tagHead link h).clusters = s.clusters := by unfold State.tagHead; dsimp only; split <;> rfl
@[simp] theorem State.tagHead_plan (s : State) (link h : Nat) : (s.tagHead link h).plan = s.plan := by unfold State.tagHead; dsimp only; split <;> rfl
@[simp] theorem State.tagHead_hides (s : State) (link h : Nat) : (s.tagHead link h).hides = s.hides := by unfold State.tagHead; dsimp only; split <;> rfl
@[simp] theorem State.tagHead_imem (s : State) (link h : Nat) : (s.tagHead link h).imem = s.imem := by unfold State.tagHead; dsimp only; split <;> rfl
@[simp] theorem State.tagHead_acres (s : State) (link h : Nat) : (s.tagHead link h).acres = s.acres := by unfold State.tagHead; dsimp only; split <;> rfl
@[simp] theorem State.tagHead_cxl (s : State) (link h : Nat) : (s.tagHead link h).cxl = s.cxl := by unfold State.tagHead; dsimp only; split <;> rfl
@[simp] theorem State.tagHead_ports (s : State) (link h : Nat) : (s.tagHead link h).ports = s.ports := by unfold State.tagHead; dsimp only; split <;> rfl
@[simp] theorem State.tagHead_dex (s : State) (link h : Nat) : (s.tagHead link h).dex = s.dex := by unfold State.tagHead; dsimp only; split <;> rfl
@[simp] theorem State.tagHead_mgmt (s : State) (link h : Nat) : (s.tagHead link h).mgmt = s.mgmt := by unfold State.tagHead; dsimp only; split <;> rfl
@[simp] theorem State.tagHead_box (s : State) (link h : Nat) : (s.tagHead link h).box = s.box := by unfold State.tagHead; dsimp only; split <;> rfl
@[simp] theorem State.tagHead_screen (s : State) (link h : Nat) : (s.tagHead link h).screen = s.screen := by unfold State.tagHead; dsimp only; split <;> rfl
@[simp] theorem State.tagHead_tap (s : State) (link h : Nat) : (s.tagHead link h).tap = s.tap := by unfold State.tagHead; dsimp only; split <;> rfl
@[simp] theorem State.tagHead_free (s : State) (link h : Nat) : (s.tagHead link h).free = s.free := by unfold State.tagHead; dsimp only; split <;> rfl
@[simp] theorem State.tagHead_pending (s : State) (link h : Nat) : (s.tagHead link h).pending = s.pending := by unfold State.tagHead; dsimp only; split <;> rfl
@[simp] theorem State.enqueue_power (s : State) (link owner : Nat) (b : Bool) (e : EgFrame) : (s.enqueue link owner b e).power = s.power := by unfold State.enqueue; dsimp only; split <;> simp
@[simp] theorem State.enqueue_sensors (s : State) (link owner : Nat) (b : Bool) (e : EgFrame) : (s.enqueue link owner b e).sensors = s.sensors := by unfold State.enqueue; dsimp only; split <;> simp
@[simp] theorem State.enqueue_resetPin (s : State) (link owner : Nat) (b : Bool) (e : EgFrame) : (s.enqueue link owner b e).resetPin = s.resetPin := by unfold State.enqueue; dsimp only; split <;> simp
@[simp] theorem State.enqueue_clocks (s : State) (link owner : Nat) (b : Bool) (e : EgFrame) : (s.enqueue link owner b e).clocks = s.clocks := by unfold State.enqueue; dsimp only; split <;> simp
@[simp] theorem State.enqueue_regions (s : State) (link owner : Nat) (b : Bool) (e : EgFrame) : (s.enqueue link owner b e).regions = s.regions := by unfold State.enqueue; dsimp only; split <;> simp
@[simp] theorem State.enqueue_clusters (s : State) (link owner : Nat) (b : Bool) (e : EgFrame) : (s.enqueue link owner b e).clusters = s.clusters := by unfold State.enqueue; dsimp only; split <;> simp
@[simp] theorem State.enqueue_plan (s : State) (link owner : Nat) (b : Bool) (e : EgFrame) : (s.enqueue link owner b e).plan = s.plan := by unfold State.enqueue; dsimp only; split <;> simp
@[simp] theorem State.enqueue_hides (s : State) (link owner : Nat) (b : Bool) (e : EgFrame) : (s.enqueue link owner b e).hides = s.hides := by unfold State.enqueue; dsimp only; split <;> simp
@[simp] theorem State.enqueue_imem (s : State) (link owner : Nat) (b : Bool) (e : EgFrame) : (s.enqueue link owner b e).imem = s.imem := by unfold State.enqueue; dsimp only; split <;> simp
@[simp] theorem State.enqueue_acres (s : State) (link owner : Nat) (b : Bool) (e : EgFrame) : (s.enqueue link owner b e).acres = s.acres := by unfold State.enqueue; dsimp only; split <;> simp
@[simp] theorem State.enqueue_cxl (s : State) (link owner : Nat) (b : Bool) (e : EgFrame) : (s.enqueue link owner b e).cxl = s.cxl := by unfold State.enqueue; dsimp only; split <;> simp
@[simp] theorem State.enqueue_ports (s : State) (link owner : Nat) (b : Bool) (e : EgFrame) : (s.enqueue link owner b e).ports = s.ports := by unfold State.enqueue; dsimp only; split <;> simp
@[simp] theorem State.enqueue_dex (s : State) (link owner : Nat) (b : Bool) (e : EgFrame) : (s.enqueue link owner b e).dex = s.dex := by unfold State.enqueue; dsimp only; split <;> simp
@[simp] theorem State.enqueue_mgmt (s : State) (link owner : Nat) (b : Bool) (e : EgFrame) : (s.enqueue link owner b e).mgmt = s.mgmt := by unfold State.enqueue; dsimp only; split <;> simp
@[simp] theorem State.enqueue_box (s : State) (link owner : Nat) (b : Bool) (e : EgFrame) : (s.enqueue link owner b e).box = s.box := by unfold State.enqueue; dsimp only; split <;> simp
@[simp] theorem State.enqueue_screen (s : State) (link owner : Nat) (b : Bool) (e : EgFrame) : (s.enqueue link owner b e).screen = s.screen := by unfold State.enqueue; dsimp only; split <;> simp
@[simp] theorem State.enqueue_tap (s : State) (link owner : Nat) (b : Bool) (e : EgFrame) : (s.enqueue link owner b e).tap = s.tap := by unfold State.enqueue; dsimp only; split <;> simp
@[simp] theorem State.enqueue_free (s : State) (link owner : Nat) (b : Bool) (e : EgFrame) : (s.enqueue link owner b e).free = s.free := by unfold State.enqueue; dsimp only; split <;> simp
@[simp] theorem State.enqueue_pending (s : State) (link owner : Nat) (b : Bool) (e : EgFrame) : (s.enqueue link owner b e).pending = s.pending := by unfold State.enqueue; dsimp only; split <;> simp
@[simp] theorem State.enqueue_hide (s : State) (link owner : Nat) (b : Bool) (e : EgFrame) (k : Nat) : (s.enqueue link owner b e).hide k = s.hide k := by simp [State.hide]
@[simp] theorem State.enqueue_region (s : State) (link owner : Nat) (b : Bool) (e : EgFrame) (k : Nat) : (s.enqueue link owner b e).region k = s.region k := by simp [State.region]
@[simp] theorem State.enqueue_cluster (s : State) (link owner : Nat) (b : Bool) (e : EgFrame) (k : Nat) : (s.enqueue link owner b e).cluster k = s.cluster k := by simp [State.cluster]
@[simp] theorem State.enqueue_acre (s : State) (link owner : Nat) (b : Bool) (e : EgFrame) (k : Nat) : (s.enqueue link owner b e).acre k = s.acre k := by simp [State.acre]
@[simp] theorem State.enqueue_port (s : State) (link owner : Nat) (b : Bool) (e : EgFrame) (k : Nat) : (s.enqueue link owner b e).port k = s.port k := by simp [State.port]
@[simp] theorem State.enqueue_ld (s : State) (link owner : Nat) (b : Bool) (e : EgFrame) (k : Nat) : (s.enqueue link owner b e).ld k = s.ld k := by simp [State.ld]

@[simp] theorem State.trigger_power (s : State) (w : Switch) : (s.trigger w).power = s.power := by unfold State.trigger; split <;> rfl
@[simp] theorem State.trigger_sensors (s : State) (w : Switch) : (s.trigger w).sensors = s.sensors := by unfold State.trigger; split <;> rfl
@[simp] theorem State.trigger_resetPin (s : State) (w : Switch) : (s.trigger w).resetPin = s.resetPin := by unfold State.trigger; split <;> rfl
@[simp] theorem State.trigger_clocks (s : State) (w : Switch) : (s.trigger w).clocks = s.clocks := by unfold State.trigger; split <;> rfl
@[simp] theorem State.trigger_regions (s : State) (w : Switch) : (s.trigger w).regions = s.regions := by unfold State.trigger; split <;> rfl
@[simp] theorem State.trigger_clusters (s : State) (w : Switch) : (s.trigger w).clusters = s.clusters := by unfold State.trigger; split <;> rfl
@[simp] theorem State.trigger_hides (s : State) (w : Switch) : (s.trigger w).hides = s.hides := by unfold State.trigger; split <;> rfl
@[simp] theorem State.trigger_imem (s : State) (w : Switch) : (s.trigger w).imem = s.imem := by unfold State.trigger; split <;> rfl
@[simp] theorem State.trigger_acres (s : State) (w : Switch) : (s.trigger w).acres = s.acres := by unfold State.trigger; split <;> rfl
@[simp] theorem State.trigger_gates (s : State) (w : Switch) : (s.trigger w).gates = s.gates := by unfold State.trigger; split <;> rfl
@[simp] theorem State.trigger_cxl (s : State) (w : Switch) : (s.trigger w).cxl = s.cxl := by unfold State.trigger; split <;> rfl
@[simp] theorem State.trigger_ports (s : State) (w : Switch) : (s.trigger w).ports = s.ports := by unfold State.trigger; split <;> rfl
@[simp] theorem State.trigger_dex (s : State) (w : Switch) : (s.trigger w).dex = s.dex := by unfold State.trigger; split <;> rfl
@[simp] theorem State.trigger_mgmt (s : State) (w : Switch) : (s.trigger w).mgmt = s.mgmt := by unfold State.trigger; split <;> rfl
@[simp] theorem State.trigger_box (s : State) (w : Switch) : (s.trigger w).box = s.box := by unfold State.trigger; split <;> rfl
@[simp] theorem State.trigger_screen (s : State) (w : Switch) : (s.trigger w).screen = s.screen := by unfold State.trigger; split <;> rfl
@[simp] theorem State.trigger_tap (s : State) (w : Switch) : (s.trigger w).tap = s.tap := by unfold State.trigger; split <;> rfl
@[simp] theorem State.trigger_free (s : State) (w : Switch) : (s.trigger w).free = s.free := by unfold State.trigger; split <;> rfl
@[simp] theorem State.trigger_pending (s : State) (w : Switch) : (s.trigger w).pending = s.pending := by unfold State.trigger; split <;> rfl
@[simp] theorem State.trigger_hide (s : State) (w : Switch) (k : Nat) : (s.trigger w).hide k = s.hide k := by unfold State.trigger; split <;> rfl
@[simp] theorem State.trigger_region (s : State) (w : Switch) (k : Nat) : (s.trigger w).region k = s.region k := by unfold State.trigger; split <;> rfl
@[simp] theorem State.trigger_acre (s : State) (w : Switch) (k : Nat) : (s.trigger w).acre k = s.acre k := by unfold State.trigger; split <;> rfl
@[simp] theorem State.trigger_port (s : State) (w : Switch) (k : Nat) : (s.trigger w).port k = s.port k := by unfold State.trigger; split <;> rfl
@[simp] theorem State.trigger_ld (s : State) (w : Switch) (k : Nat) : (s.trigger w).ld k = s.ld k := by unfold State.trigger; split <;> rfl
@[simp] theorem State.trigger_cluster (s : State) (w : Switch) (k : Nat) : (s.trigger w).cluster k = s.cluster k := by unfold State.trigger; split <;> rfl
theorem State.mem_trigger (s : State) (w : Switch) : w ∈ (s.trigger w).plan.triggers := by
  unfold State.trigger; split
  · simp_all
  · simp

/-! ### The part that is changed -/

@[simp] theorem State.hide_setHide (s : State) (h : Nat) (x : HideSt) : (s.setHide h x).hide h = x := by
  simp [State.setHide, State.hide]
theorem State.hide_setHide_other (s : State) {h k : Nat} (x : HideSt) (n : k ≠ h) : (s.setHide h x).hide k = s.hide k := by
  simp [State.setHide, State.hide, AMap.get_set_other, n]
@[simp] theorem State.hide_upHide (s : State) (h : Nat) (f : HideSt → HideSt) : (s.upHide h f).hide h = f (s.hide h) := by
  simp [State.upHide, State.setHide, State.hide]
theorem State.hide_upHide_other (s : State) {h j : Nat} (f : HideSt → HideSt) (n : j ≠ h) : (s.upHide h f).hide j = s.hide j := by
  simp [State.upHide, State.setHide, State.hide, AMap.get_set_other, n]
@[simp] theorem State.region_upRegion (s : State) (r : Nat) (f : Region → Region) : (s.upRegion r f).region r = f (s.region r) := by
  simp [State.upRegion, State.region]
theorem State.region_upRegion_other (s : State) {r j : Nat} (f : Region → Region) (n : j ≠ r) : (s.upRegion r f).region j = s.region j := by
  simp [State.upRegion, State.region, AMap.get_set_other, n]
@[simp] theorem State.cluster_upCluster (s : State) (c : Nat) (f : ClusterSt → ClusterSt) : (s.upCluster c f).cluster c = f (s.cluster c) := by
  simp [State.upCluster, State.cluster]
theorem State.cluster_upCluster_other (s : State) {c j : Nat} (f : ClusterSt → ClusterSt) (n : j ≠ c) : (s.upCluster c f).cluster j = s.cluster j := by
  simp [State.upCluster, State.cluster, AMap.get_set_other, n]
@[simp] theorem State.acre_upAcre (s : State) (a : Nat) (f : Acre → Acre) : (s.upAcre a f).acre a = f (s.acre a) := by
  simp [State.upAcre, State.acre]
theorem State.acre_upAcre_other (s : State) {a j : Nat} (f : Acre → Acre) (n : j ≠ a) : (s.upAcre a f).acre j = s.acre j := by
  simp [State.upAcre, State.acre, AMap.get_set_other, n]
@[simp] theorem State.port_upPort (s : State) (p : Nat) (f : PortSt → PortSt) : (s.upPort p f).port p = f (s.port p) := by
  simp [State.upPort, State.port]
theorem State.port_upPort_other (s : State) {p j : Nat} (f : PortSt → PortSt) (n : j ≠ p) : (s.upPort p f).port j = s.port j := by
  simp [State.upPort, State.port, AMap.get_set_other, n]
@[simp] theorem State.ld_upLd (s : State) (l : Nat) (f : LdSt → LdSt) : (s.upLd l f).ld l = f (s.ld l) := by
  simp [State.upLd, State.ld]
theorem State.ld_upLd_other (s : State) {l j : Nat} (f : LdSt → LdSt) (n : j ≠ l) : (s.upLd l f).ld j = s.ld j := by
  simp [State.upLd, State.ld, AMap.get_set_other, n]
@[simp] theorem State.hide_upQ (s : State) (h : Nat) (f : QPart → QPart) :
    (s.upQ h f).hide h = { s.hide h with q := f (s.hide h).q } := by simp [State.upQ]
theorem State.hide_upQ_other (s : State) {h j : Nat} (f : QPart → QPart) (n : j ≠ h) : (s.upQ h f).hide j = s.hide j := by
  simp [State.upQ, State.hide_upHide_other, n]
@[simp] theorem State.hide_upO (s : State) (h : Nat) (f : OPart → OPart) :
    (s.upO h f).hide h = { s.hide h with o := f (s.hide h).o } := by simp [State.upO]
theorem State.hide_upO_other (s : State) {h j : Nat} (f : OPart → OPart) (n : j ≠ h) : (s.upO h f).hide j = s.hide j := by
  simp [State.upO, State.hide_upHide_other, n]
@[simp] theorem State.hide_upA (s : State) (h : Nat) (f : APart → APart) :
    (s.upA h f).hide h = { s.hide h with a := f (s.hide h).a } := by simp [State.upA]
theorem State.hide_upA_other (s : State) {h j : Nat} (f : APart → APart) (n : j ≠ h) : (s.upA h f).hide j = s.hide j := by
  simp [State.upA, State.hide_upHide_other, n]
@[simp] theorem State.hide_upK (s : State) (h : Nat) (f : KPart → KPart) :
    (s.upK h f).hide h = { s.hide h with k := f (s.hide h).k } := by simp [State.upK]
theorem State.hide_upK_other (s : State) {h j : Nat} (f : KPart → KPart) (n : j ≠ h) : (s.upK h f).hide j = s.hide j := by
  simp [State.upK, State.hide_upHide_other, n]
@[simp] theorem State.hide_upC (s : State) (h : Nat) (f : CPart → CPart) :
    (s.upC h f).hide h = { s.hide h with c := f (s.hide h).c } := by simp [State.upC]
theorem State.hide_upC_other (s : State) {h j : Nat} (f : CPart → CPart) (n : j ≠ h) : (s.upC h f).hide j = s.hide j := by
  simp [State.upC, State.hide_upHide_other, n]

/-- The record joins the black box. -/
theorem Box.self_mem_append (b : Box) (r : Rec) : r ∈ (b.append r).recs := by
  unfold Box.append; simp only; split
  · split
    · simp
    · split <;> simp
  · simp

/-- A record joins the black box with the next number. -/
theorem State.record_next (s : State) (typ : Nat) (o : Origin) (region : Nat) (body : List Nat) :
    (s.record typ o region body).box.next = s.box.next + 1 := Box.append_next _ _

/-- An append leaves the acknowledgement, the warning level and the torn mark. -/
theorem Box.append_rest (b : Box) (r : Rec) : (b.append r).ack = b.ack ∧ (b.append r).warn = b.warn ∧ (b.append r).torn = b.torn := by
  unfold Box.append; dsimp only; split
  · split
    · exact ⟨rfl, rfl, rfl⟩
    · split <;> exact ⟨rfl, rfl, rfl⟩
  · exact ⟨rfl, rfl, rfl⟩

@[simp] theorem State.record_ack (s : State) (typ : Nat) (o : Origin) (region : Nat) (body : List Nat) :
    (s.record typ o region body).box.ack = s.box.ack := (Box.append_rest _ _).1
@[simp] theorem State.record_warn (s : State) (typ : Nat) (o : Origin) (region : Nat) (body : List Nat) :
    (s.record typ o region body).box.warn = s.box.warn := (Box.append_rest _ _).2.1
@[simp] theorem State.record_torn (s : State) (typ : Nat) (o : Origin) (region : Nat) (body : List Nat) :
    (s.record typ o region body).box.torn = s.box.torn := (Box.append_rest _ _).2.2

@[simp] theorem State.record_mgmt_sessions (s : State) (typ : Nat) (o : Origin) (region : Nat) (body : List Nat) : (s.record typ o region body).mgmt.sessions = s.mgmt.sessions := rfl
@[simp] theorem State.record_mgmt_nextSession (s : State) (typ : Nat) (o : Origin) (region : Nat) (body : List Nat) : (s.record typ o region body).mgmt.nextSession = s.mgmt.nextSession := rfl
@[simp] theorem State.record_mgmt_fails (s : State) (typ : Nat) (o : Origin) (region : Nat) (body : List Nat) : (s.record typ o region body).mgmt.fails = s.mgmt.fails := rfl
@[simp] theorem State.record_mgmt_refusing (s : State) (typ : Nat) (o : Origin) (region : Nat) (body : List Nat) : (s.record typ o region body).mgmt.refusing = s.mgmt.refusing := rfl
@[simp] theorem State.record_mgmt_loads (s : State) (typ : Nat) (o : Origin) (region : Nat) (body : List Nat) : (s.record typ o region body).mgmt.loads = s.mgmt.loads := rfl
@[simp] theorem State.record_mgmt_nextLoad (s : State) (typ : Nat) (o : Origin) (region : Nat) (body : List Nat) : (s.record typ o region body).mgmt.nextLoad = s.mgmt.nextLoad := rfl
@[simp] theorem State.record_mgmt_rtc (s : State) (typ : Nat) (o : Origin) (region : Nat) (body : List Nat) : (s.record typ o region body).mgmt.rtc = s.mgmt.rtc := rfl
@[simp] theorem State.record_mgmt_rtcSet (s : State) (typ : Nat) (o : Origin) (region : Nat) (body : List Nat) : (s.record typ o region body).mgmt.rtcSet = s.mgmt.rtcSet := rfl
@[simp] theorem State.record_mgmt_net (s : State) (typ : Nat) (o : Origin) (region : Nat) (body : List Nat) : (s.record typ o region body).mgmt.net = s.mgmt.net := rfl
@[simp] theorem State.record_mgmt_netHeld (s : State) (typ : Nat) (o : Origin) (region : Nat) (body : List Nat) : (s.record typ o region body).mgmt.netHeld = s.mgmt.netHeld := rfl
@[simp] theorem State.record_mgmt_netUsed (s : State) (typ : Nat) (o : Origin) (region : Nat) (body : List Nat) : (s.record typ o region body).mgmt.netUsed = s.mgmt.netUsed := rfl
@[simp] theorem State.record_mgmt_termMax (s : State) (typ : Nat) (o : Origin) (region : Nat) (body : List Nat) : (s.record typ o region body).mgmt.termMax = s.mgmt.termMax := rfl
@[simp] theorem State.record_mgmt_probes (s : State) (typ : Nat) (o : Origin) (region : Nat) (body : List Nat) : (s.record typ o region body).mgmt.probes = s.mgmt.probes := rfl
@[simp] theorem State.record_mgmt_raw (s : State) (typ : Nat) (o : Origin) (region : Nat) (body : List Nat) : (s.record typ o region body).mgmt.raw = s.mgmt.raw := rfl
@[simp] theorem State.record_mgmt_phyUp (s : State) (typ : Nat) (o : Origin) (region : Nat) (body : List Nat) : (s.record typ o region body).mgmt.phyUp = s.mgmt.phyUp := rfl
@[simp] theorem State.record_mgmt_portDown (s : State) (typ : Nat) (o : Origin) (region : Nat) (body : List Nat) : (s.record typ o region body).mgmt.portDown = s.mgmt.portDown := rfl
@[simp] theorem State.record_mgmt_releaseTick (s : State) (typ : Nat) (o : Origin) (region : Nat) (body : List Nat) : (s.record typ o region body).mgmt.releaseTick = s.mgmt.releaseTick := rfl
@[simp] theorem State.record_mgmt_straps (s : State) (typ : Nat) (o : Origin) (region : Nat) (body : List Nat) : (s.record typ o region body).mgmt.straps = s.mgmt.straps := rfl

/-- What a record says is in the black box after it was written. -/
theorem State.record_mem (s : State) (typ : Nat) (o : Origin) (region : Nat) (body : List Nat) :
    ∃ r ∈ (s.record typ o region body).box.recs,
      r.seq = s.box.next ∧ r.typ = typ ∧ r.origin = o ∧ r.region = region ∧ r.body = body :=
  ⟨_, Box.self_mem_append _ _, rfl, rfl, rfl, rfl, rfl⟩

end Sys2Proof.Machine
end

