-- ==== Sys2Proof/Laws/Apart.lean ====
section
/-!
SUPPORT. An operation for one hide leaves every other hide as it was. The relation composes.
-/

namespace Sys2Proof.Machine
open Sys2Proof

theorem Apart.refl (h : Nat) (s : State) : Apart h s s := fun _ _ => rfl

theorem Apart.trans {h : Nat} {s t u : State} (a : Apart h s t) (b : Apart h t u) : Apart h s u :=
  fun j hj => (b j hj).trans (a j hj)

theorem Apart.after {h : Nat} {s t u : State} (b : Apart h t u) (a : Apart h s t) : Apart h s u := a.trans b

/-- An operation that touches no hide. -/
theorem Apart.keptBy {T : List Part} {h : Nat} {s t u : State} (k : Kept T t u) (hT : Part.hides ∉ T) (a : Apart h s t) : Apart h s u := by
  intro j hj
  have e : u.hides = t.hides := k.same .hides hT
  rw [← a j hj]; simp [State.hide, e]

/-- A change of anything but the hides. -/
theorem Apart.upd {h : Nat} {s t : State} (a : Apart h s t) {power : Power} {sensors : AMap Sensor} {resetPin : Bool}
    {clocks : Clocks} {regions : AMap Region} {clusters : AMap ClusterSt} {plan : Plan} {acres : AMap Acre} {imem : List Host.Cell}
    {gates : Gates} {cxl : Cxl} {ports : AMap PortSt} {dex : Dex} {mgmt : Mgmt} {box : Box} {screen : Screen} {tap : Tap} {free : Nat}
    {pending : List Instr} :
    Apart h s ⟨power, sensors, resetPin, clocks, regions, clusters, plan, t.hides, imem, acres, gates, cxl, ports, dex, mgmt, box,
      screen, tap, free, pending⟩ := a

theorem Apart.ite {h : Nat} {s a b : State} {c : Prop} [Decidable c] (ha : Apart h s a) (hb : Apart h s b) :
    Apart h s (if c then a else b) := by
  split
  · exact ha
  · exact hb

theorem Apart.via {α : Type} {h : Nat} {s t : State} {x : State × α} {r : α} (e : x = (t, r)) (k : Apart h s x.1) : Apart h s t := by
  rw [e] at k; exact k

theorem Apart.foldl {α : Type} {h : Nat} (f : State → α → State) (hf : ∀ s a, Apart h s (f s a)) (l : List α) :
    ∀ s, Apart h s (l.foldl f s) := by
  induction l with
  | nil => intro s; exact Apart.refl h s
  | cons a t ih => intro s; exact (hf s a).trans (ih _)

theorem Apart.foldlPair {α β : Type} {h : Nat} (f : State × β → α → State × β) (hf : ∀ p a, Apart h p.1 (f p a).1) (l : List α) :
    ∀ p, Apart h p.1 (l.foldl f p).1 := by
  induction l with
  | nil => intro p; exact Apart.refl h _
  | cons a t ih => intro p; exact (hf p a).trans (ih _)

theorem forAll_apart {h : Nat} (s : State) (l : List Nat) (f : State → Nat → State) (hf : ∀ s a, Apart h s (f s a)) :
    Apart h s (forAll s l f) := Apart.foldl f hf l s

theorem State.setHide_apart (s : State) (h : Nat) (x : HideSt) : Apart h s (s.setHide h x) :=
  fun _ hj => State.hide_setHide_other s x hj
theorem State.upHide_apart (s : State) (h : Nat) (f : HideSt → HideSt) : Apart h s (s.upHide h f) :=
  fun _ hj => State.hide_upHide_other s f hj
theorem State.upQ_apart (s : State) (h : Nat) (f : QPart → QPart) : Apart h s (s.upQ h f) := State.upHide_apart _ _ _
theorem State.upO_apart (s : State) (h : Nat) (f : OPart → OPart) : Apart h s (s.upO h f) := State.upHide_apart _ _ _
theorem State.upA_apart (s : State) (h : Nat) (f : APart → APart) : Apart h s (s.upA h f) := State.upHide_apart _ _ _
theorem State.upK_apart (s : State) (h : Nat) (f : KPart → KPart) : Apart h s (s.upK h f) := State.upHide_apart _ _ _
theorem State.upC_apart (s : State) (h : Nat) (f : CPart → CPart) : Apart h s (s.upC h f) := State.upHide_apart _ _ _

end Sys2Proof.Machine
end

