-- ==== Sys2Proof/Laws/KeptShared.lean ====
section
/-!
SUPPORT. What each operation keeps, and the parts of the state it may change: the shared operations: rings, publication, flash, the queue engine, admission and the checks.
-/

namespace Sys2Proof.Machine
open Sys2Proof

/-! ### Ops.lean -/

theorem State.setHide_kept (s : State) (h : Nat) (x : HideSt) : Kept [.hides] s (State.setHide s h x) := by
  unfold State.setHide
  try dsimp only
  repeat' (first
    | with_reducible exact Kept.refl _ _ | (with_reducible apply Or.inr; with_reducible rfl)
    | (with_reducible apply Or.inl; decide)
    | (with_reducible refine Kept.upd ?_ ?_ ?_ ?_ ?_ ?_ ?_ ?_ ?_ ?_ ?_ ?_ ?_ ?_ ?_ ?_ ?_))

theorem State.upHide_kept (s : State) (h : Nat) (f : HideSt → HideSt) : Kept [.hides] s (State.upHide s h f) := by
  unfold State.upHide
  try dsimp only
  repeat' (first
    | with_reducible exact Kept.refl _ _ | (with_reducible show (_ : List Part) ⊆ _; decide)
    | (with_reducible apply Kept.andThen (State.setHide_kept _ _ _)))

theorem State.upQ_kept (s : State) (h : Nat) (f : QPart → QPart) : Kept [.hides] s (State.upQ s h f) := by
  unfold State.upQ
  try dsimp only
  repeat' (first
    | with_reducible exact Kept.refl _ _ | (with_reducible show (_ : List Part) ⊆ _; decide)
    | (with_reducible apply Kept.andThen (State.upHide_kept _ _ _)))

theorem State.frontMarker_kept (s : State) (h op : Nat) {o : Order} {t : State} (e : s.frontMarker h op = some (o, t)) :
    Kept [.hides] s t := by
  unfold State.frontMarker at e
  split at e
  · cases e
  · split at e
    · injection e with e; injection e with _ e2; subst e2; exact State.upQ_kept _ _ _
    · cases e

/-! ### Queue.lean -/

theorem State.ringErr_kept (s : State) (h : Nat) (kind : RingKind) (n : Nat) : Kept [.hides] s (State.ringErr s h kind
    n) := by
  unfold State.ringErr
  try dsimp only
  repeat' (first
    | with_reducible exact Kept.refl _ _ | (with_reducible show (_ : List Part) ⊆ _; decide)
    | (with_reducible apply Kept.andThen (State.upQ_kept _ _ _)) | split)

/-! ### Ops.lean -/

theorem State.upC_kept (s : State) (h : Nat) (f : CPart → CPart) : Kept [.hides] s (State.upC s h f) := by
  unfold State.upC
  try dsimp only
  repeat' (first
    | with_reducible exact Kept.refl _ _ | (with_reducible show (_ : List Part) ⊆ _; decide)
    | (with_reducible apply Kept.andThen (State.upHide_kept _ _ _)))

theorem State.upK_kept (s : State) (h : Nat) (f : KPart → KPart) : Kept [.hides] s (State.upK s h f) := by
  unfold State.upK
  try dsimp only
  repeat' (first
    | with_reducible exact Kept.refl _ _ | (with_reducible show (_ : List Part) ⊆ _; decide)
    | (with_reducible apply Kept.andThen (State.upHide_kept _ _ _)))

theorem State.countCt_kept (s : State) (h : Nat) (k : Ct) : Kept [.hides] s (State.countCt s h k) := by
  unfold State.countCt
  try dsimp only
  repeat' (first
    | with_reducible exact Kept.refl _ _ | (with_reducible show (_ : List Part) ⊆ _; decide) | with_reducible apply Kept.ite
    | (with_reducible apply Kept.andThen (State.upC_kept _ _ _)))

theorem State.upA_kept (s : State) (h : Nat) (f : APart → APart) : Kept [.hides] s (State.upA s h f) := by
  unfold State.upA
  try dsimp only
  repeat' (first
    | with_reducible exact Kept.refl _ _ | (with_reducible show (_ : List Part) ⊆ _; decide)
    | (with_reducible apply Kept.andThen (State.upHide_kept _ _ _)))

theorem State.tagHead_kept (s : State) (link h : Nat) : Kept [.gates] s (State.tagHead s link h) := by
  unfold State.tagHead
  try dsimp only
  repeat' (first
    | with_reducible exact Kept.refl _ _ | (with_reducible apply Or.inr; with_reducible rfl)
    | (with_reducible apply Or.inl; decide) | with_reducible apply Kept.ite
    | (with_reducible refine Kept.upd ?_ ?_ ?_ ?_ ?_ ?_ ?_ ?_ ?_ ?_ ?_ ?_ ?_ ?_ ?_ ?_ ?_))

theorem State.enqueue_kept (s : State) (link owner : Nat) (firstQ : Bool) (f : EgFrame) : Kept [.gates] s
    (State.enqueue s link owner firstQ f) := by
  unfold State.enqueue
  try dsimp only
  repeat' (first
    | with_reducible exact Kept.refl _ _ | (with_reducible apply Or.inr; with_reducible rfl)
    | (with_reducible apply Or.inl; decide) | (with_reducible show (_ : List Part) ⊆ _; decide)
    | with_reducible apply Kept.ite | (with_reducible apply Kept.andThen (State.tagHead_kept _ _ _)) | split
    | (with_reducible refine Kept.upd ?_ ?_ ?_ ?_ ?_ ?_ ?_ ?_ ?_ ?_ ?_ ?_ ?_ ?_ ?_ ?_ ?_))

theorem State.backInvalidate_kept (s : State) (h off n : Nat) : Kept [.hides, .gates] s (State.backInvalidate s h off
    n) := by
  unfold State.backInvalidate
  try dsimp only
  repeat' (first
    | with_reducible exact Kept.refl _ _ | (with_reducible show (_ : List Part) ⊆ _; decide)
    | (with_reducible apply Kept.andThen (State.upA_kept _ _ _))
    | (with_reducible apply Kept.andThen (State.enqueue_kept _ _ _ _ _))
    | (with_reducible apply Kept.after (Kept.foldl _ (fun _ _ => ?_) _ _)))

theorem State.putEntry_kept (s : State) (h noOff : Nat) (r : OutRing) (e : List Byte) : Kept [.hides, .imem, .gates] s
    (State.putEntry s h noOff r e).1 := by
  unfold State.putEntry
  try dsimp only
  repeat' (first
    | with_reducible exact Kept.refl _ _ | (with_reducible show (_ : List Part) ⊆ _; decide)
    | (with_reducible apply Kept.andThen (State.writeMem_kept _ _ _ _))
    | (with_reducible apply Kept.andThen (State.backInvalidate_kept _ _ _ _)))

theorem State.postPacket_kept (s : State) (h noOff : Nat) (lw : Bool) (r : OutRing) (es : List (List Byte)) : Kept
    [.hides, .imem, .gates] s (State.postPacket s h noOff lw r es).1 := by
  unfold State.postPacket
  try dsimp only
  repeat' (first
    | with_reducible exact Kept.refl _ _ | (with_reducible show (_ : List Part) ⊆ _; decide)
    | (with_reducible apply Kept.andThen (State.writeMem_kept _ _ _ _))
    | (with_reducible apply Kept.andThen (State.backInvalidate_kept _ _ _ _))
    | (with_reducible apply Kept.andThen (State.putEntry_kept _ _ _ _ _))
    | (with_reducible apply Kept.after (Kept.foldlPair _ (fun _ _ => ?_) _ _)))

theorem State.postEntries_kept (s : State) (h noOff : Nat) (lw : Bool) (r : OutRing) (es : List (List Byte)) : Kept
    [.hides, .imem, .gates] s (State.postEntries s h noOff lw r es).1 := by
  unfold State.postEntries
  try dsimp only
  repeat' (first
    | with_reducible exact Kept.refl _ _ | (with_reducible show (_ : List Part) ⊆ _; decide)
    | (with_reducible apply Kept.andThen (State.postPacket_kept _ _ _ _ _ _))
    | (with_reducible apply Kept.after (Kept.foldlPair _ (fun _ _ => ?_) _ _)))

theorem State.postComp_kept (s : State) (h n : Nat) (es : List (List Byte)) : Kept [.hides, .imem, .gates] s
    (State.postComp s h n es) := by
  unfold State.postComp
  try dsimp only
  repeat' (first
    | with_reducible exact Kept.refl _ _ | (with_reducible show (_ : List Part) ⊆ _; decide) | with_reducible apply Kept.ite
    | (with_reducible apply Kept.andThen (State.upQ_kept _ _ _))
    | (with_reducible apply Kept.andThen (State.postEntries_kept _ _ _ _ _ _)))

theorem State.complete_kept (s : State) (h : Nat) (cs : List Completion) : Kept [.hides, .imem, .gates] s
    (State.complete s h cs) := by
  unfold State.complete
  try dsimp only
  repeat' (first
    | with_reducible exact Kept.refl _ _ | (with_reducible show (_ : List Part) ⊆ _; decide)
    | (with_reducible apply Kept.andThen (State.upC_kept _ _ _)) | (with_reducible apply Kept.andThen (State.upK_kept _ _ _))
    | (with_reducible apply Kept.andThen (State.countCt_kept _ _ _))
    | (with_reducible apply Kept.andThen (State.postComp_kept _ _ _ _))
    | (with_reducible apply Kept.after (Kept.foldl _ (fun _ _ => ?_) _ _)) | split)

/-! ### Queue.lean -/

theorem State.endTaken_kept (s : State) (h : Nat) (o : Order) (status detail : Nat) (result : List Byte) : Kept
    [.hides, .imem, .gates] s (State.endTaken s h o status detail result) := by
  unfold State.endTaken
  try dsimp only
  repeat' (first
    | with_reducible exact Kept.refl _ _ | (with_reducible show (_ : List Part) ⊆ _; decide)
    | (with_reducible apply Kept.andThen (State.complete_kept _ _ _))
    | (with_reducible apply Kept.andThen (State.upQ_kept _ _ _)) | split)

theorem State.checks_kept (s : State) (h : Nat) (o : Order) : Kept [.hides] s (State.checks s h o).1 := by
  unfold State.checks
  try dsimp only
  repeat' (first
    | with_reducible exact Kept.refl _ _ | (with_reducible show (_ : List Part) ⊆ _; decide)
    | (with_reducible apply Kept.andThen (State.upQ_kept _ _ _)) | (with_reducible apply Kept.andThen (State.upC_kept _ _ _))
    | split)

/-! ### Ops.lean -/

theorem State.upO_kept (s : State) (h : Nat) (f : OPart → OPart) : Kept [.hides] s (State.upO s h f) := by
  unfold State.upO
  try dsimp only
  repeat' (first
    | with_reducible exact Kept.refl _ _ | (with_reducible show (_ : List Part) ⊆ _; decide)
    | (with_reducible apply Kept.andThen (State.upHide_kept _ _ _)))

/-! ### Flash.lean -/

theorem State.startJob_kept (s : State) (h : Nat) (j : Job) (lost : Bool) : Kept [.hides, .gates] s (State.startJob s
    h j lost).1 := by
  unfold State.startJob
  try dsimp only
  repeat' (first
    | with_reducible exact Kept.refl _ _ | (with_reducible show (_ : List Part) ⊆ _; decide) | with_reducible apply Kept.ite
    | (with_reducible apply Kept.andThen (State.enqueue_kept _ _ _ _ _))
    | (with_reducible apply Kept.andThen (State.upO_kept _ _ _))
    | (with_reducible apply Kept.after (Kept.foldl _ (fun _ _ => ?_) _ _)))

/-- Writing an extent: the state it answers. -/
theorem State.writeExtent_kept (s : State) (h mask r kind key : Nat) (coded : Bool) (book : Option (Nat × Nat)) (next : Option Nat)
    (sums : List Attn.Summary) (img : List Byte) {t : State} {i j : Nat}
    (e : s.writeExtent h mask r kind key coded book next sums img = some (t, i, j)) : Kept [.hides, .gates] s t := by
  unfold State.writeExtent at e
  dsimp only at e
  split at e
  · injection e with e
    injection e with e1 _
    subst e1
    exact ((State.setHide_kept _ _ _).mono (by decide)).trans ((State.startJob_kept _ _ _ _).mono (by decide))
  · cases e

theorem State.rekeyCopy_kept (s : State) (h : Nat) (f : Flight) (kind key : Nat) (c : Copy) {t : State} {g : Flight}
    (e : s.rekeyCopy h f kind key c = some (t, g)) : Kept [.hides, .gates] s t := by
  unfold State.rekeyCopy at e
  dsimp only at e
  split at e
  · split at e
    · cases e
    · next he => injection e with e; injection e with e1 _; subst e1; exact State.writeExtent_kept _ _ _ _ _ _ _ _ _ _ _ he
  · cases e

theorem State.rekeyAll_kept (h kind key : Nat) (l : List Copy) : ∀ (s : State) (f : Flight) {t : State} {g : Flight},
    s.rekeyAll h f kind key l = some (t, g) → Kept [.hides, .gates] s t := by
  induction l with
  | nil => intro s f t g e; injection e with e; injection e with e1 _; subst e1; exact Kept.refl _ _
  | cons c l ih =>
    intro s f t g e
    unfold State.rekeyAll at e
    split at e
    · cases e
    · next he => exact (State.rekeyCopy_kept _ _ _ _ _ _ he).trans (ih _ _ e)

/-- Writing pieces: both states it answers. -/
theorem State.writePieces_kept (h mask kind key : Nat) (coded : Bool) (book : Option (Nat × Nat)) (l : List (List Byte)) :
    ∀ (s : State) (r : Nat) (f : Flight) (es : List Nat),
      Kept [.hides, .gates] s (s.writePieces h mask kind key coded book r l f es).2.1 ∧
      ∀ x, (s.writePieces h mask kind key coded book r l f es).1 = some x → Kept [.hides, .gates] s x.1 := by
  induction l with
  | nil => intro s r f es; exact ⟨Kept.refl _ _, fun x e => by injection e with e; subst e; exact Kept.refl _ _⟩
  | cons b l ih =>
    intro s r f es
    unfold State.writePieces
    split
    · exact ⟨Kept.refl _ _, fun x e => by cases e⟩
    · next he =>
      have k := State.writeExtent_kept _ _ _ _ _ _ _ _ _ _ _ he
      exact ⟨k.trans (ih _ _ _ _).1, fun x e => k.trans ((ih _ _ _ _).2 x e)⟩

/-- Placing rods on flash: both states it answers. -/
theorem State.placeFlash_kept (h mask key : Nat) (d : Desc) (l : List (Copy × Rod)) : ∀ (s : State) (r : Nat) (f : Flight),
      Kept [.hides, .gates] s (s.placeFlash h mask key d r l f).2.1 ∧
      ∀ x, (s.placeFlash h mask key d r l f).1 = some x → Kept [.hides, .gates] s x.1 := by
  induction l with
  | nil => intro s r f; exact ⟨Kept.refl _ _, fun x e => by injection e with e; subst e; exact Kept.refl _ _⟩
  | cons b l ih =>
    intro s r f
    unfold State.placeFlash
    dsimp only
    split
    · exact ⟨Kept.refl _ _, fun x e => by cases e⟩
    · next he =>
      have k := State.writeExtent_kept _ _ _ _ _ _ _ _ _ _ _ he
      exact ⟨k.trans (ih _ _ _).1, fun x e => k.trans ((ih _ _ _).2 x e)⟩

/-- The state of the first or the second part of an answer with two. -/
theorem Kept.fstOf {α : Type} {T : List Part} {s t u : State} {g : α} {x : Option (State × α) × State × α} {y : State × α}
    (e : x = (some (t, g), y)) (h : ∀ z, x.1 = some z → Kept T u z.1) (a : Kept T s u) : Kept T s t := by
  subst e; exact a.trans (h _ rfl)
theorem Kept.fstOf3 {α β : Type} {T : List Part} {s t u : State} {g : α × β} {x : Option (State × α × β) × State × α} {y : State × α}
    (e : x = (some (t, g), y)) (h : ∀ z, x.1 = some z → Kept T u z.1) (a : Kept T s u) : Kept T s t := by
  subst e; exact a.trans (h _ rfl)
theorem Kept.sndOf {α β : Type} {T : List Part} {s t u : State} {g : α} {x : β × State × α} {y : β}
    (e : x = (y, t, g)) (h : Kept T u x.2.1) (a : Kept T s u) : Kept T s t := by
  subst e; exact a.trans h

theorem State.readExtent_kept (s : State) (h idx : Nat) : Kept [.hides, .gates] s (State.readExtent s h idx).1 := by
  unfold State.readExtent
  try dsimp only
  repeat' (first
    | with_reducible exact Kept.refl _ _ | (with_reducible show (_ : List Part) ⊆ _; decide)
    | (with_reducible apply Kept.andThen (State.startJob_kept _ _ _ _)) | split)

theorem State.pumpFetches_kept (s : State) (h : Nat) : Kept [.hides, .gates] s (State.pumpFetches s h) := by
  unfold State.pumpFetches
  try dsimp only
  repeat' (first
    | with_reducible exact Kept.refl _ _ | (with_reducible show (_ : List Part) ⊆ _; decide) | with_reducible apply Kept.ite
    | (with_reducible apply Kept.andThen (State.upO_kept _ _ _))
    | (with_reducible apply Kept.andThen (State.readExtent_kept _ _ _))
    | (with_reducible apply Kept.after (Kept.foldl _ (fun _ _ => ?_) _ _)))

theorem State.fetch_kept (s : State) (h order layer rod ext : Nat) : Kept [.hides, .gates] s (State.fetch s h order
    layer rod ext).1 := by
  unfold State.fetch
  try dsimp only
  repeat' (first
    | with_reducible exact Kept.refl _ _ | (with_reducible show (_ : List Part) ⊆ _; decide)
    | (with_reducible apply Kept.andThen (State.pumpFetches_kept _ _))
    | (with_reducible apply Kept.andThen (State.upO_kept _ _ _)))

/-! ### Queue.lean -/

theorem State.dmaRead_kept (s : State) (h order addr len : Nat) : Kept [.hides, .gates] s (State.dmaRead s h order
    addr len).1 := by
  unfold State.dmaRead
  try dsimp only
  repeat' (first
    | with_reducible exact Kept.refl _ _ | (with_reducible show (_ : List Part) ⊆ _; decide)
    | (with_reducible apply Kept.andThen (State.enqueue_kept _ _ _ _ _))
    | (with_reducible apply Kept.andThen (State.upO_kept _ _ _)))

theorem State.queueOrder_kept (s : State) (h : Nat) (o : Order) : Kept [.hides, .gates] s (State.queueOrder s h o) :=
    by
  unfold State.queueOrder
  try dsimp only
  repeat' (first
    | with_reducible exact Kept.refl _ _ | (with_reducible show (_ : List Part) ⊆ _; decide)
    | (with_reducible apply Kept.andThen (State.fetch_kept _ _ _ _ _ _))
    | (with_reducible apply Kept.andThen (State.upHide_kept _ _ _))
    | (with_reducible apply Kept.andThen (State.dmaRead_kept _ _ _ _ _))
    | (with_reducible apply Kept.after (Kept.foldl _ (fun _ _ => ?_) _ _)) | split)

theorem State.dispatchOne_kept (s : State) (h : Nat) (o : Order) : Kept [.hides, .imem, .gates] s (State.dispatchOne s
    h o) := by
  unfold State.dispatchOne
  try dsimp only
  repeat' (first
    | with_reducible exact Kept.refl _ _ | (with_reducible show (_ : List Part) ⊆ _; decide) | with_reducible apply Kept.ite
    | (with_reducible apply Kept.andThen (State.queueOrder_kept _ _ _))
    | (with_reducible apply Kept.andThen (State.checks_kept _ _ _))
    | (with_reducible apply Kept.andThen (State.endTaken_kept _ _ _ _ _ _))
    | (with_reducible apply Kept.andThen (State.upQ_kept _ _ _)) | split)

/-! ### Ops.lean -/

theorem State.upLd_kept (s : State) (l : Nat) (f : LdSt → LdSt) : Kept [.cxl] s (State.upLd s l f) := by
  unfold State.upLd
  try dsimp only
  repeat' (first
    | with_reducible exact Kept.refl _ _ | (with_reducible apply Or.inr; with_reducible rfl)
    | (with_reducible apply Or.inl; decide)
    | (with_reducible refine Kept.upd ?_ ?_ ?_ ?_ ?_ ?_ ?_ ?_ ?_ ?_ ?_ ?_ ?_ ?_ ?_ ?_ ?_))

theorem State.postEvent_kept (s : State) (h : Nat) (es : List (List Byte)) : Kept [.hides, .imem, .gates] s
    (State.postEvent s h es) := by
  unfold State.postEvent
  try dsimp only
  repeat' (first
    | with_reducible exact Kept.refl _ _ | (with_reducible show (_ : List Part) ⊆ _; decide) | with_reducible apply Kept.ite
    | (with_reducible apply Kept.andThen (State.upQ_kept _ _ _))
    | (with_reducible apply Kept.andThen (State.postEntries_kept _ _ _ _ _ _)))

theorem forAll_kept {T : List Part} (s : State) (l : List Nat) (f : State → Nat → State) (hT : [] ⊆ T) (h_f : ∀ x0 x1,
    Kept T x0 (f x0 x1)) : Kept T s (forAll s l f) := by
  unfold forAll
  try dsimp only
  repeat' (first
    | with_reducible exact Kept.refl _ _ | (with_reducible refine Kept.trans ?_ (h_f _ _))
    | (with_reducible apply Kept.after (Kept.foldl _ (fun _ _ => ?_) _ _)))

theorem State.deviceEventTo_kept (s : State) (l : List Nat) : Kept [.hides, .imem, .gates] s (State.deviceEventTo s l)
    := by
  unfold State.deviceEventTo
  try dsimp only
  repeat' (first
    | with_reducible exact Kept.refl _ _ | (with_reducible show (_ : List Part) ⊆ _; decide)
    | (with_reducible apply Kept.andThen (State.postEvent_kept _ _ _))
    | (with_reducible apply Kept.after (forAll_kept _ _ _ ?_ ?_)) | intro _)

theorem State.dmaWrite_kept (s : State) (h addr : Nat) (bs : List Byte) (ep : Bool) : Kept [.hides, .gates] s
    (State.dmaWrite s h addr bs ep) := by
  unfold State.dmaWrite
  try dsimp only
  repeat' (first
    | with_reducible exact Kept.refl _ _ | (with_reducible show (_ : List Part) ⊆ _; decide)
    | (with_reducible apply Kept.andThen (State.enqueue_kept _ _ _ _ _))
    | (with_reducible apply Kept.andThen (State.upC_kept _ _ _))
    | (with_reducible apply Kept.after (Kept.foldlPair _ (fun _ _ => ?_) _ _)))

/-! ### Publish.lean -/

theorem State.trace_kept (s : State) (h : Nat) (f : Flight) : Kept [.hides, .gates] s (State.trace s h f) := by
  unfold State.trace
  try dsimp only
  repeat' (first
    | with_reducible exact Kept.refl _ _ | (with_reducible show (_ : List Part) ⊆ _; decide) | with_reducible apply Kept.ite
    | (with_reducible apply Kept.andThen (State.upK_kept _ _ _))
    | (with_reducible apply Kept.andThen (State.dmaWrite_kept _ _ _ _ _)))

/-! ### Admit.lean -/

theorem State.keep_kept (s : State) (h : Nat) (f : Flight) : Kept [.hides] s (State.keep s h f) := by
  unfold State.keep
  try dsimp only
  repeat' (first
    | with_reducible exact Kept.refl _ _ | (with_reducible show (_ : List Part) ⊆ _; decide) | with_reducible apply Kept.ite
    | (with_reducible apply Kept.andThen (State.upQ_kept _ _ _)) | split)

theorem State.dropFlight_kept (s : State) (h seq : Nat) : Kept [.hides] s (State.dropFlight s h seq) := by
  unfold State.dropFlight
  try dsimp only
  repeat' (first
    | with_reducible exact Kept.refl _ _ | (with_reducible show (_ : List Part) ⊆ _; decide)
    | (with_reducible apply Kept.andThen (State.upQ_kept _ _ _)))

/-! ### Flash.lean -/

theorem State.dropFetches_kept (s : State) (h order : Nat) : Kept [.hides, .gates] s (State.dropFetches s h order) :=
    by
  unfold State.dropFetches
  try dsimp only
  repeat' (first
    | with_reducible exact Kept.refl _ _ | (with_reducible show (_ : List Part) ⊆ _; decide)
    | (with_reducible apply Kept.andThen (State.pumpFetches_kept _ _))
    | (with_reducible apply Kept.andThen (State.upO_kept _ _ _)))

/-! ### Ops.lean -/

theorem State.upPort_kept (s : State) (p : Nat) (f : PortSt → PortSt) : Kept [.ports] s (State.upPort s p f) := by
  unfold State.upPort
  try dsimp only
  repeat' (first
    | with_reducible exact Kept.refl _ _ | (with_reducible apply Or.inr; with_reducible rfl)
    | (with_reducible apply Or.inl; decide)
    | (with_reducible refine Kept.upd ?_ ?_ ?_ ?_ ?_ ?_ ?_ ?_ ?_ ?_ ?_ ?_ ?_ ?_ ?_ ?_ ?_))

/-- A value that BB_WARN takes is in its range (R366). -/
theorem warn_low {v : Nat} (h : within 10 95 (v % 128) = true) : 10 ≤ (BitVec.ofNat 32 (v % 128)).toNat := by
  simp [within] at h; simp; omega
theorem warn_high {v : Nat} (h : within 10 95 (v % 128) = true) : (BitVec.ofNat 32 (v % 128)).toNat ≤ 95 := by
  simp [within] at h; simp; omega

/-- A lifecycle transition lowers nothing and keeps the promise (R383). -/
theorem Dex.moveLife_grows {d d' : Dex} {target sealing : Nat} (e : d.moveLife target sealing = some d') :
    (d.Promise → d'.Promise) ∧ d'.planFloor = d.planFloor ∧ d.life.code ≤ d'.life.code ∧
      (d.sealedFuse = true → d'.sealedFuse = true) ∧ d'.draws = d.draws := by
  unfold Dex.moveLife at e
  split at e
  · next h => injection e with e; subst e; simp [Dex.Promise, h, Life.code]
  · next h => injection e with e; subst e; simp [Dex.Promise, h, Life.code]
  · next h => injection e with e; subst e; simp [Dex.Promise, h, Life.code]
  · cases e

/-! ### Publish.lean -/

theorem State.countFlash_kept (s : State) (h p : Nat) : Kept [.hides] s (State.countFlash s h p) := by
  unfold State.countFlash
  try dsimp only
  repeat' (first
    | with_reducible exact Kept.refl _ _ | (with_reducible show (_ : List Part) ⊆ _; decide)
    | (with_reducible apply Kept.andThen (State.upHide_kept _ _ _)))

theorem State.withhold_kept (s : State) (h p lba n : Nat) : Kept [.hides, .ports] s (State.withhold s h p lba n) := by
  unfold State.withhold
  try dsimp only
  repeat' (first
    | with_reducible exact Kept.refl _ _ | (with_reducible show (_ : List Part) ⊆ _; decide)
    | (with_reducible apply Kept.andThen (State.upPort_kept _ _ _))
    | (with_reducible apply Kept.andThen (State.upO_kept _ _ _)))

theorem State.trimEnds_kept (s : State) (h p lba n st : Nat) : Kept [.hides, .ports] s (State.trimEnds s h p lba n st)
    := by
  unfold State.trimEnds
  try dsimp only
  repeat' (first
    | with_reducible exact Kept.refl _ _ | (with_reducible show (_ : List Part) ⊆ _; decide) | with_reducible apply Kept.ite
    | (with_reducible apply Kept.andThen (State.countFlash_kept _ _ _))
    | (with_reducible apply Kept.andThen (State.withhold_kept _ _ _ _ _))
    | (with_reducible apply Kept.andThen (State.upO_kept _ _ _)))

theorem State.trimRefused_kept (s : State) (h p lba n : Nat) : Kept [.hides, .ports] s (State.trimRefused s h p lba n)
    := by
  unfold State.trimRefused
  try dsimp only
  repeat' (first
    | with_reducible exact Kept.refl _ _ | (with_reducible show (_ : List Part) ⊆ _; decide)
    | (with_reducible apply Kept.andThen (State.upPort_kept _ _ _))
    | (with_reducible apply Kept.andThen (State.trimEnds_kept _ _ _ _ _ _)))

theorem State.askTrim_kept (s : State) (h p lba n : Nat) : Kept [.hides, .gates, .ports] s (State.askTrim s h p lba n)
    := by
  unfold State.askTrim
  try dsimp only
  repeat' (first
    | with_reducible exact Kept.refl _ _ | (with_reducible show (_ : List Part) ⊆ _; decide) | with_reducible apply Kept.ite
    | (with_reducible apply Kept.andThen (State.trimRefused_kept _ _ _ _ _))
    | (with_reducible apply Kept.andThen (State.enqueue_kept _ _ _ _ _)))

/-! ### Flash.lean -/

theorem State.freeExtentNow_kept (s : State) (h idx : Nat) : Kept [.hides, .gates, .ports] s (State.freeExtentNow s h
    idx) := by
  unfold State.freeExtentNow
  try dsimp only
  repeat' (first
    | with_reducible exact Kept.refl _ _ | (with_reducible show (_ : List Part) ⊆ _; decide) | with_reducible apply Kept.ite
    | (with_reducible apply Kept.andThen (State.askTrim_kept _ _ _ _ _))
    | (with_reducible apply Kept.andThen (State.upO_kept _ _ _)) | split)

/-! ### Admit.lean -/

theorem State.giveBack_kept (s : State) (h : Nat) (f : Flight) : Kept [.hides, .gates, .ports] s (State.giveBack s h
    f) := by
  unfold State.giveBack
  try dsimp only
  repeat' (first
    | with_reducible exact Kept.refl _ _ | (with_reducible show (_ : List Part) ⊆ _; decide)
    | (with_reducible apply Kept.andThen (State.freeExtentNow_kept _ _ _))
    | (with_reducible apply Kept.andThen (State.upO_kept _ _ _))
    | (with_reducible apply Kept.after (Kept.foldl _ (fun _ _ => ?_) _ _)))

/-! ### Ops.lean -/

theorem State.upAcre_kept (s : State) (a : Nat) (f : Acre → Acre) : Kept [.acres] s (State.upAcre s a f) := by
  unfold State.upAcre
  try dsimp only
  repeat' (first
    | with_reducible exact Kept.refl _ _ | (with_reducible apply Or.inr; with_reducible rfl)
    | (with_reducible apply Or.inl; decide)
    | (with_reducible refine Kept.upd ?_ ?_ ?_ ?_ ?_ ?_ ?_ ?_ ?_ ?_ ?_ ?_ ?_ ?_ ?_ ?_ ?_))

theorem State.deviceEvent_kept (s : State) : Kept [.hides, .imem, .gates] s (State.deviceEvent s) := by
  unfold State.deviceEvent
  try dsimp only
  repeat' (first
    | with_reducible exact Kept.refl _ _ | (with_reducible show (_ : List Part) ⊆ _; decide)
    | (with_reducible apply Kept.andThen (State.deviceEventTo_kept _ _)))

/-! ### Admit.lean -/

theorem State.putFlight_kept (s : State) (h : Nat) (f : Flight) : Kept [.hides] s (State.putFlight s h f) := by
  unfold State.putFlight
  try dsimp only
  repeat' (first
    | with_reducible exact Kept.refl _ _ | (with_reducible show (_ : List Part) ⊆ _; decide) | with_reducible apply Kept.ite
    | (with_reducible apply Kept.andThen (State.upQ_kept _ _ _))
    | (with_reducible apply Kept.andThen (State.dropFlight_kept _ _ _))
    | (with_reducible apply Kept.andThen (State.keep_kept _ _ _)))

/-! ### Faults.lean -/

theorem State.trigger_kept (s : State) (w : Switch) : Kept [.plan] s (State.trigger s w) := by
  unfold State.trigger
  try dsimp only
  repeat' (first
    | with_reducible exact Kept.refl _ _ | (with_reducible apply Or.inr; with_reducible rfl)
    | (with_reducible apply Or.inl; decide) | with_reducible apply Kept.ite
    | (with_reducible refine Kept.upd ?_ ?_ ?_ ?_ ?_ ?_ ?_ ?_ ?_ ?_ ?_ ?_ ?_ ?_ ?_ ?_ ?_))

/-! ### Ops.lean -/

theorem State.upCluster_kept (s : State) (c : Nat) (f : ClusterSt → ClusterSt) : Kept [.clusters] s (State.upCluster s
    c f) := by
  unfold State.upCluster
  try dsimp only
  repeat' (first
    | with_reducible exact Kept.refl _ _ | (with_reducible apply Or.inr; with_reducible rfl)
    | (with_reducible apply Or.inl; decide)
    | (with_reducible refine Kept.upd ?_ ?_ ?_ ?_ ?_ ?_ ?_ ?_ ?_ ?_ ?_ ?_ ?_ ?_ ?_ ?_ ?_))

/-! ### Faults.lean -/

theorem State.failShared_kept (s : State) (c : Nat) : Kept [.clusters, .plan, .mgmt, .box] s (State.failShared s c) :=
    by
  unfold State.failShared
  try dsimp only
  repeat' (first
    | with_reducible exact Kept.refl _ _ | (with_reducible show (_ : List Part) ⊆ _; decide) | with_reducible apply Kept.ite
    | (with_reducible apply Kept.andThen (State.record_kept _ _ _ _ _))
    | (with_reducible apply Kept.andThen (State.trigger_kept _ _))
    | (with_reducible apply Kept.andThen (State.upCluster_kept _ _ _)))

theorem State.sharedEvent_kept (s : State) (c : Nat) : Kept [.clusters, .plan, .mgmt, .box] s (State.sharedEvent s c)
    := by
  unfold State.sharedEvent
  try dsimp only
  repeat' (first
    | with_reducible exact Kept.refl _ _ | (with_reducible show (_ : List Part) ⊆ _; decide) | with_reducible apply Kept.ite
    | (with_reducible apply Kept.andThen (State.failShared_kept _ _))
    | (with_reducible apply Kept.andThen (State.upCluster_kept _ _ _)))

/-! ### Ops.lean -/

theorem State.upRegion_kept (s : State) (r : Nat) (f : Region → Region) : Kept [.regions] s (State.upRegion s r f) :=
    by
  unfold State.upRegion
  try dsimp only
  repeat' (first
    | with_reducible exact Kept.refl _ _ | (with_reducible apply Or.inr; with_reducible rfl)
    | (with_reducible apply Or.inl; decide)
    | (with_reducible refine Kept.upd ?_ ?_ ?_ ?_ ?_ ?_ ?_ ?_ ?_ ?_ ?_ ?_ ?_ ?_ ?_ ?_ ?_))

/-! ### Faults.lean -/

theorem State.failRegion_kept (s : State) (r check : Nat) : Kept [.regions, .plan, .mgmt, .box] s (State.failRegion s
    r check) := by
  unfold State.failRegion
  try dsimp only
  repeat' (first
    | with_reducible exact Kept.refl _ _ | (with_reducible show (_ : List Part) ⊆ _; decide) | with_reducible apply Kept.ite
    | (with_reducible apply Kept.andThen (State.record_kept _ _ _ _ _))
    | (with_reducible apply Kept.andThen (State.trigger_kept _ _))
    | (with_reducible apply Kept.andThen (State.upRegion_kept _ _ _)))

theorem State.linkEvent_kept (s : State) (r : Nat) : Kept [.regions, .plan, .mgmt, .box] s (State.linkEvent s r) := by
  unfold State.linkEvent
  try dsimp only
  repeat' (first
    | with_reducible exact Kept.refl _ _ | (with_reducible show (_ : List Part) ⊆ _; decide) | with_reducible apply Kept.ite
    | (with_reducible apply Kept.andThen (State.failRegion_kept _ _ _))
    | (with_reducible apply Kept.andThen (State.upRegion_kept _ _ _)))

theorem State.countSuspect_kept (s : State) (x : Suspect) : Kept [.regions, .clusters, .plan, .mgmt, .box] s
    (State.countSuspect s x) := by
  unfold State.countSuspect
  try dsimp only
  repeat' (first
    | with_reducible exact Kept.refl _ _ | (with_reducible show (_ : List Part) ⊆ _; decide) | with_reducible apply Kept.ite
    | (with_reducible apply Kept.andThen (State.sharedEvent_kept _ _))
    | (with_reducible apply Kept.andThen (State.linkEvent_kept _ _)))

/-! ### Queue.lean -/

theorem State.clearTags_kept (s : State) (h : Nat) (r : OutRing) : Kept [.imem] s (State.clearTags s h r) := by
  unfold State.clearTags
  try dsimp only
  repeat' (first
    | with_reducible exact Kept.refl _ _ | (with_reducible show (_ : List Part) ⊆ _; decide)
    | (with_reducible apply Kept.andThen (State.writeMem_kept _ _ _ _))
    | (with_reducible apply Kept.after (Kept.foldl _ (fun _ _ => ?_) _ _)))

theorem ringDisable_kept (h : Nat) (kind : RingKind) (n : Nat) (ctl : U32) (s : State) : Kept [.hides] s (ringDisable
    h kind n ctl s) := by
  unfold ringDisable
  try dsimp only
  repeat' (first
    | with_reducible exact Kept.refl _ _ | (with_reducible show (_ : List Part) ⊆ _; decide) | with_reducible apply Kept.ite
    | (with_reducible apply Kept.andThen (State.upQ_kept _ _ _)) | split)

theorem State.zeroRing_kept (s : State) (h : Nat) (base : U64) (span : Nat) : Kept [.imem] s (State.zeroRing s h base
    span) := by
  unfold State.zeroRing
  try dsimp only
  repeat' (first
    | with_reducible exact Kept.refl _ _ | (with_reducible show (_ : Part) ∈ _; decide)
    | (with_reducible refine Kept.mem ?_ ?_ (fun k => Memory.wf_zero _ _ k)))

theorem ringEnable_kept (h : Nat) (kind : RingKind) (n : Nat) (ctl : U32) (s : State) : Kept [.hides, .imem, .gates] s
    (ringEnable h kind n ctl s) := by
  unfold ringEnable
  try dsimp only
  repeat' (first
    | with_reducible exact Kept.refl _ _ | (with_reducible show (_ : List Part) ⊆ _; decide) | with_reducible apply Kept.ite
    | (with_reducible apply Kept.andThen (State.postEvent_kept _ _ _))
    | (with_reducible apply Kept.andThen (State.zeroRing_kept _ _ _ _))
    | (with_reducible apply Kept.andThen (State.upQ_kept _ _ _))
    | (with_reducible apply Kept.andThen (State.ringErr_kept _ _ _ _))
    | (with_reducible apply Kept.after (Kept.foldl _ (fun _ _ => ?_) _ _)) | split)

theorem State.dispatch_kept (s : State) (h : Nat) (n0 : Nat) : Kept [.hides, .imem, .gates] s (State.dispatch s h n0)
    := by
  induction n0 generalizing s with
  | zero => exact Kept.refl _ _
  | succ k ih =>
    unfold State.dispatch
    dsimp only
    split
    · exact Kept.refl _ _
    · split
      · refine Kept.trans ?_ (ih _)
        refine Kept.andThen (State.endTaken_kept _ _ _ _ _ _) (by decide) ?_
        split
        · exact Kept.andThen (State.upQ_kept _ _ _) (by decide) ((State.upQ_kept _ _ _).mono (by decide))
        · exact (State.upQ_kept _ _ _).mono (by decide)
      · split
        · exact Kept.refl _ _
        · exact Kept.trans (Kept.andThen (State.dispatchOne_kept _ _ _) (by decide) ((State.upQ_kept _ _ _).mono (by decide))) (ih _)

theorem State.dispatchAll_kept (s : State) (h : Nat) : Kept [.hides, .imem, .gates] s (State.dispatchAll s h) := by
  unfold State.dispatchAll
  try dsimp only
  repeat' (first
    | with_reducible exact Kept.refl _ _ | (with_reducible show (_ : List Part) ⊆ _; decide)
    | (with_reducible apply Kept.andThen (State.dispatch_kept _ _ _)))

/-! ### Publish.lean -/

theorem State.lapChain_kept (s : State) (h n : Nat) : Kept [.hides, .imem, .gates, .ports, .screen] s (State.lapChain
    s h n) := by
  unfold State.lapChain
  try dsimp only
  repeat' (first
    | with_reducible exact Kept.refl _ _ | (with_reducible apply Or.inr; with_reducible rfl)
    | (with_reducible apply Or.inl; decide) | (with_reducible show (_ : List Part) ⊆ _; decide)
    | (with_reducible apply Kept.andThen (State.trace_kept _ _ _))
    | (with_reducible apply Kept.andThen (State.complete_kept _ _ _))
    | (with_reducible apply Kept.andThen (State.countCt_kept _ _ _))
    | (with_reducible apply Kept.andThen (State.askTrim_kept _ _ _ _ _))
    | (with_reducible apply Kept.andThen (State.setHide_kept _ _ _))
    | (with_reducible apply Kept.after (Kept.foldl _ (fun _ _ => ?_) _ _)) | split
    | (with_reducible refine Kept.upd ?_ ?_ ?_ ?_ ?_ ?_ ?_ ?_ ?_ ?_ ?_ ?_ ?_ ?_ ?_ ?_ ?_))

/-! ### Admit.lean -/

theorem State.admit_kept {T : List Part} (s : State) (h c : Nat) (cls : SlotClass) (is : Order → Bool) (fit : HideSt →
    Order → Fit) (eff : State → Order → Flight → State) (hT : [.hides, .gates] ⊆ T) (h_eff : ∀ x0 x1 x2, Kept T x0
    (eff x0 x1 x2)) : Kept T s (State.admitFirst s h c cls is fit eff) := by
  unfold State.admitFirst
  try dsimp only
  repeat' (first
    | with_reducible exact Kept.refl _ _ | (with_reducible assumption) | (refine List.Subset.trans ?_ hT; decide)
    | with_reducible apply Kept.ite | (with_reducible refine Kept.trans ?_ (h_eff _ _ _))
    | (with_reducible apply Kept.andThen (State.upHide_kept _ _ _))
    | (with_reducible apply Kept.andThen (State.keep_kept _ _ _))
    | (with_reducible apply Kept.andThen (State.dropFetches_kept _ _ _))
    | (with_reducible apply Kept.andThen (State.upQ_kept _ _ _)) | split)

/-! ### Faults.lean -/

theorem State.failUnit_kept (s : State) (c phys : Nat) : Kept [.clusters, .plan, .mgmt, .box] s (State.failUnit s c
    phys) := by
  unfold State.failUnit
  try dsimp only
  repeat' (first
    | with_reducible exact Kept.refl _ _ | (with_reducible show (_ : List Part) ⊆ _; decide) | with_reducible apply Kept.ite
    | (with_reducible apply Kept.andThen (State.trigger_kept _ _))
    | (with_reducible apply Kept.andThen (State.record_kept _ _ _ _ _))
    | (with_reducible apply Kept.andThen (State.upCluster_kept _ _ _)))

theorem State.unitOutcome_kept (s : State) (c phys : Nat) (confirmed : Bool) : Kept [.clusters, .plan, .mgmt, .box] s
    (State.unitOutcome s c phys confirmed) := by
  unfold State.unitOutcome
  try dsimp only
  repeat' (first
    | with_reducible exact Kept.refl _ _ | (with_reducible show (_ : List Part) ⊆ _; decide) | with_reducible apply Kept.ite
    | (with_reducible apply Kept.andThen (State.failUnit_kept _ _ _))
    | (with_reducible apply Kept.andThen (State.upCluster_kept _ _ _)))

/-! ### Queue.lean -/

theorem State.takeEntries_kept (s : State) (h ring n : Nat) (timeout : Bool) : Kept [.hides, .imem] s
    (State.takeEntries s h ring n timeout) := by
  unfold State.takeEntries
  try dsimp only
  repeat' (first
    | with_reducible exact Kept.refl _ _ | (with_reducible show (_ : List Part) ⊆ _; decide) | with_reducible apply Kept.ite
    | (with_reducible apply Kept.andThen (State.writeMem_kept _ _ _ _))
    | (with_reducible apply Kept.andThen (State.upQ_kept _ _ _)) | (with_reducible apply Kept.andThen (State.upC_kept _ _ _))
    | (with_reducible apply Kept.after (Kept.foldl _ (fun _ _ => ?_) _ _)) | split)

theorem packetTimeout_kept (h ring : Nat) (s : State) : Kept [.hides, .imem, .gates] s (packetTimeout h ring s) := by
  unfold packetTimeout
  try dsimp only
  repeat' (first
    | with_reducible exact Kept.refl _ _ | (with_reducible show (_ : List Part) ⊆ _; decide) | with_reducible apply Kept.ite
    | (with_reducible apply Kept.andThen (State.takeEntries_kept _ _ _ _ _))
    | (with_reducible apply Kept.andThen (State.dispatchAll_kept _ _)) | split)

theorem queuePointerMismatch_kept (h : Nat) (kind : RingKind) (n : Nat) (s : State) : Kept [.hides, .imem, .gates,
    .mgmt, .box] s (queuePointerMismatch h kind n s) := by
  unfold queuePointerMismatch
  try dsimp only
  repeat' (first
    | with_reducible exact Kept.refl _ _ | (with_reducible show (_ : List Part) ⊆ _; decide)
    | (with_reducible apply Kept.andThen (State.clearTags_kept _ _ _))
    | (with_reducible apply Kept.andThen (State.postEvent_kept _ _ _))
    | (with_reducible apply Kept.andThen (State.upQ_kept _ _ _))
    | (with_reducible apply Kept.andThen (State.record_kept _ _ _ _ _)) | split)

theorem heldPostTimeout_kept (h : Nat) (s : State) : Kept [.hides] s (heldPostTimeout h s) := by
  unfold heldPostTimeout
  try dsimp only
  repeat' (first
    | with_reducible exact Kept.refl _ _ | (with_reducible show (_ : List Part) ⊆ _; decide)
    | (with_reducible apply Kept.andThen (State.upQ_kept _ _ _)))

theorem takePacket_kept (h : Nat) (s : State) : Kept [.hides, .imem, .gates] s (takePacket h s) := by
  unfold takePacket
  try dsimp only
  repeat' (first
    | with_reducible exact Kept.refl _ _ | (with_reducible show (_ : List Part) ⊆ _; decide) | with_reducible apply Kept.ite
    | (with_reducible apply Kept.andThen (State.takeEntries_kept _ _ _ _ _))
    | (with_reducible apply Kept.andThen (State.dispatchAll_kept _ _)) | split)

/-! ### Ops.lean -/

theorem State.freeValue_kept (s : State) : Kept [.free] s (State.freeValue s).1 := by
  unfold State.freeValue
  try dsimp only
  repeat' (first
    | with_reducible exact Kept.refl _ _ | (with_reducible apply Or.inr; with_reducible rfl)
    | (with_reducible apply Or.inl; decide)
    | (with_reducible refine Kept.upd ?_ ?_ ?_ ?_ ?_ ?_ ?_ ?_ ?_ ?_ ?_ ?_ ?_ ?_ ?_ ?_ ?_))

end Sys2Proof.Machine
end

