-- ==== Sys2Proof/Laws/KeptOrders.lean ====
section
/-!
SUPPORT. What each operation keeps, and the parts of the state it may change: the orders, transactions, replay and DMA.
-/

namespace Sys2Proof.Machine
open Sys2Proof

/-! ### Txn.lean -/

theorem beginWork_kept (h : Nat) (s : State) (o : Order) : Kept [.hides, .imem, .gates] s (beginWork h s o) := by
  unfold beginWork
  try dsimp only
  repeat' (first
    | with_reducible exact Kept.refl _ _ | (with_reducible show (_ : List Part) ⊆ _; decide)
    | (with_reducible apply Kept.andThen (State.upQ_kept _ _ _))
    | (with_reducible apply Kept.andThen (State.endTaken_kept _ _ _ _ _ _))
    | (with_reducible apply Kept.andThen (State.checks_kept _ _ _))
    | (with_reducible apply Kept.andThen (State.dispatchOne_kept _ _ _)) | split)

/-! ### Move.lean -/

theorem State.forget_kept (s : State) (h : Nat) (f : Flight) : Kept [.hides] s (State.forget s h f).1 := by
  unfold State.forget
  try dsimp only
  repeat' (first
    | with_reducible exact Kept.refl _ _ | (with_reducible show (_ : List Part) ⊆ _; decide)
    | (with_reducible apply Kept.andThen (State.upO_kept _ _ _)))

/-! ### Append.lean -/

theorem State.revoke_kept (s : State) (h : Nat) (f : Flight) : Kept [.hides, .gates, .ports] s (State.revoke s h f) :=
    by
  unfold State.revoke
  try dsimp only
  repeat' (first
    | with_reducible exact Kept.refl _ _ | (with_reducible show (_ : List Part) ⊆ _; decide)
    | (with_reducible apply Kept.andThen (State.upO_kept _ _ _))
    | (with_reducible apply Kept.andThen (State.giveBack_kept _ _ _)))

/-! ### StepOrders.lean -/

theorem State.putPieces_kept (s : State) (h : Nat) (f : Flight) (ps : List HeldOut) : Kept [.hides, .gates] s
    (State.putPieces s h f ps).1 := by
  unfold State.putPieces
  try dsimp only
  repeat' (first
    | with_reducible exact Kept.refl _ _ | (with_reducible show (_ : List Part) ⊆ _; decide) | with_reducible apply Kept.ite
    | (with_reducible apply Kept.andThen (State.upC_kept _ _ _))
    | (with_reducible apply Kept.andThen (State.dmaWrite_kept _ _ _ _ _))
    | (with_reducible apply Kept.after (Kept.foldlPair _ (fun _ _ => ?_) _ _)) | split)

/-! ### Replays.lean -/

theorem State.release_kept (s : State) (h : Nat) (f : Flight) (entries : List Nat) (g : HeldOut → HeldOut) : Kept
    [.hides, .gates] s (State.release s h f entries g).1 := by
  unfold State.release
  try dsimp only
  repeat' (first
    | with_reducible exact Kept.refl _ _ | (with_reducible show (_ : List Part) ⊆ _; decide)
    | (with_reducible apply Kept.andThen (State.dmaWrite_kept _ _ _ _ _))
    | (with_reducible apply Kept.andThen (State.putPieces_kept _ _ _ _))
    | (with_reducible apply Kept.after (Kept.foldl _ (fun _ _ => ?_) _ _)) | split)

/-! ### Txn.lean -/

theorem State.abortTxn_kept (s : State) (h : Nat) (t : Txn) : Kept [.hides, .gates, .ports] s (State.abortTxn s h t)
    := by
  unfold State.abortTxn
  try dsimp only
  repeat' (first
    | with_reducible exact Kept.refl _ _ | (with_reducible show (_ : List Part) ⊆ _; decide)
    | (with_reducible apply Kept.andThen (State.upQ_kept _ _ _))
    | (with_reducible apply Kept.andThen (State.revoke_kept _ _ _))
    | (with_reducible apply Kept.after (Kept.foldl _ (fun _ _ => ?_) _ _)))

/-! ### Meta.lean -/

theorem State.settle_kept (s : State) (h : Nat) (f : Flight) : Kept [.hides] s (State.settle s h f) := by
  unfold State.settle
  try dsimp only
  repeat' (first
    | with_reducible exact Kept.refl _ _ | (with_reducible show (_ : List Part) ⊆ _; decide) | with_reducible apply Kept.ite
    | (with_reducible apply Kept.andThen (State.keep_kept _ _ _))
    | (with_reducible apply Kept.andThen (State.putFlight_kept _ _ _)))

/-! ### Rods.lean -/

theorem State.hold_kept (s : State) (h : Nat) (f : Flight) (consumers : UnitRef → List Nat) (l : List Suspect) : Kept
    [.regions, .clusters, .plan, .mgmt, .box, .screen] s (State.hold s h f consumers l).1 := by
  unfold State.hold
  try dsimp only
  repeat' (first
    | with_reducible exact Kept.refl _ _ | (with_reducible apply Or.inr; with_reducible rfl)
    | (with_reducible apply Or.inl; decide) | (with_reducible show (_ : List Part) ⊆ _; decide)
    | (with_reducible apply Kept.andThen (State.countSuspect_kept _ _))
    | (with_reducible apply Kept.after (Kept.foldlPair _ (fun _ _ => ?_) _ _))
    | (with_reducible refine Kept.upd ?_ ?_ ?_ ?_ ?_ ?_ ?_ ?_ ?_ ?_ ?_ ?_ ?_ ?_ ?_ ?_ ?_))

/-! ### Meta.lean -/

theorem State.close_kept (s : State) (h : Nat) (f : Flight) (e : Env) : Kept [.regions, .clusters, .plan, .hides,
    .mgmt, .box, .screen] s (State.close s h f e) := by
  unfold State.close
  try dsimp only
  repeat' (first
    | with_reducible exact Kept.refl _ _ | (with_reducible show (_ : List Part) ⊆ _; decide)
    | (with_reducible apply Kept.andThen (State.settle_kept _ _ _))
    | (with_reducible apply Kept.andThen (State.hold_kept _ _ _ _ _)))

/-! ### Rods.lean -/

theorem State.eccResult_kept (s : State) (h : Nat) (e : DramErr) : Kept [.clusters, .hides, .screen] s
    (State.eccResult s h e) := by
  unfold State.eccResult
  try dsimp only
  repeat' (first
    | with_reducible exact Kept.refl _ _ | (with_reducible apply Or.inr; with_reducible rfl)
    | (with_reducible apply Or.inl; decide) | (with_reducible show (_ : List Part) ⊆ _; decide)
    | with_reducible apply Kept.ite | (with_reducible apply Kept.andThen (State.upCluster_kept _ _ _))
    | (with_reducible apply Kept.andThen (State.upO_kept _ _ _)) | split
    | (with_reducible refine Kept.upd ?_ ?_ ?_ ?_ ?_ ?_ ?_ ?_ ?_ ?_ ?_ ?_ ?_ ?_ ?_ ?_ ?_))

theorem State.stored_kept (s : State) (h : Nat) (e : Env) : Kept [.clusters, .hides, .screen] s (State.stored s h e)
    := by
  unfold State.stored
  try dsimp only
  repeat' (first
    | with_reducible exact Kept.refl _ _ | (with_reducible show (_ : List Part) ⊆ _; decide)
    | (with_reducible apply Kept.andThen (State.upO_kept _ _ _))
    | (with_reducible apply Kept.andThen (State.eccResult_kept _ _ _))
    | (with_reducible apply Kept.after (Kept.foldl _ (fun _ _ => ?_) _ _)))

/-! ### Meta.lean -/

theorem forkWork_kept (h : Nat) (e : Env) (s : State) (o : Order) (f : Flight) : Kept [.regions, .clusters, .plan,
    .hides, .mgmt, .box, .screen] s (forkWork h e s o f) := by
  unfold forkWork
  try dsimp only
  repeat' (first
    | with_reducible exact Kept.refl _ _ | (with_reducible show (_ : List Part) ⊆ _; decide) | with_reducible apply Kept.ite
    | (with_reducible apply Kept.andThen (State.close_kept _ _ _ _))
    | (with_reducible apply Kept.andThen (State.keep_kept _ _ _))
    | (with_reducible apply Kept.andThen (State.stored_kept _ _ _)) | split)

/-! ### Move.lean -/

theorem State.abandon_kept (s : State) (h : Nat) (f : Flight) (status detail : Nat) (result : List Byte := []) : Kept
    [.hides, .gates, .ports] s (State.abandon s h f status detail result) := by
  unfold State.abandon
  try dsimp only
  repeat' (first
    | with_reducible exact Kept.refl _ _ | (with_reducible show (_ : List Part) ⊆ _; decide)
    | (with_reducible apply Kept.andThen (State.settle_kept _ _ _))
    | (with_reducible apply Kept.andThen (State.giveBack_kept _ _ _))
    | (with_reducible apply Kept.andThen (State.forget_kept _ _ _)))

/-! ### Meta.lean -/

theorem createEnd_kept (h : Nat) (s : State) (o : Order) (d : Desc) (q : Seq) (f : Flight) (e : Env) : Kept [.regions,
    .clusters, .plan, .hides, .mgmt, .box, .screen] s (createEnd h s o d q f e) := by
  unfold createEnd
  try dsimp only
  repeat' (first
    | with_reducible exact Kept.refl _ _ | (with_reducible show (_ : List Part) ⊆ _; decide)
    | (with_reducible apply Kept.andThen (State.close_kept _ _ _ _))
    | (with_reducible apply Kept.andThen (State.upO_kept _ _ _)))

theorem State.undo_kept (s : State) (h : Nat) (f : Flight) (status detail : Nat) : Kept [.hides, .gates, .ports] s
    (State.undo s h f status detail) := by
  unfold State.undo
  try dsimp only
  repeat' (first
    | with_reducible exact Kept.refl _ _ | (with_reducible show (_ : List Part) ⊆ _; decide)
    | (with_reducible apply Kept.andThen (State.settle_kept _ _ _))
    | (with_reducible apply Kept.andThen (State.giveBack_kept _ _ _)))

theorem createStep_kept (h c : Nat) (e : Env) (s : State) (f : Flight) : Kept [.regions, .clusters, .plan, .hides,
    .gates, .ports, .mgmt, .box, .screen] s (createStep h c e s f) := by
  unfold createStep
  try dsimp only
  repeat' (first
    | with_reducible exact Kept.refl _ _ | (with_reducible show (_ : List Part) ⊆ _; decide) | with_reducible apply Kept.ite
    | (with_reducible apply Kept.andThen (State.settle_kept _ _ _))
    | (with_reducible apply Kept.andThen (createEnd_kept _ _ _ _ _ _ _))
    | (with_reducible apply Kept.andThen (State.upO_kept _ _ _))
    | (with_reducible apply Kept.andThen (State.undo_kept _ _ _ _ _))
    | (with_reducible apply Kept.andThen (State.stored_kept _ _ _)) | split
    | (with_reducible apply Kept.andThen (State.rekeyAll_kept _ _ _ _ _ _ ‹_ = some (_, _)›)))

/-! ### StepOrders.lean -/

theorem State.stepDone_kept (s : State) (h : Nat) (f : Flight) (j : StepJob) (es : List Entry) : Kept [.hides, .gates]
    s (State.stepDone s h f j es) := by
  unfold State.stepDone
  try dsimp only
  repeat' (first
    | with_reducible exact Kept.refl _ _ | (with_reducible show (_ : List Part) ⊆ _; decide)
    | (with_reducible apply Kept.andThen (State.settle_kept _ _ _))
    | (with_reducible apply Kept.andThen (State.dropFetches_kept _ _ _)))

theorem State.stepNext_kept (s : State) (h : Nat) (f : Flight) (j : StepJob) (es : List Entry) : Kept [.hides, .gates]
    s (State.stepNext s h f j es) := by
  unfold State.stepNext
  try dsimp only
  repeat' (first
    | with_reducible exact Kept.refl _ _ | (with_reducible show (_ : List Part) ⊆ _; decide) | with_reducible apply Kept.ite
    | (with_reducible apply Kept.andThen (State.settle_kept _ _ _))
    | (with_reducible apply Kept.andThen (State.stepDone_kept _ _ _ _ _)))

theorem State.withdraw_kept (s : State) (h : Nat) (f : Flight) (ext : Nat) : Kept [.hides, .gates] s (State.withdraw s
    h f ext) := by
  unfold State.withdraw
  try dsimp only
  repeat' (first
    | with_reducible exact Kept.refl _ _ | (with_reducible show (_ : List Part) ⊆ _; decide) | with_reducible apply Kept.ite
    | (with_reducible apply Kept.andThen (State.settle_kept _ _ _))
    | (with_reducible apply Kept.andThen (State.stepNext_kept _ _ _ _ _))
    | (with_reducible apply Kept.andThen (State.putPieces_kept _ _ _ _))
    | (with_reducible apply Kept.after (Kept.foldlPair _ (fun _ _ => ?_) _ _)) | split)

theorem State.markFetch_kept (s : State) (h id : Nat) (k : Fetch) : Kept [.hides] s (State.markFetch s h id k) := by
  unfold State.markFetch
  try dsimp only
  repeat' (first
    | with_reducible exact Kept.refl _ _ | (with_reducible show (_ : List Part) ⊆ _; decide)
    | (with_reducible apply Kept.andThen (State.upO_kept _ _ _)))

theorem State.missFetch_kept (s : State) (h id : Nat) (k : Fetch) : Kept [.hides, .gates] s (State.missFetch s h id k)
    := by
  unfold State.missFetch
  try dsimp only
  repeat' (first
    | with_reducible exact Kept.refl _ _ | (with_reducible show (_ : List Part) ⊆ _; decide) | with_reducible apply Kept.ite
    | (with_reducible apply Kept.andThen (State.withdraw_kept _ _ _ _))
    | (with_reducible apply Kept.andThen (State.markFetch_kept _ _ _ _)) | split)

theorem fetchDeadline_kept (h id : Nat) (s : State) : Kept [.hides, .gates] s (fetchDeadline h id s) := by
  unfold fetchDeadline
  try dsimp only
  repeat' (first
    | with_reducible exact Kept.refl _ _ | (with_reducible show (_ : List Part) ⊆ _; decide) | with_reducible apply Kept.ite
    | (with_reducible apply Kept.andThen (State.missFetch_kept _ _ _ _))
    | (with_reducible apply Kept.andThen (State.markFetch_kept _ _ _ _)) | split)

/-! ### Move.lean -/

theorem placeEnd_kept (h : Nat) (s : State) (j : PlaceJob) (lines : Nat) (f : Flight) (e : Env) : Kept [.regions,
    .clusters, .plan, .hides, .mgmt, .box, .screen] s (placeEnd h s j lines f e) := by
  unfold placeEnd
  try dsimp only
  repeat' (first
    | with_reducible exact Kept.refl _ _ | (with_reducible show (_ : List Part) ⊆ _; decide)
    | (with_reducible apply Kept.andThen (State.close_kept _ _ _ _))
    | (with_reducible apply Kept.andThen (State.forget_kept _ _ _)))

theorem swapOutEnd_kept (h : Nat) (s : State) (f : Flight) (serial size : Nat) (ext : Option Nat) (e : Env) : Kept
    [.regions, .clusters, .plan, .hides, .mgmt, .box, .screen] s (swapOutEnd h s f serial size ext e) := by
  unfold swapOutEnd
  try dsimp only
  repeat' (first
    | with_reducible exact Kept.refl _ _ | (with_reducible show (_ : List Part) ⊆ _; decide)
    | (with_reducible apply Kept.andThen (State.close_kept _ _ _ _))
    | (with_reducible apply Kept.andThen (State.forget_kept _ _ _)))

theorem swapOutStep_kept (h c : Nat) (e : Env) (s : State) (f : Flight) : Kept [.regions, .clusters, .plan, .hides,
    .gates, .ports, .mgmt, .box, .screen] s (swapOutStep h c e s f) := by
  unfold swapOutStep
  try dsimp only
  repeat' (first
    | with_reducible exact Kept.refl _ _ | (with_reducible show (_ : List Part) ⊆ _; decide) | with_reducible apply Kept.ite
    | (with_reducible apply Kept.andThen (State.upO_kept _ _ _))
    | (with_reducible apply Kept.andThen (State.settle_kept _ _ _))
    | (with_reducible apply Kept.andThen (State.forget_kept _ _ _))
    | (with_reducible apply Kept.andThen (State.dmaWrite_kept _ _ _ _ _))
    | (with_reducible apply Kept.andThen (State.upK_kept _ _ _))
    | (with_reducible apply Kept.andThen (swapOutEnd_kept _ _ _ _ _ _ _))
    | (with_reducible apply Kept.andThen (State.abandon_kept _ _ _ _ _ _))
    | (with_reducible apply Kept.andThen (State.stored_kept _ _ _)) | split
    | (refine Kept.sndOf ‹_› ((State.writePieces_kept _ _ _ _ _ _ _ _ _ _ _).1.mono ?_) ?_)
    | (refine Kept.fstOf3 ‹_› (fun z hz => ((State.writePieces_kept _ _ _ _ _ _ _ _ _ _ _).2 z hz).mono ?_) ?_))

/-! ### Meta.lean -/

theorem State.beginCopies_kept (s : State) (h : Nat) (f : Flight) (cs : List (Nat × Nat × Page × Bool)) : Kept
    [.hides, .gates] s (State.beginCopies s h f cs).1 := by
  unfold State.beginCopies
  try dsimp only
  repeat' (first
    | with_reducible exact Kept.refl _ _ | (with_reducible show (_ : List Part) ⊆ _; decide)
    | (with_reducible apply Kept.andThen (State.readExtent_kept _ _ _))
    | (with_reducible apply Kept.after (Kept.foldlPair _ (fun _ _ => ?_) _ _)) | split)

/-! ### Move.lean -/

theorem swapOutWork_kept (h c : Nat) (e : Env) (s : State) (o : Order) (f : Flight) : Kept [.regions, .clusters,
    .plan, .hides, .gates, .ports, .mgmt, .box, .screen] s (swapOutWork h c e s o f) := by
  unfold swapOutWork
  try dsimp only
  repeat' (first
    | with_reducible exact Kept.refl _ _ | (with_reducible show (_ : List Part) ⊆ _; decide) | with_reducible apply Kept.ite
    | (with_reducible apply Kept.andThen (swapOutStep_kept _ _ _ _ _))
    | (with_reducible apply Kept.andThen (State.beginCopies_kept _ _ _ _))
    | (with_reducible apply Kept.andThen (State.keep_kept _ _ _))
    | (with_reducible apply Kept.andThen (State.stored_kept _ _ _)) | split)

/-! ### StepOrders.lean -/

theorem State.emit_kept (s : State) (h : Nat) (f : Flight) (i : Nat) (ps : List HeldOut) : Kept [.hides, .gates] s
    (State.emit s h f i ps).1 := by
  unfold State.emit
  try dsimp only
  repeat' (first
    | with_reducible exact Kept.refl _ _ | (with_reducible show (_ : List Part) ⊆ _; decide)
    | (with_reducible apply Kept.andThen (State.putPieces_kept _ _ _ _)) | split)

theorem stepRun_kept (h c : Nat) (e : Env) (s : State) (f : Flight) : Kept [.regions, .clusters, .plan, .hides,
    .gates, .mgmt, .box, .screen] s (stepRun h c e s f) := by
  unfold stepRun
  try dsimp only
  repeat' (first
    | with_reducible exact Kept.refl _ _ | (with_reducible show (_ : List Part) ⊆ _; decide)
    | (with_reducible apply Kept.andThen (State.stepNext_kept _ _ _ _ _))
    | (with_reducible apply Kept.andThen (State.emit_kept _ _ _ _ _))
    | (with_reducible apply Kept.andThen (State.hold_kept _ _ _ _ _))
    | (with_reducible apply Kept.andThen (State.dropFetches_kept _ _ _))
    | (with_reducible apply Kept.andThen (State.settle_kept _ _ _))
    | (with_reducible apply Kept.andThen (State.stored_kept _ _ _))
    | (with_reducible apply Kept.after (Kept.foldlPair _ (fun _ _ => ?_) _ _)) | split)

theorem State.queueBlocks_kept (s : State) (h : Nat) (f : Flight) (ks : List (Nat × Nat)) : Kept [.hides] s
    (State.queueBlocks s h f ks).1 := by
  unfold State.queueBlocks
  try dsimp only
  repeat' (first
    | with_reducible exact Kept.refl _ _ | (with_reducible show (_ : List Part) ⊆ _; decide)
    | (with_reducible apply Kept.andThen (State.upO_kept _ _ _)))

theorem State.stepFetches_kept (s : State) (h : Nat) (f : Flight) (ns : List Need) : Kept [.hides, .gates] s
    (State.stepFetches s h f ns).1 := by
  unfold State.stepFetches
  try dsimp only
  repeat' (first
    | with_reducible exact Kept.refl _ _ | (with_reducible show (_ : List Part) ⊆ _; decide)
    | (with_reducible apply Kept.andThen (State.fetch_kept _ _ _ _ _ _))
    | (with_reducible apply Kept.andThen (State.upO_kept _ _ _))
    | (with_reducible apply Kept.after (Kept.foldlPair _ (fun _ _ => ?_) _ _)) | split)

theorem stepWork_kept (h c : Nat) (e : Env) (s : State) (o : Order) (f : Flight) : Kept [.regions, .clusters, .plan,
    .hides, .gates, .mgmt, .box, .screen] s (stepWork h c e s o f) := by
  unfold stepWork
  try dsimp only
  repeat' (first
    | with_reducible exact Kept.refl _ _ | (with_reducible show (_ : List Part) ⊆ _; decide) | with_reducible apply Kept.ite
    | (with_reducible apply Kept.andThen (stepRun_kept _ _ _ _ _))
    | (with_reducible apply Kept.andThen (State.queueBlocks_kept _ _ _ _))
    | (with_reducible apply Kept.andThen (State.stepFetches_kept _ _ _ _))
    | (with_reducible apply Kept.andThen (State.dropFetches_kept _ _ _))
    | (with_reducible apply Kept.andThen (State.keep_kept _ _ _))
    | (with_reducible apply Kept.andThen (State.stored_kept _ _ _)) | split)

/-! ### Move.lean -/

theorem State.readExtents_kept (s : State) (h : Nat) (f : Flight) (es : List Nat) : Kept [.hides, .gates] s
    (State.readExtents s h f es).1 := by
  unfold State.readExtents
  try dsimp only
  repeat' (first
    | with_reducible exact Kept.refl _ _ | (with_reducible show (_ : List Part) ⊆ _; decide)
    | (with_reducible apply Kept.andThen (State.readExtent_kept _ _ _))
    | (with_reducible apply Kept.after (Kept.foldlPair _ (fun _ _ => ?_) _ _)))

theorem placeObjWork_kept (h : Nat) (e : Env) (s : State) (o : Order) (f : Flight) : Kept [.regions, .clusters, .plan,
    .hides, .gates, .ports, .mgmt, .box, .screen] s (placeObjWork h e s o f) := by
  unfold placeObjWork
  try dsimp only
  repeat' (first
    | with_reducible exact Kept.refl _ _ | (with_reducible show (_ : List Part) ⊆ _; decide) | with_reducible apply Kept.ite
    | (with_reducible apply Kept.andThen (State.readExtents_kept _ _ _ _))
    | (with_reducible apply Kept.andThen (State.abandon_kept _ _ _ _ _ _))
    | (with_reducible apply Kept.andThen (State.close_kept _ _ _ _))
    | (with_reducible apply Kept.andThen (State.keep_kept _ _ _)) | split
    | (refine Kept.sndOf ‹_› ((State.writePieces_kept _ _ _ _ _ _ _ _ _ _ _).1.mono ?_) ?_)
    | (refine Kept.fstOf3 ‹_› (fun z hz => ((State.writePieces_kept _ _ _ _ _ _ _ _ _ _ _).2 z hz).mono ?_) ?_))

/-! ### Replays.lean -/

theorem State.upUnit_kept (s : State) (id : Nat) (f : Replay → Replay) : Kept [.screen] s (State.upUnit s id f) := by
  unfold State.upUnit
  try dsimp only
  repeat' (first
    | with_reducible exact Kept.refl _ _ | (with_reducible apply Or.inr; with_reducible rfl)
    | (with_reducible apply Or.inl; decide)
    | (with_reducible refine Kept.upd ?_ ?_ ?_ ?_ ?_ ?_ ?_ ?_ ?_ ?_ ?_ ?_ ?_ ?_ ?_ ?_ ?_))

/-! ### Meta.lean -/

theorem admitSeqWork_kept (h : Nat) (e : Env) (s : State) (o : Order) (f : Flight) : Kept [.regions, .clusters, .plan,
    .hides, .mgmt, .box, .screen] s (admitSeqWork h e s o f) := by
  unfold admitSeqWork
  try dsimp only
  repeat' (first
    | with_reducible exact Kept.refl _ _ | (with_reducible show (_ : List Part) ⊆ _; decide) | with_reducible apply Kept.ite
    | (with_reducible apply Kept.andThen (State.close_kept _ _ _ _))
    | (with_reducible apply Kept.andThen (State.upO_kept _ _ _))
    | (with_reducible apply Kept.andThen (State.keep_kept _ _ _))
    | (with_reducible apply Kept.andThen (State.stored_kept _ _ _)) | split)

/-! ### Deliver.lean -/

theorem State.deliverEnd_kept (s : State) (h : Nat) (f : Flight) (e : Env) : Kept [.regions, .clusters, .plan, .hides,
    .gates, .mgmt, .box, .screen] s (State.deliverEnd s h f e) := by
  unfold State.deliverEnd
  try dsimp only
  repeat' (first
    | with_reducible exact Kept.refl _ _ | (with_reducible show (_ : List Part) ⊆ _; decide)
    | (with_reducible apply Kept.andThen (State.close_kept _ _ _ _))
    | (with_reducible apply Kept.andThen (State.dropFetches_kept _ _ _)))

/-! ### StepOrders.lean -/

theorem State.endFetch_kept (s : State) (h id : Nat) (k : Fetch) : Kept [.hides, .gates] s (State.endFetch s h id k)
    := by
  unfold State.endFetch
  try dsimp only
  repeat' (first
    | with_reducible exact Kept.refl _ _ | (with_reducible show (_ : List Part) ⊆ _; decide)
    | (with_reducible apply Kept.andThen (State.upO_kept _ _ _))
    | (with_reducible apply Kept.andThen (State.pumpFetches_kept _ _)))

/-! ### Deliver.lean -/

theorem State.deliverOne_kept (s : State) (h : Nat) (j : DeliverJob) (f : Flight) (r : Nat × Nat × Nat) : Kept
    [.hides, .gates] s (State.deliverOne s h j f r).1 := by
  unfold State.deliverOne
  try dsimp only
  repeat' (first
    | with_reducible exact Kept.refl _ _ | (with_reducible show (_ : List Part) ⊆ _; decide) | with_reducible apply Kept.ite
    | (with_reducible apply Kept.andThen (State.endFetch_kept _ _ _ _))
    | (with_reducible apply Kept.andThen (State.dmaWrite_kept _ _ _ _ _)) | split)

theorem deliverDeadline_kept (h : Nat) (s : State) : Kept [.regions, .clusters, .plan, .hides, .gates, .mgmt, .box,
    .screen] s (deliverDeadline h s) := by
  unfold deliverDeadline
  try dsimp only
  repeat' (first
    | with_reducible exact Kept.refl _ _ | (with_reducible show (_ : List Part) ⊆ _; decide)
    | (with_reducible apply Kept.andThen (State.deliverEnd_kept _ _ _ _))
    | (with_reducible apply Kept.andThen (State.dmaWrite_kept _ _ _ _ _))
    | (with_reducible apply Kept.andThen (State.deliverOne_kept _ _ _ _ _))
    | (with_reducible apply Kept.andThen (State.dropFetches_kept _ _ _))
    | (with_reducible apply Kept.andThen (State.settle_kept _ _ _))
    | (with_reducible apply Kept.after (Kept.foldl _ (fun _ _ => ?_) _ _))
    | (with_reducible apply Kept.after (Kept.foldlPair _ (fun _ _ => ?_) _ _)) | split)

/-! ### Meta.lean -/

theorem promoteEnd_kept (h : Nat) (s : State) (f : Flight) (i : Nat) (p : Pfx) (e : Env) : Kept [.regions, .clusters,
    .plan, .hides, .mgmt, .box, .screen] s (promoteEnd h s f i p e) := by
  unfold promoteEnd
  try dsimp only
  repeat' (first
    | with_reducible exact Kept.refl _ _ | (with_reducible show (_ : List Part) ⊆ _; decide)
    | (with_reducible apply Kept.andThen (State.close_kept _ _ _ _))
    | (with_reducible apply Kept.andThen (State.upO_kept _ _ _)))

theorem promoteStep_kept (h c : Nat) (e : Env) (s : State) (f : Flight) : Kept [.regions, .clusters, .plan, .hides,
    .gates, .ports, .mgmt, .box, .screen] s (promoteStep h c e s f) := by
  unfold promoteStep
  try dsimp only
  repeat' (first
    | with_reducible exact Kept.refl _ _ | (with_reducible show (_ : List Part) ⊆ _; decide) | with_reducible apply Kept.ite
    | (with_reducible apply Kept.andThen (State.settle_kept _ _ _))
    | (with_reducible apply Kept.andThen (promoteEnd_kept _ _ _ _ _ _))
    | (with_reducible apply Kept.andThen (State.upO_kept _ _ _))
    | (with_reducible apply Kept.andThen (State.undo_kept _ _ _ _ _))
    | (with_reducible apply Kept.andThen (State.stored_kept _ _ _)) | split
    | (with_reducible apply Kept.andThen (State.rekeyAll_kept _ _ _ _ _ _ ‹_ = some (_, _)›)))

/-! ### Deliver.lean -/

theorem deliverStep_kept (h c : Nat) (e : Env) (s : State) (f : Flight) : Kept [.regions, .clusters, .plan, .hides,
    .gates, .mgmt, .box, .screen] s (deliverStep h c e s f) := by
  unfold deliverStep
  try dsimp only
  repeat' (first
    | with_reducible exact Kept.refl _ _ | (with_reducible show (_ : List Part) ⊆ _; decide) | with_reducible apply Kept.ite
    | (with_reducible apply Kept.andThen (State.deliverEnd_kept _ _ _ _))
    | (with_reducible apply Kept.andThen (State.deliverOne_kept _ _ _ _ _))
    | (with_reducible apply Kept.andThen (State.dropFetches_kept _ _ _))
    | (with_reducible apply Kept.andThen (State.settle_kept _ _ _))
    | (with_reducible apply Kept.andThen (State.stored_kept _ _ _))
    | (with_reducible apply Kept.after (Kept.foldlPair _ (fun _ _ => ?_) _ _)) | split)

theorem deliverWork_kept (h c : Nat) (e : Env) (s : State) (o : Order) (f : Flight) : Kept [.regions, .clusters,
    .plan, .hides, .gates, .mgmt, .box, .screen] s (deliverWork h c e s o f) := by
  unfold deliverWork
  try dsimp only
  repeat' (first
    | with_reducible exact Kept.refl _ _ | (with_reducible show (_ : List Part) ⊆ _; decide) | with_reducible apply Kept.ite
    | (with_reducible apply Kept.andThen (deliverStep_kept _ _ _ _ _))
    | (with_reducible apply Kept.andThen (State.queueBlocks_kept _ _ _ _))
    | (with_reducible apply Kept.andThen (State.fetch_kept _ _ _ _ _ _))
    | (with_reducible apply Kept.andThen (State.keep_kept _ _ _))
    | (with_reducible apply Kept.andThen (State.stored_kept _ _ _))
    | (with_reducible apply Kept.after (Kept.foldlPair _ (fun _ _ => ?_) _ _)) | split)

/-! ### Txn.lean -/

theorem txnTimeout_kept (h ring : Nat) (s : State) : Kept [.hides, .imem, .gates] s (txnTimeout h ring s) := by
  unfold txnTimeout
  try dsimp only
  repeat' (first
    | with_reducible exact Kept.refl _ _ | (with_reducible show (_ : List Part) ⊆ _; decide)
    | (with_reducible apply Kept.andThen (State.dropFetches_kept _ _ _))
    | (with_reducible apply Kept.andThen (State.endTaken_kept _ _ _ _ _ _))
    | (with_reducible apply Kept.andThen (State.dispatchAll_kept _ _))
    | (with_reducible apply Kept.andThen (State.upO_kept _ _ _)) | (with_reducible apply Kept.andThen (State.upQ_kept _ _ _))
    | (with_reducible apply Kept.after (Kept.foldl _ (fun _ _ => ?_) _ _)) | split)

/-! ### Meta.lean -/

theorem State.run_kept {T : List Part} (s : State) (h c : Nat) (cls : SlotClass) (is : Order → Bool) (step : State →
    Flight → State) (work : State → Order → Flight → State) (hT : [.hides, .gates] ⊆ T) (h_step : ∀ x0 x1, Kept T x0
    (step x0 x1)) (h_work : ∀ x0 x1 x2, Kept T x0 (work x0 x1 x2)) : Kept T s (State.run s h c cls is step work) := by
  unfold State.run
  try dsimp only
  repeat' (first
    | with_reducible exact Kept.refl _ _ | (with_reducible assumption) | (with_reducible refine Kept.trans ?_ (h_step _ _))
    | (with_reducible apply Kept.after (State.admit_kept _ _ _ _ _ _ _ ?_ ?_)) | split)

/-! ### StateScore.lean -/

theorem State.closeOut_kept (s : State) (h : Nat) (f : Flight) (e : Env) (ps : List HeldOut) : Kept [.regions,
    .clusters, .plan, .hides, .gates, .mgmt, .box, .screen] s (State.closeOut s h f e ps) := by
  unfold State.closeOut
  try dsimp only
  repeat' (first
    | with_reducible exact Kept.refl _ _ | (with_reducible show (_ : List Part) ⊆ _; decide) | with_reducible apply Kept.ite
    | (with_reducible apply Kept.andThen (State.dmaWrite_kept _ _ _ _ _))
    | (with_reducible apply Kept.andThen (State.settle_kept _ _ _))
    | (with_reducible apply Kept.andThen (State.hold_kept _ _ _ _ _))
    | (with_reducible apply Kept.after (Kept.foldl _ (fun _ _ => ?_) _ _)))

/-! ### Txn.lean -/

theorem dropWork_kept (h : Nat) (s : State) (o : Order) : Kept [.hides, .imem, .gates] s (dropWork h s o) := by
  unfold dropWork
  try dsimp only
  repeat' (first
    | with_reducible exact Kept.refl _ _ | (with_reducible show (_ : List Part) ⊆ _; decide) | with_reducible apply Kept.ite
    | (with_reducible apply Kept.andThen (State.writeMem_kept _ _ _ _))
    | (with_reducible apply Kept.andThen (State.backInvalidate_kept _ _ _ _))
    | (with_reducible apply Kept.andThen (State.upQ_kept _ _ _))
    | (with_reducible apply Kept.andThen (State.endTaken_kept _ _ _ _ _ _))
    | (with_reducible apply Kept.andThen (State.checks_kept _ _ _))
    | (with_reducible apply Kept.andThen (State.dispatchOne_kept _ _ _)) | split)

/-! ### Move.lean -/

theorem State.swapInFail_kept (s : State) (h : Nat) (f : Flight) (status : Nat) : Kept [.hides, .gates, .ports] s
    (State.swapInFail s h f status) := by
  unfold State.swapInFail
  try dsimp only
  repeat' (first
    | with_reducible exact Kept.refl _ _ | (with_reducible show (_ : List Part) ⊆ _; decide)
    | (with_reducible apply Kept.andThen (State.abandon_kept _ _ _ _ _ _))
    | (with_reducible apply Kept.andThen (State.upO_kept _ _ _)) | split)

/-! ### Replays.lean -/

theorem heldOutRotation_kept (c : Nat) (s : State) : Kept [.clusters] s (heldOutRotation c s) := by
  unfold heldOutRotation
  try dsimp only
  repeat' (first
    | with_reducible exact Kept.refl _ _ | (with_reducible show (_ : List Part) ⊆ _; decide) | with_reducible apply Kept.ite
    | (with_reducible apply Kept.andThen (State.upCluster_kept _ _ _)) | split)

/-! ### Move.lean -/

theorem placeStep_kept (h c : Nat) (e : Env) (s : State) (f : Flight) : Kept [.regions, .clusters, .plan, .hides,
    .gates, .ports, .mgmt, .box, .screen] s (placeStep h c e s f) := by
  unfold placeStep
  try dsimp only
  repeat' (first
    | with_reducible exact Kept.refl _ _ | (with_reducible show (_ : List Part) ⊆ _; decide) | with_reducible apply Kept.ite
    | (with_reducible apply Kept.andThen (State.upO_kept _ _ _))
    | (with_reducible apply Kept.andThen (State.settle_kept _ _ _))
    | (with_reducible apply Kept.andThen (State.forget_kept _ _ _))
    | (with_reducible apply Kept.andThen (placeEnd_kept _ _ _ _ _ _))
    | (with_reducible apply Kept.andThen (State.abandon_kept _ _ _ _ _ _))
    | (with_reducible apply Kept.andThen (State.stored_kept _ _ _)) | split
    | (refine Kept.sndOf ‹_› ((State.placeFlash_kept _ _ _ _ _ _ _ _).1.mono ?_) ?_)
    | (refine Kept.fstOf ‹_› (fun z hz => ((State.placeFlash_kept _ _ _ _ _ _ _ _).2 z hz).mono ?_) ?_))

/-! ### Txn.lean -/

theorem State.takeMarker_kept {T : List Part} (s : State) (h op : Nat) (eff : State → Order → State) (hT : [.hides,
    .imem, .gates] ⊆ T) (h_eff : ∀ x0 x1, Kept T x0 (eff x0 x1)) : Kept T s (State.takeMarker s h op eff) := by
  unfold State.takeMarker
  split
  · exact Kept.refl _ _
  · next he =>
    exact Kept.andThen (State.dispatchAll_kept _ _) hT
      (((State.frontMarker_kept _ _ _ he).mono (List.Subset.trans (by decide) hT)).trans (h_eff _ _))

theorem closeWork_kept (h : Nat) (commit : Bool) (s : State) (o : Order) : Kept [.hides, .imem, .gates] s (closeWork h
    commit s o) := by
  unfold closeWork
  try dsimp only
  repeat' (first
    | with_reducible exact Kept.refl _ _ | (with_reducible show (_ : List Part) ⊆ _; decide)
    | (with_reducible apply Kept.andThen (State.upQ_kept _ _ _))
    | (with_reducible apply Kept.andThen (State.endTaken_kept _ _ _ _ _ _))
    | (with_reducible apply Kept.andThen (State.checks_kept _ _ _)) | split)

/-! ### Move.lean -/

theorem swapInStep_kept (h c : Nat) (e : Env) (s : State) (f : Flight) : Kept [.regions, .clusters, .plan, .hides,
    .gates, .ports, .mgmt, .box, .screen] s (swapInStep h c e s f) := by
  unfold swapInStep
  try dsimp only
  repeat' (first
    | with_reducible exact Kept.refl _ _ | (with_reducible show (_ : List Part) ⊆ _; decide) | with_reducible apply Kept.ite
    | (with_reducible apply Kept.andThen (State.close_kept _ _ _ _))
    | (with_reducible apply Kept.andThen (State.upO_kept _ _ _))
    | (with_reducible apply Kept.andThen (State.forget_kept _ _ _))
    | (with_reducible apply Kept.andThen (State.swapInFail_kept _ _ _ _))
    | (with_reducible apply Kept.andThen (State.stored_kept _ _ _)) | split)

/-! ### StepOrders.lean -/

theorem State.renewFetches_kept (s : State) (h : Nat) (f : Flight) : Kept [.hides, .gates] s (State.renewFetches s h
    f).1 := by
  unfold State.renewFetches
  try dsimp only
  repeat' (first
    | with_reducible exact Kept.refl _ _ | (with_reducible show (_ : List Part) ⊆ _; decide)
    | (with_reducible apply Kept.andThen (State.fetch_kept _ _ _ _ _ _))
    | (with_reducible apply Kept.andThen (State.endFetch_kept _ _ _ _))
    | (with_reducible apply Kept.andThen (State.markFetch_kept _ _ _ _))
    | (with_reducible apply Kept.after (Kept.foldlPair _ (fun _ _ => ?_) _ _)) | split)

/-! ### Replays.lean -/

theorem dramWriteback_kept (c : Nat) (s : State) : Kept [.clusters] s (dramWriteback c s) := by
  unfold dramWriteback
  try dsimp only
  repeat' (first
    | with_reducible exact Kept.refl _ _ | (with_reducible show (_ : List Part) ⊆ _; decide)
    | (with_reducible apply Kept.andThen (State.upCluster_kept _ _ _)))

theorem State.dropUnit_kept (s : State) (id : Nat) : Kept [.screen] s (State.dropUnit s id) := by
  unfold State.dropUnit
  try dsimp only
  repeat' (first
    | with_reducible exact Kept.refl _ _ | (with_reducible apply Or.inr; with_reducible rfl)
    | (with_reducible apply Or.inl; decide)
    | (with_reducible refine Kept.upd ?_ ?_ ?_ ?_ ?_ ?_ ?_ ?_ ?_ ?_ ?_ ?_ ?_ ?_ ?_ ?_ ?_))

/-! ### Load.lean -/

theorem loadSetStep_kept (h c : Nat) (e : Env) (s : State) (f : Flight) : Kept [.regions, .clusters, .plan, .hides,
    .gates, .ports, .mgmt, .box, .screen] s (loadSetStep h c e s f) := by
  unfold loadSetStep
  try dsimp only
  repeat' (first
    | with_reducible exact Kept.refl _ _ | (with_reducible show (_ : List Part) ⊆ _; decide) | with_reducible apply Kept.ite
    | (with_reducible apply Kept.andThen (State.close_kept _ _ _ _))
    | (with_reducible apply Kept.andThen (State.forget_kept _ _ _))
    | (with_reducible apply Kept.andThen (State.upO_kept _ _ _))
    | (with_reducible apply Kept.andThen (State.abandon_kept _ _ _ _ _ _))
    | (with_reducible apply Kept.andThen (State.stored_kept _ _ _)) | split)

/-! ### Replays.lean -/

theorem State.resolve_kept (s : State) (u : Replay) (failed : Bool) : Kept [.hides, .gates, .ports] s (State.resolve s
    u failed) := by
  unfold State.resolve
  try dsimp only
  repeat' (first
    | with_reducible exact Kept.refl _ _ | (with_reducible show (_ : List Part) ⊆ _; decide) | with_reducible apply Kept.ite
    | (with_reducible apply Kept.andThen (State.revoke_kept _ _ _))
    | (with_reducible apply Kept.andThen (State.settle_kept _ _ _))
    | (with_reducible apply Kept.andThen (State.release_kept _ _ _ _ _)) | split)

/-! ### Move.lean -/

theorem placeRods_kept (h c : Nat) (e : Env) (s : State) (o : Order) (f : Flight) : Kept [.regions, .clusters, .plan,
    .hides, .gates, .ports, .mgmt, .box, .screen] s (placeRods h c e s o f) := by
  unfold placeRods
  try dsimp only
  repeat' (first
    | with_reducible exact Kept.refl _ _ | (with_reducible show (_ : List Part) ⊆ _; decide) | with_reducible apply Kept.ite
    | (with_reducible apply Kept.andThen (placeStep_kept _ _ _ _ _))
    | (with_reducible apply Kept.andThen (State.queueBlocks_kept _ _ _ _))
    | (with_reducible apply Kept.andThen (State.readExtent_kept _ _ _))
    | (with_reducible apply Kept.andThen (State.upO_kept _ _ _))
    | (with_reducible apply Kept.andThen (State.keep_kept _ _ _))
    | (with_reducible apply Kept.after (Kept.foldlPair _ (fun _ _ => ?_) _ _)) | split)

/-! ### Meta.lean -/

theorem State.failTokens_kept (s : State) (h : Nat) : Kept [.hides, .imem, .gates] s (State.failTokens s h) := by
  unfold State.failTokens
  try dsimp only
  repeat' (first
    | with_reducible exact Kept.refl _ _ | (with_reducible show (_ : List Part) ⊆ _; decide)
    | (with_reducible apply Kept.andThen (State.endTaken_kept _ _ _ _ _ _))
    | (with_reducible apply Kept.andThen (State.upHide_kept _ _ _))
    | (with_reducible apply Kept.after (Kept.foldl _ (fun _ _ => ?_) _ _)))

/-! ### Load.lean -/

theorem loadBookStep_kept (h c : Nat) (e : Env) (s : State) (f : Flight) : Kept [.regions, .clusters, .plan, .hides,
    .gates, .ports, .mgmt, .box, .screen] s (loadBookStep h c e s f) := by
  unfold loadBookStep
  try dsimp only
  repeat' (first
    | with_reducible exact Kept.refl _ _ | (with_reducible show (_ : List Part) ⊆ _; decide) | with_reducible apply Kept.ite
    | (with_reducible apply Kept.andThen (State.close_kept _ _ _ _))
    | (with_reducible apply Kept.andThen (State.forget_kept _ _ _))
    | (with_reducible apply Kept.andThen (State.upO_kept _ _ _))
    | (with_reducible apply Kept.andThen (State.abandon_kept _ _ _ _ _ _))
    | (with_reducible apply Kept.andThen (State.stored_kept _ _ _)) | split)

/-! ### StepOrders.lean -/

theorem deferReentry_kept (h c : Nat) (e : Env) (s : State) : Kept [.regions, .clusters, .plan, .hides, .gates, .mgmt,
    .box, .screen] s (deferReentry h c e s) := by
  unfold deferReentry
  try dsimp only
  repeat' (first
    | with_reducible exact Kept.refl _ _ | (with_reducible show (_ : List Part) ⊆ _; decide) | with_reducible apply Kept.ite
    | (with_reducible apply Kept.andThen (stepRun_kept _ _ _ _ _))
    | (with_reducible apply Kept.andThen (State.putFlight_kept _ _ _))
    | (with_reducible apply Kept.andThen (State.renewFetches_kept _ _ _))
    | (with_reducible apply Kept.andThen (State.upQ_kept _ _ _))
    | (with_reducible apply Kept.andThen (State.dropFetches_kept _ _ _))
    | (with_reducible apply Kept.andThen (State.settle_kept _ _ _)) | split)

/-! ### Move.lean -/

theorem placeObjEnd_kept (h : Nat) (s : State) (f : Flight) (fx : List Fx) (e : Env) : Kept [.regions, .clusters,
    .plan, .hides, .mgmt, .box, .screen] s (placeObjEnd h s f fx e) := by
  unfold placeObjEnd
  try dsimp only
  repeat' (first
    | with_reducible exact Kept.refl _ _ | (with_reducible show (_ : List Part) ⊆ _; decide)
    | (with_reducible apply Kept.andThen (State.close_kept _ _ _ _))
    | (with_reducible apply Kept.andThen (State.upO_kept _ _ _))
    | (with_reducible apply Kept.andThen (State.forget_kept _ _ _)))

/-! ### StateScore.lean -/

theorem scoreTable_kept (h : Nat) (e : Env) (s : State) (o : Order) (f : Flight) : Kept [.regions, .clusters, .plan,
    .hides, .gates, .mgmt, .box, .screen] s (scoreTable h e s o f) := by
  unfold scoreTable
  try dsimp only
  repeat' (first
    | with_reducible exact Kept.refl _ _ | (with_reducible show (_ : List Part) ⊆ _; decide) | with_reducible apply Kept.ite
    | (with_reducible apply Kept.andThen (State.closeOut_kept _ _ _ _ _))
    | (with_reducible apply Kept.andThen (State.dmaWrite_kept _ _ _ _ _))
    | (with_reducible apply Kept.andThen (State.keep_kept _ _ _))
    | (with_reducible apply Kept.after (Kept.foldl _ (fun _ _ => ?_) _ _)) | split)

/-! ### Replays.lean -/

theorem State.health_kept (s : State) (u : Replay) (out : Nat) (o : Option Order) : Kept [.hides, .imem, .gates,
    .mgmt, .box] s (State.health s u out o) := by
  unfold State.health
  try dsimp only
  repeat' (first
    | with_reducible exact Kept.refl _ _ | (with_reducible show (_ : List Part) ⊆ _; decide)
    | (with_reducible apply Kept.andThen (State.postEvent_kept _ _ _))
    | (with_reducible apply Kept.andThen (State.record_kept _ _ _ _ _)) | split)

theorem State.outcome_kept (s : State) (u : Replay) (out : Nat) : Kept [.clusters, .plan, .hides, .imem, .gates,
    .ports, .mgmt, .box, .screen] s (State.outcome s u out) := by
  unfold State.outcome
  try dsimp only
  repeat' (first
    | with_reducible exact Kept.refl _ _ | (with_reducible apply Or.inr; with_reducible rfl)
    | (with_reducible apply Or.inl; decide) | (with_reducible show (_ : List Part) ⊆ _; decide)
    | with_reducible apply Kept.ite | (with_reducible apply Kept.andThen (State.resolve_kept _ _ _))
    | (with_reducible apply Kept.andThen (State.unitOutcome_kept _ _ _ _))
    | (with_reducible apply Kept.andThen (State.health_kept _ _ _ _))
    | (with_reducible apply Kept.andThen (State.upC_kept _ _ _))
    | (with_reducible apply Kept.andThen (State.dropUnit_kept _ _)) | split
    | (with_reducible refine Kept.upd ?_ ?_ ?_ ?_ ?_ ?_ ?_ ?_ ?_ ?_ ?_ ?_ ?_ ?_ ?_ ?_ ?_))

theorem replayStart_kept (r : Nat) (s : State) : Kept [.clusters, .plan, .hides, .imem, .gates, .ports, .mgmt, .box,
    .screen] s (replayStart r s) := by
  unfold replayStart
  try dsimp only
  repeat' (first
    | with_reducible exact Kept.refl _ _ | (with_reducible show (_ : List Part) ⊆ _; decide) | with_reducible apply Kept.ite
    | (with_reducible apply Kept.andThen (State.upUnit_kept _ _ _))
    | (with_reducible apply Kept.andThen (State.outcome_kept _ _ _)) | split)

/-! ### Meta.lean -/

theorem lookupEnd_kept (h : Nat) (s : State) (f : Flight) (w : LookupWork) (e : Env) : Kept [.regions, .clusters,
    .plan, .hides, .mgmt, .box, .screen] s (lookupEnd h s f w e) := by
  unfold lookupEnd
  try dsimp only
  repeat' (first
    | with_reducible exact Kept.refl _ _ | (with_reducible show (_ : List Part) ⊆ _; decide) | with_reducible apply Kept.ite
    | (with_reducible apply Kept.andThen (State.settle_kept _ _ _))
    | (with_reducible apply Kept.andThen (State.close_kept _ _ _ _)) | split)

theorem lookupContinue_kept (h c : Nat) (e : Env) (s : State) : Kept [.regions, .clusters, .plan, .hides, .mgmt, .box,
    .screen] s (lookupContinue h c e s) := by
  unfold lookupContinue
  try dsimp only
  repeat' (first
    | with_reducible exact Kept.refl _ _ | (with_reducible show (_ : List Part) ⊆ _; decide) | with_reducible apply Kept.ite
    | (with_reducible apply Kept.andThen (State.upO_kept _ _ _))
    | (with_reducible apply Kept.andThen (lookupEnd_kept _ _ _ _ _))
    | (with_reducible apply Kept.andThen (State.upQ_kept _ _ _))
    | (with_reducible apply Kept.andThen (State.stored_kept _ _ _)) | split)

/-! ### Load.lean -/

theorem loadBookWork_kept (h : Nat) (e : Env) (s : State) (o : Order) (f : Flight) : Kept [.clusters, .hides, .gates,
    .screen] s (loadBookWork h e s o f) := by
  unfold loadBookWork
  try dsimp only
  repeat' (first
    | with_reducible exact Kept.refl _ _ | (with_reducible show (_ : List Part) ⊆ _; decide) | with_reducible apply Kept.ite
    | (with_reducible apply Kept.andThen (State.dmaRead_kept _ _ _ _ _))
    | (with_reducible apply Kept.andThen (State.upO_kept _ _ _))
    | (with_reducible apply Kept.andThen (State.keep_kept _ _ _))
    | (with_reducible apply Kept.andThen (State.stored_kept _ _ _)) | split)

theorem codebookSlotReload_kept (h k c : Nat) (ok : Bool) (s : State) : Kept [.hides] s (codebookSlotReload h k c ok
    s) := by
  unfold codebookSlotReload
  try dsimp only
  repeat' (first
    | with_reducible exact Kept.refl _ _ | (with_reducible show (_ : List Part) ⊆ _; decide)
    | (with_reducible apply Kept.andThen (State.upO_kept _ _ _)) | split)

/-! ### Replays.lean -/

theorem screenSummary_kept (s : State) : Kept [.mgmt, .box, .screen] s (screenSummary s) := by
  unfold screenSummary
  try dsimp only
  repeat' (first
    | with_reducible exact Kept.refl _ _ | (with_reducible apply Or.inr; with_reducible rfl)
    | (with_reducible apply Or.inl; decide) | (with_reducible show (_ : List Part) ⊆ _; decide)
    | (with_reducible apply Kept.andThen (State.record_kept _ _ _ _ _))
    | (with_reducible refine Kept.upd ?_ ?_ ?_ ?_ ?_ ?_ ?_ ?_ ?_ ?_ ?_ ?_ ?_ ?_ ?_ ?_ ?_))

/-! ### StateScore.lean -/

theorem evictScoreWork_kept (h : Nat) (e : Env) (s : State) (o : Order) (f : Flight) : Kept [.regions, .clusters,
    .plan, .hides, .gates, .mgmt, .box, .screen] s (evictScoreWork h e s o f) := by
  unfold evictScoreWork
  try dsimp only
  repeat' (first
    | with_reducible exact Kept.refl _ _ | (with_reducible show (_ : List Part) ⊆ _; decide) | with_reducible apply Kept.ite
    | (with_reducible apply Kept.andThen (State.closeOut_kept _ _ _ _ _))
    | (with_reducible apply Kept.andThen (State.keep_kept _ _ _))
    | (with_reducible apply Kept.andThen (State.stored_kept _ _ _)) | split)

/-! ### Replays.lean -/

theorem replayResult_kept (id : Nat) (out : ReplayOut) (s : State) : Kept [.clusters, .plan, .hides, .imem, .gates,
    .ports, .mgmt, .box, .screen] s (replayResult id out s) := by
  unfold replayResult
  try dsimp only
  repeat' (first
    | with_reducible exact Kept.refl _ _ | (with_reducible apply Or.inr; with_reducible rfl)
    | (with_reducible apply Or.inl; decide) | (with_reducible show (_ : List Part) ⊆ _; decide)
    | with_reducible apply Kept.ite | (with_reducible apply Kept.andThen (State.upUnit_kept _ _ _))
    | (with_reducible apply Kept.andThen (State.outcome_kept _ _ _)) | split
    | (with_reducible refine Kept.upd ?_ ?_ ?_ ?_ ?_ ?_ ?_ ?_ ?_ ?_ ?_ ?_ ?_ ?_ ?_ ?_ ?_))

/-! ### Move.lean -/

theorem placeObjStep_kept (h c : Nat) (e : Env) (s : State) (f : Flight) : Kept [.regions, .clusters, .plan, .hides,
    .gates, .ports, .mgmt, .box, .screen] s (placeObjStep h c e s f) := by
  unfold placeObjStep
  try dsimp only
  repeat' (first
    | with_reducible exact Kept.refl _ _ | (with_reducible show (_ : List Part) ⊆ _; decide) | with_reducible apply Kept.ite
    | (with_reducible apply Kept.andThen (placeObjEnd_kept _ _ _ _ _))
    | (with_reducible apply Kept.andThen (State.abandon_kept _ _ _ _ _ _))
    | (with_reducible apply Kept.andThen (State.stored_kept _ _ _)) | split)

/-! ### StateScore.lean -/

theorem scoreSummaries_kept (h : Nat) (e : Env) (s : State) (o : Order) (f : Flight) : Kept [.regions, .clusters,
    .plan, .hides, .gates, .mgmt, .box, .screen] s (scoreSummaries h e s o f) := by
  unfold scoreSummaries
  try dsimp only
  repeat' (first
    | with_reducible exact Kept.refl _ _ | (with_reducible show (_ : List Part) ⊆ _; decide) | with_reducible apply Kept.ite
    | (with_reducible apply Kept.andThen (State.closeOut_kept _ _ _ _ _))
    | (with_reducible apply Kept.andThen (State.dmaWrite_kept _ _ _ _ _))
    | (with_reducible apply Kept.andThen (State.keep_kept _ _ _))
    | (with_reducible apply Kept.after (Kept.foldl _ (fun _ _ => ?_) _ _)) | split)

theorem scoreWork_kept (h : Nat) (e : Env) (s : State) (o : Order) (f : Flight) : Kept [.regions, .clusters, .plan,
    .hides, .gates, .mgmt, .box, .screen] s (scoreWork h e s o f) := by
  unfold scoreWork
  try dsimp only
  repeat' (first
    | with_reducible exact Kept.refl _ _ | (with_reducible show (_ : List Part) ⊆ _; decide) | with_reducible apply Kept.ite
    | (with_reducible apply Kept.andThen (scoreSummaries_kept _ _ _ _ _))
    | (with_reducible apply Kept.andThen (scoreTable_kept _ _ _ _ _))
    | (with_reducible apply Kept.andThen (State.stored_kept _ _ _)))

/-! ### Load.lean -/

theorem retireSetWork_kept (h : Nat) (e : Env) (s : State) (o : Order) (f : Flight) : Kept [.regions, .clusters,
    .plan, .hides, .mgmt, .box, .screen] s (retireSetWork h e s o f) := by
  unfold retireSetWork
  try dsimp only
  repeat' (first
    | with_reducible exact Kept.refl _ _ | (with_reducible show (_ : List Part) ⊆ _; decide) | with_reducible apply Kept.ite
    | (with_reducible apply Kept.andThen (State.close_kept _ _ _ _))
    | (with_reducible apply Kept.andThen (State.keep_kept _ _ _))
    | (with_reducible apply Kept.andThen (State.stored_kept _ _ _)) | split)

/-! ### StepOrders.lean -/

theorem State.endAppend_kept (s : State) (h seq status : Nat) : Kept [.hides, .imem, .gates] s (State.endAppend s h
    seq status) := by
  unfold State.endAppend
  try dsimp only
  repeat' (first
    | with_reducible exact Kept.refl _ _ | (with_reducible show (_ : List Part) ⊆ _; decide)
    | (with_reducible apply Kept.andThen (State.dropFetches_kept _ _ _))
    | (with_reducible apply Kept.andThen (State.endTaken_kept _ _ _ _ _ _))
    | (with_reducible apply Kept.andThen (State.upQ_kept _ _ _)) | split)

theorem fetchArrival_kept (h id : Nat) (s : State) : Kept [.hides, .imem, .gates, .ports] s (fetchArrival h id s) :=
    by
  unfold fetchArrival
  try dsimp only
  repeat' (first
    | with_reducible exact Kept.refl _ _ | (with_reducible show (_ : List Part) ⊆ _; decide) | with_reducible apply Kept.ite
    | (with_reducible apply Kept.andThen (State.markFetch_kept _ _ _ _))
    | (with_reducible apply Kept.andThen (State.missFetch_kept _ _ _ _))
    | (with_reducible apply Kept.andThen (State.endAppend_kept _ _ _ _))
    | (with_reducible apply Kept.andThen (State.upPort_kept _ _ _))
    | (with_reducible apply Kept.andThen (State.countCt_kept _ _ _))
    | (with_reducible apply Kept.andThen (State.endFetch_kept _ _ _ _)) | split)

/-! ### Meta.lean -/

theorem extendWork_kept (h : Nat) (e : Env) (s : State) (o : Order) (f : Flight) : Kept [.regions, .clusters, .plan,
    .hides, .mgmt, .box, .screen] s (extendWork h e s o f) := by
  unfold extendWork
  try dsimp only
  repeat' (first
    | with_reducible exact Kept.refl _ _ | (with_reducible show (_ : List Part) ⊆ _; decide) | with_reducible apply Kept.ite
    | (with_reducible apply Kept.andThen (State.close_kept _ _ _ _))
    | (with_reducible apply Kept.andThen (State.upO_kept _ _ _))
    | (with_reducible apply Kept.andThen (State.keep_kept _ _ _))
    | (with_reducible apply Kept.andThen (State.stored_kept _ _ _)) | split)

/-! ### Move.lean -/

theorem placeGo_kept (h c : Nat) (e : Env) (s : State) (f : Flight) : Kept [.regions, .clusters, .plan, .hides,
    .gates, .ports, .mgmt, .box, .screen] s (placeGo h c e s f) := by
  unfold placeGo
  try dsimp only
  repeat' (first
    | with_reducible exact Kept.refl _ _ | (with_reducible show (_ : List Part) ⊆ _; decide) | with_reducible apply Kept.ite
    | (with_reducible apply Kept.andThen (placeObjStep_kept _ _ _ _ _))
    | (with_reducible apply Kept.andThen (placeStep_kept _ _ _ _ _)))

/-! ### Meta.lean -/

theorem promoteWork_kept (h c : Nat) (e : Env) (s : State) (o : Order) (f : Flight) : Kept [.regions, .clusters,
    .plan, .hides, .gates, .ports, .mgmt, .box, .screen] s (promoteWork h c e s o f) := by
  unfold promoteWork
  try dsimp only
  repeat' (first
    | with_reducible exact Kept.refl _ _ | (with_reducible show (_ : List Part) ⊆ _; decide) | with_reducible apply Kept.ite
    | (with_reducible apply Kept.andThen (promoteStep_kept _ _ _ _ _))
    | (with_reducible apply Kept.andThen (State.beginCopies_kept _ _ _ _))
    | (with_reducible apply Kept.andThen (State.keep_kept _ _ _))
    | (with_reducible apply Kept.andThen (State.stored_kept _ _ _)) | split)

theorem lookupWork_kept (h now : Nat) (e : Env) (s : State) (o : Order) (f : Flight) : Kept [.regions, .clusters,
    .plan, .hides, .mgmt, .box, .screen] s (lookupWork h now e s o f) := by
  unfold lookupWork
  try dsimp only
  repeat' (first
    | with_reducible exact Kept.refl _ _ | (with_reducible show (_ : List Part) ⊆ _; decide) | with_reducible apply Kept.ite
    | (with_reducible apply Kept.andThen (State.upO_kept _ _ _))
    | (with_reducible apply Kept.andThen (lookupEnd_kept _ _ _ _ _))
    | (with_reducible apply Kept.andThen (State.keep_kept _ _ _))
    | (with_reducible apply Kept.andThen (State.stored_kept _ _ _)) | split)

theorem retireBookWork_kept (h : Nat) (e : Env) (s : State) (o : Order) (f : Flight) : Kept [.regions, .clusters,
    .plan, .hides, .mgmt, .box, .screen] s (retireBookWork h e s o f) := by
  unfold retireBookWork
  try dsimp only
  repeat' (first
    | with_reducible exact Kept.refl _ _ | (with_reducible show (_ : List Part) ⊆ _; decide) | with_reducible apply Kept.ite
    | (with_reducible apply Kept.andThen (State.close_kept _ _ _ _))
    | (with_reducible apply Kept.andThen (State.upO_kept _ _ _))
    | (with_reducible apply Kept.andThen (State.keep_kept _ _ _))
    | (with_reducible apply Kept.andThen (State.stored_kept _ _ _)) | split)

theorem createWork_kept (h c : Nat) (e : Env) (s : State) (o : Order) (f : Flight) : Kept [.regions, .clusters, .plan,
    .hides, .gates, .ports, .mgmt, .box, .screen] s (createWork h c e s o f) := by
  unfold createWork
  try dsimp only
  repeat' (first
    | with_reducible exact Kept.refl _ _ | (with_reducible show (_ : List Part) ⊆ _; decide) | with_reducible apply Kept.ite
    | (with_reducible apply Kept.andThen (createStep_kept _ _ _ _ _))
    | (with_reducible apply Kept.andThen (State.beginCopies_kept _ _ _ _))
    | (with_reducible apply Kept.andThen (State.keep_kept _ _ _))
    | (with_reducible apply Kept.andThen (State.stored_kept _ _ _)) | split)

/-! ### Move.lean -/

theorem swapInWork_kept (h : Nat) (e : Env) (s : State) (o : Order) (f : Flight) : Kept [.clusters, .hides, .gates,
    .screen] s (swapInWork h e s o f) := by
  unfold swapInWork
  try dsimp only
  repeat' (first
    | with_reducible exact Kept.refl _ _ | (with_reducible show (_ : List Part) ⊆ _; decide) | with_reducible apply Kept.ite
    | (with_reducible apply Kept.andThen (State.dmaRead_kept _ _ _ _ _))
    | (with_reducible apply Kept.andThen (State.readExtents_kept _ _ _ _))
    | (with_reducible apply Kept.andThen (State.upO_kept _ _ _))
    | (with_reducible apply Kept.andThen (State.keep_kept _ _ _))
    | (with_reducible apply Kept.andThen (State.stored_kept _ _ _)) | split)

/-! ### Meta.lean -/

theorem hashLaneDone_kept (h : Nat) (s : State) : Kept [.hides] s (hashLaneDone h s) := by
  unfold hashLaneDone
  try dsimp only
  repeat' (first
    | with_reducible exact Kept.refl _ _ | (with_reducible show (_ : List Part) ⊆ _; decide) | with_reducible apply Kept.ite
    | (with_reducible apply Kept.andThen (State.setHide_kept _ _ _)) | split)

/-! ### Move.lean -/

theorem placeWork_kept (h c : Nat) (e : Env) (s : State) (o : Order) (f : Flight) : Kept [.regions, .clusters, .plan,
    .hides, .gates, .ports, .mgmt, .box, .screen] s (placeWork h c e s o f) := by
  unfold placeWork
  try dsimp only
  repeat' (first
    | with_reducible exact Kept.refl _ _ | (with_reducible show (_ : List Part) ⊆ _; decide) | with_reducible apply Kept.ite
    | (with_reducible apply Kept.andThen (placeObjWork_kept _ _ _ _ _))
    | (with_reducible apply Kept.andThen (placeRods_kept _ _ _ _ _ _))
    | (with_reducible apply Kept.andThen (State.keep_kept _ _ _))
    | (with_reducible apply Kept.andThen (State.stored_kept _ _ _)))

/-! ### Append.lean -/

theorem recodeNow_kept (h c : Nat) (e : Env) (s : State) : Kept [.clusters, .hides, .screen] s (recodeNow h c e s) :=
    by
  unfold recodeNow
  try dsimp only
  repeat' (first
    | with_reducible exact Kept.refl _ _ | (with_reducible show (_ : List Part) ⊆ _; decide) | with_reducible apply Kept.ite
    | (with_reducible apply Kept.andThen (State.countCt_kept _ _ _))
    | (with_reducible apply Kept.andThen (State.upQ_kept _ _ _)) | (with_reducible apply Kept.andThen (State.upO_kept _ _ _))
    | (with_reducible apply Kept.andThen (State.stored_kept _ _ _)) | split)

/-! ### Meta.lean -/

theorem withdrawWork_kept (h : Nat) (e : Env) (s : State) (o : Order) (f : Flight) : Kept [.regions, .clusters, .plan,
    .hides, .mgmt, .box, .screen] s (withdrawWork h e s o f) := by
  unfold withdrawWork
  try dsimp only
  repeat' (first
    | with_reducible exact Kept.refl _ _ | (with_reducible show (_ : List Part) ⊆ _; decide) | with_reducible apply Kept.ite
    | (with_reducible apply Kept.andThen (State.close_kept _ _ _ _))
    | (with_reducible apply Kept.andThen (State.keep_kept _ _ _))
    | (with_reducible apply Kept.andThen (State.stored_kept _ _ _)) | split)

/-! ### Replays.lean -/

theorem screenPatternRun_kept (c phys pattern : Nat) (result : U32) (s : State) : Kept [.clusters, .plan, .mgmt, .box,
    .screen] s (screenPatternRun c phys pattern result s) := by
  unfold screenPatternRun
  try dsimp only
  repeat' (first
    | with_reducible exact Kept.refl _ _ | (with_reducible apply Or.inr; with_reducible rfl)
    | (with_reducible apply Or.inl; decide) | (with_reducible show (_ : List Part) ⊆ _; decide)
    | with_reducible apply Kept.ite | (with_reducible apply Kept.andThen (State.failShared_kept _ _))
    | (with_reducible apply Kept.andThen (State.failUnit_kept _ _ _))
    | (with_reducible apply Kept.andThen (State.record_kept _ _ _ _ _))
    | (with_reducible apply Kept.andThen (State.upCluster_kept _ _ _)) | split
    | (with_reducible refine Kept.upd ?_ ?_ ?_ ?_ ?_ ?_ ?_ ?_ ?_ ?_ ?_ ?_ ?_ ?_ ?_ ?_ ?_))

/-! ### Meta.lean -/

theorem retireWork_kept (h : Nat) (e : Env) (s : State) (o : Order) (f : Flight) : Kept [.regions, .clusters, .plan,
    .hides, .mgmt, .box, .screen] s (retireWork h e s o f) := by
  unfold retireWork
  try dsimp only
  repeat' (first
    | with_reducible exact Kept.refl _ _ | (with_reducible show (_ : List Part) ⊆ _; decide) | with_reducible apply Kept.ite
    | (with_reducible apply Kept.andThen (State.close_kept _ _ _ _))
    | (with_reducible apply Kept.andThen (State.keep_kept _ _ _))
    | (with_reducible apply Kept.andThen (State.stored_kept _ _ _)) | split)

/-! ### Replays.lean -/

theorem bankGroupFaultRecord_kept (s : State) : Kept [.clusters, .mgmt, .box] s (bankGroupFaultRecord s) := by
  unfold bankGroupFaultRecord
  try dsimp only
  repeat' (first
    | with_reducible exact Kept.refl _ _ | (with_reducible show (_ : List Part) ⊆ _; decide) | with_reducible apply Kept.ite
    | (with_reducible apply Kept.andThen (State.upCluster_kept _ _ _))
    | (with_reducible apply Kept.andThen (State.record_kept _ _ _ _ _))
    | (with_reducible apply Kept.after (Kept.foldl _ (fun _ _ => ?_) _ _)))

/-! ### Append.lean -/

theorem appendWork_kept (h : Nat) (e : Env) (s : State) (o : Order) (f : Flight) : Kept [.regions, .clusters, .plan,
    .hides, .gates, .mgmt, .box, .screen] s (appendWork h e s o f) := by
  unfold appendWork
  try dsimp only
  repeat' (first
    | with_reducible exact Kept.refl _ _ | (with_reducible show (_ : List Part) ⊆ _; decide) | with_reducible apply Kept.ite
    | (with_reducible apply Kept.andThen (State.close_kept _ _ _ _))
    | (with_reducible apply Kept.andThen (State.upO_kept _ _ _))
    | (with_reducible apply Kept.andThen (State.keep_kept _ _ _))
    | (with_reducible apply Kept.andThen (State.dropFetches_kept _ _ _))
    | (with_reducible apply Kept.andThen (State.stored_kept _ _ _)) | split)

/-! ### StepOrders.lean -/

theorem State.stepRow_kept (s : State) (h c op : Nat) (cls : SlotClass) (fit : HideSt → Order → Fit) (e : Env) : Kept
    [.regions, .clusters, .plan, .hides, .gates, .mgmt, .box, .screen] s (State.stepRow s h c op cls fit e) := by
  unfold State.stepRow
  try dsimp only
  repeat' (first
    | with_reducible exact Kept.refl _ _ | (with_reducible show (_ : List Part) ⊆ _; decide)
    | (with_reducible apply Kept.andThen (stepWork_kept _ _ _ _ _ _))
    | (with_reducible apply Kept.after (State.admit_kept _ _ _ _ _ _ _ ?_ ?_))
    | (with_reducible apply Kept.andThen (stepRun_kept _ _ _ _ _)) | split | intro _)

/-! ### StateScore.lean -/

theorem stateWork_kept (h : Nat) (e : Env) (s : State) (o : Order) (f : Flight) : Kept [.regions, .clusters, .plan,
    .hides, .gates, .mgmt, .box, .screen] s (stateWork h e s o f) := by
  unfold stateWork
  try dsimp only
  repeat' (first
    | with_reducible exact Kept.refl _ _ | (with_reducible show (_ : List Part) ⊆ _; decide) | with_reducible apply Kept.ite
    | (with_reducible apply Kept.andThen (State.closeOut_kept _ _ _ _ _))
    | (with_reducible apply Kept.andThen (State.dmaWrite_kept _ _ _ _ _))
    | (with_reducible apply Kept.andThen (State.keep_kept _ _ _))
    | (with_reducible apply Kept.andThen (State.stored_kept _ _ _)) | split)

/-! ### Load.lean -/

theorem loadSetWork_kept (h : Nat) (e : Env) (s : State) (o : Order) (f : Flight) : Kept [.clusters, .hides, .gates,
    .screen] s (loadSetWork h e s o f) := by
  unfold loadSetWork
  try dsimp only
  repeat' (first
    | with_reducible exact Kept.refl _ _ | (with_reducible show (_ : List Part) ⊆ _; decide) | with_reducible apply Kept.ite
    | (with_reducible apply Kept.andThen (State.dmaRead_kept _ _ _ _ _))
    | (with_reducible apply Kept.andThen (State.upO_kept _ _ _))
    | (with_reducible apply Kept.andThen (State.keep_kept _ _ _))
    | (with_reducible apply Kept.andThen (State.stored_kept _ _ _)) | split)

/-! ### Txn.lean -/

theorem txnDecision_kept (h id : Nat) (s : State) : Kept [.hides, .gates, .ports] s (txnDecision h id s) := by
  unfold txnDecision
  try dsimp only
  repeat' (first
    | with_reducible exact Kept.refl _ _ | (with_reducible show (_ : List Part) ⊆ _; decide) | with_reducible apply Kept.ite
    | (with_reducible apply Kept.andThen (State.abortTxn_kept _ _ _))
    | (with_reducible apply Kept.andThen (State.upQ_kept _ _ _)) | split)

end Sys2Proof.Machine
end

