-- ==== Sys2Proof/Laws/KeptAttach.lean ====
section
/-!
SUPPORT. What each operation keeps, and the parts of the state it may change: acres and leases, the CXL port, hide resets and the hide windows.
-/

namespace Sys2Proof.Machine
open Sys2Proof

/-! ### Acres.lean -/

theorem State.config_kept (s : State) (o : Origin) (kind result : Nat) (value : List Nat) (hide : Nat) : Kept [.mgmt,
    .box] s (State.config s o kind result value hide) := by
  unfold State.config
  try dsimp only
  repeat' (first
    | with_reducible exact Kept.refl _ _ | (with_reducible show (_ : List Part) ⊆ _; decide)
    | (with_reducible apply Kept.andThen (State.record_kept _ _ _ _ _)))

theorem State.leaseRecord_kept (s : State) (h n : Nat) (o : Origin) : Kept [.mgmt, .box] s (State.leaseRecord s h n o)
    := by
  unfold State.leaseRecord
  try dsimp only
  repeat' (first
    | with_reducible exact Kept.refl _ _ | (with_reducible show (_ : List Part) ⊆ _; decide)
    | (with_reducible apply Kept.andThen (State.config_kept _ _ _ _ _ _)))

/-! ### HideRegs.lean -/

theorem State.ringBase_kept (s : State) (h : Nat) (kind : RingKind) (n v : Nat) : Kept [.hides] s (State.ringBase s h
    kind n v) := by
  unfold State.ringBase
  try dsimp only
  repeat' (first
    | with_reducible exact Kept.refl _ _ | (with_reducible show (_ : List Part) ⊆ _; decide) | with_reducible apply Kept.ite
    | (with_reducible apply Kept.andThen (State.upQ_kept _ _ _))
    | (with_reducible apply Kept.andThen (State.ringErr_kept _ _ _ _)) | split)

/-! ### Resets.lean -/

theorem ideUp_kept (stream : Option Ld) (s : State) : Kept [.cxl] s (ideUp stream s) := by
  unfold ideUp
  try dsimp only
  repeat' (first
    | with_reducible exact Kept.refl _ _ | (with_reducible apply Or.inr; with_reducible rfl)
    | (with_reducible apply Or.inl; decide) | (with_reducible show (_ : List Part) ⊆ _; decide)
    | with_reducible apply Kept.ite | (with_reducible apply Kept.andThen (State.upLd_kept _ _ _)) | split
    | (with_reducible refine Kept.upd ?_ ?_ ?_ ?_ ?_ ?_ ?_ ?_ ?_ ?_ ?_ ?_ ?_ ?_ ?_ ?_ ?_))

theorem State.upLoad_kept (s : State) (n : Nat) (f : Load → Load) : Kept [.mgmt] s (State.upLoad s n f) := by
  unfold State.upLoad
  try dsimp only
  repeat' (first
    | with_reducible exact Kept.refl _ _ | (with_reducible apply Or.inr; with_reducible rfl)
    | (with_reducible apply Or.inl; decide)
    | (with_reducible refine Kept.upd ?_ ?_ ?_ ?_ ?_ ?_ ?_ ?_ ?_ ?_ ?_ ?_ ?_ ?_ ?_ ?_ ?_))

theorem State.discardStaged_kept (s : State) (h : Nat) : Kept [.hides, .mgmt, .box] s (State.discardStaged s h) := by
  unfold State.discardStaged
  try dsimp only
  repeat' (first
    | with_reducible exact Kept.refl _ _ | (with_reducible show (_ : List Part) ⊆ _; decide)
    | (with_reducible apply Kept.andThen (State.upLoad_kept _ _ _))
    | (with_reducible apply Kept.andThen (State.config_kept _ _ _ _ _ _))
    | (with_reducible apply Kept.andThen (State.upHide_kept _ _ _)) | split)

theorem State.invalidate_kept (s : State) (user : Nat) : Kept [.clusters] s (State.invalidate s user) := by
  unfold State.invalidate
  try dsimp only
  repeat' (first
    | with_reducible exact Kept.refl _ _ | (with_reducible apply Or.inr; with_reducible rfl)
    | (with_reducible apply Or.inl; decide)
    | (with_reducible refine Kept.upd ?_ ?_ ?_ ?_ ?_ ?_ ?_ ?_ ?_ ?_ ?_ ?_ ?_ ?_ ?_ ?_ ?_))

theorem State.reload_kept (s : State) (h : Nat) : Kept [.clusters, .hides, .imem, .gates, .mgmt, .box] s (State.reload
    s h) := by
  unfold State.reload
  try dsimp only
  repeat' (first
    | with_reducible exact Kept.refl _ _ | (with_reducible show (_ : List Part) ⊆ _; decide)
    | (with_reducible apply Kept.andThen (State.deviceEventTo_kept _ _))
    | (with_reducible apply Kept.andThen (State.record_kept _ _ _ _ _))
    | (with_reducible apply Kept.andThen (State.setHide_kept _ _ _))
    | (with_reducible apply Kept.andThen (State.discardStaged_kept _ _))
    | (with_reducible apply Kept.andThen (State.invalidate_kept _ _)))

theorem State.unhold_kept (s : State) (h : Nat) (f : Flight) : Kept [.hides] s (State.unhold s h f) := by
  unfold State.unhold
  try dsimp only
  repeat' (first
    | with_reducible exact Kept.refl _ _ | (with_reducible show (_ : List Part) ⊆ _; decide)
    | (with_reducible apply Kept.andThen (State.upQ_kept _ _ _)))

theorem State.cutFlight_kept (s : State) (h status : Nat) (f : Flight) : Kept [.hides, .imem, .gates, .ports, .screen]
    s (State.cutFlight s h status f) := by
  unfold State.cutFlight
  try dsimp only
  repeat' (first
    | with_reducible exact Kept.refl _ _ | (with_reducible apply Or.inr; with_reducible rfl)
    | (with_reducible apply Or.inl; decide) | (with_reducible show (_ : List Part) ⊆ _; decide)
    | with_reducible apply Kept.ite | (with_reducible apply Kept.andThen (State.complete_kept _ _ _))
    | (with_reducible apply Kept.andThen (State.trace_kept _ _ _))
    | (with_reducible apply Kept.andThen (State.keep_kept _ _ _))
    | (with_reducible apply Kept.andThen (State.dropFlight_kept _ _ _))
    | (with_reducible apply Kept.andThen (State.upO_kept _ _ _))
    | (with_reducible apply Kept.andThen (State.forget_kept _ _ _))
    | (with_reducible apply Kept.andThen (State.dropFetches_kept _ _ _))
    | (with_reducible apply Kept.andThen (State.revoke_kept _ _ _))
    | (with_reducible apply Kept.andThen (State.release_kept _ _ _ _ _))
    | (with_reducible refine Kept.upd ?_ ?_ ?_ ?_ ?_ ?_ ?_ ?_ ?_ ?_ ?_ ?_ ?_ ?_ ?_ ?_ ?_))

theorem State.endFlights_kept (s : State) (h status : Nat) : Kept [.hides, .imem, .gates, .ports, .screen] s
    (State.endFlights s h status) := by
  unfold State.endFlights
  try dsimp only
  repeat' (first
    | with_reducible exact Kept.refl _ _ | (with_reducible show (_ : List Part) ⊆ _; decide)
    | (with_reducible apply Kept.andThen (State.unhold_kept _ _ _))
    | (with_reducible apply Kept.andThen (State.cutFlight_kept _ _ _ _))
    | (with_reducible apply Kept.after (Kept.foldl _ (fun _ _ => ?_) _ _)))

theorem State.endQueued_kept (s : State) (h status : Nat) : Kept [.hides, .imem, .gates] s (State.endQueued s h
    status) := by
  unfold State.endQueued
  try dsimp only
  repeat' (first
    | with_reducible exact Kept.refl _ _ | (with_reducible show (_ : List Part) ⊆ _; decide)
    | (with_reducible apply Kept.andThen (State.dropFetches_kept _ _ _))
    | (with_reducible apply Kept.andThen (State.endTaken_kept _ _ _ _ _ _))
    | (with_reducible apply Kept.andThen (State.upHide_kept _ _ _))
    | (with_reducible apply Kept.after (Kept.foldl _ (fun _ _ => ?_) _ _)))

theorem State.endTxns_kept (s : State) (h status : Nat) : Kept [.hides, .imem, .gates, .ports] s (State.endTxns s h
    status) := by
  unfold State.endTxns
  try dsimp only
  repeat' (first
    | with_reducible exact Kept.refl _ _ | (with_reducible show (_ : List Part) ⊆ _; decide)
    | (with_reducible apply Kept.andThen (State.complete_kept _ _ _))
    | (with_reducible apply Kept.andThen (State.upQ_kept _ _ _))
    | (with_reducible apply Kept.andThen (State.abortTxn_kept _ _ _))
    | (with_reducible apply Kept.after (Kept.foldl _ (fun _ _ => ?_) _ _)))

theorem State.endAll_kept (s : State) (h status : Nat) : Kept [.hides, .imem, .gates, .ports, .screen] s (State.endAll
    s h status) := by
  unfold State.endAll
  try dsimp only
  repeat' (first
    | with_reducible exact Kept.refl _ _ | (with_reducible show (_ : List Part) ⊆ _; decide)
    | (with_reducible apply Kept.andThen (State.endFlights_kept _ _ _))
    | (with_reducible apply Kept.andThen (State.endQueued_kept _ _ _))
    | (with_reducible apply Kept.andThen (State.endTxns_kept _ _ _)))

theorem State.beginEnding_kept (s : State) (h : Nat) : Kept [.hides, .imem, .gates, .ports, .screen] s
    (State.beginEnding s h) := by
  unfold State.beginEnding
  try dsimp only
  repeat' (first
    | with_reducible exact Kept.refl _ _ | (with_reducible show (_ : List Part) ⊆ _; decide) | with_reducible apply Kept.ite
    | (with_reducible apply Kept.andThen (State.endAll_kept _ _ _))
    | (with_reducible apply Kept.andThen (State.endQueued_kept _ _ _))
    | (with_reducible apply Kept.andThen (State.upHide_kept _ _ _)))

/-! ### Acres.lean -/

theorem State.sendSnoop_kept (s : State) (h off : Nat) (inv : Bool) (why : SnoopFor) : Kept [.hides, .gates] s
    (State.sendSnoop s h off inv why) := by
  unfold State.sendSnoop
  try dsimp only
  repeat' (first
    | with_reducible exact Kept.refl _ _ | (with_reducible show (_ : List Part) ⊆ _; decide)
    | (with_reducible apply Kept.andThen (State.upA_kept _ _ _))
    | (with_reducible apply Kept.andThen (State.enqueue_kept _ _ _ _ _)))

theorem State.endHold_kept (s : State) (h n : Nat) : Kept [.hides, .acres, .gates] s (State.endHold s h n) := by
  unfold State.endHold
  try dsimp only
  repeat' (first
    | with_reducible exact Kept.refl _ _ | (with_reducible show (_ : List Part) ⊆ _; decide)
    | (with_reducible apply Kept.andThen (State.sendSnoop_kept _ _ _ _ _))
    | (with_reducible apply Kept.andThen (State.upA_kept _ _ _))
    | (with_reducible apply Kept.andThen (State.upAcre_kept _ _ _))
    | (with_reducible apply Kept.after (Kept.foldl _ (fun _ _ => ?_) _ _)))

theorem State.recall_kept (s : State) (h n : Nat) (exclOnly : Bool) : Kept [.hides, .gates] s (State.recall s h n
    exclOnly) := by
  unfold State.recall
  try dsimp only
  repeat' (first
    | with_reducible exact Kept.refl _ _ | (with_reducible show (_ : List Part) ⊆ _; decide)
    | (with_reducible apply Kept.andThen (State.sendSnoop_kept _ _ _ _ _))
    | (with_reducible apply Kept.after (Kept.foldl _ (fun _ _ => ?_) _ _)))

theorem State.upSlot_kept (s : State) (h n : Nat) (f : LeaseSlot → LeaseSlot) : Kept [.hides] s (State.upSlot s h n f)
    := by
  unfold State.upSlot
  try dsimp only
  repeat' (first
    | with_reducible exact Kept.refl _ _ | (with_reducible show (_ : List Part) ⊆ _; decide)
    | (with_reducible apply Kept.andThen (State.upA_kept _ _ _)))

theorem State.closeSlot_kept (s : State) (h n status : Nat) (o : Origin) (wait : Bool) : Kept [.hides, .acres, .gates,
    .mgmt, .box] s (State.closeSlot s h n status o wait) := by
  unfold State.closeSlot
  try dsimp only
  repeat' (first
    | with_reducible exact Kept.refl _ _ | (with_reducible show (_ : List Part) ⊆ _; decide) | with_reducible apply Kept.ite
    | (with_reducible apply Kept.andThen (State.endHold_kept _ _ _))
    | (with_reducible apply Kept.andThen (State.recall_kept _ _ _ _))
    | (with_reducible apply Kept.andThen (State.leaseRecord_kept _ _ _ _))
    | (with_reducible apply Kept.andThen (State.upSlot_kept _ _ _ _)))

/-! ### Resets.lean -/

theorem State.upBuf_kept (s : State) (h b : Nat) (f : HostBuf → HostBuf) : Kept [.hides] s (State.upBuf s h b f) := by
  unfold State.upBuf
  try dsimp only
  repeat' (first
    | with_reducible exact Kept.refl _ _ | (with_reducible show (_ : List Part) ⊆ _; decide)
    | (with_reducible apply Kept.andThen (State.upA_kept _ _ _)))

theorem State.bufErr_kept (s : State) (h : Nat) : Kept [.hides] s (State.bufErr s h) := by
  unfold State.bufErr
  try dsimp only
  repeat' (first
    | with_reducible exact Kept.refl _ _ | (with_reducible show (_ : List Part) ⊆ _; decide)
    | (with_reducible apply Kept.andThen (State.upA_kept _ _ _)))

theorem State.bufCtl_kept (s : State) (h b : Nat) (ctl : U32) : Kept [.hides] s (State.bufCtl s h b ctl) := by
  unfold State.bufCtl
  try dsimp only
  repeat' (first
    | with_reducible exact Kept.refl _ _ | (with_reducible show (_ : List Part) ⊆ _; decide) | with_reducible apply Kept.ite
    | (with_reducible apply Kept.andThen (State.upBuf_kept _ _ _ _))
    | (with_reducible apply Kept.andThen (State.bufErr_kept _ _)))

/-! ### HideRegs.lean -/

theorem State.bufField_kept (s : State) (h b : Nat) (f : HostBuf → HostBuf) : Kept [.hides] s (State.bufField s h b f)
    := by
  unfold State.bufField
  try dsimp only
  repeat' (first
    | with_reducible exact Kept.refl _ _ | (with_reducible show (_ : List Part) ⊆ _; decide) | with_reducible apply Kept.ite
    | (with_reducible apply Kept.andThen (State.upBuf_kept _ _ _ _))
    | (with_reducible apply Kept.andThen (State.bufErr_kept _ _)))

/-! ### Acres.lean -/

theorem acRenew_kept (h : Nat) (mask : U64) (s : State) : Kept [.hides] s (acRenew h mask s) := by
  unfold acRenew
  try dsimp only
  repeat' (first
    | with_reducible exact Kept.refl _ _ | (with_reducible show (_ : List Part) ⊆ _; decide) | with_reducible apply Kept.ite
    | (with_reducible apply Kept.andThen (State.upA_kept _ _ _)))

theorem State.closeHold_kept (s : State) (h n status : Nat) (o : Origin) (wait : Bool) : Kept [.hides, .acres, .gates,
    .mgmt, .box] s (State.closeHold s h n status o wait) := by
  unfold State.closeHold
  try dsimp only
  repeat' (first
    | with_reducible exact Kept.refl _ _ | (with_reducible show (_ : List Part) ⊆ _; decide)
    | (with_reducible apply Kept.andThen (State.closeSlot_kept _ _ _ _ _ _))
    | (with_reducible apply Kept.after (Kept.foldl _ (fun _ _ => ?_) _ _)))

theorem State.leaseResult_kept (s : State) (h status : Nat) : Kept [.hides] s (State.leaseResult s h status) := by
  unfold State.leaseResult
  try dsimp only
  repeat' (first
    | with_reducible exact Kept.refl _ _ | (with_reducible show (_ : List Part) ⊆ _; decide)
    | (with_reducible apply Kept.andThen (State.upA_kept _ _ _)))

theorem State.leaseEffect_kept (s : State) (h : Nat) (v : U64) : Kept [.hides, .acres, .gates, .mgmt, .box] s
    (State.leaseEffect s h v) := by
  unfold State.leaseEffect
  try dsimp only
  repeat' (first
    | with_reducible exact Kept.refl _ _ | (with_reducible show (_ : List Part) ⊆ _; decide)
    | (with_reducible apply Kept.andThen (State.closeSlot_kept _ _ _ _ _ _))
    | (with_reducible apply Kept.andThen (State.recall_kept _ _ _ _))
    | (with_reducible apply Kept.andThen (State.closeHold_kept _ _ _ _ _ _))
    | (with_reducible apply Kept.andThen (State.upA_kept _ _ _))
    | (with_reducible apply Kept.andThen (State.leaseResult_kept _ _ _))
    | (with_reducible apply Kept.andThen (State.upAcre_kept _ _ _))
    | (with_reducible apply Kept.andThen (State.upK_kept _ _ _))
    | (with_reducible apply Kept.andThen (State.leaseRecord_kept _ _ _ _))
    | (with_reducible apply Kept.andThen (State.upSlot_kept _ _ _ _))
    | (with_reducible apply Kept.after (Kept.foldl _ (fun _ _ => ?_) _ _)) | split)

theorem State.leaseCommand_kept (s : State) (h : Nat) (v : U64) : Kept [.hides, .acres, .gates, .mgmt, .box] s
    (State.leaseCommand s h v) := by
  unfold State.leaseCommand
  try dsimp only
  repeat' (first
    | with_reducible exact Kept.refl _ _ | (with_reducible show (_ : List Part) ⊆ _; decide) | with_reducible apply Kept.ite
    | (with_reducible apply Kept.andThen (State.leaseEffect_kept _ _ _))
    | (with_reducible apply Kept.andThen (State.leaseResult_kept _ _ _))
    | (with_reducible apply Kept.andThen (State.upA_kept _ _ _)) | split)

/-! ### HideRegs.lean -/

theorem State.ringCtl_kept (s : State) (h : Nat) (kind : RingKind) (n v : Nat) : Kept [.hides, .imem, .gates] s
    (State.ringCtl s h kind n v) := by
  unfold State.ringCtl
  try dsimp only
  repeat' (first
    | with_reducible exact Kept.refl _ _ | (with_reducible show (_ : List Part) ⊆ _; decide) | with_reducible apply Kept.ite
    | (with_reducible apply Kept.andThen (ringDisable_kept _ _ _ _ _))
    | (with_reducible apply Kept.andThen (ringEnable_kept _ _ _ _ _)))

/-! ### Resets.lean -/

theorem State.jobKeyCommand_kept (s : State) (h : Nat) (v : U32) : Kept [.hides] s (State.jobKeyCommand s h v) := by
  unfold State.jobKeyCommand
  try dsimp only
  repeat' (first
    | with_reducible exact Kept.refl _ _ | (with_reducible show (_ : List Part) ⊆ _; decide) | with_reducible apply Kept.ite
    | (with_reducible apply Kept.andThen (State.upK_kept _ _ _)))

theorem State.trimRange_kept (s : State) (h p lba n : Nat) : Kept [.hides, .ports] s (State.trimRange s h p lba n) :=
    by
  unfold State.trimRange
  try dsimp only
  repeat' (first
    | with_reducible exact Kept.refl _ _ | (with_reducible show (_ : List Part) ⊆ _; decide) | with_reducible apply Kept.ite
    | (with_reducible apply Kept.andThen (State.upPort_kept _ _ _))
    | (with_reducible apply Kept.andThen (State.upO_kept _ _ _)))

theorem State.nextFirst_kept (s : State) (p : Nat) : Kept [.gates] s (State.nextFirst s p) := by
  unfold State.nextFirst
  try dsimp only
  repeat' (first
    | with_reducible exact Kept.refl _ _ | (with_reducible show (_ : List Part) ⊆ _; decide) | with_reducible apply Kept.ite
    | (with_reducible apply Kept.andThen (State.enqueue_kept _ _ _ _ _)) | split)

theorem State.purge_kept (s : State) (h : Nat) : Kept [.hides, .gates, .ports] s (State.purge s h) := by
  unfold State.purge
  try dsimp only
  repeat' (first
    | with_reducible exact Kept.refl _ _ | (with_reducible show (_ : List Part) ⊆ _; decide)
    | (with_reducible apply Kept.andThen (State.trimRange_kept _ _ _ _ _))
    | (with_reducible apply Kept.andThen (State.nextFirst_kept _ _))
    | (with_reducible apply Kept.andThen (State.upPort_kept _ _ _))
    | (with_reducible apply Kept.after (forAll_kept _ _ _ ?_ ?_)) | intro _)

theorem State.beginKeys_kept (s : State) (h : Nat) : Kept [.hides, .gates, .ports, .dex] s (State.beginKeys s h) := by
  unfold State.beginKeys
  try dsimp only
  repeat' (first
    | with_reducible exact Kept.refl _ _ | (with_reducible show (_ : List Part) ⊆ _; decide)
    | (with_reducible apply Kept.andThen (State.purge_kept _ _))
    | (with_reducible apply Kept.andThen (State.upHide_kept _ _ _)) | (with_reducible apply Kept.andThen (State.draw_kept _)))

theorem State.endHeld_kept (s : State) (h : Nat) : Kept [.hides, .gates, .ports, .dex] s (State.endHeld s h) := by
  unfold State.endHeld
  try dsimp only
  repeat' (first
    | with_reducible exact Kept.refl _ _ | (with_reducible show (_ : List Part) ⊆ _; decide) | with_reducible apply Kept.ite
    | (with_reducible apply Kept.andThen (State.beginKeys_kept _ _)))

theorem State.startReset_kept (s : State) (h cause : Nat) (drain : Bool) (o : Origin) : Kept [.hides, .imem, .gates,
    .ports, .dex, .screen] s (State.startReset s h cause drain o) := by
  unfold State.startReset
  try dsimp only
  repeat' (first
    | with_reducible exact Kept.refl _ _ | (with_reducible show (_ : List Part) ⊆ _; decide) | with_reducible apply Kept.ite
    | (with_reducible apply Kept.andThen (State.beginKeys_kept _ _))
    | (with_reducible apply Kept.andThen (State.endAll_kept _ _ _))
    | (with_reducible apply Kept.andThen (State.beginEnding_kept _ _))
    | (with_reducible apply Kept.andThen (State.upK_kept _ _ _)) | split)

theorem hideResetGo_kept (h : Nat) (drain : Bool) (s : State) : Kept [.hides, .imem, .gates, .ports, .dex, .screen] s
    (hideResetGo h drain s) := by
  unfold hideResetGo
  try dsimp only
  repeat' (first
    | with_reducible exact Kept.refl _ _ | (with_reducible show (_ : List Part) ⊆ _; decide)
    | (with_reducible apply Kept.andThen (State.startReset_kept _ _ _ _ _)))

/-! ### HideRegs.lean -/

theorem State.hdReset_kept (s : State) (h v : Nat) : Kept [.hides, .imem, .gates, .ports, .dex, .screen] s
    (State.hdReset s h v) := by
  unfold State.hdReset
  try dsimp only
  repeat' (first
    | with_reducible exact Kept.refl _ _ | (with_reducible show (_ : List Part) ⊆ _; decide) | with_reducible apply Kept.ite
    | (with_reducible apply Kept.andThen (State.endHeld_kept _ _))
    | (with_reducible apply Kept.andThen (hideResetGo_kept _ _ _)))

theorem State.hideWrite_kept (s : State) (h : Nat) (r : HReg) (v : Nat) : Kept [.hides, .imem, .acres, .gates, .ports,
    .dex, .mgmt, .box, .screen] s (State.hideWrite s h r v) := by
  unfold State.hideWrite
  try dsimp only
  repeat' (first
    | with_reducible exact Kept.refl _ _ | (with_reducible show (_ : List Part) ⊆ _; decide) | with_reducible apply Kept.ite
    | (with_reducible apply Kept.andThen (State.bufCtl_kept _ _ _ _))
    | (with_reducible apply Kept.andThen (State.bufField_kept _ _ _ _))
    | (with_reducible apply Kept.andThen (State.upA_kept _ _ _)) | (with_reducible apply Kept.andThen (acRenew_kept _ _ _))
    | (with_reducible apply Kept.andThen (State.leaseCommand_kept _ _ _))
    | (with_reducible apply Kept.andThen (State.ringErr_kept _ _ _ _))
    | (with_reducible apply Kept.andThen (State.upQ_kept _ _ _))
    | (with_reducible apply Kept.andThen (State.ringCtl_kept _ _ _ _ _))
    | (with_reducible apply Kept.andThen (State.ringBase_kept _ _ _ _ _))
    | (with_reducible apply Kept.andThen (State.upK_kept _ _ _))
    | (with_reducible apply Kept.andThen (State.jobKeyCommand_kept _ _ _))
    | (with_reducible apply Kept.andThen (State.hdReset_kept _ _ _)) | split)

theorem State.writeWord_kept (s : State) (h off v : Nat) : Kept [.hides, .imem, .acres, .gates, .ports, .dex, .mgmt,
    .box, .screen] s (State.writeWord s h off v) := by
  unfold State.writeWord
  try dsimp only
  repeat' (first
    | with_reducible exact Kept.refl _ _ | (with_reducible show (_ : List Part) ⊆ _; decide) | with_reducible apply Kept.ite
    | (with_reducible apply Kept.andThen (State.upA_kept _ _ _))
    | (with_reducible apply Kept.andThen (State.hideWrite_kept _ _ _ _)) | split)

theorem State.windowWrite_kept (s : State) (h off size v : Nat) : Kept [.hides, .imem, .acres, .gates, .ports, .dex,
    .mgmt, .box, .screen] s (State.windowWrite s h off size v) := by
  unfold State.windowWrite
  try dsimp only
  repeat' (first
    | with_reducible exact Kept.refl _ _ | (with_reducible show (_ : List Part) ⊆ _; decide) | with_reducible apply Kept.ite
    | (with_reducible apply Kept.andThen (State.writeWord_kept _ _ _ _))
    | (with_reducible apply Kept.andThen (State.upC_kept _ _ _)))

theorem registerWrite_kept (h off size : Nat) (v : U64) (poison : Bool) (s : State) : Kept [.hides, .imem, .acres,
    .gates, .ports, .dex, .mgmt, .box, .screen] s (registerWrite h off size v poison s) := by
  unfold registerWrite
  try dsimp only
  repeat' (first
    | with_reducible exact Kept.refl _ _ | (with_reducible show (_ : List Part) ⊆ _; decide) | with_reducible apply Kept.ite
    | (with_reducible apply Kept.andThen (State.windowWrite_kept _ _ _ _ _)))

theorem State.upCt_kept (s : State) (h : Nat) (f : Ct → Ct) : Kept [.hides] s (State.upCt s h f) := by
  unfold State.upCt
  try dsimp only
  repeat' (first
    | with_reducible exact Kept.refl _ _ | (with_reducible show (_ : List Part) ⊆ _; decide) | with_reducible apply Kept.ite
    | (with_reducible apply Kept.andThen (State.upC_kept _ _ _)))

/-! ### Mem.lean -/

theorem State.storeLine_kept (s : State) (h off : Nat) (data : List Byte) (poison : Bool) (cycle : Nat) : Kept
    [.hides, .imem] s (State.storeLine s h off data poison cycle) := by
  unfold State.storeLine
  try dsimp only
  repeat' (first
    | with_reducible exact Kept.refl _ _ | (with_reducible show (_ : List Part) ⊆ _; decide) | with_reducible apply Kept.ite
    | (with_reducible apply Kept.andThen (State.upQ_kept _ _ _)) | (with_reducible apply Kept.andThen (State.upA_kept _ _ _))
    | (with_reducible apply Kept.andThen (State.writeMem_kept _ _ _ _)))

theorem State.untrack_kept (s : State) (h off : Nat) : Kept [.hides] s (State.untrack s h off) := by
  unfold State.untrack
  try dsimp only
  repeat' (first
    | with_reducible exact Kept.refl _ _ | (with_reducible show (_ : List Part) ⊆ _; decide)
    | (with_reducible apply Kept.andThen (State.upA_kept _ _ _)))

theorem State.answered_kept (s : State) (h : Nat) (p : Snoop) : Kept [.hides] s (State.answered s h p) := by
  unfold State.answered
  try dsimp only
  repeat' (first
    | with_reducible exact Kept.refl _ _ | (with_reducible show (_ : List Part) ⊆ _; decide) | with_reducible apply Kept.ite
    | (with_reducible apply Kept.andThen (State.upA_kept _ _ _))
    | (with_reducible apply Kept.andThen (State.untrack_kept _ _ _)) | split)

/-! ### Acres.lean -/

theorem State.writeAcre_kept (s : State) (a line : Nat) (bs : List Byte) : Kept [.acres] s (State.writeAcre s a line
    bs) := by
  unfold State.writeAcre
  try dsimp only
  repeat' (first
    | with_reducible exact Kept.refl _ _ | (with_reducible show (_ : List Part) ⊆ _; decide)
    | (with_reducible apply Kept.andThen (State.upAcre_kept _ _ _)))

/-! ### Mem.lean -/

theorem State.dropSnoop_kept (s : State) (h : Nat) (p : Snoop) : Kept [.hides] s (State.dropSnoop s h p) := by
  unfold State.dropSnoop
  try dsimp only
  repeat' (first
    | with_reducible exact Kept.refl _ _ | (with_reducible show (_ : List Part) ⊆ _; decide)
    | (with_reducible apply Kept.andThen (State.upA_kept _ _ _)))

theorem snoopResponse_kept (h off : Nat) (data : Option (List Byte)) (s : State) : Kept [.hides, .imem, .acres] s
    (snoopResponse h off data s) := by
  unfold snoopResponse
  try dsimp only
  repeat' (first
    | with_reducible exact Kept.refl _ _ | (with_reducible show (_ : List Part) ⊆ _; decide) | with_reducible apply Kept.ite
    | (with_reducible apply Kept.andThen (State.storeLine_kept _ _ _ _ _ _))
    | (with_reducible apply Kept.andThen (State.answered_kept _ _ _))
    | (with_reducible apply Kept.andThen (State.writeAcre_kept _ _ _ _))
    | (with_reducible apply Kept.andThen (State.upA_kept _ _ _))
    | (with_reducible apply Kept.andThen (State.dropSnoop_kept _ _ _)) | split)

/-! ### Resets.lean -/

theorem State.tspError_kept (s : State) (h : Nat) (o : Origin) : Kept [.hides, .imem, .gates, .ports, .dex, .screen] s
    (State.tspError s h o) := by
  unfold State.tspError
  try dsimp only
  repeat' (first
    | with_reducible exact Kept.refl _ _ | (with_reducible show (_ : List Part) ⊆ _; decide) | with_reducible apply Kept.ite
    | (with_reducible apply Kept.andThen (State.startReset_kept _ _ _ _ _)))

theorem configWrite_kept (ld off : Nat) (v : U32) (s : State) : Kept [.hides, .imem, .gates, .cxl, .ports, .dex,
    .screen] s (configWrite ld off v s) := by
  unfold configWrite
  try dsimp only
  repeat' (first
    | with_reducible exact Kept.refl _ _ | (with_reducible show (_ : List Part) ⊆ _; decide) | with_reducible apply Kept.ite
    | (with_reducible apply Kept.andThen (State.upLd_kept _ _ _))
    | (with_reducible apply Kept.andThen (State.tspError_kept _ _ _)) | split)

/-! ### HideRegs.lean -/

theorem State.hideClear_kept (s : State) (h : Nat) (r : HReg) : Kept [.hides] s (State.hideClear s h r) := by
  unfold State.hideClear
  try dsimp only
  repeat' (first
    | with_reducible exact Kept.refl _ _ | (with_reducible show (_ : List Part) ⊆ _; decide)
    | (with_reducible apply Kept.andThen (State.upCt_kept _ _ _))
    | (with_reducible apply Kept.andThen (State.upC_kept _ _ _)) | (with_reducible apply Kept.andThen (State.upA_kept _ _ _))
    | (with_reducible apply Kept.andThen (State.upQ_kept _ _ _)) | (with_reducible apply Kept.andThen (State.upK_kept _ _ _))
    | split)

/-! ### Mem.lean -/

theorem State.track_kept (s : State) (h off : Nat) (excl : Bool) : Kept [.hides, .gates] s (State.track s h off excl)
    := by
  unfold State.track
  try dsimp only
  repeat' (first
    | with_reducible exact Kept.refl _ _ | (with_reducible show (_ : List Part) ⊆ _; decide) | with_reducible apply Kept.ite
    | (with_reducible apply Kept.andThen (State.sendSnoop_kept _ _ _ _ _))
    | (with_reducible apply Kept.andThen (State.upA_kept _ _ _)) | split)

theorem State.refuse_kept (s : State) (h n kind off : Nat) : Kept [.hides] s (State.refuse s h n kind off) := by
  unfold State.refuse
  try dsimp only
  repeat' (first
    | with_reducible exact Kept.refl _ _ | (with_reducible show (_ : List Part) ⊆ _; decide)
    | (with_reducible apply Kept.andThen (State.upSlot_kept _ _ _ _)))

theorem State.lost_kept (s : State) (h : Nat) : Kept [.hides] s (State.lost s h) := by
  unfold State.lost
  try dsimp only
  repeat' (first
    | with_reducible exact Kept.refl _ _ | (with_reducible show (_ : List Part) ⊆ _; decide)
    | (with_reducible apply Kept.andThen (State.upA_kept _ _ _)))

theorem State.answerWrite_kept (s : State) (owner off : Nat) (uio : Bool) (load : Nat) : Kept [.gates] s
    (State.answerWrite s owner off uio load) := by
  unfold State.answerWrite
  try dsimp only
  repeat' (first
    | with_reducible exact Kept.refl _ _ | (with_reducible show (_ : List Part) ⊆ _; decide) | with_reducible apply Kept.ite
    | (with_reducible apply Kept.andThen (State.enqueue_kept _ _ _ _ _)))

theorem State.answerRead_kept (s : State) (owner off : Nat) (data : List Byte) (poison shared uio : Bool) (load : Nat)
    : Kept [.gates] s (State.answerRead s owner off data poison shared uio load) := by
  unfold State.answerRead
  try dsimp only
  repeat' (first
    | with_reducible exact Kept.refl _ _ | (with_reducible show (_ : List Part) ⊆ _; decide) | with_reducible apply Kept.ite
    | (with_reducible apply Kept.andThen (State.enqueue_kept _ _ _ _ _)))

theorem State.answerPoison_kept (s : State) (owner off : Nat) (uio : Bool) (load : Nat) : Kept [.gates] s
    (State.answerPoison s owner off uio load) := by
  unfold State.answerPoison
  try dsimp only
  repeat' (first
    | with_reducible exact Kept.refl _ _ | (with_reducible show (_ : List Part) ⊆ _; decide)
    | (with_reducible apply Kept.andThen (State.answerRead_kept _ _ _ _ _ _ _ _)))

theorem State.answerRefused_kept (s : State) (h off : Nat) (op : AcreOp) (uio : Bool) (load : Nat) : Kept [.gates] s
    (State.answerRefused s h off op uio load) := by
  unfold State.answerRefused
  try dsimp only
  repeat' (first
    | with_reducible exact Kept.refl _ _ | (with_reducible show (_ : List Part) ⊆ _; decide)
    | (with_reducible apply Kept.andThen (State.answerWrite_kept _ _ _ _ _))
    | (with_reducible apply Kept.andThen (State.answerPoison_kept _ _ _ _ _)) | split)

theorem State.acreRequest_kept (s : State) (h n line : Nat) (op : AcreOp) (uio : Bool) : Kept [.hides, .gates] s
    (State.acreRequest s h n line op uio) := by
  unfold State.acreRequest
  try dsimp only
  repeat' (first
    | with_reducible exact Kept.refl _ _ | (with_reducible show (_ : List Part) ⊆ _; decide) | with_reducible apply Kept.ite
    | (with_reducible apply Kept.andThen (State.upA_kept _ _ _))
    | (with_reducible apply Kept.andThen (State.refuse_kept _ _ _ _ _))
    | (with_reducible apply Kept.andThen (State.lost_kept _ _))
    | (with_reducible apply Kept.andThen (State.answerRefused_kept _ _ _ _ _ _)) | split)

theorem memInv_kept (ld off : Nat) (s : State) : Kept [.hides, .gates] s (memInv ld off s) := by
  unfold memInv
  try dsimp only
  repeat' (first
    | with_reducible exact Kept.refl _ _ | (with_reducible show (_ : List Part) ⊆ _; decide)
    | (with_reducible apply Kept.andThen (State.track_kept _ _ _ _))
    | (with_reducible apply Kept.andThen (State.acreRequest_kept _ _ _ _ _ _))
    | (with_reducible apply Kept.andThen (State.lost_kept _ _))
    | (with_reducible apply Kept.andThen (State.answerWrite_kept _ _ _ _ _)) | split)

/-! ### Resets.lean -/

theorem State.flrOf_kept (s : State) (ld cause : Nat) (o : State → Nat → Origin) : Kept [.hides, .imem, .gates, .cxl,
    .ports, .dex, .screen] s (State.flrOf s ld cause o) := by
  unfold State.flrOf
  try dsimp only
  repeat' (first
    | with_reducible exact Kept.refl _ _ | (with_reducible show (_ : List Part) ⊆ _; decide)
    | (with_reducible apply Kept.andThen (State.startReset_kept _ _ _ _ _))
    | (with_reducible apply Kept.andThen (State.upLd_kept _ _ _)) | split)

theorem State.linkDown_kept (s : State) : Kept [.hides, .imem, .gates, .cxl, .ports, .dex, .mgmt, .box, .screen] s
    (State.linkDown s) := by
  unfold State.linkDown
  try dsimp only
  repeat' (first
    | with_reducible exact Kept.refl _ _ | (with_reducible apply Or.inr; with_reducible rfl)
    | (with_reducible apply Or.inl; decide) | (with_reducible show (_ : List Part) ⊆ _; decide)
    | with_reducible apply Kept.ite | (with_reducible apply Kept.andThen (State.flrOf_kept _ _ _ _))
    | (with_reducible apply Kept.after (forAll_kept _ _ _ ?_ ?_))
    | (with_reducible apply Kept.andThen (State.record_kept _ _ _ _ _)) | intro _
    | (with_reducible refine Kept.upd ?_ ?_ ?_ ?_ ?_ ?_ ?_ ?_ ?_ ?_ ?_ ?_ ?_ ?_ ?_ ?_ ?_))

theorem hideResetHeldTimeout_kept (h : Nat) (s : State) : Kept [.hides, .gates, .ports, .dex] s (hideResetHeldTimeout
    h s) := by
  unfold hideResetHeldTimeout
  try dsimp only
  repeat' (first
    | with_reducible exact Kept.refl _ _ | (with_reducible show (_ : List Part) ⊆ _; decide)
    | (with_reducible apply Kept.andThen (State.endHeld_kept _ _)))

/-! ### HideRegs.lean -/

theorem State.takeReg_kept (s : State) (h : Nat) (r : HReg) : Kept [.hides, .free] s (State.takeReg s h r).1 := by
  unfold State.takeReg
  try dsimp only
  repeat' (first
    | with_reducible exact Kept.refl _ _ | (with_reducible apply Or.inr; with_reducible rfl)
    | (with_reducible apply Or.inl; decide) | (with_reducible show (_ : List Part) ⊆ _; decide)
    | with_reducible apply Kept.ite | (with_reducible apply Kept.andThen (State.hideClear_kept _ _ _))
    | (with_reducible refine Kept.upd ?_ ?_ ?_ ?_ ?_ ?_ ?_ ?_ ?_ ?_ ?_ ?_ ?_ ?_ ?_ ?_ ?_))

theorem State.takeWord_kept (s : State) (h off : Nat) : Kept [.hides, .free] s (State.takeWord s h off).1 := by
  unfold State.takeWord
  try dsimp only
  repeat' (first
    | with_reducible exact Kept.refl _ _ | (with_reducible show (_ : List Part) ⊆ _; decide)
    | (with_reducible apply Kept.andThen (State.upA_kept _ _ _))
    | (with_reducible apply Kept.andThen (State.takeReg_kept _ _ _)) | split)

theorem State.windowRead_kept (s : State) (h off size : Nat) : Kept [.hides, .free] s (State.windowRead s h off
    size).1 := by
  unfold State.windowRead
  try dsimp only
  repeat' (first
    | with_reducible exact Kept.refl _ _ | (with_reducible show (_ : List Part) ⊆ _; decide)
    | (with_reducible apply Kept.andThen (State.takeReg_kept _ _ _))
    | (with_reducible apply Kept.andThen (State.takeWord_kept _ _ _))
    | (with_reducible apply Kept.andThen (State.upC_kept _ _ _)) | split)

theorem registerRead_kept (h off size : Nat) (s : State) : Kept [.hides, .gates, .free] s (registerRead h off size s)
    := by
  unfold registerRead
  try dsimp only
  repeat' (first
    | with_reducible exact Kept.refl _ _ | (with_reducible show (_ : List Part) ⊆ _; decide) | with_reducible apply Kept.ite
    | (with_reducible apply Kept.andThen (State.enqueue_kept _ _ _ _ _))
    | (with_reducible apply Kept.andThen (State.windowRead_kept _ _ _ _)) | (with_reducible refine Kept.via ‹_ = (_, _)› ?_)
    | split)

/-! ### Acres.lean -/

theorem acreScrub_kept (h n : Nat) (s : State) : Kept [.hides, .acres, .mgmt, .box] s (acreScrub h n s) := by
  unfold acreScrub
  try dsimp only
  repeat' (first
    | with_reducible exact Kept.refl _ _ | (with_reducible show (_ : List Part) ⊆ _; decide) | with_reducible apply Kept.ite
    | (with_reducible apply Kept.andThen (State.upAcre_kept _ _ _))
    | (with_reducible apply Kept.andThen (State.upSlot_kept _ _ _ _))
    | (with_reducible apply Kept.andThen (State.leaseRecord_kept _ _ _ _)))

/-! ### Resets.lean -/

theorem State.raw_kept (s : State) (bs : List Byte) : Kept [.mgmt] s (State.raw s bs) := by
  unfold State.raw
  try dsimp only
  repeat' (first
    | with_reducible exact Kept.refl _ _ | (with_reducible apply Or.inr; with_reducible rfl)
    | (with_reducible apply Or.inl; decide)
    | (with_reducible refine Kept.upd ?_ ?_ ?_ ?_ ?_ ?_ ?_ ?_ ?_ ?_ ?_ ?_ ?_ ?_ ?_ ?_ ?_))

theorem tspStop_kept (h : Nat) (s : State) : Kept [.hides, .imem, .gates, .ports, .dex, .mgmt, .screen] s (tspStop h
    s) := by
  unfold tspStop
  try dsimp only
  repeat' (first
    | with_reducible exact Kept.refl _ _ | (with_reducible show (_ : List Part) ⊆ _; decide) | with_reducible apply Kept.ite
    | (with_reducible apply Kept.andThen (State.tspError_kept _ _ _))
    | (with_reducible apply Kept.andThen (State.raw_kept _ _)))

/-! ### Mem.lean -/

theorem memWrite_kept (ld off : Nat) (data : List Byte) (poison wb : Bool) (cycle : Nat) (s : State) : Kept [.hides,
    .imem, .gates] s (memWrite ld off data poison wb cycle s) := by
  unfold memWrite
  try dsimp only
  repeat' (first
    | with_reducible exact Kept.refl _ _ | (with_reducible show (_ : List Part) ⊆ _; decide) | with_reducible apply Kept.ite
    | (with_reducible apply Kept.andThen (State.untrack_kept _ _ _))
    | (with_reducible apply Kept.andThen (State.storeLine_kept _ _ _ _ _ _))
    | (with_reducible apply Kept.andThen (State.acreRequest_kept _ _ _ _ _ _))
    | (with_reducible apply Kept.andThen (State.lost_kept _ _))
    | (with_reducible apply Kept.andThen (State.answerWrite_kept _ _ _ _ _)) | split)

/-! ### Resets.lean -/

theorem ideFail_kept (stream : Option Ld) (s : State) : Kept [.hides, .imem, .gates, .cxl, .ports, .dex, .screen] s
    (ideFail stream s) := by
  unfold ideFail
  try dsimp only
  repeat' (first
    | with_reducible exact Kept.refl _ _ | (with_reducible apply Or.inr; with_reducible rfl)
    | (with_reducible apply Or.inl; decide) | (with_reducible show (_ : List Part) ⊆ _; decide)
    | with_reducible apply Kept.ite | (with_reducible apply Kept.andThen (State.upLd_kept _ _ _))
    | (with_reducible apply Kept.andThen (State.tspError_kept _ _ _))
    | (with_reducible apply Kept.after (forAll_kept _ _ _ ?_ ?_))
    | (with_reducible apply Kept.andThen (State.deviceEvent_kept _)) | split | intro _
    | (with_reducible refine Kept.upd ?_ ?_ ?_ ?_ ?_ ?_ ?_ ?_ ?_ ?_ ?_ ?_ ?_ ?_ ?_ ?_ ?_))

/-! ### Acres.lean -/

theorem leaseDrain_kept (h n : Nat) (s : State) : Kept [.hides, .acres, .mgmt, .box] s (leaseDrain h n s) := by
  unfold leaseDrain
  try dsimp only
  repeat' (first
    | with_reducible exact Kept.refl _ _ | (with_reducible show (_ : List Part) ⊆ _; decide) | with_reducible apply Kept.ite
    | (with_reducible apply Kept.andThen (State.upAcre_kept _ _ _))
    | (with_reducible apply Kept.andThen (State.upSlot_kept _ _ _ _))
    | (with_reducible apply Kept.andThen (State.leaseRecord_kept _ _ _ _)))

/-! ### Resets.lean -/

theorem State.zeroImem_kept (s : State) (h : Nat) : Kept [.hides, .imem] s (State.zeroImem s h) := by
  unfold State.zeroImem
  try dsimp only
  repeat' (first
    | with_reducible exact Kept.refl _ _ | (with_reducible show (_ : List Part) ⊆ _; decide)
    | (with_reducible show (_ : Part) ∈ _; decide) | (with_reducible apply Kept.andThen (State.upA_kept _ _ _))
    | (with_reducible refine Kept.mem ?_ ?_ (fun k => Memory.wf_zero _ _ k)))

/-! ### Acres.lean -/

theorem leaseExpiry_kept (h n : Nat) (s : State) : Kept [.hides, .acres, .gates, .mgmt, .box] s (leaseExpiry h n s) :=
    by
  unfold leaseExpiry
  try dsimp only
  repeat' (first
    | with_reducible exact Kept.refl _ _ | (with_reducible show (_ : List Part) ⊆ _; decide) | with_reducible apply Kept.ite
    | (with_reducible apply Kept.andThen (State.closeHold_kept _ _ _ _ _ _))
    | (with_reducible apply Kept.andThen (State.upA_kept _ _ _)))

/-! ### Resets.lean -/

theorem linkUp_kept (width rate : Nat) (s : State) : Kept [.cxl, .mgmt, .box] s (linkUp width rate s) := by
  unfold linkUp
  try dsimp only
  repeat' (first
    | with_reducible exact Kept.refl _ _ | (with_reducible apply Or.inr; with_reducible rfl)
    | (with_reducible apply Or.inl; decide) | (with_reducible show (_ : List Part) ⊆ _; decide)
    | with_reducible apply Kept.ite | (with_reducible apply Kept.andThen (State.record_kept _ _ _ _ _))
    | (with_reducible refine Kept.upd ?_ ?_ ?_ ?_ ?_ ?_ ?_ ?_ ?_ ?_ ?_ ?_ ?_ ?_ ?_ ?_ ?_))

/-! ### Mem.lean -/

theorem snoopTimeout_kept (h off : Nat) (s : State) : Kept [.hides, .acres, .gates, .mgmt, .box] s (snoopTimeout h off
    s) := by
  unfold snoopTimeout
  try dsimp only
  repeat' (first
    | with_reducible exact Kept.refl _ _ | (with_reducible show (_ : List Part) ⊆ _; decide) | with_reducible apply Kept.ite
    | (with_reducible apply Kept.andThen (State.closeHold_kept _ _ _ _ _ _))
    | (with_reducible apply Kept.andThen (State.endHold_kept _ _ _))
    | (with_reducible apply Kept.andThen (State.dropSnoop_kept _ _ _))
    | (with_reducible apply Kept.andThen (State.upA_kept _ _ _)) | split)

/-! ### Resets.lean -/

theorem bufferEnable_kept (h b : Nat) (ctl : U32) (s : State) : Kept [.hides] s (bufferEnable h b ctl s) := by
  unfold bufferEnable
  try dsimp only
  repeat' (first
    | with_reducible exact Kept.refl _ _ | (with_reducible show (_ : List Part) ⊆ _; decide) | with_reducible apply Kept.ite
    | (with_reducible apply Kept.andThen (State.bufCtl_kept _ _ _ _)))

/-! ### Acres.lean -/

theorem leaseRecallComplete_kept (h : Nat) (s : State) : Kept [.hides, .mgmt, .box] s (leaseRecallComplete h s) := by
  unfold leaseRecallComplete
  try dsimp only
  repeat' (first
    | with_reducible exact Kept.refl _ _ | (with_reducible show (_ : List Part) ⊆ _; decide) | with_reducible apply Kept.ite
    | (with_reducible apply Kept.andThen (State.upSlot_kept _ _ _ _))
    | (with_reducible apply Kept.andThen (State.leaseRecord_kept _ _ _ _))
    | (with_reducible apply Kept.andThen (State.leaseResult_kept _ _ _))
    | (with_reducible apply Kept.andThen (State.upA_kept _ _ _)) | split)

/-! ### Mem.lean -/

theorem State.dmaEnds_kept (s : State) (h tag : Nat) (d : Dma) : Kept [.hides, .imem, .gates] s (State.dmaEnds s h tag
    d) := by
  unfold State.dmaEnds
  try dsimp only
  repeat' (first
    | with_reducible exact Kept.refl _ _ | (with_reducible show (_ : List Part) ⊆ _; decide) | with_reducible apply Kept.ite
    | (with_reducible apply Kept.andThen (State.failTokens_kept _ _))
    | (with_reducible apply Kept.andThen (State.upO_kept _ _ _)))

theorem dmaCompletion_kept (h tag : Nat) (r : DmaResult) (s : State) : Kept [.hides, .imem, .gates] s (dmaCompletion h
    tag r s) := by
  unfold dmaCompletion
  try dsimp only
  repeat' (first
    | with_reducible exact Kept.refl _ _ | (with_reducible show (_ : List Part) ⊆ _; decide) | with_reducible apply Kept.ite
    | (with_reducible apply Kept.andThen (State.dmaEnds_kept _ _ _ _)) | split)

/-! ### Resets.lean -/

theorem hideResetEndingDone_kept (h : Nat) (s : State) : Kept [.hides, .imem, .gates, .ports, .dex, .screen] s
    (hideResetEndingDone h s) := by
  unfold hideResetEndingDone
  try dsimp only
  repeat' (first
    | with_reducible exact Kept.refl _ _ | (with_reducible show (_ : List Part) ⊆ _; decide) | with_reducible apply Kept.ite
    | (with_reducible apply Kept.andThen (State.beginKeys_kept _ _))
    | (with_reducible apply Kept.andThen (State.upK_kept _ _ _))
    | (with_reducible apply Kept.andThen (State.endAll_kept _ _ _)))

/-! ### Acres.lean -/

theorem leaseRow_kept (op h : Nat) (v : U64) (s : State) : Kept [.hides, .acres, .gates, .mgmt, .box] s (leaseRow op h
    v s) := by
  unfold leaseRow
  try dsimp only
  repeat' (first
    | with_reducible exact Kept.refl _ _ | (with_reducible show (_ : List Part) ⊆ _; decide) | with_reducible apply Kept.ite
    | (with_reducible apply Kept.andThen (State.leaseCommand_kept _ _ _)))

/-! ### Resets.lean -/

theorem hideResetKeysDone_kept (h : Nat) (s : State) : Kept [.hides, .acres, .gates, .mgmt, .box] s (hideResetKeysDone
    h s) := by
  unfold hideResetKeysDone
  try dsimp only
  repeat' (first
    | with_reducible exact Kept.refl _ _ | (with_reducible show (_ : List Part) ⊆ _; decide) | with_reducible apply Kept.ite
    | (with_reducible apply Kept.andThen (State.closeHold_kept _ _ _ _ _ _))
    | (with_reducible apply Kept.after (forAll_kept _ _ _ ?_ ?_))
    | (with_reducible apply Kept.andThen (State.upHide_kept _ _ _)) | intro _)

theorem linkWidthChange_kept (width rate : Nat) (s : State) : Kept [.hides, .imem, .gates, .cxl, .mgmt, .box] s
    (linkWidthChange width rate s) := by
  unfold linkWidthChange
  try dsimp only
  repeat' (first
    | with_reducible exact Kept.refl _ _ | (with_reducible apply Or.inr; with_reducible rfl)
    | (with_reducible apply Or.inl; decide) | (with_reducible show (_ : List Part) ⊆ _; decide)
    | with_reducible apply Kept.ite | (with_reducible apply Kept.andThen (State.record_kept _ _ _ _ _))
    | (with_reducible apply Kept.andThen (State.deviceEvent_kept _)) | split
    | (with_reducible refine Kept.upd ?_ ?_ ?_ ?_ ?_ ?_ ?_ ?_ ?_ ?_ ?_ ?_ ?_ ?_ ?_ ?_ ?_))

theorem tspStart_kept (h : Nat) (s : State) : Kept [.hides, .mgmt] s (tspStart h s) := by
  unfold tspStart
  try dsimp only
  repeat' (first
    | with_reducible exact Kept.refl _ _ | (with_reducible show (_ : List Part) ⊆ _; decide) | with_reducible apply Kept.ite
    | (with_reducible apply Kept.andThen (State.upK_kept _ _ _)) | (with_reducible apply Kept.andThen (State.raw_kept _ _)))

theorem decoderCommit_kept (ld size ways base : Nat) (lock : Bool) (s : State) : Kept [.hides, .imem, .gates, .cxl,
    .ports, .dex, .screen] s (decoderCommit ld size ways base lock s) := by
  unfold decoderCommit
  try dsimp only
  repeat' (first
    | with_reducible exact Kept.refl _ _ | (with_reducible show (_ : List Part) ⊆ _; decide) | with_reducible apply Kept.ite
    | (with_reducible apply Kept.andThen (State.upLd_kept _ _ _))
    | (with_reducible apply Kept.andThen (State.tspError_kept _ _ _)) | split)

/-! ### Mem.lean -/

theorem State.perform_kept (s : State) (q : AcreReq) (load : Nat) : Kept [.hides, .acres, .gates] s (State.perform s q
    load) := by
  unfold State.perform
  try dsimp only
  repeat' (first
    | with_reducible exact Kept.refl _ _ | (with_reducible show (_ : List Part) ⊆ _; decide) | with_reducible apply Kept.ite
    | (with_reducible apply Kept.andThen (State.upAcre_kept _ _ _))
    | (with_reducible apply Kept.andThen (State.writeAcre_kept _ _ _ _))
    | (with_reducible apply Kept.andThen (State.upA_kept _ _ _))
    | (with_reducible apply Kept.andThen (State.refuse_kept _ _ _ _ _))
    | (with_reducible apply Kept.andThen (State.untrack_kept _ _ _))
    | (with_reducible apply Kept.andThen (State.answerWrite_kept _ _ _ _ _))
    | (with_reducible apply Kept.andThen (State.track_kept _ _ _ _))
    | (with_reducible apply Kept.andThen (State.answerRead_kept _ _ _ _ _ _ _ _))
    | (with_reducible apply Kept.andThen (State.answerPoison_kept _ _ _ _ _))
    | (with_reducible apply Kept.andThen (State.upC_kept _ _ _)) | split)

/-! ### Resets.lean -/

theorem tspLock_kept (h : Nat) (s : State) : Kept [.hides, .mgmt] s (tspLock h s) := by
  unfold tspLock
  try dsimp only
  repeat' (first
    | with_reducible exact Kept.refl _ _ | (with_reducible show (_ : List Part) ⊆ _; decide) | with_reducible apply Kept.ite
    | (with_reducible apply Kept.andThen (State.upK_kept _ _ _)) | (with_reducible apply Kept.andThen (State.raw_kept _ _)))

theorem hideResetScrubDone_kept (h : Nat) (s : State) : Kept [.clusters, .hides, .imem, .gates, .mgmt, .box] s
    (hideResetScrubDone h s) := by
  unfold hideResetScrubDone
  try dsimp only
  repeat' (first
    | with_reducible exact Kept.refl _ _ | (with_reducible show (_ : List Part) ⊆ _; decide) | with_reducible apply Kept.ite
    | (with_reducible apply Kept.andThen (State.reload_kept _ _))
    | (with_reducible apply Kept.andThen (State.zeroImem_kept _ _))
    | (with_reducible apply Kept.andThen (State.upK_kept _ _ _)))

theorem hideResetReleaseDone_kept (h : Nat) (s : State) : Kept [.clusters, .hides] s (hideResetReleaseDone h s) := by
  unfold hideResetReleaseDone
  try dsimp only
  repeat' (first
    | with_reducible exact Kept.refl _ _ | (with_reducible apply Or.inr; with_reducible rfl)
    | (with_reducible apply Or.inl; decide) | (with_reducible show (_ : List Part) ⊆ _; decide)
    | with_reducible apply Kept.ite | (with_reducible apply Kept.andThen (State.upHide_kept _ _ _))
    | (with_reducible refine Kept.upd ?_ ?_ ?_ ?_ ?_ ?_ ?_ ?_ ?_ ?_ ?_ ?_ ?_ ?_ ?_ ?_ ?_))

/-! ### Acres.lean -/

theorem poisonMarkWrite_kept (a line : Nat) (s : State) : Kept [.acres] s (poisonMarkWrite a line s) := by
  unfold poisonMarkWrite
  try dsimp only
  repeat' (first
    | with_reducible exact Kept.refl _ _ | (with_reducible show (_ : List Part) ⊆ _; decide) | with_reducible apply Kept.ite
    | (with_reducible apply Kept.andThen (State.upAcre_kept _ _ _)))

/-! ### Resets.lean -/

theorem bufferDisable_kept (h b : Nat) (ctl : U32) (s : State) : Kept [.hides] s (bufferDisable h b ctl s) := by
  unfold bufferDisable
  try dsimp only
  repeat' (first
    | with_reducible exact Kept.refl _ _ | (with_reducible show (_ : List Part) ⊆ _; decide) | with_reducible apply Kept.ite
    | (with_reducible apply Kept.andThen (State.bufCtl_kept _ _ _ _)))

theorem cxlPerst_kept (s : State) : Kept [.hides, .imem, .gates, .cxl, .ports, .dex, .mgmt, .box, .screen] s (cxlPerst
    s) := by
  unfold cxlPerst
  try dsimp only
  repeat' (first
    | with_reducible exact Kept.refl _ _ | (with_reducible show (_ : List Part) ⊆ _; decide)
    | (with_reducible apply Kept.andThen (State.linkDown_kept _)))

/-! ### Mem.lean -/

theorem memRead_kept (ld off : Nat) (kind : ReadKind) (uio : Bool) (s : State) : Kept [.hides, .gates] s (memRead ld
    off kind uio s) := by
  unfold memRead
  try dsimp only
  repeat' (first
    | with_reducible exact Kept.refl _ _ | (with_reducible show (_ : List Part) ⊆ _; decide) | with_reducible apply Kept.ite
    | (with_reducible apply Kept.andThen (State.track_kept _ _ _ _))
    | (with_reducible apply Kept.andThen (State.answerRead_kept _ _ _ _ _ _ _ _))
    | (with_reducible apply Kept.andThen (State.acreRequest_kept _ _ _ _ _ _))
    | (with_reducible apply Kept.andThen (State.lost_kept _ _))
    | (with_reducible apply Kept.andThen (State.answerPoison_kept _ _ _ _ _)) | split)

theorem acreServe_kept (h : Nat) (s : State) : Kept [.hides, .acres, .gates] s (acreServe h s) := by
  unfold acreServe
  try dsimp only
  repeat' (first
    | with_reducible exact Kept.refl _ _ | (with_reducible show (_ : List Part) ⊆ _; decide) | with_reducible apply Kept.ite
    | (with_reducible apply Kept.andThen (State.sendSnoop_kept _ _ _ _ _))
    | (with_reducible apply Kept.andThen (State.upA_kept _ _ _))
    | (with_reducible apply Kept.andThen (State.perform_kept _ _ _))
    | (with_reducible apply Kept.after (Kept.foldl _ (fun _ _ => ?_) _ _)) | split)

theorem dmaTimeout_kept (h tag : Nat) (s : State) : Kept [.hides, .imem, .gates] s (dmaTimeout h tag s) := by
  unfold dmaTimeout
  try dsimp only
  repeat' (first
    | with_reducible exact Kept.refl _ _ | (with_reducible show (_ : List Part) ⊆ _; decide) | with_reducible apply Kept.ite
    | (with_reducible apply Kept.andThen (State.dmaEnds_kept _ _ _ _)) | split)

/-! ### Resets.lean -/

theorem jobKeyRow_kept (op h : Nat) (v : U32) (s : State) : Kept [.hides] s (jobKeyRow op h v s) := by
  unfold jobKeyRow
  try dsimp only
  repeat' (first
    | with_reducible exact Kept.refl _ _ | (with_reducible show (_ : List Part) ⊆ _; decide) | with_reducible apply Kept.ite
    | (with_reducible apply Kept.andThen (State.jobKeyCommand_kept _ _ _)))

/-! ### Mem.lean -/

theorem uioWrite_kept (ld off : Nat) (data : List Byte) (poison : Bool) (cycle : Nat) (s : State) : Kept [.hides,
    .imem, .gates] s (uioWrite ld off data poison cycle s) := by
  unfold uioWrite
  try dsimp only
  repeat' (first
    | with_reducible exact Kept.refl _ _ | (with_reducible show (_ : List Part) ⊆ _; decide)
    | (with_reducible apply Kept.andThen (State.storeLine_kept _ _ _ _ _ _))
    | (with_reducible apply Kept.andThen (State.acreRequest_kept _ _ _ _ _ _))
    | (with_reducible apply Kept.andThen (State.lost_kept _ _))
    | (with_reducible apply Kept.andThen (State.enqueue_kept _ _ _ _ _))
    | (with_reducible apply Kept.andThen (State.answerWrite_kept _ _ _ _ _)) | split)

end Sys2Proof.Machine
end

