-- ==== Sys2Proof/Laws/KeptDevice.lean ====
section
/-!
SUPPORT. What each operation keeps, and the parts of the state it may change: the league links, gates, power, furlongs, loads and management.
-/

namespace Sys2Proof.Machine
open Sys2Proof

/-! ### Loads.lean -/

theorem State.endLoad_kept (s : State) (l : Load) (kind st code digest hide : Nat) : Kept [.mgmt, .box] s
    (State.endLoad s l kind st code digest hide) := by
  unfold State.endLoad
  try dsimp only
  repeat' (first
    | with_reducible exact Kept.refl _ _ | (with_reducible show (_ : List Part) ⊆ _; decide)
    | (with_reducible apply Kept.andThen (State.upLoad_kept _ _ _))
    | (with_reducible apply Kept.andThen (State.config_kept _ _ _ _ _ _)))

theorem loadTimeout_kept (s : State) : Kept [.mgmt, .box] s (loadTimeout s) := by
  unfold loadTimeout
  try dsimp only
  repeat' (first
    | with_reducible exact Kept.refl _ _ | (with_reducible show (_ : List Part) ⊆ _; decide) | with_reducible apply Kept.ite
    | (with_reducible apply Kept.andThen (State.endLoad_kept _ _ _ _ _ _ _)) | split)

/-! ### Power.lean -/

theorem State.closeAllLeases_kept (s : State) (l : List Nat) (o : Origin) : Kept [.hides, .acres, .gates, .mgmt, .box]
    s (State.closeAllLeases s l o) := by
  unfold State.closeAllLeases
  try dsimp only
  repeat' (first
    | with_reducible exact Kept.refl _ _ | (with_reducible show (_ : List Part) ⊆ _; decide)
    | (with_reducible apply Kept.andThen (State.closeSlot_kept _ _ _ _ _ _))
    | (with_reducible apply Kept.after (forAll_kept _ _ _ ?_ ?_)) | intro _)

theorem State.thermalTrip_kept (s : State) (sensor : Nat) : Kept [.power, .clusters, .hides, .imem, .acres, .gates,
    .ports, .mgmt, .box, .screen] s (State.thermalTrip s sensor) := by
  unfold State.thermalTrip
  try dsimp only
  repeat' (first
    | with_reducible exact Kept.refl _ _ | (with_reducible apply Or.inr; with_reducible rfl)
    | (with_reducible apply Or.inl; decide) | (with_reducible show (_ : List Part) ⊆ _; decide)
    | (with_reducible apply Kept.andThen (State.reload_kept _ _))
    | (with_reducible apply Kept.andThen (State.beginEnding_kept _ _))
    | (with_reducible apply Kept.andThen (State.closeAllLeases_kept _ _ _))
    | (with_reducible apply Kept.andThen (State.deviceEvent_kept _))
    | (with_reducible apply Kept.andThen (State.endAll_kept _ _ _))
    | (with_reducible apply Kept.after (forAll_kept _ _ _ ?_ ?_))
    | (with_reducible apply Kept.andThen (State.record_kept _ _ _ _ _)) | split | intro _
    | (with_reducible refine Kept.upd ?_ ?_ ?_ ?_ ?_ ?_ ?_ ?_ ?_ ?_ ?_ ?_ ?_ ?_ ?_ ?_ ?_))

theorem State.deviceReset_kept (s : State) (cause : Nat) : Kept [.power, .sensors, .resetPin, .clocks, .regions,
    .clusters, .plan, .hides, .imem, .acres, .gates, .cxl, .ports, .dex, .mgmt, .box, .screen, .tap, .free] s
    (State.deviceReset s cause) := by
  refine ⟨fun k => ⟨rfl, ⟨k.box.rising, k.box.below, k.box.segments, (by decide : 10 ≤ Box.reset.warn.toNat), (by decide : Box.reset.warn.toNat ≤ 95), k.box.acked⟩, k.dex⟩, rfl, Nat.le_refl _,
    Nat.le_refl _, id, Nat.le_refl _, fun _ h _ => h, Nat.le_refl _, fun p hp => absurd ?_ hp⟩
  cases p <;> decide

theorem State.loseSupply_kept (s : State) (cause : Nat) : Kept [.power, .sensors, .resetPin, .clocks, .regions,
    .clusters, .plan, .hides, .imem, .acres, .gates, .cxl, .ports, .dex, .mgmt, .box, .screen, .tap, .free] s
    (State.loseSupply s cause) := by
  unfold State.loseSupply
  try dsimp only
  repeat' (first
    | with_reducible exact Kept.refl _ _ | (with_reducible apply Or.inr; with_reducible rfl)
    | (with_reducible apply Or.inl; decide) | (with_reducible show (_ : List Part) ⊆ _; decide)
    | (with_reducible apply Kept.andThen (State.deviceReset_kept _ _))
    | (with_reducible apply Kept.andThen (State.record_kept _ _ _ _ _)) | split
    | (with_reducible refine Kept.upd ?_ ?_ ?_ ?_ ?_ ?_ ?_ ?_ ?_ ?_ ?_ ?_ ?_ ?_ ?_ ?_ ?_))

theorem State.tripAt_kept (s : State) (sensor : Nat) : Kept [.power, .sensors, .resetPin, .clocks, .regions,
    .clusters, .plan, .hides, .imem, .acres, .gates, .cxl, .ports, .dex, .mgmt, .box, .screen, .tap, .free] s
    (State.tripAt s sensor) := by
  unfold State.tripAt
  try dsimp only
  repeat' (first
    | with_reducible exact Kept.refl _ _ | (with_reducible apply Or.inr; with_reducible rfl)
    | (with_reducible apply Or.inl; decide) | (with_reducible show (_ : List Part) ⊆ _; decide)
    | with_reducible apply Kept.ite | (with_reducible apply Kept.andThen (State.thermalTrip_kept _ _))
    | (with_reducible apply Kept.andThen (State.loseSupply_kept _ _))
    | (with_reducible apply Kept.andThen (State.record_kept _ _ _ _ _))
    | (with_reducible refine Kept.upd ?_ ?_ ?_ ?_ ?_ ?_ ?_ ?_ ?_ ?_ ?_ ?_ ?_ ?_ ?_ ?_ ?_))

/-! ### Loads.lean -/

theorem State.discardLoad_kept (s : State) (l : Load) (code : Nat) (o : Origin) : Kept [.mgmt, .box] s
    (State.discardLoad s l code o) := by
  unfold State.discardLoad
  try dsimp only
  repeat' (first
    | with_reducible exact Kept.refl _ _ | (with_reducible show (_ : List Part) ⊆ _; decide)
    | (with_reducible apply Kept.andThen (State.upLoad_kept _ _ _))
    | (with_reducible apply Kept.andThen (State.config_kept _ _ _ _ _ _)))

/-! ### GlobalRegs.lean -/

theorem State.closeSession_kept (s : State) (id : Nat) : Kept [.mgmt, .box] s (State.closeSession s id) := by
  unfold State.closeSession
  try dsimp only
  repeat' (first
    | with_reducible exact Kept.refl _ _ | (with_reducible apply Or.inr; with_reducible rfl)
    | (with_reducible apply Or.inl; decide) | (with_reducible show (_ : List Part) ⊆ _; decide)
    | with_reducible apply Kept.ite | (with_reducible apply Kept.andThen (State.discardLoad_kept _ _ _ _)) | split
    | (with_reducible refine Kept.upd ?_ ?_ ?_ ?_ ?_ ?_ ?_ ?_ ?_ ?_ ?_ ?_ ?_ ?_ ?_ ?_ ?_))

/-! ### Manage.lean -/

theorem tapInstruction_kept (op : TapOp) (s : State) : Kept [.tap] s (tapInstruction op s) := by
  unfold tapInstruction
  try dsimp only
  repeat' (first
    | with_reducible exact Kept.refl _ _ | (with_reducible apply Or.inr; with_reducible rfl)
    | (with_reducible apply Or.inl; decide) | with_reducible apply Kept.ite | split
    | (with_reducible refine Kept.upd ?_ ?_ ?_ ?_ ?_ ?_ ?_ ?_ ?_ ?_ ?_ ?_ ?_ ?_ ?_ ?_ ?_))

/-! ### League.lean -/

theorem State.upQueue_kept (s : State) (p owner : Nat) (f : EgQueue → EgQueue) : Kept [.gates] s (State.upQueue s p
    owner f) := by
  unfold State.upQueue
  try dsimp only
  repeat' (first
    | with_reducible exact Kept.refl _ _ | (with_reducible apply Or.inr; with_reducible rfl)
    | (with_reducible apply Or.inl; decide)
    | (with_reducible refine Kept.upd ?_ ?_ ?_ ?_ ?_ ?_ ?_ ?_ ?_ ?_ ?_ ?_ ?_ ?_ ?_ ?_ ?_))

theorem State.train_kept (s : State) (p step : Nat) : Kept [.gates, .ports] s (State.train s p step) := by
  unfold State.train
  try dsimp only
  repeat' (first
    | with_reducible exact Kept.refl _ _ | (with_reducible show (_ : List Part) ⊆ _; decide)
    | (with_reducible apply Kept.andThen (State.upPort_kept _ _ _))
    | (with_reducible apply Kept.andThen (State.upQueue_kept _ _ _ _)))

theorem State.leagueRecord_kept (s : State) (p ev : Nat) : Kept [.mgmt, .box] s (State.leagueRecord s p ev) := by
  unfold State.leagueRecord
  try dsimp only
  repeat' (first
    | with_reducible exact Kept.refl _ _ | (with_reducible show (_ : List Part) ⊆ _; decide)
    | (with_reducible apply Kept.andThen (State.record_kept _ _ _ _ _)))

theorem State.retrain_kept (s : State) (p : Nat) : Kept [.gates, .ports, .mgmt, .box] s (State.retrain s p) := by
  unfold State.retrain
  try dsimp only
  repeat' (first
    | with_reducible exact Kept.refl _ _ | (with_reducible show (_ : List Part) ⊆ _; decide) | with_reducible apply Kept.ite
    | (with_reducible apply Kept.andThen (State.train_kept _ _ _))
    | (with_reducible apply Kept.andThen (State.upPort_kept _ _ _))
    | (with_reducible apply Kept.andThen (State.leagueRecord_kept _ _ _)))

theorem State.replay_kept (s : State) (p : Nat) : Kept [.gates, .ports, .mgmt, .box] s (State.replay s p) := by
  unfold State.replay
  try dsimp only
  repeat' (first
    | with_reducible exact Kept.refl _ _ | (with_reducible apply Or.inr; with_reducible rfl)
    | (with_reducible apply Or.inl; decide) | (with_reducible show (_ : List Part) ⊆ _; decide)
    | with_reducible apply Kept.ite | (with_reducible apply Kept.andThen (State.retrain_kept _ _))
    | (with_reducible apply Kept.andThen (State.upPort_kept _ _ _))
    | (with_reducible refine Kept.upd ?_ ?_ ?_ ?_ ?_ ?_ ?_ ?_ ?_ ?_ ?_ ?_ ?_ ?_ ?_ ?_ ?_))

/-! ### Manage.lean -/

theorem State.message_kept (s : State) (r : Reply) : Kept [.mgmt] s (State.message s r) := by
  unfold State.message
  try dsimp only
  repeat' (first
    | with_reducible exact Kept.refl _ _ | (with_reducible apply Or.inr; with_reducible rfl)
    | (with_reducible apply Or.inl; decide)
    | (with_reducible refine Kept.upd ?_ ?_ ?_ ?_ ?_ ?_ ?_ ?_ ?_ ?_ ?_ ?_ ?_ ?_ ?_ ?_ ?_))

theorem State.reply_kept (s : State) (q : Req) (typ result : Nat) (body : List Byte) : Kept [.mgmt, .box] s
    (State.reply s q typ result body) := by
  unfold State.reply
  try dsimp only
  repeat' (first
    | with_reducible exact Kept.refl _ _ | (with_reducible apply Or.inr; with_reducible rfl)
    | (with_reducible apply Or.inl; decide) | (with_reducible show (_ : List Part) ⊆ _; decide)
    | with_reducible apply Kept.ite | (with_reducible apply Kept.andThen (State.closeSession_kept _ _))
    | (with_reducible apply Kept.andThen (State.message_kept _ _)) | split
    | (with_reducible refine Kept.upd ?_ ?_ ?_ ?_ ?_ ?_ ?_ ?_ ?_ ?_ ?_ ?_ ?_ ?_ ?_ ?_ ?_))

theorem State.request_kept {T : List Part} (s : State) (q : Req) (typ : Nat) (need : Role) (f : State → State) (hT :
    [.mgmt, .box] ⊆ T) (h_f : ∀ x0, Kept T x0 (f x0)) : Kept T s (State.request s q typ need f) := by
  unfold State.request
  try dsimp only
  repeat' (first
    | with_reducible exact Kept.refl _ _ | (with_reducible assumption) | with_reducible apply Kept.ite
    | (with_reducible refine Kept.trans ?_ (h_f _)) | (with_reducible apply Kept.andThen (State.reply_kept _ _ _ _ _))
    | split)

theorem regionReset_kept (q : Req) (region : Nat) (result : RegionTest) (s : State) : Kept [.regions, .mgmt, .box] s
    (regionReset q region result s) := by
  unfold regionReset
  try dsimp only
  repeat' (first
    | with_reducible exact Kept.refl _ _ | (with_reducible show (_ : List Part) ⊆ _; decide) | with_reducible apply Kept.ite
    | (with_reducible apply Kept.andThen (State.record_kept _ _ _ _ _))
    | (with_reducible apply Kept.andThen (State.config_kept _ _ _ _ _ _))
    | (with_reducible apply Kept.andThen (State.upRegion_kept _ _ _))
    | (with_reducible apply Kept.andThen (State.reply_kept _ _ _ _ _))
    | (with_reducible apply Kept.after (State.request_kept _ _ _ _ _ ?_ ?_)) | split | intro _)

/-! ### Furlong.lean -/

theorem State.putVariant_kept (s : State) (kind index : Nat) : Kept [.plan, .hides, .imem, .gates, .mgmt, .box] s
    (State.putVariant s kind index) := by
  unfold State.putVariant
  try dsimp only
  repeat' (first
    | with_reducible exact Kept.refl _ _ | (with_reducible apply Or.inr; with_reducible rfl)
    | (with_reducible apply Or.inl; decide) | (with_reducible show (_ : List Part) ⊆ _; decide)
    | (with_reducible apply Kept.andThen (State.record_kept _ _ _ _ _))
    | (with_reducible apply Kept.andThen (State.postEvent_kept _ _ _))
    | (with_reducible apply Kept.andThen (State.upHide_kept _ _ _))
    | (with_reducible apply Kept.after (forAll_kept _ _ _ ?_ ?_)) | intro _
    | (with_reducible refine Kept.upd ?_ ?_ ?_ ?_ ?_ ?_ ?_ ?_ ?_ ?_ ?_ ?_ ?_ ?_ ?_ ?_ ?_))

theorem State.loseAcres_kept (s : State) (r : Nat) : Kept [.hides, .acres, .gates, .mgmt, .box] s (State.loseAcres s
    r) := by
  unfold State.loseAcres
  try dsimp only
  repeat' (first
    | with_reducible exact Kept.refl _ _ | (with_reducible show (_ : List Part) ⊆ _; decide)
    | (with_reducible apply Kept.andThen (State.closeSlot_kept _ _ _ _ _ _))
    | (with_reducible apply Kept.andThen (State.upAcre_kept _ _ _))
    | (with_reducible apply Kept.after (forAll_kept _ _ _ ?_ ?_)) | intro _)

theorem State.switchRegion_kept (s : State) (r : Nat) : Kept [.regions, .plan, .hides, .imem, .acres, .gates, .ports,
    .mgmt, .box, .screen] s (State.switchRegion s r) := by
  unfold State.switchRegion
  try dsimp only
  repeat' (first
    | with_reducible exact Kept.refl _ _ | (with_reducible apply Or.inr; with_reducible rfl)
    | (with_reducible apply Or.inl; decide) | (with_reducible show (_ : List Part) ⊆ _; decide)
    | with_reducible apply Kept.ite | (with_reducible apply Kept.andThen (State.endFlights_kept _ _ _))
    | (with_reducible apply Kept.after (forAll_kept _ _ _ ?_ ?_))
    | (with_reducible apply Kept.andThen (State.deviceEvent_kept _))
    | (with_reducible apply Kept.andThen (State.putVariant_kept _ _ _))
    | (with_reducible apply Kept.andThen (State.loseAcres_kept _ _))
    | (with_reducible apply Kept.andThen (State.upRegion_kept _ _ _)) | intro _
    | (with_reducible refine Kept.upd ?_ ?_ ?_ ?_ ?_ ?_ ?_ ?_ ?_ ?_ ?_ ?_ ?_ ?_ ?_ ?_ ?_))

theorem State.switchCluster_kept (s : State) (c : Nat) : Kept [.regions, .clusters, .plan, .hides, .imem, .acres,
    .gates, .ports, .mgmt, .box, .screen] s (State.switchCluster s c) := by
  unfold State.switchCluster
  try dsimp only
  repeat' (first
    | with_reducible exact Kept.refl _ _ | (with_reducible show (_ : List Part) ⊆ _; decide) | with_reducible apply Kept.ite
    | (with_reducible apply Kept.andThen (State.switchRegion_kept _ _))
    | (with_reducible apply Kept.andThen (State.upCluster_kept _ _ _))
    | (with_reducible apply Kept.andThen (State.putVariant_kept _ _ _))
    | (with_reducible apply Kept.andThen (State.upRegion_kept _ _ _)))

theorem State.remapCluster_kept (s : State) (c : Nat) : Kept [.regions, .clusters, .plan, .hides, .imem, .acres,
    .gates, .ports, .mgmt, .box, .screen] s (State.remapCluster s c) := by
  unfold State.remapCluster
  try dsimp only
  repeat' (first
    | with_reducible exact Kept.refl _ _ | (with_reducible show (_ : List Part) ⊆ _; decide)
    | (with_reducible apply Kept.andThen (State.switchCluster_kept _ _))
    | (with_reducible apply Kept.andThen (State.record_kept _ _ _ _ _))
    | (with_reducible apply Kept.after (forAll_kept _ _ _ ?_ ?_))
    | (with_reducible apply Kept.andThen (State.upCluster_kept _ _ _)) | split | intro _)

theorem switchNotice_kept (s : State) : Kept [.plan] s (switchNotice s) := by
  unfold switchNotice
  try dsimp only
  repeat' (first
    | with_reducible exact Kept.refl _ _ | (with_reducible apply Or.inr; with_reducible rfl)
    | (with_reducible apply Or.inl; decide) | with_reducible apply Kept.ite | split
    | (with_reducible refine Kept.upd ?_ ?_ ?_ ?_ ?_ ?_ ?_ ?_ ?_ ?_ ?_ ?_ ?_ ?_ ?_ ?_ ?_))

/-! ### Power.lean -/

theorem protectiveShutdown_kept (s : State) : Kept [.power, .sensors, .resetPin, .clocks, .regions, .clusters, .plan,
    .hides, .imem, .acres, .gates, .cxl, .ports, .dex, .mgmt, .box, .screen, .tap, .free] s (protectiveShutdown s) :=
    by
  unfold protectiveShutdown
  try dsimp only
  repeat' (first
    | with_reducible exact Kept.refl _ _ | (with_reducible show (_ : List Part) ⊆ _; decide)
    | (with_reducible apply Kept.andThen (State.loseSupply_kept _ _)))

/-! ### League.lean -/

theorem leagueReplayTimeout_kept (p : Nat) (s : State) : Kept [.gates, .ports, .mgmt, .box] s (leagueReplayTimeout p
    s) := by
  unfold leagueReplayTimeout
  try dsimp only
  repeat' (first
    | with_reducible exact Kept.refl _ _ | (with_reducible show (_ : List Part) ⊆ _; decide) | with_reducible apply Kept.ite
    | (with_reducible apply Kept.andThen (State.replay_kept _ _)))

/-! ### Manage.lean -/

theorem State.failHandshake_kept (s : State) : Kept [.mgmt, .box] s (State.failHandshake s) := by
  unfold State.failHandshake
  try dsimp only
  repeat' (first
    | with_reducible exact Kept.refl _ _ | (with_reducible apply Or.inr; with_reducible rfl)
    | (with_reducible apply Or.inl; decide) | (with_reducible show (_ : List Part) ⊆ _; decide)
    | with_reducible apply Kept.ite | (with_reducible apply Kept.andThen (State.config_kept _ _ _ _ _ _))
    | (with_reducible refine Kept.upd ?_ ?_ ?_ ?_ ?_ ?_ ?_ ?_ ?_ ?_ ?_ ?_ ?_ ?_ ?_ ?_ ?_))

/-! ### League.lean -/

theorem laneFault_kept (p lane : Nat) (s : State) : Kept [.gates, .ports, .mgmt, .box] s (laneFault p lane s) := by
  unfold laneFault
  try dsimp only
  repeat' (first
    | with_reducible exact Kept.refl _ _ | (with_reducible show (_ : List Part) ⊆ _; decide) | with_reducible apply Kept.ite
    | (with_reducible apply Kept.andThen (State.upPort_kept _ _ _))
    | (with_reducible apply Kept.andThen (State.retrain_kept _ _)))

theorem symbolWindow_kept (p lane errors : Nat) (s : State) : Kept [.gates, .ports, .mgmt, .box] s (symbolWindow p
    lane errors s) := by
  unfold symbolWindow
  try dsimp only
  repeat' (first
    | with_reducible exact Kept.refl _ _ | (with_reducible show (_ : List Part) ⊆ _; decide) | with_reducible apply Kept.ite
    | (with_reducible apply Kept.andThen (laneFault_kept _ _ _)))

/-! ### Furlong.lean -/

theorem drainLimit_kept (s : State) : Kept [.hides, .imem, .gates, .ports, .screen] s (drainLimit s) := by
  unfold drainLimit
  try dsimp only
  repeat' (first
    | with_reducible exact Kept.refl _ _ | (with_reducible show (_ : List Part) ⊆ _; decide) | with_reducible apply Kept.ite
    | (with_reducible apply Kept.andThen (State.endFlights_kept _ _ _))
    | (with_reducible apply Kept.after (forAll_kept _ _ _ ?_ ?_)) | split | intro _)

/-! ### Power.lean -/

theorem State.setAlert_kept (s : State) (i kind value : Nat) : Kept [.power, .mgmt, .box] s (State.setAlert s i kind
    value) := by
  unfold State.setAlert
  try dsimp only
  repeat' (first
    | with_reducible exact Kept.refl _ _ | (with_reducible apply Or.inr; with_reducible rfl)
    | (with_reducible apply Or.inl; decide) | (with_reducible show (_ : List Part) ⊆ _; decide)
    | with_reducible apply Kept.ite | (with_reducible apply Kept.andThen (State.record_kept _ _ _ _ _))
    | (with_reducible refine Kept.upd ?_ ?_ ?_ ?_ ?_ ?_ ?_ ?_ ?_ ?_ ?_ ?_ ?_ ?_ ?_ ?_ ?_))

theorem State.judge_kept (s : State) : Kept [.plan] s (State.judge s) := by
  unfold State.judge
  try dsimp only
  repeat' (first
    | with_reducible exact Kept.refl _ _ | (with_reducible apply Or.inr; with_reducible rfl)
    | (with_reducible apply Or.inl; decide) | (with_reducible show (_ : List Part) ⊆ _; decide)
    | with_reducible apply Kept.ite | (with_reducible apply Kept.andThen (State.trigger_kept _ _)) | split
    | (with_reducible refine Kept.upd ?_ ?_ ?_ ?_ ?_ ?_ ?_ ?_ ?_ ?_ ?_ ?_ ?_ ?_ ?_ ?_ ?_))

theorem State.tick_kept (s : State) : Kept [.power, .hides, .mgmt] s (State.tick s) := by
  unfold State.tick
  try dsimp only
  repeat' (first
    | with_reducible exact Kept.refl _ _ | (with_reducible apply Or.inr; with_reducible rfl)
    | (with_reducible apply Or.inl; decide) | split
    | (with_reducible refine Kept.upd ?_ ?_ ?_ ?_ ?_ ?_ ?_ ?_ ?_ ?_ ?_ ?_ ?_ ?_ ?_ ?_ ?_))

theorem vinSample_kept (vin iin : BitVec 16) (s : State) : Kept [.power, .plan, .hides, .mgmt, .box] s (vinSample vin
    iin s) := by
  unfold vinSample
  try dsimp only
  repeat' (first
    | with_reducible exact Kept.refl _ _ | (with_reducible apply Or.inr; with_reducible rfl)
    | (with_reducible apply Or.inl; decide) | (with_reducible show (_ : List Part) ⊆ _; decide)
    | with_reducible apply Kept.ite | (with_reducible apply Kept.andThen (State.setAlert_kept _ _ _ _))
    | (with_reducible apply Kept.andThen (State.judge_kept _)) | (with_reducible apply Kept.andThen (State.tick_kept _))
    | split | (with_reducible refine Kept.upd ?_ ?_ ?_ ?_ ?_ ?_ ?_ ?_ ?_ ?_ ?_ ?_ ?_ ?_ ?_ ?_ ?_))

theorem State.loseAon_kept (s : State) : Kept [.clocks, .hides, .acres, .gates, .mgmt, .box] s (State.loseAon s) := by
  unfold State.loseAon
  try dsimp only
  repeat' (first
    | with_reducible exact Kept.refl _ _ | (with_reducible apply Or.inr; with_reducible rfl)
    | (with_reducible apply Or.inl; decide) | (with_reducible show (_ : List Part) ⊆ _; decide)
    | (with_reducible apply Kept.andThen (State.closeAllLeases_kept _ _ _))
    | (with_reducible refine Kept.upd ?_ ?_ ?_ ?_ ?_ ?_ ?_ ?_ ?_ ?_ ?_ ?_ ?_ ?_ ?_ ?_ ?_))

/-! ### League.lean -/

theorem State.failTrims_kept (s : State) (h p : Nat) : Kept [.hides, .gates, .ports] s (State.failTrims s h p) := by
  unfold State.failTrims
  try dsimp only
  repeat' (first
    | with_reducible exact Kept.refl _ _ | (with_reducible show (_ : List Part) ⊆ _; decide)
    | (with_reducible apply Kept.andThen (State.trimRefused_kept _ _ _ _ _))
    | (with_reducible apply Kept.andThen (State.upQueue_kept _ _ _ _))
    | (with_reducible apply Kept.after (Kept.foldl _ (fun _ _ => ?_) _ _)))

theorem State.unissue_kept (s : State) (h j : Nat) : Kept [.gates] s (State.unissue s h j).1 := by
  unfold State.unissue
  try dsimp only
  repeat' (first
    | with_reducible exact Kept.refl _ _ | (with_reducible show (_ : List Part) ⊆ _; decide) | with_reducible apply Kept.ite
    | (with_reducible apply Kept.andThen (State.tagHead_kept _ _ _))
    | (with_reducible apply Kept.andThen (State.upQueue_kept _ _ _ _)) | split)

theorem State.stopJobs_kept (s : State) (h j : Nat) : Kept [.hides, .gates] s (State.stopJobs s h j) := by
  unfold State.stopJobs
  try dsimp only
  repeat' (first
    | with_reducible exact Kept.refl _ _ | (with_reducible show (_ : List Part) ⊆ _; decide)
    | (with_reducible apply Kept.andThen (State.upO_kept _ _ _))
    | (with_reducible apply Kept.andThen (State.unissue_kept _ _ _))
    | (with_reducible apply Kept.after (Kept.foldl _ (fun _ _ => ?_) _ _)) | split)

theorem State.endCmd_kept (s : State) (p : Nat) (c : Cmd) (st : Nat) : Kept [.hides, .gates, .ports, .mgmt, .box] s
    (State.endCmd s p c st) := by
  unfold State.endCmd
  try dsimp only
  repeat' (first
    | with_reducible exact Kept.refl _ _ | (with_reducible show (_ : List Part) ⊆ _; decide) | with_reducible apply Kept.ite
    | (with_reducible apply Kept.andThen (State.nextFirst_kept _ _))
    | (with_reducible apply Kept.andThen (State.record_kept _ _ _ _ _))
    | (with_reducible apply Kept.andThen (State.trimEnds_kept _ _ _ _ _ _))
    | (with_reducible apply Kept.andThen (State.stopJobs_kept _ _ _))
    | (with_reducible apply Kept.andThen (State.withhold_kept _ _ _ _ _))
    | (with_reducible apply Kept.andThen (State.upO_kept _ _ _))
    | (with_reducible apply Kept.andThen (State.upPort_kept _ _ _)) | split)

theorem State.failPort_kept (s : State) (p : Nat) : Kept [.hides, .gates, .ports, .mgmt, .box] s (State.failPort s p)
    := by
  unfold State.failPort
  try dsimp only
  repeat' (first
    | with_reducible exact Kept.refl _ _ | (with_reducible show (_ : List Part) ⊆ _; decide) | with_reducible apply Kept.ite
    | (with_reducible apply Kept.andThen (State.failTrims_kept _ _ _))
    | (with_reducible apply Kept.andThen (State.upO_kept _ _ _))
    | (with_reducible apply Kept.andThen (State.unissue_kept _ _ _))
    | (with_reducible apply Kept.after (forAll_kept _ _ _ ?_ ?_))
    | (with_reducible apply Kept.andThen (State.endCmd_kept _ _ _ _))
    | (with_reducible apply Kept.after (Kept.foldl _ (fun _ _ => ?_) _ _)) | intro _)

theorem State.portOut_kept (s : State) (p : Nat) (st : PortState) : Kept [.hides, .gates, .ports, .mgmt, .box] s
    (State.portOut s p st) := by
  unfold State.portOut
  try dsimp only
  repeat' (first
    | with_reducible exact Kept.refl _ _ | (with_reducible show (_ : List Part) ⊆ _; decide)
    | (with_reducible apply Kept.andThen (State.failPort_kept _ _))
    | (with_reducible apply Kept.andThen (State.leagueRecord_kept _ _ _))
    | (with_reducible apply Kept.andThen (State.upPort_kept _ _ _)))

theorem State.portDown_kept (s : State) (p : Nat) : Kept [.hides, .gates, .ports, .mgmt, .box] s (State.portDown s p)
    := by
  unfold State.portDown
  try dsimp only
  repeat' (first
    | with_reducible exact Kept.refl _ _ | (with_reducible show (_ : List Part) ⊆ _; decide) | with_reducible apply Kept.ite
    | (with_reducible apply Kept.andThen (State.portOut_kept _ _ _)))

/-! ### Power.lean -/

theorem State.loseClock_kept (s : State) (i : Nat) : Kept [.clocks, .regions, .plan, .hides, .imem, .acres, .gates,
    .cxl, .ports, .dex, .mgmt, .box, .screen] s (State.loseClock s i) := by
  unfold State.loseClock
  try dsimp only
  repeat' (first
    | with_reducible exact Kept.refl _ _ | (with_reducible apply Or.inr; with_reducible rfl)
    | (with_reducible apply Or.inl; decide) | (with_reducible show (_ : List Part) ⊆ _; decide)
    | with_reducible apply Kept.ite | (with_reducible apply Kept.andThen (State.loseAon_kept _))
    | (with_reducible apply Kept.andThen (State.portDown_kept _ _))
    | (with_reducible apply Kept.andThen (State.upRegion_kept _ _ _))
    | (with_reducible apply Kept.andThen (State.failRegion_kept _ _ _))
    | (with_reducible apply Kept.after (forAll_kept _ _ _ ?_ ?_))
    | (with_reducible apply Kept.andThen (State.linkDown_kept _))
    | (with_reducible apply Kept.andThen (State.record_kept _ _ _ _ _)) | intro _
    | (with_reducible refine Kept.upd ?_ ?_ ?_ ?_ ?_ ?_ ?_ ?_ ?_ ?_ ?_ ?_ ?_ ?_ ?_ ?_ ?_))

/-! ### League.lean -/

theorem State.issue_kept (s : State) (p : Nat) (f : EgFrame) : Kept [.ports] s (State.issue s p f).1 := by
  unfold State.issue
  try dsimp only
  repeat' (first
    | with_reducible exact Kept.refl _ _ | (with_reducible show (_ : List Part) ⊆ _; decide)
    | (with_reducible apply Kept.andThen (State.upPort_kept _ _ _)) | split)

/-! ### Furlong.lean -/

theorem State.recheck_kept (s : State) (h : Nat) : Kept [.hides, .imem, .gates] s (State.recheck s h) := by
  unfold State.recheck
  try dsimp only
  repeat' (first
    | with_reducible exact Kept.refl _ _ | (with_reducible show (_ : List Part) ⊆ _; decide)
    | (with_reducible apply Kept.andThen (State.dropFetches_kept _ _ _))
    | (with_reducible apply Kept.andThen (State.endTaken_kept _ _ _ _ _ _))
    | (with_reducible apply Kept.andThen (State.upHide_kept _ _ _))
    | (with_reducible apply Kept.after (Kept.foldl _ (fun _ _ => ?_) _ _)))

theorem State.installSection_kept (s : State) (h : Nat) : Kept [.clusters, .hides, .imem, .gates, .ports, .dex, .mgmt,
    .box, .screen] s (State.installSection s h) := by
  unfold State.installSection
  try dsimp only
  repeat' (first
    | with_reducible exact Kept.refl _ _ | (with_reducible show (_ : List Part) ⊆ _; decide)
    | (with_reducible apply Kept.andThen (State.deviceEvent_kept _))
    | (with_reducible apply Kept.andThen (State.recheck_kept _ _))
    | (with_reducible apply Kept.andThen (State.config_kept _ _ _ _ _ _))
    | (with_reducible apply Kept.andThen (State.upLoad_kept _ _ _))
    | (with_reducible apply Kept.andThen (State.invalidate_kept _ _))
    | (with_reducible apply Kept.andThen (State.upHide_kept _ _ _))
    | (with_reducible apply Kept.andThen (State.tspError_kept _ _ _)) | split)

theorem State.sectionStep_kept (s : State) (due busy : Bool) (h : Nat) : Kept [.clusters, .hides, .imem, .gates,
    .ports, .dex, .mgmt, .box, .screen] s (State.sectionStep s due busy h) := by
  unfold State.sectionStep
  try dsimp only
  repeat' (first
    | with_reducible exact Kept.refl _ _ | (with_reducible show (_ : List Part) ⊆ _; decide) | with_reducible apply Kept.ite
    | (with_reducible apply Kept.andThen (State.installSection_kept _ _))
    | (with_reducible apply Kept.andThen (State.endFlights_kept _ _ _))
    | (with_reducible apply Kept.andThen (State.upHide_kept _ _ _)) | split)

/-! ### Loads.lean -/

theorem State.stageFirmware_kept (s : State) (l : Load) (f : Firmware) : Kept [.dex, .mgmt, .box] s
    (State.stageFirmware s l f).1 := by
  unfold State.stageFirmware
  try dsimp only
  repeat' (first
    | with_reducible exact Kept.refl _ _ | (with_reducible assumption) | (with_reducible apply Or.inr; with_reducible rfl)
    | (with_reducible apply Or.inl; decide) | (with_reducible show (_ : List Part) ⊆ _; decide)
    | (with_reducible apply Kept.andThen (State.endLoad_kept _ _ _ _ _ _ _)) | (exact fun h k => h k) | exact Nat.le_refl _
    | split | intro _
    | (with_reducible refine Kept.updDex ?_ ?_ ?_ ?_ ?_ ?_ ?_ ?_ ?_ ?_ ?_ ?_ ?_ ?_ ?_ ?_ ?_ ?_ ?_ ?_ ?_ ?_ ?_))

/-! ### Power.lean -/

theorem monitorFail_kept (s : State) : Kept [.power, .plan, .mgmt, .box] s (monitorFail s) := by
  unfold monitorFail
  try dsimp only
  repeat' (first
    | with_reducible exact Kept.refl _ _ | (with_reducible apply Or.inr; with_reducible rfl)
    | (with_reducible apply Or.inl; decide) | (with_reducible show (_ : List Part) ⊆ _; decide)
    | with_reducible apply Kept.ite | (with_reducible apply Kept.andThen (State.setAlert_kept _ _ _ _))
    | (with_reducible apply Kept.andThen (State.judge_kept _))
    | (with_reducible refine Kept.upd ?_ ?_ ?_ ?_ ?_ ?_ ?_ ?_ ?_ ?_ ?_ ?_ ?_ ?_ ?_ ?_ ?_))

/-! ### League.lean -/

theorem State.upCmd_kept (s : State) (p : Nat) (c : Cmd) : Kept [.hides, .gates, .ports, .mgmt, .box] s (State.upCmd s
    p c) := by
  unfold State.upCmd
  try dsimp only
  repeat' (first
    | with_reducible exact Kept.refl _ _ | (with_reducible show (_ : List Part) ⊆ _; decide) | with_reducible apply Kept.ite
    | (with_reducible apply Kept.andThen (State.endCmd_kept _ _ _ _))
    | (with_reducible apply Kept.andThen (State.upPort_kept _ _ _)))

theorem State.discard_kept (s : State) (p : Nat) : Kept [.ports] s (State.discard s p) := by
  unfold State.discard
  try dsimp only
  repeat' (first
    | with_reducible exact Kept.refl _ _ | (with_reducible show (_ : List Part) ⊆ _; decide)
    | (with_reducible apply Kept.andThen (State.upPort_kept _ _ _)))

theorem State.sendCtrl_kept (s : State) (p : Nat) : Kept [.gates] s (State.sendCtrl s p) := by
  unfold State.sendCtrl
  try dsimp only
  repeat' (first
    | with_reducible exact Kept.refl _ _ | (with_reducible apply Or.inr; with_reducible rfl)
    | (with_reducible apply Or.inl; decide)
    | (with_reducible refine Kept.upd ?_ ?_ ?_ ?_ ?_ ?_ ?_ ?_ ?_ ?_ ?_ ?_ ?_ ?_ ?_ ?_ ?_))

theorem State.nak_kept (s : State) (p : Nat) : Kept [.gates, .ports] s (State.nak s p) := by
  unfold State.nak
  try dsimp only
  repeat' (first
    | with_reducible exact Kept.refl _ _ | (with_reducible show (_ : List Part) ⊆ _; decide) | with_reducible apply Kept.ite
    | (with_reducible apply Kept.andThen (State.upPort_kept _ _ _))
    | (with_reducible apply Kept.andThen (State.sendCtrl_kept _ _)))

theorem State.linkCheck_kept (s : State) (p : Nat) (k : FrameCheck) : Kept [.gates, .ports] s (State.linkCheck s p
    k).1 := by
  unfold State.linkCheck
  try dsimp only
  repeat' (first
    | with_reducible exact Kept.refl _ _ | (with_reducible show (_ : List Part) ⊆ _; decide)
    | (with_reducible apply Kept.andThen (State.upPort_kept _ _ _))
    | (with_reducible apply Kept.andThen (State.nak_kept _ _)) | split)

theorem leagueRsp_kept (p : Nat) (k : FrameCheck) (tag status : Nat) (s : State) : Kept [.hides, .gates, .ports,
    .mgmt, .box] s (leagueRsp p k tag status s) := by
  unfold leagueRsp
  try dsimp only
  repeat' (first
    | with_reducible exact Kept.refl _ _ | (with_reducible show (_ : List Part) ⊆ _; decide) | with_reducible apply Kept.ite
    | (with_reducible apply Kept.andThen (State.upCmd_kept _ _ _))
    | (with_reducible apply Kept.andThen (State.discard_kept _ _))
    | (with_reducible apply Kept.andThen (State.upPort_kept _ _ _))
    | (with_reducible apply Kept.andThen (State.linkCheck_kept _ _ _)) | split)

theorem State.portCtl_kept (s : State) (p : Nat) (v : U32) : Kept [.hides, .gates, .ports, .mgmt, .box] s
    (State.portCtl s p v) := by
  unfold State.portCtl
  try dsimp only
  repeat' (first
    | with_reducible exact Kept.refl _ _ | (with_reducible show (_ : List Part) ⊆ _; decide) | with_reducible apply Kept.ite
    | (with_reducible apply Kept.andThen (State.train_kept _ _ _))
    | (with_reducible apply Kept.andThen (State.leagueRecord_kept _ _ _))
    | (with_reducible apply Kept.andThen (State.portOut_kept _ _ _))
    | (with_reducible apply Kept.andThen (State.upPort_kept _ _ _)))

/-! ### GlobalRegs.lean -/

theorem State.writeNet_kept (s : State) (v : Nat) : Kept [.mgmt] s (State.writeNet s v) := by
  unfold State.writeNet
  try dsimp only
  repeat' (first
    | with_reducible exact Kept.refl _ _ | (with_reducible apply Or.inr; with_reducible rfl)
    | (with_reducible apply Or.inl; decide)
    | (with_reducible refine Kept.upd ?_ ?_ ?_ ?_ ?_ ?_ ?_ ?_ ?_ ?_ ?_ ?_ ?_ ?_ ?_ ?_ ?_))

theorem State.globalWrite_kept (s : State) (r : GReg) (v : Nat) : Kept [.power, .hides, .gates, .ports, .mgmt, .box,
    .screen] s (State.globalWrite s r v) := by
  unfold State.globalWrite
  try dsimp only
  repeat' (first
    | with_reducible exact Kept.refl _ _ | (with_reducible apply Or.inr; with_reducible rfl)
    | (with_reducible apply Or.inl; decide) | (with_reducible show (_ : List Part) ⊆ _; decide)
    | (with_reducible show (_ : Part) ∈ _; decide) | (with_reducible apply Kept.andThen (State.upPort_kept _ _ _))
    | (with_reducible apply Kept.andThen (State.portCtl_kept _ _ _))
    | (with_reducible apply Kept.andThen (State.writeNet_kept _ _)) | exact Nat.le_refl _ | exact fun _ h _ => h
    | exact (fun h => ⟨h.rising, h.below, h.segments, h.warnLow, h.warnHigh, ‹_›⟩)
    | exact (fun h => ⟨h.rising, h.below, h.segments, warn_low ‹_›, warn_high ‹_›, h.acked⟩) | split
    | (with_reducible refine Kept.boxUp ?_ ?_ ?_ ?_ ?_)
    | (with_reducible refine Kept.upd ?_ ?_ ?_ ?_ ?_ ?_ ?_ ?_ ?_ ?_ ?_ ?_ ?_ ?_ ?_ ?_ ?_))

/-! ### Power.lean -/

theorem State.securityError_kept (s : State) (code : Nat) : Kept [.dex, .mgmt] s (State.securityError s code) := by
  unfold State.securityError
  try dsimp only
  repeat' (first
    | with_reducible exact Kept.refl _ _ | (with_reducible assumption) | (with_reducible apply Or.inr; with_reducible rfl)
    | (with_reducible apply Or.inl; decide) | (exact fun h k => h k) | exact Nat.le_refl _ | intro _
    | (with_reducible refine Kept.updDex ?_ ?_ ?_ ?_ ?_ ?_ ?_ ?_ ?_ ?_ ?_ ?_ ?_ ?_ ?_ ?_ ?_ ?_ ?_ ?_ ?_ ?_ ?_))

/-! ### Manage.lean -/

theorem selftestRun_kept (q : Req) (code : BitVec 8) (s : State) : Kept [.dex, .mgmt, .box] s (selftestRun q code s)
    := by
  unfold selftestRun
  try dsimp only
  repeat' (first
    | with_reducible exact Kept.refl _ _ | (with_reducible assumption) | (with_reducible apply Or.inr; with_reducible rfl)
    | (with_reducible apply Or.inl; decide) | (with_reducible show (_ : List Part) ⊆ _; decide)
    | (with_reducible apply Kept.andThen (State.securityError_kept _ _))
    | (with_reducible apply Kept.andThen (State.reply_kept _ _ _ _ _))
    | (with_reducible apply Kept.after (State.request_kept _ _ _ _ _ ?_ ?_)) | (exact fun h k => h k) | exact Nat.le_refl _
    | split | intro _
    | (with_reducible refine Kept.updDex ?_ ?_ ?_ ?_ ?_ ?_ ?_ ?_ ?_ ?_ ?_ ?_ ?_ ?_ ?_ ?_ ?_ ?_ ?_ ?_ ?_ ?_ ?_))

/-! ### GlobalRegs.lean -/

theorem State.globalClear_kept (s : State) (n0 : GReg) : Kept [.power, .regions, .plan, .ports, .screen] s
    (State.globalClear s n0) := by
  unfold State.globalClear
  try dsimp only
  repeat' (first
    | with_reducible exact Kept.refl _ _ | (with_reducible apply Or.inr; with_reducible rfl)
    | (with_reducible apply Or.inl; decide) | (with_reducible show (_ : List Part) ⊆ _; decide)
    | (with_reducible apply Kept.andThen (State.upRegion_kept _ _ _))
    | (with_reducible apply Kept.andThen (State.upPort_kept _ _ _)) | split
    | (with_reducible refine Kept.upd ?_ ?_ ?_ ?_ ?_ ?_ ?_ ?_ ?_ ?_ ?_ ?_ ?_ ?_ ?_ ?_ ?_))

/-! ### Power.lean -/

theorem sensorTimeout_kept (k : Nat) (s : State) : Kept [.sensors, .regions, .plan] s (sensorTimeout k s) := by
  unfold sensorTimeout
  try dsimp only
  repeat' (first
    | with_reducible exact Kept.refl _ _ | (with_reducible apply Or.inr; with_reducible rfl)
    | (with_reducible apply Or.inl; decide) | (with_reducible show (_ : List Part) ⊆ _; decide)
    | with_reducible apply Kept.ite | (with_reducible apply Kept.andThen (State.judge_kept _))
    | (with_reducible apply Kept.andThen (State.upRegion_kept _ _ _))
    | (with_reducible refine Kept.upd ?_ ?_ ?_ ?_ ?_ ?_ ?_ ?_ ?_ ?_ ?_ ?_ ?_ ?_ ?_ ?_ ?_))

/-! ### Furlong.lean -/

theorem State.leanEvent_kept (s : State) : Kept [.hides, .imem, .gates] s (State.leanEvent s) := by
  unfold State.leanEvent
  try dsimp only
  repeat' (first
    | with_reducible exact Kept.refl _ _ | (with_reducible show (_ : List Part) ⊆ _; decide)
    | (with_reducible apply Kept.andThen (State.postEvent_kept _ _ _))
    | (with_reducible apply Kept.after (forAll_kept _ _ _ ?_ ?_)) | intro _)

theorem State.trimEntering_kept (s : State) (h : Nat) (first : Bool) (old : Option HideEntry) : Kept [.hides, .ports]
    s (State.trimEntering s h first old) := by
  unfold State.trimEntering
  try dsimp only
  repeat' (first
    | with_reducible exact Kept.refl _ _ | (with_reducible show (_ : List Part) ⊆ _; decide)
    | (with_reducible apply Kept.andThen (State.trimRange_kept _ _ _ _ _))
    | (with_reducible apply Kept.after (forAll_kept _ _ _ ?_ ?_))
    | (with_reducible apply Kept.after (Kept.foldl _ (fun _ _ => ?_) _ _)) | split | intro _)

theorem State.activateHide_kept (s : State) (m : Ream) (first : Bool) (h : Nat) : Kept [.hides, .imem, .gates, .ports]
    s (State.activateHide s m first h) := by
  unfold State.activateHide
  try dsimp only
  repeat' (first
    | with_reducible exact Kept.refl _ _ | (with_reducible show (_ : List Part) ⊆ _; decide) | with_reducible apply Kept.ite
    | (with_reducible apply Kept.andThen (State.endQueued_kept _ _ _))
    | (with_reducible apply Kept.andThen (State.trimEntering_kept _ _ _ _))
    | (with_reducible apply Kept.andThen (State.recheck_kept _ _))
    | (with_reducible apply Kept.andThen (State.upHide_kept _ _ _)) | split)

theorem State.activate_kept (s : State) : Kept [.regions, .clusters, .plan, .hides, .imem, .gates, .ports, .dex,
    .mgmt, .box, .screen] s (State.activate s) := by
  unfold State.activate
  try dsimp only
  repeat' (first
    | with_reducible exact Kept.refl _ _ | (with_reducible assumption) | (with_reducible apply Or.inr; with_reducible rfl)
    | (with_reducible apply Or.inl; decide) | (with_reducible show (_ : List Part) ⊆ _; decide)
    | (with_reducible show (_ : Part) ∈ _; decide) | with_reducible apply Kept.ite
    | (with_reducible apply Kept.andThen (State.leanEvent_kept _))
    | (with_reducible apply Kept.andThen (State.deviceEvent_kept _))
    | (with_reducible apply Kept.andThen (State.config_kept _ _ _ _ _ _))
    | (with_reducible apply Kept.andThen (State.upLoad_kept _ _ _))
    | (with_reducible apply Kept.andThen (State.nextFirst_kept _ _))
    | (with_reducible apply Kept.andThen (State.activateHide_kept _ _ _ _))
    | (with_reducible apply Kept.andThen (State.upPort_kept _ _ _))
    | (with_reducible apply Kept.andThen (State.tspError_kept _ _ _))
    | (with_reducible apply Kept.after (forAll_kept _ _ _ ?_ ?_))
    | (with_reducible apply Kept.after (Kept.foldl _ (fun _ _ => ?_) _ _))
    | (with_reducible apply Kept.after (Kept.foldlPair _ (fun _ _ => ?_) _ _))
    | (with_reducible refine Kept.via ‹_ = (_, _)› ?_) | split | intro _
    | (with_reducible refine Kept.upd ?_ ?_ ?_ ?_ ?_ ?_ ?_ ?_ ?_ ?_ ?_ ?_ ?_ ?_ ?_ ?_ ?_))

theorem State.reamStep_kept (s : State) (due quiet : Bool) : Kept [.regions, .clusters, .plan, .hides, .imem, .gates,
    .ports, .dex, .mgmt, .box, .screen] s (State.reamStep s due quiet) := by
  unfold State.reamStep
  try dsimp only
  repeat' (first
    | with_reducible exact Kept.refl _ _ | (with_reducible apply Or.inr; with_reducible rfl)
    | (with_reducible apply Or.inl; decide) | (with_reducible show (_ : List Part) ⊆ _; decide)
    | with_reducible apply Kept.ite | (with_reducible apply Kept.andThen (State.upQ_kept _ _ _))
    | (with_reducible apply Kept.after (forAll_kept _ _ _ ?_ ?_))
    | (with_reducible apply Kept.andThen (State.activate_kept _)) | split | intro _
    | (with_reducible refine Kept.upd ?_ ?_ ?_ ?_ ?_ ?_ ?_ ?_ ?_ ?_ ?_ ?_ ?_ ?_ ?_ ?_ ?_))

theorem State.maintain_kept (s : State) (r : Nat) : Kept [.regions, .plan] s (State.maintain s r) := by
  unfold State.maintain
  try dsimp only
  repeat' (first
    | with_reducible exact Kept.refl _ _ | (with_reducible apply Or.inr; with_reducible rfl)
    | (with_reducible apply Or.inl; decide) | (with_reducible show (_ : List Part) ⊆ _; decide)
    | with_reducible apply Kept.ite | (with_reducible apply Kept.andThen (State.upRegion_kept _ _ _))
    | (with_reducible refine Kept.upd ?_ ?_ ?_ ?_ ?_ ?_ ?_ ?_ ?_ ?_ ?_ ?_ ?_ ?_ ?_ ?_ ?_))

theorem State.switchLean_kept (s : State) (on : Bool) : Kept [.power, .plan, .hides, .imem, .gates, .mgmt, .box] s
    (State.switchLean s on) := by
  unfold State.switchLean
  try dsimp only
  repeat' (first
    | with_reducible exact Kept.refl _ _ | (with_reducible apply Or.inr; with_reducible rfl)
    | (with_reducible apply Or.inl; decide) | (with_reducible show (_ : List Part) ⊆ _; decide)
    | with_reducible apply Kept.ite | (with_reducible apply Kept.andThen (State.leanEvent_kept _))
    | (with_reducible apply Kept.andThen (State.record_kept _ _ _ _ _)) | split
    | (with_reducible refine Kept.upd ?_ ?_ ?_ ?_ ?_ ?_ ?_ ?_ ?_ ?_ ?_ ?_ ?_ ?_ ?_ ?_ ?_))

theorem State.switch_kept (s : State) (n0 : Switch) : Kept [.power, .regions, .clusters, .plan, .hides, .imem, .acres,
    .gates, .ports, .mgmt, .box, .screen] s (State.switch s n0) := by
  unfold State.switch
  try dsimp only
  repeat' (first
    | with_reducible exact Kept.refl _ _ | (with_reducible show (_ : List Part) ⊆ _; decide)
    | (with_reducible apply Kept.andThen (State.maintain_kept _ _))
    | (with_reducible apply Kept.andThen (State.remapCluster_kept _ _))
    | (with_reducible apply Kept.andThen (State.switchCluster_kept _ _))
    | (with_reducible apply Kept.andThen (State.switchRegion_kept _ _))
    | (with_reducible apply Kept.andThen (State.switchLean_kept _ _)) | split)

theorem State.passRegions_kept (s : State) (n : Nat) : Kept [.regions] s (State.passRegions s n) := by
  unfold State.passRegions
  try dsimp only
  repeat' (first
    | with_reducible exact Kept.refl _ _ | (with_reducible apply Or.inr; with_reducible rfl)
    | (with_reducible apply Or.inl; decide)
    | (with_reducible refine Kept.upd ?_ ?_ ?_ ?_ ?_ ?_ ?_ ?_ ?_ ?_ ?_ ?_ ?_ ?_ ?_ ?_ ?_))

theorem State.countRun_kept (s : State) : Kept [.regions] s (State.countRun s) := by
  unfold State.countRun
  try dsimp only
  repeat' (first
    | with_reducible exact Kept.refl _ _ | (with_reducible show (_ : List Part) ⊆ _; decide) | with_reducible apply Kept.ite
    | (with_reducible apply Kept.andThen (State.upRegion_kept _ _ _))
    | (with_reducible apply Kept.after (forAll_kept _ _ _ ?_ ?_)) | intro _)

theorem State.clearRegion_kept (s : State) (r : Nat) : Kept [.clusters] s (State.clearRegion s r) := by
  unfold State.clearRegion
  try dsimp only
  repeat' (first
    | with_reducible exact Kept.refl _ _ | (with_reducible apply Or.inr; with_reducible rfl)
    | (with_reducible apply Or.inl; decide)
    | (with_reducible refine Kept.upd ?_ ?_ ?_ ?_ ?_ ?_ ?_ ?_ ?_ ?_ ?_ ?_ ?_ ?_ ?_ ?_ ?_))

theorem State.endMaintenance_kept (s : State) : Kept [.regions, .clusters] s (State.endMaintenance s) := by
  unfold State.endMaintenance
  try dsimp only
  repeat' (first
    | with_reducible exact Kept.refl _ _ | (with_reducible show (_ : List Part) ⊆ _; decide)
    | (with_reducible apply Kept.andThen (State.clearRegion_kept _ _))
    | (with_reducible apply Kept.andThen (State.upRegion_kept _ _ _))
    | (with_reducible apply Kept.after (forAll_kept _ _ _ ?_ ?_)) | split | intro _)

theorem State.enterFurlong_kept (n : Nat) (s : State) : Kept [.plan, .screen, .mgmt] s (State.enterFurlong s n) := by
  unfold State.enterFurlong
  try dsimp only
  repeat' (first
    | with_reducible exact Kept.refl _ _ | (with_reducible assumption) | (with_reducible apply Or.inr; with_reducible rfl)
    | (with_reducible apply Or.inl; decide) | (with_reducible show (_ : List Part) ⊆ _; decide)
    | with_reducible apply Kept.ite
    | (with_reducible apply Kept.after (forAll_kept _ _ _ ?_ ?_))
    | split | intro _
    | (with_reducible refine Kept.upd ?_ ?_ ?_ ?_ ?_ ?_ ?_ ?_ ?_ ?_ ?_ ?_ ?_ ?_ ?_ ?_ ?_))

theorem State.lapChains_kept (n : Nat) (s : State) : Kept [.hides, .imem, .gates, .ports, .screen] s (State.lapChains s n) := by
  unfold State.lapChains
  try dsimp only
  repeat' (first
    | with_reducible exact Kept.refl _ _ | (with_reducible assumption) | (with_reducible apply Or.inr; with_reducible rfl)
    | (with_reducible apply Or.inl; decide) | (with_reducible show (_ : List Part) ⊆ _; decide)
    | with_reducible apply Kept.ite
    | (with_reducible apply Kept.andThen (State.lapChain_kept _ _ _))
    | (with_reducible apply Kept.andThen (State.upHide_kept _ _ _))
    | (with_reducible apply Kept.after (forAll_kept _ _ _ ?_ ?_))
    | split | intro _
    | (with_reducible refine Kept.upd ?_ ?_ ?_ ?_ ?_ ?_ ?_ ?_ ?_ ?_ ?_ ?_ ?_ ?_ ?_ ?_ ?_))

theorem State.resetsGoOn_kept  (s : State) : Kept [.clusters, .hides, .imem, .gates, .ports, .mgmt, .box, .screen] s (State.resetsGoOn s) := by
  unfold State.resetsGoOn
  try dsimp only
  repeat' (first
    | with_reducible exact Kept.refl _ _ | (with_reducible assumption) | (with_reducible apply Or.inr; with_reducible rfl)
    | (with_reducible apply Or.inl; decide) | (with_reducible show (_ : List Part) ⊆ _; decide)
    | with_reducible apply Kept.ite
    | (with_reducible apply Kept.andThen (State.reload_kept _ _))
    | (with_reducible apply Kept.andThen (State.beginEnding_kept _ _))
    | (with_reducible apply Kept.after (forAll_kept _ _ _ ?_ ?_))
    | split | intro _
    | (with_reducible refine Kept.upd ?_ ?_ ?_ ?_ ?_ ?_ ?_ ?_ ?_ ?_ ?_ ?_ ?_ ?_ ?_ ?_ ?_))

theorem State.applyDue_kept (n : Nat) (s : State) : Kept [.power, .regions, .clusters, .plan, .hides, .imem, .acres, .gates, .ports, .dex, .mgmt, .box, .screen] s (State.applyDue s n) := by
  unfold State.applyDue
  try dsimp only
  repeat' (first
    | with_reducible exact Kept.refl _ _ | (with_reducible assumption) | (with_reducible apply Or.inr; with_reducible rfl)
    | (with_reducible apply Or.inl; decide) | (with_reducible show (_ : List Part) ⊆ _; decide)
    | with_reducible apply Kept.ite
    | (with_reducible apply Kept.andThen (State.switch_kept _ _))
    | (with_reducible apply Kept.after (forAll_kept _ _ _ ?_ ?_))
    | (with_reducible apply Kept.after (Kept.foldl _ (fun _ _ => ?_) _ _))
    | split | intro _
    | (with_reducible refine Kept.upd ?_ ?_ ?_ ?_ ?_ ?_ ?_ ?_ ?_ ?_ ?_ ?_ ?_ ?_ ?_ ?_ ?_))

theorem State.boundary_kept  (s : State) : Kept [.power, .regions, .clusters, .plan, .hides, .imem, .acres, .gates, .ports, .dex, .mgmt, .box, .screen] s (State.boundary s) := by
  unfold State.boundary
  try dsimp only
  repeat' (first
    | with_reducible exact Kept.refl _ _ | (with_reducible assumption) | (with_reducible apply Or.inr; with_reducible rfl)
    | (with_reducible apply Or.inl; decide) | (with_reducible show (_ : List Part) ⊆ _; decide)
    | with_reducible apply Kept.ite
    | (with_reducible apply Kept.andThen (State.reamStep_kept _ _ _))
    | (with_reducible apply Kept.andThen (State.sectionStep_kept _ _ _ _))
    | (with_reducible apply Kept.andThen (State.applyDue_kept _ _))
    | (with_reducible apply Kept.andThen (State.resetsGoOn_kept _))
    | (with_reducible apply Kept.andThen (State.lapChains_kept _ _))
    | (with_reducible apply Kept.andThen (State.enterFurlong_kept _ _))
    | (with_reducible apply Kept.andThen (State.endMaintenance_kept _))
    | (with_reducible apply Kept.andThen (State.countRun_kept _))
    | (with_reducible apply Kept.andThen (State.passRegions_kept _ _))
    | (with_reducible apply Kept.after (forAll_kept _ _ _ ?_ ?_))
    | split | intro _
    | (with_reducible refine Kept.upd ?_ ?_ ?_ ?_ ?_ ?_ ?_ ?_ ?_ ?_ ?_ ?_ ?_ ?_ ?_ ?_ ?_))

theorem State.startFurlong_kept (s : State) (r : Nat) : Kept [.power, .regions, .clusters, .plan, .hides, .imem,
    .acres, .gates, .ports, .dex, .mgmt, .box, .screen] s (State.startFurlong s r) := by
  unfold State.startFurlong
  try dsimp only
  repeat' (first
    | with_reducible exact Kept.refl _ _ | (with_reducible show (_ : List Part) ⊆ _; decide) | with_reducible apply Kept.ite
    | (with_reducible apply Kept.andThen (State.boundary_kept _))
    | (with_reducible apply Kept.andThen (State.upRegion_kept _ _ _)))

theorem furlongStart_kept (r : Nat) (s : State) : Kept [.power, .regions, .clusters, .plan, .hides, .imem, .acres,
    .gates, .ports, .dex, .mgmt, .box, .screen] s (furlongStart r s) := by
  unfold furlongStart
  try dsimp only
  repeat' (first
    | with_reducible exact Kept.refl _ _ | (with_reducible show (_ : List Part) ⊆ _; decide) | with_reducible apply Kept.ite
    | (with_reducible apply Kept.andThen (State.startFurlong_kept _ _)))

/-! ### Manage.lean -/

theorem anchorRemove_kept (q : Req) (a : AnchorReq) (s : State) : Kept [.dex, .mgmt, .box] s (anchorRemove q a s) :=
    by
  unfold anchorRemove
  try dsimp only
  repeat' (first
    | with_reducible exact Kept.refl _ _ | (with_reducible assumption) | (with_reducible apply Or.inr; with_reducible rfl)
    | (with_reducible apply Or.inl; decide) | (with_reducible show (_ : List Part) ⊆ _; decide)
    | with_reducible apply Kept.ite | (with_reducible apply Kept.andThen (State.config_kept _ _ _ _ _ _))
    | (with_reducible apply Kept.andThen (State.reply_kept _ _ _ _ _))
    | (with_reducible apply Kept.after (State.request_kept _ _ _ _ _ ?_ ?_)) | (exact fun h k => h k) | exact Nat.le_refl _
    | intro _ | (with_reducible refine Kept.updDex ?_ ?_ ?_ ?_ ?_ ?_ ?_ ?_ ?_ ?_ ?_ ?_ ?_ ?_ ?_ ?_ ?_ ?_ ?_ ?_ ?_ ?_ ?_))

/-! ### Furlong.lean -/

theorem State.lateMark_kept (s : State) (q : Nat) : Kept [.regions, .plan, .mgmt, .box] s (State.lateMark s q) := by
  unfold State.lateMark
  try dsimp only
  repeat' (first
    | with_reducible exact Kept.refl _ _ | (with_reducible show (_ : List Part) ⊆ _; decide) | with_reducible apply Kept.ite
    | (with_reducible apply Kept.andThen (State.failRegion_kept _ _ _))
    | (with_reducible apply Kept.andThen (State.upRegion_kept _ _ _)))

theorem counterComplete_kept (r : Nat) (s : State) : Kept [.regions] s (counterComplete r s) := by
  unfold counterComplete
  try dsimp only
  repeat' (first
    | with_reducible exact Kept.refl _ _ | (with_reducible show (_ : List Part) ⊆ _; decide) | with_reducible apply Kept.ite
    | (with_reducible apply Kept.andThen (State.upRegion_kept _ _ _)))

/-! ### League.lean -/

theorem trainingRetry_kept (p : Nat) (s : State) : Kept [.gates, .ports] s (trainingRetry p s) := by
  unfold trainingRetry
  try dsimp only
  repeat' (first
    | with_reducible exact Kept.refl _ _ | (with_reducible show (_ : List Part) ⊆ _; decide) | with_reducible apply Kept.ite
    | (with_reducible apply Kept.andThen (State.train_kept _ _ _)))

/-! ### Power.lean -/

theorem entropyFail_kept (s : State) : Kept [.dex, .mgmt] s (entropyFail s) := by
  unfold entropyFail
  try dsimp only
  repeat' (first
    | with_reducible exact Kept.refl _ _ | (with_reducible show (_ : List Part) ⊆ _; decide) | with_reducible apply Kept.ite
    | (with_reducible apply Kept.andThen (State.securityError_kept _ _)))

/-! ### Gates.lean -/

theorem State.send_kept (s : State) (link owner at_ chain : Nat) (firstQ : Bool) (f : EgFrame) : Kept [.gates, .ports]
    s (State.send s link owner at_ chain firstQ f) := by
  unfold State.send
  try dsimp only
  repeat' (first
    | with_reducible exact Kept.refl _ _ | (with_reducible apply Or.inr; with_reducible rfl)
    | (with_reducible apply Or.inl; decide) | (with_reducible show (_ : List Part) ⊆ _; decide)
    | with_reducible apply Kept.ite | (with_reducible apply Kept.andThen (State.tagHead_kept _ _ _))
    | (with_reducible apply Kept.andThen (State.issue_kept _ _ _))
    | (with_reducible apply Kept.andThen (State.upQueue_kept _ _ _ _)) | split
    | (with_reducible refine Kept.upd ?_ ?_ ?_ ?_ ?_ ?_ ?_ ?_ ?_ ?_ ?_ ?_ ?_ ?_ ?_ ?_ ?_))

theorem State.noteWait_kept (s : State) (link h : Nat) (firstQ : Bool) : Kept [.hides, .gates] s (State.noteWait s
    link h firstQ) := by
  unfold State.noteWait
  try dsimp only
  repeat' (first
    | with_reducible exact Kept.refl _ _ | (with_reducible apply Or.inr; with_reducible rfl)
    | (with_reducible apply Or.inl; decide) | (with_reducible show (_ : List Part) ⊆ _; decide)
    | with_reducible apply Kept.ite | (with_reducible apply Kept.andThen (State.upC_kept _ _ _)) | split
    | (with_reducible refine Kept.upd ?_ ?_ ?_ ?_ ?_ ?_ ?_ ?_ ?_ ?_ ?_ ?_ ?_ ?_ ?_ ?_ ?_))

theorem State.sendOwn_kept (s : State) (w : Window) (owner chain cycle at_ : Nat) : Kept [.hides, .gates, .ports] s
    (State.sendOwn s w owner chain cycle at_) := by
  unfold State.sendOwn
  try dsimp only
  repeat' (first
    | with_reducible exact Kept.refl _ _ | (with_reducible show (_ : List Part) ⊆ _; decide) | with_reducible apply Kept.ite
    | (with_reducible apply Kept.andThen (State.send_kept _ _ _ _ _ _ _))
    | (with_reducible apply Kept.andThen (State.noteWait_kept _ _ _ _)) | split)

/-! ### Loads.lean -/

theorem State.stagePackage_kept (s : State) (l : Load) (p : Package) : Kept [.mgmt, .box, .screen] s
    (State.stagePackage s l p).1 := by
  unfold State.stagePackage
  try dsimp only
  repeat' (first
    | with_reducible exact Kept.refl _ _ | (with_reducible apply Or.inr; with_reducible rfl)
    | (with_reducible apply Or.inl; decide) | (with_reducible show (_ : List Part) ⊆ _; decide)
    | with_reducible apply Kept.ite | (with_reducible apply Kept.andThen (State.endLoad_kept _ _ _ _ _ _ _))
    | (with_reducible refine Kept.upd ?_ ?_ ?_ ?_ ?_ ?_ ?_ ?_ ?_ ?_ ?_ ?_ ?_ ?_ ?_ ?_ ?_))

theorem State.stageSection_kept (s : State) (l : Load) (m : Ream) : Kept [.plan, .hides, .mgmt, .box] s
    (State.stageSection s l m).1 := by
  unfold State.stageSection
  try dsimp only
  repeat' (first
    | with_reducible exact Kept.refl _ _ | (with_reducible show (_ : List Part) ⊆ _; decide)
    | (with_reducible apply Kept.andThen (State.trigger_kept _ _))
    | (with_reducible apply Kept.andThen (State.upHide_kept _ _ _))
    | (with_reducible apply Kept.andThen (State.endLoad_kept _ _ _ _ _ _ _)) | split)

theorem State.stageReam_kept (s : State) (l : Load) (m : Ream) : Kept [.plan, .mgmt, .box] s (State.stageReam s l m).1
    := by
  unfold State.stageReam
  try dsimp only
  repeat' (first
    | with_reducible exact Kept.refl _ _ | (with_reducible apply Or.inr; with_reducible rfl)
    | (with_reducible apply Or.inl; decide) | (with_reducible show (_ : List Part) ⊆ _; decide)
    | (with_reducible apply Kept.andThen (State.trigger_kept _ _))
    | (with_reducible apply Kept.andThen (State.endLoad_kept _ _ _ _ _ _ _)) | split
    | (with_reducible refine Kept.upd ?_ ?_ ?_ ?_ ?_ ?_ ?_ ?_ ?_ ?_ ?_ ?_ ?_ ?_ ?_ ?_ ?_))

theorem State.finishLoad_kept (s : State) (l : Load) (image : LoadImage) : Kept [.plan, .hides, .dex, .mgmt, .box,
    .screen] s (State.finishLoad s l image).1 := by
  unfold State.finishLoad
  try dsimp only
  repeat' (first
    | with_reducible exact Kept.refl _ _ | (with_reducible show (_ : List Part) ⊆ _; decide)
    | (with_reducible apply Kept.andThen (State.stageFirmware_kept _ _ _))
    | (with_reducible apply Kept.andThen (State.stagePackage_kept _ _ _))
    | (with_reducible apply Kept.andThen (State.stageSection_kept _ _ _))
    | (with_reducible apply Kept.andThen (State.stageReam_kept _ _ _))
    | (with_reducible apply Kept.andThen (State.endLoad_kept _ _ _ _ _ _ _)) | split)

theorem State.doe_kept {T : List Part} (s : State) (ld op : Nat) (f : State → Option Nat → State × Nat × Nat × Nat)
    (hT : [.mgmt] ⊆ T) (h_f : ∀ x0 x1, Kept T x0 (f x0 x1).1) : Kept T s (State.doe s ld op f) := by
  unfold State.doe
  try dsimp only
  repeat' (first
    | with_reducible exact Kept.refl _ _ | (with_reducible assumption) | with_reducible apply Kept.ite
    | (with_reducible refine Kept.trans ?_ (h_f _ _)) | (with_reducible apply Kept.andThen (State.raw_kept _ _)))

theorem doeEnd_kept (ld load : Nat) (image : Ream) (s : State) : Kept [.plan, .hides, .dex, .mgmt, .box, .screen] s
    (doeEnd ld load image s) := by
  unfold doeEnd
  try dsimp only
  repeat' (first
    | with_reducible exact Kept.refl _ _ | (with_reducible show (_ : List Part) ⊆ _; decide)
    | (with_reducible apply Kept.andThen (State.finishLoad_kept _ _ _))
    | (with_reducible apply Kept.after (State.doe_kept _ _ _ _ ?_ ?_)) | split | intro _)

/-! ### Manage.lean -/

theorem phyInt_kept (answered : Bool) (s : State) : Kept [.mgmt] s (phyInt answered s) := by
  unfold phyInt
  try dsimp only
  repeat' (first
    | with_reducible exact Kept.refl _ _ | (with_reducible apply Or.inr; with_reducible rfl)
    | (with_reducible apply Or.inl; decide) | with_reducible apply Kept.ite
    | (with_reducible refine Kept.upd ?_ ?_ ?_ ?_ ?_ ?_ ?_ ?_ ?_ ?_ ?_ ?_ ?_ ?_ ?_ ?_ ?_))

/-! ### GlobalRegs.lean -/

theorem State.globalTake_kept (s : State) (offs : List Nat) : Kept [.power, .regions, .plan, .ports, .screen, .free] s
    (State.globalTake s offs) := by
  unfold State.globalTake
  try dsimp only
  repeat' (first
    | with_reducible exact Kept.refl _ _ | (with_reducible apply Or.inr; with_reducible rfl)
    | (with_reducible apply Or.inl; decide) | (with_reducible show (_ : List Part) ⊆ _; decide)
    | with_reducible apply Kept.ite | (with_reducible apply Kept.andThen (State.globalClear_kept _ _))
    | (with_reducible apply Kept.after (Kept.foldl _ (fun _ _ => ?_) _ _)) | split
    | (with_reducible refine Kept.upd ?_ ?_ ?_ ?_ ?_ ?_ ?_ ?_ ?_ ?_ ?_ ?_ ?_ ?_ ?_ ?_ ?_))

/-! ### Manage.lean -/

theorem floorRaise_kept (q : Req) (floor : U32) (s : State) : Kept [.dex, .mgmt, .box] s (floorRaise q floor s) := by
  unfold floorRaise
  try dsimp only
  repeat' (first
    | with_reducible exact Kept.refl _ _ | (with_reducible assumption) | (with_reducible apply Or.inr; with_reducible rfl)
    | (with_reducible apply Or.inl; decide) | (with_reducible show (_ : List Part) ⊆ _; decide)
    | (with_reducible apply Kept.andThen (State.config_kept _ _ _ _ _ _))
    | (with_reducible apply Kept.andThen (State.reply_kept _ _ _ _ _))
    | (with_reducible apply Kept.after (State.request_kept _ _ _ _ _ ?_ ?_)) | (exact fun h k => h k)
    | exact Nat.le_of_lt (Nat.lt_of_not_le ‹_›) | exact Nat.le_refl _ | split | intro _
    | (with_reducible refine Kept.updDex ?_ ?_ ?_ ?_ ?_ ?_ ?_ ?_ ?_ ?_ ?_ ?_ ?_ ?_ ?_ ?_ ?_ ?_ ?_ ?_ ?_ ?_ ?_))

theorem debugToken_kept (q : Req) (t : Token) (s : State) : Kept [.dex, .mgmt, .box] s (debugToken q t s) := by
  unfold debugToken
  try dsimp only
  repeat' (first
    | with_reducible exact Kept.refl _ _ | (with_reducible assumption) | (with_reducible apply Or.inr; with_reducible rfl)
    | (with_reducible apply Or.inl; decide) | (with_reducible show (_ : List Part) ⊆ _; decide)
    | with_reducible apply Kept.ite | (with_reducible apply Kept.andThen (State.config_kept _ _ _ _ _ _))
    | (with_reducible apply Kept.andThen (State.reply_kept _ _ _ _ _))
    | (with_reducible apply Kept.after (State.request_kept _ _ _ _ _ ?_ ?_)) | (exact fun h k => h k) | exact Nat.le_refl _
    | intro _ | (with_reducible refine Kept.updDex ?_ ?_ ?_ ?_ ?_ ?_ ?_ ?_ ?_ ?_ ?_ ?_ ?_ ?_ ?_ ?_ ?_ ?_ ?_ ?_ ?_ ?_ ?_))

/-! ### Gates.lean -/

theorem State.sendShared_kept (s : State) (w : Window) (chain cycle at_ : Nat) : Kept [.hides, .gates, .ports] s
    (State.sendShared s w chain cycle at_) := by
  unfold State.sendShared
  try dsimp only
  repeat' (first
    | with_reducible exact Kept.refl _ _ | (with_reducible apply Or.inr; with_reducible rfl)
    | (with_reducible apply Or.inl; decide) | (with_reducible show (_ : List Part) ⊆ _; decide)
    | with_reducible apply Kept.ite | (with_reducible apply Kept.andThen (State.send_kept _ _ _ _ _ _ _))
    | (with_reducible apply Kept.andThen (State.noteWait_kept _ _ _ _))
    | (with_reducible apply Kept.after (Kept.foldl _ (fun _ _ => ?_) _ _)) | split
    | (with_reducible refine Kept.upd ?_ ?_ ?_ ?_ ?_ ?_ ?_ ?_ ?_ ?_ ?_ ?_ ?_ ?_ ?_ ?_ ?_))

theorem egressStart_kept (link chain cycle : Nat) (s : State) : Kept [.hides, .gates, .ports] s (egressStart link
    chain cycle s) := by
  unfold egressStart
  try dsimp only
  repeat' (first
    | with_reducible exact Kept.refl _ _ | (with_reducible show (_ : List Part) ⊆ _; decide) | with_reducible apply Kept.ite
    | (with_reducible apply Kept.andThen (State.sendShared_kept _ _ _ _ _))
    | (with_reducible apply Kept.andThen (State.sendOwn_kept _ _ _ _ _ _)) | split)

/-! ### Manage.lean -/

theorem sessionIdle_kept (id : Nat) (s : State) : Kept [.mgmt, .box] s (sessionIdle id s) := by
  unfold sessionIdle
  try dsimp only
  repeat' (first
    | with_reducible exact Kept.refl _ _ | (with_reducible show (_ : List Part) ⊆ _; decide)
    | (with_reducible apply Kept.andThen (State.closeSession_kept _ _)))

/-! ### League.lean -/

theorem trainingTimeout_kept (p : Nat) (s : State) : Kept [.hides, .gates, .ports, .mgmt, .box] s (trainingTimeout p
    s) := by
  unfold trainingTimeout
  try dsimp only
  repeat' (first
    | with_reducible exact Kept.refl _ _ | (with_reducible show (_ : List Part) ⊆ _; decide) | with_reducible apply Kept.ite
    | (with_reducible apply Kept.andThen (State.portDown_kept _ _))
    | (with_reducible apply Kept.andThen (State.leagueRecord_kept _ _ _))
    | (with_reducible apply Kept.andThen (State.train_kept _ _ _))
    | (with_reducible apply Kept.andThen (State.upPort_kept _ _ _)))

/-! ### Power.lean -/

theorem regionWindow_kept (ppm : List (Nat × Int)) (s : State) : Kept [.regions, .plan, .mgmt, .box] s (regionWindow
    ppm s) := by
  unfold regionWindow
  try dsimp only
  repeat' (first
    | with_reducible exact Kept.refl _ _ | (with_reducible show (_ : List Part) ⊆ _; decide) | with_reducible apply Kept.ite
    | (with_reducible apply Kept.andThen (State.failRegion_kept _ _ _))
    | (with_reducible apply Kept.andThen (State.upRegion_kept _ _ _))
    | (with_reducible apply Kept.after (Kept.foldl _ (fun _ _ => ?_) _ _)))

theorem sensorSample_kept (readings : List (Nat × Int)) (s : State) : Kept [.power, .sensors, .resetPin, .clocks,
    .regions, .clusters, .plan, .hides, .imem, .acres, .gates, .cxl, .ports, .dex, .mgmt, .box, .screen, .tap, .free]
    s (sensorSample readings s) := by
  unfold sensorSample
  try dsimp only
  repeat' (first
    | with_reducible exact Kept.refl _ _ | (with_reducible apply Or.inr; with_reducible rfl)
    | (with_reducible apply Or.inl; decide) | (with_reducible show (_ : List Part) ⊆ _; decide)
    | with_reducible apply Kept.ite | (with_reducible apply Kept.andThen (State.tripAt_kept _ _))
    | (with_reducible apply Kept.andThen (State.judge_kept _))
    | (with_reducible apply Kept.andThen (State.upRegion_kept _ _ _))
    | (with_reducible apply Kept.after (forAll_kept _ _ _ ?_ ?_)) | split | intro _
    | (with_reducible refine Kept.upd ?_ ?_ ?_ ?_ ?_ ?_ ?_ ?_ ?_ ?_ ?_ ?_ ?_ ?_ ?_ ?_ ?_))

/-! ### Manage.lean -/

theorem sessionHandshake_kept (anchor : Option Nat) (family : NetFamily) (s : State) : Kept [.mgmt, .box] s
    (sessionHandshake anchor family s) := by
  unfold sessionHandshake
  try dsimp only
  repeat' (first
    | with_reducible exact Kept.refl _ _ | (with_reducible apply Or.inr; with_reducible rfl)
    | (with_reducible apply Or.inl; decide) | (with_reducible show (_ : List Part) ⊆ _; decide)
    | with_reducible apply Kept.ite | (with_reducible apply Kept.andThen (State.failHandshake_kept _)) | split
    | (with_reducible refine Kept.upd ?_ ?_ ?_ ?_ ?_ ?_ ?_ ?_ ?_ ?_ ?_ ?_ ?_ ?_ ?_ ?_ ?_))

/-! ### Power.lean -/

theorem State.drawRoots_kept (s : State) : Kept [.hides, .dex] s (State.drawRoots s) := by
  unfold State.drawRoots
  try dsimp only
  repeat' (first
    | with_reducible exact Kept.refl _ _ | (with_reducible assumption) | (with_reducible apply Or.inr; with_reducible rfl)
    | (with_reducible apply Or.inl; decide) | (with_reducible show (_ : List Part) ⊆ _; decide)
    | (with_reducible apply Kept.andThen (State.upK_kept _ _ _))
    | (with_reducible apply Kept.after (forAll_kept _ _ _ ?_ ?_)) | (with_reducible apply Kept.andThen (State.draw_kept _))
    | (exact fun h k => h k) | exact Nat.le_refl _ | intro _
    | (with_reducible refine Kept.updDex ?_ ?_ ?_ ?_ ?_ ?_ ?_ ?_ ?_ ?_ ?_ ?_ ?_ ?_ ?_ ?_ ?_ ?_ ?_ ?_ ?_ ?_ ?_))

theorem clockWindow_kept (bad : BitVec 11) (s : State) : Kept [.clocks, .regions, .plan, .hides, .imem, .acres,
    .gates, .cxl, .ports, .dex, .mgmt, .box, .screen] s (clockWindow bad s) := by
  unfold clockWindow
  try dsimp only
  repeat' (first
    | with_reducible exact Kept.refl _ _ | (with_reducible apply Or.inr; with_reducible rfl)
    | (with_reducible apply Or.inl; decide) | (with_reducible show (_ : List Part) ⊆ _; decide)
    | with_reducible apply Kept.ite | (with_reducible apply Kept.andThen (State.loseClock_kept _ _))
    | (with_reducible apply Kept.after (forAll_kept _ _ _ ?_ ?_)) | split | intro _
    | (with_reducible refine Kept.upd ?_ ?_ ?_ ?_ ?_ ?_ ?_ ?_ ?_ ?_ ?_ ?_ ?_ ?_ ?_ ?_ ?_))

/-! ### Furlong.lean -/

theorem boundaryMark_kept (r src : Nat) (low : BitVec 8) (s : State) : Kept [.regions] s (boundaryMark r src low s) :=
    by
  unfold boundaryMark
  try dsimp only
  repeat' (first
    | with_reducible exact Kept.refl _ _ | (with_reducible show (_ : List Part) ⊆ _; decide) | with_reducible apply Kept.ite
    | (with_reducible apply Kept.andThen (State.upRegion_kept _ _ _)))

/-! ### Power.lean -/

theorem stepOverrun_kept (step : Nat) (s : State) : Kept [.power] s (stepOverrun step s) := by
  unfold stepOverrun
  try dsimp only
  repeat' (first
    | with_reducible exact Kept.refl _ _ | (with_reducible apply Or.inr; with_reducible rfl)
    | (with_reducible apply Or.inl; decide) | with_reducible apply Kept.ite
    | (with_reducible refine Kept.upd ?_ ?_ ?_ ?_ ?_ ?_ ?_ ?_ ?_ ?_ ?_ ?_ ?_ ?_ ?_ ?_ ?_))

theorem leanReturnCount_kept (s : State) : Kept [.plan] s (leanReturnCount s) := by
  unfold leanReturnCount
  try dsimp only
  repeat' (first
    | with_reducible exact Kept.refl _ _ | (with_reducible show (_ : List Part) ⊆ _; decide) | with_reducible apply Kept.ite
    | (with_reducible apply Kept.andThen (State.trigger_kept _ _)))

/-! ### League.lean -/

theorem leagueCtrl_kept (p : Nat) (ok : Bool) (c : Ctrl) (s : State) : Kept [.gates, .ports, .mgmt, .box] s
    (leagueCtrl p ok c s) := by
  unfold leagueCtrl
  try dsimp only
  repeat' (first
    | with_reducible exact Kept.refl _ _ | (with_reducible show (_ : List Part) ⊆ _; decide) | with_reducible apply Kept.ite
    | (with_reducible apply Kept.andThen (State.retrain_kept _ _))
    | (with_reducible apply Kept.andThen (State.replay_kept _ _))
    | (with_reducible apply Kept.andThen (State.upPort_kept _ _ _)) | split)

theorem State.loseExtents_kept (s : State) (p : Nat) : Kept [.hides] s (State.loseExtents s p) := by
  unfold State.loseExtents
  try dsimp only
  repeat' (first
    | with_reducible exact Kept.refl _ _ | (with_reducible show (_ : List Part) ⊆ _; decide)
    | (with_reducible apply Kept.andThen (State.upO_kept _ _ _))
    | (with_reducible apply Kept.after (forAll_kept _ _ _ ?_ ?_)) | intro _)

theorem State.newModule_kept (s : State) (p : Nat) : Kept [.hides, .ports] s (State.newModule s p) := by
  unfold State.newModule
  try dsimp only
  repeat' (first
    | with_reducible exact Kept.refl _ _ | (with_reducible show (_ : List Part) ⊆ _; decide) | with_reducible apply Kept.ite
    | (with_reducible apply Kept.andThen (State.upO_kept _ _ _))
    | (with_reducible apply Kept.andThen (State.trimRange_kept _ _ _ _ _))
    | (with_reducible apply Kept.after (forAll_kept _ _ _ ?_ ?_))
    | (with_reducible apply Kept.andThen (State.upPort_kept _ _ _)) | intro _)

theorem State.meetModule_kept (s : State) (p : Nat) (m : ModuleId) : Kept [.hides, .imem, .gates, .ports, .mgmt, .box]
    s (State.meetModule s p m) := by
  unfold State.meetModule
  try dsimp only
  repeat' (first
    | with_reducible exact Kept.refl _ _ | (with_reducible show (_ : List Part) ⊆ _; decide) | with_reducible apply Kept.ite
    | (with_reducible apply Kept.andThen (State.nextFirst_kept _ _))
    | (with_reducible apply Kept.andThen (State.loseExtents_kept _ _))
    | (with_reducible apply Kept.andThen (State.newModule_kept _ _))
    | (with_reducible apply Kept.andThen (State.deviceEvent_kept _))
    | (with_reducible apply Kept.andThen (State.portOut_kept _ _ _))
    | (with_reducible apply Kept.andThen (State.leagueRecord_kept _ _ _))
    | (with_reducible apply Kept.andThen (State.upPort_kept _ _ _)))

/-! ### Loads.lean -/

theorem doeCancel_kept (ld load : Nat) (s : State) : Kept [.mgmt, .box] s (doeCancel ld load s) := by
  unfold doeCancel
  try dsimp only
  repeat' (first
    | with_reducible exact Kept.refl _ _ | (with_reducible show (_ : List Part) ⊆ _; decide)
    | (with_reducible apply Kept.andThen (State.discardLoad_kept _ _ _ _))
    | (with_reducible apply Kept.after (State.doe_kept _ _ _ _ ?_ ?_)) | split | intro _)

/-! ### Manage.lean -/

theorem State.telemetryTaken_kept (s : State) : Kept [.hides] s (State.telemetryTaken s) := by
  unfold State.telemetryTaken
  try dsimp only
  repeat' (first
    | with_reducible exact Kept.refl _ _ | (with_reducible apply Or.inr; with_reducible rfl)
    | (with_reducible apply Or.inl; decide)
    | (with_reducible refine Kept.upd ?_ ?_ ?_ ?_ ?_ ?_ ?_ ?_ ?_ ?_ ?_ ?_ ?_ ?_ ?_ ?_ ?_))

theorem telemetry_kept (q : Req) (s : State) : Kept [.hides, .mgmt, .box] s (telemetry q s) := by
  unfold telemetry
  try dsimp only
  repeat' (first
    | with_reducible exact Kept.refl _ _ | (with_reducible show (_ : List Part) ⊆ _; decide)
    | (with_reducible apply Kept.andThen (State.telemetryTaken_kept _))
    | (with_reducible apply Kept.andThen (State.reply_kept _ _ _ _ _))
    | (with_reducible apply Kept.after (State.request_kept _ _ _ _ _ ?_ ?_)) | intro _)

theorem bbRead_kept (q : Req) (seq limit : Nat) (s : State) : Kept [.mgmt, .box] s (bbRead q seq limit s) := by
  unfold bbRead
  try dsimp only
  repeat' (first
    | with_reducible exact Kept.refl _ _ | (with_reducible show (_ : List Part) ⊆ _; decide)
    | (with_reducible apply Kept.andThen (State.reply_kept _ _ _ _ _))
    | (with_reducible apply Kept.after (State.request_kept _ _ _ _ _ ?_ ?_)) | split | intro _)

/-! ### League.lean -/

theorem State.takeSector_kept (s : State) (p : Nat) (c : Cmd) (i : Nat) (d : RData) : Kept [.hides, .gates, .ports,
    .mgmt, .box] s (State.takeSector s p c i d) := by
  unfold State.takeSector
  try dsimp only
  repeat' (first
    | with_reducible exact Kept.refl _ _ | (with_reducible show (_ : List Part) ⊆ _; decide) | with_reducible apply Kept.ite
    | (with_reducible apply Kept.andThen (State.upPort_kept _ _ _))
    | (with_reducible apply Kept.andThen (State.upO_kept _ _ _))
    | (with_reducible apply Kept.andThen (State.upCmd_kept _ _ _)) | split)

theorem leagueRdata_kept (p : Nat) (k : FrameCheck) (tag i : Nat) (d : RData) (s : State) : Kept [.hides, .gates,
    .ports, .mgmt, .box] s (leagueRdata p k tag i d s) := by
  unfold leagueRdata
  try dsimp only
  repeat' (first
    | with_reducible exact Kept.refl _ _ | (with_reducible show (_ : List Part) ⊆ _; decide) | with_reducible apply Kept.ite
    | (with_reducible apply Kept.andThen (State.upCmd_kept _ _ _))
    | (with_reducible apply Kept.andThen (State.takeSector_kept _ _ _ _ _))
    | (with_reducible apply Kept.andThen (State.discard_kept _ _))
    | (with_reducible apply Kept.andThen (State.upPort_kept _ _ _))
    | (with_reducible apply Kept.andThen (State.linkCheck_kept _ _ _)) | split)

theorem leagueIdle_kept (p : Nat) (s : State) : Kept [.gates, .ports, .mgmt, .box] s (leagueIdle p s) := by
  unfold leagueIdle
  try dsimp only
  repeat' (first
    | with_reducible exact Kept.refl _ _ | (with_reducible show (_ : List Part) ⊆ _; decide) | with_reducible apply Kept.ite
    | (with_reducible apply Kept.andThen (State.retrain_kept _ _)))

/-! ### Power.lean -/

theorem State.tornRecord_kept (s : State) (torn : Bool) : Kept [.mgmt, .box] s (State.tornRecord s torn) := by
  have k : Kept [.mgmt, .box] s { s with box := { s.box with torn := torn } } :=
    (Kept.refl _ s).boxUp (by decide) (fun h => ⟨h.rising, h.below, h.segments, h.warnLow, h.warnHigh, h.acked⟩) (Nat.le_refl _)
      (fun _ h _ => h)
  unfold State.tornRecord
  dsimp only
  split
  · refine Kept.trans ?_ (State.record_kept _ _ _ _ _)
    exact (Kept.refl _ s).boxUp (by decide) (fun h => ⟨h.rising, fun r hr => Nat.lt_succ_of_lt (h.below r hr), h.segments, h.warnLow,
      h.warnHigh, Nat.le_succ_of_le h.acked⟩) (Nat.le_succ _) (fun _ h _ => h)
  · exact k

/-! ### Manage.lean -/

theorem hideReset_kept (q : Req) (hide mode : Nat) (s : State) : Kept [.hides, .imem, .gates, .ports, .dex, .mgmt,
    .box, .screen] s (hideReset q hide mode s) := by
  unfold hideReset
  try dsimp only
  repeat' (first
    | with_reducible exact Kept.refl _ _ | (with_reducible show (_ : List Part) ⊆ _; decide) | with_reducible apply Kept.ite
    | (with_reducible apply Kept.andThen (State.startReset_kept _ _ _ _ _))
    | (with_reducible apply Kept.andThen (State.config_kept _ _ _ _ _ _))
    | (with_reducible apply Kept.andThen (State.reply_kept _ _ _ _ _))
    | (with_reducible apply Kept.after (State.request_kept _ _ _ _ _ ?_ ?_)) | split | intro _)

/-! ### League.lean -/

theorem leagueTimeout_kept (p tag : Nat) (s : State) : Kept [.hides, .gates, .ports, .mgmt, .box] s (leagueTimeout p
    tag s) := by
  unfold leagueTimeout
  try dsimp only
  repeat' (first
    | with_reducible exact Kept.refl _ _ | (with_reducible show (_ : List Part) ⊆ _; decide)
    | (with_reducible apply Kept.andThen (State.endCmd_kept _ _ _ _))
    | (with_reducible apply Kept.andThen (State.upPort_kept _ _ _)) | split)

/-! ### Loads.lean -/

theorem doeStatus_kept (ld load : Nat) (s : State) : Kept [.mgmt] s (doeStatus ld load s) := by
  unfold doeStatus
  try dsimp only
  repeat' (first
    | with_reducible exact Kept.refl _ _ | (with_reducible show (_ : List Part) ⊆ _; decide)
    | (with_reducible apply Kept.after (State.doe_kept _ _ _ _ ?_ ?_)) | split | intro _)

/-! ### Manage.lean -/

theorem lifecycle_kept (q : Req) (target sealing : Nat) (s : State) : Kept [.dex, .mgmt, .box] s (lifecycle q target
    sealing s) := by
  unfold lifecycle
  refine (State.request_kept _ _ _ _ _ (by decide) (fun x => ?_))
  split
  · exact (State.reply_kept _ _ _ _ _).mono (by decide)
  · next he =>
    have k := Dex.moveLife_grows he
    refine Kept.andThen (State.reply_kept _ _ _ _ _) (by decide) (Kept.andThen (State.config_kept _ _ _ _ _ _) (by decide) ?_)
    exact (Kept.refl _ x).dexUp (by decide) k.1 (Nat.le_of_eq (by rw [k.2.1])) k.2.2.1 k.2.2.2.1 (Nat.le_of_eq k.2.2.2.2.symm)

/-! ### Gates.lean -/

theorem gateStart_kept (s : State) : Kept [.gates] s (gateStart s) := by
  unfold gateStart
  try dsimp only
  repeat' (first
    | with_reducible exact Kept.refl _ _ | (with_reducible apply Or.inr; with_reducible rfl)
    | (with_reducible apply Or.inl; decide)
    | (with_reducible refine Kept.upd ?_ ?_ ?_ ?_ ?_ ?_ ?_ ?_ ?_ ?_ ?_ ?_ ?_ ?_ ?_ ?_ ?_))

/-! ### League.lean -/

theorem trainingComplete_kept (p : Nat) (lanes : BitVec 4) (s : State) : Kept [.hides, .imem, .gates, .ports, .mgmt,
    .box] s (trainingComplete p lanes s) := by
  unfold trainingComplete
  try dsimp only
  repeat' (first
    | with_reducible exact Kept.refl _ _ | (with_reducible show (_ : List Part) ⊆ _; decide) | with_reducible apply Kept.ite
    | (with_reducible apply Kept.andThen (State.meetModule_kept _ _ _))
    | (with_reducible apply Kept.andThen (State.enqueue_kept _ _ _ _ _))
    | (with_reducible apply Kept.andThen (State.upPort_kept _ _ _)) | split)

/-! ### Manage.lean -/

theorem loadEnd_kept (q : Req) (load : Nat) (image : LoadImage) (s : State) : Kept [.plan, .hides, .dex, .mgmt, .box,
    .screen] s (loadEnd q load image s) := by
  unfold loadEnd
  try dsimp only
  repeat' (first
    | with_reducible exact Kept.refl _ _ | (with_reducible show (_ : List Part) ⊆ _; decide)
    | (with_reducible apply Kept.andThen (State.finishLoad_kept _ _ _))
    | (with_reducible apply Kept.andThen (State.reply_kept _ _ _ _ _))
    | (with_reducible apply Kept.after (State.request_kept _ _ _ _ _ ?_ ?_)) | split | intro _)

/-! ### Furlong.lean -/

theorem boundaryLimit_kept (r : Nat) (s : State) : Kept [.power, .regions, .clusters, .plan, .hides, .imem, .acres,
    .gates, .ports, .dex, .mgmt, .box, .screen] s (boundaryLimit r s) := by
  unfold boundaryLimit
  try dsimp only
  repeat' (first
    | with_reducible exact Kept.refl _ _ | (with_reducible show (_ : List Part) ⊆ _; decide) | with_reducible apply Kept.ite
    | (with_reducible apply Kept.andThen (State.lateMark_kept _ _))
    | (with_reducible apply Kept.andThen (State.startFurlong_kept _ _))
    | (with_reducible apply Kept.andThen (State.upRegion_kept _ _ _))
    | (with_reducible apply Kept.after (Kept.foldl _ (fun _ _ => ?_) _ _)))

/-! ### Manage.lean -/

theorem regWrite_kept (q : Req) (off : Nat) (v : U64) (width : Nat) (s : State) : Kept [.power, .hides, .gates,
    .ports, .mgmt, .box, .screen] s (regWrite q off v width s) := by
  unfold regWrite
  try dsimp only
  repeat' (first
    | with_reducible exact Kept.refl _ _ | (with_reducible show (_ : List Part) ⊆ _; decide)
    | (with_reducible apply Kept.andThen (State.closeSession_kept _ _))
    | (with_reducible apply Kept.andThen (State.config_kept _ _ _ _ _ _))
    | (with_reducible apply Kept.andThen (State.globalWrite_kept _ _ _))
    | (with_reducible apply Kept.andThen (State.reply_kept _ _ _ _ _))
    | (with_reducible apply Kept.after (State.request_kept _ _ _ _ _ ?_ ?_))
    | (with_reducible apply Kept.after (Kept.foldl _ (fun _ _ => ?_) _ _)) | split | intro _)

theorem regRead_kept (q : Req) (off count : Nat) (s : State) : Kept [.power, .regions, .plan, .ports, .mgmt, .box,
    .screen, .free] s (regRead q off count s) := by
  unfold regRead
  try dsimp only
  repeat' (first
    | with_reducible exact Kept.refl _ _ | (with_reducible show (_ : List Part) ⊆ _; decide)
    | (with_reducible apply Kept.andThen (State.globalTake_kept _ _))
    | (with_reducible apply Kept.andThen (State.reply_kept _ _ _ _ _))
    | (with_reducible apply Kept.after (State.request_kept _ _ _ _ _ ?_ ?_)) | split | intro _)

/-! ### Gates.lean -/

theorem policerRefill_kept (s : State) : Kept [.hides] s (policerRefill s) := by
  unfold policerRefill
  try dsimp only
  repeat' (first
    | with_reducible exact Kept.refl _ _ | (with_reducible show (_ : List Part) ⊆ _; decide) | with_reducible apply Kept.ite
    | (with_reducible apply Kept.andThen (State.upQ_kept _ _ _))
    | (with_reducible apply Kept.after (forAll_kept _ _ _ ?_ ?_)) | split | intro _)

/-! ### Manage.lean -/

theorem subscribe_kept (q : Req) (period notices : Nat) (s : State) : Kept [.mgmt, .box] s (subscribe q period notices
    s) := by
  unfold subscribe
  try dsimp only
  repeat' (first
    | with_reducible exact Kept.refl _ _ | (with_reducible apply Or.inr; with_reducible rfl)
    | (with_reducible apply Or.inl; decide) | (with_reducible show (_ : List Part) ⊆ _; decide)
    | (with_reducible apply Kept.andThen (State.reply_kept _ _ _ _ _))
    | (with_reducible apply Kept.after (State.request_kept _ _ _ _ _ ?_ ?_)) | split | intro _
    | (with_reducible refine Kept.upd ?_ ?_ ?_ ?_ ?_ ?_ ?_ ?_ ?_ ?_ ?_ ?_ ?_ ?_ ?_ ?_ ?_))

theorem State.enroll_kept (s : State) (a : AnchorReq) (o : Origin) : Kept [.dex, .mgmt, .box] s (State.enroll s a o)
    := by
  unfold State.enroll
  try dsimp only
  repeat' (first
    | with_reducible exact Kept.refl _ _ | (with_reducible assumption) | (with_reducible apply Or.inr; with_reducible rfl)
    | (with_reducible apply Or.inl; decide) | (with_reducible show (_ : List Part) ⊆ _; decide)
    | (with_reducible apply Kept.andThen (State.config_kept _ _ _ _ _ _)) | (exact fun h k => h k) | exact Nat.le_refl _
    | intro _ | (with_reducible refine Kept.updDex ?_ ?_ ?_ ?_ ?_ ?_ ?_ ?_ ?_ ?_ ?_ ?_ ?_ ?_ ?_ ?_ ?_ ?_ ?_ ?_ ?_ ?_ ?_))

theorem anchorEnroll_kept (q : Option Req) (a : AnchorReq) (s : State) : Kept [.dex, .mgmt, .box] s (anchorEnroll q a
    s) := by
  unfold anchorEnroll
  try dsimp only
  repeat' (first
    | with_reducible exact Kept.refl _ _ | (with_reducible show (_ : List Part) ⊆ _; decide) | with_reducible apply Kept.ite
    | (with_reducible apply Kept.andThen (State.enroll_kept _ _ _))
    | (with_reducible apply Kept.andThen (State.reply_kept _ _ _ _ _))
    | (with_reducible apply Kept.after (State.request_kept _ _ _ _ _ ?_ ?_)) | split | intro _)

theorem loadCancel_kept (q : Req) (load : Nat) (s : State) : Kept [.mgmt, .box] s (loadCancel q load s) := by
  unfold loadCancel
  try dsimp only
  repeat' (first
    | with_reducible exact Kept.refl _ _ | (with_reducible show (_ : List Part) ⊆ _; decide) | with_reducible apply Kept.ite
    | (with_reducible apply Kept.andThen (State.discardLoad_kept _ _ _ _))
    | (with_reducible apply Kept.andThen (State.reply_kept _ _ _ _ _))
    | (with_reducible apply Kept.after (State.request_kept _ _ _ _ _ ?_ ?_)) | split | intro _)

theorem deviceReset_kept (q : Req) (confirm : Nat) (s : State) : Kept [.power, .sensors, .resetPin, .clocks, .regions,
    .clusters, .plan, .hides, .imem, .acres, .gates, .cxl, .ports, .dex, .mgmt, .box, .screen, .tap, .free] s
    (deviceReset q confirm s) := by
  unfold deviceReset
  try dsimp only
  repeat' (first
    | with_reducible exact Kept.refl _ _ | (with_reducible show (_ : List Part) ⊆ _; decide)
    | (with_reducible apply Kept.andThen (State.config_kept _ _ _ _ _ _))
    | (with_reducible apply Kept.andThen (State.deviceReset_kept _ _))
    | (with_reducible apply Kept.andThen (State.reply_kept _ _ _ _ _))
    | (with_reducible apply Kept.after (State.request_kept _ _ _ _ _ ?_ ?_)) | split | intro _)

/-! ### Loads.lean -/

theorem State.loadBytes_kept (s : State) (l : Load) (off len : Nat) (o : Origin) : Kept [.mgmt, .box] s
    (State.loadBytes s l off len o).1 := by
  unfold State.loadBytes
  try dsimp only
  repeat' (first
    | with_reducible exact Kept.refl _ _ | (with_reducible show (_ : List Part) ⊆ _; decide)
    | (with_reducible apply Kept.andThen (State.upLoad_kept _ _ _))
    | (with_reducible apply Kept.andThen (State.discardLoad_kept _ _ _ _)) | split)

/-! ### Manage.lean -/

theorem telemetryPeriod_kept (id : Nat) (s : State) : Kept [.hides, .mgmt] s (telemetryPeriod id s) := by
  unfold telemetryPeriod
  try dsimp only
  repeat' (first
    | with_reducible exact Kept.refl _ _ | (with_reducible show (_ : List Part) ⊆ _; decide) | with_reducible apply Kept.ite
    | (with_reducible apply Kept.andThen (State.telemetryTaken_kept _))
    | (with_reducible apply Kept.andThen (State.message_kept _ _)) | split)

/-! ### Loads.lean -/

theorem doeData_kept (ld load off len : Nat) (s : State) : Kept [.mgmt, .box] s (doeData ld load off len s) := by
  unfold doeData
  try dsimp only
  repeat' (first
    | with_reducible exact Kept.refl _ _ | (with_reducible show (_ : List Part) ⊆ _; decide)
    | (with_reducible apply Kept.andThen (State.loadBytes_kept _ _ _ _ _))
    | (with_reducible apply Kept.after (State.doe_kept _ _ _ _ ?_ ?_)) | split | intro _)

/-! ### Power.lean -/

theorem resetN_kept (s : State) : Kept [.power, .sensors, .resetPin, .clocks, .regions, .clusters, .plan, .hides,
    .imem, .acres, .gates, .cxl, .ports, .dex, .mgmt, .box, .screen, .tap, .free] s (resetN s) := by
  unfold resetN
  try dsimp only
  repeat' (first
    | with_reducible exact Kept.refl _ _ | (with_reducible apply Or.inr; with_reducible rfl)
    | (with_reducible apply Or.inl; decide) | (with_reducible show (_ : List Part) ⊆ _; decide)
    | (with_reducible apply Kept.andThen (State.deviceReset_kept _ _)) | split
    | (with_reducible refine Kept.upd ?_ ?_ ?_ ?_ ?_ ?_ ?_ ?_ ?_ ?_ ?_ ?_ ?_ ?_ ?_ ?_ ?_))

theorem pllLoss_kept (r : Nat) (s : State) : Kept [.regions, .plan, .mgmt, .box] s (pllLoss r s) := by
  unfold pllLoss
  try dsimp only
  repeat' (first
    | with_reducible exact Kept.refl _ _ | (with_reducible show (_ : List Part) ⊆ _; decide) | with_reducible apply Kept.ite
    | (with_reducible apply Kept.andThen (State.upRegion_kept _ _ _))
    | (with_reducible apply Kept.andThen (State.failRegion_kept _ _ _)))

/-! ### Loads.lean -/

theorem State.openLoad_kept (s : State) (by_ : LoadFrom) (kind mode size : Nat) : Kept [.mgmt] s (State.openLoad s by_
    kind mode size).1 := by
  unfold State.openLoad
  try dsimp only
  repeat' (first
    | with_reducible exact Kept.refl _ _ | (with_reducible apply Or.inr; with_reducible rfl)
    | (with_reducible apply Or.inl; decide)
    | (with_reducible refine Kept.upd ?_ ?_ ?_ ?_ ?_ ?_ ?_ ?_ ?_ ?_ ?_ ?_ ?_ ?_ ?_ ?_ ?_))

/-! ### Manage.lean -/

theorem loadBegin_kept (q : Req) (kind mode size : Nat) (s : State) : Kept [.mgmt, .box] s (loadBegin q kind mode size
    s) := by
  unfold loadBegin
  try dsimp only
  repeat' (first
    | with_reducible exact Kept.refl _ _ | (with_reducible show (_ : List Part) ⊆ _; decide) | with_reducible apply Kept.ite
    | (with_reducible apply Kept.andThen (State.openLoad_kept _ _ _ _ _))
    | (with_reducible apply Kept.andThen (State.reply_kept _ _ _ _ _))
    | (with_reducible apply Kept.after (State.request_kept _ _ _ _ _ ?_ ?_)) | split | intro _)

/-! ### Power.lean -/

theorem holdupOk_kept (s : State) : Kept [.power] s (holdupOk s) := by
  unfold holdupOk
  try dsimp only
  repeat' (first
    | with_reducible exact Kept.refl _ _ | (with_reducible apply Or.inr; with_reducible rfl)
    | (with_reducible apply Or.inl; decide) | split
    | (with_reducible refine Kept.upd ?_ ?_ ?_ ?_ ?_ ?_ ?_ ?_ ?_ ?_ ?_ ?_ ?_ ?_ ?_ ?_ ?_))

/-! ### Manage.lean -/

theorem debugChallenge_kept (q : Req) (s : State) : Kept [.dex, .mgmt, .box] s (debugChallenge q s) := by
  unfold debugChallenge
  try dsimp only
  repeat' (first
    | with_reducible exact Kept.refl _ _ | (with_reducible assumption) | (with_reducible apply Or.inr; with_reducible rfl)
    | (with_reducible apply Or.inl; decide) | (with_reducible show (_ : List Part) ⊆ _; decide)
    | (with_reducible apply Kept.andThen (State.reply_kept _ _ _ _ _))
    | (with_reducible apply Kept.andThen (State.draw_kept _))
    | (with_reducible apply Kept.after (State.request_kept _ _ _ _ _ ?_ ?_)) | (exact fun h k => h k) | exact Nat.le_refl _
    | intro _ | (with_reducible refine Kept.updDex ?_ ?_ ?_ ?_ ?_ ?_ ?_ ?_ ?_ ?_ ?_ ?_ ?_ ?_ ?_ ?_ ?_ ?_ ?_ ?_ ?_ ?_ ?_))

theorem statusProbe_kept (nonce : BitVec 64) (s : State) : Kept [.mgmt] s (statusProbe nonce s) := by
  unfold statusProbe
  try dsimp only
  repeat' (first
    | with_reducible exact Kept.refl _ _ | (with_reducible apply Or.inr; with_reducible rfl)
    | (with_reducible apply Or.inl; decide) | (with_reducible show (_ : List Part) ⊆ _; decide)
    | with_reducible apply Kept.ite | (with_reducible apply Kept.andThen (State.raw_kept _ _)) | split
    | (with_reducible refine Kept.upd ?_ ?_ ?_ ?_ ?_ ?_ ?_ ?_ ?_ ?_ ?_ ?_ ?_ ?_ ?_ ?_ ?_))

theorem refusalExpiry_kept (s : State) : Kept [.mgmt] s (refusalExpiry s) := by
  unfold refusalExpiry
  try dsimp only
  repeat' (first
    | with_reducible exact Kept.refl _ _ | (with_reducible apply Or.inr; with_reducible rfl)
    | (with_reducible apply Or.inl; decide)
    | (with_reducible refine Kept.upd ?_ ?_ ?_ ?_ ?_ ?_ ?_ ?_ ?_ ?_ ?_ ?_ ?_ ?_ ?_ ?_ ?_))

theorem sessionClose_kept (id : Nat) (s : State) : Kept [.mgmt, .box] s (sessionClose id s) := by
  unfold sessionClose
  try dsimp only
  repeat' (first
    | with_reducible exact Kept.refl _ _ | (with_reducible show (_ : List Part) ⊆ _; decide)
    | (with_reducible apply Kept.andThen (State.closeSession_kept _ _)))

theorem getMeasurements_kept (mailbox : Option Nat) (nonce : BitVec 256) (s : State) : Kept [.dex, .mgmt] s
    (getMeasurements mailbox nonce s) := by
  unfold getMeasurements
  try dsimp only
  repeat' (first
    | with_reducible exact Kept.refl _ _ | (with_reducible show (_ : List Part) ⊆ _; decide) | with_reducible apply Kept.ite
    | (with_reducible apply Kept.andThen (State.draw_kept _)) | (with_reducible apply Kept.andThen (State.raw_kept _ _)))

/-! ### Power.lean -/

theorem standbyStart_kept (s : State) : Kept [.power] s (standbyStart s) := by
  unfold standbyStart
  try dsimp only
  repeat' (first
    | with_reducible exact Kept.refl _ _ | (with_reducible apply Or.inr; with_reducible rfl)
    | (with_reducible apply Or.inl; decide) | with_reducible apply Kept.ite
    | (with_reducible refine Kept.upd ?_ ?_ ?_ ?_ ?_ ?_ ?_ ?_ ?_ ?_ ?_ ?_ ?_ ?_ ?_ ?_ ?_))

theorem State.bootRecords_kept (straps : BitVec 6) (torn : Bool) (s : State) : Kept [.mgmt, .box] s (State.bootRecords s straps torn) := by
  unfold State.bootRecords
  try dsimp only
  repeat' (first
    | with_reducible exact Kept.refl _ _ | (with_reducible assumption) | (with_reducible apply Or.inr; with_reducible rfl)
    | (with_reducible apply Or.inl; decide) | (with_reducible show (_ : List Part) ⊆ _; decide)
    | with_reducible apply Kept.ite
    | (with_reducible apply Kept.andThen (State.record_kept _ _ _ _ _))
    | (with_reducible apply Kept.andThen (State.tornRecord_kept _ _))
    | (with_reducible apply Kept.after (forAll_kept _ _ _ ?_ ?_))
    | split | intro _
    | (with_reducible refine Kept.upd ?_ ?_ ?_ ?_ ?_ ?_ ?_ ?_ ?_ ?_ ?_ ?_ ?_ ?_ ?_ ?_ ?_))

theorem State.bootRun_kept (straps : BitVec 6) (code : BitVec 8) (xtsFail : BitVec 64) (s : State) : Kept [.power, .resetPin, .tap, .dex, .mgmt] s (State.bootRun s straps code xtsFail) := by
  unfold State.bootRun
  try dsimp only
  repeat' (first
    | with_reducible exact Kept.refl _ _ | (with_reducible assumption) | (with_reducible apply Or.inr; with_reducible rfl)
    | (with_reducible apply Or.inl; decide) | (with_reducible show (_ : List Part) ⊆ _; decide)
    | with_reducible apply Kept.ite
    | (with_reducible apply Kept.after (forAll_kept _ _ _ ?_ ?_))
    | (exact fun h k => h k) | exact Nat.le_refl _
    | split | intro _ | (with_reducible refine Kept.updDex ?_ ?_ ?_ ?_ ?_ ?_ ?_ ?_ ?_ ?_ ?_ ?_ ?_ ?_ ?_ ?_ ?_ ?_ ?_ ?_ ?_ ?_ ?_))

theorem State.failTested_kept (x : BitVec 64) (s : State) : Kept [.regions] s (State.failTested s x) := by
  unfold State.failTested
  try dsimp only
  repeat' (first
    | with_reducible exact Kept.refl _ _ | (with_reducible assumption) | (with_reducible apply Or.inr; with_reducible rfl)
    | (with_reducible apply Or.inl; decide) | (with_reducible show (_ : List Part) ⊆ _; decide)
    | with_reducible apply Kept.ite
    | (with_reducible apply Kept.andThen (State.upRegion_kept _ _ _))
    | (with_reducible apply Kept.after (forAll_kept _ _ _ ?_ ?_))
    | split | intro _
    | (with_reducible refine Kept.upd ?_ ?_ ?_ ?_ ?_ ?_ ?_ ?_ ?_ ?_ ?_ ?_ ?_ ?_ ?_ ?_ ?_))

theorem State.trainAll_kept  (s : State) : Kept [.gates, .ports] s (State.trainAll s) := by
  unfold State.trainAll
  try dsimp only
  repeat' (first
    | with_reducible exact Kept.refl _ _ | (with_reducible assumption) | (with_reducible apply Or.inr; with_reducible rfl)
    | (with_reducible apply Or.inl; decide) | (with_reducible show (_ : List Part) ⊆ _; decide)
    | with_reducible apply Kept.ite
    | (with_reducible apply Kept.andThen (State.train_kept _ _ _))
    | (with_reducible apply Kept.after (forAll_kept _ _ _ ?_ ?_))
    | split | intro _
    | (with_reducible refine Kept.upd ?_ ?_ ?_ ?_ ?_ ?_ ?_ ?_ ?_ ?_ ?_ ?_ ?_ ?_ ?_ ?_ ?_))

theorem resetRelease_kept (s0 s1 s2 : BitVec 6) (testCode : BitVec 8) (xtsFail : BitVec 64) (torn : Bool) (s : State) : Kept [.power, .resetPin, .regions, .hides, .gates, .ports, .dex, .mgmt, .box, .tap] s (resetRelease s0 s1 s2 testCode xtsFail torn s) := by
  unfold resetRelease
  try dsimp only
  repeat' (first
    | with_reducible exact Kept.refl _ _ | (with_reducible assumption) | (with_reducible apply Or.inr; with_reducible rfl)
    | (with_reducible apply Or.inl; decide) | (with_reducible show (_ : List Part) ⊆ _; decide)
    | with_reducible apply Kept.ite
    | (with_reducible apply Kept.andThen (State.trainAll_kept _))
    | (with_reducible apply Kept.andThen (State.failTested_kept _ _))
    | (with_reducible apply Kept.andThen (State.drawRoots_kept _))
    | (with_reducible apply Kept.andThen (State.bootRun_kept _ _ _ _))
    | (with_reducible apply Kept.andThen (State.bootRecords_kept _ _ _))
    | (with_reducible apply Kept.after (forAll_kept _ _ _ ?_ ?_))
    | split | intro _
    | (with_reducible refine Kept.upd ?_ ?_ ?_ ?_ ?_ ?_ ?_ ?_ ?_ ?_ ?_ ?_ ?_ ?_ ?_ ?_ ?_))

theorem setTime_kept (q : Req) (rtc : U64) (s : State) : Kept [.mgmt, .box] s (setTime q rtc s) := by
  unfold setTime
  try dsimp only
  repeat' (first
    | with_reducible exact Kept.refl _ _ | (with_reducible apply Or.inr; with_reducible rfl)
    | (with_reducible apply Or.inl; decide) | (with_reducible show (_ : List Part) ⊆ _; decide)
    | (with_reducible apply Kept.andThen (State.config_kept _ _ _ _ _ _))
    | (with_reducible apply Kept.andThen (State.reply_kept _ _ _ _ _))
    | (with_reducible apply Kept.after (State.request_kept _ _ _ _ _ ?_ ?_)) | intro _
    | (with_reducible refine Kept.upd ?_ ?_ ?_ ?_ ?_ ?_ ?_ ?_ ?_ ?_ ?_ ?_ ?_ ?_ ?_ ?_ ?_))

/-! ### Power.lean -/

theorem powerLoss_kept (byVin : Bool) (s : State) : Kept [.power, .sensors, .resetPin, .clocks, .regions, .clusters,
    .plan, .hides, .imem, .acres, .gates, .cxl, .ports, .dex, .mgmt, .box, .screen, .tap, .free] s (powerLoss byVin s)
    := by
  unfold powerLoss
  try dsimp only
  repeat' (first
    | with_reducible exact Kept.refl _ _ | (with_reducible show (_ : List Part) ⊆ _; decide)
    | (with_reducible apply Kept.andThen (State.loseSupply_kept _ _)))

/-! ### Manage.lean -/

theorem loadStatus_kept (q : Req) (load : Nat) (s : State) : Kept [.mgmt, .box] s (loadStatus q load s) := by
  unfold loadStatus
  try dsimp only
  repeat' (first
    | with_reducible exact Kept.refl _ _ | (with_reducible show (_ : List Part) ⊆ _; decide)
    | (with_reducible apply Kept.andThen (State.reply_kept _ _ _ _ _))
    | (with_reducible apply Kept.after (State.request_kept _ _ _ _ _ ?_ ?_)) | split | intro _)

/-! ### Loads.lean -/

theorem doeBegin_kept (ld mode size : Nat) (s : State) : Kept [.mgmt] s (doeBegin ld mode size s) := by
  unfold doeBegin
  try dsimp only
  repeat' (first
    | with_reducible exact Kept.refl _ _ | (with_reducible show (_ : List Part) ⊆ _; decide)
    | (with_reducible apply Kept.andThen (State.openLoad_kept _ _ _ _ _))
    | (with_reducible apply Kept.after (State.doe_kept _ _ _ _ ?_ ?_)) | split | intro _)

/-! ### Manage.lean -/

theorem loadData_kept (q : Req) (load off len : Nat) (s : State) : Kept [.mgmt, .box] s (loadData q load off len s) :=
    by
  unfold loadData
  try dsimp only
  repeat' (first
    | with_reducible exact Kept.refl _ _ | (with_reducible show (_ : List Part) ⊆ _; decide)
    | (with_reducible apply Kept.andThen (State.loadBytes_kept _ _ _ _ _))
    | (with_reducible apply Kept.andThen (State.reply_kept _ _ _ _ _))
    | (with_reducible apply Kept.after (State.request_kept _ _ _ _ _ ?_ ?_)) | split | intro _)

/-! ### League.lean -/

theorem leagueCtrlSend_kept (p : Nat) (s : State) : Kept [.gates] s (leagueCtrlSend p s) := by
  unfold leagueCtrlSend
  try dsimp only
  repeat' (first
    | with_reducible exact Kept.refl _ _ | (with_reducible show (_ : List Part) ⊆ _; decide) | with_reducible apply Kept.ite
    | (with_reducible apply Kept.andThen (State.sendCtrl_kept _ _)))

end Sys2Proof.Machine
end

