-- ==== Sys2Proof/Laws/KeptExec.lean ====
section
/-!
SUPPORT. What each command keeps, and that a step keeps the machine sound.
-/

namespace Sys2Proof.Machine
open Sys2Proof

theorem exec_standbyStart_kept (s : State) :
    ∃ s', exec (.standbyStart) s = .next s' ∧ Kept (touches (.standbyStart)) s s' := by
  refine ⟨_, rfl, ?_⟩
  show Kept [.power] s _
  repeat' (first
    | with_reducible exact Kept.refl _ _ | (with_reducible show (_ : List Part) ⊆ _; decide)
    | (with_reducible apply Kept.andThen (standbyStart_kept _)) | split | intro _)

theorem exec_resetRelease_kept straps0 straps1 straps2 testCode xtsFail torn (s : State) :
    ∃ s', exec (.resetRelease straps0 straps1 straps2 testCode xtsFail torn) s = .next s' ∧ Kept (touches (.resetRelease straps0 straps1 straps2 testCode xtsFail torn)) s s' := by
  refine ⟨_, rfl, ?_⟩
  show Kept [.power, .resetPin, .regions, .hides, .gates, .ports, .dex, .mgmt, .box, .tap] s _
  repeat' (first
    | with_reducible exact Kept.refl _ _ | (with_reducible show (_ : List Part) ⊆ _; decide)
    | (with_reducible apply Kept.andThen (resetRelease_kept _ _ _ _ _ _ _)) | split | intro _)

theorem exec_powerUpStepOverrun_kept step (s : State) :
    ∃ s', exec (.powerUpStepOverrun step) s = .next s' ∧ Kept (touches (.powerUpStepOverrun step)) s s' := by
  refine ⟨_, rfl, ?_⟩
  show Kept [.power] s _
  repeat' (first
    | with_reducible exact Kept.refl _ _ | (with_reducible show (_ : List Part) ⊆ _; decide)
    | (with_reducible apply Kept.andThen (stepOverrun_kept _ _)) | split | intro _)

theorem exec_powerLoss_kept byVin (s : State) :
    ∃ s', exec (.powerLoss byVin) s = .next s' ∧ Kept (touches (.powerLoss byVin)) s s' := by
  refine ⟨_, rfl, ?_⟩
  show Kept Part.all s _
  repeat' (first
    | with_reducible exact Kept.refl _ _ | (with_reducible show (_ : List Part) ⊆ _; decide)
    | (with_reducible apply Kept.andThen (powerLoss_kept _ _)) | split | intro _)

theorem exec_protectiveShutdown_kept (s : State) :
    ∃ s', exec (.protectiveShutdown) s = .next s' ∧ Kept (touches (.protectiveShutdown)) s s' := by
  refine ⟨_, rfl, ?_⟩
  show Kept Part.all s _
  repeat' (first
    | with_reducible exact Kept.refl _ _ | (with_reducible show (_ : List Part) ⊆ _; decide)
    | (with_reducible apply Kept.andThen (protectiveShutdown_kept _)) | split | intro _)

theorem exec_resetN_kept (s : State) :
    ∃ s', exec (.resetN) s = .next s' ∧ Kept (touches (.resetN)) s s' := by
  refine ⟨_, rfl, ?_⟩
  show Kept Part.all s _
  repeat' (first
    | with_reducible exact Kept.refl _ _ | (with_reducible show (_ : List Part) ⊆ _; decide)
    | (with_reducible apply Kept.andThen (resetN_kept _)) | split | intro _)

theorem exec_vinSample_kept vin iin (s : State) :
    ∃ s', exec (.vinSample vin iin) s = .next s' ∧ Kept (touches (.vinSample vin iin)) s s' := by
  refine ⟨_, rfl, ?_⟩
  show Kept [.power, .plan, .hides, .mgmt, .box] s _
  repeat' (first
    | with_reducible exact Kept.refl _ _ | (with_reducible show (_ : List Part) ⊆ _; decide)
    | (with_reducible apply Kept.andThen (vinSample_kept _ _ _)) | split | intro _)

theorem exec_monitorFail_kept (s : State) :
    ∃ s', exec (.monitorFail) s = .next s' ∧ Kept (touches (.monitorFail)) s s' := by
  refine ⟨_, rfl, ?_⟩
  show Kept [.power, .plan, .mgmt, .box] s _
  repeat' (first
    | with_reducible exact Kept.refl _ _ | (with_reducible show (_ : List Part) ⊆ _; decide)
    | (with_reducible apply Kept.andThen (monitorFail_kept _)) | split | intro _)

theorem exec_sensorSample_kept readings (s : State) :
    ∃ s', exec (.sensorSample readings) s = .next s' ∧ Kept (touches (.sensorSample readings)) s s' := by
  refine ⟨_, rfl, ?_⟩
  show Kept Part.all s _
  repeat' (first
    | with_reducible exact Kept.refl _ _ | (with_reducible show (_ : List Part) ⊆ _; decide)
    | (with_reducible apply Kept.andThen (sensorSample_kept _ _)) | split | intro _)

theorem exec_sensorTimeout_kept sensor (s : State) :
    ∃ s', exec (.sensorTimeout sensor) s = .next s' ∧ Kept (touches (.sensorTimeout sensor)) s s' := by
  refine ⟨_, rfl, ?_⟩
  show Kept [.sensors, .regions, .plan] s _
  repeat' (first
    | with_reducible exact Kept.refl _ _ | (with_reducible show (_ : List Part) ⊆ _; decide)
    | (with_reducible apply Kept.andThen (sensorTimeout_kept _ _)) | split | intro _)

theorem exec_leanReturnCount_kept (s : State) :
    ∃ s', exec (.leanReturnCount) s = .next s' ∧ Kept (touches (.leanReturnCount)) s s' := by
  refine ⟨_, rfl, ?_⟩
  show Kept [.plan] s _
  repeat' (first
    | with_reducible exact Kept.refl _ _ | (with_reducible show (_ : List Part) ⊆ _; decide)
    | (with_reducible apply Kept.andThen (leanReturnCount_kept _)) | split | intro _)

theorem exec_clockMonitorWindow_kept bad (s : State) :
    ∃ s', exec (.clockMonitorWindow bad) s = .next s' ∧ Kept (touches (.clockMonitorWindow bad)) s s' := by
  refine ⟨_, rfl, ?_⟩
  show Kept [.clocks, .regions, .plan, .hides, .imem, .acres, .gates, .cxl, .ports, .dex, .mgmt, .box, .screen] s _
  repeat' (first
    | with_reducible exact Kept.refl _ _ | (with_reducible show (_ : List Part) ⊆ _; decide)
    | (with_reducible apply Kept.andThen (clockWindow_kept _ _)) | split | intro _)

theorem exec_regionClockWindow_kept ppm (s : State) :
    ∃ s', exec (.regionClockWindow ppm) s = .next s' ∧ Kept (touches (.regionClockWindow ppm)) s s' := by
  refine ⟨_, rfl, ?_⟩
  show Kept [.regions, .plan, .mgmt, .box] s _
  repeat' (first
    | with_reducible exact Kept.refl _ _ | (with_reducible show (_ : List Part) ⊆ _; decide)
    | (with_reducible apply Kept.andThen (regionWindow_kept _ _)) | split | intro _)

theorem exec_pllLossOfLock_kept r (s : State) :
    ∃ s', exec (.pllLossOfLock r) s = .next s' ∧ Kept (touches (.pllLossOfLock r)) s s' := by
  refine ⟨_, rfl, ?_⟩
  show Kept [.regions, .plan, .mgmt, .box] s _
  repeat' (first
    | with_reducible exact Kept.refl _ _ | (with_reducible show (_ : List Part) ⊆ _; decide)
    | (with_reducible apply Kept.andThen (pllLoss_kept _ _)) | split | intro _)

theorem exec_entropyHealthFail_kept (s : State) :
    ∃ s', exec (.entropyHealthFail) s = .next s' ∧ Kept (touches (.entropyHealthFail)) s s' := by
  refine ⟨_, rfl, ?_⟩
  show Kept [.dex, .mgmt] s _
  repeat' (first
    | with_reducible exact Kept.refl _ _ | (with_reducible show (_ : List Part) ⊆ _; decide)
    | (with_reducible apply Kept.andThen (entropyFail_kept _)) | split | intro _)

theorem exec_furlongCounterComplete_kept r (s : State) :
    ∃ s', exec (.furlongCounterComplete r) s = .next s' ∧ Kept (touches (.furlongCounterComplete r)) s s' := by
  refine ⟨_, rfl, ?_⟩
  show Kept [.regions] s _
  repeat' (first
    | with_reducible exact Kept.refl _ _ | (with_reducible show (_ : List Part) ⊆ _; decide)
    | (with_reducible apply Kept.andThen (counterComplete_kept _ _)) | split | intro _)

theorem exec_boundaryMark_kept r src low (s : State) :
    ∃ s', exec (.boundaryMark r src low) s = .next s' ∧ Kept (touches (.boundaryMark r src low)) s s' := by
  refine ⟨_, rfl, ?_⟩
  show Kept [.regions] s _
  repeat' (first
    | with_reducible exact Kept.refl _ _ | (with_reducible show (_ : List Part) ⊆ _; decide)
    | (with_reducible apply Kept.andThen (boundaryMark_kept _ _ _ _)) | split | intro _)

theorem exec_furlongStart_kept r (s : State) :
    ∃ s', exec (.furlongStart r) s = .next s' ∧ Kept (touches (.furlongStart r)) s s' := by
  refine ⟨_, rfl, ?_⟩
  show Kept [.power, .regions, .clusters, .plan, .hides, .imem, .acres, .gates, .ports, .dex, .mgmt, .box, .screen] s _
  repeat' (first
    | with_reducible exact Kept.refl _ _ | (with_reducible show (_ : List Part) ⊆ _; decide)
    | (with_reducible apply Kept.andThen (furlongStart_kept _ _)) | split | intro _)

theorem exec_boundaryLimit_kept r (s : State) :
    ∃ s', exec (.boundaryLimit r) s = .next s' ∧ Kept (touches (.boundaryLimit r)) s s' := by
  refine ⟨_, rfl, ?_⟩
  show Kept [.power, .regions, .clusters, .plan, .hides, .imem, .acres, .gates, .ports, .dex, .mgmt, .box, .screen] s _
  repeat' (first
    | with_reducible exact Kept.refl _ _ | (with_reducible show (_ : List Part) ⊆ _; decide)
    | (with_reducible apply Kept.andThen (boundaryLimit_kept _ _)) | split | intro _)

theorem exec_switchNotice_kept (s : State) :
    ∃ s', exec (.switchNotice) s = .next s' ∧ Kept (touches (.switchNotice)) s s' := by
  refine ⟨_, rfl, ?_⟩
  show Kept [.plan] s _
  repeat' (first
    | with_reducible exact Kept.refl _ _ | (with_reducible show (_ : List Part) ⊆ _; decide)
    | (with_reducible apply Kept.andThen (switchNotice_kept _)) | split | intro _)

theorem exec_drainLimit_kept (s : State) :
    ∃ s', exec (.drainLimit) s = .next s' ∧ Kept (touches (.drainLimit)) s s' := by
  refine ⟨_, rfl, ?_⟩
  show Kept [.hides, .imem, .gates, .ports, .screen] s _
  repeat' (first
    | with_reducible exact Kept.refl _ _ | (with_reducible show (_ : List Part) ⊆ _; decide)
    | (with_reducible apply Kept.andThen (drainLimit_kept _)) | split | intro _)

theorem exec_heldOutRotation_kept c (s : State) :
    ∃ s', exec (.heldOutRotation c) s = .next s' ∧ Kept (touches (.heldOutRotation c)) s s' := by
  refine ⟨_, rfl, ?_⟩
  show Kept [.clusters] s _
  repeat' (first
    | with_reducible exact Kept.refl _ _ | (with_reducible show (_ : List Part) ⊆ _; decide)
    | (with_reducible apply Kept.andThen (heldOutRotation_kept _ _)) | split | intro _)

theorem exec_screenPatternRun_kept c phys pattern result (s : State) :
    ∃ s', exec (.screenPatternRun c phys pattern result) s = .next s' ∧ Kept (touches (.screenPatternRun c phys pattern result)) s s' := by
  refine ⟨_, rfl, ?_⟩
  show Kept [.clusters, .plan, .mgmt, .box, .screen] s _
  repeat' (first
    | with_reducible exact Kept.refl _ _ | (with_reducible show (_ : List Part) ⊆ _; decide)
    | (with_reducible apply Kept.andThen (screenPatternRun_kept _ _ _ _ _)) | split | intro _)

theorem exec_screenSummary_kept (s : State) :
    ∃ s', exec (.screenSummary) s = .next s' ∧ Kept (touches (.screenSummary)) s s' := by
  refine ⟨_, rfl, ?_⟩
  show Kept [.mgmt, .box, .screen] s _
  repeat' (first
    | with_reducible exact Kept.refl _ _ | (with_reducible show (_ : List Part) ⊆ _; decide)
    | (with_reducible apply Kept.andThen (screenSummary_kept _)) | split | intro _)

theorem exec_bankGroupFaultRecord_kept (s : State) :
    ∃ s', exec (.bankGroupFaultRecord) s = .next s' ∧ Kept (touches (.bankGroupFaultRecord)) s s' := by
  refine ⟨_, rfl, ?_⟩
  show Kept [.clusters, .mgmt, .box] s _
  repeat' (first
    | with_reducible exact Kept.refl _ _ | (with_reducible show (_ : List Part) ⊆ _; decide)
    | (with_reducible apply Kept.andThen (bankGroupFaultRecord_kept _)) | split | intro _)

theorem exec_gateFurlongStart_kept (s : State) :
    ∃ s', exec (.gateFurlongStart) s = .next s' ∧ Kept (touches (.gateFurlongStart)) s s' := by
  refine ⟨_, rfl, ?_⟩
  show Kept [.gates] s _
  repeat' (first
    | with_reducible exact Kept.refl _ _ | (with_reducible show (_ : List Part) ⊆ _; decide)
    | (with_reducible apply Kept.andThen (gateStart_kept _)) | split | intro _)

theorem exec_policerRefill_kept (s : State) :
    ∃ s', exec (.policerRefill) s = .next s' ∧ Kept (touches (.policerRefill)) s s' := by
  refine ⟨_, rfl, ?_⟩
  show Kept [.hides] s _
  repeat' (first
    | with_reducible exact Kept.refl _ _ | (with_reducible show (_ : List Part) ⊆ _; decide)
    | (with_reducible apply Kept.andThen (policerRefill_kept _)) | split | intro _)

theorem exec_egressFrameStart_kept link chain cycle (s : State) :
    ∃ s', exec (.egressFrameStart link chain cycle) s = .next s' ∧ Kept (touches (.egressFrameStart link chain cycle)) s s' := by
  refine ⟨_, rfl, ?_⟩
  show Kept [.hides, .gates, .ports] s _
  repeat' (first
    | with_reducible exact Kept.refl _ _ | (with_reducible show (_ : List Part) ⊆ _; decide)
    | (with_reducible apply Kept.andThen (egressStart_kept _ _ _ _)) | split | intro _)

theorem exec_cxlMemWrite_kept ld off data poison writeBack cycle (s : State) :
    ∃ s', exec (.cxlMemWrite ld off data poison writeBack cycle) s = .next s' ∧ Kept (touches (.cxlMemWrite ld off data poison writeBack cycle)) s s' := by
  refine ⟨_, rfl, ?_⟩
  show Kept [.hides, .imem, .gates] s _
  repeat' (first
    | with_reducible exact Kept.refl _ _ | (with_reducible show (_ : List Part) ⊆ _; decide)
    | (with_reducible apply Kept.andThen (memWrite_kept _ _ _ _ _ _ _)) | split | intro _)

theorem exec_cxlMemRead_kept ld off kind (s : State) :
    ∃ s', exec (.cxlMemRead ld off kind) s = .next s' ∧ Kept (touches (.cxlMemRead ld off kind)) s s' := by
  refine ⟨_, rfl, ?_⟩
  show Kept [.hides, .gates] s _
  repeat' (first
    | with_reducible exact Kept.refl _ _ | (with_reducible show (_ : List Part) ⊆ _; decide)
    | (with_reducible apply Kept.andThen (memRead_kept _ _ _ _ _)) | split | intro _)

theorem exec_cxlMemInv_kept ld off (s : State) :
    ∃ s', exec (.cxlMemInv ld off) s = .next s' ∧ Kept (touches (.cxlMemInv ld off)) s s' := by
  refine ⟨_, rfl, ?_⟩
  show Kept [.hides, .gates] s _
  repeat' (first
    | with_reducible exact Kept.refl _ _ | (with_reducible show (_ : List Part) ⊆ _; decide)
    | (with_reducible apply Kept.andThen (memInv_kept _ _ _)) | split | intro _)

theorem exec_uioRead_kept ld off (s : State) :
    ∃ s', exec (.uioRead ld off) s = .next s' ∧ Kept (touches (.uioRead ld off)) s s' := by
  refine ⟨_, rfl, ?_⟩
  show Kept [.hides, .gates] s _
  repeat' (first
    | with_reducible exact Kept.refl _ _ | (with_reducible show (_ : List Part) ⊆ _; decide)
    | (with_reducible apply Kept.andThen (memRead_kept _ _ _ _ _)) | split | intro _)

theorem exec_uioWrite_kept ld off data poison cycle (s : State) :
    ∃ s', exec (.uioWrite ld off data poison cycle) s = .next s' ∧ Kept (touches (.uioWrite ld off data poison cycle)) s s' := by
  refine ⟨_, rfl, ?_⟩
  show Kept [.hides, .imem, .gates] s _
  repeat' (first
    | with_reducible exact Kept.refl _ _ | (with_reducible show (_ : List Part) ⊆ _; decide)
    | (with_reducible apply Kept.andThen (uioWrite_kept _ _ _ _ _ _)) | split | intro _)

theorem exec_packetTake_kept h (s : State) :
    ∃ s', exec (.packetTake h) s = .next s' ∧ Kept (touches (.packetTake h)) s s' := by
  refine ⟨_, rfl, ?_⟩
  show Kept [.hides, .imem, .gates] s _
  repeat' (first
    | with_reducible exact Kept.refl _ _ | (with_reducible show (_ : List Part) ⊆ _; decide)
    | (with_reducible apply Kept.andThen (takePacket_kept _ _)) | split | intro _)

theorem exec_packetTimeout_kept h ring (s : State) :
    ∃ s', exec (.packetTimeout h ring) s = .next s' ∧ Kept (touches (.packetTimeout h ring)) s s' := by
  refine ⟨_, rfl, ?_⟩
  show Kept [.hides, .imem, .gates] s _
  repeat' (first
    | with_reducible exact Kept.refl _ _ | (with_reducible show (_ : List Part) ⊆ _; decide)
    | (with_reducible apply Kept.andThen (packetTimeout_kept _ _ _)) | split | intro _)

theorem exec_heldPostTimeout_kept h (s : State) :
    ∃ s', exec (.heldPostTimeout h) s = .next s' ∧ Kept (touches (.heldPostTimeout h)) s s' := by
  refine ⟨_, rfl, ?_⟩
  show Kept [.hides] s _
  repeat' (first
    | with_reducible exact Kept.refl _ _ | (with_reducible show (_ : List Part) ⊆ _; decide)
    | (with_reducible apply Kept.andThen (heldPostTimeout_kept _ _)) | split | intro _)

theorem exec_queuePointerMismatch_kept h kind ring (s : State) :
    ∃ s', exec (.queuePointerMismatch h kind ring) s = .next s' ∧ Kept (touches (.queuePointerMismatch h kind ring)) s s' := by
  refine ⟨_, rfl, ?_⟩
  show Kept [.hides, .imem, .gates, .mgmt, .box] s _
  repeat' (first
    | with_reducible exact Kept.refl _ _ | (with_reducible show (_ : List Part) ⊆ _; decide)
    | (with_reducible apply Kept.andThen (queuePointerMismatch_kept _ _ _ _)) | split | intro _)

theorem exec_admitSeq_kept h c e (s : State) :
    ∃ s', exec (.admitSeq h c e) s = .next s' ∧ Kept (touches (.admitSeq h c e)) s s' := by
  refine ⟨_, rfl, ?_⟩
  show Kept [.regions, .clusters, .plan, .hides, .gates, .mgmt, .box, .screen] s _
  repeat' (first
    | with_reducible exact Kept.refl _ _ | (with_reducible show (_ : List Part) ⊆ _; decide)
    | (with_reducible apply Kept.andThen (admitSeqWork_kept _ _ _ _ _))
    | (with_reducible apply Kept.after (State.admit_kept _ _ _ _ _ _ _ ?_ (fun _ _ _ => ?_))) | split | intro _)

theorem exec_admitSeqExtend_kept h c e (s : State) :
    ∃ s', exec (.admitSeqExtend h c e) s = .next s' ∧ Kept (touches (.admitSeqExtend h c e)) s s' := by
  refine ⟨_, rfl, ?_⟩
  show Kept [.regions, .clusters, .plan, .hides, .gates, .mgmt, .box, .screen] s _
  repeat' (first
    | with_reducible exact Kept.refl _ _ | (with_reducible show (_ : List Part) ⊆ _; decide)
    | (with_reducible apply Kept.andThen (extendWork_kept _ _ _ _ _))
    | (with_reducible apply Kept.after (State.admit_kept _ _ _ _ _ _ _ ?_ (fun _ _ _ => ?_))) | split | intro _)

theorem exec_retireSeq_kept h c e (s : State) :
    ∃ s', exec (.retireSeq h c e) s = .next s' ∧ Kept (touches (.retireSeq h c e)) s s' := by
  refine ⟨_, rfl, ?_⟩
  show Kept [.regions, .clusters, .plan, .hides, .gates, .mgmt, .box, .screen] s _
  repeat' (first
    | with_reducible exact Kept.refl _ _ | (with_reducible show (_ : List Part) ⊆ _; decide)
    | (with_reducible apply Kept.andThen (retireWork_kept _ _ _ _ _))
    | (with_reducible apply Kept.after (State.admit_kept _ _ _ _ _ _ _ ?_ (fun _ _ _ => ?_))) | split | intro _)

theorem exec_forkPrefix_kept h c e (s : State) :
    ∃ s', exec (.forkPrefix h c e) s = .next s' ∧ Kept (touches (.forkPrefix h c e)) s s' := by
  refine ⟨_, rfl, ?_⟩
  show Kept [.regions, .clusters, .plan, .hides, .gates, .mgmt, .box, .screen] s _
  repeat' (first
    | with_reducible exact Kept.refl _ _ | (with_reducible show (_ : List Part) ⊆ _; decide)
    | (with_reducible apply Kept.andThen (forkWork_kept _ _ _ _ _))
    | (with_reducible apply Kept.after (State.admit_kept _ _ _ _ _ _ _ ?_ (fun _ _ _ => ?_))) | split | intro _)

theorem exec_lookupPrefix_kept h c e (s : State) :
    ∃ s', exec (.lookupPrefix h c e) s = .next s' ∧ Kept (touches (.lookupPrefix h c e)) s s' := by
  refine ⟨_, rfl, ?_⟩
  show Kept [.regions, .clusters, .plan, .hides, .gates, .mgmt, .box, .screen] s _
  repeat' (first
    | with_reducible exact Kept.refl _ _ | (with_reducible show (_ : List Part) ⊆ _; decide)
    | (with_reducible apply Kept.andThen (lookupWork_kept _ _ _ _ _ _))
    | (with_reducible apply Kept.after (State.admit_kept _ _ _ _ _ _ _ ?_ (fun _ _ _ => ?_))) | split | intro _)

theorem exec_lookupPrefixContinue_kept h c e (s : State) :
    ∃ s', exec (.lookupPrefixContinue h c e) s = .next s' ∧ Kept (touches (.lookupPrefixContinue h c e)) s s' := by
  refine ⟨_, rfl, ?_⟩
  show Kept [.regions, .clusters, .plan, .hides, .mgmt, .box, .screen] s _
  repeat' (first
    | with_reducible exact Kept.refl _ _ | (with_reducible show (_ : List Part) ⊆ _; decide)
    | (with_reducible apply Kept.andThen (lookupContinue_kept _ _ _ _)) | split | intro _)

theorem exec_hashLaneDone_kept h (s : State) :
    ∃ s', exec (.hashLaneDone h) s = .next s' ∧ Kept (touches (.hashLaneDone h)) s s' := by
  refine ⟨_, rfl, ?_⟩
  show Kept [.hides] s _
  repeat' (first
    | with_reducible exact Kept.refl _ _ | (with_reducible show (_ : List Part) ⊆ _; decide)
    | (with_reducible apply Kept.andThen (hashLaneDone_kept _ _)) | split | intro _)

theorem exec_publishPrefixCreate_kept h c e (s : State) :
    ∃ s', exec (.publishPrefixCreate h c e) s = .next s' ∧ Kept (touches (.publishPrefixCreate h c e)) s s' := by
  refine ⟨_, rfl, ?_⟩
  show Kept [.regions, .clusters, .plan, .hides, .gates, .ports, .mgmt, .box, .screen] s _
  repeat' (first
    | with_reducible exact Kept.refl _ _ | (with_reducible show (_ : List Part) ⊆ _; decide)
    | (with_reducible apply Kept.andThen (createWork_kept _ _ _ _ _ _))
    | (with_reducible apply Kept.andThen (createStep_kept _ _ _ _ _))
    | (with_reducible apply Kept.after (State.run_kept _ _ _ _ _ _ _ ?_ (fun _ _ => ?_) (fun _ _ _ => ?_))) | split | intro _)

theorem exec_publishPrefixPromote_kept h c e (s : State) :
    ∃ s', exec (.publishPrefixPromote h c e) s = .next s' ∧ Kept (touches (.publishPrefixPromote h c e)) s s' := by
  refine ⟨_, rfl, ?_⟩
  show Kept [.regions, .clusters, .plan, .hides, .gates, .ports, .mgmt, .box, .screen] s _
  repeat' (first
    | with_reducible exact Kept.refl _ _ | (with_reducible show (_ : List Part) ⊆ _; decide)
    | (with_reducible apply Kept.andThen (promoteWork_kept _ _ _ _ _ _))
    | (with_reducible apply Kept.andThen (promoteStep_kept _ _ _ _ _))
    | (with_reducible apply Kept.after (State.run_kept _ _ _ _ _ _ _ ?_ (fun _ _ => ?_) (fun _ _ _ => ?_))) | split | intro _)

theorem exec_publishPrefixWithdraw_kept h c e (s : State) :
    ∃ s', exec (.publishPrefixWithdraw h c e) s = .next s' ∧ Kept (touches (.publishPrefixWithdraw h c e)) s s' := by
  refine ⟨_, rfl, ?_⟩
  show Kept [.regions, .clusters, .plan, .hides, .gates, .mgmt, .box, .screen] s _
  repeat' (first
    | with_reducible exact Kept.refl _ _ | (with_reducible show (_ : List Part) ⊆ _; decide)
    | (with_reducible apply Kept.andThen (withdrawWork_kept _ _ _ _ _))
    | (with_reducible apply Kept.after (State.admit_kept _ _ _ _ _ _ _ ?_ (fun _ _ _ => ?_))) | split | intro _)

theorem exec_stepDecode_kept h c e (s : State) :
    ∃ s', exec (.stepDecode h c e) s = .next s' ∧ Kept (touches (.stepDecode h c e)) s s' := by
  refine ⟨_, rfl, ?_⟩
  show Kept [.regions, .clusters, .plan, .hides, .gates, .mgmt, .box, .screen] s _
  repeat' (first
    | with_reducible exact Kept.refl _ _ | (with_reducible show (_ : List Part) ⊆ _; decide)
    | (with_reducible apply Kept.andThen (State.stepRow_kept _ _ _ _ _ _ _)) | split | intro _)

theorem exec_fetchArrival_kept h fetch (s : State) :
    ∃ s', exec (.fetchArrival h fetch) s = .next s' ∧ Kept (touches (.fetchArrival h fetch)) s s' := by
  refine ⟨_, rfl, ?_⟩
  show Kept [.hides, .imem, .gates, .ports] s _
  repeat' (first
    | with_reducible exact Kept.refl _ _ | (with_reducible show (_ : List Part) ⊆ _; decide)
    | (with_reducible apply Kept.andThen (fetchArrival_kept _ _ _)) | split | intro _)

theorem exec_fetchDeadline_kept h fetch (s : State) :
    ∃ s', exec (.fetchDeadline h fetch) s = .next s' ∧ Kept (touches (.fetchDeadline h fetch)) s s' := by
  refine ⟨_, rfl, ?_⟩
  show Kept [.hides, .gates] s _
  repeat' (first
    | with_reducible exact Kept.refl _ _ | (with_reducible show (_ : List Part) ⊆ _; decide)
    | (with_reducible apply Kept.andThen (fetchDeadline_kept _ _ _)) | split | intro _)

theorem exec_deferReentry_kept h c e (s : State) :
    ∃ s', exec (.deferReentry h c e) s = .next s' ∧ Kept (touches (.deferReentry h c e)) s s' := by
  refine ⟨_, rfl, ?_⟩
  show Kept [.regions, .clusters, .plan, .hides, .gates, .mgmt, .box, .screen] s _
  repeat' (first
    | with_reducible exact Kept.refl _ _ | (with_reducible show (_ : List Part) ⊆ _; decide)
    | (with_reducible apply Kept.andThen (deferReentry_kept _ _ _ _)) | split | intro _)

theorem exec_stepPrefill_kept h c e (s : State) :
    ∃ s', exec (.stepPrefill h c e) s = .next s' ∧ Kept (touches (.stepPrefill h c e)) s s' := by
  refine ⟨_, rfl, ?_⟩
  show Kept [.regions, .clusters, .plan, .hides, .gates, .mgmt, .box, .screen] s _
  repeat' (first
    | with_reducible exact Kept.refl _ _ | (with_reducible show (_ : List Part) ⊆ _; decide)
    | (with_reducible apply Kept.andThen (State.stepRow_kept _ _ _ _ _ _ _)) | split | intro _)

theorem exec_stepBackward_kept h c e (s : State) :
    ∃ s', exec (.stepBackward h c e) s = .next s' ∧ Kept (touches (.stepBackward h c e)) s s' := by
  refine ⟨_, rfl, ?_⟩
  show Kept [.regions, .clusters, .plan, .hides, .gates, .mgmt, .box, .screen] s _
  repeat' (first
    | with_reducible exact Kept.refl _ _ | (with_reducible show (_ : List Part) ⊆ _; decide)
    | (with_reducible apply Kept.andThen (State.stepRow_kept _ _ _ _ _ _ _)) | split | intro _)

theorem exec_projectAppend_kept h c e (s : State) :
    ∃ s', exec (.projectAppend h c e) s = .next s' ∧ Kept (touches (.projectAppend h c e)) s s' := by
  refine ⟨_, rfl, ?_⟩
  show Kept [.regions, .clusters, .plan, .hides, .gates, .mgmt, .box, .screen] s _
  repeat' (first
    | with_reducible exact Kept.refl _ _ | (with_reducible show (_ : List Part) ⊆ _; decide)
    | (with_reducible apply Kept.andThen (appendWork_kept _ _ _ _ _))
    | (with_reducible apply Kept.after (State.admit_kept _ _ _ _ _ _ _ ?_ (fun _ _ _ => ?_))) | split | intro _)

theorem exec_recode_kept h c e (s : State) :
    ∃ s', exec (.recode h c e) s = .next s' ∧ Kept (touches (.recode h c e)) s s' := by
  refine ⟨_, rfl, ?_⟩
  show Kept [.clusters, .hides, .screen] s _
  repeat' (first
    | with_reducible exact Kept.refl _ _ | (with_reducible show (_ : List Part) ⊆ _; decide)
    | (with_reducible apply Kept.andThen (recodeNow_kept _ _ _ _)) | split | intro _)

theorem exec_stateStep_kept h c e (s : State) :
    ∃ s', exec (.stateStep h c e) s = .next s' ∧ Kept (touches (.stateStep h c e)) s s' := by
  refine ⟨_, rfl, ?_⟩
  show Kept [.regions, .clusters, .plan, .hides, .gates, .mgmt, .box, .screen] s _
  repeat' (first
    | with_reducible exact Kept.refl _ _ | (with_reducible show (_ : List Part) ⊆ _; decide)
    | (with_reducible apply Kept.andThen (stateWork_kept _ _ _ _ _))
    | (with_reducible apply Kept.after (State.admit_kept _ _ _ _ _ _ _ ?_ (fun _ _ _ => ?_))) | split | intro _)

theorem exec_scoreTopk_kept h c e (s : State) :
    ∃ s', exec (.scoreTopk h c e) s = .next s' ∧ Kept (touches (.scoreTopk h c e)) s s' := by
  refine ⟨_, rfl, ?_⟩
  show Kept [.regions, .clusters, .plan, .hides, .gates, .mgmt, .box, .screen] s _
  repeat' (first
    | with_reducible exact Kept.refl _ _ | (with_reducible show (_ : List Part) ⊆ _; decide)
    | (with_reducible apply Kept.andThen (scoreWork_kept _ _ _ _ _))
    | (with_reducible apply Kept.after (State.admit_kept _ _ _ _ _ _ _ ?_ (fun _ _ _ => ?_))) | split | intro _)

theorem exec_place_kept h c e (s : State) :
    ∃ s', exec (.place h c e) s = .next s' ∧ Kept (touches (.place h c e)) s s' := by
  refine ⟨_, rfl, ?_⟩
  show Kept [.regions, .clusters, .plan, .hides, .gates, .ports, .mgmt, .box, .screen] s _
  repeat' (first
    | with_reducible exact Kept.refl _ _ | (with_reducible show (_ : List Part) ⊆ _; decide)
    | (with_reducible apply Kept.andThen (placeWork_kept _ _ _ _ _ _))
    | (with_reducible apply Kept.andThen (placeGo_kept _ _ _ _ _))
    | (with_reducible apply Kept.after (State.run_kept _ _ _ _ _ _ _ ?_ (fun _ _ => ?_) (fun _ _ _ => ?_))) | split | intro _)

theorem exec_swapOut_kept h c e (s : State) :
    ∃ s', exec (.swapOut h c e) s = .next s' ∧ Kept (touches (.swapOut h c e)) s s' := by
  refine ⟨_, rfl, ?_⟩
  show Kept [.regions, .clusters, .plan, .hides, .gates, .ports, .mgmt, .box, .screen] s _
  repeat' (first
    | with_reducible exact Kept.refl _ _ | (with_reducible show (_ : List Part) ⊆ _; decide)
    | (with_reducible apply Kept.andThen (swapOutWork_kept _ _ _ _ _ _))
    | (with_reducible apply Kept.andThen (swapOutStep_kept _ _ _ _ _))
    | (with_reducible apply Kept.after (State.run_kept _ _ _ _ _ _ _ ?_ (fun _ _ => ?_) (fun _ _ _ => ?_))) | split | intro _)

theorem exec_swapIn_kept h c e (s : State) :
    ∃ s', exec (.swapIn h c e) s = .next s' ∧ Kept (touches (.swapIn h c e)) s s' := by
  refine ⟨_, rfl, ?_⟩
  show Kept [.regions, .clusters, .plan, .hides, .gates, .ports, .mgmt, .box, .screen] s _
  repeat' (first
    | with_reducible exact Kept.refl _ _ | (with_reducible show (_ : List Part) ⊆ _; decide)
    | (with_reducible apply Kept.andThen (swapInWork_kept _ _ _ _ _))
    | (with_reducible apply Kept.andThen (swapInStep_kept _ _ _ _ _))
    | (with_reducible apply Kept.after (State.run_kept _ _ _ _ _ _ _ ?_ (fun _ _ => ?_) (fun _ _ _ => ?_))) | split | intro _)

theorem exec_evictScore_kept h c e (s : State) :
    ∃ s', exec (.evictScore h c e) s = .next s' ∧ Kept (touches (.evictScore h c e)) s s' := by
  refine ⟨_, rfl, ?_⟩
  show Kept [.regions, .clusters, .plan, .hides, .gates, .mgmt, .box, .screen] s _
  repeat' (first
    | with_reducible exact Kept.refl _ _ | (with_reducible show (_ : List Part) ⊆ _; decide)
    | (with_reducible apply Kept.andThen (evictScoreWork_kept _ _ _ _ _))
    | (with_reducible apply Kept.after (State.admit_kept _ _ _ _ _ _ _ ?_ (fun _ _ _ => ?_))) | split | intro _)

theorem exec_deliverPages_kept h c e (s : State) :
    ∃ s', exec (.deliverPages h c e) s = .next s' ∧ Kept (touches (.deliverPages h c e)) s s' := by
  refine ⟨_, rfl, ?_⟩
  show Kept [.regions, .clusters, .plan, .hides, .gates, .mgmt, .box, .screen] s _
  repeat' (first
    | with_reducible exact Kept.refl _ _ | (with_reducible show (_ : List Part) ⊆ _; decide)
    | (with_reducible apply Kept.andThen (deliverWork_kept _ _ _ _ _ _))
    | (with_reducible apply Kept.after (State.admit_kept _ _ _ _ _ _ _ ?_ (fun _ _ _ => ?_)))
    | (with_reducible apply Kept.andThen (deliverStep_kept _ _ _ _ _)) | split | intro _)

theorem exec_deliverDeadline_kept h (s : State) :
    ∃ s', exec (.deliverDeadline h) s = .next s' ∧ Kept (touches (.deliverDeadline h)) s s' := by
  refine ⟨_, rfl, ?_⟩
  show Kept [.regions, .clusters, .plan, .hides, .gates, .mgmt, .box, .screen] s _
  repeat' (first
    | with_reducible exact Kept.refl _ _ | (with_reducible show (_ : List Part) ⊆ _; decide)
    | (with_reducible apply Kept.andThen (deliverDeadline_kept _ _)) | split | intro _)

theorem exec_loadCodebook_kept h c e (s : State) :
    ∃ s', exec (.loadCodebook h c e) s = .next s' ∧ Kept (touches (.loadCodebook h c e)) s s' := by
  refine ⟨_, rfl, ?_⟩
  show Kept [.regions, .clusters, .plan, .hides, .gates, .ports, .mgmt, .box, .screen] s _
  repeat' (first
    | with_reducible exact Kept.refl _ _ | (with_reducible show (_ : List Part) ⊆ _; decide)
    | (with_reducible apply Kept.andThen (loadBookWork_kept _ _ _ _ _))
    | (with_reducible apply Kept.andThen (loadBookStep_kept _ _ _ _ _))
    | (with_reducible apply Kept.after (State.run_kept _ _ _ _ _ _ _ ?_ (fun _ _ => ?_) (fun _ _ _ => ?_))) | split | intro _)

theorem exec_retireCodebook_kept h c e (s : State) :
    ∃ s', exec (.retireCodebook h c e) s = .next s' ∧ Kept (touches (.retireCodebook h c e)) s s' := by
  refine ⟨_, rfl, ?_⟩
  show Kept [.regions, .clusters, .plan, .hides, .gates, .mgmt, .box, .screen] s _
  repeat' (first
    | with_reducible exact Kept.refl _ _ | (with_reducible show (_ : List Part) ⊆ _; decide)
    | (with_reducible apply Kept.andThen (retireBookWork_kept _ _ _ _ _))
    | (with_reducible apply Kept.after (State.admit_kept _ _ _ _ _ _ _ ?_ (fun _ _ _ => ?_))) | split | intro _)

theorem exec_codebookSlotReload_kept h key c ok (s : State) :
    ∃ s', exec (.codebookSlotReload h key c ok) s = .next s' ∧ Kept (touches (.codebookSlotReload h key c ok)) s s' := by
  refine ⟨_, rfl, ?_⟩
  show Kept [.hides] s _
  repeat' (first
    | with_reducible exact Kept.refl _ _ | (with_reducible show (_ : List Part) ⊆ _; decide)
    | (with_reducible apply Kept.andThen (codebookSlotReload_kept _ _ _ _ _)) | split | intro _)

theorem exec_loadWeights_kept h c e (s : State) :
    ∃ s', exec (.loadWeights h c e) s = .next s' ∧ Kept (touches (.loadWeights h c e)) s s' := by
  refine ⟨_, rfl, ?_⟩
  show Kept [.regions, .clusters, .plan, .hides, .gates, .ports, .mgmt, .box, .screen] s _
  repeat' (first
    | with_reducible exact Kept.refl _ _ | (with_reducible show (_ : List Part) ⊆ _; decide)
    | (with_reducible apply Kept.andThen (loadSetWork_kept _ _ _ _ _))
    | (with_reducible apply Kept.andThen (loadSetStep_kept _ _ _ _ _))
    | (with_reducible apply Kept.after (State.run_kept _ _ _ _ _ _ _ ?_ (fun _ _ => ?_) (fun _ _ _ => ?_))) | split | intro _)

theorem exec_loadWeightsRetire_kept h c e (s : State) :
    ∃ s', exec (.loadWeightsRetire h c e) s = .next s' ∧ Kept (touches (.loadWeightsRetire h c e)) s s' := by
  refine ⟨_, rfl, ?_⟩
  show Kept [.regions, .clusters, .plan, .hides, .gates, .mgmt, .box, .screen] s _
  repeat' (first
    | with_reducible exact Kept.refl _ _ | (with_reducible show (_ : List Part) ⊆ _; decide)
    | (with_reducible apply Kept.andThen (retireSetWork_kept _ _ _ _ _))
    | (with_reducible apply Kept.after (State.admit_kept _ _ _ _ _ _ _ ?_ (fun _ _ _ => ?_))) | split | intro _)

theorem exec_txnBegin_kept h (s : State) :
    ∃ s', exec (.txnBegin h) s = .next s' ∧ Kept (touches (.txnBegin h)) s s' := by
  refine ⟨_, rfl, ?_⟩
  show Kept [.hides, .imem, .gates] s _
  repeat' (first
    | with_reducible exact Kept.refl _ _ | (with_reducible show (_ : List Part) ⊆ _; decide)
    | (with_reducible apply Kept.andThen (beginWork_kept _ _ _))
    | (with_reducible apply Kept.after (State.takeMarker_kept _ _ _ _ ?_ (fun _ _ => ?_))) | split | intro _)

theorem exec_txnCommit_kept h (s : State) :
    ∃ s', exec (.txnCommit h) s = .next s' ∧ Kept (touches (.txnCommit h)) s s' := by
  refine ⟨_, rfl, ?_⟩
  show Kept [.hides, .imem, .gates] s _
  repeat' (first
    | with_reducible exact Kept.refl _ _ | (with_reducible show (_ : List Part) ⊆ _; decide)
    | (with_reducible apply Kept.andThen (closeWork_kept _ _ _ _))
    | (with_reducible apply Kept.after (State.takeMarker_kept _ _ _ _ ?_ (fun _ _ => ?_))) | split | intro _)

theorem exec_txnAbort_kept h (s : State) :
    ∃ s', exec (.txnAbort h) s = .next s' ∧ Kept (touches (.txnAbort h)) s s' := by
  refine ⟨_, rfl, ?_⟩
  show Kept [.hides, .imem, .gates] s _
  repeat' (first
    | with_reducible exact Kept.refl _ _ | (with_reducible show (_ : List Part) ⊆ _; decide)
    | (with_reducible apply Kept.andThen (closeWork_kept _ _ _ _))
    | (with_reducible apply Kept.after (State.takeMarker_kept _ _ _ _ ?_ (fun _ _ => ?_))) | split | intro _)

theorem exec_txnDecision_kept h txn (s : State) :
    ∃ s', exec (.txnDecision h txn) s = .next s' ∧ Kept (touches (.txnDecision h txn)) s s' := by
  refine ⟨_, rfl, ?_⟩
  show Kept [.hides, .gates, .ports] s _
  repeat' (first
    | with_reducible exact Kept.refl _ _ | (with_reducible show (_ : List Part) ⊆ _; decide)
    | (with_reducible apply Kept.andThen (txnDecision_kept _ _ _)) | split | intro _)

theorem exec_txnTimeout_kept h ring (s : State) :
    ∃ s', exec (.txnTimeout h ring) s = .next s' ∧ Kept (touches (.txnTimeout h ring)) s s' := by
  refine ⟨_, rfl, ?_⟩
  show Kept [.hides, .imem, .gates] s _
  repeat' (first
    | with_reducible exact Kept.refl _ _ | (with_reducible show (_ : List Part) ⊆ _; decide)
    | (with_reducible apply Kept.andThen (txnTimeout_kept _ _ _)) | split | intro _)

theorem exec_dropRest_kept h (s : State) :
    ∃ s', exec (.dropRest h) s = .next s' ∧ Kept (touches (.dropRest h)) s s' := by
  refine ⟨_, rfl, ?_⟩
  show Kept [.hides, .imem, .gates] s _
  repeat' (first
    | with_reducible exact Kept.refl _ _ | (with_reducible show (_ : List Part) ⊆ _; decide)
    | (with_reducible apply Kept.andThen (dropWork_kept _ _ _))
    | (with_reducible apply Kept.after (State.takeMarker_kept _ _ _ _ ?_ (fun _ _ => ?_))) | split | intro _)

theorem exec_replayStart_kept r (s : State) :
    ∃ s', exec (.replayStart r) s = .next s' ∧ Kept (touches (.replayStart r)) s s' := by
  refine ⟨_, rfl, ?_⟩
  show Kept [.clusters, .plan, .hides, .imem, .gates, .ports, .mgmt, .box, .screen] s _
  repeat' (first
    | with_reducible exact Kept.refl _ _ | (with_reducible show (_ : List Part) ⊆ _; decide)
    | (with_reducible apply Kept.andThen (replayStart_kept _ _)) | split | intro _)

theorem exec_replayResult_kept replay out (s : State) :
    ∃ s', exec (.replayResult replay out) s = .next s' ∧ Kept (touches (.replayResult replay out)) s s' := by
  refine ⟨_, rfl, ?_⟩
  show Kept [.clusters, .plan, .hides, .imem, .gates, .ports, .mgmt, .box, .screen] s _
  repeat' (first
    | with_reducible exact Kept.refl _ _ | (with_reducible show (_ : List Part) ⊆ _; decide)
    | (with_reducible apply Kept.andThen (replayResult_kept _ _ _)) | split | intro _)

theorem exec_dramCorrectiveWriteback_kept c (s : State) :
    ∃ s', exec (.dramCorrectiveWriteback c) s = .next s' ∧ Kept (touches (.dramCorrectiveWriteback c)) s s' := by
  refine ⟨_, rfl, ?_⟩
  show Kept [.clusters] s _
  repeat' (first
    | with_reducible exact Kept.refl _ _ | (with_reducible show (_ : List Part) ⊆ _; decide)
    | (with_reducible apply Kept.andThen (dramWriteback_kept _ _)) | split | intro _)

theorem exec_dmaReadCompletion_kept h tag result (s : State) :
    ∃ s', exec (.dmaReadCompletion h tag result) s = .next s' ∧ Kept (touches (.dmaReadCompletion h tag result)) s s' := by
  refine ⟨_, rfl, ?_⟩
  show Kept [.hides, .imem, .gates] s _
  repeat' (first
    | with_reducible exact Kept.refl _ _ | (with_reducible show (_ : List Part) ⊆ _; decide)
    | (with_reducible apply Kept.andThen (dmaCompletion_kept _ _ _ _)) | split | intro _)

theorem exec_dmaReadTimeout_kept h tag (s : State) :
    ∃ s', exec (.dmaReadTimeout h tag) s = .next s' ∧ Kept (touches (.dmaReadTimeout h tag)) s s' := by
  refine ⟨_, rfl, ?_⟩
  show Kept [.hides, .imem, .gates] s _
  repeat' (first
    | with_reducible exact Kept.refl _ _ | (with_reducible show (_ : List Part) ⊆ _; decide)
    | (with_reducible apply Kept.andThen (dmaTimeout_kept _ _ _)) | split | intro _)

theorem exec_lease_kept h v (s : State) :
    ∃ s', exec (.lease h v) s = .next s' ∧ Kept (touches (.lease h v)) s s' := by
  refine ⟨_, rfl, ?_⟩
  show Kept [.hides, .acres, .gates, .mgmt, .box] s _
  repeat' (first
    | with_reducible exact Kept.refl _ _ | (with_reducible show (_ : List Part) ⊆ _; decide)
    | (with_reducible apply Kept.andThen (leaseRow_kept _ _ _ _)) | split | intro _)

theorem exec_release_kept h v (s : State) :
    ∃ s', exec (.release h v) s = .next s' ∧ Kept (touches (.release h v)) s s' := by
  refine ⟨_, rfl, ?_⟩
  show Kept [.hides, .acres, .gates, .mgmt, .box] s _
  repeat' (first
    | with_reducible exact Kept.refl _ _ | (with_reducible show (_ : List Part) ⊆ _; decide)
    | (with_reducible apply Kept.andThen (leaseRow_kept _ _ _ _)) | split | intro _)

theorem exec_sealAcre_kept h v (s : State) :
    ∃ s', exec (.sealAcre h v) s = .next s' ∧ Kept (touches (.sealAcre h v)) s s' := by
  refine ⟨_, rfl, ?_⟩
  show Kept [.hides, .acres, .gates, .mgmt, .box] s _
  repeat' (first
    | with_reducible exact Kept.refl _ _ | (with_reducible show (_ : List Part) ⊆ _; decide)
    | (with_reducible apply Kept.andThen (leaseRow_kept _ _ _ _)) | split | intro _)

theorem exec_grant_kept h v (s : State) :
    ∃ s', exec (.grant h v) s = .next s' ∧ Kept (touches (.grant h v)) s s' := by
  refine ⟨_, rfl, ?_⟩
  show Kept [.hides, .acres, .gates, .mgmt, .box] s _
  repeat' (first
    | with_reducible exact Kept.refl _ _ | (with_reducible show (_ : List Part) ⊆ _; decide)
    | (with_reducible apply Kept.andThen (leaseRow_kept _ _ _ _)) | split | intro _)

theorem exec_attach_kept h v (s : State) :
    ∃ s', exec (.attach h v) s = .next s' ∧ Kept (touches (.attach h v)) s s' := by
  refine ⟨_, rfl, ?_⟩
  show Kept [.hides, .acres, .gates, .mgmt, .box] s _
  repeat' (first
    | with_reducible exact Kept.refl _ _ | (with_reducible show (_ : List Part) ⊆ _; decide)
    | (with_reducible apply Kept.andThen (leaseRow_kept _ _ _ _)) | split | intro _)

theorem exec_revoke_kept h v (s : State) :
    ∃ s', exec (.revoke h v) s = .next s' ∧ Kept (touches (.revoke h v)) s s' := by
  refine ⟨_, rfl, ?_⟩
  show Kept [.hides, .acres, .gates, .mgmt, .box] s _
  repeat' (first
    | with_reducible exact Kept.refl _ _ | (with_reducible show (_ : List Part) ⊆ _; decide)
    | (with_reducible apply Kept.andThen (leaseRow_kept _ _ _ _)) | split | intro _)

theorem exec_leaseRecallComplete_kept h (s : State) :
    ∃ s', exec (.leaseRecallComplete h) s = .next s' ∧ Kept (touches (.leaseRecallComplete h)) s s' := by
  refine ⟨_, rfl, ?_⟩
  show Kept [.hides, .mgmt, .box] s _
  repeat' (first
    | with_reducible exact Kept.refl _ _ | (with_reducible show (_ : List Part) ⊆ _; decide)
    | (with_reducible apply Kept.andThen (leaseRecallComplete_kept _ _)) | split | intro _)

theorem exec_acRenew_kept h mask (s : State) :
    ∃ s', exec (.acRenew h mask) s = .next s' ∧ Kept (touches (.acRenew h mask)) s s' := by
  refine ⟨_, rfl, ?_⟩
  show Kept [.hides] s _
  repeat' (first
    | with_reducible exact Kept.refl _ _ | (with_reducible show (_ : List Part) ⊆ _; decide)
    | (with_reducible apply Kept.andThen (acRenew_kept _ _ _)) | split | intro _)

theorem exec_leaseExpiry_kept h slot (s : State) :
    ∃ s', exec (.leaseExpiry h slot) s = .next s' ∧ Kept (touches (.leaseExpiry h slot)) s s' := by
  refine ⟨_, rfl, ?_⟩
  show Kept [.hides, .acres, .gates, .mgmt, .box] s _
  repeat' (first
    | with_reducible exact Kept.refl _ _ | (with_reducible show (_ : List Part) ⊆ _; decide)
    | (with_reducible apply Kept.andThen (leaseExpiry_kept _ _ _)) | split | intro _)

theorem exec_leaseDrainComplete_kept h slot (s : State) :
    ∃ s', exec (.leaseDrainComplete h slot) s = .next s' ∧ Kept (touches (.leaseDrainComplete h slot)) s s' := by
  refine ⟨_, rfl, ?_⟩
  show Kept [.hides, .acres, .mgmt, .box] s _
  repeat' (first
    | with_reducible exact Kept.refl _ _ | (with_reducible show (_ : List Part) ⊆ _; decide)
    | (with_reducible apply Kept.andThen (leaseDrain_kept _ _ _)) | split | intro _)

theorem exec_acreScrubComplete_kept h slot (s : State) :
    ∃ s', exec (.acreScrubComplete h slot) s = .next s' ∧ Kept (touches (.acreScrubComplete h slot)) s s' := by
  refine ⟨_, rfl, ?_⟩
  show Kept [.hides, .acres, .mgmt, .box] s _
  repeat' (first
    | with_reducible exact Kept.refl _ _ | (with_reducible show (_ : List Part) ⊆ _; decide)
    | (with_reducible apply Kept.andThen (acreScrub_kept _ _ _)) | split | intro _)

theorem exec_acreRequestServe_kept h (s : State) :
    ∃ s', exec (.acreRequestServe h) s = .next s' ∧ Kept (touches (.acreRequestServe h)) s s' := by
  refine ⟨_, rfl, ?_⟩
  show Kept [.hides, .acres, .gates] s _
  repeat' (first
    | with_reducible exact Kept.refl _ _ | (with_reducible show (_ : List Part) ⊆ _; decide)
    | (with_reducible apply Kept.andThen (acreServe_kept _ _)) | split | intro _)

theorem exec_biSnoopResponse_kept h off data (s : State) :
    ∃ s', exec (.biSnoopResponse h off data) s = .next s' ∧ Kept (touches (.biSnoopResponse h off data)) s s' := by
  refine ⟨_, rfl, ?_⟩
  show Kept [.hides, .imem, .acres] s _
  repeat' (first
    | with_reducible exact Kept.refl _ _ | (with_reducible show (_ : List Part) ⊆ _; decide)
    | (with_reducible apply Kept.andThen (snoopResponse_kept _ _ _ _)) | split | intro _)

theorem exec_biSnoopTimeout_kept h off (s : State) :
    ∃ s', exec (.biSnoopTimeout h off) s = .next s' ∧ Kept (touches (.biSnoopTimeout h off)) s s' := by
  refine ⟨_, rfl, ?_⟩
  show Kept [.hides, .acres, .gates, .mgmt, .box] s _
  repeat' (first
    | with_reducible exact Kept.refl _ _ | (with_reducible show (_ : List Part) ⊆ _; decide)
    | (with_reducible apply Kept.andThen (snoopTimeout_kept _ _ _)) | split | intro _)

theorem exec_poisonMarkWrite_kept acre line (s : State) :
    ∃ s', exec (.poisonMarkWrite acre line) s = .next s' ∧ Kept (touches (.poisonMarkWrite acre line)) s s' := by
  refine ⟨_, rfl, ?_⟩
  show Kept [.acres] s _
  repeat' (first
    | with_reducible exact Kept.refl _ _ | (with_reducible show (_ : List Part) ⊆ _; decide)
    | (with_reducible apply Kept.andThen (poisonMarkWrite_kept _ _ _)) | split | intro _)

theorem exec_hdmDecoderCommit_kept ld size ways base lock (s : State) :
    ∃ s', exec (.hdmDecoderCommit ld size ways base lock) s = .next s' ∧ Kept (touches (.hdmDecoderCommit ld size ways base lock)) s s' := by
  refine ⟨_, rfl, ?_⟩
  show Kept [.hides, .imem, .gates, .cxl, .ports, .dex, .screen] s _
  repeat' (first
    | with_reducible exact Kept.refl _ _ | (with_reducible show (_ : List Part) ⊆ _; decide)
    | (with_reducible apply Kept.andThen (decoderCommit_kept _ _ _ _ _ _)) | split | intro _)

theorem exec_ringEnable_kept h kind ring ctl (s : State) :
    ∃ s', exec (.ringEnable h kind ring ctl) s = .next s' ∧ Kept (touches (.ringEnable h kind ring ctl)) s s' := by
  refine ⟨_, rfl, ?_⟩
  show Kept [.hides, .imem, .gates] s _
  repeat' (first
    | with_reducible exact Kept.refl _ _ | (with_reducible show (_ : List Part) ⊆ _; decide)
    | (with_reducible apply Kept.andThen (ringEnable_kept _ _ _ _ _)) | split | intro _)

theorem exec_ringDisable_kept h kind ring ctl (s : State) :
    ∃ s', exec (.ringDisable h kind ring ctl) s = .next s' ∧ Kept (touches (.ringDisable h kind ring ctl)) s s' := by
  refine ⟨_, rfl, ?_⟩
  show Kept [.hides] s _
  repeat' (first
    | with_reducible exact Kept.refl _ _ | (with_reducible show (_ : List Part) ⊆ _; decide)
    | (with_reducible apply Kept.andThen (ringDisable_kept _ _ _ _ _)) | split | intro _)

theorem exec_bufferEnable_kept h b ctl (s : State) :
    ∃ s', exec (.bufferEnable h b ctl) s = .next s' ∧ Kept (touches (.bufferEnable h b ctl)) s s' := by
  refine ⟨_, rfl, ?_⟩
  show Kept [.hides] s _
  repeat' (first
    | with_reducible exact Kept.refl _ _ | (with_reducible show (_ : List Part) ⊆ _; decide)
    | (with_reducible apply Kept.andThen (bufferEnable_kept _ _ _ _)) | split | intro _)

theorem exec_bufferDisable_kept h b ctl (s : State) :
    ∃ s', exec (.bufferDisable h b ctl) s = .next s' ∧ Kept (touches (.bufferDisable h b ctl)) s s' := by
  refine ⟨_, rfl, ?_⟩
  show Kept [.hides] s _
  repeat' (first
    | with_reducible exact Kept.refl _ _ | (with_reducible show (_ : List Part) ⊆ _; decide)
    | (with_reducible apply Kept.andThen (bufferDisable_kept _ _ _ _)) | split | intro _)

theorem exec_jobkeyCreate_kept h v (s : State) :
    ∃ s', exec (.jobkeyCreate h v) s = .next s' ∧ Kept (touches (.jobkeyCreate h v)) s s' := by
  refine ⟨_, rfl, ?_⟩
  show Kept [.hides] s _
  repeat' (first
    | with_reducible exact Kept.refl _ _ | (with_reducible show (_ : List Part) ⊆ _; decide)
    | (with_reducible apply Kept.andThen (jobKeyRow_kept _ _ _ _)) | split | intro _)

theorem exec_jobkeyDestroy_kept h v (s : State) :
    ∃ s', exec (.jobkeyDestroy h v) s = .next s' ∧ Kept (touches (.jobkeyDestroy h v)) s s' := by
  refine ⟨_, rfl, ?_⟩
  show Kept [.hides] s _
  repeat' (first
    | with_reducible exact Kept.refl _ _ | (with_reducible show (_ : List Part) ⊆ _; decide)
    | (with_reducible apply Kept.andThen (jobKeyRow_kept _ _ _ _)) | split | intro _)

theorem exec_registerWrite_kept h off size v poison (s : State) :
    ∃ s', exec (.registerWrite h off size v poison) s = .next s' ∧ Kept (touches (.registerWrite h off size v poison)) s s' := by
  refine ⟨_, rfl, ?_⟩
  show Kept [.hides, .imem, .acres, .gates, .ports, .dex, .mgmt, .box, .screen] s _
  repeat' (first
    | with_reducible exact Kept.refl _ _ | (with_reducible show (_ : List Part) ⊆ _; decide)
    | (with_reducible apply Kept.andThen (registerWrite_kept _ _ _ _ _ _)) | split | intro _)

theorem exec_rcRegisterRead_kept h off size (s : State) :
    ∃ s', exec (.rcRegisterRead h off size) s = .next s' ∧ Kept (touches (.rcRegisterRead h off size)) s s' := by
  refine ⟨_, rfl, ?_⟩
  show Kept [.hides, .gates, .free] s _
  repeat' (first
    | with_reducible exact Kept.refl _ _ | (with_reducible show (_ : List Part) ⊆ _; decide)
    | (with_reducible apply Kept.andThen (registerRead_kept _ _ _ _)) | split | intro _)

theorem exec_hideResetGo_kept h drain (s : State) :
    ∃ s', exec (.hideResetGo h drain) s = .next s' ∧ Kept (touches (.hideResetGo h drain)) s s' := by
  refine ⟨_, rfl, ?_⟩
  show Kept [.hides, .imem, .gates, .ports, .dex, .screen] s _
  repeat' (first
    | with_reducible exact Kept.refl _ _ | (with_reducible show (_ : List Part) ⊆ _; decide)
    | (with_reducible apply Kept.andThen (hideResetGo_kept _ _ _)) | split | intro _)

theorem exec_hideResetProceed_kept h (s : State) :
    ∃ s', exec (.hideResetProceed h) s = .next s' ∧ Kept (touches (.hideResetProceed h)) s s' := by
  refine ⟨_, rfl, ?_⟩
  show Kept [.hides, .gates, .ports, .dex] s _
  repeat' (first
    | with_reducible exact Kept.refl _ _ | (with_reducible show (_ : List Part) ⊆ _; decide)
    | (with_reducible apply Kept.andThen (State.endHeld_kept _ _)) | split | intro _)

theorem exec_hideResetEndingDone_kept h (s : State) :
    ∃ s', exec (.hideResetEndingDone h) s = .next s' ∧ Kept (touches (.hideResetEndingDone h)) s s' := by
  refine ⟨_, rfl, ?_⟩
  show Kept [.hides, .imem, .gates, .ports, .dex, .screen] s _
  repeat' (first
    | with_reducible exact Kept.refl _ _ | (with_reducible show (_ : List Part) ⊆ _; decide)
    | (with_reducible apply Kept.andThen (hideResetEndingDone_kept _ _)) | split | intro _)

theorem exec_hideResetHeldTimeout_kept h (s : State) :
    ∃ s', exec (.hideResetHeldTimeout h) s = .next s' ∧ Kept (touches (.hideResetHeldTimeout h)) s s' := by
  refine ⟨_, rfl, ?_⟩
  show Kept [.hides, .gates, .ports, .dex] s _
  repeat' (first
    | with_reducible exact Kept.refl _ _ | (with_reducible show (_ : List Part) ⊆ _; decide)
    | (with_reducible apply Kept.andThen (hideResetHeldTimeout_kept _ _)) | split | intro _)

theorem exec_hideResetKeysDone_kept h (s : State) :
    ∃ s', exec (.hideResetKeysDone h) s = .next s' ∧ Kept (touches (.hideResetKeysDone h)) s s' := by
  refine ⟨_, rfl, ?_⟩
  show Kept [.hides, .acres, .gates, .mgmt, .box] s _
  repeat' (first
    | with_reducible exact Kept.refl _ _ | (with_reducible show (_ : List Part) ⊆ _; decide)
    | (with_reducible apply Kept.andThen (hideResetKeysDone_kept _ _)) | split | intro _)

theorem exec_hideResetReleaseDone_kept h (s : State) :
    ∃ s', exec (.hideResetReleaseDone h) s = .next s' ∧ Kept (touches (.hideResetReleaseDone h)) s s' := by
  refine ⟨_, rfl, ?_⟩
  show Kept [.clusters, .hides] s _
  repeat' (first
    | with_reducible exact Kept.refl _ _ | (with_reducible show (_ : List Part) ⊆ _; decide)
    | (with_reducible apply Kept.andThen (hideResetReleaseDone_kept _ _)) | split | intro _)

theorem exec_hideResetScrubDone_kept h (s : State) :
    ∃ s', exec (.hideResetScrubDone h) s = .next s' ∧ Kept (touches (.hideResetScrubDone h)) s s' := by
  refine ⟨_, rfl, ?_⟩
  show Kept [.clusters, .hides, .imem, .gates, .mgmt, .box] s _
  repeat' (first
    | with_reducible exact Kept.refl _ _ | (with_reducible show (_ : List Part) ⊆ _; decide)
    | (with_reducible apply Kept.andThen (hideResetScrubDone_kept _ _)) | split | intro _)

theorem exec_flr_kept ld (s : State) :
    ∃ s', exec (.flr ld) s = .next s' ∧ Kept (touches (.flr ld)) s s' := by
  refine ⟨_, rfl, ?_⟩
  show Kept [.hides, .imem, .gates, .cxl, .ports, .dex, .screen] s _
  repeat' (first
    | with_reducible exact Kept.refl _ _ | (with_reducible show (_ : List Part) ⊆ _; decide)
    | (with_reducible apply Kept.andThen (State.flrOf_kept _ _ _ _)) | split | intro _)

theorem exec_cxlLinkDown_kept (s : State) :
    ∃ s', exec (.cxlLinkDown) s = .next s' ∧ Kept (touches (.cxlLinkDown)) s s' := by
  refine ⟨_, rfl, ?_⟩
  show Kept [.hides, .imem, .gates, .cxl, .ports, .dex, .mgmt, .box, .screen] s _
  repeat' (first
    | with_reducible exact Kept.refl _ _ | (with_reducible show (_ : List Part) ⊆ _; decide)
    | (with_reducible apply Kept.andThen (State.linkDown_kept _)) | split | intro _)

theorem exec_cxlPerstN_kept (s : State) :
    ∃ s', exec (.cxlPerstN) s = .next s' ∧ Kept (touches (.cxlPerstN)) s s' := by
  refine ⟨_, rfl, ?_⟩
  show Kept [.hides, .imem, .gates, .cxl, .ports, .dex, .mgmt, .box, .screen] s _
  repeat' (first
    | with_reducible exact Kept.refl _ _ | (with_reducible show (_ : List Part) ⊆ _; decide)
    | (with_reducible apply Kept.andThen (cxlPerst_kept _)) | split | intro _)

theorem exec_cxlLinkWidthChange_kept width rate (s : State) :
    ∃ s', exec (.cxlLinkWidthChange width rate) s = .next s' ∧ Kept (touches (.cxlLinkWidthChange width rate)) s s' := by
  refine ⟨_, rfl, ?_⟩
  show Kept [.hides, .imem, .gates, .cxl, .mgmt, .box] s _
  repeat' (first
    | with_reducible exact Kept.refl _ _ | (with_reducible show (_ : List Part) ⊆ _; decide)
    | (with_reducible apply Kept.andThen (linkWidthChange_kept _ _ _)) | split | intro _)

theorem exec_ideIntegrityFail_kept stream (s : State) :
    ∃ s', exec (.ideIntegrityFail stream) s = .next s' ∧ Kept (touches (.ideIntegrityFail stream)) s s' := by
  refine ⟨_, rfl, ?_⟩
  show Kept [.hides, .imem, .gates, .cxl, .ports, .dex, .screen] s _
  repeat' (first
    | with_reducible exact Kept.refl _ _ | (with_reducible show (_ : List Part) ⊆ _; decide)
    | (with_reducible apply Kept.andThen (ideFail_kept _ _)) | split | intro _)

theorem exec_tspLock_kept h (s : State) :
    ∃ s', exec (.tspLock h) s = .next s' ∧ Kept (touches (.tspLock h)) s s' := by
  refine ⟨_, rfl, ?_⟩
  show Kept [.hides, .mgmt] s _
  repeat' (first
    | with_reducible exact Kept.refl _ _ | (with_reducible show (_ : List Part) ⊆ _; decide)
    | (with_reducible apply Kept.andThen (tspLock_kept _ _)) | split | intro _)

theorem exec_tspStart_kept h (s : State) :
    ∃ s', exec (.tspStart h) s = .next s' ∧ Kept (touches (.tspStart h)) s s' := by
  refine ⟨_, rfl, ?_⟩
  show Kept [.hides, .mgmt] s _
  repeat' (first
    | with_reducible exact Kept.refl _ _ | (with_reducible show (_ : List Part) ⊆ _; decide)
    | (with_reducible apply Kept.andThen (tspStart_kept _ _)) | split | intro _)

theorem exec_tspStop_kept h (s : State) :
    ∃ s', exec (.tspStop h) s = .next s' ∧ Kept (touches (.tspStop h)) s s' := by
  refine ⟨_, rfl, ?_⟩
  show Kept [.hides, .imem, .gates, .ports, .dex, .mgmt, .screen] s _
  repeat' (first
    | with_reducible exact Kept.refl _ _ | (with_reducible show (_ : List Part) ⊆ _; decide)
    | (with_reducible apply Kept.andThen (tspStop_kept _ _)) | split | intro _)

theorem exec_spdmGetMeasurements_kept mailbox nonce (s : State) :
    ∃ s', exec (.spdmGetMeasurements mailbox nonce) s = .next s' ∧ Kept (touches (.spdmGetMeasurements mailbox nonce)) s s' := by
  refine ⟨_, rfl, ?_⟩
  show Kept [.dex, .mgmt] s _
  repeat' (first
    | with_reducible exact Kept.refl _ _ | (with_reducible show (_ : List Part) ⊆ _; decide)
    | (with_reducible apply Kept.andThen (getMeasurements_kept _ _ _)) | split | intro _)

theorem exec_doeBegin_kept ld mode size (s : State) :
    ∃ s', exec (.doeBegin ld mode size) s = .next s' ∧ Kept (touches (.doeBegin ld mode size)) s s' := by
  refine ⟨_, rfl, ?_⟩
  show Kept [.mgmt] s _
  repeat' (first
    | with_reducible exact Kept.refl _ _ | (with_reducible show (_ : List Part) ⊆ _; decide)
    | (with_reducible apply Kept.andThen (doeBegin_kept _ _ _ _)) | split | intro _)

theorem exec_doeData_kept ld load off len (s : State) :
    ∃ s', exec (.doeData ld load off len) s = .next s' ∧ Kept (touches (.doeData ld load off len)) s s' := by
  refine ⟨_, rfl, ?_⟩
  show Kept [.mgmt, .box] s _
  repeat' (first
    | with_reducible exact Kept.refl _ _ | (with_reducible show (_ : List Part) ⊆ _; decide)
    | (with_reducible apply Kept.andThen (doeData_kept _ _ _ _ _)) | split | intro _)

theorem exec_doeEnd_kept ld load image (s : State) :
    ∃ s', exec (.doeEnd ld load image) s = .next s' ∧ Kept (touches (.doeEnd ld load image)) s s' := by
  refine ⟨_, rfl, ?_⟩
  show Kept [.plan, .hides, .dex, .mgmt, .box, .screen] s _
  repeat' (first
    | with_reducible exact Kept.refl _ _ | (with_reducible show (_ : List Part) ⊆ _; decide)
    | (with_reducible apply Kept.andThen (doeEnd_kept _ _ _ _)) | split | intro _)

theorem exec_doeStatus_kept ld load (s : State) :
    ∃ s', exec (.doeStatus ld load) s = .next s' ∧ Kept (touches (.doeStatus ld load)) s s' := by
  refine ⟨_, rfl, ?_⟩
  show Kept [.mgmt] s _
  repeat' (first
    | with_reducible exact Kept.refl _ _ | (with_reducible show (_ : List Part) ⊆ _; decide)
    | (with_reducible apply Kept.andThen (doeStatus_kept _ _ _)) | split | intro _)

theorem exec_doeCancel_kept ld load (s : State) :
    ∃ s', exec (.doeCancel ld load) s = .next s' ∧ Kept (touches (.doeCancel ld load)) s s' := by
  refine ⟨_, rfl, ?_⟩
  show Kept [.mgmt, .box] s _
  repeat' (first
    | with_reducible exact Kept.refl _ _ | (with_reducible show (_ : List Part) ⊆ _; decide)
    | (with_reducible apply Kept.andThen (doeCancel_kept _ _ _)) | split | intro _)

theorem exec_sessionHandshake_kept anchor family (s : State) :
    ∃ s', exec (.sessionHandshake anchor family) s = .next s' ∧ Kept (touches (.sessionHandshake anchor family)) s s' := by
  refine ⟨_, rfl, ?_⟩
  show Kept [.mgmt, .box] s _
  repeat' (first
    | with_reducible exact Kept.refl _ _ | (with_reducible show (_ : List Part) ⊆ _; decide)
    | (with_reducible apply Kept.andThen (sessionHandshake_kept _ _ _)) | split | intro _)

theorem exec_sessionIdleTimeout_kept session (s : State) :
    ∃ s', exec (.sessionIdleTimeout session) s = .next s' ∧ Kept (touches (.sessionIdleTimeout session)) s s' := by
  refine ⟨_, rfl, ?_⟩
  show Kept [.mgmt, .box] s _
  repeat' (first
    | with_reducible exact Kept.refl _ _ | (with_reducible show (_ : List Part) ⊆ _; decide)
    | (with_reducible apply Kept.andThen (sessionIdle_kept _ _)) | split | intro _)

theorem exec_handshakeRefusalExpiry_kept (s : State) :
    ∃ s', exec (.handshakeRefusalExpiry) s = .next s' ∧ Kept (touches (.handshakeRefusalExpiry)) s s' := by
  refine ⟨_, rfl, ?_⟩
  show Kept [.mgmt] s _
  repeat' (first
    | with_reducible exact Kept.refl _ _ | (with_reducible show (_ : List Part) ⊆ _; decide)
    | (with_reducible apply Kept.andThen (refusalExpiry_kept _)) | split | intro _)

theorem exec_statusProbe_kept nonce (s : State) :
    ∃ s', exec (.statusProbe nonce) s = .next s' ∧ Kept (touches (.statusProbe nonce)) s s' := by
  refine ⟨_, rfl, ?_⟩
  show Kept [.mgmt] s _
  repeat' (first
    | with_reducible exact Kept.refl _ _ | (with_reducible show (_ : List Part) ⊆ _; decide)
    | (with_reducible apply Kept.andThen (statusProbe_kept _ _)) | split | intro _)

theorem exec_regRead_kept q off count (s : State) :
    ∃ s', exec (.regRead q off count) s = .next s' ∧ Kept (touches (.regRead q off count)) s s' := by
  refine ⟨_, rfl, ?_⟩
  show Kept [.power, .regions, .plan, .ports, .mgmt, .box, .screen, .free] s _
  repeat' (first
    | with_reducible exact Kept.refl _ _ | (with_reducible show (_ : List Part) ⊆ _; decide)
    | (with_reducible apply Kept.andThen (regRead_kept _ _ _ _)) | split | intro _)

theorem exec_regWrite_kept q off v width (s : State) :
    ∃ s', exec (.regWrite q off v width) s = .next s' ∧ Kept (touches (.regWrite q off v width)) s s' := by
  refine ⟨_, rfl, ?_⟩
  show Kept [.power, .hides, .gates, .ports, .mgmt, .box, .screen] s _
  repeat' (first
    | with_reducible exact Kept.refl _ _ | (with_reducible show (_ : List Part) ⊆ _; decide)
    | (with_reducible apply Kept.andThen (regWrite_kept _ _ _ _ _)) | split | intro _)

theorem exec_loadBegin_kept q kind mode size (s : State) :
    ∃ s', exec (.loadBegin q kind mode size) s = .next s' ∧ Kept (touches (.loadBegin q kind mode size)) s s' := by
  refine ⟨_, rfl, ?_⟩
  show Kept [.mgmt, .box] s _
  repeat' (first
    | with_reducible exact Kept.refl _ _ | (with_reducible show (_ : List Part) ⊆ _; decide)
    | (with_reducible apply Kept.andThen (loadBegin_kept _ _ _ _ _)) | split | intro _)

theorem exec_loadData_kept q load off len (s : State) :
    ∃ s', exec (.loadData q load off len) s = .next s' ∧ Kept (touches (.loadData q load off len)) s s' := by
  refine ⟨_, rfl, ?_⟩
  show Kept [.mgmt, .box] s _
  repeat' (first
    | with_reducible exact Kept.refl _ _ | (with_reducible show (_ : List Part) ⊆ _; decide)
    | (with_reducible apply Kept.andThen (loadData_kept _ _ _ _ _)) | split | intro _)

theorem exec_loadEnd_kept q load image (s : State) :
    ∃ s', exec (.loadEnd q load image) s = .next s' ∧ Kept (touches (.loadEnd q load image)) s s' := by
  refine ⟨_, rfl, ?_⟩
  show Kept [.plan, .hides, .dex, .mgmt, .box, .screen] s _
  repeat' (first
    | with_reducible exact Kept.refl _ _ | (with_reducible show (_ : List Part) ⊆ _; decide)
    | (with_reducible apply Kept.andThen (loadEnd_kept _ _ _ _)) | split | intro _)

theorem exec_loadReceiveTimeout_kept (s : State) :
    ∃ s', exec (.loadReceiveTimeout) s = .next s' ∧ Kept (touches (.loadReceiveTimeout)) s s' := by
  refine ⟨_, rfl, ?_⟩
  show Kept [.mgmt, .box] s _
  repeat' (first
    | with_reducible exact Kept.refl _ _ | (with_reducible show (_ : List Part) ⊆ _; decide)
    | (with_reducible apply Kept.andThen (loadTimeout_kept _)) | split | intro _)

theorem exec_loadStatus_kept q load (s : State) :
    ∃ s', exec (.loadStatus q load) s = .next s' ∧ Kept (touches (.loadStatus q load)) s s' := by
  refine ⟨_, rfl, ?_⟩
  show Kept [.mgmt, .box] s _
  repeat' (first
    | with_reducible exact Kept.refl _ _ | (with_reducible show (_ : List Part) ⊆ _; decide)
    | (with_reducible apply Kept.andThen (loadStatus_kept _ _ _)) | split | intro _)

theorem exec_loadCancel_kept q load (s : State) :
    ∃ s', exec (.loadCancel q load) s = .next s' ∧ Kept (touches (.loadCancel q load)) s s' := by
  refine ⟨_, rfl, ?_⟩
  show Kept [.mgmt, .box] s _
  repeat' (first
    | with_reducible exact Kept.refl _ _ | (with_reducible show (_ : List Part) ⊆ _; decide)
    | (with_reducible apply Kept.andThen (loadCancel_kept _ _ _)) | split | intro _)

theorem exec_telemetry_kept q (s : State) :
    ∃ s', exec (.telemetry q) s = .next s' ∧ Kept (touches (.telemetry q)) s s' := by
  refine ⟨_, rfl, ?_⟩
  show Kept [.hides, .mgmt, .box] s _
  repeat' (first
    | with_reducible exact Kept.refl _ _ | (with_reducible show (_ : List Part) ⊆ _; decide)
    | (with_reducible apply Kept.andThen (telemetry_kept _ _)) | split | intro _)

theorem exec_subscribe_kept q period notices (s : State) :
    ∃ s', exec (.subscribe q period notices) s = .next s' ∧ Kept (touches (.subscribe q period notices)) s s' := by
  refine ⟨_, rfl, ?_⟩
  show Kept [.mgmt, .box] s _
  repeat' (first
    | with_reducible exact Kept.refl _ _ | (with_reducible show (_ : List Part) ⊆ _; decide)
    | (with_reducible apply Kept.andThen (subscribe_kept _ _ _ _)) | split | intro _)

theorem exec_telemetryPeriod_kept session (s : State) :
    ∃ s', exec (.telemetryPeriod session) s = .next s' ∧ Kept (touches (.telemetryPeriod session)) s s' := by
  refine ⟨_, rfl, ?_⟩
  show Kept [.hides, .mgmt] s _
  repeat' (first
    | with_reducible exact Kept.refl _ _ | (with_reducible show (_ : List Part) ⊆ _; decide)
    | (with_reducible apply Kept.andThen (telemetryPeriod_kept _ _)) | split | intro _)

theorem exec_bbRead_kept q seq limit (s : State) :
    ∃ s', exec (.bbRead q seq limit) s = .next s' ∧ Kept (touches (.bbRead q seq limit)) s s' := by
  refine ⟨_, rfl, ?_⟩
  show Kept [.mgmt, .box] s _
  repeat' (first
    | with_reducible exact Kept.refl _ _ | (with_reducible show (_ : List Part) ⊆ _; decide)
    | (with_reducible apply Kept.andThen (bbRead_kept _ _ _ _)) | split | intro _)

theorem exec_hideReset_kept q hide mode (s : State) :
    ∃ s', exec (.hideReset q hide mode) s = .next s' ∧ Kept (touches (.hideReset q hide mode)) s s' := by
  refine ⟨_, rfl, ?_⟩
  show Kept [.hides, .imem, .gates, .ports, .dex, .mgmt, .box, .screen] s _
  repeat' (first
    | with_reducible exact Kept.refl _ _ | (with_reducible show (_ : List Part) ⊆ _; decide)
    | (with_reducible apply Kept.andThen (hideReset_kept _ _ _ _)) | split | intro _)

theorem exec_deviceReset_kept q confirm (s : State) :
    ∃ s', exec (.deviceReset q confirm) s = .next s' ∧ Kept (touches (.deviceReset q confirm)) s s' := by
  refine ⟨_, rfl, ?_⟩
  show Kept Part.all s _
  repeat' (first
    | with_reducible exact Kept.refl _ _ | (with_reducible show (_ : List Part) ⊆ _; decide)
    | (with_reducible apply Kept.andThen (deviceReset_kept _ _ _)) | split | intro _)

theorem exec_regionReset_kept q region result (s : State) :
    ∃ s', exec (.regionReset q region result) s = .next s' ∧ Kept (touches (.regionReset q region result)) s s' := by
  refine ⟨_, rfl, ?_⟩
  show Kept [.regions, .mgmt, .box] s _
  repeat' (first
    | with_reducible exact Kept.refl _ _ | (with_reducible show (_ : List Part) ⊆ _; decide)
    | (with_reducible apply Kept.andThen (regionReset_kept _ _ _ _)) | split | intro _)

theorem exec_setTime_kept q rtc (s : State) :
    ∃ s', exec (.setTime q rtc) s = .next s' ∧ Kept (touches (.setTime q rtc)) s s' := by
  refine ⟨_, rfl, ?_⟩
  show Kept [.mgmt, .box] s _
  repeat' (first
    | with_reducible exact Kept.refl _ _ | (with_reducible show (_ : List Part) ⊆ _; decide)
    | (with_reducible apply Kept.andThen (setTime_kept _ _ _)) | split | intro _)

theorem exec_anchorEnroll_kept q a (s : State) :
    ∃ s', exec (.anchorEnroll q a) s = .next s' ∧ Kept (touches (.anchorEnroll q a)) s s' := by
  refine ⟨_, rfl, ?_⟩
  show Kept [.dex, .mgmt, .box] s _
  repeat' (first
    | with_reducible exact Kept.refl _ _ | (with_reducible show (_ : List Part) ⊆ _; decide)
    | (with_reducible apply Kept.andThen (anchorEnroll_kept _ _ _)) | split | intro _)

theorem exec_anchorRemove_kept q a (s : State) :
    ∃ s', exec (.anchorRemove q a) s = .next s' ∧ Kept (touches (.anchorRemove q a)) s s' := by
  refine ⟨_, rfl, ?_⟩
  show Kept [.dex, .mgmt, .box] s _
  repeat' (first
    | with_reducible exact Kept.refl _ _ | (with_reducible show (_ : List Part) ⊆ _; decide)
    | (with_reducible apply Kept.andThen (anchorRemove_kept _ _ _)) | split | intro _)

theorem exec_floorRaise_kept q floor (s : State) :
    ∃ s', exec (.floorRaise q floor) s = .next s' ∧ Kept (touches (.floorRaise q floor)) s s' := by
  refine ⟨_, rfl, ?_⟩
  show Kept [.dex, .mgmt, .box] s _
  repeat' (first
    | with_reducible exact Kept.refl _ _ | (with_reducible show (_ : List Part) ⊆ _; decide)
    | (with_reducible apply Kept.andThen (floorRaise_kept _ _ _)) | split | intro _)

theorem exec_lifecycle_kept q target sealing (s : State) :
    ∃ s', exec (.lifecycle q target sealing) s = .next s' ∧ Kept (touches (.lifecycle q target sealing)) s s' := by
  refine ⟨_, rfl, ?_⟩
  show Kept [.dex, .mgmt, .box] s _
  repeat' (first
    | with_reducible exact Kept.refl _ _ | (with_reducible show (_ : List Part) ⊆ _; decide)
    | (with_reducible apply Kept.andThen (lifecycle_kept _ _ _ _)) | split | intro _)

theorem exec_debugChallenge_kept q (s : State) :
    ∃ s', exec (.debugChallenge q) s = .next s' ∧ Kept (touches (.debugChallenge q)) s s' := by
  refine ⟨_, rfl, ?_⟩
  show Kept [.dex, .mgmt, .box] s _
  repeat' (first
    | with_reducible exact Kept.refl _ _ | (with_reducible show (_ : List Part) ⊆ _; decide)
    | (with_reducible apply Kept.andThen (debugChallenge_kept _ _)) | split | intro _)

theorem exec_debugToken_kept q t (s : State) :
    ∃ s', exec (.debugToken q t) s = .next s' ∧ Kept (touches (.debugToken q t)) s s' := by
  refine ⟨_, rfl, ?_⟩
  show Kept [.dex, .mgmt, .box] s _
  repeat' (first
    | with_reducible exact Kept.refl _ _ | (with_reducible show (_ : List Part) ⊆ _; decide)
    | (with_reducible apply Kept.andThen (debugToken_kept _ _ _)) | split | intro _)

theorem exec_selftestRun_kept q code (s : State) :
    ∃ s', exec (.selftestRun q code) s = .next s' ∧ Kept (touches (.selftestRun q code)) s s' := by
  refine ⟨_, rfl, ?_⟩
  show Kept [.dex, .mgmt, .box] s _
  repeat' (first
    | with_reducible exact Kept.refl _ _ | (with_reducible show (_ : List Part) ⊆ _; decide)
    | (with_reducible apply Kept.andThen (selftestRun_kept _ _ _)) | split | intro _)

theorem exec_trainingStepComplete_kept p lanes (s : State) :
    ∃ s', exec (.trainingStepComplete p lanes) s = .next s' ∧ Kept (touches (.trainingStepComplete p lanes)) s s' := by
  refine ⟨_, rfl, ?_⟩
  show Kept [.hides, .imem, .gates, .ports, .mgmt, .box] s _
  repeat' (first
    | with_reducible exact Kept.refl _ _ | (with_reducible show (_ : List Part) ⊆ _; decide)
    | (with_reducible apply Kept.andThen (trainingComplete_kept _ _ _)) | split | intro _)

theorem exec_trainingStepTimeout_kept p (s : State) :
    ∃ s', exec (.trainingStepTimeout p) s = .next s' ∧ Kept (touches (.trainingStepTimeout p)) s s' := by
  refine ⟨_, rfl, ?_⟩
  show Kept [.hides, .gates, .ports, .mgmt, .box] s _
  repeat' (first
    | with_reducible exact Kept.refl _ _ | (with_reducible show (_ : List Part) ⊆ _; decide)
    | (with_reducible apply Kept.andThen (trainingTimeout_kept _ _)) | split | intro _)

theorem exec_trainingRetry_kept p (s : State) :
    ∃ s', exec (.trainingRetry p) s = .next s' ∧ Kept (touches (.trainingRetry p)) s s' := by
  refine ⟨_, rfl, ?_⟩
  show Kept [.gates, .ports] s _
  repeat' (first
    | with_reducible exact Kept.refl _ _ | (with_reducible show (_ : List Part) ⊆ _; decide)
    | (with_reducible apply Kept.andThen (trainingRetry_kept _ _)) | split | intro _)

theorem exec_leagueRsp_kept p chk tag status failed (s : State) :
    ∃ s', exec (.leagueRsp p chk tag status failed) s = .next s' ∧ Kept (touches (.leagueRsp p chk tag status failed)) s s' := by
  refine ⟨_, rfl, ?_⟩
  show Kept [.hides, .gates, .ports, .mgmt, .box] s _
  repeat' (first
    | with_reducible exact Kept.refl _ _ | (with_reducible show (_ : List Part) ⊆ _; decide)
    | (with_reducible apply Kept.andThen (leagueRsp_kept _ _ _ _ _)) | split | intro _)

theorem exec_leagueRdata_kept p chk tag sector payload (s : State) :
    ∃ s', exec (.leagueRdata p chk tag sector payload) s = .next s' ∧ Kept (touches (.leagueRdata p chk tag sector payload)) s s' := by
  refine ⟨_, rfl, ?_⟩
  show Kept [.hides, .gates, .ports, .mgmt, .box] s _
  repeat' (first
    | with_reducible exact Kept.refl _ _ | (with_reducible show (_ : List Part) ⊆ _; decide)
    | (with_reducible apply Kept.andThen (leagueRdata_kept _ _ _ _ _ _)) | split | intro _)

theorem exec_leagueCtrl_kept p ok c (s : State) :
    ∃ s', exec (.leagueCtrl p ok c) s = .next s' ∧ Kept (touches (.leagueCtrl p ok c)) s s' := by
  refine ⟨_, rfl, ?_⟩
  show Kept [.gates, .ports, .mgmt, .box] s _
  repeat' (first
    | with_reducible exact Kept.refl _ _ | (with_reducible show (_ : List Part) ⊆ _; decide)
    | (with_reducible apply Kept.andThen (leagueCtrl_kept _ _ _ _)) | split | intro _)

theorem exec_leagueCtrlSend_kept p (s : State) :
    ∃ s', exec (.leagueCtrlSend p) s = .next s' ∧ Kept (touches (.leagueCtrlSend p)) s s' := by
  refine ⟨_, rfl, ?_⟩
  show Kept [.gates] s _
  repeat' (first
    | with_reducible exact Kept.refl _ _ | (with_reducible show (_ : List Part) ⊆ _; decide)
    | (with_reducible apply Kept.andThen (leagueCtrlSend_kept _ _)) | split | intro _)

theorem exec_leagueReplayTimeout_kept p (s : State) :
    ∃ s', exec (.leagueReplayTimeout p) s = .next s' ∧ Kept (touches (.leagueReplayTimeout p)) s s' := by
  refine ⟨_, rfl, ?_⟩
  show Kept [.gates, .ports, .mgmt, .box] s _
  repeat' (first
    | with_reducible exact Kept.refl _ _ | (with_reducible show (_ : List Part) ⊆ _; decide)
    | (with_reducible apply Kept.andThen (leagueReplayTimeout_kept _ _)) | split | intro _)

theorem exec_leagueIdleTimeout_kept p (s : State) :
    ∃ s', exec (.leagueIdleTimeout p) s = .next s' ∧ Kept (touches (.leagueIdleTimeout p)) s s' := by
  refine ⟨_, rfl, ?_⟩
  show Kept [.gates, .ports, .mgmt, .box] s _
  repeat' (first
    | with_reducible exact Kept.refl _ _ | (with_reducible show (_ : List Part) ⊆ _; decide)
    | (with_reducible apply Kept.andThen (leagueIdle_kept _ _)) | split | intro _)

theorem exec_leagueCommandTimeout_kept p tag (s : State) :
    ∃ s', exec (.leagueCommandTimeout p tag) s = .next s' ∧ Kept (touches (.leagueCommandTimeout p tag)) s s' := by
  refine ⟨_, rfl, ?_⟩
  show Kept [.hides, .gates, .ports, .mgmt, .box] s _
  repeat' (first
    | with_reducible exact Kept.refl _ _ | (with_reducible show (_ : List Part) ⊆ _; decide)
    | (with_reducible apply Kept.andThen (leagueTimeout_kept _ _ _)) | split | intro _)

theorem exec_laneFault_kept p lane (s : State) :
    ∃ s', exec (.laneFault p lane) s = .next s' ∧ Kept (touches (.laneFault p lane)) s s' := by
  refine ⟨_, rfl, ?_⟩
  show Kept [.gates, .ports, .mgmt, .box] s _
  repeat' (first
    | with_reducible exact Kept.refl _ _ | (with_reducible show (_ : List Part) ⊆ _; decide)
    | (with_reducible apply Kept.andThen (laneFault_kept _ _ _)) | split | intro _)

theorem exec_symbolErrorWindow_kept p lane errors (s : State) :
    ∃ s', exec (.symbolErrorWindow p lane errors) s = .next s' ∧ Kept (touches (.symbolErrorWindow p lane errors)) s s' := by
  refine ⟨_, rfl, ?_⟩
  show Kept [.gates, .ports, .mgmt, .box] s _
  repeat' (first
    | with_reducible exact Kept.refl _ _ | (with_reducible show (_ : List Part) ⊆ _; decide)
    | (with_reducible apply Kept.andThen (symbolWindow_kept _ _ _ _)) | split | intro _)

theorem exec_holdupOk_kept (s : State) :
    ∃ s', exec (.holdupOk) s = .next s' ∧ Kept (touches (.holdupOk)) s s' := by
  refine ⟨_, rfl, ?_⟩
  show Kept [.power] s _
  repeat' (first
    | with_reducible exact Kept.refl _ _ | (with_reducible show (_ : List Part) ⊆ _; decide)
    | (with_reducible apply Kept.andThen (holdupOk_kept _)) | split | intro _)

theorem exec_cxlLinkUp_kept width rate (s : State) :
    ∃ s', exec (.cxlLinkUp width rate) s = .next s' ∧ Kept (touches (.cxlLinkUp width rate)) s s' := by
  refine ⟨_, rfl, ?_⟩
  show Kept [.cxl, .mgmt, .box] s _
  repeat' (first
    | with_reducible exact Kept.refl _ _ | (with_reducible show (_ : List Part) ⊆ _; decide)
    | (with_reducible apply Kept.andThen (linkUp_kept _ _ _)) | split | intro _)

theorem exec_ideStreamEstablished_kept stream (s : State) :
    ∃ s', exec (.ideStreamEstablished stream) s = .next s' ∧ Kept (touches (.ideStreamEstablished stream)) s s' := by
  refine ⟨_, rfl, ?_⟩
  show Kept [.cxl] s _
  repeat' (first
    | with_reducible exact Kept.refl _ _ | (with_reducible show (_ : List Part) ⊆ _; decide)
    | (with_reducible apply Kept.andThen (ideUp_kept _ _)) | split | intro _)

theorem exec_configurationWrite_kept ld off v (s : State) :
    ∃ s', exec (.configurationWrite ld off v) s = .next s' ∧ Kept (touches (.configurationWrite ld off v)) s s' := by
  refine ⟨_, rfl, ?_⟩
  show Kept [.hides, .imem, .gates, .cxl, .ports, .dex, .screen] s _
  repeat' (first
    | with_reducible exact Kept.refl _ _ | (with_reducible show (_ : List Part) ⊆ _; decide)
    | (with_reducible apply Kept.andThen (configWrite_kept _ _ _ _)) | split | intro _)

theorem exec_phyIntN_kept answered (s : State) :
    ∃ s', exec (.phyIntN answered) s = .next s' ∧ Kept (touches (.phyIntN answered)) s s' := by
  refine ⟨_, rfl, ?_⟩
  show Kept [.mgmt] s _
  repeat' (first
    | with_reducible exact Kept.refl _ _ | (with_reducible show (_ : List Part) ⊆ _; decide)
    | (with_reducible apply Kept.andThen (phyInt_kept _ _)) | split | intro _)

theorem exec_sessionClose_kept session (s : State) :
    ∃ s', exec (.sessionClose session) s = .next s' ∧ Kept (touches (.sessionClose session)) s s' := by
  refine ⟨_, rfl, ?_⟩
  show Kept [.mgmt, .box] s _
  repeat' (first
    | with_reducible exact Kept.refl _ _ | (with_reducible show (_ : List Part) ⊆ _; decide)
    | (with_reducible apply Kept.andThen (sessionClose_kept _ _)) | split | intro _)

theorem exec_tapInstruction_kept op (s : State) :
    ∃ s', exec (.tapInstruction op) s = .next s' ∧ Kept (touches (.tapInstruction op)) s s' := by
  refine ⟨_, rfl, ?_⟩
  show Kept [.tap] s _
  repeat' (first
    | with_reducible exact Kept.refl _ _ | (with_reducible show (_ : List Part) ⊆ _; decide)
    | (with_reducible apply Kept.andThen (tapInstruction_kept _ _)) | split | intro _)

/-- What a command keeps: the invariant, the queue, the records, what only grows, and every part it does not touch. -/
theorem exec_kept (i : Instr) (s : State) : ∃ t, exec i s = .next t ∧ Kept (touches i) s t := by
  cases i with
  | standbyStart => exact exec_standbyStart_kept  s
  | resetRelease straps0 straps1 straps2 testCode xtsFail torn => exact exec_resetRelease_kept straps0 straps1 straps2 testCode xtsFail torn s
  | powerUpStepOverrun step => exact exec_powerUpStepOverrun_kept step s
  | powerLoss byVin => exact exec_powerLoss_kept byVin s
  | protectiveShutdown => exact exec_protectiveShutdown_kept  s
  | resetN => exact exec_resetN_kept  s
  | vinSample vin iin => exact exec_vinSample_kept vin iin s
  | monitorFail => exact exec_monitorFail_kept  s
  | sensorSample readings => exact exec_sensorSample_kept readings s
  | sensorTimeout sensor => exact exec_sensorTimeout_kept sensor s
  | leanReturnCount => exact exec_leanReturnCount_kept  s
  | clockMonitorWindow bad => exact exec_clockMonitorWindow_kept bad s
  | regionClockWindow ppm => exact exec_regionClockWindow_kept ppm s
  | pllLossOfLock r => exact exec_pllLossOfLock_kept r s
  | entropyHealthFail => exact exec_entropyHealthFail_kept  s
  | furlongCounterComplete r => exact exec_furlongCounterComplete_kept r s
  | boundaryMark r src low => exact exec_boundaryMark_kept r src low s
  | furlongStart r => exact exec_furlongStart_kept r s
  | boundaryLimit r => exact exec_boundaryLimit_kept r s
  | switchNotice => exact exec_switchNotice_kept  s
  | drainLimit => exact exec_drainLimit_kept  s
  | heldOutRotation c => exact exec_heldOutRotation_kept c s
  | screenPatternRun c phys pattern result => exact exec_screenPatternRun_kept c phys pattern result s
  | screenSummary => exact exec_screenSummary_kept  s
  | bankGroupFaultRecord => exact exec_bankGroupFaultRecord_kept  s
  | gateFurlongStart => exact exec_gateFurlongStart_kept  s
  | policerRefill => exact exec_policerRefill_kept  s
  | egressFrameStart link chain cycle => exact exec_egressFrameStart_kept link chain cycle s
  | cxlMemWrite ld off data poison writeBack cycle => exact exec_cxlMemWrite_kept ld off data poison writeBack cycle s
  | cxlMemRead ld off kind => exact exec_cxlMemRead_kept ld off kind s
  | cxlMemInv ld off => exact exec_cxlMemInv_kept ld off s
  | uioRead ld off => exact exec_uioRead_kept ld off s
  | uioWrite ld off data poison cycle => exact exec_uioWrite_kept ld off data poison cycle s
  | packetTake h => exact exec_packetTake_kept h s
  | packetTimeout h ring => exact exec_packetTimeout_kept h ring s
  | heldPostTimeout h => exact exec_heldPostTimeout_kept h s
  | queuePointerMismatch h kind ring => exact exec_queuePointerMismatch_kept h kind ring s
  | admitSeq h c e => exact exec_admitSeq_kept h c e s
  | admitSeqExtend h c e => exact exec_admitSeqExtend_kept h c e s
  | retireSeq h c e => exact exec_retireSeq_kept h c e s
  | forkPrefix h c e => exact exec_forkPrefix_kept h c e s
  | lookupPrefix h c e => exact exec_lookupPrefix_kept h c e s
  | lookupPrefixContinue h c e => exact exec_lookupPrefixContinue_kept h c e s
  | hashLaneDone h => exact exec_hashLaneDone_kept h s
  | publishPrefixCreate h c e => exact exec_publishPrefixCreate_kept h c e s
  | publishPrefixPromote h c e => exact exec_publishPrefixPromote_kept h c e s
  | publishPrefixWithdraw h c e => exact exec_publishPrefixWithdraw_kept h c e s
  | stepDecode h c e => exact exec_stepDecode_kept h c e s
  | fetchArrival h fetch => exact exec_fetchArrival_kept h fetch s
  | fetchDeadline h fetch => exact exec_fetchDeadline_kept h fetch s
  | deferReentry h c e => exact exec_deferReentry_kept h c e s
  | stepPrefill h c e => exact exec_stepPrefill_kept h c e s
  | stepBackward h c e => exact exec_stepBackward_kept h c e s
  | projectAppend h c e => exact exec_projectAppend_kept h c e s
  | recode h c e => exact exec_recode_kept h c e s
  | stateStep h c e => exact exec_stateStep_kept h c e s
  | scoreTopk h c e => exact exec_scoreTopk_kept h c e s
  | place h c e => exact exec_place_kept h c e s
  | swapOut h c e => exact exec_swapOut_kept h c e s
  | swapIn h c e => exact exec_swapIn_kept h c e s
  | evictScore h c e => exact exec_evictScore_kept h c e s
  | deliverPages h c e => exact exec_deliverPages_kept h c e s
  | deliverDeadline h => exact exec_deliverDeadline_kept h s
  | loadCodebook h c e => exact exec_loadCodebook_kept h c e s
  | retireCodebook h c e => exact exec_retireCodebook_kept h c e s
  | codebookSlotReload h key c ok => exact exec_codebookSlotReload_kept h key c ok s
  | loadWeights h c e => exact exec_loadWeights_kept h c e s
  | loadWeightsRetire h c e => exact exec_loadWeightsRetire_kept h c e s
  | txnBegin h => exact exec_txnBegin_kept h s
  | txnCommit h => exact exec_txnCommit_kept h s
  | txnAbort h => exact exec_txnAbort_kept h s
  | txnDecision h txn => exact exec_txnDecision_kept h txn s
  | txnTimeout h ring => exact exec_txnTimeout_kept h ring s
  | dropRest h => exact exec_dropRest_kept h s
  | replayStart r => exact exec_replayStart_kept r s
  | replayResult replay out => exact exec_replayResult_kept replay out s
  | dramCorrectiveWriteback c => exact exec_dramCorrectiveWriteback_kept c s
  | dmaReadCompletion h tag result => exact exec_dmaReadCompletion_kept h tag result s
  | dmaReadTimeout h tag => exact exec_dmaReadTimeout_kept h tag s
  | lease h v => exact exec_lease_kept h v s
  | release h v => exact exec_release_kept h v s
  | sealAcre h v => exact exec_sealAcre_kept h v s
  | grant h v => exact exec_grant_kept h v s
  | attach h v => exact exec_attach_kept h v s
  | revoke h v => exact exec_revoke_kept h v s
  | leaseRecallComplete h => exact exec_leaseRecallComplete_kept h s
  | acRenew h mask => exact exec_acRenew_kept h mask s
  | leaseExpiry h slot => exact exec_leaseExpiry_kept h slot s
  | leaseDrainComplete h slot => exact exec_leaseDrainComplete_kept h slot s
  | acreScrubComplete h slot => exact exec_acreScrubComplete_kept h slot s
  | acreRequestServe h => exact exec_acreRequestServe_kept h s
  | biSnoopResponse h off data => exact exec_biSnoopResponse_kept h off data s
  | biSnoopTimeout h off => exact exec_biSnoopTimeout_kept h off s
  | poisonMarkWrite acre line => exact exec_poisonMarkWrite_kept acre line s
  | hdmDecoderCommit ld size ways base lock => exact exec_hdmDecoderCommit_kept ld size ways base lock s
  | ringEnable h kind ring ctl => exact exec_ringEnable_kept h kind ring ctl s
  | ringDisable h kind ring ctl => exact exec_ringDisable_kept h kind ring ctl s
  | bufferEnable h b ctl => exact exec_bufferEnable_kept h b ctl s
  | bufferDisable h b ctl => exact exec_bufferDisable_kept h b ctl s
  | jobkeyCreate h v => exact exec_jobkeyCreate_kept h v s
  | jobkeyDestroy h v => exact exec_jobkeyDestroy_kept h v s
  | registerWrite h off size v poison => exact exec_registerWrite_kept h off size v poison s
  | rcRegisterRead h off size => exact exec_rcRegisterRead_kept h off size s
  | hideResetGo h drain => exact exec_hideResetGo_kept h drain s
  | hideResetProceed h => exact exec_hideResetProceed_kept h s
  | hideResetEndingDone h => exact exec_hideResetEndingDone_kept h s
  | hideResetHeldTimeout h => exact exec_hideResetHeldTimeout_kept h s
  | hideResetKeysDone h => exact exec_hideResetKeysDone_kept h s
  | hideResetReleaseDone h => exact exec_hideResetReleaseDone_kept h s
  | hideResetScrubDone h => exact exec_hideResetScrubDone_kept h s
  | flr ld => exact exec_flr_kept ld s
  | cxlLinkDown => exact exec_cxlLinkDown_kept  s
  | cxlPerstN => exact exec_cxlPerstN_kept  s
  | cxlLinkWidthChange width rate => exact exec_cxlLinkWidthChange_kept width rate s
  | ideIntegrityFail stream => exact exec_ideIntegrityFail_kept stream s
  | tspLock h => exact exec_tspLock_kept h s
  | tspStart h => exact exec_tspStart_kept h s
  | tspStop h => exact exec_tspStop_kept h s
  | spdmGetMeasurements mailbox nonce => exact exec_spdmGetMeasurements_kept mailbox nonce s
  | doeBegin ld mode size => exact exec_doeBegin_kept ld mode size s
  | doeData ld load off len => exact exec_doeData_kept ld load off len s
  | doeEnd ld load image => exact exec_doeEnd_kept ld load image s
  | doeStatus ld load => exact exec_doeStatus_kept ld load s
  | doeCancel ld load => exact exec_doeCancel_kept ld load s
  | sessionHandshake anchor family => exact exec_sessionHandshake_kept anchor family s
  | sessionIdleTimeout session => exact exec_sessionIdleTimeout_kept session s
  | handshakeRefusalExpiry => exact exec_handshakeRefusalExpiry_kept  s
  | statusProbe nonce => exact exec_statusProbe_kept nonce s
  | regRead q off count => exact exec_regRead_kept q off count s
  | regWrite q off v width => exact exec_regWrite_kept q off v width s
  | loadBegin q kind mode size => exact exec_loadBegin_kept q kind mode size s
  | loadData q load off len => exact exec_loadData_kept q load off len s
  | loadEnd q load image => exact exec_loadEnd_kept q load image s
  | loadReceiveTimeout => exact exec_loadReceiveTimeout_kept  s
  | loadStatus q load => exact exec_loadStatus_kept q load s
  | loadCancel q load => exact exec_loadCancel_kept q load s
  | telemetry q => exact exec_telemetry_kept q s
  | subscribe q period notices => exact exec_subscribe_kept q period notices s
  | telemetryPeriod session => exact exec_telemetryPeriod_kept session s
  | bbRead q seq limit => exact exec_bbRead_kept q seq limit s
  | hideReset q hide mode => exact exec_hideReset_kept q hide mode s
  | deviceReset q confirm => exact exec_deviceReset_kept q confirm s
  | regionReset q region result => exact exec_regionReset_kept q region result s
  | setTime q rtc => exact exec_setTime_kept q rtc s
  | anchorEnroll q a => exact exec_anchorEnroll_kept q a s
  | anchorRemove q a => exact exec_anchorRemove_kept q a s
  | floorRaise q floor => exact exec_floorRaise_kept q floor s
  | lifecycle q target sealing => exact exec_lifecycle_kept q target sealing s
  | debugChallenge q => exact exec_debugChallenge_kept q s
  | debugToken q t => exact exec_debugToken_kept q t s
  | selftestRun q code => exact exec_selftestRun_kept q code s
  | trainingStepComplete p lanes => exact exec_trainingStepComplete_kept p lanes s
  | trainingStepTimeout p => exact exec_trainingStepTimeout_kept p s
  | trainingRetry p => exact exec_trainingRetry_kept p s
  | leagueRsp p chk tag status failed => exact exec_leagueRsp_kept p chk tag status failed s
  | leagueRdata p chk tag sector payload => exact exec_leagueRdata_kept p chk tag sector payload s
  | leagueCtrl p ok c => exact exec_leagueCtrl_kept p ok c s
  | leagueCtrlSend p => exact exec_leagueCtrlSend_kept p s
  | leagueReplayTimeout p => exact exec_leagueReplayTimeout_kept p s
  | leagueIdleTimeout p => exact exec_leagueIdleTimeout_kept p s
  | leagueCommandTimeout p tag => exact exec_leagueCommandTimeout_kept p tag s
  | laneFault p lane => exact exec_laneFault_kept p lane s
  | symbolErrorWindow p lane errors => exact exec_symbolErrorWindow_kept p lane errors s
  | holdupOk => exact exec_holdupOk_kept  s
  | cxlLinkUp width rate => exact exec_cxlLinkUp_kept width rate s
  | ideStreamEstablished stream => exact exec_ideStreamEstablished_kept stream s
  | configurationWrite ld off v => exact exec_configurationWrite_kept ld off v s
  | phyIntN answered => exact exec_phyIntN_kept answered s
  | sessionClose session => exact exec_sessionClose_kept session s
  | tapInstruction op => exact exec_tapInstruction_kept op s

end Sys2Proof.Machine
end

