-- ==== Sys2Proof/Laws/ApartShared.lean ====
section
/-!
SUPPORT. Each operation for one hide leaves every other hide as it was: rings, publication, flash, the queue engine, admission and the checks.
-/

namespace Sys2Proof.Machine
open Sys2Proof

theorem State.frontMarker_apart (s : State) (h op : Nat) {o : Order} {t : State} (e : s.frontMarker h op = some (o, t)) :
    Apart h s t := by
  unfold State.frontMarker at e
  split at e
  · cases e
  · split at e
    · injection e with e; injection e with _ e2; subst e2; exact State.upQ_apart _ _ _
    · cases e

/-! ### Queue.lean -/

theorem State.ringErr_apart (s : State) (h : Nat) (kind : RingKind) (n : Nat) : Apart h s (State.ringErr s h kind n)
    := by
  unfold State.ringErr
  try dsimp only
  repeat' (first
    | with_reducible exact Apart.refl _ _ | (with_reducible apply Apart.after (State.upQ_apart _ _ _)) | split)

/-! ### Ops.lean -/

theorem State.countCt_apart (s : State) (h : Nat) (k : Ct) : Apart h s (State.countCt s h k) := by
  unfold State.countCt
  try dsimp only
  repeat' (first
    | with_reducible exact Apart.refl _ _ | with_reducible apply Apart.ite
    | (with_reducible apply Apart.after (State.upC_apart _ _ _)))

theorem State.backInvalidate_apart (s : State) (h off n : Nat) : Apart h s (State.backInvalidate s h off n) := by
  unfold State.backInvalidate
  try dsimp only
  repeat' (first
    | with_reducible exact Apart.refl _ _ | (with_reducible apply Apart.after (State.upA_apart _ _ _))
    | (with_reducible apply Apart.keptBy (State.enqueue_kept _ _ _ _ _) (by decide))
    | (with_reducible apply Apart.after (Apart.foldl _ (fun _ _ => ?_) _ _)))

theorem State.putEntry_apart (s : State) (h noOff : Nat) (r : OutRing) (e : List Byte) : Apart h s (State.putEntry s h
    noOff r e).1 := by
  unfold State.putEntry
  try dsimp only
  repeat' (first
    | with_reducible exact Apart.refl _ _ | (with_reducible apply Apart.keptBy (State.writeMem_kept _ _ _ _) (by decide))
    | (with_reducible apply Apart.after (State.backInvalidate_apart _ _ _ _)))

theorem State.postPacket_apart (s : State) (h noOff : Nat) (lw : Bool) (r : OutRing) (es : List (List Byte)) : Apart h
    s (State.postPacket s h noOff lw r es).1 := by
  unfold State.postPacket
  try dsimp only
  repeat' (first
    | with_reducible exact Apart.refl _ _ | (with_reducible apply Apart.keptBy (State.writeMem_kept _ _ _ _) (by decide))
    | (with_reducible apply Apart.after (State.backInvalidate_apart _ _ _ _))
    | (with_reducible apply Apart.after (State.putEntry_apart _ _ _ _ _))
    | (with_reducible apply Apart.after (Apart.foldlPair _ (fun _ _ => ?_) _ _)))

theorem State.postEntries_apart (s : State) (h noOff : Nat) (lw : Bool) (r : OutRing) (es : List (List Byte)) : Apart
    h s (State.postEntries s h noOff lw r es).1 := by
  unfold State.postEntries
  try dsimp only
  repeat' (first
    | with_reducible exact Apart.refl _ _ | (with_reducible apply Apart.after (State.postPacket_apart _ _ _ _ _ _))
    | (with_reducible apply Apart.after (Apart.foldlPair _ (fun _ _ => ?_) _ _)))

theorem State.postComp_apart (s : State) (h n : Nat) (es : List (List Byte)) : Apart h s (State.postComp s h n es) :=
    by
  unfold State.postComp
  try dsimp only
  repeat' (first
    | with_reducible exact Apart.refl _ _ | with_reducible apply Apart.ite
    | (with_reducible apply Apart.after (State.upQ_apart _ _ _))
    | (with_reducible apply Apart.after (State.postEntries_apart _ _ _ _ _ _)))

theorem State.complete_apart (s : State) (h : Nat) (cs : List Completion) : Apart h s (State.complete s h cs) := by
  unfold State.complete
  try dsimp only
  repeat' (first
    | with_reducible exact Apart.refl _ _ | (with_reducible apply Apart.after (State.upC_apart _ _ _))
    | (with_reducible apply Apart.after (State.upK_apart _ _ _))
    | (with_reducible apply Apart.after (State.countCt_apart _ _ _))
    | (with_reducible apply Apart.after (State.postComp_apart _ _ _ _))
    | (with_reducible apply Apart.after (Apart.foldl _ (fun _ _ => ?_) _ _)) | split)

/-! ### Queue.lean -/

theorem State.endTaken_apart (s : State) (h : Nat) (o : Order) (status detail : Nat) (result : List Byte) : Apart h s
    (State.endTaken s h o status detail result) := by
  unfold State.endTaken
  try dsimp only
  repeat' (first
    | with_reducible exact Apart.refl _ _ | (with_reducible apply Apart.after (State.complete_apart _ _ _))
    | (with_reducible apply Apart.after (State.upQ_apart _ _ _)) | split)

theorem State.checks_apart (s : State) (h : Nat) (o : Order) : Apart h s (State.checks s h o).1 := by
  unfold State.checks
  try dsimp only
  repeat' (first
    | with_reducible exact Apart.refl _ _ | (with_reducible apply Apart.after (State.upQ_apart _ _ _))
    | (with_reducible apply Apart.after (State.upC_apart _ _ _)) | split)

/-! ### Flash.lean -/

theorem State.startJob_apart (s : State) (h : Nat) (j : Job) (lost : Bool) : Apart h s (State.startJob s h j lost).1
    := by
  unfold State.startJob
  try dsimp only
  repeat' (first
    | with_reducible exact Apart.refl _ _ | with_reducible apply Apart.ite
    | (with_reducible apply Apart.keptBy (State.enqueue_kept _ _ _ _ _) (by decide))
    | (with_reducible apply Apart.after (State.upO_apart _ _ _))
    | (with_reducible apply Apart.after (Apart.foldl _ (fun _ _ => ?_) _ _)))

/-- Writing an extent: the state it answers. -/
theorem State.writeExtent_apart (s : State) (h mask r kind key : Nat) (coded : Bool) (book : Option (Nat × Nat)) (next : Option Nat)
    (sums : List Attn.Summary) (img : List Byte) {t : State} {i j : Nat}
    (e : s.writeExtent h mask r kind key coded book next sums img = some (t, i, j)) : Apart h s t := by
  unfold State.writeExtent at e
  dsimp only at e
  split at e
  · injection e with e
    injection e with e1 _
    subst e1
    exact (State.setHide_apart _ _ _).trans (State.startJob_apart _ _ _ _)
  · cases e

theorem State.rekeyCopy_apart (s : State) (h : Nat) (f : Flight) (kind key : Nat) (c : Copy) {t : State} {g : Flight}
    (e : s.rekeyCopy h f kind key c = some (t, g)) : Apart h s t := by
  unfold State.rekeyCopy at e
  dsimp only at e
  split at e
  · split at e
    · cases e
    · next he => injection e with e; injection e with e1 _; subst e1; exact State.writeExtent_apart _ _ _ _ _ _ _ _ _ _ _ he
  · cases e

theorem State.rekeyAll_apart (h kind key : Nat) (l : List Copy) : ∀ (s : State) (f : Flight) {t : State} {g : Flight},
    s.rekeyAll h f kind key l = some (t, g) → Apart h s t := by
  induction l with
  | nil => intro s f t g e; injection e with e; injection e with e1 _; subst e1; exact Apart.refl _ _
  | cons c l ih =>
    intro s f t g e
    unfold State.rekeyAll at e
    split at e
    · cases e
    · next he => exact (State.rekeyCopy_apart _ _ _ _ _ _ he).trans (ih _ _ e)

/-- Writing pieces: both states it answers. -/
theorem State.writePieces_apart (h mask kind key : Nat) (coded : Bool) (book : Option (Nat × Nat)) (l : List (List Byte)) :
    ∀ (s : State) (r : Nat) (f : Flight) (es : List Nat),
      Apart h s (s.writePieces h mask kind key coded book r l f es).2.1 ∧
      ∀ x, (s.writePieces h mask kind key coded book r l f es).1 = some x → Apart h s x.1 := by
  induction l with
  | nil => intro s r f es; exact ⟨Apart.refl _ _, fun x e => by injection e with e; subst e; exact Apart.refl _ _⟩
  | cons b l ih =>
    intro s r f es
    unfold State.writePieces
    split
    · exact ⟨Apart.refl _ _, fun x e => by cases e⟩
    · next he =>
      have k := State.writeExtent_apart _ _ _ _ _ _ _ _ _ _ _ he
      exact ⟨k.trans (ih _ _ _ _).1, fun x e => k.trans ((ih _ _ _ _).2 x e)⟩

/-- Placing rods on flash: both states it answers. -/
theorem State.placeFlash_apart (h mask key : Nat) (d : Desc) (l : List (Copy × Rod)) : ∀ (s : State) (r : Nat) (f : Flight),
      Apart h s (s.placeFlash h mask key d r l f).2.1 ∧
      ∀ x, (s.placeFlash h mask key d r l f).1 = some x → Apart h s x.1 := by
  induction l with
  | nil => intro s r f; exact ⟨Apart.refl _ _, fun x e => by injection e with e; subst e; exact Apart.refl _ _⟩
  | cons b l ih =>
    intro s r f
    unfold State.placeFlash
    dsimp only
    split
    · exact ⟨Apart.refl _ _, fun x e => by cases e⟩
    · next he =>
      have k := State.writeExtent_apart _ _ _ _ _ _ _ _ _ _ _ he
      exact ⟨k.trans (ih _ _ _).1, fun x e => k.trans ((ih _ _ _).2 x e)⟩

/-- The state of the first or the second part of an answer with two. -/
theorem Apart.fstOf {α : Type} {h : Nat} {s t u : State} {g : α} {x : Option (State × α) × State × α} {y : State × α}
    (e : x = (some (t, g), y)) (hh : ∀ z, x.1 = some z → Apart h u z.1) (a : Apart h s u) : Apart h s t := by
  subst e; exact a.trans (hh _ rfl)
theorem Apart.fstOf3 {α β : Type} {h : Nat} {s t u : State} {g : α × β} {x : Option (State × α × β) × State × α} {y : State × α}
    (e : x = (some (t, g), y)) (hh : ∀ z, x.1 = some z → Apart h u z.1) (a : Apart h s u) : Apart h s t := by
  subst e; exact a.trans (hh _ rfl)
theorem Apart.sndOf {α β : Type} {h : Nat} {s t u : State} {g : α} {x : β × State × α} {y : β}
    (e : x = (y, t, g)) (hh : Apart h u x.2.1) (a : Apart h s u) : Apart h s t := by
  subst e; exact a.trans hh

theorem State.readExtent_apart (s : State) (h idx : Nat) : Apart h s (State.readExtent s h idx).1 := by
  unfold State.readExtent
  try dsimp only
  repeat' (first
    | with_reducible exact Apart.refl _ _ | (with_reducible apply Apart.after (State.startJob_apart _ _ _ _)) | split)

theorem State.pumpFetches_apart (s : State) (h : Nat) : Apart h s (State.pumpFetches s h) := by
  unfold State.pumpFetches
  try dsimp only
  repeat' (first
    | with_reducible exact Apart.refl _ _ | with_reducible apply Apart.ite
    | (with_reducible apply Apart.after (State.upO_apart _ _ _))
    | (with_reducible apply Apart.after (State.readExtent_apart _ _ _))
    | (with_reducible apply Apart.after (Apart.foldl _ (fun _ _ => ?_) _ _)))

theorem State.fetch_apart (s : State) (h order layer rod ext : Nat) : Apart h s (State.fetch s h order layer rod
    ext).1 := by
  unfold State.fetch
  try dsimp only
  repeat' (first
    | with_reducible exact Apart.refl _ _ | (with_reducible apply Apart.after (State.pumpFetches_apart _ _))
    | (with_reducible apply Apart.after (State.upO_apart _ _ _)))

/-! ### Queue.lean -/

theorem State.dmaRead_apart (s : State) (h order addr len : Nat) : Apart h s (State.dmaRead s h order addr len).1 :=
    by
  unfold State.dmaRead
  try dsimp only
  repeat' (first
    | with_reducible exact Apart.refl _ _ | (with_reducible apply Apart.keptBy (State.enqueue_kept _ _ _ _ _) (by decide))
    | (with_reducible apply Apart.after (State.upO_apart _ _ _)))

theorem State.queueOrder_apart (s : State) (h : Nat) (o : Order) : Apart h s (State.queueOrder s h o) := by
  unfold State.queueOrder
  try dsimp only
  repeat' (first
    | with_reducible exact Apart.refl _ _ | (with_reducible apply Apart.after (State.fetch_apart _ _ _ _ _ _))
    | (with_reducible apply Apart.after (State.upHide_apart _ _ _))
    | (with_reducible apply Apart.after (State.dmaRead_apart _ _ _ _ _))
    | (with_reducible apply Apart.after (Apart.foldl _ (fun _ _ => ?_) _ _)) | split)

theorem State.dispatchOne_apart (s : State) (h : Nat) (o : Order) : Apart h s (State.dispatchOne s h o) := by
  unfold State.dispatchOne
  try dsimp only
  repeat' (first
    | with_reducible exact Apart.refl _ _ | with_reducible apply Apart.ite
    | (with_reducible apply Apart.after (State.queueOrder_apart _ _ _))
    | (with_reducible apply Apart.after (State.checks_apart _ _ _))
    | (with_reducible apply Apart.after (State.endTaken_apart _ _ _ _ _ _))
    | (with_reducible apply Apart.after (State.upQ_apart _ _ _)) | split)

/-! ### Ops.lean -/

theorem State.postEvent_apart (s : State) (h : Nat) (es : List (List Byte)) : Apart h s (State.postEvent s h es) := by
  unfold State.postEvent
  try dsimp only
  repeat' (first
    | with_reducible exact Apart.refl _ _ | with_reducible apply Apart.ite
    | (with_reducible apply Apart.after (State.upQ_apart _ _ _))
    | (with_reducible apply Apart.after (State.postEntries_apart _ _ _ _ _ _)))

theorem State.dmaWrite_apart (s : State) (h addr : Nat) (bs : List Byte) (ep : Bool) : Apart h s (State.dmaWrite s h
    addr bs ep) := by
  unfold State.dmaWrite
  try dsimp only
  repeat' (first
    | with_reducible exact Apart.refl _ _ | (with_reducible apply Apart.keptBy (State.enqueue_kept _ _ _ _ _) (by decide))
    | (with_reducible apply Apart.after (State.upC_apart _ _ _))
    | (with_reducible apply Apart.after (Apart.foldlPair _ (fun _ _ => ?_) _ _)))

/-! ### Publish.lean -/

theorem State.trace_apart (s : State) (h : Nat) (f : Flight) : Apart h s (State.trace s h f) := by
  unfold State.trace
  try dsimp only
  repeat' (first
    | with_reducible exact Apart.refl _ _ | with_reducible apply Apart.ite
    | (with_reducible apply Apart.after (State.upK_apart _ _ _))
    | (with_reducible apply Apart.after (State.dmaWrite_apart _ _ _ _ _)))

/-! ### Admit.lean -/

theorem State.keep_apart (s : State) (h : Nat) (f : Flight) : Apart h s (State.keep s h f) := by
  unfold State.keep
  try dsimp only
  repeat' (first
    | with_reducible exact Apart.refl _ _ | with_reducible apply Apart.ite
    | (with_reducible apply Apart.after (State.upQ_apart _ _ _)) | split)

theorem State.dropFlight_apart (s : State) (h seq : Nat) : Apart h s (State.dropFlight s h seq) := by
  unfold State.dropFlight
  try dsimp only
  repeat' (first
    | with_reducible exact Apart.refl _ _ | (with_reducible apply Apart.after (State.upQ_apart _ _ _)))

/-! ### Flash.lean -/

theorem State.dropFetches_apart (s : State) (h order : Nat) : Apart h s (State.dropFetches s h order) := by
  unfold State.dropFetches
  try dsimp only
  repeat' (first
    | with_reducible exact Apart.refl _ _ | (with_reducible apply Apart.after (State.pumpFetches_apart _ _))
    | (with_reducible apply Apart.after (State.upO_apart _ _ _)))

/-! ### Publish.lean -/

theorem State.countFlash_apart (s : State) (h p : Nat) : Apart h s (State.countFlash s h p) := by
  unfold State.countFlash
  try dsimp only
  repeat' (first
    | with_reducible exact Apart.refl _ _ | (with_reducible apply Apart.after (State.upHide_apart _ _ _)))

theorem State.withhold_apart (s : State) (h p lba n : Nat) : Apart h s (State.withhold s h p lba n) := by
  unfold State.withhold
  try dsimp only
  repeat' (first
    | with_reducible exact Apart.refl _ _ | (with_reducible apply Apart.keptBy (State.upPort_kept _ _ _) (by decide))
    | (with_reducible apply Apart.after (State.upO_apart _ _ _)))

theorem State.trimEnds_apart (s : State) (h p lba n st : Nat) : Apart h s (State.trimEnds s h p lba n st) := by
  unfold State.trimEnds
  try dsimp only
  repeat' (first
    | with_reducible exact Apart.refl _ _ | with_reducible apply Apart.ite
    | (with_reducible apply Apart.after (State.countFlash_apart _ _ _))
    | (with_reducible apply Apart.after (State.withhold_apart _ _ _ _ _))
    | (with_reducible apply Apart.after (State.upO_apart _ _ _)))

theorem State.trimRefused_apart (s : State) (h p lba n : Nat) : Apart h s (State.trimRefused s h p lba n) := by
  unfold State.trimRefused
  try dsimp only
  repeat' (first
    | with_reducible exact Apart.refl _ _ | (with_reducible apply Apart.keptBy (State.upPort_kept _ _ _) (by decide))
    | (with_reducible apply Apart.after (State.trimEnds_apart _ _ _ _ _ _)))

theorem State.askTrim_apart (s : State) (h p lba n : Nat) : Apart h s (State.askTrim s h p lba n) := by
  unfold State.askTrim
  try dsimp only
  repeat' (first
    | with_reducible exact Apart.refl _ _ | with_reducible apply Apart.ite
    | (with_reducible apply Apart.after (State.trimRefused_apart _ _ _ _ _))
    | (with_reducible apply Apart.keptBy (State.enqueue_kept _ _ _ _ _) (by decide)))

/-! ### Flash.lean -/

theorem State.freeExtentNow_apart (s : State) (h idx : Nat) : Apart h s (State.freeExtentNow s h idx) := by
  unfold State.freeExtentNow
  try dsimp only
  repeat' (first
    | with_reducible exact Apart.refl _ _ | with_reducible apply Apart.ite
    | (with_reducible apply Apart.after (State.askTrim_apart _ _ _ _ _))
    | (with_reducible apply Apart.after (State.upO_apart _ _ _)) | split)

/-! ### Admit.lean -/

theorem State.giveBack_apart (s : State) (h : Nat) (f : Flight) : Apart h s (State.giveBack s h f) := by
  unfold State.giveBack
  try dsimp only
  repeat' (first
    | with_reducible exact Apart.refl _ _ | (with_reducible apply Apart.after (State.freeExtentNow_apart _ _ _))
    | (with_reducible apply Apart.after (State.upO_apart _ _ _))
    | (with_reducible apply Apart.after (Apart.foldl _ (fun _ _ => ?_) _ _)))

theorem State.putFlight_apart (s : State) (h : Nat) (f : Flight) : Apart h s (State.putFlight s h f) := by
  unfold State.putFlight
  try dsimp only
  repeat' (first
    | with_reducible exact Apart.refl _ _ | with_reducible apply Apart.ite
    | (with_reducible apply Apart.after (State.upQ_apart _ _ _))
    | (with_reducible apply Apart.after (State.dropFlight_apart _ _ _))
    | (with_reducible apply Apart.after (State.keep_apart _ _ _)))

/-! ### Queue.lean -/

theorem ringDisable_apart (h : Nat) (kind : RingKind) (n : Nat) (ctl : U32) (s : State) : Apart h s (ringDisable h
    kind n ctl s) := by
  unfold ringDisable
  try dsimp only
  repeat' (first
    | with_reducible exact Apart.refl _ _ | with_reducible apply Apart.ite
    | (with_reducible apply Apart.after (State.upQ_apart _ _ _)) | split)

theorem ringEnable_apart (h : Nat) (kind : RingKind) (n : Nat) (ctl : U32) (s : State) : Apart h s (ringEnable h kind
    n ctl s) := by
  unfold ringEnable
  try dsimp only
  repeat' (first
    | with_reducible exact Apart.refl _ _ | with_reducible apply Apart.ite
    | (with_reducible apply Apart.after (State.postEvent_apart _ _ _))
    | (with_reducible apply Apart.keptBy (State.zeroRing_kept _ _ _ _) (by decide))
    | (with_reducible apply Apart.after (State.upQ_apart _ _ _))
    | (with_reducible apply Apart.after (State.ringErr_apart _ _ _ _))
    | (with_reducible apply Apart.after (Apart.foldl _ (fun _ _ => ?_) _ _)) | split)

theorem State.dispatch_apart (s : State) (h : Nat) (n0 : Nat) : Apart h s (State.dispatch s h n0) := by
  induction n0 generalizing s with
  | zero => exact Apart.refl _ _
  | succ k ih =>
    unfold State.dispatch
    dsimp only
    split
    · exact Apart.refl _ _
    · split
      · refine Apart.trans ?_ (ih _)
        refine Apart.after (State.endTaken_apart _ _ _ _ _ _) ?_
        split
        · exact Apart.after (State.upQ_apart _ _ _) (State.upQ_apart _ _ _)
        · exact State.upQ_apart _ _ _
      · split
        · exact Apart.refl _ _
        · exact Apart.trans (Apart.after (State.dispatchOne_apart _ _ _) (State.upQ_apart _ _ _)) (ih _)

theorem State.dispatchAll_apart (s : State) (h : Nat) : Apart h s (State.dispatchAll s h) := by
  unfold State.dispatchAll
  try dsimp only
  repeat' (first
    | with_reducible exact Apart.refl _ _ | (with_reducible apply Apart.after (State.dispatch_apart _ _ _)))

/-! ### Admit.lean -/

theorem State.admit_apart (s : State) (h c : Nat) (cls : SlotClass) (is : Order → Bool) (fit : HideSt → Order → Fit)
    (eff : State → Order → Flight → State) (h_eff : ∀ x0 x1 x2, Apart h x0 (eff x0 x1 x2)) : Apart h s (State.admitFirst s
    h c cls is fit eff) := by
  unfold State.admitFirst
  try dsimp only
  repeat' (first
    | with_reducible exact Apart.refl _ _ | with_reducible apply Apart.ite
    | (with_reducible refine Apart.trans ?_ (h_eff _ _ _)) | (with_reducible apply Apart.after (State.upHide_apart _ _ _))
    | (with_reducible apply Apart.after (State.keep_apart _ _ _))
    | (with_reducible apply Apart.after (State.dropFetches_apart _ _ _))
    | (with_reducible apply Apart.after (State.upQ_apart _ _ _)) | split)

/-! ### Queue.lean -/

theorem State.takeEntries_apart (s : State) (h ring n : Nat) (timeout : Bool) : Apart h s (State.takeEntries s h ring
    n timeout) := by
  unfold State.takeEntries
  try dsimp only
  repeat' (first
    | with_reducible exact Apart.refl _ _ | with_reducible apply Apart.ite
    | (with_reducible apply Apart.keptBy (State.writeMem_kept _ _ _ _) (by decide))
    | (with_reducible apply Apart.after (State.upQ_apart _ _ _)) | (with_reducible apply Apart.after (State.upC_apart _ _ _))
    | (with_reducible apply Apart.after (Apart.foldl _ (fun _ _ => ?_) _ _)) | split)

theorem packetTimeout_apart (h ring : Nat) (s : State) : Apart h s (packetTimeout h ring s) := by
  unfold packetTimeout
  try dsimp only
  repeat' (first
    | with_reducible exact Apart.refl _ _ | with_reducible apply Apart.ite
    | (with_reducible apply Apart.after (State.takeEntries_apart _ _ _ _ _))
    | (with_reducible apply Apart.after (State.dispatchAll_apart _ _)) | split)

theorem queuePointerMismatch_apart (h : Nat) (kind : RingKind) (n : Nat) (s : State) : Apart h s (queuePointerMismatch
    h kind n s) := by
  unfold queuePointerMismatch
  try dsimp only
  repeat' (first
    | with_reducible exact Apart.refl _ _ | (with_reducible apply Apart.keptBy (State.clearTags_kept _ _ _) (by decide))
    | (with_reducible apply Apart.after (State.postEvent_apart _ _ _))
    | (with_reducible apply Apart.after (State.upQ_apart _ _ _))
    | (with_reducible apply Apart.keptBy (State.record_kept _ _ _ _ _) (by decide)) | split)

theorem heldPostTimeout_apart (h : Nat) (s : State) : Apart h s (heldPostTimeout h s) := by
  unfold heldPostTimeout
  try dsimp only
  repeat' (first
    | with_reducible exact Apart.refl _ _ | (with_reducible apply Apart.after (State.upQ_apart _ _ _)))

theorem takePacket_apart (h : Nat) (s : State) : Apart h s (takePacket h s) := by
  unfold takePacket
  try dsimp only
  repeat' (first
    | with_reducible exact Apart.refl _ _ | with_reducible apply Apart.ite
    | (with_reducible apply Apart.after (State.takeEntries_apart _ _ _ _ _))
    | (with_reducible apply Apart.after (State.dispatchAll_apart _ _)) | split)

end Sys2Proof.Machine
end

