-- ==== Sys2Proof/Laws/ApartOrders.lean ====
section
/-!
SUPPORT. Each operation for one hide leaves every other hide as it was: the orders, transactions and DMA.
-/

namespace Sys2Proof.Machine
open Sys2Proof

/-! ### Txn.lean -/

theorem beginWork_apart (h : Nat) (s : State) (o : Order) : Apart h s (beginWork h s o) := by
  unfold beginWork
  try dsimp only
  repeat' (first
    | with_reducible exact Apart.refl _ _ | (with_reducible apply Apart.after (State.upQ_apart _ _ _))
    | (with_reducible apply Apart.after (State.endTaken_apart _ _ _ _ _ _))
    | (with_reducible apply Apart.after (State.checks_apart _ _ _))
    | (with_reducible apply Apart.after (State.dispatchOne_apart _ _ _)) | split)

/-! ### Move.lean -/

theorem State.forget_apart (s : State) (h : Nat) (f : Flight) : Apart h s (State.forget s h f).1 := by
  unfold State.forget
  try dsimp only
  repeat' (first
    | with_reducible exact Apart.refl _ _ | (with_reducible apply Apart.after (State.upO_apart _ _ _)))

/-! ### Append.lean -/

theorem State.revoke_apart (s : State) (h : Nat) (f : Flight) : Apart h s (State.revoke s h f) := by
  unfold State.revoke
  try dsimp only
  repeat' (first
    | with_reducible exact Apart.refl _ _ | (with_reducible apply Apart.after (State.upO_apart _ _ _))
    | (with_reducible apply Apart.after (State.giveBack_apart _ _ _)))

/-! ### StepOrders.lean -/

theorem State.putPieces_apart (s : State) (h : Nat) (f : Flight) (ps : List HeldOut) : Apart h s (State.putPieces s h
    f ps).1 := by
  unfold State.putPieces
  try dsimp only
  repeat' (first
    | with_reducible exact Apart.refl _ _ | with_reducible apply Apart.ite
    | (with_reducible apply Apart.after (State.upC_apart _ _ _))
    | (with_reducible apply Apart.after (State.dmaWrite_apart _ _ _ _ _))
    | (with_reducible apply Apart.after (Apart.foldlPair _ (fun _ _ => ?_) _ _)) | split)

/-! ### Replays.lean -/

theorem State.release_apart (s : State) (h : Nat) (f : Flight) (entries : List Nat) (g : HeldOut → HeldOut) : Apart h
    s (State.release s h f entries g).1 := by
  unfold State.release
  try dsimp only
  repeat' (first
    | with_reducible exact Apart.refl _ _ | (with_reducible apply Apart.after (State.dmaWrite_apart _ _ _ _ _))
    | (with_reducible apply Apart.after (State.putPieces_apart _ _ _ _))
    | (with_reducible apply Apart.after (Apart.foldl _ (fun _ _ => ?_) _ _)) | split)

/-! ### Txn.lean -/

theorem State.abortTxn_apart (s : State) (h : Nat) (t : Txn) : Apart h s (State.abortTxn s h t) := by
  unfold State.abortTxn
  try dsimp only
  repeat' (first
    | with_reducible exact Apart.refl _ _ | (with_reducible apply Apart.after (State.upQ_apart _ _ _))
    | (with_reducible apply Apart.after (State.revoke_apart _ _ _))
    | (with_reducible apply Apart.after (Apart.foldl _ (fun _ _ => ?_) _ _)))

/-! ### Meta.lean -/

theorem State.settle_apart (s : State) (h : Nat) (f : Flight) : Apart h s (State.settle s h f) := by
  unfold State.settle
  try dsimp only
  repeat' (first
    | with_reducible exact Apart.refl _ _ | with_reducible apply Apart.ite
    | (with_reducible apply Apart.after (State.keep_apart _ _ _))
    | (with_reducible apply Apart.after (State.putFlight_apart _ _ _)))

theorem State.close_apart (s : State) (h : Nat) (f : Flight) (e : Env) : Apart h s (State.close s h f e) := by
  unfold State.close
  try dsimp only
  repeat' (first
    | with_reducible exact Apart.refl _ _ | (with_reducible apply Apart.after (State.settle_apart _ _ _))
    | (with_reducible apply Apart.keptBy (State.hold_kept _ _ _ _ _) (by decide)))

/-! ### Rods.lean -/

theorem State.eccResult_apart (s : State) (h : Nat) (e : DramErr) : Apart h s (State.eccResult s h e) := by
  unfold State.eccResult
  try dsimp only
  repeat' (first
    | with_reducible exact Apart.refl _ _ | with_reducible apply Apart.ite
    | (with_reducible apply Apart.keptBy (State.upCluster_kept _ _ _) (by decide))
    | (with_reducible apply Apart.after (State.upO_apart _ _ _)) | split | (with_reducible apply Apart.upd))

theorem State.stored_apart (s : State) (h : Nat) (e : Env) : Apart h s (State.stored s h e) := by
  unfold State.stored
  try dsimp only
  repeat' (first
    | with_reducible exact Apart.refl _ _ | (with_reducible apply Apart.after (State.upO_apart _ _ _))
    | (with_reducible apply Apart.after (State.eccResult_apart _ _ _))
    | (with_reducible apply Apart.after (Apart.foldl _ (fun _ _ => ?_) _ _)))

/-! ### Meta.lean -/

theorem forkWork_apart (h : Nat) (e : Env) (s : State) (o : Order) (f : Flight) : Apart h s (forkWork h e s o f) := by
  unfold forkWork
  try dsimp only
  repeat' (first
    | with_reducible exact Apart.refl _ _ | with_reducible apply Apart.ite
    | (with_reducible apply Apart.after (State.close_apart _ _ _ _))
    | (with_reducible apply Apart.after (State.keep_apart _ _ _))
    | (with_reducible apply Apart.after (State.stored_apart _ _ _)) | split)

/-! ### Move.lean -/

theorem State.abandon_apart (s : State) (h : Nat) (f : Flight) (status detail : Nat) (result : List Byte := []) :
    Apart h s (State.abandon s h f status detail result) := by
  unfold State.abandon
  try dsimp only
  repeat' (first
    | with_reducible exact Apart.refl _ _ | (with_reducible apply Apart.after (State.settle_apart _ _ _))
    | (with_reducible apply Apart.after (State.giveBack_apart _ _ _))
    | (with_reducible apply Apart.after (State.forget_apart _ _ _)))

/-! ### Meta.lean -/

theorem createEnd_apart (h : Nat) (s : State) (o : Order) (d : Desc) (q : Seq) (f : Flight) (e : Env) : Apart h s
    (createEnd h s o d q f e) := by
  unfold createEnd
  try dsimp only
  repeat' (first
    | with_reducible exact Apart.refl _ _ | (with_reducible apply Apart.after (State.close_apart _ _ _ _))
    | (with_reducible apply Apart.after (State.upO_apart _ _ _)))

theorem State.undo_apart (s : State) (h : Nat) (f : Flight) (status detail : Nat) : Apart h s (State.undo s h f status
    detail) := by
  unfold State.undo
  try dsimp only
  repeat' (first
    | with_reducible exact Apart.refl _ _ | (with_reducible apply Apart.after (State.settle_apart _ _ _))
    | (with_reducible apply Apart.after (State.giveBack_apart _ _ _)))

theorem createStep_apart (h c : Nat) (e : Env) (s : State) (f : Flight) : Apart h s (createStep h c e s f) := by
  unfold createStep
  try dsimp only
  repeat' (first
    | with_reducible exact Apart.refl _ _ | with_reducible apply Apart.ite
    | (with_reducible apply Apart.after (State.settle_apart _ _ _))
    | (with_reducible apply Apart.after (createEnd_apart _ _ _ _ _ _ _))
    | (with_reducible apply Apart.after (State.upO_apart _ _ _))
    | (with_reducible apply Apart.after (State.undo_apart _ _ _ _ _))
    | (with_reducible apply Apart.after (State.stored_apart _ _ _))
    | (with_reducible apply Apart.after (State.rekeyAll_apart _ _ _ _ _ _ ‹_ = some (_, _)›)) | split)

/-! ### StepOrders.lean -/

theorem State.stepDone_apart (s : State) (h : Nat) (f : Flight) (j : StepJob) (es : List Entry) : Apart h s
    (State.stepDone s h f j es) := by
  unfold State.stepDone
  try dsimp only
  repeat' (first
    | with_reducible exact Apart.refl _ _ | (with_reducible apply Apart.after (State.settle_apart _ _ _))
    | (with_reducible apply Apart.after (State.dropFetches_apart _ _ _)))

theorem State.stepNext_apart (s : State) (h : Nat) (f : Flight) (j : StepJob) (es : List Entry) : Apart h s
    (State.stepNext s h f j es) := by
  unfold State.stepNext
  try dsimp only
  repeat' (first
    | with_reducible exact Apart.refl _ _ | with_reducible apply Apart.ite
    | (with_reducible apply Apart.after (State.settle_apart _ _ _))
    | (with_reducible apply Apart.after (State.stepDone_apart _ _ _ _ _)))

theorem State.withdraw_apart (s : State) (h : Nat) (f : Flight) (ext : Nat) : Apart h s (State.withdraw s h f ext) :=
    by
  unfold State.withdraw
  try dsimp only
  repeat' (first
    | with_reducible exact Apart.refl _ _ | with_reducible apply Apart.ite
    | (with_reducible apply Apart.after (State.settle_apart _ _ _))
    | (with_reducible apply Apart.after (State.stepNext_apart _ _ _ _ _))
    | (with_reducible apply Apart.after (State.putPieces_apart _ _ _ _))
    | (with_reducible apply Apart.after (Apart.foldlPair _ (fun _ _ => ?_) _ _)) | split)

theorem State.markFetch_apart (s : State) (h id : Nat) (k : Fetch) : Apart h s (State.markFetch s h id k) := by
  unfold State.markFetch
  try dsimp only
  repeat' (first
    | with_reducible exact Apart.refl _ _ | (with_reducible apply Apart.after (State.upO_apart _ _ _)))

theorem State.missFetch_apart (s : State) (h id : Nat) (k : Fetch) : Apart h s (State.missFetch s h id k) := by
  unfold State.missFetch
  try dsimp only
  repeat' (first
    | with_reducible exact Apart.refl _ _ | with_reducible apply Apart.ite
    | (with_reducible apply Apart.after (State.withdraw_apart _ _ _ _))
    | (with_reducible apply Apart.after (State.markFetch_apart _ _ _ _)) | split)

theorem fetchDeadline_apart (h id : Nat) (s : State) : Apart h s (fetchDeadline h id s) := by
  unfold fetchDeadline
  try dsimp only
  repeat' (first
    | with_reducible exact Apart.refl _ _ | with_reducible apply Apart.ite
    | (with_reducible apply Apart.after (State.missFetch_apart _ _ _ _))
    | (with_reducible apply Apart.after (State.markFetch_apart _ _ _ _)) | split)

/-! ### Move.lean -/

theorem placeEnd_apart (h : Nat) (s : State) (j : PlaceJob) (lines : Nat) (f : Flight) (e : Env) : Apart h s (placeEnd
    h s j lines f e) := by
  unfold placeEnd
  try dsimp only
  repeat' (first
    | with_reducible exact Apart.refl _ _ | (with_reducible apply Apart.after (State.close_apart _ _ _ _))
    | (with_reducible apply Apart.after (State.forget_apart _ _ _)))

theorem swapOutEnd_apart (h : Nat) (s : State) (f : Flight) (serial size : Nat) (ext : Option Nat) (e : Env) : Apart h
    s (swapOutEnd h s f serial size ext e) := by
  unfold swapOutEnd
  try dsimp only
  repeat' (first
    | with_reducible exact Apart.refl _ _ | (with_reducible apply Apart.after (State.close_apart _ _ _ _))
    | (with_reducible apply Apart.after (State.forget_apart _ _ _)))

theorem swapOutStep_apart (h c : Nat) (e : Env) (s : State) (f : Flight) : Apart h s (swapOutStep h c e s f) := by
  unfold swapOutStep
  try dsimp only
  repeat' (first
    | with_reducible exact Apart.refl _ _ | with_reducible apply Apart.ite
    | (with_reducible apply Apart.after (State.upO_apart _ _ _))
    | (with_reducible apply Apart.after (State.settle_apart _ _ _))
    | (with_reducible apply Apart.after (State.forget_apart _ _ _))
    | (with_reducible apply Apart.after (State.dmaWrite_apart _ _ _ _ _))
    | (with_reducible apply Apart.after (State.upK_apart _ _ _))
    | (with_reducible apply Apart.after (swapOutEnd_apart _ _ _ _ _ _ _))
    | (with_reducible apply Apart.after (State.abandon_apart _ _ _ _ _ _))
    | (with_reducible apply Apart.after (State.stored_apart _ _ _))
    | (refine Apart.sndOf ‹_› (State.writePieces_apart _ _ _ _ _ _ _ _ _ _ _).1 ?_)
    | (refine Apart.fstOf3 ‹_› (fun z hz => (State.writePieces_apart _ _ _ _ _ _ _ _ _ _ _).2 z hz) ?_) | split)

/-! ### Meta.lean -/

theorem State.beginCopies_apart (s : State) (h : Nat) (f : Flight) (cs : List (Nat × Nat × Page × Bool)) : Apart h s
    (State.beginCopies s h f cs).1 := by
  unfold State.beginCopies
  try dsimp only
  repeat' (first
    | with_reducible exact Apart.refl _ _ | (with_reducible apply Apart.after (State.readExtent_apart _ _ _))
    | (with_reducible apply Apart.after (Apart.foldlPair _ (fun _ _ => ?_) _ _)) | split)

/-! ### Move.lean -/

theorem swapOutWork_apart (h c : Nat) (e : Env) (s : State) (o : Order) (f : Flight) : Apart h s (swapOutWork h c e s
    o f) := by
  unfold swapOutWork
  try dsimp only
  repeat' (first
    | with_reducible exact Apart.refl _ _ | with_reducible apply Apart.ite
    | (with_reducible apply Apart.after (swapOutStep_apart _ _ _ _ _))
    | (with_reducible apply Apart.after (State.beginCopies_apart _ _ _ _))
    | (with_reducible apply Apart.after (State.keep_apart _ _ _))
    | (with_reducible apply Apart.after (State.stored_apart _ _ _)) | split)

/-! ### StepOrders.lean -/

theorem State.emit_apart (s : State) (h : Nat) (f : Flight) (i : Nat) (ps : List HeldOut) : Apart h s (State.emit s h
    f i ps).1 := by
  unfold State.emit
  try dsimp only
  repeat' (first
    | with_reducible exact Apart.refl _ _ | (with_reducible apply Apart.after (State.putPieces_apart _ _ _ _)) | split)

theorem stepRun_apart (h c : Nat) (e : Env) (s : State) (f : Flight) : Apart h s (stepRun h c e s f) := by
  unfold stepRun
  try dsimp only
  repeat' (first
    | with_reducible exact Apart.refl _ _ | (with_reducible apply Apart.after (State.stepNext_apart _ _ _ _ _))
    | (with_reducible apply Apart.after (State.emit_apart _ _ _ _ _))
    | (with_reducible apply Apart.keptBy (State.hold_kept _ _ _ _ _) (by decide))
    | (with_reducible apply Apart.after (State.dropFetches_apart _ _ _))
    | (with_reducible apply Apart.after (State.settle_apart _ _ _))
    | (with_reducible apply Apart.after (State.stored_apart _ _ _))
    | (with_reducible apply Apart.after (Apart.foldlPair _ (fun _ _ => ?_) _ _)) | split)

theorem State.queueBlocks_apart (s : State) (h : Nat) (f : Flight) (ks : List (Nat × Nat)) : Apart h s
    (State.queueBlocks s h f ks).1 := by
  unfold State.queueBlocks
  try dsimp only
  repeat' (first
    | with_reducible exact Apart.refl _ _ | (with_reducible apply Apart.after (State.upO_apart _ _ _)))

theorem State.stepFetches_apart (s : State) (h : Nat) (f : Flight) (ns : List Need) : Apart h s (State.stepFetches s h
    f ns).1 := by
  unfold State.stepFetches
  try dsimp only
  repeat' (first
    | with_reducible exact Apart.refl _ _ | (with_reducible apply Apart.after (State.fetch_apart _ _ _ _ _ _))
    | (with_reducible apply Apart.after (State.upO_apart _ _ _))
    | (with_reducible apply Apart.after (Apart.foldlPair _ (fun _ _ => ?_) _ _)) | split)

theorem stepWork_apart (h c : Nat) (e : Env) (s : State) (o : Order) (f : Flight) : Apart h s (stepWork h c e s o f)
    := by
  unfold stepWork
  try dsimp only
  repeat' (first
    | with_reducible exact Apart.refl _ _ | with_reducible apply Apart.ite
    | (with_reducible apply Apart.after (stepRun_apart _ _ _ _ _))
    | (with_reducible apply Apart.after (State.queueBlocks_apart _ _ _ _))
    | (with_reducible apply Apart.after (State.stepFetches_apart _ _ _ _))
    | (with_reducible apply Apart.after (State.dropFetches_apart _ _ _))
    | (with_reducible apply Apart.after (State.keep_apart _ _ _))
    | (with_reducible apply Apart.after (State.stored_apart _ _ _)) | split)

/-! ### Move.lean -/

theorem State.readExtents_apart (s : State) (h : Nat) (f : Flight) (es : List Nat) : Apart h s (State.readExtents s h
    f es).1 := by
  unfold State.readExtents
  try dsimp only
  repeat' (first
    | with_reducible exact Apart.refl _ _ | (with_reducible apply Apart.after (State.readExtent_apart _ _ _))
    | (with_reducible apply Apart.after (Apart.foldlPair _ (fun _ _ => ?_) _ _)))

theorem placeObjWork_apart (h : Nat) (e : Env) (s : State) (o : Order) (f : Flight) : Apart h s (placeObjWork h e s o
    f) := by
  unfold placeObjWork
  try dsimp only
  repeat' (first
    | with_reducible exact Apart.refl _ _ | with_reducible apply Apart.ite
    | (with_reducible apply Apart.after (State.readExtents_apart _ _ _ _))
    | (with_reducible apply Apart.after (State.abandon_apart _ _ _ _ _ _))
    | (with_reducible apply Apart.after (State.close_apart _ _ _ _))
    | (with_reducible apply Apart.after (State.keep_apart _ _ _))
    | (refine Apart.sndOf ‹_› (State.writePieces_apart _ _ _ _ _ _ _ _ _ _ _).1 ?_)
    | (refine Apart.fstOf3 ‹_› (fun z hz => (State.writePieces_apart _ _ _ _ _ _ _ _ _ _ _).2 z hz) ?_) | split)

/-! ### Meta.lean -/

theorem admitSeqWork_apart (h : Nat) (e : Env) (s : State) (o : Order) (f : Flight) : Apart h s (admitSeqWork h e s o
    f) := by
  unfold admitSeqWork
  try dsimp only
  repeat' (first
    | with_reducible exact Apart.refl _ _ | with_reducible apply Apart.ite
    | (with_reducible apply Apart.after (State.close_apart _ _ _ _))
    | (with_reducible apply Apart.after (State.upO_apart _ _ _))
    | (with_reducible apply Apart.after (State.keep_apart _ _ _))
    | (with_reducible apply Apart.after (State.stored_apart _ _ _)) | split)

/-! ### Deliver.lean -/

theorem State.deliverEnd_apart (s : State) (h : Nat) (f : Flight) (e : Env) : Apart h s (State.deliverEnd s h f e) :=
    by
  unfold State.deliverEnd
  try dsimp only
  repeat' (first
    | with_reducible exact Apart.refl _ _ | (with_reducible apply Apart.after (State.close_apart _ _ _ _))
    | (with_reducible apply Apart.after (State.dropFetches_apart _ _ _)))

/-! ### StepOrders.lean -/

theorem State.endFetch_apart (s : State) (h id : Nat) (k : Fetch) : Apart h s (State.endFetch s h id k) := by
  unfold State.endFetch
  try dsimp only
  repeat' (first
    | with_reducible exact Apart.refl _ _ | (with_reducible apply Apart.after (State.upO_apart _ _ _))
    | (with_reducible apply Apart.after (State.pumpFetches_apart _ _)))

/-! ### Deliver.lean -/

theorem State.deliverOne_apart (s : State) (h : Nat) (j : DeliverJob) (f : Flight) (r : Nat × Nat × Nat) : Apart h s
    (State.deliverOne s h j f r).1 := by
  unfold State.deliverOne
  try dsimp only
  repeat' (first
    | with_reducible exact Apart.refl _ _ | with_reducible apply Apart.ite
    | (with_reducible apply Apart.after (State.endFetch_apart _ _ _ _))
    | (with_reducible apply Apart.after (State.dmaWrite_apart _ _ _ _ _)) | split)

theorem deliverDeadline_apart (h : Nat) (s : State) : Apart h s (deliverDeadline h s) := by
  unfold deliverDeadline
  try dsimp only
  repeat' (first
    | with_reducible exact Apart.refl _ _ | (with_reducible apply Apart.after (State.deliverEnd_apart _ _ _ _))
    | (with_reducible apply Apart.after (State.dmaWrite_apart _ _ _ _ _))
    | (with_reducible apply Apart.after (State.deliverOne_apart _ _ _ _ _))
    | (with_reducible apply Apart.after (State.dropFetches_apart _ _ _))
    | (with_reducible apply Apart.after (State.settle_apart _ _ _))
    | (with_reducible apply Apart.after (Apart.foldl _ (fun _ _ => ?_) _ _))
    | (with_reducible apply Apart.after (Apart.foldlPair _ (fun _ _ => ?_) _ _)) | split)

/-! ### Meta.lean -/

theorem promoteEnd_apart (h : Nat) (s : State) (f : Flight) (i : Nat) (p : Pfx) (e : Env) : Apart h s (promoteEnd h s
    f i p e) := by
  unfold promoteEnd
  try dsimp only
  repeat' (first
    | with_reducible exact Apart.refl _ _ | (with_reducible apply Apart.after (State.close_apart _ _ _ _))
    | (with_reducible apply Apart.after (State.upO_apart _ _ _)))

theorem promoteStep_apart (h c : Nat) (e : Env) (s : State) (f : Flight) : Apart h s (promoteStep h c e s f) := by
  unfold promoteStep
  try dsimp only
  repeat' (first
    | with_reducible exact Apart.refl _ _ | with_reducible apply Apart.ite
    | (with_reducible apply Apart.after (State.settle_apart _ _ _))
    | (with_reducible apply Apart.after (promoteEnd_apart _ _ _ _ _ _))
    | (with_reducible apply Apart.after (State.upO_apart _ _ _))
    | (with_reducible apply Apart.after (State.undo_apart _ _ _ _ _))
    | (with_reducible apply Apart.after (State.stored_apart _ _ _))
    | (with_reducible apply Apart.after (State.rekeyAll_apart _ _ _ _ _ _ ‹_ = some (_, _)›)) | split)

/-! ### Deliver.lean -/

theorem deliverStep_apart (h c : Nat) (e : Env) (s : State) (f : Flight) : Apart h s (deliverStep h c e s f) := by
  unfold deliverStep
  try dsimp only
  repeat' (first
    | with_reducible exact Apart.refl _ _ | with_reducible apply Apart.ite
    | (with_reducible apply Apart.after (State.deliverEnd_apart _ _ _ _))
    | (with_reducible apply Apart.after (State.deliverOne_apart _ _ _ _ _))
    | (with_reducible apply Apart.after (State.dropFetches_apart _ _ _))
    | (with_reducible apply Apart.after (State.settle_apart _ _ _))
    | (with_reducible apply Apart.after (State.stored_apart _ _ _))
    | (with_reducible apply Apart.after (Apart.foldlPair _ (fun _ _ => ?_) _ _)) | split)

theorem deliverWork_apart (h c : Nat) (e : Env) (s : State) (o : Order) (f : Flight) : Apart h s (deliverWork h c e s
    o f) := by
  unfold deliverWork
  try dsimp only
  repeat' (first
    | with_reducible exact Apart.refl _ _ | with_reducible apply Apart.ite
    | (with_reducible apply Apart.after (deliverStep_apart _ _ _ _ _))
    | (with_reducible apply Apart.after (State.queueBlocks_apart _ _ _ _))
    | (with_reducible apply Apart.after (State.fetch_apart _ _ _ _ _ _))
    | (with_reducible apply Apart.after (State.keep_apart _ _ _))
    | (with_reducible apply Apart.after (State.stored_apart _ _ _))
    | (with_reducible apply Apart.after (Apart.foldlPair _ (fun _ _ => ?_) _ _)) | split)

/-! ### Txn.lean -/

theorem txnTimeout_apart (h ring : Nat) (s : State) : Apart h s (txnTimeout h ring s) := by
  unfold txnTimeout
  try dsimp only
  repeat' (first
    | with_reducible exact Apart.refl _ _ | (with_reducible apply Apart.after (State.dropFetches_apart _ _ _))
    | (with_reducible apply Apart.after (State.endTaken_apart _ _ _ _ _ _))
    | (with_reducible apply Apart.after (State.dispatchAll_apart _ _))
    | (with_reducible apply Apart.after (State.upO_apart _ _ _)) | (with_reducible apply Apart.after (State.upQ_apart _ _ _))
    | (with_reducible apply Apart.after (Apart.foldl _ (fun _ _ => ?_) _ _)) | split)

/-! ### Meta.lean -/

theorem State.run_apart (s : State) (h c : Nat) (cls : SlotClass) (is : Order → Bool) (step : State → Flight → State)
    (work : State → Order → Flight → State) (h_step : ∀ x0 x1, Apart h x0 (step x0 x1)) (h_work : ∀ x0 x1 x2, Apart h
    x0 (work x0 x1 x2)) : Apart h s (State.run s h c cls is step work) := by
  unfold State.run
  try dsimp only
  repeat' (first
    | with_reducible exact Apart.refl _ _ | (with_reducible assumption) | (with_reducible refine Apart.trans ?_ (h_step _ _))
    | (with_reducible apply Apart.after (State.admit_apart _ _ _ _ _ _ _ ?_)) | split)

/-! ### StateScore.lean -/

theorem State.closeOut_apart (s : State) (h : Nat) (f : Flight) (e : Env) (ps : List HeldOut) : Apart h s
    (State.closeOut s h f e ps) := by
  unfold State.closeOut
  try dsimp only
  repeat' (first
    | with_reducible exact Apart.refl _ _ | with_reducible apply Apart.ite
    | (with_reducible apply Apart.after (State.dmaWrite_apart _ _ _ _ _))
    | (with_reducible apply Apart.after (State.settle_apart _ _ _))
    | (with_reducible apply Apart.keptBy (State.hold_kept _ _ _ _ _) (by decide))
    | (with_reducible apply Apart.after (Apart.foldl _ (fun _ _ => ?_) _ _)))

/-! ### Txn.lean -/

theorem dropWork_apart (h : Nat) (s : State) (o : Order) : Apart h s (dropWork h s o) := by
  unfold dropWork
  try dsimp only
  repeat' (first
    | with_reducible exact Apart.refl _ _ | with_reducible apply Apart.ite
    | (with_reducible apply Apart.keptBy (State.writeMem_kept _ _ _ _) (by decide))
    | (with_reducible apply Apart.after (State.backInvalidate_apart _ _ _ _))
    | (with_reducible apply Apart.after (State.upQ_apart _ _ _))
    | (with_reducible apply Apart.after (State.endTaken_apart _ _ _ _ _ _))
    | (with_reducible apply Apart.after (State.checks_apart _ _ _))
    | (with_reducible apply Apart.after (State.dispatchOne_apart _ _ _)) | split)

/-! ### Move.lean -/

theorem State.swapInFail_apart (s : State) (h : Nat) (f : Flight) (status : Nat) : Apart h s (State.swapInFail s h f
    status) := by
  unfold State.swapInFail
  try dsimp only
  repeat' (first
    | with_reducible exact Apart.refl _ _ | (with_reducible apply Apart.after (State.abandon_apart _ _ _ _ _ _))
    | (with_reducible apply Apart.after (State.upO_apart _ _ _)) | split)

theorem placeStep_apart (h c : Nat) (e : Env) (s : State) (f : Flight) : Apart h s (placeStep h c e s f) := by
  unfold placeStep
  try dsimp only
  repeat' (first
    | with_reducible exact Apart.refl _ _ | with_reducible apply Apart.ite
    | (with_reducible apply Apart.after (State.upO_apart _ _ _))
    | (with_reducible apply Apart.after (State.settle_apart _ _ _))
    | (with_reducible apply Apart.after (State.forget_apart _ _ _))
    | (with_reducible apply Apart.after (placeEnd_apart _ _ _ _ _ _))
    | (with_reducible apply Apart.after (State.abandon_apart _ _ _ _ _ _))
    | (with_reducible apply Apart.after (State.stored_apart _ _ _))
    | (refine Apart.sndOf ‹_› (State.placeFlash_apart _ _ _ _ _ _ _ _).1 ?_)
    | (refine Apart.fstOf ‹_› (fun z hz => (State.placeFlash_apart _ _ _ _ _ _ _ _).2 z hz) ?_) | split)

/-! ### Txn.lean -/

theorem State.takeMarker_apart (s : State) (h op : Nat) (eff : State → Order → State) (h_eff : ∀ x0 x1, Apart h x0
    (eff x0 x1)) : Apart h s (State.takeMarker s h op eff) := by
  unfold State.takeMarker
  split
  · exact Apart.refl _ _
  · next he =>
    exact Apart.after (State.dispatchAll_apart _ _) ((State.frontMarker_apart _ _ _ he).trans (h_eff _ _))

theorem closeWork_apart (h : Nat) (commit : Bool) (s : State) (o : Order) : Apart h s (closeWork h commit s o) := by
  unfold closeWork
  try dsimp only
  repeat' (first
    | with_reducible exact Apart.refl _ _ | (with_reducible apply Apart.after (State.upQ_apart _ _ _))
    | (with_reducible apply Apart.after (State.endTaken_apart _ _ _ _ _ _))
    | (with_reducible apply Apart.after (State.checks_apart _ _ _)) | split)

/-! ### Move.lean -/

theorem swapInStep_apart (h c : Nat) (e : Env) (s : State) (f : Flight) : Apart h s (swapInStep h c e s f) := by
  unfold swapInStep
  try dsimp only
  repeat' (first
    | with_reducible exact Apart.refl _ _ | with_reducible apply Apart.ite
    | (with_reducible apply Apart.after (State.close_apart _ _ _ _))
    | (with_reducible apply Apart.after (State.upO_apart _ _ _))
    | (with_reducible apply Apart.after (State.forget_apart _ _ _))
    | (with_reducible apply Apart.after (State.swapInFail_apart _ _ _ _))
    | (with_reducible apply Apart.after (State.stored_apart _ _ _)) | split)

/-! ### StepOrders.lean -/

theorem State.renewFetches_apart (s : State) (h : Nat) (f : Flight) : Apart h s (State.renewFetches s h f).1 := by
  unfold State.renewFetches
  try dsimp only
  repeat' (first
    | with_reducible exact Apart.refl _ _ | (with_reducible apply Apart.after (State.fetch_apart _ _ _ _ _ _))
    | (with_reducible apply Apart.after (State.endFetch_apart _ _ _ _))
    | (with_reducible apply Apart.after (State.markFetch_apart _ _ _ _))
    | (with_reducible apply Apart.after (Apart.foldlPair _ (fun _ _ => ?_) _ _)) | split)

/-! ### Load.lean -/

theorem loadSetStep_apart (h c : Nat) (e : Env) (s : State) (f : Flight) : Apart h s (loadSetStep h c e s f) := by
  unfold loadSetStep
  try dsimp only
  repeat' (first
    | with_reducible exact Apart.refl _ _ | with_reducible apply Apart.ite
    | (with_reducible apply Apart.after (State.close_apart _ _ _ _))
    | (with_reducible apply Apart.after (State.forget_apart _ _ _))
    | (with_reducible apply Apart.after (State.upO_apart _ _ _))
    | (with_reducible apply Apart.after (State.abandon_apart _ _ _ _ _ _))
    | (with_reducible apply Apart.after (State.stored_apart _ _ _)) | split)

/-! ### Move.lean -/

theorem placeRods_apart (h c : Nat) (e : Env) (s : State) (o : Order) (f : Flight) : Apart h s (placeRods h c e s o f)
    := by
  unfold placeRods
  try dsimp only
  repeat' (first
    | with_reducible exact Apart.refl _ _ | with_reducible apply Apart.ite
    | (with_reducible apply Apart.after (placeStep_apart _ _ _ _ _))
    | (with_reducible apply Apart.after (State.queueBlocks_apart _ _ _ _))
    | (with_reducible apply Apart.after (State.readExtent_apart _ _ _))
    | (with_reducible apply Apart.after (State.upO_apart _ _ _))
    | (with_reducible apply Apart.after (State.keep_apart _ _ _))
    | (with_reducible apply Apart.after (Apart.foldlPair _ (fun _ _ => ?_) _ _)) | split)

/-! ### Meta.lean -/

theorem State.failTokens_apart (s : State) (h : Nat) : Apart h s (State.failTokens s h) := by
  unfold State.failTokens
  try dsimp only
  repeat' (first
    | with_reducible exact Apart.refl _ _ | (with_reducible apply Apart.after (State.endTaken_apart _ _ _ _ _ _))
    | (with_reducible apply Apart.after (State.upHide_apart _ _ _))
    | (with_reducible apply Apart.after (Apart.foldl _ (fun _ _ => ?_) _ _)))

/-! ### Load.lean -/

theorem loadBookStep_apart (h c : Nat) (e : Env) (s : State) (f : Flight) : Apart h s (loadBookStep h c e s f) := by
  unfold loadBookStep
  try dsimp only
  repeat' (first
    | with_reducible exact Apart.refl _ _ | with_reducible apply Apart.ite
    | (with_reducible apply Apart.after (State.close_apart _ _ _ _))
    | (with_reducible apply Apart.after (State.forget_apart _ _ _))
    | (with_reducible apply Apart.after (State.upO_apart _ _ _))
    | (with_reducible apply Apart.after (State.abandon_apart _ _ _ _ _ _))
    | (with_reducible apply Apart.after (State.stored_apart _ _ _)) | split)

/-! ### StepOrders.lean -/

theorem deferReentry_apart (h c : Nat) (e : Env) (s : State) : Apart h s (deferReentry h c e s) := by
  unfold deferReentry
  try dsimp only
  repeat' (first
    | with_reducible exact Apart.refl _ _ | with_reducible apply Apart.ite
    | (with_reducible apply Apart.after (stepRun_apart _ _ _ _ _))
    | (with_reducible apply Apart.after (State.putFlight_apart _ _ _))
    | (with_reducible apply Apart.after (State.renewFetches_apart _ _ _))
    | (with_reducible apply Apart.after (State.upQ_apart _ _ _))
    | (with_reducible apply Apart.after (State.dropFetches_apart _ _ _))
    | (with_reducible apply Apart.after (State.settle_apart _ _ _)) | split)

/-! ### Move.lean -/

theorem placeObjEnd_apart (h : Nat) (s : State) (f : Flight) (fx : List Fx) (e : Env) : Apart h s (placeObjEnd h s f
    fx e) := by
  unfold placeObjEnd
  try dsimp only
  repeat' (first
    | with_reducible exact Apart.refl _ _ | (with_reducible apply Apart.after (State.close_apart _ _ _ _))
    | (with_reducible apply Apart.after (State.upO_apart _ _ _))
    | (with_reducible apply Apart.after (State.forget_apart _ _ _)))

/-! ### StateScore.lean -/

theorem scoreTable_apart (h : Nat) (e : Env) (s : State) (o : Order) (f : Flight) : Apart h s (scoreTable h e s o f)
    := by
  unfold scoreTable
  try dsimp only
  repeat' (first
    | with_reducible exact Apart.refl _ _ | with_reducible apply Apart.ite
    | (with_reducible apply Apart.after (State.closeOut_apart _ _ _ _ _))
    | (with_reducible apply Apart.after (State.dmaWrite_apart _ _ _ _ _))
    | (with_reducible apply Apart.after (State.keep_apart _ _ _))
    | (with_reducible apply Apart.after (Apart.foldl _ (fun _ _ => ?_) _ _)) | split)

/-! ### Meta.lean -/

theorem lookupEnd_apart (h : Nat) (s : State) (f : Flight) (w : LookupWork) (e : Env) : Apart h s (lookupEnd h s f w
    e) := by
  unfold lookupEnd
  try dsimp only
  repeat' (first
    | with_reducible exact Apart.refl _ _ | with_reducible apply Apart.ite
    | (with_reducible apply Apart.after (State.settle_apart _ _ _))
    | (with_reducible apply Apart.after (State.close_apart _ _ _ _)) | split)

theorem lookupContinue_apart (h c : Nat) (e : Env) (s : State) : Apart h s (lookupContinue h c e s) := by
  unfold lookupContinue
  try dsimp only
  repeat' (first
    | with_reducible exact Apart.refl _ _ | with_reducible apply Apart.ite
    | (with_reducible apply Apart.after (State.upO_apart _ _ _))
    | (with_reducible apply Apart.after (lookupEnd_apart _ _ _ _ _))
    | (with_reducible apply Apart.after (State.upQ_apart _ _ _))
    | (with_reducible apply Apart.after (State.stored_apart _ _ _)) | split)

/-! ### Load.lean -/

theorem loadBookWork_apart (h : Nat) (e : Env) (s : State) (o : Order) (f : Flight) : Apart h s (loadBookWork h e s o
    f) := by
  unfold loadBookWork
  try dsimp only
  repeat' (first
    | with_reducible exact Apart.refl _ _ | with_reducible apply Apart.ite
    | (with_reducible apply Apart.after (State.dmaRead_apart _ _ _ _ _))
    | (with_reducible apply Apart.after (State.upO_apart _ _ _))
    | (with_reducible apply Apart.after (State.keep_apart _ _ _))
    | (with_reducible apply Apart.after (State.stored_apart _ _ _)) | split)

theorem codebookSlotReload_apart (h k c : Nat) (ok : Bool) (s : State) : Apart h s (codebookSlotReload h k c ok s) :=
    by
  unfold codebookSlotReload
  try dsimp only
  repeat' (first
    | with_reducible exact Apart.refl _ _ | (with_reducible apply Apart.after (State.upO_apart _ _ _)) | split)

/-! ### StateScore.lean -/

theorem evictScoreWork_apart (h : Nat) (e : Env) (s : State) (o : Order) (f : Flight) : Apart h s (evictScoreWork h e
    s o f) := by
  unfold evictScoreWork
  try dsimp only
  repeat' (first
    | with_reducible exact Apart.refl _ _ | with_reducible apply Apart.ite
    | (with_reducible apply Apart.after (State.closeOut_apart _ _ _ _ _))
    | (with_reducible apply Apart.after (State.keep_apart _ _ _))
    | (with_reducible apply Apart.after (State.stored_apart _ _ _)) | split)

/-! ### Move.lean -/

theorem placeObjStep_apart (h c : Nat) (e : Env) (s : State) (f : Flight) : Apart h s (placeObjStep h c e s f) := by
  unfold placeObjStep
  try dsimp only
  repeat' (first
    | with_reducible exact Apart.refl _ _ | with_reducible apply Apart.ite
    | (with_reducible apply Apart.after (placeObjEnd_apart _ _ _ _ _))
    | (with_reducible apply Apart.after (State.abandon_apart _ _ _ _ _ _))
    | (with_reducible apply Apart.after (State.stored_apart _ _ _)) | split)

/-! ### StateScore.lean -/

theorem scoreSummaries_apart (h : Nat) (e : Env) (s : State) (o : Order) (f : Flight) : Apart h s (scoreSummaries h e
    s o f) := by
  unfold scoreSummaries
  try dsimp only
  repeat' (first
    | with_reducible exact Apart.refl _ _ | with_reducible apply Apart.ite
    | (with_reducible apply Apart.after (State.closeOut_apart _ _ _ _ _))
    | (with_reducible apply Apart.after (State.dmaWrite_apart _ _ _ _ _))
    | (with_reducible apply Apart.after (State.keep_apart _ _ _))
    | (with_reducible apply Apart.after (Apart.foldl _ (fun _ _ => ?_) _ _)) | split)

theorem scoreWork_apart (h : Nat) (e : Env) (s : State) (o : Order) (f : Flight) : Apart h s (scoreWork h e s o f) :=
    by
  unfold scoreWork
  try dsimp only
  repeat' (first
    | with_reducible exact Apart.refl _ _ | with_reducible apply Apart.ite
    | (with_reducible apply Apart.after (scoreSummaries_apart _ _ _ _ _))
    | (with_reducible apply Apart.after (scoreTable_apart _ _ _ _ _))
    | (with_reducible apply Apart.after (State.stored_apart _ _ _)))

/-! ### Load.lean -/

theorem retireSetWork_apart (h : Nat) (e : Env) (s : State) (o : Order) (f : Flight) : Apart h s (retireSetWork h e s
    o f) := by
  unfold retireSetWork
  try dsimp only
  repeat' (first
    | with_reducible exact Apart.refl _ _ | with_reducible apply Apart.ite
    | (with_reducible apply Apart.after (State.close_apart _ _ _ _))
    | (with_reducible apply Apart.after (State.keep_apart _ _ _))
    | (with_reducible apply Apart.after (State.stored_apart _ _ _)) | split)

/-! ### StepOrders.lean -/

theorem State.endAppend_apart (s : State) (h seq status : Nat) : Apart h s (State.endAppend s h seq status) := by
  unfold State.endAppend
  try dsimp only
  repeat' (first
    | with_reducible exact Apart.refl _ _ | (with_reducible apply Apart.after (State.dropFetches_apart _ _ _))
    | (with_reducible apply Apart.after (State.endTaken_apart _ _ _ _ _ _))
    | (with_reducible apply Apart.after (State.upQ_apart _ _ _)) | split)

theorem fetchArrival_apart (h id : Nat) (s : State) : Apart h s (fetchArrival h id s) := by
  unfold fetchArrival
  try dsimp only
  repeat' (first
    | with_reducible exact Apart.refl _ _ | with_reducible apply Apart.ite
    | (with_reducible apply Apart.after (State.markFetch_apart _ _ _ _))
    | (with_reducible apply Apart.after (State.missFetch_apart _ _ _ _))
    | (with_reducible apply Apart.after (State.endAppend_apart _ _ _ _))
    | (with_reducible apply Apart.keptBy (State.upPort_kept _ _ _) (by decide))
    | (with_reducible apply Apart.after (State.countCt_apart _ _ _))
    | (with_reducible apply Apart.after (State.endFetch_apart _ _ _ _)) | split)

/-! ### Meta.lean -/

theorem extendWork_apart (h : Nat) (e : Env) (s : State) (o : Order) (f : Flight) : Apart h s (extendWork h e s o f)
    := by
  unfold extendWork
  try dsimp only
  repeat' (first
    | with_reducible exact Apart.refl _ _ | with_reducible apply Apart.ite
    | (with_reducible apply Apart.after (State.close_apart _ _ _ _))
    | (with_reducible apply Apart.after (State.upO_apart _ _ _))
    | (with_reducible apply Apart.after (State.keep_apart _ _ _))
    | (with_reducible apply Apart.after (State.stored_apart _ _ _)) | split)

/-! ### Move.lean -/

theorem placeGo_apart (h c : Nat) (e : Env) (s : State) (f : Flight) : Apart h s (placeGo h c e s f) := by
  unfold placeGo
  try dsimp only
  repeat' (first
    | with_reducible exact Apart.refl _ _ | with_reducible apply Apart.ite
    | (with_reducible apply Apart.after (placeObjStep_apart _ _ _ _ _))
    | (with_reducible apply Apart.after (placeStep_apart _ _ _ _ _)))

/-! ### Meta.lean -/

theorem promoteWork_apart (h c : Nat) (e : Env) (s : State) (o : Order) (f : Flight) : Apart h s (promoteWork h c e s
    o f) := by
  unfold promoteWork
  try dsimp only
  repeat' (first
    | with_reducible exact Apart.refl _ _ | with_reducible apply Apart.ite
    | (with_reducible apply Apart.after (promoteStep_apart _ _ _ _ _))
    | (with_reducible apply Apart.after (State.beginCopies_apart _ _ _ _))
    | (with_reducible apply Apart.after (State.keep_apart _ _ _))
    | (with_reducible apply Apart.after (State.stored_apart _ _ _)) | split)

theorem lookupWork_apart (h now : Nat) (e : Env) (s : State) (o : Order) (f : Flight) : Apart h s (lookupWork h now e
    s o f) := by
  unfold lookupWork
  try dsimp only
  repeat' (first
    | with_reducible exact Apart.refl _ _ | with_reducible apply Apart.ite
    | (with_reducible apply Apart.after (State.upO_apart _ _ _))
    | (with_reducible apply Apart.after (lookupEnd_apart _ _ _ _ _))
    | (with_reducible apply Apart.after (State.keep_apart _ _ _))
    | (with_reducible apply Apart.after (State.stored_apart _ _ _)) | split)

theorem retireBookWork_apart (h : Nat) (e : Env) (s : State) (o : Order) (f : Flight) : Apart h s (retireBookWork h e
    s o f) := by
  unfold retireBookWork
  try dsimp only
  repeat' (first
    | with_reducible exact Apart.refl _ _ | with_reducible apply Apart.ite
    | (with_reducible apply Apart.after (State.close_apart _ _ _ _))
    | (with_reducible apply Apart.after (State.upO_apart _ _ _))
    | (with_reducible apply Apart.after (State.keep_apart _ _ _))
    | (with_reducible apply Apart.after (State.stored_apart _ _ _)) | split)

theorem createWork_apart (h c : Nat) (e : Env) (s : State) (o : Order) (f : Flight) : Apart h s (createWork h c e s o
    f) := by
  unfold createWork
  try dsimp only
  repeat' (first
    | with_reducible exact Apart.refl _ _ | with_reducible apply Apart.ite
    | (with_reducible apply Apart.after (createStep_apart _ _ _ _ _))
    | (with_reducible apply Apart.after (State.beginCopies_apart _ _ _ _))
    | (with_reducible apply Apart.after (State.keep_apart _ _ _))
    | (with_reducible apply Apart.after (State.stored_apart _ _ _)) | split)

/-! ### Move.lean -/

theorem swapInWork_apart (h : Nat) (e : Env) (s : State) (o : Order) (f : Flight) : Apart h s (swapInWork h e s o f)
    := by
  unfold swapInWork
  try dsimp only
  repeat' (first
    | with_reducible exact Apart.refl _ _ | with_reducible apply Apart.ite
    | (with_reducible apply Apart.after (State.dmaRead_apart _ _ _ _ _))
    | (with_reducible apply Apart.after (State.readExtents_apart _ _ _ _))
    | (with_reducible apply Apart.after (State.upO_apart _ _ _))
    | (with_reducible apply Apart.after (State.keep_apart _ _ _))
    | (with_reducible apply Apart.after (State.stored_apart _ _ _)) | split)

/-! ### Meta.lean -/

theorem hashLaneDone_apart (h : Nat) (s : State) : Apart h s (hashLaneDone h s) := by
  unfold hashLaneDone
  try dsimp only
  repeat' (first
    | with_reducible exact Apart.refl _ _ | with_reducible apply Apart.ite
    | (with_reducible apply Apart.after (State.setHide_apart _ _ _)) | split)

/-! ### Move.lean -/

theorem placeWork_apart (h c : Nat) (e : Env) (s : State) (o : Order) (f : Flight) : Apart h s (placeWork h c e s o f)
    := by
  unfold placeWork
  try dsimp only
  repeat' (first
    | with_reducible exact Apart.refl _ _ | with_reducible apply Apart.ite
    | (with_reducible apply Apart.after (placeObjWork_apart _ _ _ _ _))
    | (with_reducible apply Apart.after (placeRods_apart _ _ _ _ _ _))
    | (with_reducible apply Apart.after (State.keep_apart _ _ _))
    | (with_reducible apply Apart.after (State.stored_apart _ _ _)))

/-! ### Append.lean -/

theorem recodeNow_apart (h c : Nat) (e : Env) (s : State) : Apart h s (recodeNow h c e s) := by
  unfold recodeNow
  try dsimp only
  repeat' (first
    | with_reducible exact Apart.refl _ _ | with_reducible apply Apart.ite
    | (with_reducible apply Apart.after (State.countCt_apart _ _ _))
    | (with_reducible apply Apart.after (State.upQ_apart _ _ _)) | (with_reducible apply Apart.after (State.upO_apart _ _ _))
    | (with_reducible apply Apart.after (State.stored_apart _ _ _)) | split)

/-! ### Meta.lean -/

theorem withdrawWork_apart (h : Nat) (e : Env) (s : State) (o : Order) (f : Flight) : Apart h s (withdrawWork h e s o
    f) := by
  unfold withdrawWork
  try dsimp only
  repeat' (first
    | with_reducible exact Apart.refl _ _ | with_reducible apply Apart.ite
    | (with_reducible apply Apart.after (State.close_apart _ _ _ _))
    | (with_reducible apply Apart.after (State.keep_apart _ _ _))
    | (with_reducible apply Apart.after (State.stored_apart _ _ _)) | split)

theorem retireWork_apart (h : Nat) (e : Env) (s : State) (o : Order) (f : Flight) : Apart h s (retireWork h e s o f)
    := by
  unfold retireWork
  try dsimp only
  repeat' (first
    | with_reducible exact Apart.refl _ _ | with_reducible apply Apart.ite
    | (with_reducible apply Apart.after (State.close_apart _ _ _ _))
    | (with_reducible apply Apart.after (State.keep_apart _ _ _))
    | (with_reducible apply Apart.after (State.stored_apart _ _ _)) | split)

/-! ### Append.lean -/

theorem appendWork_apart (h : Nat) (e : Env) (s : State) (o : Order) (f : Flight) : Apart h s (appendWork h e s o f)
    := by
  unfold appendWork
  try dsimp only
  repeat' (first
    | with_reducible exact Apart.refl _ _ | with_reducible apply Apart.ite
    | (with_reducible apply Apart.after (State.close_apart _ _ _ _))
    | (with_reducible apply Apart.after (State.upO_apart _ _ _))
    | (with_reducible apply Apart.after (State.keep_apart _ _ _))
    | (with_reducible apply Apart.after (State.dropFetches_apart _ _ _))
    | (with_reducible apply Apart.after (State.stored_apart _ _ _)) | split)

/-! ### StepOrders.lean -/

theorem State.stepRow_apart (s : State) (h c op : Nat) (cls : SlotClass) (fit : HideSt → Order → Fit) (e : Env) :
    Apart h s (State.stepRow s h c op cls fit e) := by
  unfold State.stepRow
  try dsimp only
  repeat' (first
    | with_reducible exact Apart.refl _ _ | (with_reducible apply Apart.after (stepWork_apart _ _ _ _ _ _))
    | (with_reducible apply Apart.after (State.admit_apart _ _ _ _ _ _ _ ?_))
    | (with_reducible apply Apart.after (stepRun_apart _ _ _ _ _)) | split | intro _)

/-! ### StateScore.lean -/

theorem stateWork_apart (h : Nat) (e : Env) (s : State) (o : Order) (f : Flight) : Apart h s (stateWork h e s o f) :=
    by
  unfold stateWork
  try dsimp only
  repeat' (first
    | with_reducible exact Apart.refl _ _ | with_reducible apply Apart.ite
    | (with_reducible apply Apart.after (State.closeOut_apart _ _ _ _ _))
    | (with_reducible apply Apart.after (State.dmaWrite_apart _ _ _ _ _))
    | (with_reducible apply Apart.after (State.keep_apart _ _ _))
    | (with_reducible apply Apart.after (State.stored_apart _ _ _)) | split)

/-! ### Load.lean -/

theorem loadSetWork_apart (h : Nat) (e : Env) (s : State) (o : Order) (f : Flight) : Apart h s (loadSetWork h e s o f)
    := by
  unfold loadSetWork
  try dsimp only
  repeat' (first
    | with_reducible exact Apart.refl _ _ | with_reducible apply Apart.ite
    | (with_reducible apply Apart.after (State.dmaRead_apart _ _ _ _ _))
    | (with_reducible apply Apart.after (State.upO_apart _ _ _))
    | (with_reducible apply Apart.after (State.keep_apart _ _ _))
    | (with_reducible apply Apart.after (State.stored_apart _ _ _)) | split)

/-! ### Txn.lean -/

theorem txnDecision_apart (h id : Nat) (s : State) : Apart h s (txnDecision h id s) := by
  unfold txnDecision
  try dsimp only
  repeat' (first
    | with_reducible exact Apart.refl _ _ | with_reducible apply Apart.ite
    | (with_reducible apply Apart.after (State.abortTxn_apart _ _ _))
    | (with_reducible apply Apart.after (State.upQ_apart _ _ _)) | split)

end Sys2Proof.Machine
end

