-- ==== Sys2Proof/Laws/ApartAttach.lean ====
section
/-!
SUPPORT. Each operation for one hide leaves every other hide as it was: leases, hide resets, buffers, keys and the hide windows.
-/

namespace Sys2Proof.Machine
open Sys2Proof

/-! ### HideRegs.lean -/

theorem State.ringBase_apart (s : State) (h : Nat) (kind : RingKind) (n v : Nat) : Apart h s (State.ringBase s h kind
    n v) := by
  unfold State.ringBase
  try dsimp only
  repeat' (first
    | with_reducible exact Apart.refl _ _ | with_reducible apply Apart.ite
    | (with_reducible apply Apart.after (State.upQ_apart _ _ _))
    | (with_reducible apply Apart.after (State.ringErr_apart _ _ _ _)) | split)

/-! ### Resets.lean -/

theorem State.discardStaged_apart (s : State) (h : Nat) : Apart h s (State.discardStaged s h) := by
  unfold State.discardStaged
  try dsimp only
  repeat' (first
    | with_reducible exact Apart.refl _ _ | (with_reducible apply Apart.keptBy (State.upLoad_kept _ _ _) (by decide))
    | (with_reducible apply Apart.keptBy (State.config_kept _ _ _ _ _ _) (by decide))
    | (with_reducible apply Apart.after (State.upHide_apart _ _ _)) | split)

theorem State.unhold_apart (s : State) (h : Nat) (f : Flight) : Apart h s (State.unhold s h f) := by
  unfold State.unhold
  try dsimp only
  repeat' (first
    | with_reducible exact Apart.refl _ _ | (with_reducible apply Apart.after (State.upQ_apart _ _ _)))

theorem State.cutFlight_apart (s : State) (h status : Nat) (f : Flight) : Apart h s (State.cutFlight s h status f) :=
    by
  unfold State.cutFlight
  try dsimp only
  repeat' (first
    | with_reducible exact Apart.refl _ _ | with_reducible apply Apart.ite
    | (with_reducible apply Apart.after (State.complete_apart _ _ _))
    | (with_reducible apply Apart.after (State.trace_apart _ _ _))
    | (with_reducible apply Apart.after (State.keep_apart _ _ _))
    | (with_reducible apply Apart.after (State.dropFlight_apart _ _ _))
    | (with_reducible apply Apart.after (State.upO_apart _ _ _))
    | (with_reducible apply Apart.after (State.forget_apart _ _ _))
    | (with_reducible apply Apart.after (State.dropFetches_apart _ _ _))
    | (with_reducible apply Apart.after (State.revoke_apart _ _ _))
    | (with_reducible apply Apart.after (State.release_apart _ _ _ _ _)) | (with_reducible apply Apart.upd))

theorem State.endFlights_apart (s : State) (h status : Nat) : Apart h s (State.endFlights s h status) := by
  unfold State.endFlights
  try dsimp only
  repeat' (first
    | with_reducible exact Apart.refl _ _ | (with_reducible apply Apart.after (State.unhold_apart _ _ _))
    | (with_reducible apply Apart.after (State.cutFlight_apart _ _ _ _))
    | (with_reducible apply Apart.after (Apart.foldl _ (fun _ _ => ?_) _ _)))

theorem State.endQueued_apart (s : State) (h status : Nat) : Apart h s (State.endQueued s h status) := by
  unfold State.endQueued
  try dsimp only
  repeat' (first
    | with_reducible exact Apart.refl _ _ | (with_reducible apply Apart.after (State.dropFetches_apart _ _ _))
    | (with_reducible apply Apart.after (State.endTaken_apart _ _ _ _ _ _))
    | (with_reducible apply Apart.after (State.upHide_apart _ _ _))
    | (with_reducible apply Apart.after (Apart.foldl _ (fun _ _ => ?_) _ _)))

theorem State.endTxns_apart (s : State) (h status : Nat) : Apart h s (State.endTxns s h status) := by
  unfold State.endTxns
  try dsimp only
  repeat' (first
    | with_reducible exact Apart.refl _ _ | (with_reducible apply Apart.after (State.complete_apart _ _ _))
    | (with_reducible apply Apart.after (State.upQ_apart _ _ _))
    | (with_reducible apply Apart.after (State.abortTxn_apart _ _ _))
    | (with_reducible apply Apart.after (Apart.foldl _ (fun _ _ => ?_) _ _)))

theorem State.endAll_apart (s : State) (h status : Nat) : Apart h s (State.endAll s h status) := by
  unfold State.endAll
  try dsimp only
  repeat' (first
    | with_reducible exact Apart.refl _ _ | (with_reducible apply Apart.after (State.endFlights_apart _ _ _))
    | (with_reducible apply Apart.after (State.endQueued_apart _ _ _))
    | (with_reducible apply Apart.after (State.endTxns_apart _ _ _)))

theorem State.beginEnding_apart (s : State) (h : Nat) : Apart h s (State.beginEnding s h) := by
  unfold State.beginEnding
  try dsimp only
  repeat' (first
    | with_reducible exact Apart.refl _ _ | with_reducible apply Apart.ite
    | (with_reducible apply Apart.after (State.endAll_apart _ _ _))
    | (with_reducible apply Apart.after (State.endQueued_apart _ _ _))
    | (with_reducible apply Apart.after (State.upHide_apart _ _ _)))

/-! ### Acres.lean -/

theorem State.sendSnoop_apart (s : State) (h off : Nat) (inv : Bool) (why : SnoopFor) : Apart h s (State.sendSnoop s h
    off inv why) := by
  unfold State.sendSnoop
  try dsimp only
  repeat' (first
    | with_reducible exact Apart.refl _ _ | (with_reducible apply Apart.after (State.upA_apart _ _ _))
    | (with_reducible apply Apart.keptBy (State.enqueue_kept _ _ _ _ _) (by decide)))

theorem State.endHold_apart (s : State) (h n : Nat) : Apart h s (State.endHold s h n) := by
  unfold State.endHold
  try dsimp only
  repeat' (first
    | with_reducible exact Apart.refl _ _ | (with_reducible apply Apart.after (State.sendSnoop_apart _ _ _ _ _))
    | (with_reducible apply Apart.after (State.upA_apart _ _ _))
    | (with_reducible apply Apart.keptBy (State.upAcre_kept _ _ _) (by decide))
    | (with_reducible apply Apart.after (Apart.foldl _ (fun _ _ => ?_) _ _)))

theorem State.recall_apart (s : State) (h n : Nat) (exclOnly : Bool) : Apart h s (State.recall s h n exclOnly) := by
  unfold State.recall
  try dsimp only
  repeat' (first
    | with_reducible exact Apart.refl _ _ | (with_reducible apply Apart.after (State.sendSnoop_apart _ _ _ _ _))
    | (with_reducible apply Apart.after (Apart.foldl _ (fun _ _ => ?_) _ _)))

theorem State.upSlot_apart (s : State) (h n : Nat) (f : LeaseSlot → LeaseSlot) : Apart h s (State.upSlot s h n f) :=
    by
  unfold State.upSlot
  try dsimp only
  repeat' (first
    | with_reducible exact Apart.refl _ _ | (with_reducible apply Apart.after (State.upA_apart _ _ _)))

theorem State.closeSlot_apart (s : State) (h n status : Nat) (o : Origin) (wait : Bool) : Apart h s (State.closeSlot s
    h n status o wait) := by
  unfold State.closeSlot
  try dsimp only
  repeat' (first
    | with_reducible exact Apart.refl _ _ | with_reducible apply Apart.ite
    | (with_reducible apply Apart.after (State.endHold_apart _ _ _))
    | (with_reducible apply Apart.after (State.recall_apart _ _ _ _))
    | (with_reducible apply Apart.keptBy (State.leaseRecord_kept _ _ _ _) (by decide))
    | (with_reducible apply Apart.after (State.upSlot_apart _ _ _ _)))

/-! ### Resets.lean -/

theorem State.upBuf_apart (s : State) (h b : Nat) (f : HostBuf → HostBuf) : Apart h s (State.upBuf s h b f) := by
  unfold State.upBuf
  try dsimp only
  repeat' (first
    | with_reducible exact Apart.refl _ _ | (with_reducible apply Apart.after (State.upA_apart _ _ _)))

theorem State.bufErr_apart (s : State) (h : Nat) : Apart h s (State.bufErr s h) := by
  unfold State.bufErr
  try dsimp only
  repeat' (first
    | with_reducible exact Apart.refl _ _ | (with_reducible apply Apart.after (State.upA_apart _ _ _)))

theorem State.bufCtl_apart (s : State) (h b : Nat) (ctl : U32) : Apart h s (State.bufCtl s h b ctl) := by
  unfold State.bufCtl
  try dsimp only
  repeat' (first
    | with_reducible exact Apart.refl _ _ | with_reducible apply Apart.ite
    | (with_reducible apply Apart.after (State.upBuf_apart _ _ _ _))
    | (with_reducible apply Apart.after (State.bufErr_apart _ _)))

/-! ### HideRegs.lean -/

theorem State.bufField_apart (s : State) (h b : Nat) (f : HostBuf → HostBuf) : Apart h s (State.bufField s h b f) :=
    by
  unfold State.bufField
  try dsimp only
  repeat' (first
    | with_reducible exact Apart.refl _ _ | with_reducible apply Apart.ite
    | (with_reducible apply Apart.after (State.upBuf_apart _ _ _ _))
    | (with_reducible apply Apart.after (State.bufErr_apart _ _)))

/-! ### Acres.lean -/

theorem acRenew_apart (h : Nat) (mask : U64) (s : State) : Apart h s (acRenew h mask s) := by
  unfold acRenew
  try dsimp only
  repeat' (first
    | with_reducible exact Apart.refl _ _ | with_reducible apply Apart.ite
    | (with_reducible apply Apart.after (State.upA_apart _ _ _)))

theorem State.leaseResult_apart (s : State) (h status : Nat) : Apart h s (State.leaseResult s h status) := by
  unfold State.leaseResult
  try dsimp only
  repeat' (first
    | with_reducible exact Apart.refl _ _ | (with_reducible apply Apart.after (State.upA_apart _ _ _)))

/-! ### HideRegs.lean -/

theorem State.ringCtl_apart (s : State) (h : Nat) (kind : RingKind) (n v : Nat) : Apart h s (State.ringCtl s h kind n
    v) := by
  unfold State.ringCtl
  try dsimp only
  repeat' (first
    | with_reducible exact Apart.refl _ _ | with_reducible apply Apart.ite
    | (with_reducible apply Apart.after (ringDisable_apart _ _ _ _ _))
    | (with_reducible apply Apart.after (ringEnable_apart _ _ _ _ _)))

/-! ### Resets.lean -/

theorem State.jobKeyCommand_apart (s : State) (h : Nat) (v : U32) : Apart h s (State.jobKeyCommand s h v) := by
  unfold State.jobKeyCommand
  try dsimp only
  repeat' (first
    | with_reducible exact Apart.refl _ _ | with_reducible apply Apart.ite
    | (with_reducible apply Apart.after (State.upK_apart _ _ _)))

theorem State.trimRange_apart (s : State) (h p lba n : Nat) : Apart h s (State.trimRange s h p lba n) := by
  unfold State.trimRange
  try dsimp only
  repeat' (first
    | with_reducible exact Apart.refl _ _ | with_reducible apply Apart.ite
    | (with_reducible apply Apart.keptBy (State.upPort_kept _ _ _) (by decide))
    | (with_reducible apply Apart.after (State.upO_apart _ _ _)))

theorem State.purge_apart (s : State) (h : Nat) : Apart h s (State.purge s h) := by
  unfold State.purge
  try dsimp only
  repeat' (first
    | with_reducible exact Apart.refl _ _ | (with_reducible apply Apart.after (State.trimRange_apart _ _ _ _ _))
    | (with_reducible apply Apart.keptBy (State.nextFirst_kept _ _) (by decide))
    | (with_reducible apply Apart.keptBy (State.upPort_kept _ _ _) (by decide))
    | (with_reducible apply Apart.after (forAll_apart _ _ _ ?_)) | intro _)

theorem State.beginKeys_apart (s : State) (h : Nat) : Apart h s (State.beginKeys s h) := by
  unfold State.beginKeys
  try dsimp only
  repeat' (first
    | with_reducible exact Apart.refl _ _ | (with_reducible apply Apart.after (State.purge_apart _ _))
    | (with_reducible apply Apart.after (State.upHide_apart _ _ _))
    | (with_reducible apply Apart.keptBy (State.draw_kept _) (by decide)))

theorem State.endHeld_apart (s : State) (h : Nat) : Apart h s (State.endHeld s h) := by
  unfold State.endHeld
  try dsimp only
  repeat' (first
    | with_reducible exact Apart.refl _ _ | with_reducible apply Apart.ite
    | (with_reducible apply Apart.after (State.beginKeys_apart _ _)))

theorem State.startReset_apart (s : State) (h cause : Nat) (drain : Bool) (o : Origin) : Apart h s (State.startReset s
    h cause drain o) := by
  unfold State.startReset
  try dsimp only
  repeat' (first
    | with_reducible exact Apart.refl _ _ | with_reducible apply Apart.ite
    | (with_reducible apply Apart.after (State.beginKeys_apart _ _))
    | (with_reducible apply Apart.after (State.endAll_apart _ _ _))
    | (with_reducible apply Apart.after (State.beginEnding_apart _ _))
    | (with_reducible apply Apart.after (State.upK_apart _ _ _)) | split)

theorem hideResetGo_apart (h : Nat) (drain : Bool) (s : State) : Apart h s (hideResetGo h drain s) := by
  unfold hideResetGo
  try dsimp only
  repeat' (first
    | with_reducible exact Apart.refl _ _ | (with_reducible apply Apart.after (State.startReset_apart _ _ _ _ _)))

/-! ### HideRegs.lean -/

theorem State.hdReset_apart (s : State) (h v : Nat) : Apart h s (State.hdReset s h v) := by
  unfold State.hdReset
  try dsimp only
  repeat' (first
    | with_reducible exact Apart.refl _ _ | with_reducible apply Apart.ite
    | (with_reducible apply Apart.after (State.endHeld_apart _ _))
    | (with_reducible apply Apart.after (hideResetGo_apart _ _ _)))

theorem State.upCt_apart (s : State) (h : Nat) (f : Ct → Ct) : Apart h s (State.upCt s h f) := by
  unfold State.upCt
  try dsimp only
  repeat' (first
    | with_reducible exact Apart.refl _ _ | with_reducible apply Apart.ite
    | (with_reducible apply Apart.after (State.upC_apart _ _ _)))

/-! ### Mem.lean -/

theorem State.storeLine_apart (s : State) (h off : Nat) (data : List Byte) (poison : Bool) (cycle : Nat) : Apart h s
    (State.storeLine s h off data poison cycle) := by
  unfold State.storeLine
  try dsimp only
  repeat' (first
    | with_reducible exact Apart.refl _ _ | with_reducible apply Apart.ite
    | (with_reducible apply Apart.after (State.upQ_apart _ _ _)) | (with_reducible apply Apart.after (State.upA_apart _ _ _))
    | (with_reducible apply Apart.keptBy (State.writeMem_kept _ _ _ _) (by decide)))

theorem State.untrack_apart (s : State) (h off : Nat) : Apart h s (State.untrack s h off) := by
  unfold State.untrack
  try dsimp only
  repeat' (first
    | with_reducible exact Apart.refl _ _ | (with_reducible apply Apart.after (State.upA_apart _ _ _)))

theorem State.answered_apart (s : State) (h : Nat) (p : Snoop) : Apart h s (State.answered s h p) := by
  unfold State.answered
  try dsimp only
  repeat' (first
    | with_reducible exact Apart.refl _ _ | with_reducible apply Apart.ite
    | (with_reducible apply Apart.after (State.upA_apart _ _ _))
    | (with_reducible apply Apart.after (State.untrack_apart _ _ _)) | split)

theorem State.dropSnoop_apart (s : State) (h : Nat) (p : Snoop) : Apart h s (State.dropSnoop s h p) := by
  unfold State.dropSnoop
  try dsimp only
  repeat' (first
    | with_reducible exact Apart.refl _ _ | (with_reducible apply Apart.after (State.upA_apart _ _ _)))

theorem snoopResponse_apart (h off : Nat) (data : Option (List Byte)) (s : State) : Apart h s (snoopResponse h off
    data s) := by
  unfold snoopResponse
  try dsimp only
  repeat' (first
    | with_reducible exact Apart.refl _ _ | with_reducible apply Apart.ite
    | (with_reducible apply Apart.after (State.storeLine_apart _ _ _ _ _ _))
    | (with_reducible apply Apart.after (State.answered_apart _ _ _))
    | (with_reducible apply Apart.keptBy (State.writeAcre_kept _ _ _ _) (by decide))
    | (with_reducible apply Apart.after (State.upA_apart _ _ _))
    | (with_reducible apply Apart.after (State.dropSnoop_apart _ _ _)) | split)

/-! ### Resets.lean -/

theorem State.tspError_apart (s : State) (h : Nat) (o : Origin) : Apart h s (State.tspError s h o) := by
  unfold State.tspError
  try dsimp only
  repeat' (first
    | with_reducible exact Apart.refl _ _ | with_reducible apply Apart.ite
    | (with_reducible apply Apart.after (State.startReset_apart _ _ _ _ _)))

/-! ### HideRegs.lean -/

theorem State.hideClear_apart (s : State) (h : Nat) (r : HReg) : Apart h s (State.hideClear s h r) := by
  unfold State.hideClear
  try dsimp only
  repeat' (first
    | with_reducible exact Apart.refl _ _ | (with_reducible apply Apart.after (State.upCt_apart _ _ _))
    | (with_reducible apply Apart.after (State.upC_apart _ _ _)) | (with_reducible apply Apart.after (State.upA_apart _ _ _))
    | (with_reducible apply Apart.after (State.upQ_apart _ _ _)) | (with_reducible apply Apart.after (State.upK_apart _ _ _))
    | split)

/-! ### Mem.lean -/

theorem State.track_apart (s : State) (h off : Nat) (excl : Bool) : Apart h s (State.track s h off excl) := by
  unfold State.track
  try dsimp only
  repeat' (first
    | with_reducible exact Apart.refl _ _ | with_reducible apply Apart.ite
    | (with_reducible apply Apart.after (State.sendSnoop_apart _ _ _ _ _))
    | (with_reducible apply Apart.after (State.upA_apart _ _ _)) | split)

theorem State.refuse_apart (s : State) (h n kind off : Nat) : Apart h s (State.refuse s h n kind off) := by
  unfold State.refuse
  try dsimp only
  repeat' (first
    | with_reducible exact Apart.refl _ _ | (with_reducible apply Apart.after (State.upSlot_apart _ _ _ _)))

/-! ### Resets.lean -/

theorem hideResetHeldTimeout_apart (h : Nat) (s : State) : Apart h s (hideResetHeldTimeout h s) := by
  unfold hideResetHeldTimeout
  try dsimp only
  repeat' (first
    | with_reducible exact Apart.refl _ _ | (with_reducible apply Apart.after (State.endHeld_apart _ _)))

/-! ### HideRegs.lean -/

theorem State.takeReg_apart (s : State) (h : Nat) (r : HReg) : Apart h s (State.takeReg s h r).1 := by
  unfold State.takeReg
  try dsimp only
  repeat' (first
    | with_reducible exact Apart.refl _ _ | with_reducible apply Apart.ite
    | (with_reducible apply Apart.after (State.hideClear_apart _ _ _)) | (with_reducible apply Apart.upd))

theorem State.takeWord_apart (s : State) (h off : Nat) : Apart h s (State.takeWord s h off).1 := by
  unfold State.takeWord
  try dsimp only
  repeat' (first
    | with_reducible exact Apart.refl _ _ | (with_reducible apply Apart.after (State.upA_apart _ _ _))
    | (with_reducible apply Apart.after (State.takeReg_apart _ _ _)) | split)

theorem State.windowRead_apart (s : State) (h off size : Nat) : Apart h s (State.windowRead s h off size).1 := by
  unfold State.windowRead
  try dsimp only
  repeat' (first
    | with_reducible exact Apart.refl _ _ | (with_reducible apply Apart.after (State.takeReg_apart _ _ _))
    | (with_reducible apply Apart.after (State.takeWord_apart _ _ _))
    | (with_reducible apply Apart.after (State.upC_apart _ _ _)) | split)

theorem registerRead_apart (h off size : Nat) (s : State) : Apart h s (registerRead h off size s) := by
  unfold registerRead
  try dsimp only
  repeat' (first
    | with_reducible exact Apart.refl _ _ | with_reducible apply Apart.ite
    | (with_reducible apply Apart.keptBy (State.enqueue_kept _ _ _ _ _) (by decide))
    | (with_reducible apply Apart.after (State.windowRead_apart _ _ _ _)) | (with_reducible refine Apart.via ‹_ = (_, _)› ?_)
    | split)

/-! ### Acres.lean -/

theorem acreScrub_apart (h n : Nat) (s : State) : Apart h s (acreScrub h n s) := by
  unfold acreScrub
  try dsimp only
  repeat' (first
    | with_reducible exact Apart.refl _ _ | with_reducible apply Apart.ite
    | (with_reducible apply Apart.keptBy (State.upAcre_kept _ _ _) (by decide))
    | (with_reducible apply Apart.after (State.upSlot_apart _ _ _ _))
    | (with_reducible apply Apart.keptBy (State.leaseRecord_kept _ _ _ _) (by decide)))

/-! ### Resets.lean -/

theorem tspStop_apart (h : Nat) (s : State) : Apart h s (tspStop h s) := by
  unfold tspStop
  try dsimp only
  repeat' (first
    | with_reducible exact Apart.refl _ _ | with_reducible apply Apart.ite
    | (with_reducible apply Apart.after (State.tspError_apart _ _ _))
    | (with_reducible apply Apart.keptBy (State.raw_kept _ _) (by decide)))

/-! ### Acres.lean -/

theorem leaseDrain_apart (h n : Nat) (s : State) : Apart h s (leaseDrain h n s) := by
  unfold leaseDrain
  try dsimp only
  repeat' (first
    | with_reducible exact Apart.refl _ _ | with_reducible apply Apart.ite
    | (with_reducible apply Apart.keptBy (State.upAcre_kept _ _ _) (by decide))
    | (with_reducible apply Apart.after (State.upSlot_apart _ _ _ _))
    | (with_reducible apply Apart.keptBy (State.leaseRecord_kept _ _ _ _) (by decide)))

/-! ### Resets.lean -/

theorem State.zeroImem_apart (s : State) (h : Nat) : Apart h s (State.zeroImem s h) := by
  unfold State.zeroImem
  try dsimp only
  repeat' (first
    | with_reducible exact Apart.refl _ _ | (with_reducible apply Apart.after (State.upA_apart _ _ _))
    | (with_reducible apply Apart.upd))

theorem bufferEnable_apart (h b : Nat) (ctl : U32) (s : State) : Apart h s (bufferEnable h b ctl s) := by
  unfold bufferEnable
  try dsimp only
  repeat' (first
    | with_reducible exact Apart.refl _ _ | with_reducible apply Apart.ite
    | (with_reducible apply Apart.after (State.bufCtl_apart _ _ _ _)))

/-! ### Acres.lean -/

theorem leaseRecallComplete_apart (h : Nat) (s : State) : Apart h s (leaseRecallComplete h s) := by
  unfold leaseRecallComplete
  try dsimp only
  repeat' (first
    | with_reducible exact Apart.refl _ _ | with_reducible apply Apart.ite
    | (with_reducible apply Apart.after (State.upSlot_apart _ _ _ _))
    | (with_reducible apply Apart.keptBy (State.leaseRecord_kept _ _ _ _) (by decide))
    | (with_reducible apply Apart.after (State.leaseResult_apart _ _ _))
    | (with_reducible apply Apart.after (State.upA_apart _ _ _)) | split)

/-! ### Mem.lean -/

theorem State.dmaEnds_apart (s : State) (h tag : Nat) (d : Dma) : Apart h s (State.dmaEnds s h tag d) := by
  unfold State.dmaEnds
  try dsimp only
  repeat' (first
    | with_reducible exact Apart.refl _ _ | with_reducible apply Apart.ite
    | (with_reducible apply Apart.after (State.failTokens_apart _ _))
    | (with_reducible apply Apart.after (State.upO_apart _ _ _)))

theorem dmaCompletion_apart (h tag : Nat) (r : DmaResult) (s : State) : Apart h s (dmaCompletion h tag r s) := by
  unfold dmaCompletion
  try dsimp only
  repeat' (first
    | with_reducible exact Apart.refl _ _ | with_reducible apply Apart.ite
    | (with_reducible apply Apart.after (State.dmaEnds_apart _ _ _ _)) | split)

/-! ### Resets.lean -/

theorem hideResetEndingDone_apart (h : Nat) (s : State) : Apart h s (hideResetEndingDone h s) := by
  unfold hideResetEndingDone
  try dsimp only
  repeat' (first
    | with_reducible exact Apart.refl _ _ | with_reducible apply Apart.ite
    | (with_reducible apply Apart.after (State.beginKeys_apart _ _))
    | (with_reducible apply Apart.after (State.upK_apart _ _ _))
    | (with_reducible apply Apart.after (State.endAll_apart _ _ _)))

theorem tspStart_apart (h : Nat) (s : State) : Apart h s (tspStart h s) := by
  unfold tspStart
  try dsimp only
  repeat' (first
    | with_reducible exact Apart.refl _ _ | with_reducible apply Apart.ite
    | (with_reducible apply Apart.after (State.upK_apart _ _ _))
    | (with_reducible apply Apart.keptBy (State.raw_kept _ _) (by decide)))

theorem tspLock_apart (h : Nat) (s : State) : Apart h s (tspLock h s) := by
  unfold tspLock
  try dsimp only
  repeat' (first
    | with_reducible exact Apart.refl _ _ | with_reducible apply Apart.ite
    | (with_reducible apply Apart.after (State.upK_apart _ _ _))
    | (with_reducible apply Apart.keptBy (State.raw_kept _ _) (by decide)))

theorem hideResetReleaseDone_apart (h : Nat) (s : State) : Apart h s (hideResetReleaseDone h s) := by
  unfold hideResetReleaseDone
  try dsimp only
  repeat' (first
    | with_reducible exact Apart.refl _ _ | with_reducible apply Apart.ite
    | (with_reducible apply Apart.after (State.upHide_apart _ _ _)) | (with_reducible apply Apart.upd))

theorem bufferDisable_apart (h b : Nat) (ctl : U32) (s : State) : Apart h s (bufferDisable h b ctl s) := by
  unfold bufferDisable
  try dsimp only
  repeat' (first
    | with_reducible exact Apart.refl _ _ | with_reducible apply Apart.ite
    | (with_reducible apply Apart.after (State.bufCtl_apart _ _ _ _)))

/-! ### Mem.lean -/

theorem dmaTimeout_apart (h tag : Nat) (s : State) : Apart h s (dmaTimeout h tag s) := by
  unfold dmaTimeout
  try dsimp only
  repeat' (first
    | with_reducible exact Apart.refl _ _ | with_reducible apply Apart.ite
    | (with_reducible apply Apart.after (State.dmaEnds_apart _ _ _ _)) | split)

/-! ### Resets.lean -/

theorem jobKeyRow_apart (op h : Nat) (v : U32) (s : State) : Apart h s (jobKeyRow op h v s) := by
  unfold jobKeyRow
  try dsimp only
  repeat' (first
    | with_reducible exact Apart.refl _ _ | with_reducible apply Apart.ite
    | (with_reducible apply Apart.after (State.jobKeyCommand_apart _ _ _)))

end Sys2Proof.Machine
end

