-- ==== Sys2Proof/Laws/ApartExec.lean ====
section
/-!
SUPPORT. A command for one hide leaves every other hide as it was.
-/

namespace Sys2Proof.Machine
open Sys2Proof

theorem exec_packetTake_apart h (s : State) :
    ∃ s', exec (.packetTake h) s = .next s' ∧ Apart h s s' := by
  refine ⟨_, rfl, ?_⟩
  repeat' (first
    | with_reducible exact Apart.refl _ _ | (with_reducible apply Apart.after (takePacket_apart _ _)) | split
    | (with_reducible apply Apart.upd))

theorem exec_packetTimeout_apart h ring (s : State) :
    ∃ s', exec (.packetTimeout h ring) s = .next s' ∧ Apart h s s' := by
  refine ⟨_, rfl, ?_⟩
  repeat' (first
    | with_reducible exact Apart.refl _ _ | (with_reducible apply Apart.after (packetTimeout_apart _ _ _)) | split
    | (with_reducible apply Apart.upd))

theorem exec_heldPostTimeout_apart h (s : State) :
    ∃ s', exec (.heldPostTimeout h) s = .next s' ∧ Apart h s s' := by
  refine ⟨_, rfl, ?_⟩
  repeat' (first
    | with_reducible exact Apart.refl _ _ | (with_reducible apply Apart.after (heldPostTimeout_apart _ _)) | split
    | (with_reducible apply Apart.upd))

theorem exec_queuePointerMismatch_apart h kind ring (s : State) :
    ∃ s', exec (.queuePointerMismatch h kind ring) s = .next s' ∧ Apart h s s' := by
  refine ⟨_, rfl, ?_⟩
  repeat' (first
    | with_reducible exact Apart.refl _ _ | (with_reducible apply Apart.after (queuePointerMismatch_apart _ _ _ _)) | split
    | (with_reducible apply Apart.upd))

theorem exec_admitSeq_apart h c e (s : State) :
    ∃ s', exec (.admitSeq h c e) s = .next s' ∧ Apart h s s' := by
  refine ⟨_, rfl, ?_⟩
  repeat' (first
    | with_reducible exact Apart.refl _ _ | (with_reducible apply Apart.after (admitSeqWork_apart _ _ _ _ _))
    | (with_reducible apply Apart.after (State.admit_apart _ _ _ _ _ _ _ (fun _ _ _ => ?_))) | split
    | (with_reducible apply Apart.upd))

theorem exec_admitSeqExtend_apart h c e (s : State) :
    ∃ s', exec (.admitSeqExtend h c e) s = .next s' ∧ Apart h s s' := by
  refine ⟨_, rfl, ?_⟩
  repeat' (first
    | with_reducible exact Apart.refl _ _ | (with_reducible apply Apart.after (extendWork_apart _ _ _ _ _))
    | (with_reducible apply Apart.after (State.admit_apart _ _ _ _ _ _ _ (fun _ _ _ => ?_))) | split
    | (with_reducible apply Apart.upd))

theorem exec_retireSeq_apart h c e (s : State) :
    ∃ s', exec (.retireSeq h c e) s = .next s' ∧ Apart h s s' := by
  refine ⟨_, rfl, ?_⟩
  repeat' (first
    | with_reducible exact Apart.refl _ _ | (with_reducible apply Apart.after (retireWork_apart _ _ _ _ _))
    | (with_reducible apply Apart.after (State.admit_apart _ _ _ _ _ _ _ (fun _ _ _ => ?_))) | split
    | (with_reducible apply Apart.upd))

theorem exec_forkPrefix_apart h c e (s : State) :
    ∃ s', exec (.forkPrefix h c e) s = .next s' ∧ Apart h s s' := by
  refine ⟨_, rfl, ?_⟩
  repeat' (first
    | with_reducible exact Apart.refl _ _ | (with_reducible apply Apart.after (forkWork_apart _ _ _ _ _))
    | (with_reducible apply Apart.after (State.admit_apart _ _ _ _ _ _ _ (fun _ _ _ => ?_))) | split
    | (with_reducible apply Apart.upd))

theorem exec_lookupPrefix_apart h c e (s : State) :
    ∃ s', exec (.lookupPrefix h c e) s = .next s' ∧ Apart h s s' := by
  refine ⟨_, rfl, ?_⟩
  repeat' (first
    | with_reducible exact Apart.refl _ _ | (with_reducible apply Apart.after (lookupWork_apart _ _ _ _ _ _))
    | (with_reducible apply Apart.after (State.admit_apart _ _ _ _ _ _ _ (fun _ _ _ => ?_))) | split
    | (with_reducible apply Apart.upd))

theorem exec_lookupPrefixContinue_apart h c e (s : State) :
    ∃ s', exec (.lookupPrefixContinue h c e) s = .next s' ∧ Apart h s s' := by
  refine ⟨_, rfl, ?_⟩
  repeat' (first
    | with_reducible exact Apart.refl _ _ | (with_reducible apply Apart.after (lookupContinue_apart _ _ _ _)) | split
    | (with_reducible apply Apart.upd))

theorem exec_hashLaneDone_apart h (s : State) :
    ∃ s', exec (.hashLaneDone h) s = .next s' ∧ Apart h s s' := by
  refine ⟨_, rfl, ?_⟩
  repeat' (first
    | with_reducible exact Apart.refl _ _ | (with_reducible apply Apart.after (hashLaneDone_apart _ _)) | split
    | (with_reducible apply Apart.upd))

theorem exec_publishPrefixCreate_apart h c e (s : State) :
    ∃ s', exec (.publishPrefixCreate h c e) s = .next s' ∧ Apart h s s' := by
  refine ⟨_, rfl, ?_⟩
  repeat' (first
    | with_reducible exact Apart.refl _ _ | (with_reducible apply Apart.after (createWork_apart _ _ _ _ _ _))
    | (with_reducible apply Apart.after (createStep_apart _ _ _ _ _))
    | (with_reducible apply Apart.after (State.run_apart _ _ _ _ _ _ _ (fun _ _ => ?_) (fun _ _ _ => ?_))) | split
    | (with_reducible apply Apart.upd))

theorem exec_publishPrefixPromote_apart h c e (s : State) :
    ∃ s', exec (.publishPrefixPromote h c e) s = .next s' ∧ Apart h s s' := by
  refine ⟨_, rfl, ?_⟩
  repeat' (first
    | with_reducible exact Apart.refl _ _ | (with_reducible apply Apart.after (promoteWork_apart _ _ _ _ _ _))
    | (with_reducible apply Apart.after (promoteStep_apart _ _ _ _ _))
    | (with_reducible apply Apart.after (State.run_apart _ _ _ _ _ _ _ (fun _ _ => ?_) (fun _ _ _ => ?_))) | split
    | (with_reducible apply Apart.upd))

theorem exec_publishPrefixWithdraw_apart h c e (s : State) :
    ∃ s', exec (.publishPrefixWithdraw h c e) s = .next s' ∧ Apart h s s' := by
  refine ⟨_, rfl, ?_⟩
  repeat' (first
    | with_reducible exact Apart.refl _ _ | (with_reducible apply Apart.after (withdrawWork_apart _ _ _ _ _))
    | (with_reducible apply Apart.after (State.admit_apart _ _ _ _ _ _ _ (fun _ _ _ => ?_))) | split
    | (with_reducible apply Apart.upd))

theorem exec_stepDecode_apart h c e (s : State) :
    ∃ s', exec (.stepDecode h c e) s = .next s' ∧ Apart h s s' := by
  refine ⟨_, rfl, ?_⟩
  repeat' (first
    | with_reducible exact Apart.refl _ _ | (with_reducible apply Apart.after (State.stepRow_apart _ _ _ _ _ _ _)) | split
    | (with_reducible apply Apart.upd))

theorem exec_fetchArrival_apart h fetch (s : State) :
    ∃ s', exec (.fetchArrival h fetch) s = .next s' ∧ Apart h s s' := by
  refine ⟨_, rfl, ?_⟩
  repeat' (first
    | with_reducible exact Apart.refl _ _ | (with_reducible apply Apart.after (fetchArrival_apart _ _ _)) | split
    | (with_reducible apply Apart.upd))

theorem exec_fetchDeadline_apart h fetch (s : State) :
    ∃ s', exec (.fetchDeadline h fetch) s = .next s' ∧ Apart h s s' := by
  refine ⟨_, rfl, ?_⟩
  repeat' (first
    | with_reducible exact Apart.refl _ _ | (with_reducible apply Apart.after (fetchDeadline_apart _ _ _)) | split
    | (with_reducible apply Apart.upd))

theorem exec_deferReentry_apart h c e (s : State) :
    ∃ s', exec (.deferReentry h c e) s = .next s' ∧ Apart h s s' := by
  refine ⟨_, rfl, ?_⟩
  repeat' (first
    | with_reducible exact Apart.refl _ _ | (with_reducible apply Apart.after (deferReentry_apart _ _ _ _)) | split
    | (with_reducible apply Apart.upd))

theorem exec_stepPrefill_apart h c e (s : State) :
    ∃ s', exec (.stepPrefill h c e) s = .next s' ∧ Apart h s s' := by
  refine ⟨_, rfl, ?_⟩
  repeat' (first
    | with_reducible exact Apart.refl _ _ | (with_reducible apply Apart.after (State.stepRow_apart _ _ _ _ _ _ _)) | split
    | (with_reducible apply Apart.upd))

theorem exec_stepBackward_apart h c e (s : State) :
    ∃ s', exec (.stepBackward h c e) s = .next s' ∧ Apart h s s' := by
  refine ⟨_, rfl, ?_⟩
  repeat' (first
    | with_reducible exact Apart.refl _ _ | (with_reducible apply Apart.after (State.stepRow_apart _ _ _ _ _ _ _)) | split
    | (with_reducible apply Apart.upd))

theorem exec_projectAppend_apart h c e (s : State) :
    ∃ s', exec (.projectAppend h c e) s = .next s' ∧ Apart h s s' := by
  refine ⟨_, rfl, ?_⟩
  repeat' (first
    | with_reducible exact Apart.refl _ _ | (with_reducible apply Apart.after (appendWork_apart _ _ _ _ _))
    | (with_reducible apply Apart.after (State.admit_apart _ _ _ _ _ _ _ (fun _ _ _ => ?_))) | split
    | (with_reducible apply Apart.upd))

theorem exec_recode_apart h c e (s : State) :
    ∃ s', exec (.recode h c e) s = .next s' ∧ Apart h s s' := by
  refine ⟨_, rfl, ?_⟩
  repeat' (first
    | with_reducible exact Apart.refl _ _ | (with_reducible apply Apart.after (recodeNow_apart _ _ _ _)) | split
    | (with_reducible apply Apart.upd))

theorem exec_stateStep_apart h c e (s : State) :
    ∃ s', exec (.stateStep h c e) s = .next s' ∧ Apart h s s' := by
  refine ⟨_, rfl, ?_⟩
  repeat' (first
    | with_reducible exact Apart.refl _ _ | (with_reducible apply Apart.after (stateWork_apart _ _ _ _ _))
    | (with_reducible apply Apart.after (State.admit_apart _ _ _ _ _ _ _ (fun _ _ _ => ?_))) | split
    | (with_reducible apply Apart.upd))

theorem exec_scoreTopk_apart h c e (s : State) :
    ∃ s', exec (.scoreTopk h c e) s = .next s' ∧ Apart h s s' := by
  refine ⟨_, rfl, ?_⟩
  repeat' (first
    | with_reducible exact Apart.refl _ _ | (with_reducible apply Apart.after (scoreWork_apart _ _ _ _ _))
    | (with_reducible apply Apart.after (State.admit_apart _ _ _ _ _ _ _ (fun _ _ _ => ?_))) | split
    | (with_reducible apply Apart.upd))

theorem exec_place_apart h c e (s : State) :
    ∃ s', exec (.place h c e) s = .next s' ∧ Apart h s s' := by
  refine ⟨_, rfl, ?_⟩
  repeat' (first
    | with_reducible exact Apart.refl _ _ | (with_reducible apply Apart.after (placeWork_apart _ _ _ _ _ _))
    | (with_reducible apply Apart.after (placeGo_apart _ _ _ _ _))
    | (with_reducible apply Apart.after (State.run_apart _ _ _ _ _ _ _ (fun _ _ => ?_) (fun _ _ _ => ?_))) | split
    | (with_reducible apply Apart.upd))

theorem exec_swapOut_apart h c e (s : State) :
    ∃ s', exec (.swapOut h c e) s = .next s' ∧ Apart h s s' := by
  refine ⟨_, rfl, ?_⟩
  repeat' (first
    | with_reducible exact Apart.refl _ _ | (with_reducible apply Apart.after (swapOutWork_apart _ _ _ _ _ _))
    | (with_reducible apply Apart.after (swapOutStep_apart _ _ _ _ _))
    | (with_reducible apply Apart.after (State.run_apart _ _ _ _ _ _ _ (fun _ _ => ?_) (fun _ _ _ => ?_))) | split
    | (with_reducible apply Apart.upd))

theorem exec_swapIn_apart h c e (s : State) :
    ∃ s', exec (.swapIn h c e) s = .next s' ∧ Apart h s s' := by
  refine ⟨_, rfl, ?_⟩
  repeat' (first
    | with_reducible exact Apart.refl _ _ | (with_reducible apply Apart.after (swapInWork_apart _ _ _ _ _))
    | (with_reducible apply Apart.after (swapInStep_apart _ _ _ _ _))
    | (with_reducible apply Apart.after (State.run_apart _ _ _ _ _ _ _ (fun _ _ => ?_) (fun _ _ _ => ?_))) | split
    | (with_reducible apply Apart.upd))

theorem exec_evictScore_apart h c e (s : State) :
    ∃ s', exec (.evictScore h c e) s = .next s' ∧ Apart h s s' := by
  refine ⟨_, rfl, ?_⟩
  repeat' (first
    | with_reducible exact Apart.refl _ _ | (with_reducible apply Apart.after (evictScoreWork_apart _ _ _ _ _))
    | (with_reducible apply Apart.after (State.admit_apart _ _ _ _ _ _ _ (fun _ _ _ => ?_))) | split
    | (with_reducible apply Apart.upd))

theorem exec_deliverPages_apart h c e (s : State) :
    ∃ s', exec (.deliverPages h c e) s = .next s' ∧ Apart h s s' := by
  refine ⟨_, rfl, ?_⟩
  repeat' (first
    | with_reducible exact Apart.refl _ _ | (with_reducible apply Apart.after (deliverWork_apart _ _ _ _ _ _))
    | (with_reducible apply Apart.after (State.admit_apart _ _ _ _ _ _ _ (fun _ _ _ => ?_)))
    | (with_reducible apply Apart.after (deliverStep_apart _ _ _ _ _)) | split | (with_reducible apply Apart.upd))

theorem exec_deliverDeadline_apart h (s : State) :
    ∃ s', exec (.deliverDeadline h) s = .next s' ∧ Apart h s s' := by
  refine ⟨_, rfl, ?_⟩
  repeat' (first
    | with_reducible exact Apart.refl _ _ | (with_reducible apply Apart.after (deliverDeadline_apart _ _)) | split
    | (with_reducible apply Apart.upd))

theorem exec_loadCodebook_apart h c e (s : State) :
    ∃ s', exec (.loadCodebook h c e) s = .next s' ∧ Apart h s s' := by
  refine ⟨_, rfl, ?_⟩
  repeat' (first
    | with_reducible exact Apart.refl _ _ | (with_reducible apply Apart.after (loadBookWork_apart _ _ _ _ _))
    | (with_reducible apply Apart.after (loadBookStep_apart _ _ _ _ _))
    | (with_reducible apply Apart.after (State.run_apart _ _ _ _ _ _ _ (fun _ _ => ?_) (fun _ _ _ => ?_))) | split
    | (with_reducible apply Apart.upd))

theorem exec_retireCodebook_apart h c e (s : State) :
    ∃ s', exec (.retireCodebook h c e) s = .next s' ∧ Apart h s s' := by
  refine ⟨_, rfl, ?_⟩
  repeat' (first
    | with_reducible exact Apart.refl _ _ | (with_reducible apply Apart.after (retireBookWork_apart _ _ _ _ _))
    | (with_reducible apply Apart.after (State.admit_apart _ _ _ _ _ _ _ (fun _ _ _ => ?_))) | split
    | (with_reducible apply Apart.upd))

theorem exec_codebookSlotReload_apart h key c ok (s : State) :
    ∃ s', exec (.codebookSlotReload h key c ok) s = .next s' ∧ Apart h s s' := by
  refine ⟨_, rfl, ?_⟩
  repeat' (first
    | with_reducible exact Apart.refl _ _ | (with_reducible apply Apart.after (codebookSlotReload_apart _ _ _ _ _)) | split
    | (with_reducible apply Apart.upd))

theorem exec_loadWeights_apart h c e (s : State) :
    ∃ s', exec (.loadWeights h c e) s = .next s' ∧ Apart h s s' := by
  refine ⟨_, rfl, ?_⟩
  repeat' (first
    | with_reducible exact Apart.refl _ _ | (with_reducible apply Apart.after (loadSetWork_apart _ _ _ _ _))
    | (with_reducible apply Apart.after (loadSetStep_apart _ _ _ _ _))
    | (with_reducible apply Apart.after (State.run_apart _ _ _ _ _ _ _ (fun _ _ => ?_) (fun _ _ _ => ?_))) | split
    | (with_reducible apply Apart.upd))

theorem exec_loadWeightsRetire_apart h c e (s : State) :
    ∃ s', exec (.loadWeightsRetire h c e) s = .next s' ∧ Apart h s s' := by
  refine ⟨_, rfl, ?_⟩
  repeat' (first
    | with_reducible exact Apart.refl _ _ | (with_reducible apply Apart.after (retireSetWork_apart _ _ _ _ _))
    | (with_reducible apply Apart.after (State.admit_apart _ _ _ _ _ _ _ (fun _ _ _ => ?_))) | split
    | (with_reducible apply Apart.upd))

theorem exec_txnBegin_apart h (s : State) :
    ∃ s', exec (.txnBegin h) s = .next s' ∧ Apart h s s' := by
  refine ⟨_, rfl, ?_⟩
  repeat' (first
    | with_reducible exact Apart.refl _ _ | (with_reducible apply Apart.after (beginWork_apart _ _ _))
    | (with_reducible apply Apart.after (State.takeMarker_apart _ _ _ _ (fun _ _ => ?_))) | split
    | (with_reducible apply Apart.upd))

theorem exec_txnCommit_apart h (s : State) :
    ∃ s', exec (.txnCommit h) s = .next s' ∧ Apart h s s' := by
  refine ⟨_, rfl, ?_⟩
  repeat' (first
    | with_reducible exact Apart.refl _ _ | (with_reducible apply Apart.after (closeWork_apart _ _ _ _))
    | (with_reducible apply Apart.after (State.takeMarker_apart _ _ _ _ (fun _ _ => ?_))) | split
    | (with_reducible apply Apart.upd))

theorem exec_txnAbort_apart h (s : State) :
    ∃ s', exec (.txnAbort h) s = .next s' ∧ Apart h s s' := by
  refine ⟨_, rfl, ?_⟩
  repeat' (first
    | with_reducible exact Apart.refl _ _ | (with_reducible apply Apart.after (closeWork_apart _ _ _ _))
    | (with_reducible apply Apart.after (State.takeMarker_apart _ _ _ _ (fun _ _ => ?_))) | split
    | (with_reducible apply Apart.upd))

theorem exec_txnDecision_apart h txn (s : State) :
    ∃ s', exec (.txnDecision h txn) s = .next s' ∧ Apart h s s' := by
  refine ⟨_, rfl, ?_⟩
  repeat' (first
    | with_reducible exact Apart.refl _ _ | (with_reducible apply Apart.after (txnDecision_apart _ _ _)) | split
    | (with_reducible apply Apart.upd))

theorem exec_txnTimeout_apart h ring (s : State) :
    ∃ s', exec (.txnTimeout h ring) s = .next s' ∧ Apart h s s' := by
  refine ⟨_, rfl, ?_⟩
  repeat' (first
    | with_reducible exact Apart.refl _ _ | (with_reducible apply Apart.after (txnTimeout_apart _ _ _)) | split
    | (with_reducible apply Apart.upd))

theorem exec_dropRest_apart h (s : State) :
    ∃ s', exec (.dropRest h) s = .next s' ∧ Apart h s s' := by
  refine ⟨_, rfl, ?_⟩
  repeat' (first
    | with_reducible exact Apart.refl _ _ | (with_reducible apply Apart.after (dropWork_apart _ _ _))
    | (with_reducible apply Apart.after (State.takeMarker_apart _ _ _ _ (fun _ _ => ?_))) | split
    | (with_reducible apply Apart.upd))

theorem exec_dmaReadCompletion_apart h tag result (s : State) :
    ∃ s', exec (.dmaReadCompletion h tag result) s = .next s' ∧ Apart h s s' := by
  refine ⟨_, rfl, ?_⟩
  repeat' (first
    | with_reducible exact Apart.refl _ _ | (with_reducible apply Apart.after (dmaCompletion_apart _ _ _ _)) | split
    | (with_reducible apply Apart.upd))

theorem exec_dmaReadTimeout_apart h tag (s : State) :
    ∃ s', exec (.dmaReadTimeout h tag) s = .next s' ∧ Apart h s s' := by
  refine ⟨_, rfl, ?_⟩
  repeat' (first
    | with_reducible exact Apart.refl _ _ | (with_reducible apply Apart.after (dmaTimeout_apart _ _ _)) | split
    | (with_reducible apply Apart.upd))

theorem exec_leaseRecallComplete_apart h (s : State) :
    ∃ s', exec (.leaseRecallComplete h) s = .next s' ∧ Apart h s s' := by
  refine ⟨_, rfl, ?_⟩
  repeat' (first
    | with_reducible exact Apart.refl _ _ | (with_reducible apply Apart.after (leaseRecallComplete_apart _ _)) | split
    | (with_reducible apply Apart.upd))

theorem exec_acRenew_apart h mask (s : State) :
    ∃ s', exec (.acRenew h mask) s = .next s' ∧ Apart h s s' := by
  refine ⟨_, rfl, ?_⟩
  repeat' (first
    | with_reducible exact Apart.refl _ _ | (with_reducible apply Apart.after (acRenew_apart _ _ _)) | split
    | (with_reducible apply Apart.upd))

theorem exec_leaseDrainComplete_apart h slot (s : State) :
    ∃ s', exec (.leaseDrainComplete h slot) s = .next s' ∧ Apart h s s' := by
  refine ⟨_, rfl, ?_⟩
  repeat' (first
    | with_reducible exact Apart.refl _ _ | (with_reducible apply Apart.after (leaseDrain_apart _ _ _)) | split
    | (with_reducible apply Apart.upd))

theorem exec_acreScrubComplete_apart h slot (s : State) :
    ∃ s', exec (.acreScrubComplete h slot) s = .next s' ∧ Apart h s s' := by
  refine ⟨_, rfl, ?_⟩
  repeat' (first
    | with_reducible exact Apart.refl _ _ | (with_reducible apply Apart.after (acreScrub_apart _ _ _)) | split
    | (with_reducible apply Apart.upd))

theorem exec_biSnoopResponse_apart h off data (s : State) :
    ∃ s', exec (.biSnoopResponse h off data) s = .next s' ∧ Apart h s s' := by
  refine ⟨_, rfl, ?_⟩
  repeat' (first
    | with_reducible exact Apart.refl _ _ | (with_reducible apply Apart.after (snoopResponse_apart _ _ _ _)) | split
    | (with_reducible apply Apart.upd))

theorem exec_ringEnable_apart h kind ring ctl (s : State) :
    ∃ s', exec (.ringEnable h kind ring ctl) s = .next s' ∧ Apart h s s' := by
  refine ⟨_, rfl, ?_⟩
  repeat' (first
    | with_reducible exact Apart.refl _ _ | (with_reducible apply Apart.after (ringEnable_apart _ _ _ _ _)) | split
    | (with_reducible apply Apart.upd))

theorem exec_ringDisable_apart h kind ring ctl (s : State) :
    ∃ s', exec (.ringDisable h kind ring ctl) s = .next s' ∧ Apart h s s' := by
  refine ⟨_, rfl, ?_⟩
  repeat' (first
    | with_reducible exact Apart.refl _ _ | (with_reducible apply Apart.after (ringDisable_apart _ _ _ _ _)) | split
    | (with_reducible apply Apart.upd))

theorem exec_bufferEnable_apart h b ctl (s : State) :
    ∃ s', exec (.bufferEnable h b ctl) s = .next s' ∧ Apart h s s' := by
  refine ⟨_, rfl, ?_⟩
  repeat' (first
    | with_reducible exact Apart.refl _ _ | (with_reducible apply Apart.after (bufferEnable_apart _ _ _ _)) | split
    | (with_reducible apply Apart.upd))

theorem exec_bufferDisable_apart h b ctl (s : State) :
    ∃ s', exec (.bufferDisable h b ctl) s = .next s' ∧ Apart h s s' := by
  refine ⟨_, rfl, ?_⟩
  repeat' (first
    | with_reducible exact Apart.refl _ _ | (with_reducible apply Apart.after (bufferDisable_apart _ _ _ _)) | split
    | (with_reducible apply Apart.upd))

theorem exec_jobkeyCreate_apart h v (s : State) :
    ∃ s', exec (.jobkeyCreate h v) s = .next s' ∧ Apart h s s' := by
  refine ⟨_, rfl, ?_⟩
  repeat' (first
    | with_reducible exact Apart.refl _ _ | (with_reducible apply Apart.after (jobKeyRow_apart _ _ _ _)) | split
    | (with_reducible apply Apart.upd))

theorem exec_jobkeyDestroy_apart h v (s : State) :
    ∃ s', exec (.jobkeyDestroy h v) s = .next s' ∧ Apart h s s' := by
  refine ⟨_, rfl, ?_⟩
  repeat' (first
    | with_reducible exact Apart.refl _ _ | (with_reducible apply Apart.after (jobKeyRow_apart _ _ _ _)) | split
    | (with_reducible apply Apart.upd))

theorem exec_rcRegisterRead_apart h off size (s : State) :
    ∃ s', exec (.rcRegisterRead h off size) s = .next s' ∧ Apart h s s' := by
  refine ⟨_, rfl, ?_⟩
  repeat' (first
    | with_reducible exact Apart.refl _ _ | (with_reducible apply Apart.after (registerRead_apart _ _ _ _)) | split
    | (with_reducible apply Apart.upd))

theorem exec_hideResetGo_apart h drain (s : State) :
    ∃ s', exec (.hideResetGo h drain) s = .next s' ∧ Apart h s s' := by
  refine ⟨_, rfl, ?_⟩
  repeat' (first
    | with_reducible exact Apart.refl _ _ | (with_reducible apply Apart.after (hideResetGo_apart _ _ _)) | split
    | (with_reducible apply Apart.upd))

theorem exec_hideResetProceed_apart h (s : State) :
    ∃ s', exec (.hideResetProceed h) s = .next s' ∧ Apart h s s' := by
  refine ⟨_, rfl, ?_⟩
  repeat' (first
    | with_reducible exact Apart.refl _ _ | (with_reducible apply Apart.after (State.endHeld_apart _ _)) | split
    | (with_reducible apply Apart.upd))

theorem exec_hideResetEndingDone_apart h (s : State) :
    ∃ s', exec (.hideResetEndingDone h) s = .next s' ∧ Apart h s s' := by
  refine ⟨_, rfl, ?_⟩
  repeat' (first
    | with_reducible exact Apart.refl _ _ | (with_reducible apply Apart.after (hideResetEndingDone_apart _ _)) | split
    | (with_reducible apply Apart.upd))

theorem exec_hideResetHeldTimeout_apart h (s : State) :
    ∃ s', exec (.hideResetHeldTimeout h) s = .next s' ∧ Apart h s s' := by
  refine ⟨_, rfl, ?_⟩
  repeat' (first
    | with_reducible exact Apart.refl _ _ | (with_reducible apply Apart.after (hideResetHeldTimeout_apart _ _)) | split
    | (with_reducible apply Apart.upd))

theorem exec_hideResetReleaseDone_apart h (s : State) :
    ∃ s', exec (.hideResetReleaseDone h) s = .next s' ∧ Apart h s s' := by
  refine ⟨_, rfl, ?_⟩
  repeat' (first
    | with_reducible exact Apart.refl _ _ | (with_reducible apply Apart.after (hideResetReleaseDone_apart _ _)) | split
    | (with_reducible apply Apart.upd))

theorem exec_tspLock_apart h (s : State) :
    ∃ s', exec (.tspLock h) s = .next s' ∧ Apart h s s' := by
  refine ⟨_, rfl, ?_⟩
  repeat' (first
    | with_reducible exact Apart.refl _ _ | (with_reducible apply Apart.after (tspLock_apart _ _)) | split
    | (with_reducible apply Apart.upd))

theorem exec_tspStart_apart h (s : State) :
    ∃ s', exec (.tspStart h) s = .next s' ∧ Apart h s s' := by
  refine ⟨_, rfl, ?_⟩
  repeat' (first
    | with_reducible exact Apart.refl _ _ | (with_reducible apply Apart.after (tspStart_apart _ _)) | split
    | (with_reducible apply Apart.upd))

theorem exec_tspStop_apart h (s : State) :
    ∃ s', exec (.tspStop h) s = .next s' ∧ Apart h s s' := by
  refine ⟨_, rfl, ?_⟩
  repeat' (first
    | with_reducible exact Apart.refl _ _ | (with_reducible apply Apart.after (tspStop_apart _ _)) | split
    | (with_reducible apply Apart.upd))

/-- A command for one hide alone leaves the others as they were. -/
theorem exec_apart (i : Instr) (h : Nat) (e : ownHide i = some h) (s : State) : ∃ t, exec i s = .next t ∧ Apart h s t := by
  cases i with
  | standbyStart => cases e
  | resetRelease _ _ _ _ _ _ => cases e
  | powerUpStepOverrun _ => cases e
  | powerLoss _ => cases e
  | protectiveShutdown => cases e
  | resetN => cases e
  | vinSample _ _ => cases e
  | monitorFail => cases e
  | sensorSample _ => cases e
  | sensorTimeout _ => cases e
  | leanReturnCount => cases e
  | clockMonitorWindow _ => cases e
  | regionClockWindow _ => cases e
  | pllLossOfLock _ => cases e
  | entropyHealthFail => cases e
  | furlongCounterComplete _ => cases e
  | boundaryMark _ _ _ => cases e
  | furlongStart _ => cases e
  | boundaryLimit _ => cases e
  | switchNotice => cases e
  | drainLimit => cases e
  | heldOutRotation _ => cases e
  | screenPatternRun _ _ _ _ => cases e
  | screenSummary => cases e
  | bankGroupFaultRecord => cases e
  | gateFurlongStart => cases e
  | policerRefill => cases e
  | egressFrameStart _ _ _ => cases e
  | cxlMemWrite _ _ _ _ _ _ => cases e
  | cxlMemRead _ _ _ => cases e
  | cxlMemInv _ _ => cases e
  | uioRead _ _ => cases e
  | uioWrite _ _ _ _ _ => cases e
  | packetTake h => cases e; exact exec_packetTake_apart h s
  | packetTimeout h ring => cases e; exact exec_packetTimeout_apart h ring s
  | heldPostTimeout h => cases e; exact exec_heldPostTimeout_apart h s
  | queuePointerMismatch h kind ring => cases e; exact exec_queuePointerMismatch_apart h kind ring s
  | admitSeq h c e => cases e; exact exec_admitSeq_apart h c e s
  | admitSeqExtend h c e => cases e; exact exec_admitSeqExtend_apart h c e s
  | retireSeq h c e => cases e; exact exec_retireSeq_apart h c e s
  | forkPrefix h c e => cases e; exact exec_forkPrefix_apart h c e s
  | lookupPrefix h c e => cases e; exact exec_lookupPrefix_apart h c e s
  | lookupPrefixContinue h c e => cases e; exact exec_lookupPrefixContinue_apart h c e s
  | hashLaneDone h => cases e; exact exec_hashLaneDone_apart h s
  | publishPrefixCreate h c e => cases e; exact exec_publishPrefixCreate_apart h c e s
  | publishPrefixPromote h c e => cases e; exact exec_publishPrefixPromote_apart h c e s
  | publishPrefixWithdraw h c e => cases e; exact exec_publishPrefixWithdraw_apart h c e s
  | stepDecode h c e => cases e; exact exec_stepDecode_apart h c e s
  | fetchArrival h fetch => cases e; exact exec_fetchArrival_apart h fetch s
  | fetchDeadline h fetch => cases e; exact exec_fetchDeadline_apart h fetch s
  | deferReentry h c e => cases e; exact exec_deferReentry_apart h c e s
  | stepPrefill h c e => cases e; exact exec_stepPrefill_apart h c e s
  | stepBackward h c e => cases e; exact exec_stepBackward_apart h c e s
  | projectAppend h c e => cases e; exact exec_projectAppend_apart h c e s
  | recode h c e => cases e; exact exec_recode_apart h c e s
  | stateStep h c e => cases e; exact exec_stateStep_apart h c e s
  | scoreTopk h c e => cases e; exact exec_scoreTopk_apart h c e s
  | place h c e => cases e; exact exec_place_apart h c e s
  | swapOut h c e => cases e; exact exec_swapOut_apart h c e s
  | swapIn h c e => cases e; exact exec_swapIn_apart h c e s
  | evictScore h c e => cases e; exact exec_evictScore_apart h c e s
  | deliverPages h c e => cases e; exact exec_deliverPages_apart h c e s
  | deliverDeadline h => cases e; exact exec_deliverDeadline_apart h s
  | loadCodebook h c e => cases e; exact exec_loadCodebook_apart h c e s
  | retireCodebook h c e => cases e; exact exec_retireCodebook_apart h c e s
  | codebookSlotReload h key c ok => cases e; exact exec_codebookSlotReload_apart h key c ok s
  | loadWeights h c e => cases e; exact exec_loadWeights_apart h c e s
  | loadWeightsRetire h c e => cases e; exact exec_loadWeightsRetire_apart h c e s
  | txnBegin h => cases e; exact exec_txnBegin_apart h s
  | txnCommit h => cases e; exact exec_txnCommit_apart h s
  | txnAbort h => cases e; exact exec_txnAbort_apart h s
  | txnDecision h txn => cases e; exact exec_txnDecision_apart h txn s
  | txnTimeout h ring => cases e; exact exec_txnTimeout_apart h ring s
  | dropRest h => cases e; exact exec_dropRest_apart h s
  | replayStart _ => cases e
  | replayResult _ _ => cases e
  | dramCorrectiveWriteback _ => cases e
  | dmaReadCompletion h tag result => cases e; exact exec_dmaReadCompletion_apart h tag result s
  | dmaReadTimeout h tag => cases e; exact exec_dmaReadTimeout_apart h tag s
  | lease _ _ => cases e
  | release _ _ => cases e
  | sealAcre _ _ => cases e
  | grant _ _ => cases e
  | attach _ _ => cases e
  | revoke _ _ => cases e
  | leaseRecallComplete h => cases e; exact exec_leaseRecallComplete_apart h s
  | acRenew h mask => cases e; exact exec_acRenew_apart h mask s
  | leaseExpiry _ _ => cases e
  | leaseDrainComplete h slot => cases e; exact exec_leaseDrainComplete_apart h slot s
  | acreScrubComplete h slot => cases e; exact exec_acreScrubComplete_apart h slot s
  | acreRequestServe _ => cases e
  | biSnoopResponse h off data => cases e; exact exec_biSnoopResponse_apart h off data s
  | biSnoopTimeout _ _ => cases e
  | poisonMarkWrite _ _ => cases e
  | hdmDecoderCommit _ _ _ _ _ => cases e
  | ringEnable h kind ring ctl => cases e; exact exec_ringEnable_apart h kind ring ctl s
  | ringDisable h kind ring ctl => cases e; exact exec_ringDisable_apart h kind ring ctl s
  | bufferEnable h b ctl => cases e; exact exec_bufferEnable_apart h b ctl s
  | bufferDisable h b ctl => cases e; exact exec_bufferDisable_apart h b ctl s
  | jobkeyCreate h v => cases e; exact exec_jobkeyCreate_apart h v s
  | jobkeyDestroy h v => cases e; exact exec_jobkeyDestroy_apart h v s
  | registerWrite _ _ _ _ _ => cases e
  | rcRegisterRead h off size => cases e; exact exec_rcRegisterRead_apart h off size s
  | hideResetGo h drain => cases e; exact exec_hideResetGo_apart h drain s
  | hideResetProceed h => cases e; exact exec_hideResetProceed_apart h s
  | hideResetEndingDone h => cases e; exact exec_hideResetEndingDone_apart h s
  | hideResetHeldTimeout h => cases e; exact exec_hideResetHeldTimeout_apart h s
  | hideResetKeysDone _ => cases e
  | hideResetReleaseDone h => cases e; exact exec_hideResetReleaseDone_apart h s
  | hideResetScrubDone _ => cases e
  | flr _ => cases e
  | cxlLinkDown => cases e
  | cxlPerstN => cases e
  | cxlLinkWidthChange _ _ => cases e
  | ideIntegrityFail _ => cases e
  | tspLock h => cases e; exact exec_tspLock_apart h s
  | tspStart h => cases e; exact exec_tspStart_apart h s
  | tspStop h => cases e; exact exec_tspStop_apart h s
  | spdmGetMeasurements _ _ => cases e
  | doeBegin _ _ _ => cases e
  | doeData _ _ _ _ => cases e
  | doeEnd _ _ _ => cases e
  | doeStatus _ _ => cases e
  | doeCancel _ _ => cases e
  | sessionHandshake _ _ => cases e
  | sessionIdleTimeout _ => cases e
  | handshakeRefusalExpiry => cases e
  | statusProbe _ => cases e
  | regRead _ _ _ => cases e
  | regWrite _ _ _ _ => cases e
  | loadBegin _ _ _ _ => cases e
  | loadData _ _ _ _ => cases e
  | loadEnd _ _ _ => cases e
  | loadReceiveTimeout => cases e
  | loadStatus _ _ => cases e
  | loadCancel _ _ => cases e
  | telemetry _ => cases e
  | subscribe _ _ _ => cases e
  | telemetryPeriod _ => cases e
  | bbRead _ _ _ => cases e
  | hideReset _ _ _ => cases e
  | deviceReset _ _ => cases e
  | regionReset _ _ _ => cases e
  | setTime _ _ => cases e
  | anchorEnroll _ _ => cases e
  | anchorRemove _ _ => cases e
  | floorRaise _ _ => cases e
  | lifecycle _ _ _ => cases e
  | debugChallenge _ => cases e
  | debugToken _ _ => cases e
  | selftestRun _ _ => cases e
  | trainingStepComplete _ _ => cases e
  | trainingStepTimeout _ => cases e
  | trainingRetry _ => cases e
  | leagueRsp _ _ _ _ _ => cases e
  | leagueRdata _ _ _ _ _ => cases e
  | leagueCtrl _ _ _ => cases e
  | leagueCtrlSend _ => cases e
  | leagueReplayTimeout _ => cases e
  | leagueIdleTimeout _ => cases e
  | leagueCommandTimeout _ _ => cases e
  | laneFault _ _ => cases e
  | symbolErrorWindow _ _ _ => cases e
  | holdupOk => cases e
  | cxlLinkUp _ _ => cases e
  | ideStreamEstablished _ => cases e
  | configurationWrite _ _ _ => cases e
  | phyIntN _ => cases e
  | sessionClose _ => cases e
  | tapInstruction _ => cases e

end Sys2Proof.Machine
end

