-- ==== Sys2Proof/Laws/Steady.lean ====
section
/-!
SUPPORT. An operation that leaves the core of every hide (`HideSt.core`) as it was. The relation composes.
-/

namespace Sys2Proof.Machine
open Sys2Proof

theorem Steady.refl (s : State) : Steady s s := fun _ => rfl

theorem Steady.trans {s t u : State} (a : Steady s t) (b : Steady t u) : Steady s u := fun j => (b j).trans (a j)

theorem Steady.after {s t u : State} (b : Steady t u) (a : Steady s t) : Steady s u := a.trans b

/-- An operation that touches no hide. -/
theorem Steady.keptBy {T : List Part} {s t u : State} (k : Kept T t u) (hT : Part.hides ∉ T) (a : Steady s t) : Steady s u := by
  intro j
  have e : u.hides = t.hides := k.same .hides hT
  rw [← a j]; simp [State.hide, e]

/-- A change of anything but the hides. -/
theorem Steady.upd {s t : State} (a : Steady s t) {power : Power} {sensors : AMap Sensor} {resetPin : Bool}
    {clocks : Clocks} {regions : AMap Region} {clusters : AMap ClusterSt} {plan : Plan} {acres : AMap Acre} {imem : List Host.Cell}
    {gates : Gates} {cxl : Cxl} {ports : AMap PortSt} {dex : Dex} {mgmt : Mgmt} {box : Box} {screen : Screen} {tap : Tap} {free : Nat}
    {pending : List Instr} :
    Steady s ⟨power, sensors, resetPin, clocks, regions, clusters, plan, t.hides, imem, acres, gates, cxl, ports, dex, mgmt, box,
      screen, tap, free, pending⟩ := a

theorem Steady.ite {s a b : State} {c : Prop} [Decidable c] (ha : Steady s a) (hb : Steady s b) : Steady s (if c then a else b) := by
  split
  · exact ha
  · exact hb

theorem Steady.via {α : Type} {s t : State} {x : State × α} {r : α} (e : x = (t, r)) (k : Steady s x.1) : Steady s t := by
  rw [e] at k; exact k

theorem Steady.foldl {α : Type} (f : State → α → State) (hf : ∀ s a, Steady s (f s a)) (l : List α) :
    ∀ s, Steady s (l.foldl f s) := by
  induction l with
  | nil => intro s; exact Steady.refl s
  | cons a t ih => intro s; exact (hf s a).trans (ih _)

theorem Steady.foldlPair {α β : Type} (f : State × β → α → State × β) (hf : ∀ p a, Steady p.1 (f p a).1) (l : List α) :
    ∀ p, Steady p.1 (l.foldl f p).1 := by
  induction l with
  | nil => intro p; exact Steady.refl _
  | cons a t ih => intro p; exact (hf p a).trans (ih _)

theorem forAll_steady (s : State) (l : List Nat) (f : State → Nat → State) (hf : ∀ s a, Steady s (f s a)) :
    Steady s (forAll s l f) := Steady.foldl f hf l s

/-- Writing a hide back with its core unchanged. -/
theorem State.setHide_steady {s : State} {h : Nat} {x : HideSt} (e : x.core = (s.hide h).core) : Steady s (s.setHide h x) := by
  intro j
  by_cases n : j = h
  · subst n; rw [State.hide_setHide]; exact e
  · rw [State.hide_setHide_other _ _ n]
theorem State.upHide_steady {s : State} {h : Nat} {f : HideSt → HideSt} (e : ∀ x, (f x).core = x.core) : Steady s (s.upHide h f) :=
  State.setHide_steady (e _)
theorem State.upQ_steady (s : State) (h : Nat) (f : QPart → QPart) : Steady s (s.upQ h f) := State.upHide_steady (fun _ => rfl)
theorem State.upO_steady (s : State) (h : Nat) (f : OPart → OPart) : Steady s (s.upO h f) := State.upHide_steady (fun _ => rfl)
theorem State.upA_steady (s : State) (h : Nat) (f : APart → APart) : Steady s (s.upA h f) := State.upHide_steady (fun _ => rfl)
theorem State.upC_steady (s : State) (h : Nat) (f : CPart → CPart) : Steady s (s.upC h f) := State.upHide_steady (fun _ => rfl)
theorem State.upQO_steady (s : State) (h : Nat) (f : HideSt → QPart) (g : HideSt → OPart) :
    Steady s (s.upHide h (fun x => { x with q := f x, o := g x })) := State.upHide_steady (fun _ => rfl)
theorem State.upProfPos_steady (s : State) (h n : Nat) :
    Steady s (s.upK h (fun k => { k with profPos := (k.profPos + 1) % n })) := State.upHide_steady (fun _ => rfl)
theorem State.upProfLost_steady (s : State) (h : Nat) (f : KPart → U32) :
    Steady s (s.upK h (fun k => { k with profLost := f k })) := State.upHide_steady (fun _ => rfl)
theorem State.upK_steady {s : State} {h : Nat} {f : KPart → KPart}
    (e : ∀ k, ((f k).root, (f k).tsp, (f k).phase, (f k).drain, (f k).cause, (f k).origin, (f k).jobResult, (f k).profCtl) =
      (k.root, k.tsp, k.phase, k.drain, k.cause, k.origin, k.jobResult, k.profCtl)) : Steady s (s.upK h f) := by
  refine State.upHide_steady (fun x => ?_)
  have := e x.k
  simp only [Prod.mk.injEq] at this
  simp [HideSt.core, this]

/-- Giving the next serial changes no field of the core. -/
theorem KPart.nextSerial_core (x : HideSt) (kind key : Nat) (o : OPart) :
    ({ x with k := (x.k.nextSerial kind key).2, o := o } : HideSt).core = x.core := by
  unfold KPart.nextSerial
  split <;> rfl

/-- What `nextSerial` answers, put in the place of the keys. -/
theorem State.serialK_steady (s : State) (h kind key : Nat) {k : KPart} {x : HideSt} {n : Nat} (t : State)
    (e : x.k.nextSerial kind key = (n, k)) (ht : ∀ j, (t.hide j).core = (s.hide j).core) (hx : x = s.hide h) : Steady s (t.upK h (fun _ => k)) := by
  subst hx
  intro j
  by_cases c : j = h
  · subst c
    have hk : (s.hide j).core = ({ (s.hide j) with k := k } : HideSt).core := by
      have := KPart.nextSerial_core (s.hide j) kind key (s.hide j).o
      rw [e] at this; exact this.symm
    have ht' := ht j
    have hk' : (({ (t.hide j) with k := k }) : HideSt).core = (s.hide j).core := by
      simp only [HideSt.core, HideSt.Core.mk.injEq] at ht' hk ⊢
      simp_all
    simp only [State.upK, State.upHide, State.hide_setHide]
    exact hk'
  · rw [State.hide_upK_other _ _ c]; exact ht j

theorem State.upSerial_steady (s : State) (h kind key : Nat) :
    Steady s (s.upK h (fun _ => ((s.hide h).k.nextSerial kind key).2)) :=
  State.serialK_steady s h kind key (n := ((s.hide h).k.nextSerial kind key).1) s rfl (fun _ => rfl) rfl

/-- A change of every hide that is listed. -/
theorem AMap.get_map {α : Type} (d : α) (f : α → α) (l : AMap α) (k : Nat) :
    AMap.get d (l.map (fun p => (p.1, f p.2))) k = match AMap.find l k with | some v => f v | none => d := by
  induction l with
  | nil => rfl
  | cons p l ih =>
    simp only [List.map, AMap.get, AMap.find]
    split
    · rfl
    · exact ih
theorem AMap.get_find {α : Type} (d : α) (l : AMap α) (k : Nat) :
    AMap.get d l k = match AMap.find l k with | some v => v | none => d := by
  induction l with
  | nil => rfl
  | cons p l ih =>
    simp only [AMap.get, AMap.find]
    split
    · rfl
    · exact ih
theorem Steady.mapHides (s : State) (f : HideSt → HideSt) (e : ∀ x, (f x).core = x.core) :
    Steady s { s with hides := s.hides.map (fun p => (p.1, f p.2)) } := by
  intro j
  simp only [State.hide]
  rw [AMap.get_map, AMap.get_find]
  split
  · exact e _
  · rfl

/-- Variants change no field of the core. -/
theorem HideSt.applyVariants_core (x : HideSt) (vs : List (Nat × Nat)) : (x.applyVariants vs).core = x.core := by
  unfold HideSt.applyVariants
  split
  · rfl
  · dsimp only
    split <;> rfl

end Sys2Proof.Machine
end

