-- ==== Sys2Proof/Laws/SteadyShared.lean ====
section
/-!
SUPPORT. The operations that leave the core of every hide as it was: rings, publication, flash, the queue engine, admission and the checks.
-/

namespace Sys2Proof.Machine
open Sys2Proof

theorem State.frontMarker_steady (s : State) (h op : Nat) {o : Order} {t : State} (e : s.frontMarker h op = some (o, t)) :
    Steady s t := by
  unfold State.frontMarker at e
  split at e
  · cases e
  · split at e
    · injection e with e; injection e with _ e2; subst e2; exact State.upQ_steady _ _ _
    · cases e

/-! ### Queue.lean -/

theorem State.ringErr_steady (s : State) (h : Nat) (kind : RingKind) (n : Nat) : Steady s (State.ringErr s h kind n)
    := by
  unfold State.ringErr
  try dsimp only
  repeat' (first
    | with_reducible exact Steady.refl _ | (with_reducible apply Steady.after (State.upQ_steady _ _ _)) | split)

/-! ### Ops.lean -/

theorem State.countCt_steady (s : State) (h : Nat) (k : Ct) : Steady s (State.countCt s h k) := by
  unfold State.countCt
  try dsimp only
  repeat' (first
    | with_reducible exact Steady.refl _ | with_reducible apply Steady.ite
    | (with_reducible apply Steady.after (State.upC_steady _ _ _)))

theorem State.backInvalidate_steady (s : State) (h off n : Nat) : Steady s (State.backInvalidate s h off n) := by
  unfold State.backInvalidate
  try dsimp only
  repeat' (first
    | with_reducible exact Steady.refl _ | (with_reducible apply Steady.after (State.upA_steady _ _ _))
    | (with_reducible apply Steady.keptBy (State.enqueue_kept _ _ _ _ _) (by decide))
    | (with_reducible apply Steady.after (Steady.foldl _ (fun _ _ => ?_) _ _)))

theorem State.putEntry_steady (s : State) (h noOff : Nat) (r : OutRing) (e : List Byte) : Steady s (State.putEntry s h
    noOff r e).1 := by
  unfold State.putEntry
  try dsimp only
  repeat' (first
    | with_reducible exact Steady.refl _ | (with_reducible apply Steady.keptBy (State.writeMem_kept _ _ _ _) (by decide))
    | (with_reducible apply Steady.after (State.backInvalidate_steady _ _ _ _)))

theorem State.postPacket_steady (s : State) (h noOff : Nat) (lw : Bool) (r : OutRing) (es : List (List Byte)) : Steady
    s (State.postPacket s h noOff lw r es).1 := by
  unfold State.postPacket
  try dsimp only
  repeat' (first
    | with_reducible exact Steady.refl _ | (with_reducible apply Steady.keptBy (State.writeMem_kept _ _ _ _) (by decide))
    | (with_reducible apply Steady.after (State.backInvalidate_steady _ _ _ _))
    | (with_reducible apply Steady.after (State.putEntry_steady _ _ _ _ _))
    | (with_reducible apply Steady.after (Steady.foldlPair _ (fun _ _ => ?_) _ _)))

theorem State.postEntries_steady (s : State) (h noOff : Nat) (lw : Bool) (r : OutRing) (es : List (List Byte)) :
    Steady s (State.postEntries s h noOff lw r es).1 := by
  unfold State.postEntries
  try dsimp only
  repeat' (first
    | with_reducible exact Steady.refl _ | (with_reducible apply Steady.after (State.postPacket_steady _ _ _ _ _ _))
    | (with_reducible apply Steady.after (Steady.foldlPair _ (fun _ _ => ?_) _ _)))

theorem State.postComp_steady (s : State) (h n : Nat) (es : List (List Byte)) : Steady s (State.postComp s h n es) :=
    by
  unfold State.postComp
  try dsimp only
  repeat' (first
    | with_reducible exact Steady.refl _ | with_reducible apply Steady.ite
    | (with_reducible apply Steady.after (State.upQ_steady _ _ _))
    | (with_reducible apply Steady.after (State.postEntries_steady _ _ _ _ _ _)))

theorem State.complete_steady (s : State) (h : Nat) (cs : List Completion) : Steady s (State.complete s h cs) := by
  unfold State.complete
  try dsimp only
  repeat' (first
    | with_reducible exact Steady.refl _ | (with_reducible apply Steady.after (State.upC_steady _ _ _))
    | ((with_reducible refine Steady.after (State.upK_steady ?_) ?_); intros; rfl)
    | (with_reducible apply Steady.after (State.countCt_steady _ _ _))
    | (with_reducible apply Steady.after (State.postComp_steady _ _ _ _))
    | (with_reducible apply Steady.after (Steady.foldl _ (fun _ _ => ?_) _ _)) | split)

/-! ### Queue.lean -/

theorem State.endTaken_steady (s : State) (h : Nat) (o : Order) (status detail : Nat) (result : List Byte) : Steady s
    (State.endTaken s h o status detail result) := by
  unfold State.endTaken
  try dsimp only
  repeat' (first
    | with_reducible exact Steady.refl _ | (with_reducible apply Steady.after (State.complete_steady _ _ _))
    | (with_reducible apply Steady.after (State.upQ_steady _ _ _)) | split)

theorem State.checks_steady (s : State) (h : Nat) (o : Order) : Steady s (State.checks s h o).1 := by
  unfold State.checks
  try dsimp only
  repeat' (first
    | with_reducible exact Steady.refl _ | (with_reducible apply Steady.after (State.upQ_steady _ _ _))
    | (with_reducible apply Steady.after (State.upC_steady _ _ _)) | split)

/-! ### Flash.lean -/

theorem State.startJob_steady (s : State) (h : Nat) (j : Job) (lost : Bool) : Steady s (State.startJob s h j lost).1
    := by
  unfold State.startJob
  try dsimp only
  repeat' (first
    | with_reducible exact Steady.refl _ | with_reducible apply Steady.ite
    | (with_reducible apply Steady.keptBy (State.enqueue_kept _ _ _ _ _) (by decide))
    | (with_reducible apply Steady.after (State.upO_steady _ _ _))
    | (with_reducible apply Steady.after (Steady.foldl _ (fun _ _ => ?_) _ _)))

/-- Writing an extent: the state it answers. -/
theorem State.writeExtent_steady (s : State) (h mask r kind key : Nat) (coded : Bool) (book : Option (Nat × Nat)) (next : Option Nat)
    (sums : List Attn.Summary) (img : List Byte) {t : State} {i j : Nat}
    (e : s.writeExtent h mask r kind key coded book next sums img = some (t, i, j)) : Steady s t := by
  unfold State.writeExtent at e
  dsimp only at e
  split at e
  · injection e with e
    injection e with e1 _
    subst e1
    refine Steady.trans (State.setHide_steady ?_) (State.startJob_steady _ _ _ _)
    exact KPart.nextSerial_core _ _ _ _
  · cases e

theorem State.rekeyCopy_steady (s : State) (h : Nat) (f : Flight) (kind key : Nat) (c : Copy) {t : State} {g : Flight}
    (e : s.rekeyCopy h f kind key c = some (t, g)) : Steady s t := by
  unfold State.rekeyCopy at e
  dsimp only at e
  split at e
  · split at e
    · cases e
    · next he => injection e with e; injection e with e1 _; subst e1; exact State.writeExtent_steady _ _ _ _ _ _ _ _ _ _ _ he
  · cases e

theorem State.rekeyAll_steady (h kind key : Nat) (l : List Copy) : ∀ (s : State) (f : Flight) {t : State} {g : Flight},
    s.rekeyAll h f kind key l = some (t, g) → Steady s t := by
  induction l with
  | nil => intro s f t g e; injection e with e; injection e with e1 _; subst e1; exact Steady.refl _
  | cons c l ih =>
    intro s f t g e
    unfold State.rekeyAll at e
    split at e
    · cases e
    · next he => exact (State.rekeyCopy_steady _ _ _ _ _ _ he).trans (ih _ _ e)

/-- Writing pieces: both states it answers. -/
theorem State.writePieces_steady (h mask kind key : Nat) (coded : Bool) (book : Option (Nat × Nat)) (l : List (List Byte)) :
    ∀ (s : State) (r : Nat) (f : Flight) (es : List Nat),
      Steady s (s.writePieces h mask kind key coded book r l f es).2.1 ∧
      ∀ x, (s.writePieces h mask kind key coded book r l f es).1 = some x → Steady s x.1 := by
  induction l with
  | nil => intro s r f es; exact ⟨Steady.refl _, fun x e => by injection e with e; subst e; exact Steady.refl _⟩
  | cons b l ih =>
    intro s r f es
    unfold State.writePieces
    split
    · exact ⟨Steady.refl _, fun x e => by cases e⟩
    · next he =>
      have k := State.writeExtent_steady _ _ _ _ _ _ _ _ _ _ _ he
      exact ⟨k.trans (ih _ _ _ _).1, fun x e => k.trans ((ih _ _ _ _).2 x e)⟩

/-- Placing rods on flash: both states it answers. -/
theorem State.placeFlash_steady (h mask key : Nat) (d : Desc) (l : List (Copy × Rod)) : ∀ (s : State) (r : Nat) (f : Flight),
      Steady s (s.placeFlash h mask key d r l f).2.1 ∧
      ∀ x, (s.placeFlash h mask key d r l f).1 = some x → Steady s x.1 := by
  induction l with
  | nil => intro s r f; exact ⟨Steady.refl _, fun x e => by injection e with e; subst e; exact Steady.refl _⟩
  | cons b l ih =>
    intro s r f
    unfold State.placeFlash
    dsimp only
    split
    · exact ⟨Steady.refl _, fun x e => by cases e⟩
    · next he =>
      have k := State.writeExtent_steady _ _ _ _ _ _ _ _ _ _ _ he
      exact ⟨k.trans (ih _ _ _).1, fun x e => k.trans ((ih _ _ _).2 x e)⟩

/-- The state of the first or the second part of an answer with two. -/
theorem Steady.fstOf {α : Type} {s t u : State} {g : α} {x : Option (State × α) × State × α} {y : State × α}
    (e : x = (some (t, g), y)) (h : ∀ z, x.1 = some z → Steady u z.1) (a : Steady s u) : Steady s t := by
  subst e; exact a.trans (h _ rfl)
theorem Steady.fstOf3 {α β : Type} {s t u : State} {g : α × β} {x : Option (State × α × β) × State × α} {y : State × α}
    (e : x = (some (t, g), y)) (h : ∀ z, x.1 = some z → Steady u z.1) (a : Steady s u) : Steady s t := by
  subst e; exact a.trans (h _ rfl)
theorem Steady.sndOf {α β : Type} {s t u : State} {g : α} {x : β × State × α} {y : β}
    (e : x = (y, t, g)) (h : Steady u x.2.1) (a : Steady s u) : Steady s t := by
  subst e; exact a.trans h

theorem State.readExtent_steady (s : State) (h idx : Nat) : Steady s (State.readExtent s h idx).1 := by
  unfold State.readExtent
  try dsimp only
  repeat' (first
    | with_reducible exact Steady.refl _ | (with_reducible apply Steady.after (State.startJob_steady _ _ _ _)) | split)

theorem State.pumpFetches_steady (s : State) (h : Nat) : Steady s (State.pumpFetches s h) := by
  unfold State.pumpFetches
  try dsimp only
  repeat' (first
    | with_reducible exact Steady.refl _ | with_reducible apply Steady.ite
    | (with_reducible apply Steady.after (State.upO_steady _ _ _))
    | (with_reducible apply Steady.after (State.readExtent_steady _ _ _))
    | (with_reducible apply Steady.after (Steady.foldl _ (fun _ _ => ?_) _ _)))

theorem State.fetch_steady (s : State) (h order layer rod ext : Nat) : Steady s (State.fetch s h order layer rod
    ext).1 := by
  unfold State.fetch
  try dsimp only
  repeat' (first
    | with_reducible exact Steady.refl _ | (with_reducible apply Steady.after (State.pumpFetches_steady _ _))
    | (with_reducible apply Steady.after (State.upO_steady _ _ _)))

/-! ### Queue.lean -/

theorem State.dmaRead_steady (s : State) (h order addr len : Nat) : Steady s (State.dmaRead s h order addr len).1 :=
    by
  unfold State.dmaRead
  try dsimp only
  repeat' (first
    | with_reducible exact Steady.refl _ | (with_reducible apply Steady.keptBy (State.enqueue_kept _ _ _ _ _) (by decide))
    | (with_reducible apply Steady.after (State.upO_steady _ _ _)))

theorem State.queueOrder_steady (s : State) (h : Nat) (o : Order) : Steady s (State.queueOrder s h o) := by
  unfold State.queueOrder
  dsimp only
  refine Steady.after (Steady.foldl _ (fun _ _ => State.fetch_steady _ _ _ _ _ _) _ _) ?_
  refine Steady.after (State.upQO_steady _ _ (fun x => { x.q with queue := x.q.queue ++ [_] }) _) ?_
  split
  · exact State.dmaRead_steady _ _ _ _ _
  · split
    · exact State.dmaRead_steady _ _ _ _ _
    · exact Steady.refl _

theorem State.dispatchOne_steady (s : State) (h : Nat) (o : Order) : Steady s (State.dispatchOne s h o) := by
  unfold State.dispatchOne
  try dsimp only
  repeat' (first
    | with_reducible exact Steady.refl _ | with_reducible apply Steady.ite
    | (with_reducible apply Steady.after (State.queueOrder_steady _ _ _))
    | (with_reducible apply Steady.after (State.checks_steady _ _ _))
    | (with_reducible apply Steady.after (State.endTaken_steady _ _ _ _ _ _))
    | (with_reducible apply Steady.after (State.upQ_steady _ _ _)) | split)

/-! ### Ops.lean -/

theorem State.postEvent_steady (s : State) (h : Nat) (es : List (List Byte)) : Steady s (State.postEvent s h es) := by
  unfold State.postEvent
  try dsimp only
  repeat' (first
    | with_reducible exact Steady.refl _ | with_reducible apply Steady.ite
    | (with_reducible apply Steady.after (State.upQ_steady _ _ _))
    | (with_reducible apply Steady.after (State.postEntries_steady _ _ _ _ _ _)))

theorem State.deviceEventTo_steady (s : State) (l : List Nat) : Steady s (State.deviceEventTo s l) := by
  unfold State.deviceEventTo
  try dsimp only
  repeat' (first
    | with_reducible exact Steady.refl _ | (with_reducible apply Steady.after (State.postEvent_steady _ _ _))
    | (with_reducible apply Steady.after (forAll_steady _ _ _ ?_)) | intro _)

theorem State.dmaWrite_steady (s : State) (h addr : Nat) (bs : List Byte) (ep : Bool) : Steady s (State.dmaWrite s h
    addr bs ep) := by
  unfold State.dmaWrite
  try dsimp only
  repeat' (first
    | with_reducible exact Steady.refl _ | (with_reducible apply Steady.keptBy (State.enqueue_kept _ _ _ _ _) (by decide))
    | (with_reducible apply Steady.after (State.upC_steady _ _ _))
    | (with_reducible apply Steady.after (Steady.foldlPair _ (fun _ _ => ?_) _ _)))

/-! ### Publish.lean -/

theorem State.trace_steady (s : State) (h : Nat) (f : Flight) : Steady s (State.trace s h f) := by
  unfold State.trace
  dsimp only
  split
  · exact Steady.refl _
  · split
    · with_reducible exact Steady.after (State.upProfPos_steady _ _ _) (State.dmaWrite_steady _ _ _ _ _)
    · exact State.upProfLost_steady _ _ _

/-! ### Admit.lean -/

theorem State.keep_steady (s : State) (h : Nat) (f : Flight) : Steady s (State.keep s h f) := by
  unfold State.keep
  try dsimp only
  repeat' (first
    | with_reducible exact Steady.refl _ | with_reducible apply Steady.ite
    | (with_reducible apply Steady.after (State.upQ_steady _ _ _)) | split)

theorem State.dropFlight_steady (s : State) (h seq : Nat) : Steady s (State.dropFlight s h seq) := by
  unfold State.dropFlight
  try dsimp only
  repeat' (first
    | with_reducible exact Steady.refl _ | (with_reducible apply Steady.after (State.upQ_steady _ _ _)))

/-! ### Flash.lean -/

theorem State.dropFetches_steady (s : State) (h order : Nat) : Steady s (State.dropFetches s h order) := by
  unfold State.dropFetches
  try dsimp only
  repeat' (first
    | with_reducible exact Steady.refl _ | (with_reducible apply Steady.after (State.pumpFetches_steady _ _))
    | (with_reducible apply Steady.after (State.upO_steady _ _ _)))

/-! ### Publish.lean -/

theorem State.countFlash_steady (s : State) (h p : Nat) : Steady s (State.countFlash s h p) := by
  unfold State.countFlash
  try dsimp only
  repeat' (first
    | with_reducible exact Steady.refl _ | ((with_reducible refine Steady.after (State.upHide_steady ?_) ?_); intros; rfl))

theorem State.withhold_steady (s : State) (h p lba n : Nat) : Steady s (State.withhold s h p lba n) := by
  unfold State.withhold
  try dsimp only
  repeat' (first
    | with_reducible exact Steady.refl _ | (with_reducible apply Steady.keptBy (State.upPort_kept _ _ _) (by decide))
    | (with_reducible apply Steady.after (State.upO_steady _ _ _)))

theorem State.trimEnds_steady (s : State) (h p lba n st : Nat) : Steady s (State.trimEnds s h p lba n st) := by
  unfold State.trimEnds
  try dsimp only
  repeat' (first
    | with_reducible exact Steady.refl _ | with_reducible apply Steady.ite
    | (with_reducible apply Steady.after (State.countFlash_steady _ _ _))
    | (with_reducible apply Steady.after (State.withhold_steady _ _ _ _ _))
    | (with_reducible apply Steady.after (State.upO_steady _ _ _)))

theorem State.trimRefused_steady (s : State) (h p lba n : Nat) : Steady s (State.trimRefused s h p lba n) := by
  unfold State.trimRefused
  try dsimp only
  repeat' (first
    | with_reducible exact Steady.refl _ | (with_reducible apply Steady.keptBy (State.upPort_kept _ _ _) (by decide))
    | (with_reducible apply Steady.after (State.trimEnds_steady _ _ _ _ _ _)))

theorem State.askTrim_steady (s : State) (h p lba n : Nat) : Steady s (State.askTrim s h p lba n) := by
  unfold State.askTrim
  try dsimp only
  repeat' (first
    | with_reducible exact Steady.refl _ | with_reducible apply Steady.ite
    | (with_reducible apply Steady.after (State.trimRefused_steady _ _ _ _ _))
    | (with_reducible apply Steady.keptBy (State.enqueue_kept _ _ _ _ _) (by decide)))

/-! ### Flash.lean -/

theorem State.freeExtentNow_steady (s : State) (h idx : Nat) : Steady s (State.freeExtentNow s h idx) := by
  unfold State.freeExtentNow
  try dsimp only
  repeat' (first
    | with_reducible exact Steady.refl _ | with_reducible apply Steady.ite
    | (with_reducible apply Steady.after (State.askTrim_steady _ _ _ _ _))
    | (with_reducible apply Steady.after (State.upO_steady _ _ _)) | split)

/-! ### Admit.lean -/

theorem State.giveBack_steady (s : State) (h : Nat) (f : Flight) : Steady s (State.giveBack s h f) := by
  unfold State.giveBack
  try dsimp only
  repeat' (first
    | with_reducible exact Steady.refl _ | (with_reducible apply Steady.after (State.freeExtentNow_steady _ _ _))
    | (with_reducible apply Steady.after (State.upO_steady _ _ _))
    | (with_reducible apply Steady.after (Steady.foldl _ (fun _ _ => ?_) _ _)))

/-! ### Ops.lean -/

theorem State.deviceEvent_steady (s : State) : Steady s (State.deviceEvent s) := by
  unfold State.deviceEvent
  try dsimp only
  repeat' (first
    | with_reducible exact Steady.refl _ | (with_reducible apply Steady.after (State.deviceEventTo_steady _ _)))

/-! ### Admit.lean -/

theorem State.putFlight_steady (s : State) (h : Nat) (f : Flight) : Steady s (State.putFlight s h f) := by
  unfold State.putFlight
  try dsimp only
  repeat' (first
    | with_reducible exact Steady.refl _ | with_reducible apply Steady.ite
    | (with_reducible apply Steady.after (State.upQ_steady _ _ _))
    | (with_reducible apply Steady.after (State.dropFlight_steady _ _ _))
    | (with_reducible apply Steady.after (State.keep_steady _ _ _)))

/-! ### Queue.lean -/

theorem ringDisable_steady (h : Nat) (kind : RingKind) (n : Nat) (ctl : U32) (s : State) : Steady s (ringDisable h
    kind n ctl s) := by
  unfold ringDisable
  try dsimp only
  repeat' (first
    | with_reducible exact Steady.refl _ | with_reducible apply Steady.ite
    | (with_reducible apply Steady.after (State.upQ_steady _ _ _)) | split)

theorem ringEnable_steady (h : Nat) (kind : RingKind) (n : Nat) (ctl : U32) (s : State) : Steady s (ringEnable h kind
    n ctl s) := by
  unfold ringEnable
  try dsimp only
  repeat' (first
    | with_reducible exact Steady.refl _ | with_reducible apply Steady.ite
    | (with_reducible apply Steady.after (State.postEvent_steady _ _ _))
    | (with_reducible apply Steady.keptBy (State.zeroRing_kept _ _ _ _) (by decide))
    | (with_reducible apply Steady.after (State.upQ_steady _ _ _))
    | (with_reducible apply Steady.after (State.ringErr_steady _ _ _ _))
    | (with_reducible apply Steady.after (Steady.foldl _ (fun _ _ => ?_) _ _)) | split)

theorem State.dispatch_steady (s : State) (h : Nat) (n0 : Nat) : Steady s (State.dispatch s h n0) := by
  induction n0 generalizing s with
  | zero => exact Steady.refl _
  | succ k ih =>
    unfold State.dispatch
    dsimp only
    split
    · exact Steady.refl _
    · split
      · refine Steady.trans ?_ (ih _)
        refine Steady.after (State.endTaken_steady _ _ _ _ _ _) ?_
        split
        · exact Steady.after (State.upQ_steady _ _ _) (State.upQ_steady _ _ _)
        · exact State.upQ_steady _ _ _
      · split
        · exact Steady.refl _
        · exact Steady.trans (Steady.after (State.dispatchOne_steady _ _ _) (State.upQ_steady _ _ _)) (ih _)

theorem State.dispatchAll_steady (s : State) (h : Nat) : Steady s (State.dispatchAll s h) := by
  unfold State.dispatchAll
  try dsimp only
  repeat' (first
    | with_reducible exact Steady.refl _ | (with_reducible apply Steady.after (State.dispatch_steady _ _ _)))

/-! ### Admit.lean -/

theorem State.admit_steady (s : State) (h c : Nat) (cls : SlotClass) (is : Order → Bool) (fit : HideSt → Order → Fit)
    (eff : State → Order → Flight → State) (h_eff : ∀ x0 x1 x2, Steady x0 (eff x0 x1 x2)) : Steady s (State.admitFirst s h
    c cls is fit eff) := by
  unfold State.admitFirst
  try dsimp only
  repeat' (first
    | with_reducible exact Steady.refl _ | with_reducible apply Steady.ite
    | (with_reducible refine Steady.trans ?_ (h_eff _ _ _))
    | ((with_reducible refine Steady.after (State.upHide_steady ?_) ?_); intros; rfl)
    | (with_reducible apply Steady.after (State.keep_steady _ _ _))
    | (with_reducible apply Steady.after (State.dropFetches_steady _ _ _)) | split)

/-! ### Queue.lean -/

theorem State.takeEntries_steady (s : State) (h ring n : Nat) (timeout : Bool) : Steady s (State.takeEntries s h ring
    n timeout) := by
  unfold State.takeEntries
  try dsimp only
  repeat' (first
    | with_reducible exact Steady.refl _ | with_reducible apply Steady.ite
    | (with_reducible apply Steady.keptBy (State.writeMem_kept _ _ _ _) (by decide))
    | (with_reducible apply Steady.after (State.upQ_steady _ _ _))
    | (with_reducible apply Steady.after (State.upC_steady _ _ _))
    | (with_reducible apply Steady.after (Steady.foldl _ (fun _ _ => ?_) _ _)) | split)

theorem packetTimeout_steady (h ring : Nat) (s : State) : Steady s (packetTimeout h ring s) := by
  unfold packetTimeout
  try dsimp only
  repeat' (first
    | with_reducible exact Steady.refl _ | with_reducible apply Steady.ite
    | (with_reducible apply Steady.after (State.takeEntries_steady _ _ _ _ _))
    | (with_reducible apply Steady.after (State.dispatchAll_steady _ _)) | split)

theorem queuePointerMismatch_steady (h : Nat) (kind : RingKind) (n : Nat) (s : State) : Steady s (queuePointerMismatch
    h kind n s) := by
  unfold queuePointerMismatch
  try dsimp only
  repeat' (first
    | with_reducible exact Steady.refl _ | (with_reducible apply Steady.keptBy (State.clearTags_kept _ _ _) (by decide))
    | (with_reducible apply Steady.after (State.postEvent_steady _ _ _))
    | (with_reducible apply Steady.after (State.upQ_steady _ _ _))
    | (with_reducible apply Steady.keptBy (State.record_kept _ _ _ _ _) (by decide)) | split)

theorem heldPostTimeout_steady (h : Nat) (s : State) : Steady s (heldPostTimeout h s) := by
  unfold heldPostTimeout
  try dsimp only
  repeat' (first
    | with_reducible exact Steady.refl _ | (with_reducible apply Steady.after (State.upQ_steady _ _ _)))

theorem takePacket_steady (h : Nat) (s : State) : Steady s (takePacket h s) := by
  unfold takePacket
  try dsimp only
  repeat' (first
    | with_reducible exact Steady.refl _ | with_reducible apply Steady.ite
    | (with_reducible apply Steady.after (State.takeEntries_steady _ _ _ _ _))
    | (with_reducible apply Steady.after (State.dispatchAll_steady _ _)) | split)

end Sys2Proof.Machine
end

