-- ==== Sys2Proof/Laws/SteadyOrders.lean ====
section
/-!
SUPPORT. The operations that leave the core of every hide as it was: the orders, transactions and DMA.
-/

namespace Sys2Proof.Machine
open Sys2Proof

/-! ### Txn.lean -/

theorem beginWork_steady (h : Nat) (s : State) (o : Order) : Steady s (beginWork h s o) := by
  unfold beginWork
  try dsimp only
  repeat' (first
    | with_reducible exact Steady.refl _ | (with_reducible apply Steady.after (State.upQ_steady _ _ _))
    | (with_reducible apply Steady.after (State.endTaken_steady _ _ _ _ _ _))
    | (with_reducible apply Steady.after (State.checks_steady _ _ _))
    | (with_reducible apply Steady.after (State.dispatchOne_steady _ _ _)) | split)

/-! ### Move.lean -/

theorem State.forget_steady (s : State) (h : Nat) (f : Flight) : Steady s (State.forget s h f).1 := by
  unfold State.forget
  try dsimp only
  repeat' (first
    | with_reducible exact Steady.refl _ | (with_reducible apply Steady.after (State.upO_steady _ _ _)))

/-! ### Append.lean -/

theorem State.revoke_steady (s : State) (h : Nat) (f : Flight) : Steady s (State.revoke s h f) := by
  unfold State.revoke
  try dsimp only
  repeat' (first
    | with_reducible exact Steady.refl _ | (with_reducible apply Steady.after (State.upO_steady _ _ _))
    | (with_reducible apply Steady.after (State.giveBack_steady _ _ _)))

/-! ### StepOrders.lean -/

theorem State.putPieces_steady (s : State) (h : Nat) (f : Flight) (ps : List HeldOut) : Steady s (State.putPieces s h
    f ps).1 := by
  unfold State.putPieces
  try dsimp only
  repeat' (first
    | with_reducible exact Steady.refl _ | with_reducible apply Steady.ite
    | (with_reducible apply Steady.after (State.upC_steady _ _ _))
    | (with_reducible apply Steady.after (State.dmaWrite_steady _ _ _ _ _))
    | (with_reducible apply Steady.after (Steady.foldlPair _ (fun _ _ => ?_) _ _)) | split)

/-! ### Replays.lean -/

theorem State.release_steady (s : State) (h : Nat) (f : Flight) (entries : List Nat) (g : HeldOut → HeldOut) : Steady
    s (State.release s h f entries g).1 := by
  unfold State.release
  try dsimp only
  repeat' (first
    | with_reducible exact Steady.refl _ | (with_reducible apply Steady.after (State.dmaWrite_steady _ _ _ _ _))
    | (with_reducible apply Steady.after (State.putPieces_steady _ _ _ _))
    | (with_reducible apply Steady.after (Steady.foldl _ (fun _ _ => ?_) _ _)) | split)

/-! ### Txn.lean -/

theorem State.abortTxn_steady (s : State) (h : Nat) (t : Txn) : Steady s (State.abortTxn s h t) := by
  unfold State.abortTxn
  try dsimp only
  repeat' (first
    | with_reducible exact Steady.refl _ | (with_reducible apply Steady.after (State.upQ_steady _ _ _))
    | (with_reducible apply Steady.after (State.revoke_steady _ _ _))
    | (with_reducible apply Steady.after (Steady.foldl _ (fun _ _ => ?_) _ _)))

/-! ### Meta.lean -/

theorem State.settle_steady (s : State) (h : Nat) (f : Flight) : Steady s (State.settle s h f) := by
  unfold State.settle
  try dsimp only
  repeat' (first
    | with_reducible exact Steady.refl _ | with_reducible apply Steady.ite
    | (with_reducible apply Steady.after (State.keep_steady _ _ _))
    | (with_reducible apply Steady.after (State.putFlight_steady _ _ _)))

theorem State.close_steady (s : State) (h : Nat) (f : Flight) (e : Env) : Steady s (State.close s h f e) := by
  unfold State.close
  try dsimp only
  repeat' (first
    | with_reducible exact Steady.refl _ | (with_reducible apply Steady.after (State.settle_steady _ _ _))
    | (with_reducible apply Steady.keptBy (State.hold_kept _ _ _ _ _) (by decide)))

/-! ### Rods.lean -/

theorem State.eccResult_steady (s : State) (h : Nat) (e : DramErr) : Steady s (State.eccResult s h e) := by
  unfold State.eccResult
  try dsimp only
  repeat' (first
    | with_reducible exact Steady.refl _ | with_reducible apply Steady.ite
    | (with_reducible apply Steady.keptBy (State.upCluster_kept _ _ _) (by decide))
    | (with_reducible apply Steady.after (State.upO_steady _ _ _)) | split | (with_reducible apply Steady.upd))

theorem State.stored_steady (s : State) (h : Nat) (e : Env) : Steady s (State.stored s h e) := by
  unfold State.stored
  try dsimp only
  repeat' (first
    | with_reducible exact Steady.refl _ | (with_reducible apply Steady.after (State.upO_steady _ _ _))
    | (with_reducible apply Steady.after (State.eccResult_steady _ _ _))
    | (with_reducible apply Steady.after (Steady.foldl _ (fun _ _ => ?_) _ _)))

/-! ### Meta.lean -/

theorem forkWork_steady (h : Nat) (e : Env) (s : State) (o : Order) (f : Flight) : Steady s (forkWork h e s o f) := by
  unfold forkWork
  try dsimp only
  repeat' (first
    | with_reducible exact Steady.refl _ | with_reducible apply Steady.ite
    | (with_reducible apply Steady.after (State.close_steady _ _ _ _))
    | (with_reducible apply Steady.after (State.keep_steady _ _ _))
    | (with_reducible apply Steady.after (State.stored_steady _ _ _)) | split)

/-! ### Move.lean -/

theorem State.abandon_steady (s : State) (h : Nat) (f : Flight) (status detail : Nat) (result : List Byte := []) :
    Steady s (State.abandon s h f status detail result) := by
  unfold State.abandon
  try dsimp only
  repeat' (first
    | with_reducible exact Steady.refl _ | (with_reducible apply Steady.after (State.settle_steady _ _ _))
    | (with_reducible apply Steady.after (State.giveBack_steady _ _ _))
    | (with_reducible apply Steady.after (State.forget_steady _ _ _)))

/-! ### Meta.lean -/

theorem createEnd_steady (h : Nat) (s : State) (o : Order) (d : Desc) (q : Seq) (f : Flight) (e : Env) : Steady s
    (createEnd h s o d q f e) := by
  unfold createEnd
  try dsimp only
  repeat' (first
    | with_reducible exact Steady.refl _ | (with_reducible apply Steady.after (State.close_steady _ _ _ _))
    | (with_reducible apply Steady.after (State.upO_steady _ _ _)))

theorem State.undo_steady (s : State) (h : Nat) (f : Flight) (status detail : Nat) : Steady s (State.undo s h f status
    detail) := by
  unfold State.undo
  try dsimp only
  repeat' (first
    | with_reducible exact Steady.refl _ | (with_reducible apply Steady.after (State.settle_steady _ _ _))
    | (with_reducible apply Steady.after (State.giveBack_steady _ _ _)))

theorem createStep_steady (h c : Nat) (e : Env) (s : State) (f : Flight) : Steady s (createStep h c e s f) := by
  unfold createStep
  try dsimp only
  repeat' (first
    | with_reducible exact Steady.refl _ | with_reducible apply Steady.ite
    | (with_reducible apply Steady.after (State.settle_steady _ _ _))
    | (with_reducible apply Steady.after (createEnd_steady _ _ _ _ _ _ _))
    | (with_reducible apply Steady.after (State.upO_steady _ _ _))
    | (with_reducible apply Steady.after (State.undo_steady _ _ _ _ _))
    | (with_reducible apply Steady.after (State.stored_steady _ _ _))
    | (with_reducible apply Steady.after (State.rekeyAll_steady _ _ _ _ _ _ ‹_ = some (_, _)›)) | split)

/-! ### StepOrders.lean -/

theorem State.stepDone_steady (s : State) (h : Nat) (f : Flight) (j : StepJob) (es : List Entry) : Steady s
    (State.stepDone s h f j es) := by
  unfold State.stepDone
  try dsimp only
  repeat' (first
    | with_reducible exact Steady.refl _ | (with_reducible apply Steady.after (State.settle_steady _ _ _))
    | (with_reducible apply Steady.after (State.dropFetches_steady _ _ _)))

theorem State.stepNext_steady (s : State) (h : Nat) (f : Flight) (j : StepJob) (es : List Entry) : Steady s
    (State.stepNext s h f j es) := by
  unfold State.stepNext
  try dsimp only
  repeat' (first
    | with_reducible exact Steady.refl _ | with_reducible apply Steady.ite
    | (with_reducible apply Steady.after (State.settle_steady _ _ _))
    | (with_reducible apply Steady.after (State.stepDone_steady _ _ _ _ _)))

theorem State.withdraw_steady (s : State) (h : Nat) (f : Flight) (ext : Nat) : Steady s (State.withdraw s h f ext) :=
    by
  unfold State.withdraw
  try dsimp only
  repeat' (first
    | with_reducible exact Steady.refl _ | with_reducible apply Steady.ite
    | (with_reducible apply Steady.after (State.settle_steady _ _ _))
    | (with_reducible apply Steady.after (State.stepNext_steady _ _ _ _ _))
    | (with_reducible apply Steady.after (State.putPieces_steady _ _ _ _))
    | (with_reducible apply Steady.after (Steady.foldlPair _ (fun _ _ => ?_) _ _)) | split)

theorem State.markFetch_steady (s : State) (h id : Nat) (k : Fetch) : Steady s (State.markFetch s h id k) := by
  unfold State.markFetch
  try dsimp only
  repeat' (first
    | with_reducible exact Steady.refl _ | (with_reducible apply Steady.after (State.upO_steady _ _ _)))

theorem State.missFetch_steady (s : State) (h id : Nat) (k : Fetch) : Steady s (State.missFetch s h id k) := by
  unfold State.missFetch
  try dsimp only
  repeat' (first
    | with_reducible exact Steady.refl _ | with_reducible apply Steady.ite
    | (with_reducible apply Steady.after (State.withdraw_steady _ _ _ _))
    | (with_reducible apply Steady.after (State.markFetch_steady _ _ _ _)) | split)

theorem fetchDeadline_steady (h id : Nat) (s : State) : Steady s (fetchDeadline h id s) := by
  unfold fetchDeadline
  try dsimp only
  repeat' (first
    | with_reducible exact Steady.refl _ | with_reducible apply Steady.ite
    | (with_reducible apply Steady.after (State.missFetch_steady _ _ _ _))
    | (with_reducible apply Steady.after (State.markFetch_steady _ _ _ _)) | split)

/-! ### Move.lean -/

theorem placeEnd_steady (h : Nat) (s : State) (j : PlaceJob) (lines : Nat) (f : Flight) (e : Env) : Steady s (placeEnd
    h s j lines f e) := by
  unfold placeEnd
  try dsimp only
  repeat' (first
    | with_reducible exact Steady.refl _ | (with_reducible apply Steady.after (State.close_steady _ _ _ _))
    | (with_reducible apply Steady.after (State.forget_steady _ _ _)))

theorem swapOutEnd_steady (h : Nat) (s : State) (f : Flight) (serial size : Nat) (ext : Option Nat) (e : Env) : Steady
    s (swapOutEnd h s f serial size ext e) := by
  unfold swapOutEnd
  try dsimp only
  repeat' (first
    | with_reducible exact Steady.refl _ | (with_reducible apply Steady.after (State.close_steady _ _ _ _))
    | (with_reducible apply Steady.after (State.forget_steady _ _ _)))

theorem swapOutStep_steady (h c : Nat) (e : Env) (s : State) (f : Flight) : Steady s (swapOutStep h c e s f) := by
  unfold swapOutStep
  dsimp only
  have b := State.stored_steady s h e
  generalize State.stored s h e = s1 at *
  refine b.trans ?_
  split
  · exact State.abandon_steady _ _ _ _ _ _
  · next q hq =>
    split
    · exact State.abandon_steady _ _ _ _ _ _
    · split
      · split
        · exact Steady.refl _
        · split
          · exact State.abandon_steady _ _ _ _ _ _
          · exact swapOutEnd_steady _ _ _ _ _ _ _
      · split
        · exact State.abandon_steady _ _ _ _ _ _
        · have k := State.upSerial_steady s1 h 0 q.jobKey
          split
          · split
            · exact State.abandon_steady _ _ _ _ _ _
            · with_reducible exact (k.trans (State.dmaWrite_steady _ _ _ _ _)).trans (swapOutEnd_steady _ _ _ _ _ _ _)
          · with_reducible refine k.trans ?_
            with_reducible refine Steady.trans (State.forget_steady _ h (State.at s1 c f)) ?_
            split
            · next hw =>
              refine Steady.trans ?_ (State.abandon_steady _ _ _ _ _ _)
              exact Steady.sndOf hw (State.writePieces_steady _ _ _ _ _ _ _ _ _ _ _).1 (Steady.refl _)
            · next hw =>
              exact ((Steady.fstOf3 hw (fun z hz => (State.writePieces_steady _ _ _ _ _ _ _ _ _ _ _).2 z hz)
                (Steady.refl _)).trans (State.upO_steady _ _ _)).trans (State.settle_steady _ _ _)

/-! ### Meta.lean -/

theorem State.beginCopies_steady (s : State) (h : Nat) (f : Flight) (cs : List (Nat × Nat × Page × Bool)) : Steady s
    (State.beginCopies s h f cs).1 := by
  unfold State.beginCopies
  try dsimp only
  repeat' (first
    | with_reducible exact Steady.refl _ | (with_reducible apply Steady.after (State.readExtent_steady _ _ _))
    | (with_reducible apply Steady.after (Steady.foldlPair _ (fun _ _ => ?_) _ _)) | split)

/-! ### Move.lean -/

theorem swapOutWork_steady (h c : Nat) (e : Env) (s : State) (o : Order) (f : Flight) : Steady s (swapOutWork h c e s
    o f) := by
  unfold swapOutWork
  try dsimp only
  repeat' (first
    | with_reducible exact Steady.refl _ | with_reducible apply Steady.ite
    | (with_reducible apply Steady.after (swapOutStep_steady _ _ _ _ _))
    | (with_reducible apply Steady.after (State.beginCopies_steady _ _ _ _))
    | (with_reducible apply Steady.after (State.keep_steady _ _ _))
    | (with_reducible apply Steady.after (State.stored_steady _ _ _)) | split)

/-! ### StepOrders.lean -/

theorem State.emit_steady (s : State) (h : Nat) (f : Flight) (i : Nat) (ps : List HeldOut) : Steady s (State.emit s h
    f i ps).1 := by
  unfold State.emit
  try dsimp only
  repeat' (first
    | with_reducible exact Steady.refl _ | (with_reducible apply Steady.after (State.putPieces_steady _ _ _ _)) | split)

theorem stepRun_steady (h c : Nat) (e : Env) (s : State) (f : Flight) : Steady s (stepRun h c e s f) := by
  unfold stepRun
  try dsimp only
  repeat' (first
    | with_reducible exact Steady.refl _ | (with_reducible apply Steady.after (State.stepNext_steady _ _ _ _ _))
    | (with_reducible apply Steady.after (State.emit_steady _ _ _ _ _))
    | (with_reducible apply Steady.keptBy (State.hold_kept _ _ _ _ _) (by decide))
    | (with_reducible apply Steady.after (State.dropFetches_steady _ _ _))
    | (with_reducible apply Steady.after (State.settle_steady _ _ _))
    | (with_reducible apply Steady.after (State.stored_steady _ _ _))
    | (with_reducible apply Steady.after (Steady.foldlPair _ (fun _ _ => ?_) _ _)) | split)

theorem State.queueBlocks_steady (s : State) (h : Nat) (f : Flight) (ks : List (Nat × Nat)) : Steady s
    (State.queueBlocks s h f ks).1 := by
  unfold State.queueBlocks
  try dsimp only
  repeat' (first
    | with_reducible exact Steady.refl _ | (with_reducible apply Steady.after (State.upO_steady _ _ _)))

theorem State.stepFetches_steady (s : State) (h : Nat) (f : Flight) (ns : List Need) : Steady s (State.stepFetches s h
    f ns).1 := by
  unfold State.stepFetches
  try dsimp only
  repeat' (first
    | with_reducible exact Steady.refl _ | (with_reducible apply Steady.after (State.fetch_steady _ _ _ _ _ _))
    | (with_reducible apply Steady.after (State.upO_steady _ _ _))
    | (with_reducible apply Steady.after (Steady.foldlPair _ (fun _ _ => ?_) _ _)) | split)

theorem stepWork_steady (h c : Nat) (e : Env) (s : State) (o : Order) (f : Flight) : Steady s (stepWork h c e s o f)
    := by
  unfold stepWork
  try dsimp only
  repeat' (first
    | with_reducible exact Steady.refl _ | with_reducible apply Steady.ite
    | (with_reducible apply Steady.after (stepRun_steady _ _ _ _ _))
    | (with_reducible apply Steady.after (State.queueBlocks_steady _ _ _ _))
    | (with_reducible apply Steady.after (State.stepFetches_steady _ _ _ _))
    | (with_reducible apply Steady.after (State.dropFetches_steady _ _ _))
    | (with_reducible apply Steady.after (State.keep_steady _ _ _))
    | (with_reducible apply Steady.after (State.stored_steady _ _ _)) | split)

/-! ### Move.lean -/

theorem State.readExtents_steady (s : State) (h : Nat) (f : Flight) (es : List Nat) : Steady s (State.readExtents s h
    f es).1 := by
  unfold State.readExtents
  try dsimp only
  repeat' (first
    | with_reducible exact Steady.refl _ | (with_reducible apply Steady.after (State.readExtent_steady _ _ _))
    | (with_reducible apply Steady.after (Steady.foldlPair _ (fun _ _ => ?_) _ _)))

theorem placeObjWork_steady (h : Nat) (e : Env) (s : State) (o : Order) (f : Flight) : Steady s (placeObjWork h e s o
    f) := by
  unfold placeObjWork
  try dsimp only
  repeat' (first
    | with_reducible exact Steady.refl _ | with_reducible apply Steady.ite
    | (with_reducible apply Steady.after (State.readExtents_steady _ _ _ _))
    | (with_reducible apply Steady.after (State.abandon_steady _ _ _ _ _ _))
    | (with_reducible apply Steady.after (State.close_steady _ _ _ _))
    | (with_reducible apply Steady.after (State.keep_steady _ _ _))
    | (refine Steady.sndOf ‹_› (State.writePieces_steady _ _ _ _ _ _ _ _ _ _ _).1 ?_)
    | (refine Steady.fstOf3 ‹_› (fun z hz => (State.writePieces_steady _ _ _ _ _ _ _ _ _ _ _).2 z hz) ?_) | split)

/-! ### Meta.lean -/

theorem admitSeqWork_steady (h : Nat) (e : Env) (s : State) (o : Order) (f : Flight) : Steady s (admitSeqWork h e s o
    f) := by
  unfold admitSeqWork
  try dsimp only
  repeat' (first
    | with_reducible exact Steady.refl _ | with_reducible apply Steady.ite
    | (with_reducible apply Steady.after (State.close_steady _ _ _ _))
    | (with_reducible apply Steady.after (State.upO_steady _ _ _))
    | (with_reducible apply Steady.after (State.keep_steady _ _ _))
    | (with_reducible apply Steady.after (State.stored_steady _ _ _)) | split)

/-! ### Deliver.lean -/

theorem State.deliverEnd_steady (s : State) (h : Nat) (f : Flight) (e : Env) : Steady s (State.deliverEnd s h f e) :=
    by
  unfold State.deliverEnd
  try dsimp only
  repeat' (first
    | with_reducible exact Steady.refl _ | (with_reducible apply Steady.after (State.close_steady _ _ _ _))
    | (with_reducible apply Steady.after (State.dropFetches_steady _ _ _)))

/-! ### StepOrders.lean -/

theorem State.endFetch_steady (s : State) (h id : Nat) (k : Fetch) : Steady s (State.endFetch s h id k) := by
  unfold State.endFetch
  try dsimp only
  repeat' (first
    | with_reducible exact Steady.refl _ | (with_reducible apply Steady.after (State.upO_steady _ _ _))
    | (with_reducible apply Steady.after (State.pumpFetches_steady _ _)))

/-! ### Deliver.lean -/

theorem State.deliverOne_steady (s : State) (h : Nat) (j : DeliverJob) (f : Flight) (r : Nat × Nat × Nat) : Steady s
    (State.deliverOne s h j f r).1 := by
  unfold State.deliverOne
  try dsimp only
  repeat' (first
    | with_reducible exact Steady.refl _ | with_reducible apply Steady.ite
    | (with_reducible apply Steady.after (State.endFetch_steady _ _ _ _))
    | (with_reducible apply Steady.after (State.dmaWrite_steady _ _ _ _ _)) | split)

theorem deliverDeadline_steady (h : Nat) (s : State) : Steady s (deliverDeadline h s) := by
  unfold deliverDeadline
  try dsimp only
  repeat' (first
    | with_reducible exact Steady.refl _ | (with_reducible apply Steady.after (State.deliverEnd_steady _ _ _ _))
    | (with_reducible apply Steady.after (State.dmaWrite_steady _ _ _ _ _))
    | (with_reducible apply Steady.after (State.deliverOne_steady _ _ _ _ _))
    | (with_reducible apply Steady.after (State.dropFetches_steady _ _ _))
    | (with_reducible apply Steady.after (State.settle_steady _ _ _))
    | (with_reducible apply Steady.after (Steady.foldl _ (fun _ _ => ?_) _ _))
    | (with_reducible apply Steady.after (Steady.foldlPair _ (fun _ _ => ?_) _ _)) | split)

/-! ### Meta.lean -/

theorem promoteEnd_steady (h : Nat) (s : State) (f : Flight) (i : Nat) (p : Pfx) (e : Env) : Steady s (promoteEnd h s
    f i p e) := by
  unfold promoteEnd
  try dsimp only
  repeat' (first
    | with_reducible exact Steady.refl _ | (with_reducible apply Steady.after (State.close_steady _ _ _ _))
    | (with_reducible apply Steady.after (State.upO_steady _ _ _)))

theorem promoteStep_steady (h c : Nat) (e : Env) (s : State) (f : Flight) : Steady s (promoteStep h c e s f) := by
  unfold promoteStep
  try dsimp only
  repeat' (first
    | with_reducible exact Steady.refl _ | with_reducible apply Steady.ite
    | (with_reducible apply Steady.after (State.settle_steady _ _ _))
    | (with_reducible apply Steady.after (promoteEnd_steady _ _ _ _ _ _))
    | (with_reducible apply Steady.after (State.upO_steady _ _ _))
    | (with_reducible apply Steady.after (State.undo_steady _ _ _ _ _))
    | (with_reducible apply Steady.after (State.stored_steady _ _ _))
    | (with_reducible apply Steady.after (State.rekeyAll_steady _ _ _ _ _ _ ‹_ = some (_, _)›)) | split)

/-! ### Deliver.lean -/

theorem deliverStep_steady (h c : Nat) (e : Env) (s : State) (f : Flight) : Steady s (deliverStep h c e s f) := by
  unfold deliverStep
  try dsimp only
  repeat' (first
    | with_reducible exact Steady.refl _ | with_reducible apply Steady.ite
    | (with_reducible apply Steady.after (State.deliverEnd_steady _ _ _ _))
    | (with_reducible apply Steady.after (State.deliverOne_steady _ _ _ _ _))
    | (with_reducible apply Steady.after (State.dropFetches_steady _ _ _))
    | (with_reducible apply Steady.after (State.settle_steady _ _ _))
    | (with_reducible apply Steady.after (State.stored_steady _ _ _))
    | (with_reducible apply Steady.after (Steady.foldlPair _ (fun _ _ => ?_) _ _)) | split)

theorem deliverWork_steady (h c : Nat) (e : Env) (s : State) (o : Order) (f : Flight) : Steady s (deliverWork h c e s
    o f) := by
  unfold deliverWork
  try dsimp only
  repeat' (first
    | with_reducible exact Steady.refl _ | with_reducible apply Steady.ite
    | (with_reducible apply Steady.after (deliverStep_steady _ _ _ _ _))
    | (with_reducible apply Steady.after (State.queueBlocks_steady _ _ _ _))
    | (with_reducible apply Steady.after (State.fetch_steady _ _ _ _ _ _))
    | (with_reducible apply Steady.after (State.keep_steady _ _ _))
    | (with_reducible apply Steady.after (State.stored_steady _ _ _))
    | (with_reducible apply Steady.after (Steady.foldlPair _ (fun _ _ => ?_) _ _)) | split)

/-! ### Txn.lean -/

theorem txnTimeout_steady (h ring : Nat) (s : State) : Steady s (txnTimeout h ring s) := by
  unfold txnTimeout
  try dsimp only
  repeat' (first
    | with_reducible exact Steady.refl _ | (with_reducible apply Steady.after (State.dropFetches_steady _ _ _))
    | (with_reducible apply Steady.after (State.endTaken_steady _ _ _ _ _ _))
    | (with_reducible apply Steady.after (State.dispatchAll_steady _ _))
    | (with_reducible apply Steady.after (State.upO_steady _ _ _))
    | (with_reducible apply Steady.after (State.upQ_steady _ _ _))
    | (with_reducible apply Steady.after (Steady.foldl _ (fun _ _ => ?_) _ _)) | split)

/-! ### Meta.lean -/

theorem State.run_steady (s : State) (h c : Nat) (cls : SlotClass) (is : Order → Bool) (step : State → Flight → State)
    (work : State → Order → Flight → State) (h_step : ∀ x0 x1, Steady x0 (step x0 x1)) (h_work : ∀ x0 x1 x2, Steady x0
    (work x0 x1 x2)) : Steady s (State.run s h c cls is step work) := by
  unfold State.run
  try dsimp only
  repeat' (first
    | with_reducible exact Steady.refl _ | (with_reducible assumption) | (with_reducible refine Steady.trans ?_ (h_step _ _))
    | (with_reducible apply Steady.after (State.admit_steady _ _ _ _ _ _ _ ?_)) | split)

/-! ### StateScore.lean -/

theorem State.closeOut_steady (s : State) (h : Nat) (f : Flight) (e : Env) (ps : List HeldOut) : Steady s
    (State.closeOut s h f e ps) := by
  unfold State.closeOut
  try dsimp only
  repeat' (first
    | with_reducible exact Steady.refl _ | with_reducible apply Steady.ite
    | (with_reducible apply Steady.after (State.dmaWrite_steady _ _ _ _ _))
    | (with_reducible apply Steady.after (State.settle_steady _ _ _))
    | (with_reducible apply Steady.keptBy (State.hold_kept _ _ _ _ _) (by decide))
    | (with_reducible apply Steady.after (Steady.foldl _ (fun _ _ => ?_) _ _)))

/-! ### Txn.lean -/

theorem dropWork_steady (h : Nat) (s : State) (o : Order) : Steady s (dropWork h s o) := by
  unfold dropWork
  try dsimp only
  repeat' (first
    | with_reducible exact Steady.refl _ | with_reducible apply Steady.ite
    | (with_reducible apply Steady.keptBy (State.writeMem_kept _ _ _ _) (by decide))
    | (with_reducible apply Steady.after (State.backInvalidate_steady _ _ _ _))
    | (with_reducible apply Steady.after (State.upQ_steady _ _ _))
    | (with_reducible apply Steady.after (State.endTaken_steady _ _ _ _ _ _))
    | (with_reducible apply Steady.after (State.checks_steady _ _ _))
    | (with_reducible apply Steady.after (State.dispatchOne_steady _ _ _)) | split)

/-! ### Move.lean -/

theorem State.swapInFail_steady (s : State) (h : Nat) (f : Flight) (status : Nat) : Steady s (State.swapInFail s h f
    status) := by
  unfold State.swapInFail
  try dsimp only
  repeat' (first
    | with_reducible exact Steady.refl _ | (with_reducible apply Steady.after (State.abandon_steady _ _ _ _ _ _))
    | (with_reducible apply Steady.after (State.upO_steady _ _ _)) | split)

theorem placeStep_steady (h c : Nat) (e : Env) (s : State) (f : Flight) : Steady s (placeStep h c e s f) := by
  unfold placeStep
  try dsimp only
  repeat' (first
    | with_reducible exact Steady.refl _ | with_reducible apply Steady.ite
    | (with_reducible apply Steady.after (State.upO_steady _ _ _))
    | (with_reducible apply Steady.after (State.settle_steady _ _ _))
    | (with_reducible apply Steady.after (State.forget_steady _ _ _))
    | (with_reducible apply Steady.after (placeEnd_steady _ _ _ _ _ _))
    | (with_reducible apply Steady.after (State.abandon_steady _ _ _ _ _ _))
    | (with_reducible apply Steady.after (State.stored_steady _ _ _))
    | (refine Steady.sndOf ‹_› (State.placeFlash_steady _ _ _ _ _ _ _ _).1 ?_)
    | (refine Steady.fstOf ‹_› (fun z hz => (State.placeFlash_steady _ _ _ _ _ _ _ _).2 z hz) ?_) | split)

/-! ### Txn.lean -/

theorem State.takeMarker_steady (s : State) (h op : Nat) (eff : State → Order → State) (h_eff : ∀ x0 x1, Steady x0
    (eff x0 x1)) : Steady s (State.takeMarker s h op eff) := by
  unfold State.takeMarker
  split
  · exact Steady.refl _
  · next he =>
    exact Steady.after (State.dispatchAll_steady _ _) ((State.frontMarker_steady _ _ _ he).trans (h_eff _ _))

theorem closeWork_steady (h : Nat) (commit : Bool) (s : State) (o : Order) : Steady s (closeWork h commit s o) := by
  unfold closeWork
  try dsimp only
  repeat' (first
    | with_reducible exact Steady.refl _ | (with_reducible apply Steady.after (State.upQ_steady _ _ _))
    | (with_reducible apply Steady.after (State.endTaken_steady _ _ _ _ _ _))
    | (with_reducible apply Steady.after (State.checks_steady _ _ _)) | split)

/-! ### Move.lean -/

theorem swapInStep_steady (h c : Nat) (e : Env) (s : State) (f : Flight) : Steady s (swapInStep h c e s f) := by
  unfold swapInStep
  try dsimp only
  repeat' (first
    | with_reducible exact Steady.refl _ | with_reducible apply Steady.ite
    | (with_reducible apply Steady.after (State.close_steady _ _ _ _))
    | (with_reducible apply Steady.after (State.upO_steady _ _ _))
    | (with_reducible apply Steady.after (State.forget_steady _ _ _))
    | (with_reducible apply Steady.after (State.swapInFail_steady _ _ _ _))
    | (with_reducible apply Steady.after (State.stored_steady _ _ _)) | split)

/-! ### StepOrders.lean -/

theorem State.renewFetches_steady (s : State) (h : Nat) (f : Flight) : Steady s (State.renewFetches s h f).1 := by
  unfold State.renewFetches
  try dsimp only
  repeat' (first
    | with_reducible exact Steady.refl _ | (with_reducible apply Steady.after (State.fetch_steady _ _ _ _ _ _))
    | (with_reducible apply Steady.after (State.endFetch_steady _ _ _ _))
    | (with_reducible apply Steady.after (State.markFetch_steady _ _ _ _))
    | (with_reducible apply Steady.after (Steady.foldlPair _ (fun _ _ => ?_) _ _)) | split)

/-! ### Load.lean -/

theorem loadSetStep_steady (h c : Nat) (e : Env) (s : State) (f : Flight) : Steady s (loadSetStep h c e s f) := by
  unfold loadSetStep
  try dsimp only
  repeat' (first
    | with_reducible exact Steady.refl _ | with_reducible apply Steady.ite
    | (with_reducible apply Steady.after (State.close_steady _ _ _ _))
    | (with_reducible apply Steady.after (State.forget_steady _ _ _))
    | (with_reducible apply Steady.after (State.upO_steady _ _ _))
    | (with_reducible apply Steady.after (State.abandon_steady _ _ _ _ _ _))
    | (with_reducible apply Steady.after (State.stored_steady _ _ _)) | split)

/-! ### Replays.lean -/

theorem State.resolve_steady (s : State) (u : Replay) (failed : Bool) : Steady s (State.resolve s u failed) := by
  unfold State.resolve
  try dsimp only
  repeat' (first
    | with_reducible exact Steady.refl _ | with_reducible apply Steady.ite
    | (with_reducible apply Steady.after (State.revoke_steady _ _ _))
    | (with_reducible apply Steady.after (State.settle_steady _ _ _))
    | (with_reducible apply Steady.after (State.release_steady _ _ _ _ _)) | split)

/-! ### Move.lean -/

theorem placeRods_steady (h c : Nat) (e : Env) (s : State) (o : Order) (f : Flight) : Steady s (placeRods h c e s o f)
    := by
  unfold placeRods
  try dsimp only
  repeat' (first
    | with_reducible exact Steady.refl _ | with_reducible apply Steady.ite
    | (with_reducible apply Steady.after (placeStep_steady _ _ _ _ _))
    | (with_reducible apply Steady.after (State.queueBlocks_steady _ _ _ _))
    | (with_reducible apply Steady.after (State.readExtent_steady _ _ _))
    | (with_reducible apply Steady.after (State.upO_steady _ _ _))
    | (with_reducible apply Steady.after (State.keep_steady _ _ _))
    | (with_reducible apply Steady.after (Steady.foldlPair _ (fun _ _ => ?_) _ _)) | split)

/-! ### Meta.lean -/

theorem State.failTokens_steady (s : State) (h : Nat) : Steady s (State.failTokens s h) := by
  unfold State.failTokens
  try dsimp only
  repeat' (first
    | with_reducible exact Steady.refl _ | (with_reducible apply Steady.after (State.endTaken_steady _ _ _ _ _ _))
    | ((with_reducible refine Steady.after (State.upHide_steady ?_) ?_); intros; rfl)
    | (with_reducible apply Steady.after (Steady.foldl _ (fun _ _ => ?_) _ _)))

/-! ### Load.lean -/

theorem loadBookStep_steady (h c : Nat) (e : Env) (s : State) (f : Flight) : Steady s (loadBookStep h c e s f) := by
  unfold loadBookStep
  try dsimp only
  repeat' (first
    | with_reducible exact Steady.refl _ | with_reducible apply Steady.ite
    | (with_reducible apply Steady.after (State.close_steady _ _ _ _))
    | (with_reducible apply Steady.after (State.forget_steady _ _ _))
    | (with_reducible apply Steady.after (State.upO_steady _ _ _))
    | (with_reducible apply Steady.after (State.abandon_steady _ _ _ _ _ _))
    | (with_reducible apply Steady.after (State.stored_steady _ _ _)) | split)

/-! ### StepOrders.lean -/

theorem deferReentry_steady (h c : Nat) (e : Env) (s : State) : Steady s (deferReentry h c e s) := by
  unfold deferReentry
  try dsimp only
  repeat' (first
    | with_reducible exact Steady.refl _ | with_reducible apply Steady.ite
    | (with_reducible apply Steady.after (stepRun_steady _ _ _ _ _))
    | (with_reducible apply Steady.after (State.putFlight_steady _ _ _))
    | (with_reducible apply Steady.after (State.renewFetches_steady _ _ _))
    | (with_reducible apply Steady.after (State.upQ_steady _ _ _))
    | (with_reducible apply Steady.after (State.dropFetches_steady _ _ _))
    | (with_reducible apply Steady.after (State.settle_steady _ _ _)) | split)

/-! ### Move.lean -/

theorem placeObjEnd_steady (h : Nat) (s : State) (f : Flight) (fx : List Fx) (e : Env) : Steady s (placeObjEnd h s f
    fx e) := by
  unfold placeObjEnd
  try dsimp only
  repeat' (first
    | with_reducible exact Steady.refl _ | (with_reducible apply Steady.after (State.close_steady _ _ _ _))
    | (with_reducible apply Steady.after (State.upO_steady _ _ _))
    | (with_reducible apply Steady.after (State.forget_steady _ _ _)))

/-! ### StateScore.lean -/

theorem scoreTable_steady (h : Nat) (e : Env) (s : State) (o : Order) (f : Flight) : Steady s (scoreTable h e s o f)
    := by
  unfold scoreTable
  try dsimp only
  repeat' (first
    | with_reducible exact Steady.refl _ | with_reducible apply Steady.ite
    | (with_reducible apply Steady.after (State.closeOut_steady _ _ _ _ _))
    | (with_reducible apply Steady.after (State.dmaWrite_steady _ _ _ _ _))
    | (with_reducible apply Steady.after (State.keep_steady _ _ _))
    | (with_reducible apply Steady.after (Steady.foldl _ (fun _ _ => ?_) _ _)) | split)

/-! ### Replays.lean -/

theorem State.health_steady (s : State) (u : Replay) (out : Nat) (o : Option Order) : Steady s (State.health s u out
    o) := by
  unfold State.health
  try dsimp only
  repeat' (first
    | with_reducible exact Steady.refl _ | (with_reducible apply Steady.after (State.postEvent_steady _ _ _))
    | (with_reducible apply Steady.keptBy (State.record_kept _ _ _ _ _) (by decide)) | split)

theorem State.outcome_steady (s : State) (u : Replay) (out : Nat) : Steady s (State.outcome s u out) := by
  unfold State.outcome
  try dsimp only
  repeat' (first
    | with_reducible exact Steady.refl _ | with_reducible apply Steady.ite
    | (with_reducible apply Steady.after (State.resolve_steady _ _ _))
    | (with_reducible apply Steady.keptBy (State.unitOutcome_kept _ _ _ _) (by decide))
    | (with_reducible apply Steady.after (State.health_steady _ _ _ _))
    | (with_reducible apply Steady.after (State.upC_steady _ _ _))
    | (with_reducible apply Steady.keptBy (State.dropUnit_kept _ _) (by decide)) | split | (with_reducible apply Steady.upd))

theorem replayStart_steady (r : Nat) (s : State) : Steady s (replayStart r s) := by
  unfold replayStart
  try dsimp only
  repeat' (first
    | with_reducible exact Steady.refl _ | with_reducible apply Steady.ite
    | (with_reducible apply Steady.keptBy (State.upUnit_kept _ _ _) (by decide))
    | (with_reducible apply Steady.after (State.outcome_steady _ _ _)) | split)

/-! ### Meta.lean -/

theorem lookupEnd_steady (h : Nat) (s : State) (f : Flight) (w : LookupWork) (e : Env) : Steady s (lookupEnd h s f w
    e) := by
  unfold lookupEnd
  try dsimp only
  repeat' (first
    | with_reducible exact Steady.refl _ | with_reducible apply Steady.ite
    | (with_reducible apply Steady.after (State.settle_steady _ _ _))
    | (with_reducible apply Steady.after (State.close_steady _ _ _ _)) | split)

theorem lookupContinue_steady (h c : Nat) (e : Env) (s : State) : Steady s (lookupContinue h c e s) := by
  unfold lookupContinue
  try dsimp only
  repeat' (first
    | with_reducible exact Steady.refl _ | with_reducible apply Steady.ite
    | (with_reducible apply Steady.after (State.upO_steady _ _ _))
    | (with_reducible apply Steady.after (lookupEnd_steady _ _ _ _ _))
    | (with_reducible apply Steady.after (State.upQ_steady _ _ _))
    | (with_reducible apply Steady.after (State.stored_steady _ _ _)) | split)

/-! ### Load.lean -/

theorem loadBookWork_steady (h : Nat) (e : Env) (s : State) (o : Order) (f : Flight) : Steady s (loadBookWork h e s o
    f) := by
  unfold loadBookWork
  try dsimp only
  repeat' (first
    | with_reducible exact Steady.refl _ | with_reducible apply Steady.ite
    | (with_reducible apply Steady.after (State.dmaRead_steady _ _ _ _ _))
    | (with_reducible apply Steady.after (State.upO_steady _ _ _))
    | (with_reducible apply Steady.after (State.keep_steady _ _ _))
    | (with_reducible apply Steady.after (State.stored_steady _ _ _)) | split)

theorem codebookSlotReload_steady (h k c : Nat) (ok : Bool) (s : State) : Steady s (codebookSlotReload h k c ok s) :=
    by
  unfold codebookSlotReload
  try dsimp only
  repeat' (first
    | with_reducible exact Steady.refl _ | (with_reducible apply Steady.after (State.upO_steady _ _ _)) | split)

/-! ### StateScore.lean -/

theorem evictScoreWork_steady (h : Nat) (e : Env) (s : State) (o : Order) (f : Flight) : Steady s (evictScoreWork h e
    s o f) := by
  unfold evictScoreWork
  try dsimp only
  repeat' (first
    | with_reducible exact Steady.refl _ | with_reducible apply Steady.ite
    | (with_reducible apply Steady.after (State.closeOut_steady _ _ _ _ _))
    | (with_reducible apply Steady.after (State.keep_steady _ _ _))
    | (with_reducible apply Steady.after (State.stored_steady _ _ _)) | split)

/-! ### Replays.lean -/

theorem replayResult_steady (id : Nat) (out : ReplayOut) (s : State) : Steady s (replayResult id out s) := by
  unfold replayResult
  try dsimp only
  repeat' (first
    | with_reducible exact Steady.refl _ | with_reducible apply Steady.ite
    | (with_reducible apply Steady.keptBy (State.upUnit_kept _ _ _) (by decide))
    | (with_reducible apply Steady.after (State.outcome_steady _ _ _)) | split | (with_reducible apply Steady.upd))

/-! ### Move.lean -/

theorem placeObjStep_steady (h c : Nat) (e : Env) (s : State) (f : Flight) : Steady s (placeObjStep h c e s f) := by
  unfold placeObjStep
  try dsimp only
  repeat' (first
    | with_reducible exact Steady.refl _ | with_reducible apply Steady.ite
    | (with_reducible apply Steady.after (placeObjEnd_steady _ _ _ _ _))
    | (with_reducible apply Steady.after (State.abandon_steady _ _ _ _ _ _))
    | (with_reducible apply Steady.after (State.stored_steady _ _ _)) | split)

/-! ### StateScore.lean -/

theorem scoreSummaries_steady (h : Nat) (e : Env) (s : State) (o : Order) (f : Flight) : Steady s (scoreSummaries h e
    s o f) := by
  unfold scoreSummaries
  try dsimp only
  repeat' (first
    | with_reducible exact Steady.refl _ | with_reducible apply Steady.ite
    | (with_reducible apply Steady.after (State.closeOut_steady _ _ _ _ _))
    | (with_reducible apply Steady.after (State.dmaWrite_steady _ _ _ _ _))
    | (with_reducible apply Steady.after (State.keep_steady _ _ _))
    | (with_reducible apply Steady.after (Steady.foldl _ (fun _ _ => ?_) _ _)) | split)

theorem scoreWork_steady (h : Nat) (e : Env) (s : State) (o : Order) (f : Flight) : Steady s (scoreWork h e s o f) :=
    by
  unfold scoreWork
  try dsimp only
  repeat' (first
    | with_reducible exact Steady.refl _ | with_reducible apply Steady.ite
    | (with_reducible apply Steady.after (scoreSummaries_steady _ _ _ _ _))
    | (with_reducible apply Steady.after (scoreTable_steady _ _ _ _ _))
    | (with_reducible apply Steady.after (State.stored_steady _ _ _)))

/-! ### Load.lean -/

theorem retireSetWork_steady (h : Nat) (e : Env) (s : State) (o : Order) (f : Flight) : Steady s (retireSetWork h e s
    o f) := by
  unfold retireSetWork
  try dsimp only
  repeat' (first
    | with_reducible exact Steady.refl _ | with_reducible apply Steady.ite
    | (with_reducible apply Steady.after (State.close_steady _ _ _ _))
    | (with_reducible apply Steady.after (State.keep_steady _ _ _))
    | (with_reducible apply Steady.after (State.stored_steady _ _ _)) | split)

/-! ### StepOrders.lean -/

theorem State.endAppend_steady (s : State) (h seq status : Nat) : Steady s (State.endAppend s h seq status) := by
  unfold State.endAppend
  try dsimp only
  repeat' (first
    | with_reducible exact Steady.refl _ | (with_reducible apply Steady.after (State.dropFetches_steady _ _ _))
    | (with_reducible apply Steady.after (State.endTaken_steady _ _ _ _ _ _))
    | (with_reducible apply Steady.after (State.upQ_steady _ _ _)) | split)

theorem fetchArrival_steady (h id : Nat) (s : State) : Steady s (fetchArrival h id s) := by
  unfold fetchArrival
  try dsimp only
  repeat' (first
    | with_reducible exact Steady.refl _ | with_reducible apply Steady.ite
    | (with_reducible apply Steady.after (State.markFetch_steady _ _ _ _))
    | (with_reducible apply Steady.after (State.missFetch_steady _ _ _ _))
    | (with_reducible apply Steady.after (State.endAppend_steady _ _ _ _))
    | (with_reducible apply Steady.keptBy (State.upPort_kept _ _ _) (by decide))
    | (with_reducible apply Steady.after (State.countCt_steady _ _ _))
    | (with_reducible apply Steady.after (State.endFetch_steady _ _ _ _)) | split)

/-! ### Meta.lean -/

theorem extendWork_steady (h : Nat) (e : Env) (s : State) (o : Order) (f : Flight) : Steady s (extendWork h e s o f)
    := by
  unfold extendWork
  try dsimp only
  repeat' (first
    | with_reducible exact Steady.refl _ | with_reducible apply Steady.ite
    | (with_reducible apply Steady.after (State.close_steady _ _ _ _))
    | (with_reducible apply Steady.after (State.upO_steady _ _ _))
    | (with_reducible apply Steady.after (State.keep_steady _ _ _))
    | (with_reducible apply Steady.after (State.stored_steady _ _ _)) | split)

/-! ### Move.lean -/

theorem placeGo_steady (h c : Nat) (e : Env) (s : State) (f : Flight) : Steady s (placeGo h c e s f) := by
  unfold placeGo
  try dsimp only
  repeat' (first
    | with_reducible exact Steady.refl _ | with_reducible apply Steady.ite
    | (with_reducible apply Steady.after (placeObjStep_steady _ _ _ _ _))
    | (with_reducible apply Steady.after (placeStep_steady _ _ _ _ _)))

/-! ### Meta.lean -/

theorem promoteWork_steady (h c : Nat) (e : Env) (s : State) (o : Order) (f : Flight) : Steady s (promoteWork h c e s
    o f) := by
  unfold promoteWork
  try dsimp only
  repeat' (first
    | with_reducible exact Steady.refl _ | with_reducible apply Steady.ite
    | (with_reducible apply Steady.after (promoteStep_steady _ _ _ _ _))
    | (with_reducible apply Steady.after (State.beginCopies_steady _ _ _ _))
    | (with_reducible apply Steady.after (State.keep_steady _ _ _))
    | (with_reducible apply Steady.after (State.stored_steady _ _ _)) | split)

theorem lookupWork_steady (h now : Nat) (e : Env) (s : State) (o : Order) (f : Flight) : Steady s (lookupWork h now e
    s o f) := by
  unfold lookupWork
  try dsimp only
  repeat' (first
    | with_reducible exact Steady.refl _ | with_reducible apply Steady.ite
    | (with_reducible apply Steady.after (State.upO_steady _ _ _))
    | (with_reducible apply Steady.after (lookupEnd_steady _ _ _ _ _))
    | (with_reducible apply Steady.after (State.keep_steady _ _ _))
    | (with_reducible apply Steady.after (State.stored_steady _ _ _)) | split)

theorem retireBookWork_steady (h : Nat) (e : Env) (s : State) (o : Order) (f : Flight) : Steady s (retireBookWork h e
    s o f) := by
  unfold retireBookWork
  try dsimp only
  repeat' (first
    | with_reducible exact Steady.refl _ | with_reducible apply Steady.ite
    | (with_reducible apply Steady.after (State.close_steady _ _ _ _))
    | (with_reducible apply Steady.after (State.upO_steady _ _ _))
    | (with_reducible apply Steady.after (State.keep_steady _ _ _))
    | (with_reducible apply Steady.after (State.stored_steady _ _ _)) | split)

theorem createWork_steady (h c : Nat) (e : Env) (s : State) (o : Order) (f : Flight) : Steady s (createWork h c e s o
    f) := by
  unfold createWork
  try dsimp only
  repeat' (first
    | with_reducible exact Steady.refl _ | with_reducible apply Steady.ite
    | (with_reducible apply Steady.after (createStep_steady _ _ _ _ _))
    | (with_reducible apply Steady.after (State.beginCopies_steady _ _ _ _))
    | (with_reducible apply Steady.after (State.keep_steady _ _ _))
    | (with_reducible apply Steady.after (State.stored_steady _ _ _)) | split)

/-! ### Move.lean -/

theorem swapInWork_steady (h : Nat) (e : Env) (s : State) (o : Order) (f : Flight) : Steady s (swapInWork h e s o f)
    := by
  unfold swapInWork
  try dsimp only
  repeat' (first
    | with_reducible exact Steady.refl _ | with_reducible apply Steady.ite
    | (with_reducible apply Steady.after (State.dmaRead_steady _ _ _ _ _))
    | (with_reducible apply Steady.after (State.readExtents_steady _ _ _ _))
    | (with_reducible apply Steady.after (State.upO_steady _ _ _))
    | (with_reducible apply Steady.after (State.keep_steady _ _ _))
    | (with_reducible apply Steady.after (State.stored_steady _ _ _)) | split)

/-! ### Meta.lean -/

theorem hashLaneDone_steady (h : Nat) (s : State) : Steady s (hashLaneDone h s) := by
  unfold hashLaneDone
  try dsimp only
  repeat' (first
    | with_reducible exact Steady.refl _ | with_reducible apply Steady.ite
    | ((with_reducible refine Steady.after (State.setHide_steady ?_) ?_); intros; rfl) | split)

/-! ### Move.lean -/

theorem placeWork_steady (h c : Nat) (e : Env) (s : State) (o : Order) (f : Flight) : Steady s (placeWork h c e s o f)
    := by
  unfold placeWork
  try dsimp only
  repeat' (first
    | with_reducible exact Steady.refl _ | with_reducible apply Steady.ite
    | (with_reducible apply Steady.after (placeObjWork_steady _ _ _ _ _))
    | (with_reducible apply Steady.after (placeRods_steady _ _ _ _ _ _))
    | (with_reducible apply Steady.after (State.keep_steady _ _ _))
    | (with_reducible apply Steady.after (State.stored_steady _ _ _)))

/-! ### Append.lean -/

theorem recodeNow_steady (h c : Nat) (e : Env) (s : State) : Steady s (recodeNow h c e s) := by
  unfold recodeNow
  try dsimp only
  repeat' (first
    | with_reducible exact Steady.refl _ | with_reducible apply Steady.ite
    | (with_reducible apply Steady.after (State.countCt_steady _ _ _))
    | (with_reducible apply Steady.after (State.upQ_steady _ _ _))
    | (with_reducible apply Steady.after (State.upO_steady _ _ _))
    | (with_reducible apply Steady.after (State.stored_steady _ _ _)) | split)

/-! ### Meta.lean -/

theorem withdrawWork_steady (h : Nat) (e : Env) (s : State) (o : Order) (f : Flight) : Steady s (withdrawWork h e s o
    f) := by
  unfold withdrawWork
  try dsimp only
  repeat' (first
    | with_reducible exact Steady.refl _ | with_reducible apply Steady.ite
    | (with_reducible apply Steady.after (State.close_steady _ _ _ _))
    | (with_reducible apply Steady.after (State.keep_steady _ _ _))
    | (with_reducible apply Steady.after (State.stored_steady _ _ _)) | split)

theorem retireWork_steady (h : Nat) (e : Env) (s : State) (o : Order) (f : Flight) : Steady s (retireWork h e s o f)
    := by
  unfold retireWork
  try dsimp only
  repeat' (first
    | with_reducible exact Steady.refl _ | with_reducible apply Steady.ite
    | (with_reducible apply Steady.after (State.close_steady _ _ _ _))
    | (with_reducible apply Steady.after (State.keep_steady _ _ _))
    | (with_reducible apply Steady.after (State.stored_steady _ _ _)) | split)

/-! ### Append.lean -/

theorem appendWork_steady (h : Nat) (e : Env) (s : State) (o : Order) (f : Flight) : Steady s (appendWork h e s o f)
    := by
  unfold appendWork
  try dsimp only
  repeat' (first
    | with_reducible exact Steady.refl _ | with_reducible apply Steady.ite
    | (with_reducible apply Steady.after (State.close_steady _ _ _ _))
    | (with_reducible apply Steady.after (State.upO_steady _ _ _))
    | (with_reducible apply Steady.after (State.keep_steady _ _ _))
    | (with_reducible apply Steady.after (State.dropFetches_steady _ _ _))
    | (with_reducible apply Steady.after (State.stored_steady _ _ _)) | split)

/-! ### StepOrders.lean -/

theorem State.stepRow_steady (s : State) (h c op : Nat) (cls : SlotClass) (fit : HideSt → Order → Fit) (e : Env) :
    Steady s (State.stepRow s h c op cls fit e) := by
  unfold State.stepRow
  try dsimp only
  repeat' (first
    | with_reducible exact Steady.refl _ | (with_reducible apply Steady.after (stepWork_steady _ _ _ _ _ _))
    | (with_reducible apply Steady.after (State.admit_steady _ _ _ _ _ _ _ ?_))
    | (with_reducible apply Steady.after (stepRun_steady _ _ _ _ _)) | split | intro _)

/-! ### StateScore.lean -/

theorem stateWork_steady (h : Nat) (e : Env) (s : State) (o : Order) (f : Flight) : Steady s (stateWork h e s o f) :=
    by
  unfold stateWork
  try dsimp only
  repeat' (first
    | with_reducible exact Steady.refl _ | with_reducible apply Steady.ite
    | (with_reducible apply Steady.after (State.closeOut_steady _ _ _ _ _))
    | (with_reducible apply Steady.after (State.dmaWrite_steady _ _ _ _ _))
    | (with_reducible apply Steady.after (State.keep_steady _ _ _))
    | (with_reducible apply Steady.after (State.stored_steady _ _ _)) | split)

/-! ### Load.lean -/

theorem loadSetWork_steady (h : Nat) (e : Env) (s : State) (o : Order) (f : Flight) : Steady s (loadSetWork h e s o f)
    := by
  unfold loadSetWork
  try dsimp only
  repeat' (first
    | with_reducible exact Steady.refl _ | with_reducible apply Steady.ite
    | (with_reducible apply Steady.after (State.dmaRead_steady _ _ _ _ _))
    | (with_reducible apply Steady.after (State.upO_steady _ _ _))
    | (with_reducible apply Steady.after (State.keep_steady _ _ _))
    | (with_reducible apply Steady.after (State.stored_steady _ _ _)) | split)

/-! ### Txn.lean -/

theorem txnDecision_steady (h id : Nat) (s : State) : Steady s (txnDecision h id s) := by
  unfold txnDecision
  try dsimp only
  repeat' (first
    | with_reducible exact Steady.refl _ | with_reducible apply Steady.ite
    | (with_reducible apply Steady.after (State.abortTxn_steady _ _ _))
    | (with_reducible apply Steady.after (State.upQ_steady _ _ _)) | split)

end Sys2Proof.Machine
end

