-- ==== Sys2Proof/Laws/SteadyAttach.lean ====
section
/-!
SUPPORT. The operations that leave the core of every hide as it was: leases, hide resets, buffers, keys and the hide windows.
-/

namespace Sys2Proof.Machine
open Sys2Proof

/-! ### HideRegs.lean -/

theorem State.ringBase_steady (s : State) (h : Nat) (kind : RingKind) (n v : Nat) : Steady s (State.ringBase s h kind
    n v) := by
  unfold State.ringBase
  try dsimp only
  repeat' (first
    | with_reducible exact Steady.refl _ | with_reducible apply Steady.ite
    | (with_reducible apply Steady.after (State.upQ_steady _ _ _))
    | (with_reducible apply Steady.after (State.ringErr_steady _ _ _ _)) | split)

/-! ### Resets.lean -/

theorem State.discardStaged_steady (s : State) (h : Nat) : Steady s (State.discardStaged s h) := by
  unfold State.discardStaged
  try dsimp only
  repeat' (first
    | with_reducible exact Steady.refl _ | (with_reducible apply Steady.keptBy (State.upLoad_kept _ _ _) (by decide))
    | (with_reducible apply Steady.keptBy (State.config_kept _ _ _ _ _ _) (by decide))
    | ((with_reducible refine Steady.after (State.upHide_steady ?_) ?_); intros; rfl) | split)

theorem State.unhold_steady (s : State) (h : Nat) (f : Flight) : Steady s (State.unhold s h f) := by
  unfold State.unhold
  try dsimp only
  repeat' (first
    | with_reducible exact Steady.refl _ | (with_reducible apply Steady.after (State.upQ_steady _ _ _)))

theorem State.cutFlight_steady (s : State) (h status : Nat) (f : Flight) : Steady s (State.cutFlight s h status f) :=
    by
  unfold State.cutFlight
  try dsimp only
  repeat' (first
    | with_reducible exact Steady.refl _ | with_reducible apply Steady.ite
    | (with_reducible apply Steady.after (State.complete_steady _ _ _))
    | (with_reducible apply Steady.after (State.trace_steady _ _ _))
    | (with_reducible apply Steady.after (State.keep_steady _ _ _))
    | (with_reducible apply Steady.after (State.dropFlight_steady _ _ _))
    | (with_reducible apply Steady.after (State.upO_steady _ _ _))
    | (with_reducible apply Steady.after (State.forget_steady _ _ _))
    | (with_reducible apply Steady.after (State.dropFetches_steady _ _ _))
    | (with_reducible apply Steady.after (State.revoke_steady _ _ _))
    | (with_reducible apply Steady.after (State.release_steady _ _ _ _ _)) | (with_reducible apply Steady.upd))

theorem State.endFlights_steady (s : State) (h status : Nat) : Steady s (State.endFlights s h status) := by
  unfold State.endFlights
  try dsimp only
  repeat' (first
    | with_reducible exact Steady.refl _ | (with_reducible apply Steady.after (State.unhold_steady _ _ _))
    | (with_reducible apply Steady.after (State.cutFlight_steady _ _ _ _))
    | (with_reducible apply Steady.after (Steady.foldl _ (fun _ _ => ?_) _ _)))

theorem State.endQueued_steady (s : State) (h status : Nat) : Steady s (State.endQueued s h status) := by
  unfold State.endQueued
  try dsimp only
  repeat' (first
    | with_reducible exact Steady.refl _ | (with_reducible apply Steady.after (State.dropFetches_steady _ _ _))
    | (with_reducible apply Steady.after (State.endTaken_steady _ _ _ _ _ _))
    | ((with_reducible refine Steady.after (State.upHide_steady ?_) ?_); intros; rfl)
    | (with_reducible apply Steady.after (Steady.foldl _ (fun _ _ => ?_) _ _)))

theorem State.endTxns_steady (s : State) (h status : Nat) : Steady s (State.endTxns s h status) := by
  unfold State.endTxns
  try dsimp only
  repeat' (first
    | with_reducible exact Steady.refl _ | (with_reducible apply Steady.after (State.complete_steady _ _ _))
    | (with_reducible apply Steady.after (State.upQ_steady _ _ _))
    | (with_reducible apply Steady.after (State.abortTxn_steady _ _ _))
    | (with_reducible apply Steady.after (Steady.foldl _ (fun _ _ => ?_) _ _)))

theorem State.endAll_steady (s : State) (h status : Nat) : Steady s (State.endAll s h status) := by
  unfold State.endAll
  try dsimp only
  repeat' (first
    | with_reducible exact Steady.refl _ | (with_reducible apply Steady.after (State.endFlights_steady _ _ _))
    | (with_reducible apply Steady.after (State.endQueued_steady _ _ _))
    | (with_reducible apply Steady.after (State.endTxns_steady _ _ _)))

/-! ### Acres.lean -/

theorem State.sendSnoop_steady (s : State) (h off : Nat) (inv : Bool) (why : SnoopFor) : Steady s (State.sendSnoop s h
    off inv why) := by
  unfold State.sendSnoop
  try dsimp only
  repeat' (first
    | with_reducible exact Steady.refl _ | (with_reducible apply Steady.after (State.upA_steady _ _ _))
    | (with_reducible apply Steady.keptBy (State.enqueue_kept _ _ _ _ _) (by decide)))

theorem State.endHold_steady (s : State) (h n : Nat) : Steady s (State.endHold s h n) := by
  unfold State.endHold
  try dsimp only
  repeat' (first
    | with_reducible exact Steady.refl _ | (with_reducible apply Steady.after (State.sendSnoop_steady _ _ _ _ _))
    | (with_reducible apply Steady.after (State.upA_steady _ _ _))
    | (with_reducible apply Steady.keptBy (State.upAcre_kept _ _ _) (by decide))
    | (with_reducible apply Steady.after (Steady.foldl _ (fun _ _ => ?_) _ _)))

theorem State.recall_steady (s : State) (h n : Nat) (exclOnly : Bool) : Steady s (State.recall s h n exclOnly) := by
  unfold State.recall
  try dsimp only
  repeat' (first
    | with_reducible exact Steady.refl _ | (with_reducible apply Steady.after (State.sendSnoop_steady _ _ _ _ _))
    | (with_reducible apply Steady.after (Steady.foldl _ (fun _ _ => ?_) _ _)))

theorem State.upSlot_steady (s : State) (h n : Nat) (f : LeaseSlot → LeaseSlot) : Steady s (State.upSlot s h n f) :=
    by
  unfold State.upSlot
  try dsimp only
  repeat' (first
    | with_reducible exact Steady.refl _ | (with_reducible apply Steady.after (State.upA_steady _ _ _)))

theorem State.closeSlot_steady (s : State) (h n status : Nat) (o : Origin) (wait : Bool) : Steady s (State.closeSlot s
    h n status o wait) := by
  unfold State.closeSlot
  try dsimp only
  repeat' (first
    | with_reducible exact Steady.refl _ | with_reducible apply Steady.ite
    | (with_reducible apply Steady.after (State.endHold_steady _ _ _))
    | (with_reducible apply Steady.after (State.recall_steady _ _ _ _))
    | (with_reducible apply Steady.keptBy (State.leaseRecord_kept _ _ _ _) (by decide))
    | (with_reducible apply Steady.after (State.upSlot_steady _ _ _ _)))

/-! ### Power.lean -/

theorem State.closeAllLeases_steady (s : State) (l : List Nat) (o : Origin) : Steady s (State.closeAllLeases s l o) :=
    by
  unfold State.closeAllLeases
  try dsimp only
  repeat' (first
    | with_reducible exact Steady.refl _ | (with_reducible apply Steady.after (State.closeSlot_steady _ _ _ _ _ _))
    | (with_reducible apply Steady.after (forAll_steady _ _ _ ?_)) | intro _)

/-! ### Resets.lean -/

theorem State.upBuf_steady (s : State) (h b : Nat) (f : HostBuf → HostBuf) : Steady s (State.upBuf s h b f) := by
  unfold State.upBuf
  try dsimp only
  repeat' (first
    | with_reducible exact Steady.refl _ | (with_reducible apply Steady.after (State.upA_steady _ _ _)))

theorem State.bufErr_steady (s : State) (h : Nat) : Steady s (State.bufErr s h) := by
  unfold State.bufErr
  try dsimp only
  repeat' (first
    | with_reducible exact Steady.refl _ | (with_reducible apply Steady.after (State.upA_steady _ _ _)))

theorem State.bufCtl_steady (s : State) (h b : Nat) (ctl : U32) : Steady s (State.bufCtl s h b ctl) := by
  unfold State.bufCtl
  try dsimp only
  repeat' (first
    | with_reducible exact Steady.refl _ | with_reducible apply Steady.ite
    | (with_reducible apply Steady.after (State.upBuf_steady _ _ _ _))
    | (with_reducible apply Steady.after (State.bufErr_steady _ _)))

/-! ### HideRegs.lean -/

theorem State.bufField_steady (s : State) (h b : Nat) (f : HostBuf → HostBuf) : Steady s (State.bufField s h b f) :=
    by
  unfold State.bufField
  try dsimp only
  repeat' (first
    | with_reducible exact Steady.refl _ | with_reducible apply Steady.ite
    | (with_reducible apply Steady.after (State.upBuf_steady _ _ _ _))
    | (with_reducible apply Steady.after (State.bufErr_steady _ _)))

/-! ### Acres.lean -/

theorem acRenew_steady (h : Nat) (mask : U64) (s : State) : Steady s (acRenew h mask s) := by
  unfold acRenew
  try dsimp only
  repeat' (first
    | with_reducible exact Steady.refl _ | with_reducible apply Steady.ite
    | (with_reducible apply Steady.after (State.upA_steady _ _ _)))

theorem State.closeHold_steady (s : State) (h n status : Nat) (o : Origin) (wait : Bool) : Steady s (State.closeHold s
    h n status o wait) := by
  unfold State.closeHold
  try dsimp only
  repeat' (first
    | with_reducible exact Steady.refl _ | (with_reducible apply Steady.after (State.closeSlot_steady _ _ _ _ _ _))
    | (with_reducible apply Steady.after (Steady.foldl _ (fun _ _ => ?_) _ _)))

theorem State.leaseResult_steady (s : State) (h status : Nat) : Steady s (State.leaseResult s h status) := by
  unfold State.leaseResult
  try dsimp only
  repeat' (first
    | with_reducible exact Steady.refl _ | (with_reducible apply Steady.after (State.upA_steady _ _ _)))

theorem State.leaseEffect_steady (s : State) (h : Nat) (v : U64) : Steady s (State.leaseEffect s h v) := by
  unfold State.leaseEffect
  try dsimp only
  repeat' (first
    | with_reducible exact Steady.refl _ | (with_reducible apply Steady.after (State.closeSlot_steady _ _ _ _ _ _))
    | (with_reducible apply Steady.after (State.recall_steady _ _ _ _))
    | (with_reducible apply Steady.after (State.closeHold_steady _ _ _ _ _ _))
    | (with_reducible apply Steady.after (State.upA_steady _ _ _))
    | (with_reducible apply Steady.after (State.leaseResult_steady _ _ _))
    | (with_reducible apply Steady.keptBy (State.upAcre_kept _ _ _) (by decide))
    | ((with_reducible refine Steady.after (State.upK_steady ?_) ?_); intros; rfl)
    | (with_reducible apply Steady.keptBy (State.leaseRecord_kept _ _ _ _) (by decide))
    | (with_reducible apply Steady.after (State.upSlot_steady _ _ _ _))
    | (with_reducible apply Steady.after (Steady.foldl _ (fun _ _ => ?_) _ _)) | split)

theorem State.leaseCommand_steady (s : State) (h : Nat) (v : U64) : Steady s (State.leaseCommand s h v) := by
  unfold State.leaseCommand
  try dsimp only
  repeat' (first
    | with_reducible exact Steady.refl _ | with_reducible apply Steady.ite
    | (with_reducible apply Steady.after (State.leaseEffect_steady _ _ _))
    | (with_reducible apply Steady.after (State.leaseResult_steady _ _ _))
    | (with_reducible apply Steady.after (State.upA_steady _ _ _)) | split)

/-! ### HideRegs.lean -/

theorem State.ringCtl_steady (s : State) (h : Nat) (kind : RingKind) (n v : Nat) : Steady s (State.ringCtl s h kind n
    v) := by
  unfold State.ringCtl
  try dsimp only
  repeat' (first
    | with_reducible exact Steady.refl _ | with_reducible apply Steady.ite
    | (with_reducible apply Steady.after (ringDisable_steady _ _ _ _ _))
    | (with_reducible apply Steady.after (ringEnable_steady _ _ _ _ _)))

/-! ### Resets.lean -/

theorem State.trimRange_steady (s : State) (h p lba n : Nat) : Steady s (State.trimRange s h p lba n) := by
  unfold State.trimRange
  try dsimp only
  repeat' (first
    | with_reducible exact Steady.refl _ | with_reducible apply Steady.ite
    | (with_reducible apply Steady.keptBy (State.upPort_kept _ _ _) (by decide))
    | (with_reducible apply Steady.after (State.upO_steady _ _ _)))

theorem State.purge_steady (s : State) (h : Nat) : Steady s (State.purge s h) := by
  unfold State.purge
  try dsimp only
  repeat' (first
    | with_reducible exact Steady.refl _ | (with_reducible apply Steady.after (State.trimRange_steady _ _ _ _ _))
    | (with_reducible apply Steady.keptBy (State.nextFirst_kept _ _) (by decide))
    | (with_reducible apply Steady.keptBy (State.upPort_kept _ _ _) (by decide))
    | (with_reducible apply Steady.after (forAll_steady _ _ _ ?_)) | intro _)

/-! ### Furlong.lean -/

theorem State.putVariant_steady (s : State) (kind index : Nat) : Steady s (State.putVariant s kind index) := by
  unfold State.putVariant
  dsimp only
  refine Steady.keptBy (State.record_kept _ _ _ _ _) (by decide) ?_
  refine Steady.after (forAll_steady _ _ _ (fun _ _ => State.postEvent_steady _ _ _)) ?_
  refine Steady.after (forAll_steady _ _ _ (fun _ _ => State.upHide_steady (fun x => HideSt.applyVariants_core x _))) ?_
  exact Steady.upd (Steady.refl _)

theorem State.loseAcres_steady (s : State) (r : Nat) : Steady s (State.loseAcres s r) := by
  unfold State.loseAcres
  try dsimp only
  repeat' (first
    | with_reducible exact Steady.refl _ | (with_reducible apply Steady.after (State.closeSlot_steady _ _ _ _ _ _))
    | (with_reducible apply Steady.keptBy (State.upAcre_kept _ _ _) (by decide))
    | (with_reducible apply Steady.after (forAll_steady _ _ _ ?_)) | intro _)

theorem State.switchRegion_steady (s : State) (r : Nat) : Steady s (State.switchRegion s r) := by
  unfold State.switchRegion
  try dsimp only
  repeat' (first
    | with_reducible exact Steady.refl _ | with_reducible apply Steady.ite
    | (with_reducible apply Steady.after (State.endFlights_steady _ _ _))
    | (with_reducible apply Steady.after (forAll_steady _ _ _ ?_))
    | (with_reducible apply Steady.after (State.deviceEvent_steady _))
    | (with_reducible apply Steady.after (State.putVariant_steady _ _ _))
    | (with_reducible apply Steady.after (State.loseAcres_steady _ _))
    | (with_reducible apply Steady.keptBy (State.upRegion_kept _ _ _) (by decide)) | (with_reducible apply Steady.upd)
    | intro _)

theorem State.switchCluster_steady (s : State) (c : Nat) : Steady s (State.switchCluster s c) := by
  unfold State.switchCluster
  try dsimp only
  repeat' (first
    | with_reducible exact Steady.refl _ | with_reducible apply Steady.ite
    | (with_reducible apply Steady.after (State.switchRegion_steady _ _))
    | (with_reducible apply Steady.keptBy (State.upCluster_kept _ _ _) (by decide))
    | (with_reducible apply Steady.after (State.putVariant_steady _ _ _))
    | (with_reducible apply Steady.keptBy (State.upRegion_kept _ _ _) (by decide)))

theorem State.remapCluster_steady (s : State) (c : Nat) : Steady s (State.remapCluster s c) := by
  unfold State.remapCluster
  try dsimp only
  repeat' (first
    | with_reducible exact Steady.refl _ | (with_reducible apply Steady.after (State.switchCluster_steady _ _))
    | (with_reducible apply Steady.keptBy (State.record_kept _ _ _ _ _) (by decide))
    | (with_reducible apply Steady.after (forAll_steady _ _ _ ?_))
    | (with_reducible apply Steady.keptBy (State.upCluster_kept _ _ _) (by decide)) | split | intro _)

/-! ### HideRegs.lean -/

theorem State.upCt_steady (s : State) (h : Nat) (f : Ct → Ct) : Steady s (State.upCt s h f) := by
  unfold State.upCt
  try dsimp only
  repeat' (first
    | with_reducible exact Steady.refl _ | with_reducible apply Steady.ite
    | (with_reducible apply Steady.after (State.upC_steady _ _ _)))

/-! ### Mem.lean -/

theorem State.storeLine_steady (s : State) (h off : Nat) (data : List Byte) (poison : Bool) (cycle : Nat) : Steady s
    (State.storeLine s h off data poison cycle) := by
  unfold State.storeLine
  try dsimp only
  repeat' (first
    | with_reducible exact Steady.refl _ | with_reducible apply Steady.ite
    | (with_reducible apply Steady.after (State.upQ_steady _ _ _))
    | (with_reducible apply Steady.after (State.upA_steady _ _ _))
    | (with_reducible apply Steady.keptBy (State.writeMem_kept _ _ _ _) (by decide)))

theorem State.untrack_steady (s : State) (h off : Nat) : Steady s (State.untrack s h off) := by
  unfold State.untrack
  try dsimp only
  repeat' (first
    | with_reducible exact Steady.refl _ | (with_reducible apply Steady.after (State.upA_steady _ _ _)))

theorem State.answered_steady (s : State) (h : Nat) (p : Snoop) : Steady s (State.answered s h p) := by
  unfold State.answered
  try dsimp only
  repeat' (first
    | with_reducible exact Steady.refl _ | with_reducible apply Steady.ite
    | (with_reducible apply Steady.after (State.upA_steady _ _ _))
    | (with_reducible apply Steady.after (State.untrack_steady _ _ _)) | split)

theorem State.dropSnoop_steady (s : State) (h : Nat) (p : Snoop) : Steady s (State.dropSnoop s h p) := by
  unfold State.dropSnoop
  try dsimp only
  repeat' (first
    | with_reducible exact Steady.refl _ | (with_reducible apply Steady.after (State.upA_steady _ _ _)))

theorem snoopResponse_steady (h off : Nat) (data : Option (List Byte)) (s : State) : Steady s (snoopResponse h off
    data s) := by
  unfold snoopResponse
  try dsimp only
  repeat' (first
    | with_reducible exact Steady.refl _ | with_reducible apply Steady.ite
    | (with_reducible apply Steady.after (State.storeLine_steady _ _ _ _ _ _))
    | (with_reducible apply Steady.after (State.answered_steady _ _ _))
    | (with_reducible apply Steady.keptBy (State.writeAcre_kept _ _ _ _) (by decide))
    | (with_reducible apply Steady.after (State.upA_steady _ _ _))
    | (with_reducible apply Steady.after (State.dropSnoop_steady _ _ _)) | split)

/-! ### Furlong.lean -/

theorem drainLimit_steady (s : State) : Steady s (drainLimit s) := by
  unfold drainLimit
  try dsimp only
  repeat' (first
    | with_reducible exact Steady.refl _ | with_reducible apply Steady.ite
    | (with_reducible apply Steady.after (State.endFlights_steady _ _ _))
    | (with_reducible apply Steady.after (forAll_steady _ _ _ ?_)) | split | intro _)

/-! ### Power.lean -/

theorem State.tick_steady (s : State) : Steady s (State.tick s) := by
  exact Steady.mapHides s (fun x => { x with a := { x.a with slots := x.a.slots.map (fun (p : Nat × LeaseSlot) =>
    (p.1, if p.2.live then { p.2 with remain := p.2.remain - 1 } else p.2)) } }) (fun _ => rfl)

theorem vinSample_steady (vin iin : BitVec 16) (s : State) : Steady s (vinSample vin iin s) := by
  unfold vinSample
  try dsimp only
  repeat' (first
    | with_reducible exact Steady.refl _ | with_reducible apply Steady.ite
    | (with_reducible apply Steady.keptBy (State.setAlert_kept _ _ _ _) (by decide))
    | (with_reducible apply Steady.keptBy (State.judge_kept _) (by decide))
    | (with_reducible apply Steady.after (State.tick_steady _)) | split | (with_reducible apply Steady.upd))

/-! ### HideRegs.lean -/

theorem State.hideClear_steady (s : State) (h : Nat) (r : HReg) : Steady s (State.hideClear s h r) := by
  unfold State.hideClear
  try dsimp only
  repeat' (first
    | with_reducible exact Steady.refl _ | (with_reducible apply Steady.after (State.upCt_steady _ _ _))
    | (with_reducible apply Steady.after (State.upC_steady _ _ _))
    | (with_reducible apply Steady.after (State.upA_steady _ _ _))
    | (with_reducible apply Steady.after (State.upQ_steady _ _ _))
    | ((with_reducible refine Steady.after (State.upK_steady ?_) ?_); intros; rfl) | split)

/-! ### Mem.lean -/

theorem State.track_steady (s : State) (h off : Nat) (excl : Bool) : Steady s (State.track s h off excl) := by
  unfold State.track
  try dsimp only
  repeat' (first
    | with_reducible exact Steady.refl _ | with_reducible apply Steady.ite
    | (with_reducible apply Steady.after (State.sendSnoop_steady _ _ _ _ _))
    | (with_reducible apply Steady.after (State.upA_steady _ _ _)) | split)

theorem State.refuse_steady (s : State) (h n kind off : Nat) : Steady s (State.refuse s h n kind off) := by
  unfold State.refuse
  try dsimp only
  repeat' (first
    | with_reducible exact Steady.refl _ | (with_reducible apply Steady.after (State.upSlot_steady _ _ _ _)))

theorem State.lost_steady (s : State) (h : Nat) : Steady s (State.lost s h) := by
  unfold State.lost
  try dsimp only
  repeat' (first
    | with_reducible exact Steady.refl _ | (with_reducible apply Steady.after (State.upA_steady _ _ _)))

theorem State.acreRequest_steady (s : State) (h n line : Nat) (op : AcreOp) (uio : Bool) : Steady s (State.acreRequest
    s h n line op uio) := by
  unfold State.acreRequest
  try dsimp only
  repeat' (first
    | with_reducible exact Steady.refl _ | with_reducible apply Steady.ite
    | (with_reducible apply Steady.after (State.upA_steady _ _ _))
    | (with_reducible apply Steady.after (State.refuse_steady _ _ _ _ _))
    | (with_reducible apply Steady.after (State.lost_steady _ _))
    | (with_reducible apply Steady.keptBy (State.answerRefused_kept _ _ _ _ _ _) (by decide)) | split)

theorem memInv_steady (ld off : Nat) (s : State) : Steady s (memInv ld off s) := by
  unfold memInv
  try dsimp only
  repeat' (first
    | with_reducible exact Steady.refl _ | (with_reducible apply Steady.after (State.track_steady _ _ _ _))
    | (with_reducible apply Steady.after (State.acreRequest_steady _ _ _ _ _ _))
    | (with_reducible apply Steady.after (State.lost_steady _ _))
    | (with_reducible apply Steady.keptBy (State.answerWrite_kept _ _ _ _ _) (by decide)) | split)

/-! ### Power.lean -/

theorem State.loseAon_steady (s : State) : Steady s (State.loseAon s) := by
  unfold State.loseAon
  try dsimp only
  repeat' (first
    | with_reducible exact Steady.refl _ | (with_reducible apply Steady.after (State.closeAllLeases_steady _ _ _))
    | (with_reducible apply Steady.upd))

/-! ### League.lean -/

theorem State.failTrims_steady (s : State) (h p : Nat) : Steady s (State.failTrims s h p) := by
  unfold State.failTrims
  try dsimp only
  repeat' (first
    | with_reducible exact Steady.refl _ | (with_reducible apply Steady.after (State.trimRefused_steady _ _ _ _ _))
    | (with_reducible apply Steady.keptBy (State.upQueue_kept _ _ _ _) (by decide))
    | (with_reducible apply Steady.after (Steady.foldl _ (fun _ _ => ?_) _ _)))

theorem State.stopJobs_steady (s : State) (h j : Nat) : Steady s (State.stopJobs s h j) := by
  unfold State.stopJobs
  try dsimp only
  repeat' (first
    | with_reducible exact Steady.refl _ | (with_reducible apply Steady.after (State.upO_steady _ _ _))
    | (with_reducible apply Steady.keptBy (State.unissue_kept _ _ _) (by decide))
    | (with_reducible apply Steady.after (Steady.foldl _ (fun _ _ => ?_) _ _)) | split)

theorem State.endCmd_steady (s : State) (p : Nat) (c : Cmd) (st : Nat) : Steady s (State.endCmd s p c st) := by
  unfold State.endCmd
  try dsimp only
  repeat' (first
    | with_reducible exact Steady.refl _ | with_reducible apply Steady.ite
    | (with_reducible apply Steady.keptBy (State.nextFirst_kept _ _) (by decide))
    | (with_reducible apply Steady.keptBy (State.record_kept _ _ _ _ _) (by decide))
    | (with_reducible apply Steady.after (State.trimEnds_steady _ _ _ _ _ _))
    | (with_reducible apply Steady.after (State.stopJobs_steady _ _ _))
    | (with_reducible apply Steady.after (State.withhold_steady _ _ _ _ _))
    | (with_reducible apply Steady.after (State.upO_steady _ _ _))
    | (with_reducible apply Steady.keptBy (State.upPort_kept _ _ _) (by decide)) | split)

theorem State.failPort_steady (s : State) (p : Nat) : Steady s (State.failPort s p) := by
  unfold State.failPort
  try dsimp only
  repeat' (first
    | with_reducible exact Steady.refl _ | with_reducible apply Steady.ite
    | (with_reducible apply Steady.after (State.failTrims_steady _ _ _))
    | (with_reducible apply Steady.after (State.upO_steady _ _ _))
    | (with_reducible apply Steady.keptBy (State.unissue_kept _ _ _) (by decide))
    | (with_reducible apply Steady.after (forAll_steady _ _ _ ?_))
    | (with_reducible apply Steady.after (State.endCmd_steady _ _ _ _))
    | (with_reducible apply Steady.after (Steady.foldl _ (fun _ _ => ?_) _ _)) | intro _)

theorem State.portOut_steady (s : State) (p : Nat) (st : PortState) : Steady s (State.portOut s p st) := by
  unfold State.portOut
  try dsimp only
  repeat' (first
    | with_reducible exact Steady.refl _ | (with_reducible apply Steady.after (State.failPort_steady _ _))
    | (with_reducible apply Steady.keptBy (State.leagueRecord_kept _ _ _) (by decide))
    | (with_reducible apply Steady.keptBy (State.upPort_kept _ _ _) (by decide)))

theorem State.portDown_steady (s : State) (p : Nat) : Steady s (State.portDown s p) := by
  unfold State.portDown
  try dsimp only
  repeat' (first
    | with_reducible exact Steady.refl _ | with_reducible apply Steady.ite
    | (with_reducible apply Steady.after (State.portOut_steady _ _ _)))

/-! ### Furlong.lean -/

theorem State.recheck_steady (s : State) (h : Nat) : Steady s (State.recheck s h) := by
  unfold State.recheck
  try dsimp only
  repeat' (first
    | with_reducible exact Steady.refl _ | (with_reducible apply Steady.after (State.dropFetches_steady _ _ _))
    | (with_reducible apply Steady.after (State.endTaken_steady _ _ _ _ _ _))
    | ((with_reducible refine Steady.after (State.upHide_steady ?_) ?_); intros; rfl)
    | (with_reducible apply Steady.after (Steady.foldl _ (fun _ _ => ?_) _ _)))

/-! ### League.lean -/

theorem State.upCmd_steady (s : State) (p : Nat) (c : Cmd) : Steady s (State.upCmd s p c) := by
  unfold State.upCmd
  try dsimp only
  repeat' (first
    | with_reducible exact Steady.refl _ | with_reducible apply Steady.ite
    | (with_reducible apply Steady.after (State.endCmd_steady _ _ _ _))
    | (with_reducible apply Steady.keptBy (State.upPort_kept _ _ _) (by decide)))

theorem leagueRsp_steady (p : Nat) (k : FrameCheck) (tag status : Nat) (s : State) : Steady s (leagueRsp p k tag
    status s) := by
  unfold leagueRsp
  try dsimp only
  repeat' (first
    | with_reducible exact Steady.refl _ | with_reducible apply Steady.ite
    | (with_reducible apply Steady.after (State.upCmd_steady _ _ _))
    | (with_reducible apply Steady.keptBy (State.discard_kept _ _) (by decide))
    | (with_reducible apply Steady.keptBy (State.upPort_kept _ _ _) (by decide))
    | (with_reducible apply Steady.keptBy (State.linkCheck_kept _ _ _) (by decide)) | split)

theorem State.portCtl_steady (s : State) (p : Nat) (v : U32) : Steady s (State.portCtl s p v) := by
  unfold State.portCtl
  try dsimp only
  repeat' (first
    | with_reducible exact Steady.refl _ | with_reducible apply Steady.ite
    | (with_reducible apply Steady.keptBy (State.train_kept _ _ _) (by decide))
    | (with_reducible apply Steady.keptBy (State.leagueRecord_kept _ _ _) (by decide))
    | (with_reducible apply Steady.after (State.portOut_steady _ _ _))
    | (with_reducible apply Steady.keptBy (State.upPort_kept _ _ _) (by decide)))

/-! ### GlobalRegs.lean -/

theorem State.globalWrite_steady (s : State) (r : GReg) (v : Nat) : Steady s (State.globalWrite s r v) := by
  unfold State.globalWrite
  try dsimp only
  repeat' (first
    | with_reducible exact Steady.refl _ | with_reducible apply Steady.ite
    | (with_reducible apply Steady.keptBy (State.upPort_kept _ _ _) (by decide))
    | (with_reducible apply Steady.after (State.portCtl_steady _ _ _))
    | (with_reducible apply Steady.keptBy (State.writeNet_kept _ _) (by decide)) | split | (with_reducible apply Steady.upd))

/-! ### Furlong.lean -/

theorem State.leanEvent_steady (s : State) : Steady s (State.leanEvent s) := by
  unfold State.leanEvent
  try dsimp only
  repeat' (first
    | with_reducible exact Steady.refl _ | (with_reducible apply Steady.after (State.postEvent_steady _ _ _))
    | (with_reducible apply Steady.after (forAll_steady _ _ _ ?_)) | intro _)

theorem State.trimEntering_steady (s : State) (h : Nat) (first : Bool) (old : Option HideEntry) : Steady s
    (State.trimEntering s h first old) := by
  unfold State.trimEntering
  try dsimp only
  repeat' (first
    | with_reducible exact Steady.refl _ | (with_reducible apply Steady.after (State.trimRange_steady _ _ _ _ _))
    | (with_reducible apply Steady.after (forAll_steady _ _ _ ?_))
    | (with_reducible apply Steady.after (Steady.foldl _ (fun _ _ => ?_) _ _)) | split | intro _)

theorem State.switchLean_steady (s : State) (on : Bool) : Steady s (State.switchLean s on) := by
  unfold State.switchLean
  try dsimp only
  repeat' (first
    | with_reducible exact Steady.refl _ | with_reducible apply Steady.ite
    | (with_reducible apply Steady.after (State.leanEvent_steady _))
    | (with_reducible apply Steady.keptBy (State.record_kept _ _ _ _ _) (by decide)) | split
    | (with_reducible apply Steady.upd))

theorem State.switch_steady (s : State) (n0 : Switch) : Steady s (State.switch s n0) := by
  unfold State.switch
  try dsimp only
  repeat' (first
    | with_reducible exact Steady.refl _ | (with_reducible apply Steady.keptBy (State.maintain_kept _ _) (by decide))
    | (with_reducible apply Steady.after (State.remapCluster_steady _ _))
    | (with_reducible apply Steady.after (State.switchCluster_steady _ _))
    | (with_reducible apply Steady.after (State.switchRegion_steady _ _))
    | (with_reducible apply Steady.after (State.switchLean_steady _ _)) | split)

theorem State.applyDue_steady (s : State) (n : Nat) : Steady s (State.applyDue s n) := by
  unfold State.applyDue
  try dsimp only
  repeat' (first
    | with_reducible exact Steady.refl _ | (with_reducible apply Steady.after (State.switch_steady _ _))
    | (with_reducible apply Steady.after (Steady.foldl _ (fun _ _ => ?_) _ _)) | (with_reducible apply Steady.upd))

/-! ### HideRegs.lean -/

theorem State.takeReg_steady (s : State) (h : Nat) (r : HReg) : Steady s (State.takeReg s h r).1 := by
  unfold State.takeReg
  try dsimp only
  repeat' (first
    | with_reducible exact Steady.refl _ | with_reducible apply Steady.ite
    | (with_reducible apply Steady.after (State.hideClear_steady _ _ _)) | (with_reducible apply Steady.upd))

theorem State.takeWord_steady (s : State) (h off : Nat) : Steady s (State.takeWord s h off).1 := by
  unfold State.takeWord
  try dsimp only
  repeat' (first
    | with_reducible exact Steady.refl _ | (with_reducible apply Steady.after (State.upA_steady _ _ _))
    | (with_reducible apply Steady.after (State.takeReg_steady _ _ _)) | split)

theorem State.windowRead_steady (s : State) (h off size : Nat) : Steady s (State.windowRead s h off size).1 := by
  unfold State.windowRead
  try dsimp only
  repeat' (first
    | with_reducible exact Steady.refl _ | (with_reducible apply Steady.after (State.takeReg_steady _ _ _))
    | (with_reducible apply Steady.after (State.takeWord_steady _ _ _))
    | (with_reducible apply Steady.after (State.upC_steady _ _ _)) | split)

theorem registerRead_steady (h off size : Nat) (s : State) : Steady s (registerRead h off size s) := by
  unfold registerRead
  try dsimp only
  repeat' (first
    | with_reducible exact Steady.refl _ | with_reducible apply Steady.ite
    | (with_reducible apply Steady.keptBy (State.enqueue_kept _ _ _ _ _) (by decide))
    | (with_reducible apply Steady.after (State.windowRead_steady _ _ _ _))
    | (with_reducible refine Steady.via ‹_ = (_, _)› ?_) | split)

/-! ### Acres.lean -/

theorem acreScrub_steady (h n : Nat) (s : State) : Steady s (acreScrub h n s) := by
  unfold acreScrub
  try dsimp only
  repeat' (first
    | with_reducible exact Steady.refl _ | with_reducible apply Steady.ite
    | (with_reducible apply Steady.keptBy (State.upAcre_kept _ _ _) (by decide))
    | (with_reducible apply Steady.after (State.upSlot_steady _ _ _ _))
    | (with_reducible apply Steady.keptBy (State.leaseRecord_kept _ _ _ _) (by decide)))

/-! ### Mem.lean -/

theorem memWrite_steady (ld off : Nat) (data : List Byte) (poison wb : Bool) (cycle : Nat) (s : State) : Steady s
    (memWrite ld off data poison wb cycle s) := by
  unfold memWrite
  try dsimp only
  repeat' (first
    | with_reducible exact Steady.refl _ | with_reducible apply Steady.ite
    | (with_reducible apply Steady.after (State.untrack_steady _ _ _))
    | (with_reducible apply Steady.after (State.storeLine_steady _ _ _ _ _ _))
    | (with_reducible apply Steady.after (State.acreRequest_steady _ _ _ _ _ _))
    | (with_reducible apply Steady.after (State.lost_steady _ _))
    | (with_reducible apply Steady.keptBy (State.answerWrite_kept _ _ _ _ _) (by decide)) | split)

/-! ### Acres.lean -/

theorem leaseDrain_steady (h n : Nat) (s : State) : Steady s (leaseDrain h n s) := by
  unfold leaseDrain
  try dsimp only
  repeat' (first
    | with_reducible exact Steady.refl _ | with_reducible apply Steady.ite
    | (with_reducible apply Steady.keptBy (State.upAcre_kept _ _ _) (by decide))
    | (with_reducible apply Steady.after (State.upSlot_steady _ _ _ _))
    | (with_reducible apply Steady.keptBy (State.leaseRecord_kept _ _ _ _) (by decide)))

/-! ### Gates.lean -/

theorem State.noteWait_steady (s : State) (link h : Nat) (firstQ : Bool) : Steady s (State.noteWait s link h firstQ)
    := by
  unfold State.noteWait
  try dsimp only
  repeat' (first
    | with_reducible exact Steady.refl _ | with_reducible apply Steady.ite
    | (with_reducible apply Steady.after (State.upC_steady _ _ _)) | split | (with_reducible apply Steady.upd))

theorem State.sendOwn_steady (s : State) (w : Window) (owner chain cycle at_ : Nat) : Steady s (State.sendOwn s w
    owner chain cycle at_) := by
  unfold State.sendOwn
  try dsimp only
  repeat' (first
    | with_reducible exact Steady.refl _ | with_reducible apply Steady.ite
    | (with_reducible apply Steady.keptBy (State.send_kept _ _ _ _ _ _ _) (by decide))
    | (with_reducible apply Steady.after (State.noteWait_steady _ _ _ _)) | split)

/-! ### Resets.lean -/

theorem State.zeroImem_steady (s : State) (h : Nat) : Steady s (State.zeroImem s h) := by
  unfold State.zeroImem
  try dsimp only
  repeat' (first
    | with_reducible exact Steady.refl _ | (with_reducible apply Steady.after (State.upA_steady _ _ _))
    | (with_reducible apply Steady.upd))

/-! ### Loads.lean -/

theorem State.stageSection_steady (s : State) (l : Load) (m : Ream) : Steady s (State.stageSection s l m).1 := by
  unfold State.stageSection
  try dsimp only
  repeat' (first
    | with_reducible exact Steady.refl _ | (with_reducible apply Steady.keptBy (State.trigger_kept _ _) (by decide))
    | ((with_reducible refine Steady.after (State.upHide_steady ?_) ?_); intros; rfl)
    | (with_reducible apply Steady.keptBy (State.endLoad_kept _ _ _ _ _ _ _) (by decide)) | split)

theorem State.finishLoad_steady (s : State) (l : Load) (image : LoadImage) : Steady s (State.finishLoad s l image).1
    := by
  unfold State.finishLoad
  try dsimp only
  repeat' (first
    | with_reducible exact Steady.refl _ | (with_reducible apply Steady.keptBy (State.stageFirmware_kept _ _ _) (by decide))
    | (with_reducible apply Steady.keptBy (State.stagePackage_kept _ _ _) (by decide))
    | (with_reducible apply Steady.after (State.stageSection_steady _ _ _))
    | (with_reducible apply Steady.keptBy (State.stageReam_kept _ _ _) (by decide))
    | (with_reducible apply Steady.keptBy (State.endLoad_kept _ _ _ _ _ _ _) (by decide)) | split)

/-! ### Acres.lean -/

theorem leaseExpiry_steady (h n : Nat) (s : State) : Steady s (leaseExpiry h n s) := by
  unfold leaseExpiry
  try dsimp only
  repeat' (first
    | with_reducible exact Steady.refl _ | with_reducible apply Steady.ite
    | (with_reducible apply Steady.after (State.closeHold_steady _ _ _ _ _ _))
    | (with_reducible apply Steady.after (State.upA_steady _ _ _)))

/-! ### Mem.lean -/

theorem snoopTimeout_steady (h off : Nat) (s : State) : Steady s (snoopTimeout h off s) := by
  unfold snoopTimeout
  try dsimp only
  repeat' (first
    | with_reducible exact Steady.refl _ | with_reducible apply Steady.ite
    | (with_reducible apply Steady.after (State.closeHold_steady _ _ _ _ _ _))
    | (with_reducible apply Steady.after (State.endHold_steady _ _ _))
    | (with_reducible apply Steady.after (State.dropSnoop_steady _ _ _))
    | (with_reducible apply Steady.after (State.upA_steady _ _ _)) | split)

/-! ### Gates.lean -/

theorem State.sendShared_steady (s : State) (w : Window) (chain cycle at_ : Nat) : Steady s (State.sendShared s w
    chain cycle at_) := by
  unfold State.sendShared
  try dsimp only
  repeat' (first
    | with_reducible exact Steady.refl _ | with_reducible apply Steady.ite
    | (with_reducible apply Steady.keptBy (State.send_kept _ _ _ _ _ _ _) (by decide))
    | (with_reducible apply Steady.after (State.noteWait_steady _ _ _ _))
    | (with_reducible apply Steady.after (Steady.foldl _ (fun _ _ => ?_) _ _)) | split | (with_reducible apply Steady.upd))

theorem egressStart_steady (link chain cycle : Nat) (s : State) : Steady s (egressStart link chain cycle s) := by
  unfold egressStart
  try dsimp only
  repeat' (first
    | with_reducible exact Steady.refl _ | with_reducible apply Steady.ite
    | (with_reducible apply Steady.after (State.sendShared_steady _ _ _ _ _))
    | (with_reducible apply Steady.after (State.sendOwn_steady _ _ _ _ _ _)) | split)

/-! ### League.lean -/

theorem trainingTimeout_steady (p : Nat) (s : State) : Steady s (trainingTimeout p s) := by
  unfold trainingTimeout
  try dsimp only
  repeat' (first
    | with_reducible exact Steady.refl _ | with_reducible apply Steady.ite
    | (with_reducible apply Steady.after (State.portDown_steady _ _))
    | (with_reducible apply Steady.keptBy (State.leagueRecord_kept _ _ _) (by decide))
    | (with_reducible apply Steady.keptBy (State.train_kept _ _ _) (by decide))
    | (with_reducible apply Steady.keptBy (State.upPort_kept _ _ _) (by decide)))

/-! ### Resets.lean -/

theorem bufferEnable_steady (h b : Nat) (ctl : U32) (s : State) : Steady s (bufferEnable h b ctl s) := by
  unfold bufferEnable
  try dsimp only
  repeat' (first
    | with_reducible exact Steady.refl _ | with_reducible apply Steady.ite
    | (with_reducible apply Steady.after (State.bufCtl_steady _ _ _ _)))

/-! ### Acres.lean -/

theorem leaseRecallComplete_steady (h : Nat) (s : State) : Steady s (leaseRecallComplete h s) := by
  unfold leaseRecallComplete
  try dsimp only
  repeat' (first
    | with_reducible exact Steady.refl _ | with_reducible apply Steady.ite
    | (with_reducible apply Steady.after (State.upSlot_steady _ _ _ _))
    | (with_reducible apply Steady.keptBy (State.leaseRecord_kept _ _ _ _) (by decide))
    | (with_reducible apply Steady.after (State.leaseResult_steady _ _ _))
    | (with_reducible apply Steady.after (State.upA_steady _ _ _)) | split)

/-! ### Mem.lean -/

theorem State.dmaEnds_steady (s : State) (h tag : Nat) (d : Dma) : Steady s (State.dmaEnds s h tag d) := by
  unfold State.dmaEnds
  try dsimp only
  repeat' (first
    | with_reducible exact Steady.refl _ | with_reducible apply Steady.ite
    | (with_reducible apply Steady.after (State.failTokens_steady _ _))
    | (with_reducible apply Steady.after (State.upO_steady _ _ _)))

theorem dmaCompletion_steady (h tag : Nat) (r : DmaResult) (s : State) : Steady s (dmaCompletion h tag r s) := by
  unfold dmaCompletion
  try dsimp only
  repeat' (first
    | with_reducible exact Steady.refl _ | with_reducible apply Steady.ite
    | (with_reducible apply Steady.after (State.dmaEnds_steady _ _ _ _)) | split)

/-! ### Acres.lean -/

theorem leaseRow_steady (op h : Nat) (v : U64) (s : State) : Steady s (leaseRow op h v s) := by
  unfold leaseRow
  try dsimp only
  repeat' (first
    | with_reducible exact Steady.refl _ | with_reducible apply Steady.ite
    | (with_reducible apply Steady.after (State.leaseCommand_steady _ _ _)))

/-! ### League.lean -/

theorem State.loseExtents_steady (s : State) (p : Nat) : Steady s (State.loseExtents s p) := by
  unfold State.loseExtents
  try dsimp only
  repeat' (first
    | with_reducible exact Steady.refl _ | (with_reducible apply Steady.after (State.upO_steady _ _ _))
    | (with_reducible apply Steady.after (forAll_steady _ _ _ ?_)) | intro _)

theorem State.newModule_steady (s : State) (p : Nat) : Steady s (State.newModule s p) := by
  unfold State.newModule
  try dsimp only
  repeat' (first
    | with_reducible exact Steady.refl _ | with_reducible apply Steady.ite
    | (with_reducible apply Steady.after (State.upO_steady _ _ _))
    | (with_reducible apply Steady.after (State.trimRange_steady _ _ _ _ _))
    | (with_reducible apply Steady.after (forAll_steady _ _ _ ?_))
    | (with_reducible apply Steady.keptBy (State.upPort_kept _ _ _) (by decide)) | intro _)

theorem State.meetModule_steady (s : State) (p : Nat) (m : ModuleId) : Steady s (State.meetModule s p m) := by
  unfold State.meetModule
  try dsimp only
  repeat' (first
    | with_reducible exact Steady.refl _ | with_reducible apply Steady.ite
    | (with_reducible apply Steady.keptBy (State.nextFirst_kept _ _) (by decide))
    | (with_reducible apply Steady.after (State.loseExtents_steady _ _))
    | (with_reducible apply Steady.after (State.newModule_steady _ _))
    | (with_reducible apply Steady.after (State.deviceEvent_steady _))
    | (with_reducible apply Steady.after (State.portOut_steady _ _ _))
    | (with_reducible apply Steady.keptBy (State.leagueRecord_kept _ _ _) (by decide))
    | (with_reducible apply Steady.keptBy (State.upPort_kept _ _ _) (by decide)))

/-! ### Manage.lean -/

theorem State.telemetryTaken_steady (s : State) : Steady s (State.telemetryTaken s) := by
  exact Steady.mapHides s (fun x => { x with c := x.c.telZero }) (fun _ => rfl)

theorem telemetry_steady (q : Req) (s : State) : Steady s (telemetry q s) := by
  unfold telemetry State.request
  split
  · exact Steady.refl _
  · split
    · exact Steady.refl _
    · split
      · exact Steady.keptBy (State.reply_kept _ _ _ _ _) (by decide) (Steady.refl _)
      · exact Steady.keptBy (State.reply_kept _ _ _ _ _) (by decide) (State.telemetryTaken_steady _)

/-! ### Resets.lean -/

theorem linkWidthChange_steady (width rate : Nat) (s : State) : Steady s (linkWidthChange width rate s) := by
  unfold linkWidthChange
  try dsimp only
  repeat' (first
    | with_reducible exact Steady.refl _ | with_reducible apply Steady.ite
    | (with_reducible apply Steady.keptBy (State.record_kept _ _ _ _ _) (by decide))
    | (with_reducible apply Steady.after (State.deviceEvent_steady _)) | split | (with_reducible apply Steady.upd))

/-! ### League.lean -/

theorem State.takeSector_steady (s : State) (p : Nat) (c : Cmd) (i : Nat) (d : RData) : Steady s (State.takeSector s p
    c i d) := by
  unfold State.takeSector
  try dsimp only
  repeat' (first
    | with_reducible exact Steady.refl _ | with_reducible apply Steady.ite
    | (with_reducible apply Steady.keptBy (State.upPort_kept _ _ _) (by decide))
    | (with_reducible apply Steady.after (State.upO_steady _ _ _))
    | (with_reducible apply Steady.after (State.upCmd_steady _ _ _)) | split)

theorem leagueRdata_steady (p : Nat) (k : FrameCheck) (tag i : Nat) (d : RData) (s : State) : Steady s (leagueRdata p
    k tag i d s) := by
  unfold leagueRdata
  try dsimp only
  repeat' (first
    | with_reducible exact Steady.refl _ | with_reducible apply Steady.ite
    | (with_reducible apply Steady.after (State.upCmd_steady _ _ _))
    | (with_reducible apply Steady.after (State.takeSector_steady _ _ _ _ _))
    | (with_reducible apply Steady.keptBy (State.discard_kept _ _) (by decide))
    | (with_reducible apply Steady.keptBy (State.upPort_kept _ _ _) (by decide))
    | (with_reducible apply Steady.keptBy (State.linkCheck_kept _ _ _) (by decide)) | split)

/-! ### Mem.lean -/

theorem State.perform_steady (s : State) (q : AcreReq) (load : Nat) : Steady s (State.perform s q load) := by
  unfold State.perform
  try dsimp only
  repeat' (first
    | with_reducible exact Steady.refl _ | with_reducible apply Steady.ite
    | (with_reducible apply Steady.keptBy (State.upAcre_kept _ _ _) (by decide))
    | (with_reducible apply Steady.keptBy (State.writeAcre_kept _ _ _ _) (by decide))
    | (with_reducible apply Steady.after (State.upA_steady _ _ _))
    | (with_reducible apply Steady.after (State.refuse_steady _ _ _ _ _))
    | (with_reducible apply Steady.after (State.untrack_steady _ _ _))
    | (with_reducible apply Steady.keptBy (State.answerWrite_kept _ _ _ _ _) (by decide))
    | (with_reducible apply Steady.after (State.track_steady _ _ _ _))
    | (with_reducible apply Steady.keptBy (State.answerRead_kept _ _ _ _ _ _ _ _) (by decide))
    | (with_reducible apply Steady.keptBy (State.answerPoison_kept _ _ _ _ _) (by decide))
    | (with_reducible apply Steady.after (State.upC_steady _ _ _)) | split)

/-! ### League.lean -/

theorem leagueTimeout_steady (p tag : Nat) (s : State) : Steady s (leagueTimeout p tag s) := by
  unfold leagueTimeout
  try dsimp only
  repeat' (first
    | with_reducible exact Steady.refl _ | (with_reducible apply Steady.after (State.endCmd_steady _ _ _ _))
    | (with_reducible apply Steady.keptBy (State.upPort_kept _ _ _) (by decide)) | split)

theorem trainingComplete_steady (p : Nat) (lanes : BitVec 4) (s : State) : Steady s (trainingComplete p lanes s) := by
  unfold trainingComplete
  try dsimp only
  repeat' (first
    | with_reducible exact Steady.refl _ | with_reducible apply Steady.ite
    | (with_reducible apply Steady.after (State.meetModule_steady _ _ _))
    | (with_reducible apply Steady.keptBy (State.enqueue_kept _ _ _ _ _) (by decide))
    | (with_reducible apply Steady.keptBy (State.upPort_kept _ _ _) (by decide)) | split)

/-! ### Gates.lean -/

theorem policerRefill_steady (s : State) : Steady s (policerRefill s) := by
  unfold policerRefill
  try dsimp only
  repeat' (first
    | with_reducible exact Steady.refl _ | with_reducible apply Steady.ite
    | (with_reducible apply Steady.after (State.upQ_steady _ _ _))
    | (with_reducible apply Steady.after (forAll_steady _ _ _ ?_)) | split | intro _)

/-! ### Manage.lean -/

theorem telemetryPeriod_steady (id : Nat) (s : State) : Steady s (telemetryPeriod id s) := by
  unfold telemetryPeriod
  try dsimp only
  repeat' (first
    | with_reducible exact Steady.refl _ | with_reducible apply Steady.ite
    | (with_reducible apply Steady.after (State.telemetryTaken_steady _))
    | (with_reducible apply Steady.keptBy (State.message_kept _ _) (by decide)) | split)

/-! ### Resets.lean -/

theorem bufferDisable_steady (h b : Nat) (ctl : U32) (s : State) : Steady s (bufferDisable h b ctl s) := by
  unfold bufferDisable
  try dsimp only
  repeat' (first
    | with_reducible exact Steady.refl _ | with_reducible apply Steady.ite
    | (with_reducible apply Steady.after (State.bufCtl_steady _ _ _ _)))

/-! ### Mem.lean -/

theorem memRead_steady (ld off : Nat) (kind : ReadKind) (uio : Bool) (s : State) : Steady s (memRead ld off kind uio
    s) := by
  unfold memRead
  try dsimp only
  repeat' (first
    | with_reducible exact Steady.refl _ | with_reducible apply Steady.ite
    | (with_reducible apply Steady.after (State.track_steady _ _ _ _))
    | (with_reducible apply Steady.keptBy (State.answerRead_kept _ _ _ _ _ _ _ _) (by decide))
    | (with_reducible apply Steady.after (State.acreRequest_steady _ _ _ _ _ _))
    | (with_reducible apply Steady.after (State.lost_steady _ _))
    | (with_reducible apply Steady.keptBy (State.answerPoison_kept _ _ _ _ _) (by decide)) | split)

theorem acreServe_steady (h : Nat) (s : State) : Steady s (acreServe h s) := by
  unfold acreServe
  try dsimp only
  repeat' (first
    | with_reducible exact Steady.refl _ | with_reducible apply Steady.ite
    | (with_reducible apply Steady.after (State.sendSnoop_steady _ _ _ _ _))
    | (with_reducible apply Steady.after (State.upA_steady _ _ _))
    | (with_reducible apply Steady.after (State.perform_steady _ _ _))
    | (with_reducible apply Steady.after (Steady.foldl _ (fun _ _ => ?_) _ _)) | split)

theorem dmaTimeout_steady (h tag : Nat) (s : State) : Steady s (dmaTimeout h tag s) := by
  unfold dmaTimeout
  try dsimp only
  repeat' (first
    | with_reducible exact Steady.refl _ | with_reducible apply Steady.ite
    | (with_reducible apply Steady.after (State.dmaEnds_steady _ _ _ _)) | split)

theorem uioWrite_steady (ld off : Nat) (data : List Byte) (poison : Bool) (cycle : Nat) (s : State) : Steady s
    (uioWrite ld off data poison cycle s) := by
  unfold uioWrite
  try dsimp only
  repeat' (first
    | with_reducible exact Steady.refl _ | (with_reducible apply Steady.after (State.storeLine_steady _ _ _ _ _ _))
    | (with_reducible apply Steady.after (State.acreRequest_steady _ _ _ _ _ _))
    | (with_reducible apply Steady.after (State.lost_steady _ _))
    | (with_reducible apply Steady.keptBy (State.enqueue_kept _ _ _ _ _) (by decide))
    | (with_reducible apply Steady.keptBy (State.answerWrite_kept _ _ _ _ _) (by decide)) | split)

end Sys2Proof.Machine
end

