-- ==== Sys2Proof/Laws/SteadyExec.lean ====
section
/-!
SUPPORT. The commands that leave every hide's section, root key, TSP state and reset as they were.
-/

namespace Sys2Proof.Machine
open Sys2Proof

theorem exec_standbyStart_steady (s : State) :
    ∃ s', exec (.standbyStart) s = .next s' ∧ Steady s s' := by
  refine ⟨_, rfl, ?_⟩
  repeat' (first
    | with_reducible exact Steady.refl _ | (with_reducible apply Steady.keptBy (standbyStart_kept _) (by decide)) | split
    | (with_reducible apply Steady.upd))

theorem exec_powerUpStepOverrun_steady step (s : State) :
    ∃ s', exec (.powerUpStepOverrun step) s = .next s' ∧ Steady s s' := by
  refine ⟨_, rfl, ?_⟩
  repeat' (first
    | with_reducible exact Steady.refl _ | (with_reducible apply Steady.keptBy (stepOverrun_kept _ _) (by decide)) | split
    | (with_reducible apply Steady.upd))

theorem exec_vinSample_steady vin iin (s : State) :
    ∃ s', exec (.vinSample vin iin) s = .next s' ∧ Steady s s' := by
  refine ⟨_, rfl, ?_⟩
  repeat' (first
    | with_reducible exact Steady.refl _ | (with_reducible apply Steady.after (vinSample_steady _ _ _)) | split
    | (with_reducible apply Steady.upd))

theorem exec_monitorFail_steady (s : State) :
    ∃ s', exec (.monitorFail) s = .next s' ∧ Steady s s' := by
  refine ⟨_, rfl, ?_⟩
  repeat' (first
    | with_reducible exact Steady.refl _ | (with_reducible apply Steady.keptBy (monitorFail_kept _) (by decide)) | split
    | (with_reducible apply Steady.upd))

theorem exec_sensorTimeout_steady sensor (s : State) :
    ∃ s', exec (.sensorTimeout sensor) s = .next s' ∧ Steady s s' := by
  refine ⟨_, rfl, ?_⟩
  repeat' (first
    | with_reducible exact Steady.refl _ | (with_reducible apply Steady.keptBy (sensorTimeout_kept _ _) (by decide)) | split
    | (with_reducible apply Steady.upd))

theorem exec_leanReturnCount_steady (s : State) :
    ∃ s', exec (.leanReturnCount) s = .next s' ∧ Steady s s' := by
  refine ⟨_, rfl, ?_⟩
  repeat' (first
    | with_reducible exact Steady.refl _ | (with_reducible apply Steady.keptBy (leanReturnCount_kept _) (by decide)) | split
    | (with_reducible apply Steady.upd))

theorem exec_regionClockWindow_steady ppm (s : State) :
    ∃ s', exec (.regionClockWindow ppm) s = .next s' ∧ Steady s s' := by
  refine ⟨_, rfl, ?_⟩
  repeat' (first
    | with_reducible exact Steady.refl _ | (with_reducible apply Steady.keptBy (regionWindow_kept _ _) (by decide)) | split
    | (with_reducible apply Steady.upd))

theorem exec_pllLossOfLock_steady r (s : State) :
    ∃ s', exec (.pllLossOfLock r) s = .next s' ∧ Steady s s' := by
  refine ⟨_, rfl, ?_⟩
  repeat' (first
    | with_reducible exact Steady.refl _ | (with_reducible apply Steady.keptBy (pllLoss_kept _ _) (by decide)) | split
    | (with_reducible apply Steady.upd))

theorem exec_entropyHealthFail_steady (s : State) :
    ∃ s', exec (.entropyHealthFail) s = .next s' ∧ Steady s s' := by
  refine ⟨_, rfl, ?_⟩
  repeat' (first
    | with_reducible exact Steady.refl _ | (with_reducible apply Steady.keptBy (entropyFail_kept _) (by decide)) | split
    | (with_reducible apply Steady.upd))

theorem exec_furlongCounterComplete_steady r (s : State) :
    ∃ s', exec (.furlongCounterComplete r) s = .next s' ∧ Steady s s' := by
  refine ⟨_, rfl, ?_⟩
  repeat' (first
    | with_reducible exact Steady.refl _ | (with_reducible apply Steady.keptBy (counterComplete_kept _ _) (by decide))
    | split | (with_reducible apply Steady.upd))

theorem exec_boundaryMark_steady r src low (s : State) :
    ∃ s', exec (.boundaryMark r src low) s = .next s' ∧ Steady s s' := by
  refine ⟨_, rfl, ?_⟩
  repeat' (first
    | with_reducible exact Steady.refl _ | (with_reducible apply Steady.keptBy (boundaryMark_kept _ _ _ _) (by decide))
    | split | (with_reducible apply Steady.upd))

theorem exec_switchNotice_steady (s : State) :
    ∃ s', exec (.switchNotice) s = .next s' ∧ Steady s s' := by
  refine ⟨_, rfl, ?_⟩
  repeat' (first
    | with_reducible exact Steady.refl _ | (with_reducible apply Steady.keptBy (switchNotice_kept _) (by decide)) | split
    | (with_reducible apply Steady.upd))

theorem exec_drainLimit_steady (s : State) :
    ∃ s', exec (.drainLimit) s = .next s' ∧ Steady s s' := by
  refine ⟨_, rfl, ?_⟩
  repeat' (first
    | with_reducible exact Steady.refl _ | (with_reducible apply Steady.after (drainLimit_steady _)) | split
    | (with_reducible apply Steady.upd))

theorem exec_heldOutRotation_steady c (s : State) :
    ∃ s', exec (.heldOutRotation c) s = .next s' ∧ Steady s s' := by
  refine ⟨_, rfl, ?_⟩
  repeat' (first
    | with_reducible exact Steady.refl _ | (with_reducible apply Steady.keptBy (heldOutRotation_kept _ _) (by decide))
    | split | (with_reducible apply Steady.upd))

theorem exec_screenPatternRun_steady c phys pattern result (s : State) :
    ∃ s', exec (.screenPatternRun c phys pattern result) s = .next s' ∧ Steady s s' := by
  refine ⟨_, rfl, ?_⟩
  repeat' (first
    | with_reducible exact Steady.refl _ | (with_reducible apply Steady.keptBy (screenPatternRun_kept _ _ _ _ _) (by decide))
    | split | (with_reducible apply Steady.upd))

theorem exec_screenSummary_steady (s : State) :
    ∃ s', exec (.screenSummary) s = .next s' ∧ Steady s s' := by
  refine ⟨_, rfl, ?_⟩
  repeat' (first
    | with_reducible exact Steady.refl _ | (with_reducible apply Steady.keptBy (screenSummary_kept _) (by decide)) | split
    | (with_reducible apply Steady.upd))

theorem exec_bankGroupFaultRecord_steady (s : State) :
    ∃ s', exec (.bankGroupFaultRecord) s = .next s' ∧ Steady s s' := by
  refine ⟨_, rfl, ?_⟩
  repeat' (first
    | with_reducible exact Steady.refl _ | (with_reducible apply Steady.keptBy (bankGroupFaultRecord_kept _) (by decide))
    | split | (with_reducible apply Steady.upd))

theorem exec_gateFurlongStart_steady (s : State) :
    ∃ s', exec (.gateFurlongStart) s = .next s' ∧ Steady s s' := by
  refine ⟨_, rfl, ?_⟩
  repeat' (first
    | with_reducible exact Steady.refl _ | (with_reducible apply Steady.keptBy (gateStart_kept _) (by decide)) | split
    | (with_reducible apply Steady.upd))

theorem exec_policerRefill_steady (s : State) :
    ∃ s', exec (.policerRefill) s = .next s' ∧ Steady s s' := by
  refine ⟨_, rfl, ?_⟩
  repeat' (first
    | with_reducible exact Steady.refl _ | (with_reducible apply Steady.after (policerRefill_steady _)) | split
    | (with_reducible apply Steady.upd))

theorem exec_egressFrameStart_steady link chain cycle (s : State) :
    ∃ s', exec (.egressFrameStart link chain cycle) s = .next s' ∧ Steady s s' := by
  refine ⟨_, rfl, ?_⟩
  repeat' (first
    | with_reducible exact Steady.refl _ | (with_reducible apply Steady.after (egressStart_steady _ _ _ _)) | split
    | (with_reducible apply Steady.upd))

theorem exec_cxlMemWrite_steady ld off data poison writeBack cycle (s : State) :
    ∃ s', exec (.cxlMemWrite ld off data poison writeBack cycle) s = .next s' ∧ Steady s s' := by
  refine ⟨_, rfl, ?_⟩
  repeat' (first
    | with_reducible exact Steady.refl _ | (with_reducible apply Steady.after (memWrite_steady _ _ _ _ _ _ _)) | split
    | (with_reducible apply Steady.upd))

theorem exec_cxlMemRead_steady ld off kind (s : State) :
    ∃ s', exec (.cxlMemRead ld off kind) s = .next s' ∧ Steady s s' := by
  refine ⟨_, rfl, ?_⟩
  repeat' (first
    | with_reducible exact Steady.refl _ | (with_reducible apply Steady.after (memRead_steady _ _ _ _ _)) | split
    | (with_reducible apply Steady.upd))

theorem exec_cxlMemInv_steady ld off (s : State) :
    ∃ s', exec (.cxlMemInv ld off) s = .next s' ∧ Steady s s' := by
  refine ⟨_, rfl, ?_⟩
  repeat' (first
    | with_reducible exact Steady.refl _ | (with_reducible apply Steady.after (memInv_steady _ _ _)) | split
    | (with_reducible apply Steady.upd))

theorem exec_uioRead_steady ld off (s : State) :
    ∃ s', exec (.uioRead ld off) s = .next s' ∧ Steady s s' := by
  refine ⟨_, rfl, ?_⟩
  repeat' (first
    | with_reducible exact Steady.refl _ | (with_reducible apply Steady.after (memRead_steady _ _ _ _ _)) | split
    | (with_reducible apply Steady.upd))

theorem exec_uioWrite_steady ld off data poison cycle (s : State) :
    ∃ s', exec (.uioWrite ld off data poison cycle) s = .next s' ∧ Steady s s' := by
  refine ⟨_, rfl, ?_⟩
  repeat' (first
    | with_reducible exact Steady.refl _ | (with_reducible apply Steady.after (uioWrite_steady _ _ _ _ _ _)) | split
    | (with_reducible apply Steady.upd))

theorem exec_packetTake_steady h (s : State) :
    ∃ s', exec (.packetTake h) s = .next s' ∧ Steady s s' := by
  refine ⟨_, rfl, ?_⟩
  repeat' (first
    | with_reducible exact Steady.refl _ | (with_reducible apply Steady.after (takePacket_steady _ _)) | split
    | (with_reducible apply Steady.upd))

theorem exec_packetTimeout_steady h ring (s : State) :
    ∃ s', exec (.packetTimeout h ring) s = .next s' ∧ Steady s s' := by
  refine ⟨_, rfl, ?_⟩
  repeat' (first
    | with_reducible exact Steady.refl _ | (with_reducible apply Steady.after (packetTimeout_steady _ _ _)) | split
    | (with_reducible apply Steady.upd))

theorem exec_heldPostTimeout_steady h (s : State) :
    ∃ s', exec (.heldPostTimeout h) s = .next s' ∧ Steady s s' := by
  refine ⟨_, rfl, ?_⟩
  repeat' (first
    | with_reducible exact Steady.refl _ | (with_reducible apply Steady.after (heldPostTimeout_steady _ _)) | split
    | (with_reducible apply Steady.upd))

theorem exec_queuePointerMismatch_steady h kind ring (s : State) :
    ∃ s', exec (.queuePointerMismatch h kind ring) s = .next s' ∧ Steady s s' := by
  refine ⟨_, rfl, ?_⟩
  repeat' (first
    | with_reducible exact Steady.refl _ | (with_reducible apply Steady.after (queuePointerMismatch_steady _ _ _ _)) | split
    | (with_reducible apply Steady.upd))

theorem exec_admitSeq_steady h c e (s : State) :
    ∃ s', exec (.admitSeq h c e) s = .next s' ∧ Steady s s' := by
  refine ⟨_, rfl, ?_⟩
  repeat' (first
    | with_reducible exact Steady.refl _ | (with_reducible apply Steady.after (admitSeqWork_steady _ _ _ _ _))
    | (with_reducible apply Steady.after (State.admit_steady _ _ _ _ _ _ _ (fun _ _ _ => ?_))) | split
    | (with_reducible apply Steady.upd))

theorem exec_admitSeqExtend_steady h c e (s : State) :
    ∃ s', exec (.admitSeqExtend h c e) s = .next s' ∧ Steady s s' := by
  refine ⟨_, rfl, ?_⟩
  repeat' (first
    | with_reducible exact Steady.refl _ | (with_reducible apply Steady.after (extendWork_steady _ _ _ _ _))
    | (with_reducible apply Steady.after (State.admit_steady _ _ _ _ _ _ _ (fun _ _ _ => ?_))) | split
    | (with_reducible apply Steady.upd))

theorem exec_retireSeq_steady h c e (s : State) :
    ∃ s', exec (.retireSeq h c e) s = .next s' ∧ Steady s s' := by
  refine ⟨_, rfl, ?_⟩
  repeat' (first
    | with_reducible exact Steady.refl _ | (with_reducible apply Steady.after (retireWork_steady _ _ _ _ _))
    | (with_reducible apply Steady.after (State.admit_steady _ _ _ _ _ _ _ (fun _ _ _ => ?_))) | split
    | (with_reducible apply Steady.upd))

theorem exec_forkPrefix_steady h c e (s : State) :
    ∃ s', exec (.forkPrefix h c e) s = .next s' ∧ Steady s s' := by
  refine ⟨_, rfl, ?_⟩
  repeat' (first
    | with_reducible exact Steady.refl _ | (with_reducible apply Steady.after (forkWork_steady _ _ _ _ _))
    | (with_reducible apply Steady.after (State.admit_steady _ _ _ _ _ _ _ (fun _ _ _ => ?_))) | split
    | (with_reducible apply Steady.upd))

theorem exec_lookupPrefix_steady h c e (s : State) :
    ∃ s', exec (.lookupPrefix h c e) s = .next s' ∧ Steady s s' := by
  refine ⟨_, rfl, ?_⟩
  repeat' (first
    | with_reducible exact Steady.refl _ | (with_reducible apply Steady.after (lookupWork_steady _ _ _ _ _ _))
    | (with_reducible apply Steady.after (State.admit_steady _ _ _ _ _ _ _ (fun _ _ _ => ?_))) | split
    | (with_reducible apply Steady.upd))

theorem exec_lookupPrefixContinue_steady h c e (s : State) :
    ∃ s', exec (.lookupPrefixContinue h c e) s = .next s' ∧ Steady s s' := by
  refine ⟨_, rfl, ?_⟩
  repeat' (first
    | with_reducible exact Steady.refl _ | (with_reducible apply Steady.after (lookupContinue_steady _ _ _ _)) | split
    | (with_reducible apply Steady.upd))

theorem exec_hashLaneDone_steady h (s : State) :
    ∃ s', exec (.hashLaneDone h) s = .next s' ∧ Steady s s' := by
  refine ⟨_, rfl, ?_⟩
  repeat' (first
    | with_reducible exact Steady.refl _ | (with_reducible apply Steady.after (hashLaneDone_steady _ _)) | split
    | (with_reducible apply Steady.upd))

theorem exec_publishPrefixCreate_steady h c e (s : State) :
    ∃ s', exec (.publishPrefixCreate h c e) s = .next s' ∧ Steady s s' := by
  refine ⟨_, rfl, ?_⟩
  repeat' (first
    | with_reducible exact Steady.refl _ | (with_reducible apply Steady.after (createWork_steady _ _ _ _ _ _))
    | (with_reducible apply Steady.after (createStep_steady _ _ _ _ _))
    | (with_reducible apply Steady.after (State.run_steady _ _ _ _ _ _ _ (fun _ _ => ?_) (fun _ _ _ => ?_))) | split
    | (with_reducible apply Steady.upd))

theorem exec_publishPrefixPromote_steady h c e (s : State) :
    ∃ s', exec (.publishPrefixPromote h c e) s = .next s' ∧ Steady s s' := by
  refine ⟨_, rfl, ?_⟩
  repeat' (first
    | with_reducible exact Steady.refl _ | (with_reducible apply Steady.after (promoteWork_steady _ _ _ _ _ _))
    | (with_reducible apply Steady.after (promoteStep_steady _ _ _ _ _))
    | (with_reducible apply Steady.after (State.run_steady _ _ _ _ _ _ _ (fun _ _ => ?_) (fun _ _ _ => ?_))) | split
    | (with_reducible apply Steady.upd))

theorem exec_publishPrefixWithdraw_steady h c e (s : State) :
    ∃ s', exec (.publishPrefixWithdraw h c e) s = .next s' ∧ Steady s s' := by
  refine ⟨_, rfl, ?_⟩
  repeat' (first
    | with_reducible exact Steady.refl _ | (with_reducible apply Steady.after (withdrawWork_steady _ _ _ _ _))
    | (with_reducible apply Steady.after (State.admit_steady _ _ _ _ _ _ _ (fun _ _ _ => ?_))) | split
    | (with_reducible apply Steady.upd))

theorem exec_stepDecode_steady h c e (s : State) :
    ∃ s', exec (.stepDecode h c e) s = .next s' ∧ Steady s s' := by
  refine ⟨_, rfl, ?_⟩
  repeat' (first
    | with_reducible exact Steady.refl _ | (with_reducible apply Steady.after (State.stepRow_steady _ _ _ _ _ _ _)) | split
    | (with_reducible apply Steady.upd))

theorem exec_fetchArrival_steady h fetch (s : State) :
    ∃ s', exec (.fetchArrival h fetch) s = .next s' ∧ Steady s s' := by
  refine ⟨_, rfl, ?_⟩
  repeat' (first
    | with_reducible exact Steady.refl _ | (with_reducible apply Steady.after (fetchArrival_steady _ _ _)) | split
    | (with_reducible apply Steady.upd))

theorem exec_fetchDeadline_steady h fetch (s : State) :
    ∃ s', exec (.fetchDeadline h fetch) s = .next s' ∧ Steady s s' := by
  refine ⟨_, rfl, ?_⟩
  repeat' (first
    | with_reducible exact Steady.refl _ | (with_reducible apply Steady.after (fetchDeadline_steady _ _ _)) | split
    | (with_reducible apply Steady.upd))

theorem exec_deferReentry_steady h c e (s : State) :
    ∃ s', exec (.deferReentry h c e) s = .next s' ∧ Steady s s' := by
  refine ⟨_, rfl, ?_⟩
  repeat' (first
    | with_reducible exact Steady.refl _ | (with_reducible apply Steady.after (deferReentry_steady _ _ _ _)) | split
    | (with_reducible apply Steady.upd))

theorem exec_stepPrefill_steady h c e (s : State) :
    ∃ s', exec (.stepPrefill h c e) s = .next s' ∧ Steady s s' := by
  refine ⟨_, rfl, ?_⟩
  repeat' (first
    | with_reducible exact Steady.refl _ | (with_reducible apply Steady.after (State.stepRow_steady _ _ _ _ _ _ _)) | split
    | (with_reducible apply Steady.upd))

theorem exec_stepBackward_steady h c e (s : State) :
    ∃ s', exec (.stepBackward h c e) s = .next s' ∧ Steady s s' := by
  refine ⟨_, rfl, ?_⟩
  repeat' (first
    | with_reducible exact Steady.refl _ | (with_reducible apply Steady.after (State.stepRow_steady _ _ _ _ _ _ _)) | split
    | (with_reducible apply Steady.upd))

theorem exec_projectAppend_steady h c e (s : State) :
    ∃ s', exec (.projectAppend h c e) s = .next s' ∧ Steady s s' := by
  refine ⟨_, rfl, ?_⟩
  repeat' (first
    | with_reducible exact Steady.refl _ | (with_reducible apply Steady.after (appendWork_steady _ _ _ _ _))
    | (with_reducible apply Steady.after (State.admit_steady _ _ _ _ _ _ _ (fun _ _ _ => ?_))) | split
    | (with_reducible apply Steady.upd))

theorem exec_recode_steady h c e (s : State) :
    ∃ s', exec (.recode h c e) s = .next s' ∧ Steady s s' := by
  refine ⟨_, rfl, ?_⟩
  repeat' (first
    | with_reducible exact Steady.refl _ | (with_reducible apply Steady.after (recodeNow_steady _ _ _ _)) | split
    | (with_reducible apply Steady.upd))

theorem exec_stateStep_steady h c e (s : State) :
    ∃ s', exec (.stateStep h c e) s = .next s' ∧ Steady s s' := by
  refine ⟨_, rfl, ?_⟩
  repeat' (first
    | with_reducible exact Steady.refl _ | (with_reducible apply Steady.after (stateWork_steady _ _ _ _ _))
    | (with_reducible apply Steady.after (State.admit_steady _ _ _ _ _ _ _ (fun _ _ _ => ?_))) | split
    | (with_reducible apply Steady.upd))

theorem exec_scoreTopk_steady h c e (s : State) :
    ∃ s', exec (.scoreTopk h c e) s = .next s' ∧ Steady s s' := by
  refine ⟨_, rfl, ?_⟩
  repeat' (first
    | with_reducible exact Steady.refl _ | (with_reducible apply Steady.after (scoreWork_steady _ _ _ _ _))
    | (with_reducible apply Steady.after (State.admit_steady _ _ _ _ _ _ _ (fun _ _ _ => ?_))) | split
    | (with_reducible apply Steady.upd))

theorem exec_place_steady h c e (s : State) :
    ∃ s', exec (.place h c e) s = .next s' ∧ Steady s s' := by
  refine ⟨_, rfl, ?_⟩
  repeat' (first
    | with_reducible exact Steady.refl _ | (with_reducible apply Steady.after (placeWork_steady _ _ _ _ _ _))
    | (with_reducible apply Steady.after (placeGo_steady _ _ _ _ _))
    | (with_reducible apply Steady.after (State.run_steady _ _ _ _ _ _ _ (fun _ _ => ?_) (fun _ _ _ => ?_))) | split
    | (with_reducible apply Steady.upd))

theorem exec_swapOut_steady h c e (s : State) :
    ∃ s', exec (.swapOut h c e) s = .next s' ∧ Steady s s' := by
  refine ⟨_, rfl, ?_⟩
  repeat' (first
    | with_reducible exact Steady.refl _ | (with_reducible apply Steady.after (swapOutWork_steady _ _ _ _ _ _))
    | (with_reducible apply Steady.after (swapOutStep_steady _ _ _ _ _))
    | (with_reducible apply Steady.after (State.run_steady _ _ _ _ _ _ _ (fun _ _ => ?_) (fun _ _ _ => ?_))) | split
    | (with_reducible apply Steady.upd))

theorem exec_swapIn_steady h c e (s : State) :
    ∃ s', exec (.swapIn h c e) s = .next s' ∧ Steady s s' := by
  refine ⟨_, rfl, ?_⟩
  repeat' (first
    | with_reducible exact Steady.refl _ | (with_reducible apply Steady.after (swapInWork_steady _ _ _ _ _))
    | (with_reducible apply Steady.after (swapInStep_steady _ _ _ _ _))
    | (with_reducible apply Steady.after (State.run_steady _ _ _ _ _ _ _ (fun _ _ => ?_) (fun _ _ _ => ?_))) | split
    | (with_reducible apply Steady.upd))

theorem exec_evictScore_steady h c e (s : State) :
    ∃ s', exec (.evictScore h c e) s = .next s' ∧ Steady s s' := by
  refine ⟨_, rfl, ?_⟩
  repeat' (first
    | with_reducible exact Steady.refl _ | (with_reducible apply Steady.after (evictScoreWork_steady _ _ _ _ _))
    | (with_reducible apply Steady.after (State.admit_steady _ _ _ _ _ _ _ (fun _ _ _ => ?_))) | split
    | (with_reducible apply Steady.upd))

theorem exec_deliverPages_steady h c e (s : State) :
    ∃ s', exec (.deliverPages h c e) s = .next s' ∧ Steady s s' := by
  refine ⟨_, rfl, ?_⟩
  repeat' (first
    | with_reducible exact Steady.refl _ | (with_reducible apply Steady.after (deliverWork_steady _ _ _ _ _ _))
    | (with_reducible apply Steady.after (State.admit_steady _ _ _ _ _ _ _ (fun _ _ _ => ?_)))
    | (with_reducible apply Steady.after (deliverStep_steady _ _ _ _ _)) | split | (with_reducible apply Steady.upd))

theorem exec_deliverDeadline_steady h (s : State) :
    ∃ s', exec (.deliverDeadline h) s = .next s' ∧ Steady s s' := by
  refine ⟨_, rfl, ?_⟩
  repeat' (first
    | with_reducible exact Steady.refl _ | (with_reducible apply Steady.after (deliverDeadline_steady _ _)) | split
    | (with_reducible apply Steady.upd))

theorem exec_loadCodebook_steady h c e (s : State) :
    ∃ s', exec (.loadCodebook h c e) s = .next s' ∧ Steady s s' := by
  refine ⟨_, rfl, ?_⟩
  repeat' (first
    | with_reducible exact Steady.refl _ | (with_reducible apply Steady.after (loadBookWork_steady _ _ _ _ _))
    | (with_reducible apply Steady.after (loadBookStep_steady _ _ _ _ _))
    | (with_reducible apply Steady.after (State.run_steady _ _ _ _ _ _ _ (fun _ _ => ?_) (fun _ _ _ => ?_))) | split
    | (with_reducible apply Steady.upd))

theorem exec_retireCodebook_steady h c e (s : State) :
    ∃ s', exec (.retireCodebook h c e) s = .next s' ∧ Steady s s' := by
  refine ⟨_, rfl, ?_⟩
  repeat' (first
    | with_reducible exact Steady.refl _ | (with_reducible apply Steady.after (retireBookWork_steady _ _ _ _ _))
    | (with_reducible apply Steady.after (State.admit_steady _ _ _ _ _ _ _ (fun _ _ _ => ?_))) | split
    | (with_reducible apply Steady.upd))

theorem exec_codebookSlotReload_steady h key c ok (s : State) :
    ∃ s', exec (.codebookSlotReload h key c ok) s = .next s' ∧ Steady s s' := by
  refine ⟨_, rfl, ?_⟩
  repeat' (first
    | with_reducible exact Steady.refl _ | (with_reducible apply Steady.after (codebookSlotReload_steady _ _ _ _ _)) | split
    | (with_reducible apply Steady.upd))

theorem exec_loadWeights_steady h c e (s : State) :
    ∃ s', exec (.loadWeights h c e) s = .next s' ∧ Steady s s' := by
  refine ⟨_, rfl, ?_⟩
  repeat' (first
    | with_reducible exact Steady.refl _ | (with_reducible apply Steady.after (loadSetWork_steady _ _ _ _ _))
    | (with_reducible apply Steady.after (loadSetStep_steady _ _ _ _ _))
    | (with_reducible apply Steady.after (State.run_steady _ _ _ _ _ _ _ (fun _ _ => ?_) (fun _ _ _ => ?_))) | split
    | (with_reducible apply Steady.upd))

theorem exec_loadWeightsRetire_steady h c e (s : State) :
    ∃ s', exec (.loadWeightsRetire h c e) s = .next s' ∧ Steady s s' := by
  refine ⟨_, rfl, ?_⟩
  repeat' (first
    | with_reducible exact Steady.refl _ | (with_reducible apply Steady.after (retireSetWork_steady _ _ _ _ _))
    | (with_reducible apply Steady.after (State.admit_steady _ _ _ _ _ _ _ (fun _ _ _ => ?_))) | split
    | (with_reducible apply Steady.upd))

theorem exec_txnBegin_steady h (s : State) :
    ∃ s', exec (.txnBegin h) s = .next s' ∧ Steady s s' := by
  refine ⟨_, rfl, ?_⟩
  repeat' (first
    | with_reducible exact Steady.refl _ | (with_reducible apply Steady.after (beginWork_steady _ _ _))
    | (with_reducible apply Steady.after (State.takeMarker_steady _ _ _ _ (fun _ _ => ?_))) | split
    | (with_reducible apply Steady.upd))

theorem exec_txnCommit_steady h (s : State) :
    ∃ s', exec (.txnCommit h) s = .next s' ∧ Steady s s' := by
  refine ⟨_, rfl, ?_⟩
  repeat' (first
    | with_reducible exact Steady.refl _ | (with_reducible apply Steady.after (closeWork_steady _ _ _ _))
    | (with_reducible apply Steady.after (State.takeMarker_steady _ _ _ _ (fun _ _ => ?_))) | split
    | (with_reducible apply Steady.upd))

theorem exec_txnAbort_steady h (s : State) :
    ∃ s', exec (.txnAbort h) s = .next s' ∧ Steady s s' := by
  refine ⟨_, rfl, ?_⟩
  repeat' (first
    | with_reducible exact Steady.refl _ | (with_reducible apply Steady.after (closeWork_steady _ _ _ _))
    | (with_reducible apply Steady.after (State.takeMarker_steady _ _ _ _ (fun _ _ => ?_))) | split
    | (with_reducible apply Steady.upd))

theorem exec_txnDecision_steady h txn (s : State) :
    ∃ s', exec (.txnDecision h txn) s = .next s' ∧ Steady s s' := by
  refine ⟨_, rfl, ?_⟩
  repeat' (first
    | with_reducible exact Steady.refl _ | (with_reducible apply Steady.after (txnDecision_steady _ _ _)) | split
    | (with_reducible apply Steady.upd))

theorem exec_txnTimeout_steady h ring (s : State) :
    ∃ s', exec (.txnTimeout h ring) s = .next s' ∧ Steady s s' := by
  refine ⟨_, rfl, ?_⟩
  repeat' (first
    | with_reducible exact Steady.refl _ | (with_reducible apply Steady.after (txnTimeout_steady _ _ _)) | split
    | (with_reducible apply Steady.upd))

theorem exec_dropRest_steady h (s : State) :
    ∃ s', exec (.dropRest h) s = .next s' ∧ Steady s s' := by
  refine ⟨_, rfl, ?_⟩
  repeat' (first
    | with_reducible exact Steady.refl _ | (with_reducible apply Steady.after (dropWork_steady _ _ _))
    | (with_reducible apply Steady.after (State.takeMarker_steady _ _ _ _ (fun _ _ => ?_))) | split
    | (with_reducible apply Steady.upd))

theorem exec_replayStart_steady r (s : State) :
    ∃ s', exec (.replayStart r) s = .next s' ∧ Steady s s' := by
  refine ⟨_, rfl, ?_⟩
  repeat' (first
    | with_reducible exact Steady.refl _ | (with_reducible apply Steady.after (replayStart_steady _ _)) | split
    | (with_reducible apply Steady.upd))

theorem exec_replayResult_steady replay out (s : State) :
    ∃ s', exec (.replayResult replay out) s = .next s' ∧ Steady s s' := by
  refine ⟨_, rfl, ?_⟩
  repeat' (first
    | with_reducible exact Steady.refl _ | (with_reducible apply Steady.after (replayResult_steady _ _ _)) | split
    | (with_reducible apply Steady.upd))

theorem exec_dramCorrectiveWriteback_steady c (s : State) :
    ∃ s', exec (.dramCorrectiveWriteback c) s = .next s' ∧ Steady s s' := by
  refine ⟨_, rfl, ?_⟩
  repeat' (first
    | with_reducible exact Steady.refl _ | (with_reducible apply Steady.keptBy (dramWriteback_kept _ _) (by decide)) | split
    | (with_reducible apply Steady.upd))

theorem exec_dmaReadCompletion_steady h tag result (s : State) :
    ∃ s', exec (.dmaReadCompletion h tag result) s = .next s' ∧ Steady s s' := by
  refine ⟨_, rfl, ?_⟩
  repeat' (first
    | with_reducible exact Steady.refl _ | (with_reducible apply Steady.after (dmaCompletion_steady _ _ _ _)) | split
    | (with_reducible apply Steady.upd))

theorem exec_dmaReadTimeout_steady h tag (s : State) :
    ∃ s', exec (.dmaReadTimeout h tag) s = .next s' ∧ Steady s s' := by
  refine ⟨_, rfl, ?_⟩
  repeat' (first
    | with_reducible exact Steady.refl _ | (with_reducible apply Steady.after (dmaTimeout_steady _ _ _)) | split
    | (with_reducible apply Steady.upd))

theorem exec_lease_steady h v (s : State) :
    ∃ s', exec (.lease h v) s = .next s' ∧ Steady s s' := by
  refine ⟨_, rfl, ?_⟩
  repeat' (first
    | with_reducible exact Steady.refl _ | (with_reducible apply Steady.after (leaseRow_steady _ _ _ _)) | split
    | (with_reducible apply Steady.upd))

theorem exec_release_steady h v (s : State) :
    ∃ s', exec (.release h v) s = .next s' ∧ Steady s s' := by
  refine ⟨_, rfl, ?_⟩
  repeat' (first
    | with_reducible exact Steady.refl _ | (with_reducible apply Steady.after (leaseRow_steady _ _ _ _)) | split
    | (with_reducible apply Steady.upd))

theorem exec_sealAcre_steady h v (s : State) :
    ∃ s', exec (.sealAcre h v) s = .next s' ∧ Steady s s' := by
  refine ⟨_, rfl, ?_⟩
  repeat' (first
    | with_reducible exact Steady.refl _ | (with_reducible apply Steady.after (leaseRow_steady _ _ _ _)) | split
    | (with_reducible apply Steady.upd))

theorem exec_grant_steady h v (s : State) :
    ∃ s', exec (.grant h v) s = .next s' ∧ Steady s s' := by
  refine ⟨_, rfl, ?_⟩
  repeat' (first
    | with_reducible exact Steady.refl _ | (with_reducible apply Steady.after (leaseRow_steady _ _ _ _)) | split
    | (with_reducible apply Steady.upd))

theorem exec_attach_steady h v (s : State) :
    ∃ s', exec (.attach h v) s = .next s' ∧ Steady s s' := by
  refine ⟨_, rfl, ?_⟩
  repeat' (first
    | with_reducible exact Steady.refl _ | (with_reducible apply Steady.after (leaseRow_steady _ _ _ _)) | split
    | (with_reducible apply Steady.upd))

theorem exec_revoke_steady h v (s : State) :
    ∃ s', exec (.revoke h v) s = .next s' ∧ Steady s s' := by
  refine ⟨_, rfl, ?_⟩
  repeat' (first
    | with_reducible exact Steady.refl _ | (with_reducible apply Steady.after (leaseRow_steady _ _ _ _)) | split
    | (with_reducible apply Steady.upd))

theorem exec_leaseRecallComplete_steady h (s : State) :
    ∃ s', exec (.leaseRecallComplete h) s = .next s' ∧ Steady s s' := by
  refine ⟨_, rfl, ?_⟩
  repeat' (first
    | with_reducible exact Steady.refl _ | (with_reducible apply Steady.after (leaseRecallComplete_steady _ _)) | split
    | (with_reducible apply Steady.upd))

theorem exec_acRenew_steady h mask (s : State) :
    ∃ s', exec (.acRenew h mask) s = .next s' ∧ Steady s s' := by
  refine ⟨_, rfl, ?_⟩
  repeat' (first
    | with_reducible exact Steady.refl _ | (with_reducible apply Steady.after (acRenew_steady _ _ _)) | split
    | (with_reducible apply Steady.upd))

theorem exec_leaseExpiry_steady h slot (s : State) :
    ∃ s', exec (.leaseExpiry h slot) s = .next s' ∧ Steady s s' := by
  refine ⟨_, rfl, ?_⟩
  repeat' (first
    | with_reducible exact Steady.refl _ | (with_reducible apply Steady.after (leaseExpiry_steady _ _ _)) | split
    | (with_reducible apply Steady.upd))

theorem exec_leaseDrainComplete_steady h slot (s : State) :
    ∃ s', exec (.leaseDrainComplete h slot) s = .next s' ∧ Steady s s' := by
  refine ⟨_, rfl, ?_⟩
  repeat' (first
    | with_reducible exact Steady.refl _ | (with_reducible apply Steady.after (leaseDrain_steady _ _ _)) | split
    | (with_reducible apply Steady.upd))

theorem exec_acreScrubComplete_steady h slot (s : State) :
    ∃ s', exec (.acreScrubComplete h slot) s = .next s' ∧ Steady s s' := by
  refine ⟨_, rfl, ?_⟩
  repeat' (first
    | with_reducible exact Steady.refl _ | (with_reducible apply Steady.after (acreScrub_steady _ _ _)) | split
    | (with_reducible apply Steady.upd))

theorem exec_acreRequestServe_steady h (s : State) :
    ∃ s', exec (.acreRequestServe h) s = .next s' ∧ Steady s s' := by
  refine ⟨_, rfl, ?_⟩
  repeat' (first
    | with_reducible exact Steady.refl _ | (with_reducible apply Steady.after (acreServe_steady _ _)) | split
    | (with_reducible apply Steady.upd))

theorem exec_biSnoopResponse_steady h off data (s : State) :
    ∃ s', exec (.biSnoopResponse h off data) s = .next s' ∧ Steady s s' := by
  refine ⟨_, rfl, ?_⟩
  repeat' (first
    | with_reducible exact Steady.refl _ | (with_reducible apply Steady.after (snoopResponse_steady _ _ _ _)) | split
    | (with_reducible apply Steady.upd))

theorem exec_biSnoopTimeout_steady h off (s : State) :
    ∃ s', exec (.biSnoopTimeout h off) s = .next s' ∧ Steady s s' := by
  refine ⟨_, rfl, ?_⟩
  repeat' (first
    | with_reducible exact Steady.refl _ | (with_reducible apply Steady.after (snoopTimeout_steady _ _ _)) | split
    | (with_reducible apply Steady.upd))

theorem exec_poisonMarkWrite_steady acre line (s : State) :
    ∃ s', exec (.poisonMarkWrite acre line) s = .next s' ∧ Steady s s' := by
  refine ⟨_, rfl, ?_⟩
  repeat' (first
    | with_reducible exact Steady.refl _ | (with_reducible apply Steady.keptBy (poisonMarkWrite_kept _ _ _) (by decide))
    | split | (with_reducible apply Steady.upd))

theorem exec_ringEnable_steady h kind ring ctl (s : State) :
    ∃ s', exec (.ringEnable h kind ring ctl) s = .next s' ∧ Steady s s' := by
  refine ⟨_, rfl, ?_⟩
  repeat' (first
    | with_reducible exact Steady.refl _ | (with_reducible apply Steady.after (ringEnable_steady _ _ _ _ _)) | split
    | (with_reducible apply Steady.upd))

theorem exec_ringDisable_steady h kind ring ctl (s : State) :
    ∃ s', exec (.ringDisable h kind ring ctl) s = .next s' ∧ Steady s s' := by
  refine ⟨_, rfl, ?_⟩
  repeat' (first
    | with_reducible exact Steady.refl _ | (with_reducible apply Steady.after (ringDisable_steady _ _ _ _ _)) | split
    | (with_reducible apply Steady.upd))

theorem exec_bufferEnable_steady h b ctl (s : State) :
    ∃ s', exec (.bufferEnable h b ctl) s = .next s' ∧ Steady s s' := by
  refine ⟨_, rfl, ?_⟩
  repeat' (first
    | with_reducible exact Steady.refl _ | (with_reducible apply Steady.after (bufferEnable_steady _ _ _ _)) | split
    | (with_reducible apply Steady.upd))

theorem exec_bufferDisable_steady h b ctl (s : State) :
    ∃ s', exec (.bufferDisable h b ctl) s = .next s' ∧ Steady s s' := by
  refine ⟨_, rfl, ?_⟩
  repeat' (first
    | with_reducible exact Steady.refl _ | (with_reducible apply Steady.after (bufferDisable_steady _ _ _ _)) | split
    | (with_reducible apply Steady.upd))

theorem exec_rcRegisterRead_steady h off size (s : State) :
    ∃ s', exec (.rcRegisterRead h off size) s = .next s' ∧ Steady s s' := by
  refine ⟨_, rfl, ?_⟩
  repeat' (first
    | with_reducible exact Steady.refl _ | (with_reducible apply Steady.after (registerRead_steady _ _ _ _)) | split
    | (with_reducible apply Steady.upd))

theorem exec_cxlLinkWidthChange_steady width rate (s : State) :
    ∃ s', exec (.cxlLinkWidthChange width rate) s = .next s' ∧ Steady s s' := by
  refine ⟨_, rfl, ?_⟩
  repeat' (first
    | with_reducible exact Steady.refl _ | (with_reducible apply Steady.after (linkWidthChange_steady _ _ _)) | split
    | (with_reducible apply Steady.upd))

theorem exec_spdmGetMeasurements_steady mailbox nonce (s : State) :
    ∃ s', exec (.spdmGetMeasurements mailbox nonce) s = .next s' ∧ Steady s s' := by
  refine ⟨_, rfl, ?_⟩
  repeat' (first
    | with_reducible exact Steady.refl _ | (with_reducible apply Steady.keptBy (getMeasurements_kept _ _ _) (by decide))
    | split | (with_reducible apply Steady.upd))

theorem exec_doeBegin_steady ld mode size (s : State) :
    ∃ s', exec (.doeBegin ld mode size) s = .next s' ∧ Steady s s' := by
  refine ⟨_, rfl, ?_⟩
  repeat' (first
    | with_reducible exact Steady.refl _ | (with_reducible apply Steady.keptBy (doeBegin_kept _ _ _ _) (by decide)) | split
    | (with_reducible apply Steady.upd))

theorem exec_doeData_steady ld load off len (s : State) :
    ∃ s', exec (.doeData ld load off len) s = .next s' ∧ Steady s s' := by
  refine ⟨_, rfl, ?_⟩
  repeat' (first
    | with_reducible exact Steady.refl _ | (with_reducible apply Steady.keptBy (doeData_kept _ _ _ _ _) (by decide)) | split
    | (with_reducible apply Steady.upd))

theorem exec_doeStatus_steady ld load (s : State) :
    ∃ s', exec (.doeStatus ld load) s = .next s' ∧ Steady s s' := by
  refine ⟨_, rfl, ?_⟩
  repeat' (first
    | with_reducible exact Steady.refl _ | (with_reducible apply Steady.keptBy (doeStatus_kept _ _ _) (by decide)) | split
    | (with_reducible apply Steady.upd))

theorem exec_doeCancel_steady ld load (s : State) :
    ∃ s', exec (.doeCancel ld load) s = .next s' ∧ Steady s s' := by
  refine ⟨_, rfl, ?_⟩
  repeat' (first
    | with_reducible exact Steady.refl _ | (with_reducible apply Steady.keptBy (doeCancel_kept _ _ _) (by decide)) | split
    | (with_reducible apply Steady.upd))

theorem exec_sessionHandshake_steady anchor family (s : State) :
    ∃ s', exec (.sessionHandshake anchor family) s = .next s' ∧ Steady s s' := by
  refine ⟨_, rfl, ?_⟩
  repeat' (first
    | with_reducible exact Steady.refl _ | (with_reducible apply Steady.keptBy (sessionHandshake_kept _ _ _) (by decide))
    | split | (with_reducible apply Steady.upd))

theorem exec_sessionIdleTimeout_steady session (s : State) :
    ∃ s', exec (.sessionIdleTimeout session) s = .next s' ∧ Steady s s' := by
  refine ⟨_, rfl, ?_⟩
  repeat' (first
    | with_reducible exact Steady.refl _ | (with_reducible apply Steady.keptBy (sessionIdle_kept _ _) (by decide)) | split
    | (with_reducible apply Steady.upd))

theorem exec_handshakeRefusalExpiry_steady (s : State) :
    ∃ s', exec (.handshakeRefusalExpiry) s = .next s' ∧ Steady s s' := by
  refine ⟨_, rfl, ?_⟩
  repeat' (first
    | with_reducible exact Steady.refl _ | (with_reducible apply Steady.keptBy (refusalExpiry_kept _) (by decide)) | split
    | (with_reducible apply Steady.upd))

theorem exec_statusProbe_steady nonce (s : State) :
    ∃ s', exec (.statusProbe nonce) s = .next s' ∧ Steady s s' := by
  refine ⟨_, rfl, ?_⟩
  repeat' (first
    | with_reducible exact Steady.refl _ | (with_reducible apply Steady.keptBy (statusProbe_kept _ _) (by decide)) | split
    | (with_reducible apply Steady.upd))

theorem exec_regRead_steady q off count (s : State) :
    ∃ s', exec (.regRead q off count) s = .next s' ∧ Steady s s' := by
  refine ⟨_, rfl, ?_⟩
  repeat' (first
    | with_reducible exact Steady.refl _ | (with_reducible apply Steady.keptBy (regRead_kept _ _ _ _) (by decide)) | split
    | (with_reducible apply Steady.upd))

theorem exec_loadBegin_steady q kind mode size (s : State) :
    ∃ s', exec (.loadBegin q kind mode size) s = .next s' ∧ Steady s s' := by
  refine ⟨_, rfl, ?_⟩
  repeat' (first
    | with_reducible exact Steady.refl _ | (with_reducible apply Steady.keptBy (loadBegin_kept _ _ _ _ _) (by decide))
    | split | (with_reducible apply Steady.upd))

theorem exec_loadData_steady q load off len (s : State) :
    ∃ s', exec (.loadData q load off len) s = .next s' ∧ Steady s s' := by
  refine ⟨_, rfl, ?_⟩
  repeat' (first
    | with_reducible exact Steady.refl _ | (with_reducible apply Steady.keptBy (loadData_kept _ _ _ _ _) (by decide)) | split
    | (with_reducible apply Steady.upd))

theorem exec_loadReceiveTimeout_steady (s : State) :
    ∃ s', exec (.loadReceiveTimeout) s = .next s' ∧ Steady s s' := by
  refine ⟨_, rfl, ?_⟩
  repeat' (first
    | with_reducible exact Steady.refl _ | (with_reducible apply Steady.keptBy (loadTimeout_kept _) (by decide)) | split
    | (with_reducible apply Steady.upd))

theorem exec_loadStatus_steady q load (s : State) :
    ∃ s', exec (.loadStatus q load) s = .next s' ∧ Steady s s' := by
  refine ⟨_, rfl, ?_⟩
  repeat' (first
    | with_reducible exact Steady.refl _ | (with_reducible apply Steady.keptBy (loadStatus_kept _ _ _) (by decide)) | split
    | (with_reducible apply Steady.upd))

theorem exec_loadCancel_steady q load (s : State) :
    ∃ s', exec (.loadCancel q load) s = .next s' ∧ Steady s s' := by
  refine ⟨_, rfl, ?_⟩
  repeat' (first
    | with_reducible exact Steady.refl _ | (with_reducible apply Steady.keptBy (loadCancel_kept _ _ _) (by decide)) | split
    | (with_reducible apply Steady.upd))

theorem exec_telemetry_steady q (s : State) :
    ∃ s', exec (.telemetry q) s = .next s' ∧ Steady s s' := by
  refine ⟨_, rfl, ?_⟩
  repeat' (first
    | with_reducible exact Steady.refl _ | (with_reducible apply Steady.after (telemetry_steady _ _)) | split
    | (with_reducible apply Steady.upd))

theorem exec_subscribe_steady q period notices (s : State) :
    ∃ s', exec (.subscribe q period notices) s = .next s' ∧ Steady s s' := by
  refine ⟨_, rfl, ?_⟩
  repeat' (first
    | with_reducible exact Steady.refl _ | (with_reducible apply Steady.keptBy (subscribe_kept _ _ _ _) (by decide)) | split
    | (with_reducible apply Steady.upd))

theorem exec_telemetryPeriod_steady session (s : State) :
    ∃ s', exec (.telemetryPeriod session) s = .next s' ∧ Steady s s' := by
  refine ⟨_, rfl, ?_⟩
  repeat' (first
    | with_reducible exact Steady.refl _ | (with_reducible apply Steady.after (telemetryPeriod_steady _ _)) | split
    | (with_reducible apply Steady.upd))

theorem exec_bbRead_steady q seq limit (s : State) :
    ∃ s', exec (.bbRead q seq limit) s = .next s' ∧ Steady s s' := by
  refine ⟨_, rfl, ?_⟩
  repeat' (first
    | with_reducible exact Steady.refl _ | (with_reducible apply Steady.keptBy (bbRead_kept _ _ _ _) (by decide)) | split
    | (with_reducible apply Steady.upd))

theorem exec_regionReset_steady q region result (s : State) :
    ∃ s', exec (.regionReset q region result) s = .next s' ∧ Steady s s' := by
  refine ⟨_, rfl, ?_⟩
  repeat' (first
    | with_reducible exact Steady.refl _ | (with_reducible apply Steady.keptBy (regionReset_kept _ _ _ _) (by decide))
    | split | (with_reducible apply Steady.upd))

theorem exec_setTime_steady q rtc (s : State) :
    ∃ s', exec (.setTime q rtc) s = .next s' ∧ Steady s s' := by
  refine ⟨_, rfl, ?_⟩
  repeat' (first
    | with_reducible exact Steady.refl _ | (with_reducible apply Steady.keptBy (setTime_kept _ _ _) (by decide)) | split
    | (with_reducible apply Steady.upd))

theorem exec_anchorEnroll_steady q a (s : State) :
    ∃ s', exec (.anchorEnroll q a) s = .next s' ∧ Steady s s' := by
  refine ⟨_, rfl, ?_⟩
  repeat' (first
    | with_reducible exact Steady.refl _ | (with_reducible apply Steady.keptBy (anchorEnroll_kept _ _ _) (by decide)) | split
    | (with_reducible apply Steady.upd))

theorem exec_anchorRemove_steady q a (s : State) :
    ∃ s', exec (.anchorRemove q a) s = .next s' ∧ Steady s s' := by
  refine ⟨_, rfl, ?_⟩
  repeat' (first
    | with_reducible exact Steady.refl _ | (with_reducible apply Steady.keptBy (anchorRemove_kept _ _ _) (by decide)) | split
    | (with_reducible apply Steady.upd))

theorem exec_floorRaise_steady q floor (s : State) :
    ∃ s', exec (.floorRaise q floor) s = .next s' ∧ Steady s s' := by
  refine ⟨_, rfl, ?_⟩
  repeat' (first
    | with_reducible exact Steady.refl _ | (with_reducible apply Steady.keptBy (floorRaise_kept _ _ _) (by decide)) | split
    | (with_reducible apply Steady.upd))

theorem exec_lifecycle_steady q target sealing (s : State) :
    ∃ s', exec (.lifecycle q target sealing) s = .next s' ∧ Steady s s' := by
  refine ⟨_, rfl, ?_⟩
  repeat' (first
    | with_reducible exact Steady.refl _ | (with_reducible apply Steady.keptBy (lifecycle_kept _ _ _ _) (by decide)) | split
    | (with_reducible apply Steady.upd))

theorem exec_debugChallenge_steady q (s : State) :
    ∃ s', exec (.debugChallenge q) s = .next s' ∧ Steady s s' := by
  refine ⟨_, rfl, ?_⟩
  repeat' (first
    | with_reducible exact Steady.refl _ | (with_reducible apply Steady.keptBy (debugChallenge_kept _ _) (by decide)) | split
    | (with_reducible apply Steady.upd))

theorem exec_debugToken_steady q t (s : State) :
    ∃ s', exec (.debugToken q t) s = .next s' ∧ Steady s s' := by
  refine ⟨_, rfl, ?_⟩
  repeat' (first
    | with_reducible exact Steady.refl _ | (with_reducible apply Steady.keptBy (debugToken_kept _ _ _) (by decide)) | split
    | (with_reducible apply Steady.upd))

theorem exec_selftestRun_steady q code (s : State) :
    ∃ s', exec (.selftestRun q code) s = .next s' ∧ Steady s s' := by
  refine ⟨_, rfl, ?_⟩
  repeat' (first
    | with_reducible exact Steady.refl _ | (with_reducible apply Steady.keptBy (selftestRun_kept _ _ _) (by decide)) | split
    | (with_reducible apply Steady.upd))

theorem exec_trainingStepComplete_steady p lanes (s : State) :
    ∃ s', exec (.trainingStepComplete p lanes) s = .next s' ∧ Steady s s' := by
  refine ⟨_, rfl, ?_⟩
  repeat' (first
    | with_reducible exact Steady.refl _ | (with_reducible apply Steady.after (trainingComplete_steady _ _ _)) | split
    | (with_reducible apply Steady.upd))

theorem exec_trainingStepTimeout_steady p (s : State) :
    ∃ s', exec (.trainingStepTimeout p) s = .next s' ∧ Steady s s' := by
  refine ⟨_, rfl, ?_⟩
  repeat' (first
    | with_reducible exact Steady.refl _ | (with_reducible apply Steady.after (trainingTimeout_steady _ _)) | split
    | (with_reducible apply Steady.upd))

theorem exec_trainingRetry_steady p (s : State) :
    ∃ s', exec (.trainingRetry p) s = .next s' ∧ Steady s s' := by
  refine ⟨_, rfl, ?_⟩
  repeat' (first
    | with_reducible exact Steady.refl _ | (with_reducible apply Steady.keptBy (trainingRetry_kept _ _) (by decide)) | split
    | (with_reducible apply Steady.upd))

theorem exec_leagueRsp_steady p chk tag status failed (s : State) :
    ∃ s', exec (.leagueRsp p chk tag status failed) s = .next s' ∧ Steady s s' := by
  refine ⟨_, rfl, ?_⟩
  repeat' (first
    | with_reducible exact Steady.refl _ | (with_reducible apply Steady.after (leagueRsp_steady _ _ _ _ _)) | split
    | (with_reducible apply Steady.upd))

theorem exec_leagueRdata_steady p chk tag sector payload (s : State) :
    ∃ s', exec (.leagueRdata p chk tag sector payload) s = .next s' ∧ Steady s s' := by
  refine ⟨_, rfl, ?_⟩
  repeat' (first
    | with_reducible exact Steady.refl _ | (with_reducible apply Steady.after (leagueRdata_steady _ _ _ _ _ _)) | split
    | (with_reducible apply Steady.upd))

theorem exec_leagueCtrl_steady p ok c (s : State) :
    ∃ s', exec (.leagueCtrl p ok c) s = .next s' ∧ Steady s s' := by
  refine ⟨_, rfl, ?_⟩
  repeat' (first
    | with_reducible exact Steady.refl _ | (with_reducible apply Steady.keptBy (leagueCtrl_kept _ _ _ _) (by decide)) | split
    | (with_reducible apply Steady.upd))

theorem exec_leagueCtrlSend_steady p (s : State) :
    ∃ s', exec (.leagueCtrlSend p) s = .next s' ∧ Steady s s' := by
  refine ⟨_, rfl, ?_⟩
  repeat' (first
    | with_reducible exact Steady.refl _ | (with_reducible apply Steady.keptBy (leagueCtrlSend_kept _ _) (by decide)) | split
    | (with_reducible apply Steady.upd))

theorem exec_leagueReplayTimeout_steady p (s : State) :
    ∃ s', exec (.leagueReplayTimeout p) s = .next s' ∧ Steady s s' := by
  refine ⟨_, rfl, ?_⟩
  repeat' (first
    | with_reducible exact Steady.refl _ | (with_reducible apply Steady.keptBy (leagueReplayTimeout_kept _ _) (by decide))
    | split | (with_reducible apply Steady.upd))

theorem exec_leagueIdleTimeout_steady p (s : State) :
    ∃ s', exec (.leagueIdleTimeout p) s = .next s' ∧ Steady s s' := by
  refine ⟨_, rfl, ?_⟩
  repeat' (first
    | with_reducible exact Steady.refl _ | (with_reducible apply Steady.keptBy (leagueIdle_kept _ _) (by decide)) | split
    | (with_reducible apply Steady.upd))

theorem exec_leagueCommandTimeout_steady p tag (s : State) :
    ∃ s', exec (.leagueCommandTimeout p tag) s = .next s' ∧ Steady s s' := by
  refine ⟨_, rfl, ?_⟩
  repeat' (first
    | with_reducible exact Steady.refl _ | (with_reducible apply Steady.after (leagueTimeout_steady _ _ _)) | split
    | (with_reducible apply Steady.upd))

theorem exec_laneFault_steady p lane (s : State) :
    ∃ s', exec (.laneFault p lane) s = .next s' ∧ Steady s s' := by
  refine ⟨_, rfl, ?_⟩
  repeat' (first
    | with_reducible exact Steady.refl _ | (with_reducible apply Steady.keptBy (laneFault_kept _ _ _) (by decide)) | split
    | (with_reducible apply Steady.upd))

theorem exec_symbolErrorWindow_steady p lane errors (s : State) :
    ∃ s', exec (.symbolErrorWindow p lane errors) s = .next s' ∧ Steady s s' := by
  refine ⟨_, rfl, ?_⟩
  repeat' (first
    | with_reducible exact Steady.refl _ | (with_reducible apply Steady.keptBy (symbolWindow_kept _ _ _ _) (by decide))
    | split | (with_reducible apply Steady.upd))

theorem exec_holdupOk_steady (s : State) :
    ∃ s', exec (.holdupOk) s = .next s' ∧ Steady s s' := by
  refine ⟨_, rfl, ?_⟩
  repeat' (first
    | with_reducible exact Steady.refl _ | (with_reducible apply Steady.keptBy (holdupOk_kept _) (by decide)) | split
    | (with_reducible apply Steady.upd))

theorem exec_cxlLinkUp_steady width rate (s : State) :
    ∃ s', exec (.cxlLinkUp width rate) s = .next s' ∧ Steady s s' := by
  refine ⟨_, rfl, ?_⟩
  repeat' (first
    | with_reducible exact Steady.refl _ | (with_reducible apply Steady.keptBy (linkUp_kept _ _ _) (by decide)) | split
    | (with_reducible apply Steady.upd))

theorem exec_ideStreamEstablished_steady stream (s : State) :
    ∃ s', exec (.ideStreamEstablished stream) s = .next s' ∧ Steady s s' := by
  refine ⟨_, rfl, ?_⟩
  repeat' (first
    | with_reducible exact Steady.refl _ | (with_reducible apply Steady.keptBy (ideUp_kept _ _) (by decide)) | split
    | (with_reducible apply Steady.upd))

theorem exec_phyIntN_steady answered (s : State) :
    ∃ s', exec (.phyIntN answered) s = .next s' ∧ Steady s s' := by
  refine ⟨_, rfl, ?_⟩
  repeat' (first
    | with_reducible exact Steady.refl _ | (with_reducible apply Steady.keptBy (phyInt_kept _ _) (by decide)) | split
    | (with_reducible apply Steady.upd))

theorem exec_sessionClose_steady session (s : State) :
    ∃ s', exec (.sessionClose session) s = .next s' ∧ Steady s s' := by
  refine ⟨_, rfl, ?_⟩
  repeat' (first
    | with_reducible exact Steady.refl _ | (with_reducible apply Steady.keptBy (sessionClose_kept _ _) (by decide)) | split
    | (with_reducible apply Steady.upd))

theorem exec_tapInstruction_steady op (s : State) :
    ∃ s', exec (.tapInstruction op) s = .next s' ∧ Steady s s' := by
  refine ⟨_, rfl, ?_⟩
  repeat' (first
    | with_reducible exact Steady.refl _ | (with_reducible apply Steady.keptBy (tapInstruction_kept _ _) (by decide)) | split
    | (with_reducible apply Steady.upd))

/-- A command that steers no hide leaves every core as it was. -/
theorem exec_steady (i : Instr) (hn : steers i = false) (s : State) : ∃ t, exec i s = .next t ∧ Steady s t := by
  cases i with
  | standbyStart  => exact exec_standbyStart_steady  s
  | resetRelease _ _ _ _ _ _ => cases hn
  | powerUpStepOverrun step => exact exec_powerUpStepOverrun_steady step s
  | powerLoss _ => cases hn
  | protectiveShutdown => cases hn
  | resetN => cases hn
  | vinSample vin iin => exact exec_vinSample_steady vin iin s
  | monitorFail  => exact exec_monitorFail_steady  s
  | sensorSample _ => cases hn
  | sensorTimeout sensor => exact exec_sensorTimeout_steady sensor s
  | leanReturnCount  => exact exec_leanReturnCount_steady  s
  | clockMonitorWindow _ => cases hn
  | regionClockWindow ppm => exact exec_regionClockWindow_steady ppm s
  | pllLossOfLock r => exact exec_pllLossOfLock_steady r s
  | entropyHealthFail  => exact exec_entropyHealthFail_steady  s
  | furlongCounterComplete r => exact exec_furlongCounterComplete_steady r s
  | boundaryMark r src low => exact exec_boundaryMark_steady r src low s
  | furlongStart _ => cases hn
  | boundaryLimit _ => cases hn
  | switchNotice  => exact exec_switchNotice_steady  s
  | drainLimit  => exact exec_drainLimit_steady  s
  | heldOutRotation c => exact exec_heldOutRotation_steady c s
  | screenPatternRun c phys pattern result => exact exec_screenPatternRun_steady c phys pattern result s
  | screenSummary  => exact exec_screenSummary_steady  s
  | bankGroupFaultRecord  => exact exec_bankGroupFaultRecord_steady  s
  | gateFurlongStart  => exact exec_gateFurlongStart_steady  s
  | policerRefill  => exact exec_policerRefill_steady  s
  | egressFrameStart link chain cycle => exact exec_egressFrameStart_steady link chain cycle s
  | cxlMemWrite ld off data poison writeBack cycle => exact exec_cxlMemWrite_steady ld off data poison writeBack cycle s
  | cxlMemRead ld off kind => exact exec_cxlMemRead_steady ld off kind s
  | cxlMemInv ld off => exact exec_cxlMemInv_steady ld off s
  | uioRead ld off => exact exec_uioRead_steady ld off s
  | uioWrite ld off data poison cycle => exact exec_uioWrite_steady ld off data poison cycle s
  | packetTake h => exact exec_packetTake_steady h s
  | packetTimeout h ring => exact exec_packetTimeout_steady h ring s
  | heldPostTimeout h => exact exec_heldPostTimeout_steady h s
  | queuePointerMismatch h kind ring => exact exec_queuePointerMismatch_steady h kind ring s
  | admitSeq h c e => exact exec_admitSeq_steady h c e s
  | admitSeqExtend h c e => exact exec_admitSeqExtend_steady h c e s
  | retireSeq h c e => exact exec_retireSeq_steady h c e s
  | forkPrefix h c e => exact exec_forkPrefix_steady h c e s
  | lookupPrefix h c e => exact exec_lookupPrefix_steady h c e s
  | lookupPrefixContinue h c e => exact exec_lookupPrefixContinue_steady h c e s
  | hashLaneDone h => exact exec_hashLaneDone_steady h s
  | publishPrefixCreate h c e => exact exec_publishPrefixCreate_steady h c e s
  | publishPrefixPromote h c e => exact exec_publishPrefixPromote_steady h c e s
  | publishPrefixWithdraw h c e => exact exec_publishPrefixWithdraw_steady h c e s
  | stepDecode h c e => exact exec_stepDecode_steady h c e s
  | fetchArrival h fetch => exact exec_fetchArrival_steady h fetch s
  | fetchDeadline h fetch => exact exec_fetchDeadline_steady h fetch s
  | deferReentry h c e => exact exec_deferReentry_steady h c e s
  | stepPrefill h c e => exact exec_stepPrefill_steady h c e s
  | stepBackward h c e => exact exec_stepBackward_steady h c e s
  | projectAppend h c e => exact exec_projectAppend_steady h c e s
  | recode h c e => exact exec_recode_steady h c e s
  | stateStep h c e => exact exec_stateStep_steady h c e s
  | scoreTopk h c e => exact exec_scoreTopk_steady h c e s
  | place h c e => exact exec_place_steady h c e s
  | swapOut h c e => exact exec_swapOut_steady h c e s
  | swapIn h c e => exact exec_swapIn_steady h c e s
  | evictScore h c e => exact exec_evictScore_steady h c e s
  | deliverPages h c e => exact exec_deliverPages_steady h c e s
  | deliverDeadline h => exact exec_deliverDeadline_steady h s
  | loadCodebook h c e => exact exec_loadCodebook_steady h c e s
  | retireCodebook h c e => exact exec_retireCodebook_steady h c e s
  | codebookSlotReload h key c ok => exact exec_codebookSlotReload_steady h key c ok s
  | loadWeights h c e => exact exec_loadWeights_steady h c e s
  | loadWeightsRetire h c e => exact exec_loadWeightsRetire_steady h c e s
  | txnBegin h => exact exec_txnBegin_steady h s
  | txnCommit h => exact exec_txnCommit_steady h s
  | txnAbort h => exact exec_txnAbort_steady h s
  | txnDecision h txn => exact exec_txnDecision_steady h txn s
  | txnTimeout h ring => exact exec_txnTimeout_steady h ring s
  | dropRest h => exact exec_dropRest_steady h s
  | replayStart r => exact exec_replayStart_steady r s
  | replayResult replay out => exact exec_replayResult_steady replay out s
  | dramCorrectiveWriteback c => exact exec_dramCorrectiveWriteback_steady c s
  | dmaReadCompletion h tag result => exact exec_dmaReadCompletion_steady h tag result s
  | dmaReadTimeout h tag => exact exec_dmaReadTimeout_steady h tag s
  | lease h v => exact exec_lease_steady h v s
  | release h v => exact exec_release_steady h v s
  | sealAcre h v => exact exec_sealAcre_steady h v s
  | grant h v => exact exec_grant_steady h v s
  | attach h v => exact exec_attach_steady h v s
  | revoke h v => exact exec_revoke_steady h v s
  | leaseRecallComplete h => exact exec_leaseRecallComplete_steady h s
  | acRenew h mask => exact exec_acRenew_steady h mask s
  | leaseExpiry h slot => exact exec_leaseExpiry_steady h slot s
  | leaseDrainComplete h slot => exact exec_leaseDrainComplete_steady h slot s
  | acreScrubComplete h slot => exact exec_acreScrubComplete_steady h slot s
  | acreRequestServe h => exact exec_acreRequestServe_steady h s
  | biSnoopResponse h off data => exact exec_biSnoopResponse_steady h off data s
  | biSnoopTimeout h off => exact exec_biSnoopTimeout_steady h off s
  | poisonMarkWrite acre line => exact exec_poisonMarkWrite_steady acre line s
  | hdmDecoderCommit _ _ _ _ _ => cases hn
  | ringEnable h kind ring ctl => exact exec_ringEnable_steady h kind ring ctl s
  | ringDisable h kind ring ctl => exact exec_ringDisable_steady h kind ring ctl s
  | bufferEnable h b ctl => exact exec_bufferEnable_steady h b ctl s
  | bufferDisable h b ctl => exact exec_bufferDisable_steady h b ctl s
  | jobkeyCreate _ _ => cases hn
  | jobkeyDestroy _ _ => cases hn
  | registerWrite _ _ _ _ _ => cases hn
  | rcRegisterRead h off size => exact exec_rcRegisterRead_steady h off size s
  | hideResetGo _ _ => cases hn
  | hideResetProceed _ => cases hn
  | hideResetEndingDone _ => cases hn
  | hideResetHeldTimeout _ => cases hn
  | hideResetKeysDone _ => cases hn
  | hideResetReleaseDone _ => cases hn
  | hideResetScrubDone _ => cases hn
  | flr _ => cases hn
  | cxlLinkDown => cases hn
  | cxlPerstN => cases hn
  | cxlLinkWidthChange width rate => exact exec_cxlLinkWidthChange_steady width rate s
  | ideIntegrityFail _ => cases hn
  | tspLock _ => cases hn
  | tspStart _ => cases hn
  | tspStop _ => cases hn
  | spdmGetMeasurements mailbox nonce => exact exec_spdmGetMeasurements_steady mailbox nonce s
  | doeBegin ld mode size => exact exec_doeBegin_steady ld mode size s
  | doeData ld load off len => exact exec_doeData_steady ld load off len s
  | doeEnd _ _ _ => cases hn
  | doeStatus ld load => exact exec_doeStatus_steady ld load s
  | doeCancel ld load => exact exec_doeCancel_steady ld load s
  | sessionHandshake anchor family => exact exec_sessionHandshake_steady anchor family s
  | sessionIdleTimeout session => exact exec_sessionIdleTimeout_steady session s
  | handshakeRefusalExpiry  => exact exec_handshakeRefusalExpiry_steady  s
  | statusProbe nonce => exact exec_statusProbe_steady nonce s
  | regRead q off count => exact exec_regRead_steady q off count s
  | regWrite _ _ _ _ => cases hn
  | loadBegin q kind mode size => exact exec_loadBegin_steady q kind mode size s
  | loadData q load off len => exact exec_loadData_steady q load off len s
  | loadEnd _ _ _ => cases hn
  | loadReceiveTimeout  => exact exec_loadReceiveTimeout_steady  s
  | loadStatus q load => exact exec_loadStatus_steady q load s
  | loadCancel q load => exact exec_loadCancel_steady q load s
  | telemetry q => exact exec_telemetry_steady q s
  | subscribe q period notices => exact exec_subscribe_steady q period notices s
  | telemetryPeriod session => exact exec_telemetryPeriod_steady session s
  | bbRead q seq limit => exact exec_bbRead_steady q seq limit s
  | hideReset _ _ _ => cases hn
  | deviceReset _ _ => cases hn
  | regionReset q region result => exact exec_regionReset_steady q region result s
  | setTime q rtc => exact exec_setTime_steady q rtc s
  | anchorEnroll q a => exact exec_anchorEnroll_steady q a s
  | anchorRemove q a => exact exec_anchorRemove_steady q a s
  | floorRaise q floor => exact exec_floorRaise_steady q floor s
  | lifecycle q target sealing => exact exec_lifecycle_steady q target sealing s
  | debugChallenge q => exact exec_debugChallenge_steady q s
  | debugToken q t => exact exec_debugToken_steady q t s
  | selftestRun q code => exact exec_selftestRun_steady q code s
  | trainingStepComplete p lanes => exact exec_trainingStepComplete_steady p lanes s
  | trainingStepTimeout p => exact exec_trainingStepTimeout_steady p s
  | trainingRetry p => exact exec_trainingRetry_steady p s
  | leagueRsp p chk tag status failed => exact exec_leagueRsp_steady p chk tag status failed s
  | leagueRdata p chk tag sector payload => exact exec_leagueRdata_steady p chk tag sector payload s
  | leagueCtrl p ok c => exact exec_leagueCtrl_steady p ok c s
  | leagueCtrlSend p => exact exec_leagueCtrlSend_steady p s
  | leagueReplayTimeout p => exact exec_leagueReplayTimeout_steady p s
  | leagueIdleTimeout p => exact exec_leagueIdleTimeout_steady p s
  | leagueCommandTimeout p tag => exact exec_leagueCommandTimeout_steady p tag s
  | laneFault p lane => exact exec_laneFault_steady p lane s
  | symbolErrorWindow p lane errors => exact exec_symbolErrorWindow_steady p lane errors s
  | holdupOk  => exact exec_holdupOk_steady  s
  | cxlLinkUp width rate => exact exec_cxlLinkUp_steady width rate s
  | ideStreamEstablished stream => exact exec_ideStreamEstablished_steady stream s
  | configurationWrite _ _ _ => cases hn
  | phyIntN answered => exact exec_phyIntN_steady answered s
  | sessionClose session => exact exec_sessionClose_steady session s
  | tapInstruction op => exact exec_tapInstruction_steady op s

end Sys2Proof.Machine
end

