-- ==== Sys2Proof/Laws/Answers.lean ====
section
/-!
SUPPORT. Lemmas on what an answer to a host or a peer queues, what a write to interface memory stores and what a read tracks.
-/

namespace Sys2Proof.Machine
open Sys2Proof

theorem tagHead_queues (s : State) (l h : Nat) : (s.tagHead l h).gates.queues = s.gates.queues := by
  unfold State.tagHead; dsimp only; split <;> rfl

theorem enqueue_queue (s : State) (l o : Nat) (b : Bool) (f : EgFrame) :
    (s.enqueue l o b f).gates.queues.get EgQueue.empty (egKey l o) =
      (let q := s.gates.queues.get EgQueue.empty (egKey l o); if b then { q with first := q.first ++ [f] } else { q with second := q.second ++ [f] }) := by
  unfold State.enqueue; dsimp only; split
  · rw [tagHead_queues]; simp
  · simp

theorem enqueue_first_mono (s : State) (l o : Nat) (b : Bool) (f g : EgFrame) (k : Nat) (h : g ∈ (s.gates.queues.get EgQueue.empty k).first) :
    g ∈ ((s.enqueue l o b f).gates.queues.get EgQueue.empty k).first := by
  by_cases e : k = egKey l o
  · subst e; rw [enqueue_queue]; dsimp only; split
    · simp [h]
    · exact h
  · unfold State.enqueue; dsimp only
    split
    · rw [tagHead_queues]; simpa [AMap.get_set_other _ _ _ e] using h
    · simpa [AMap.get_set_other _ _ _ e] using h

theorem answerWrite_first (s : State) (h off n : Nat) : ∃ f ∈ ((s.answerWrite h off false n).gates.queues.get EgQueue.empty (egKey 8 h)).first, f.body = .ndr off (devLoad n) := by
  refine ⟨⟨16, .ndr off (devLoad n)⟩, ?_, rfl⟩
  simp [State.answerWrite, enqueue_queue]

theorem storeLine_reads (s : State) (h off : Nat) (data : List Byte) (p : Bool) (c : Nat) (hl : data.length = 64) :
   (s.storeLine h off data p c).readMem h off 64 = data ∧ (∀ a, a < imemBase h off ∨ imemBase h off + 64 ≤ a → Memory.get (s.storeLine h off data p c).imem a = Memory.get s.imem a)
   ∧ (off ∈ ((s.storeLine h off data p c).hide h).a.poisonLines ↔ p = true) := by
  have e : (s.storeLine h off data p c).imem = (s.writeMem h off data).imem := by
    unfold State.storeLine; dsimp only; split <;> rfl
  refine ⟨?_, ?_, ?_⟩
  · unfold State.readMem; rw [e, ← hl]; exact Memory.read_write _ _ _
  · intro a ha; rw [e]; exact Memory.get_write_outside _ _ _ _ (by omega)
  · unfold State.storeLine; dsimp only; split
    · simp
    · simp

theorem answerWrite_hide (s : State) (h off n k : Nat) (b : Bool) : (s.answerWrite h off b n).hide k = s.hide k := by
  unfold State.answerWrite; split <;> simp

theorem answerWrite_imem (s : State) (h off n : Nat) (b : Bool) : (s.answerWrite h off b n).imem = s.imem := by
  unfold State.answerWrite; split <;> simp

theorem track_imem (s : State) (h off : Nat) (e : Bool) : (s.track h off e).imem = s.imem := (State.track_kept _ _ _ _).same .imem (by decide)

theorem untrack_imem (s : State) (h off : Nat) : (s.untrack h off).imem = s.imem := rfl

theorem answerWrite_gq (s : State) (h off n : Nat) (w : Bool) : ∃ f ∈ ((if w then (s.answerWrite h off false n).untrack h off else (s.answerWrite h off false n)).gates.queues.get EgQueue.empty (egKey 8 h)).first, f.body = .ndr off (devLoad n) := by
  obtain ⟨f, a, b⟩ := answerWrite_first s h off n
  exact ⟨f, by split <;> exact a, b⟩

theorem writeLine_spec (s : State) (h off : Nat) (data : List Byte) (p wb : Bool) (c n : Nat) (hl : data.length = 64) :
   let t := if wb then ((s.storeLine h off data p c).answerWrite h off false n).untrack h off else ((s.storeLine h off data p c).answerWrite h off false n)
   Apart h s t ∧ t.readMem h off 64 = data ∧
        (∀ a, a < imemBase h off ∨ imemBase h off + 64 ≤ a → Memory.get t.imem a = Memory.get s.imem a) ∧
        (off ∈ (t.hide h).a.poisonLines ↔ p = true) ∧
        (wb = true → ∀ d ∈ (t.hide h).a.dir, d.off ≠ off) ∧
        ∃ f ∈ (t.gates.queues.get EgQueue.empty (egKey 8 h)).first, f.body = .ndr off (devLoad n) := by
  intro t
  obtain ⟨r1, r2, r3⟩ := storeLine_reads s h off data p c hl
  have ha : Apart h s (s.storeLine h off data p c) := State.storeLine_apart _ _ _ _ _ _
  have hm : t.imem = (s.storeLine h off data p c).imem := by
    show (if wb then _ else _ : State).imem = _
    split
    · rw [untrack_imem, answerWrite_imem]
    · rw [answerWrite_imem]
  refine ⟨?_, ?_, ?_, ?_, ?_, answerWrite_gq _ _ _ _ _⟩
  · show Apart h s (if wb then _ else _)
    split
    · exact Apart.after (State.upA_apart _ _ _) (fun j hj => by rw [answerWrite_hide]; exact ha j hj)
    · exact (fun j hj => by rw [answerWrite_hide]; exact ha j hj)
  · unfold State.readMem; rw [hm]; exact r1
  · rw [hm]; exact r2
  · show (off ∈ ((if wb then _ else _ : State).hide h).a.poisonLines ↔ _)
    split
    · simp only [State.untrack, State.hide_upA, answerWrite_hide]; exact r3
    · rw [answerWrite_hide]; exact r3
  · intro hw; subst hw
    intro d hd
    simp only [t, State.untrack, State.hide_upA, List.mem_filter, if_true] at hd
    simpa using hd.2

theorem track_dir (s : State) (h off : Nat) (e : Bool) : (⟨off, e⟩ : DirLine) ∈ ((s.track h off e).hide h).a.dir := by
  unfold State.track; dsimp only
  split
  · rename_i hh
    simp only [State.hide_upA, List.mem_map]
    simp only [List.any_eq_true, beq_iff_eq] at hh
    obtain ⟨d, hd, e1⟩ := hh
    exact ⟨d, hd, by simp [e1]⟩
  · simp

theorem sendSnoop_first (s : State) (h off : Nat) (i : Bool) (w : SnoopFor) (g : EgFrame) (k : Nat) (m : g ∈ (s.gates.queues.get EgQueue.empty k).first) :
    g ∈ ((s.sendSnoop h off i w).gates.queues.get EgQueue.empty k).first := by
  unfold State.sendSnoop
  exact enqueue_first_mono _ _ _ _ _ _ _ m

theorem track_first (s : State) (h off : Nat) (e : Bool) (g : EgFrame) (k : Nat) (m : g ∈ (s.gates.queues.get EgQueue.empty k).first) :
    g ∈ ((s.track h off e).gates.queues.get EgQueue.empty k).first := by
  unfold State.track; dsimp only
  split
  · exact m
  · rw [State.upA_gates]
    repeat' (first | exact m | (apply sendSnoop_first) | (rw [State.upA_gates]) | split)

theorem answerRead_hide (s : State) (h off k : Nat) (d : List Byte) (p b u : Bool) (n : Nat) : (s.answerRead h off d p b u n).hide k = s.hide k := by
  unfold State.answerRead; split <;> simp

theorem answerRead_hides (s : State) (h off : Nat) (d : List Byte) (p b u : Bool) (n : Nat) : (s.answerRead h off d p b u n).hides = s.hides := by
  unfold State.answerRead; split <;> simp

theorem answerRead_imem (s : State) (h off : Nat) (d : List Byte) (p b u : Bool) (n : Nat) : (s.answerRead h off d p b u n).imem = s.imem := by
  unfold State.answerRead; split <;> simp

end Sys2Proof.Machine
end

