-- ==== Sys2Proof/Laws/PowerUp.lean ====
section
/-!
SUPPORT. Lemmas on one step and what it keeps, the folds of power-up, and what losing the always-on well wipes.
-/

namespace Sys2Proof.Machine
open Sys2Proof

theorem stepKept (s t : State) (h : step s = .next t) : (s.pending = [] ∧ t = s) ∨ ∃ c rest, s.pending = c :: rest ∧ Kept (touches c) { s with pending := rest } t := by
  cases hp : s.pending with
  | nil => simp [step, hp] at h; exact Or.inl ⟨rfl, h.symm⟩
  | cons c r =>
    simp only [step, hp] at h
    obtain ⟨u, e, k⟩ := exec_kept c { s with pending := r }
    rw [e] at h; injection h with h; subst h
    exact Or.inr ⟨c, r, rfl, k⟩

theorem draw_fold (s : State) : ∀ n : Nat,
    let t := (List.range n).foldl (fun (s : State) h => (s.draw.1).upK h (fun k => { k with root := s.draw.2 })) s
    t.dex.draws = s.dex.draws + n ∧ (∀ h < n, (t.hide h).k.root = Config.drbg (s.dex.draws + h)) ∧
    t.power = s.power ∧ t.mgmt = s.mgmt ∧ t.box = s.box ∧ t.resetPin = s.resetPin ∧ t.dex.sessionRoot = s.dex.sessionRoot ∧
    t.dex.testDone = s.dex.testDone ∧ t.dex.error = s.dex.error := by
  intro n
  induction n with
  | zero => simp
  | succ n ih =>
    rw [List.range_succ, List.foldl_append]
    simp only [List.foldl_cons, List.foldl_nil]
    obtain ⟨h1, h2, h3⟩ := ih
    refine ⟨?_, ?_, h3⟩
    · exact congrArg (· + 1) h1
    · intro h hh
      by_cases e : h = n
      · subst e; rw [State.hide_upK]; exact congrArg Config.drbg h1
      · rw [State.hide_upK_other _ _ e]; exact h2 h (by omega)

theorem fail_fold (l : List Nat) : ∀ (s : State) (r : Nat), r ∈ l → 
    ((l.foldl (fun (s : State) r => s.upRegion r (fun x => { x with failed := true, xtsFail := true })) s).region r).failed = true ∧
    ((l.foldl (fun (s : State) r => s.upRegion r (fun x => { x with failed := true, xtsFail := true })) s).region r).xtsFail = true := by
  have keep : ∀ (l : List Nat) (s : State) (r : Nat), (s.region r).failed = true ∧ (s.region r).xtsFail = true → 
    ((l.foldl (fun (s : State) r => s.upRegion r (fun x => { x with failed := true, xtsFail := true })) s).region r).failed = true ∧
    ((l.foldl (fun (s : State) r => s.upRegion r (fun x => { x with failed := true, xtsFail := true })) s).region r).xtsFail = true := by
    intro l; induction l with
    | nil => intro s r h; exact h
    | cons a l ih =>
      intro s r h; apply ih
      by_cases e : r = a
      · subst e; simp
      · rw [State.region_upRegion_other _ _ e]; exact h
  induction l with
  | nil => simp
  | cons a l ih =>
    intro s r h
    simp only [List.mem_cons] at h
    rcases h with rfl | h
    · exact keep l _ _ (by simp)
    · exact ih _ r h

theorem strap (a b c : BitVec 6) : ∀ i < 6, (strapValue a b c).getLsbD i =
        if a.getLsbD i = b.getLsbD i ∧ b.getLsbD i = c.getLsbD i then a.getLsbD i else true := by
  intro i hi; show (a ||| (b ^^^ c) ||| (a ^^^ b)).getLsbD i = _; rw [BitVec.getLsbD_or, BitVec.getLsbD_or, BitVec.getLsbD_xor, BitVec.getLsbD_xor]
  cases a.getLsbD i <;> cases b.getLsbD i <;> cases c.getLsbD i <;> simp

theorem lose (s : State) (h : s.power.st = .running) (k : Nat) : Wiped (s.loseSupply k) ∧ StoresKept s (s.loseSupply k) ∧ (s.loseSupply k).power.st = .lost ∧
      (s.loseSupply k).power.holdup = false ∧ (s.loseSupply k).power.cause = k ∧
      Logged s (s.loseSupply k) recPower (agent 15) 0xFF [7, k] := by
  have e : s.loseSupply k = { (s.record recPower (agent 15) 0xFF [7, k]).deviceReset k with power := { ((s.record recPower (agent 15) 0xFF [7, k]).deviceReset k).power with st := .lost, holdup := false } } := by
    simp [State.loseSupply, h]
  rw [e]
  refine ⟨by simp [Wiped, State.deviceReset, State.reset, Dex.reset, Mgmt.reset], ?_, rfl, rfl, rfl, ?_⟩
  · refine ⟨rfl, rfl, rfl, rfl, rfl, ?_, rfl, rfl, rfl⟩
    exact State.record_ack _ _ _ _ _
  · obtain ⟨r, m, e1, e⟩ := State.record_mem s recPower (agent 15) 0xFF [7, k]
    exact ⟨r, m, by omega, e⟩

end Sys2Proof.Machine
end

