-- ==== Sys2Proof/Laws/Alerts.lean ====
section
/-!
SUPPORT. Lemmas on what judging power and setting an alert keep, and the folds over regions and dies of a sensor reading.
-/

namespace Sys2Proof.Machine
open Sys2Proof

theorem amap_map {α : Type} (d : α) (f : α → α) (hd : f d = d) (m : AMap α) (k : Nat) :
    AMap.get d (m.map (fun x => (x.1, f x.2))) k = f (AMap.get d m k) := by
  induction m with
  | nil => simp [AMap.get, hd]
  | cons p t ih => obtain ⟨a, b⟩ := p; simp only [List.map_cons, AMap.get]; split <;> simp [*]

theorem judge_power (s : State) : s.judge.power = s.power := (State.judge_kept s).same .power (by decide)

theorem judge_mgmt (s : State) : s.judge.mgmt = s.mgmt := (State.judge_kept s).same .mgmt (by decide)

theorem judge_hides (s : State) : s.judge.hides = s.hides := (State.judge_kept s).same .hides (by decide)

theorem judge_box (s : State) : s.judge.box = s.box := (State.judge_kept s).same .box (by decide)

theorem judge_regions (s : State) : s.judge.regions = s.regions := (State.judge_kept s).same .regions (by decide)

theorem judge_sensors (s : State) : s.judge.sensors = s.sensors := (State.judge_kept s).same .sensors (by decide)

theorem judge_clocks (s : State) : s.judge.clocks = s.clocks := (State.judge_kept s).same .clocks (by decide)

structure AlertKeeps (s t : State) : Prop where
  vin : t.power.vin = s.power.vin
  iin : t.power.iin = s.power.iin
  mon : t.power.monFailed = s.power.monFailed
  vins : t.power.vins = s.power.vins
  ticks : t.power.ticks = s.power.ticks
  st : t.power.st = s.power.st
  alert : ∀ i, s.power.alert.getLsbD i = true → t.power.alert.getLsbD i = true
  rtc : t.mgmt.rtc = s.mgmt.rtc
  hides : t.hides = s.hides

theorem AlertKeeps.refl (s : State) : AlertKeeps s s := ⟨rfl, rfl, rfl, rfl, rfl, rfl, fun _ h => h, rfl, rfl⟩

theorem AlertKeeps.trans {s t u : State} (a : AlertKeeps s t) (b : AlertKeeps t u) : AlertKeeps s u :=
  ⟨b.vin.trans a.vin, b.iin.trans a.iin, b.mon.trans a.mon, b.vins.trans a.vins, b.ticks.trans a.ticks, b.st.trans a.st,
   fun i h => b.alert i (a.alert i h), b.rtc.trans a.rtc, b.hides.trans a.hides⟩

theorem setAlert_keeps (s : State) (i kind v : Nat) : AlertKeeps s (s.setAlert i kind v) := by
  unfold State.setAlert; split
  · exact AlertKeeps.refl s
  · exact ⟨rfl, rfl, rfl, rfl, rfl, rfl, fun j h => by simp [h], rfl, rfl⟩

theorem setAlert_bit (s : State) (i kind v : Nat) (hi : i < 32) : (s.setAlert i kind v).power.alert.getLsbD i = true := by
  unfold State.setAlert; split
  · assumption
  · show (s.power.alert ||| BitVec.ofNat 32 (2 ^ i)).getLsbD i = true
    rw [BitVec.getLsbD_or, BitVec.getLsbD_ofNat, Nat.testBit_two_pow_self]
    simp [hi]

theorem judge_keeps (s : State) : AlertKeeps s s.judge := 
  ⟨by rw [judge_power], by rw [judge_power], by rw [judge_power], by rw [judge_power], by rw [judge_power], by rw [judge_power], fun i h => by rw [judge_power]; exact h, by rw [judge_mgmt], judge_hides s⟩

theorem ite_keeps {c : Prop} [Decidable c] {s a : State} (h : AlertKeeps s a) : AlertKeeps s (if c then a else s) := by
  split
  · exact h
  · exact AlertKeeps.refl s

theorem vinSample_alert (s : State) (v i : BitVec 16) (h : s.power.st ≠ .off) (hv : v.toNat ≤ 7000) (hi : i.toNat ≤ 8000) :
    let s0 : State := { s.tick with power := { s.tick.power with vin := v, iin := i, monFailed := false, vins := (v.toNat :: s.power.vins).take 4 } }
    AlertKeeps s0 (vinSample v i s) ∧ (6100 < v.toNat → (vinSample v i s).power.alert.getLsbD 0 = true) := by
  intro s0
  unfold vinSample
  rw [if_neg (by simpa using h)]
  dsimp only
  rw [if_neg (by omega)]
  have e : ({ s.tick with power := { s.tick.power with vin := v, iin := i, monFailed := false, vins := (v.toNat :: s.tick.power.vins).take 4 } } : State) = s0 := rfl
  rw [e]
  have m (s : State) : AlertKeeps s (if s.up = true then { s with power := s.power.measure s.abs v.toNat i.toNat } else s) := by
    apply ite_keeps
    unfold Power.measure; dsimp only; split <;> exact ⟨rfl, rfl, rfl, rfl, rfl, rfl, fun _ h => h, rfl, rfl⟩
  have a : AlertKeeps s0 (if 6100 < v.toNat then s0.setAlert 0 3 v.toNat else s0) := ite_keeps (setAlert_keeps _ _ _ _)
  constructor
  · exact ((a.trans (m _)).trans (ite_keeps (setAlert_keeps _ _ _ _))).trans (judge_keeps _)
  · intro hh
    apply (((m _).trans (ite_keeps (setAlert_keeps _ _ _ _))).trans (judge_keeps _)).alert
    rw [if_pos hh]; exact setAlert_bit _ _ _ _ (by decide)

theorem hot_fold (l : List Nat) (hl : l.Nodup) : ∀ (s : State), 
   let t := forAll s l (fun s r =>
      let hot := hotFlag (s.region r).hot (s.dramTemp r)
      if hot == (s.region r).hot then s else s.upRegion r (fun x => { x with hot := hot }))
   t.sensors = s.sensors ∧ t.clocks = s.clocks ∧ t.power = s.power ∧ (∀ r ∈ l, (t.region r).hot = hotFlag (s.region r).hot (s.dramTemp r)) ∧ (∀ r, r ∉ l → t.region r = s.region r) := by
  induction l with
  | nil => intro s; exact ⟨rfl, rfl, rfl, by simp, by simp [forAll]⟩
  | cons a l ih =>
    intro s
    simp only [List.nodup_cons] at hl
    have step : forAll s (a :: l) (fun s r =>
      let hot := hotFlag (s.region r).hot (s.dramTemp r)
      if hot == (s.region r).hot then s else s.upRegion r (fun x => { x with hot := hot })) =
      forAll (if hotFlag (s.region a).hot (s.dramTemp a) == (s.region a).hot then s else s.upRegion a (fun x => { x with hot := hotFlag (s.region a).hot (s.dramTemp a) })) l (fun s r =>
      let hot := hotFlag (s.region r).hot (s.dramTemp r)
      if hot == (s.region r).hot then s else s.upRegion r (fun x => { x with hot := hot })) := rfl
    simp only [step]
    generalize hs1 : (if hotFlag (s.region a).hot (s.dramTemp a) == (s.region a).hot then s else s.upRegion a (fun x => { x with hot := hotFlag (s.region a).hot (s.dramTemp a) })) = s1
    have e1 : s1.sensors = s.sensors := by subst hs1; split <;> rfl
    have e2 : s1.clocks = s.clocks := by subst hs1; split <;> rfl
    have e5 : s1.power = s.power := by subst hs1; split <;> rfl
    have e3 : ∀ r, r ≠ a → s1.region r = s.region r := by
      intro r hr; subst hs1; split
      · rfl
      · exact State.region_upRegion_other _ _ hr
    have e4 : (s1.region a).hot = hotFlag (s.region a).hot (s.dramTemp a) := by
      subst hs1; split
      · simp_all
      · simp
    have ed : ∀ r, s1.dramTemp r = s.dramTemp r := by intro r; simp [State.dramTemp, State.sensorFailed, State.sensor, e1, e2]
    obtain ⟨i1, i2, i0, i3, i4⟩ := ih hl.2 s1
    refine ⟨i1.trans e1, i2.trans e2, i0.trans e5, ?_, ?_⟩
    · intro r hr
      simp only [List.mem_cons] at hr
      by_cases h : r = a
      · subst h; rw [i4 _ hl.1]; exact e4
      · have hr' : r ∈ l := by rcases hr with h' | h'; exact absurd h' h; exact h'
        rw [i3 r hr', ed, e3 r h]
    · intro r hr
      simp only [List.mem_cons, not_or] at hr
      rw [i4 r hr.2, e3 r hr.1]

theorem judge_region (s : State) (r : Nat) : s.judge.region r = s.region r := by simp [State.region, judge_regions]

theorem judge_sensor (s : State) (r : Nat) : s.judge.sensor r = s.sensor r := by simp [State.sensor, judge_sensors]

theorem judge_dram (s : State) (r : Nat) : s.judge.dramTemp r = s.dramTemp r := by simp [State.dramTemp, State.sensorFailed, judge_sensor, judge_clocks]

theorem failRegion_failed (s : State) (r c : Nat) : ((s.failRegion r c).region r).failed = true := by
  unfold State.failRegion; split
  · assumption
  · simp

theorem failRegion_other (s : State) (r c j : Nat) (h : j ≠ r) : (s.failRegion r c).region j = s.region j := by
  unfold State.failRegion; split
  · rfl
  · simp [State.region_upRegion_other, h]

theorem failRegion_rest (s : State) (r c : Nat) : ((s.failRegion r c).region r) = { s.region r with failed := true } := by
  unfold State.failRegion; split
  · cases h : s.region r; simp_all
  · simp

theorem die_fold (l : List Nat) : ∀ s : State, 
   let t := forAll s l (fun s r => (s.upRegion r (fun x => { x with lockLost := true })).failRegion r 13)
   ∀ r, (((s.region r).failed = true ∧ (s.region r).lockLost = true) ∨ r ∈ l) → (t.region r).failed = true ∧ (t.region r).lockLost = true := by
  induction l with
  | nil => intro s; simp [forAll]
  | cons a l ih =>
    intro s t r h
    apply ih ((s.upRegion a (fun x => { x with lockLost := true })).failRegion a 13)
    by_cases e : r = a
    · subst e; left; rw [failRegion_rest]; simp
    · rcases h with h | h
      · left; rw [failRegion_other _ _ _ _ e, State.region_upRegion_other _ _ e]; exact h
      · simp only [List.mem_cons] at h; rcases h with h | h
        · exact absurd h e
        · right; exact h

end Sys2Proof.Machine
end

