-- ==== Sys2Proof/Laws/Boundaries.lean ====
section
/-!
SUPPORT. Lemmas on what starting a furlong and a late mark do to the regions.
-/

namespace Sys2Proof.Machine
open Sys2Proof

theorem not_neighbour : ∀ r : Fin 64, r.val ∉ neighbours r.val := by decide

theorem startFurlong_region (s : State) (r : Nat) (h : (s.region r).index + 1 ≠ BitVec.ofNat 48 (s.furlongNow + 1)) :
    s.startFurlong r = s.upRegion r (fun x => { x with index := x.index + 1, done := false, marks := x.early, early := [] }) := by
  unfold State.startFurlong; dsimp only
  rw [if_neg]; simpa using h

theorem late_fold (l : List Nat) : ∀ (s : State) (r : Nat), r ∉ l → ((l.foldl State.lateMark s).region r) = s.region r ∧ (l.foldl State.lateMark s).furlongNow = s.furlongNow := by
  induction l with
  | nil => intro s r _; exact ⟨rfl, rfl⟩
  | cons a l ih =>
    intro s r h
    simp only [List.mem_cons, not_or] at h
    obtain ⟨i1, i2⟩ := ih (s.lateMark a) r h.2
    simp only [List.foldl_cons]
    rw [i1, i2]
    have f1 : ∀ (u : State) (q c : Nat), q ≠ r → (u.failRegion q c).region r = u.region r := by
      intro u q c e; unfold State.failRegion; split
      · rfl
      · simp [State.region_upRegion_other _ _ (Ne.symm e)]
    have f2 : ∀ (u : State) (q c : Nat), (u.failRegion q c).furlongNow = u.furlongNow := by
      intro u q c; unfold State.failRegion; split
      · rfl
      · unfold State.trigger; dsimp only; split <;> rfl
    have g : ∀ (l : List Nat), ((if 4 ≤ l.length then (s.upRegion a fun x => { x with lateAt := l }).failRegion a 13 else (s.upRegion a fun x => { x with lateAt := l })).region r = s.region r) ∧
       ((if 4 ≤ l.length then (s.upRegion a fun x => { x with lateAt := l }).failRegion a 13 else (s.upRegion a fun x => { x with lateAt := l })).furlongNow = s.furlongNow) := by
      intro l; split
      · rw [f1 _ _ _ (Ne.symm h.1), f2]; exact ⟨State.region_upRegion_other _ _ h.1, rfl⟩
      · exact ⟨State.region_upRegion_other _ _ h.1, rfl⟩
    exact g _

theorem boundary_plan (s : State) (hs : s.plan.staged = none) (hn : ∀ w ∈ s.plan.notices, s.furlongNow + 1 < w.1) :
    s.boundary.plan = { s.plan with
          furlong := if s.plan.ream.isSome then s.plan.furlong + 1 else s.plan.furlong
          base := if s.plan.ream.isSome then s.plan.base else s.plan.base + 1 } := by
  unfold State.boundary; dsimp only
  have e1 : ((((s.passRegions (s.furlongNow + 1)).countRun.endMaintenance).enterFurlong (s.furlongNow + 1)).lapChains (s.furlongNow + 1)).resetsGoOn.plan =
     (((s.passRegions (s.furlongNow + 1)).countRun.endMaintenance).enterFurlong (s.furlongNow + 1)).plan := by
    refine Eq.trans ((State.resetsGoOn_kept _).same .plan (by decide)) ((State.lapChains_kept _ _).same .plan (by decide))
  have e0 : ((s.passRegions (s.furlongNow + 1)).countRun.endMaintenance).plan = s.plan := 
    Eq.trans ((State.endMaintenance_kept _).same .plan (by decide)) (Eq.trans ((State.countRun_kept _).same .plan (by decide)) ((State.passRegions_kept _ _).same .plan (by decide)))
  have e2 : (((s.passRegions (s.furlongNow + 1)).countRun.endMaintenance).enterFurlong (s.furlongNow + 1)).plan = { s.plan with
          furlong := if s.plan.ream.isSome then s.plan.furlong + 1 else s.plan.furlong
          base := if s.plan.ream.isSome then s.plan.base else s.plan.base + 1 } := by
    generalize ((s.passRegions (s.furlongNow + 1)).countRun.endMaintenance) = w at e0 ⊢
    simp only [State.enterFurlong, e0, State.furlongNow]
    split <;> simp_all
  rw [e2] at e1
  generalize ((((s.passRegions (s.furlongNow + 1)).countRun.endMaintenance).enterFurlong (s.furlongNow + 1)).lapChains (s.furlongNow + 1)).resetsGoOn = u at *
  have d1 : u.dueAt (s.furlongNow + 1) = [] := by
    unfold State.dueAt; rw [e1]
    have : (s.plan.notices.filter (fun w => decide (w.1 ≤ s.furlongNow + 1))) = [] := by
      rw [List.filter_eq_nil_iff]; intro w hw; have := hn w hw; simp; omega
    simp only [this]; rfl
  have d2 : (u.applyDue (s.furlongNow + 1)).plan = u.plan := by
    unfold State.applyDue; rw [d1]
    have : (s.plan.notices.filter (fun w => decide (s.furlongNow + 1 < w.1))) = s.plan.notices := by
      rw [List.filter_eq_self]; intro w hw; simpa using hn w hw
    simp only [List.foldl_nil, e1, this]
  have d3 : (forAll (u.applyDue (s.furlongNow + 1)) (u.applyDue (s.furlongNow + 1)).present (fun v h => v.sectionStep ((u.dueAt (s.furlongNow + 1)).contains (.sect h)) (((List.range 16).filter s.busy).contains h) h)).plan = u.plan := by
    rw [← d2]
    exact (Kept.foldl (T := [.clusters, .hides, .imem, .gates, .ports, .dex, .mgmt, .box, .screen]) _ (fun v h => State.sectionStep_kept _ _ _ _) _ _).same .plan (by decide)
  generalize (forAll (u.applyDue (s.furlongNow + 1)) (u.applyDue (s.furlongNow + 1)).present (fun v h => v.sectionStep ((u.dueAt (s.furlongNow + 1)).contains (.sect h)) (((List.range 16).filter s.busy).contains h) h)) = v at *
  have : v.plan.staged = none := by rw [d3, e1]; exact hs
  unfold State.reamStep; rw [this]
  simp only []
  rw [d3, e1]

theorem fold_hide (l : List Nat) (hl : l.Nodup) (f : State → Nat → State) (g : HideSt → HideSt)
    (hf : ∀ s h, (f s h).hide h = g (s.hide h)) (ho : ∀ s h j, j ≠ h → (f s h).hide j = s.hide j) : ∀ s : State,
    ∀ h, (forAll s l f).hide h = if h ∈ l then g (s.hide h) else s.hide h := by
  induction l with
  | nil => intro s h; simp [forAll]
  | cons a l ih =>
    intro s h
    simp only [List.nodup_cons] at hl
    have := ih hl.2 (f s a) h
    change (forAll (f s a) l f).hide h = _
    rw [this]
    by_cases e : h = a
    · subst e; simp [hl.1, hf]
    · simp only [List.mem_cons, e, false_or, ho _ _ _ e]

end Sys2Proof.Machine
end

