-- ==== Sys2Proof/Laws/Resets.lean ====
section
/-!
SUPPORT. Lemmas on the phases of a hide's reset: keys, purge, reload, and what each keeps of a hide's core.
-/

namespace Sys2Proof.Machine
open Sys2Proof

theorem core_eq {a b : HideSt} (e : a.core = b.core) : a.lay = b.lay ∧ a.k.root = b.k.root ∧ a.k.tsp = b.k.tsp ∧ a.k.phase = b.k.phase ∧
    a.k.drain = b.k.drain ∧ a.k.cause = b.k.cause ∧ a.k.origin = b.k.origin := by
  simp only [HideSt.core, HideSt.Core.mk.injEq] at e
  exact ⟨e.1, e.2.2.1, e.2.2.2.1, e.2.2.2.2.1, e.2.2.2.2.2.1, e.2.2.2.2.2.2.1, e.2.2.2.2.2.2.2.1⟩

theorem purge_core (s : State) (h : Nat) : ((s.purge h).hide h).core = (s.hide h).core := State.purge_steady s h h

theorem beginKeys_spec (s : State) (h : Nat) : let a := (s.beginKeys h).hide h; let b := s.hide h;
    a.lay = b.lay ∧ a.k.root = Config.drbg s.dex.draws ∧ a.k.tsp = b.k.tsp ∧ a.k.phase = .keys ∧
    a.k.drain = b.k.drain ∧ a.k.cause = b.k.cause ∧ a.k.origin = b.k.origin := by
  have Q : ∀ u : State, (∀ x, x = u.hide h → x.lay = (s.hide h).lay ∧ x.k.root = Config.drbg s.dex.draws ∧ x.k.tsp = (s.hide h).k.tsp ∧ x.k.phase = .keys ∧
    x.k.drain = (s.hide h).k.drain ∧ x.k.cause = (s.hide h).k.cause ∧ x.k.origin = (s.hide h).k.origin) → let a := (u.purge h).hide h; let b := s.hide h;
    a.lay = b.lay ∧ a.k.root = Config.drbg s.dex.draws ∧ a.k.tsp = b.k.tsp ∧ a.k.phase = .keys ∧
    a.k.drain = b.k.drain ∧ a.k.cause = b.k.cause ∧ a.k.origin = b.k.origin := by
    intro u hu
    obtain ⟨e1,e2,e3,e4,e5,e6,e7⟩ := core_eq (purge_core u h)
    obtain ⟨f1,f2,f3,f4,f5,f6,f7⟩ := hu _ rfl
    exact ⟨e1.trans f1, e2.trans f2, e3.trans f3, e4.trans f4, e5.trans f5, e6.trans f6, e7.trans f7⟩
  unfold State.beginKeys
  dsimp only [State.draw]
  apply Q
  intro x hx
  rw [State.hide_upHide] at hx
  subst hx
  exact ⟨rfl,rfl,rfl,rfl,rfl,rfl,rfl⟩

theorem beginEnding_spec (s : State) (h : Nat) : let a := (s.beginEnding h).hide h; let b := s.hide h;
    a.lay = b.lay ∧ a.k.root = b.k.root ∧ a.k.tsp = b.k.tsp ∧ a.k.phase = .ending ∧
    a.k.drain = b.k.drain ∧ a.k.cause = b.k.cause ∧ a.k.origin = b.k.origin := by
  have e : ((s.beginEnding h).hide h).core = ((s.upHide h (fun x => { x with
    k := { x.k with phase := .ending }
    q := { x.q with noIntake := true, drainFrom := if x.k.drain then some s.plan.furlong else none } })).hide h).core := by
    unfold State.beginEnding
    dsimp only
    split
    · exact State.endQueued_steady _ _ _ h
    · exact State.endAll_steady _ _ _ h
  obtain ⟨e1,e2,e3,e4,e5,e6,e7⟩ := core_eq e
  intro a b
  simp only [a, b, e1,e2,e3,e4,e5,e6,e7, State.hide_upHide, and_self]

theorem keeps_phase {s t : State} (k : Steady s t) (j : Nat) : (t.hide j).k.phase = (s.hide j).k.phase := (core_eq (k j)).2.2.2.1

theorem nextFirst_k (s : State) (p : Nat) : (∀ j, (s.nextFirst p).hide j = s.hide j) ∧ (∀ q, (s.nextFirst p).port q = s.port q) := by
  unfold State.nextFirst
  dsimp only
  split
  · simp
  · split
    · simp
    · split
      · split <;> simp
      · simp
      · simp

def purgeStep (h : Nat) (s : State) (p : Nat) : State :=
    let (lba, n) := (s.hide h).allotment p
    let s := s.upPort p (fun q => { q with first := q.first ++ [.erase h] })
    (s.trimRange h p lba n).nextFirst p

theorem trimRange_k (s : State) (h p lba n : Nat) : ((s.trimRange h p lba n).hide h).k = (s.hide h).k ∧
   (∀ q, q ≠ p → (s.trimRange h p lba n).port q = s.port q) ∧ ∀ w ∈ (s.port p).first, w ∈ ((s.trimRange h p lba n).port p).first := by
  unfold State.trimRange
  split
  · simp
  · refine ⟨by simp, ?_, ?_⟩
    · intro q hq; dsimp only; rw [State.port_upPort_other _ _ hq]; simp
    · intro w hw; simp; exact Or.inl hw

theorem purgeStep_k (s : State) (h p : Nat) : ((purgeStep h s p).hide h).k = (s.hide h).k ∧
   (∀ q, ∀ w ∈ (s.port q).first, w ∈ ((purgeStep h s p).port q).first) ∧ .erase h ∈ ((purgeStep h s p).port p).first := by
  unfold purgeStep
  dsimp only
  generalize (s.hide h).allotment p = a
  obtain ⟨t1, t2, t3⟩ := trimRange_k (s.upPort p (fun q => { q with first := q.first ++ [.erase h] })) h p a.1 a.2
  generalize hz : (s.upPort p (fun q => { q with first := q.first ++ [.erase h] })) = u at *
  generalize u.trimRange h p a.1 a.2 = v at *
  obtain ⟨n1, n2⟩ := nextFirst_k v p
  refine ⟨?_, ?_, ?_⟩
  · rw [n1, t1, ← hz]; simp
  · intro q w hw; rw [n2]
    by_cases e : q = p
    · subst e; apply t3; rw [← hz]; simp; exact Or.inl hw
    · rw [t2 q e, ← hz, State.port_upPort_other _ _ e]; exact hw
  · rw [n2]; apply t3; rw [← hz]; simp

theorem purgeFold_k (h : Nat) (l : List Nat) : ∀ s : State, ((l.foldl (purgeStep h) s).hide h).k = (s.hide h).k ∧
   (∀ q, ∀ w ∈ (s.port q).first, w ∈ ((l.foldl (purgeStep h) s).port q).first) ∧
   ∀ p ∈ l, .erase h ∈ ((l.foldl (purgeStep h) s).port p).first := by
  induction l with
  | nil => intro s; simp
  | cons p l ih =>
    intro s
    obtain ⟨a, b, c⟩ := purgeStep_k s h p
    obtain ⟨d, e, f⟩ := ih (purgeStep h s p)
    refine ⟨by rw [List.foldl, d, a], fun q w hw => e _ _ (b _ _ hw), ?_⟩
    intro q hq
    rcases List.mem_cons.1 hq with rfl | hq
    · exact e _ _ c
    · exact f _ hq

theorem purge_k (s : State) (h : Nat) : ((s.purge h).hide h).k = (s.hide h).k ∧ ∀ p < 8, .erase h ∈ ((s.purge h).port p).first := by
  have := purgeFold_k h (List.range 8) s
  refine ⟨this.1, fun p hp => this.2.2 p (List.mem_range.2 hp)⟩

theorem get_map_held (l : AMap JobKey) (i : Nat) : (AMap.get JobKey.reset (l.map (fun j => (j.1, { j.2 with held := false }))) i).held = false := by
  induction l with
  | nil => rfl
  | cons p l ih =>
    simp only [List.map, AMap.get]; split
    · rfl
    · exact ih

theorem purge_dex (s : State) (h : Nat) : (s.purge h).dex = s.dex := (State.purge_kept _ _).same .dex (by decide)

theorem discardStaged_box (s : State) (h : Nat) : s.box.next ≤ (s.discardStaged h).box.next := (State.discardStaged_kept _ _).seq

theorem applyVariants_k (x : HideSt) (vs : List (Nat × Nat)) : (x.applyVariants vs).k = x.k := by
  unfold HideSt.applyVariants; split
  · rfl
  · dsimp only; split <;> rfl

theorem reload_spec (s : State) (h : Nat) : ((s.reload h).hide h).k.phase = .idle ∧
        ((s.reload h).hide h).k.tsp = (if (s.hide h).confidential then .unlocked else .off) ∧
        Logged s (s.reload h) recReset ⟨(s.hide h).k.origin.1, (s.hide h).k.origin.2⟩ 0xFF [2, (s.hide h).k.cause, h] := by
  unfold State.reload
  have c : (((s.discardStaged h).invalidate h).hide h).core = (s.hide h).core := State.discardStaged_steady s h h
  have n : s.box.next ≤ ((s.discardStaged h).invalidate h).box.next := discardStaged_box s h
  generalize ((s.discardStaged h).invalidate h) = u at *
  dsimp only
  have k := core_eq c
  have E : ∀ (v : State) (l : List Nat), Steady v (v.deviceEventTo l) := fun v l => forAll_steady _ _ _ (fun _ _ => State.postEvent_steady _ _ _)
  have Eb : ∀ (v : State) (l : List Nat), (v.deviceEventTo l).box = v.box := fun v l => (State.deviceEventTo_kept _ _).same .box (by decide)
  refine ⟨(core_eq (E _ _ h)).2.2.2.1.trans ?_, (core_eq (E _ _ h)).2.2.1.trans ?_, ?_⟩
  · rw [State.record_hide, State.hide_setHide]
    exact congrArg KPart.phase (applyVariants_k _ _)
  · rw [State.record_hide, State.hide_setHide]
    refine (congrArg KPart.tsp (applyVariants_k _ _)).trans ?_
    have : (u.hide h).confidential = (s.hide h).confidential := by unfold HideSt.confidential; rw [k.1]
    rw [← this]
  · rw [k.2.2.2.2.2.1, k.2.2.2.2.2.2]
    unfold Logged
    rw [Eb]
    obtain ⟨r, m, a, b⟩ := State.record_mem (u.setHide h _) recReset ⟨(s.hide h).k.origin.1, (s.hide h).k.origin.2⟩ 0xFF [2, (s.hide h).k.cause, h]
    exact ⟨r, m, a ▸ n, b⟩

end Sys2Proof.Machine
end

