-- ==== Sys2Proof/Laws/PortResets.lean ====
section
/-!
SUPPORT. Lemmas on resets that a port, a logical device or an interface state starts, and what they keep.
-/

namespace Sys2Proof.Machine
open Sys2Proof

theorem startReset_spec (s : State) (h : Nat) (c : Nat) (drain : Bool) (o : Origin) : let t := s.startReset h c drain o
    ((t.hide h).lay = (s.hide h).lay) ∧
    ((t.hide h).k.tsp = if (s.hide h).k.tsp.guarded then .error else (s.hide h).k.tsp) ∧
    ((s.hide h).k.phase = .idle →
      (t.hide h).k.phase = (if s.reamActive then .start else .ending) ∧ (t.hide h).k.cause = c ∧
      (t.hide h).k.drain = (drain && !(s.hide h).k.tsp.guarded)) := by
  generalize hok : o.kind = ok
  unfold State.startReset
  dsimp only
  have X : ∀ u : State, (if (s.hide h).k.tsp.guarded = true then s.upK h fun k => { k with tsp := .error } else s) = u →
     u.reamActive = s.reamActive ∧ (u.hide h).lay = (s.hide h).lay ∧ (u.hide h).k = { (s.hide h).k with tsp := if (s.hide h).k.tsp.guarded then .error else (s.hide h).k.tsp } := by
    intro u hu; subst hu; split
    · exact ⟨rfl, by simp, by simp⟩
    · simp_all
  generalize hu : (if (s.hide h).k.tsp.guarded = true then s.upK h fun k => { k with tsp := .error } else s) = u
  obtain ⟨x1, x2, x3⟩ := X u hu
  clear X hu
  generalize (s.hide h).k.tsp.guarded = g at *
  have X3 := x3
  generalize hd : (drain && !g) = d at *
  cases hp : (s.hide h).k.phase <;> dsimp only
  · -- idle
    have w : (State.upK u h (fun k => { k with phase := ResetPhase.start, drain := d, cause := c, origin := (o.kind, o.id), ended := 0 })).reamActive = s.reamActive := by
        rw [← x1]; rfl
    have B := beginEnding_spec (u.upK h (fun k => { k with phase := ResetPhase.start, drain := d, cause := c, origin := (o.kind, o.id), ended := 0 })) h
    rw [w]
    split
    · simp_all
    · rw [B.1, B.2.2.1, B.2.2.2.1, B.2.2.2.2.2.1, B.2.2.2.2.1]
      simp_all
  · -- start
    refine ⟨?_, ?_, by simp⟩
    · split <;> simp [x2]
    · split <;> simp [x3]
  · -- ending
    have k2 := core_eq (State.endAll_steady (u.upK h fun k => { k with drain := false }) h stHideReset h)
    refine ⟨?_, ?_, by simp⟩
    · split
      · simp [x2]
      · rw [k2.1]; simp [x2]
    · split
      · simp [x3]
      · rw [k2.2.2.1]; simp [x3]
  · -- held
    have B := beginKeys_spec u h
    refine ⟨?_, ?_, by simp⟩
    · split
      · simp [x2]
      · rw [B.1]; simp [x2]
    · split
      · simp [x3]
      · rw [B.2.2.1]; simp [x3]
  all_goals exact ⟨x2, by simp [x3], by simp⟩

/-- hideOfLd depends on the lays only -/
theorem hideOfLd_lays {s t : State} (e : ∀ j, (t.hide j).lay = (s.hide j).lay) (l : Nat) : t.hideOfLd l = s.hideOfLd l := by
  unfold State.hideOfLd; simp only [e]

theorem startReset_lays (s : State) (h : Nat) (c : Nat) (drain : Bool) (o : Origin) (j : Nat) : ((s.startReset h c drain o).hide j).lay = (s.hide j).lay := by
  by_cases e : j = h
  · subst e; exact (startReset_spec s j c drain o).1
  · rw [State.startReset_apart s h c drain o j e]

theorem hideOfLd_some {s : State} {l h : Nat} (e : s.hideOfLd l = some h) : ∃ y, (s.hide h).lay = some y ∧ y.ld = l := by
  unfold State.hideOfLd at e
  have := List.find?_some e
  split at this
  · next y hy => exact ⟨y, hy, by simpa using this⟩
  · cases this

theorem hideOfLd_inj {s : State} {l m h : Nat} (a : s.hideOfLd l = some h) (b : s.hideOfLd m = some h) : l = m := by
  obtain ⟨y, hy, e⟩ := hideOfLd_some a
  obtain ⟨z, hz, f⟩ := hideOfLd_some b
  rw [hy] at hz; cases hz; omega

theorem purge_dexL (s : State) (h : Nat) : (s.purge h).dex = s.dex := (State.purge_kept _ _).same .dex (by decide)

theorem beginKeys_error (s : State) (h : Nat) : (s.beginKeys h).dex.error = s.dex.error := by
  unfold State.beginKeys; dsimp only; rw [purge_dexL]; rfl

theorem beginEnding_dex (s : State) (h : Nat) : (s.beginEnding h).dex = s.dex := by
  unfold State.beginEnding; dsimp only; split
  · exact (State.endQueued_kept _ _ _).same .dex (by decide)
  · exact (State.endAll_kept _ _ _).same .dex (by decide)

theorem startReset_error (s : State) (h : Nat) (c : Nat) (drain : Bool) (o : Origin) : (s.startReset h c drain o).dex.error = s.dex.error := by
  have X : ∀ u : State, (if (s.hide h).k.tsp.guarded = true then s.upK h fun k => { k with tsp := .error } else s) = u →
     u.dex = s.dex := by
    intro u hu; subst hu; split <;> rfl
  unfold State.startReset
  dsimp only
  generalize hu : (if (s.hide h).k.tsp.guarded = true then s.upK h fun k => { k with tsp := .error } else s) = u
  rw [← X u hu]
  split
  · split
    · rfl
    · rw [beginEnding_dex]; rfl
  · split <;> rfl
  · split
    · rfl
    · rw [show (State.endAll _ _ _).dex = _ from (State.endAll_kept _ _ _).same .dex (by decide)]; rfl
  · split
    · rfl
    · exact beginKeys_error _ _
  · rfl

theorem startReset_parts (s : State) (h : Nat) (c : Nat) (drain : Bool) (o : Origin) : let t := s.startReset h c drain o
   t.cxl = s.cxl ∧ t.box = s.box ∧ t.power = s.power ∧ t.plan = s.plan ∧ t.mgmt = s.mgmt ∧ t.reamActive = s.reamActive := by
  intro t
  have k := State.startReset_kept s h c drain o
  have e : t.dex.error = s.dex.error := startReset_error s h c drain o
  have a : t.power = s.power := k.same .power (by decide)
  have b : t.plan = s.plan := k.same .plan (by decide)
  exact ⟨k.same .cxl (by decide), k.same .box (by decide), a, b, k.same .mgmt (by decide), by unfold State.reamActive; rw [e, a, b]⟩

/-- tspError for one hide -/
theorem tspError_tsp (s : State) (h : Nat) (o : Origin) : ((s.tspError h o).hide h).k.tsp = (if (s.hide h).k.tsp.guarded then .error else (s.hide h).k.tsp) := by
  unfold State.tspError; split
  · next g => rw [(startReset_spec s h 5 false o).2.1]; simp [g]
  · simp_all

theorem tspError_cxl (s : State) (h : Nat) (o : Origin) : (s.tspError h o).cxl = s.cxl := (State.tspError_kept _ _ _).same .cxl (by decide)

/-- one step of a fold over logical devices -/
theorem flrOf_spec (s : State) (ld c : Nat) (o : State → Nat → Origin) : let t := s.flrOf ld c o
    (t.ld ld).config = [] ∧ (∀ l, l ≠ ld → t.ld l = s.ld l) ∧ (∀ j, (t.hide j).lay = (s.hide j).lay) ∧ t.reamActive = s.reamActive ∧
    t.box = s.box ∧ t.cxl.width = s.cxl.width ∧ t.cxl.rate = s.cxl.rate ∧ t.cxl.ideMem = s.cxl.ideMem ∧
    (∀ h, s.hideOfLd ld ≠ some h → t.hide h = s.hide h) ∧ (s.hideOfLd ld = none → t.hides = s.hides) ∧
    (∀ h, s.hideOfLd ld = some h →
      ((t.hide h).k.tsp = if (s.hide h).k.tsp.guarded then .error else (s.hide h).k.tsp) ∧
      ((s.hide h).k.phase = .idle → (t.hide h).k.cause = c ∧ (t.hide h).k.phase = (if s.reamActive then .start else .ending) ∧ (t.hide h).k.drain = false)) := by
  intro t
  have e : (s.upLd ld (fun l => { l with config := [] })).hideOfLd ld = s.hideOfLd ld := rfl
  have hl : ∀ j, (s.upLd ld (fun l => { l with config := [] })).hide j = s.hide j := fun j => rfl
  have hr : (s.upLd ld (fun l => { l with config := [] })).reamActive = s.reamActive := rfl
  have h1 : ((s.upLd ld (fun l => { l with config := [] })).ld ld).config = [] := by simp
  have h2 : ∀ l, l ≠ ld → (s.upLd ld (fun l => { l with config := [] })).ld l = s.ld l := fun l n => State.ld_upLd_other _ _ n
  have hb : (s.upLd ld (fun l => { l with config := [] })).box = s.box := rfl
  have hc1 : (s.upLd ld (fun l => { l with config := [] })).cxl.width = s.cxl.width := rfl
  have hc2 : (s.upLd ld (fun l => { l with config := [] })).cxl.rate = s.cxl.rate := rfl
  have hc3 : (s.upLd ld (fun l => { l with config := [] })).cxl.ideMem = s.cxl.ideMem := rfl
  have hh : (s.upLd ld (fun l => { l with config := [] })).hides = s.hides := rfl
  have et : t = (match (s.upLd ld (fun l => { l with config := [] })).hideOfLd ld with
      | none => (s.upLd ld (fun l => { l with config := [] }))
      | some h => (s.upLd ld (fun l => { l with config := [] })).startReset h c false (o (s.upLd ld (fun l => { l with config := [] })) h)) := rfl
  generalize (s.upLd ld (fun l => { l with config := [] })) = u at *
  rw [e] at et
  cases hs : s.hideOfLd ld with
  | none => rw [hs] at et; dsimp only at et; rw [et]; exact ⟨h1, h2, fun j => by rw [hl], hr, hb, hc1, hc2, hc3, fun h _ => hl h, fun _ => hh, by simp⟩
  | some h =>
    rw [hs] at et; dsimp only at et; rw [et]
    obtain ⟨p1, p2, p3, p4, p5, p6⟩ := startReset_parts u h c false (o u h)
    obtain ⟨q1, q2, q3⟩ := startReset_spec u h c false (o u h)
    refine ⟨?_, ?_, ?_, p6.trans hr, p2.trans hb, by rw [p1, hc1], by rw [p1, hc2], by rw [p1, hc3], ?_, by simp, ?_⟩
    · unfold State.ld at *; rw [p1]; exact h1
    · intro l n; have := h2 l n; unfold State.ld at *; rw [p1]; exact this
    · intro j; rw [startReset_lays, hl]
    · intro k n; rw [State.startReset_apart u h c false (o u h) k (by intro e; subst e; exact n rfl), hl]
    · intro k n; cases n
      rw [hl] at q2 q3; rw [hr] at q3
      exact ⟨q2, fun i => ⟨(q3 i).2.1, (q3 i).1, by simpa using (q3 i).2.2⟩⟩

theorem raw_hide (s : State) (bs : List Byte) (j : Nat) : (s.raw bs).hide j = s.hide j := rfl

theorem flrFold (c : Nat) (o : State → Nat → Origin) (l : List Nat) (nd : l.Nodup) : ∀ s : State, let t := l.foldl (fun s ld => s.flrOf ld c o) s
    (∀ ld ∈ l, (t.ld ld).config = []) ∧ (∀ k, k ∉ l → t.ld k = s.ld k) ∧ (∀ j, (t.hide j).lay = (s.hide j).lay) ∧ t.reamActive = s.reamActive ∧
    t.box = s.box ∧ t.cxl.width = s.cxl.width ∧ t.cxl.rate = s.cxl.rate ∧ t.cxl.ideMem = s.cxl.ideMem ∧
    (∀ h, (∀ ld ∈ l, s.hideOfLd ld ≠ some h) → t.hide h = s.hide h) ∧
    (∀ ld ∈ l, ∀ h, s.hideOfLd ld = some h →
      ((t.hide h).k.tsp = if (s.hide h).k.tsp.guarded then .error else (s.hide h).k.tsp) ∧
      ((s.hide h).k.phase = .idle → (t.hide h).k.cause = c ∧ (t.hide h).k.phase = (if s.reamActive then .start else .ending))) := by
  induction l with
  | nil => intro s; simp
  | cons a l ih =>
    intro s t
    obtain ⟨na, nl⟩ := List.nodup_cons.1 nd
    obtain ⟨a1,a2,a3,a4,a5,a6,a7,a8,a9,a10,a11⟩ := flrOf_spec s a c o
    have et : t = l.foldl (fun s ld => s.flrOf ld c o) (s.flrOf a c o) := rfl
    obtain ⟨b1,b2,b3,b4,b5,b6,b7,b8,b9,b10⟩ := ih nl (s.flrOf a c o)
    rw [← et] at b1 b2 b3 b4 b5 b6 b7 b8 b9 b10
    have hl : ∀ ld, (s.flrOf a c o).hideOfLd ld = s.hideOfLd ld := fun ld => hideOfLd_lays a3 ld
    refine ⟨?_, ?_, fun j => (b3 j).trans (a3 j), b4.trans a4, b5.trans a5, b6.trans a6, b7.trans a7, b8.trans a8, ?_, ?_⟩
    · intro ld hm
      rcases List.mem_cons.1 hm with rfl | hm
      · rw [b2 _ na]; exact a1
      · exact b1 _ hm
    · intro k hk
      rw [b2 k (fun h => hk (List.mem_cons_of_mem _ h)), a2 k (fun h => hk (by simp [h]))]
    · intro h hh
      rw [b9 h (fun ld hm => by rw [hl]; exact hh ld (List.mem_cons_of_mem _ hm)), a9 h (hh a (by simp))]
    · intro ld hm h e
      rcases List.mem_cons.1 hm with rfl | hm
      · rw [b9 h (fun k km => by rw [hl]; intro e2; exact na (hideOfLd_inj e2 e ▸ km))]
        exact ⟨(a11 h e).1, fun i => ⟨((a11 h e).2 i).1, ((a11 h e).2 i).2.1⟩⟩
      · have ne : a ≠ ld := by intro x; subst x; exact na hm
        have := a9 h (fun e2 => ne (hideOfLd_inj e2 e))
        have B := b10 ld hm h (by rw [hl]; exact e)
        rw [this, a4] at B
        exact B

theorem linkDown_spec (s : State) (hw : s.cxl.width ≠ 0) : let t := s.linkDown
    t.cxl.width = 0 ∧ t.cxl.rate = 0 ∧ t.cxl.ideMem = .off ∧
      (∀ ld < 16, (t.ld ld).config = []) ∧
      Logged s t recLink (agent 17) 0xFF [8, 0, 0] ∧
      ∀ ld < 16, ∀ h, s.hideOfLd ld = some h →
        ((s.hide h).k.phase = .idle → (t.hide h).k.cause = 3 ∧ (t.hide h).k.phase = (if s.reamActive then .start else .ending)) ∧
        (t.hide h).k.tsp = (if (s.hide h).k.tsp.guarded then .error else (s.hide h).k.tsp) := by
  intro t
  have et : t = s.linkDown := rfl
  unfold State.linkDown at et
  rw [if_neg hw] at et
  dsimp only at et
  obtain ⟨w, m⟩ := State.record_mem ({ s with
      cxl := { s.cxl with width := 0, rate := 0, ideMem := .off, lds := s.cxl.lds.map (fun (l : Nat × LdSt) => (l.1, { l.2 with ideIo := .off })) }
      gates := { s.gates with queues := s.gates.queues.filter (fun q => q.1 / 32 != 8) } } : State) recLink (agent 17) 0xFF [8, 0, 0]
  have hh : ∀ j, (State.record ({ s with
      cxl := { s.cxl with width := 0, rate := 0, ideMem := .off, lds := s.cxl.lds.map (fun (l : Nat × LdSt) => (l.1, { l.2 with ideIo := .off })) }
      gates := { s.gates with queues := s.gates.queues.filter (fun q => q.1 / 32 != 8) } } : State) recLink (agent 17) 0xFF [8, 0, 0]).hide j = s.hide j := fun j => rfl
  have hr : (State.record ({ s with
      cxl := { s.cxl with width := 0, rate := 0, ideMem := .off, lds := s.cxl.lds.map (fun (l : Nat × LdSt) => (l.1, { l.2 with ideIo := .off })) }
      gates := { s.gates with queues := s.gates.queues.filter (fun q => q.1 / 32 != 8) } } : State) recLink (agent 17) 0xFF [8, 0, 0]).reamActive = s.reamActive := rfl
  have hc : (State.record ({ s with
      cxl := { s.cxl with width := 0, rate := 0, ideMem := .off, lds := s.cxl.lds.map (fun (l : Nat × LdSt) => (l.1, { l.2 with ideIo := .off })) }
      gates := { s.gates with queues := s.gates.queues.filter (fun q => q.1 / 32 != 8) } } : State) recLink (agent 17) 0xFF [8, 0, 0]).cxl.width = 0 := rfl
  have hc2 : (State.record ({ s with
      cxl := { s.cxl with width := 0, rate := 0, ideMem := .off, lds := s.cxl.lds.map (fun (l : Nat × LdSt) => (l.1, { l.2 with ideIo := .off })) }
      gates := { s.gates with queues := s.gates.queues.filter (fun q => q.1 / 32 != 8) } } : State) recLink (agent 17) 0xFF [8, 0, 0]).cxl.rate = 0 := rfl
  have hc3 : (State.record ({ s with
      cxl := { s.cxl with width := 0, rate := 0, ideMem := .off, lds := s.cxl.lds.map (fun (l : Nat × LdSt) => (l.1, { l.2 with ideIo := .off })) }
      gates := { s.gates with queues := s.gates.queues.filter (fun q => q.1 / 32 != 8) } } : State) recLink (agent 17) 0xFF [8, 0, 0]).cxl.ideMem = .off := rfl
  have m' : w ∈ _ ∧ s.box.next ≤ w.seq ∧ _ := ⟨m.1, Nat.le_of_eq m.2.1.symm, m.2.2⟩
  generalize (State.record _ recLink (agent 17) 0xFF [8, 0, 0]) = u at *
  have F := flrFold 3 (fun _ _ => agent 17) (List.range 16) List.nodup_range u
  have et2 : t = (List.range 16).foldl (fun s ld => s.flrOf ld 3 (fun _ _ => agent 17)) u := et
  rw [← et2] at F
  obtain ⟨b1,b2,b3,b4,b5,b6,b7,b8,b9,b10⟩ := F
  have hl : ∀ ld, u.hideOfLd ld = s.hideOfLd ld := fun ld => hideOfLd_lays (fun j => by rw [hh]) ld
  refine ⟨b6.trans hc, b7.trans hc2, b8.trans hc3, fun ld hld => b1 ld (List.mem_range.2 hld), ?_, ?_⟩
  · unfold Logged; rw [b5]; exact ⟨w, m'.1, m'.2.1, m'.2.2⟩
  · intro ld hld h e
    have := b10 ld (List.mem_range.2 hld) h (by rw [hl]; exact e)
    rw [hh, hr] at this
    exact ⟨this.2, this.1⟩

theorem tspFold (o : Origin) (l : List Nat) (nd : l.Nodup) : ∀ s : State, let t := l.foldl (fun s h => s.tspError h o) s
    t.cxl = s.cxl ∧ (∀ h, h ∉ l → t.hide h = s.hide h) ∧ ∀ h ∈ l, (t.hide h).k.tsp = if (s.hide h).k.tsp.guarded then .error else (s.hide h).k.tsp := by
  induction l with
  | nil => intro s; simp
  | cons a l ih =>
    intro s t
    obtain ⟨na, nl⟩ := List.nodup_cons.1 nd
    have et : t = l.foldl (fun s h => s.tspError h o) (s.tspError a o) := rfl
    obtain ⟨b1,b2,b3⟩ := ih nl (s.tspError a o)
    rw [← et] at b1 b2 b3
    have ap : Apart a s (s.tspError a o) := State.tspError_apart _ _ _
    refine ⟨by rw [b1, tspError_cxl], ?_, ?_⟩
    · intro h hh; rw [b2 h (fun x => hh (List.mem_cons_of_mem _ x)), ap h (fun e => hh (by simp [e]))]
    · intro h hm
      rcases List.mem_cons.1 hm with rfl | hm
      · rw [b2 _ na, tspError_tsp]
      · rw [b3 h hm, ap h (fun e => na (e ▸ hm))]

theorem deviceEvent_cxl (s : State) : s.deviceEvent.cxl = s.cxl := (State.deviceEvent_kept _).same .cxl (by decide)

theorem deviceEvent_box (s : State) : s.deviceEvent.box = s.box := (State.deviceEvent_kept _).same .box (by decide)

theorem deviceEvent_plan (s : State) : s.deviceEvent.plan = s.plan := (State.deviceEvent_kept _).same .plan (by decide)

theorem deviceEvent_core (s : State) (j : Nat) : (s.deviceEvent.hide j).core = (s.hide j).core := State.deviceEvent_steady s j

end Sys2Proof.Machine
end

