-- ==== Sys2Proof/Laws/Posting.lean ====
section
/-!
SUPPORT. Lemmas on what posting entries keeps, and what taking a packet's entries does.
-/

namespace Sys2Proof.Machine
open Sys2Proof

/-- what posting leaves of a hide -/
def PostKeeps (h : Nat) (s t : State) : Prop :=
  (t.hide h).q = (s.hide h).q ∧ (t.hide h).o = (s.hide h).o ∧ (t.hide h).k = (s.hide h).k ∧ (t.hide h).c = (s.hide h).c ∧ (t.hide h).lay = (s.hide h).lay

theorem PostKeeps.refl (h : Nat) (s : State) : PostKeeps h s s := ⟨rfl, rfl, rfl, rfl, rfl⟩

theorem PostKeeps.trans {h : Nat} {s t u : State} (a : PostKeeps h s t) (b : PostKeeps h t u) : PostKeeps h s u :=
  ⟨b.1.trans a.1, b.2.1.trans a.2.1, b.2.2.1.trans a.2.2.1, b.2.2.2.1.trans a.2.2.2.1, b.2.2.2.2.trans a.2.2.2.2⟩

theorem PostKeeps.ofHide {h : Nat} {s t : State} (e : t.hide h = s.hide h) : PostKeeps h s t := by unfold PostKeeps; rw [e]; exact ⟨rfl, rfl, rfl, rfl, rfl⟩

theorem enqueueFold_hide {α : Type} (g : State → α → State) (hg : ∀ s a j, (g s a).hide j = s.hide j) (l : List α) : ∀ (s : State) (j : Nat), (l.foldl g s).hide j = s.hide j := by
  induction l with
  | nil => intro s j; rfl
  | cons a l ih => intro s j; rw [List.foldl, ih, hg]

theorem backInvalidate_keeps (s : State) (h off n : Nat) : PostKeeps h s (s.backInvalidate h off n) := by
  unfold State.backInvalidate
  dsimp only
  have := enqueueFold_hide (fun s (d : DirLine) => s.enqueue 8 h true ⟨16, .snoop d.off true⟩) (fun s a j => State.enqueue_hide _ _ _ _ _ _)
    ((s.hide h).a.dir.filter (fun d => decide (off / 64 * 64 ≤ d.off) && decide (d.off < off + n))) s h
  unfold PostKeeps
  rw [State.hide_upA, this]
  exact ⟨rfl, rfl, rfl, rfl, rfl⟩

theorem writeMem_keeps (s : State) (h k off : Nat) (bs : List Byte) : PostKeeps h s (s.writeMem k off bs) := .ofHide rfl

theorem putEntry_keeps (s : State) (h noOff : Nat) (r : OutRing) (e : List Byte) : PostKeeps h s (s.putEntry h noOff r e).1 := by
  unfold State.putEntry; dsimp only
  exact (backInvalidate_keeps _ _ _ _).trans (writeMem_keeps _ _ _ _ _)

theorem foldPair_keeps {α β : Type} (h : Nat) (f : State × β → α → State × β) (hf : ∀ p a, PostKeeps h p.1 (f p a).1) (l : List α) :
    ∀ p, PostKeeps h p.1 (l.foldl f p).1 := by
  induction l with
  | nil => intro p; exact .refl _ _
  | cons a l ih => intro p; exact (hf p a).trans (ih _)

theorem postPacket_keeps (s : State) (h noOff : Nat) (lw : Bool) (r : OutRing) (es : List (List Byte)) : PostKeeps h s (s.postPacket h noOff lw r es).1 := by
  unfold State.postPacket
  dsimp only
  refine PostKeeps.trans ?_ (writeMem_keeps _ _ _ _ _)
  refine PostKeeps.trans ?_ (backInvalidate_keeps _ _ _ _)
  refine PostKeeps.trans ?_ (writeMem_keeps _ _ _ _ _)
  refine PostKeeps.trans ?_ (backInvalidate_keeps _ _ _ _)
  exact foldPair_keeps h _ (fun p a => putEntry_keeps _ _ _ _ _) _ (s, _)

theorem postEntries_keeps (s : State) (h noOff : Nat) (lw : Bool) (r : OutRing) (es : List (List Byte)) : PostKeeps h s (s.postEntries h noOff lw r es).1 := by
  unfold State.postEntries
  exact foldPair_keeps h _ (fun p a => postPacket_keeps _ _ _ _ _ _) _ (s, _)

theorem postComp_frame (s : State) (h n : Nat) (es : List (List Byte)) : let t := s.postComp h n es
    (t.hide h).o = (s.hide h).o ∧ (t.hide h).k = (s.hide h).k ∧ (t.hide h).c = (s.hide h).c ∧ (t.hide h).lay = (s.hide h).lay ∧
    ∃ cs, (t.hide h).q = { (s.hide h).q with comps := cs } := by
  intro t
  have e : t = s.postComp h n es := rfl
  unfold State.postComp at e
  dsimp only at e
  split at e
  · have k := postEntries_keeps s h 12 (s.hide h).lengthWord ((s.hide h).q.comps.get OutRing.reset n) es
    generalize s.postEntries h 12 (s.hide h).lengthWord ((s.hide h).q.comps.get OutRing.reset n) es = p at *
    rw [e, State.hide_upQ]
    exact ⟨k.2.1, k.2.2.1, k.2.2.2.1, k.2.2.2.2, _, by rw [k.1]⟩
  · rw [e, State.hide_upQ]; exact ⟨rfl, rfl, rfl, rfl, _, rfl⟩

theorem postEvent_frame (s : State) (h : Nat) (es : List (List Byte)) : let t := s.postEvent h es
    (t.hide h).o = (s.hide h).o ∧ (t.hide h).k = (s.hide h).k ∧ (t.hide h).c = (s.hide h).c ∧ (t.hide h).lay = (s.hide h).lay ∧
    ∃ ev he, (t.hide h).q = { (s.hide h).q with events := ev, held := he } := by
  intro t
  have e : t = s.postEvent h es := rfl
  unfold State.postEvent at e
  dsimp only at e
  split at e
  · have k := postEntries_keeps s h 4 (s.hide h).lengthWord (s.hide h).q.events es
    generalize s.postEntries h 4 (s.hide h).lengthWord (s.hide h).q.events es = p at *
    rw [e, State.hide_upQ]
    exact ⟨k.2.1, k.2.2.1, k.2.2.2.1, k.2.2.2.2, _, _, by rw [k.1]⟩
  · rw [e, State.hide_upQ]; exact ⟨rfl, rfl, rfl, rfl, _, _, rfl⟩

theorem capture_keeps (s : State) (h : Nat) (o : Order) : (s.capture h o).seq = o.seq ∧ (s.capture h o).ring = o.ring ∧ (s.capture h o).txn = o.txn ∧ (s.capture h o).early = o.early := by
  unfold State.capture; dsimp only
  split
  · exact ⟨rfl, rfl, rfl, rfl⟩
  · exact ⟨rfl, rfl, rfl, rfl⟩

def takeBody (h ring : Nat) (lw timeout : Bool) (r : OrderRing) (s : State) (i : Nat) : State :=
    match r.at i with
    | none => s
    | some t =>
      if lw && i == 0 && (t.slot r.taken).isSome then s
      else
        let o := r.order ring (s.hide h).q.nextSeq s.plan.furlong i lw timeout t
        let bad := match o.early with | some (_, d) => d == detailAt 8 | none => false
        let o := s.capture h o
        let s := s.upC h (fun c => { c with telIn := satAdd c.telIn (o.segs.foldl (fun n g => n + g.bytes.length) 0) })
        s.upQ h (fun q => { (if bad then q.upRing ring (fun r => { r with err := r.err ||| 4 }) else q) with
          dispatch := q.dispatch ++ [o], nextSeq := q.nextSeq + 1 })

structure TakeInv (h ring : Nat) (timeout : Bool) (s u : State) (k : Nat) : Prop where
  apart : Apart h s u
  imem : u.imem = s.imem
  ringRec : ∃ er, (u.hide h).q.orders.get OrderRing.reset ring = { ((s.hide h).q.orders.get OrderRing.reset ring) with err := er }
  others : ∀ m, m ≠ ring → (u.hide h).q.orders.get OrderRing.reset m = (s.hide h).q.orders.get OrderRing.reset m
  disp : ∃ l : List Order, (u.hide h).q.dispatch = (s.hide h).q.dispatch ++ l ∧ l.length ≤ k ∧
        (u.hide h).q.nextSeq = (s.hide h).q.nextSeq + l.length ∧
        (∀ i (hi : i < l.length), l[i].seq = (s.hide h).q.nextSeq + i ∧ l[i].ring = ring ∧ l[i].txn = none) ∧
        (timeout = true → ∀ o ∈ l, o.early = some (stTimeout, 0) ∧ o.ring = ring)

theorem takeBody_inv (h ring : Nat) (lw timeout : Bool) (r : OrderRing) (s u : State) (i k : Nat) (I : TakeInv h ring timeout s u k) :
    TakeInv h ring timeout s (takeBody h ring lw timeout r u i) (k + 1) := by
  have I' : TakeInv h ring timeout s u (k + 1) := by
    obtain ⟨a, b, c, d, l, l1, l2, l3, l4, l5⟩ := I
    exact ⟨a, b, c, d, l, l1, Nat.le_succ_of_le l2, l3, l4, l5⟩
  unfold takeBody
  split
  · exact I'
  · split
    · exact I'
    · next t _ _ =>
      obtain ⟨a, b, c, d, l, l1, l2, l3, l4, l5⟩ := I
      dsimp only
      have e1 : (r.order ring (u.hide h).q.nextSeq u.plan.furlong i lw timeout t).seq = (u.hide h).q.nextSeq := rfl
      have e2 : (r.order ring (u.hide h).q.nextSeq u.plan.furlong i lw timeout t).ring = ring := rfl
      have e3 : (r.order ring (u.hide h).q.nextSeq u.plan.furlong i lw timeout t).txn = none := rfl
      have e4 : timeout = true → (r.order ring (u.hide h).q.nextSeq u.plan.furlong i lw timeout t).early = some (stTimeout, 0) := by
        intro x; subst x; rfl
      generalize (r.order ring (u.hide h).q.nextSeq u.plan.furlong i lw timeout t) = o at *
      generalize (match o.early with | some (_, d) => d == detailAt 8 | none => false) = bad
      obtain ⟨c1, c2, c3, c4⟩ := capture_keeps u h o
      generalize u.capture h o = p at *
      generalize p.segs.foldl (fun n g => n + g.bytes.length) 0 = z
      refine ⟨?_, ?_, ?_, ?_, ?_⟩
      · exact Apart.after (State.upQ_apart _ _ _) (Apart.after (State.upC_apart _ _ _) a)
      · simpa using b
      · rw [State.hide_upQ, State.hide_upC]
        obtain ⟨er, c⟩ := c
        cases bad
        · exact ⟨er, c⟩
        · refine ⟨er ||| 4, ?_⟩
          simp [QPart.upRing, amapUp, c]
      · intro m hm
        rw [State.hide_upQ, State.hide_upC, ← d m hm]
        cases bad
        · rfl
        · simp [QPart.upRing, amapUp, AMap.get_set_other _ _ _ hm]
      · rw [State.hide_upQ, State.hide_upC]
        refine ⟨l ++ [p], ?_, by simp [l2], ?_, ?_, ?_⟩
        · simp [l1]
        · simp [l3]; omega
        · intro j hj
          by_cases hjl : j < l.length
          · have := l4 j hjl
            simpa [List.getElem_append_left hjl] using this
          · have : j = l.length := by simp at hj; omega
            subst this
            simp [c1, c2, c3, e1, e2, e3, l3]
        · intro ht q hq
          rcases List.mem_append.1 hq with hq | hq
          · exact l5 ht q hq
          · simp at hq; subst hq; exact ⟨by rw [c4, e4 ht], by rw [c2, e2]⟩

theorem takeFold (h ring : Nat) (lw timeout : Bool) (r : OrderRing) (s : State) (l : List Nat) : ∀ (u : State) (k : Nat), TakeInv h ring timeout s u k →
    TakeInv h ring timeout s (l.foldl (takeBody h ring lw timeout r) u) (k + l.length) := by
  induction l with
  | nil => intro u k I; exact I
  | cons a l ih =>
    intro u k I
    have := ih _ _ (takeBody_inv h ring lw timeout r s u a k I)
    simpa [Nat.add_comm, Nat.add_left_comm, Nat.add_assoc] using this

theorem takeEntries_spec (s : State) (h ring n : Nat) (timeout : Bool) : let u := s.takeEntries h ring n timeout
    Apart h s u ∧
      ((u.hide h).q.orders.get OrderRing.reset ring =
        (let r := (s.hide h).q.orders.get OrderRing.reset ring
         { r with
           taken := r.taken + BitVec.ofNat 32 n
           notices := r.notices.filter (fun p => !((List.range n).any (fun i => (r.taken.toNat + i) % ctlEntries r.ctl == p.1)))
           err := ((u.hide h).q.orders.get OrderRing.reset ring).err })) ∧
      (timeout = true → ((u.hide h).q.orders.get OrderRing.reset ring).err.getLsbD 3 = true) ∧
      (∀ m, m ≠ ring → (u.hide h).q.orders.get OrderRing.reset m = (s.hide h).q.orders.get OrderRing.reset m) ∧
      (u.readMem h ((s.hide h).q.orders.get OrderRing.reset ring).base.toNat 4 =
        leBytes 4 (((s.hide h).q.orders.get OrderRing.reset ring).taken + BitVec.ofNat 32 n).toNat) ∧
      ∃ l : List Order, (u.hide h).q.dispatch = (s.hide h).q.dispatch ++ l ∧ l.length ≤ n ∧
        (u.hide h).q.nextSeq = (s.hide h).q.nextSeq + l.length ∧
        (∀ i (hi : i < l.length), l[i].seq = (s.hide h).q.nextSeq + i ∧ l[i].ring = ring ∧ l[i].txn = none) ∧
        (timeout = true → ∀ o ∈ l, o.early = some (stTimeout, 0) ∧ o.ring = ring) := by
  intro u
  have eu : u = s.takeEntries h ring n timeout := rfl
  have I0 : TakeInv h ring timeout s s 0 := ⟨fun _ _ => rfl, rfl, ⟨_, rfl⟩, fun _ _ => rfl, [], by simp, by simp, by simp, by simp, by simp⟩
  have I := takeFold h ring (s.hide h).lengthWord timeout ((s.hide h).q.orders.get OrderRing.reset ring) s (List.range n) s 0 I0
  have E : s.takeEntries h ring n timeout = (((List.range n).foldl (takeBody h ring (s.hide h).lengthWord timeout ((s.hide h).q.orders.get OrderRing.reset ring)) s).upQ h
     (fun q => q.upRing ring (fun y => { y with
        taken := ((s.hide h).q.orders.get OrderRing.reset ring).taken + BitVec.ofNat 32 n
        notices := y.notices.filter (fun p => !((List.range n).any (fun i => (((s.hide h).q.orders.get OrderRing.reset ring).taken.toNat + i) % ctlEntries ((s.hide h).q.orders.get OrderRing.reset ring).ctl == p.1)))
        err := if timeout then y.err ||| 8 else y.err }))).writeMem h ((s.hide h).q.orders.get OrderRing.reset ring).base.toNat (leBytes 4 (((s.hide h).q.orders.get OrderRing.reset ring).taken + BitVec.ofNat 32 n).toNat) := rfl
  rw [E] at eu
  generalize (List.range n).foldl (takeBody h ring (s.hide h).lengthWord timeout ((s.hide h).q.orders.get OrderRing.reset ring)) s = v at *
  simp only [Nat.zero_add, List.length_range] at I
  obtain ⟨a, b, c, d, l, l1, l2, l3, l4, l5⟩ := I
  obtain ⟨er, c⟩ := c
  generalize hr : (s.hide h).q.orders.get OrderRing.reset ring = r at *
  have hh : ∀ j, u.hide j = (v.upQ h (fun q => q.upRing ring (fun y => { y with
        taken := r.taken + BitVec.ofNat 32 n
        notices := y.notices.filter (fun p => !((List.range n).any (fun i => (r.taken.toNat + i) % ctlEntries r.ctl == p.1)))
        err := if timeout then y.err ||| 8 else y.err }))).hide j := by intro j; rw [eu]; rfl
  refine ⟨?_, ?_, ?_, ?_, ?_, ?_⟩
  · intro j hj; rw [hh, State.hide_upQ_other _ _ hj, a j hj]
  · rw [hh, State.hide_upQ]; simp [QPart.upRing, amapUp, c]
  · intro ht; rw [hh, State.hide_upQ]; simp [QPart.upRing, amapUp, c, ht]
  · intro m hm; rw [hh, State.hide_upQ, ← d m hm]; simp [QPart.upRing, amapUp, AMap.get_set_other _ _ _ hm]
  · rw [eu]; unfold State.readMem State.writeMem
    have : (leBytes 4 (r.taken + BitVec.ofNat 32 n).toNat).length = 4 := by simp [leBytes]
    conv => lhs; rw [← this]
    exact Memory.read_write _ _ _
  · rw [hh, State.hide_upQ]
    exact ⟨l, by simpa [QPart.upRing] using l1, l2, by simpa [QPart.upRing] using l3, l4, l5⟩

theorem recPost (u : State) (h : Nat) (typ : Nat) (o : Origin) (rg : Nat) (body : List Nat) (es : List (List Byte)) :
    let t := (u.record typ o rg body).postEvent h es
    (∃ r ∈ t.box.recs, r.seq = u.box.next ∧ r.typ = typ ∧ r.origin = o ∧ r.region = rg ∧ r.body = body) ∧
    (t.hide h).o = (u.hide h).o ∧ (t.hide h).q.orders = (u.hide h).q.orders ∧ (t.hide h).q.comps = (u.hide h).q.comps := by
  intro t
  have b : t.box = (u.record typ o rg body).box := (State.postEvent_kept _ _ _).same .box (by decide)
  obtain ⟨a1, a2, a3, a4, ev, he, a5⟩ := postEvent_frame (u.record typ o rg body) h es
  refine ⟨?_, a1.trans rfl, ?_, ?_⟩
  · rw [b]; exact State.record_mem _ _ _ _ _
  · show (t.hide h).q.orders = _; rw [a5]; rfl
  · show (t.hide h).q.comps = _; rw [a5]; rfl

theorem clearTags_hide (s : State) (h : Nat) (r : OutRing) : (s.clearTags h r).hides = s.hides ∧ (s.clearTags h r).box = s.box := by
  unfold State.clearTags
  generalize List.range (ctlEntries r.ctl) = l
  have : ∀ (l : List Nat) (s : State), (l.foldl (fun s i => s.writeMem h (r.base.toNat + 256 + 32 * i + 1) [0]) s).hides = s.hides ∧
      (l.foldl (fun s i => s.writeMem h (r.base.toNat + 256 + 32 * i + 1) [0]) s).box = s.box := by
    intro l
    induction l with
    | nil => intro s; exact ⟨rfl, rfl⟩
    | cons a l ih => intro s; rw [List.foldl]; exact ⟨(ih _).1, (ih _).2⟩
  exact this l s

theorem bits_mask (x : U32) : bits (x &&& 0x1E).toNat 1 4 = bits x.toNat 1 4 := by
  unfold bits
  rw [BitVec.toNat_and]
  apply Nat.eq_of_testBit_eq
  intro i
  simp only [Nat.testBit_mod_two_pow, Nat.testBit_div_two_pow, Nat.testBit_and]
  by_cases hi : i < 4
  · have : i = 0 ∨ i = 1 ∨ i = 2 ∨ i = 3 := by omega
    rcases this with rfl | rfl | rfl | rfl <;> simp <;> intro _ <;> decide
  · simp [hi]

theorem zeroRing_hide (s : State) (h : Nat) (b : U64) (n j : Nat) : (s.zeroRing h b n).hide j = s.hide j := rfl

theorem upBuf_buf (s : State) (h b : Nat) (f : HostBuf → HostBuf) : ((s.upBuf h b f).hide h).buf b = f ((s.hide h).buf b) ∧
   (∀ c, c ≠ b → ((s.upBuf h b f).hide h).buf c = (s.hide h).buf c) ∧ ((s.upBuf h b f).hide h).a.err = (s.hide h).a.err := by
  unfold State.upBuf HideSt.buf
  rw [State.hide_upA]
  simp [amapUp]
  intro c hc; rw [AMap.get_set_other _ _ _ hc]

theorem bufErr_buf (s : State) (h : Nat) : (∀ c, ((s.bufErr h).hide h).buf c = (s.hide h).buf c) ∧ ((s.bufErr h).hide h).a.err = (s.hide h).a.err ||| 4 := by
  unfold State.bufErr HideSt.buf
  rw [State.hide_upA]; simp

theorem enqueue_second (s : State) (l o : Nat) (f : EgFrame) : f ∈ ((s.enqueue l o false f).gates.queues.get EgQueue.empty (egKey l o)).second := by
  unfold State.enqueue; dsimp only
  have T : ∀ (s : State) (l h : Nat), (s.tagHead l h).gates.queues = s.gates.queues := by
    intro s l h; unfold State.tagHead; dsimp only; split <;> rfl
  split
  · rw [T]; simp
  · simp

theorem ctOf_upCt (s : State) (h : Nat) (f : Ct → Ct) (g : Ct → Nat) : (s.upCt h f).ctOf h g = if (s.hide h).confidential then 0 else g (f (s.hide h).c.ct) := by
  unfold State.upCt State.ctOf
  split
  · rfl
  · next hc => rw [State.hide_upC]; exact if_neg hc

theorem failTokens_nil (s : State) (h : Nat) (e : (s.hide h).q.queue = []) : s.failTokens h = s := by
  unfold State.failTokens; dsimp only; rw [e]; rfl

theorem dmaEnds_wait (s : State) (h tag : Nat) (d : Dma) (e : (s.hide h).q.queue = []) (r : (s.hide h).q.reads tag = true) :
    s.dmaEnds h tag d = s.upO h (fun o => { o with dmas := o.dmas.set tag d }) := by
  unfold State.dmaEnds; dsimp only
  rw [r]
  split
  · rw [failTokens_nil]; rfl; rw [State.hide_upO]; exact e
  · rfl

end Sys2Proof.Machine
end

