-- ==== Sys2Proof/Laws/Admission.lean ====
section
/-!
SUPPORT. Lemmas on admission of an order, the record it keeps, and what leaves the queue part of a hide alone.
-/

namespace Sys2Proof.Machine
open Sys2Proof

/-- The queue part of a hide is the same. -/
def QSame (h : Nat) (s t : State) : Prop := (t.hide h).q = (s.hide h).q

theorem QSame.of_hides {h : Nat} {s t : State} (e : t.hides = s.hides) : QSame h s t := by unfold QSame State.hide; rw [e]

theorem QSame.refl (h : Nat) (s : State) : QSame h s s := rfl

theorem QSame.trans {h : Nat} {s t u : State} (a : QSame h s t) (b : QSame h t u) : QSame h s u := Eq.trans b a

theorem QSame.foldl {α : Type} {h : Nat} (f : State → α → State) (k : ∀ s a, QSame h s (f s a)) (l : List α) (s : State) :
    QSame h s (l.foldl f s) := by
  induction l generalizing s with
  | nil => rfl
  | cons a l ih => exact (k s a).trans (ih _)

theorem upO_q (s : State) (h : Nat) (f : OPart → OPart) : QSame h s (s.upO h f) := by unfold QSame; rw [State.hide_upO]

theorem enqueue_q (h : Nat) (s : State) (l o : Nat) (b : Bool) (f : EgFrame) : QSame h s (s.enqueue l o b f) :=
  QSame.of_hides ((State.enqueue_kept s l o b f).same .hides (by decide))

theorem startJob_q (s : State) (h : Nat) (j : Job) (l : Bool) : QSame h s (s.startJob h j l).1 := by
  unfold State.startJob
  dsimp only
  repeat' split
  all_goals first
    | exact upO_q _ _ _
    | (refine (upO_q _ _ _).trans (QSame.foldl _ ?_ _ _)
       intro s a
       first
         | (exact (enqueue_q _ _ _ _ _ _).trans (QSame.foldl _ (fun s a => enqueue_q _ _ _ _ _ _) _ _))
         | exact enqueue_q _ _ _ _ _ _
         | (split
            · exact (enqueue_q _ _ _ _ _ _).trans (QSame.foldl _ (fun s a => enqueue_q _ _ _ _ _ _) _ _)
            · exact enqueue_q _ _ _ _ _ _))

theorem readExtent_q (s : State) (h i : Nat) : QSame h s (s.readExtent h i).1 := by
  unfold State.readExtent
  dsimp only
  split <;> exact startJob_q _ _ _ _

theorem pumpFetches_q (s : State) (h : Nat) : QSame h s (s.pumpFetches h) := by
  unfold State.pumpFetches
  dsimp only
  refine QSame.foldl _ ?_ _ _
  intro s a
  repeat' split
  all_goals first
    | exact QSame.refl _ _
    | exact (readExtent_q _ _ _).trans (upO_q _ _ _)

theorem dropFetches_sameQ (s : State) (h seq : Nat) : QSame h s (s.dropFetches h seq) := (upO_q _ _ _).trans (pumpFetches_q _ _)

theorem dropFetches_q (s : State) (h seq : Nat) : ((s.dropFetches h seq).hide h).q.txns = (s.hide h).q.txns ∧ ((s.dropFetches h seq).hide h).q.used = (s.hide h).q.used ∧ ((s.dropFetches h seq).hide h).q.queue = (s.hide h).q.queue := by
  rw [dropFetches_sameQ s h seq]; exact ⟨rfl, rfl, rfl⟩

theorem admit_of {r : OrderRow} {s : State} {o : Order} {g : Grant} (A : Admits r s o g) (is : Order → Bool) (his : is o = true) (eff : State → Order → Flight → State) :
    s.admitFirst r.h r.c r.cls is r.fit eff = eff (s.taken r.h o g) o (s.newFlight r.h r.c o g.len g.target) := by
  obtain ⟨h1,h2,h3,h4,h5,h6,h7,h8,h9⟩ := A
  unfold State.admitFirst
  dsimp only
  rw [h1]
  dsimp only
  rw [if_neg (by simp [his, h3, h4, h5, h6]), if_neg (by simp [h7]), if_neg (by simp [h8]), h9]
  rfl

/-- Every row is an admission. -/
theorem row_admit {i : Instr} {r : OrderRow} {s : State} (e : orderRow i = some r) (hg : r.going s = false) :
    exec i s = .next (s.admitFirst r.h r.c r.cls r.is r.fit r.work) ∨
    (∃ h c e', i = .lookupPrefix h c e' ∧ r = ⟨h, c, .metaOrder, isOp 0x04, demandFit, fun _ => false, fun s => lookupWork h (s.now c) e' s⟩) := by
  cases i <;> simp only [orderRow, Option.some.injEq, reduceCtorEq] at e <;> try (subst e)
  all_goals first
    | exact Or.inr ⟨_, _, _, rfl, rfl⟩
    | (refine Or.inl ?_; rfl)
    | (refine Or.inl ?_
       simp only [Option.isSome_eq_false_iff, Option.isNone_iff_eq_none] at hg
       show Host.Outcome.next _ = _
       first | unfold State.run | unfold State.stepRow | skip
       rw [hg])

theorem exec_admits {i : Instr} {r : OrderRow} {s : State} {o : Order} {g : Grant} (e : orderRow i = some r) (hg : r.going s = false) (A : Admits r s o g) :
    exec i s = .next (r.work (s.taken r.h o g) o (s.newFlight r.h r.c o g.len g.target)) := by
  rcases row_admit e hg with h | ⟨h, c, e', rfl, rfl⟩
  · rw [h, admit_of A _ A.stands]
  · show Host.Outcome.next (s.admitFirst h c .metaOrder (isOp 0x04) demandFit (lookupWork h (s.now c) e')) = _
    exact congrArg _ (admit_of A _ A.stands _)

theorem taken_hide (s : State) (h : Nat) (o : Order) (g : Grant) : (s.taken h o g).hide h = { s.hide h with
    q := { (s.hide h).q with queue := (s.hide h).q.queue.filter (fun p => p.seq != o.seq) }.use s.plan.furlong g.uses
    c := { (s.hide h).c with telAdmitted := satInc (s.hide h).c.telAdmitted } } := by
  unfold State.taken; rw [State.hide_upHide, State.hide_upQ]

theorem taken_apart (s : State) (h : Nat) (o : Order) (g : Grant) : Apart h s (s.taken h o g) :=
  Apart.after (State.upHide_apart _ _ _) (State.upQ_apart _ _ _)

theorem upQ_txns (s : State) (h : Nat) (f : QPart → QPart) : ((s.upQ h f).hide h).q = f (s.hide h).q := by rw [State.hide_upQ]

/-- keep records -/
theorem keep_mem (s : State) (h : Nat) (f : Flight) (P : Placed s h f.order) :
    f ∈ ((s.keep h f).hide h).q.flights ++ ((s.keep h f).hide h).q.txns.flatMap (·.held) := by
  unfold State.keep
  split
  · next t ht =>
    split
    · obtain ⟨y, hy, hid⟩ := P t ht
      rw [State.hide_upQ]
      apply List.mem_append_right
      simp only [QPart.upTxn, List.mem_flatMap, List.mem_map]
      exact ⟨_, ⟨y, hy, rfl⟩, by simp [hid]⟩
    · rw [State.hide_upQ]; simp
  · rw [State.hide_upQ]; simp

theorem keep_ended (s : State) (h : Nat) (f : Flight) (P : Placed s h f.order) (he : f.ended = true) :
    Ended (s.keep h f) h f.order f.status f.result f.fx := ⟨f, keep_mem s h f P, rfl, he, rfl, rfl, rfl⟩

theorem settle_mem (s : State) (h : Nat) (f : Flight) (P : Placed s h f.order) :
    f ∈ ((s.settle h f).hide h).q.flights ++ ((s.settle h f).hide h).q.txns.flatMap (·.held) := by
  unfold State.settle
  split
  · next ha =>
    unfold State.putFlight
    split
    · apply keep_mem
      intro id hid
      obtain ⟨y, hy, e⟩ := P id hid
      refine ⟨y, ?_, e⟩
      unfold State.dropFlight; rw [State.hide_upQ]; exact hy
    · rw [State.hide_upQ]
      apply List.mem_append_left
      simp only [List.any_eq_true, beq_iff_eq] at ha
      obtain ⟨g, hg, e⟩ := ha
      exact List.mem_map.2 ⟨g, hg, by simp [e]⟩
  · exact keep_mem s h f P

theorem settle_ended (s : State) (h : Nat) (f : Flight) (P : Placed s h f.order) (he : f.ended = true) :
    Ended (s.settle h f) h f.order f.status f.result f.fx := ⟨f, settle_mem s h f P, rfl, he, rfl, rfl, rfl⟩

theorem close_clean (s : State) (h : Nat) (f : Flight) (e : Env) (he : e.suspects = []) : s.close h f e = s.settle h f := by
  unfold State.close State.hold; rw [he]; rfl

theorem admit_stays {s : State} {h c : Nat} {cls : SlotClass} {is : Order → Bool} {fit : HideSt → Order → Fit} {eff : State → Order → Flight → State} {o : Order}
    (hf : (s.hide h).q.front cls = some o) (hw :
     s.admitting h = false ∨ ordered h (s.hide h).q o = false ∨ waitsOver h (s.now c) (s.hide h) o = false ∨
      ((s.hide h).mismatch cls ((s.hide h).targets h o) (fit (s.hide h) o) = false ∧ (s.inMaintenance ((s.hide h).targets h o) = true ∨
        (s.hide h).grant s.plan.furlong c cls ((s.hide h).targets h o) ((fit (s.hide h) o).leaving ((s.hide h).lookupReserve (s.now c) cls)) = none))) :
    s.admitFirst h c cls is fit eff = s := by
  unfold State.admitFirst
  dsimp only
  rw [hf]
  dsimp only
  split
  · rfl
  · next hn =>
    rcases hw with hw | hw | hw | ⟨h1, h2⟩
    · simp [hw] at hn
    · simp [hw] at hn
    · simp [hw] at hn
    · rw [if_neg (by simp [h1])]
      split
      · rfl
      · rcases h2 with h2 | h2
        · contradiction
        · rw [h2]

theorem keep_rest (s : State) (h : Nat) (f : Flight) : ((s.keep h f).hide h).q.used = (s.hide h).q.used ∧ ((s.keep h f).hide h).q.queue = (s.hide h).q.queue := by
  unfold State.keep
  split
  · split <;> (rw [State.hide_upQ]; exact ⟨rfl, rfl⟩)
  · rw [State.hide_upQ]; exact ⟨rfl, rfl⟩

theorem admit_mism {s : State} {h c : Nat} {cls : SlotClass} {is : Order → Bool} {fit : HideSt → Order → Fit} {eff : State → Order → Flight → State} {o : Order}
    (hf : (s.hide h).q.front cls = some o) (h1 : is o = true) (h2 : s.admitting h = true) (h3 : ordered h (s.hide h).q o = true) (h4 : waitsOver h (s.now c) (s.hide h) o = true)
    (h5 : noReentry (s.hide h) s.plan.furlong cls = true) (h6 : (s.hide h).mismatch cls ((s.hide h).targets h o) (fit (s.hide h) o) = true) (P : Placed s h o) :
    let t := s.admitFirst h c cls is fit eff; Apart h s t ∧ Ended t h o stPlanMismatch [] [] ∧
      (t.hide h).q.used = (s.hide h).q.used ∧ (∀ p ∈ (t.hide h).q.queue, p.seq ≠ o.seq) := by
  intro t
  have e : t = ((s.upQ h (fun q => { q with queue := q.queue.filter (fun p => p.seq != o.seq) })).dropFetches h o.seq).keep h
      { (s.newFlight h c o 1 ((s.hide h).targets h o)).fail stPlanMismatch with ct := Ct.zero } := by
    show s.admitFirst h c cls is fit eff = _
    unfold State.admitFirst
    dsimp only
    rw [hf]
    dsimp only
    rw [if_neg (by simp [h1, h2, h3, h4, h5]), if_pos h6]
  have q := dropFetches_q (s.upQ h (fun q => { q with queue := q.queue.filter (fun p => p.seq != o.seq) })) h o.seq
  rw [upQ_txns] at q
  have ap : Apart h s ((s.upQ h (fun q => { q with queue := q.queue.filter (fun p => p.seq != o.seq) })).dropFetches h o.seq) :=
    Apart.after (State.dropFetches_apart _ _ _) (State.upQ_apart _ _ _)
  generalize ((s.upQ h (fun q => { q with queue := q.queue.filter (fun p => p.seq != o.seq) })).dropFetches h o.seq) = u at *
  have k := keep_rest u h { (s.newFlight h c o 1 ((s.hide h).targets h o)).fail stPlanMismatch with ct := Ct.zero }
  refine ⟨?_, ?_, ?_, ?_⟩
  · rw [e]; exact Apart.after (State.keep_apart _ _ _) ap
  · rw [e]
    exact keep_ended u h { (s.newFlight h c o 1 ((s.hide h).targets h o)).fail stPlanMismatch with ct := Ct.zero }
      (fun id hid => by rw [q.1]; exact P id hid) rfl
  · rw [e, k.1, q.2.1]
  · rw [e, k.2, q.2.2]; simp

end Sys2Proof.Machine
end

