-- ==== Sys2Proof/Laws/Requests.lean ====
section
/-!
SUPPORT. Lemmas on requests of the management port: when one is heard, what a reply and a record read send.
-/

namespace Sys2Proof.Machine
open Sys2Proof

theorem request_off {s : State} {q : Req} {typ : Nat} {need : Role} {f : State → State}
    (h : s.portOpen = false ∨ s.session q.session = none) : s.request q typ need f = s := by
  unfold State.request
  rcases h with h | h
  · rw [h]; rfl
  · rw [h]; split <;> rfl

theorem request_low {s : State} {q : Req} {typ : Nat} {need : Role} {f : State → State} {x : Session}
    (h : s.portOpen = true) (hx : s.session q.session = some x) (r : roleRank x.role < roleRank need) :
    s.request q typ need f = { s with mgmt := { s.mgmt with sent := s.mgmt.sent ++ [⟨q.session, typ, q.tag, mgNotPermitted, []⟩] } } := by
  unfold State.request
  rw [h, hx]
  exact if_pos r

theorem session_filter (s : State) (id j : Nat) :
    (s.mgmt.sessions.filter (fun x => x.id != id)).find? (fun x => x.id == j) = if j = id then none else s.session j := by
  unfold State.session
  induction s.mgmt.sessions with
  | nil => simp
  | cons a l ih =>
    by_cases h : a.id = id
    · by_cases k : j = id
      · subst k; simp [h] at ih ⊢
      · have : a.id ≠ j := fun e => k (e ▸ h)
        rw [if_neg k] at ih
        rw [List.filter_cons_of_neg (by simp [h]), List.find?_cons_of_neg (by simpa using this), ih, if_neg k]
    · rw [List.filter_cons_of_pos (by simp [h])]
      by_cases e : a.id = j
      · have : j ≠ id := fun k => h (e.trans k)
        rw [List.find?_cons_of_pos (by simpa using e), List.find?_cons_of_pos (by simpa using e), if_neg this]
      · rw [List.find?_cons_of_neg (by simpa using e), List.find?_cons_of_neg (by simpa using e), ih]

theorem close_spec (s : State) (id : Nat) (x : Session) (hx : s.session id = some x) :
    (s.closeSession id).session id = none ∧ (∀ j, j ≠ id → (s.closeSession id).session j = s.session j) ∧
      (∀ l, s.mgmt.openLoad = some l → l.by_ = .session id →
        Logged s (s.closeSession id) recConfig (bySession id) 0xFF [cfgCancel, 0, l.number, 0xFF] ∧
        (s.closeSession id).mgmt.loads = s.mgmt.loads.map (fun k => if k.number == l.number then { k with st := 2, result := 0 } else k)) ∧
      ((∀ l, s.mgmt.openLoad = some l → l.by_ ≠ .session id) →
        (s.closeSession id).mgmt.loads = s.mgmt.loads ∧ (s.closeSession id).box = s.box) := by
  have ha : s.mgmt.sessions.any (fun x => x.id == id) = true := by
    unfold State.session at hx
    rw [List.any_eq_true]
    exact ⟨x, List.mem_of_find?_eq_some hx, by simpa using List.find?_some hx⟩
  have key : ∀ t : State, t.mgmt.sessions = s.mgmt.sessions.filter (fun x => x.id != id) →
      t.session id = none ∧ ∀ j, j ≠ id → t.session j = s.session j := by
    intro t e
    constructor
    · unfold State.session; rw [e, session_filter, if_pos rfl]
    · intro j hj; unfold State.session; rw [e, session_filter, if_neg hj]; rfl
  unfold State.closeSession
  rw [ha]
  dsimp only
  have ho : ({ s.mgmt with sessions := s.mgmt.sessions.filter (fun x => x.id != id) } : Mgmt).openLoad = s.mgmt.openLoad := rfl
  rw [if_neg (by simp), ho]
  cases hl : s.mgmt.openLoad with
  | none => exact ⟨(key _ rfl).1, (key _ rfl).2, by simp, fun _ => ⟨rfl, rfl⟩⟩
  | some l =>
    dsimp only
    by_cases hb : l.by_ = .session id
    · rw [if_pos hb]
      refine ⟨(key _ ?_).1, (key _ ?_).2, ?_, fun h => absurd hb (h l rfl)⟩
      · rfl
      · rfl
      · rintro k ⟨⟩ -
        refine ⟨?_, rfl⟩
        obtain ⟨r, m, e, a, b, c, d⟩ := State.record_mem (({ s with mgmt := { s.mgmt with sessions := s.mgmt.sessions.filter (fun x => x.id != id) } } : State).upLoad l.number (fun l => { l with st := 2, result := 0 })) recConfig (bySession id) 0xFF [cfgCancel, 0, l.number, 0xFF]
        exact ⟨r, m, le_of_eq e.symm, a, b, c, d⟩
    · rw [if_neg hb]
      exact ⟨(key _ rfl).1, (key _ rfl).2, fun k e h => absurd h (by cases e; exact hb), fun _ => ⟨rfl, rfl⟩⟩

theorem heard_run {s : State} {q : Req} {need : Role} (hh : Heard s q need) (typ : Nat) (f : State → State) :
    s.request q typ need f = f s := by
  obtain ⟨h, x, hx, r⟩ := hh
  unfold State.request
  rw [h, hx]
  exact if_neg (Nat.not_lt.mpr r)

theorem reply_ok (s : State) (q : Req) (typ result : Nat) (body : List Byte) (h : result ≠ mgMalformed) :
    s.reply q typ result body = s.message ⟨q.session, typ, q.tag, result, body⟩ := if_pos h

theorem replied_message (s : State) (q : Req) (typ result : Nat) (body : List Byte) :
    Replied (s.message ⟨q.session, typ, q.tag, result, body⟩) q typ result body := by
  unfold Replied State.message; exact List.getLast?_concat ..

theorem message_only (s : State) (r : Reply) : Only [.mgmt] s (s.message r) := by
  intro p hp; cases p <;> first | rfl | exact absurd hp (by decide)

theorem wholeRecords_spec (room : Nat) (l : List Rec) : wholeRecords room l <+: l ∧ ((wholeRecords room l).map Rec.size).sum ≤ room ∧
    ∀ r rest, l = wholeRecords room l ++ r :: rest → room < ((wholeRecords room l).map Rec.size).sum + r.size := by
  induction l generalizing room with
  | nil => exact ⟨List.nil_prefix, Nat.zero_le _, fun r rest h => by simp [wholeRecords] at h⟩
  | cons a l ih =>
    unfold wholeRecords
    split
    · rename_i ha
      obtain ⟨p, q, m⟩ := ih (room - a.size)
      refine ⟨by simpa using p, by simp only [List.map_cons, List.sum_cons]; omega, fun r rest e => ?_⟩
      have := m r rest (by simpa using e)
      simp only [List.map_cons, List.sum_cons]; omega
    · rename_i ha
      refine ⟨List.nil_prefix, Nat.zero_le _, fun r rest e => ?_⟩
      simp only [List.nil_append, List.cons.injEq] at e
      rw [← e.1]; simp; omega

theorem word_high {o : Nat} (h : 0x1000000 ≤ o) : globalWordReg o = none := by
  have g : ∀ o, 0xFFFFFC ≤ o → globalReg o = none := by
    intro o h
    unfold globalReg
    have : 255 ≤ o / 0x10000 := by omega
    dsimp only
    split <;> first | rfl | omega
  unfold globalWordReg
  rw [g o (by omega)]
  dsimp only
  rw [if_pos (by omega), g (o - 4) (by omega)]

theorem clear_read (s : State) (r r' : GReg) (h : r.access = .rc) (h' : r'.access = .rc) :
    (s.globalClear r').globalRead r = if r' = r then 0 else s.globalRead r := by
  cases r' <;> first
    | exact absurd h' (by decide)
    | (simp [GReg.access] at h'; done)
    | (cases r <;> first
        | exact absurd h (by decide)
        | (simp [GReg.access] at h; done)
        | rfl
        | (simp [State.globalClear, State.globalRead]; done)
        | (rename_i a b
           simp only [State.globalClear, State.globalRead]
           by_cases e : b = a
           · subst e; simp
           · have e' : a ≠ b := fun k => e k.symm
             first
               | (rw [State.port_upPort_other _ _ e]; simp [e, e'])
               | (rw [State.port_upPort_other _ _ e']; simp [e, e'])
               | (rw [State.region_upRegion_other _ _ e]; simp [e, e'])
               | (rw [State.region_upRegion_other _ _ e']; simp [e, e'])))

def takeOne (s : State) (off : Nat) : State :=
    if 0x1000000 ≤ off then (if off % 0x100000 = 0x108 then { s with free := s.free + 1 } else s)
    else match globalWordReg off with
      | some (r, _) => if r.access = .rc then s.globalClear r else s
      | none => s

theorem free_read (s : State) (n : Nat) (r : GReg) (h : r.access = .rc) : ({ s with free := n } : State).globalRead r = s.globalRead r := by
  cases r <;> first | rfl | (simp [GReg.access] at h; done)

theorem takeOne_read (s : State) (o : Nat) (r : GReg) (h : r.access = .rc) :
    (takeOne s o).globalRead r = if (globalWordReg o).any (fun p => p.1 == r) then 0 else s.globalRead r := by
  unfold takeOne
  by_cases ho : 0x1000000 ≤ o
  · rw [if_pos ho, word_high ho]
    split
    · exact free_read _ _ _ h
    · rfl
  · rw [if_neg ho]
    cases hw : globalWordReg o with
    | none => rfl
    | some p =>
      obtain ⟨r', b⟩ := p
      dsimp only
      by_cases ha : r'.access = .rc
      · rw [if_pos ha, clear_read _ _ _ h ha]; simp
      · rw [if_neg ha]
        have : r' ≠ r := fun e => ha (e ▸ h)
        simp [this]

theorem take_read (l : List Nat) (s : State) (r : GReg) (h : r.access = .rc) :
    (s.globalTake l).globalRead r = if l.any (fun o => (globalWordReg o).any (fun p => p.1 == r)) then 0 else s.globalRead r := by
  show (l.foldl takeOne s).globalRead r = _
  induction l generalizing s with
  | nil => rfl
  | cons a l ih =>
    rw [List.foldl_cons, ih, takeOne_read _ _ _ h, List.any_cons]
    cases (globalWordReg a).any (fun p => p.1 == r) <;> simp

theorem message_read (s : State) (m : Reply) (r : GReg) (h : r.access = .rc) : (s.message m).globalRead r = s.globalRead r := by
  cases r <;> first | rfl | (simp [GReg.access] at h; done)

theorem tel_hide (s : State) (h : Nat) : s.telemetryTaken.hide h = { s.hide h with c := (s.hide h).c.telZero } := by
  unfold State.telemetryTaken State.hide
  dsimp only
  generalize s.hides = l
  induction l with
  | nil => rfl
  | cons a l ih =>
    obtain ⟨k, v⟩ := a
    rw [List.map_cons]
    by_cases e : k = h
    · simp [AMap.get, e]
    · simpa [AMap.get, e] using ih

theorem tel_only (s : State) : Only [.hides] s s.telemetryTaken := by
  intro p hp; cases p <;> first | rfl | exact absurd hp (by decide)

theorem subscribe_find (l : List Session) (f : Session → Session) (id j : Nat) (hf : ∀ x, (f x).id = x.id) :
    (l.map (fun x => if x.id = id then f x else x)).find? (fun x => x.id == j) =
      (l.find? (fun x => x.id == j)).map (fun x => if x.id = id then f x else x) := by
  induction l with
  | nil => rfl
  | cons a l ih =>
    have e : (if a.id = id then f a else a).id = a.id := by split <;> simp [hf]
    rw [List.map_cons]
    by_cases k : a.id = j
    · rw [List.find?_cons_of_pos (by simpa [e] using k), List.find?_cons_of_pos (by simpa using k)]; rfl
    · rw [List.find?_cons_of_neg (by simpa [e] using k), List.find?_cons_of_neg (by simpa using k), ih]

theorem le_len (n v : Nat) : (leBytes n v).length = n := by
  induction n generalizing v with
  | zero => rfl
  | succ n ih => simp [leBytes, ih]

theorem probe_reply (s : State) (nonce : BitVec 64) : (s.probeReply nonce).length = 64 ∧
    (s.probeReply nonce).take 18 = leBytes 16 Config.deviceSerial.toNat ++ leBytes 2 0x0960 ∧
    ((s.probeReply nonce).drop 27).take 8 = leBytes 8 nonce.toNat := by
  unfold State.probeReply
  dsimp only
  generalize hA : leBytes 16 Config.deviceSerial.toNat ++ leBytes 2 0x0960 = A
  have la : A.length = 18 := by rw [← hA, List.length_append, le_len, le_len]
  generalize hN : leBytes 8 nonce.toNat = N
  have ln : N.length = 8 := by rw [← hN, le_len]
  generalize hM : leBytes 1 s.dex.life.code ++ leBytes 1 s.dex.testCode ++ leBytes 1 s.code ++ leBytes 1 (flag s.plan.lean 0) ++
    leBytes 1 (flag s.box.warns 0) ++ leBytes 4 (if s.ioUp = true then (s.power.ticks - s.mgmt.releaseTick) / 32768 else 0) = M
  have lm : M.length = 9 := by rw [← hM]; simp [le_len]
  have e : A ++ leBytes 1 s.dex.life.code ++ leBytes 1 s.dex.testCode ++ leBytes 1 s.code ++ leBytes 1 (flag s.plan.lean 0) ++
    leBytes 1 (flag s.box.warns 0) ++ leBytes 4 (if s.ioUp = true then (s.power.ticks - s.mgmt.releaseTick) / 32768 else 0) ++ N =
      A ++ (M ++ N) := by rw [← hM]; simp
  rw [e]
  refine ⟨?_, ?_, ?_⟩
  · simp [la, lm, ln]
  · rw [List.append_assoc, List.take_left' la]
  · have : A ++ (M ++ N) ++ List.replicate (64 - (A ++ (M ++ N)).length) 0 =
        (A ++ M) ++ (N ++ List.replicate (64 - (A ++ (M ++ N)).length) 0) := by simp
    rw [this, List.drop_left' (by simp [la, lm]), List.take_left' ln]

end Sys2Proof.Machine
end

