-- ==== Sys2Proof/Laws/LoadRequests.lean ====
section
/-!
SUPPORT. Lemmas on replies, records and the staging of loads.
-/

namespace Sys2Proof.Machine
open Sys2Proof

theorem reply_0 (s : State) (q : Req) (typ : Nat) (body : List Byte) : s.reply q typ 0 body = s.message ⟨q.session, typ, q.tag, 0, body⟩ := rfl

theorem reply_busy (s : State) (q : Req) (typ : Nat) (body : List Byte) : s.reply q typ ldBusy body = s.message ⟨q.session, typ, q.tag, ldBusy, body⟩ := rfl

theorem reply_range (s : State) (q : Req) (typ : Nat) (body : List Byte) : s.reply q typ mgRange body = s.message ⟨q.session, typ, q.tag, mgRange, body⟩ := rfl

theorem reply_perm (s : State) (q : Req) (typ : Nat) (body : List Byte) : s.reply q typ mgNotPermitted body = s.message ⟨q.session, typ, q.tag, mgNotPermitted, body⟩ := rfl

theorem logged_record (s u : State) (typ : Nat) (o : Origin) (region : Nat) (body : List Nat) (h : u.box = s.box) :
    Logged s (u.record typ o region body) typ o region body := by
  obtain ⟨r, m, e, a, b, c, d⟩ := State.record_mem u typ o region body
  exact ⟨r, m, by rw [e, h], a, b, c, d⟩

theorem logged_of {s t u : State} {typ : Nat} {o : Origin} {region : Nat} {body : List Nat} (h : Logged s u typ o region body)
    (e : t.box = u.box) : Logged s t typ o region body := by unfold Logged at *; rw [e]; exact h

theorem config_mgmt (s : State) (o : Origin) (k r : Nat) (v : List Nat) (h : Nat) : (s.config o k r v h).mgmt = s.mgmt := by
  unfold State.config State.record
  simp [recConfig, recFault, recVariant, recPower, recReset, recLink]

theorem session_load {s : State} {n : Nat} {l : Load} (h : s.sessionLoad n = some l) :
    s.mgmt.openLoad = some l ∧ l.number = n ∧ ∃ k, l.by_ = .session k := by
  unfold State.sessionLoad at h
  cases ho : s.mgmt.openLoad with
  | none => rw [ho] at h; simp at h
  | some k =>
    rw [ho] at h
    dsimp only at h
    cases hb : k.by_ with
    | doe _ => rw [hb] at h; simp at h
    | session j =>
      rw [hb] at h
      dsimp only at h
      split at h
      · cases h; exact ⟨rfl, ‹_›, j, hb⟩
      · cases h

theorem reply_same (s : State) (q : Req) (typ r : Nat) (body : List Byte) : Replied (s.reply q typ r body) q typ r body ∧
    Only [.mgmt, .box] s (s.reply q typ r body) ∧
    ∀ n, (∀ k ∈ s.mgmt.loads, k.number = n → k.st = 2) → ∀ k ∈ (s.reply q typ r body).mgmt.loads, k.number = n → k.st = 2 := by
  by_cases h : r = mgMalformed
  · have key : ∀ (u : State) (id : Nat), (u.closeSession id).mgmt.sent = u.mgmt.sent ∧
        ∀ n, (∀ k ∈ u.mgmt.loads, k.number = n → k.st = 2) → ∀ k ∈ (u.closeSession id).mgmt.loads, k.number = n → k.st = 2 := by
      intro u id
      unfold State.closeSession
      dsimp only
      split
      · exact ⟨rfl, fun n h => h⟩
      · split
        · split
          · unfold State.discardLoad
            rw [config_mgmt]
            refine ⟨rfl, fun n h k hk e => ?_⟩
            obtain ⟨k', m, rfl⟩ := List.mem_map.mp hk
            split at e
            · rename_i c; rw [if_pos c]
            · rename_i c; rw [if_neg c]; exact h _ m e
          · exact ⟨rfl, fun n h => h⟩
        · exact ⟨rfl, fun n h => h⟩
    have only := fun p hp => (State.reply_kept s q typ r body).same p hp
    refine ⟨?_, only, ?_⟩
    · unfold State.reply
      rw [if_neg (by simp [h])]
      dsimp only
      have e0 := replied_message s q typ r body
      split
      · split
        · unfold Replied at *; rw [(key _ _).1]; exact e0
        · exact e0
      · exact e0
    · intro n hn
      unfold State.reply
      rw [if_neg (by simp [h])]
      dsimp only
      split
      · split
        · exact (key _ _).2 n hn
        · exact hn
      · exact hn
  · rw [reply_ok _ _ _ _ _ h]
    exact ⟨replied_message _ _ _ _ _, fun p hp => message_only _ _ p (fun k => hp (by simp_all)), fun n hn => hn⟩

theorem upLoad_num (s : State) (n : Nat) (f : Load → Load) (hf : ∀ k, (f k).number = k.number) (P : Load → Prop) (hP : ∀ k, P (f k)) :
    ∀ k ∈ (s.upLoad n f).mgmt.loads, k.number = n → P k := by
  intro k hk e
  obtain ⟨k', m, rfl⟩ := List.mem_map.mp hk
  by_cases c : (k'.number == n) = true
  · rw [if_pos c] at e ⊢; exact hP _
  · rw [if_neg c] at e; simp [e] at c

theorem openLoad_up {l : List Load} {k : Load} (f : Load → Load) (h : l.find? (fun l => l.st == 4) = some k) (hf : ∀ x, (f x).st = x.st) :
    (l.map (fun x => if x.number == k.number then f x else x)).find? (fun l => l.st == 4) = some (f k) := by
  induction l with
  | nil => simp at h
  | cons a l ih =>
    have e : (if a.number == k.number then f a else a).st = a.st := by split <;> simp [hf]
    rw [List.map_cons]
    by_cases c : a.st = 4
    · rw [List.find?_cons_of_pos (by simpa using c)] at h
      cases h
      rw [List.find?_cons_of_pos (by simpa [hf] using c)]
      simp
    · rw [List.find?_cons_of_neg (by simpa using c)] at h
      rw [List.find?_cons_of_neg (by rw [e]; simpa using c)]
      exact ih h

theorem loadBytes_take (s : State) (l : Load) (off len : Nat) (o : Origin) (h : s.mgmt.openLoad = some l) (h4 : len % 4 = 0)
    (e : off = l.received) (hs : off + len ≤ l.size) :
    (s.loadBytes l off len o) = (s.upLoad l.number (fun l => { l with received := off + len }), 0) ∧
    (s.upLoad l.number (fun l => { l with received := off + len })).mgmt.openLoad = some { l with received := off + len } := by
  constructor
  · unfold State.loadBytes
    rw [if_neg (by simp [h4]), if_neg (by simp [e]), if_neg (by omega)]
  · exact openLoad_up (fun l => { l with received := off + len }) h (fun _ => rfl)

theorem loadBytes_gap (s : State) (l : Load) (off len : Nat) (o : Origin) (h4 : len % 4 = 0) (e : off ≠ l.received) :
    s.loadBytes l off len o = (s.discardLoad l mgMalformed o, mgMalformed) := by
  unfold State.loadBytes
  rw [if_neg (by simp [h4]), if_pos e]

theorem discard_spec (s : State) (l : Load) (c : Nat) (o : Origin) :
    (∀ k ∈ (s.discardLoad l c o).mgmt.loads, k.number = l.number → k.st = 2) ∧ (s.discardLoad l c o).mgmt.sent = s.mgmt.sent ∧
    (s.discardLoad l c o).mgmt.raw = s.mgmt.raw ∧
    Logged s (s.discardLoad l c o) recConfig o 0xFF [cfgCancel, c, l.number, 0xFF] ∧ Only [.mgmt, .box] s (s.discardLoad l c o) := by
  refine ⟨?_, ?_, ?_, logged_record _ _ _ _ _ _ rfl, fun p hp => (State.discardLoad_kept s l c o).same p hp⟩
  · unfold State.discardLoad
    rw [config_mgmt]
    exact upLoad_num s l.number (fun l => { l with st := 2, result := c }) (fun _ => rfl) (fun k => k.st = 2) (fun _ => rfl)
  · unfold State.discardLoad; rw [config_mgmt]; rfl
  · unfold State.discardLoad; rw [config_mgmt]; rfl

theorem only_trans {T : List Part} {s t u : State} (a : Only T s t) (b : Only T t u) : Only T s u := by
  intro p hp
  have := a p hp; have := b p hp
  cases p <;> exact Eq.trans (b _ hp) (a _ hp)

theorem doe_run {s : State} {ld h : Nat} (hu : s.doeUp ld = true) (hr : s.reamActive = true) (hh : s.hideOfLd ld = some h) (op : Nat)
    (f : State → Option Nat → State × Nat × Nat × Nat) :
    s.doe ld op f = (f s (some h)).1.raw (doeHeader op (f s (some h)).2.1 (f s (some h)).2.2.1 (f s (some h)).2.2.2) := by
  unfold State.doe
  rw [hu, hr, hh]
  rfl

theorem raw_only (s : State) (b : List Byte) : Only [.mgmt] s (s.raw b) := by
  intro p hp; cases p <;> first | rfl | exact absurd hp (by decide)

theorem only_more {T U : List Part} {s t : State} (a : Only T s t) (h : ∀ p ∈ T, p ∈ U) : Only U s t := fun p hp => a p (fun k => hp (h p k))

theorem own_open {s : State} {l : Load} {h : Nat} (ho : s.mgmt.openLoad = some l) (hb : l.by_ = .doe h) : s.ownOpen (some h) l.number = some l := by
  unfold State.ownOpen; rw [ho]; exact if_pos ⟨rfl, hb⟩

theorem own_other {s : State} {l : Load} {h : Nat} (ho : s.mgmt.openLoad = some l) (hb : l.by_ ≠ .doe h) (n : Nat) : s.ownOpen (some h) n = none := by
  unfold State.ownOpen; rw [ho]; exact if_neg (fun k => hb k.2)

theorem firstCode_ne (l : List (Bool × Nat)) (c : Nat) (h0 : c ≠ ldOk) (h : l.all (fun p => p.2 != c) = true) : firstCode l ≠ c := by
  induction l with
  | nil => exact fun e => h0 e.symm
  | cons a l ih =>
    obtain ⟨b, d⟩ := a
    simp only [List.all_cons, Bool.and_eq_true] at h
    unfold firstCode
    split
    · exact ih h.2
    · simpa using h.1

theorem firstCode_ok (l : List (Bool × Nat)) (hl : l.all (fun p => p.2 != ldOk) = true) (h : firstCode l = ldOk) : ∀ p ∈ l, p.1 = true := by
  induction l with
  | nil => simp
  | cons a l ih =>
    obtain ⟨b, d⟩ := a
    simp only [List.all_cons, Bool.and_eq_true] at hl
    unfold firstCode at h
    split at h
    · rename_i hb
      intro p hp
      rcases List.mem_cons.mp hp with rfl | hp
      · exact hb
      · exact ih hl.2 h p hp
    · rw [h] at hl; simp at hl

theorem ream_ne (s : State) (m : Ream) (n : Nat) : s.validateReam m n ≠ mgMalformed := firstCode_ne _ _ (by decide) rfl

theorem section_ne (s : State) (m : Ream) (n : Nat) : s.validateSection m n ≠ mgMalformed := by
  unfold State.validateSection
  split <;> exact firstCode_ne _ _ (by decide) rfl

theorem package_ne (s : State) (p : Package) (n : Nat) : s.validatePackage p n ≠ mgMalformed := firstCode_ne _ _ (by decide) rfl

theorem endLoad_logged (s : State) (l : Load) (kind st code d h : Nat) : Logged s (s.endLoad l kind st code d h) recConfig (l.origin s) 0xFF ([kind, code] ++ digestWords d ++ [h]) := logged_record _ _ _ _ _ _ rfl

theorem endLoad_only (s : State) (l : Load) (kind st code d h : Nat) : Only [.mgmt, .box] s (s.endLoad l kind st code d h) :=
  fun p hp => (State.endLoad_kept s l kind st code d h).same p hp

theorem trigger_in (s : State) (w : Switch) : w ∈ (s.trigger w).plan.triggers ∧ (s.trigger w).plan.staged = s.plan.staged ∧ (s.trigger w).box = s.box ∧ (s.trigger w).hides = s.hides := by
  unfold State.trigger
  split
  · rename_i h; exact ⟨by simpa using h, rfl, rfl, rfl⟩
  · exact ⟨by simp, rfl, rfl, rfl⟩

theorem loadEnd_eq {s : State} {q : Req} {l : Load} (hh : Heard s q .operator) (hl : s.sessionLoad l.number = some l) (image : LoadImage) :
    loadEnd q l.number image s = (s.finishLoad l image).1.reply q msgLoadEnd (s.finishLoad l image).2 (leBytes 4 (s.finishLoad l image).2) := by
  unfold loadEnd
  rw [heard_run hh, hl]

def stagedWith (s : State) (l : Load) (k : Section) (own : Bool) (code : Nat) : State × Nat :=
  let s := s.endLoad l cfgSection (loadSt code) code k.digest k.hide
  let s := s.upHide k.hide (fun x => { x with loadStat := ⟨code, if code = ldOk then 1 else 3, l.mode == 1, own⟩ })
  if code = ldOk then
    ((s.upHide k.hide (fun x => { x with staged := some ⟨k, l.mode == 1, l.number, 0⟩ })).trigger (.sect k.hide), code)
  else (s, code)

theorem stage_doe (s : State) (l : Load) (m : Ream) (k : Section) (ho : onlySection m = some k) (h : Nat) (hb : l.by_ = .doe h) :
    s.stageSection l m = stagedWith s l k true (if k.hide = h then s.validateSection m l.received else ldLayout) := by
  have e : (if k.hide = h then s.validateSection m l.received else ldLayout) = (if (h != k.hide) = true then ldLayout else s.validateSection m l.received) := by
    by_cases c : k.hide = h
    · simp [c]
    · have : h ≠ k.hide := fun x => c x.symm
      simp [c, this]
  rw [e]
  obtain ⟨n, b, kk, mo, sz, re, st, rs, fu⟩ := l
  dsimp only at hb
  subst hb
  unfold State.stageSection stagedWith
  rw [ho]
  rfl

theorem stage_session (s : State) (l : Load) (m : Ream) (k : Section) (ho : onlySection m = some k) (h : Nat) (hb : l.by_ = .session h) :
    s.stageSection l m = stagedWith s l k false (s.validateSection m l.received) := by
  obtain ⟨n, b, kk, mo, sz, re, st, rs, fu⟩ := l
  dsimp only at hb
  subst hb
  unfold State.stageSection stagedWith
  rw [ho]
  rfl

theorem section_spec (s : State) (l : Load) (m : Ream) (k : Section) (own : Bool) (code : Nat)
    (hc : s.stageSection l m = stagedWith s l k own code) :
    (s.stageSection l m).2 = code ∧ Only [.plan, .hides, .mgmt, .box] s (s.stageSection l m).1 ∧ Apart k.hide s (s.stageSection l m).1 ∧
    ((s.stageSection l m).1.hide k.hide).staged = if code = ldOk then some ⟨k, l.mode == 1, l.number, 0⟩ else (s.hide k.hide).staged := by
  have only : Only [.plan, .hides, .mgmt, .box] s (s.stageSection l m).1 := fun p hp => (State.stageSection_kept s l m).same p hp
  refine ⟨?_, only, ?_⟩
  · rw [hc]
    unfold stagedWith
    dsimp only
    split <;> rfl
  · rw [hc]
    unfold stagedWith
    dsimp only
    generalize he : s.endLoad l cfgSection (loadSt code) code k.digest k.hide = u
    have hu : u.hides = s.hides := by rw [← he]; exact (State.endLoad_kept s l _ _ _ _ _).same .hides (by decide)
    have hh : ∀ j, u.hide j = s.hide j := fun j => by unfold State.hide; rw [hu]
    by_cases c : code = ldOk
    · rw [if_pos c, if_pos c]
      constructor
      · intro j hj
        rw [show (State.trigger _ _).hide j = _ from congrArg (fun l => l.get HideSt.reset j) (trigger_in _ _).2.2.2]
        show (State.upHide _ _ _).hide j = _
        rw [State.hide_upHide_other _ _ hj, State.hide_upHide_other _ _ hj, hh]
      · rw [show (State.trigger _ _).hide k.hide = _ from congrArg (fun l => l.get HideSt.reset k.hide) (trigger_in _ _).2.2.2]
        show ((State.upHide _ _ _).hide k.hide).staged = _
        rw [State.hide_upHide, if_pos c]
    · rw [if_neg c, if_neg c]
      constructor
      · intro j hj
        rw [State.hide_upHide_other _ _ hj, hh]
      · rw [State.hide_upHide, hh, if_neg c]

end Sys2Proof.Machine
end

