-- ==== Sys2Proof/Laws/AdminRequests.lean ====
section
/-!
SUPPORT. Lemmas on the register writes and the changes of the Dexfoti core.
-/

namespace Sys2Proof.Machine
open Sys2Proof

theorem config_logged (s u : State) (o : Origin) (k r : Nat) (v : List Nat) (h : Nat) (e : s.box.next ≤ u.box.next) :
    Logged s (u.config o k r v h) recConfig o 0xFF ([k, r] ++ v ++ [h]) := by
  obtain ⟨x, m, e', a, b, c, d⟩ := State.record_mem u recConfig o 0xFF ([k, r] ++ v ++ [h])
  exact ⟨x, m, by rw [e']; exact e, a, b, c, d⟩

theorem config_only (s : State) (o : Origin) (k r : Nat) (v : List Nat) (h : Nat) : Only [.mgmt, .box] s (s.config o k r v h) :=
  fun p hp => (State.config_kept s o k r v h).same p hp

theorem close_facts (s : State) (id : Nat) : (s.closeSession id).mgmt.sent = s.mgmt.sent ∧ (s.closeSession id).mgmt.net = s.mgmt.net ∧
    (s.closeSession id).mgmt.netUsed = s.mgmt.netUsed ∧ (s.closeSession id).session id = none ∧
    ∀ j, s.session j = none → (s.closeSession id).session j = none := by
  have key : ∀ t : State, t.mgmt.sessions = s.mgmt.sessions.filter (fun x => x.id != id) →
      t.session id = none ∧ ∀ j, s.session j = none → t.session j = none := by
    intro t e
    constructor
    · unfold State.session; rw [e, session_filter, if_pos rfl]
    · intro j hj; unfold State.session; rw [e, session_filter]; split
      · rfl
      · exact hj
  unfold State.closeSession
  by_cases ha : s.mgmt.sessions.any (fun x => x.id == id) = true
  · rw [ha]
    dsimp only
    rw [if_neg (by simp)]
    split
    · split
      · unfold State.discardLoad
        unfold State.session at key ⊢
        rw [config_mgmt]
        exact ⟨rfl, rfl, rfl, key _ rfl⟩
      · exact ⟨rfl, rfl, rfl, key _ rfl⟩
    · exact ⟨rfl, rfl, rfl, key _ rfl⟩
  · rw [if_pos (by simpa using ha)]
    refine ⟨rfl, rfl, rfl, ?_, fun j h => h⟩
    unfold State.session
    rw [List.find?_eq_none]
    intro x hx e
    exact ha (List.any_eq_true.mpr ⟨x, hx, e⟩)

theorem closes_facts (l : List Nat) (s : State) : let t := l.foldl State.closeSession s
    t.mgmt.sent = s.mgmt.sent ∧ t.mgmt.net = s.mgmt.net ∧ t.mgmt.netUsed = s.mgmt.netUsed ∧ Only [.mgmt, .box] s t ∧
    (∀ j, s.session j = none → t.session j = none) ∧ (∀ j ∈ l, t.session j = none) ∧ (∀ r ∈ s.box.recs, True) ∧
    s.box.next ≤ t.box.next := by
  intro t
  induction l generalizing s with
  | nil => exact ⟨rfl, rfl, rfl, fun p hp => (Kept.refl [.mgmt, .box] s).same p hp, fun j h => h, by simp, fun _ _ => trivial, le_refl _⟩
  | cons a l ih =>
    obtain ⟨c1, c2, c3, c4, c5⟩ := close_facts s a
    obtain ⟨i1, i2, i3, i4, i5, i6, -, i7⟩ := ih (s.closeSession a)
    refine ⟨i1.trans c1, i2.trans c2, i3.trans c3, only_trans (fun p hp => (State.closeSession_kept s a).same p hp) i4,
      fun j h => i5 j (c5 j h), ?_, fun _ _ => trivial, le_trans (State.closeSession_kept s a).seq i7⟩
    intro j hj
    rcases List.mem_cons.mp hj with rfl | hj
    · exact i5 _ c4
    · exact i6 j hj

theorem globalWrite_seq (s : State) (r : GReg) (v : Nat) : s.box.next ≤ (s.globalWrite r v).box.next := (State.globalWrite_kept s r v).seq

theorem dex_only {s t : State} (d : Dex) (h : Only [.mgmt, .box] { s with dex := d } t) : Only [.dex, .mgmt, .box] s t := by
  intro p hp
  refine only_trans (T := [.dex, .mgmt, .box]) (t := { s with dex := d }) ?_ (only_more h (by simp)) p hp
  intro p hp; cases p <;> first | rfl | exact absurd hp (by decide)

/-- A change of Dexfoti that is logged and answered. -/
theorem dex_spec (s : State) (d : Dex) (q : Req) (typ : Nat) (body : List Byte) (k r : Nat) (v : List Nat) (hr : r ≠ mgMalformed) :
    let t := (({ s with dex := d } : State).config (bySession q.session) k r v 0xFF).message ⟨q.session, typ, q.tag, r, body⟩
    Only [.dex, .mgmt, .box] s t ∧ t.dex = d ∧ Replied t q typ r body ∧ Logged s t recConfig (bySession q.session) 0xFF ([k, r] ++ v ++ [0xFF]) := by
  intro t
  refine ⟨dex_only d (only_trans (config_only _ _ _ _ _ _) (only_more (message_only _ _) (by simp))), rfl, replied_message _ _ _ _ _, ?_⟩
  exact logged_of (config_logged s ({ s with dex := d } : State) (bySession q.session) k r v 0xFF (le_refl _)) rfl

theorem message_spec (s : State) (q : Req) (typ r : Nat) (body : List Byte) :
    let t := s.message ⟨q.session, typ, q.tag, r, body⟩
    Only [.dex, .mgmt, .box] s t ∧ t.dex = s.dex ∧ t.box = s.box ∧ Replied t q typ r body :=
  ⟨only_more (message_only _ _) (by simp), rfl, rfl, replied_message _ _ _ _ _⟩

theorem no_anchors {d : Dex} {k : Nat} (h : d.anchorsOf k = 0) : ∀ x ∈ d.anchors, x.kind ≠ k := by
  intro x hx e
  unfold Dex.anchorsOf at h
  simp at h
  exact h x hx e

end Sys2Proof.Machine
end

