-- ==== Sys2Proof/Laws/Transactions.lean ====
section
/-!
SUPPORT. Lemmas on the checks of a request, the transactions it opens and the verdict of their members.
-/

namespace Sys2Proof.Machine
open Sys2Proof

theorem police_spec {q p : QPart} {a b : U64} {n : Nat} (h : q.police a b n = some p) :
    p.txns = q.txns ∧ p.orders = q.orders ∧ p.comps = q.comps ∧ p.nextTxn = q.nextTxn ∧ p.events = q.events ∧ p.queue = q.queue := by
  unfold QPart.police at h
  dsimp only at h
  split at h
  · cases h
  · cases h; exact ⟨rfl, rfl, rfl, rfl, rfl, rfl⟩

theorem checks_spec (s : State) (h : Nat) (o : Order) : let c := s.checks h o
    Apart h s c.1 ∧ Only [.hides] s c.1 ∧ (c.1.hide h).o = (s.hide h).o ∧ (c.1.hide h).q.txns = (s.hide h).q.txns ∧
    (c.1.hide h).q.orders = (s.hide h).q.orders ∧ (c.1.hide h).q.comps = (s.hide h).q.comps ∧
    (c.1.hide h).q.nextTxn = (s.hide h).q.nextTxn ∧ (c.1.hide h).q.events = (s.hide h).q.events := by
  intro c
  refine ⟨State.checks_apart s h o, fun p hp => (State.checks_kept s h o).same p hp, ?_⟩
  have e : c = s.checks h o := rfl
  clear_value c
  unfold State.checks at e
  dsimp only at e
  split at e
  · subst e; exact ⟨rfl, rfl, rfl, rfl, rfl, rfl⟩
  · split at e
    · subst e; exact ⟨rfl, rfl, rfl, rfl, rfl, rfl⟩
    · split at e
      · subst e; exact ⟨rfl, rfl, rfl, rfl, rfl, rfl⟩
      · split at e
        · subst e; rw [State.hide_upC]; exact ⟨rfl, rfl, rfl, rfl, rfl, rfl⟩
        · rename_i q hq
          have k : q.txns = (s.hide h).q.txns ∧ q.orders = (s.hide h).q.orders ∧ q.comps = (s.hide h).q.comps ∧
              q.nextTxn = (s.hide h).q.nextTxn ∧ q.events = (s.hide h).q.events := by
            split at hq
            · cases hq; exact ⟨rfl, rfl, rfl, rfl, rfl⟩
            · obtain ⟨a, b, c, d, f, -⟩ := police_spec hq; exact ⟨a, b, c, d, f⟩
          have m : c.1 = s.upQ h (fun _ => q) := by
            subst e
            repeat' split
            all_goals rfl
          rw [m, State.hide_upQ]
          exact ⟨rfl, k.1, k.2.1, k.2.2.1, k.2.2.2.1, k.2.2.2.2⟩

theorem front_eq {s : State} {h : Nat} {o : Order} {rest : List Order} (hd : (s.hide h).q.dispatch = o :: rest) (hm : o.marker = true)
    {op : Nat} (ho : o.opcode = op) (eff : State → Order → State) :
    s.takeMarker h op eff = (eff (s.upQ h (fun q => { q with dispatch := rest })) o).dispatchAll h := by
  unfold State.takeMarker State.frontMarker
  rw [hd]
  dsimp only
  rw [if_pos (by simp [hm, ho])]

theorem mem_upTxn {l : List Txn} {y : Txn} (hy : y ∈ l) (f : Txn → Txn) : f y ∈ l.map (fun t => if t.id == y.id then f t else t) :=
  List.mem_map.mpr ⟨y, hy, by simp⟩

theorem openTxn_mem {q : QPart} {ring : Nat} {y : Txn} (h : q.openTxn ring = some y) : y ∈ q.txns ∧ (q.orders.get OrderRing.reset ring).txn = some y.id := by
  unfold QPart.openTxn at h
  split at h
  · cases h
  · rename_i id hid
    have := List.find?_some h
    exact ⟨List.mem_of_find?_eq_some h, by rw [hid]; simp at this; rw [this]⟩

theorem upRing_get (q : QPart) (n : Nat) (f : OrderRing → OrderRing) : (q.upRing n f).orders.get OrderRing.reset n = f (q.orders.get OrderRing.reset n) := by
  unfold QPart.upRing amapUp; simp

theorem freeExtentNow_q (s : State) (h e : Nat) : QSame h s (s.freeExtentNow h e) := by
  have A : ∀ (s : State) (p lba n : Nat), QSame h s (s.askTrim h p lba n) := by
    intro s p lba n
    unfold State.askTrim
    split
    · exact enqueue_q _ _ _ _ _ _
    · unfold State.trimRefused State.trimEnds State.withhold State.countFlash
      have P : ∀ (s : State) f, QSame h s (s.upPort p f) := fun _ _ => rfl
      have H : ∀ (s : State) (f : HideSt → HideSt), (∀ x, (f x).q = x.q) → QSame h s (s.upHide h f) := fun s f k => by unfold QSame; rw [State.hide_upHide, k]
      dsimp only
      rw [if_neg (by decide)]
      exact (P _ _).trans ((upO_q _ _ _).trans ((upO_q _ _ _).trans ((P _ _).trans (H _ _ (fun _ => rfl)))))
  unfold State.freeExtentNow
  dsimp only
  repeat' split
  all_goals first
    | exact QSame.refl _ _
    | exact upO_q _ _ _
    | exact (upO_q _ _ _).trans (A _ _ _ _)

theorem revoke_q (s : State) (h : Nat) (f : Flight) : QSame h s (s.revoke h f) := by
  unfold State.revoke State.giveBack
  exact (upO_q _ _ _).trans ((upO_q _ _ _).trans (QSame.foldl _ (fun s e => freeExtentNow_q s h e) _ _))

theorem verdict_spec (x : HideSt) (h n : Nat) (t : Txn) : let d := x.verdict h n t
      d.furlong = n ∧
      (d.commits = true → t.timedOut = false ∧ (∃ o k, t.closer = some (o, true, 0, k)) ∧ t.failure = none) ∧
      (t.timedOut = true → d = ⟨false, stTimeout, 0xFFFF, n⟩) ∧
      (∀ o c st k, t.timedOut = false → t.closer = some (o, c, st, k) →
        (st ≠ 0 → d = ⟨false, st, 0xFFFF, n⟩) ∧
        (st = 0 → c = false → d = ⟨false, stOk, 0xFFFF, n⟩) ∧
        (∀ w i, st = 0 → c = true → t.failure = some (w, i) → d = ⟨false, w, i, n⟩)) := by
  intro d
  have e : d = x.verdict h n t := rfl
  clear_value d
  unfold HideSt.verdict at e
  cases ht : t.timedOut with
  | true =>
    rw [ht, if_pos rfl] at e
    subst e
    exact ⟨rfl, by simp, fun _ => rfl, by simp⟩
  | false =>
    rw [ht, if_neg (by simp)] at e
    cases hc : t.closer with
    | none => rw [hc] at e; subst e; exact ⟨rfl, by simp, by simp, by simp⟩
    | some p =>
      obtain ⟨o, c, st, k⟩ := p
      rw [hc] at e
      dsimp only at e
      by_cases hs : st = 0
      · rw [if_neg (by simp [hs])] at e
        cases c with
        | false =>
          simp only [Bool.not_false, if_true] at e
          subst e
          exact ⟨rfl, by simp, by simp, by rintro o c st' k - ⟨⟩; simp [hs]⟩
        | true =>
          simp only [Bool.not_true, Bool.false_eq_true, if_false] at e
          cases hf : t.failure with
          | some p =>
            obtain ⟨w, i⟩ := p
            rw [hf] at e
            subst e
            refine ⟨rfl, by simp, by simp, ?_⟩
            rintro o c st' k - ⟨⟩
            simp [hs]
          | none =>
            rw [hf] at e
            dsimp only at e
            have k2 : d.furlong = n := by
              subst e; split
              · rfl
              · split <;> rfl
            refine ⟨k2, fun _ => ⟨rfl, ⟨o, k, by rw [hs]⟩, rfl⟩, by simp, ?_⟩
            rintro o c st' k - ⟨⟩
            simp [hs]
      · rw [if_pos hs] at e
        subst e
        refine ⟨rfl, by simp, by simp, ?_⟩
        rintro o c st' k - ⟨⟩
        simp [hs]

end Sys2Proof.Machine
end

