-- ==== Sys2Proof/Laws/Draining.lean ====
section
/-!
SUPPORT. Lemmas on cutting orders in flight at a drain, and what egress events leave alone.
-/

namespace Sys2Proof.Machine
open Sys2Proof

theorem upC_q (s : State) (h : Nat) (f : CPart → CPart) : QSame h s (s.upC h f) := by unfold QSame; rw [State.hide_upC]

theorem upK_q (s : State) (h : Nat) (f : KPart → KPart) : QSame h s (s.upK h f) := by unfold QSame; rw [State.hide_upK]

theorem upA_q (s : State) (h : Nat) (f : APart → APart) : QSame h s (s.upA h f) := by unfold QSame; rw [State.hide_upA]

theorem QSame.foldlPair {α β : Type} {h : Nat} (f : State × β → α → State × β) (k : ∀ p a, QSame h p.1 (f p a).1) (l : List α) :
    ∀ p, QSame h p.1 (l.foldl f p).1 := by
  induction l with
  | nil => intro p; rfl
  | cons a l ih => intro p; exact (k p a).trans (ih _)

theorem dmaWrite_q (s : State) (h a : Nat) (bs : List Byte) (ep : Bool) : QSame h s (s.dmaWrite h a bs ep) := by
  unfold State.dmaWrite
  exact (upC_q _ _ _).trans (QSame.foldlPair _ (fun p b => enqueue_q _ _ _ _ _ _) _ (_, _))

theorem trace_q (s : State) (h : Nat) (f : Flight) : QSame h s (s.trace h f) := by
  unfold State.trace
  dsimp only
  repeat' split
  all_goals first
    | exact QSame.refl _ _
    | exact upK_q _ _ _
    | exact (dmaWrite_q _ _ _ _ _).trans (upK_q _ _ _)

theorem putPieces_q (s : State) (h : Nat) (f : Flight) (ps : List HeldOut) : QSame h s (s.putPieces h f ps).1 := by
  unfold State.putPieces
  refine QSame.foldlPair _ ?_ _ (s, f)
  intro p a
  dsimp only
  repeat' split
  all_goals first
    | exact dmaWrite_q _ _ _ _ _
    | exact (dmaWrite_q _ _ _ _ _).trans (upC_q _ _ _)
    | exact (upC_q _ _ _).trans (dmaWrite_q _ _ _ _ _)
    | skip

theorem release_q (s : State) (h : Nat) (f : Flight) (es : List Nat) (g : HeldOut → HeldOut) : QSame h s (s.release h f es g).1 := by
  unfold State.release
  dsimp only
  split
  · exact putPieces_q _ _ _ _
  · exact QSame.foldl _ (fun s p => dmaWrite_q _ _ _ _ _) _ _

/-- The orders in flight of a hide are the same. -/
def FSame (h : Nat) (s t : State) : Prop := (t.hide h).q.flights = (s.hide h).q.flights

theorem FSame.trans {h : Nat} {s t u : State} (a : FSame h s t) (b : FSame h t u) : FSame h s u := Eq.trans b a

theorem QSame.f {h : Nat} {s t : State} (a : QSame h s t) : FSame h s t := by unfold FSame; rw [a]

theorem countCt_q (s : State) (h : Nat) (k : Ct) : QSame h s (s.countCt h k) := by
  unfold State.countCt
  split
  · exact QSame.refl _ _
  · exact upC_q _ _ _

theorem complete_f (s : State) (h : Nat) (cs : List Completion) : FSame h s (s.complete h cs) := by
  unfold State.complete
  split
  · rfl
  · dsimp only
    refine FSame.trans (t := s.postComp h _ _) ?_ (QSame.f ((QSame.foldl _ (fun s c => countCt_q s h _) _ _).trans ((upK_q _ _ _).trans (upC_q _ _ _))))
    obtain ⟨-, -, -, -, cs, e⟩ := postComp_frame s h _ _
    unfold FSame
    rw [e]

theorem keep_f {s : State} {h : Nat} {f : Flight} (ht : f.order.txn.isSome = true) (hs : f.settled = true) : FSame h s (s.keep h f) := by
  unfold State.keep
  cases k : f.order.txn with
  | none => rw [k] at ht; cases ht
  | some t => dsimp only; rw [if_pos hs]; unfold FSame; rw [State.hide_upQ]; rfl

theorem foldl_keep {α β : Type} {P : α → Prop} (f : α → β → α) (k : ∀ p a, P p → P (f p a)) (l : List β) : ∀ p, P p → P (l.foldl f p) := by
  induction l with
  | nil => intro p hp; exact hp
  | cons a l ih => intro p hp; exact ih _ (k p a hp)

theorem putPieces_order (s : State) (h : Nat) (f : Flight) (ps : List HeldOut) : (s.putPieces h f ps).2.order = f.order := by
  unfold State.putPieces
  refine foldl_keep (P := fun (p : State × Flight) => p.2.order = f.order) _ ?_ ps (s, f) rfl
  intro p a hp
  dsimp only
  have N : ∀ (g : Flight) i d, (g.note i d).order = g.order := by
    intro g i d; unfold Flight.note; dsimp only; repeat' split
    all_goals rfl
  repeat' split
  all_goals first | exact hp | exact (N _ _ _).trans hp

theorem release_order (s : State) (h : Nat) (f : Flight) (es : List Nat) (g : HeldOut → HeldOut) : (s.release h f es g).2.order = f.order := by
  unfold State.release
  dsimp only
  split
  · exact putPieces_order _ _ _ _
  · rfl

theorem cutFlight_flights (s : State) (h st : Nat) (f : Flight) :
    ((s.cutFlight h st f).hide h).q.flights = (s.hide h).q.flights.filter (fun g => g.order.seq != f.order.seq) := by
  unfold State.cutFlight
  dsimp only
  generalize hs1 : ({ s with screen := { s.screen with units := s.screen.units.filter (fun u => !(u.hide == h && u.order == f.order.seq)) } } : State) = s1
  have q1 : QSame h s s1 := by rw [← hs1]; rfl
  have q2 := release_q s1 h f (f.outs.map (·.entry)) (HeldOut.cut st)
  have o2 := release_order s1 h f (f.outs.map (·.entry)) (HeldOut.cut st)
  generalize s1.release h f (f.outs.map (·.entry)) (HeldOut.cut st) = p2 at *
  obtain ⟨s2, f2⟩ := p2
  dsimp only at q2 o2 ⊢
  have q3 := revoke_q s2 h f2
  generalize s2.revoke h f2 = s3 at *
  have o3 : (f2.withFetched (s3.hide h).o).order = f2.order := rfl
  generalize f2.withFetched (s3.hide h).o = f3 at *
  have q4 := dropFetches_sameQ s3 h f3.order.seq
  generalize s3.dropFetches h f3.order.seq = s4 at *
  have q5 : QSame h s4 (s4.forget h f3).1 := upO_q _ _ _
  have o5 : (s4.forget h f3).2.order = f3.order := rfl
  generalize s4.forget h f3 = p5 at *
  obtain ⟨s5, f5⟩ := p5
  dsimp only at q5 o5 ⊢
  have of_ : f5.order = f.order := by rw [o5, o3, o2]
  have all : QSame h s s5 := q1.trans (q2.trans (q3.trans (q4.trans q5)))
  have hord : (f5.fail st).order = f.order := of_
  rw [hord]
  have d : ∀ (g : OPart → OPart), (((s5.upO h g).dropFlight h f.order.seq).hide h).q.flights = (s.hide h).q.flights.filter (fun g => g.order.seq != f.order.seq) := by
    intro g
    unfold State.dropFlight
    rw [State.hide_upQ, (upO_q s5 h g), all]
  split
  · rename_i ht
    exact Eq.trans (keep_f (by simpa using ht) rfl) (d _)
  · exact Eq.trans ((complete_f _ h _).trans (trace_q _ _ _).f) (d _)

theorem endFlights_none (s : State) (h st : Nat) : ((s.endFlights h st).hide h).q.flights = [] := by
  unfold State.endFlights
  dsimp only
  have A : ∀ (l : List Flight) (s : State), (∀ g ∈ (s.hide h).q.flights, g ∈ l) → ((l.foldl (fun s f => s.cutFlight h st f) s).hide h).q.flights = [] := by
    intro l
    induction l with
    | nil => intro s hs; exact List.eq_nil_iff_forall_not_mem.mpr (fun a ha => by simpa using hs a ha)
    | cons a l ih =>
      intro s hs
      rw [List.foldl_cons]
      apply ih
      intro g hg
      rw [cutFlight_flights, List.mem_filter] at hg
      rcases List.mem_cons.mp (hs g hg.1) with rfl | k
      · simp at hg
      · exact k
  have B : ∀ (l : List Flight) (s : State), (s.hide h).q.flights = [] → ((l.foldl (fun s f => (s.unhold h f).cutFlight h st f) s).hide h).q.flights = [] := by
    intro l
    induction l with
    | nil => intro s hs; exact hs
    | cons a l ih =>
      intro s hs
      rw [List.foldl_cons]
      apply ih
      rw [cutFlight_flights]
      unfold State.unhold
      rw [State.hide_upQ, hs]
      rfl
  exact B _ _ (A _ s (fun g hg => hg))

def drainStep (s : State) (h : Nat) : State :=
    let x := s.hide h
    match x.q.drainFrom with
    | none => s
    | some f =>
      if s.plan.furlong < f + 4096 then s
      else if x.k.phase = .ending then s.endFlights h stHideReset
      else s.endFlights h stPlanMismatch

theorem drainStep_apart (s : State) (h : Nat) : Apart h s (drainStep s h) := by
  unfold drainStep
  dsimp only
  repeat' split
  all_goals first | exact Apart.refl _ _ | exact State.endFlights_apart _ _ _

theorem drainStep_plan (s : State) (h : Nat) : (drainStep s h).plan = s.plan := by
  unfold drainStep
  dsimp only
  repeat' split
  all_goals first | rfl | exact (State.endFlights_kept _ _ _).same .plan (by decide)

theorem drainFold (l : List Nat) (nd : l.Nodup) (s : State) :
    (∀ h, h ∉ l → (l.foldl drainStep s).hide h = s.hide h) ∧ (l.foldl drainStep s).plan = s.plan ∧
    ∀ h ∈ l, ∃ u : State, u.hide h = s.hide h ∧ u.plan = s.plan ∧ (l.foldl drainStep s).hide h = (drainStep u h).hide h := by
  induction l generalizing s with
  | nil => exact ⟨fun _ _ => rfl, rfl, by simp⟩
  | cons a l ih =>
    obtain ⟨na, nd⟩ := List.nodup_cons.mp nd
    obtain ⟨i1, i2, i3⟩ := ih nd (drainStep s a)
    refine ⟨fun h hh => ?_, i2.trans (drainStep_plan s a), fun h hh => ?_⟩
    · rw [List.foldl_cons, i1 h (fun k => hh (List.mem_cons_of_mem _ k)), drainStep_apart s a h (fun k => hh (k ▸ List.mem_cons_self ..))]
    · rcases List.mem_cons.mp hh with rfl | hh
      · exact ⟨s, rfl, rfl, by rw [List.foldl_cons, i1 h na]⟩
      · obtain ⟨u, u1, u2, u3⟩ := i3 h hh
        have ne : h ≠ a := fun k => na (k ▸ hh)
        exact ⟨u, by rw [u1, drainStep_apart s a h ne], by rw [u2, drainStep_plan], by rw [List.foldl_cons, u3]⟩

theorem sendQueues (s : State) (link owner at_ chain : Nat) (b : Bool) (f : EgFrame) :
    (s.send link owner at_ chain b f).gates.queues = (s.upQueue link owner (fun q => if b then { q with first := q.first.drop 1 } else { q with second := q.second.drop 1 })).gates.queues ∧
    ∃ g, (s.send link owner at_ chain b f).gates.sent = s.gates.sent ++ [(link, owner, g)] ∧ g.charge = f.charge ∧ (link = 8 → g = f) := by
  have T : ∀ (u : State) (a b : Nat), (u.tagHead a b).gates.queues = u.gates.queues ∧ (u.tagHead a b).gates.sent = u.gates.sent := by
    intro u a b; unfold State.tagHead; dsimp only; split <;> exact ⟨rfl, rfl⟩
  have K : ∀ (u : State) (c : Bool) (a b : Nat), (if c = true then u.tagHead a b else u).gates.queues = u.gates.queues ∧
      (if c = true then u.tagHead a b else u).gates.sent = u.gates.sent := by
    intro u c a b; split
    · exact T _ _ _
    · exact ⟨rfl, rfl⟩
  have I : ∀ (u : State) (p : Nat) (g : EgFrame), (u.issue p g).1.gates = u.gates ∧ (u.issue p g).2.charge = g.charge := by
    intro u p g; unfold State.issue; dsimp only; split <;> exact ⟨rfl, rfl⟩
  unfold State.send
  dsimp only
  by_cases h8 : link = 8
  · rw [if_pos h8]
    dsimp only
    exact ⟨(K _ _ _ _).1, f, (K _ _ _ _).2, rfl, fun _ => rfl⟩
  · rw [if_neg h8]
    obtain ⟨i1, i2⟩ := I (s.upQueue link owner (fun q => if b = true then { q with first := q.first.drop 1 } else { q with second := q.second.drop 1 })) link f
    generalize State.issue (s.upQueue link owner (fun q => if b = true then { q with first := q.first.drop 1 } else { q with second := q.second.drop 1 })) link f = p at *
    obtain ⟨u, g⟩ := p
    dsimp only at i1 i2 ⊢
    refine ⟨(K _ _ _ _).1.trans ?_, g, (K _ _ _ _).2.trans ?_, i2, fun k => absurd k h8⟩
    · show u.gates.queues = _; rw [i1]
    · show u.gates.sent ++ _ = _; rw [i1]; rfl

theorem noteWait_gates (s : State) (l h : Nat) (b : Bool) : (s.noteWait l h b).gates.queues = s.gates.queues ∧ (s.noteWait l h b).gates.sent = s.gates.sent := by
  unfold State.noteWait
  dsimp only
  repeat' split
  all_goals exact ⟨rfl, rfl⟩

theorem drain_hide (s : State) (h : Nat) (hh : h < 16) : ∃ u : State, u.hide h = s.hide h ∧ u.plan = s.plan ∧ (drainLimit s).hide h = (drainStep u h).hide h :=
  (drainFold (List.range 16) (List.nodup_range) s).2.2 h (List.mem_range.mpr hh)

theorem drain_early (s : State) (h : Nat) (hh : h < 16) (hf : ∀ f, (s.hide h).q.drainFrom = some f → s.plan.furlong < f + 4096) :
    (drainLimit s).hide h = s.hide h := by
  obtain ⟨u, u1, u2, u3⟩ := drain_hide s h hh
  rw [u3]
  unfold drainStep
  dsimp only
  cases hd : (s.hide h).q.drainFrom with
  | none => rw [u1, hd]; exact u1
  | some f => rw [u1, u2, hd]; dsimp only; rw [if_pos (hf f hd)]; exact u1

theorem drain_due (s : State) (h f : Nat) (hh : h < 16) (hd : (s.hide h).q.drainFrom = some f) (hf : f + 4096 ≤ s.plan.furlong) :
    ((drainLimit s).hide h).q.flights = [] := by
  obtain ⟨u, u1, u2, u3⟩ := drain_hide s h hh
  rw [u3]
  unfold drainStep
  dsimp only
  rw [u1, u2, hd]
  dsimp only
  rw [if_neg (by omega)]
  split <;> exact endFlights_none _ _ _

theorem drain_next (s : State) : exec .drainLimit s = .next (drainLimit s) := rfl

end Sys2Proof.Machine
end

