-- ==== Sys2Proof/Laws/Leases.lean ====
section
/-!
SUPPORT. Lemmas on lease slots: what closing, holding, recalling and renewing do to each slot.
-/

namespace Sys2Proof.Machine
open Sys2Proof

theorem bit_add (m i j : Nat) (h : bit m i = false) : bit (m + 2 ^ i) j = (bit m j || j == i) := by
  have he : m / 2 ^ i % 2 = 0 := by unfold bit at h; simp at h; exact h
  have hd : (m + 2 ^ i) / 2 ^ i = m / 2 ^ i + 1 := Nat.add_div_right _ (by positivity)
  rcases Nat.lt_trichotomy j i with k | k | k
  · have : (m + 2 ^ i).testBit j = m.testBit j := by rw [Nat.add_comm]; exact Nat.testBit_two_pow_add_gt k m
    have e : (j == i) = false := by simp; omega
    rw [e, Bool.or_false]
    unfold bit
    rw [Nat.testBit_eq_decide_div_mod_eq, Nat.testBit_eq_decide_div_mod_eq] at this
    simpa [Bool.beq_eq_decide_eq] using this
  · subst k
    unfold bit
    rw [hd]
    simp [he]; omega
  · have e : (j == i) = false := by simp; omega
    rw [e, Bool.or_false]
    unfold bit
    obtain ⟨d, rfl⟩ : ∃ d, j = i + 1 + d := ⟨j - (i + 1), by omega⟩
    rw [Nat.pow_add, ← Nat.div_div_eq_div_mul, ← Nat.div_div_eq_div_mul, Nat.pow_succ, ← Nat.div_div_eq_div_mul, ← Nat.div_div_eq_div_mul, hd]
    have : (m / 2 ^ i + 1) / 2 = m / 2 ^ i / 2 := by omega
    rw [this]

theorem bit_listMask (l : List Nat) (j : Nat) : bit (listMask l) j = l.contains j := by
  have key : ∀ (l : List Nat) (m : Nat), bit (l.foldl (fun m i => if bit m i then m else m + 2 ^ i) m) j = (bit m j || l.contains j) := by
    intro l
    induction l with
    | nil => intro m; simp
    | cons a l ih =>
      intro m
      rw [List.foldl_cons, ih]
      by_cases h : bit m a = true
      · rw [if_pos h, List.contains_cons]
        by_cases e : j = a
        · subst e; simp [h]
        · have : (j == a) = false := by simpa using e
          rw [this, Bool.false_or]
      · rw [if_neg h, bit_add m a j (by simpa using h), List.contains_cons, Bool.or_assoc]
  unfold listMask
  rw [key]
  have : bit 0 j = false := by unfold bit; simp
  rw [this, Bool.false_or]

theorem contains_maskList (n m g : Nat) (h : g < n) : (maskList n m).contains g = bit m g := by
  unfold maskList
  rw [Bool.eq_iff_iff]
  simp [h]

theorem grant_bits (m g j : Nat) (h : j < 16) : bit (listMask (maskList 16 m ++ [g])) j = (bit m j || j == g) := by
  rw [bit_listMask, Bool.eq_iff_iff]
  have := contains_maskList 16 m j h
  rw [Bool.eq_iff_iff] at this
  simp only [List.contains_iff_mem, List.mem_append, List.mem_singleton, Bool.or_eq_true, beq_iff_eq] at this ⊢
  rw [this]

theorem revoke_bits (m g j : Nat) (h : j < 16) : bit (listMask ((maskList 16 m).filter (· != g))) j = (bit m j && j != g) := by
  rw [bit_listMask, Bool.eq_iff_iff]
  have := contains_maskList 16 m j h
  rw [Bool.eq_iff_iff] at this
  simp only [List.contains_iff_mem, List.mem_filter, Bool.and_eq_true] at this ⊢
  rw [this]

theorem upSlot_hide (s : State) (h n : Nat) (f : LeaseSlot → LeaseSlot) :
    (s.upSlot h n f).hide h = { s.hide h with a := { (s.hide h).a with slots := amapUp LeaseSlot.reset (s.hide h).a.slots n f } } := State.hide_upA _ _ _

theorem lease_up (x : HideSt) (n m : Nat) (f : LeaseSlot → LeaseSlot) :
    AMap.get LeaseSlot.reset (amapUp LeaseSlot.reset x.a.slots n f) m = if m = n then f (x.lease n) else x.lease m := by
  unfold amapUp HideSt.lease
  by_cases e : m = n
  · subst e; rw [if_pos rfl]; exact AMap.get_set_same _ _ _ _
  · rw [if_neg e]; exact AMap.get_set_other _ _ _ e

theorem upSlot_lease (s : State) (h n : Nat) (f : LeaseSlot → LeaseSlot) (m : Nat) :
    ((s.upSlot h n f).hide h).lease m = if m = n then f ((s.hide h).lease n) else (s.hide h).lease m := by
  rw [upSlot_hide]
  exact lease_up (s.hide h) n m f

theorem upK_slots (s : State) (h : Nat) (f : KPart → KPart) (j : Nat) : ((s.upK h f).hide j).a.slots = (s.hide j).a.slots := by
  by_cases e : j = h
  · subst e; rw [State.hide_upK]
  · rw [State.hide_upK_other _ _ e]

theorem record_hide' (s : State) (h n : Nat) (o : Origin) (j : Nat) : (s.leaseRecord h n o).hide j = s.hide j := rfl

theorem record_acre' (s : State) (h n : Nat) (o : Origin) (j : Nat) : (s.leaseRecord h n o).acre j = s.acre j := rfl

theorem sendSnoop_slots (s : State) (h off : Nat) (i : Bool) (w : SnoopFor) (j : Nat) : ((s.sendSnoop h off i w).hide j).a.slots = (s.hide j).a.slots ∧
    ((s.sendSnoop h off i w).hide j).lay = (s.hide j).lay := by
  unfold State.sendSnoop
  rw [State.enqueue_hide]
  by_cases e : j = h
  · subst e; rw [State.hide_upA]; exact ⟨rfl, rfl⟩
  · rw [State.hide_upA_other _ _ e]; exact ⟨rfl, rfl⟩

theorem fold_slots {α : Type} (f : State → α → State) (j : Nat) (hf : ∀ s a, ((f s a).hide j).a.slots = (s.hide j).a.slots) (l : List α) (s : State) :
    ((l.foldl f s).hide j).a.slots = (s.hide j).a.slots := by
  induction l generalizing s with
  | nil => rfl
  | cons a l ih => rw [List.foldl_cons, ih, hf]

theorem recall_slots (s : State) (h n : Nat) (b : Bool) (j : Nat) : ((s.recall h n b).hide j).a.slots = (s.hide j).a.slots :=
  fold_slots _ j (fun s a => (sendSnoop_slots _ _ _ _ _ _).1) _ _

theorem upA_slots (s : State) (h : Nat) (f : APart → APart) (hf : ∀ a, (f a).slots = a.slots) (j : Nat) : ((s.upA h f).hide j).a.slots = (s.hide j).a.slots := by
  by_cases e : j = h
  · subst e; rw [State.hide_upA]; exact hf _
  · rw [State.hide_upA_other _ _ e]

theorem endHold_slots (s : State) (h n : Nat) (j : Nat) : ((s.endHold h n).hide j).a.slots = (s.hide j).a.slots := by
  unfold State.endHold
  dsimp only
  rw [fold_slots _ j (fun s a => (sendSnoop_slots _ _ _ _ _ _).1)]
  refine (upA_slots _ _ _ ?_ j).trans ?_
  · intro a; rfl
  · rfl

theorem lease_eq {s t : State} {j : Nat} (e : (t.hide j).a.slots = (s.hide j).a.slots) (m : Nat) : (t.hide j).lease m = (s.hide j).lease m := by
  unfold HideSt.lease; rw [e]

theorem closeSlot_spec (s : State) (h n st : Nat) (o : Origin) (w : Bool) :
    (∀ j, j ≠ h → ((s.closeSlot h n st o w).hide j).a.slots = (s.hide j).a.slots) ∧
    (∀ m, m ≠ n → ((s.closeSlot h n st o w).hide h).lease m = (s.hide h).lease m) ∧
    ((s.closeSlot h n st o w).hide h).lease n = (if ((s.hide h).lease n).live then
      { (s.hide h).lease n with st := .closing, status := st, remain := 0, refusedReads := 0, refusedWrites := 0 } else (s.hide h).lease n) := by
  unfold State.closeSlot
  by_cases hl : ((s.hide h).lease n).live = true
  · rw [hl, if_neg (by simp), if_pos rfl]
    let u := (s.upSlot h n (fun sl => { sl with st := .closing, status := st, remain := 0, refusedReads := 0, refusedWrites := 0 }))
    have hu : ∀ m, (u.hide h).lease m = if m = n then { (s.hide h).lease n with st := .closing, status := st, remain := 0, refusedReads := 0, refusedWrites := 0 } else (s.hide h).lease m :=
      fun m => upSlot_lease s h n (fun sl => { sl with st := .closing, status := st, remain := 0, refusedReads := 0, refusedWrites := 0 }) m
    have ho : ∀ j, j ≠ h → (u.hide j).a.slots = (s.hide j).a.slots := fun j hj => by rw [show u.hide j = s.hide j from State.hide_upA_other _ _ hj]
    have T : ∀ t : State, (∀ j, (t.hide j).a.slots = (u.hide j).a.slots) →
        (∀ j, j ≠ h → (t.hide j).a.slots = (s.hide j).a.slots) ∧ (∀ m, m ≠ n → (t.hide h).lease m = (s.hide h).lease m) ∧
        (t.hide h).lease n = { (s.hide h).lease n with st := .closing, status := st, remain := 0, refusedReads := 0, refusedWrites := 0 } := by
      intro t ht
      refine ⟨fun j hj => (ht j).trans (ho j hj), fun m hm => ?_, ?_⟩
      · rw [lease_eq (ht h), hu, if_neg hm]
      · rw [lease_eq (ht h), hu, if_pos rfl]
    dsimp only
    split
    · exact T _ (fun j => recall_slots _ _ _ _ j)
    · exact T _ (fun j => endHold_slots _ _ _ j)
  · rw [if_pos (by simpa using hl), if_neg hl]
    exact ⟨fun _ _ => rfl, fun _ _ => rfl, rfl⟩

theorem closing_dead (x : LeaseSlot) (st : Nat) : ({ x with st := .closing, status := st, remain := 0, refusedReads := 0, refusedWrites := 0 } : LeaseSlot).live = false := rfl

/-- Dead slots stay dead when others close. -/
theorem closeFold (l : List (Nat × Nat)) (st : Nat) (o : Origin) (w : Bool) (s : State) :
    (∀ j m, ((s.hide j).lease m).live = false → ((l.foldl (fun s p => s.closeSlot p.1 p.2 st o w) s).hide j).lease m = (s.hide j).lease m) ∧
    (∀ p ∈ l, (((l.foldl (fun s p => s.closeSlot p.1 p.2 st o w) s).hide p.1).lease p.2).live = false) ∧
    (∀ j m, (∀ p ∈ l, p ≠ (j, m)) → ((l.foldl (fun s p => s.closeSlot p.1 p.2 st o w) s).hide j).lease m = (s.hide j).lease m) := by
  induction l generalizing s with
  | nil => exact ⟨fun _ _ _ => rfl, by simp, fun _ _ _ => rfl⟩
  | cons a l ih =>
    obtain ⟨i1, i2, i3⟩ := ih (s.closeSlot a.1 a.2 st o w)
    obtain ⟨c1, c2, c3⟩ := closeSlot_spec s a.1 a.2 st o w
    have one : (((s.closeSlot a.1 a.2 st o w).hide a.1).lease a.2).live = false := by
      rw [c3]; split
      · rfl
      · rename_i k; simpa using k
    refine ⟨fun j m hd => ?_, fun p hp => ?_, fun j m hn => ?_⟩
    · have k : ((s.closeSlot a.1 a.2 st o w).hide j).lease m = (s.hide j).lease m := by
        by_cases e : j = a.1
        · subst e
          by_cases k : m = a.2
          · subst k; rw [c3, if_neg (by simp [hd])]
          · rw [c2 m k]
        · rw [lease_eq (c1 j e)]
      rw [List.foldl_cons, i1 j m (by rw [k]; exact hd), k]
    · rcases List.mem_cons.mp hp with rfl | hp
      · rw [List.foldl_cons, i1 _ _ one]; exact one
      · exact i2 p hp
    · rw [List.foldl_cons, i3 j m (fun p hp => hn p (List.mem_cons_of_mem _ hp))]
      by_cases e : j = a.1
      · subst e
        exact c2 m (fun k => hn a (List.mem_cons_self ..) (by rw [k]))
      · exact lease_eq (c1 j e) m

theorem leaseCommand_ok {s : State} {h : Nat} {v : U64} (h1 : (s.hide h).a.cmd = none) (h2 : s.reamActive = true) (h3 : (s.hide h).lay ≠ none)
    (h4 : (s.hide h).resetting = false) (h5 : s.clocks.aonLost = false) :
    s.leaseCommand h v = if s.leaseFails h v = 0 then s.leaseEffect h v else s.leaseResult h (s.leaseFails h v) := by
  unfold State.leaseCommand
  dsimp only
  have h3' : (s.hide h).lay.isSome = true := Option.isSome_iff_ne_none.mpr h3
  rw [h1, h2, h3', h4, h5]
  simp only [Option.isSome_none, Bool.false_eq_true, if_false, Bool.and_self, Bool.not_true, Bool.or_self, Bool.false_and]
  split
  · rename_i k; rw [if_pos k]
  · rename_i st k; rw [if_neg k]

theorem find_none {l : List (Bool × Nat)} (hz : ∀ p ∈ l, p.2 ≠ 0) (h : (match l.find? (·.1) with | some p => p.2 | none => stOk) = 0) : ∀ p ∈ l, p.1 = false := by
  cases k : l.find? (·.1) with
  | none => intro p hp; simpa using (List.find?_eq_none.mp k) p hp
  | some q =>
    rw [k] at h
    exact absurd h (hz q (List.mem_of_find?_eq_some k))

/-- The slot that LEASE or ATTACH takes. -/
theorem take_spec (s : State) (h : Nat) (v : U64) (compat sharer : Bool) (peer : Nat) : ∃ t : State,
    t = ((((s.upSlot h (cmdSlot v) (fun _ => { LeaseSlot.reset with
      st := .active, sharer := sharer, compat := compat, acre := cmdAcre v, peer := peer, term := cmdTerm v,
      remain := termTicks (cmdTerm v) })).upK h (fun k => { k with pristine := false })).leaseRecord h (cmdSlot v) (byHide s h false)).leaseResult h stOk) ∧
    Only [.hides, .mgmt, .box] s t ∧ Apart h s t ∧
    (∀ m, (t.hide h).lease m = if m = cmdSlot v then { LeaseSlot.reset with
      st := .active, sharer := sharer, compat := compat, acre := cmdAcre v, peer := peer, term := cmdTerm v, remain := termTicks (cmdTerm v) }
      else (s.hide h).lease m) ∧ (t.hide h).a.result = stOk ∧ ∀ b, t.acre b = s.acre b := by
  refine ⟨_, rfl, ?_, ?_, ?_, ?_, fun b => rfl⟩
  · intro p hp; cases p <;> first | rfl | exact absurd hp (by decide)
  · refine Apart.after (State.upA_apart _ _ _) ?_
    intro j hj
    rw [record_hide', State.hide_upK_other _ _ hj]
    exact State.upSlot_apart _ _ _ _ j hj
  · intro m
    have a := upSlot_lease s h (cmdSlot v) (fun _ => { LeaseSlot.reset with
      st := .active, sharer := sharer, compat := compat, acre := cmdAcre v, peer := peer, term := cmdTerm v, remain := termTicks (cmdTerm v) }) m
    generalize s.upSlot h (cmdSlot v) _ = w at *
    refine Eq.trans (lease_eq (s := w) ?_ m) a
    unfold State.leaseResult
    refine (upA_slots _ h (fun a => { a with result := stOk }) (fun _ => rfl) h).trans ?_
    rw [record_hide', upK_slots]
  · unfold State.leaseResult
    rw [State.hide_upA]

theorem upA_lease (s : State) (h : Nat) (f : APart → APart) (hf : ∀ a, (f a).slots = a.slots) (j m : Nat) : ((s.upA h f).hide j).lease m = (s.hide j).lease m :=
  lease_eq (upA_slots s h f hf j) m

theorem closeHold_spec (s : State) (h n st : Nat) (o : Origin) (lv : ((s.hide h).lease n).live = true) :
    ((s.closeHold h n st o true).hide h).lease n = { (s.hide h).lease n with st := .closing, status := st, remain := 0, refusedReads := 0, refusedWrites := 0 } ∧
    (((s.hide h).lease n).sharer = true → Apart h s (s.closeHold h n st o true)) ∧
    (((s.hide h).lease n).sharer = false → ∀ p ∈ s.sharers ((s.hide h).lease n).acre, (((s.closeHold h n st o true).hide p.1).lease p.2).live = false) := by
  obtain ⟨c1, c2, c3⟩ := closeSlot_spec s h n st o true
  rw [lv, if_pos rfl] at c3
  unfold State.closeHold
  dsimp only
  rw [lv]
  refine ⟨?_, fun k => ?_, fun k => ?_⟩
  · rw [(closeFold _ _ _ _ _).1 h n (by rw [c3]; rfl), c3]
  · rw [k]
    exact State.closeSlot_apart _ _ _ _ _ _
  · rw [k]
    exact (closeFold _ _ _ _ _).2.1

theorem recall_snoops (l : List DirLine) (s : State) (h : Nat) :
    let t := l.foldl (fun s d => s.sendSnoop h d.off (!d.excl) .command) s
    (∀ p ∈ (s.hide h).a.snoops, p ∈ (t.hide h).a.snoops) ∧ ∀ d ∈ l, ⟨d.off, !d.excl, .command⟩ ∈ (t.hide h).a.snoops := by
  induction l generalizing s with
  | nil => exact ⟨fun _ h => h, by simp⟩
  | cons a l ih =>
    have one : ((s.sendSnoop h a.off (!a.excl) .command).hide h).a.snoops = (s.hide h).a.snoops ++ [⟨a.off, !a.excl, .command⟩] := by
      unfold State.sendSnoop
      rw [State.enqueue_hide, State.hide_upA]
    obtain ⟨i1, i2⟩ := ih (s.sendSnoop h a.off (!a.excl) .command)
    refine ⟨fun p hp => i1 p (by rw [one]; simp [hp]), fun d hd => ?_⟩
    rcases List.mem_cons.mp hd with rfl | hd
    · exact i1 _ (by rw [one]; simp)
    · exact i2 d hd

theorem revoke_spec (s : State) (h n g : Nat) (f : LeaseSlot → LeaseSlot) (o : Origin) (a : Nat) : let u := s.upSlot h n f
    let w := ((u.sharers a).filter (fun p => p.1 == g)).foldl (fun s p => s.closeSlot p.1 p.2 stLeaseLost o true) u
    (g ≠ h → (w.hide h).lease n = f ((s.hide h).lease n) ∧ ∀ p ∈ s.sharers a, p.1 = g → ((w.hide p.1).lease p.2).live = false) ∧
    ∀ j, j ≠ h → j ≠ g → w.hide j = s.hide j := by
  intro u w
  have hu : ∀ j, j ≠ h → u.hide j = s.hide j := fun j hj => State.upSlot_apart _ _ _ _ j hj
  obtain ⟨c1, c2, c3⟩ := closeFold ((u.sharers a).filter (fun p => p.1 == g)) stLeaseLost o true u
  refine ⟨fun hg => ⟨?_, fun p hp k => c2 p ?_⟩, fun j hj hk => ?_⟩
  · refine (c3 h n ?_).trans ((upSlot_lease s h n f n).trans (if_pos rfl))
    intro p hp k
    have := (List.mem_filter.mp hp).2
    rw [k] at this
    exact hg (by simpa using this : h = g).symm
  · refine List.mem_filter.mpr ⟨?_, by simpa using k⟩
    unfold State.sharers at hp ⊢
    rw [List.mem_filterMap] at hp ⊢
    obtain ⟨i, hi, q⟩ := hp
    refine ⟨i, hi, ?_⟩
    have hig : i = g := by
      cases z : (s.hide i).slotOn a with
      | none => rw [z] at q; cases q
      | some y =>
        rw [z] at q
        dsimp only at q
        split at q
        · rw [← k]; exact congrArg Prod.fst (Option.some.inj q)
        · cases q
    rw [hu i (by rw [hig]; exact hg)]
    exact q
  · have L : ∀ (l : List (Nat × Nat)) (s : State), (∀ p ∈ l, p.1 = g) → (l.foldl (fun s p => s.closeSlot p.1 p.2 stLeaseLost o true) s).hide j = s.hide j := by
      intro l
      induction l with
      | nil => intro _ _; rfl
      | cons b l ih =>
        intro s hl
        rw [List.foldl_cons, ih _ (fun p hp => hl p (List.mem_cons_of_mem _ hp))]
        exact State.closeSlot_apart _ _ _ _ _ _ j (by rw [hl b (List.mem_cons_self ..)]; exact hk)
    rw [← hu j hj]
    exact L _ _ (fun p hp => by simpa using (List.mem_filter.mp hp).2)

theorem revoke_effect {s : State} {h : Nat} {v : U64} (ho : cmdOp v = 6) : s.leaseEffect h v =
    ((((s.upSlot h (cmdSlot v) (fun sl => { sl with grants := listMask ((maskList 16 sl.grants).filter (· != cmdHide v)) })).sharers
      ((s.hide h).lease (cmdSlot v)).acre).filter (fun p => p.1 == cmdHide v)).foldl (fun u p => u.closeSlot p.1 p.2 stLeaseLost (byHide s h false) true)
      (s.upSlot h (cmdSlot v) (fun sl => { sl with grants := listMask ((maskList 16 sl.grants).filter (· != cmdHide v)) }))).upA h
        (fun a => { a with result := stOk }) := by
  unfold State.leaseEffect; dsimp only; simp only [ho]
  rfl

theorem closeSlot_expired (s : State) (h n st : Nat) (o : Origin) (w : Bool) (j : Nat) : ((s.closeSlot h n st o w).hide j).a.expired = (s.hide j).a.expired := by
  have U : ∀ (s : State) (h : Nat) (f : APart → APart) (hf : ∀ a, (f a).expired = a.expired) (j : Nat), ((s.upA h f).hide j).a.expired = (s.hide j).a.expired := by
    intro s h f hf j
    by_cases e : j = h
    · subst e; rw [State.hide_upA]; exact hf _
    · rw [State.hide_upA_other _ _ e]
  have N : ∀ (s : State) (h off : Nat) (i : Bool) (w : SnoopFor) (j : Nat), ((s.sendSnoop h off i w).hide j).a.expired = (s.hide j).a.expired := by
    intro s h off i w j
    unfold State.sendSnoop
    rw [State.enqueue_hide]
    exact U _ _ _ (fun a => by rfl) _
  have F : ∀ {α : Type} (f : State → α → State) (hf : ∀ s a, ((f s a).hide j).a.expired = (s.hide j).a.expired) (l : List α) (s : State),
      ((l.foldl f s).hide j).a.expired = (s.hide j).a.expired := by
    intro α f hf l
    induction l with
    | nil => intro s; rfl
    | cons a l ih => intro s; rw [List.foldl_cons, ih, hf]
  unfold State.closeSlot
  dsimp only
  split
  · rfl
  · have b : ∀ g : LeaseSlot → LeaseSlot, (((s.upSlot h n g).leaseRecord h n o).hide j).a.expired = (s.hide j).a.expired := by
      intro g
      rw [record_hide']
      exact U _ _ _ (fun a => by rfl) _
    split
    · unfold State.recall
      rw [F _ (fun s a => N _ _ _ _ _ _), b]
    · unfold State.endHold
      dsimp only
      rw [F _ (fun s a => N _ _ _ _ _ _)]
      refine (U _ _ _ (fun a => by rfl) _).trans ?_
      exact b _

theorem closeHold_expired (s : State) (h n st : Nat) (o : Origin) (w : Bool) (j : Nat) : ((s.closeHold h n st o w).hide j).a.expired = (s.hide j).a.expired := by
  have F : ∀ (l : List (Nat × Nat)) (s : State), ((l.foldl (fun s p => s.closeSlot p.1 p.2 stLeaseLost o w) s).hide j).a.expired = (s.hide j).a.expired := by
    intro l
    induction l with
    | nil => intro s; rfl
    | cons a l ih => intro s; rw [List.foldl_cons, ih, closeSlot_expired]
  unfold State.closeHold
  dsimp only
  rw [F, closeSlot_expired]

/-- `closeHold_spec` for a hold that ends at once. -/
theorem closeHold_spec' (s : State) (h n st : Nat) (o : Origin) (w : Bool) (lv : ((s.hide h).lease n).live = true) :
    ((s.closeHold h n st o w).hide h).lease n = { (s.hide h).lease n with st := .closing, status := st, remain := 0, refusedReads := 0, refusedWrites := 0 } ∧
    (((s.hide h).lease n).sharer = true → Apart h s (s.closeHold h n st o w)) ∧
    (((s.hide h).lease n).sharer = false → ∀ p ∈ s.sharers ((s.hide h).lease n).acre, (((s.closeHold h n st o w).hide p.1).lease p.2).live = false) := by
  obtain ⟨c1, c2, c3⟩ := closeSlot_spec s h n st o w
  rw [lv, if_pos rfl] at c3
  unfold State.closeHold
  dsimp only
  rw [lv]
  refine ⟨?_, fun k => ?_, fun k => ?_⟩
  · rw [(closeFold _ _ _ _ _).1 h n (by rw [c3]; rfl), c3]
  · rw [k]
    exact State.closeSlot_apart _ _ _ _ _ _
  · rw [k]
    exact (closeFold _ _ _ _ _).2.1

theorem upSlot_only (s : State) (h n : Nat) (f : LeaseSlot → LeaseSlot) (o : Origin) : Only [.hides, .mgmt, .box] s ((s.upSlot h n f).leaseRecord h n o) ∧
    Apart h s ((s.upSlot h n f).leaseRecord h n o) :=
  ⟨fun p hp => by cases p <;> first | rfl | exact absurd hp (by decide), fun j hj => State.upSlot_apart _ _ _ _ j hj⟩

theorem renew_get (l : List (Nat × LeaseSlot)) (P : Nat → LeaseSlot → Bool) (g : LeaseSlot → LeaseSlot) (n : Nat) (hd : P n LeaseSlot.reset = false) :
    AMap.get LeaseSlot.reset (l.map (fun p => if P p.1 p.2 then (p.1, g p.2) else p)) n =
      if P n (AMap.get LeaseSlot.reset l n) then g (AMap.get LeaseSlot.reset l n) else AMap.get LeaseSlot.reset l n := by
  induction l with
  | nil => exact (if_neg (by rw [show AMap.get LeaseSlot.reset [] n = LeaseSlot.reset from rfl, hd]; simp)).symm
  | cons a l ih =>
    obtain ⟨k, v⟩ := a
    rw [List.map_cons]
    have key : (if P k v = true then (k, g v) else (k, v)) = (k, if P k v = true then g v else v) := by split <;> rfl
    dsimp only
    rw [key]
    by_cases z : k = n
    · subst z
      simp only [AMap.get, if_true]
    · simp only [AMap.get, if_neg z]
      exact ih

end Sys2Proof.Machine
end

