-- ==== Sys2Proof/Laws/AcreLines.lean ====
section
/-!
SUPPORT. Lemmas on lines of acres: a read after a write, what serving a request and answering a snoop keep.
-/

namespace Sys2Proof.Machine
open Sys2Proof

theorem find_erase {α : Type} (m : AMap α) (k j : Nat) : AMap.find (AMap.erase m k) j = if j = k then none else AMap.find m j := by
  induction m with
  | nil => simp [AMap.erase, AMap.find]
  | cons p t ih =>
    obtain ⟨a, b⟩ := p
    by_cases h1 : a = k
    · subst h1; by_cases h : j = a
      · subst h; simpa [AMap.erase] using ih
      · have : a ≠ j := fun e => h e.symm
        simp [AMap.erase, AMap.find, ih, h, this]
    · by_cases h : a = j
      · subst h; simp [AMap.erase, AMap.find, h1]
      · simp [AMap.erase, AMap.find, h1, h, ih]

def byteOf (z : Bool) (d : Byte) : Option Byte → Byte
  | some b => b
  | none => if z then 0 else d

theorem fold_line (z : Bool) (L : Nat) (d : Nat → Byte) (bs : List Byte) : ∀ (k : Nat) (m : AMap Byte) (j : Nat),
    byteOf z (d j) (AMap.find ((bs.zipIdx k).foldl (fun m b => if z && b.1 == 0 then AMap.erase m (L + b.2) else AMap.set m (L + b.2) b.1) m) j) =
      if L + k ≤ j then (bs[j - (L + k)]?).getD (byteOf z (d j) (AMap.find m j)) else byteOf z (d j) (AMap.find m j) := by
  induction bs with
  | nil => intro k m j; simp
  | cons b bs ih =>
    intro k m j
    rw [List.zipIdx_cons, List.foldl_cons, ih]
    have one : byteOf z (d j) (AMap.find (if z && b == 0 then AMap.erase m (L + k) else AMap.set m (L + k) b) j) =
        if j = L + k then b else byteOf z (d j) (AMap.find m j) := by
      by_cases zz : (z && b == 0) = true
      · rw [if_pos zz, find_erase]
        split
        · simp only [Bool.and_eq_true, beq_iff_eq] at zz
          simp [byteOf, zz]
        · rfl
      · rw [if_neg zz, AMap.find_set]
        split <;> rfl
    dsimp only
    rw [one]
    by_cases h1 : j = L + k
    · subst h1
      rw [if_neg (by omega), if_pos rfl, if_pos (Nat.le_refl _)]
      simp
    · rw [if_neg h1]
      by_cases h2 : L + k ≤ j
      · rw [if_pos (by omega), if_pos h2, show j - (L + k) = (j - (L + (k + 1))) + 1 by omega, List.getElem?_cons_succ]
      · rw [if_neg (by omega), if_neg h2]

theorem acreByte_eq (s : State) (a off : Nat) : s.acreByte a off = byteOf (s.acreZero a) (Config.acreByte s.dex.sessionRoot (s.acreRoot a) (a * 2 ^ 28 + off))
    (AMap.find (s.acre a).bytes off) := by
  unfold State.acreByte byteOf
  rfl

/-- What reading an acre depends on. -/
def Calm (s t : State) : Prop := (∀ j, (t.hide j).k = (s.hide j).k) ∧ t.acres = s.acres ∧ t.dex = s.dex

theorem Calm.acreByte {s t : State} (c : Calm s t) (a off : Nat) : t.acreByte a off = s.acreByte a off := by
  have ea : t.acre a = s.acre a := by unfold State.acre; rw [c.2.1]
  have er : t.acreRoot a = s.acreRoot a := by
    unfold State.acreRoot; rw [ea]; cases (s.acre a).owner with
    | none => rfl
    | some h => exact congrArg KPart.root (c.1 h)
  unfold State.acreByte State.acreZero
  rw [ea, er, c.2.2]

theorem Calm.acreLine {s t : State} (c : Calm s t) (a l : Nat) : t.acreLine a l = s.acreLine a l := by
  unfold State.acreLine; exact List.map_congr_left (fun i _ => c.acreByte a _)

theorem Calm.trans {s t u : State} (a : Calm s t) (b : Calm t u) : Calm s u := ⟨fun j => (b.1 j).trans (a.1 j), b.2.1.trans a.2.1, b.2.2.trans a.2.2⟩

theorem Calm.ofA (s : State) (h : Nat) (f : APart → APart) : Calm s (s.upA h f) := by
  refine ⟨fun j => ?_, rfl, rfl⟩
  by_cases e : j = h
  · subst e; rw [State.hide_upA]
  · rw [State.hide_upA_other _ _ e]

/-- Reads and every acre queue alike. -/
def Calmer (s t : State) : Prop := Calm s t ∧ ∀ j, (t.hide j).a.acreQ = (s.hide j).a.acreQ

theorem Calmer.trans {s t u : State} (a : Calmer s t) (b : Calmer t u) : Calmer s u := ⟨a.1.trans b.1, fun j => (b.2 j).trans (a.2 j)⟩

theorem Calmer.refl (s : State) : Calmer s s := ⟨⟨fun _ => rfl, rfl, rfl⟩, fun _ => rfl⟩

theorem Calmer.ofA (s : State) (h : Nat) (f : APart → APart) (hf : ∀ a, (f a).acreQ = a.acreQ) : Calmer s (s.upA h f) := by
  refine ⟨Calm.ofA _ _ _, fun j => ?_⟩
  by_cases e : j = h
  · subst e; rw [State.hide_upA]; exact hf _
  · rw [State.hide_upA_other _ _ e]

theorem Calmer.ofC (s : State) (h : Nat) (f : CPart → CPart) : Calmer s (s.upC h f) := by
  refine ⟨⟨fun j => ?_, rfl, rfl⟩, fun j => ?_⟩ <;>
  · by_cases e : j = h
    · subst e; rw [State.hide_upC]
    · rw [State.hide_upC_other _ _ e]

theorem Calmer.ofSend (s : State) (l h : Nat) (b : Bool) (f : EgFrame) : Calmer s (s.enqueue l h b f) :=
  ⟨⟨fun _ => by rw [State.enqueue_hide], by simp, by simp⟩, fun _ => by rw [State.enqueue_hide]⟩

theorem Calmer.snoop (s : State) (h off : Nat) (i : Bool) (w : SnoopFor) : Calmer s (s.sendSnoop h off i w) :=
  (Calmer.ofA _ _ _ (fun a => by rfl)).trans (Calmer.ofSend _ _ _ _ _)

theorem Calmer.read (s : State) (h off : Nat) (d : List Byte) (p b u : Bool) (n : Nat) : Calmer s (s.answerRead h off d p b u n) := by
  unfold State.answerRead; split <;> exact Calmer.ofSend _ _ _ _ _

theorem Calmer.write (s : State) (h off : Nat) (u : Bool) (n : Nat) : Calmer s (s.answerWrite h off u n) := by
  unfold State.answerWrite; split <;> exact Calmer.ofSend _ _ _ _ _

theorem Calmer.track (s : State) (h off : Nat) (e : Bool) : Calmer s (s.track h off e) := by
  unfold State.track
  dsimp only
  split
  · exact Calmer.ofA _ _ _ (fun a => by rfl)
  · refine Calmer.trans ?_ (Calmer.ofA _ _ _ (fun a => by rfl))
    repeat' split
    all_goals first
      | exact Calmer.refl _
      | exact (Calmer.ofA _ _ _ (fun a => by rfl)).trans (Calmer.snoop _ _ _ _ _)

theorem Calmer.untrack (s : State) (h off : Nat) : Calmer s (s.untrack h off) := Calmer.ofA _ _ _ (fun a => by rfl)

theorem Calmer.refuse (s : State) (h n k off : Nat) : Calmer s (s.refuse h n k off) := Calmer.ofA _ _ _ (fun a => by rfl)

theorem writeAcre_line (s : State) (a l : Nat) (bs : List Byte) (hl : bs.length = 64) :
    (s.writeAcre a l bs).acreLine a l = bs ∧ ∀ m, m ≠ l → (s.writeAcre a l bs).acreLine a m = s.acreLine a m := by
  have eo : ((s.writeAcre a l bs).acre a) = { s.acre a with bytes := (bs.zipIdx.foldl (fun m b =>
      if s.acreZero a && b.1 == 0 then AMap.erase m (l * 64 + b.2) else AMap.set m (l * 64 + b.2) b.1) (s.acre a).bytes) } := State.acre_upAcre _ _ _
  have er : (s.writeAcre a l bs).acreRoot a = s.acreRoot a := by unfold State.acreRoot; rw [eo]; rfl
  have ez : (s.writeAcre a l bs).acreZero a = s.acreZero a := by unfold State.acreZero; rw [eo, er]
  have ed : (s.writeAcre a l bs).dex = s.dex := rfl
  have key : ∀ j, (s.writeAcre a l bs).acreByte a j = if l * 64 ≤ j then (bs[j - l * 64]?).getD (s.acreByte a j) else s.acreByte a j := by
    intro j
    rw [acreByte_eq, acreByte_eq, er, ez, ed, eo]
    exact fold_line (s.acreZero a) (l * 64) (fun j => Config.acreByte s.dex.sessionRoot (s.acreRoot a) (a * 2 ^ 28 + j)) bs 0 (s.acre a).bytes j
  refine ⟨?_, fun m hm => ?_⟩
  · unfold State.acreLine
    apply List.ext_getElem?
    intro i
    by_cases hi : i < 64
    · rw [List.getElem?_map, List.getElem?_range hi, Option.map_some, key, if_pos (by omega), Nat.add_sub_cancel_left]
      rw [List.getElem?_eq_getElem (by omega)]
      rfl
    · rw [List.getElem?_eq_none (by simp; omega), List.getElem?_eq_none (by omega)]
  · unfold State.acreLine
    refine List.map_congr_left (fun i hi => ?_)
    have := List.mem_range.mp hi
    rw [key]
    split
    · rw [List.getElem?_eq_none (by omega)]; rfl
    · rfl

theorem read_first (s : State) (h off : Nat) (d : List Byte) (p b : Bool) (n : Nat) :
    ∃ f ∈ ((s.answerRead h off d p b false n).gates.queues.get EgQueue.empty (egKey 8 h)).first, f.body = .drs off d p b (devLoad n) := by
  refine ⟨⟨80, .drs off d p b (devLoad n)⟩, ?_, rfl⟩
  simp [State.answerRead, enqueue_queue]

theorem need_snoops (l : List (Nat × Nat × Bool)) (s : State) : let t := l.foldl (fun s p => s.sendSnoop p.1 p.2.1 p.2.2 .request) s
    Calmer s t ∧ (∀ j, ∀ x ∈ (s.hide j).a.snoops, x ∈ (t.hide j).a.snoops) ∧ ∀ p ∈ l, ⟨p.2.1, p.2.2, .request⟩ ∈ (t.hide p.1).a.snoops := by
  induction l generalizing s with
  | nil => exact ⟨Calmer.refl _, fun _ _ h => h, by simp⟩
  | cons a l ih =>
    have one : ∀ j, ((s.sendSnoop a.1 a.2.1 a.2.2 .request).hide j).a.snoops = if j = a.1 then (s.hide j).a.snoops ++ [⟨a.2.1, a.2.2, .request⟩] else (s.hide j).a.snoops := by
      intro j
      unfold State.sendSnoop
      rw [State.enqueue_hide]
      by_cases e : j = a.1
      · rw [if_pos e, e, State.hide_upA]
      · rw [if_neg e, State.hide_upA_other _ _ e]
    obtain ⟨i0, i1, i2⟩ := ih (s.sendSnoop a.1 a.2.1 a.2.2 .request)
    refine ⟨(Calmer.snoop _ _ _ _ _).trans i0, fun j x hx => i1 j x ?_, fun p hp => ?_⟩
    · rw [one]; split <;> simp [hx]
    · rcases List.mem_cons.mp hp with rfl | hp
      · exact i1 _ _ (by rw [one, if_pos rfl]; simp)
      · exact i2 p hp

theorem perform_read (s : State) (q : AcreReq) (n : Nat) (kind : ReadKind) (e : q.op = .read kind) : Calmer s (s.perform q n) ∧
    (((s.region (q.acre / 6)).excluded || s.power.st == .tripped) = false → (s.acre q.acre).poisoned q.line = false → q.uio = false →
      ∃ f ∈ ((s.perform q n).gates.queues.get EgQueue.empty (egKey 8 q.hide)).first, ∃ shared,
        f.body = .drs (winBase q.slot + 64 * q.line) (s.acreLine q.acre q.line) false shared (devLoad n)) := by
  have c1 : Calmer s (s.upC q.hide (fun c => { c with telAcre := satInc c.telAcre })) := Calmer.ofC _ _ _
  unfold State.perform
  dsimp only
  rw [e]
  dsimp only
  generalize hs1 : s.upC q.hide (fun c => { c with telAcre := satInc c.telAcre }) = s1 at *
  have c2 : ∀ b : Bool, ∀ sh : Bool, ∀ off, Calmer s1 (if b then s1.answerPoison q.hide off q.uio n else s1.answerRead q.hide off (s1.acreLine q.acre q.line) false sh q.uio n) := by
    intro b sh off
    split
    · exact Calmer.read _ _ _ _ _ _ _ _
    · exact Calmer.read _ _ _ _ _ _ _ _
  refine ⟨c1.trans ?_, fun k1 k2 k3 => ?_⟩
  · split
    · exact c2 _ _ _
    · exact (c2 _ _ _).trans (Calmer.track _ _ _ _)
  · have ep : s1.power = s.power := by rw [← hs1]; rfl
    have er : ∀ g, s1.region g = s.region g := by intro g; rw [← hs1]; rfl
    have ea : ∀ g, s1.acre g = s.acre g := by intro g; rw [← hs1]; rfl
    rw [k1, k2]
    simp only [Bool.or_self, Bool.false_eq_true, if_false]
    rw [k3, c1.1.acreLine]
    obtain ⟨f, f1, f2⟩ := read_first s1 q.hide (winBase q.slot + 64 * q.line) (s.acreLine q.acre q.line) false (kind == .shared || s.readOnly q.acre) n
    split
    · exact ⟨f, f1, _, f2⟩
    · exact ⟨f, track_first _ _ _ _ _ _ f1, _, f2⟩

theorem perform_write (s : State) (q : AcreReq) (n : Nat) (data : List Byte) (p wb : Bool) (e : q.op = .write data p wb) :
    (∀ j, ((s.perform q n).hide j).a.acreQ = (s.hide j).a.acreQ) ∧ (∀ b, b ≠ q.acre → (s.perform q n).acre b = s.acre b) ∧
    (p = false → data.length = 64 → ((s.hide q.hide).lease q.slot).compat = false → ((s.region (q.acre / 6)).excluded || s.power.st == .tripped) = false →
      (s.acre q.acre).poisoned q.line = false →
      (s.perform q n).acreLine q.acre q.line = data ∧ ∀ l, l ≠ q.line → (s.perform q n).acreLine q.acre l = s.acreLine q.acre l) := by
  have c1 : Calmer s (s.upC q.hide (fun c => { c with telAcre := satInc c.telAcre })) := Calmer.ofC _ _ _
  unfold State.perform
  dsimp only
  rw [e]
  dsimp only
  generalize hs1 : s.upC q.hide (fun c => { c with telAcre := satInc c.telAcre }) = s1 at *
  have c2 : Calmer s (if wb = true then s1.untrack q.hide (winBase q.slot + 64 * q.line) else s1) := by
    split
    · exact c1.trans (Calmer.untrack _ _ _)
    · exact c1
  generalize (if wb = true then s1.untrack q.hide (winBase q.slot + 64 * q.line) else s1) = s2 at *
  have ca : ∀ {u v : State}, Calmer u v → ∀ b, v.acre b = u.acre b := fun c b => by unfold State.acre; rw [c.1.2.1]
  have w := fun s off => Calmer.write s q.hide off q.uio n
  refine ⟨fun j => ?_, fun b hb => ?_, fun k0 k1 k2 k3 k4 => ?_⟩
  · refine ((w _ _).2 j).trans (Eq.trans ?_ (c2.2 j))
    split
    · rfl
    · split
      · exact (Calmer.refuse _ _ _ _ _).2 j
      · split
        · exact (Calmer.ofA _ _ _ (fun a => by rfl)).2 j
        · split <;> rfl
  · refine (ca (w _ _) b).trans (Eq.trans ?_ (ca c2 b))
    split
    · rfl
    · split
      · exact ca (Calmer.refuse _ _ _ _ _) b
      · split
        · rfl
        · split
          · exact (State.acre_upAcre_other _ _ hb).trans (State.acre_upAcre_other _ _ hb)
          · exact State.acre_upAcre_other _ _ hb
  · rw [k3, k4, k2, k0]
    simp only [Bool.or_self, Bool.and_false, Bool.false_and, Bool.false_eq_true, if_false]
    obtain ⟨r1, r2⟩ := writeAcre_line s2 q.acre q.line data k1
    exact ⟨((w _ _).1.acreLine _ _).trans r1, fun l hl => ((w _ _).1.acreLine _ _).trans ((r2 l hl).trans (c2.1.acreLine _ _))⟩

theorem perform_inv (s : State) (q : AcreReq) (n : Nat) (e : q.op = .inv) : Calmer s (s.perform q n) := by
  have c1 : Calmer s (s.upC q.hide (fun c => { c with telAcre := satInc c.telAcre })) := Calmer.ofC _ _ _
  unfold State.perform
  dsimp only
  rw [e]
  dsimp only
  refine c1.trans ?_
  split
  · exact (Calmer.write _ _ _ _ _).trans (Calmer.track _ _ _ _)
  · exact Calmer.write _ _ _ _ _

theorem drop_spec (s : State) (h : Nat) (p : Snoop) : s.dropSnoop h p = s.upA h (fun a => { a with snoops := a.snoops.erase p }) := rfl

theorem storeLine_snoops (s : State) (h off : Nat) (d : List Byte) (b : Bool) (c : Nat) : ((s.storeLine h off d b c).hide h).a.snoops = (s.hide h).a.snoops := by
  have hw : ∀ j, (s.writeMem h off d).hide j = s.hide j := fun _ => rfl
  unfold State.storeLine; dsimp only; split <;> simp [hw]

theorem closeSlot_err (s : State) (h n st : Nat) (o : Origin) (w : Bool) (j : Nat) : ((s.closeSlot h n st o w).hide j).a.err = (s.hide j).a.err := by
  have U : ∀ (s : State) (h : Nat) (f : APart → APart) (hf : ∀ a, (f a).err = a.err) (j : Nat), ((s.upA h f).hide j).a.err = (s.hide j).a.err := by
    intro s h f hf j
    by_cases e : j = h
    · subst e; rw [State.hide_upA]; exact hf _
    · rw [State.hide_upA_other _ _ e]
  have N : ∀ (s : State) (h off : Nat) (i : Bool) (w : SnoopFor) (j : Nat), ((s.sendSnoop h off i w).hide j).a.err = (s.hide j).a.err := by
    intro s h off i w j
    unfold State.sendSnoop
    rw [State.enqueue_hide]
    exact U _ _ _ (fun a => by rfl) _
  have F : ∀ {α : Type} (f : State → α → State) (hf : ∀ s a, ((f s a).hide j).a.err = (s.hide j).a.err) (l : List α) (s : State),
      ((l.foldl f s).hide j).a.err = (s.hide j).a.err := by
    intro α f hf l
    induction l with
    | nil => intro s; rfl
    | cons a l ih => intro s; rw [List.foldl_cons, ih, hf]
  unfold State.closeSlot
  dsimp only
  split
  · rfl
  · have b : ∀ g : LeaseSlot → LeaseSlot, (((s.upSlot h n g).leaseRecord h n o).hide j).a.err = (s.hide j).a.err := by
      intro g
      rw [record_hide']
      exact U _ _ _ (fun a => by rfl) _
    split
    · unfold State.recall
      rw [F _ (fun s a => N _ _ _ _ _ _), b]
    · unfold State.endHold
      dsimp only
      rw [F _ (fun s a => N _ _ _ _ _ _)]
      refine (U _ _ _ (fun a => by rfl) _).trans ?_
      exact b _

theorem closeHold_err (s : State) (h n st : Nat) (o : Origin) (w : Bool) (j : Nat) : ((s.closeHold h n st o w).hide j).a.err = (s.hide j).a.err := by
  have F : ∀ (l : List (Nat × Nat)) (s : State), ((l.foldl (fun s p => s.closeSlot p.1 p.2 stLeaseLost o w) s).hide j).a.err = (s.hide j).a.err := by
    intro l
    induction l with
    | nil => intro s; rfl
    | cons a l ih => intro s; rw [List.foldl_cons, ih, closeSlot_err]
  unfold State.closeHold
  dsimp only
  rw [F, closeSlot_err]

theorem endHold_spec (s : State) (h n : Nat) : ((s.endHold h n).hide h).a.err = (s.hide h).a.err ∧
    ((s.endHold h n).hide h).a.dir = (s.hide h).a.dir.filter (fun d => !(inWindow n d.off)) := by
  have F : ∀ (l : List Nat) (s : State), ((l.foldl (fun s o => s.sendSnoop h o true .ended) s).hide h).a.err = (s.hide h).a.err ∧
      ((l.foldl (fun s o => s.sendSnoop h o true .ended) s).hide h).a.dir = (s.hide h).a.dir := by
    intro l
    induction l with
    | nil => intro s; exact ⟨rfl, rfl⟩
    | cons a l ih =>
      intro s
      rw [List.foldl_cons, (ih _).1, (ih _).2]
      unfold State.sendSnoop
      rw [State.enqueue_hide, State.hide_upA]
      exact ⟨rfl, rfl⟩
  unfold State.endHold
  dsimp only
  rw [(F _ _).1, (F _ _).2, State.hide_upA]
  exact ⟨rfl, rfl⟩

theorem storeLine_keeps (s : State) (h off : Nat) (d : List Byte) (b : Bool) (c : Nat) (hl : d.length = 64) : (s.storeLine h off d b c).readMem h off 64 = d ∧
    (s.storeLine h off d b c).acres = s.acres ∧ ((s.storeLine h off d b c).hide h).a.snoops = (s.hide h).a.snoops := by
  have e : (s.storeLine h off d b c).imem = (s.writeMem h off d).imem := by
    unfold State.storeLine; dsimp only; split <;> rfl
  refine ⟨?_, ?_, ?_⟩
  · unfold State.readMem; rw [e, ← hl]; exact Memory.read_write _ _ _
  · unfold State.storeLine; dsimp only; split <;> rfl
  · have hw : ∀ j, (s.writeMem h off d).hide j = s.hide j := fun _ => rfl
    unfold State.storeLine; dsimp only; split <;> simp [hw]

theorem response_run (h off : Nat) (data : Option (List Byte)) (s : State) (p : Snoop) (hp : (s.hide h).a.snoops.find? (fun p => p.off == off) = some p)
    (h1 : s.cxl.width ≠ 0) (h2 : s.cxl.ideMem ≠ .insecure) : snoopResponse h off data s = (match (s.hide h).area off with
      | .win n line =>
        if p.why = .ended then (s.dropSnoop h p).upA h (fun a => { a with roWr := satInc a.roWr })
        else
          (match data with
            | some d => if ((s.dropSnoop h p).acre ((s.hide h).lease n).acre).poisoned line then s.dropSnoop h p else (s.dropSnoop h p).writeAcre ((s.hide h).lease n).acre line d
            | none => s.dropSnoop h p).answered h p
      | .gap => s.dropSnoop h p
      | _ => match data with
        | some d => if (s.hide h).resetting then s.dropSnoop h p else (s.dropSnoop h p).storeLine h off d false (AMap.get 0 (s.hide h).a.opNotice off)
        | none => s.dropSnoop h p) := by
  unfold snoopResponse
  dsimp only
  rw [hp]
  dsimp only
  rw [if_neg (by simp [h1, h2])]
  all_goals cases (s.hide h).area off <;> rfl

theorem answered_acres (s : State) (h : Nat) (p : Snoop) : (s.answered h p).acres = s.acres ∧ (s.answered h p).imem = s.imem ∧
    ((s.answered h p).hide h).a.snoops = (s.hide h).a.snoops ∧ Calm s (s.answered h p) := by
  unfold State.answered
  have A : ∀ f : APart → APart, (∀ a, (f a).snoops = a.snoops) → (s.upA h f).acres = s.acres ∧ (s.upA h f).imem = s.imem ∧ ((s.upA h f).hide h).a.snoops = (s.hide h).a.snoops ∧ Calm s (s.upA h f) := by
    intro f hf
    exact ⟨rfl, rfl, by rw [State.hide_upA]; exact hf _, Calm.ofA _ _ _⟩
  have Z : s.acres = s.acres ∧ s.imem = s.imem ∧ (s.hide h).a.snoops = (s.hide h).a.snoops ∧ Calm s s := ⟨rfl, rfl, rfl, (Calmer.refl s).1⟩
  repeat' split
  all_goals first
    | exact Z
    | exact A _ (fun a => rfl)

end Sys2Proof.Machine
end

