-- ==== Sys2Proof/Laws/Training.lean ====
section
/-!
SUPPORT. Lemmas on what training, module acceptance and the end of a command leave of a league port.
-/

namespace Sys2Proof.Machine
open Sys2Proof

/-- What no command's end touches of a port. -/
def linkOf (q : PortSt) : PortSt := { q with withheld := 0, err := 0, first := [], cmds := [], offered := none }

def PortsAlike (s t : State) : Prop := ∀ g, linkOf (t.port g) = linkOf (s.port g)

theorem PortsAlike.trans {s t u : State} (a : PortsAlike s t) (b : PortsAlike t u) : PortsAlike s u := fun g => (b g).trans (a g)

theorem PortsAlike.refl (s : State) : PortsAlike s s := fun _ => rfl

theorem PortsAlike.of {s t : State} (h : t.ports = s.ports) : PortsAlike s t := fun g => by unfold State.port; rw [h]

theorem PortsAlike.up (s : State) (p : Nat) (f : PortSt → PortSt) (hf : ∀ q, linkOf (f q) = linkOf q) : PortsAlike s (s.upPort p f) := by
  intro g
  by_cases e : g = p
  · subst e; rw [State.port_upPort]; exact hf _
  · rw [State.port_upPort_other _ _ e]

theorem PortsAlike.foldl {α : Type} (f : State → α → State) (hf : ∀ s a, PortsAlike s (f s a)) (l : List α) (s : State) : PortsAlike s (l.foldl f s) := by
  induction l generalizing s with
  | nil => exact PortsAlike.refl _
  | cons a l ih => exact (hf s a).trans (ih _)

theorem pc_withhold (s : State) (h p lba n : Nat) : PortsAlike s (s.withhold h p lba n) :=
  (PortsAlike.of (s := s) (t := s.upO h (fun o => { o with withheld := o.withheld ++ [(p, lba, n)] })) rfl).trans (PortsAlike.up _ _ _ (fun _ => rfl))

theorem pc_trimEnds (s : State) (h p lba n st : Nat) : PortsAlike s (s.trimEnds h p lba n st) := by
  unfold State.trimEnds
  dsimp only
  refine PortsAlike.trans ?_ (PortsAlike.of (by rfl))
  split
  · exact PortsAlike.of rfl
  · exact (PortsAlike.of (s := s) rfl).trans (pc_withhold _ _ _ _ _)

theorem pc_trimRefused (s : State) (h p lba n : Nat) : PortsAlike s (s.trimRefused h p lba n) :=
  (PortsAlike.up s p (fun q => { q with err := q.err ||| 8 }) (fun _ => rfl)).trans (pc_trimEnds _ _ _ _ _ _)

theorem pc_next (s : State) (p : Nat) : PortsAlike s (s.nextFirst p) := PortsAlike.of ((State.nextFirst_kept s p).same .ports (by decide))

theorem pc_endCmd (s : State) (p : Nat) (c : Cmd) (st : Nat) : PortsAlike s (s.endCmd p c st) := by
  unfold State.endCmd
  dsimp only
  refine PortsAlike.trans ?_ (pc_next _ _)
  have a : PortsAlike s (s.upPort p (fun q => { q with cmds := q.cmds.filter (fun d => d.tag != c.tag) })) := PortsAlike.up _ _ _ (fun _ => rfl)
  generalize s.upPort p (fun q => { q with cmds := q.cmds.filter (fun d => d.tag != c.tag) }) = u at *
  have b : PortsAlike s (if st ≠ 0 ∧ c.op ≠ .read ∧ c.op ≠ .identify then u.upPort p (fun q => { q with err := q.err ||| 8 }) else u) := by
    split
    · exact a.trans (PortsAlike.up _ _ _ (fun _ => rfl))
    · exact a
  generalize (if st ≠ 0 ∧ c.op ≠ .read ∧ c.op ≠ .identify then u.upPort p (fun q => { q with err := q.err ||| 8 }) else u) = v at *
  refine b.trans ?_
  cases c.why with
  | job h j k =>
    dsimp only
    split
    · exact PortsAlike.refl _
    · rename_i bb _
      have e1 : PortsAlike v (v.upO h (fun o => { o with jobs := o.jobs.set j (bb.ends 1 st) })) := PortsAlike.of rfl
      generalize v.upO h (fun o => { o with jobs := o.jobs.set j (bb.ends 1 st) }) = w at *
      have e2 : PortsAlike v (if st = stDeviceFault ∧ bb.worst ≠ stDeviceFault then w.withhold h p bb.lba bb.sectors else w) := by
        split
        · exact e1.trans (pc_withhold _ _ _ _ _)
        · exact e1
      generalize (if st = stDeviceFault ∧ bb.worst ≠ stDeviceFault then w.withhold h p bb.lba bb.sectors else w) = x at *
      split
      · exact e2
      · exact e2.trans (PortsAlike.of ((State.stopJobs_kept x h j).same .ports (by decide)))
  | trim h lba n => exact pc_trimEnds _ _ _ _ _ _
  | allot h lba n => exact (pc_trimEnds _ _ _ _ _ _).trans (PortsAlike.up _ _ _ (fun _ => rfl))
  | erase part =>
    dsimp only
    have e1 : PortsAlike v (v.upPort p (fun q => { q with first := q.first.erase (.erase part) })) := PortsAlike.up _ _ _ (fun _ => rfl)
    generalize v.upPort p (fun q => { q with first := q.first.erase (.erase part) }) = w at *
    split
    · exact e1
    · exact e1.trans (PortsAlike.of rfl)
  | ident =>
    dsimp only
    split
    · exact PortsAlike.refl _
    · exact PortsAlike.up _ _ _ (fun _ => rfl)

theorem pc_failTrims (s : State) (h p : Nat) : PortsAlike s (s.failTrims h p) := by
  unfold State.failTrims
  dsimp only
  generalize hu : s.upQueue p h _ = u
  have eu : PortsAlike s u := by rw [← hu]; exact PortsAlike.of rfl
  generalize List.filterMap _ _ = l
  exact eu.trans (PortsAlike.foldl (fun s (t : Nat × Nat) => s.trimRefused h p t.1 t.2) (fun s a => pc_trimRefused _ _ _ _ _) l u)

theorem pc_failPort (s : State) (p : Nat) : PortsAlike s (s.failPort p) := by
  unfold State.failPort
  dsimp only
  have h0 := PortsAlike.foldl (fun (s : State) (c : Cmd) => s.endCmd p c stTimeout) (fun s c => pc_endCmd s p c stTimeout) (s.port p).cmds s
  generalize List.foldl (fun (s : State) (c : Cmd) => s.endCmd p c stTimeout) s (s.port p).cmds = u at *
  refine h0.trans ?_
  unfold forAll
  refine PortsAlike.foldl _ (fun s h => ?_) _ _
  have h1 := pc_failTrims s h p
  generalize s.failTrims h p = v at *
  refine h1.trans (PortsAlike.foldl _ (fun s j => ?_) _ _)
  split
  · exact (PortsAlike.of ((State.unissue_kept s h j.1).same .ports (by decide))).trans (PortsAlike.of (t := State.upO _ _ _) rfl)
  · exact PortsAlike.refl _

theorem leagueRecord_port (s : State) (p ev g : Nat) : (s.leagueRecord p ev).port g = s.port g := rfl

theorem pc_portOut (s : State) (p : Nat) (st : PortState) : linkOf ((s.portOut p st).port p) = linkOf { s.port p with
    st := st, width := 0, lanes := 0, step := 0, attempts := 0, waiting := false, retired := [], txSeq := 0, rxSeq := 0, unacked := []
    replays := 0, nakSent := false, sentCmd := 0, sentWdata := 0, crCmd := 0, crWdata := 0, crRsp := 256, crRdata := 256
    module := none, capacity := 0 } := by
  unfold State.portOut
  dsimp only
  rw [leagueRecord_port, pc_failPort, State.port_upPort]

theorem link_st {a b : PortSt} (h : linkOf a = linkOf b) : a.st = b.st := (congrArg PortSt.st h : (linkOf a).st = (linkOf b).st)

theorem link_module {a b : PortSt} (h : linkOf a = linkOf b) : a.module = b.module := (congrArg PortSt.module h : (linkOf a).module = (linkOf b).module)

theorem link_width {a b : PortSt} (h : linkOf a = linkOf b) : a.width = b.width := (congrArg PortSt.width h : (linkOf a).width = (linkOf b).width)

theorem link_serial {a b : PortSt} (h : linkOf a = linkOf b) : a.serial = b.serial := (congrArg PortSt.serial h : (linkOf a).serial = (linkOf b).serial)

theorem train_port (s : State) (p step : Nat) : (s.train p step).port p = { s.port p with
    st := .training, step := step, waiting := false, maxWidth := (s.port p).most, lanes := if step = 1 then 0 else (s.port p).lanes
    offered := none, cmds := (s.port p).cmds.filter (fun c => c.why != .ident) } := State.port_upPort _ _ _

theorem train_other (s : State) (p step : Nat) {g : Nat} (h : g ≠ p) : (s.train p step).port g = s.port g := State.port_upPort_other _ _ h

theorem retrain_port (s : State) (p : Nat) (h : (s.port p).st = .active ∨ (s.port p).st = .training) : (s.retrain p).port p = { s.port p with
    st := .training, step := 2, waiting := false, maxWidth := (s.port p).most, offered := none, cmds := (s.port p).cmds.filter (fun c => c.why != .ident)
    retrain := satInc (s.port p).retrain, replays := 0, nakSent := false } ∧ ∀ g, g ≠ p → (s.retrain p).port g = s.port g := by
  have e : s.retrain p = ((s.train p 2).upPort p (fun q => { q with retrain := satInc q.retrain, replays := 0, nakSent := false })).leagueRecord p 0 := by
    unfold State.retrain
    exact if_neg (by rcases h with h | h <;> rw [h] <;> decide)
  rw [e]
  refine ⟨?_, fun g hg => ?_⟩
  · rw [leagueRecord_port, State.port_upPort, train_port]
    rfl
  · rw [leagueRecord_port, State.port_upPort_other _ _ hg, train_other _ _ _ hg]

theorem enq_first (s : State) (p h : Nat) (f : EgFrame) : f ∈ ((s.enqueue p h true f).gates.queues.get EgQueue.empty (egKey p h)).first := by
  rw [enqueue_queue]; simp

theorem lost_exts (s : State) (p : Nat) : ∀ h < 16, ∀ e ∈ ((s.loseExtents p).hide h).o.tab.exts, e.2.module = p → e.2.lost = true := by
  intro h hh
  unfold State.loseExtents forAll
  generalize hf : (fun (s : State) (h : Nat) => s.upO h (fun o => { o with
    tab := { o.tab with exts := o.tab.exts.map (fun (e : Nat × Extent) => if e.2.module = p then (e.1, { e.2 with lost := true }) else e) } })) = f
  have one : ∀ s, ∀ e ∈ ((f s h).hide h).o.tab.exts, e.2.module = p → e.2.lost = true := by
    intro s e he hm
    rw [← hf] at he
    dsimp only at he
    rw [State.hide_upO] at he
    obtain ⟨x, _, hx⟩ := List.mem_map.mp he
    split at hx
    · rw [← hx]
    · rename_i k; rw [← hx] at hm; exact absurd hm k
  have keep : ∀ s j, (∀ e ∈ (s.hide h).o.tab.exts, e.2.module = p → e.2.lost = true) → ∀ e ∈ ((f s j).hide h).o.tab.exts, e.2.module = p → e.2.lost = true := by
    intro s j hk
    by_cases z : h = j
    · rw [← z]; exact one s
    · rw [← hf]; dsimp only; rw [State.hide_upO_other _ _ z]; exact hk
  have stay : ∀ (l : List Nat) s, (∀ e ∈ (s.hide h).o.tab.exts, e.2.module = p → e.2.lost = true) → ∀ e ∈ ((l.foldl f s).hide h).o.tab.exts, e.2.module = p → e.2.lost = true := by
    intro l
    induction l with
    | nil => intro s hk; exact hk
    | cons a l ih => intro s hk; exact ih _ (keep s a hk)
  have all : ∀ (l : List Nat) s, h ∈ l → ∀ e ∈ ((l.foldl f s).hide h).o.tab.exts, e.2.module = p → e.2.lost = true := by
    intro l
    induction l with
    | nil => intro s hk; cases hk
    | cons a l ih =>
      intro s hk
      by_cases z : h = a
      · exact stay l _ (by rw [← z]; exact one s)
      · exact ih _ (by rcases List.mem_cons.mp hk with k | k; exact absurd k z; exact k)
  exact all _ _ (by simpa using hh)

/-- Object tables alike. -/
def TablesAlike (s t : State) : Prop := ∀ j, (t.hide j).o.tab = (s.hide j).o.tab

theorem TablesAlike.refl (s : State) : TablesAlike s s := fun _ => rfl

theorem TablesAlike.trans {s t u : State} (a : TablesAlike s t) (b : TablesAlike t u) : TablesAlike s u := fun j => (b j).trans (a j)

theorem TablesAlike.of {s t : State} (h : t.hides = s.hides) : TablesAlike s t := fun j => by unfold State.hide; rw [h]

theorem TablesAlike.upO (s : State) (h : Nat) (f : OPart → OPart) (hf : ∀ o, (f o).tab = o.tab) : TablesAlike s (s.upO h f) := by
  intro j
  by_cases e : j = h
  · subst e; rw [State.hide_upO]; exact hf _
  · rw [State.hide_upO_other _ _ e]

theorem TablesAlike.upQ (s : State) (h : Nat) (f : QPart → QPart) : TablesAlike s (s.upQ h f) := by
  intro j
  by_cases e : j = h
  · subst e; rw [State.hide_upQ]
  · rw [State.hide_upQ_other _ _ e]

theorem TablesAlike.foldl {α : Type} (f : State → α → State) (hf : ∀ s a, TablesAlike s (f s a)) (l : List α) (s : State) : TablesAlike s (l.foldl f s) := by
  induction l generalizing s with
  | nil => exact TablesAlike.refl _
  | cons a l ih => exact (hf s a).trans (ih _)

theorem tb_event (s : State) (h : Nat) (es : List (List Byte)) : TablesAlike s (s.postEvent h es) := by
  intro j
  by_cases e : j = h
  · subst e
    unfold State.postEvent
    dsimp only
    split
    · rw [State.hide_upQ]
      exact congrArg OPart.tab (postEntries_keeps _ _ _ _ _ _).2.1
    · rw [State.hide_upQ]
  · rw [State.postEvent_apart _ _ _ j e]

theorem tb_record (s : State) (p ev : Nat) : TablesAlike s (s.leagueRecord p ev) := fun _ => rfl

theorem tb_port (s : State) (p : Nat) (f : PortSt → PortSt) : TablesAlike s (s.upPort p f) := fun _ => rfl

theorem pc_upO (s : State) (p : Nat) (f : OPart → OPart) : PortsAlike s (s.upO p f) := fun _ => rfl

theorem tb_device (s : State) : TablesAlike s s.deviceEvent := by
  unfold State.deviceEvent State.deviceEventTo forAll
  exact TablesAlike.foldl _ (fun s h => tb_event _ _ _) _ _

theorem both_new (s : State) (p : Nat) : TablesAlike s (s.newModule p) ∧ PortsAlike s (s.newModule p) := by
  unfold State.newModule
  dsimp only
  have a : TablesAlike s (s.upPort p (fun q => { q with first := (List.range 16).map .erase })) ∧ PortsAlike s (s.upPort p (fun q => { q with first := (List.range 16).map .erase })) :=
    ⟨TablesAlike.of rfl, PortsAlike.up _ _ _ (fun _ => rfl)⟩
  generalize s.upPort p (fun q => { q with first := (List.range 16).map .erase }) = u at *
  split
  · exact a
  · have F : ∀ (f : State → Nat → State), (∀ s h, TablesAlike s (f s h) ∧ PortsAlike s (f s h)) → ∀ l s, TablesAlike s (forAll s l f) ∧ PortsAlike s (forAll s l f) :=
      fun f hf l s => ⟨TablesAlike.foldl f (fun s h => (hf s h).1) l s, PortsAlike.foldl f (fun s h => (hf s h).2) l s⟩
    have b := F (fun s h =>
      (s.upO h (fun o => { o with
        trimming := o.trimming.filter (fun t => t.1 != p), untrimmed := o.untrimmed.filter (fun t => t.1 != p) })).trimRange h p ((s.hide h).allotment p).1 ((s.hide h).allotment p).2)
      (fun s h => by
        have c : TablesAlike s (s.upO h (fun o => { o with
          trimming := o.trimming.filter (fun t => t.1 != p), untrimmed := o.untrimmed.filter (fun t => t.1 != p) })) ∧ PortsAlike s (s.upO h (fun o => { o with
          trimming := o.trimming.filter (fun t => t.1 != p), untrimmed := o.untrimmed.filter (fun t => t.1 != p) })) := ⟨TablesAlike.upO _ _ _ (fun _ => rfl), PortsAlike.of rfl⟩
        generalize (s.upO h (fun o => { o with
          trimming := o.trimming.filter (fun t => t.1 != p), untrimmed := o.untrimmed.filter (fun t => t.1 != p) })) = v at *
        unfold State.trimRange
        dsimp only
        split
        · exact c
        · generalize hw : State.upO v h _ = w
          have d : TablesAlike v w ∧ PortsAlike v w := by rw [← hw]; exact ⟨TablesAlike.upO _ _ _ (fun _ => by rfl), pc_upO _ _ _⟩
          refine ⟨c.1.trans (d.1.trans (tb_port _ _ _)), c.2.trans (d.2.trans ?_)⟩
          exact PortsAlike.up _ _ _ (fun _ => by rfl))
      u.present u
    exact ⟨a.1.trans b.1, a.2.trans b.2⟩

theorem pc_device (s : State) : PortsAlike s s.deviceEvent := PortsAlike.of ((State.deviceEvent_kept s).same .ports (by decide))

theorem pc_lose (s : State) (p : Nat) : PortsAlike s (s.loseExtents p) := PortsAlike.of ((State.loseExtents_kept s p).same .ports (by decide))

theorem pc_record (s : State) (p ev : Nat) : PortsAlike s (s.leagueRecord p ev) := fun _ => rfl

theorem meet_ok (s : State) (p : Nat) (m : ModuleId) (ha : s.acceptable p m = true) : let q := s.port p
    (((s.meetModule p m).port p).st = .active ∧ ((s.meetModule p m).port p).module = some m ∧ ((s.meetModule p m).port p).serial = some m.serial ∧
        ((s.meetModule p m).port p).width = laneCount (laneMask q.maxWidth q.lanes.toNat) ∧
        (q.serial ≠ none → q.serial ≠ some m.serial → ∀ h < 16, ∀ e ∈ ((s.meetModule p m).hide h).o.tab.exts, e.2.module = p → e.2.lost = true)) := by
  intro q
  unfold State.meetModule
  dsimp only
  rw [if_neg (by simp [ha])]
  obtain ⟨u, hu, g1⟩ : ∃ u : State, u = s.upPort p (fun q => { q with
      st := .active, step := 5, attempts := 0, waiting := false, width := laneCount (laneMask (s.port p).maxWidth (s.port p).lanes.toNat), module := some m, serial := some m.serial
      capacity := BitVec.ofNat 64 (min m.capacity 31250000000)
      err := if (s.port p).serial.isSome && (s.port p).serial != some m.serial then q.err ||| 4 else q.err }) ∧
      ((u.port p).st = .active ∧ (u.port p).module = some m ∧ (u.port p).serial = some m.serial ∧
        (u.port p).width = laneCount (laneMask (s.port p).maxWidth (s.port p).lanes.toNat)) := by
    refine ⟨_, rfl, ?_⟩
    rw [State.port_upPort]
    exact ⟨rfl, rfl, rfl, rfl⟩
  rw [← hu]
  clear hu
  have c1 : PortsAlike u (if (s.port p).width ≠ 0 ∧ (s.port p).width ≠ laneCount (laneMask (s.port p).maxWidth (s.port p).lanes.toNat) then u.deviceEvent else u) := by
    split
    · exact pc_device u
    · exact PortsAlike.refl u
  generalize (if (s.port p).width ≠ 0 ∧ (s.port p).width ≠ laneCount (laneMask (s.port p).maxWidth (s.port p).lanes.toNat) then u.deviceEvent else u) = v at *
  have c2 := c1.trans (pc_record v p 2)
  generalize v.leagueRecord p 2 = w at *
  have c3 : PortsAlike w (((((w.loseExtents p).deviceEvent).leagueRecord p 3).newModule p)) :=
    (pc_lose w p).trans ((pc_device _).trans ((pc_record _ _ _).trans (both_new _ _).2))
  have t3 : ∀ h < 16, ∀ e ∈ ((((((w.loseExtents p).deviceEvent).leagueRecord p 3).newModule p)).hide h).o.tab.exts, e.2.module = p → e.2.lost = true := by
    have : TablesAlike (w.loseExtents p) (((((w.loseExtents p).deviceEvent).leagueRecord p 3).newModule p)) :=
      (tb_device _).trans ((tb_record _ _ _).trans (both_new _ _).1)
    intro h hh
    rw [this h]
    exact lost_exts w p h hh
  generalize ((((w.loseExtents p).deviceEvent).leagueRecord p 3).newModule p) = x at *
  have fin : ∀ y, PortsAlike u y → ((y.port p).st = .active ∧ (y.port p).module = some m ∧ (y.port p).serial = some m.serial ∧
      (y.port p).width = laneCount (laneMask q.maxWidth q.lanes.toNat)) := fun y hy =>
    ⟨(link_st (hy p)).trans g1.1, (link_module (hy p)).trans g1.2.1, (link_serial (hy p)).trans g1.2.2.1, (link_width (hy p)).trans g1.2.2.2⟩
  have c4 : ∀ y, PortsAlike y (y.nextFirst p) := fun y => pc_next y p
  have tb4 : ∀ y, TablesAlike y (y.nextFirst p) := fun y => TablesAlike.of ((State.nextFirst_kept y p).same .hides (by decide))
  cases hv : ((s.port p).serial.isSome && (s.port p).serial != some m.serial) with
  | true =>
    rw [if_pos rfl]
    obtain ⟨a, b, c, d⟩ := fin _ (c2.trans (c3.trans (c4 x)))
    refine ⟨a, b, c, d, fun _ _ h hh => ?_⟩
    rw [tb4 x h]
    exact t3 h hh
  | false =>
    rw [if_neg (by simp)]
    obtain ⟨a, b, c, d⟩ := fin _ (c2.trans (c4 w))
    refine ⟨a, b, c, d, fun k1 k2 => ?_⟩
    have : (q.serial.isSome && q.serial != some m.serial) = true := by
      rw [Bool.and_eq_true]; exact ⟨Option.isSome_iff_ne_none.mpr k1, by simpa using k2⟩
    rw [show (q.serial.isSome && q.serial != some m.serial) = _ from hv] at this; cases this

end Sys2Proof.Machine
end

