-- ==== Sys2Proof/Laws/Frames.lean ====
section
/-!
SUPPORT. Lemmas on the link-layer check of a league frame and the commands it ends.
-/

namespace Sys2Proof.Machine
open Sys2Proof

/-- What no command's end touches of a port. -/
def linkCmds (q : PortSt) : PortSt := { q with withheld := 0, err := 0, first := [], offered := none }

def CommandsAlike (s t : State) : Prop := ∀ g, linkCmds (t.port g) = linkCmds (s.port g)

theorem CommandsAlike.trans {s t u : State} (a : CommandsAlike s t) (b : CommandsAlike t u) : CommandsAlike s u := fun g => (b g).trans (a g)

theorem CommandsAlike.refl (s : State) : CommandsAlike s s := fun _ => rfl

theorem CommandsAlike.of {s t : State} (h : t.ports = s.ports) : CommandsAlike s t := fun g => by unfold State.port; rw [h]

theorem CommandsAlike.up (s : State) (p : Nat) (f : PortSt → PortSt) (hf : ∀ q, linkCmds (f q) = linkCmds q) : CommandsAlike s (s.upPort p f) := by
  intro g
  by_cases e : g = p
  · subst e; rw [State.port_upPort]; exact hf _
  · rw [State.port_upPort_other _ _ e]

theorem CommandsAlike.foldl {α : Type} (f : State → α → State) (hf : ∀ s a, CommandsAlike s (f s a)) (l : List α) (s : State) : CommandsAlike s (l.foldl f s) := by
  induction l generalizing s with
  | nil => exact CommandsAlike.refl _
  | cons a l ih => exact (hf s a).trans (ih _)

theorem cmds_withhold (s : State) (h p lba n : Nat) : CommandsAlike s (s.withhold h p lba n) :=
  (CommandsAlike.of (s := s) (t := s.upO h (fun o => { o with withheld := o.withheld ++ [(p, lba, n)] })) rfl).trans (CommandsAlike.up _ _ _ (fun _ => rfl))

theorem cmds_trimEnds (s : State) (h p lba n st : Nat) : CommandsAlike s (s.trimEnds h p lba n st) := by
  unfold State.trimEnds
  dsimp only
  refine CommandsAlike.trans ?_ (CommandsAlike.of (by rfl))
  split
  · exact CommandsAlike.of rfl
  · exact (CommandsAlike.of (s := s) rfl).trans (cmds_withhold _ _ _ _ _)

theorem cmds_trimRefused (s : State) (h p lba n : Nat) : CommandsAlike s (s.trimRefused h p lba n) :=
  (CommandsAlike.up s p (fun q => { q with err := q.err ||| 8 }) (fun _ => rfl)).trans (cmds_trimEnds _ _ _ _ _ _)

theorem cmds_next (s : State) (p : Nat) : CommandsAlike s (s.nextFirst p) := CommandsAlike.of ((State.nextFirst_kept s p).same .ports (by decide))

theorem cmds_endCmd (s : State) (p : Nat) (c : Cmd) (st : Nat) : CommandsAlike (s.upPort p (fun q => { q with cmds := q.cmds.filter (fun d => d.tag != c.tag) })) (s.endCmd p c st) := by
  unfold State.endCmd
  dsimp only
  refine CommandsAlike.trans ?_ (cmds_next _ _)
  generalize s.upPort p (fun q => { q with cmds := q.cmds.filter (fun d => d.tag != c.tag) }) = u at *
  have a := CommandsAlike.refl u
  have b : CommandsAlike u (if st ≠ 0 ∧ c.op ≠ .read ∧ c.op ≠ .identify then u.upPort p (fun q => { q with err := q.err ||| 8 }) else u) := by
    split
    · exact a.trans (CommandsAlike.up _ _ _ (fun _ => rfl))
    · exact a
  generalize (if st ≠ 0 ∧ c.op ≠ .read ∧ c.op ≠ .identify then u.upPort p (fun q => { q with err := q.err ||| 8 }) else u) = v at *
  refine b.trans ?_
  cases c.why with
  | job h j k =>
    dsimp only
    split
    · exact CommandsAlike.refl _
    · rename_i bb _
      have e1 : CommandsAlike v (v.upO h (fun o => { o with jobs := o.jobs.set j (bb.ends 1 st) })) := CommandsAlike.of rfl
      generalize v.upO h (fun o => { o with jobs := o.jobs.set j (bb.ends 1 st) }) = w at *
      have e2 : CommandsAlike v (if st = stDeviceFault ∧ bb.worst ≠ stDeviceFault then w.withhold h p bb.lba bb.sectors else w) := by
        split
        · exact e1.trans (cmds_withhold _ _ _ _ _)
        · exact e1
      generalize (if st = stDeviceFault ∧ bb.worst ≠ stDeviceFault then w.withhold h p bb.lba bb.sectors else w) = x at *
      split
      · exact e2
      · exact e2.trans (CommandsAlike.of ((State.stopJobs_kept x h j).same .ports (by decide)))
  | trim h lba n => exact cmds_trimEnds _ _ _ _ _ _
  | allot h lba n => exact (cmds_trimEnds _ _ _ _ _ _).trans (CommandsAlike.up _ _ _ (fun _ => rfl))
  | erase part =>
    dsimp only
    have e1 : CommandsAlike v (v.upPort p (fun q => { q with first := q.first.erase (.erase part) })) := CommandsAlike.up _ _ _ (fun _ => rfl)
    generalize v.upPort p (fun q => { q with first := q.first.erase (.erase part) }) = w at *
    split
    · exact e1
    · exact e1.trans (CommandsAlike.of rfl)
  | ident =>
    dsimp only
    split
    · exact CommandsAlike.refl _
    · exact CommandsAlike.up _ _ _ (fun _ => rfl)

theorem endCmd_port (s : State) (p : Nat) (c : Cmd) (st : Nat) : linkCmds ((s.endCmd p c st).port p) =
    linkCmds { s.port p with cmds := (s.port p).cmds.filter (fun d => d.tag != c.tag) } := by
  rw [cmds_endCmd s p c st p, State.port_upPort]

theorem linkCmds_cmds {a b : PortSt} (h : linkCmds a = linkCmds b) : a.cmds = b.cmds := (congrArg PortSt.cmds h : (linkCmds a).cmds = (linkCmds b).cmds)

theorem linkCmds_rx {a b : PortSt} (h : linkCmds a = linkCmds b) : a.rxSeq = b.rxSeq := (congrArg PortSt.rxSeq h : (linkCmds a).rxSeq = (linkCmds b).rxSeq)

theorem linkCmds_crRsp {a b : PortSt} (h : linkCmds a = linkCmds b) : a.crRsp = b.crRsp := (congrArg PortSt.crRsp h : (linkCmds a).crRsp = (linkCmds b).crRsp)

theorem linkCmds_crRdata {a b : PortSt} (h : linkCmds a = linkCmds b) : a.crRdata = b.crRdata := (congrArg PortSt.crRdata h : (linkCmds a).crRdata = (linkCmds b).crRdata)

theorem linkCmds_timeout {a b : PortSt} (h : linkCmds a = linkCmds b) : a.timeout = b.timeout := (congrArg PortSt.timeout h : (linkCmds a).timeout = (linkCmds b).timeout)

theorem linkCmds_retired {a b : PortSt} (h : linkCmds a = linkCmds b) : a.retired = b.retired := (congrArg PortSt.retired h : (linkCmds a).retired = (linkCmds b).retired)

theorem upCmd_port (s : State) (p : Nat) (c : Cmd) :
    (c.complete = true → linkCmds ((s.upCmd p c).port p) = linkCmds { s.port p with cmds := ((s.port p).cmds.map (fun d => if d.tag == c.tag then c else d)).filter (fun d => d.tag != c.tag) }) ∧
    (c.complete = false → s.upCmd p c = s.upPort p (fun q => { q with cmds := q.cmds.map (fun d => if d.tag == c.tag then c else d) })) := by
  unfold State.upCmd
  dsimp only
  refine ⟨fun h => ?_, fun h => ?_⟩
  · rw [if_pos h, endCmd_port, State.port_upPort]
  · rw [if_neg (by simp [h])]

theorem nak_spec (s : State) (p : Nat) : Only [.gates, .ports] s (s.nak p) ∧ (s.nak p).port p = { s.port p with nakSent := true } ∧
    (s.nak p).gates.sent = if (s.port p).nakSent then s.gates.sent else s.gates.sent ++ [(p, 16, ⟨64, .ctrl { (s.port p).report with nak := some (s.port p).rxSeq }⟩)] := by
  unfold State.nak
  cases h : (s.port p).nakSent with
  | true =>
    rw [if_pos rfl, if_pos rfl]
    refine ⟨fun r _ => by cases r <;> rfl, ?_, rfl⟩
    rw [← h]
  | false =>
    rw [if_neg (by simp), if_neg (by simp)]
    have sp : ∀ u : State, (u.sendCtrl p).port p = u.port p := fun _ => rfl
    refine ⟨fun r hr => by cases r <;> first | rfl | exact absurd hr (by decide), by rw [sp, State.port_upPort], ?_⟩
    unfold State.sendCtrl
    dsimp only
    rw [State.port_upPort]
    rfl

theorem check_bad (s : State) (p : Nat) (k : FrameCheck) (h : k.crcOk = false ∨ k.wellFormed = false ∨ k.seq ≠ (s.port p).rxSeq) :
    ∃ t, s.linkCheck p k = (t, false) ∧ Only [.gates, .ports] s t ∧
      t.port p = { s.port p with
        crcErr := if k.crcOk then (s.port p).crcErr else satInc (s.port p).crcErr
        discard := if k.crcOk && !k.wellFormed then satInc (s.port p).discard else (s.port p).discard
        nakSent := true } ∧
      t.gates.sent = if (s.port p).nakSent then s.gates.sent else s.gates.sent ++ [(p, 16, ⟨64, .ctrl { (s.port p).report with nak := some (s.port p).rxSeq }⟩)] := by
  unfold State.linkCheck
  have U : ∀ f : PortSt → PortSt, Only [.gates, .ports] s (s.upPort p f) := fun f r hr => (State.upPort_kept s p f).same r (fun k => hr (by simp_all))
  cases h1 : k.crcOk with
  | false =>
    rw [if_pos (by simp)]
    obtain ⟨n1, n2, n3⟩ := nak_spec (s.upPort p (fun q => { q with crcErr := satInc q.crcErr })) p
    rw [State.port_upPort] at n2 n3
    exact ⟨_, rfl, only_trans (U _) n1, n2, n3⟩
  | true =>
    rw [if_neg (by simp)]
    cases h2 : k.wellFormed with
    | false =>
      rw [if_pos (by simp)]
      obtain ⟨n1, n2, n3⟩ := nak_spec (s.upPort p (fun q => { q with discard := satInc q.discard })) p
      rw [State.port_upPort] at n2 n3
      exact ⟨_, rfl, only_trans (U _) n1, n2, n3⟩
    | true =>
      rw [if_neg (by simp)]
      have h3 : k.seq ≠ (s.port p).rxSeq := by rcases h with k' | k' | k'; simp [h1] at k'; simp [h2] at k'; exact k'
      rw [if_pos h3]
      obtain ⟨n1, n2, n3⟩ := nak_spec s p
      exact ⟨_, rfl, n1, n2, n3⟩

theorem check_good (s : State) (p : Nat) (k : FrameCheck) (h1 : k.crcOk = true) (h2 : k.wellFormed = true) (h3 : k.seq = (s.port p).rxSeq) :
    s.linkCheck p k = (s.upPort p (fun q => { q with rxSeq := (q.rxSeq + 1) % 4096, nakSent := false }), true) := by
  unfold State.linkCheck
  rw [if_neg (by simp [h1]), if_neg (by simp [h2]), if_neg (by simp [h3])]

theorem retrain_sent (s : State) (p : Nat) : (s.retrain p).gates.sent = s.gates.sent := by
  unfold State.retrain
  split
  · rfl
  · rfl

/-- A part of the link of a port through RDATA. -/
theorem rdata_link {α : Type} (u : State) (p : Nat) (q : PortSt) (d : RData) (tag i : Nat)
    (gu : u.port p = { q with rxSeq := (q.rxSeq + 1) % 4096, nakSent := false, crRdata := q.crRdata + 1 }) (π : PortSt → α)
    (h0 : ∀ a : PortSt, π { a with discard := satInc a.discard } = π a) (h1 : ∀ a b : PortSt, linkCmds a = linkCmds b → π a = π b) 
    (h2 : ∀ (a : PortSt) l, π { a with cmds := l } = π a) (h3 : ∀ a : PortSt, π { a with sectFail := satInc a.sectFail } = π a) :
    π ((match q.cmds.find? (fun (c : Cmd) => c.tag == tag) with
      | none => u.discard p
      | some c =>
        if c.got.contains i then u.discard p
        else match c.op, d with
          | .read, .ident _ => u.discard p
          | .read, d => if i < c.count then u.takeSector p c i d else u.discard p
          | .identify, .ident m =>
            if i = 0 then (u.upPort p (fun q => { q with offered := some m })).upCmd p { c with got := [0] } else u.discard p
          | _, _ => u.discard p).port p) = π { q with rxSeq := (q.rxSeq + 1) % 4096, nakSent := false, crRdata := q.crRdata + 1 } := by
  have D : π ((u.discard p).port p) = π { q with rxSeq := (q.rxSeq + 1) % 4096, nakSent := false, crRdata := q.crRdata + 1 } := by
    unfold State.discard; rw [State.port_upPort, h0, gu]
  have C : ∀ (v : State) c, π ((v.upCmd p c).port p) = π (v.port p) := by
    intro v c
    cases hk : c.complete with
    | true => rw [h1 _ _ ((upCmd_port v p c).1 hk), h2]
    | false => rw [(upCmd_port v p c).2 hk, State.port_upPort, h2]
  cases q.cmds.find? (fun (c : Cmd) => c.tag == tag) with
  | none => exact D
  | some c =>
    dsimp only
    split
    · exact D
    · split
      · exact D
      · split
        · unfold State.takeSector
          dsimp only
          split
          · split
            · rw [C, gu]
            · split
              · rw [C]
                have z : ∀ (v : State) h (f : OPart → OPart), (v.upO h f).port p = v.port p := fun _ _ _ => rfl
                rw [z, gu]
              · rw [C, gu]
          · rw [C, gu]
          · rw [C, State.port_upPort, h3, gu]
        · exact D
      · split
        · rw [C, State.port_upPort]; exact (h1 _ _ (by rfl)).trans (congrArg π gu)
        · exact D
      · exact D

end Sys2Proof.Machine
end

