-- ==== Sys2Proof/Laws/Waiting.lean ====
section
/-!
SUPPORT. Lemmas on work of orders that goes on later: fetches, re-entry and delivery.
-/

namespace Sys2Proof.Machine
open Sys2Proof

theorem eccResult_q (s : State) (h : Nat) (x : DramErr) : QSame h s (s.eccResult h x) := by
  unfold State.eccResult
  dsimp only
  repeat' split
  all_goals first
    | exact QSame.refl _ _
    | exact QSame.of_hides rfl
    | exact upO_q s h (fun o => o.upRod x.frame (fun r => { r with poison := r.poison ++ [x.pair] }))

theorem stored_q (s : State) (h : Nat) (e : Env) : QSame h s (s.stored h e) := by
  unfold State.stored
  dsimp only
  exact (QSame.foldl _ (fun s x => eccResult_q s h x) _ _).trans (upO_q _ _ _)

theorem placed_q {h : Nat} {s t : State} (q : QSame h s t) {o : Order} (P : Placed s h o) : Placed t h o := by
  unfold Placed at *
  rw [show (t.hide h).q = (s.hide h).q from q]; exact P

theorem countCt_o (s : State) (h : Nat) (k : Ct) : ((s.countCt h k).hide h).o = (s.hide h).o := by
  unfold State.countCt
  split
  · rfl
  · rw [State.hide_upC]

theorem markFetch_q (s : State) (h i : Nat) (k : Fetch) : QSame h s (s.markFetch h i k) := upO_q _ _ _

theorem endFetch_q (s : State) (h i : Nat) (k : Fetch) : QSame h s (s.endFetch h i k) := (upO_q _ _ _).trans (pumpFetches_q _ _)

theorem fetch_q (s : State) (h a b c d : Nat) : QSame h s (s.fetch h a b c d).1 := by
  unfold State.fetch
  dsimp only
  exact (upO_q _ _ _).trans (pumpFetches_q _ _)

def renewThen (h i : Nat) (a : State × Flight) (k : Fetch) (dead : Bool) : State × Flight :=
  if k.arrived then (a.1.markFetch h i { k with past := true, missed := false }, a.2)
  else if dead then
    let s := a.1.endFetch h i k
    let (s, n) := s.fetch h k.order k.layer k.rod k.extent
    (s, { a.2 with fetches := a.2.fetches.map (fun y => if y = i then n else y) })
  else (a.1.markFetch h i { k with past := false, missed := false }, a.2)

def renewStep (h : Nat) (a : State × Flight) (i : Nat) : State × Flight :=
  match AMap.find (a.1.hide h).o.fetches i with
  | none => a
  | some k => renewThen h i a k (!k.arrived && (match k.job.bind (AMap.find (a.1.hide h).o.jobs) with | some j => j.status.isSome | none => false))

theorem renewStep_spec (h : Nat) (a : State × Flight) (i : Nat) : QSame h a.1 (renewStep h a i).1 ∧ ∃ m, (renewStep h a i).2 = { a.2 with fetches := m } := by
  unfold renewStep
  cases AMap.find (a.1.hide h).o.fetches i with
  | none => exact ⟨QSame.refl _ _, a.2.fetches, rfl⟩
  | some k =>
    dsimp only
    generalize (!k.arrived && _) = dead
    unfold renewThen
    split
    · exact ⟨markFetch_q _ _ _ _, a.2.fetches, rfl⟩
    · split
      · exact ⟨(endFetch_q _ _ _ _).trans (fetch_q _ _ _ _ _ _), _, rfl⟩
      · exact ⟨markFetch_q _ _ _ _, a.2.fetches, rfl⟩

theorem renew_spec (s : State) (h : Nat) (f : Flight) : QSame h s (s.renewFetches h f).1 ∧ (∃ l, (s.renewFetches h f).2 = { f with fetches := l }) := by
  have e : s.renewFetches h f = f.fetches.foldl (renewStep h) (s, f) := rfl
  rw [e]
  have key : ∀ (l : List Nat) (a : State × Flight), QSame h s a.1 → (∃ m, a.2 = { f with fetches := m }) →
      QSame h s (l.foldl (renewStep h) a).1 ∧ ∃ m, (l.foldl (renewStep h) a).2 = { f with fetches := m } := by
    intro l
    induction l with
    | nil => intro a ha hb; exact ⟨ha, hb⟩
    | cons i l ih =>
      intro a ha hb
      rw [List.foldl_cons]
      obtain ⟨h1, m, h2⟩ := renewStep_spec h a i
      obtain ⟨n, h3⟩ := hb
      exact ih _ (ha.trans h1) ⟨m, by rw [h2, h3]⟩
  exact key _ _ (QSame.refl _ _) ⟨f.fetches, rfl⟩

theorem dropFetches_q' (s : State) (h seq : Nat) : QSame h s (s.dropFetches h seq) := dropFetches_sameQ s h seq

theorem foldpair_q {α β : Type} (h : Nat) (f : State × β → α → State × β) (hf : ∀ p a, QSame h p.1 (f p a).1) (l : List α) (p : State × β) : QSame h p.1 (l.foldl f p).1 := by
  induction l generalizing p with
  | nil => exact QSame.refl _ _
  | cons a l ih => exact (hf p a).trans (ih _)

theorem done_q {h : Nat} {s u : State} (hu : QSame h s u) (o : Option (Nat × Fetch)) (n : Nat) : QSame h s (match o with
    | some (i, k) => if n = 1 then u.endFetch h i k else u
    | none => u) := by
  cases o with
  | none => exact hu
  | some p =>
    dsimp only
    split
    · exact hu.trans (endFetch_q _ _ _ _)
    · exact hu

theorem deliverOne_spec (s : State) (h : Nat) (j : DeliverJob) (f : Flight) (r : Nat × Nat × Nat) : QSame h s (s.deliverOne h j f r).1 ∧ (s.deliverOne h j f r).2.order = f.order := by
  have two : ∀ (a b : Nat) (bs cs : List Byte) (ep eq : Bool), QSame h s ((s.dmaWrite h a bs ep).dmaWrite h b cs eq) :=
    fun a b bs cs ep eq => (dmaWrite_q _ _ _ _ _).trans (dmaWrite_q _ _ _ _ _)
  unfold State.deliverOne
  dsimp only
  cases (j.pages r.2.1)[r.2.2]? with
  | none => exact ⟨QSame.refl _ _, rfl⟩
  | some p =>
    dsimp only
    cases (s.hide h).deliverRod j.d f.order.seq p with
    | delivered cells => exact ⟨done_q (two _ _ _ _ _ _) _ _, rfl⟩
    | poisoned => exact ⟨done_q (two _ _ _ _ _ _) _ _, rfl⟩
    | evicted => exact ⟨dmaWrite_q _ _ _ _ _, rfl⟩
    | failed => exact ⟨done_q (dmaWrite_q _ _ _ _ _) _ _, rfl⟩

end Sys2Proof.Machine
end

