-- ==== Sys2Proof/Tests/Slice0.lean ====
section
/-!
SUPPORT. Tests. The well-formedness checks refuse an ill-formed command each; a witness theorem for each statement shows states and
operands that meet its hypotheses, at the boundary of a range where it has one; a few results are those of the spec's own numbers.
-/

namespace Sys2Proof.Tests
open Sys2Proof Sys2Proof.Machine

/-! ### Small states -/

/-- A device that runs without a ream. -/
def running : State := { State.reset with power := { Power.reset with st := .running, step := 6, holdup := true } }

def header : ReamHeader := ⟨0, 0, 0, 0, 0, 1, 0, 0, 4950, 1, 1, 1, 0, 1, 0, 0⟩

/-- A hide with one region, on logical device 0, with a ring area and an operand area of 1 MiB, two job keys and acre 0. -/
def entry : HideEntry :=
  { hide := 0, ld := 0, confidential := false, compat := true, lengthWord := false, lengths := false, domains := 1, pfxLog2 := 0,
    cbSlots := 1, ringMib := 1, opndMib := 1, jobKeys := 2, seqEntries := 4, regions := 1, acres := [0], dirLines := 4, extents := 0,
    fetchKib := 0, weightUnits := 0, ovfCells := 0, flash := [], pools := [], weightStripe := [], seqRegions := 1, pfxRegions := 1 }

/-- META and MOVE slots from chain 0 on, one chain long, on region 0. -/
def slots : List Slot := [⟨.metaOrder, 0, 1, 1, 4, [], 0, 0⟩, ⟨.move, 0, 1, 1, 4, [], 0, 0⟩]

def section0 : Section := ⟨0, 1, 0, 1, 0, 0, [], [], 0, 0, 0, [], [], [], slots, []⟩

def ream : Ream := ⟨header, [], 0, [entry], [section0], [], [], true, true, true, true⟩

/-- A device that runs a ream with hide 0, whose link is up and whose decoder is committed. -/
def planned : State :=
  { running with
    plan := { Plan.reset with ream := some ream, activations := 1 }
    cxl := { Cxl.reset with width := 16, rate := 3, lds := [(0, { LdSt.reset with decoder := some (17 * 2 ^ 30, 1, 0) })] }
    hides := [(0, { HideSt.reset with lay := some entry, sec := some section0, slots := slots })] }

/-- `planned` with hide 0 changed. -/
def withHide (f : HideSt → HideSt) : State := planned.upHide 0 f

/-- `planned` with two sessions: 1 of an ADMIN and 2 of an OBSERVER. -/
def managed : State :=
  { planned with mgmt := { Mgmt.reset with sessions := [⟨1, .admin, 0, 1, false, .ip6⟩, ⟨2, .observer, 0, 0, false, .ip6⟩] } }

def admin : Req := ⟨1, 7⟩

/-- An order of opcode `op` in ring 0 with taking number `n`. -/
def order (op n : Nat) : Order :=
  ⟨n, 0, n, leBytes 64 op, none, [], false, 0, none, 0, none, [], true⟩

/-! ### Well-formed commands -/

theorem wf_refuses_bad_power_step : (Instr.powerUpStepOverrun 0).wf = false ∧ (Instr.powerUpStepOverrun 7).wf = false := by decide
theorem wf_refuses_bad_sensor : (Instr.sensorSample [(194, 20)]).wf = false ∧ (Instr.sensorTimeout 194).wf = false := by decide
theorem wf_refuses_bad_clock_region : (Instr.regionClockWindow [(64, 0)]).wf = false := by decide
theorem wf_refuses_bad_pattern_run : (Instr.screenPatternRun 0 80 0 0).wf = false ∧ (Instr.screenPatternRun 0 0 65536 0).wf = false := by decide
theorem wf_refuses_bad_gate_cycle : (Instr.egressFrameStart 0 0 250).wf = false := by decide
theorem wf_refuses_bad_line : (Instr.cxlMemRead 0 32 .shared).wf = false ∧ (Instr.cxlMemInv 0 (17 * 2 ^ 30)).wf = false ∧
    (Instr.uioRead 0 1).wf = false ∧ (Instr.biSnoopTimeout 0 3).wf = false := by decide
theorem wf_refuses_bad_line_data : (Instr.cxlMemWrite 0 0 [0] false false 0).wf = false ∧ (Instr.uioWrite 0 0 [] false 0).wf = false ∧
    (Instr.biSnoopResponse 0 0 (some [])).wf = false := by decide
theorem wf_refuses_bad_mark : (Instr.poisonMarkWrite 0 (2 ^ 22)).wf = false := by decide
theorem wf_refuses_bad_access : (Instr.registerWrite 0 (2 ^ 20) 4 0 false).wf = false ∧ (Instr.registerWrite 0 0 3 0 false).wf = false ∧
    (Instr.rcRegisterRead 0 0 16).wf = false := by decide
theorem wf_refuses_bad_link : (Instr.cxlLinkWidthChange 2 1).wf = false ∧ (Instr.cxlLinkUp 16 4).wf = false := by decide
theorem wf_refuses_bad_doe : (Instr.doeBegin 0 256 0).wf = false ∧ (Instr.doeBegin 0 0 (2 ^ 32)).wf = false ∧
    (Instr.doeData 0 65536 0 0).wf = false ∧ (Instr.doeStatus 0 65536).wf = false ∧ (Instr.doeCancel 0 65536).wf = false ∧
    (Instr.doeEnd 0 65536 ream).wf = false := by decide
theorem wf_refuses_bad_request : (Instr.telemetry ⟨2 ^ 32, 0⟩).wf = false ∧ (Instr.telemetry ⟨0, 2 ^ 32⟩).wf = false := by decide
theorem wf_refuses_bad_register_request : (Instr.regRead admin (2 ^ 64) 0).wf = false ∧ (Instr.regRead admin 0 65536).wf = false ∧
    (Instr.regWrite admin (2 ^ 64) 0 4).wf = false ∧ (Instr.regWrite admin 0 0 256).wf = false := by decide
theorem wf_refuses_bad_load : (Instr.loadBegin admin 256 0 0).wf = false ∧ (Instr.loadBegin admin 0 256 0).wf = false ∧
    (Instr.loadBegin admin 0 0 (2 ^ 32)).wf = false ∧ (Instr.loadData admin 65536 0 0).wf = false ∧
    (Instr.loadData admin 0 (2 ^ 32) 0).wf = false ∧ (Instr.loadEnd admin 65536 (.ream ream)).wf = false ∧
    (Instr.loadStatus admin 65536).wf = false ∧ (Instr.loadCancel admin 65536).wf = false := by decide
theorem wf_refuses_bad_subscription : (Instr.subscribe admin (2 ^ 32) 0).wf = false ∧ (Instr.subscribe admin 0 256).wf = false ∧
    (Instr.bbRead admin (2 ^ 64) 0).wf = false ∧ (Instr.bbRead admin 0 (2 ^ 32)).wf = false := by decide
theorem wf_refuses_bad_reset : (Instr.hideReset admin 256 0).wf = false ∧ (Instr.hideReset admin 0 256).wf = false ∧
    (Instr.deviceReset admin (2 ^ 32)).wf = false ∧ (Instr.regionReset admin 256 ⟨0, 0⟩).wf = false ∧
    (Instr.regionReset admin 0 ⟨256, 0⟩).wf = false ∧ (Instr.regionReset admin 0 ⟨0, 65536⟩).wf = false := by decide
theorem wf_refuses_bad_anchor : (Instr.anchorEnroll none ⟨256, 0, 0⟩).wf = false ∧ (Instr.anchorRemove admin ⟨0, 256, 0⟩).wf = false ∧
    (Instr.anchorRemove admin ⟨0, 0, 2 ^ 256⟩).wf = false ∧ (Instr.lifecycle admin 256 0).wf = false ∧
    (Instr.lifecycle admin 0 256).wf = false := by decide
theorem wf_refuses_bad_league : (Instr.leagueRsp 0 ⟨true, true, 4096⟩ 0 0 0).wf = false ∧
    (Instr.leagueRsp 0 ⟨true, true, 0⟩ 65536 0 0).wf = false ∧ (Instr.leagueRdata 0 ⟨true, true, 4096⟩ 0 0 .failed).wf = false ∧ (Instr.leagueCtrl 0 true ⟨4096, none, 0, 0, 0, 0⟩).wf = false ∧
    (Instr.leagueCtrl 0 true ⟨0, none, 65536, 0, 0, 0⟩).wf = false ∧ (Instr.leagueCtrl 0 true ⟨0, none, 0, 65536, 0, 0⟩).wf = false := by decide
theorem wf_refuses_bad_config_write : (Instr.configurationWrite 0 2 0).wf = false ∧ (Instr.configurationWrite 0 4096 0).wf = false := by decide

/-! ### Witnesses: the hypotheses of each statement, met together

Each theorem is named after its statement, and has one part for each clause that has hypotheses. -/

theorem met_StepRunsTheFrontCommand : ({ running with pending := [.resetN] } : State).pending = [.resetN] ∧ running.pending = [] := by decide

theorem sound_running : State.Sound { running with pending := [.resetN] } :=
  ⟨⟨rfl, ⟨List.Pairwise.nil, by decide, by decide, by decide, by decide, by decide⟩, by intro h; exact absurd h (by decide)⟩, by decide⟩

theorem met_EveryStepKeepsTheMachineSound : State.Sound { running with pending := [.resetN] } ∧
    ∃ t, step { running with pending := [.resetN] } = .next t := ⟨sound_running, _, rfl⟩

theorem met_CommandsOfOneHideLeaveTheOthersAlone : ownHide (.packetTake 15) = some 15 ∧
    ∃ t, exec (.packetTake 15) running = .next t := ⟨by decide, _, rfl⟩

theorem met_RecordsAreNeverAlteredAndNumbersRise : State.Inv { running with pending := [.resetN] } ∧
    ∃ t, step { running with pending := [.resetN] } = .next t := ⟨sound_running.1, _, rfl⟩

theorem met_FloorsAndFusesOnlyRise : ∃ t, step { running with pending := [.resetN] } = .next t := ⟨_, rfl⟩

theorem met_PowerUpStepsFollowTheSequencer :
    State.reset.power.st = .off ∧ ({ State.reset with power := { Power.reset with st := .lost } } : State).power.st = .lost ∧
    ({ State.reset with power := { Power.reset with st := .standby } } : State).power.st = .standby ∧
    ({ State.reset with power := { Power.reset with st := .ready } } : State).power.st = .ready ∧ 3 ≤ (6 : Nat) := by decide

/-- Ready, with the bank charged. -/
def ready : State := { State.reset with power := { Power.reset with st := .ready, step := 1, holdup := true } }

theorem met_ResetReleaseBringsTheDeviceUp : ready.power.st = .ready ∧ ready.power.holdup = true ∧
    (1 : BitVec 64).getLsbD 0 = true := by decide

theorem met_PowerLossAndResetWipeWhatIsVolatile : running.power.st = .running := by decide

theorem met_EveryDeviceResetLatchesItsCauseForTheResetRecord :
    State.reset.power.st = .off ∧ (running.power.st ≠ .off ∧ running.power.st ≠ .lost) ∧ running.power.st = .running ∧
    ({ running with sensors := [(192, ⟨120, 0, false, true⟩)] } : State).power.st = .running ∧
    (({ running with sensors := [(192, ⟨120, 0, false, true⟩)] } : State).sensor 192).trips 192 110 = true ∧
    ready.power.st = .ready ∧ ready.power.holdup = true := by decide

theorem met_VinSamplesAndTicksCount : running.power.st ≠ .off ∧ (7000 : BitVec 16).toNat ≤ 7000 ∧ (8000 : BitVec 16).toNat ≤ 8000 ∧
    6100 < (7000 : BitVec 16).toNat ∧ planned.reamActive = true ∧ planned.plan.lean = false ∧ planned.plan.notices = [] ∧
    planned.power.alert.getLsbD 2 = false := by decide

theorem met_TemperatureReadingsAreTaken : running.power.st ≠ .off ∧ (running.sensor 2).trips 2 150 = false ∧
    (running.sensor 2).trips 2 (-40) = false ∧ (running.sensor 193).trips 193 151 = false ∧ (2 : Nat) = 3 * 0 + 2 := by decide

/-- `planned` in lean, with the return conditions held since furlong 0. -/
def lean : State := { planned with plan := { planned.plan with lean := true, coolFrom := some 0, furlong := 2 ^ 16 } }

theorem met_LeanReturnIsRequestedAndAnnounced : (lean.reamActive = true ∧ lean.plan.lean = true ∧ lean.plan.coolFrom = some 0 ∧
    0 + 2 ^ 16 ≤ lean.abs ∧ lean.plan.leanFrom + 2 ^ 16 ≤ lean.abs ∧ lean.plan.notices = []) ∧
    running.power.st = .running ∧ running.plan.noticeAt ≠ some running.abs := by decide

theorem met_ClockMonitorsFailWhatTheyShould : (running.ioUp = true ∧
    (5 : BitVec 11) &&& (running.clocks.bad ||| running.clocks.lost) &&& ~~~running.clocks.lost = 0) ∧
    (∀ i ∈ [0, 1, 4, 5, 9, 10], let s : State := { running with clocks := ⟨BitVec.ofNat 11 (2 ^ i), 0, false, true⟩ }
      BitVec.ofNat 11 (2 ^ i) &&& (s.clocks.bad ||| s.clocks.lost) &&& ~~~s.clocks.lost = BitVec.ofNat 11 (2 ^ i)) ∧
    (running.region 63).failed = false ∧
    1 ≤ (({ running with regions := [(0, { Region.reset with strikes := 1 })] } : State).region 0).strikes ∧ (2500 : Int) < 2501 := by decide

/-- `running`, with region 0 changed. -/
def withRegion (f : Region → Region) : State := running.upRegion 0 f

theorem met_RegionsEnterFurlongsOnTheirMarks : (running.power.st = .running ∧ running.liveNow 63 = true) ∧
    (let s : State := running.upRegion 1 (fun x => { x with done := true })
     s.power.st = .running ∧ s.liveNow 0 = true ∧ 1 ∈ s.waitsFor 0 ∧ (0 : BitVec 8).toNat = (s.region 0).index.toNat % 256 ∧
      (s.region 1).sentMark (s.region 0).index.toNat = true) ∧
    (let s := withRegion (fun x => { x with done := true, marks := [4, 1] })
     (s.region 0).done = true ∧ s.missing 0 = [] ∧ (s.region 0).index + 1 = BitVec.ofNat 48 (s.furlongNow + 1) ∧
      s.plan.staged = none ∧ ∀ w ∈ s.plan.notices, s.furlongNow + 1 < w.1) ∧
    (let s := withRegion (fun x => { x with done := true, marks := [4, 1], index := 5 })
     s.liveNow 0 = true ∧ s.missing 0 = [] ∧ (s.region 0).index + 1 ≠ BitVec.ofNat 48 (s.furlongNow + 1)) := by decide

theorem met_GatesAndPolicersKeepTime : planned.reamActive = true ∧ (planned.hide 0).lay.isSome = true ∧
    (planned.hide 0).sec = some section0 ∧ (planned.hide 15).lay = none := by decide

/-- A screening package with one idle pattern, of ACTION FAIL. -/
def package : Package := ⟨0, 0, 0, 0, 1, 0, [], [⟨7, 2, 1, 0, 0, 0, 0, 0, 5⟩], 0, true, true⟩

theorem met_ScreeningRotatesCountsAndFails :
    (let s := planned.upRegion 0 (fun x => { x with held := 65536 })
     s.reamActive = true ∧ (s.cluster 0).spares ≠ 0 ∧ (s.cluster 0).heldOut = some 76 ∧ (s.cluster 0).passing = true ∧
      (s.cluster 0).heldSince + 2 ^ bits s.screen.rotExp.toNat 0 5 ≤ (s.region 0).held ∧ (s.cluster 0).nextHealthy 76 = some 77) ∧
    (let s : State := { planned with screen := { Screen.reset with package := some package } }
     s.reamActive = true ∧ s.screen.package = some package ∧ (package.patterns.find? (fun y => y.id == 7)).map (·.level) = some 2 ∧
      (s.cluster 4095).heldOut = some 76) := by decide

/-- `planned` with every region live. -/
def wide : State := { planned with plan := { planned.plan with ream := some { ream with header := { header with liveMask := 2 ^ 64 - 1 } } } }

/-- A replay unit of region 0. -/
def unit : Replay := ⟨3, 0, 0, .whole, [0], 0, 0, 0, 0, 0, 0, false⟩

theorem met_ReplaysRunAndEnd :
    (let s : State := { wide with screen := { Screen.reset with units := [unit] } }
     s.screen.units.filter (fun y => y.region == 0) = [unit] ∧ unit.started = false ∧ s.partner unit = some 1) ∧
    (let u := { unit with started := true, tries := 1, partner := 1 }
     let s : State := { wide with screen := { Screen.reset with units := [u] } }
     s.screen.units.find? (fun y => y.id == 3) = some u ∧ u.started = true ∧ u.region < 64 ∧ s.partner u ≠ none ∧ u.phys < 80 ∧
      u.cluster < 4096) := by decide

theorem met_WritesStoreTheLineAndNothingElse : planned.serves 0 false = .hide 0 ∧ planned.serves 0 true = .hide 0 ∧
    (List.replicate 64 (7 : Byte)).length = 64 ∧ (planned.hide 0).area (2 ^ 20 - 64) = .ring ∧ (planned.hide 0).area (2 ^ 20) = .gap ∧
    (planned.hide 0).area (opndBase + 2 ^ 20 - 64) = .opnd ∧ (planned.hide 0).area (2 ^ 30 - 64) = .gap := by decide

theorem met_ReadsAnswerTheLine : planned.serves 0 false = .hide 0 ∧ planned.serves 0 true = .hide 0 ∧
    (planned.hide 0).area 0 = .ring ∧ (planned.hide 0).area opndBase = .opnd := by decide

theorem met_DecoderCommitsAreChecked : planned.ioUp = true ∧ planned.cxl.width ≠ 0 ∧ (planned.ld 0).ideIo ≠ .insecure ∧
    (∀ h ∈ planned.hideOfLd 0, (planned.hide h).k.tsp.guarded = false) ∧ (planned.ld 0).decLocked = false ∧ (2 ^ 28 : Nat) % 2 ^ 28 = 0 := by
  decide

theorem met_HideResetGoStartsOrJoinsAReset : ∀ p ∈ [ResetPhase.idle, .start, .ending, .held, .keys, .release, .scrub, .reload],
    ((withHide (fun x => { x with k := { x.k with phase := p } })).hide 0).k.phase = p := by decide

theorem met_KeysAreDestroyedWhenHeldEnds : (Instr.hideResetProceed 0 = .hideResetProceed 0) ∧ (planned.hide 0).k.phase ≠ .held ∧
    ((withHide (fun x => { x with k := { x.k with phase := .held } })).hide 0).k.phase = .held := by decide

theorem met_HideResetPhasesFollowEachOther : ∀ p ∈ [ResetPhase.ending, .keys, .release, .scrub],
    let s := withHide (fun x => { x with k := { x.k with phase := p } })
    (s.hide 0).k.phase = p ∧ s.busy 0 = false ∧ s.reamActive = true ∧
      ({ s with plan := Plan.reset } : State).reamActive = false := by decide

theorem met_TspRequestsAndConfigurationWritesFollowTheLock : planned.up = true ∧ planned.cxl.width ≠ 0 ∧ (planned.ld 0).ideIo ≠ .insecure ∧
    planned.hideOfLd 0 = some 0 ∧ (planned.hide 0).k.tsp.guarded = false ∧
    (let s := withHide (fun x => { x with k := { x.k with tsp := .run } })
     s.hideOfLd 0 = some 0 ∧ (s.hide 0).k.tsp.guarded = true ∧ (s.hide 0).k.phase = .idle) := by decide

theorem met_TspLock :
    let s : State := { planned with
      hides := [(0, { HideSt.reset with
        lay := some { entry with confidential := true, compat := false }, sec := some section0
        k := { KPart.reset with tsp := .unlocked } })]
      dex := { Dex.reset with testDone := true }
      cxl := { planned.cxl with
        ideMem := .secure
        lds := [(0, { LdSt.reset with decoder := some (17 * 2 ^ 30, 1, 0), decLocked := true, ideIo := .secure })] } }
    (s.hide 0).k.tsp = .unlocked ∧ (s.ld (s.ldOf 0)).ideIo = .secure ∧ s.cxl.ideMem = .secure ∧ (s.ld (s.ldOf 0)).decoder ≠ none ∧
      (s.ld (s.ldOf 0)).decLocked = true ∧ s.dex.life = .production ∧ s.dex.unlocked = false ∧ s.dex.testDone = true ∧
      s.dex.error = false ∧ (s.hide 0).isPristine = true := by decide

theorem met_PortResetsResetTheBoundHides : planned.cxl.width ≠ 0 ∧ planned.hideOfLd 0 = some 0 ∧ (planned.hide 0).k.phase = .idle ∧
    planned.ioUp = true ∧ planned.hideOfLd 15 = none := by decide

theorem met_TheLinkAndItsStreamsFollowTheirEvents : (running.ioUp = true ∧ running.cxl.width = 0) ∧
    (planned.cxl.width ≠ 0 ∧ planned.cxl.width ≠ 8 ∧ planned.cxl.changes.toNat < 0xFFFF) ∧
    (let s : State := { planned with cxl := { planned.cxl with ideMem := .secure, lds := [(0, { LdSt.reset with ideIo := .secure })] } }
     s.cxl.ideMem = .secure ∧ (s.ld 0).ideIo = .secure ∧ s.hideOfLd 0 = some 0) := by decide

/-- `planned` with an enabled order ring 0 of hide 0 that holds one noticed line of opcode `op` and QTAG `tag`. -/
def ringed (op tag : Nat) : State := withHide (fun x => { x with q := { x.q with orders := [(0, { OrderRing.reset with
  ctl := 1, ready := true, notices := [(0, ⟨leBytes 64 (op + 256 * tag), false, 0⟩)] })] } })

theorem met_PacketsAreTakenWhole : ((ringed 2 3).hide 0).q.noIntake = false ∧ ((ringed 2 3).hide 0).nextPacket = some (0, 1) := by decide

theorem met_PacketsAndEventsThatWaitTimeOut :
    (let r := ((ringed 2 1).hide 0).q.orders.get OrderRing.reset 0
     (((List.range (r.reach false)).filter (fun i => (r.at i).isSome)).getLast? = some 0) ∧ r.ready = true ∧
      ((ringed 2 1).hide 0).lengthWord = false ∧ ((ringed 2 1).hide 0).q.noIntake = false ∧ r.packet false = none) ∧
    (let r := ((ringed 2 3).hide 0).q.orders.get OrderRing.reset 0
     (((List.range (r.reach false)).filter (fun i => (r.at i).isSome)).getLast? = some 0) ∧ r.packet false ≠ none) ∧
    ((withHide (fun x => { x with q := { x.q with held := [[[0]]] } })).hide 0).q.held = [[[0]]] := by decide

theorem met_RingsAndBuffersAreEnabledAndDisabled :
    (ctlEn (ctlMask 1) = true ∧ (planned.hide 0).resetting = false ∧ planned.reamActive = true ∧
      ctlEn ((planned.hide 0).q.orders.get OrderRing.reset 7).ctl = false ∧ (planned.hide 0).ringOk .order 7 0 (ctlMask 1) = true ∧
      (planned.hide 0).ringOk .completion 7 0 (ctlMask 1) = true) ∧
    ((planned.hide 0).ringOk .order 0 32 (ctlMask 1) = false ∧ running.reamActive = false ∧
      ctlEn (((ringed 2 1).hide 0).q.orders.get OrderRing.reset 0).ctl = true) ∧
    ((1 : U32).getLsbD 0 = true ∧ ((planned.hide 0).buf 63).en = false ∧ (0 : U32).getLsbD 0 = false ∧
      ((withHide (fun x => { x with a := { x.a with bufs := [(0, { HostBuf.reset with en := true })] } })).hide 0 |>.buf 0).en = true) := by
  decide

theorem met_JobKeysAreCreatedAndDestroyed : (planned.hide 0).resetting = false ∧ planned.reamActive = true ∧
    (planned.hide 0).lay = some entry ∧ (planned.hide 0).confidential = false ∧
    (∀ i ∈ [0, 1, 2, 3], bits (BitVec.ofNat 32 (i * 65536 + 1)).toNat 16 16 = i ∧ bits (BitVec.ofNat 32 (i * 65536 + 1)).toNat 0 2 = 1 ∧
      bits (BitVec.ofNat 32 (i * 65536 + 2)).toNat 0 2 = 2) ∧ entry.jobKeys = 2 ∧ ((planned.hide 0).k.jobKey 2).held = false ∧
    (let x := (withHide (fun x => { x with k := { x.k with jobKeys := [(2, ⟨true, 1, 0⟩)] } })).hide 0
     (x.k.jobKey 2).held = true ∧ x.jobKeyUsed 2 = false) := by decide

theorem met_TheHideWindowFollowsItsAccessRules : planned.functionUp (planned.ldOf 0) = true ∧ windowOk 2 4 = false ∧ windowOk 0 4 = true ∧
    hideWordReg 0 = some (.id, 0, false) ∧ HReg.wide .id = false ∧ HReg.access .id = .ro ∧ windowOk 0x60000 4 = true ∧
    hideWordReg 0x60000 = some (.ctTaken, 0x60000, false) ∧ HReg.wide .ctTaken = false ∧ HReg.access .ctTaken = .rc ∧
    (planned.hide 0).resetting = false := by decide

/-- The DMA read 5 of hide 0, which waits. -/
def dma : Dma := ⟨0, 0, 4, [], none⟩

theorem met_DmaReadsCollectTheirData :
    (let s := withHide (fun x => { x with
      q := { x.q with flights := [{ planned.newFlight 0 0 (order 4 0) 1 1 with dmas := [5] }] }
      o := { x.o with dmas := [(5, dma)] } })
     (s.hide 0).o.dmas.find 5 = some dma ∧ dma.status = none ∧ (s.hide 0).q.queue = [] ∧ (s.hide 0).q.reads 5 = true ∧
      s.cxl.width ≠ 0 ∧ (s.ld (s.ldOf 0)).ideIo ≠ .insecure) ∧ running.cxl.width = 0 ∧
    (let o := { order 4 0 with tokens := some 5, hashed := false }
     let s := withHide (fun x => { x with q := { x.q with queue := [o] }, o := { x.o with dmas := [(5, dma)] } })
     (s.hide 0).o.dmas.find 5 = some dma ∧ (s.hide 0).q.queue = [o] ∧ o.tokens = some 5) := by decide

/-! Orders. -/

/-- `planned` with orders in the admission queue of hide 0. -/
def queued (l : List Order) : State := withHide (fun x => { x with q := { x.q with queue := l, nextSeq := l.length } })

theorem met_AdmittedOrdersRunTheirWork : ∃ r, orderRow (.retireSeq 0 0 Env.clean) = some r ∧ r.going (queued [order 2 0]) = false ∧
    Admits r (queued [order 2 0]) (order 2 0) ⟨[(0, 1)], 1, 1⟩ :=
  ⟨_, rfl, rfl, by decide, by decide, by decide, by decide, by decide, by decide, by decide, by decide, by rfl⟩

theorem met_OrdersThatMustWaitChangeNothing : (∃ r, orderRow (.retireSeq 0 0 Env.clean) = some r ∧ r.cls = .metaOrder ∧
      r.going (queued [order 2 0]) = false) ∧
    (let s : State := { queued [order 2 0] with plan := { planned.plan with stopped := true } }
     (s.hide 0).q.front .metaOrder = some (order 2 0) ∧ s.admitting 0 = false) ∧
    (let s := queued [order 0x11 0, order 2 1]
     (s.hide 0).q.front .metaOrder = some (order 2 1) ∧ ordered 0 (s.hide 0).q (order 2 1) = false) ∧
    (let o := { order 4 0 with hashed := false }
     ((queued [o]).hide 0).q.front .metaOrder = some o ∧ waitsOver 0 0 ((queued [o]).hide 0) o = false) ∧
    (let s := (queued [order 2 0]).upRegion 0 (fun x => { x with maint := true })
     s.inMaintenance ((s.hide 0).targets 0 (order 2 0)) = true ∧
      (s.hide 0).mismatch .metaOrder ((s.hide 0).targets 0 (order 2 0)) (demandFit (s.hide 0) (order 2 0)) = false) ∧
    (let x := ((queued [order 2 0]).upHide 0 (fun x => { x with q := { x.q with used := [(0, 4)] } })).hide 0
     (x.grant 0 0 .metaOrder (x.targets 0 (order 2 0)) ((demandFit x (order 2 0)).leaving (x.lookupReserve 0 .metaOrder))).isNone = true) := by
  refine ⟨⟨_, rfl, rfl, rfl⟩, ?_⟩; decide

theorem met_OrdersThatNoSlotHoldsEndWithPlanMismatch : ∃ r, orderRow (.evictScore 0 0 Env.clean) = some r ∧
    (r.going (queued [order 0x13 0]) = false ∧ ((queued [order 0x13 0]).hide 0).q.front r.cls = some (order 0x13 0) ∧ r.is (order 0x13 0) = true ∧ (queued [order 0x13 0]).admitting 0 = true ∧ ordered 0 ((queued [order 0x13 0]).hide 0).q (order 0x13 0) = true ∧
      waitsOver 0 ((queued [order 0x13 0]).now 0) ((queued [order 0x13 0]).hide 0) (order 0x13 0) = true ∧ noReentry ((queued [order 0x13 0]).hide 0) (queued [order 0x13 0]).plan.furlong r.cls = true ∧ Placed (queued [order 0x13 0]) 0 (order 0x13 0) ∧
      ((queued [order 0x13 0]).hide 0).mismatch r.cls (((queued [order 0x13 0]).hide 0).targets 0 (order 0x13 0)) (r.fit ((queued [order 0x13 0]).hide 0) (order 0x13 0)) = true) :=
  ⟨_, rfl, by decide, by decide, by decide, by decide, by decide, by decide, by decide, (by intro id h; cases h), by decide⟩

/-! Management. -/

theorem met_RequestsNeedASessionAndItsRole : (requestRow (.telemetry admin)).isSome = true ∧ running.session 9 = none ∧ State.reset.portOpen = false ∧
    managed.portOpen = true ∧ (managed.session 2).map (·.role) = some .observer ∧ roleRank .observer < roleRank .admin := by decide

theorem heard : Heard managed admin .observer ∧ Heard managed admin .operator ∧ Heard managed admin .admin :=
  ⟨⟨by decide, _, rfl, by decide⟩, ⟨by decide, _, rfl, by decide⟩, ⟨by decide, _, rfl, by decide⟩⟩

theorem met_SessionsOpenAndClose : (managed.portOpen = true ∧ managed.mgmt.refusing = false ∧ managed.hasAddress .ip6 = true ∧
      managed.mgmt.sessions.length < 4) ∧
    (let s : State := { managed with
      dex := { Dex.reset with anchors := [⟨0, 2, 5⟩] }
      mgmt := { managed.mgmt with sessions := managed.mgmt.sessions ++ managed.mgmt.sessions } }
     4 ≤ s.mgmt.sessions.length ∧ s.dex.anchors[0]? = some ⟨0, 2, 5⟩) ∧
    (let f := (List.replicate 7 0).filter (fun u => decide (managed.power.ticks < u + 60 * 32768))
     7 ≤ f.length) ∧
    ({ managed.mgmt with refusing := true } : Mgmt).refusing = true ∧ (managed.session 1).isSome = true := by decide

/-- `managed` with load 1 open, from session 1, of kind `kind`, 8 bytes long, all of them received. -/
def loading (kind : Nat) : State :=
  { managed with mgmt := { managed.mgmt with loads := [⟨1, .session 1, kind, 0, 8, 8, 4, 0, 0⟩], nextLoad := 2 } }

theorem met_ReadingRequestsAreAnswered : Heard (loading 0) admin .observer ∧ readWords 0 256 ≠ none ∧ readWords 0 1 = some [0] ∧
    (loading 0).mgmt.loads.find? (fun l => l.number == 1) ≠ none ∧ (36 : Nat) ≤ 1048000 ∧ (65536 : Nat) ≤ 65536 := by
  refine ⟨⟨by decide, _, rfl, by decide⟩, ?_⟩; decide

theorem met_ProbesReportsAndPeriodsAreAnswered : (managed.portOpen = true ∧ (managed.session 1).map (·.period) = some 1) ∧
    (running.power.st ≠ .off ∧ running.power.st ≠ .standby ∧ running.power.st ≠ .lost) ∧
    16 ≤ ((List.replicate 16 0).filter (fun u => decide (running.power.ticks < u + 32768))).length ∧
    planned.spdmUp (some 0) = true ∧ running.spdmUp none = true ∧ running.dex.error = false ∧ running.dex.identityGone = false ∧
    running.dex.life ≠ .blank ∧ running.ioUp = true := by decide

theorem met_EveryReportCarriesTheIdentityRecord : running.spdmUp ((none : Option Ld).map (·.val)) = true ∧ running.dex.error = false ∧
    running.dex.identityGone = false ∧ running.dex.life ≠ .blank := by decide

theorem met_LoadsAreOpenedReceivedAndDiscarded : Heard managed admin .operator ∧ Heard (loading 0) admin .operator ∧
    (managed.loadReady 1 = true ∧ managed.mgmt.openLoad = none ∧ (2 ^ 32 - 2 : Nat) < 2 ^ 32 - 1) ∧
    ((loading 0).mgmt.openLoad ≠ none ∧ ((loading 0).sessionLoad 1).isSome = true ∧ (loading 0).mgmt.openLoad.map (·.received) = some 8) ∧
    (planned.doeUp 0 = true ∧ planned.reamActive = true ∧ planned.hideOfLd 0 = some 0 ∧ (planned.hide 0).confidential = false) ∧
    (let s : State := { planned with mgmt := { Mgmt.reset with loads := [⟨1, .doe 0, 1, 0, 8, 8, 4, 0, 0⟩] } }
     s.mgmt.openLoad = some ⟨1, .doe 0, 1, 0, 8, 8, 4, 0, 0⟩ ∧ (1048000 : Nat) % 4 = 0 ∧ (262120 : Nat) % 4 = 0) := by
  refine ⟨heard.2.1, ⟨by decide, _, rfl, by decide⟩, ?_⟩; decide

theorem met_LoadsEndAsTheyValidate : Heard (loading 0) admin .operator ∧
    (∀ k ∈ [0, 1, 2, 3, 4], (loading k).sessionLoad 1 = some ⟨1, .session 1, k, 0, 8, 8, 4, 0, 0⟩) ∧
    (∃ m : Ream, ∃ k, onlySection m = some k ∧ k.hide = 0) ∧ (0 : Nat) ≤ (managed.dex.dexFw.1) ∧ (managed.planned 0) = true := by
  refine ⟨⟨by decide, _, rfl, by decide⟩, by decide, ⟨{ ream with sections := [section0] }, section0, by decide, rfl⟩, by decide, by decide⟩

theorem met_OperatorsWriteResetAndTest : Heard managed admin .operator ∧ (writeTarget 1 4).2 = none ∧ (writeTarget 0x1000000 4).2 = none ∧
    (∃ r, (writeTarget 0x20 4).2 = some r) ∧ (managed.hide 0).lay ≠ none ∧ managed.reamActive = true ∧ bit managed.liveMask 63 = false := by
  refine ⟨heard.2.1, by decide, by decide, ?_, by decide⟩
  exact ⟨_, by rfl⟩

theorem met_AdministratorsChangeAnchorsFloorLifeAndDebug : Heard managed admin .admin ∧ managed.dex.takes ⟨0, 2, 9⟩ = true ∧
    (let d : Dex := { Dex.reset with anchors := [⟨0, 0, 9⟩] }
     (⟨0, 0, 9⟩ : Anchor) ∈ d.anchors ∧ d.lastAdmin ⟨0, 0, 9⟩ = true ∧ d.lastAdmin ⟨1, 0, 9⟩ = false) ∧
    managed.dex.planFloor < 1 ∧ managed.dex.life = .production ∧ managed.dex.moveLife 1 0 = none ∧
    (let s : State := { managed with mgmt := { managed.mgmt with straps := 62 } }
     s.portOpen = true ∧ s.mgmt.straps.getLsbD 0 = false ∧ s.dex.anchorsOf 0 = 0) ∧ managed.dex.accepts ⟨0, 0, false⟩ = false := by
  refine ⟨heard.2.2, ?_⟩; decide

theorem met_an_accepted_token : ({ Dex.reset with anchors := [⟨3, 0, 1⟩], challenge := some 4 } : Dex).accepts
    ⟨Config.deviceSerial.toNat, 4, true⟩ = true := by simp [Dex.accepts, Dex.anchorsOf, Dex.reset]

/-! Transactions. -/

/-- A taken marker or DROP_REST of opcode `op` in ring 0, at index 0. -/
def marker (op : Nat) : Order := { order op 0 with line := leBytes 64 (op + 0x100) }

/-- Transaction 5 of ring 0, open and empty. -/
def txn : Txn := ⟨5, 0, marker 0x20, 0, [], [], [], [], none, none, false, 0⟩

/-- `planned` with a taken order in front, completion ring 0 enabled, and transaction 5 open in order ring 0 if `l` holds it. -/
def taken (op : Nat) (l : List Txn) : State := withHide (fun x => { x with q := { x.q with
  dispatch := [marker op], txns := l
  orders := [(0, { OrderRing.reset with ctl := 1, ready := true, txn := if l.isEmpty then none else some 5 })]
  comps := [(0, { OutRing.reset with ctl := 1, ready := true })] } })

theorem met_QueueCommandsTakeEffectWhenTaken :
    (∀ op ∈ [0x20, 0x21, 0x22, 0x28], let s := taken op []; let u := s.upQ 0 (fun q => { q with dispatch := [] })
      (s.hide 0).q.dispatch = [marker op] ∧ (marker op).marker = true ∧ (marker op).opcode = op ∧ (s.hide 0).q.openTxn 0 = none ∧
      (u.checks 0 (marker op)).2 = none) ∧
    (marker 0x28).f 16 1 = 0 ∧ (((taken 0x28 []).hide 0).q.comps.get OutRing.reset ((marker 0x28).f 17 1)).ready = true ∧
    ((taken 0x21 [txn]).hide 0).q.openTxn 0 = some txn := by decide

theorem met_TransactionsAreDecidedByTheirMembers :
    (let t := { txn with closer := some (marker 0x21, true, 0, 0) }
     let s := taken 2 [t]
     (s.hide 0).q.txns.find? (fun t => t.id == 5) = some t ∧ t.decision = none ∧ t.closer.isSome = true ∧ t.allEnded = true ∧
      t.lastChain / 10 ≤ s.plan.furlong ∧ t.failure = none ∧ t.timedOut = false) ∧
    (let t := { txn with timedOut := true }
     ((taken 2 [t]).hide 0).q.txns.find? (fun t => t.id == 5) = some t ∧ t.timedOut = true ∧ t.allEnded = true) ∧
    ({ txn with
      members := [9], done := [⟨order 2 9, stBadObject, 0, 0, [], Ct.zero⟩]
      closer := some (marker 0x21, true, 0, 0) } : Txn).failure = some (stBadObject, 0) := by decide

/-! Gates, the test port, entropy, drains. -/

theorem met_TheIdcodeIsReadableInEveryDebugState : running.power.st ≠ .off ∧ State.reset.power.st = .off := by decide

/-- `planned` with a frame of hide 2 at the CXL port. -/
def sending : State := { planned with gates := { Gates.reset with queues := [(egKey 8 2, ⟨[⟨16, .ndr 0 0⟩], []⟩)] } }

/-- The CXL window of hide 2, for chain 1. -/
def window : Window := ⟨8, 2, 2, 0, 250⟩
def windowed : State := { sending with plan := { planned.plan with ream := some { ream with windows := [window] } } }

theorem met_TestPortEntropyDrainAndEgressEvents : running.up = true ∧
    (let s := withHide (fun x => { x with q := { x.q with drainFrom := some 0 } })
     let s : State := { s with plan := { s.plan with furlong := 4096 } }
     (s.hide 0).q.drainFrom = some 0 ∧ 0 + 4096 ≤ s.plan.furlong) ∧
    ((windowed.windows 8).find? (fun w => windowOpen w 1 0) = some window ∧ window.owner < 16 ∧
      (windowed.gates.busy.get (0, 0) 8).1 ≠ windowed.gates.furlong * 10 + 1 ∧
      windowed.headFrame 8 2 = some (true, ⟨16, .ndr 0 0⟩) ∧ windowed.ready 8 ⟨16, .ndr 0 0⟩ = true ∧
      windowed.fits window 2 0 0 ⟨16, .ndr 0 0⟩ = true ∧ windowed.fits window 2 249 (249 * linkUnit 8) ⟨2 ^ 20, .ndr 0 0⟩ = false) := by decide

/-! Leases. -/

/-- `planned` with slot 3 of hide 0 as given, on acre 0. -/
def leased (sl : LeaseSlot) : State :=
  { withHide (fun x => { x with a := { x.a with slots := [(3, sl)] } }) with
    acres := [(0, { Acre.reset with owner := some 0, free := false })] }

/-- An active lease in compatibility mode, granted to hide 1. -/
def lease : LeaseSlot := { LeaseSlot.reset with st := .active, compat := true, term := 10, remain := 5, grants := 2 }

/-- A lease command word: operation, slot, acre, hide, term, mode. -/
def word (op slot acre hide term mode : Nat) : U64 :=
  BitVec.ofNat 64 (op + 2 ^ 4 * slot + 2 ^ 16 * acre + 2 ^ 28 * hide + 2 ^ 32 * term + 2 ^ 48 * mode)

/-- `leased`, with hide 1 on logical device 1. -/
def shared : State := (leased lease).upHide 1 (fun x => { x with lay := some { entry with hide := 1, ld := 1 }, sec := some section0 })

theorem met_LeaseCommandsTakeEffect :
    (∀ op ∈ [1, 2, 3, 4, 5, 6], cmdOp (word op 3 0 0 0 0) = op) ∧
    ((withHide (fun x => { x with a := { x.a with cmd := some ⟨true, 3⟩ } })).hide 0).a.cmd ≠ none ∧ running.reamActive = false ∧
    ((planned.hide 0).a.cmd = none ∧ planned.reamActive = true ∧ (planned.hide 0).lay ≠ none ∧ (planned.hide 0).resetting = false ∧
      planned.clocks.aonLost = false) ∧
    (planned.leaseFails 0 (word 1 63 0 0 60000 1) = 0 ∧ planned.leaseFails 0 (word 1 0 0 0 10 0) = 0 ∧
      planned.leaseFails 0 (word 1 0 0 0 9 0) ≠ 0 ∧ planned.leaseFails 0 (word 1 0 0 0 60001 0) ≠ 0) ∧
    (shared.leaseFails 0 (word 2 3 0 0 0 0) = 0 ∧ (leased { lease with compat := false }).leaseFails 0 (word 3 3 0 0 0 0) = 0 ∧
      shared.leaseFails 0 (word 4 3 0 15 0 0) = 0 ∧ shared.leaseFails 1 (word 5 0 0 0 10 0) = 0 ∧
      shared.leaseFails 0 (word 6 3 0 1 0 0) = 0) := by decide

theorem met_LeasesRunOutDrainAndScrub :
    (let s := (leased lease).upHide 0 (fun x => { x with a := { x.a with cmd := some ⟨true, 3⟩ } })
     (s.hide 0).a.cmd = some ⟨true, 3⟩ ∧ s.recalling ((s.hide 0).lease 3).acre = false) ∧
    ((leased lease).hide 0).resetting = false ∧
    (let sl := ((leased { lease with remain := 0 }).hide 0).lease 3; sl.live = true ∧ sl.remain = 0 ∧ sl.sharer = false) ∧
    (let s := leased { lease with st := .closing }
     let sl := (s.hide 0).lease 3
     sl.st = .closing ∧ sl.sharer = false ∧ s.accepted sl.acre none = false ∧ s.sharers sl.acre = [] ∧ s.recalling sl.acre = false ∧
      ((s.region 0).excluded || s.power.st == .tripped) = false ∧
      (((s.upRegion 0 (fun x => { x with excluded := true })).region 0).excluded || s.power.st == .tripped) = true) ∧
    (let s := leased { lease with st := .closing, sharer := true, peer := 1 }
     ((s.hide 0).lease 3).sharer = true ∧ s.accepted 0 (some 0) = false) ∧
    ((leased { lease with st := .scrubbing }).hide 0 |>.lease 3).st = .scrubbing ∧
    (({ Acre.reset with marks := [4194303] } : Acre).marks.contains 4194303 = true) := by decide

/-- `leased` with one request at the head of the owner's queue. -/
def requested (op : AcreOp) : State :=
  (leased lease).upHide 0 (fun x => { x with a := { x.a with acreQ := [⟨0, 3, 0, 0, op, false⟩] } })

theorem met_AcreRequestsAreServedInTurn :
    ((leased lease).serves 0 false = .hide 0 ∧ ((leased lease).hide 0).area (winBase 3) = .win 3 0 ∧
      (((leased lease).hide 0).lease 3).live = true ∧ ((leased lease).hide 0).a.acreQ.length < 1024) ∧
    (let s := requested (.read .uncached)
     (s.hide 0).a.acreQ = [⟨0, 3, 0, 0, .read .uncached, false⟩] ∧ (s.region 0).maint = false ∧ s.snooping 0 0 = false ∧
      (s.acre 0).poisoned 0 = false ∧ s.holders 0 0 = []) ∧
    (let s := (requested (.read .uncached)).upHide 0 (fun x => { x with a := { x.a with dir := [⟨winBase 3, true⟩] } })
     (s.ownerSlot 0).map (fun p => (p.2.2.compat, s.holders 0 0)) = some (true, [(0, winBase 3, true)]) ∧
      AcreReq.snoops ⟨0, 3, 0, 0, .read .uncached, false⟩ (s.holders 0 0) ≠ []) ∧
    (let s := (requested .inv).upHide 0 (fun x => { x with a := { x.a with snoops := [⟨winBase 3, true, .request⟩] } })
     s.snooping 0 0 = true) ∧
    (let s := (leased { lease with compat := false }).upHide 0 (fun x => { x with a := { x.a with
       acreQ := [⟨0, 3, 0, 0, .write (List.replicate 64 1) false true, false⟩] } })
     ((s.hide 0).lease 3).compat = false ∧ (List.replicate 64 (1 : Byte)).length = 64) := by decide

theorem met_SnoopsAreAnsweredOrEndTheHold : ∀ off ∈ [0, opndBase, winBase 3], ∀ why ∈ [SnoopFor.quota, .ended, .request],
    let s := (leased lease).upHide 0 (fun x => { x with a := { x.a with snoops := [⟨off, true, why⟩] } })
    (s.hide 0).a.snoops.find? (fun p => p.off == off) = some ⟨off, true, why⟩ ∧ s.cxl.width ≠ 0 ∧ s.cxl.ideMem ≠ .insecure ∧
      (s.hide 0).area off = (if off = 0 then .ring else if off = opndBase then .opnd else .win 3 0) ∧ (s.hide 0).resetting = false := by
  decide

/-! League ports. -/

/-- A device with port 7 as given. -/
def ported (q : PortSt) : State := { running with ports := [(7, q)] }

/-- Port 7 in training step `n`, with all four lanes found. -/
def trained (n : Nat) : PortSt := { PortSt.reset with st := .training, step := n, lanes := 15 }

/-- An active port with an outstanding READ command of tag 3. -/
def active : PortSt := { PortSt.reset with
  st := .active, width := 4, lanes := 15, cmds := [⟨3, .read, 0, 0, 1, .job 0 6 0, [], none, false, false⟩]
  unacked := [(0, ⟨64, .train 1⟩)] }

theorem met_LeaguePortsTrainAndAcceptModules :
    (∀ n ∈ [1, 2, 3, 4], ((ported (trained n)).port 7).st = .training ∧ ((ported (trained n)).port 7).waiting = false ∧
      ((ported (trained n)).port 7).step = n) ∧ (1 : BitVec 4) ≠ 0 ∧ laneMask 0 15 ≠ 0 ∧
    (let m : ModuleId := ⟨9, 4096, 64, 16, 256, 64, 0⟩
     let q := { trained 4 with offered := some m, serial := some 8 }
     ((ported q).port 7).offered = some m ∧ (∀ c ∈ q.cmds, c.why ≠ .ident) ∧ (ported q).acceptable 7 m = true ∧
      (ported q).acceptable 7 { m with sectorBytes := 512 } = false ∧ q.serial ≠ none ∧ q.serial ≠ some m.serial) ∧
    (({ trained 1 with attempts := 3 } : PortSt).attempts + 1 < 5 ∧ 5 ≤ ({ trained 1 with attempts := 4 } : PortSt).attempts + 1) ∧
    ((ported { trained 1 with waiting := true }).port 7).waiting = true ∧
    (((ported active).port 7).st = .active ∧ ((ported active).port 7).lanes.getLsbD 3 = true ∧ ((ported active).port 7).linked = true ∧
      2 ^ 20 * 544 < 28522 * 4 * 5000 ∧ 28521 * 4 * 5000 ≤ 2 ^ 20 * 544) := by decide

/-- The job of that command. -/
def job : Job := ⟨false, 0, 7, 0, 1, 0, 0, 0, 0, [], 1, none, 0⟩

theorem met_LeagueFramesAreCheckedAndCounted :
    (((ported active).port 7).linked = true ∧ (0 : Nat) = active.rxSeq ∧ (1 : Nat) ≠ active.rxSeq) ∧
    (active.cmds.find? (fun c => c.tag == 4 && c.rsp.isNone) = none ∧ (active.cmds.find? (fun c => c.tag == 3 && c.rsp.isNone)).isSome = true) ∧
    (let s : State := { ported active with hides := [(0, { HideSt.reset with o := { OPart.reset with jobs := [(6, job)] } })] }
     AMap.find (s.hide 0).o.jobs 6 = some job ∧ (active.cmds.find? (fun c => c.tag == 3)).isSome = true) ∧
    (credit 0 32767 = some 32767 ∧ credit 0 32768 = none) ∧ active.unacked ≠ [] ∧ (trained 4).unacked = [] ∧
    (({ active with replays := 14 } : PortSt).replays + 1 < 16 ∧ 16 ≤ ({ active with replays := 15 } : PortSt).replays + 1) := by decide

/-! Waiting work. -/

/-- A flight of an order. -/
def flight (o : Order) : Flight := planned.newFlight 0 0 o 1 1

theorem met_WaitingWorkGoesOn :
    (let s := withHide (fun x => { x with q := { x.q with queue := [order 4 0] }, o := { x.o with lane := [0] } })
     (s.hide 0).o.lane = [0] ∧ (s.hide 0).q.queue.find? (fun o => o.seq == 0) = some (order 4 0) ∧ (order 4 0).tokens = none) ∧
    (let k : Fetch := ⟨0, 0, 0, 0, none, 0, true, false, false, false⟩
     let s := withHide (fun x => { x with
       q := { x.q with flights := [{ flight (order 8 0) with fetches := [2] }] }, o := { x.o with fetches := [(2, k)] } })
     AMap.find (s.hide 0).o.fetches 2 = some k ∧ k.past = false ∧ k.dropped = false ∧ k.arrived = true ∧
      ((s.hide 0).q.flights.any (fun f => f.order.seq == k.order && f.order.opcode != 0x14 && f.fetches.contains 2)) = true) ∧
    (let k : Fetch := ⟨0, 0, 0, 0, some 6, 0, false, false, false, false⟩
     let s := withHide (fun x => { x with o := { x.o with fetches := [(2, k)], jobs := [(6, { job with status := some stOk })] } })
     k.job.bind (AMap.find (s.hide 0).o.jobs) = some { job with status := some stOk } ∧ k.missed = false) ∧
    (let s := withHide (fun x => { x with o := { x.o with recodes := [⟨0, 0, 0, 0⟩] } })
     ((s.stored 0 Env.clean).hide 0).o.recodes = [⟨0, 0, 0, 0⟩] ∧
      (((s.stored 0 Env.clean).hide 0).toRecode ⟨0, 0, 0, 0⟩).isNone = true) := by decide

theorem met_WaitingLookupsAndDeliveries :
    (let w : LookupWork := ⟨0, [], 0, none, true, 0, 5⟩
     let s := withHide (fun x => { x with q := { x.q with flights := [flight (order 4 0)] }, o := { x.o with lookups := [w] } })
     (s.hide 0).o.lookups.find? (fun w => w.last != s.now 0) = some w ∧
      ((s.hide 0).q.flights.find? (fun f => f.order.seq == w.seq && !f.ended)).isSome = true ∧ s.reamActive = true ∧
      ((s.hide 0).grant s.plan.furlong 0 .metaOrder (flight (order 4 0)).regions (plainFit 1)).isSome = true ∧ Env.clean.suspects = []) ∧
    (let f := { flight (order 0x14 0) with delivery := some ⟨0, [], 0, false⟩ }
     let s := withHide (fun x => { x with q := { x.q with flights := [f] } })
     ((s.hide 0).q.flights.find? (fun f => !f.ended && (match f.delivery with | some dl => decide (dl.last ≤ s.plan.furlong) | none => false))).isSome
       = true) ∧
    (∃ b : BookRec, AMap.find ((withHide (fun x => { x with o := { x.o with tab := { x.o.tab with books := [(1, b)] } } })).hide 0).o.tab.books 1 = some b) ∧
    Placed planned 0 (order 4 0) := by
  refine ⟨by decide, by decide, ⟨⟨.ready, ⟨0, 0, 0, 0, 0, [], 0, 0⟩, 0, 0, 0, 0, none, []⟩, by decide⟩, by intro id h; cases h⟩

theorem met_OnlySteeringCommandsChangeAHidesCore : steers (.packetTake 0) = false ∧ steers .screenSummary = false := by decide


/-! A step with a deferred entry, waiting to re-enter. -/

/-- A descriptor of one layer. -/
def desc : Desc := ⟨0, 1, 1, 1, 32, 0, 1, 0, 0, 4096, 0, 0⟩

/-- A sequence with one filling page. -/
def seq1 : Seq := ⟨0, .active, 0, 0, 0, false, false, 0, 0, 0, ⟨false, 0, 0, 0, 0⟩, 0, 0, 0, 0,
  [(0, ⟨[⟨0, 0, false, false, false, 1⟩], 0, [], []⟩)], [], []⟩

/-- A decode step of that sequence. -/
def step1 : Order :=
  { order 8 0 with
    line := leBytes 20 8 ++ leBytes 2 1 ++ leBytes 1 1 ++ leBytes 1 2 ++ List.replicate 24 0 ++ leBytes 8 4096 ++ List.replicate 8 0
    segs := [⟨0, leBytes 4 1 ++ List.replicate 28 0⟩] }

/-- Its entry is deferred and waits. -/
def deferring : State :=
  let x := withHide (fun x => { x with
    sec := some { section0 with descs := [desc] }
    slots := [⟨.decode, 0, 1, 1, 4, [(256, 4)], 0, 0⟩]
    o := { x.o with tab := { x.o.tab with seqs := [(1, seq1)] } }
    q := { x.q with
      flights := [{ planned.newFlight 0 0 step1 1 1 with
        phase := 1
        deferred := [⟨0, 1, 0, true⟩]
        view := { Tab.empty with seqs := [(1, seq1)] } }] } })
  { x with plan := { x.plan with furlong := 1 } }

theorem met_DeferredEntriesReenter :
    (match (deferring.hide 0).toReenter 1 with
    | none => false
    | some f => match (deferring.hide 0).stepChecks 0 f.view f.order with
      | .inl _ => false
      | .inr (j, es) =>
        let back := es.filter (fun n => f.deferred.any (fun d => d.entry == n.idx && d.waiting))
        f.order.opcode == 0x08 && ((deferring.hide 0).grant 1 0 .decode f.regions
          ((deferring.hide 0).stepFit j (back.map (fun n => (n, (deferring.hide 0).needs j n))))).isSome) = true ∧
    deferring.reamActive = true ∧ deferring.plan.stopped = false := by decide

theorem met_FetchesMissTheirDeadline :
    let k : Fetch := ⟨0, 0, 0, 0, none, 0, false, false, false, false⟩
    let s := withHide (fun x => { x with
      q := { x.q with flights := [{ flight (order 8 0) with fetches := [2] }] }, o := { x.o with fetches := [(2, k)] } })
    AMap.find (s.hide 0).o.fetches 2 = some k ∧ k.job.bind (AMap.find (s.hide 0).o.jobs) = none ∧ k.arrived = false ∧
      (s.hide 0).deferPolicy = false := by decide

/-- A full rod of that sequence waits to be recoded. -/
def recoding : State :=
  withHide (fun x => { x with
    sec := some { section0 with descs := [desc] }
    slots := [⟨.move, 0, 1, 1, 4, [(256, 64)], 0, 0⟩]
    o := { x.o with
      recodes := [⟨1, 0, 0, 0⟩]
      tab := { x.o.tab with
        seqs := [(1, { seq1 with layers := [(0, ⟨[⟨0, 0, false, false, false, 256⟩], 0, [], []⟩)] })] } } })

theorem met_RodsAreRecoded :
    let x := (recoding.stored 0 Env.clean).hide 0
    let p : Page := ⟨0, 0, false, false, false, 256⟩
    x.o.recodes = [⟨1, 0, 0, 0⟩] ∧ ((x.toRecode ⟨1, 0, 0, 0⟩).map (fun y => (y.1.modelId, y.2))) = some (0, p) ∧ x.desc 0 = some desc ∧
      (recoding.stored 0 Env.clean).admitting 0 = true ∧
      (x.grant (recoding.stored 0 Env.clean).plan.furlong 0 .move (x.frameRegions p.loc) (plainFit (units4k desc.rodBytes))).isSome = true := by decide
end Sys2Proof.Tests
end

section
/-!
PROOFS. The furlong's marks: how a region's furlong ends, and what the first region's entry does to the plan (R30, R31, R43).
-/

namespace Sys2Proof.Machine
open Sys2Proof

theorem State.runs_of_running {s : State} (h : s.power.st = .running) : s.runs = true := by
  simp [State.runs, h]

theorem counterComplete_of_live {s : State} {r : Nat} (hr : s.runs = true) (hl : s.liveNow r = true) :
    counterComplete r s = s.upRegion r (fun x => { x with done := true }) := by
  simp [counterComplete, hr, hl]

/-- The mark of the furlong that the region is in, from a live neighbour that has sent it. -/
theorem boundaryMark_of_sent {s : State} {r src : Nat} {low : BitVec 8} (hr : s.runs = true) (hl : s.liveNow r = true)
    (hw : src ∈ s.waitsFor r) (hlow : low.toNat = (s.region r).index.toNat % 256)
    (hs : (s.region src).sentMark (s.region r).index.toNat = true) :
    boundaryMark r src low s =
      if (s.region r).marks.contains src then s
      else s.upRegion r (fun x => { x with marks := x.marks ++ [src] }) := by
  unfold boundaryMark
  dsimp only
  rw [if_neg (by simp [hr, hl, hw]), if_pos ⟨hlow, hs⟩]

theorem furlongStart_of_marks {s : State} {r : Nat} (hr : s.runs = true) (hl : s.liveNow r = true)
    (hd : (s.region r).done = true) (hm : s.missing r = []) : furlongStart r s = s.startFurlong r := by
  simp [furlongStart, hr, hl, hd, hm]

theorem boundaryLimit_of_done {s : State} {r : Nat} (hr : s.runs = true) (hl : s.liveNow r = true)
    (hd : (s.region r).done = true) :
    boundaryLimit r s = ((s.missing r).foldl State.lateMark
      (s.upRegion r (fun x => { x with late := satAdd x.late (s.missing r).length }))).startFurlong r := by
  unfold boundaryLimit
  rw [if_neg (by simp [hr, hl, hd])]

theorem not_mem_missing (s : State) (r : Rgn) : r.val ∉ s.missing r := fun h =>
  not_neighbour r (List.mem_of_mem_filter (List.mem_of_mem_filter h))

/-- The first region to enter the next furlong brings the device's boundary: with nothing staged and no notice due, the plan changes
in its furlong index alone. -/
theorem startFurlong_plan {s : State} {r : Nat} (hi : (s.region r).index + 1 = BitVec.ofNat 48 (s.furlongNow + 1))
    (hs : s.plan.staged = none) (hn : ∀ w ∈ s.plan.notices, s.furlongNow + 1 < w.1) :
    (s.startFurlong r).plan = { s.plan with
      furlong := if s.plan.ream.isSome then s.plan.furlong + 1 else s.plan.furlong
      base := if s.plan.ream.isSome then s.plan.base else s.plan.base + 1 } := by
  unfold State.startFurlong
  dsimp only
  rw [if_pos (by simpa using hi)]
  exact boundary_plan _ hs hn

/-- A region that is not the first enters with the marks already counted for the furlong that it enters. -/
theorem startFurlong_enters {s : State} {r : Nat} {x : Region} (hx : s.region r = x)
    (later : x.index + 1 ≠ BitVec.ofNat 48 (s.furlongNow + 1)) :
    (s.startFurlong r).region r = { x with index := x.index + 1, done := false, marks := x.early, early := [] } := by
  subst hx
  rw [startFurlong_region s r later, State.region_upRegion]

/-- Recording which neighbours are late leaves the region itself and the device's furlong as they were, so at the limit the region
enters as it would with every mark in, its own count of late marks raised. -/
theorem boundaryLimit_enters {s : State} {r : Rgn} (hr : s.runs = true) (hl : s.liveNow r = true)
    (hd : (s.region r).done = true) (later : (s.region r).index + 1 ≠ BitVec.ofNat 48 (s.furlongNow + 1)) :
    (boundaryLimit r s).region r = { s.region r with
      late := satAdd (s.region r).late (s.missing r).length
      index := (s.region r).index + 1, done := false, marks := (s.region r).early, early := [] } := by
  obtain ⟨sameRegion, sameFurlong⟩ := late_fold (s.missing r)
    (s.upRegion r (fun x => { x with late := satAdd x.late (s.missing r).length })) r (not_mem_missing s r)
  rw [boundaryLimit_of_done hr hl hd, startFurlong_enters (sameRegion.trans (State.region_upRegion _ _ _))]
  rw [sameFurlong]
  exact later

/-- Settles O15: each of the four events, by what it does to a running device's live region. -/
theorem regionsEnterFurlongsOnTheirMarks : Obligations.RegionsEnterFurlongsOnTheirMarks := by
  refine ⟨?counter, ?mark, ?start, ?limit⟩
  case counter =>
    intro s r running live
    refine ⟨_, congrArg Host.Outcome.next (counterComplete_of_live (State.runs_of_running running) live), ?_, ?_⟩
    · exact State.region_upRegion _ _ _
    · exact fun j other => State.region_upRegion_other _ _ other
  case mark =>
    intro s r src low running live neighbour names sent
    refine ⟨_, congrArg Host.Outcome.next (boundaryMark_of_sent (State.runs_of_running running) live neighbour names sent), ?_⟩
    split
    case isTrue counted => exact ⟨by simpa using counted, fun q hq => .inr hq, rfl, fun _ _ => rfl⟩
    case isFalse =>
      rw [State.region_upRegion]
      refine ⟨by simp, fun q hq => ?_, rfl, fun j other => State.region_upRegion_other _ _ other⟩
      simpa [or_comm] using hq
  case start =>
    intro s r running live done complete
    have starts := furlongStart_of_marks (State.runs_of_running running) live done complete
    refine ⟨_, congrArg Host.Outcome.next starts, fun later => ⟨startFurlong_enters rfl later, ?_⟩, startFurlong_plan⟩
    rw [startFurlong_region s r later]
    exact ⟨fun j other => State.region_upRegion_other _ _ other, rfl⟩
  case limit =>
    intro s r running live done later
    exact ⟨_, rfl, boundaryLimit_enters (State.runs_of_running running) live done later⟩

end Sys2Proof.Machine
end

section
/-!
PROOFS. Orders that must wait (R31, R59, R62, R65, R71, R261, R369).
-/

namespace Sys2Proof.Machine
open Sys2Proof

/-- A row that has no order of its own in flight is an admission, with some work for the order that it admits. -/
theorem exec_eq_admitFirst {i : Instr} {r : OrderRow} {s : State} (e : orderRow i = some r) (hg : r.going s = false) :
    ∃ eff, exec i s = .next (s.admitFirst r.h r.c r.cls r.is r.fit eff) := by
  rcases row_admit e hg with h | ⟨h, c, e', rfl, rfl⟩
  · exact ⟨_, h⟩
  · exact ⟨lookupWork h (s.now c) e', rfl⟩

/-- Settles O37: the row is an admission, and an admission leaves the state as it is while the first order of its class waits. -/
theorem ordersThatMustWaitChangeNothing : Obligations.OrdersThatMustWaitChangeNothing := by
  intro i r s o row idle first x target waits
  obtain ⟨eff, run⟩ := exec_eq_admitFirst row idle
  rw [run, admit_stays first waits]

end Sys2Proof.Machine
end

section
/-!
PROOFS. What becomes of an order at its row's chain: it is admitted with its work, or no slot can hold it (R65, R68, R259, R261).
-/

namespace Sys2Proof.Machine
open Sys2Proof

/-- Exactly the admitted order leaves the queue. -/
theorem mem_taken_queue (s : State) (h : Nat) (o : Order) (g : Grant) (p : Order) :
    p ∈ ((s.taken h o g).hide h).q.queue ↔ p ∈ (s.hide h).q.queue ∧ p.seq ≠ o.seq := by
  simp [taken_hide, QPart.use]

@[simp] theorem taken_flights (s : State) (h : Nat) (o : Order) (g : Grant) :
    ((s.taken h o g).hide h).q.flights = (s.hide h).q.flights := by
  rw [taken_hide]; rfl

@[simp] theorem taken_telAdmitted (s : State) (h : Nat) (o : Order) (g : Grant) :
    ((s.taken h o g).hide h).c.telAdmitted = satInc (s.hide h).c.telAdmitted := by
  rw [taken_hide]

/-- Settles O36: the row runs the order's work on the state from which the order was taken, and taking it changes the queue, the
capacity in use and the count of its own hide alone. -/
theorem admittedOrdersRunTheirWork : Obligations.AdmittedOrdersRunTheirWork := by
  intro i r s o g row idle admitted
  exact ⟨exec_admits row idle admitted, taken_apart s r.h o g, mem_taken_queue s r.h o g, taken_flights s r.h o g,
    taken_telAdmitted s r.h o g⟩

/-- Settles O38: the row is an admission, and step 7 of R259 ends the order before it takes any capacity. -/
theorem ordersThatNoSlotHoldsEndWithPlanMismatch : Obligations.OrdersThatNoSlotHoldsEndWithPlanMismatch := by
  intro i r s o row idle front stands admitting inOrder waits noneBack placed mismatch
  obtain ⟨eff, run⟩ := exec_eq_admitFirst row idle
  exact ⟨_, run, admit_mism front stands admitting inOrder waits noneBack mismatch placed⟩

end Sys2Proof.Machine
end

section
/-!
PROOFS. What only rises: the plan floor, the lifecycle, the sealing fuse and the draws of the DRBG (R58, R383, R384).
-/

namespace Sys2Proof.Machine
open Sys2Proof

/-- Settles O7: an idle step changes nothing, and every command keeps what only grows (`Kept`). -/
theorem floorsAndFusesOnlyRise : Obligations.FloorsAndFusesOnlyRise := by
  intro s t run
  rcases stepKept s t run with ⟨-, rfl⟩ | ⟨c, rest, -, kept⟩
  · exact ⟨le_rfl, le_rfl, id, le_rfl⟩
  · exact ⟨kept.floor, kept.life, kept.sealed, kept.draws⟩

end Sys2Proof.Machine
end

section
/-!
PROOFS. The return to full rate and the notice slot (R69, R405).
-/

namespace Sys2Proof.Machine
open Sys2Proof

/-- A trigger that reaches the plan controller changes its list of triggers alone, and takes none from it. -/
theorem trigger_plan (s : State) (w : Switch) :
    ∃ l, (s.trigger w).plan = { s.plan with triggers := l } ∧ w ∈ l ∧ ∀ v ∈ s.plan.triggers, v ∈ l := by
  unfold State.trigger
  split
  case isTrue waits => exact ⟨s.plan.triggers, rfl, by simpa using waits, fun _ => id⟩
  case isFalse => exact ⟨s.plan.triggers ++ [w], rfl, by simp, fun _ => List.mem_append_left _⟩

theorem leanReturnCount_of_due {s : State} {c : Nat} (active : s.reamActive = true) (lean : s.plan.lean = true)
    (cool : s.plan.coolFrom = some c) (cooled : c + 2 ^ 16 ≤ s.abs) (leaned : s.plan.leanFrom + 2 ^ 16 ≤ s.abs)
    (quiet : s.plan.notices = []) : leanReturnCount s = s.trigger (.lean false) := by
  unfold leanReturnCount
  dsimp only
  rw [cool, if_pos]
  simp only [active, lean, decide_eq_true cooled, decide_eq_true leaned, quiet, List.any_nil, Bool.not_false, Bool.and_true]

/-- The notice slot names the next furlong for every trigger that waits, and for the maintenance `m` that the ream has due. -/
theorem switchNotice_of_running {s : State} (running : s.power.st = .running) (unsent : s.plan.noticeAt ≠ some s.abs) :
    ∃ m, switchNotice s = { s with plan := { s.plan with
      notices := s.plan.notices ++ (s.plan.triggers ++ m).map (fun w => (s.furlongNow + 1, w))
      triggers := []
      noticeAt := some s.abs } } := by
  unfold switchNotice
  rw [if_neg (by simp [State.runs_of_running running, unsent])]
  exact ⟨_, rfl⟩

/-- Settles O13: the count's trigger is added to those that wait, and the notice slot sends them all. -/
theorem leanReturnIsRequestedAndAnnounced : Obligations.LeanReturnIsRequestedAndAnnounced := by
  refine ⟨?count, ?notice⟩
  case count =>
    intro s c active lean cool cooled leaned quiet
    refine ⟨_, congrArg Host.Outcome.next (leanReturnCount_of_due active lean cool cooled leaned quiet), ?_⟩
    obtain ⟨l, plan, requested, kept⟩ := trigger_plan s (.lean false)
    rw [plan]
    exact ⟨requested, kept, rfl, rfl⟩
  case notice =>
    intro s running unsent
    obtain ⟨m, sends⟩ := switchNotice_of_running running unsent
    refine ⟨_, congrArg Host.Outcome.next sends, rfl, rfl, fun w waits => ?_, fun w sent => List.mem_append_left _ sent, rfl, rfl⟩
    exact List.mem_append_right _ (List.mem_map_of_mem (List.mem_append_left m waits))

end Sys2Proof.Machine
end

section
/-!
PROOFS. The end of a load: what each kind of image is answered, and what it stages (R58, R61, R359, R417).
-/

namespace Sys2Proof.Machine
open Sys2Proof

/-! ### What a load that ends is answered -/

/-- A load that ends with a code that leaves its session open changes what its end changes, and is answered with the code. -/
theorem exec_loadEnd {s : State} {q : Req} {l : Load} {image : LoadImage} {r : State × Nat} {c : Nat} (heard : Heard s q .operator)
    (opened : s.sessionLoad l.number = some l) (ends : s.finishLoad l image = r) (code : r.2 = c) (known : c ≠ mgMalformed) :
    exec (.loadEnd q l.number image) s = .next (r.1.message ⟨q.session, msgLoadEnd, q.tag, c, leBytes 4 c⟩) := by
  refine congrArg Host.Outcome.next ?_
  rw [loadEnd_eq heard opened, ends, code, reply_ok _ _ _ _ _ known]

/-- The load of a mailbox's own hide that ends is answered with the code. -/
theorem exec_doeEnd {s : State} {ld : Ld} {h : Nat} {l : Load} {m : Ream} {r : State × Nat} {c : Nat} (up : s.doeUp ld = true)
    (active : s.reamActive = true) (mine : s.hideOfLd ld = some h) (opened : s.mgmt.openLoad = some l) (byHide : l.by_ = .doe h)
    (ends : s.finishLoad l (.ream m) = r) (code : r.2 = c) :
    exec (.doeEnd ld l.number m) s = .next (r.1.raw (doeHeader 3 l.number c 0)) := by
  refine congrArg Host.Outcome.next ?_
  unfold doeEnd
  rw [doe_run up active mine, own_open opened byHide]
  dsimp only
  rw [ends, code]

/-- A message sent adds to the management part alone. -/
theorem only_message {T : List Part} {s u : State} (changed : Only T s u) (may : Part.mgmt ∈ T) (r : Reply) :
    Only T s (u.message r) :=
  only_trans changed (only_more (message_only u r) (by simpa using may))

/-! ### How a load ends, by its kind -/

theorem finishLoad_incomplete {s : State} {l : Load} (image : LoadImage) (short : l.received ≠ l.size) :
    ∃ kind, s.finishLoad l image = (s.endLoad l kind 3 ldFormat 0 0xFF, ldFormat) := by
  unfold State.finishLoad
  dsimp only
  rw [if_pos short]
  exact ⟨_, rfl⟩

section
variable {s : State} {l : Load} (whole : l.received = l.size)
include whole

theorem finishLoad_ream (m : Ream) (kind : l.kind = 0) : s.finishLoad l (.ream m) = s.stageReam l m := by
  simp [State.finishLoad, whole, kind]

theorem finishLoad_section (m : Ream) (kind : l.kind = 1) : s.finishLoad l (.ream m) = s.stageSection l m := by
  simp [State.finishLoad, whole, kind]

theorem finishLoad_package (p : Package) (kind : l.kind = 2) : s.finishLoad l (.package p) = s.stagePackage l p := by
  simp [State.finishLoad, whole, kind]

theorem finishLoad_firmware (f : Firmware) (kind : l.kind = 3 ∨ l.kind = 4) : s.finishLoad l (.firmware f) = s.stageFirmware l f := by
  rcases kind with kind | kind <;> simp [State.finishLoad, whole, kind]

end

/-- An ended load has the state that its end gives it. -/
theorem endLoad_st (s : State) (l : Load) (kind st code digest hide : Nat) :
    ∀ k ∈ (s.endLoad l kind st code digest hide).mgmt.loads, k.number = l.number → k.st = st := by
  unfold State.endLoad
  rw [config_mgmt]
  exact upLoad_num s l.number (fun l => { l with st := st, result := code }) (fun _ => rfl) (fun k => k.st = st) (fun _ => rfl)

/-! ### A ream -/

/-- What a ream that validates has passed of the checks of R58. -/
theorem validateReam_ok {s : State} {m : Ream} {n : Nat} (ok : s.validateReam m n = ldOk) :
    m.sigOk = true ∧ m.digestOk = true ∧ s.dex.planFloor.toNat ≤ m.header.planVersion ∧ s.plan.staged = none := by
  have passed := firstCode_ok _ rfl ok
  simp only [State.earlyChecks, State.hasStaged, List.cons_append, List.nil_append, List.forall_mem_cons] at passed
  obtain ⟨-, signed, digest, -, floor, -, -, -, -, -, idle, -⟩ := passed
  simp only [Bool.and_eq_true] at signed
  simp only [Bool.not_eq_true', Bool.or_eq_false_iff, Option.isSome_eq_false_iff, Option.isNone_iff_eq_none] at idle
  obtain ⟨⟨signature, -⟩, -⟩ := signed
  obtain ⟨⟨noReam, -⟩, -⟩ := idle
  exact ⟨signature, digest, of_decide_eq_true floor, noReam⟩

theorem stageReam_code (s : State) (l : Load) (m : Ream) : (s.stageReam l m).2 = s.validateReam m l.received := by
  unfold State.stageReam
  dsimp only
  split <;> rfl

theorem stageReam_logged (s : State) (l : Load) (m : Ream) : Logged s (s.stageReam l m).1 recConfig (l.origin s) 0xFF
    ([cfgReam, s.validateReam m l.received] ++ digestWords m.header.bodyDigest ++ [0xFF]) := by
  have logged := endLoad_logged s l cfgReam (loadSt (s.validateReam m l.received)) (s.validateReam m l.received) m.header.bodyDigest 0xFF
  unfold State.stageReam
  dsimp only
  split
  · exact logged_of logged (State.trigger_box _ _)
  · exact logged

theorem stageReam_stages {s : State} {l : Load} {m : Ream} (ok : s.validateReam m l.received = ldOk) :
    (s.stageReam l m).1.plan.staged = some ⟨m, l.number, 0⟩ ∧ Switch.ream ∈ (s.stageReam l m).1.plan.triggers := by
  unfold State.stageReam
  dsimp only
  rw [if_pos ok]
  exact ⟨(trigger_in _ _).2.1, State.mem_trigger _ _⟩

theorem stageReam_refuses {s : State} {l : Load} {m : Ream} (bad : s.validateReam m l.received ≠ ldOk) :
    (s.stageReam l m).1.plan = s.plan := by
  unfold State.stageReam
  dsimp only
  rw [if_neg bad]
  rfl

/-! ### A package -/

theorem stagePackage_code (s : State) (l : Load) (p : Package) : (s.stagePackage l p).2 = s.validatePackage p l.received := rfl

theorem stagePackage_screen (s : State) (l : Load) (p : Package) : (s.stagePackage l p).1.screen =
    if s.validatePackage p l.received = ldOk then { s.screen with nextPackage := some p } else s.screen := by
  unfold State.stagePackage
  dsimp only
  split <;> rfl

/-! ### Firmware -/

/-- The code that firmware ends with: R417 asks for a signature, and for a security version not below the one in force. -/
def firmwareCode (now : Nat) (f : Firmware) : Nat :=
  if f.sigOk then (if now ≤ f.svn then ldOk else ldRollback) else ldSignature

/-- The security version in force in the bank that a load is for. -/
def Dex.svnInForce (d : Dex) (kind : Nat) : Nat := if kind = 3 then d.dexFw.1 else d.mgmtFw.1

/-- Dexfoti with an image in the inactive bank that a load is for. -/
def Dex.withFirmware (d : Dex) (kind : Nat) (f : Firmware) : Dex :=
  if kind = 3 then { d with dexNext := some (f.svn, f.digest) } else { d with mgmtNext := some (f.svn, f.digest) }

theorem firmwareCode_current {now : Nat} {f : Firmware} (signed : f.sigOk = true) (current : now ≤ f.svn) :
    firmwareCode now f = ldOk := by
  rw [firmwareCode, if_pos signed, if_pos current]

theorem firmwareCode_old {now : Nat} {f : Firmware} (signed : f.sigOk = true) (old : f.svn < now) :
    firmwareCode now f = ldRollback := by
  rw [firmwareCode, if_pos signed, if_neg (Nat.not_le.mpr old)]

theorem firmwareCode_unsigned {now : Nat} {f : Firmware} (unsigned : f.sigOk = false) : firmwareCode now f = ldSignature := by
  simp [firmwareCode, unsigned]

theorem firmwareCode_ne (now : Nat) (f : Firmware) : firmwareCode now f ≠ mgMalformed := by
  unfold firmwareCode
  split
  · split <;> decide
  · decide

/-- The two checks of a firmware image, in their order. -/
theorem firstCode_firmware (now : Nat) (f : Firmware) :
    firstCode [(f.sigOk, ldSignature), (decide (now ≤ f.svn), ldRollback)] = firmwareCode now f := by
  simp [firstCode, firmwareCode]

/-- Firmware ends with its code, and goes into the inactive bank when the code is OK. -/
theorem stageFirmware_spec (s : State) (l : Load) (f : Firmware) :
    (s.stageFirmware l f).2 = firmwareCode (s.dex.svnInForce l.kind) f ∧ (s.stageFirmware l f).1.dex =
      if firmwareCode (s.dex.svnInForce l.kind) f = ldOk then s.dex.withFirmware l.kind f else s.dex := by
  unfold State.stageFirmware Dex.svnInForce
  dsimp only
  rw [firstCode_firmware]
  generalize firmwareCode _ f = c
  by_cases ok : c = ldOk
  · rw [if_neg (not_not.mpr ok), if_pos ok]; exact ⟨rfl, rfl⟩
  · rw [if_pos ok, if_neg ok]; exact ⟨rfl, rfl⟩

theorem stageFirmware_stages {s : State} {l : Load} {f : Firmware} (ok : firmwareCode (s.dex.svnInForce l.kind) f = ldOk) :
    (s.stageFirmware l f).1.dex = s.dex.withFirmware l.kind f := by
  rw [(stageFirmware_spec s l f).2, if_pos ok]

theorem stageFirmware_refuses {s : State} {l : Load} {f : Firmware} {c : Nat} (code : firmwareCode (s.dex.svnInForce l.kind) f = c)
    (bad : c ≠ ldOk) : (s.stageFirmware l f).1.dex = s.dex := by
  rw [(stageFirmware_spec s l f).2, code, if_neg bad]

/-! ### Every load -/

/-- Settles O44: each image ends as its staging does, and the answer carries the staging's code. -/
theorem loadsEndAsTheyValidate : Obligations.LoadsEndAsTheyValidate := by
  refine ⟨fun s q l heard opened => ⟨?incomplete, ?ream, ?sect, ?package, ?firmware⟩, ?mailbox⟩
  case incomplete =>
    intro image short
    obtain ⟨kind, ends⟩ := finishLoad_incomplete (s := s) image short
    exact ⟨_, exec_loadEnd (c := ldFormat) heard opened ends rfl (by decide),
      only_message (endLoad_only s l kind 3 ldFormat 0 0xFF) (by decide) _, replied_message _ _ _ _ _, endLoad_st s l kind 3 ldFormat 0 0xFF⟩
  case ream =>
    intro m whole kind c
    refine ⟨_, exec_loadEnd heard opened (finishLoad_ream whole m kind) (stageReam_code s l m) (ream_ne s m _),
      only_message (State.stageReam_kept s l m).same (by decide) _, replied_message _ _ _ _ _,
      stageReam_logged s l m, fun ok => ?_, stageReam_refuses⟩
    obtain ⟨staged, triggered⟩ := stageReam_stages ok
    exact ⟨staged, triggered, validateReam_ok ok⟩
  case sect =>
    intro m k whole kind only c
    obtain ⟨-, -, n, bySession⟩ := session_load opened
    obtain ⟨code, changed, apart, staged⟩ := section_spec s l m k _ _ (stage_session s l m k only n bySession)
    exact ⟨_, exec_loadEnd heard opened (finishLoad_section whole m kind) code (section_ne s m _),
      only_message changed (by decide) _, apart, replied_message _ _ _ _ _, staged⟩
  case package =>
    intro p whole kind c
    have changed : Only [.mgmt, .box, .screen] s (s.stagePackage l p).1 := (State.stagePackage_kept s l p).same
    exact ⟨_, exec_loadEnd heard opened (finishLoad_package whole p kind) (stagePackage_code s l p) (package_ne s p _),
      only_message (only_more changed (by decide)) (by decide) _, replied_message _ _ _ _ _, stagePackage_screen s l p⟩
  case firmware =>
    intro f whole kind now
    refine ⟨_, firmwareCode now f,
      exec_loadEnd heard opened (finishLoad_firmware whole f kind) (stageFirmware_spec s l f).1 (firmwareCode_ne now f),
      only_message (State.stageFirmware_kept s l f).same (by decide) _, replied_message _ _ _ _ _,
      fun signed current => ?_, fun signed old => ?_, fun unsigned => ?_⟩
    · have ok := firmwareCode_current signed current
      exact ⟨ok, stageFirmware_stages ok⟩
    · have bad := firmwareCode_old signed old
      exact ⟨bad, stageFirmware_refuses bad (by decide)⟩
    · have bad := firmwareCode_unsigned (now := now) unsigned
      exact ⟨bad, stageFirmware_refuses bad (by decide)⟩
  case mailbox =>
    intro s ld h l m k up active mine opened byHide whole kind only c
    obtain ⟨code, changed, apart, staged⟩ := section_spec s l m k _ _ (stage_doe s l m k only h byHide)
    exact ⟨_, exec_doeEnd up active mine opened byHide (finishLoad_section whole m kind) code,
      only_trans changed (only_more (raw_only _ _) (by decide)), apart, List.getLast?_concat .., staged⟩

end Sys2Proof.Machine
end

section
/-!
PROOFS. Work of orders that goes on at a later event: the hash lane, slot reloads, fetches, recoding, lookups, re-entry and deliveries
(R107, R112, R125, R133, R161, R163, R238, R247).
-/

namespace Sys2Proof.Machine
open Sys2Proof

/-- What a command of one hide answers agrees with the state before it on every other hide. -/
theorem apart_of_exec {i : Instr} {h : Nat} {s t : State} (own : ownHide i = some h) (run : exec i s = .next t) : Apart h s t := by
  obtain ⟨u, answers, apart⟩ := exec_apart i h own s
  cases run.symm.trans answers
  exact apart

/-! ### The hash lane -/

theorem hashLaneDone_of_tokensIn {s : State} {h n : Nat} {rest : List Nat} (lane : (s.hide h).o.lane = n :: rest)
    (tokensIn : ∀ o, (s.hide h).q.queue.find? (fun o => o.seq == n) = some o → ∀ i, o.tokens = some i →
      ∀ d, AMap.find (s.hide h).o.dmas i = some d → d.status = some stOk) :
    hashLaneDone h s = s.setHide h { s.hide h with
      o := { (s.hide h).o with lane := rest }
      q := { (s.hide h).q with queue := (s.hide h).q.queue.map (fun o => if o.seq == n then { o with hashed := true } else o) } } := by
  unfold hashLaneDone
  dsimp only
  rw [lane]
  dsimp only
  rw [if_neg]
  rcases first : (s.hide h).q.queue.find? (fun o => o.seq == n) with - | o
  · simp [first]
  rcases read : o.tokens with - | i
  · simp [first, read]
  rcases record : AMap.find (s.hide h).o.dmas i with - | d
  · simp [first, read, record]
  · simp [first, read, record, tokensIn o first i read d record]

/-! ### Slot reloads -/

/-- The clusters whose slot of a generation has failed, after a reload of cluster `c`'s. -/
def BookRec.reloaded (b : BookRec) (c : Nat) (good : Bool) : List Nat :=
  if good then b.badClusters.filter (· != c) else if b.badClusters.contains c then b.badClusters else b.badClusters ++ [c]

theorem codebookSlotReload_of_find {s : State} {h k c : Nat} {ok : Bool} {b : BookRec}
    (found : AMap.find (s.hide h).o.tab.books k = some b) :
    codebookSlotReload h k c ok s = s.upO h (fun o => { o with tab := { o.tab with
      books := o.tab.books.set k { b with badClusters := b.reloaded c (ok && s.homeReadable h k b) } } }) := by
  unfold codebookSlotReload
  rw [found]
  rfl

theorem BookRec.mem_reloaded_other (b : BookRec) {c d : Nat} (good : Bool) (other : d ≠ c) :
    d ∈ b.reloaded c good ↔ d ∈ b.badClusters := by
  unfold BookRec.reloaded
  split
  · simp [other]
  · split <;> simp [other]

theorem BookRec.mem_reloaded_self (b : BookRec) (c : Nat) (good : Bool) : c ∈ b.reloaded c good ↔ good = false := by
  unfold BookRec.reloaded
  split
  case isTrue passed => simp [passed]
  case isFalse failed =>
    split
    case isTrue listed => simpa [failed] using listed
    case isFalse => simp [failed]

/-! ### Fetches -/

/-- Is the data of a fetch in: arrived, or at the end of its transfer without a timeout. -/
def HideSt.fetchIn (x : HideSt) (k : Fetch) : Bool :=
  k.arrived || (match k.job.bind (AMap.find x.o.jobs) with
    | some j => j.status.isSome && j.status != some stTimeout
    | none => false)

/-- Without the DEFER policy a missed fetch is only marked: no entry is withdrawn. -/
theorem missFetch_of_noDefer {s : State} {h : Nat} (id : Nat) (k : Fetch) (substitutes : (s.hide h).deferPolicy = false) :
    s.missFetch h id k = s.markFetch h id { k with past := true, missed := true } := by
  have still : ((s.markFetch h id { k with past := true, missed := true }).hide h).deferPolicy = false := by
    rw [State.markFetch, State.hide_upO]
    exact substitutes
  unfold State.missFetch
  dsimp only
  split
  · rfl
  · rw [if_neg (by simp [still])]

theorem fetchDeadline_of_awaited {s : State} {h id : Nat} {k : Fetch} (found : AMap.find (s.hide h).o.fetches id = some k)
    (due : k.past = false) (kept : k.dropped = false)
    (awaited : (s.hide h).q.flights.any (fun f => f.order.seq == k.order && f.order.opcode != 0x14 && f.fetches.contains id) = true)
    (decided : (s.hide h).fetchIn k = true ∨ (s.hide h).deferPolicy = false) :
    fetchDeadline h id s = s.markFetch h id
      (if (s.hide h).fetchIn k then { k with arrived := true, past := true } else { k with past := true, missed := true }) := by
  unfold fetchDeadline
  dsimp only
  rw [found]
  dsimp only
  rw [if_neg (by simp only [due, kept, awaited]; decide)]
  change (if (s.hide h).fetchIn k then _ else _) = _
  split
  case isTrue => rfl
  case isFalse missed => exact missFetch_of_noDefer id k (decided.resolve_left missed)

theorem fetchArrival_of_ok {s : State} {h id : Nat} {k : Fetch} {j : Job} (found : AMap.find (s.hide h).o.fetches id = some k)
    (job : k.job.bind (AMap.find (s.hide h).o.jobs) = some j) (ok : j.status = some stOk) (out : k.arrived = false)
    (kept : k.dropped = false) (wanted : k.missed = false ∨ (s.hide h).stillAwaited id = true) :
    fetchArrival h id s = s.markFetch h id { k with arrived := true, missed := false } := by
  have inTime : (k.missed && !((s.hide h).stillAwaited id && stOk != stTimeout)) = false := by
    rcases wanted with e | e <;> rw [e]
    · rfl
    · rw [show (stOk != stTimeout) = true from by decide]; simp
  unfold fetchArrival
  dsimp only
  rw [found]
  dsimp only
  rw [job]
  dsimp only
  rw [ok]
  dsimp only
  rw [if_neg (by simp [out]), if_neg (by rw [kept, inTime]; decide), if_neg (by simp), if_neg (by decide)]

/-- Marking a fetch changes that fetch of its hide. -/
theorem markFetch_effect (s : State) (h id : Nat) (k : Fetch) : Only [.hides] s (s.markFetch h id k) ∧
    Apart h s (s.markFetch h id k) ∧ ((s.markFetch h id k).hide h).o.fetches = (s.hide h).o.fetches.set id k := by
  refine ⟨(State.markFetch_kept s h id k).same, State.markFetch_apart s h id k, ?_⟩
  rw [State.markFetch, State.hide_upO]

/-! ### Recoding -/

section
variable {s : State} {h c : Nat} {e : Env} {x : HideSt} {w : RecodeWork} {rest : List RecodeWork}
  (after : (s.stored h e).hide h = x) (oldest : x.o.recodes = w :: rest)
include after oldest

theorem recodeNow_of_none (gone : x.toRecode w = none) :
    recodeNow h c e s = (s.stored h e).upO h (fun o => { o with recodes := rest }) := by
  subst after
  unfold recodeNow
  dsimp only
  rw [oldest]
  dsimp only
  rw [gone]

/-- A granted recoding leaves the list; a rod that can be read and coded moves to its coded frame at the publication. -/
theorem recodeNow_of_grant {q : Seq} {p : Page} {d : Desc} {g : Grant} (page : x.toRecode w = some (q, p))
    (desc : x.desc q.modelId = some d) (admits : (s.stored h e).admitting h = true)
    (granted : x.grant (s.stored h e).plan.furlong c .move (x.frameRegions p.loc) (plainFit (units4k d.rodBytes)) = some g) :
    ((recodeNow h c e s).hide h).o.recodes = rest ∧
      ∀ k o, (x.o.tab.viewRod d (x.o.rod p.loc)).status (pairsOf d 256) = 0 → x.recoded d w p = some (k, o) →
        ((recodeNow h c e s).hide h).o.pending = o.pending ++ [.rehome w.handle w.layer w.rod p ⟨k, 0, false, true, false, 256⟩] := by
  subst after
  unfold recodeNow
  dsimp only
  rw [oldest]
  dsimp only
  rw [page]
  dsimp only
  rw [desc]
  dsimp only
  rw [if_neg (by simp [admits]), granted]
  dsimp only
  split
  case isTrue unreadable => exact ⟨by rw [countCt_o, State.hide_upO], fun k o readable => absurd readable unreadable⟩
  case isFalse =>
    split
    case h_1 skipped =>
      exact ⟨by rw [countCt_o, countCt_o, State.hide_upO], fun k o _ coded => by cases skipped.symm.trans coded⟩
    case h_2 k o coded =>
      refine ⟨by rw [State.hide_upO], fun k' o' _ coded' => ?_⟩
      cases coded.symm.trans coded'
      rw [State.hide_upO]

end

/-! ### Lookups -/

/-- A granted admission of a lookup is one step of it, on the state `u` in which its capacity is taken. -/
theorem lookupContinue_of_grant {s u : State} {h c : Nat} {e : Env} {w : LookupWork} {f : Flight} {g : Grant} {r : LookupWork × Bool}
    (next : (s.hide h).o.lookups.find? (fun w => w.last != s.now c) = some w)
    (flight : (s.hide h).q.flights.find? (fun f => f.order.seq == w.seq && !f.ended) = some f) (active : s.reamActive = true)
    (granted : (s.hide h).grant s.plan.furlong c .metaOrder f.regions (plainFit 1) = some g)
    (after : (s.upQ h (fun q => q.use s.plan.furlong g.uses)).stored h e = u)
    (steps : lookupStep (u.hide h) f.view (f.order.f 16 1) ((u.hide h).tokens f.order (f.order.f 28 4)) { w with last := s.now c } = r) :
    lookupContinue h c e s = if r.2 then
        lookupEnd h (u.upO h (fun y => { y with lookups := (u.hide h).o.lookups.filter (fun y => y.seq != w.seq) })) (u.at c f) r.1 e
      else u.upO h (fun y => { y with lookups := y.lookups.map (fun y => if y.seq == w.seq then r.1 else y) }) := by
  subst after steps
  unfold lookupContinue
  dsimp only
  rw [next]
  dsimp only
  rw [flight]
  dsimp only
  rw [if_neg (by simp [active]), granted]

theorem lookupEnd_of_noMatch {w : LookupWork} {e : Env} (h : Nat) (s : State) (f : Flight) (unmatched : w.found = none)
    (clean : e.suspects = []) :
    lookupEnd h s f w e = s.settle h (f.finish (leBytes 6 0 ++ leBytes 4 w.matched ++ leBytes 1 0) []) := by
  unfold lookupEnd
  dsimp only
  rw [unmatched]
  exact close_clean _ _ _ _ clean

/-! ### Re-entry -/

/-- A step whose `n` waiting entries enter it again, with each one's re-entry counted. -/
def Flight.reentering (f : Flight) (endChain n : Nat) : Flight :=
  { f with
    phase := 2
    endChain := endChain
    deferred := f.deferred.map (fun d => if d.waiting then { d with waiting := false, count := d.count + 1 } else d)
    ct := { f.ct with defers := satAdd f.ct.defers n } }

/-- The waiting entries of a step that passes its checks again. -/
def Flight.returning (f : Flight) (es : List Entry) : List Entry :=
  es.filter (fun n => f.deferred.any (fun d => d.entry == n.idx && d.waiting))

theorem deferReentry_of_grant {s : State} {h c : Nat} {e : Env} {f : Flight} {j : StepJob} {es : List Entry} {g : Grant}
    {r : State × Flight} (next : (s.hide h).toReenter s.plan.furlong = some f) (active : s.reamActive = true)
    (runs : s.plan.stopped = false) (checks : (s.hide h).stepChecks h f.view f.order = .inr (j, es))
    (granted : (s.hide h).grant s.plan.furlong c (if f.order.opcode = 0x08 then .decode else .prefill) f.regions
      (if f.order.opcode = 0x08 then (s.hide h).stepFit j ((f.returning es).map (fun n => (n, (s.hide h).needs j n)))
        else plainFit ((s.hide h).demand f.order)) = some g)
    (renewed : (s.upQ h (fun q => q.use s.plan.furlong g.uses)).renewFetches h
      (f.reentering (s.now c + g.len - 1) (f.returning es).length) = r) :
    deferReentry h c e s = if ((r.1.putFlight h r.2).hide h).o.fetchesDecided r.2 then stepRun h c e (r.1.putFlight h r.2) r.2
      else r.1.putFlight h r.2 := by
  subst renewed
  unfold deferReentry
  dsimp only
  rw [next]
  dsimp only
  rw [if_neg (by simp [active, runs]), checks]
  dsimp only
  rw [Flight.returning] at granted
  rw [granted]
  rfl

/-- A record in flight that has not ended is replaced where it stands. -/
theorem putFlight_mem {s : State} {h : Nat} {f g : Flight} (listed : g ∈ (s.hide h).q.flights) (same : g.order = f.order)
    (goesOn : f.ended = false) : f ∈ ((s.putFlight h f).hide h).q.flights := by
  unfold State.putFlight
  rw [if_neg (by simp [Flight.settled, goesOn]), State.hide_upQ]
  exact List.mem_map.2 ⟨g, listed, by simp [same]⟩

theorem toReenter_mem {x : HideSt} {n : Nat} {f : Flight} (next : x.toReenter n = some f) : f ∈ x.q.flights ∧ f.ended = false := by
  refine ⟨List.mem_of_find?_eq_some next, ?_⟩
  have passes := List.find?_some next
  simp only [Bool.and_eq_true, Bool.not_eq_true'] at passes
  exact passes.1.1

/-- A step whose fetches are renewed is in flight with the re-entry it began. -/
theorem renewed_mem {s : State} {h : Nat} {f g : Flight} (listed : g ∈ (s.hide h).q.flights) (same : g.order = f.order)
    (goesOn : f.ended = false) : let r := s.renewFetches h f
    ∃ y ∈ ((r.1.putFlight h r.2).hide h).q.flights, y.order = f.order ∧ y.phase = f.phase ∧ y.endChain = f.endChain ∧
      y.deferred = f.deferred := by
  intro r
  obtain ⟨queue, l, record⟩ := renew_spec s h f
  have there : g ∈ (r.1.hide h).q.flights := by rw [show (r.1.hide h).q = (s.hide h).q from queue]; exact listed
  exact ⟨r.2, putFlight_mem there (by rw [record]; exact same) (by rw [record]; exact goesOn),
    by rw [record], by rw [record], by rw [record], by rw [record]⟩

/-! ### Deliveries -/

/-- Has the last furlong of a delivery's deadline come. -/
def Flight.overdue (furlong : Nat) (f : Flight) : Bool :=
  !f.ended && (match f.delivery with | some dl => decide (dl.last ≤ furlong) | none => false)

/-- Delivering rods leaves the hide's queue part and the order's identity as they were. -/
theorem deliverOne_fold (h : Nat) (j : DeliverJob) (l : List (Nat × Nat × Nat)) : ∀ (s : State) (f : Flight),
    let a := l.foldl (fun (a : State × Flight) r => a.1.deliverOne h j a.2 r) (s, f)
    QSame h s a.1 ∧ a.2.order = f.order := by
  induction l with
  | nil => exact fun s f => ⟨QSame.refl _ _, rfl⟩
  | cons r l ih =>
    intro s f
    obtain ⟨queue, order⟩ := deliverOne_spec s h j f r
    obtain ⟨queue', order'⟩ := ih (s.deliverOne h j f r).1 (s.deliverOne h j f r).2
    exact ⟨queue.trans queue', order'.trans order⟩

theorem deliverEnd_ended {s : State} {h : Nat} {f : Flight} {e : Env} (placed : Placed s h f.order) (clean : e.suspects = []) :
    ∃ status result, Ended (s.deliverEnd h f e) h f.order status result [] := by
  unfold State.deliverEnd
  dsimp only
  rw [close_clean _ _ _ _ clean]
  exact ⟨_, _, settle_ended _ _ _ (placed_q (dropFetches_sameQ _ _ _) placed) rfl⟩

/-- A delivery ends once the rods of `l` are delivered and the headers of `m` are written. -/
theorem deliverEnd_of_written {s : State} {h : Nat} {f : Flight} (placed : Placed s h f.order) (j : DeliverJob)
    (l m : List (Nat × Nat × Nat)) (addr : Nat × Nat × Nat → Nat) (header : Nat × Nat × Nat → List Byte) (phase : Nat) :
    let a := l.foldl (fun (a : State × Flight) r => a.1.deliverOne h j a.2 r) (s, f)
    ∃ status result, Ended ((m.foldl (fun s r => s.dmaWrite h (addr r) (header r) false) a.1).deliverEnd h
      { a.2 with phase := phase } Env.clean) h f.order status result [] := by
  intro a
  obtain ⟨queue, order⟩ := deliverOne_fold h j l s f
  rw [← order]
  refine deliverEnd_ended (placed_q (queue.trans (QSame.foldl _ (fun s r => dmaWrite_q _ _ _ _ _) m _)) ?_) rfl
  exact order ▸ placed

section
variable {s : State} {h : Nat} {f : Flight} (overdue : (s.hide h).q.flights.find? (Flight.overdue s.plan.furlong) = some f)
  (placed : Placed s h f.order)
include overdue placed

theorem deliverDeadline_of_gone {st : Nat} (gone : (s.hide h).deliverJob f.view h (f.order.f 16 6) = .inl st) :
    Ended (deliverDeadline h s) h f.order st f.result f.fx := by
  unfold deliverDeadline
  dsimp only
  split
  case h_1 noneDue => cases overdue.symm.trans noneDue
  case h_2 f' due =>
    cases overdue.symm.trans due
    rw [gone]
    exact settle_ended _ _ _ (placed_q (dropFetches_sameQ _ _ _) placed) rfl

theorem deliverDeadline_of_job {j : DeliverJob} (job : (s.hide h).deliverJob f.view h (f.order.f 16 6) = .inr j) :
    ∃ status result, Ended (deliverDeadline h s) h f.order status result [] := by
  unfold deliverDeadline
  dsimp only
  split
  case h_1 noneDue => cases overdue.symm.trans noneDue
  case h_2 f' due =>
    cases overdue.symm.trans due
    rw [job]
    dsimp only
    exact deliverEnd_of_written (f := s.at 9 f) placed j _ _ _ _ _

end

/-- Settles O57: each event of waiting work, by what it makes of the state in which the work waits. -/
theorem waitingWorkGoesOn : Obligations.WaitingWorkGoesOn := by
  refine ⟨?lane, ?reload, ?deadline, ?arrival, ?recode, ?lookup, ?reentry, ?delivery⟩
  case lane =>
    intro s h n rest lane tokensIn
    refine ⟨_, rfl, (hashLaneDone_kept h s).same, hashLaneDone_apart h s, ?_⟩
    rw [hashLaneDone_of_tokensIn lane tokensIn, State.hide_setHide]
    exact ⟨rfl, rfl⟩
  case reload =>
    intro s h key c ok b found
    refine ⟨_, rfl, (codebookSlotReload_kept h key c ok s).same, codebookSlotReload_apart h key c ok s, ?_⟩
    refine ⟨b.reloaded c (ok && s.homeReadable h key b), ?_, fun d other => b.mem_reloaded_other _ other, ?_⟩
    · rw [codebookSlotReload_of_find found, State.hide_upO]
    · rw [b.mem_reloaded_self]
      simp
  case deadline =>
    intro s h id k found due kept awaited inNow decided
    exact ⟨_, congrArg Host.Outcome.next (fetchDeadline_of_awaited found due kept awaited decided), markFetch_effect s h id _⟩
  case arrival =>
    intro s h id k j found job ok out kept wanted
    exact ⟨_, congrArg Host.Outcome.next (fetchArrival_of_ok found job ok out kept wanted), markFetch_effect s h id _⟩
  case recode =>
    intro s h c e w rest x oldest
    refine ⟨fun gone => ?_, fun q p d g page desc admits granted => ?_⟩
    · refine ⟨_, rfl, apart_of_exec (i := .recode h c e) rfl rfl, ?_⟩
      rw [recodeNow_of_none rfl oldest gone, State.hide_upO]
      exact ⟨rfl, rfl⟩
    · exact ⟨_, rfl, apart_of_exec (i := .recode h c e) rfl rfl, recodeNow_of_grant rfl oldest page desc admits granted⟩
  case lookup =>
    intro s h c e w f g next flight active granted placed clean u r
    have run : exec (.lookupPrefixContinue h c e) s = .next _ :=
      congrArg Host.Outcome.next (lookupContinue_of_grant next flight active granted rfl rfl)
    refine ⟨_, run, apart_of_exec rfl run, fun goesOn => ?_, fun ends noMatch => ?_⟩
    · rw [if_neg (by rw [goesOn]; decide), State.hide_upO]
      exact ⟨rfl, rfl⟩
    · rw [if_pos ends, lookupEnd_of_noMatch h _ _ noMatch clean]
      refine settle_ended _ _ _ (placed_q ((stored_q _ _ _).trans (upO_q _ _ _)) ?_) rfl
      unfold Placed
      rw [State.hide_upQ]
      exact placed
  case reentry =>
    intro s h c e f next active runs j es g checks back granted f' r
    have eq : deferReentry h c e s = _ := deferReentry_of_grant (r := r) next active runs checks granted rfl
    refine ⟨fun decided => ?_, fun waits => ?_⟩
    · exact congrArg Host.Outcome.next (eq.trans (if_pos decided))
    · have run : exec (.deferReentry h c e) s = .next _ :=
        congrArg Host.Outcome.next (eq.trans (if_neg (by rw [waits]; decide)))
      obtain ⟨listed, goesOn⟩ := toReenter_mem next
      refine ⟨_, run, apart_of_exec rfl run, renewed_mem (f := f') (g := f) ?_ rfl goesOn⟩
      rw [State.hide_upQ]
      exact listed
  case delivery =>
    intro s h f overdue placed
    exact ⟨_, rfl, deliverDeadline_apart h s, fun st gone => deliverDeadline_of_gone overdue placed gone,
      fun j job => deliverDeadline_of_job overdue placed job⟩

end Sys2Proof.Machine
end

section
/-!
PROOFS. DMA reads: data in pieces, poison, timeout, and the orders that wait for them (R112, R291).
-/

namespace Sys2Proof.Machine
open Sys2Proof

/-! ### The outcome of a read -/

/-- A DMA read after a completion: poisoned, or with one more piece of its data (R291). -/
def Dma.collect (d : Dma) : DmaResult → Dma
  | .poisoned => { d with status := some stPoison }
  | .good bs => { d with
      data := (d.data ++ bs).take d.len, status := if d.len ≤ d.data.length + bs.length then some stOk else none }

/-- The state in which a DMA read of a hide has come to `d`. -/
def State.markDma (s : State) (h tag : Nat) (d : Dma) : State := s.upO h (fun o => { o with dmas := o.dmas.set tag d })

theorem State.hide_markDma (s : State) (h tag : Nat) (d : Dma) :
    (s.markDma h tag d).hide h = { s.hide h with o := { (s.hide h).o with dmas := (s.hide h).o.dmas.set tag d } } :=
  State.hide_upO s h _

theorem State.find_markDma (s : State) (h tag : Nat) (d : Dma) : ((s.markDma h tag d).hide h).o.dmas.find tag = some d := by
  rw [State.hide_markDma, AMap.find_set, if_pos rfl]

/-- Marking a read changes that read of its hide, and not the queue in which the orders that wait for it stand. -/
theorem markDma_effect (s : State) (h tag : Nat) (d : Dma) : Only [.hides] s (s.markDma h tag d) ∧
    Apart h s (s.markDma h tag d) ∧ ((s.markDma h tag d).hide h).q = (s.hide h).q ∧
    ((s.markDma h tag d).hide h).o.dmas.find tag = some d :=
  ⟨(State.upO_kept s h _).same, State.upO_apart s h _, upO_q s h _, State.find_markDma s h tag d⟩

/-! ### The events -/

theorem dmaCompletion_of_portDown {s : State} (h tag : Nat) (r : DmaResult) (down : s.cxl.width = 0) :
    dmaCompletion h tag r s = s := by
  unfold dmaCompletion
  split
  case h_1 => rfl
  case h_2 => rw [if_pos (by simp [down])]

section
variable {s : State} {h tag : Nat} {d : Dma} (found : (s.hide h).o.dmas.find tag = some d) (waits : d.status = none)
include found waits

theorem dmaCompletion_of_waiting (r : DmaResult) (up : s.cxl.width ≠ 0) (taken : (s.ld (s.ldOf h)).ideIo ≠ .insecure) :
    dmaCompletion h tag r s = s.dmaEnds h tag (d.collect r) := by
  unfold dmaCompletion
  rw [found]
  dsimp only
  rw [if_neg (by simp [waits, up, taken])]
  cases r with
  | poisoned => rfl
  | good bs => simp [Dma.collect]

theorem dmaTimeout_of_waiting : dmaTimeout h tag s = s.dmaEnds h tag { d with status := some stTimeout } := by
  unfold dmaTimeout
  rw [found]
  dsimp only
  rw [if_neg (by simp [waits])]

end

/-! ### Orders that wait for a read before their admission -/

/-- The state in which an order has left the admission queue and the hash lane of its hide (R112). -/
def State.dequeue (s : State) (h : Nat) (o : Order) : State :=
  s.upHide h (fun x => { x with
    q := { x.q with queue := x.q.queue.filter (fun y => y.seq != o.seq) }
    o := { x.o with lane := x.o.lane.filter (fun y => y != o.seq) } })

theorem State.dequeue_k (s : State) (h : Nat) (o : Order) : ((s.dequeue h o).hide h).k = (s.hide h).k := by
  rw [State.dequeue, State.hide_upHide]

theorem State.dequeue_q {s : State} {h : Nat} {o : Order} (alone : (s.hide h).q.queue = [o]) :
    ((s.dequeue h o).hide h).q = { (s.hide h).q with queue := [] } := by
  rw [State.dequeue, State.hide_upHide, alone]
  simp

section
variable {s : State} {h tag : Nat} {d : Dma} {o : Order} (alone : (s.hide h).q.queue = [o]) (names : o.tokens = some tag)
include alone names

theorem reads_of_queued : (s.hide h).q.reads tag = true := by
  simp [QPart.reads, alone, names]

/-- The only order queued ends as soon as the read of its tokens has failed. -/
theorem failTokens_of_failed {st : Nat} (found : (s.hide h).o.dmas.find tag = some d) (ended : d.status = some st)
    (failed : st ≠ stOk) : s.failTokens h = (s.dequeue h o).endTaken h o st 0 [] := by
  simp only [State.failTokens, alone, names, Option.bind_some, found, ended, if_neg failed, List.filterMap_cons,
    List.filterMap_nil, List.foldl_cons, List.foldl_nil]
  rfl

theorem dmaEnds_of_failed {st : Nat} (ended : d.status = some st) (failed : st ≠ stOk) :
    s.dmaEnds h tag d = ((s.markDma h tag d).dequeue h o).endTaken h o st 0 [] := by
  have queued : ((s.markDma h tag d).hide h).q.queue = [o] := by rw [State.hide_markDma]; exact alone
  rw [← failTokens_of_failed queued names (State.find_markDma s h tag d) ended failed]
  simp only [State.dmaEnds, reads_of_queued alone names, ended, Option.isSome_some, if_true]
  rfl

end

/-- Settles O35: an order in flight finds the read as it was marked, and one that waits for admission leaves the queue and ends. -/
theorem dmaReadsCollectTheirData : Obligations.DmaReadsCollectTheirData := by
  refine ⟨?inFlight, ?portDown, ?queued⟩
  case inFlight =>
    intro s h tag d found waits empty awaited
    refine ⟨fun up taken => ?completion, ?timeout⟩
    case completion =>
      have run (r : DmaResult) : exec (.dmaReadCompletion h tag r) s = .next (s.markDma h tag (d.collect r)) :=
        congrArg Host.Outcome.next ((dmaCompletion_of_waiting found waits r up taken).trans (dmaEnds_wait s h tag _ empty awaited))
      exact ⟨fun bs => ⟨_, run (.good bs), markDma_effect s h tag _⟩, _, run .poisoned, markDma_effect s h tag _⟩
    case timeout =>
      exact ⟨_, congrArg Host.Outcome.next ((dmaTimeout_of_waiting found waits).trans (dmaEnds_wait s h tag _ empty awaited)),
        markDma_effect s h tag _⟩
  case portDown => exact fun s h tag r down => congrArg Host.Outcome.next (dmaCompletion_of_portDown h tag r down)
  case queued =>
    intro s h tag d o found waits alone names
    obtain ⟨only, apart, queue, -⟩ := markDma_effect s h tag { d with status := some stTimeout }
    refine ⟨(s.markDma h tag { d with status := some stTimeout }).dequeue h o, congrArg Host.Outcome.next
      ((dmaTimeout_of_waiting found waits).trans (dmaEnds_of_failed alone names rfl (by decide))), ?_, ?_, ?_, ?_⟩
    · exact only_trans only (State.upHide_kept _ h _).same
    · exact apart.trans (State.upHide_apart _ h _)
    · rw [State.dequeue_q (by rw [queue]; exact alone), queue]
    · rw [State.dequeue_k, State.hide_markDma]

end Sys2Proof.Machine
end

section
/-!
PROOFS. The queue of commands: which effect a step has (section 9, log entry 6).
-/

namespace Sys2Proof.Machine
open Sys2Proof

theorem step_of_front {s : State} {c : Instr} {rest : List Instr} (front : s.pending = c :: rest) :
    step s = exec c { s with pending := rest } := by
  rw [step, front]

theorem step_of_empty {s : State} (empty : s.pending = []) : step s = .next s := by
  rw [step, empty]

/-- Settles O1: the two cases of the queue. -/
theorem stepRunsTheFrontCommand : Obligations.StepRunsTheFrontCommand :=
  ⟨fun _ _ _ => step_of_front, fun _ => step_of_empty⟩

end Sys2Proof.Machine
end

section
/-!
PROOFS. A pointer mismatch: the reset of the one ring, its FAULT record and its event (R271).
-/

namespace Sys2Proof.Machine
open Sys2Proof

/-- An order ring after a pointer reset: disabled, with what it had noticed dropped. -/
def OrderRing.faulted (r : OrderRing) : OrderRing :=
  { r with ctl := r.ctl &&& 0x1E, ready := false, notices := [], err := r.err ||| 2 }

theorem upRing_other (q : QPart) {n m : Nat} (f : OrderRing → OrderRing) (other : m ≠ n) :
    (q.upRing n f).orders.get OrderRing.reset m = q.orders.get OrderRing.reset m :=
  AMap.get_set_other _ _ _ other

/-- A fault that is recorded and posted from `u` is in the black box, and the order and completion rings and the tables stay as `u` has
them. -/
theorem faultPosted {s u : State} (sameBox : u.box = s.box) (h : Nat) (body : List Nat) (es : List (List Byte)) :
    let t := (u.record recFault (agent 5) 0xFF body).postEvent h es
    Logged s t recFault (agent 5) 0xFF body ∧ (t.hide h).q.orders = (u.hide h).q.orders ∧
      (t.hide h).q.comps = (u.hide h).q.comps ∧ (t.hide h).o = (u.hide h).o := by
  intro t
  obtain ⟨⟨r, listed, seq, told⟩, tables, orders, comps⟩ := recPost u h recFault (agent 5) 0xFF body es
  exact ⟨⟨r, listed, by rw [seq, sameBox], told⟩, orders, comps, tables⟩

@[simp] theorem hide_clearTags (s : State) (h j : Nat) (r : OutRing) : (s.clearTags h r).hide j = s.hide j := by
  simp [State.hide, clearTags_hide]

theorem queuePointerMismatch_order (h n : Nat) (s : State) : ∃ es, queuePointerMismatch h .order n s =
    ((s.upQ h (fun q => q.upRing n OrderRing.faulted)).record recFault (agent 5) 0xFF
      [9, h, 0, n, ((s.hide h).q.orders.get OrderRing.reset n).taken.toNat]).postEvent h es :=
  ⟨_, rfl⟩

theorem queuePointerMismatch_completion {h n : Nat} {s : State} {r : OutRing} (ring : (s.hide h).q.comps.get OutRing.reset n = r) :
    ∃ es, queuePointerMismatch h .completion n s =
      (((s.upQ h (fun q => { q with comps := q.comps.set n r.faulted.1 })).clearTags h r).record recFault (agent 5) 0xFF
        [9, h, 1, n, r.prod.toNat]).postEvent h es := by
  subst ring
  exact ⟨_, rfl⟩

theorem queuePointerMismatch_event (h n : Nat) (s : State) : ∃ es, queuePointerMismatch h .event n s =
    (((s.upQ h (fun q => { q with events := (s.hide h).q.events.faulted.1 })).clearTags h (s.hide h).q.events).record recFault
      (agent 5) 0xFF [9, h, 2, n, (s.hide h).q.events.prod.toNat]).postEvent h es :=
  ⟨_, rfl⟩

/-- Settles O31: for each kind of ring, its reset followed by the record and the event, which leave the rings as they find them. -/
theorem pointerMismatchResetsOneQueue : Obligations.PointerMismatchResetsOneQueue := by
  refine ⟨?order, ?completion, ?event⟩
  case order =>
    intro s h n
    obtain ⟨es, eq⟩ := queuePointerMismatch_order h n s
    have run : exec (.queuePointerMismatch h .order n) s = .next _ := congrArg Host.Outcome.next eq
    obtain ⟨logged, orders, comps, tables⟩ := faultPosted (State.upQ_box s h _) h
      [9, h, 0, n, ((s.hide h).q.orders.get OrderRing.reset n).taken.toNat] es
    rw [State.hide_upQ] at orders comps tables
    refine ⟨_, run, apart_of_exec rfl run, logged, ?_, fun m other => ?_, comps, tables⟩
    · rw [orders]; exact upRing_get _ _ _
    · rw [orders]; exact upRing_other _ _ other
  case completion =>
    intro s h n
    obtain ⟨es, eq⟩ := queuePointerMismatch_completion (s := s) (h := h) (n := n) rfl
    have run : exec (.queuePointerMismatch h .completion n) s = .next _ := congrArg Host.Outcome.next eq
    obtain ⟨logged, orders, comps, tables⟩ := faultPosted ((clearTags_hide _ h _).2.trans (State.upQ_box s h _)) h
      [9, h, 1, n, ((s.hide h).q.comps.get OutRing.reset n).prod.toNat] es
    rw [hide_clearTags, State.hide_upQ] at orders comps tables
    refine ⟨_, run, apart_of_exec rfl run, logged, ?_, orders, tables⟩
    rw [comps]
    simp [OutRing.faulted]
  case event =>
    intro s h n
    obtain ⟨es, eq⟩ := queuePointerMismatch_event h n s
    have run : exec (.queuePointerMismatch h .event n) s = .next _ := congrArg Host.Outcome.next eq
    obtain ⟨logged, orders, comps, tables⟩ := faultPosted ((clearTags_hide _ h _).2.trans (State.upQ_box s h _)) h
      [9, h, 2, n, (s.hide h).q.events.prod.toNat] es
    rw [hide_clearTags, State.hide_upQ] at orders comps tables
    exact ⟨_, run, apart_of_exec rfl run, logged, orders, comps, tables⟩

end Sys2Proof.Machine
end

section
/-!
PROOFS. Queue commands: what a marker or DROP_REST does when it is taken, and what a transaction's timeout does (R273, R274, R278).
-/

namespace Sys2Proof.Machine
open Sys2Proof

/-! ### A queue command is taken and checked (R259) -/

/-- `u` is `s` with at most the taken orders, the buckets and the counters of the hide changed. -/
structure CheckedFrom (h : Nat) (s u : State) : Prop where
  apart : Apart h s u
  only : Only [.hides] s u
  orders : (u.hide h).q.orders = (s.hide h).q.orders
  comps : (u.hide h).q.comps = (s.hide h).q.comps
  txns : (u.hide h).q.txns = (s.hide h).q.txns
  nextTxn : (u.hide h).q.nextTxn = (s.hide h).q.nextTxn

theorem CheckedFrom.plan {h : Nat} {s u : State} (checked : CheckedFrom h s u) : u.plan = s.plan := checked.only .plan (by decide)

/-- The state in which the front of the taken orders has been taken out, and `rest` is left. -/
def State.leaveTaken (s : State) (h : Nat) (rest : List Order) : State := s.upQ h (fun q => { q with dispatch := rest })

theorem leaveTaken_openTxn (s : State) (h : Nat) (rest : List Order) (ring : Nat) :
    ((s.leaveTaken h rest).hide h).q.openTxn ring = (s.hide h).q.openTxn ring := by
  rw [State.leaveTaken, State.hide_upQ]
  rfl

theorem checkedFrom_leaveTaken (s : State) (h : Nat) (rest : List Order) (o : Order) :
    CheckedFrom h s ((s.leaveTaken h rest).checks h o).1 := by
  obtain ⟨apart, only, -, txns, orders, comps, nextTxn, -⟩ := checks_spec (s.leaveTaken h rest) h o
  have hide : (s.leaveTaken h rest).hide h = _ := State.hide_upQ s h _
  rw [hide] at txns orders comps nextTxn
  exact ⟨(State.upQ_apart s h _).trans apart, only_trans (State.upQ_kept s h _).same only, orders, comps, txns, nextTxn⟩

theorem takeMarker_of_front {s u : State} {h op : Nat} {o : Order} {rest : List Order} {eff : State → Order → State}
    (front : (s.hide h).q.dispatch = o :: rest) (marker : o.marker = true) (opcode : o.opcode = op)
    (work : eff (s.leaveTaken h rest) o = u) : s.takeMarker h op eff = u.dispatchAll h := by
  subst work
  exact front_eq front marker opcode eff

/-! ### Rings and their open transactions (R274) -/

/-- A ring with another open transaction, or none. -/
def OrderRing.setTxn (r : OrderRing) (id : Option Nat) : OrderRing := { r with txn := id }

/-- A ring whose transaction has timed out: it skips to the next closing marker (R278). -/
def OrderRing.skip (r : OrderRing) : OrderRing := { r with txn := none, skipping := true }

/-! ### TXN_BEGIN (R274) -/

/-- The transaction that a TXN_BEGIN opens. -/
def State.freshTxn (s : State) (h : Nat) (o : Order) : Txn :=
  { id := (s.hide h).q.nextTxn, ring := o.ring, start := o, openF := s.plan.furlong, members := [], done := [], held := [],
    objects := [], closer := none, decision := none, timedOut := false, lastChain := s.now 0 }

/-- A queue part in which a transaction has become the open one of its ring. -/
def QPart.beginTxn (q : QPart) (t : Txn) : QPart :=
  { (q.upRing t.ring (·.setTxn (some t.id))) with txns := q.txns ++ [t], nextTxn := t.id + 1 }

theorem beginTxn_ring (q : QPart) (t : Txn) : ((q.beginTxn t).orders.get OrderRing.reset t.ring).txn = some t.id :=
  congrArg OrderRing.txn (upRing_get q t.ring (·.setTxn (some t.id)))

theorem beginWork_of_passed {s : State} {h : Nat} {o : Order} (unopened : (s.hide h).q.openTxn o.ring = none)
    (passes : (s.checks h o).2 = none) : beginWork h s o = (s.checks h o).1.upQ h (QPart.beginTxn · ((s.checks h o).1.freshTxn h o)) := by
  unfold beginWork
  rw [unopened]
  dsimp only
  rw [passes]
  rfl

/-! ### TXN_COMMIT and TXN_ABORT (R274, R277) -/

/-- A transaction closed by a marker, with the marker's own failure. -/
def Txn.closedBy (t : Txn) (o : Order) (commit : Bool) (fails : Nat × Nat) (chain : Nat) : Txn :=
  { t with closer := some (o, commit, fails.1, fails.2), lastChain := max t.lastChain chain }

/-- A queue part in which ring `n` has no open transaction, and the one of an id has become what `f` makes of it. -/
def QPart.finishTxn (q : QPart) (n id : Nat) (f : Txn → Txn) : QPart :=
  (q.upRing n (·.setTxn none)).upTxn id f

theorem finishTxn_ring (q : QPart) (n id : Nat) (f : Txn → Txn) :
    ((q.finishTxn n id f).orders.get OrderRing.reset n).txn = none :=
  congrArg OrderRing.txn (upRing_get q n (·.setTxn none))

theorem closeWork_of_open {s : State} {h : Nat} {o : Order} {y : Txn} (commit : Bool)
    (opened : (s.hide h).q.openTxn o.ring = some y) :
    closeWork h commit s o = (s.checks h o).1.upQ h (fun q => q.finishTxn o.ring y.id
      (fun t => t.closedBy o commit ((s.checks h o).2.getD (0, 0)) ((s.checks h o).1.now 0))) := by
  unfold closeWork
  rw [opened]
  rfl

theorem closeWork_of_none {s : State} {h : Nat} {o : Order} (commit : Bool) (unopened : (s.hide h).q.openTxn o.ring = none)
    (passes : (s.checks h o).2 = none) :
    closeWork h commit s o = (s.checks h o).1.endTaken h o stFieldRange (detailAt 0) [] := by
  unfold closeWork
  rw [unopened]
  dsimp only
  rw [passes]

theorem exec_closing_of_front {s u : State} {h : Hide} {o : Order} {rest : List Order} {commit : Bool}
    (front : (s.hide h).q.dispatch = o :: rest) (marker : o.marker = true) (opcode : o.opcode = if commit then 0x21 else 0x22)
    (work : closeWork h commit (s.leaveTaken h rest) o = u) :
    exec (if commit then Instr.txnCommit h else .txnAbort h) s = .next (u.dispatchAll h) := by
  cases commit with
  | true => exact congrArg Host.Outcome.next (takeMarker_of_front front marker opcode work)
  | false => exact congrArg Host.Outcome.next (takeMarker_of_front front marker opcode work)

/-! ### DROP_REST (R273) -/

/-- The state in which completion ring `n` has become `r`, with its header written. -/
def State.putComp (s : State) (h n : Nat) (r : OutRing) : State :=
  ((s.upQ h (fun q => { q with comps := q.comps.set n r })).backInvalidate h r.base.toNat 12).writeMem h r.base.toNat (headerBytes r)

theorem putComp_apart (s : State) (h n : Nat) (r : OutRing) : Apart h s (s.putComp h n r) :=
  ((State.upQ_apart s h _).trans (State.backInvalidate_apart _ h _ _)).trans (fun _ _ => rfl)

theorem putComp_q (s : State) (h n : Nat) (r : OutRing) :
    ((s.putComp h n r).hide h).q = { (s.hide h).q with comps := (s.hide h).q.comps.set n r } := by
  obtain ⟨queue, -⟩ := (backInvalidate_keeps (s.upQ h (fun q => { q with comps := q.comps.set n r })) h r.base.toNat 12).trans
    (writeMem_keeps _ h h r.base.toNat (headerBytes r))
  rw [State.hide_upQ] at queue
  exact queue

theorem readMem_writeMem (s : State) (h off : Nat) (bs : List Byte) : (s.writeMem h off bs).readMem h off bs.length = bs :=
  Memory.read_write bs s.imem _

theorem headerBytes_length (r : OutRing) : (headerBytes r).length = 12 := by
  simp [headerBytes, leBytes]

theorem putComp_header (s : State) (h n : Nat) (r : OutRing) : (s.putComp h n r).readMem h r.base.toNat 12 = headerBytes r := by
  rw [← headerBytes_length r]
  exact readMem_writeMem _ h _ _

theorem dropWork_of_ready {s u : State} {h : Nat} {o : Order} {r : OutRing} (unopened : (s.hide h).q.openTxn o.ring = none)
    (passes : s.checks h o = (u, none)) (ofComps : o.f 16 1 = 0) (ring : (u.hide h).q.comps.get OutRing.reset (o.f 17 1) = r)
    (ready : r.ready = true) :
    dropWork h s o = (u.putComp h (o.f 17 1) r.dropRest.1).endTaken h o stOk 0
      (leBytes 4 r.dropRest.2.1 ++ leBytes 4 r.dropRest.2.2.toNat) := by
  subst ring
  unfold dropWork
  rw [unopened]
  dsimp only
  rw [passes]
  simp only [ofComps, if_true, ready, Bool.not_true, Bool.false_eq_true, if_false]
  rfl

/-! ### The timeout (R278) -/

/-- The members of transaction `id` that wait for admission. -/
def QPart.waiting (q : QPart) (id : Nat) : List Order := q.queue.filter (fun o => o.txn == some id)

/-- A queue part in which transaction `id` of a ring has timed out: the ring skips, and no member waits any longer. -/
def QPart.timeOut (q : QPart) (ring id : Nat) : QPart :=
  { ((q.upRing ring OrderRing.skip).upTxn id (fun t => { t with timedOut := true })) with
    queue := q.queue.filter (fun o => o.txn != some id) }

/-- The state in which transaction `id` of a ring has timed out. -/
def State.timeOutTxn (s : State) (h ring id : Nat) : State :=
  (s.upQ h (QPart.timeOut · ring id)).upO h
    (fun o => { o with lane := o.lane.filter (fun n => !(((s.hide h).q.waiting id).any (fun p => p.seq == n))) })

/-- The members `l` of a timed-out transaction end with TIMEOUT, and nothing that they fetch is awaited. -/
def State.endWaiting (s : State) (h : Nat) (l : List Order) : State :=
  l.foldl (fun s o => (s.dropFetches h o.seq).endTaken h o stTimeout 0 []) s

theorem txnTimeout_of_open {s : State} {h ring : Nat} {y : Txn} (opened : (s.hide h).q.openTxn ring = some y) :
    txnTimeout h ring s = ((s.timeOutTxn h ring y.id).endWaiting h ((s.hide h).q.waiting y.id)).dispatchAll h := by
  unfold txnTimeout
  dsimp only
  split
  case h_1 noneOpen => cases opened.symm.trans noneOpen
  case h_2 y' found =>
    cases opened.symm.trans found
    rfl

theorem timeOutTxn_apart (s : State) (h ring id : Nat) : Apart h s (s.timeOutTxn h ring id) :=
  (State.upQ_apart s h _).trans (State.upO_apart _ h _)

theorem endWaiting_apart (s : State) (h : Nat) (l : List Order) : Apart h s (s.endWaiting h l) := by
  unfold State.endWaiting
  refine Apart.foldl _ (fun s o => ?_) l s
  exact (State.dropFetches_apart s h o.seq).trans (State.endTaken_apart _ h o stTimeout 0 [])

theorem timeOutTxn_q (s : State) (h ring id : Nat) : ((s.timeOutTxn h ring id).hide h).q = (s.hide h).q.timeOut ring id := by
  rw [State.timeOutTxn, State.hide_upO, State.hide_upQ]

theorem timeOut_ring (q : QPart) (ring id : Nat) : (q.timeOut ring id).orders.get OrderRing.reset ring =
    (q.orders.get OrderRing.reset ring).skip :=
  upRing_get q ring OrderRing.skip

theorem mem_timeOut_queue (q : QPart) (ring id : Nat) (p : Order) :
    p ∈ (q.timeOut ring id).queue ↔ p ∈ q.queue ∧ p.txn ≠ some id := by
  simp [QPart.timeOut]

/-- Settles O47: each queue command runs its work on the state from which it was taken, after its checks; the timeout marks its
transaction and ends the members that wait. -/
theorem queueCommandsTakeEffectWhenTaken : Obligations.QueueCommandsTakeEffectWhenTaken := by
  refine ⟨?taken, ?timeout⟩
  case taken =>
    intro s h o rest front marker c
    have checked : CheckedFrom h s c.1 := checkedFrom_leaveTaken s h rest o
    have still : ((s.leaveTaken h rest).hide h).q.openTxn o.ring = (s.hide h).q.openTxn o.ring := leaveTaken_openTxn s h rest o.ring
    refine ⟨fun op unopened passes => ?opens, fun y commit i cmd op opened => ?closes,
      fun commit i cmd op unopened passes => ?nothingOpen, fun op unopened passes ofComps ready => ?drops⟩
    case opens =>
      have work := beginWork_of_passed (still.trans unopened) passes
      refine ⟨c.1.upQ h (QPart.beginTxn · (c.1.freshTxn h o)), ?_, checked.apart.trans (State.upQ_apart _ h _),
        only_trans checked.only (State.upQ_kept _ h _).same, ?_⟩
      · exact congrArg Host.Outcome.next (takeMarker_of_front front marker op work)
      · rw [State.hide_upQ, ← checked.nextTxn, ← checked.txns]
        exact ⟨rfl, beginTxn_ring _ (c.1.freshTxn h o), c.1.freshTxn h o, rfl, rfl, rfl, rfl, rfl, rfl, rfl,
          congrArg Plan.furlong checked.plan⟩
    case closes =>
      have work := closeWork_of_open commit (still.trans opened)
      refine ⟨c.1.upQ h (fun q => q.finishTxn o.ring y.id (fun t => t.closedBy o commit (c.2.getD (0, 0)) (c.1.now 0))), ?_,
        checked.apart.trans (State.upQ_apart _ h _), only_trans checked.only (State.upQ_kept _ h _).same, ?_⟩
      · exact cmd ▸ exec_closing_of_front front marker op work
      · rw [State.hide_upQ]
        have listed : y ∈ (c.1.hide h).q.txns := checked.txns ▸ (openTxn_mem opened).1
        exact ⟨finishTxn_ring _ _ _ _, _, mem_upTxn listed _, rfl, rfl, rfl, rfl, rfl⟩
    case nothingOpen =>
      have work := closeWork_of_none commit (still.trans unopened) passes
      exact ⟨c.1, cmd ▸ exec_closing_of_front front marker op work, checked.apart, checked.txns⟩
    case drops =>
      intro d
      have work := dropWork_of_ready (still.trans unopened) (Prod.ext rfl passes) ofComps
        (congrArg (AMap.get OutRing.reset · (o.f 17 1)) checked.comps) ready
      refine ⟨c.1.putComp h (o.f 17 1) d.1, ?_, checked.apart.trans (putComp_apart _ h _ _), ?_⟩
      · exact congrArg Host.Outcome.next (takeMarker_of_front front marker op work)
      · rw [putComp_q, checked.comps]
        exact ⟨AMap.get_set_same _ _ _ _, checked.orders, fun n other => AMap.get_set_other _ _ _ other, putComp_header _ h _ _⟩
  case timeout =>
    intro s h ring y opened
    have ringOf := timeOut_ring (s.hide h).q ring y.id
    refine ⟨s.timeOutTxn h ring y.id, _, congrArg Host.Outcome.next (txnTimeout_of_open opened),
      (timeOutTxn_apart s h ring y.id).trans (endWaiting_apart _ h _), rfl, ?_⟩
    rw [timeOutTxn_q]
    exact ⟨congrArg OrderRing.txn ringOf, congrArg OrderRing.skipping ringOf,
      ⟨_, mem_upTxn (openTxn_mem opened).1 _, rfl, rfl, rfl⟩, mem_timeOut_queue _ _ _⟩

end Sys2Proof.Machine
end

section
/-!
PROOFS. The CXL port: HDM decoder commits, the link's training and width, and the IDE streams (R279, R280, R286, R382).
-/

namespace Sys2Proof.Machine
open Sys2Proof

/-! ### HDM decoders (R286) -/

/-- The decoder of a logical device after a commit that its lock does not stop. -/
def LdSt.commit (l : LdSt) (size ways base : Nat) (lock : Bool) : LdSt :=
  if size = 17 * 2 ^ 30 ∧ ways = 1 ∧ base % 2 ^ 28 = 0 then
    { l with decoder := some (size, ways, base), decLocked := lock, decError := false }
  else { l with decoder := none, decError := true }

theorem decoderCommit_of_unguarded {s : State} {ld size ways base : Nat} {lock : Bool} (up : s.ioUp = true) (linked : s.cxl.width ≠ 0)
    (heard : (s.ld ld).ideIo ≠ .insecure) (unguarded : ∀ h, s.hideOfLd ld = some h → (s.hide h).k.tsp.guarded = false) :
    decoderCommit ld size ways base lock s =
      if (s.ld ld).decLocked then s else s.upLd ld (·.commit size ways base lock) := by
  have commits : (if size = 17 * 2 ^ 30 ∧ ways = 1 ∧ base % 2 ^ 28 = 0 then
        s.upLd ld (fun l => { l with decoder := some (size, ways, base), decLocked := lock, decError := false })
      else s.upLd ld (fun l => { l with decoder := none, decError := true })) = s.upLd ld (·.commit size ways base lock) := by
    unfold LdSt.commit
    split <;> rfl
  unfold decoderCommit
  dsimp only
  rw [if_neg (by simp [up, linked, heard]), commits]
  rcases bound : s.hideOfLd ld with - | h
  · rfl
  · simp only [unguarded h bound]

/-- Settles O22: a locked decoder stays, and any other takes what the checks make of the commit. -/
theorem decoderCommitsAreChecked : Obligations.DecoderCommitsAreChecked := by
  intro s ld size ways base lock up linked heard unguarded
  have eq := decoderCommit_of_unguarded (size := size) (ways := ways) (base := base) (lock := lock) up linked heard unguarded
  refine ⟨_, congrArg Host.Outcome.next eq, ?_⟩
  rcases locked : (s.ld ld).decLocked with - | -
  case true => exact ⟨rfl, fun _ _ => rfl, fun _ => rfl, nofun, nofun⟩
  case false =>
    simp only [Bool.false_eq_true, if_false, State.ld_upLd]
    refine ⟨rfl, fun l other => State.ld_upLd_other s _ other, nofun, fun _ gib one base => ?_, fun _ bad => if_neg bad⟩
    exact if_pos ⟨gib, one, base⟩

/-! ### The link and its streams (R279, R280, R382) -/

theorem linkUp_of_down {s : State} {w r : Nat} (up : s.ioUp = true) (down : s.cxl.width = 0) :
    linkUp w r s = ({ s with cxl := { s.cxl with width := w, rate := r } }).record recLink (agent 17) 0xFF [8, w, r] := by
  unfold linkUp
  rw [if_neg (by simp [up, down])]

/-- The CXL port after its link has re-formed: CHANGES counts it, up to its limit (R280). -/
def Cxl.reform (c : Cxl) (w r : Nat) : Cxl :=
  { c with width := w, rate := r, changes := if c.changes.toNat < 0xFFFF then c.changes + 1 else c.changes }

theorem linkWidthChange_of_differs {s : State} {w r : Nat} (linked : s.cxl.width ≠ 0) (differs : s.cxl.width ≠ w ∨ s.cxl.rate ≠ r) :
    linkWidthChange w r s = (({ s with cxl := s.cxl.reform w r }).record recLink (agent 17) 0xFF [8, w, r]).deviceEvent := by
  unfold linkWidthChange
  rw [if_neg]
  · rfl
  · simpa [linked] using fun same => differs.resolve_left (not_not_intro same)

theorem ideUp_of_linked {s : State} (linked : s.cxl.width ≠ 0) :
    ideUp none s = { s with cxl := { s.cxl with ideMem := .secure } } ∧
    ∀ ld : Ld, ideUp (some ld) s = s.upLd ld (fun l => { l with ideIo := .secure }) := by
  unfold ideUp
  rw [if_neg linked]
  exact ⟨rfl, fun _ => by rw [if_neg linked]⟩

theorem ideFail_memory_of_secure {s : State} (secure : s.cxl.ideMem = .secure) :
    ideFail none s = (List.range 16).foldl (fun s h => s.tspError h (agent 17))
      ({ s with cxl := { s.cxl with ideMem := .insecure } }).deviceEvent := by
  unfold ideFail
  dsimp only
  rw [if_neg (by simp [secure])]
  rfl

/-- The state in which a logical device's own stream has failed and the hides have been told. -/
def State.streamLost (s : State) (ld : Nat) : State := (s.upLd ld (fun l => { l with ideIo := .insecure })).deviceEvent

theorem ideFail_io_of_secure {s : State} {ld : Ld} (secure : (s.ld ld).ideIo = .secure) :
    ideFail (some ld) s = match (s.streamLost ld).hideOfLd ld with
      | some h => (s.streamLost ld).tspError h (agent 17)
      | none => s.streamLost ld := by
  unfold ideFail
  dsimp only
  rw [if_neg (by simp [secure])]
  rfl

theorem deviceEvent_tsp (s : State) (j : Nat) : (s.deviceEvent.hide j).k.tsp = (s.hide j).k.tsp :=
  (core_eq (deviceEvent_core s j)).2.2.1

theorem streamLost_cxl (s : State) (ld : Nat) : (s.streamLost ld).cxl = (s.upLd ld (fun l => { l with ideIo := .insecure })).cxl :=
  deviceEvent_cxl _

theorem streamLost_tsp (s : State) (ld j : Nat) : ((s.streamLost ld).hide j).k.tsp = (s.hide j).k.tsp :=
  deviceEvent_tsp _ j

theorem streamLost_hideOfLd (s : State) (ld l : Nat) : (s.streamLost ld).hideOfLd l = s.hideOfLd l :=
  hideOfLd_lays (fun j => (core_eq (deviceEvent_core _ j)).1) l

theorem ld_of_cxl {s t : State} (same : t.cxl = s.cxl) (l : Nat) : t.ld l = s.ld l :=
  congrArg (fun c : Cxl => AMap.get LdSt.reset c.lds l) same

/-- Settles O28: each event of the link or a stream by its equation; a failed stream's hides are told before the locked ones go to
ERROR. -/
theorem theLinkAndItsStreamsFollowTheirEvents : Obligations.TheLinkAndItsStreamsFollowTheirEvents := by
  refine ⟨?linkUp, ?widthChange, ?established, ?memoryFails, ?ioFails⟩
  case linkUp =>
    intro s w r up down
    exact ⟨_, congrArg Host.Outcome.next (linkUp_of_down up down), rfl, rfl, logged_record s _ _ _ _ _ rfl⟩
  case widthChange =>
    intro s w r linked differs
    refine ⟨_, congrArg Host.Outcome.next (linkWidthChange_of_differs linked differs), ?_⟩
    rw [deviceEvent_cxl, deviceEvent_plan]
    exact ⟨rfl, rfl, fun below => if_pos below, rfl, rfl, logged_of (logged_record s _ _ _ _ _ rfl) (deviceEvent_box _)⟩
  case established =>
    intro s linked
    obtain ⟨memory, io⟩ := ideUp_of_linked linked
    refine ⟨⟨_, congrArg Host.Outcome.next memory, rfl⟩, fun ld => ⟨_, congrArg Host.Outcome.next (io ld), ?_, ?_, ?_⟩⟩
    · exact (State.upLd_kept s ld _).same
    · rw [State.ld_upLd]
    · exact fun l other => State.ld_upLd_other s _ other
  case memoryFails =>
    intro s secure
    obtain ⟨cxl, -, tsp⟩ := tspFold (agent 17) (List.range 16) List.nodup_range
      ({ s with cxl := { s.cxl with ideMem := .insecure } }).deviceEvent
    refine ⟨_, congrArg Host.Outcome.next (ideFail_memory_of_secure secure), cxl.trans (deviceEvent_cxl _), fun h inRange => ?_⟩
    rw [tsp h (List.mem_range.2 inRange), deviceEvent_tsp]
    rfl
  case ioFails =>
    intro s ld secure
    have lds : ∀ {t : State}, t.cxl = (s.streamLost ld).cxl → (t.ld ld).ideIo = .insecure ∧ ∀ l : Nat, l ≠ ld → t.ld l = s.ld l := by
      intro t same
      have asSet := ld_of_cxl (same.trans (streamLost_cxl s ld))
      refine ⟨?_, fun l other => (asSet l).trans (State.ld_upLd_other s _ other)⟩
      rw [asSet, State.ld_upLd]
    refine ⟨_, congrArg Host.Outcome.next (ideFail_io_of_secure secure), ?_⟩
    rw [streamLost_hideOfLd]
    rcases bound : s.hideOfLd ld with - | h
    case none => exact ⟨(lds rfl).1, (lds rfl).2, nofun⟩
    case some =>
      obtain ⟨failed, others⟩ := lds (tspError_cxl (s.streamLost ld) h (agent 17))
      refine ⟨failed, others, ?_⟩
      rintro _ ⟨⟩
      rw [tspError_tsp, streamLost_tsp]

end Sys2Proof.Machine
end

section
/-!
PROOFS. The input monitor: samples, which are ticks of the always-on clock, and their absence (R298, R399, R405, R409, R412).
-/

namespace Sys2Proof.Machine
open Sys2Proof

/-! ### A tick of the always-on clock (R298, R409) -/

theorem tick_rtc (s : State) : s.tick.mgmt.rtc = if s.mgmt.rtcSet then
    s.mgmt.rtc + BitVec.ofNat 64 (tickMicros (s.power.ticks + 1) - tickMicros s.power.ticks) else s.mgmt.rtc := by
  unfold State.tick
  dsimp only
  split <;> rfl

/-- A lease slot after a tick: its term counts down while it is live (R298). -/
def LeaseSlot.tick (sl : LeaseSlot) : LeaseSlot := if sl.live then { sl with remain := sl.remain - 1 } else sl

/-- A hide after a tick: that of each of its lease slots. -/
def HideSt.tick (x : HideSt) : HideSt := { x with a := { x.a with slots := x.a.slots.map (fun p => (p.1, p.2.tick)) } }

theorem tick_hide (s : State) (h : Nat) : s.tick.hide h = (s.hide h).tick :=
  amap_map HideSt.reset HideSt.tick rfl s.hides h

theorem tick_slots (s : State) (h n : Nat) :
    (s.tick.hide h).a.slots.get LeaseSlot.reset n = ((s.hide h).a.slots.get LeaseSlot.reset n).tick := by
  rw [tick_hide]
  exact amap_map LeaseSlot.reset LeaseSlot.tick rfl (s.hide h).a.slots n

/-! ### The monitor fails (R405, R412) -/

/-- The state in which no sample of the monitor counts and its alert is set. -/
def State.unmonitored (s : State) : State := ({ s with power := { s.power with monFailed := true } }).setAlert 2 5 s.power.vin.toNat

theorem monitorFail_of_powered {s : State} (powered : s.power.st ≠ .off) : monitorFail s = s.unmonitored.judge := by
  unfold monitorFail
  rw [if_neg (by simpa using powered)]
  rfl

theorem unmonitored_spec (s : State) : s.unmonitored.power.monFailed = true ∧ s.unmonitored.power.alert.getLsbD 2 = true ∧
    s.unmonitored.plan = s.plan ∧ s.unmonitored.reamActive = s.reamActive := by
  let failed : State := { s with power := { s.power with monFailed := true } }
  have keeps : AlertKeeps failed s.unmonitored := setAlert_keeps failed 2 5 s.power.vin.toNat
  have kept := State.setAlert_kept failed 2 5 s.power.vin.toNat
  have plan : s.unmonitored.plan = s.plan := kept.same .plan (by decide)
  have dex : s.unmonitored.dex = s.dex := kept.same .dex (by decide)
  have powered : s.unmonitored.power.st = s.power.st := keeps.st
  refine ⟨keeps.mon, setAlert_bit failed 2 _ _ (by decide), plan, ?_⟩
  unfold State.reamActive
  rw [plan, dex, powered]

theorem unmonitored_logged {s : State} (clear : s.power.alert.getLsbD 2 = false) :
    Logged s s.unmonitored recPower (agent 15) 0xFF [5, s.power.vin.toNat] := by
  unfold State.unmonitored State.setAlert
  rw [if_neg (fun set => Bool.false_ne_true (clear.symm.trans set))]
  exact logged_record s _ _ _ _ _ rfl

/-- A failed monitor demands lean furlongs of a ream at full rate (R405). -/
theorem judge_requests_lean {s : State} (active : s.reamActive = true) (full : s.plan.lean = false) (quiet : s.plan.notices = [])
    (failed : s.power.monFailed = true) : Switch.lean true ∈ s.judge.plan.triggers := by
  have hot : s.leanTrigger = true := by simp [State.leanTrigger, Power.vinLow, failed]
  unfold State.judge
  simp only [active, hot, full, quiet, List.any_nil, Bool.not_true, Bool.not_false, Bool.or_false, Bool.and_true, if_true,
    Bool.false_eq_true, if_false]
  exact State.mem_trigger _ _

/-- Settles O11: a valid sample is a tick whose readings the alerts keep; a failed monitor is recorded, and judged. -/
theorem vinSamplesAndTicksCount : Obligations.VinSamplesAndTicksCount := by
  refine ⟨?sample, ?silent⟩
  case sample =>
    intro s v i powered vin iin
    obtain ⟨keeps, high⟩ := vinSample_alert s v i powered vin iin
    refine ⟨_, rfl, keeps.vin, keeps.iin, keeps.mon, keeps.vins, ?_, ?_, high, ?_, fun h n => ?_⟩
    · exact keeps.ticks
    · exact keeps.st
    · exact keeps.rtc.trans (tick_rtc s)
    · have hides : (vinSample v i s).hide h = s.tick.hide h := congrArg (AMap.get HideSt.reset · h) keeps.hides
      exact (congrArg (fun x : HideSt => x.a.slots.get LeaseSlot.reset n) hides).trans (tick_slots s h n)
  case silent =>
    intro s powered
    refine ⟨_, congrArg Host.Outcome.next (monitorFail_of_powered powered), ?_⟩
    obtain ⟨failed, alert, plan, ream⟩ := unmonitored_spec s
    rw [judge_power]
    exact ⟨failed, alert, fun clear => logged_of (unmonitored_logged clear) (judge_box _), fun active full quiet =>
      judge_requests_lean (ream.trans active) (by rw [plan, full]) (by rw [plan, quiet]) failed⟩

end Sys2Proof.Machine
end

section
/-!
PROOFS. Lines of interface memory: what a host's or a peer's write stores, and what a read is answered (R287, R288, R303, R305).
-/

namespace Sys2Proof.Machine
open Sys2Proof

/-! ### Which answer an access gets -/

section
variable {s : State} {ld : Ld} {off h : Nat}

/-- The ring and operand areas of a hide, whose lines are interface memory (R285). -/
def HideSt.memoryAt (x : HideSt) (off : Nat) : Prop := x.area off = .ring ∨ x.area off = .opnd

section
variable (served : s.serves ld false = .hide h)
include served

theorem memWrite_of_line (line : (s.hide h).memoryAt off) (data : List Byte) (poison wb : Bool) (cycle : Nat) :
    memWrite ld off data poison wb cycle s =
      (let t := (s.storeLine h off data poison cycle).answerWrite h off false (s.hide h).a.acreQ.length
       if wb then t.untrack h off else t) := by
  unfold memWrite
  rw [served]
  dsimp only
  rcases line with area | area <;> rw [area]

theorem memWrite_of_gap (gap : (s.hide h).area off = .gap) (data : List Byte) (poison wb : Bool) (cycle : Nat) :
    memWrite ld off data poison wb cycle s = (s.lost h).answerWrite h off false (s.hide h).a.acreQ.length := by
  unfold memWrite
  rw [served]
  dsimp only
  rw [gap]

theorem memInv_of_line (line : (s.hide h).memoryAt off) :
    memInv ld off s = (s.answerWrite h off false (s.hide h).a.acreQ.length).track h off true := by
  unfold memInv
  rw [served]
  dsimp only
  rcases line with area | area <;> rw [area]

end

/-- The state in which a read of a line of interface memory has been answered with the line's bytes and its poison (R305). -/
def State.answerLine (s : State) (h off : Nat) (kind : ReadKind) (uio : Bool) : State :=
  s.answerRead h off (s.readMem h off 64) ((s.hide h).a.poisonLines.contains off) (kind == .shared) uio (s.hide h).a.acreQ.length

theorem memRead_of_line {uio : Bool} (served : s.serves ld uio = .hide h) (line : (s.hide h).memoryAt off) (kind : ReadKind) :
    memRead ld off kind uio s =
      if kind = .uncached then s.answerLine h off kind uio else (s.answerLine h off kind uio).track h off (kind == .ownership) := by
  unfold memRead
  rw [served]
  dsimp only
  rcases line with area | area <;> rw [area] <;> rfl

section
variable (served : s.serves ld true = .hide h)
include served

theorem uioWrite_of_opnd (opnd : (s.hide h).area off = .opnd) (data : List Byte) (poison : Bool) (cycle : Nat) :
    uioWrite ld off data poison cycle s = (s.storeLine h off data poison cycle).answerWrite h off true 0 := by
  unfold uioWrite
  rw [served]
  dsimp only
  rw [opnd]

theorem uioWrite_of_ring (ring : (s.hide h).area off = .ring) (data : List Byte) (poison : Bool) (cycle : Nat) :
    uioWrite ld off data poison cycle s = s.enqueue 8 h false ⟨16, .unsupported⟩ := by
  unfold uioWrite
  rw [served]
  dsimp only
  rw [ring]

end
end

/-! ### What the answers do -/

theorem answerWrite_apart (s : State) (k h off n : Nat) (uio : Bool) : Apart k s (s.answerWrite h off uio n) :=
  fun j _ => answerWrite_hide s h off n j uio

/-- A line that is stored and answered: its bytes and its poison mark, and nothing else of memory or of another hide. -/
theorem storeLine_answered (s : State) (h off : Nat) {data : List Byte} (poison uio : Bool) (cycle n : Nat) (whole : data.length = 64) :
    let t := (s.storeLine h off data poison cycle).answerWrite h off uio n
    Apart h s t ∧ t.readMem h off 64 = data ∧
      (∀ a, a < imemBase h off ∨ imemBase h off + 64 ≤ a → Memory.get t.imem a = Memory.get s.imem a) ∧
      (off ∈ (t.hide h).a.poisonLines ↔ poison = true) := by
  intro t
  obtain ⟨bytes, outside, mark⟩ := storeLine_reads s h off data poison cycle whole
  have memory : t.imem = (s.storeLine h off data poison cycle).imem := answerWrite_imem _ h off n uio
  refine ⟨(State.storeLine_apart s h off data poison cycle).trans (answerWrite_apart _ h h off n uio), ?_, ?_, ?_⟩
  · rw [State.readMem, memory]; exact bytes
  · rw [memory]; exact outside
  · rw [answerWrite_hide]; exact mark

/-- Settles O20: a host's write by `writeLine_spec`, a peer's by the line that it stores or the refusal that it gets. -/
theorem writesStoreTheLineAndNothingElse : Obligations.WritesStoreTheLineAndNothingElse := by
  refine ⟨?host, ?peer⟩
  case host =>
    intro s ld off h data poison wb cycle served whole
    refine ⟨_, rfl, fun line => ?line, fun gap => ?gap⟩
    case line =>
      rw [memWrite_of_line served line]
      exact writeLine_spec s h off data poison wb cycle _ whole
    case gap =>
      rw [memWrite_of_gap served gap]
      refine ⟨(State.upA_apart s h _).trans (answerWrite_apart _ h h off _ false), answerWrite_imem _ _ _ _ _, ?_⟩
      rw [answerWrite_hide, State.lost, State.hide_upA]
  case peer =>
    intro s ld off h data poison cycle served whole
    refine ⟨_, rfl, fun opnd => ?opnd, fun ring => ?ring⟩
    case opnd =>
      rw [uioWrite_of_opnd served opnd]
      exact storeLine_answered s h off poison true cycle 0 whole
    case ring =>
      rw [uioWrite_of_ring served ring]
      exact ⟨State.enqueue_imem s 8 h _ _, State.enqueue_hides s 8 h _ _, _, enqueue_second s 8 h _, rfl⟩

theorem answerLine_first (s : State) (h off : Nat) (kind : ReadKind) :
    ∃ f ∈ ((s.answerLine h off kind false).gates.queues.get EgQueue.empty (egKey 8 h)).first,
      f.body = .drs off (s.readMem h off 64) ((s.hide h).a.poisonLines.contains off) (kind == .shared) (devLoad (s.hide h).a.acreQ.length) :=
  read_first s h off _ _ _ _

theorem answerLine_hide (s : State) (h off : Nat) (kind : ReadKind) (uio : Bool) (j : Nat) :
    (s.answerLine h off kind uio).hide j = s.hide j :=
  answerRead_hide ..

theorem answerLine_imem (s : State) (h off : Nat) (kind : ReadKind) (uio : Bool) : (s.answerLine h off kind uio).imem = s.imem :=
  answerRead_imem ..

/-- Settles O21: the answer is queued first, and tracking the line for a host that caches it changes the directory alone. -/
theorem readsAnswerTheLine : Obligations.ReadsAnswerTheLine := by
  refine ⟨?read, ?inv, ?peer⟩
  case read =>
    intro s ld off h kind served line
    obtain ⟨f, queued, body⟩ := answerLine_first s h off kind
    have answers : Apart h s (s.answerLine h off kind false) := fun j _ => answerLine_hide s h off kind false j
    refine ⟨_, congrArg Host.Outcome.next (memRead_of_line served line kind), ?_⟩
    split
    case isTrue uncached =>
      exact ⟨answerLine_imem .., answers, ⟨f, queued, body⟩, fun _ => answerLine_hide .., fun cached => absurd uncached cached⟩
    case isFalse cached =>
      exact ⟨(track_imem ..).trans (answerLine_imem ..), answers.trans (State.track_apart _ h off _),
        ⟨f, track_first _ _ _ _ _ _ queued, body⟩, fun uncached => absurd uncached cached, fun _ => track_dir ..⟩
  case inv =>
    intro s ld off h served line
    obtain ⟨f, queued, body⟩ := answerWrite_first s h off (s.hide h).a.acreQ.length
    exact ⟨_, congrArg Host.Outcome.next (memInv_of_line served line), (track_imem ..).trans (answerWrite_imem ..),
      (answerWrite_apart s h h off _ false).trans (State.track_apart _ h off true), track_dir ..,
      f, track_first _ _ _ _ _ _ queued, body⟩
  case peer =>
    intro s ld off h served line
    have eq := memRead_of_line served line .uncached
    rw [if_pos rfl] at eq
    exact ⟨_, congrArg Host.Outcome.next eq, answerLine_imem .., answerRead_hides .., _, enqueue_second s 8 h _, rfl⟩

end Sys2Proof.Machine
end

section
/-!
PROOFS. The hide window: which accesses it refuses, what a write of a register reaches, and what a read clears (R7, R284, R397, R424).
-/

namespace Sys2Proof.Machine
open Sys2Proof

/-! ### What the access code of a register means (R7) -/

theorem hideWrite_of_ro {r : HReg} (ro : r.access = .ro) (s : State) (h v : Nat) : s.hideWrite h r v = s := by
  cases r <;> cases ro <;> rfl

theorem hideWrite_of_rc {r : HReg} (rc : r.access = .rc) (s : State) (h v : Nat) : s.hideWrite h r v = s := by
  cases r <;> cases rc <;> rfl

/-- What a register that a read clears holds is in its hide's own state. -/
theorem hideRead_of_rc {r : HReg} (rc : r.access = .rc) {s t : State} {h : Nat} (same : t.hide h = s.hide h) :
    t.hideRead h r = s.hideRead h r := by
  unfold State.hideRead
  cases r <;> cases rc
  all_goals dsimp only
  all_goals simp only [State.ctOf, same]

theorem hideRead_hideClear {r : HReg} (rc : r.access = .rc) (s : State) (h : Nat) : (s.hideClear h r).hideRead h r = 0 := by
  unfold State.hideRead State.hideClear
  cases r <;> cases rc
  all_goals dsimp only
  all_goals simp [ctOf_upCt, amapUp]

/-! ### Accesses that the window accepts (R284) -/

theorem registerRead_of_refused {s : State} {h off size : Nat} (up : s.functionUp (s.ldOf h) = true) (bad : windowOk off size = false) :
    registerRead h off size s = (s.upC h (fun c => { c with accessErr := satInc c.accessErr })).enqueue 8 h false ⟨16, .unsupported⟩ := by
  simp [registerRead, up, State.windowRead, bad]

theorem registerWrite_of_refused {s : State} {h off size : Nat} (v : U64) (up : s.functionUp (s.ldOf h) = true)
    (bad : windowOk off size = false) :
    registerWrite h off size v false s = s.upC h (fun c => { c with accessErr := satInc c.accessErr }) := by
  simp [registerWrite, up, State.windowWrite, bad]

section
variable {s : State} {h off base : Nat} {r : HReg} (up : s.functionUp (s.ldOf h) = true) (ok : windowOk off 4 = true)
  (reg : hideWordReg off = some (r, base, false)) (narrow : r.wide = false) (free : (s.hide h).resetting = false)
include up ok reg narrow free

theorem registerWrite_of_narrow (v : U64) : registerWrite h off 4 v false s = s.hideWrite h r (v.toNat % 2 ^ 32) := by
  simp [registerWrite, up, State.windowWrite, ok, State.writeWord, reg, free, narrow]

theorem registerRead_of_rc (rc : r.access = .rc) :
    registerRead h off 4 s = (s.hideClear h r).enqueue 8 h false ⟨20, .ioData (leBytes 4 (s.hideRead h r)) false⟩ := by
  have notScrub : r ≠ .scrubLeft := by rintro rfl; cases rc
  simp [registerRead, up, State.windowRead, ok, State.takeWord, reg, State.takeReg, notScrub, rc, free, narrow]

end

/-- Settles O34: a refused access is counted; a narrow register takes the value of a write, and a read clears it when its code is RC. -/
theorem theHideWindowFollowsItsAccessRules : Obligations.TheHideWindowFollowsItsAccessRules := by
  refine ⟨?refused, ?write, ?read⟩
  case refused =>
    intro s h off size v up
    refine ⟨congrArg Host.Outcome.next (if_pos (by simp)), fun bad => ?_⟩
    have run : exec (.rcRegisterRead h off size) s = _ := congrArg Host.Outcome.next (registerRead_of_refused up bad)
    refine ⟨congrArg Host.Outcome.next (registerWrite_of_refused v up bad), _, run, apart_of_exec rfl run, ?_, enqueue_second ..⟩
    rw [State.enqueue_hide, State.hide_upC]
  case write =>
    intro s h off v r base up ok reg narrow free
    have run : exec (.registerWrite h off 4 v false) s = _ :=
      congrArg Host.Outcome.next (registerWrite_of_narrow up ok reg narrow free v)
    refine ⟨run, ?_⟩
    rintro (ro | rc)
    · exact run.trans (congrArg Host.Outcome.next (hideWrite_of_ro ro s h _))
    · exact run.trans (congrArg Host.Outcome.next (hideWrite_of_rc rc s h _))
  case read =>
    intro s h off r base up ok reg narrow rc free
    have run : exec (.rcRegisterRead h off 4) s = _ := congrArg Host.Outcome.next (registerRead_of_rc up ok reg narrow free rc)
    refine ⟨_, run, apart_of_exec rfl run, ?_, enqueue_second ..⟩
    rw [hideRead_of_rc rc (State.enqueue_hide ..), hideRead_hideClear rc]

end Sys2Proof.Machine
end

section
/-!
PROOFS. Lease commands: which are refused, and what each that passes its requirements does to the slots (R295 to R297).
-/

namespace Sys2Proof.Machine
open Sys2Proof

/-! ### A command that has no effect -/

/-- A change of the attachment of one hide. -/
theorem upA_effect (s : State) (h : Nat) (f : APart → APart) : Only [.hides] s (s.upA h f) ∧ Apart h s (s.upA h f) ∧
    (s.upA h f).hide h = { s.hide h with a := f (s.hide h).a } :=
  ⟨(State.upA_kept s h f).same, State.upA_apart s h f, State.hide_upA s h f⟩

/-- The rows of AC_CMD, with the OP of each (R295). -/
def leaseRows (h : Hide) (v : U64) : List (Instr × Nat) :=
  [(.lease h v, 1), (.release h v, 2), (.sealAcre h v, 3), (.grant h v, 4), (.attach h v, 5), (.revoke h v, 6)]

theorem exec_leaseRow {i : Instr} {h : Hide} {v : U64} (row : (i, cmdOp v) ∈ leaseRows h v) (s : State) :
    exec i s = .next (s.leaseCommand h v) := by
  simp only [leaseRows, List.mem_cons, Prod.mk.injEq, List.not_mem_nil, or_false] at row
  rcases row with ⟨rfl, op⟩ | ⟨rfl, op⟩ | ⟨rfl, op⟩ | ⟨rfl, op⟩ | ⟨rfl, op⟩ | ⟨rfl, op⟩
  all_goals exact congrArg Host.Outcome.next (if_pos op)

theorem leaseCommand_of_busy {s : State} {h : Nat} (v : U64) (busy : (s.hide h).a.cmd ≠ none) :
    s.leaseCommand h v = s.upA h (fun a => { a with err := a.err ||| 1 }) := by
  unfold State.leaseCommand
  dsimp only
  rw [if_pos (Option.isSome_iff_ne_none.2 busy)]

theorem leaseCommand_of_notAdmitted {s : State} {h : Nat} (v : U64) (idle : (s.hide h).a.cmd = none)
    (shut : s.reamActive = false ∨ (s.hide h).lay = none ∨ (s.hide h).resetting = true) :
    s.leaseCommand h v = s.leaseResult h stNotAdmitted := by
  unfold State.leaseCommand
  dsimp only
  rw [idle, if_neg (by simp), if_pos]
  rcases shut with inactive | unbound | resetting
  · simp [inactive]
  · simp [unbound]
  · simp [resetting]

/-! ### What a command that passes requires (R295, R296) -/

section
variable {s : State} {h : Nat} {v : U64} (passes : s.leaseFails h v = 0)
include passes

theorem lease_requires (op : cmdOp v = 1) : ((s.hide h).lease (cmdSlot v)).st = .empty ∧ (s.acre (cmdAcre v)).free = true ∧
    10 ≤ cmdTerm v ∧ cmdTerm v ≤ s.termMax h := by
  simp only [State.leaseFails, op] at passes
  have met := find_none (by simp [stFieldRange, stConflict, stBadObject, stNoPage]) passes
  simp only [List.forall_mem_cons] at met
  obtain ⟨-, empty, -, free, term, -⟩ := met
  refine ⟨by simpa using empty, by simpa using free, ?_⟩
  simp only [State.termOk, Bool.or_eq_false_iff, Bool.not_eq_false', Bool.and_eq_true, decide_eq_true_eq] at term
  exact term.1

theorem release_requires (op : cmdOp v = 2) : ((s.hide h).lease (cmdSlot v)).live = true := by
  simp only [State.leaseFails, op] at passes
  have met := find_none (by simp [stFieldRange, stConflict]) passes
  simp only [List.forall_mem_cons] at met
  obtain ⟨-, live, -⟩ := met
  simpa using live

theorem seal_requires (op : cmdOp v = 3) : ((s.hide h).lease (cmdSlot v)).st = .active ∧
    ((s.hide h).lease (cmdSlot v)).compat = false := by
  simp only [State.leaseFails, op] at passes
  have met := find_none (by simp [stFieldRange, stConflict]) passes
  simp only [List.forall_mem_cons] at met
  obtain ⟨-, sealable, -⟩ := met
  simp only [Bool.or_eq_false_iff, bne_eq_false_iff_eq] at sealable
  obtain ⟨⟨active, -⟩, native⟩ := sealable
  exact ⟨active, native⟩

theorem grant_requires (op : cmdOp v = 4) : cmdHide v ≠ h := by
  simp only [State.leaseFails, op] at passes
  have met := find_none (by simp [stFieldRange, stConflict]) passes
  simp only [List.forall_mem_cons] at met
  obtain ⟨-, -, other, -⟩ := met
  simp only [Bool.or_eq_false_iff, beq_eq_false_iff_ne] at other
  exact other.1

theorem attach_requires (op : cmdOp v = 5) : ((s.hide h).lease (cmdSlot v)).st = .empty ∧
    (s.hide (cmdHide v)).confidential = false := by
  simp only [State.leaseFails, op] at passes
  have met := find_none (by simp [stFieldRange, stConflict, stBadObject]) passes
  simp only [List.forall_mem_cons] at met
  obtain ⟨-, empty, -, -, unlocked, -⟩ := met
  simp only [Bool.or_eq_false_iff] at unlocked
  exact ⟨by simpa using empty, unlocked.1.2⟩

theorem revoke_requires (op : cmdOp v = 6) : bit ((s.hide h).lease (cmdSlot v)).grants (cmdHide v) = true := by
  simp only [State.leaseFails, op] at passes
  have met := find_none (by simp [stFieldRange, stConflict, stBadObject]) passes
  simp only [List.forall_mem_cons] at met
  obtain ⟨-, -, granted, -⟩ := met
  simpa using granted

end

/-! ### The effects (R296) -/

/-- The slot that LEASE or ATTACH starts. -/
def startedSlot (v : U64) (sharer compat : Bool) (peer : Nat) : LeaseSlot :=
  { LeaseSlot.reset with
    st := .active, sharer := sharer, compat := compat, acre := cmdAcre v, peer := peer, term := cmdTerm v
    remain := termTicks (cmdTerm v) }

/-- The state in which an acre is leased to a hide. -/
def State.ownAcre (s : State) (h a : Nat) : State := s.upAcre a (fun x => { x with owner := some h, free := false })

/-- The state in which this command of a hide waits for its recalls, or none does (R297). -/
def State.await (s : State) (h : Nat) (c : Option LeaseCmd) : State := s.upA h (fun a => { a with cmd := c })

theorem await_lease (s : State) (h : Nat) (c : Option LeaseCmd) (j m : Nat) : ((s.await h c).hide j).lease m = (s.hide j).lease m :=
  upA_lease s h (fun a => { a with cmd := c }) (fun _ => rfl) j m

theorem leaseResult_lease (s : State) (h status j m : Nat) : ((s.leaseResult h status).hide j).lease m = (s.hide j).lease m :=
  upA_lease s h (fun a => { a with result := status }) (fun _ => rfl) j m

theorem leaseResult_result (s : State) (h status : Nat) : ((s.leaseResult h status).hide h).a.result = status := by
  rw [State.leaseResult, State.hide_upA]

section
variable {s : State} {h : Nat} {v : U64}

/-- LEASE is `take_spec` after its acre has been given to the hide. -/
theorem leaseEffect_lease (op : cmdOp v = 1) : let t := s.leaseEffect h v
    Only [.hides, .acres, .mgmt, .box] s t ∧ Apart h s t ∧
    (∀ m, (t.hide h).lease m = if m = cmdSlot v then startedSlot v false (cmdMode v == 1) 0 else (s.hide h).lease m) ∧
    (t.hide h).a.result = stOk ∧ ∀ b, t.acre b = (s.ownAcre h (cmdAcre v)).acre b := by
  obtain ⟨t, eq, only, apart, slots, result, acres⟩ := take_spec (s.ownAcre h (cmdAcre v)) h v (cmdMode v == 1) false 0
  have effect : s.leaseEffect h v = t := by
    simp only [State.leaseEffect, op]
    exact eq.symm
  rw [effect]
  have owned : Only [.acres] s (s.ownAcre h (cmdAcre v)) := (State.upAcre_kept s _ _).same
  exact ⟨only_trans (only_more owned (by decide)) (only_more only (by decide)), apart, slots, result, acres⟩

theorem leaseEffect_release (op : cmdOp v = 2) (live : ((s.hide h).lease (cmdSlot v)).live = true) : let t := s.leaseEffect h v
    (t.hide h).a.cmd = some ⟨false, cmdSlot v⟩ ∧ ((t.hide h).lease (cmdSlot v)).st = .closing ∧
    ((t.hide h).lease (cmdSlot v)).status = stLeaseLost ∧
    (((s.hide h).lease (cmdSlot v)).sharer = true → Apart h s t) ∧
    (((s.hide h).lease (cmdSlot v)).sharer = false →
      ∀ p ∈ s.sharers ((s.hide h).lease (cmdSlot v)).acre, ((t.hide p.1).lease p.2).live = false) := by
  have effect : s.leaseEffect h v =
      (s.closeHold h (cmdSlot v) stLeaseLost (byHide s h false) true).await h (some ⟨false, cmdSlot v⟩) := by
    simp only [State.leaseEffect, op]
    rfl
  obtain ⟨closed, sharer, owner⟩ := closeHold_spec s h (cmdSlot v) stLeaseLost (byHide s h false) live
  intro t
  simp only [t, effect, await_lease, closed]
  refine ⟨by rw [State.await, State.hide_upA], trivial, trivial, fun shares => ?_, owner⟩
  exact (sharer shares).trans (State.upA_apart _ h _)

theorem leaseEffect_seal (op : cmdOp v = 3) : let t := s.leaseEffect h v
    Apart h s t ∧ (t.hide h).a.cmd = some ⟨true, cmdSlot v⟩ ∧ (t.hide h).a.slots = (s.hide h).a.slots ∧
    ∀ d ∈ (s.hide h).a.dir, inWindow (cmdSlot v) d.off = true → d.excl = true → ⟨d.off, false, .command⟩ ∈ (t.hide h).a.snoops := by
  have effect : s.leaseEffect h v = (s.recall h (cmdSlot v) true).await h (some ⟨true, cmdSlot v⟩) := by
    simp only [State.leaseEffect, op]
    rfl
  intro t
  rw [show t = _ from effect, State.await, State.hide_upA]
  refine ⟨(State.recall_apart s h _ true).trans (State.upA_apart _ h _), rfl, recall_slots s h _ true h, ?_⟩
  intro d listed inside excl
  have sent := (recall_snoops ((s.hide h).a.dir.filter (fun d => inWindow (cmdSlot v) d.off && (d.excl || !true))) s h).2 d
    (List.mem_filter.2 ⟨listed, by simp [inside, excl]⟩)
  rw [excl] at sent
  exact sent

theorem leaseEffect_grant (op : cmdOp v = 4) : let t := s.leaseEffect h v
    Only [.hides] s t ∧ Apart h s t ∧ (t.hide h).a.result = stOk ∧
    (∀ g < 16, bit ((t.hide h).lease (cmdSlot v)).grants g = (bit ((s.hide h).lease (cmdSlot v)).grants g || g == cmdHide v)) ∧
    ∀ m, m ≠ cmdSlot v → (t.hide h).lease m = (s.hide h).lease m := by
  let give (sl : LeaseSlot) : LeaseSlot := { sl with grants := listMask (maskList 16 sl.grants ++ [cmdHide v]) }
  have effect : s.leaseEffect h v = (s.upSlot h (cmdSlot v) give).leaseResult h stOk := by
    simp only [State.leaseEffect, op]
    rfl
  intro t
  rw [show t = _ from effect]
  obtain ⟨only, apart, -⟩ := upA_effect s h (fun a => { a with slots := amapUp LeaseSlot.reset a.slots (cmdSlot v) give })
  refine ⟨only_trans only (upA_effect _ h _).1, apart.trans (upA_effect _ h _).2.1, leaseResult_result .., fun g inRange => ?_,
    fun m other => ?_⟩
  · rw [leaseResult_lease, upSlot_lease, if_pos rfl]; exact grant_bits _ _ _ inRange
  · rw [leaseResult_lease, upSlot_lease, if_neg other]

/-- ATTACH is `take_spec`, in the owner's mode. -/
theorem leaseEffect_attach (op : cmdOp v = 5) : ∃ compat, let t := s.leaseEffect h v
    Only [.hides, .mgmt, .box] s t ∧ Apart h s t ∧
    (∀ m, (t.hide h).lease m = if m = cmdSlot v then startedSlot v true compat (cmdHide v) else (s.hide h).lease m) ∧
    (t.hide h).a.result = stOk := by
  obtain ⟨t, eq, only, apart, slots, result, -⟩ := take_spec s h v
    (match s.ownerSlot (cmdAcre v) with | some (_, _, sl) => sl.compat | none => false) true (cmdHide v)
  have effect : s.leaseEffect h v = t := by
    simp only [State.leaseEffect, op]
    exact eq.symm
  rw [effect]
  exact ⟨_, only, apart, slots, result⟩

theorem leaseEffect_revoke (op : cmdOp v = 6) : let t := s.leaseEffect h v
    (t.hide h).a.result = stOk ∧
    (cmdHide v ≠ h → (∀ g < 16, bit ((t.hide h).lease (cmdSlot v)).grants g =
        (bit ((s.hide h).lease (cmdSlot v)).grants g && g != cmdHide v)) ∧
      ∀ p ∈ s.sharers ((s.hide h).lease (cmdSlot v)).acre, p.1 = cmdHide v → ((t.hide p.1).lease p.2).live = false) ∧
    ∀ j, j ≠ h → j ≠ cmdHide v → t.hide j = s.hide j := by
  obtain ⟨closes, others⟩ := revoke_spec s h (cmdSlot v) (cmdHide v)
    (fun sl => { sl with grants := listMask ((maskList 16 sl.grants).filter (· != cmdHide v)) }) (byHide s h false)
    ((s.hide h).lease (cmdSlot v)).acre
  rw [revoke_effect op, ← State.leaseResult]
  refine ⟨leaseResult_result .., fun other => ?_, fun j own peer => ?_⟩
  · obtain ⟨slot, dead⟩ := closes other
    refine ⟨fun g inRange => ?_, fun p listed named => ?_⟩
    · rw [leaseResult_lease, slot]; exact revoke_bits _ _ _ inRange
    · rw [leaseResult_lease]; exact dead p listed named
  · rw [State.leaseResult, State.hide_upA_other _ _ own]; exact others j own peer

end

/-- Settles O51: the refusals by the first branch of AC_CMD that holds, and each command by its requirements and its effect. -/
theorem leaseCommandsTakeEffect : Obligations.LeaseCommandsTakeEffect := by
  refine ⟨?refused, ?effects⟩
  case refused =>
    intro s h v i row
    rw [exec_leaseRow row]
    refine ⟨fun busy => ?_, fun idle shut => ?_, fun idle active bound free ticking fails => ?_⟩
    · exact ⟨_, congrArg Host.Outcome.next (leaseCommand_of_busy v busy), upA_effect s h _⟩
    · exact ⟨_, congrArg Host.Outcome.next (leaseCommand_of_notAdmitted v idle shut), upA_effect s h _⟩
    · exact ⟨_, congrArg Host.Outcome.next ((leaseCommand_ok idle active bound free ticking).trans (if_neg fails)), upA_effect s h _⟩
  case effects =>
    intro s h v idle active bound free ticking passes n x
    have run {i : Instr} (row : (i, cmdOp v) ∈ leaseRows h v) : exec i s = .next (s.leaseEffect h v) := by
      rw [exec_leaseRow row, leaseCommand_ok idle active bound free ticking, if_pos passes]
    refine ⟨fun op => ?lease, fun op => ?release, fun op => ?sealing, fun op => ?grant, fun op => ?attach, fun op => ?revoke⟩
    case lease =>
      obtain ⟨empty, unowned, least, most⟩ := lease_requires passes op
      obtain ⟨only, apart, slots, result, acres⟩ := leaseEffect_lease (s := s) (h := h) op
      refine ⟨by rw [← empty], unowned, least, most, _, run (by simp [leaseRows, op]), only, apart, (slots n).trans (if_pos rfl),
        fun m other => (slots m).trans (if_neg other), result, ?_, fun b other => ?_⟩
      · exact (acres _).trans (State.acre_upAcre s _ _)
      · exact (acres b).trans (State.acre_upAcre_other s _ other)
    case release =>
      have live := release_requires passes op
      exact ⟨live, _, run (by simp [leaseRows, op]), leaseEffect_release op live⟩
    case sealing =>
      obtain ⟨act, native⟩ := seal_requires passes op
      exact ⟨act, native, _, run (by simp [leaseRows, op]), leaseEffect_seal op⟩
    case grant => exact ⟨grant_requires passes op, _, run (by simp [leaseRows, op]), leaseEffect_grant op⟩
    case attach =>
      obtain ⟨empty, unlocked⟩ := attach_requires passes op
      obtain ⟨compat, only, apart, slots, result⟩ := leaseEffect_attach (s := s) (h := h) op
      refine ⟨empty, unlocked, _, run (by simp [leaseRows, op]), only, apart, result, ?_⟩
      rw [slots, if_pos rfl]
      exact ⟨rfl, rfl, rfl, rfl, rfl, fun m other => (slots m).trans (if_neg other)⟩
    case revoke => exact ⟨revoke_requires passes op, _, run (by simp [leaseRows, op]), leaseEffect_revoke op⟩

end Sys2Proof.Machine
end

section
/-!
PROOFS. The life of a lease: recalls that end, renewal, expiry, draining, scrubbing, and poison marks (R296 to R301, R304).
-/

namespace Sys2Proof.Machine
open Sys2Proof

/-- What a command answers differs from the state before it in the parts listed for the command at most. -/
theorem only_of_exec {i : Instr} {s t : State} (run : exec i s = .next t) : Only (touches i) s t := by
  obtain ⟨u, answers, kept⟩ := exec_kept i s
  cases run.symm.trans answers
  exact kept.same

/-- The sharers of an acre are told by the slots of the hides alone. -/
theorem sharers_of_slots {s t : State} (same : ∀ j, (t.hide j).a.slots = (s.hide j).a.slots) (a : Nat) : t.sharers a = s.sharers a := by
  unfold State.sharers HideSt.slotOn
  simp only [same]

/-- The state in which a slot of a hide has changed and the change is recorded (R297). -/
def State.putSlot (s : State) (h n : Nat) (f : LeaseSlot → LeaseSlot) : State := (s.upSlot h n f).leaseRecord h n (byHide s h false)

theorem putSlot_only (s : State) (h n : Nat) (f : LeaseSlot → LeaseSlot) : Only [.hides, .mgmt, .box] s (s.putSlot h n f) :=
  (upSlot_only s h n f _).1

theorem putSlot_apart (s : State) (h n : Nat) (f : LeaseSlot → LeaseSlot) : Apart h s (s.putSlot h n f) :=
  (upSlot_only s h n f (byHide s h false)).2

theorem putSlot_lease (s : State) (h n : Nat) (f : LeaseSlot → LeaseSlot) (m : Nat) :
    ((s.putSlot h n f).hide h).lease m = if m = n then f ((s.hide h).lease n) else (s.hide h).lease m := by
  rw [State.putSlot, record_hide', upSlot_lease]

theorem putSlot_self (s : State) (h n : Nat) (f : LeaseSlot → LeaseSlot) :
    ((s.putSlot h n f).hide h).lease n = f ((s.hide h).lease n) :=
  (putSlot_lease s h n f n).trans (if_pos rfl)

/-! ### Recalls end (R297) -/

/-- The state in which a hide's slot is sealed. -/
def State.sealSlot (s : State) (h n : Nat) : State := s.putSlot h n (fun sl => { sl with st := .sealed })

theorem leaseRecallComplete_of_answered {s : State} {h : Nat} {c : LeaseCmd} (waiting : (s.hide h).a.cmd = some c)
    (answered : s.recalling ((s.hide h).lease c.slot).acre = false) :
    leaseRecallComplete h s =
      if c.sealing = false then (s.await h none).leaseResult h stOk
      else if ((s.hide h).lease c.slot).st = .active then ((s.await h none).sealSlot h c.slot).leaseResult h stOk
      else (s.await h none).leaseResult h stConflict := by
  unfold leaseRecallComplete
  rw [waiting]
  dsimp only
  rw [if_neg (by simp [answered])]
  cases c.sealing <;> rfl

theorem recallComplete_spec {s : State} {h : Nat} {c : LeaseCmd} (waiting : (s.hide h).a.cmd = some c)
    (answered : s.recalling ((s.hide h).lease c.slot).acre = false) : let t := leaseRecallComplete h s
    (t.hide h).a.cmd = none ∧
    (t.hide h).a.result = (if c.sealing = false ∨ ((s.hide h).lease c.slot).st = .active then stOk else stConflict) ∧
    ∀ m, (t.hide h).lease m = if m = c.slot ∧ c.sealing = true ∧ ((s.hide h).lease m).st = .active then
      { (s.hide h).lease m with st := .sealed } else (s.hide h).lease m := by
  intro t
  rw [show t = _ from leaseRecallComplete_of_answered waiting answered]
  have idle (s : State) (status : Nat) : ((s.leaseResult h status).hide h).a.cmd = (s.hide h).a.cmd := by
    rw [State.leaseResult, State.hide_upA]
  have noCmd : ((s.await h none).hide h).a.cmd = none := by rw [State.await, State.hide_upA]
  split
  case isTrue releasing =>
    refine ⟨(idle _ _).trans noCmd, (leaseResult_result ..).trans (if_pos (.inl releasing)).symm, fun m => ?_⟩
    rw [leaseResult_lease, await_lease, if_neg (by simp [releasing])]
  case isFalse sealing =>
    split
    case isTrue active =>
      refine ⟨(idle _ _).trans ?_, (leaseResult_result ..).trans (if_pos (.inr active)).symm, fun m => ?_⟩
      · rw [State.sealSlot, State.putSlot, record_hide', upSlot_hide]; exact noCmd
      · rw [leaseResult_lease, State.sealSlot, putSlot_lease, await_lease, await_lease]
        by_cases named : m = c.slot
        · subst named
          rw [if_pos rfl, if_pos ⟨rfl, by simpa using sealing, active⟩]
        · rw [if_neg named, if_neg (fun met => named met.1)]
    case isFalse closed =>
      refine ⟨(idle _ _).trans noCmd, (leaseResult_result ..).trans (if_neg (by simp [sealing, closed])).symm, fun m => ?_⟩
      rw [leaseResult_lease, await_lease, if_neg]
      rintro ⟨rfl, -, active⟩
      exact closed active

/-! ### Terms (R298) -/

theorem acRenew_lease {s : State} {h : Nat} (mask : U64) (free : (s.hide h).resetting = false) (n : Nat) :
    ((acRenew h mask s).hide h).lease n = if bit mask.toNat n = true ∧ ((s.hide h).lease n).live = true then
      { (s.hide h).lease n with remain := termTicks (min ((s.hide h).lease n).term (s.termMax h)) } else (s.hide h).lease n := by
  have renewed := renew_get (s.hide h).a.slots (fun n sl => bit mask.toNat n && sl.live)
    (fun sl => { sl with remain := termTicks (min sl.term (s.termMax h)) }) n (Bool.and_false _)
  unfold acRenew
  rw [if_neg (by simp [free]), HideSt.lease, State.hide_upA]
  exact renewed.trans (if_congr (by rw [Bool.and_eq_true]; rfl) rfl rfl)

/-- The state in which the expiry of a slot is in AC_EXPIRED. -/
def State.markExpired (s : State) (h n : Nat) : State := s.upA h (fun a => { a with expired := a.expired ||| BitVec.ofNat 64 (2 ^ n) })

theorem leaseExpiry_of_running {s : State} {h n : Nat}
    (running : ((s.hide h).lease n).live = false ∨ ((s.hide h).lease n).remain ≠ 0) : leaseExpiry h n s = s := by
  unfold leaseExpiry
  dsimp only
  rw [if_pos (by simpa using running)]

theorem leaseExpiry_of_ended {s : State} {h n : Nat} (live : ((s.hide h).lease n).live = true)
    (ended : ((s.hide h).lease n).remain = 0) :
    leaseExpiry h n s = (s.markExpired h n).closeHold h n stLeaseLost (agent 4) false := by
  unfold leaseExpiry
  dsimp only
  rw [if_neg (by simp [live, ended])]
  rfl

theorem expiry_spec (s : State) (h n : Nat) (live : ((s.hide h).lease n).live = true) :
    let t := (s.markExpired h n).closeHold h n stLeaseLost (agent 4) false
    (t.hide h).a.expired = (s.hide h).a.expired ||| BitVec.ofNat 64 (2 ^ n) ∧ ((t.hide h).lease n).st = .closing ∧
    ((t.hide h).lease n).status = stLeaseLost ∧ (((s.hide h).lease n).sharer = true → Apart h s t) ∧
    (((s.hide h).lease n).sharer = false → ∀ p ∈ s.sharers ((s.hide h).lease n).acre, ((t.hide p.1).lease p.2).live = false) := by
  have slots (j : Nat) : ((s.markExpired h n).hide j).a.slots = (s.hide j).a.slots := 
    upA_slots s h (fun a => { a with expired := a.expired ||| BitVec.ofNat 64 (2 ^ n) }) (fun _ => rfl) j
  have slot : ((s.markExpired h n).hide h).lease n = (s.hide h).lease n := lease_eq (slots h) n
  obtain ⟨closed, sharer, owner⟩ := closeHold_spec' (s.markExpired h n) h n stLeaseLost (agent 4) false (by rw [slot, live])
  rw [slot] at sharer owner
  rw [sharers_of_slots slots] at owner
  intro t
  refine ⟨?_, by rw [closed], by rw [closed], fun shares => ?_, owner⟩
  · rw [closeHold_expired, State.markExpired, State.hide_upA]
  · exact (State.upA_apart s h _).trans (sharer shares)

/-! ### Draining and scrubbing (R299 to R301) -/

/-- Is the region of an acre excluded, or its die tripped (R300, R404). -/
def State.acreDead (s : State) (a : Nat) : Bool := (s.region (a / 6)).excluded || s.power.st == .tripped

section
variable {s : State} {h n : Nat} (closing : ((s.hide h).lease n).st = .closing)
include closing

theorem leaseDrain_of_sharer (sharer : ((s.hide h).lease n).sharer = true)
    (served : s.accepted ((s.hide h).lease n).acre (some h) = false) :
    leaseDrain h n s = s.putSlot h n (fun sl => { sl with st := .empty }) := by
  unfold leaseDrain
  dsimp only
  rw [if_neg (not_not_intro closing), if_pos sharer, if_neg (by simp [served])]
  rfl

section
variable (owner : ((s.hide h).lease n).sharer = false) (served : s.accepted ((s.hide h).lease n).acre none = false)
  (alone : s.sharers ((s.hide h).lease n).acre = [])
include owner served alone

theorem leaseDrain_of_dead (dead : s.acreDead ((s.hide h).lease n).acre = true) :
    leaseDrain h n s = (s.putSlot h n (fun sl => { sl with st := .empty, status := stDeviceFault })).upAcre ((s.hide h).lease n).acre
      (fun a => { a with owner := none, free := false, gone := true }) := by
  unfold State.acreDead at dead
  unfold leaseDrain
  dsimp only
  rw [if_neg (not_not_intro closing), if_neg (by simp [owner]), if_neg (by simp [served, alone]), if_pos dead]
  rfl

theorem leaseDrain_of_alive (alive : s.acreDead ((s.hide h).lease n).acre = false)
    (answered : s.recalling ((s.hide h).lease n).acre = false) :
    leaseDrain h n s = s.putSlot h n (fun sl => { sl with st := .scrubbing }) := by
  unfold State.acreDead at alive
  unfold leaseDrain
  dsimp only
  rw [if_neg (not_not_intro closing), if_neg (by simp [owner]), if_neg (by simp [served, alone]),
    if_neg (ne_of_eq_of_ne alive Bool.false_ne_true), if_neg (by simp [answered])]
  rfl

end
end

/-- An acre after a scrub under a root: free, and zero without data or marks (R301). -/
def Acre.scrubbed (x : Acre) (root : BitVec 256) : Acre :=
  { x with owner := none, free := true, zeroUnder := some root, bytes := [], poison := [], marks := [] }

theorem acreScrub_of_scrubbing {s : State} {h n : Nat} (scrubbing : ((s.hide h).lease n).st = .scrubbing) :
    acreScrub h n s = (s.putSlot h n (fun sl => { sl with st := .empty })).upAcre ((s.hide h).lease n).acre
      (·.scrubbed (s.hide h).k.root) := by
  unfold acreScrub
  dsimp only
  rw [if_neg (not_not_intro scrubbing)]
  rfl

/-! ### Poison marks (R304) -/

/-- An acre after a waiting poison mark has been written into its line. -/
def Acre.markWritten (x : Acre) (line : Nat) : Acre :=
  { x with marks := x.marks.filter (· != line), poison := x.poison ++ [line] }

theorem markWritten_poisoned (x : Acre) (line : Nat) : (x.markWritten line).poisoned line = true := by
  simp [Acre.poisoned, Acre.markWritten]

/-- Settles O52: each event by its equation, for the slot and the acre that it names. -/
theorem leasesRunOutDrainAndScrub : Obligations.LeasesRunOutDrainAndScrub := by
  refine ⟨?recalled, ?renewed, ?expired, ?drained, ?marked⟩
  case recalled =>
    intro s h c waiting answered
    have run : exec (.leaseRecallComplete h) s = .next (leaseRecallComplete h s) := rfl
    exact ⟨_, run, only_of_exec run, apart_of_exec rfl run, recallComplete_spec waiting answered⟩
  case renewed =>
    intro s h mask free
    have run : exec (.acRenew h mask) s = .next (acRenew h mask s) := rfl
    exact ⟨_, run, only_of_exec run, apart_of_exec rfl run, acRenew_lease mask free⟩
  case expired =>
    intro s h n sl
    refine ⟨fun running => congrArg Host.Outcome.next (leaseExpiry_of_running running), fun live ended => ?_⟩
    exact ⟨_, congrArg Host.Outcome.next (leaseExpiry_of_ended live ended), expiry_spec s h n live⟩
  case drained =>
    intro s h n sl dead
    refine ⟨fun closing sharer served => ?_, fun closing owner served alone isDead => ?_,
      fun closing owner served alone alive answered => ?_, fun scrubbing => ?_⟩
    · exact ⟨_, congrArg Host.Outcome.next (leaseDrain_of_sharer closing sharer served), putSlot_only s h n _, putSlot_apart s h n _,
        putSlot_self ..⟩
    · exact ⟨_, congrArg Host.Outcome.next (leaseDrain_of_dead closing owner served alone isDead), putSlot_apart s h n _,
        putSlot_self .., State.acre_upAcre ..⟩
    · exact ⟨_, congrArg Host.Outcome.next (leaseDrain_of_alive closing owner served alone alive answered), putSlot_only s h n _,
        putSlot_apart s h n _, putSlot_self ..⟩
    · have run : exec (.acreScrubComplete h n) s = _ := congrArg Host.Outcome.next (acreScrub_of_scrubbing scrubbing)
      exact ⟨_, run, only_of_exec run, apart_of_exec rfl run, putSlot_self .., fun m other => (putSlot_lease ..).trans (if_neg other),
        State.acre_upAcre .., fun b other => State.acre_upAcre_other _ _ other⟩
  case marked =>
    intro s a line waits
    have run : exec (.poisonMarkWrite a line) s = .next (s.upAcre a (·.markWritten line)) := congrArg Host.Outcome.next (if_pos waits)
    refine ⟨_, run, only_of_exec run, ?_⟩
    rw [State.acre_upAcre]
    exact ⟨markWritten_poisoned _ line, rfl, rfl, fun b other => State.acre_upAcre_other s _ other⟩

end Sys2Proof.Machine
end

section
/-!
PROOFS. Requests to acre windows: how they queue, wait, send snoops and are served (R293, R302 to R304).
-/

namespace Sys2Proof.Machine
open Sys2Proof

/-! ### A request joins its owner's queue (R293) -/

theorem LeaseSlot.live_iff (sl : LeaseSlot) : sl.live = true ↔ sl.st = .active ∨ sl.st = .sealed := by
  simp [LeaseSlot.live]

/-- The hide whose queue serves the requests to a slot of a hide: the slot's owner (R293). -/
def LeaseSlot.queueOf (sl : LeaseSlot) (h : Nat) : Nat := if sl.sharer then sl.peer else h

/-- The state in which a request waits last in the queue of a hide. -/
def State.pushRequest (s : State) (o : Nat) (q : AcreReq) : State := s.upA o (fun a => { a with acreQ := a.acreQ ++ [q] })

theorem acreRequest_of_live {s : State} {h n : Nat} {sl : LeaseSlot} (slot : (s.hide h).lease n = sl) (line : Nat) {op : AcreOp}
    (uio : Bool) (live : sl.live = true) (room : (s.hide (sl.queueOf h)).a.acreQ.length < 1024) (reads : op.writes = false) :
    s.acreRequest h n line op uio = s.pushRequest (sl.queueOf h) ⟨h, n, sl.acre, line, op, uio⟩ := by
  subst slot
  unfold State.acreRequest
  dsimp only
  unfold LeaseSlot.queueOf at room ⊢
  rcases (LeaseSlot.live_iff _).1 live with active | sealed
  case inl => rw [active]; dsimp only; rw [if_neg (by simp [reads]), if_neg (by omega)]; rfl
  case inr => rw [sealed]; dsimp only; rw [if_neg (by simp [reads]), if_neg (by omega)]; rfl

theorem memRead_of_window {s : State} {ld : Ld} {off h n line : Nat} {uio : Bool} (served : s.serves ld uio = .hide h)
    (window : (s.hide h).area off = .win n line) (kind : ReadKind) :
    memRead ld off kind uio s = s.acreRequest h n line (.read kind) uio := by
  unfold memRead
  rw [served]
  dsimp only
  rw [window]

/-! ### The head of a queue (R293, R303) -/

/-- The snoops that a request needs before it can be served: none in native mode (R303). -/
def State.needs (s : State) (q : AcreReq) : List (Nat × Nat × Bool) :=
  match s.ownerSlot q.acre with
  | some (_, _, sl) => if sl.compat then q.snoops (s.holders q.acre q.line) else []
  | none => []

/-- The state in which the head of a hide's queue has left it, and `rest` waits. -/
def State.popRequest (s : State) (h : Nat) (rest : List AcreReq) : State := s.upA h (fun a => { a with acreQ := rest })

section
variable {s : State} {h : Nat} {q : AcreReq} {rest : List AcreReq} (head : (s.hide h).a.acreQ = q :: rest)
include head

theorem acreServe_of_waiting (waits : (s.region (q.acre / 6)).maint = true ∨ s.snooping q.acre q.line = true) : acreServe h s = s := by
  unfold acreServe
  rw [head]
  dsimp only
  rw [if_pos (by simpa using waits)]

section
variable (awake : (s.region (q.acre / 6)).maint = false) (answered : s.snooping q.acre q.line = false)
include awake answered

theorem acreServe_of_needs (need : s.needs q ≠ []) :
    acreServe h s = (s.needs q).foldl (fun s p => s.sendSnoop p.1 p.2.1 p.2.2 .request) s := by
  unfold acreServe
  rw [head]
  dsimp only
  rw [if_neg (by simp [awake, answered])]
  exact if_neg (fun nothing => need (List.isEmpty_iff.1 nothing))

theorem acreServe_of_ready (ready : s.needs q = []) : acreServe h s = (s.popRequest h rest).perform q rest.length := by
  unfold acreServe
  rw [head]
  dsimp only
  rw [if_neg (by simp [awake, answered])]
  exact if_pos (List.isEmpty_iff.2 ready)

end
end

/-! ### What serving a request changes -/

theorem acre_of_calm {s t : State} (calm : Calm s t) (a : Nat) : t.acre a = s.acre a := by
  rw [State.acre, calm.2.1, State.acre]

/-- Serving a request leaves every queue as it is, and every acre but the request's. -/
theorem perform_keeps (s : State) (q : AcreReq) (n : Nat) :
    (∀ j, ((s.perform q n).hide j).a.acreQ = (s.hide j).a.acreQ) ∧ ∀ b, b ≠ q.acre → (s.perform q n).acre b = s.acre b := by
  cases op : q.op with
  | read kind =>
    obtain ⟨calmer, -⟩ := perform_read s q n kind op
    exact ⟨calmer.2, fun b _ => acre_of_calm calmer.1 b⟩
  | inv =>
    have calmer := perform_inv s q n op
    exact ⟨calmer.2, fun b _ => acre_of_calm calmer.1 b⟩
  | write data poison wb =>
    obtain ⟨queues, acres, -⟩ := perform_write s q n data poison wb op
    exact ⟨queues, acres⟩

theorem popRequest_queue (s : State) (h : Nat) (rest : List AcreReq) : ((s.popRequest h rest).hide h).a.acreQ = rest := by
  rw [State.popRequest, State.hide_upA]

theorem popRequest_calm (s : State) (h : Nat) (rest : List AcreReq) : Calm s (s.popRequest h rest) := Calm.ofA ..

theorem popRequest_lease (s : State) (h : Nat) (rest : List AcreReq) (j n : Nat) :
    ((s.popRequest h rest).hide j).lease n = (s.hide j).lease n :=
  upA_lease s h (fun a => { a with acreQ := rest }) (fun _ => rfl) j n

/-- Settles O53: the head of a queue by what holds it up, and a request that nothing holds up by `perform`. -/
theorem acreRequestsAreServedInTurn : Obligations.AcreRequestsAreServedInTurn := by
  refine ⟨?joins, ?head⟩
  case joins =>
    intro s ld off h n line kind served window sl o live room
    have run : exec (.cxlMemRead ld off kind) s = .next (s.pushRequest o ⟨h, n, sl.acre, line, .read kind, false⟩) :=
      congrArg Host.Outcome.next ((memRead_of_window served window kind).trans (acreRequest_of_live rfl line false live room rfl))
    obtain ⟨only, apart, hide⟩ := upA_effect s o (fun a => { a with acreQ := a.acreQ ++ [⟨h, n, sl.acre, line, .read kind, false⟩] })
    exact ⟨_, run, only, apart, congrArg (fun x : HideSt => x.a.acreQ) hide⟩
  case head =>
    intro s h q rest head dead need
    refine ⟨fun waits => congrArg Host.Outcome.next (acreServe_of_waiting head waits), fun awake answered needed => ?snoops,
      fun awake answered ready => ?served⟩
    case snoops =>
      obtain ⟨calmer, -, sent⟩ := need_snoops (s.needs q) s
      exact ⟨_, congrArg Host.Outcome.next (acreServe_of_needs head awake answered needed), calmer.1.2.1, calmer.2, sent⟩
    case served =>
      have calm := popRequest_calm s h rest
      obtain ⟨queues, others⟩ := perform_keeps (s.popRequest h rest) q rest.length
      refine ⟨_, congrArg Host.Outcome.next (acreServe_of_ready head awake answered ready), (queues h).trans (popRequest_queue ..),
        fun b other => (others b other).trans (acre_of_calm calm b), fun kind op => ?_, fun data wb op whole native alive clean => ?_⟩
      · obtain ⟨calmer, answer⟩ := perform_read (s.popRequest h rest) q rest.length kind op
        refine ⟨calmer.1.2.1, fun alive clean host => ?_⟩
        rw [← calm.acreLine]
        exact answer alive clean host
      · obtain ⟨-, -, stores⟩ := perform_write (s.popRequest h rest) q rest.length data false wb op
        obtain ⟨line, lines⟩ := stores rfl whole (by rw [popRequest_lease, native]) alive clean
        exact ⟨line, fun l other => (lines l other).trans (calm.acreLine _ l)⟩

end Sys2Proof.Machine
end

section
/-!
PROOFS. Answers to snoops, and snoops that a host does not answer in time (R289, R304).
-/

namespace Sys2Proof.Machine
open Sys2Proof

/-! ### What an answer stores (R289) -/

/-- The state in which the data of an answer has been stored in its acre line, unless that is poisoned (R304). -/
def State.takeLine (s : State) (a line : Nat) (data : Option (List Byte)) : State :=
  match data with
  | some d => if (s.acre a).poisoned line then s else s.writeAcre a line d
  | none => s

/-- The state in which the data of an answer has been stored in its line of interface memory, unless the hide is under reset. -/
def State.takeMemory (s : State) (h off : Nat) (data : Option (List Byte)) : State :=
  match data with
  | some d => if (s.hide h).resetting then s else s.storeLine h off d false (AMap.get 0 (s.hide h).a.opNotice off)
  | none => s

theorem takeLine_of_poisoned {s : State} {a line : Nat} (data : Option (List Byte)) (poisoned : (s.acre a).poisoned line = true) :
    s.takeLine a line data = s := by
  cases data with
  | none => rfl
  | some d => exact if_pos poisoned

theorem takeLine_of_clean {s : State} {a line : Nat} (d : List Byte) (clean : (s.acre a).poisoned line = false) :
    s.takeLine a line (some d) = s.writeAcre a line d :=
  if_neg (ne_of_eq_of_ne clean Bool.false_ne_true)

theorem takeLine_hide (s : State) (a line : Nat) (data : Option (List Byte)) (j : Nat) : (s.takeLine a line data).hide j = s.hide j := by
  unfold State.takeLine
  split
  · split <;> rfl
  · rfl

theorem takeLine_imem (s : State) (a line : Nat) (data : Option (List Byte)) : (s.takeLine a line data).imem = s.imem := by
  unfold State.takeLine
  split
  · split <;> rfl
  · rfl

theorem takeMemory_of_free {s : State} {h off : Nat} (d : List Byte) (free : (s.hide h).resetting = false) :
    s.takeMemory h off (some d) = s.storeLine h off d false (AMap.get 0 (s.hide h).a.opNotice off) :=
  if_neg (ne_of_eq_of_ne free Bool.false_ne_true)

theorem takeMemory_snoops (s : State) (h off : Nat) (data : Option (List Byte)) :
    ((s.takeMemory h off data).hide h).a.snoops = (s.hide h).a.snoops := by
  unfold State.takeMemory
  split
  · split
    · rfl
    · exact storeLine_snoops ..
  · rfl

theorem dropSnoop_hide (s : State) (h : Nat) (p : Snoop) :
    (s.dropSnoop h p).hide h = { s.hide h with a := { (s.hide h).a with snoops := (s.hide h).a.snoops.erase p } } :=
  State.hide_upA ..

section
variable {s : State} {h off : Nat} {p : Snoop} (asked : (s.hide h).a.snoops.find? (fun p => p.off == off) = some p)
include asked

theorem snoop_off : p.off = off := by simpa using List.find?_some asked

/-! ### The branches of an answer (R289, R304) -/

section
variable (linked : s.cxl.width ≠ 0) (trusted : s.cxl.ideMem ≠ .insecure) (data : Option (List Byte))
include linked trusted

theorem snoopResponse_of_memory (line : (s.hide h).memoryAt off) :
    snoopResponse h off data s = (s.dropSnoop h p).takeMemory h off data := by
  rw [response_run h off data s p asked linked trusted]
  unfold State.takeMemory
  rw [dropSnoop_hide]
  rcases line with area | area <;> rw [area] <;> rfl

theorem snoopResponse_of_gap (gap : (s.hide h).area off = .gap) : snoopResponse h off data s = s.dropSnoop h p := by
  rw [response_run h off data s p asked linked trusted, gap]

section
variable {n line : Nat} (window : (s.hide h).area off = .win n line)
include window

theorem snoopResponse_of_ended (ended : p.why = .ended) :
    snoopResponse h off data s = (s.dropSnoop h p).upA h (fun a => { a with roWr := satInc a.roWr }) := by
  rw [response_run h off data s p asked linked trusted, window]
  exact if_pos ended

theorem snoopResponse_of_window (held : p.why ≠ .ended) :
    snoopResponse h off data s = ((s.dropSnoop h p).takeLine ((s.hide h).lease n).acre line data).answered h p := by
  rw [response_run h off data s p asked linked trusted, window]
  exact if_neg held

end

/-- Whatever else an answer does, it takes out the snoop that it answers. -/
theorem snoopResponse_snoops : ((snoopResponse h off data s).hide h).a.snoops = (s.hide h).a.snoops.erase p := by
  have dropped : ((s.dropSnoop h p).hide h).a.snoops = (s.hide h).a.snoops.erase p := by rw [dropSnoop_hide]
  rcases area : (s.hide h).area off with - | - | - | ⟨n, line⟩
  case ring => rw [snoopResponse_of_memory asked linked trusted data (.inl area), takeMemory_snoops, dropped]
  case opnd => rw [snoopResponse_of_memory asked linked trusted data (.inr area), takeMemory_snoops, dropped]
  case gap => rw [snoopResponse_of_gap asked linked trusted data area, dropped]
  case win =>
    by_cases ended : p.why = .ended
    · rw [snoopResponse_of_ended asked linked trusted data area ended, State.hide_upA, dropped]
    · rw [snoopResponse_of_window asked linked trusted data area ended, (answered_acres _ h p).2.2.1, takeLine_hide, dropped]

end
end

/-! ### The hold of an acre line after an answer (R304) -/

theorem answered_of_inv {s : State} {h n line : Nat} {p : Snoop} (window : (s.hide h).area p.off = .win n line) (inv : p.inv = true)
    (asked : p.why ≠ .quota) : s.answered h p = s.untrack h p.off := by
  unfold State.answered
  rw [window]
  dsimp only
  rw [if_neg asked, if_pos (by simp [inv])]

theorem untrack_dir (s : State) (h off : Nat) : ∀ e ∈ ((s.untrack h off).hide h).a.dir, e.off ≠ off := by
  intro e listed
  rw [State.untrack, State.hide_upA] at listed
  simpa using (List.mem_filter.1 listed).2

theorem answered_window {s : State} {h off n line : Nat} {p : Snoop} (a : Nat) (data : Option (List Byte)) (named : p.off = off)
    (window : (s.hide h).area off = .win n line) : let t := ((s.dropSnoop h p).takeLine a line data).answered h p
    t.imem = s.imem ∧
    (∀ d, data = some d → d.length = 64 → (s.acre a).poisoned line = false → t.acreLine a line = d) ∧
    (data = none ∨ (s.acre a).poisoned line = true → t.acres = s.acres) ∧
    (p.inv = true → p.why ≠ .quota → ∀ e ∈ (t.hide h).a.dir, e.off ≠ off) := by
  subst named
  intro t
  obtain ⟨acres, imem, -, calm⟩ := answered_acres ((s.dropSnoop h p).takeLine a line data) h p
  refine ⟨imem.trans (takeLine_imem ..), ?_, ?_, fun inv asked => ?_⟩
  · rintro d rfl whole clean
    rw [calm.acreLine, takeLine_of_clean (s := s.dropSnoop h p) d clean]
    exact (writeAcre_line _ a line d whole).1
  · rintro (rfl | poisoned)
    · exact acres
    · exact acres.trans ((congrArg State.acres (takeLine_of_poisoned (s := s.dropSnoop h p) data poisoned)).trans rfl)
  · have still : (((s.dropSnoop h p).takeLine a line data).hide h).area p.off = .win n line := by
      rw [takeLine_hide, dropSnoop_hide]
      exact window
    rw [show t = _ from answered_of_inv still inv asked]
    exact untrack_dir _ h p.off

/-! ### A snoop that is not answered in time (R289, R304) -/

/-- The state in which CFG_ERR says that a host of the hide has not answered in time. -/
def State.markLate (s : State) (h : Nat) : State := s.upA h (fun a => { a with err := a.err ||| 2 })

/-- The state in which the hold of a slot has ended because the host has not answered (R304). -/
def State.loseHold (s : State) (h n : Nat) : State :=
  ((s.markLate h).closeHold h n stLeaseLost (byHide s h false) false).endHold h n

section
variable {s : State} {h off : Nat} {p : Snoop} (asked : (s.hide h).a.snoops.find? (fun p => p.off == off) = some p)
include asked

theorem snoopTimeout_of_memory (outside : ∀ n line, (s.hide h).area off ≠ .win n line) :
    snoopTimeout h off s = (s.markLate h).dropSnoop h p := by
  unfold snoopTimeout
  dsimp only
  rw [asked]
  dsimp only
  split
  case h_1 n line window => exact absurd window (outside n line)
  case h_2 => rfl

section
variable {n line : Nat} (window : (s.hide h).area off = .win n line)
include window

theorem snoopTimeout_of_ended (ended : p.why = .ended) : snoopTimeout h off s = s.dropSnoop h p := by
  unfold snoopTimeout
  dsimp only
  rw [asked]
  dsimp only
  rw [window]
  exact if_pos ended

theorem snoopTimeout_of_window (held : p.why ≠ .ended) :
    snoopTimeout h off s = s.loseHold h n := by
  unfold snoopTimeout
  dsimp only
  rw [asked]
  dsimp only
  rw [window]
  exact if_neg held

end
end

theorem closeHold_dead (s : State) (h n st : Nat) (o : Origin) (w : Bool) : (((s.closeHold h n st o w).hide h).lease n).live = false := by
  rcases live : ((s.hide h).lease n).live
  case true =>
    rw [(closeHold_spec' s h n st o w live).1]
    rfl
  case false =>
    have same : s.closeHold h n st o w = s := by
      simp [State.closeHold, State.closeSlot, live]
    rw [same, live]

theorem loseHold_spec (s : State) (h n : Nat) : ((s.loseHold h n).hide h).a.err = (s.hide h).a.err ||| 2 ∧
    (((s.loseHold h n).hide h).lease n).live = false ∧ ∀ e ∈ ((s.loseHold h n).hide h).a.dir, inWindow n e.off = false := by
  unfold State.loseHold
  obtain ⟨err, dir⟩ := endHold_spec ((s.markLate h).closeHold h n stLeaseLost (byHide s h false) false) h n
  rw [err, dir, lease_eq (endHold_slots _ h n h)]
  refine ⟨?_, closeHold_dead .., fun e listed => ?_⟩
  · rw [closeHold_err, State.markLate, State.hide_upA]
  · simpa using (List.mem_filter.1 listed).2

/-- Settles O54: an answer or a timeout by the area of its line and, for an acre line, by whether the hold had ended. -/
theorem snoopsAreAnsweredOrEndTheHold : Obligations.SnoopsAreAnsweredOrEndTheHold := by
  refine ⟨?response, ?timeout⟩
  case response =>
    intro s h off data p asked linked trusted
    have run : exec (.biSnoopResponse h off data) s = .next (snoopResponse h off data s) := rfl
    refine ⟨_, run, only_of_exec run, apart_of_exec rfl run, snoopResponse_snoops asked linked trusted data,
      fun n line window => ?window, fun d given whole line free => ?memory⟩
    case window =>
      by_cases ended : p.why = .ended
      · rw [snoopResponse_of_ended asked linked trusted data window ended]
        refine ⟨rfl, fun _ => ⟨rfl, ?_⟩, fun held => absurd ended held⟩
        rw [State.hide_upA, dropSnoop_hide]
      · rw [snoopResponse_of_window asked linked trusted data window ended]
        obtain ⟨imem, stored⟩ := answered_window ((s.hide h).lease n).acre data (snoop_off asked) window
        exact ⟨imem, fun was => absurd was ended, fun _ => stored⟩
    case memory =>
      subst given
      have still : ((s.dropSnoop h p).hide h).resetting = false := by
        rw [dropSnoop_hide]
        exact free
      rw [snoopResponse_of_memory asked linked trusted (some d) line, takeMemory_of_free d still]
      obtain ⟨bytes, acres, -⟩ := storeLine_keeps (s.dropSnoop h p) h off d false
        (AMap.get 0 ((s.dropSnoop h p).hide h).a.opNotice off) whole
      exact ⟨acres, bytes⟩
  case timeout =>
    intro s h off p asked
    have run : exec (.biSnoopTimeout h off) s = .next (snoopTimeout h off s) := rfl
    refine ⟨_, run, only_of_exec run .imem (by simp [touches]), fun outside => ?_, fun n line window ended => ?_,
      fun n line window held => ?_⟩
    · rw [snoopTimeout_of_memory asked outside, dropSnoop_hide, State.markLate, State.hide_upA]
      exact ⟨rfl, rfl⟩
    · rw [snoopTimeout_of_ended asked window ended]
      exact ⟨dropSnoop_hide .., rfl⟩
    · rw [snoopTimeout_of_window asked window held]
      exact loseHold_spec s h n

end Sys2Proof.Machine
end

section
/-!
PROOFS. Training of the league ports and the acceptance of their modules (R309, R310, R318, R319, R328).
-/

namespace Sys2Proof.Machine
open Sys2Proof

/-! ### The steps of an attempt (R309) -/

section
variable {s : State} {p : Nat} (training : (s.port p).st = .training) (going : (s.port p).waiting = false)
include training going

theorem trainingComplete_of_early {lanes : BitVec 4} (early : (s.port p).step = 1 ∨ (s.port p).step = 2) (found : lanes ≠ 0) :
    trainingComplete p lanes s = s.upPort p (fun q => { q with step := (s.port p).step + 1, lanes := lanes }) := by
  unfold trainingComplete
  dsimp only
  rw [if_neg (by simp [training, going])]
  rcases early with step | step <;> rw [step] <;> exact if_neg found

theorem trainingComplete_of_aligned {lanes : BitVec 4} (step : (s.port p).step = 3)
    (usable : laneMask (s.port p).maxWidth lanes.toNat ≠ 0) :
    trainingComplete p lanes s =
      (s.upPort p (fun q => { q with step := 4, lanes := BitVec.ofNat 4 (laneMask (s.port p).maxWidth lanes.toNat) })).enqueue
        p 16 true ⟨64, .cmd 0 .identify 0 0 0 .ident⟩ := by
  unfold trainingComplete
  dsimp only
  rw [if_neg (by simp [training, going]), step]
  exact if_neg usable

theorem trainingComplete_of_exchanged (lanes : BitVec 4) {m : ModuleId} (step : (s.port p).step = 4)
    (offered : (s.port p).offered = some m) (answered : ∀ c ∈ (s.port p).cmds, c.why ≠ .ident) :
    trainingComplete p lanes s = s.meetModule p m := by
  unfold trainingComplete
  dsimp only
  rw [if_neg (by simp [training, going]), step, offered]
  exact if_neg (by simpa using answered)

end

/-! ### A module that is refused (R310) -/

theorem meetModule_of_unacceptable {s : State} {p : Nat} {m : ModuleId} (unfit : s.acceptable p m = false) :
    ((s.meetModule p m).port p).st = .refused ∧ ((s.meetModule p m).port p).module = none ∧ ((s.meetModule p m).port p).width = 0 := by
  unfold State.meetModule
  dsimp only
  rw [if_pos (by simp [unfit]), leagueRecord_port]
  have out := pc_portOut (s.upPort p (fun q => { q with err := q.err ||| 2 })) p .refused
  exact ⟨link_st out, link_module out, link_width out⟩

/-! ### Failed attempts (R309, R319) -/

/-- The state in which a training attempt has failed and the port waits for the next one. -/
def State.failAttempt (s : State) (p : Nat) : State :=
  ((s.train p (s.port p).step).upPort p (fun q => { q with attempts := q.attempts + 1, waiting := true })).leagueRecord p 1

theorem failAttempt_port (s : State) (p : Nat) : ((s.failAttempt p).port p).st = .training ∧
    ((s.failAttempt p).port p).waiting = true ∧ ((s.failAttempt p).port p).attempts = (s.port p).attempts + 1 := by
  unfold State.failAttempt
  rw [leagueRecord_port, State.port_upPort, train_port]
  exact ⟨rfl, rfl, rfl⟩

theorem portDown_of_training {s : State} {p : Nat} (training : (s.port p).st = .training) : ((s.portDown p).port p).st = .down := by
  unfold State.portDown
  rw [if_neg (by simp [training])]
  exact link_st (pc_portOut s p .down)

section
variable {s : State} {p : Nat} (training : (s.port p).st = .training) (going : (s.port p).waiting = false)
include training going

theorem trainingTimeout_of_going : trainingTimeout p s =
    if (s.port p).attempts + 1 < 5 then s.failAttempt p
    else ((s.failAttempt p).upPort p (fun q => { q with err := q.err ||| 1 })).portDown p := by
  unfold trainingTimeout
  dsimp only
  rw [if_neg (by simp [training, going])]
  rfl

theorem trainingTimeout_of_last (last : 5 ≤ (s.port p).attempts + 1) : ((trainingTimeout p s).port p).st = .down := by
  rw [trainingTimeout_of_going training going, if_neg (Nat.not_lt.2 last)]
  refine portDown_of_training ?_
  rw [State.port_upPort]
  exact (failAttempt_port s p).1

end

theorem trainingRetry_of_waiting {s : State} {p : Nat} (training : (s.port p).st = .training) (waits : (s.port p).waiting = true) :
    trainingRetry p s = s.train p 1 :=
  if_pos (by simp [training, waits])

/-! ### Faults of the link (R318, R319) -/

theorem linked_up {q : PortSt} (linked : q.linked = true) : q.st = .active ∨ q.st = .training := by
  simp only [PortSt.linked, Bool.or_eq_true, Bool.and_eq_true, beq_iff_eq] at linked
  exact linked.imp_right fun exchange => exchange.1.1

theorem leagueIdle_of_linked {s : State} {p : Nat} (linked : (s.port p).linked = true) : leagueIdle p s = s.retrain p :=
  if_pos linked

theorem laneFault_of_inUse {s : State} {p lane : Nat} (up : (s.port p).st = .active ∨ (s.port p).st = .training)
    (used : (s.port p).lanes.getLsbD lane = true) :
    laneFault p lane s = (s.upPort p (fun q => { q with lanes := q.lanes &&& ~~~(BitVec.ofNat 4 (2 ^ lane)) })).retrain p := by
  unfold laneFault
  exact if_pos (by simpa [used] using up)

theorem symbolWindow_of_fault {s : State} {p errors : Nat} (lane : Nat) (ratio : 2 ^ 20 * 544 < errors * (s.port p).width * 5000) :
    symbolWindow p lane errors s = laneFault p lane s :=
  if_pos ratio

theorem symbolWindow_of_tolerated {s : State} {p errors : Nat} (lane : Nat) (ratio : errors * (s.port p).width * 5000 ≤ 2 ^ 20 * 544) :
    symbolWindow p lane errors s = s :=
  if_neg (Nat.not_lt.2 ratio)

/-- Settles O55: what a port does at the end of a step, at a timeout, at its retry and at a fault, by the state it is in. -/
theorem leaguePortsTrainAndAcceptModules : Obligations.LeaguePortsTrainAndAcceptModules := by
  refine ⟨?early, ?align, ?exchange, ?timeout, ?retry, ?fault, ?tolerated⟩
  case early =>
    intro s p lanes q training going early found
    refine ⟨_, congrArg Host.Outcome.next (trainingComplete_of_early training going early found), (State.upPort_kept ..).same,
      State.port_upPort .., fun g other => State.port_upPort_other _ _ other⟩
  case align =>
    intro s p lanes q m training going step usable
    refine ⟨_, congrArg Host.Outcome.next (trainingComplete_of_aligned training going step usable), ?_, ?_, enq_first ..⟩
    · exact ((State.enqueue_kept ..).andThen (by decide) ((State.upPort_kept ..).mono (by decide))).same
    · rw [State.enqueue_port, State.port_upPort]
  case exchange =>
    intro s p lanes m q training going step offered answered
    exact ⟨_, congrArg Host.Outcome.next (trainingComplete_of_exchanged training going lanes step offered answered),
      meet_ok s p m, meetModule_of_unacceptable⟩
  case timeout =>
    intro s p q training going
    refine ⟨_, rfl, fun again => ?_, trainingTimeout_of_last training going⟩
    rw [trainingTimeout_of_going training going, if_pos again]
    exact failAttempt_port s p
  case retry =>
    intro s p training waits
    refine ⟨_, congrArg Host.Outcome.next (trainingRetry_of_waiting training waits), (State.train_kept ..).same, ?_⟩
    rw [train_port]
    exact ⟨rfl, rfl, rfl, rfl, rfl⟩
  case fault =>
    intro s p c lane errors q cause
    rcases cause with ⟨fault, up, used⟩ | ⟨rfl, linked⟩
    · have run : exec c s = .next (laneFault p lane s) := by
        rcases fault with rfl | ⟨rfl, ratio⟩
        · rfl
        · exact congrArg Host.Outcome.next (symbolWindow_of_fault lane ratio)
      have still := State.port_upPort s p (fun q => { q with lanes := q.lanes &&& ~~~(BitVec.ofNat 4 (2 ^ lane.val)) })
      obtain ⟨port, others⟩ := retrain_port (s.upPort p _) p (by rw [still]; exact up)
      refine ⟨_, run, (laneFault_kept ..).same, ?_⟩
      rw [laneFault_of_inUse up used, port, still]
      exact ⟨rfl, rfl, rfl, rfl, fun g other => (others g other).trans (State.port_upPort_other _ _ other), fun _ => rfl⟩
    · obtain ⟨port, others⟩ := retrain_port s p (linked_up linked)
      refine ⟨_, congrArg Host.Outcome.next (leagueIdle_of_linked linked), (State.retrain_kept ..).same, ?_⟩
      rw [port]
      exact ⟨rfl, rfl, rfl, rfl, others, fun other => absurd rfl other⟩
  case tolerated =>
    intro s p lane errors ratio
    exact congrArg Host.Outcome.next (symbolWindow_of_tolerated lane ratio)

end Sys2Proof.Machine
end

section
/-!
PROOFS. Frames of the league links: their check, their answers, and what is sent again or fails when no answer comes (R312 to R314,
R317, R318, R325).
-/

namespace Sys2Proof.Machine
open Sys2Proof

/-! ### A frame that passes its check grants a credit for its buffer (R312, R314) -/

/-- The state in which a RSP frame has passed its check. -/
def State.rspIn (s : State) (p : Nat) : State :=
  (s.upPort p (fun q => { q with rxSeq := (q.rxSeq + 1) % 4096, nakSent := false })).upPort p (fun q => { q with crRsp := q.crRsp + 1 })

/-- The state in which an RDATA frame has passed its check. -/
def State.rdataIn (s : State) (p : Nat) : State :=
  (s.upPort p (fun q => { q with rxSeq := (q.rxSeq + 1) % 4096, nakSent := false })).upPort p (fun q => { q with crRdata := q.crRdata + 1 })

@[simp] theorem rspIn_port (s : State) (p : Nat) : (s.rspIn p).port p = { s.port p with
    rxSeq := ((s.port p).rxSeq + 1) % 4096, nakSent := false, crRsp := (s.port p).crRsp + 1 } := by
  rw [State.rspIn, State.port_upPort, State.port_upPort]

@[simp] theorem rdataIn_port (s : State) (p : Nat) : (s.rdataIn p).port p = { s.port p with
    rxSeq := ((s.port p).rxSeq + 1) % 4096, nakSent := false, crRdata := (s.port p).crRdata + 1 } := by
  rw [State.rdataIn, State.port_upPort, State.port_upPort]

/-! ### What a frame that arrives comes to (R312, R317, R318) -/

section
variable {s : State} {p : Nat} {k : FrameCheck} (linked : (s.port p).linked = true)
include linked

section
variable {t : State} (bad : s.linkCheck p k = (t, false))
include bad

theorem leagueRsp_of_bad (tag status : Nat) : leagueRsp p k tag status s = t := by
  unfold leagueRsp
  rw [if_neg (by simp [linked]), bad]
  rfl

theorem leagueRdata_of_bad (tag i : Nat) (d : RData) : leagueRdata p k tag i d s = t := by
  unfold leagueRdata
  rw [if_neg (by simp [linked]), bad]
  rfl

end

section
variable (crc : k.crcOk = true) (header : k.wellFormed = true) (expected : k.seq = (s.port p).rxSeq) {tag : Nat}
include crc header expected

theorem leagueRsp_of_stray (status : Nat) (stray : (s.port p).cmds.find? (fun c => c.tag == tag && c.rsp.isNone) = none) :
    leagueRsp p k tag status s = (s.rspIn p).discard p := by
  unfold leagueRsp
  rw [if_neg (by simp [linked]), check_good s p k crc header expected]
  dsimp only
  rw [if_neg (by simp), ← State.rspIn, rspIn_port, stray]

theorem leagueRsp_of_named (status : Nat) {c : Cmd}
    (named : (s.port p).cmds.find? (fun c => c.tag == tag && c.rsp.isNone) = some c) :
    leagueRsp p k tag status s = (s.rspIn p).upCmd p { c with rsp := some status } := by
  unfold leagueRsp
  rw [if_neg (by simp [linked]), check_good s p k crc header expected]
  dsimp only
  rw [if_neg (by simp), ← State.rspIn, rspIn_port, named]


theorem leagueRdata_of_stray (i : Nat) (d : RData) (stray : (s.port p).cmds.find? (fun c => c.tag == tag) = none) :
    leagueRdata p k tag i d s = (s.rdataIn p).discard p := by
  unfold leagueRdata
  rw [if_neg (by simp [linked]), check_good s p k crc header expected]
  dsimp only
  rw [if_neg (by simp), ← State.rdataIn, rdataIn_port, stray]

theorem leagueRdata_of_sector {i : Nat} (y : Sector) {c : Cmd} (named : (s.port p).cmds.find? (fun c => c.tag == tag) = some c)
    (read : c.op = .read) (fresh : c.got.contains i = false) (within : i < c.count) :
    leagueRdata p k tag i (.sector y) s = (s.rdataIn p).takeSector p c i (.sector y) := by
  unfold leagueRdata
  rw [if_neg (by simp [linked]), check_good s p k crc header expected]
  dsimp only
  rw [if_neg (by simp), ← State.rdataIn, rdataIn_port, named]
  dsimp only
  rw [if_neg (by simp only [fresh, Bool.false_eq_true, not_false_iff]), read]
  exact if_pos within

/-- Whatever an RDATA frame holds, it advances the expected SEQ and grants a credit. -/
theorem leagueRdata_counts (tag i : Nat) (d : RData) : ((leagueRdata p k tag i d s).port p).rxSeq = ((s.port p).rxSeq + 1) % 4096 ∧
    ((leagueRdata p k tag i d s).port p).crRdata = (s.port p).crRdata + 1 := by
  have taken := rdata_link (α := Nat) (s.rdataIn p) p (s.port p) d tag i (rdataIn_port s p)
  unfold leagueRdata
  rw [if_neg (by simp [linked]), check_good s p k crc header expected]
  dsimp only
  rw [if_neg (by simp), ← State.rdataIn, rdataIn_port]
  exact ⟨taken PortSt.rxSeq (fun _ => rfl) (fun _ _ => linkCmds_rx) (fun _ _ => rfl) (fun _ => rfl),
    taken PortSt.crRdata (fun _ => rfl) (fun _ _ => linkCmds_crRdata) (fun _ _ => rfl) (fun _ => rfl)⟩

end
end

/-! ### What a RSP or a sector does to its command (R317, R323) -/

theorem tag_of_named {l : List Cmd} {tag : Nat} {c : Cmd} (named : l.find? (fun c => c.tag == tag) = some c) : c.tag = tag := by
  simpa using List.find?_some named

theorem discard_port (s : State) (p : Nat) : (s.discard p).port p = { s.port p with discard := satInc (s.port p).discard } :=
  State.port_upPort ..

theorem upCmd_of_incomplete {c : Cmd} (waits : c.complete = false) (s : State) (p : Nat) :
    s.upCmd p c = s.upPort p (fun q => { q with cmds := q.cmds.map (fun d => if d.tag == c.tag then c else d) }) :=
  (upCmd_port s p c).2 waits

theorem upCmd_of_complete {c : Cmd} (done : c.complete = true) (s : State) (p : Nat) :
    ∀ d ∈ ((s.upCmd p c).port p).cmds, d.tag ≠ c.tag := by
  rw [linkCmds_cmds ((upCmd_port s p c).1 done)]
  intro d left
  simpa using (List.mem_filter.1 left).2

/-- A change of a command leaves what its port expects and what it has granted. -/
theorem upCmd_counts (s : State) (p : Nat) (c : Cmd) : ((s.upCmd p c).port p).rxSeq = (s.port p).rxSeq ∧
    ((s.upCmd p c).port p).crRsp = (s.port p).crRsp := by
  rcases ends : c.complete
  case false =>
    rw [upCmd_of_incomplete ends, State.port_upPort]
    exact ⟨rfl, rfl⟩
  case true =>
    have port := (upCmd_port s p c).1 ends
    exact ⟨(linkCmds_rx port).trans rfl, (linkCmds_crRsp port).trans rfl⟩

theorem incomplete_of_unanswered {c : Cmd} (unanswered : c.rsp = none) : c.complete = false := by
  simp [Cmd.complete, unanswered]

section
variable {s : State} {p : Nat} {c : Cmd} {h j first i : Nat} {y : Sector} {b : Job} (why : c.why = .job h j first)
  (job : AMap.find (s.hide h).o.jobs j = some b)
include why job

theorem takeSector_of_good (good : b.checks h (first + i) y = true) : s.takeSector p c i (.sector y) =
    (s.upO h (fun o => { o with jobs := o.jobs.set j { b with data := b.data.set (first + i) y.plain } })).upCmd
      p { c with got := i :: c.got } := by
  unfold State.takeSector
  dsimp only
  rw [why]
  dsimp only
  rw [job]
  exact if_pos good

theorem takeSector_of_bad (bad : b.checks h (first + i) y = false) : s.takeSector p c i (.sector y) =
    s.upCmd p { c with got := i :: c.got, checkFailed := true } := by
  unfold State.takeSector
  dsimp only
  rw [why]
  dsimp only
  rw [job]
  exact if_neg (by simp [bad])

end

/-! ### CTRL frames that arrive (R312 to R314, R318) -/

/-- An acknowledgement changes the replay buffer and its count alone. -/
theorem ack_eq (q : PortSt) (a : Nat) : ∃ l n, q.ack a = { q with unacked := l, replays := n } := by
  unfold PortSt.ack
  split
  · exact ⟨_, _, rfl⟩
  · exact ⟨q.unacked, q.replays, rfl⟩

section
variable {s : State} {p : Nat} (linked : (s.port p).linked = true)
include linked

theorem leagueCtrl_of_bad (c : Ctrl) : leagueCtrl p false c s = s.upPort p (fun q => { q with crcErr := satInc q.crcErr }) := by
  unfold leagueCtrl
  rw [if_neg (by simp [linked])]
  rfl

theorem leagueCtrl_of_credits {c : Ctrl} {a b : Nat} (commands : credit (s.port p).crCmd c.crCmd = some a)
    (data : credit (s.port p).crWdata c.crWdata = some b) (noNak : c.nak = none) :
    leagueCtrl p true c s = (s.upPort p (fun q => q.ack c.ack)).upPort p (fun q => { q with crCmd := a, crWdata := b }) := by
  unfold leagueCtrl
  rw [if_neg (by simp [linked]), if_neg (by simp)]
  dsimp only
  obtain ⟨l, n, acked⟩ := ack_eq (s.port p) c.ack
  rw [State.port_upPort, acked]
  dsimp only
  rw [commands, data, noNak]

theorem leagueCtrl_of_decrease {c : Ctrl}
    (less : credit (s.port p).crCmd c.crCmd = none ∨ credit (s.port p).crWdata c.crWdata = none) :
    leagueCtrl p true c s = (s.upPort p (fun q => q.ack c.ack)).retrain p := by
  unfold leagueCtrl
  rw [if_neg (by simp [linked]), if_neg (by simp)]
  dsimp only
  obtain ⟨l, n, acked⟩ := ack_eq (s.port p) c.ack
  rw [State.port_upPort, acked]
  dsimp only
  rcases less with none | none <;> rw [none]
  cases credit (s.port p).crCmd c.crCmd <;> rfl

theorem leagueCtrlSend_of_linked : leagueCtrlSend p s = s.sendCtrl p := if_pos linked

end

/-! ### Frames that are overdue (R312) -/

/-- The state in which every unacknowledged frame has been sent again. -/
def State.resend (s : State) (p : Nat) : State :=
  State.upPort { s with gates := { s.gates with sent := s.gates.sent ++ (s.port p).unacked.map (fun f => (p, 16, f.2)) } } p
    (fun q => { q with replay := satInc q.replay, replays := q.replays + 1 })

theorem resend_port (s : State) (p : Nat) : (s.resend p).port p =
    { s.port p with replay := satInc (s.port p).replay, replays := (s.port p).replays + 1 } :=
  State.port_upPort ..

section
variable {s : State} {p : Nat} (linked : (s.port p).linked = true)
include linked

theorem leagueReplayTimeout_of_acked (acked : (s.port p).unacked = []) : leagueReplayTimeout p s = s := by
  unfold leagueReplayTimeout
  rw [if_pos linked]
  exact if_pos (by simp [acked])

theorem leagueReplayTimeout_of_unacked (unacked : (s.port p).unacked ≠ []) : leagueReplayTimeout p s =
    if 16 ≤ (s.port p).replays + 1 then (s.resend p).retrain p else s.resend p := by
  unfold leagueReplayTimeout
  rw [if_pos linked]
  unfold State.replay
  exact if_neg (by simpa using unacked)

end

/-! ### Commands that are overdue (R317) -/

theorem leagueTimeout_of_outstanding {s : State} {p tag : Nat} {c : Cmd}
    (named : (s.port p).cmds.find? (fun c => c.tag == tag) = some c) :
    leagueTimeout p tag s =
      (s.upPort p (fun q => { q with timeout := satInc q.timeout, retired := q.retired ++ [tag] })).endCmd p c stTimeout := by
  unfold leagueTimeout
  rw [named]

/-- Settles O56: each event by what the frame holds, or by what is overdue. -/
theorem leagueFramesAreCheckedAndCounted : Obligations.LeagueFramesAreCheckedAndCounted := by
  refine ⟨?bad, ?rsp, ?rdata, ?ctrl, ?overdue, ?timeout⟩
  case bad =>
    intro s p k tag a b d c q frame linked fails
    obtain ⟨t, check, only, port, sent⟩ := check_bad s p k fails
    refine ⟨t, ?_, only, port, sent⟩
    rcases frame with rfl | rfl
    · exact congrArg Host.Outcome.next (leagueRsp_of_bad linked check tag a)
    · exact congrArg Host.Outcome.next (leagueRdata_of_bad linked check tag a d)
  case rsp =>
    intro s p k tag status failed q linked crc header expected
    rcases named : q.cmds.find? (fun c => c.tag == tag && c.rsp.isNone) with - | c
    · refine ⟨_, congrArg Host.Outcome.next (leagueRsp_of_stray linked crc header expected status named), ?_⟩
      rw [discard_port, rspIn_port]
      exact ⟨rfl, rfl, fun _ => ⟨rfl, rfl⟩, fun c found => absurd (named.symm.trans found) (by simp)⟩
    · obtain ⟨rxSeq, credits⟩ := upCmd_counts (s.rspIn p) p { c with rsp := some status }
      rw [rspIn_port] at rxSeq credits
      refine ⟨_, congrArg Host.Outcome.next (leagueRsp_of_named linked crc header expected status named), rxSeq, credits,
        fun stray => absurd (named.symm.trans stray) (by simp), fun d found => ?_⟩
      cases named.symm.trans found
      have tagged : c.tag = tag := by
        have found := List.find?_some named
        rw [Bool.and_eq_true] at found
        exact beq_iff_eq.1 found.1
      subst tagged
      refine ⟨fun done => upCmd_of_complete done (s.rspIn p) p, fun waits => ?_⟩
      rw [upCmd_of_incomplete waits, State.port_upPort, rspIn_port]
  case rdata =>
    intro s p k tag i d q linked crc header expected
    obtain ⟨rxSeq, credits⟩ := leagueRdata_counts linked crc header expected tag i d
    refine ⟨_, rfl, rxSeq, credits, fun stray => ?_, ?_⟩
    · rw [leagueRdata_of_stray linked crc header expected i d stray, discard_port, rdataIn_port]
      exact ⟨rfl, rfl⟩
    · rintro c h j first y named read fresh within unanswered why rfl b job
      obtain rfl := tag_of_named named
      rw [leagueRdata_of_sector linked crc header expected y named read fresh within]
      refine ⟨fun good => ?_, fun bad => ?_⟩
      · rw [takeSector_of_good (s := s.rdataIn p) why job good, upCmd_of_incomplete (c := { c with got := i :: c.got })
          (incomplete_of_unanswered unanswered), State.upPort_hide, State.hide_upO, State.port_upPort, State.upO_port, rdataIn_port]
        exact ⟨rfl, rfl⟩
      · rw [takeSector_of_bad (s := s.rdataIn p) why job bad, upCmd_of_incomplete
          (c := { c with got := i :: c.got, checkFailed := true }) (incomplete_of_unanswered unanswered), State.port_upPort, rdataIn_port]
        exact ⟨rfl, rfl⟩
  case ctrl =>
    intro s p c q linked
    refine ⟨?_, fun a b commands data noNak => ?_, fun less => ?_⟩
    · exact ⟨_, congrArg Host.Outcome.next (leagueCtrl_of_bad linked c), (State.upPort_kept ..).same, State.port_upPort ..⟩
    · refine ⟨_, congrArg Host.Outcome.next (leagueCtrl_of_credits linked commands data noNak),
        ((State.upPort_kept ..).trans (State.upPort_kept ..)).same, ?_⟩
      rw [State.port_upPort, State.port_upPort]
    · refine ⟨_, congrArg Host.Outcome.next (leagueCtrl_of_decrease linked less), ?_⟩
      obtain ⟨l, n, acked⟩ := ack_eq q c.ack
      have still : (s.upPort p (fun q => q.ack c.ack)).port p = { q with unacked := l, replays := n } :=
        (State.port_upPort ..).trans acked
      rw [(retrain_port _ p (by rw [still]; exact linked_up linked)).1, still]
      exact ⟨rfl, rfl, rfl⟩
  case overdue =>
    intro s p q linked
    refine ⟨⟨_, congrArg Host.Outcome.next (leagueCtrlSend_of_linked linked), (State.sendCtrl_kept ..).same, rfl⟩,
      fun acked => congrArg Host.Outcome.next (leagueReplayTimeout_of_acked linked acked), fun unacked => ?_⟩
    refine ⟨_, congrArg Host.Outcome.next (leagueReplayTimeout_of_unacked linked unacked), ?_⟩
    by_cases last : 16 ≤ q.replays + 1
    · rw [if_pos last, retrain_sent, (retrain_port _ p (by rw [resend_port]; exact linked_up linked)).1, resend_port]
      exact ⟨rfl, rfl, fun again => absurd last (Nat.not_le.2 again), fun _ => ⟨rfl, rfl, rfl⟩⟩
    · rw [if_neg last, resend_port]
      exact ⟨rfl, rfl, fun _ => ⟨rfl, rfl⟩, fun reached => absurd reached last⟩
  case timeout =>
    intro s p tag c q named
    obtain rfl := tag_of_named named
    refine ⟨_, congrArg Host.Outcome.next (leagueTimeout_of_outstanding named), ?_⟩
    have port := endCmd_port (s.upPort p (fun q => { q with timeout := satInc q.timeout, retired := q.retired ++ [c.tag] })) p c stTimeout
    rw [State.port_upPort] at port
    exact ⟨linkCmds_timeout port, linkCmds_retired port, linkCmds_cmds port⟩

end Sys2Proof.Machine
end

section
/-!
PROOFS. The gate furlong (R331) and the refill of the policer buckets at a gate chain boundary (R337, R339).
-/

namespace Sys2Proof.Machine
open Sys2Proof

theorem State.mem_present {s : State} {h : Nat} : h ∈ s.present ↔ h < 16 ∧ (s.hide h).lay.isSome = true := by
  rw [State.present, List.mem_filter, List.mem_range]

theorem State.present_nodup (s : State) : s.present.Nodup := List.nodup_range.filter _

/-- A hide after a refill: a hide without a section has no buckets. -/
def HideSt.refilled (x : HideSt) : HideSt :=
  match x.sec with
  | some k => { x with q := x.q.refill k }
  | none => x

theorem HideSt.refilled_of_section {x : HideSt} {k : Section} (loaded : x.sec = some k) :
    x.refilled = { x with q := x.q.refill k } := by
  rw [HideSt.refilled, loaded]

theorem HideSt.refilled_of_noSection {x : HideSt} (empty : x.sec = none) : x.refilled = x := by
  rw [HideSt.refilled, empty]

/-- A refill changes the queue engine only, which holds the buckets. -/
theorem HideSt.refilled_frame (x : HideSt) : { x.refilled with q := x.q } = x := by
  cases loaded : x.sec with
  | none => rw [HideSt.refilled_of_noSection loaded]
  | some k => rw [HideSt.refilled_of_section loaded]

/-- The refill of one hide of LAYOUT, as `policerRefill` does it for each in turn. -/
def State.refillHide (s : State) (h : Nat) : State :=
  match (s.hide h).sec with
  | some k => s.upQ h (fun q => q.refill k)
  | none => s

theorem State.hide_refillHide (s : State) (h : Nat) : (s.refillHide h).hide h = (s.hide h).refilled := by
  unfold State.refillHide
  cases loaded : (s.hide h).sec with
  | none => exact (HideSt.refilled_of_noSection loaded).symm
  | some k => rw [HideSt.refilled_of_section loaded]; exact State.hide_upQ ..

theorem State.hide_refillHide_other (s : State) (h j : Nat) (other : j ≠ h) : (s.refillHide h).hide j = s.hide j := by
  unfold State.refillHide
  split
  · exact State.hide_upQ_other _ _ other
  · rfl

theorem policerRefill_of_ream {s : State} (active : s.reamActive = true) :
    policerRefill s = forAll s s.present State.refillHide := by
  unfold policerRefill
  rw [active]
  rfl

/-- Under a ream each hide of LAYOUT is refilled once, and no other hide changes. -/
theorem policerRefill_hide {s : State} (active : s.reamActive = true) (h : Nat) :
    (policerRefill s).hide h = if h ∈ s.present then (s.hide h).refilled else s.hide h := by
  rw [policerRefill_of_ream active]
  exact fold_hide s.present s.present_nodup State.refillHide HideSt.refilled State.hide_refillHide State.hide_refillHide_other s h

/-- Settles O16: the gates take the plan's furlong by definition, and each hide is refilled if it stands in LAYOUT. -/
theorem gatesAndPolicersKeepTime : Obligations.GatesAndPolicersKeepTime := by
  refine ⟨fun _ => rfl, fun s active => ⟨policerRefill s, rfl, fun h inRange => ?_⟩⟩
  rw [policerRefill_hide active]
  refine ⟨fun k present loaded => ?_, ?_, ?_⟩
  · rw [if_pos (State.mem_present.2 ⟨inRange, present⟩), HideSt.refilled_of_section loaded]
    exact ⟨rfl, rfl, rfl, rfl⟩
  · split
    · exact (s.hide h).refilled_frame
    · rfl
  · rintro (absent | empty)
    · exact if_neg fun listed => by simpa [absent] using (State.mem_present.1 listed).2
    · rw [HideSt.refilled_of_noSection empty, ite_self]

end Sys2Proof.Machine
end

section
/-!
PROOFS. What every step keeps: the machine sound, and the black box append-only (R287, R361, R362, R366, R383).
-/

namespace Sys2Proof.Machine
open Sys2Proof

/-- Taking the front command off the queue touches nothing that the invariant speaks of. -/
theorem State.Inv.withPending {s : State} (inv : s.Inv) (rest : List Instr) : State.Inv { s with pending := rest } :=
  ⟨inv.memory, inv.box, inv.dex⟩

theorem step_keeps_inv {s t : State} (inv : s.Inv) (run : step s = .next t) : t.Inv := by
  rcases stepKept s t run with ⟨-, rfl⟩ | ⟨c, rest, -, kept⟩
  · exact inv
  · exact kept.inv (inv.withPending rest)

/-- A step adds no command to the queue. -/
theorem mem_pending_of_step {s t : State} (run : step s = .next t) {c : Instr} (waits : c ∈ t.pending) : c ∈ s.pending := by
  rcases stepKept s t run with ⟨-, rfl⟩ | ⟨d, rest, front, kept⟩
  · exact waits
  · have queue : t.pending = rest := kept.pending
    rw [front]
    exact List.mem_cons_of_mem d (queue ▸ waits)

/-- Settles O3: every command keeps the invariant (`Kept`), and the commands that wait after a step waited before it. -/
theorem everyStepKeepsTheMachineSound : Obligations.EveryStepKeepsTheMachineSound := by
  intro s t ⟨inv, wellFormed⟩ run
  exact ⟨step_keeps_inv inv run, fun c waits => wellFormed c (mem_pending_of_step run waits)⟩

/-- The next record number does not fall over a step, and a record with an old number is an old record (R361). -/
theorem step_box {s t : State} (run : step s = .next t) :
    s.box.next ≤ t.box.next ∧ ∀ r ∈ t.box.recs, r.seq < s.box.next → r ∈ s.box.recs := by
  rcases stepKept s t run with ⟨-, rfl⟩ | ⟨c, rest, -, kept⟩
  · exact ⟨le_rfl, fun _ old _ => old⟩
  · exact ⟨kept.seq, kept.records⟩

/-- Settles O6: no command alters a record or takes a number back (`Kept`), and the order of the box is part of the invariant. -/
theorem recordsAreNeverAlteredAndNumbersRise : Obligations.RecordsAreNeverAlteredAndNumbersRise := by
  intro s t run
  obtain ⟨rises, unaltered⟩ := step_box run
  refine ⟨rises, unaltered, fun inv => ?_⟩
  have ordered := (step_keeps_inv inv run).box
  exact ⟨ordered.rising, ordered.below⟩

end Sys2Proof.Machine
end

section
/-!
PROOFS. Units and shared resources that fail (R353): what that changes of a cluster, and the parts it leaves alone.
-/

namespace Sys2Proof.Machine
open Sys2Proof

theorem Kept.screen {T : List Part} {s t : State} (kept : Kept T s t) (h : Part.screen ∉ T) : t.screen = s.screen :=
  kept.same .screen h

/-- A cluster that no entry lists reads by the plan's activations, so the plan has to stay too. -/
theorem Kept.cluster {T : List Part} {s t : State} (kept : Kept T s t) (h : Part.clusters ∉ T) (h' : Part.plan ∉ T) (c : Nat) :
    t.cluster c = s.cluster c := by
  have clusters : t.clusters = s.clusters := kept.same .clusters h
  have plan : t.plan = s.plan := kept.same .plan h'
  rw [State.cluster, State.cluster, clusters, plan]

@[simp] theorem State.failUnit_screen (s : State) (c phys : Nat) : (s.failUnit c phys).screen = s.screen :=
  (s.failUnit_kept c phys).screen (by decide)

@[simp] theorem State.failShared_screen (s : State) (c : Nat) : (s.failShared c).screen = s.screen :=
  (s.failShared_kept c).screen (by decide)

theorem State.mem_failed_failUnit (s : State) (c phys : Nat) : phys ∈ ((s.failUnit c phys).cluster c).failed := by
  unfold State.failUnit
  dsimp only
  split
  case isTrue already => simpa using already
  case isFalse => split <;> simp

@[simp] theorem State.failUnit_passing (s : State) (c phys : Nat) :
    ((s.failUnit c phys).cluster c).passing = (s.cluster c).passing := by
  unfold State.failUnit
  dsimp only
  split
  case isTrue => rfl
  case isFalse => split <;> simp

@[simp] theorem State.failShared_passing (s : State) (c : Nat) :
    ((s.failShared c).cluster c).passing = (s.cluster c).passing := by
  unfold State.failShared
  split
  case isTrue => rfl
  case isFalse => simp

end Sys2Proof.Machine
end

section
/-!
PROOFS. The held-out unit and the runs of patterns on it (R356, R357).
-/

namespace Sys2Proof

/-- A table after one value was written at each listed key. -/
theorem AMap.find_foldl_set {α : Type} (v : α) (keys : List Nat) (m : AMap α) (j : Nat) :
    AMap.find (keys.foldl (fun m i => m.set i v) m) j = if j ∈ keys then some v else AMap.find m j := by
  induction keys generalizing m with
  | nil => rfl
  | cons k keys ih =>
    rw [List.foldl_cons, ih, AMap.find_set]
    by_cases later : j ∈ keys <;> by_cases first : j = k <;> simp [later, first]

end Sys2Proof

namespace Sys2Proof.Machine
open Sys2Proof

/-! ### Rotation (R356) -/

/-- A cluster whose held-out unit `u` returns and takes over the slots of `v`, which is held out from `since` on. -/
def ClusterSt.rotate (k : ClusterSt) (u v since : Nat) : ClusterSt :=
  { k with map := (k.slotsOf v).foldl (fun m i => m.set i u) k.map, heldOut := some v, passing := true, heldSince := since }

/-- The slots that the newly held-out unit served are those that the returning unit serves now. -/
theorem ClusterSt.unit_rotate (k : ClusterSt) (u v since : Nat) {i : Nat} (slot : i < 76) :
    (k.rotate u v since).unit i = if k.unit i = v then u else k.unit i := by
  have served : i ∈ k.slotsOf v ↔ k.unit i = v := by simp [ClusterSt.slotsOf, slot]
  rw [ClusterSt.unit, ClusterSt.rotate, AMap.find_foldl_set]
  by_cases serves : k.unit i = v
  · rw [if_pos (served.2 serves), if_pos serves, Option.getD_some]
  · rw [if_neg (mt served.1 serves), if_neg serves, ClusterSt.unit]

/-- A holding period that ends without a failed run is a rotation to the next healthy unit. -/
theorem heldOutRotation_of_due {s : State} {c u v : Nat} (active : s.reamActive = true) (spare : (s.cluster c).spares ≠ 0)
    (held : (s.cluster c).heldOut = some u) (passing : (s.cluster c).passing = true)
    (due : (s.cluster c).heldSince + 2 ^ bits s.screen.rotExp.toNat 0 5 ≤ (s.region (c / 64)).held)
    (next : (s.cluster c).nextHealthy u = some v) :
    heldOutRotation c s = s.upCluster c (fun k => k.rotate u v (s.region (c / 64)).held) := by
  unfold heldOutRotation
  dsimp only
  rw [if_neg (by simp [active, spare]), held]
  dsimp only
  rw [if_neg (Nat.not_lt.2 due), if_neg (by simp [passing]), next]
  simp only [State.upCluster, ClusterSt.rotate]

/-! ### Runs of idle patterns (R356, R357) -/

/-- A run of an idle pattern is counted. -/
def Screen.countIdleRun (x : Screen) : Screen := { x with runs := (x.runs.1, x.runs.2 + 1) }

/-- A run of an idle pattern that fails is counted as a run and as a failure of its level. -/
def Screen.countIdleFailure (x : Screen) : Screen :=
  { x.countIdleRun with fails := (x.fails.1, x.fails.2 + 1), idleFail := satInc x.idleFail }

/-- A failed run of pattern `p` is counted, keeps the held-out unit, and is recorded. -/
def State.idleFailure (s : State) (c phys : Nat) (p : Pattern) : State :=
  (({ s with screen := s.screen.countIdleFailure } : State).upCluster c (fun k => { k with passing := false })).record recScreen
    (agent 3) (c / 64) [p.id, 2, (s.region (c / 64)).point, p.target, c, phys, p.action]

/-- What the ACTION of a pattern does once a run has failed (R357): FAIL fails the unit, or the shared resources that it targets. -/
def State.act (s : State) (c phys : Nat) (p : Pattern) : State :=
  if p.action ≠ 1 then s else if p.target = 0 then s.failUnit c phys else s.failShared c

@[simp] theorem State.act_screen (s : State) (c phys : Nat) (p : Pattern) : (s.act c phys p).screen = s.screen := by
  simp [State.act, apply_ite State.screen]

@[simp] theorem State.act_passing (s : State) (c phys : Nat) (p : Pattern) :
    ((s.act c phys p).cluster c).passing = (s.cluster c).passing := by
  unfold State.act
  split
  · rfl
  · split <;> simp

theorem State.act_of_record (s : State) (c phys : Nat) {p : Pattern} (records : p.action ≠ 1) : s.act c phys p = s := if_pos records

theorem State.act_of_fail (s : State) (c phys : Nat) {p : Pattern} (fails : p.action = 1) (onUnit : p.target = 0) :
    s.act c phys p = s.failUnit c phys := by
  rw [State.act, if_neg (not_not.2 fails), if_pos onUnit]

section
variable {s : State} {c phys id : Nat} {p : Pattern} {k : Package} {res : U32} (active : s.reamActive = true)
  (package : s.screen.package = some k) (found : k.patterns.find? (fun y => y.id == id) = some p) (idle : p.level = 2)
  (held : (s.cluster c).heldOut = some phys)
include active package found idle held

/-- A run of an idle pattern on the held-out unit that gives the expected result is only counted. -/
theorem screenPatternRun_of_pass (passes : res = p.expect) :
    screenPatternRun c phys id res s = { s with screen := s.screen.countIdleRun } := by
  unfold screenPatternRun
  simp [package, found, idle, held, active, passes, Screen.countIdleRun]

/-- A run of an idle pattern on the held-out unit that gives another result is a failure, and the pattern's ACTION follows. -/
theorem screenPatternRun_of_fail (fails : res ≠ p.expect) :
    screenPatternRun c phys id res s = (s.idleFailure c phys p).act c phys p := by
  unfold screenPatternRun
  simp [package, found, idle, held, active, fails, State.idleFailure, State.act, Screen.countIdleFailure, Screen.countIdleRun]

end

@[simp] theorem State.idleFailure_screen (s : State) (c phys : Nat) (p : Pattern) :
    (s.idleFailure c phys p).screen = s.screen.countIdleFailure := rfl

/-- The counts of a failed run stand, whatever the pattern's ACTION does. -/
theorem State.screen_of_failedRun (s : State) (c phys : Nat) (p : Pattern) :
    ((s.idleFailure c phys p).act c phys p).screen = s.screen.countIdleFailure := by
  rw [State.act_screen, State.idleFailure_screen]

@[simp] theorem State.idleFailure_cluster (s : State) (c phys : Nat) (p : Pattern) :
    (s.idleFailure c phys p).cluster c = { s.cluster c with passing := false } := by
  rw [State.idleFailure, State.record_cluster, State.cluster_upCluster]
  rfl

theorem State.idleFailure_logged (s : State) (c phys : Nat) (p : Pattern) :
    Logged s (s.idleFailure c phys p) recScreen (agent 3) (c / 64)
      [p.id, 2, (s.region (c / 64)).point, p.target, c, phys, p.action] :=
  logged_record _ _ _ _ _ _ rfl

/-- Settles O17: a rotation that is due, the two ends of a run of an idle pattern, and the summary. -/
theorem screeningRotatesCountsAndFails : Obligations.ScreeningRotatesCountsAndFails := by
  refine ⟨?rotation, ?run, ?summary⟩
  case rotation =>
    intro s c u v active spare held passing due next
    refine ⟨_, congrArg Host.Outcome.next (heldOutRotation_of_due active spare held passing due next), ?_⟩
    rw [State.cluster_upCluster]
    exact ⟨rfl, rfl, rfl, rfl, fun i slot => ClusterSt.unit_rotate _ u v _ slot, fun d other => State.cluster_upCluster_other _ _ other⟩
  case run =>
    intro s c phys id p k res active package found idle held
    refine ⟨_, rfl, ?_⟩
    by_cases passes : res = p.expect
    · rw [screenPatternRun_of_pass active package found idle held passes]
      exact ⟨rfl, fun _ => rfl, absurd passes⟩
    · rw [screenPatternRun_of_fail active package found idle held passes]
      have counted := s.screen_of_failedRun c phys p
      refine ⟨congrArg Screen.runs counted, fun equal => absurd equal passes, fun _ =>
        ⟨congrArg Screen.fails counted, congrArg Screen.idleFail counted, ?kept, ?record, ?fail⟩⟩
      case kept => simp
      case record =>
        intro records
        rw [State.act_of_record _ _ _ records]
        exact ⟨by simp, s.idleFailure_logged c phys p⟩
      case fail =>
        intro fails onUnit
        rw [State.act_of_fail _ _ _ fails onUnit]
        exact State.mem_failed_failUnit _ _ _
  case summary =>
    intro s
    exact ⟨screenSummary s, rfl, rfl, rfl, rfl, rfl, logged_of (logged_record s s _ _ _ _ rfl) rfl⟩

end Sys2Proof.Machine
end

section
/-!
PROOFS. Replays: how one starts, and what its result brings about (R349, R350, R353).
-/

namespace Sys2Proof.Machine
open Sys2Proof

/-! ### Starts (R349) -/

/-- With no replay of the region in progress, the unit detected first starts its replay in the partner that it has. -/
theorem replayStart_of_first {s : State} {r p : Nat} {u : Replay} {rest : List Replay}
    (mine : s.screen.units.filter (fun y => y.region == r) = u :: rest) (idle : ∀ y ∈ u :: rest, y.started = false)
    (partner : s.partner u = some p) :
    replayStart r s = s.upUnit u.id (fun y => { y with started := true, partner := p, tries := y.tries + 1 }) := by
  have quiet : (u :: rest).any (·.started) = false := List.any_eq_false.2 fun y listed => by simp [idle y listed]
  unfold replayStart
  dsimp only
  rw [mine, if_neg (by simp [quiet])]
  dsimp only
  rw [partner]

/-! ### Outcomes (R350 to R353) -/

@[simp] theorem State.health_screen (s : State) (u : Replay) (out : Nat) (o : Option Order) : (s.health u out o).screen = s.screen :=
  (s.health_kept u out o).screen (by decide)

@[simp] theorem State.unitOutcome_screen (s : State) (c phys : Nat) (confirmed : Bool) :
    (s.unitOutcome c phys confirmed).screen = s.screen :=
  (s.unitOutcome_kept c phys confirmed).screen (by decide)

@[simp] theorem State.resolve_screen (s : State) (u : Replay) (failed : Bool) : (s.resolve u failed).screen = s.screen :=
  (s.resolve_kept u failed).screen (by decide)

@[simp] theorem State.resolve_cluster (s : State) (u : Replay) (failed : Bool) (c : Nat) : (s.resolve u failed).cluster c = s.cluster c :=
  (s.resolve_kept u failed).cluster (by decide) (by decide) c

/-- An outcome ends the unit and is counted; nothing else of the screening block changes. -/
theorem State.outcome_screen (s : State) (u : Replay) (out : Nat) :
    (s.outcome u out).screen = { s.screen with
      units := s.screen.units.filter (fun y => y.id != u.id)
      confirmed := if out = outConfirmed then satInc s.screen.confirmed else s.screen.confirmed
      failed := if out = outFailed then satInc s.screen.failed else s.screen.failed } := by
  simp [State.outcome, State.dropUnit, apply_ite State.screen]

theorem State.mem_failed_unitOutcome (s : State) (c phys : Nat) : phys ∈ ((s.unitOutcome c phys true).cluster c).failed := by
  unfold State.unitOutcome
  dsimp only
  rw [if_pos (by simp)]
  exact State.mem_failed_failUnit _ c phys

/-- A CONFIRMED outcome fails the physical unit that did the work (R353). -/
theorem State.mem_failed_confirmed (s : State) {u : Replay} (phys : u.phys < 80) (cluster : u.cluster < 4096) :
    u.phys ∈ ((s.outcome u outConfirmed).cluster u.cluster).failed := by
  unfold State.outcome
  dsimp only
  rw [State.resolve_cluster, if_pos ⟨phys, cluster⟩]
  exact State.mem_failed_unitOutcome _ _ _

/-! ### Results (R350, R352) -/

/-- The result of a replay is counted. -/
def State.countReplay (s : State) : State := { s with screen := { s.screen with replays := satInc s.screen.replays } }

/-- Which partners are live does not depend on the screening block. -/
theorem State.partner_withScreen (s : State) (x : Screen) (u : Replay) :
    ({ s with screen := x } : State).partner u = s.partner u := rfl

section
variable {s : State} {id : Nat} {u : Replay} (found : s.screen.units.find? (fun y => y.id == id) = some u)
  (started : u.started = true) (inRegion : u.region < 64)
include found started inRegion

theorem replayResult_equal : replayResult id .equal s = s.countReplay.outcome u outMasked := by
  unfold replayResult
  simp [found, started, Nat.not_le.2 inRegion, State.countReplay]

theorem replayResult_differs : replayResult id .differs s = s.countReplay.outcome u outConfirmed := by
  unfold replayResult
  simp [found, started, Nat.not_le.2 inRegion, State.countReplay]

/-- A suspect result ends the unit as FAILED after the second replay or without another partner; else the unit waits for its second. -/
theorem replayResult_suspect : replayResult id .suspect s =
    if 2 ≤ u.tries ∨ s.partner u = none then s.countReplay.outcome u outFailed
    else s.countReplay.upUnit id (fun _ => { u with started := false }) := by
  unfold replayResult
  simp [found, started, Nat.not_le.2 inRegion, State.countReplay, State.partner_withScreen]

/-- Every result is counted once. -/
theorem replayResult_replays (out : ReplayOut) : (replayResult id out s).screen.replays = satInc s.screen.replays := by
  cases out with
  | equal => rw [replayResult_equal found started inRegion, State.outcome_screen]; rfl
  | differs => rw [replayResult_differs found started inRegion, State.outcome_screen]; rfl
  | suspect =>
    rw [replayResult_suspect found started inRegion]
    split
    · rw [State.outcome_screen]; rfl
    · rfl

end

/-- Settles O19: the unit found first starts, and a result is counted and ends its unit or sends it to the other partner. -/
theorem replaysRunAndEnd : Obligations.ReplaysRunAndEnd := by
  refine ⟨fun s r u rest p mine idle partner => congrArg Host.Outcome.next (replayStart_of_first mine idle partner), ?_⟩
  intro s id u out found started inRegion
  obtain rfl : u.id = id := by simpa using List.find?_some found
  refine ⟨_, rfl, replayResult_replays found started inRegion out, ?equal, ?differs, ?suspect⟩
  case equal =>
    rintro rfl
    rw [replayResult_equal found started inRegion, State.outcome_screen]
    exact ⟨rfl, rfl, rfl⟩
  case differs =>
    rintro rfl
    rw [replayResult_differs found started inRegion, State.outcome_screen]
    exact ⟨rfl, rfl, rfl, State.mem_failed_confirmed _⟩
  case suspect =>
    rintro rfl first other
    rw [replayResult_suspect found started inRegion, if_neg (by simp [first, other])]
    rfl

end Sys2Proof.Machine
end

section
/-!
PROOFS. What a command may change: its own parts of the state, and of the hides its own alone (R252, R295, R309, R331, R356, R367,
R400, R415).
-/

namespace Sys2Proof.Machine
open Sys2Proof

/-- Settles O4: what every command keeps (`exec_kept`) names the queue and the parts. -/
theorem everyCommandTouchesOnlyItsParts : Obligations.EveryCommandTouchesOnlyItsParts := by
  intro c s
  obtain ⟨t, run, kept⟩ := exec_kept c s
  exact ⟨t, run, kept.pending, kept.same⟩

/-- Settles O5: a command of one hide leaves each other hide as it was, whatever the command does (`apart_of_exec`). -/
theorem commandsOfOneHideLeaveTheOthersAlone : Obligations.CommandsOfOneHideLeaveTheOthersAlone := by
  intro c h s t own run j other
  exact apart_of_exec own run j other

end Sys2Proof.Machine
end

section
/-!
PROOFS. Causes of a hide reset: one starts a reset from IDLE, and one joins a reset that is under way (R368 to R370, R380).
-/

namespace Sys2Proof.Machine
open Sys2Proof

/-! ### The course of a reset -/

/-- The course of a hide's reset: its phase, whether it drains, and its first cause. -/
def HideSt.course (x : HideSt) : ResetPhase × Bool × Nat := (x.k.phase, x.k.drain, x.k.cause)

/-- What leaves a hide's core as it was leaves the course of its reset. -/
theorem course_of_core {x y : HideSt} (same : x.core = y.core) : x.course = y.course := by
  obtain ⟨-, -, -, phase, drain, cause, -⟩ := core_eq same
  rw [HideSt.course, phase, drain, cause, HideSt.course]

theorem endAll_course (s : State) (h status : Nat) : ((s.endAll h status).hide h).course = (s.hide h).course :=
  course_of_core (State.endAll_steady s h status h)

theorem beginKeys_course (s : State) (h : Nat) :
    ((s.beginKeys h).hide h).course = (.keys, (s.hide h).course.2) := by
  obtain ⟨-, -, -, phase, drain, cause, -⟩ := beginKeys_spec s h
  rw [HideSt.course, phase, drain, cause, HideSt.course]

/-! ### A cause, by the phase in which it finds the hide -/

/-- The phases from KEYS on, which no cause alters. -/
def ResetPhase.Late (p : ResetPhase) : Prop := p = .keys ∨ p = .release ∨ p = .scrub ∨ p = .reload

theorem ResetPhase.under_way {p : ResetPhase} (under : p ≠ .idle) : p = .start ∨ p = .ending ∨ p = .held ∨ p.Late := by
  cases p <;> simp_all [ResetPhase.Late]

/-- A cause takes the interface of a hide past its lock to ERROR (R380). -/
def State.unguard (s : State) (h : Nat) : State :=
  if (s.hide h).k.tsp.guarded then s.upK h (fun k => { k with tsp := .error }) else s

@[simp] theorem State.unguard_reamActive (s : State) (h : Nat) : (s.unguard h).reamActive = s.reamActive := by
  unfold State.unguard
  split <;> rfl

@[simp] theorem State.unguard_queue (s : State) (h : Nat) : ((s.unguard h).hide h).q = (s.hide h).q := by
  unfold State.unguard
  split <;> simp

@[simp] theorem State.unguard_course (s : State) (h : Nat) : ((s.unguard h).hide h).course = (s.hide h).course := by
  unfold State.unguard
  split <;> simp [HideSt.course]

/-- The state in which a hide's reset no longer drains. -/
def State.endDrain (s : State) (h : Nat) : State := s.upK h (fun k => { k with drain := false })

@[simp] theorem State.endDrain_course (s : State) (h : Nat) :
    ((s.endDrain h).hide h).course = ((s.hide h).course.1, false, (s.hide h).course.2.2) := by
  simp [State.endDrain, HideSt.course]

/-- The state in which a reset of a hide has started for a cause and waits for its boundary (R368). -/
def State.resetStarted (s : State) (h cause : Nat) (drain : Bool) (o : Origin) : State :=
  s.upK h (fun k => { k with phase := .start, drain := drain, cause := cause, origin := (o.kind, o.id), ended := 0 })

/-- Does a cause that asks for a drain, or does not, let the hide drain: one past its lock never does (R380). -/
def HideSt.letsDrain (x : HideSt) (drain : Bool) : Bool := drain && !x.k.tsp.guarded

section
variable {s : State} {h : Nat} (cause : Nat) (drain : Bool) (o : Origin)

theorem startReset_of_idle (idle : (s.hide h).k.phase = .idle) : s.startReset h cause drain o =
    let u := (s.unguard h).resetStarted h cause ((s.hide h).letsDrain drain) o
    if s.reamActive then u else u.beginEnding h := by
  rw [← State.unguard_reamActive s h]
  unfold State.startReset
  dsimp only
  rw [idle]
  rfl

theorem startReset_of_start (waits : (s.hide h).k.phase = .start) : s.startReset h cause drain o =
    if (s.hide h).letsDrain drain then s.unguard h else (s.unguard h).endDrain h := by
  unfold State.startReset
  dsimp only
  rw [waits]
  rfl

theorem startReset_of_ending (ending : (s.hide h).k.phase = .ending) : s.startReset h cause drain o =
    if (s.hide h).letsDrain drain || !(s.hide h).k.drain then s.unguard h else ((s.unguard h).endDrain h).endAll h stHideReset := by
  unfold State.startReset
  dsimp only
  rw [ending]
  rfl

theorem startReset_of_held (held : (s.hide h).k.phase = .held) : s.startReset h cause drain o =
    if (s.hide h).letsDrain drain then s.unguard h else (s.unguard h).beginKeys h := by
  unfold State.startReset
  dsimp only
  rw [held]
  rfl

theorem startReset_of_late (late : (s.hide h).k.phase.Late) : s.startReset h cause drain o = s.unguard h := by
  unfold State.startReset
  dsimp only
  rcases late with phase | phase | phase | phase <;> rw [phase] <;> rfl

/-! ### What each makes of the course -/

/-- A reset that starts records its cause's origin (R371). -/
theorem startReset_origin (idle : (s.hide h).k.phase = .idle) :
    ((s.startReset h cause drain o).hide h).k.origin = (o.kind, o.id) := by
  rw [startReset_of_idle cause drain o idle]
  dsimp only
  split
  · rw [State.resetStarted, State.hide_upK]
  · obtain ⟨-, -, -, -, -, -, origin⟩ := beginEnding_spec ((s.unguard h).resetStarted h cause ((s.hide h).letsDrain drain) o) h
    rw [origin, State.resetStarted, State.hide_upK]

/-- A reset that waits for its boundary leaves the queue engine until then. -/
theorem startReset_queue (idle : (s.hide h).k.phase = .idle) (active : s.reamActive = true) :
    ((s.startReset h cause drain o).hide h).q = (s.hide h).q := by
  rw [startReset_of_idle cause drain o idle]
  simp [active, State.resetStarted]

theorem startReset_course_of_start (waits : (s.hide h).k.phase = .start) : ((s.startReset h cause drain o).hide h).course =
    (.start, (s.hide h).k.drain && (s.hide h).letsDrain drain, (s.hide h).k.cause) := by
  rw [startReset_of_start cause drain o waits]
  split
  case isTrue drains => rw [State.unguard_course, drains, HideSt.course, waits, Bool.and_true]
  case isFalse ends =>
    rw [State.endDrain_course, State.unguard_course, Bool.eq_false_of_not_eq_true ends, Bool.and_false, HideSt.course, waits]

theorem startReset_course_of_ending (ending : (s.hide h).k.phase = .ending) : ((s.startReset h cause drain o).hide h).course =
    (.ending, (s.hide h).k.drain && (s.hide h).letsDrain drain, (s.hide h).k.cause) := by
  rw [startReset_of_ending cause drain o ending]
  split
  case isTrue goesOn =>
    have drains : ((s.hide h).k.drain && (s.hide h).letsDrain drain) = (s.hide h).k.drain := by
      rcases Bool.or_eq_true_iff.1 goesOn with drains | immediate <;> simp_all
    rw [State.unguard_course, drains, HideSt.course, ending]
  case isFalse ends =>
    have immediate : ((s.hide h).k.drain && (s.hide h).letsDrain drain) = false := by simp_all
    rw [endAll_course, State.endDrain_course, State.unguard_course, immediate, HideSt.course, ending]

theorem startReset_course_of_held (held : (s.hide h).k.phase = .held) : ((s.startReset h cause drain o).hide h).course =
    (if (s.hide h).letsDrain drain then .held else .keys, (s.hide h).k.drain, (s.hide h).k.cause) := by
  rw [startReset_of_held cause drain o held]
  split
  case isTrue => rw [State.unguard_course, HideSt.course, held]
  case isFalse => rw [beginKeys_course, State.unguard_course, HideSt.course]

theorem startReset_course_of_late (late : (s.hide h).k.phase.Late) :
    ((s.startReset h cause drain o).hide h).course = (s.hide h).course := by
  rw [startReset_of_late cause drain o late, State.unguard_course]

/-- A cause that joins a reset keeps the first cause (R370). -/
theorem startReset_joins (under : (s.hide h).k.phase ≠ .idle) :
    ((s.startReset h cause drain o).hide h).k.cause = (s.hide h).k.cause := by
  suffices same : ((s.startReset h cause drain o).hide h).course.2.2 = (s.hide h).k.cause from same
  rcases ResetPhase.under_way under with waits | ending | held | late
  · rw [startReset_course_of_start cause drain o waits]
  · rw [startReset_course_of_ending cause drain o ending]
  · rw [startReset_course_of_held cause drain o held]
  · rw [startReset_course_of_late cause drain o late, HideSt.course]

end

/-- Settles O23: a cause from IDLE by the reset that it starts, and one that joins by what the phase makes of the course. -/
theorem hideResetGoStartsOrJoinsAReset : Obligations.HideResetGoStartsOrJoinsAReset := by
  intro s h drain
  obtain ⟨-, tsp, starts⟩ := startReset_spec s h 1 drain (byHide s h false)
  refine ⟨_, rfl, apart_of_exec (i := .hideResetGo h drain) rfl rfl, tsp, ?idle, startReset_joins 1 drain _, ?early, ?held, ?late⟩
  case idle =>
    intro idle
    obtain ⟨phase, cause, drains⟩ := starts idle
    exact ⟨phase, cause, drains, congrArg Prod.fst (startReset_origin 1 drain _ idle), startReset_queue 1 drain _ idle⟩
  case early =>
    intro early
    have course : ((s.startReset h 1 drain (byHide s h false)).hide h).course =
        ((s.hide h).k.phase, (s.hide h).k.drain && (s.hide h).letsDrain drain, (s.hide h).k.cause) := by
      rcases early with waits | ending
      · rw [startReset_course_of_start 1 drain _ waits, waits]
      · rw [startReset_course_of_ending 1 drain _ ending, ending]
    exact ⟨congrArg Prod.fst course, (congrArg (·.2.1) course).trans (Bool.and_assoc ..).symm⟩
  case held => exact fun held => congrArg Prod.fst (startReset_course_of_held 1 drain _ held)
  case late => exact fun late => congrArg Prod.fst (startReset_course_of_late 1 drain _ late)

end Sys2Proof.Machine
end

section
/-!
PROOFS. The TSP requests, and writes to a logical device's configuration space (R380, R382).
-/

namespace Sys2Proof.Machine
open Sys2Proof

/-! ### Requests (R380) -/

theorem Tsp.guarded_iff {t : Tsp} : t.guarded = true ↔ t = .locked ∨ t = .run := by
  simp [Tsp.guarded]

/-- The conditions of a lock request beside the UNLOCKED state of its hide. -/
theorem State.canLock_iff {s : State} {h : Nat} : s.canLock h = true ↔
    (s.ld (s.ldOf h)).ideIo = .secure ∧ s.cxl.ideMem = .secure ∧ (s.ld (s.ldOf h)).decoder ≠ none ∧
      (s.ld (s.ldOf h)).decLocked = true ∧ s.dex.life = .production ∧ s.dex.unlocked = false ∧ s.dex.testDone = true ∧
      s.dex.error = false ∧ (s.hide h).isPristine = true := by
  simp [State.canLock, and_assoc, Option.isSome_iff_ne_none]

/-- The state in which the interface of a hide is in state `t`. -/
def State.setTsp (s : State) (h : Nat) (t : Tsp) : State := s.upK h (fun k => { k with tsp := t })

theorem State.setTsp_hide (s : State) (h : Nat) (t : Tsp) :
    (s.setTsp h t).hide h = { s.hide h with k := { (s.hide h).k with tsp := t } } := State.hide_upK s h _

theorem tspLock_of_lockable {s : State} {h : Nat} (unlocked : (s.hide h).k.tsp = .unlocked) (can : s.canLock h = true) :
    tspLock h s = (s.setTsp h .locked).raw (tspReply 1 true) := by
  simp [tspLock, unlocked, can, State.setTsp]

theorem tspLock_of_refused {s : State} {h : Nat} (refused : ¬ ((s.hide h).k.tsp = .unlocked ∧ s.canLock h = true)) :
    tspLock h s = s.raw (tspReply 1 false) := by
  rw [tspLock, if_neg (by simpa using refused)]

theorem tspStart_of_locked {s : State} {h : Nat} (locked : (s.hide h).k.tsp = .locked) :
    tspStart h s = (s.setTsp h .run).raw (tspReply 2 true) := by
  simp [tspStart, locked, State.setTsp]

theorem tspStart_of_refused {s : State} {h : Nat} (refused : (s.hide h).k.tsp ≠ .locked) :
    tspStart h s = s.raw (tspReply 2 false) := by
  simp [tspStart, refused]

theorem tspError_of_guarded {s : State} {h : Nat} {o : Origin} (guarded : (s.hide h).k.tsp.guarded = true) :
    s.tspError h o = s.startReset h 5 false o := if_pos guarded

/-- A locked hide that loses its lock is in ERROR, and if no reset of it is under way, one starts for cause 5 (R380, R382). -/
theorem tspError_starts {s : State} {h : Nat} (o : Origin) (guarded : (s.hide h).k.tsp.guarded = true) :
    ((s.tspError h o).hide h).k.tsp = .error ∧ ((s.hide h).k.phase = .idle →
      ((s.tspError h o).hide h).k.cause = 5 ∧ ((s.tspError h o).hide h).k.drain = false ∧
        ((s.tspError h o).hide h).k.phase = if s.reamActive then .start else .ending) := by
  obtain ⟨-, tsp, starts⟩ := startReset_spec s h 5 false o
  rw [tspError_of_guarded guarded, tsp, if_pos guarded]
  refine ⟨rfl, fun idle => ?_⟩
  obtain ⟨phase, cause, drain⟩ := starts idle
  exact ⟨cause, drain, phase⟩

theorem tspStop_of_guarded {s : State} {h : Nat} (guarded : (s.hide h).k.tsp.guarded = true) :
    tspStop h s = (s.tspError h (byHide s h true)).raw (tspReply 3 true) := if_pos guarded

theorem tspStop_of_refused {s : State} {h : Nat} (refused : (s.hide h).k.tsp.guarded = false) :
    tspStop h s = s.raw (tspReply 3 false) := if_neg (by simp [refused])

/-! ### Configuration space (R380, R382) -/

section
variable {s : State} {ld : Ld} {off : Nat} {v : U32} (up : s.up = true) (linked : s.cxl.width ≠ 0)
  (heard : (s.ld ld).ideIo ≠ .insecure)
include up linked heard

theorem configWrite_of_unguarded (unguarded : ∀ h, s.hideOfLd ld = some h → (s.hide h).k.tsp.guarded = false) :
    configWrite ld off v s = s.upLd ld (fun l => { l with config := l.config.set off v }) := by
  unfold configWrite
  dsimp only
  rw [if_neg (by simp [up, linked, heard])]
  rcases bound : s.hideOfLd ld with - | h
  · rfl
  · simp only [unguarded h bound]

theorem configWrite_of_guarded {h : Nat} (bound : s.hideOfLd ld = some h) (guarded : (s.hide h).k.tsp.guarded = true) :
    configWrite ld off v s = s.tspError h (byHide s h false) := by
  unfold configWrite
  dsimp only
  rw [if_neg (by simp [up, linked, heard]), bound]
  simp only [guarded]

end

/-- Settles O26: each request by what it finds, and a configuration write by whether the hide bound to the device is locked. -/
theorem tspRequestsAndConfigurationWritesFollowTheLock : Obligations.TspRequestsAndConfigurationWritesFollowTheLock := by
  refine ⟨⟨?lock, ?start, ?stop⟩, ?write⟩
  case lock =>
    intro s h
    refine ⟨_, rfl, only_of_exec (i := .tspLock h) rfl, apart_of_exec (i := .tspLock h) rfl rfl, ?_, ?_⟩
    · rintro ⟨unlocked, can⟩
      rw [tspLock_of_lockable unlocked (State.canLock_iff.2 can)]
      exact ⟨State.setTsp_hide s h .locked, rfl⟩
    · intro refused
      rw [tspLock_of_refused (by rwa [State.canLock_iff])]
      exact ⟨rfl, rfl⟩
  case start =>
    intro s h
    refine ⟨_, rfl, only_of_exec (i := .tspStart h) rfl, apart_of_exec (i := .tspStart h) rfl rfl, ?_, ?_⟩
    · intro locked
      rw [tspStart_of_locked locked]
      exact ⟨State.setTsp_hide s h .run, rfl⟩
    · intro refused
      rw [tspStart_of_refused refused]
      exact ⟨rfl, rfl⟩
  case stop =>
    intro s h
    refine ⟨_, rfl, apart_of_exec (i := .tspStop h) rfl rfl, ?_, ?_⟩
    · intro past
      have guarded := Tsp.guarded_iff.2 past
      rw [tspStop_of_guarded guarded]
      exact tspError_starts (byHide s h true) guarded
    · intro notLocked notRun
      have refused : (s.hide h).k.tsp.guarded = false := by simp [Tsp.guarded, notLocked, notRun]
      rw [tspStop_of_refused refused]
      rfl
  case write =>
    intro s ld off v up linked heard
    refine ⟨_, rfl, fun unguarded => ?_, fun h bound guarded => ?_⟩
    · rw [configWrite_of_unguarded up linked heard unguarded, State.ld_upLd]
      exact ⟨(State.upLd_kept s ld _).same, AMap.get_set_same .., fun o other => AMap.get_set_other _ _ _ other⟩
    · rw [configWrite_of_guarded up linked heard bound guarded]
      obtain ⟨error, starts⟩ := tspError_starts (byHide s h false) guarded
      exact ⟨tspError_cxl s h _, State.tspError_apart s h _, error, fun idle => (starts idle).1⟩

end Sys2Proof.Machine
end

section
/-!
PROOFS. Job keys (R375): what a command of HD_JOBKEY_CMD answers, and which keys there are after it.
-/

namespace Sys2Proof.Machine
open Sys2Proof

/-- The operation, 1 for CREATE and 2 for DESTROY, and the index of a word written to HD_JOBKEY_CMD. -/
def keyOp (v : U32) : Nat := bits v.toNat 0 2
def keyIndex (v : U32) : Nat := bits v.toNat 16 16

/-- The keys after one of them was written. -/
def KPart.setKey (k : KPart) (i : Nat) (j : JobKey) : KPart := { k with jobKeys := k.jobKeys.set i j }

@[simp] theorem KPart.jobKey_setKey (k : KPart) (i : Nat) (j : JobKey) : (k.setKey i j).jobKey i = j := AMap.get_set_same ..

theorem KPart.jobKey_setKey_other (k : KPart) {i n : Nat} (j : JobKey) (other : n ≠ i) : (k.setKey i j).jobKey n = k.jobKey n :=
  AMap.get_set_other _ _ _ other

/-- A job key of a new generation (R375). -/
def JobKey.renew (j : JobKey) : JobKey := { j with held := true, gen := (j.gen + 1) % 2 ^ 32 }

/-- A job key that is destroyed. -/
def JobKey.destroy (j : JobKey) : JobKey := { j with held := false }

/-! ### The result of a command, by the checks in their order -/

/-- A hide whose keys a command can reach: LAYOUT has the hide, and it is running if it is confidential. -/
def HideSt.KeysOpen (x : HideSt) (e : HideEntry) : Prop := x.lay = some e ∧ (x.confidential = true → x.k.tsp = .run)

section
variable {x : HideSt} {v : U32} {e : HideEntry} (reach : x.KeysOpen e)
include reach

theorem jobKeyCmd_eq (op : keyOp v = 1 ∨ keyOp v = 2) : x.jobKeyCmd v =
    if keyIndex v = 0 ∨ e.jobKeys < keyIndex v then (stFieldRange, x.k)
    else if keyOp v = 1 then
      if (x.k.jobKey (keyIndex v)).held then (stConflict, x.k)
      else (stOk, { x.k.setKey (keyIndex v) (x.k.jobKey (keyIndex v)).renew with pristine := false })
    else if !(x.k.jobKey (keyIndex v)).held || x.jobKeyUsed (keyIndex v) then (stConflict, x.k)
    else (stOk, x.k.setKey (keyIndex v) (x.k.jobKey (keyIndex v)).destroy) := by
  obtain ⟨lay, served⟩ := reach
  have admitted : (x.confidential && x.k.tsp != .run) = false := by simpa using served
  have known : ¬ (keyOp v ≠ 1 ∧ keyOp v ≠ 2) := by omega
  unfold HideSt.jobKeyCmd
  rw [lay]
  exact (if_neg (by simp [admitted])).trans (if_neg known)

theorem jobKeyCmd_of_range (op : keyOp v = 1 ∨ keyOp v = 2) (range : keyIndex v = 0 ∨ e.jobKeys < keyIndex v) :
    x.jobKeyCmd v = (stFieldRange, x.k) := by
  rw [jobKeyCmd_eq reach op, if_pos range]

section
variable (low : 1 ≤ keyIndex v) (high : keyIndex v ≤ e.jobKeys)
include low high

theorem jobKeyCmd_create_of_held (create : keyOp v = 1) (held : (x.k.jobKey (keyIndex v)).held = true) :
    x.jobKeyCmd v = (stConflict, x.k) := by
  rw [jobKeyCmd_eq reach (.inl create), if_neg (by omega), if_pos create, if_pos held]

theorem jobKeyCmd_create_of_free (create : keyOp v = 1) (free : (x.k.jobKey (keyIndex v)).held = false) : x.jobKeyCmd v =
    (stOk, { x.k.setKey (keyIndex v) (x.k.jobKey (keyIndex v)).renew with pristine := false }) := by
  rw [jobKeyCmd_eq reach (.inl create), if_neg (by omega), if_pos create, if_neg (ne_true_of_eq_false free)]

theorem jobKeyCmd_destroy_of_unused (destroy : keyOp v = 2) (held : (x.k.jobKey (keyIndex v)).held = true)
    (unused : x.jobKeyUsed (keyIndex v) = false) : x.jobKeyCmd v =
    (stOk, x.k.setKey (keyIndex v) (x.k.jobKey (keyIndex v)).destroy) := by
  rw [jobKeyCmd_eq reach (.inr destroy), if_neg (by omega), if_neg (by omega), if_neg (by simp [held, unused])]

theorem jobKeyCmd_destroy_of_refused (destroy : keyOp v = 2)
    (refused : (x.k.jobKey (keyIndex v)).held = false ∨ x.jobKeyUsed (keyIndex v) = true) :
    x.jobKeyCmd v = (stConflict, x.k) := by
  rw [jobKeyCmd_eq reach (.inr destroy), if_neg (by omega), if_neg (by omega), if_pos (by simpa using refused)]

end
end

/-! ### A write of HD_JOBKEY_CMD -/

/-- The keys of a hide after a command, with its result in HD_JOBKEY_STAT. -/
def HideSt.afterKeyCmd (x : HideSt) (v : U32) : KPart := { (x.jobKeyCmd v).2 with jobResult := (x.jobKeyCmd v).1 }

theorem jobKeyRow_keys {s : State} {h : Nat} {v : U32} {e : HideEntry} (free : (s.hide h).resetting = false)
    (active : s.reamActive = true) (lay : (s.hide h).lay = some e) :
    ((jobKeyRow (keyOp v) h v s).hide h).k = (s.hide h).afterKeyCmd v := by
  have row : jobKeyRow (keyOp v) h v s = s.jobKeyCommand h v := if_pos rfl
  rw [row, State.jobKeyCommand]
  simp [free, active, lay, HideSt.afterKeyCmd]

theorem HideSt.afterKeyCmd_of_refused {x : HideSt} {v : U32} {st : Nat} (refused : x.jobKeyCmd v = (st, x.k)) :
    x.afterKeyCmd v = { x.k with jobResult := st } := by
  rw [HideSt.afterKeyCmd, refused]

/-- Settles O33: the command is the write's, and its result and keys follow from its index and the key there. -/
theorem jobKeysAreCreatedAndDestroyed : Obligations.JobKeysAreCreatedAndDestroyed := by
  intro s h v e i x free active lay served
  have reach : x.KeysOpen e := ⟨lay, served⟩
  have keys : ((jobKeyRow (keyOp v) h v s).hide h).k = x.afterKeyCmd v := jobKeyRow_keys free active lay
  refine ⟨fun create => ?_, fun destroy => ?_⟩
  · rw [show keyOp v = 1 from create] at keys
    refine ⟨_, rfl, only_of_exec (i := .jobkeyCreate h v) rfl, apart_of_exec (i := .jobkeyCreate h v) rfl rfl, ?_⟩
    rw [keys]
    refine ⟨fun range => ?range, fun low high held => ?taken, fun low high free => ?created⟩
    case range => exact HideSt.afterKeyCmd_of_refused (jobKeyCmd_of_range reach (.inl create) range)
    case taken => exact HideSt.afterKeyCmd_of_refused (jobKeyCmd_create_of_held reach low high create held)
    case created =>
      rw [HideSt.afterKeyCmd, jobKeyCmd_create_of_free reach low high create free]
      exact ⟨rfl, congrArg JobKey.held (KPart.jobKey_setKey ..), congrArg JobKey.gen (KPart.jobKey_setKey ..),
        fun j other => KPart.jobKey_setKey_other _ _ other⟩
  · rw [show keyOp v = 2 from destroy] at keys
    refine ⟨_, rfl, only_of_exec (i := .jobkeyDestroy h v) rfl, apart_of_exec (i := .jobkeyDestroy h v) rfl rfl, ?_⟩
    rw [keys]
    refine ⟨fun low high held unused => ?destroyed, fun low high bad => ?refused⟩
    case destroyed =>
      rw [HideSt.afterKeyCmd, jobKeyCmd_destroy_of_unused reach low high destroy held unused]
      exact ⟨rfl, congrArg JobKey.held (KPart.jobKey_setKey ..), fun j other => KPart.jobKey_setKey_other _ _ other⟩
    case refused => exact HideSt.afterKeyCmd_of_refused (jobKeyCmd_destroy_of_refused reach low high destroy bad)

end Sys2Proof.Machine
end

section
/-!
PROOFS. Sessions of the management port: handshakes, the refusal period, and closing (R392, R393, R413, R417).
-/

namespace Sys2Proof.Machine
open Sys2Proof

theorem mgmt_only (s : State) (m : Mgmt) : Only [.mgmt] s { s with mgmt := m } := by
  intro p other
  cases p with
  | mgmt => exact absurd (List.mem_singleton.2 rfl) other
  | _ => rfl

/-! ### Failed handshakes (R393) -/

/-- The failed handshakes of the last 60 s. -/
def State.recentFails (s : State) : List Nat := s.mgmt.fails.filter (fun u => decide (s.power.ticks < u + 60 * 32768))

/-- The state in which the refusal period has started. -/
def State.startRefusal (s : State) : State := { s with mgmt := { s.mgmt with fails := [], refusing := true } }

theorem failHandshake_of_few {s : State} (few : s.recentFails.length < 7) :
    s.failHandshake = { s with mgmt := { s.mgmt with fails := s.power.ticks :: s.recentFails } } := by
  have counted : (s.power.ticks :: s.recentFails).length < 8 := Nat.succ_lt_succ few
  exact if_neg (Nat.not_le.2 counted)

theorem failHandshake_of_many {s : State} (many : 7 ≤ s.recentFails.length) :
    s.failHandshake = s.startRefusal.config (agent 2) cfgRefusal 0 [] 0xFF := by
  have counted : 8 ≤ (s.power.ticks :: s.recentFails).length := Nat.succ_le_succ many
  exact if_pos counted

theorem failHandshake_sessions (s : State) : s.failHandshake.mgmt.sessions = s.mgmt.sessions := by
  rcases Nat.lt_or_ge s.recentFails.length 7 with few | many
  · rw [failHandshake_of_few few]
  · rw [failHandshake_of_many many, config_mgmt]
    rfl

/-! ### Handshakes (R392, R393, R413) -/

theorem sessionHandshake_of_refusing {s : State} (i : Option Nat) (fam : NetFamily) (refusing : s.mgmt.refusing = true) :
    sessionHandshake i fam s = s := by
  rw [sessionHandshake, if_pos (by simp [refusing])]

theorem sessionHandshake_of_full {s : State} (i : Option Nat) (fam : NetFamily) (full : 4 ≤ s.mgmt.sessions.length) :
    sessionHandshake i fam s = s := by
  rw [sessionHandshake, if_pos (by simp [full])]

/-- The role of the sessions of a management anchor (R392). -/
def Anchor.sessionRole (a : Anchor) : Role := if a.role = 0 then .admin else if a.role = 1 then .operator else .observer

theorem Anchor.roleRank_sessionRole {a : Anchor} (known : a.role ≤ 2) : roleRank a.sessionRole = 2 - a.role := by
  have roles : a.role = 0 ∨ a.role = 1 ∨ a.role = 2 := by omega
  rcases roles with role | role | role <;> simp [Anchor.sessionRole, role, roleRank]

/-- The session that a handshake with a management anchor opens. -/
def State.newSession (s : State) (a : Anchor) (fam : NetFamily) : Session := ⟨s.mgmt.nextSession, a.sessionRole, 0, 0, false, fam⟩

section
variable {s : State} {fam : NetFamily} (portOpen : s.portOpen = true) (hears : s.mgmt.refusing = false)
  (address : s.hasAddress fam = true) (room : s.mgmt.sessions.length < 4)
include portOpen hears address room

theorem sessionHandshake_of_anchor {i : Nat} {a : Anchor} (reaches : s.dex.anchors[i]? = some a) (management : a.kind = 0) :
    sessionHandshake (some i) fam s = { s with mgmt := { s.mgmt with
      sessions := s.mgmt.sessions ++ [s.newSession a fam]
      nextSession := (s.mgmt.nextSession + 1) % 2 ^ 32 } } := by
  rw [sessionHandshake, if_neg (by simp [portOpen, hears, address, room]), Option.bind_some, reaches]
  dsimp only
  rw [if_neg (not_not.2 management)]
  rfl

theorem sessionHandshake_of_none : sessionHandshake none fam s = s.failHandshake := by
  rw [sessionHandshake, if_neg (by simp [portOpen, hears, address, room]), Option.bind_none]

end

/-- Settles O40: a handshake by what stands in its way and what its chain reaches, and both ends of a session by its closing. -/
theorem sessionsOpenAndClose : Obligations.SessionsOpenAndClose := by
  refine ⟨fun s fam portOpen hears address => ⟨fun full i => ?full, fun room => ⟨?opens, ?fails⟩⟩, ?refused, fun s => rfl, ?closes⟩
  case full => exact congrArg Host.Outcome.next (sessionHandshake_of_full i fam full)
  case opens =>
    intro i a reaches management known
    refine ⟨_, s.newSession a fam,
      congrArg Host.Outcome.next (sessionHandshake_of_anchor portOpen hears address room reaches management), mgmt_only s _, ?_⟩
    exact ⟨rfl, rfl, Anchor.roleRank_sessionRole known, rfl, rfl, hears⟩
  case fails =>
    have run : exec (.sessionHandshake none fam) s = .next s.failHandshake :=
      congrArg Host.Outcome.next (sessionHandshake_of_none portOpen hears address room)
    refine ⟨_, run, only_of_exec (i := .sessionHandshake none fam) run, failHandshake_sessions s, fun few => ?_, fun many => ?_⟩
    · rw [failHandshake_of_few few]
      exact ⟨hears, rfl⟩
    · rw [failHandshake_of_many many]
      exact ⟨by rw [config_mgmt]; rfl, config_logged s s.startRefusal (agent 2) cfgRefusal 0 [] 0xFF le_rfl⟩
  case refused =>
    intro s i fam refusing
    exact congrArg Host.Outcome.next (sessionHandshake_of_refusing i fam refusing)
  case closes =>
    intro s id x known
    exact ⟨_, rfl, rfl, only_of_exec (i := .sessionClose id) rfl, close_spec s id x known⟩

end Sys2Proof.Machine
end

section
/-!
PROOFS. What the device sends of itself: periodic telemetry, replies to status probes, and the signed report with its identity record
(R386 to R388, R415, R419, R441).
-/

namespace Sys2Proof.Machine
open Sys2Proof

/-! ### Telemetry (R415) -/

theorem message_hide (s : State) (r : Reply) (h : Nat) : (s.message r).hide h = s.hide h := rfl

theorem telemetryPeriod_of_subscribed {s : State} {id : Nat} {x : Session} (portOpen : s.portOpen = true)
    (known : s.session id = some x) (subscribed : x.period ≠ 0) :
    telemetryPeriod id s = s.telemetryTaken.message ⟨id, msgTelemetryOut, 0, 0, s.telemetryBody⟩ := by
  rw [telemetryPeriod, if_neg (by simp [portOpen]), known]
  exact if_neg subscribed

/-! ### Status probes (R419) -/

/-- The probes answered within the last second. -/
def State.recentProbes (s : State) : List Nat := s.mgmt.probes.filter (fun u => decide (s.power.ticks < u + 32768))

/-- The state in which the probes that count are those of a list. -/
def State.setProbes (s : State) (l : List Nat) : State := { s with mgmt := { s.mgmt with probes := l } }

theorem statusProbe_of_powered {s : State} (nonce : BitVec 64) (on : s.power.st ≠ .off) (pastStandby : s.power.st ≠ .standby)
    (unlost : s.power.st ≠ .lost) : statusProbe nonce s =
      if 16 ≤ s.recentProbes.length then s.setProbes s.recentProbes
      else (s.setProbes (s.power.ticks :: s.recentProbes)).raw (s.probeReply nonce) := by
  unfold statusProbe
  split
  case h_1 off => exact absurd off on
  case h_2 standby => exact absurd standby pastStandby
  case h_3 lost => exact absurd lost unlost
  case h_4 => rfl

/-! ### Measurements (R386 to R388) -/

/-- A responder that is reached and has a key to sign with (R386). -/
structure State.Signs (s : State) (m : Option Nat) : Prop where
  reached : s.spdmUp m = true
  sound : s.dex.error = false
  identity : s.dex.identityGone = false
  made : s.dex.life ≠ .blank

/-- The report with its signature: the draws of the DRBG give the device's nonce, and then the signature's (R386). -/
def State.signedReport (s : State) (nonce : BitVec 256) : List Byte :=
  s.report nonce (Config.drbg s.dex.draws) ++
    leBytes 64 (Config.signature (s.report nonce (Config.drbg s.dex.draws)) (Config.drbg (s.dex.draws + 1))).toNat

theorem getMeasurements_of_signs {s : State} {m : Option Nat} (nonce : BitVec 256) (signs : s.Signs m) :
    getMeasurements m nonce s = ({ s with dex := { s.dex with draws := s.dex.draws + 2 } } : State).raw (s.signedReport nonce) := by
  obtain ⟨reached, sound, identity, made⟩ := signs
  unfold getMeasurements
  rw [if_neg (by simp [reached]), if_neg (by simp [sound, identity, made])]
  rfl

theorem getMeasurements_of_unable {s : State} {m : Option Nat} (nonce : BitVec 256) (reached : s.spdmUp m = true)
    (unable : s.dex.error = true ∨ s.dex.identityGone = true ∨ s.dex.life = .blank) : getMeasurements m nonce s = s.raw spdmError := by
  unfold getMeasurements
  rw [if_neg (by simp [reached]), if_pos (by simpa [or_assoc] using unable)]

theorem phyInt_of_up {s : State} (answered : Bool) (up : s.ioUp = true) :
    phyInt answered s = { s with mgmt := { s.mgmt with phyUp := answered } } := if_pos up

/-- Settles O42: each event by its equation, whose parts the statement lists. -/
theorem probesReportsAndPeriodsAreAnswered : Obligations.ProbesReportsAndPeriodsAreAnswered := by
  refine ⟨?period, ?probe, ?measurements, fun s a up => congrArg Host.Outcome.next (phyInt_of_up a up)⟩
  case period =>
    intro s id x portOpen known subscribed
    refine ⟨_, rfl, only_of_exec (i := .telemetryPeriod id) rfl, ?_⟩
    rw [telemetryPeriod_of_subscribed portOpen known subscribed]
    refine ⟨rfl, fun h => ?_⟩
    rw [message_hide, tel_hide]
    exact ⟨rfl, rfl⟩
  case probe =>
    intro s nonce on pastStandby unlost
    refine ⟨_, rfl, only_of_exec (i := .statusProbe nonce) rfl, ?_⟩
    rw [statusProbe_of_powered nonce on pastStandby unlost]
    by_cases busy : 16 ≤ s.recentProbes.length
    · rw [if_pos busy]
      exact ⟨rfl, fun _ => rfl, fun free => absurd busy (Nat.not_le.2 free)⟩
    · rw [if_neg busy]
      obtain ⟨length, head, echo⟩ := probe_reply s nonce
      exact ⟨rfl, fun full => absurd full busy, fun _ => ⟨rfl, s.probeReply nonce, rfl, length, head, echo⟩⟩
  case measurements =>
    intro s m nonce reached
    have changed : Only [.dex, .mgmt] s (getMeasurements (m.map (·.val)) nonce s) := only_of_exec (i := .spdmGetMeasurements m nonce) rfl
    refine ⟨_, rfl, only_more changed (by decide), fun unable => ?_, fun sound identity made => ?_⟩
    · exact getMeasurements_of_unable nonce reached unable
    · rw [getMeasurements_of_signs nonce ⟨reached, sound, identity, made⟩]
      exact ⟨rfl, rfl⟩

/-! ### The identity record (R388) -/

theorem identityRecord_length : identityRecord.length = 64 := by
  simp [identityRecord, le_len]

/-- The identity record is the value of a block of every report (R387), which stands before the nonces and the signature. -/
theorem identityRecord_reported (s : State) (nonce : BitVec 256) : identityRecord <:+: s.signedReport nonce := by
  have block : (8, 0x82, identityRecord) ∈ s.measurements := by simp [State.measurements]
  have value : identityRecord <:+: measurementBlock (8, 0x82, identityRecord) := (List.suffix_append _ _).isInfix
  have listed : measurementBlock (8, 0x82, identityRecord) <:+: s.measurements.flatMap measurementBlock := by
    obtain ⟨before, after, split⟩ := List.append_of_mem block
    exact ⟨before.flatMap measurementBlock, after.flatMap measurementBlock, by simp [split]⟩
  have reported : s.measurements.flatMap measurementBlock <:+: s.report nonce (Config.drbg s.dex.draws) :=
    ⟨_, _, (List.append_assoc _ _ _).symm⟩
  have signed : s.report nonce (Config.drbg s.dex.draws) <:+: s.signedReport nonce := ⟨[], _, rfl⟩
  exact ((value.trans listed).trans reported).trans signed

theorem leBytes_drop (n v : Nat) {k : Nat} (past : n ≤ k) : (leBytes n v).drop k = [] :=
  List.drop_eq_nil_of_le (by rwa [le_len])

theorem identityRecord_fields : identityRecord.take 16 = leBytes 16 Config.deviceSerial.toNat ∧
    (identityRecord.drop 16).take 2 = leBytes 2 0x0960 ∧ (identityRecord.drop 18).take 2 = leBytes 2 Config.stepping.toNat ∧
    (identityRecord.drop 20).take 12 = List.replicate 12 0 ∧ identityRecord.drop 32 = leBytes 32 Config.deviceKeyDigest.toNat := by
  simp [identityRecord, List.drop_append, le_len, leBytes_drop]

/-- Settles O60: the record stands in the report and has its fields in order; a swap image is bound by the same digest. -/
theorem everyReportCarriesTheIdentityRecord : Obligations.EveryReportCarriesTheIdentityRecord := by
  intro s m nonce reached sound identity made
  obtain ⟨before, after, report⟩ := identityRecord_reported s nonce
  obtain ⟨serial, code, stepping, zeros, digest⟩ := identityRecord_fields
  have run : exec (.spdmGetMeasurements m nonce) s =
      .next (({ s with dex := { s.dex with draws := s.dex.draws + 2 } } : State).raw (s.signedReport nonce)) :=
    congrArg Host.Outcome.next (getMeasurements_of_signs nonce ⟨reached, sound, identity, made⟩)
  refine ⟨_, before, after, identityRecord, run, ?sent, identityRecord_length, serial, code, stepping, zeros, digest, ?bind⟩
  case sent => rw [report]; rfl
  case bind => rw [digest]; rfl

end Sys2Proof.Machine
end

section
/-!
PROOFS. The state after reset and the steps of power-up (R10, R252, R306, R365, R366, R400, R410, R421, R443).
-/

namespace Sys2Proof.Machine
open Sys2Proof

/-! ### The state after reset (R410) -/

/-- An empty black box, with BB_WARN at its reset value, is in order. -/
theorem Box.reset_inOrder : Box.reset.InOrder :=
  ⟨List.Pairwise.nil, nofun, Nat.zero_le _, by decide, by decide, le_rfl⟩

theorem State.reset_sound : State.reset.Sound :=
  ⟨⟨rfl, Box.reset_inOrder, nofun⟩, nofun⟩

theorem State.reset_wiped : Wiped State.reset :=
  ⟨rfl, rfl, rfl, rfl, rfl, rfl, rfl, rfl, rfl, rfl, rfl, rfl, rfl, rfl⟩

/-- Settles O2: with no hide, ring or port listed, each reads its reset value. -/
theorem resetIsSoundAndAsSpecified : Obligations.ResetIsSoundAndAsSpecified :=
  ⟨State.reset_sound, rfl, State.reset_wiped, fun _ => rfl, fun _ _ => rfl, rfl, rfl, rfl, fun _ => rfl, fun _ => rfl⟩

/-! ### Steps 1 to 6 (R400) -/

theorem standbyStart_of_unpowered {s : State} (unpowered : s.power.st = .off ∨ s.power.st = .lost) :
    standbyStart s = { s with power := { s.power with st := .standby, step := 0, holdup := false, cause := 1 } } :=
  if_pos (by simpa using unpowered)

theorem holdupOk_of_standby {s : State} (standby : s.power.st = .standby) :
    holdupOk s = { s with power := { s.power with st := .ready, step := 1, holdup := true } } := by
  simp [holdupOk, standby]

/-- The state in which step `k` has exceeded its limit. -/
def State.overrunAt (s : State) (k : Nat) : State :=
  { s with power := { s.power with st := .overrun, step := k - 1, overrun := k } }

/-- Step 1 runs in standby and steps 3 to 6 from the charged bank on; step 2 has no limit. -/
theorem stepOverrun_of_limit {s : State} {k : Nat} (limit : (s.power.st = .standby ∧ k = 1) ∨ (s.power.st = .ready ∧ 3 ≤ k)) :
    stepOverrun k s = s.overrunAt k :=
  if_pos (by simpa using limit)

/-- A device that an overrun holds in reset asserts PWR_ALERT_N (R443). -/
theorem overrunAt_pwrAlert (s : State) (k : Nat) : (s.overrunAt k).pwrAlert = true := by
  simp [State.pwrAlert, State.overrunAt]

/-- Settles O8: each event by its equation in the states in which it moves the sequencer. -/
theorem powerUpStepsFollowTheSequencer : Obligations.PowerUpStepsFollowTheSequencer :=
  ⟨fun _ unpowered => congrArg Host.Outcome.next (standbyStart_of_unpowered unpowered),
    fun _ standby => congrArg Host.Outcome.next (holdupOk_of_standby standby),
    fun s k limit => ⟨s.overrunAt k, congrArg Host.Outcome.next (stepOverrun_of_limit limit), rfl, overrunAt_pwrAlert s k⟩⟩

end Sys2Proof.Machine
end

section
/-!
PROOFS. Temperature sensors: readings, lost sensors, and the DRAM flags that follow them (R402, R403).
-/

namespace Sys2Proof.Machine
open Sys2Proof

/-- The state in which the sensors have taken their readings. -/
def State.readSensors (s : State) (readings : List (Nat × Int)) : State :=
  { s with sensors := readings.foldl (fun m r => amapUp Sensor.reset m r.1 (fun x => x.read r.1 r.2)) s.sensors }

/-- The state in which each region's DRAM flag follows its temperature (R403). -/
def State.flagDram (s : State) : State :=
  forAll s (List.range 64) (fun s r =>
    let hot := hotFlag (s.region r).hot (s.dramTemp r)
    if hot == (s.region r).hot then s else s.upRegion r (fun x => { x with hot := hot }))

/-- What every sample does, before any trip. -/
def State.sampled (s : State) (readings : List (Nat × Int)) : State := (s.readSensors readings).flagDram.judge

/-! ### One reading -/

theorem Sensor.read_valid (x : Sensor) (k : Nat) {v : Int} (low : -40 ≤ v) (high : v ≤ 150) :
    x.read k v = ⟨v, 0, false, decide (tripLevel k ≤ v)⟩ :=
  if_pos ⟨low, high⟩

theorem Sensor.read_invalid (x : Sensor) (k : Nat) {v : Int} (invalid : v < -40 ∨ 150 < v) :
    x.read k v = { x with bad := x.bad + 1, failed := x.failed || decide (3 ≤ x.bad + 1) } :=
  if_neg (by omega)

theorem readSensors_self (s : State) (k : Nat) (v : Int) : (s.readSensors [(k, v)]).sensor k = (s.sensor k).read k v :=
  AMap.get_set_same ..

theorem readSensors_other (s : State) (k : Nat) (v : Int) {j : Nat} (other : j ≠ k) :
    (s.readSensors [(k, v)]).sensor j = s.sensor j :=
  AMap.get_set_other _ _ _ other

/-- The DRAM flags follow the temperatures, which stay as they were. -/
theorem flagDram_spec (s : State) : (∀ k, s.flagDram.sensor k = s.sensor k) ∧ (∀ r, s.flagDram.dramTemp r = s.dramTemp r) ∧
    s.flagDram.power = s.power ∧ ∀ r < 64, (s.flagDram.region r).hot = hotFlag (s.region r).hot (s.dramTemp r) := by
  obtain ⟨sensors, clocks, power, flags, -⟩ := hot_fold (List.range 64) List.nodup_range s
  have same (k : Nat) : s.flagDram.sensor k = s.sensor k := congrArg (AMap.get Sensor.reset · k) sensors
  have lost : s.flagDram.clocks = s.clocks := clocks
  refine ⟨same, fun r => ?_, power, fun r inRange => flags r (List.mem_range.2 inRange)⟩
  unfold State.dramTemp State.sensorFailed
  rw [same, lost]

section
variable (s : State) (l : List (Nat × Int))

theorem sampled_sensor (j : Nat) : (s.sampled l).sensor j = (s.readSensors l).sensor j := by
  rw [State.sampled, judge_sensor]
  exact (flagDram_spec _).1 j

theorem sampled_power : (s.sampled l).power = s.power := by
  obtain ⟨-, -, power, -⟩ := flagDram_spec (s.readSensors l)
  exact (judge_power _).trans power

/-- After a sample each region's DRAM flag follows the temperature that the sample leaves. -/
theorem sampled_hot {r : Nat} (inRange : r < 64) :
    ((s.sampled l).region r).hot = hotFlag (s.region r).hot ((s.sampled l).dramTemp r) := by
  obtain ⟨-, temps, -, flags⟩ := flagDram_spec (s.readSensors l)
  rw [State.sampled, judge_region, judge_dram, temps, flags r inRange]
  rfl

end

theorem hotFlag_above (was : Bool) {t : Int} (above : 85 < t) : hotFlag was t = true := if_pos above

theorem hotFlag_below (was : Bool) {t : Int} (below : t ≤ 83) : hotFlag was t = false := by
  rw [hotFlag, if_neg (by omega), if_pos below]

theorem hotFlag_between (was : Bool) {t : Int} (low : 83 < t) (high : t ≤ 85) : hotFlag was t = was := by
  rw [hotFlag, if_neg (by omega), if_neg (by omega)]

/-! ### A sample of one reading -/

theorem sensorSample_of_quiet {s : State} {k : Nat} {v : Int} (powered : s.power.st ≠ .off)
    (quiet : (s.sensor k).trips k v = false) : sensorSample [(k, v)] s = s.sampled [(k, v)] := by
  unfold sensorSample
  rw [if_neg (by simpa using powered), List.filter_cons_of_neg (by simp [quiet])]
  rfl

/-- A reading that trips on the I/O die ends in its trip, also once the compute dies are off (R404). -/
theorem sensorSample_of_ioTrip {s : State} {k : Nat} {v : Int} (up : s.power.st = .running ∨ s.power.st = .tripped)
    (ioDie : 192 ≤ k) (trips : (s.sensor k).trips k v = true) : sensorSample [(k, v)] s = (s.sampled [(k, v)]).tripAt k := by
  have powered : s.power.st ≠ .off := by rcases up with up | up <;> simp [up]
  unfold sensorSample
  rw [if_neg (by simpa using powered), List.filter_cons_of_pos (by simp [trips])]
  dsimp only
  generalize taken : State.judge _ = t
  have sampled : s.sampled [(k, v)] = t := taken
  have stays : t.power.st = s.power.st := by rw [← sampled, sampled_power]
  rw [sampled, stays, List.find?_cons_of_pos (by simpa using ioDie)]
  rcases up with up | up <;> rw [up]

/-! ### A sensor without readings -/

/-- The state in which a sensor has failed. -/
def State.failSensor (s : State) (k : Nat) : State :=
  { s with sensors := amapUp Sensor.reset s.sensors k (fun x => { x with failed := true, trip := false }) }

theorem failSensor_self (s : State) (k : Nat) : (s.failSensor k).sensor k = { s.sensor k with failed := true, trip := false } :=
  AMap.get_set_same ..

theorem failSensor_other (s : State) (k : Nat) {j : Nat} (other : j ≠ k) : (s.failSensor k).sensor j = s.sensor j :=
  AMap.get_set_other _ _ _ other

/-- A lost DRAM sensor raises its region's flag, since it counts as 92 °C. -/
def State.flagLost (s : State) (k : Nat) : State :=
  if k < 192 ∧ k % 3 = 2 then s.upRegion (k / 3) (fun x => { x with hot := hotFlag x.hot 92 }) else s

theorem flagLost_sensor (s : State) (k j : Nat) : (s.flagLost k).sensor j = s.sensor j := by
  unfold State.flagLost
  split <;> rfl

theorem flagLost_dram (s : State) {r : Nat} (inRange : r < 64) : ((s.flagLost (3 * r + 2)).region r).hot = true := by
  have place : (3 * r + 2) / 3 = r := by omega
  rw [State.flagLost, if_pos (by omega), place, State.region_upRegion]
  exact hotFlag_above (s.region r).hot (t := 92) (by decide)

theorem sensorTimeout_of_powered {s : State} (k : Nat) (powered : s.power.st ≠ .off) :
    sensorTimeout k s = ((s.failSensor k).flagLost k).judge :=
  if_neg (by simpa using powered)

theorem dramTemp_of_failed {s : State} {r : Nat} (failed : (s.sensor (3 * r + 2)).failed = true) : s.dramTemp r = 92 :=
  if_pos (by simp [State.sensorFailed, failed])

/-- Settles O12: a sample of one reading that does not trip, and a timeout, by what each leaves of the sensors and the flags. -/
theorem temperatureReadingsAreTaken : Obligations.TemperatureReadingsAreTaken := by
  refine ⟨?sample, ?lost⟩
  case sample =>
    intro s k v powered quiet
    refine ⟨_, congrArg Host.Outcome.next (sensorSample_of_quiet powered quiet), ?_⟩
    simp only [sampled_sensor, readSensors_self]
    refine ⟨fun low high => ?valid, fun invalid => ?invalid, fun j other => readSensors_other s k v other, fun r inRange => ?flags⟩
    case valid =>
      rw [Sensor.read_valid _ _ low high]
      exact ⟨rfl, rfl, rfl⟩
    case invalid =>
      rw [Sensor.read_invalid _ _ invalid]
      simp only [Nat.reduceLeDiff, and_self]
    case flags =>
      rw [sampled_hot s _ inRange]
      exact ⟨fun above => hotFlag_above _ above, fun below => hotFlag_below _ below, fun low high => hotFlag_between _ low high⟩
  case lost =>
    intro s k powered
    refine ⟨_, congrArg Host.Outcome.next (sensorTimeout_of_powered k powered), ?_⟩
    simp only [judge_sensor, flagLost_sensor, judge_dram, judge_region]
    refine ⟨by rw [failSensor_self], fun j other => failSensor_other s k other, ?dram⟩
    case dram =>
      rintro r inRange rfl
      refine ⟨dramTemp_of_failed ?_, flagLost_dram _ inRange⟩
      rw [flagLost_sensor, failSensor_self]

end Sys2Proof.Machine
end

section
/-!
PROOFS. Device resets: what they wipe and keep, the cause that each latches, and the RESET record of the next boot (R400, R401, R404,
R410, R411).
-/

namespace Sys2Proof.Machine
open Sys2Proof

/-! ### RESET_N and the loss of the supply (R401, R410) -/

theorem deviceReset_wiped (s : State) (cause : Nat) : Wiped (s.deviceReset cause) :=
  ⟨rfl, rfl, rfl, rfl, rfl, rfl, rfl, rfl, rfl, rfl, rfl, rfl, rfl, rfl⟩

theorem deviceReset_storesKept (s : State) (cause : Nat) : StoresKept s (s.deviceReset cause) :=
  ⟨rfl, rfl, rfl, rfl, rfl, rfl, rfl, rfl, rfl⟩

/-- RESET_N resets a device that is past its power-up, or that an overrun holds. -/
theorem resetN_of_started {s : State} (started : s.power.st = .running ∨ s.power.st = .tripped ∨ s.power.st = .overrun) :
    resetN s = { (s.deviceReset 2) with resetPin := true } := by
  rcases started with st | st | st <;> simp [resetN, st]

/-- Settles O10: the supply is lost by `lose`, whatever took it, and RESET_N by the device reset that it is. -/
theorem powerLossAndResetWipeWhatIsVolatile : Obligations.PowerLossAndResetWipeWhatIsVolatile := by
  intro s running
  refine ⟨fun v => ⟨_, rfl, lose s running (if v then 6 else 3)⟩, ⟨_, rfl, lose s running 5⟩, ?resetN⟩
  case resetN =>
    refine ⟨_, congrArg Host.Outcome.next (resetN_of_started (.inl running)), ?_⟩
    exact ⟨deviceReset_wiped s 2, deviceReset_storesKept s 2, rfl, rfl, rfl, rfl⟩

/-! ### The cause (R411) -/

/-- A device that has a supply latches what took it. -/
theorem loseSupply_cause {s : State} (on : s.power.st ≠ .off) (unlost : s.power.st ≠ .lost) (cause : Nat) :
    (s.loseSupply cause).power.cause = cause := by
  unfold State.loseSupply
  split
  case h_1 off => exact absurd off on
  case h_2 lost => exact absurd lost unlost
  case h_3 => rfl

/-- A trip on the I/O die is a loss of the supply with cause 7 (R404). -/
theorem tripAt_cause {s : State} {k : Nat} (ioDie : 192 ≤ k) (on : s.power.st ≠ .off) (unlost : s.power.st ≠ .lost) :
    (s.tripAt k).power.cause = 7 := by
  rw [State.tripAt, if_pos ioDie]
  exact loseSupply_cause (s := s.record recPower (agent 15) 0xFF [6, k]) on unlost 7

/-- DEVICE_RESET, with its confirmation word, is logged and answered before it takes effect. -/
theorem deviceReset_of_heard {s : State} {q : Req} (heard : Heard s q .operator) : deviceReset q 0x52535456 s =
    ((s.config (bySession q.session) cfgReset 0 [1] 0xFF).reply q msgDeviceReset 0 []).deviceReset 4 := by
  rw [deviceReset, heard_run heard]
  exact if_neg (not_not.2 rfl)

/-! ### The record of a boot (R411) -/

/-- The RESET record of a boot holds the cause that was latched, the step reached, the step that overran, and the straps that
disagreed, whether or not a torn record was found before it. -/
theorem bootRecords_logged (s : State) (straps : BitVec 6) (torn : Bool) : Logged s (s.bootRecords straps torn) recReset (agent 15) 0xFF
    [1, s.power.cause, s.power.step, s.power.overrun, straps.toNat] := by
  have last (u : State) (power : u.power = s.power) (later : s.box.next ≤ u.box.next) :
      Logged s (u.record recReset (agent 15) 0xFF [1, u.power.cause, u.power.step, u.power.overrun, straps.toNat]) recReset (agent 15) 0xFF
        [1, s.power.cause, s.power.step, s.power.overrun, straps.toNat] := by
    obtain ⟨r, listed, seq, typ, origin, region, body⟩ := State.record_mem u recReset (agent 15) 0xFF
      [1, u.power.cause, u.power.step, u.power.overrun, straps.toNat]
    exact ⟨r, listed, seq ▸ later, typ, origin, region, by rw [body, power]⟩
  unfold State.bootRecords
  dsimp only
  split
  case isTrue => exact last s rfl le_rfl
  case isFalse =>
    have kept := State.tornRecord_kept s torn
    exact last (s.tornRecord torn) (kept.same .power (by decide)) kept.seq

/-- What a release does after the records of its boot leaves the black box alone. -/
theorem resetRelease_box {s : State} (ready : s.power.st = .ready) (charged : s.power.holdup = true) (a b c : BitVec 6) (code : BitVec 8)
    (x : BitVec 64) (torn : Bool) : (resetRelease a b c code x torn s).box = (s.bootRecords (strapDiffers a b c) torn).box := by
  rw [resetRelease, if_neg (by simp [ready, charged])]
  have run (u : State) : (u.bootRun (strapValue a b c) code x).box = u.box := (State.bootRun_kept _ code x u).same .box (by decide)
  have roots (u : State) : u.drawRoots.box = u.box := (State.drawRoots_kept u).same .box (by decide)
  have tested (u : State) : (u.failTested x).box = u.box := (State.failTested_kept x u).same .box (by decide)
  have trained (u : State) : u.trainAll.box = u.box := (State.trainAll_kept u).same .box (by decide)
  rw [trained, tested, roots, run]

theorem resetRelease_logged {s : State} (ready : s.power.st = .ready) (charged : s.power.holdup = true) (a b c : BitVec 6)
    (code : BitVec 8) (x : BitVec 64) (torn : Bool) : Logged s (resetRelease a b c code x torn s) recReset (agent 15) 0xFF
      [1, s.power.cause, s.power.step, s.power.overrun, (strapDiffers a b c).toNat] :=
  logged_of (bootRecords_logged s _ torn) (resetRelease_box ready charged a b c code x torn)

/-- Settles O59: each event latches its cause where it takes effect, and the record of a boot holds the cause and the step. -/
theorem everyDeviceResetLatchesItsCauseForTheResetRecord : Obligations.EveryDeviceResetLatchesItsCauseForTheResetRecord := by
  refine ⟨fun s unpowered => ?powerUp, fun s on unlost => ?supply, fun s started => ?resetN, fun s q heard => ?request,
    fun s k v up ioDie trips => ?trip, fun s a b c code x torn ready charged => ?record⟩
  case powerUp => exact ⟨_, congrArg Host.Outcome.next (standbyStart_of_unpowered unpowered), rfl⟩
  case supply =>
    have latched (cause : Nat) : (s.loseSupply cause).power.cause = cause := loseSupply_cause on unlost cause
    exact ⟨⟨_, rfl, latched 3⟩, ⟨_, rfl, latched 6⟩, _, rfl, latched 5⟩
  case resetN => exact ⟨_, congrArg Host.Outcome.next (resetN_of_started started), rfl⟩
  case request => exact ⟨_, congrArg Host.Outcome.next (deviceReset_of_heard heard), rfl⟩
  case trip =>
    refine ⟨_, congrArg Host.Outcome.next (sensorSample_of_ioTrip up ioDie trips), tripAt_cause ioDie ?_ ?_⟩
    all_goals rw [sampled_power]; rcases up with up | up <;> simp [up]
  case record =>
    obtain ⟨r, listed, new, typ, -, -, body⟩ := resetRelease_logged ready charged a b c code x torn
    exact ⟨_, rfl, r, listed, new, typ, by rw [body]; rfl, by rw [body]; rfl⟩

end Sys2Proof.Machine
end

section
/-!
PROOFS. Requests of the management port: the role that each needs, and the answers of those that read (R414 to R420, R432).
-/

namespace Sys2Proof.Machine
open Sys2Proof

/-! ### Roles (R414, R415) -/

/-- Each request of a session is some work, done for an open session whose role allows it. -/
theorem exec_of_requestRow {i : Instr} {q : Req} {typ : Nat} {need : Role} (row : requestRow i = some (q, typ, need)) (s : State) :
    ∃ work, exec i s = .next (s.request q typ need work) := by
  unfold requestRow at row
  split at row <;> cases row
  -- An enrolment names its session in an option, since the claim strap allows one without a session (R393).
  case h_15 => simp only [exec, execAnchorEnroll, anchorEnroll]; exact ⟨_, rfl⟩
  all_goals exact ⟨_, rfl⟩

/-- Settles O39: the work of a request is not reached without a session of the role that it needs. -/
theorem requestsNeedASessionAndItsRole : Obligations.RequestsNeedASessionAndItsRole := by
  intro i q typ need s row
  obtain ⟨work, run⟩ := exec_of_requestRow row s
  rw [run]
  exact ⟨fun unheard => congrArg Host.Outcome.next (request_off unheard),
    fun x portOpen known low => congrArg Host.Outcome.next (request_low portOpen known low)⟩

/-! ### The requests that read (R415 to R420, R432) -/

/-- The records that a BB_READ finds. -/
def State.recordsFrom (s : State) (seq : Nat) : List Rec := s.box.recs.filter (fun r => decide (seq ≤ r.seq))

/-- A session with a subscription (R415). -/
def Session.subscribed (x : Session) (period notices : Nat) : Session := { x with period := period, notices := notices == 1 }

/-- The state in which a session has subscribed. -/
def State.withSubscription (s : State) (id period notices : Nat) : State :=
  { s with mgmt := { s.mgmt with
    sessions := s.mgmt.sessions.map (fun x => if x.id = id then x.subscribed period notices else x) } }

section
variable {s : State} {q : Req} (heard : Heard s q .observer)
include heard

theorem regRead_of_heard {off count : Nat} {l : List Nat} (words : readWords off count = some l) : regRead q off count s =
    (s.globalTake l).message ⟨q.session, msgRegRead, q.tag, 0, l.flatMap (fun o => leBytes 4 (s.globalWord o))⟩ := by
  rw [regRead, heard_run heard, words]
  exact reply_0 _ _ _ _

theorem telemetry_of_heard :
    telemetry q s = s.telemetryTaken.message ⟨q.session, msgTelemetry, q.tag, 0, s.telemetryBody⟩ := by
  rw [telemetry, heard_run heard]
  exact reply_0 _ _ _ _

theorem loadStatus_of_heard {n : Nat} {l : Load} (known : s.mgmt.loads.find? (fun l => l.number == n) = some l) :
    loadStatus q n s = s.message ⟨q.session, msgLoadStatus, q.tag, 0, l.status⟩ := by
  rw [loadStatus, heard_run heard, known]
  exact reply_0 _ _ _ _

theorem bbRead_of_heard (seq : Nat) {limit : Nat} (low : 36 ≤ limit) (high : limit ≤ 1048000) : bbRead q seq limit s =
    s.message ⟨q.session, msgBbRead, q.tag, 0, (wholeRecords limit (s.recordsFrom seq)).flatMap Rec.image⟩ := by
  rw [bbRead, heard_run heard, if_pos (by simp [within, low, high])]
  exact reply_0 _ _ _ _

theorem subscribe_of_heard {period notices : Nat} (known : period ≤ 65536) (flag : notices ≤ 1) : subscribe q period notices s =
    (s.withSubscription q.session period notices).message ⟨q.session, msgSubscribe, q.tag, 0, []⟩ := by
  rw [subscribe, heard_run heard, if_neg (by omega)]
  exact reply_0 _ _ _ _

end

/-- A subscription is that of its own session. -/
theorem session_withSubscription (s : State) (id period notices j : Nat) : (s.withSubscription id period notices).session j =
    (s.session j).map (fun x => if x.id = id then x.subscribed period notices else x) :=
  subscribe_find s.mgmt.sessions (·.subscribed period notices) id j (fun _ => rfl)

theorem id_of_session {s : State} {id : Nat} {x : Session} (known : s.session id = some x) : x.id = id := by
  simpa using List.find?_some known

theorem session_withSubscription_other (s : State) (id period notices : Nat) {j : Nat} (other : j ≠ id) :
    (s.withSubscription id period notices).session j = s.session j := by
  rw [session_withSubscription]
  rcases known : s.session j with - | x
  case none => rfl
  case some => simp [id_of_session known, other]

theorem session_withSubscription_self {s : State} {id : Nat} {x : Session} (known : s.session id = some x) (period notices : Nat) :
    (s.withSubscription id period notices).session id = some (x.subscribed period notices) := by
  simp [session_withSubscription, known, id_of_session known]

theorem message_session (s : State) (m : Reply) (id : Nat) : (s.message m).session id = s.session id := rfl

/-- Settles O41: each request by its equation. -/
theorem readingRequestsAreAnswered : Obligations.ReadingRequestsAreAnswered := by
  intro s q heard
  refine ⟨fun off count l words => ?regRead, ?telemetry, fun n l known => ?loadStatus, fun seq limit low high => ?bbRead,
    fun period notices inRange flag => ?subscribe⟩
  case regRead =>
    have taken := State.globalTake_kept s l
    have mgmt : (s.globalTake l).mgmt = s.mgmt := taken.same .mgmt (by decide)
    refine ⟨_, congrArg Host.Outcome.next (regRead_of_heard heard words), taken.same .box (by decide), (congrArg Mgmt.sessions mgmt :),
      replied_message _ _ _ _ _, fun r rc => ?_⟩
    rw [message_read _ _ _ rc, take_read _ _ _ rc]
  case telemetry =>
    refine ⟨_, congrArg Host.Outcome.next (telemetry_of_heard heard), only_message ?_ (by decide) _, replied_message _ _ _ _ _,
      fun h => ?_⟩
    · exact only_more (tel_only s) (by decide)
    · rw [message_hide, tel_hide]
      exact ⟨rfl, rfl, rfl⟩
  case loadStatus =>
    exact ⟨_, congrArg Host.Outcome.next (loadStatus_of_heard heard known), message_only _ _, rfl, replied_message _ _ _ _ _⟩
  case bbRead =>
    exact ⟨_, wholeRecords limit (s.recordsFrom seq), congrArg Host.Outcome.next (bbRead_of_heard heard seq low high),
      message_only _ _, replied_message _ _ _ _ _, wholeRecords_spec limit (s.recordsFrom seq)⟩
  case subscribe =>
    refine ⟨_, congrArg Host.Outcome.next (subscribe_of_heard heard inRange flag), only_message (mgmt_only s _) (by decide) _,
      replied_message _ _ _ _ _, ?_, fun j other => ?_⟩
    · obtain ⟨-, x, known, -⟩ := heard
      exact ⟨x.subscribed period notices, session_withSubscription_self known period notices, rfl, rfl⟩
    · exact session_withSubscription_other s q.session period notices other

end Sys2Proof.Machine
end

section
/-!
PROOFS. Loads up to their end: opened one at a time, received in order, and discarded on a gap, a cancel or a timeout (R57, R58, R417).
-/

namespace Sys2Proof.Machine
open Sys2Proof

/-! ### The load that is open -/

/-- A new load, with the next number. -/
def State.newLoad (s : State) (opener : LoadFrom) (kind mode size : Nat) : Load :=
  ⟨s.mgmt.nextLoad, opener, kind, mode, size, 0, 4, 0, 0⟩

/-- The load that is opened while none is open is the open load. -/
theorem openLoad_opens {s : State} (free : s.mgmt.openLoad = none) (opener : LoadFrom) (kind mode size : Nat) :
    (s.openLoad opener kind mode size).1.mgmt.openLoad = some (s.newLoad opener kind mode size) := by
  have noneOpen : s.mgmt.loads.find? (fun l => l.st == 4) = none := free
  show (s.mgmt.loads ++ [s.newLoad opener kind mode size]).find? (fun l => l.st == 4) = _
  rw [List.find?_append, noneOpen]
  rfl

theorem openLoad_only (s : State) (opener : LoadFrom) (kind mode size : Nat) : Only [.mgmt] s (s.openLoad opener kind mode size).1 :=
  mgmt_only s _

/-- An ended load has the state and the result that its end gives it. -/
theorem endLoad_ended (s : State) (l : Load) (kind st code digest hide : Nat) :
    ∀ k ∈ (s.endLoad l kind st code digest hide).mgmt.loads, k.number = l.number → k.st = st ∧ k.result = code := by
  unfold State.endLoad
  rw [config_mgmt]
  exact upLoad_num s l.number (fun l => { l with st := st, result := code }) (fun _ => rfl) (fun k => k.st = st ∧ k.result = code)
    (fun _ => ⟨rfl, rfl⟩)

/-- The record of a load's end holds its code behind the kind of the change. -/
theorem endLoad_record (s : State) (l : Load) (kind st code digest hide : Nat) :
    ∃ r ∈ (s.endLoad l kind st code digest hide).box.recs,
      s.box.next ≤ r.seq ∧ r.typ = recConfig ∧ r.origin = l.origin s ∧ r.body.getD 1 0 = code := by
  obtain ⟨r, listed, new, typ, origin, -, body⟩ := endLoad_logged s l kind st code digest hide
  exact ⟨r, listed, new, typ, origin, by rw [body]; rfl⟩

/-! ### Loads of sessions -/

section
variable {s : State} {q : Req} (heard : Heard s q .operator)
include heard

section
variable {kind mode size : Nat} (known : kind ≤ 4) (modes : mode ≤ 1) (ofSections : mode = 1 → kind = 1) (sized : 0 < size)
  (fits : size < 2 ^ 32 - 1) (ready : s.loadReady kind = true)
include known modes ofSections sized fits ready

theorem loadBegin_of_free (free : s.mgmt.openLoad = none) : loadBegin q kind mode size s =
    (s.openLoad (.session q.session) kind mode size).1.message ⟨q.session, msgLoadBegin, q.tag, 0, leBytes 4 s.mgmt.nextLoad⟩ := by
  rw [loadBegin, heard_run heard, if_neg (by omega), if_neg (by simp [ready]), if_neg (by simp [free])]
  exact reply_0 _ _ _ _

theorem loadBegin_of_busy {l : Load} (busy : s.mgmt.openLoad = some l) : loadBegin q kind mode size s =
    s.message ⟨q.session, msgLoadBegin, q.tag, ldBusy, []⟩ := by
  rw [loadBegin, heard_run heard, if_neg (by omega), if_neg (by simp [ready]), if_pos (by simp [busy])]
  exact reply_busy _ _ _ _

end

theorem loadData_of_open {l : Load} {off len : Nat} (opened : s.sessionLoad l.number = some l) (fits : len ≤ 1048000) :
    loadData q l.number off len s = (s.loadBytes l off len (bySession q.session)).1.reply q msgLoadData
      (s.loadBytes l off len (bySession q.session)).2 [] := by
  rw [loadData, heard_run heard, opened]
  exact if_neg (Nat.not_lt.2 fits)

theorem loadCancel_of_open {l : Load} (opened : s.mgmt.openLoad = some l) : loadCancel q l.number s =
    (s.discardLoad l 0 (bySession q.session)).message ⟨q.session, msgLoadCancel, q.tag, 0, []⟩ := by
  rw [loadCancel, heard_run heard, opened]
  exact (if_pos rfl).trans (reply_0 _ _ _ _)

theorem loadCancel_of_other {n : Nat} (other : ∀ l, s.mgmt.openLoad = some l → l.number ≠ n) : loadCancel q n s =
    s.message ⟨q.session, msgLoadCancel, q.tag, mgRange, []⟩ := by
  rw [loadCancel, heard_run heard, ← reply_range]
  rcases opened : s.mgmt.openLoad with - | l
  case none => rfl
  case some => exact if_neg (other l opened)

end

theorem loadTimeout_of_started {s : State} {l : Load} (opened : s.mgmt.openLoad = some l) (started : l.received ≠ 0) :
    ∃ kind, loadTimeout s = s.endLoad l kind 3 ldFormat 0 0xFF := by
  unfold loadTimeout
  rw [opened]
  exact ⟨_, if_neg started⟩

/-! ### Loads of DOE mailboxes (R57) -/

section
variable {s : State} {ld h : Nat} (up : s.doeUp ld = true) (active : s.reamActive = true) (mine : s.hideOfLd ld = some h)
include up active mine

section
variable {mode size : Nat} (plain : (s.hide h).confidential = false)
include plain

theorem doeBegin_of_free (modes : mode < 2) (sized : 0 < size) (fits : size < 2 ^ 32 - 1) (free : s.mgmt.openLoad = none) :
    doeBegin ld mode size s = (s.openLoad (.doe h) 1 mode size).1.raw (doeHeader 1 s.mgmt.nextLoad 0 0) := by
  rw [doeBegin, doe_run up active mine]
  dsimp only
  rw [if_neg (by simp [plain]), if_neg (by simp [free]), if_neg (by omega)]
  rfl

theorem doeBegin_of_busy {l : Load} (busy : s.mgmt.openLoad = some l) : doeBegin ld mode size s = s.raw (doeHeader 1 0 ldBusy 0) := by
  rw [doeBegin, doe_run up active mine]
  dsimp only
  rw [if_neg (by simp [plain]), if_pos (by simp [busy])]

end

theorem doeStatus_of_own {n : Nat} {l : Load} (known : s.mgmt.loads.find? (fun l => l.number == n) = some l) (own : l.by_ = .doe h) :
    doeStatus ld n s = s.raw (doeHeader 4 n (if l.st = 4 then 0 else l.result) l.st) := by
  rw [doeStatus, doe_run up active mine, known]
  dsimp only
  rw [if_pos own]

variable {l : Load} (opened : s.mgmt.openLoad = some l)
include opened

theorem doeData_of_own {off len : Nat} (own : l.by_ = .doe h) (fits : len ≤ 262120) : doeData ld l.number off len s =
    (s.loadBytes l off len (byHide s h true)).1.raw (doeHeader 2 l.number (s.loadBytes l off len (byHide s h true)).2 0) := by
  rw [doeData, doe_run up active mine, own_open opened own]
  dsimp only
  rw [if_neg (Nat.not_lt.2 fits)]

theorem doeCancel_of_own (own : l.by_ = .doe h) : doeCancel ld l.number s =
    (s.discardLoad l 0 (byHide s h true)).raw (doeHeader 5 l.number 0 0) := by
  rw [doeCancel, doe_run up active mine, own_open opened own]

theorem doeCancel_of_other (other : l.by_ ≠ .doe h) (n : Nat) : doeCancel ld n s = s.raw (doeHeader 5 n mgRange 0) := by
  rw [doeCancel, doe_run up active mine, own_other opened other]
  rfl

end

/-- Settles O43: each event by its equation, with `loadBytes_take` for bytes in order and `discard_spec` for a load that is discarded. -/
theorem loadsAreOpenedReceivedAndDiscarded : Obligations.LoadsAreOpenedReceivedAndDiscarded := by
  refine ⟨fun s q heard => ⟨?begin, ?data, ?cancel, ?cancelOther⟩, ?timeout,
    fun s ld h up active mine => ⟨?doeBegin, ?doeData, ?doeStatus, ?doeCancel⟩⟩
  case begin =>
    intro kind mode size known modes ofSections sized fits ready
    rcases opened : s.mgmt.openLoad with - | l
    case none =>
      refine ⟨_, congrArg Host.Outcome.next (loadBegin_of_free heard known modes ofSections sized fits ready opened),
        only_message (openLoad_only _ _ _ _ _) (by decide) _, fun _ => ⟨replied_message _ _ _ _ _, ?_⟩, fun busy => absurd rfl busy⟩
      exact openLoad_opens opened ..
    case some =>
      exact ⟨_, congrArg Host.Outcome.next (loadBegin_of_busy heard known modes ofSections sized fits ready opened), message_only _ _,
        nofun, fun _ => ⟨replied_message _ _ _ _ _, rfl⟩⟩
  case data =>
    intro l off len opened fits whole
    refine ⟨_, rfl, only_of_exec (i := .loadData q l.number off len) rfl, ?_⟩
    rw [loadData_of_open heard opened fits]
    refine ⟨fun inOrder room => ?taken, fun gap => ?discarded⟩
    case taken =>
      obtain ⟨takes, grows⟩ := loadBytes_take s l off len (bySession q.session) (session_load opened).1 whole inOrder room
      rw [takes]
      exact ⟨replied_message _ _ _ _ _, rfl, grows⟩
    case discarded =>
      rw [loadBytes_gap s l off len _ whole gap]
      obtain ⟨discarded, -⟩ := discard_spec s l mgMalformed (bySession q.session)
      obtain ⟨replied, -, kept⟩ := reply_same (s.discardLoad l mgMalformed (bySession q.session)) q msgLoadData mgMalformed []
      exact ⟨replied, kept _ discarded⟩
  case cancel =>
    intro l opened
    obtain ⟨discarded, -, -, logged, only⟩ := discard_spec s l 0 (bySession q.session)
    exact ⟨_, congrArg Host.Outcome.next (loadCancel_of_open heard opened), only_message only (by decide) _,
      replied_message _ _ _ _ _, logged, discarded⟩
  case cancelOther =>
    intro n other
    exact ⟨_, congrArg Host.Outcome.next (loadCancel_of_other heard other), message_only _ _, replied_message _ _ _ _ _, rfl⟩
  case timeout =>
    intro s l opened started
    obtain ⟨kind, ends⟩ := loadTimeout_of_started opened started
    exact ⟨_, congrArg Host.Outcome.next ends, endLoad_only _ _ _ _ _ _ _, endLoad_ended _ _ _ _ _ _ _, endLoad_record _ _ _ _ _ _ _⟩
  case doeBegin =>
    intro mode size modes sized fits plain
    rcases opened : s.mgmt.openLoad with - | l
    case none =>
      refine ⟨_, congrArg Host.Outcome.next (doeBegin_of_free up active mine plain modes sized fits opened),
        only_trans (openLoad_only _ _ _ _ _) (raw_only _ _), fun _ => ⟨rfl, ?_⟩, fun busy => absurd rfl busy⟩
      exact openLoad_opens opened ..
    case some =>
      exact ⟨_, congrArg Host.Outcome.next (doeBegin_of_busy up active mine plain opened), raw_only _ _,
        nofun, fun _ => ⟨rfl, rfl⟩⟩
  case doeData =>
    intro l off len opened own fits whole
    refine ⟨_, rfl, only_of_exec (i := .doeData ld l.number off len) rfl, ?_⟩
    rw [doeData_of_own up active mine opened own fits]
    refine ⟨fun inOrder room => ?taken, fun gap => ?discarded⟩
    case taken =>
      obtain ⟨takes, grows⟩ := loadBytes_take s l off len (byHide s h true) opened whole inOrder room
      rw [takes]
      exact ⟨rfl, rfl, grows⟩
    case discarded =>
      rw [loadBytes_gap s l off len _ whole gap]
      obtain ⟨discarded, -, raw, -⟩ := discard_spec s l mgMalformed (byHide s h true)
      exact ⟨congrArg (· ++ _) raw, discarded⟩
  case doeStatus =>
    intro l n known own
    exact congrArg Host.Outcome.next (doeStatus_of_own up active mine known own)
  case doeCancel =>
    intro l opened
    refine ⟨fun own => ?own, fun other => ?other⟩
    case own =>
      obtain ⟨discarded, -, raw, -, only⟩ := discard_spec s l 0 (byHide s h true)
      exact ⟨_, congrArg Host.Outcome.next (doeCancel_of_own up active mine opened own),
        only_trans only (only_more (raw_only _ _) (by decide)), congrArg (· ++ _) raw, discarded⟩
    case other =>
      exact ⟨_, congrArg Host.Outcome.next (doeCancel_of_other up active mine opened other _), raw_only _ _, rfl, rfl⟩

end Sys2Proof.Machine
end

section
/-!
PROOFS. The IDCODE at the test port: its fields, and that every debug state lets it be read (R445).
-/

namespace Sys2Proof.Machine
open Sys2Proof

/-- The IDCODE as a number: the constant word below the stepping's four bits, with no carry between them. -/
theorem idcode_toNat : idcode.toNat = 0x0096056F + 2 ^ 28 * (Config.stepping.toNat % 16) := by
  have fits : 0x0096056F + 2 ^ 28 * (Config.stepping.toNat % 16) < 2 ^ 32 := by omega
  exact (BitVec.toNat_ofNat _ 32).trans (Nat.mod_eq_of_lt fits)

theorem idcode_stepping : bits idcode.toNat 28 4 = Config.stepping.toNat % 16 := by
  rw [idcode_toNat, bits]
  omega

theorem idcode_memberCode : bits idcode.toNat 12 16 = 0x0960 := by
  rw [idcode_toNat, bits]
  omega

theorem idcode_manufacturer : bits idcode.toNat 1 11 = 0x2B7 := by
  rw [idcode_toNat, bits]
  omega

theorem idcode_lowBit : idcode.getLsbD 0 = true := by
  rw [BitVec.getLsbD, idcode_toNat, Nat.testBit_zero, decide_eq_true_eq]
  omega

/-- The test port of a device that has a supply takes IDCODE, whatever the debug state and RESET_N. -/
theorem tapInstruction_idcode {s : State} (on : s.power.st ≠ .off) :
    tapInstruction .idcode s = { s with tap := ⟨.idcode, some idcode⟩ } := by
  have supplied : (s.power.st == .off) = false := beq_eq_false_iff_ne.mpr on
  have allowed : tapAllowed s.dex.debug s.resetPin .idcode = true := rfl
  simp [tapInstruction, supplied, allowed]

/-- Settles O49: the test port takes IDCODE in every debug state, and each field is read off the word as a number. -/
theorem theIdcodeIsReadableInEveryDebugState : Obligations.TheIdcodeIsReadableInEveryDebugState := by
  intro s on
  have run : exec (.tapInstruction .idcode) s = .next { s with tap := ⟨.idcode, some idcode⟩ } :=
    congrArg Host.Outcome.next (tapInstruction_idcode on)
  exact ⟨_, idcode, run, only_of_exec run, rfl, rfl, idcode_stepping, idcode_memberCode, idcode_manufacturer, idcode_lowBit⟩

end Sys2Proof.Machine
end
